-- ==== Sys2Proof/Word.lean ====
section
/-! DEFINITION. The word types of Tesogor and their plainest arithmetic (spec 00 R2). -/

namespace Sys2Proof

/-- A byte is 8 bits (R2). -/
abbrev Byte := BitVec 8
/-- A half is 16 bits (R2). -/
abbrev Half := BitVec 16
/-- A word is 32 bits (R2). -/
abbrev Word := BitVec 32
/-- A doubleword is 64 bits (R2). -/
abbrev DWord := BitVec 64
/-- One bit for each lane of a warp (R7: 32 lanes). -/
abbrev Mask := BitVec 32

/-- An 8-bit operand field of an instruction word (R100, R102). -/
abbrev Fld := BitVec 8

end Sys2Proof
end

