-- ==== Sys2Proof/Config.lean ====
section
/-! DEFINITION. What the spec leaves to an implementation or leaves open: constants with no body, so that
no proof can use a value of them. Each is named in a log entry. -/

namespace Sys2Proof.Config

/-- The n-th free choice that the spec leaves open during a run (R57). Log 2. -/
opaque choice : Nat → Nat
/-- Number of deferred adds that the L2 share of a die holds: not a fixed figure (R178). Log 11. -/
opaque l2Adds : Nat → Nat
/-- Whether the signature of a firmware image verifies against the Sircia key whose hash is fused (R402). Log 6. -/
opaque sigValid : List (BitVec 8) → Bool
/-- Whether a firmware image accepts a state table of a version (R383). Log 6. -/
opaque tableAccepted : List (BitVec 8) → BitVec 16 → Bool
/-- The signature of an SPDM reply under the identity key, which never leaves the root (R403). Log 6. -/
opaque idSign : List Nat → Nat
/-- The ciphertext of a 128-byte line of a bound granule under the key of a context: context, physical address of the line,
plaintext (R404). Log 12. -/
opaque cipher : Nat → Nat → List (BitVec 8) → List (BitVec 8)
/-- The sealed form of a field of a confidential context: context, place, clear value (R405). Log 12. -/
opaque sealed : Nat → Nat → Nat → Nat

/-- The bytes of a sealed unit of a save area: unit, place (R325, R405). Log 12. -/
opaque sealByte : Nat → Nat → BitVec 8

/-- The head of the waiter list of an entry of a future table, in the task unit's own format: entry, clock (R263). Log 9. -/
opaque waiterHead : Nat → Nat → Nat

/-- The granules that the root picks for a context that becomes confidential: context and choice number (R404). Log 6. -/
opaque rootGranules : Nat → Nat → List Nat
/-- The boot firmware that the root measures (R403). Log 6. -/
opaque bootImage : List (BitVec 8)

end Sys2Proof.Config
end

