-- ==== Sys2Proof/Machine/Flags.lean ====
section
/-! DEFINITION. The floating-point flags of a warp (03 R65, 05 R77). -/

namespace Sys2Proof.Machine

/-- The sticky flags in the places of FLAGS[4:0] (R65). -/
abbrev FFlags := BitVec 5

/-- Invalid operation (R65). -/
def fNV : FFlags := 16
/-- Division by zero (R65). -/
def fDZ : FFlags := 8
/-- Overflow (R65). -/
def fOF : FFlags := 4
/-- Underflow (R65). -/
def fUF : FFlags := 2
/-- Inexact (R65). -/
def fNX : FFlags := 1

/-- A flag that is raised when a condition holds. -/
def flagIf (b : Bool) (f : FFlags) : FFlags := if b then f else 0

/-- Flags raised by several lanes or steps together (R65, R122). -/
def orFlags (l : List FFlags) : FFlags := l.foldl (· ||| ·) 0

end Sys2Proof.Machine
end

