-- ==== Sys2Proof/Syntax.lean ====
section
/-! DEFINITION. The instructions: one constructor for each row of the spec's table of operations and
events. Lane words (07 R106, R107), matrix-stream words (07 R109), splice words (25 R366), command packets
(27 R388) and the part's events. An event's operands carry the choices that the spec leaves to the hardware,
to the host or to the fabric (log 3). A lane operand is the raw 8-bit field of the word (R102). -/

namespace Sys2Proof

/-! Operands of events that belong together. -/

/-- What a packet brings: its bytes, and whether it came marked as beyond repair (29 R408). -/
structure Payload where
  bytes : List Byte
  bad : Bool
deriving DecidableEq, Repr

/-- A packet of a message: its number in the message, and what it brings (25 R371, R379). -/
structure Part where
  seq : Nat
  load : Payload
deriving DecidableEq, Repr

/-- What tells that launches on several packages belong to one grid: GATEFID and MKEY (01 R30). -/
structure GridKey where
  gfid : Nat
  mkey : DWord
deriving DecidableEq, Repr

/-- A package of a grid over several: the grid's launch serial here, and the package's rank (01 R30). -/
structure Peer where
  serial : Nat
  rank : Nat
deriving DecidableEq, Repr

/-- A unit that ends its initialisation, by its READY bit; a firmware complex with its image and the image's version (29 R402,
R411). -/
structure ReadyUnit where
  bit : Nat
  image : List Byte
  version : Nat
deriving DecidableEq, Repr

/-- Where a check finds an error: the die that reports it, and the unit there (29 R409). -/
structure ErrorSite where
  die : Nat
  unit : Nat
deriving DecidableEq, Repr

/-- What a refusal refuses: the detail code, and whether the refused packet is the header of a tagged message (25 R359). -/
structure RefusalCode where
  detail : Nat
  header : Bool
deriving DecidableEq, Repr

/-- A packet's header as it comes over a link (25 R350). -/
structure LinkHeader where
  link : Nat
  hdr : DWord
deriving DecidableEq, Repr

/-- One operation or event of the part. -/
inductive Instr where
  /-- IADD (R123). Integer add modulo 2^32. -/
  | iadd (d : Fld) (a : Fld) (b : Fld)
  /-- IADDI (R123). Integer add of a sign-extended 8-bit immediate. -/
  | iaddi (d : Fld) (a : Fld) (imm : Fld)
  /-- ISUB (R123). Integer subtract modulo 2^32. -/
  | isub (d : Fld) (a : Fld) (b : Fld)
  /-- IMUL (R123). Low 32 bits of the integer product. -/
  | imul (d : Fld) (a : Fld) (b : Fld)
  /-- IMULHS (R123). High 32 bits of the signed product. -/
  | imulhs (d : Fld) (a : Fld) (b : Fld)
  /-- IMULHU (R123). High 32 bits of the unsigned product. -/
  | imulhu (d : Fld) (a : Fld) (b : Fld)
  /-- IMAD (R123). Integer multiply-add with C in the tail word. -/
  | imad (d : Fld) (a : Fld) (b : Fld) (c : Fld)
  /-- IMIN (R123). Signed minimum. -/
  | imin (d : Fld) (a : Fld) (b : Fld)
  /-- IMAX (R123). Signed maximum. -/
  | imax (d : Fld) (a : Fld) (b : Fld)
  /-- UMIN (R123). Unsigned minimum. -/
  | umin (d : Fld) (a : Fld) (b : Fld)
  /-- UMAX (R123). Unsigned maximum. -/
  | umax (d : Fld) (a : Fld) (b : Fld)
  /-- IABS (R123). Absolute value of a signed integer. -/
  | iabs (d : Fld) (a : Fld)
  /-- INEG (R123). Integer negate. -/
  | ineg (d : Fld) (a : Fld)
  /-- AND (R123). Bitwise AND. -/
  | iand (d : Fld) (a : Fld) (b : Fld)
  /-- OR (R123). Bitwise OR. -/
  | ior (d : Fld) (a : Fld) (b : Fld)
  /-- XOR (R123). Bitwise exclusive OR. -/
  | ixor (d : Fld) (a : Fld) (b : Fld)
  /-- ANDN (R123). A AND NOT B. -/
  | andn (d : Fld) (a : Fld) (b : Fld)
  /-- NOT (R123). Bitwise NOT. -/
  | inot (d : Fld) (a : Fld)
  /-- SHL (R123). Shift left by a register amount. -/
  | shl (d : Fld) (a : Fld) (b : Fld)
  /-- SHR (R123). Logical shift right by a register amount. -/
  | shr (d : Fld) (a : Fld) (b : Fld)
  /-- SAR (R123). Arithmetic shift right by a register amount. -/
  | sar (d : Fld) (a : Fld) (b : Fld)
  /-- ROTL (R123). Rotate left. -/
  | rotl (d : Fld) (a : Fld) (b : Fld)
  /-- SHLI (R123). Shift left by an immediate. -/
  | shli (d : Fld) (a : Fld) (imm : Fld)
  /-- SHRI (R123). Logical shift right by an immediate. -/
  | shri (d : Fld) (a : Fld) (imm : Fld)
  /-- SARI (R123). Arithmetic shift right by an immediate. -/
  | sari (d : Fld) (a : Fld) (imm : Fld)
  /-- POPC (R123). Population count. -/
  | popc (d : Fld) (a : Fld)
  /-- CLZ (R123). Count of leading zeros. -/
  | clz (d : Fld) (a : Fld)
  /-- BREV (R123). Bit reverse. -/
  | brev (d : Fld) (a : Fld)
  /-- BFX (R124). Bit-field extract with sign or zero extension. -/
  | bfx (d : Fld) (a : Fld) (sub : BitVec 4) (aux : Fld)
  /-- BFI (R125). Bit-field insert of a power-of-two width. -/
  | bfi (d : Fld) (a : Fld) (b : Fld) (aux : Fld)
  /-- LEA (R123). A plus B shifted left by AUX. -/
  | lea (d : Fld) (a : Fld) (b : Fld) (aux : Fld)
  /-- ADD64 (R126). 64-bit add of register pairs. -/
  | add64 (d : Fld) (a : Fld) (b : Fld)
  /-- SUB64 (R126). 64-bit subtract of register pairs. -/
  | sub64 (d : Fld) (a : Fld) (b : Fld)
  /-- MULW (R126). Full 64-bit product, signed or unsigned. -/
  | mulw (d : Fld) (a : Fld) (b : Fld) (sub : BitVec 4)
  /-- MOV (R127). Register move. -/
  | mov (d : Fld) (a : Fld)
  /-- MOVI (R127). Move of a sign-extended 16-bit immediate. -/
  | movi (d : Fld) (imm : Half)
  /-- MOVHI (R127). Sets the high half of D and keeps its low half. -/
  | movhi (d : Fld) (imm : Half)
  /-- MOVL (R127). Move of a 32-bit literal word. -/
  | movl (d : Fld) (lit : Word)
  /-- SELP (R127). Per-lane select between A and B by a predicate. -/
  | selp (d : Fld) (a : Fld) (b : Fld) (pd : BitVec 3) (pn : BitVec 1)
  /-- ICMP (R128). Integer compare into a predicate. -/
  | icmp (d : Fld) (a : Fld) (b : Fld) (sub : BitVec 4) (ty : BitVec 3)
  /-- FCMP (R129). FP32 compare into a predicate. -/
  | fcmp (d : Fld) (a : Fld) (b : Fld) (sub : BitVec 4)
  /-- PAND (R130). Predicate AND. -/
  | pand (d : Fld) (a : Fld) (b : Fld)
  /-- POR (R130). Predicate OR. -/
  | por (d : Fld) (a : Fld) (b : Fld)
  /-- PXOR (R130). Predicate exclusive OR. -/
  | pxor (d : Fld) (a : Fld) (b : Fld)
  /-- PNOT (R130). Predicate NOT. -/
  | pnot (d : Fld) (a : Fld)
  /-- PMOV (R130). Predicate move. -/
  | pmov (d : Fld) (a : Fld)
  /-- PTOV (R130). Writes a predicate bit as 0 or 1 into a register. -/
  | ptov (d : Fld) (a : Fld)
  /-- FADD (R131). FP32 add rounded to nearest, one-word form. -/
  | fadd (d : Fld) (a : Fld) (b : Fld)
  /-- FADD_T (R131). FP32 add with a rounding mode in the tail word. -/
  | faddT (d : Fld) (a : Fld) (b : Fld) (rnd : BitVec 2)
  /-- FSUB (R131). FP32 subtract rounded to nearest, one-word form. -/
  | fsub (d : Fld) (a : Fld) (b : Fld)
  /-- FSUB_T (R131). FP32 subtract with a rounding mode in the tail word. -/
  | fsubT (d : Fld) (a : Fld) (b : Fld) (rnd : BitVec 2)
  /-- FMUL (R131). FP32 multiply rounded to nearest, one-word form. -/
  | fmul (d : Fld) (a : Fld) (b : Fld)
  /-- FMUL_T (R131). FP32 multiply with a rounding mode in the tail word. -/
  | fmulT (d : Fld) (a : Fld) (b : Fld) (rnd : BitVec 2)
  /-- FFMA (R131). FP32 fused multiply-add with a single rounding. -/
  | ffma (d : Fld) (a : Fld) (b : Fld) (c : Fld) (rnd : BitVec 2)
  /-- FMIN (R132). FP32 minimum. -/
  | fmin (d : Fld) (a : Fld) (b : Fld)
  /-- FMAX (R132). FP32 maximum. -/
  | fmax (d : Fld) (a : Fld) (b : Fld)
  /-- FABS (R133). Clears the sign bit. -/
  | fabs (d : Fld) (a : Fld)
  /-- FNEG (R133). Inverts the sign bit. -/
  | fneg (d : Fld) (a : Fld)
  /-- FRND (R134). Rounds to an integral FP32 value. -/
  | frnd (d : Fld) (a : Fld) (rnd : BitVec 2)
  /-- FRCP (R135). Correctly rounded reciprocal. -/
  | frcp (d : Fld) (a : Fld)
  /-- FRSQ (R135). Correctly rounded reciprocal square root. -/
  | frsq (d : Fld) (a : Fld)
  /-- FSQRT (R135). Square root with a rounding mode. -/
  | fsqrt (d : Fld) (a : Fld) (rnd : BitVec 2)
  /-- FEXP2 (R135). Correctly rounded base-2 exponential. -/
  | fexp2 (d : Fld) (a : Fld)
  /-- FLOG2 (R135). Correctly rounded base-2 logarithm. -/
  | flog2 (d : Fld) (a : Fld)
  /-- FSIN (R135). Correctly rounded sine. -/
  | fsin (d : Fld) (a : Fld)
  /-- FCOS (R135). Correctly rounded cosine. -/
  | fcos (d : Fld) (a : Fld)
  /-- FCLASS (R133). Writes a one-hot mask of the operand's class. -/
  | fclass (d : Fld) (a : Fld)
  /-- HADD2 (R136). Packed FP16 add. -/
  | hadd2 (d : Fld) (a : Fld) (b : Fld)
  /-- HMUL2 (R136). Packed FP16 multiply. -/
  | hmul2 (d : Fld) (a : Fld) (b : Fld)
  /-- HFMA2 (R136). Packed FP16 fused multiply-add. -/
  | hfma2 (d : Fld) (a : Fld) (b : Fld) (c : Fld)
  /-- HMAX2 (R136). Packed FP16 maximum. -/
  | hmax2 (d : Fld) (a : Fld) (b : Fld)
  /-- HMIN2 (R136). Packed FP16 minimum. -/
  | hmin2 (d : Fld) (a : Fld) (b : Fld)
  /-- BADD2 (R136). Packed BF16 add. -/
  | badd2 (d : Fld) (a : Fld) (b : Fld)
  /-- BMUL2 (R136). Packed BF16 multiply. -/
  | bmul2 (d : Fld) (a : Fld) (b : Fld)
  /-- BFMA2 (R136). Packed BF16 fused multiply-add. -/
  | bfma2 (d : Fld) (a : Fld) (b : Fld) (c : Fld)
  /-- CVT (R137). Converts one element part between formats. -/
  | cvt (d : Fld) (a : Fld) (sub : BitVec 4) (rnd : BitVec 2) (aux : Fld)
  /-- TEPACK (R138). Packs the warp's 32 FP32 values into two TE blocks. -/
  | tepack (d : Fld) (a : Fld) (aux : Fld)
  /-- TEUNPK (R138). Unpacks two TE blocks into 32 FP32 values. -/
  | teunpk (d : Fld) (a : Fld) (aux : Fld)
  /-- SCALEX (R139). Encodes or decodes E8M0-scaled 8-bit elements in groups of 8 lanes. -/
  | scalex (d : Fld) (a : Fld) (b : Fld) (sub : BitVec 4) (aux : Fld)
  /-- SHUF (R140). Copies values from a per-lane source lane. -/
  | shuf (d : Fld) (a : Fld) (b : Fld)
  /-- SHUFUP (R140). Copies from lane L minus n. -/
  | shufup (d : Fld) (a : Fld) (n : Fld)
  /-- SHUFDN (R140). Copies from lane L plus n. -/
  | shufdn (d : Fld) (a : Fld) (n : Fld)
  /-- SHUFX (R140). Copies from lane L XOR n. -/
  | shufx (d : Fld) (a : Fld) (n : Fld)
  /-- VOTEALL (R141). Sets a predicate if every active lane has the bit. -/
  | voteall (d : Fld) (a : Fld)
  /-- VOTEANY (R141). Sets a predicate if some active lane has the bit. -/
  | voteany (d : Fld) (a : Fld)
  /-- BALLOT (R141). Writes the active mask ANDed with a predicate. -/
  | ballot (d : Fld) (a : Fld)
  /-- MATCH (R141). Writes the mask of active lanes that hold an equal value. -/
  | matchLanes (d : Fld) (a : Fld)
  /-- REDUX (R142). Reduction over the active lanes in ascending lane order. -/
  | redux (d : Fld) (a : Fld) (sub : BitVec 4)
  /-- SCAN (R142). Inclusive prefix over the active lanes. -/
  | scan (d : Fld) (a : Fld) (sub : BitVec 4)
  /-- BRA (R145). Unconditional relative branch. -/
  | bra (off : BitVec 24)
  /-- BRC (R145). Branch taken by lanes whose predicate bit is set. -/
  | brc (off : BitVec 24) (pd : BitVec 3) (pn : BitVec 1)
  /-- BRX (R145). Branch of each lane to its own register target. -/
  | brx (a : Fld)
  /-- CALL (R146). Writes the link register and branches. -/
  | call (off : BitVec 24) (c : Fld)
  /-- CALLX (R146). Writes the link register and branches each lane to its register target. -/
  | callx (d : Fld) (a : Fld)
  /-- RET (R146). Branch of each lane to its register target. -/
  | ret (a : Fld)
  /-- RECONV (R147). Opens a reconvergence entry with its join clause and members. -/
  | reconv (off : BitVec 24)
  /-- REFORM (R151). Files each active lane's thread into a reform bin. -/
  | reform (a : Fld)
  /-- SLEEP (R152). Makes the current group wait at least n clocks. -/
  | sleep (imm : Half)
  /-- LDL (R190). LM word load, one-word form. -/
  | ldl (s : Fld) (base : Fld) (off : Fld)
  /-- LDL_T (R190). LM load with a size in the tail word. -/
  | ldlT (s : Fld) (base : Fld) (off : Fld) (ty : BitVec 3)
  /-- STL (R190). LM word store, one-word form. -/
  | stl (s : Fld) (base : Fld) (off : Fld)
  /-- STL_T (R190). LM store with a size in the tail word. -/
  | stlT (s : Fld) (base : Fld) (off : Fld) (ty : BitVec 3)
  /-- LDG (R190). Global word load, one-word form. -/
  | ldg (s : Fld) (base : Fld) (off : Fld)
  /-- LDG_T (R190). Global load with a hint and size in the tail word. -/
  | ldgT (s : Fld) (base : Fld) (off : Fld) (sub : BitVec 4) (ty : BitVec 3)
  /-- STG (R190). Global word store, one-word form. -/
  | stg (s : Fld) (base : Fld) (off : Fld)
  /-- STG_T (R190). Global store with a hint and size in the tail word. -/
  | stgT (s : Fld) (base : Fld) (off : Fld) (sub : BitVec 4) (ty : BitVec 3)
  /-- LDK (R191). Word load through the constant path. -/
  | ldk (s : Fld) (base : Fld) (off : Fld)
  /-- LDA (R192). Global load that is an acquire at its scope. -/
  | lda (s : Fld) (base : Fld) (off : Fld) (scope : BitVec 3) (ty : BitVec 3)
  /-- STREL (R192). Global store that is a release at its scope. -/
  | strel (s : Fld) (base : Fld) (off : Fld) (scope : BitVec 3) (ty : BitVec 3)
  /-- ATOM (R193). Global read-modify-write atomic. -/
  | atom (s : Fld) (base : Fld) (off : Fld) (c : Fld) (sub : BitVec 4) (scope : BitVec 3) (ty : BitVec 3)
  /-- ATOMC (R194). Global compare-and-swap. -/
  | atomc (s : Fld) (base : Fld) (off : Fld) (c : Fld) (scope : BitVec 3) (ty : BitVec 3) (aux : Fld)
  /-- ATOML (R195). LM atomic. -/
  | atoml (s : Fld) (base : Fld) (off : Fld) (c : Fld) (sub : BitVec 4) (ty : BitVec 3)
  /-- FATOM (R196). Deferred floating-point add to a global location. -/
  | fatom (base : Fld) (off : Fld) (c : Fld) (sub : BitVec 4) (ty : BitVec 3)
  /-- FENCE (R197). Acquire, release or both at a scope. -/
  | fence (sub : BitVec 4) (scope : BitVec 3)
  /-- BARINIT (R199). Sets the count of a named barrier. -/
  | barinit (a : Fld) (n : Fld)
  /-- BARA (R200). Arrives at a named barrier. -/
  | bara (n : Fld)
  /-- BARW (R200). Waits for the phase of the thread's most recent arrival. -/
  | barw (n : Fld)
  /-- BARS (R200). Arrives at a named barrier and waits. -/
  | bars (n : Fld)
  /-- RWRITE (R211). Deposits values into a lane register of another warp of the gang and increments its arrival counter. -/
  | rwrite (n : Fld) (a : Fld) (b : Fld)
  /-- RWAIT (R212). Waits until the arrival counter reaches a value. -/
  | rwait (a : Fld)
  /-- RCOUNT (R212). Reads the arrival counter. -/
  | rcount (d : Fld)
  /-- CLAIM (R213). Requests register granules from the core's frame pool. -/
  | claim (m : Fld)
  /-- GIVE (R213). Returns register granules to the pool. -/
  | give (m : Fld)
  /-- BMOV_WRITE (R214). Writes a block-uniform register. -/
  | bmovWrite (d : Fld) (a : Fld)
  /-- BMOV_READ (R214). Reads a block-uniform register. -/
  | bmovRead (d : Fld) (a : Fld)
  /-- TLBLOCK (R210). Declares a locked region and locks its TLB entries. -/
  | tlblock (a : Fld) (b : Fld)
  /-- TLBUNLK (R210). Releases a locked region. -/
  | tlbunlk (a : Fld)
  /-- ACOPY (R203). Starts an asynchronous copy between LM and global memory. -/
  | acopy (d : Fld) (a : Fld) (b : Fld) (c : Fld) (sub : BitVec 4) (ty : BitVec 3)
  /-- BCOPY (R204). Starts an asynchronous tensor copy described by a shape record. -/
  | bcopy (d : Fld) (a : Fld) (b : Fld) (sub : BitVec 4)
  /-- GATHER (R205). Starts an asynchronous copy of one piece per lane into LM. -/
  | gather (d : Fld) (a : Fld) (b : Fld) (c : Fld) (ty : BitVec 3)
  /-- TOKCLR (R206). Writes 0 to a token register. -/
  | tokclr (d : Fld)
  /-- TLWAIT (R207). Waits until a timeline counter reaches a threshold. -/
  | tlwait (a : Fld) (b : Fld)
  /-- TLREAD (R207). Reads a timeline counter. -/
  | tlread (d : Fld) (a : Fld)
  /-- STASHMAP (R208). Maps or unmaps a stash region. -/
  | stashmap (a : Fld) (b : Fld) (c : Fld)
  /-- STASHWB (R209). Writes back dirty stash lines in a range. -/
  | stashwb (a : Fld) (b : Fld)
  /-- STASHINV (R209). Invalidates stash lines in a range. -/
  | stashinv (a : Fld) (b : Fld)
  /-- TSPAWN (R261). Creates one task per active lane, ready or waiting on a future. -/
  | tspawn (a : Fld) (b : Fld) (sub : BitVec 4) (aux : Fld)
  /-- FUTNEW (R266). Allocates futures. -/
  | futnew (d : Fld)
  /-- FUTSET (R267). Resolves futures and readies their waiters. -/
  | futset (a : Fld) (b : Fld)
  /-- FUTWAIT (R268). Waits until futures are resolved. -/
  | futwait (a : Fld)
  /-- FUTGET (R268). Reads the value of resolved futures. -/
  | futget (d : Fld) (a : Fld)
  /-- FUTDROP (R264). Frees future entries and advances their generation. -/
  | futdrop (a : Fld)
  /-- QPOP (R271). Pops one record per active lane from a hardware queue. -/
  | qpop (d : Fld) (q : Fld)
  /-- QPUSH (R271). Pushes one record per active lane into a hardware queue. -/
  | qpush (a : Fld) (q : Fld)
  /-- QROOM (R272). Reads the room left in a hardware queue. -/
  | qroom (d : Fld) (q : Fld)
  /-- MBXBIND (R273). Binds or unbinds a mailbox. -/
  | mbxbind (a : Fld) (b : Fld)
  /-- NMATCH (R275). Inserts network match entries. -/
  | nmatch (a : Fld) (b : Fld) (c : Fld)
  /-- NUNMATCH (R277). Removes the oldest unclaimed match entry with a tag. -/
  | nunmatch (a : Fld)
  /-- KEEP (R290). Lowers take depth or arrives to commit the take. -/
  | keep (scope : BitVec 3)
  /-- DROP (R291). Rolls back all or some members of the take. -/
  | drop (a : Fld) (sub : BitVec 4) (aux : Fld)
  /-- TSTAT (R282). Reads each lane's take depth and code. -/
  | tstat (d : Fld)
  /-- SOLICIT (R302). Starts a census per active lane. -/
  | solicit (d : Fld) (a : Fld) (b : Fld) (sub : BitVec 4) (scope : BitVec 3)
  /-- CENSUS (R308). Queries a census, waiting for completion except for .test. -/
  | census (d : Fld) (a : Fld) (sub : BitVec 4)
  /-- RESPOND (R305). Sends a live or withdrawn response for the responder's census. -/
  | respond (a : Fld) (sub : BitVec 4)
  /-- KDIRINS (R299). Inserts key-directory entries. -/
  | kdirins (a : Fld) (b : Fld) (sub : BitVec 4)
  /-- KDIRDEL (R300). Removes the oldest key-directory entry with a key. -/
  | kdirdel (a : Fld)
  /-- KDIRLOOK (R300). Reads the payload and count of entries with a key. -/
  | kdirlook (d : Fld) (a : Fld)
  /-- KDIRMIG (R301). Moves key-directory entries to another gang member's core. -/
  | kdirmig (a : Fld) (b : Fld) (sub : BitVec 4)
  /-- TRAP (R327). Delivers a user trap to the debugger, a handler or a grid end. -/
  | trap (n : Fld)
  /-- GETSR (R330). Reads a special register. -/
  | getsr (d : Fld) (n : Fld)
  /-- SETSR (R330). Writes FLAGS from the lowest active lane. -/
  | setsr (a : Fld) (n : Fld)
  /-- BKPT (R331). Breakpoint that is a debug trap when enabled. -/
  | bkpt (tag : Half)
  /-- SHLD (R231). Loads a shape register from LM. -/
  | shld (x : BitVec 4) (y : BitVec 4)
  /-- SHSET (R232). Writes one field of a shape register. -/
  | shset (x : BitVec 4) (y : BitVec 4) (z : BitVec 4) (sel : Fld)
  /-- SHCOPY (R233). Copies one shape register to another. -/
  | shcopy (x : BitVec 4) (y : BitVec 4)
  /-- WLOAD (R234). Copies a tensor from global memory into the weight buffer. -/
  | wload (x : BitVec 4) (y : BitVec 4)
  /-- MZERO (R235). Zeroes an accumulator tile. -/
  | mzero (x : BitVec 4)
  /-- MMA (R236). Dense matrix multiply-accumulate into a tile. -/
  | mma (f : BitVec 3) (x : BitVec 4) (y : BitVec 4) (z : BitVec 4) (w : BitVec 4)
  /-- MMAS (R237). 2:4 sparse matrix multiply-accumulate into a tile. -/
  | mmas (f : BitVec 3) (x : BitVec 4) (y : BitVec 4) (z : BitVec 4) (w : BitVec 4)
  /-- MMA32 (R238). FP32 multiply-accumulate synthesised from BF16 slices. -/
  | mma32 (x : BitVec 4) (y : BitVec 4) (z : BitVec 4) (w : BitVec 4)
  /-- CONV (R239). Convolution multiply-accumulate with windowed A fetch. -/
  | conv (f : BitVec 3) (x : BitVec 4) (y : BitVec 4) (z : BitVec 4) (w : BitVec 4)
  /-- MST (R240). Converts a tile and stores it to LM. -/
  | mst (x : BitVec 4) (y : BitVec 4) (t : Fld)
  /-- MLD (R241). Loads a tile from LM. -/
  | mld (x : BitVec 4) (y : BitVec 4)
  /-- MACT (R242). Applies an elementwise function to a tile. -/
  | mact (x : BitVec 4) (fn : Fld)
  /-- SQBAR (R220). The sequencer arrives at a named barrier after its earlier operations complete. -/
  | sqbar (n : Fld)
  /-- SQWAIT (R221). The sequencer consumes one completed barrier phase. -/
  | sqwait (n : Fld)
  /-- SQLOOP (R244). Pushes a loop entry onto the sequencer's loop stack. -/
  | sqloop (x : BitVec 4)
  /-- SQEND (R244). Ends a loop iteration, branching to the head or popping. -/
  | sqend (off : BitVec 20)
  /-- SQBRA (R245). Branches when a q register is not zero. -/
  | sqbra (x : BitVec 4) (off : BitVec 20)
  /-- SQTL (R247). The sequencer waits on a timeline counter. -/
  | sqtl (x : BitVec 4) (y : BitVec 4)
  /-- SQSET_LITERAL (R109). Loads a q register from a literal. -/
  | sqsetLiteral (x : BitVec 4) (lit : Word)
  /-- SQSET_UNIFORM (R109). Loads a q register from a block-uniform register. -/
  | sqsetUniform (x : BitVec 4) (b : Fld)
  /-- SQADD (R109). Adds two q registers. -/
  | sqadd (x : BitVec 4) (y : BitVec 4) (z : BitVec 4)
  /-- SPLICE_MOVI (R368). Loads a sign-extended 16-bit immediate into a k register. -/
  | spliceMovi (x : BitVec 4) (imm : Half)
  /-- ADDI (R368). Adds an immediate to a k register. -/
  | addi (x : BitVec 4) (y : BitVec 4) (imm : BitVec 12)
  /-- SUBI (R368). Subtracts an immediate from a k register. -/
  | subi (x : BitVec 4) (y : BitVec 4) (imm : BitVec 12)
  /-- LDC (R368). Loads a 64-bit constant from the context's window. -/
  | ldc (x : BitVec 4) (imm : BitVec 12)
  /-- JMP (R369). Splice jump. -/
  | jmp (imm : BitVec 12)
  /-- CMPJ (R369). Splice compare and jump. -/
  | cmpj (x : BitVec 4) (y : BitVec 4) (z : BitVec 4) (imm : BitVec 12)
  /-- SPLICE_LOOP (R370). Opens a splice loop. -/
  | spliceLoop (x : BitVec 4) (imm : BitVec 12)
  /-- XMIT (R371). Queues a chunk for transmission to a destination context. -/
  | xmit (bf : BitVec 3) (ki : BitVec 4) (kd : BitVec 4)
  /-- XMIT_TAG (R371). Transmits a chunk as a tagged message after a verdict. -/
  | xmitTag (bf : BitVec 3) (ki : BitVec 4) (ks : BitVec 4) (kd : BitVec 4)
  /-- RECV (R372). Stores the next arriving chunk into a buffer chunk. -/
  | recv (bf : BitVec 3) (ki : BitVec 4) (ks : BitVec 4)
  /-- CMB (R372). Combines the next arriving chunk into a buffer chunk. -/
  | cmb (bf : BitVec 3) (ki : BitVec 4) (ks : BitVec 4) (co : BitVec 2)
  /-- CMBF (R372). Combines an arriving chunk and forwards the result. -/
  | cmbf (bf : BitVec 3) (ki : BitVec 4) (ks : BitVec 4) (kd : BitVec 4) (co : BitVec 2)
  /-- FWAIT (R374). Waits until a flag reaches a threshold. -/
  | fwait (x : BitVec 4) (y : BitVec 4) (imm : BitVec 12)
  /-- FSIG (R374). Atomically adds to a flag after earlier operations complete. -/
  | fsig (x : BitVec 4) (y : BitVec 4) (imm : BitVec 12)
  /-- PACKET_NOP (R388). Command packet with no effect. -/
  | packetNop (n : Nat)
  /-- LAUNCH (R311). A launch packet passes validation, dependence wait and lease set-up. -/
  | launch (hdr : Nat) (rank : Nat)
  /-- CLAUNCH (R393). Starts splicer contexts with or without a grid. -/
  | claunch (tbl : Nat) (mask : Word) (ctx : Nat) (rank : Nat) (hdr : Nat)
  /-- FEED (R37). Writes work records into a hardware queue. -/
  | feed (core : Nat) (die : Nat) (q : Nat) (recs : List (List Word))
  /-- WAKE (R388). Ends every SLEEP of the context on the named cores. -/
  | wake (core : Nat) (die : Nat) (all : Bool)
  /-- INDIRECT (R392). Executes the packets of a buffer and returns. -/
  | indirect (addr : Nat) (len : Nat)
  /-- PRED (R392). Skips packets when a condition on a memory word is false. -/
  | pred (addr : Nat) (v : Word) (cond : Nat) (skip : Nat)
  /-- PACKET_LOOP (R392). Opens a packet loop. -/
  | packetLoop (count : Nat)
  /-- WRITE (R388). Writes data words to memory. -/
  | write (addr : Nat) (data : List Word)
  /-- COPY (R388). Copies bytes in memory. -/
  | copy (dst : Nat) (src : Nat) (len : Nat)
  /-- SIGNAL_WRITE (R390). SIGNAL SUB 0 writes a 64-bit value after earlier grids end. -/
  | signalWrite (addr : Nat) (v : DWord)
  /-- SIGNAL_ADD (R390). SIGNAL SUB 1 adds a 64-bit value after earlier grids end. -/
  | signalAdd (addr : Nat) (v : DWord)
  /-- WAIT_MEMORY (R388). WAIT SUB 0 waits until a memory word reaches a threshold. -/
  | waitMemory (addr : Nat) (thr : DWord)
  /-- WAIT_TIMELINE (R388). WAIT SUB 1 waits until a timeline counter reaches a threshold. -/
  | waitTimeline (handle : Word) (thr : DWord)
  /-- SNAP (R394). Starts a snapshot of memory ranges. -/
  | snap (tbl : Nat) (n : Nat) (area : Nat)
  /-- TLSET (R388). Adds a timeline condition to the next launch. -/
  | tlset (handle : Word) (thr : DWord)
  /-- SLEEP_EXPIRY (R152). A SLEEP's count runs out and the group becomes eligible again. -/
  | sleepExpiry (w : Nat)
  /-- ASYNC_COPY_COMPLETION (R202). An asynchronous copy completes, writes its token and advances its timeline counter. -/
  | asyncCopyCompletion (id : Nat)
  /-- KEY_ENTRY_LANDING (R301). A migrating entry lands in the target directory and may create responders. -/
  | keyEntryLanding (id : Nat)
  /-- CENSUS_ARRIVAL_POINT (R303). A census reaches a core's directory and creates a responder for each matching entry. -/
  | censusArrivalPoint (core : Nat) (cen : Nat)
  /-- TRAP_HANDLER_FORMATION (R328). A trap-handler wave is formed for the trapping lanes once a slot is free. -/
  | trapHandlerFormation (core : Nat)
  /-- STREAM_OPERATION_COMPLETION (R222). A matrix-stream operation completes and the sequencer's timeline counter advances. -/
  | streamOperationCompletion (core : Nat)
  /-- FLAG_REREAD (R374). A waiting FWAIT rereads its flag after a line change or at least every 1 µs. -/
  | flagReread (k : Nat)
  /-- SPLICER_OPERATION_COMPLETION (R364). A splicer operation completes and its context's timeline counter advances. -/
  | splicerOperationCompletion (k : Nat)
  /-- CHUNK_PACKET_SEND (R362). The transmit side sends one packet of a queued chunk, subject to credits and rate limits. -/
  | chunkPacketSend (link : Nat)
  /-- NETWORK_MATCH_FIRE (R276). A claimed match entry fires once its last byte is performed and creates its handler task. -/
  | networkMatchFire (die : Nat) (id : Nat)
  /-- RATE_LIMITER_INTERVAL (R354). Every 4 µs without a notice a limiter's rate rises by one. -/
  | rateLimiterInterval (link : Nat) (fid : Nat)
  /-- GATE_TIMEOUT (R32). The start-gate deadline passes and the grid ends on every package. -/
  | gateTimeout (serial : Nat)
  /-- LAUNCH_CONDITIONS_SATISFIED (R311). The conditions placed before a launch come to hold and it leaves the dependence wait. -/
  | launchConditionsSatisfied (q : Nat)
  /-- PAGE_SERVICE_RESUME (R166). A page reported for service is mapped and the waiting launch or queue continues. -/
  | pageServiceResume (q : Nat)
  /-- GANG_PLACEMENT (R312). The package scheduler places every waiting gang that fits. -/
  | gangPlacement (pick : Nat)
  /-- GANG_WAIT_LIMIT (R312). A gang that has waited 500 µs blocks lower placements until it is placed. -/
  | gangWaitLimit (serial : Nat)
  /-- BIN_AGE_LIMIT (R22). A reform bin's age reaches the bin-age limit and it becomes due. -/
  | binAgeLimit (core : Nat) (bin : Nat)
  /-- BIN_DRAW (R22). A due bin is drawn into a new warp once a slot is free. -/
  | binDraw (core : Nat) (bin : Nat)
  /-- GATHER_LIMIT (R254). A ready list's oldest task reaches the gather limit and the list becomes due. -/
  | gatherLimit (core : Nat) (wg : Nat) (pc : Nat)
  /-- WAVE_FORMATION (R254). A due ready list forms a wave in a free slot. -/
  | waveFormation (core : Nat) (wg : Nat) (pc : Nat)
  /-- MAILBOX_ARRIVAL (R274). A write or copy at a bound doorbell creates a handler task. -/
  | mailboxArrival (m : Nat)
  /-- DEFERRED_ADD_APPLY (R178). Once every workgroup of the grid has ended its deferred adds are applied in order. -/
  | deferredAddApply (serial : Nat)
  /-- GRID_COMPLETION (R46). A grid completes once its last warp has exited and its operations have completed. -/
  | gridCompletion (serial : Nat)
  /-- REMOTE_TIMEOUT (R334). A fabric access not returned within 20 µs raises fault 0x1E. -/
  | remoteTimeout (w : Nat)
  /-- CONTINUITY_ROUND (R316). A continuity-mode round issues one word from each non-waiting agent in rotation. -/
  | continuityRound (ctx : Nat)
  /-- DRAIN_DEADLINE (R320). A drain deadline passes and the context's resident grids end with cause 0x76. -/
  | drainDeadline (ctx : Nat)
  /-- STALL_SAMPLE (R340). Every 2^SP clocks a partition samples one warp slot. -/
  | stallSample (core : Nat) (part : Nat)
  /-- HWQ_RING_RESIDENT (R269). The enabled queue's ring becomes resident and EN reads 1, or the enable fails. -/
  | hwqRingResident (k : Nat)
  /-- PARKED_CONDITION_CHECK (R396). Every 64 µs a parked condition is checked again. -/
  | parkedConditionCheck (q : Nat)
  /-- SNAPSHOT_BACKGROUND_COPY (R184). The background engine copies a snapshot line that no write reached. -/
  | snapshotBackgroundCopy (ctx : Nat)
  /-- PENDING_WRITE_COMPLETION (R67). An instruction's outstanding write, such as a load's or atomic's returning value, completes and its register stops being pending. -/
  | pendingWriteCompletion (w : Nat) (id : Nat)
  /-- CLAUSE_ISSUE (R94). A warp picks an issue PC, applies the clause header's wait and guard, and issues the clause's words for its active lanes. -/
  | clauseIssue
  /-- EXIT (R150). Ends the threads of the active lanes. -/
  | exit
  /-- RJOIN (R148). Makes each thread arrive at its innermost reconvergence entry and wait. -/
  | rjoin
  /-- NOP (R152). Retires with no other effect. -/
  | nop
  /-- TEND (R262). Ends the task threads of the active lanes. -/
  | tend
  /-- TAKE (R283). Opens or deepens a take and records its checkpoint. -/
  | take
  /-- YIELD (R332). Makes a choice point and defers the warp behind other ready warps. -/
  | yield
  /-- SYSRET (R331). Returns a trap handler's lanes to their trapped threads. -/
  | sysret
  /-- SQHALT (R246). Ends the matrix stream. -/
  | sqhalt
  /-- SPLICE_NOP (R368). Splice no-operation. -/
  | spliceNop
  /-- HALT (R368). The splicer context becomes HALTED. -/
  | halt
  /-- ENDL (R370). Ends a splice loop iteration. -/
  | endl
  /-- ENDLOOP (R392). Repeats or closes a packet loop. -/
  | endloop
  /-- FETCHFENCE (R395). Discards every byte the queue fetched ahead. -/
  | fetchfence
  /-- ALIGNMENT_PULSE (R345). Die 0's alignment pulse makes each die write an alignment record. -/
  | alignmentPulse
  /-- CAPTURE_START (R344). CAPCMD START moves the capture to RUNNING. -/
  | captureStart
  /-- CAPTURE_STOP (R344). CAPCMD STOP moves a running capture to STOPPED. -/
  | captureStop
  /-- CAPTURE_FREEZE (R344). CAPCMD FREEZE moves the capture to FROZEN. -/
  | captureFreeze
  /-- CAPTURE_RESET (R344). CAPCMD RESET returns the capture to IDLE and clears it. -/
  | captureReset
  /-- WAIT_SLOT_PARKING (R396). With all wait slots held for 64 µs the longest waiter is parked. -/
  | waitSlotParking
  /-- STAND_IN_TAKEOVER (R383). The stand-in takes over at a quiescent packet boundary. -/
  | standInTakeover
  /-- FUNCTION_LEVEL_RESET (R398). Reset rung 5 ends every context and destroys confidential keys. -/
  | functionLevelReset
  /-- WHOLE_DEVICE_RESET (R398). Reset rung 6 resets everything and reboots the firmware. -/
  | wholeDeviceReset
  /-- THERMAL_THROTTLE (R413). At 105 °C every clock is lowered and an event raised. -/
  | thermalThrottle
  /-- THERMAL_STOP (R413). At 115 °C every clock stops until whole-device reset. -/
  | thermalStop
  /-- TEMPERATURE_FALL (R413). The junction temperature falls below the throttle point and clocks are no longer lowered. -/
  | temperatureFall
  /-- SPLICER_START (R359). SPCTL START starts a splicer context from a start record. -/
  | splicerStart (k : Nat) (rec : Nat)
  /-- SPLICER_RESUME (R359). SPCTL RESUME resumes a stopped splicer context. -/
  | splicerResume (k : Nat)
  /-- SPLICER_ABORT (R359). SPCTL ABORT returns a splicer context to IDLE and discards its queues. -/
  | splicerAbort (k : Nat)
  /-- SPCFG_WRITE (R357). A write to a splicer context's configuration register. -/
  | spcfgWrite (k : Nat) (v : DWord)
  /-- SPLICER_STATE_WINDOW_WRITE (R358). A write to a stopped or halted context's PC, k registers or buffer descriptors. -/
  | splicerStateWindowWrite (k : Nat) (off : Nat) (size : Nat) (v : Nat)
  /-- CHUNK_DATA_ARRIVAL (R361). A chunk-data packet arrives and is staged, discarded or refused. -/
  | chunkDataArrival (k : Nat) (sfid : Nat) (slink : Nat) (sctx : Nat) (epoch : Nat) (len : Nat) (seq : Nat) (data : Payload)
  /-- CREDIT_ARRIVAL (R351). A credit packet returns staging slots to a sender context. -/
  | creditArrival (k : Nat) (dst : Nat) (epoch : Nat) (n : Nat)
  /-- REFUSAL_ARRIVAL (R359). A refusal reaches a sender, which stops at its next instruction boundary. -/
  | refusalArrival (k : Nat) (refusal : RefusalCode)
  /-- TAGGED_MESSAGE_ARRIVAL (R276). The first flit of a tagged message claims a match entry or is refused. -/
  | taggedMessageArrival (die : Nat) (ctx : Nat) (tag : Word) (len : Nat) (part : Part) (sfid : Nat) (slink : Nat) (sctx : Nat)
  /-- VERDICT_ARRIVAL (R379). The verdict of a tagged message reaches its sender. -/
  | verdictArrival (k : Nat) (claim : Bool)
  /-- CONGESTION_NOTICE (R354). A congestion notice halves the rate limiter of its destination. -/
  | congestionNotice (link : Nat) (fid : Nat)
  /-- MEMORY_PACKET_ARRIVAL (R182). A memory-kind packet of the home-directory protocol arrives. -/
  | memoryPacketArrival (pa : Nat) (data : Payload) (excl : Bool) (refused : Bool)
  /-- CENSUS_PACKET_ARRIVAL (R380). A census forwarded from another package runs as a .dev census here. -/
  | censusPacketArrival (fid : Nat) (id : Word) (key : DWord) (arg : Word) (op : Nat) (fgroup : Nat)
  /-- CENSUS_RESULT_ARRIVAL (R380). The fabric's combined census result and completion report reach the asking package. -/
  | censusResultArrival (id : Word) (live : List (Nat × Word)) (wd : Nat)
  /-- LINK_UP (R352). Link training completes and the link carries packets. -/
  | linkUp (die : Nat) (index : Nat) (node : Nat) (self : Nat)
  /-- LINK_DOWN (R355). A link goes down and its splicer contexts stop with fault 0x68. -/
  | linkDown (l : Nat)
  /-- LINK_ERROR_WINDOW (R414). A 1 ms link error window ends and the width for errors is evaluated. -/
  | linkErrorWindow (l : Nat) (resent : Nat)
  /-- LNKERR_WRITE (R414). A write to LNKERR clears its counts. -/
  | lnkerrWrite (l : Nat)
  /-- GATE_ACK_ARRIVAL (R31). A start-gate acknowledgement reaches the gate holder and is counted. -/
  | gateAckArrival (key : GridKey) (rank : Nat)
  /-- GATE_REFUSAL_ARRIVAL (R31). A package's refusal reaches the gate holder as a missing acknowledgement. -/
  | gateRefusalArrival (key : GridKey) (rank : Nat)
  /-- GATE_OPEN_NOTICE_ARRIVAL (R31). The open notice reaches a package and its members begin. -/
  | gateOpenNoticeArrival (key : GridKey)
  /-- GATE_END_NOTICE_ARRIVAL (R44). An end notice ends the grid on a package, which records the originating fault. -/
  | gateEndNoticeArrival (key : GridKey) (rank : Nat) (rec : BitVec 512)
  /-- PACKAGE_LOST (R33). A failed package after the gate opened ends the grid everywhere. -/
  | packageLost (peer : Peer)
  /-- DRAIN (R320). A drain request stops placement of a context and lets its gangs retire. -/
  | drain (ctx : Nat)
  /-- URGENT_FREEZE (R322). An urgent freeze stops a victim's units within 64 clocks. -/
  | urgentFreeze (ctx : Nat) (claim : List Nat)
  /-- VICTIM_RESUME (R322). A frozen victim is resumed and its written-out state restored by placement. -/
  | victimResume (ctx : Nat) (pick : Nat)
  /-- KILL (R324). The command processor kills a grid with cause 0x75. -/
  | kill (serial : Nat)
  /-- SET_SSTEP (R337). DBGCMD sets a warp's single-step flag. -/
  | setSstep (ctx : Nat)
  /-- CLEAR_SSTEP (R337). DBGCMD clears a warp's single-step flag. -/
  | clearSstep (ctx : Nat)
  /-- RESUME_PARKED (R25). DBGCMD resumes the parked lanes of a warp or wave. -/
  | resumeParked (ctx : Nat)
  /-- RELEASE_HOLDS (R338). DBGCMD releases every hold of a context in one clock. -/
  | releaseHolds (ctx : Nat)
  /-- DOORBELL_WRITE (R416). A doorbell write sets a command queue's WPTR. -/
  | doorbellWrite (q : Nat) (off : Nat) (v : Word)
  /-- HWQ_DESCRIPTOR_WRITE (R269). A write to a hardware-queue descriptor, which may enable it. -/
  | hwqDescriptorWrite (k : Nat) (off : Nat) (size : Nat) (v : Nat)
  /-- CONTEXT_DESCRIPTOR_WRITE (R384). A write to a context descriptor, restricted for CONF. -/
  | contextDescriptorWrite (n : Nat) (off : Nat) (size : Nat) (v : Nat)
  /-- EVCFG_WRITE (R416). A write to EVCFG; setting EN zeroes EVHEAD and EVTAIL. -/
  | evcfgWrite (v : DWord)
  /-- BALANCE_WRITE (R412). A write to BALANCE selects a balance mode. -/
  | balanceWrite (v : DWord)
  /-- REGISTER_WRITE (R415). A write to a BAR0 register with no behaviour of its own. -/
  | registerWrite (off : Nat) (size : Nat) (v : Nat)
  /-- LIVE_UPDATE (R383). A new firmware image boots on the stand-in and imports the state table. -/
  | liveUpdate (image : List Byte) (version : Nat) (table : BitVec 16)
  /-- RESET_QUEUE (R398). Reset rung 1 ends a queue's grids and clears its halt. -/
  | resetQueue (q : Nat)
  /-- RESET_ENGINE (R398). Reset rung 2 resets one engine. -/
  | resetEngine (handle : Word)
  /-- RESET_PARTITION (R398). Reset rung 3 resets the cores, L2s and engines of some dies. -/
  | resetPartition (dies : BitVec 4)
  /-- RESET_DIE (R398). Reset rung 4 resets a die with its DRAM, links and CYCLE. -/
  | resetDie (die : Nat)
  /-- SPDM_MEASUREMENT_REQUEST (R403). Returns the signed measurement registers and versions. -/
  | spdmMeasurementRequest (nonce : BitVec 384)
  /-- SPDM_COMMIT_MINIMUM (R402). The driver commits a new fused minimum security version. -/
  | spdmCommitMinimum (v : Nat)
  /-- UNIT_READY (R411). A unit ends its initialisation and sets its READY bit. -/
  | unitReady (unit : ReadyUnit)
  /-- SOFT_ERROR (R406). A check finds an error, corrects or poisons the data and reports it. -/
  | softError (cls : Nat) (site : ErrorSite) (at_ : Nat) (corrected : Bool)
  /-- HOST_MEMORY_ACCESS (R171). The host reads or writes device or host memory, or snoops a held host line, through CXL.cache or PCIe. -/
  | hostMemoryAccess (pa : Nat) (wr : Bool) (data : List Byte) (len : Nat)
  /-- FABRIC_GROUP_REPORT (R16). The fabric's manager reports a fabric group's membership to the lead. -/
  | fabricGroupReport (group : Nat) (members : List Nat)
  /-- PAGE_SERVICE_DECLINED (R311). The driver declines to map a leased page reported for service, and the launch is refused with cause 0x22. -/
  | pageServiceDeclined (serial : Nat)
  /-- DRAIN_CANCEL (R321). A pending drain is cancelled and lanes waiting at YIELD continue. -/
  | drainCancel (ctx : Nat)
  /-- MALFORMED_PACKET_ARRIVAL (R350). A packet with a reserved KIND or nonzero reserved bits arrives and is discarded and counted in LNKERR. -/
  | malformedPacketArrival (packet : LinkHeader)
  /-- POWER_ALLOTMENT_REACHED (R412). A power domain reaches, or falls back within, its balance-mode allotment and lowers or restores its clock or link width. -/
  | powerAllotmentReached (domain : Nat) (reached : Bool)
deriving DecidableEq, Repr

end Sys2Proof
end

