-- ==== Sys2Proof/Decode.lean ====
section
/-! DEFINITION. Decoding and encoding: lane words with their trailing words (07 R100 to R107), matrix-stream words
(R108, R109), splice words (25 R365, R366), whole clauses (R91 to R99). Decoding is total; what is no instruction is
refused by the cause code of the spec. The command packets are decoded beside their queue (27 R387). -/

namespace Sys2Proof

/-- The fields of a tail word (R101). -/
structure Tail where
  c : Fld
  sub : BitVec 4
  scope : BitVec 3
  rnd : BitVec 2
  pd : BitVec 3
  pn : BitVec 1
  ty : BitVec 3
  aux : BitVec 8
deriving DecidableEq, Repr

/-- The tail word with every field zero. -/
def Tail.zero : Tail := ⟨0, 0, 0, 0, 0, 0, 0, 0⟩

/-- The fields of a tail word, from its bits (R101). -/
def unpackTail (w : Word) : Tail :=
  ⟨w.extractLsb' 24 8, w.extractLsb' 20 4, w.extractLsb' 17 3, w.extractLsb' 15 2, w.extractLsb' 12 3,
   w.extractLsb' 11 1, w.extractLsb' 8 3, w.extractLsb' 0 8⟩

/-- The bits of a tail word (R101). -/
def packTail (t : Tail) : Word :=
  t.c ++ t.sub ++ t.scope ++ t.rnd ++ t.pd ++ t.pn ++ t.ty ++ t.aux

/-- What follows an instruction word: nothing, a tail word or a literal (R100). -/
inductive Trail where
  | none
  | tail
  | literal
deriving DecidableEq, Repr

/-- The fields of a tail word that an opcode uses (R101). -/
structure TailUse where
  c : Bool
  sub : Bool
  scope : Bool
  rnd : Bool
  pd : Bool
  pn : Bool
  ty : Bool
  aux : Bool
deriving DecidableEq, Repr

/-- No field of a tail word is used. -/
def TailUse.no : TailUse := ⟨false, false, false, false, false, false, false, false⟩

/-- The class of an opcode, its trailing word, whether it terminates its clause, and the fields it uses. -/
structure Shape where
  cls : Nat
  trail : Trail
  term : Bool
  d : Bool
  a : Bool
  b : Bool
  tail : TailUse
deriving DecidableEq, Repr

/-- The escape word's function (R107). -/
def buildEscape (fn a b : Fld) : Option Instr :=
  match fn.toNat with
  | 1 => some (.bkpt (a ++ b))
  | 2 => some .yield
  | 3 => some .sysret
  | _ => none

/-- The shape of an escape word (R107): only BKPT uses ARG. -/
def escapeShape (fn : Fld) : Option Shape :=
  match fn.toNat with
  | 1 => some ⟨5, .none, false, true, true, true, TailUse.no⟩
  | 2 => some ⟨5, .none, false, true, false, false, TailUse.no⟩
  | 3 => some ⟨5, .none, false, true, false, false, TailUse.no⟩
  | _ => none

/-- The instruction that a lane word and its trailing word name, before its fields are checked (R106, R107). -/
def buildLane (op d a b : Fld) (t : Tail) : Option Instr :=
  match op.toNat with
  | 0x00 => some (.iadd d a b)
  | 0x01 => some (.iaddi d a b)
  | 0x02 => some (.isub d a b)
  | 0x03 => some (.imul d a b)
  | 0x04 => some (.imulhs d a b)
  | 0x05 => some (.imulhu d a b)
  | 0x06 => some (.imad d a b t.c)
  | 0x07 => some (.imin d a b)
  | 0x08 => some (.imax d a b)
  | 0x09 => some (.umin d a b)
  | 0x0A => some (.umax d a b)
  | 0x0B => some (.iabs d a)
  | 0x0C => some (.ineg d a)
  | 0x0D => some (.iand d a b)
  | 0x0E => some (.ior d a b)
  | 0x0F => some (.ixor d a b)
  | 0x10 => some (.andn d a b)
  | 0x11 => some (.inot d a)
  | 0x12 => some (.shl d a b)
  | 0x13 => some (.shr d a b)
  | 0x14 => some (.sar d a b)
  | 0x15 => some (.rotl d a b)
  | 0x16 => some (.shli d a b)
  | 0x17 => some (.shri d a b)
  | 0x18 => some (.sari d a b)
  | 0x19 => some (.popc d a)
  | 0x1A => some (.clz d a)
  | 0x1B => some (.brev d a)
  | 0x1C => some (.bfx d a t.sub t.aux)
  | 0x1D => some (.bfi d a b t.aux)
  | 0x1E => some (.lea d a b t.aux)
  | 0x1F => some (.add64 d a b)
  | 0x20 => some (.sub64 d a b)
  | 0x21 => some (.mulw d a b t.sub)
  | 0x28 => some (.mov d a)
  | 0x29 => some (.movi d (a ++ b))
  | 0x2A => some (.movhi d (a ++ b))
  | 0x2B => some (.movl d (packTail t))
  | 0x2C => some (.selp d a b t.pd t.pn)
  | 0x30 => some (.icmp d a b t.sub t.ty)
  | 0x31 => some (.fcmp d a b t.sub)
  | 0x32 => some (.pand d a b)
  | 0x33 => some (.por d a b)
  | 0x34 => some (.pxor d a b)
  | 0x35 => some (.pnot d a)
  | 0x36 => some (.pmov d a)
  | 0x37 => some (.ptov d a)
  | 0x38 => some (.fadd d a b)
  | 0x39 => some (.faddT d a b t.rnd)
  | 0x3A => some (.fsub d a b)
  | 0x3B => some (.fsubT d a b t.rnd)
  | 0x3C => some (.fmul d a b)
  | 0x3D => some (.fmulT d a b t.rnd)
  | 0x3E => some (.ffma d a b t.c t.rnd)
  | 0x3F => some (.fmin d a b)
  | 0x40 => some (.fmax d a b)
  | 0x41 => some (.fabs d a)
  | 0x42 => some (.fneg d a)
  | 0x43 => some (.frnd d a t.rnd)
  | 0x44 => some (.frcp d a)
  | 0x45 => some (.frsq d a)
  | 0x46 => some (.fsqrt d a t.rnd)
  | 0x47 => some (.fexp2 d a)
  | 0x48 => some (.flog2 d a)
  | 0x49 => some (.fsin d a)
  | 0x4A => some (.fcos d a)
  | 0x4B => some (.fclass d a)
  | 0x4C => some (.hadd2 d a b)
  | 0x4D => some (.hmul2 d a b)
  | 0x4E => some (.hfma2 d a b t.c)
  | 0x4F => some (.hmax2 d a b)
  | 0x50 => some (.hmin2 d a b)
  | 0x51 => some (.badd2 d a b)
  | 0x52 => some (.bmul2 d a b)
  | 0x53 => some (.bfma2 d a b t.c)
  | 0x54 => some (.cvt d a t.sub t.rnd t.aux)
  | 0x55 => some (.tepack d a t.aux)
  | 0x56 => some (.teunpk d a t.aux)
  | 0x57 => some (.scalex d a b t.sub t.aux)
  | 0x60 => some (.shuf d a b)
  | 0x61 => some (.shufup d a b)
  | 0x62 => some (.shufdn d a b)
  | 0x63 => some (.shufx d a b)
  | 0x64 => some (.voteall d a)
  | 0x65 => some (.voteany d a)
  | 0x66 => some (.ballot d a)
  | 0x67 => some (.matchLanes d a)
  | 0x68 => some (.redux d a t.sub)
  | 0x69 => some (.scan d a t.sub)
  | 0x70 => some (.bra (d ++ a ++ b))
  | 0x71 => some (.brc (d ++ a ++ b) t.pd t.pn)
  | 0x72 => some (.brx a)
  | 0x73 => some (.call (d ++ a ++ b) t.c)
  | 0x74 => some (.callx d a)
  | 0x75 => some (.ret a)
  | 0x76 => some (.exit)
  | 0x77 => some (.reconv (d ++ a ++ b))
  | 0x78 => some (.rjoin)
  | 0x79 => some (.reform a)
  | 0x7A => some (.nop)
  | 0x7B => some (.sleep (a ++ b))
  | 0x80 => some (.ldl d a b)
  | 0x81 => some (.ldlT d a b t.ty)
  | 0x82 => some (.stl d a b)
  | 0x83 => some (.stlT d a b t.ty)
  | 0x84 => some (.ldg d a b)
  | 0x85 => some (.ldgT d a b t.sub t.ty)
  | 0x86 => some (.stg d a b)
  | 0x87 => some (.stgT d a b t.sub t.ty)
  | 0x88 => some (.ldk d a b)
  | 0x89 => some (.lda d a b t.scope t.ty)
  | 0x8A => some (.strel d a b t.scope t.ty)
  | 0x8B => some (.atom d a b t.c t.sub t.scope t.ty)
  | 0x8C => some (.atomc d a b t.c t.scope t.ty t.aux)
  | 0x8D => some (.atoml d a b t.c t.sub t.ty)
  | 0x8E => some (.fatom a b t.c t.sub t.ty)
  | 0x8F => some (.fence t.sub t.scope)
  | 0x90 => some (.barinit a b)
  | 0x91 => some (.bara b)
  | 0x92 => some (.barw b)
  | 0x93 => some (.bars b)
  | 0x94 => some (.rwrite d a b)
  | 0x95 => some (.rwait a)
  | 0x96 => some (.rcount d)
  | 0x97 => some (.claim b)
  | 0x98 => some (.give b)
  | 0x99 => some (.bmovWrite d a)
  | 0x9A => some (.bmovRead d a)
  | 0x9B => some (.tlblock a b)
  | 0x9C => some (.tlbunlk a)
  | 0xB0 => some (.acopy d a b t.c t.sub t.ty)
  | 0xB1 => some (.bcopy d a b t.sub)
  | 0xB2 => some (.gather d a b t.c t.ty)
  | 0xB3 => some (.tokclr d)
  | 0xB4 => some (.tlwait a b)
  | 0xB5 => some (.tlread d a)
  | 0xB6 => some (.stashmap a b t.c)
  | 0xB7 => some (.stashwb a b)
  | 0xB8 => some (.stashinv a b)
  | 0xC0 => some (.tspawn a b t.sub t.aux)
  | 0xC1 => some (.futnew d)
  | 0xC2 => some (.futset a b)
  | 0xC3 => some (.futwait a)
  | 0xC4 => some (.futget d a)
  | 0xC5 => some (.futdrop a)
  | 0xC6 => some (.qpop d b)
  | 0xC7 => some (.qpush a b)
  | 0xC8 => some (.qroom d b)
  | 0xC9 => some (.mbxbind a b)
  | 0xCA => some (.nmatch a b t.c)
  | 0xCB => some (.nunmatch a)
  | 0xCC => some (.tend)
  | 0xD0 => some (.take)
  | 0xD1 => some (.keep t.scope)
  | 0xD2 => some (.drop a t.sub t.aux)
  | 0xD3 => some (.tstat d)
  | 0xD4 => some (.solicit d a b t.sub t.scope)
  | 0xD5 => some (.census d a t.sub)
  | 0xD6 => some (.respond a t.sub)
  | 0xD7 => some (.kdirins a b t.sub)
  | 0xD8 => some (.kdirdel a)
  | 0xD9 => some (.kdirlook d a)
  | 0xDA => some (.kdirmig a b t.sub)
  | 0xE0 => some (.trap b)
  | 0xE1 => some (.getsr d b)
  | 0xE2 => some (.setsr a b)
  | 0xFE => buildEscape d a b
  | _ => none

/-- Class, trailing word, termination, fields used of the word and of the tail (R98, R101, R106). -/
def laneShape (op d : Fld) : Option Shape :=
  match op.toNat with
  | 0x00 => some ⟨0, .none, false, true, true, true, TailUse.no⟩
  | 0x01 => some ⟨0, .none, false, true, true, true, TailUse.no⟩
  | 0x02 => some ⟨0, .none, false, true, true, true, TailUse.no⟩
  | 0x03 => some ⟨0, .none, false, true, true, true, TailUse.no⟩
  | 0x04 => some ⟨0, .none, false, true, true, true, TailUse.no⟩
  | 0x05 => some ⟨0, .none, false, true, true, true, TailUse.no⟩
  | 0x06 => some ⟨0, .tail, false, true, true, true, ⟨true, false, false, false, false, false, false, false⟩⟩
  | 0x07 => some ⟨0, .none, false, true, true, true, TailUse.no⟩
  | 0x08 => some ⟨0, .none, false, true, true, true, TailUse.no⟩
  | 0x09 => some ⟨0, .none, false, true, true, true, TailUse.no⟩
  | 0x0A => some ⟨0, .none, false, true, true, true, TailUse.no⟩
  | 0x0B => some ⟨0, .none, false, true, true, false, TailUse.no⟩
  | 0x0C => some ⟨0, .none, false, true, true, false, TailUse.no⟩
  | 0x0D => some ⟨0, .none, false, true, true, true, TailUse.no⟩
  | 0x0E => some ⟨0, .none, false, true, true, true, TailUse.no⟩
  | 0x0F => some ⟨0, .none, false, true, true, true, TailUse.no⟩
  | 0x10 => some ⟨0, .none, false, true, true, true, TailUse.no⟩
  | 0x11 => some ⟨0, .none, false, true, true, false, TailUse.no⟩
  | 0x12 => some ⟨0, .none, false, true, true, true, TailUse.no⟩
  | 0x13 => some ⟨0, .none, false, true, true, true, TailUse.no⟩
  | 0x14 => some ⟨0, .none, false, true, true, true, TailUse.no⟩
  | 0x15 => some ⟨0, .none, false, true, true, true, TailUse.no⟩
  | 0x16 => some ⟨0, .none, false, true, true, true, TailUse.no⟩
  | 0x17 => some ⟨0, .none, false, true, true, true, TailUse.no⟩
  | 0x18 => some ⟨0, .none, false, true, true, true, TailUse.no⟩
  | 0x19 => some ⟨0, .none, false, true, true, false, TailUse.no⟩
  | 0x1A => some ⟨0, .none, false, true, true, false, TailUse.no⟩
  | 0x1B => some ⟨0, .none, false, true, true, false, TailUse.no⟩
  | 0x1C => some ⟨0, .tail, false, true, true, false, ⟨false, true, false, false, false, false, false, true⟩⟩
  | 0x1D => some ⟨0, .tail, false, true, true, true, ⟨false, false, false, false, false, false, false, true⟩⟩
  | 0x1E => some ⟨0, .tail, false, true, true, true, ⟨false, false, false, false, false, false, false, true⟩⟩
  | 0x1F => some ⟨0, .none, false, true, true, true, TailUse.no⟩
  | 0x20 => some ⟨0, .none, false, true, true, true, TailUse.no⟩
  | 0x21 => some ⟨0, .tail, false, true, true, true, ⟨false, true, false, false, false, false, false, false⟩⟩
  | 0x28 => some ⟨0, .none, false, true, true, false, TailUse.no⟩
  | 0x29 => some ⟨0, .none, false, true, true, true, TailUse.no⟩
  | 0x2A => some ⟨0, .none, false, true, true, true, TailUse.no⟩
  | 0x2B => some ⟨0, .literal, false, true, false, false, TailUse.no⟩
  | 0x2C => some ⟨0, .tail, false, true, true, true, ⟨false, false, false, false, true, true, false, false⟩⟩
  | 0x30 => some ⟨0, .tail, false, true, true, true, ⟨false, true, false, false, false, false, true, false⟩⟩
  | 0x31 => some ⟨0, .tail, false, true, true, true, ⟨false, true, false, false, false, false, false, false⟩⟩
  | 0x32 => some ⟨0, .none, false, true, true, true, TailUse.no⟩
  | 0x33 => some ⟨0, .none, false, true, true, true, TailUse.no⟩
  | 0x34 => some ⟨0, .none, false, true, true, true, TailUse.no⟩
  | 0x35 => some ⟨0, .none, false, true, true, false, TailUse.no⟩
  | 0x36 => some ⟨0, .none, false, true, true, false, TailUse.no⟩
  | 0x37 => some ⟨0, .none, false, true, true, false, TailUse.no⟩
  | 0x38 => some ⟨0, .none, false, true, true, true, TailUse.no⟩
  | 0x39 => some ⟨0, .tail, false, true, true, true, ⟨false, false, false, true, false, false, false, false⟩⟩
  | 0x3A => some ⟨0, .none, false, true, true, true, TailUse.no⟩
  | 0x3B => some ⟨0, .tail, false, true, true, true, ⟨false, false, false, true, false, false, false, false⟩⟩
  | 0x3C => some ⟨0, .none, false, true, true, true, TailUse.no⟩
  | 0x3D => some ⟨0, .tail, false, true, true, true, ⟨false, false, false, true, false, false, false, false⟩⟩
  | 0x3E => some ⟨0, .tail, false, true, true, true, ⟨true, false, false, true, false, false, false, false⟩⟩
  | 0x3F => some ⟨0, .none, false, true, true, true, TailUse.no⟩
  | 0x40 => some ⟨0, .none, false, true, true, true, TailUse.no⟩
  | 0x41 => some ⟨0, .none, false, true, true, false, TailUse.no⟩
  | 0x42 => some ⟨0, .none, false, true, true, false, TailUse.no⟩
  | 0x43 => some ⟨0, .tail, false, true, true, false, ⟨false, false, false, true, false, false, false, false⟩⟩
  | 0x44 => some ⟨0, .none, false, true, true, false, TailUse.no⟩
  | 0x45 => some ⟨0, .none, false, true, true, false, TailUse.no⟩
  | 0x46 => some ⟨0, .tail, false, true, true, false, ⟨false, false, false, true, false, false, false, false⟩⟩
  | 0x47 => some ⟨0, .none, false, true, true, false, TailUse.no⟩
  | 0x48 => some ⟨0, .none, false, true, true, false, TailUse.no⟩
  | 0x49 => some ⟨0, .none, false, true, true, false, TailUse.no⟩
  | 0x4A => some ⟨0, .none, false, true, true, false, TailUse.no⟩
  | 0x4B => some ⟨0, .none, false, true, true, false, TailUse.no⟩
  | 0x4C => some ⟨0, .none, false, true, true, true, TailUse.no⟩
  | 0x4D => some ⟨0, .none, false, true, true, true, TailUse.no⟩
  | 0x4E => some ⟨0, .tail, false, true, true, true, ⟨true, false, false, false, false, false, false, false⟩⟩
  | 0x4F => some ⟨0, .none, false, true, true, true, TailUse.no⟩
  | 0x50 => some ⟨0, .none, false, true, true, true, TailUse.no⟩
  | 0x51 => some ⟨0, .none, false, true, true, true, TailUse.no⟩
  | 0x52 => some ⟨0, .none, false, true, true, true, TailUse.no⟩
  | 0x53 => some ⟨0, .tail, false, true, true, true, ⟨true, false, false, false, false, false, false, false⟩⟩
  | 0x54 => some ⟨0, .tail, false, true, true, false, ⟨false, true, false, true, false, false, false, true⟩⟩
  | 0x55 => some ⟨0, .tail, false, true, true, false, ⟨false, false, false, false, false, false, false, true⟩⟩
  | 0x56 => some ⟨0, .tail, false, true, true, false, ⟨false, false, false, false, false, false, false, true⟩⟩
  | 0x57 => some ⟨0, .tail, false, true, true, true, ⟨false, true, false, false, false, false, false, true⟩⟩
  | 0x60 => some ⟨0, .none, false, true, true, true, TailUse.no⟩
  | 0x61 => some ⟨0, .none, false, true, true, true, TailUse.no⟩
  | 0x62 => some ⟨0, .none, false, true, true, true, TailUse.no⟩
  | 0x63 => some ⟨0, .none, false, true, true, true, TailUse.no⟩
  | 0x64 => some ⟨0, .none, false, true, true, false, TailUse.no⟩
  | 0x65 => some ⟨0, .none, false, true, true, false, TailUse.no⟩
  | 0x66 => some ⟨0, .none, false, true, true, false, TailUse.no⟩
  | 0x67 => some ⟨0, .none, false, true, true, false, TailUse.no⟩
  | 0x68 => some ⟨0, .tail, false, true, true, false, ⟨false, true, false, false, false, false, false, false⟩⟩
  | 0x69 => some ⟨0, .tail, false, true, true, false, ⟨false, true, false, false, false, false, false, false⟩⟩
  | 0x70 => some ⟨2, .none, true, true, true, true, TailUse.no⟩
  | 0x71 => some ⟨2, .tail, true, true, true, true, ⟨false, false, false, false, true, true, false, false⟩⟩
  | 0x72 => some ⟨2, .none, true, false, true, false, TailUse.no⟩
  | 0x73 => some ⟨2, .tail, true, true, true, true, ⟨true, false, false, false, false, false, false, false⟩⟩
  | 0x74 => some ⟨2, .none, true, true, true, false, TailUse.no⟩
  | 0x75 => some ⟨2, .none, true, false, true, false, TailUse.no⟩
  | 0x76 => some ⟨2, .none, true, false, false, false, TailUse.no⟩
  | 0x77 => some ⟨2, .none, false, true, true, true, TailUse.no⟩
  | 0x78 => some ⟨2, .none, false, false, false, false, TailUse.no⟩
  | 0x79 => some ⟨2, .none, true, false, true, false, TailUse.no⟩
  | 0x7A => some ⟨2, .none, false, false, false, false, TailUse.no⟩
  | 0x7B => some ⟨2, .none, false, false, true, true, TailUse.no⟩
  | 0x80 => some ⟨1, .none, false, true, true, true, TailUse.no⟩
  | 0x81 => some ⟨1, .tail, false, true, true, true, ⟨false, false, false, false, false, false, true, false⟩⟩
  | 0x82 => some ⟨1, .none, false, true, true, true, TailUse.no⟩
  | 0x83 => some ⟨1, .tail, false, true, true, true, ⟨false, false, false, false, false, false, true, false⟩⟩
  | 0x84 => some ⟨1, .none, false, true, true, true, TailUse.no⟩
  | 0x85 => some ⟨1, .tail, false, true, true, true, ⟨false, true, false, false, false, false, true, false⟩⟩
  | 0x86 => some ⟨1, .none, false, true, true, true, TailUse.no⟩
  | 0x87 => some ⟨1, .tail, false, true, true, true, ⟨false, true, false, false, false, false, true, false⟩⟩
  | 0x88 => some ⟨1, .none, false, true, true, true, TailUse.no⟩
  | 0x89 => some ⟨1, .tail, false, true, true, true, ⟨false, false, true, false, false, false, true, false⟩⟩
  | 0x8A => some ⟨1, .tail, false, true, true, true, ⟨false, false, true, false, false, false, true, false⟩⟩
  | 0x8B => some ⟨1, .tail, false, true, true, true, ⟨true, true, true, false, false, false, true, false⟩⟩
  | 0x8C => some ⟨1, .tail, false, true, true, true, ⟨true, false, true, false, false, false, true, true⟩⟩
  | 0x8D => some ⟨1, .tail, false, true, true, true, ⟨true, true, false, false, false, false, true, false⟩⟩
  | 0x8E => some ⟨1, .tail, false, false, true, true, ⟨true, true, false, false, false, false, true, false⟩⟩
  | 0x8F => some ⟨1, .tail, false, false, false, false, ⟨false, true, true, false, false, false, false, false⟩⟩
  | 0x90 => some ⟨1, .none, false, false, true, true, TailUse.no⟩
  | 0x91 => some ⟨1, .none, false, false, false, true, TailUse.no⟩
  | 0x92 => some ⟨1, .none, false, false, false, true, TailUse.no⟩
  | 0x93 => some ⟨1, .none, false, false, false, true, TailUse.no⟩
  | 0x94 => some ⟨1, .none, false, true, true, true, TailUse.no⟩
  | 0x95 => some ⟨1, .none, false, false, true, false, TailUse.no⟩
  | 0x96 => some ⟨1, .none, false, true, false, false, TailUse.no⟩
  | 0x97 => some ⟨1, .none, false, false, false, true, TailUse.no⟩
  | 0x98 => some ⟨1, .none, false, false, false, true, TailUse.no⟩
  | 0x99 => some ⟨1, .none, false, true, true, false, TailUse.no⟩
  | 0x9A => some ⟨1, .none, false, true, true, false, TailUse.no⟩
  | 0x9B => some ⟨1, .none, false, false, true, true, TailUse.no⟩
  | 0x9C => some ⟨1, .none, false, false, true, false, TailUse.no⟩
  | 0xB0 => some ⟨3, .tail, false, true, true, true, ⟨true, true, false, false, false, false, true, false⟩⟩
  | 0xB1 => some ⟨3, .tail, false, true, true, true, ⟨false, true, false, false, false, false, false, false⟩⟩
  | 0xB2 => some ⟨3, .tail, false, true, true, true, ⟨true, false, false, false, false, false, true, false⟩⟩
  | 0xB3 => some ⟨3, .none, false, true, false, false, TailUse.no⟩
  | 0xB4 => some ⟨3, .none, false, false, true, true, TailUse.no⟩
  | 0xB5 => some ⟨3, .none, false, true, true, false, TailUse.no⟩
  | 0xB6 => some ⟨3, .tail, false, false, true, true, ⟨true, false, false, false, false, false, false, false⟩⟩
  | 0xB7 => some ⟨3, .none, false, false, true, true, TailUse.no⟩
  | 0xB8 => some ⟨3, .none, false, false, true, true, TailUse.no⟩
  | 0xC0 => some ⟨4, .tail, false, false, true, true, ⟨false, true, false, false, false, false, false, true⟩⟩
  | 0xC1 => some ⟨4, .none, false, true, false, false, TailUse.no⟩
  | 0xC2 => some ⟨4, .none, false, false, true, true, TailUse.no⟩
  | 0xC3 => some ⟨4, .none, false, false, true, false, TailUse.no⟩
  | 0xC4 => some ⟨4, .none, false, true, true, false, TailUse.no⟩
  | 0xC5 => some ⟨4, .none, false, false, true, false, TailUse.no⟩
  | 0xC6 => some ⟨4, .none, false, true, false, true, TailUse.no⟩
  | 0xC7 => some ⟨4, .none, false, false, true, true, TailUse.no⟩
  | 0xC8 => some ⟨4, .none, false, true, false, true, TailUse.no⟩
  | 0xC9 => some ⟨4, .none, false, false, true, true, TailUse.no⟩
  | 0xCA => some ⟨4, .tail, false, false, true, true, ⟨true, false, false, false, false, false, false, false⟩⟩
  | 0xCB => some ⟨4, .none, false, false, true, false, TailUse.no⟩
  | 0xCC => some ⟨4, .none, true, false, false, false, TailUse.no⟩
  | 0xD0 => some ⟨4, .none, false, false, false, false, TailUse.no⟩
  | 0xD1 => some ⟨4, .tail, false, false, false, false, ⟨false, false, true, false, false, false, false, false⟩⟩
  | 0xD2 => some ⟨4, .tail, false, false, true, false, ⟨false, true, false, false, false, false, false, true⟩⟩
  | 0xD3 => some ⟨4, .none, false, true, false, false, TailUse.no⟩
  | 0xD4 => some ⟨4, .tail, false, true, true, true, ⟨false, true, true, false, false, false, false, false⟩⟩
  | 0xD5 => some ⟨4, .tail, false, true, true, false, ⟨false, true, false, false, false, false, false, false⟩⟩
  | 0xD6 => some ⟨4, .tail, false, false, true, false, ⟨false, true, false, false, false, false, false, false⟩⟩
  | 0xD7 => some ⟨4, .tail, false, false, true, true, ⟨false, true, false, false, false, false, false, false⟩⟩
  | 0xD8 => some ⟨4, .none, false, false, true, false, TailUse.no⟩
  | 0xD9 => some ⟨4, .none, false, true, true, false, TailUse.no⟩
  | 0xDA => some ⟨4, .tail, false, false, true, true, ⟨false, true, false, false, false, false, false, false⟩⟩
  | 0xE0 => some ⟨5, .none, false, false, false, true, TailUse.no⟩
  | 0xE1 => some ⟨5, .none, false, true, false, true, TailUse.no⟩
  | 0xE2 => some ⟨5, .none, false, false, true, true, TailUse.no⟩
  | 0xFE => escapeShape d
  | _ => none

/-- The opcode and fields of a lane instruction, with its trailing word (R100, R101). -/
def laneParts : Instr → Option (Fld × Fld × Fld × Fld × Tail)
  | .iadd d a b => some (0x00, d, a, b, Tail.zero)
  | .iaddi d a b => some (0x01, d, a, b, Tail.zero)
  | .isub d a b => some (0x02, d, a, b, Tail.zero)
  | .imul d a b => some (0x03, d, a, b, Tail.zero)
  | .imulhs d a b => some (0x04, d, a, b, Tail.zero)
  | .imulhu d a b => some (0x05, d, a, b, Tail.zero)
  | .imad d a b c => some (0x06, d, a, b, ⟨c, 0, 0, 0, 0, 0, 0, 0⟩)
  | .imin d a b => some (0x07, d, a, b, Tail.zero)
  | .imax d a b => some (0x08, d, a, b, Tail.zero)
  | .umin d a b => some (0x09, d, a, b, Tail.zero)
  | .umax d a b => some (0x0A, d, a, b, Tail.zero)
  | .iabs d a => some (0x0B, d, a, 0, Tail.zero)
  | .ineg d a => some (0x0C, d, a, 0, Tail.zero)
  | .iand d a b => some (0x0D, d, a, b, Tail.zero)
  | .ior d a b => some (0x0E, d, a, b, Tail.zero)
  | .ixor d a b => some (0x0F, d, a, b, Tail.zero)
  | .andn d a b => some (0x10, d, a, b, Tail.zero)
  | .inot d a => some (0x11, d, a, 0, Tail.zero)
  | .shl d a b => some (0x12, d, a, b, Tail.zero)
  | .shr d a b => some (0x13, d, a, b, Tail.zero)
  | .sar d a b => some (0x14, d, a, b, Tail.zero)
  | .rotl d a b => some (0x15, d, a, b, Tail.zero)
  | .shli d a b => some (0x16, d, a, b, Tail.zero)
  | .shri d a b => some (0x17, d, a, b, Tail.zero)
  | .sari d a b => some (0x18, d, a, b, Tail.zero)
  | .popc d a => some (0x19, d, a, 0, Tail.zero)
  | .clz d a => some (0x1A, d, a, 0, Tail.zero)
  | .brev d a => some (0x1B, d, a, 0, Tail.zero)
  | .bfx d a sub aux => some (0x1C, d, a, 0, ⟨0, sub, 0, 0, 0, 0, 0, aux⟩)
  | .bfi d a b aux => some (0x1D, d, a, b, ⟨0, 0, 0, 0, 0, 0, 0, aux⟩)
  | .lea d a b aux => some (0x1E, d, a, b, ⟨0, 0, 0, 0, 0, 0, 0, aux⟩)
  | .add64 d a b => some (0x1F, d, a, b, Tail.zero)
  | .sub64 d a b => some (0x20, d, a, b, Tail.zero)
  | .mulw d a b sub => some (0x21, d, a, b, ⟨0, sub, 0, 0, 0, 0, 0, 0⟩)
  | .mov d a => some (0x28, d, a, 0, Tail.zero)
  | .movi d i => some (0x29, d, i.extractLsb' 8 8, i.extractLsb' 0 8, Tail.zero)
  | .movhi d i => some (0x2A, d, i.extractLsb' 8 8, i.extractLsb' 0 8, Tail.zero)
  | .movl d l => some (0x2B, d, 0, 0, unpackTail l)
  | .selp d a b pd pn => some (0x2C, d, a, b, ⟨0, 0, 0, 0, pd, pn, 0, 0⟩)
  | .icmp d a b sub ty => some (0x30, d, a, b, ⟨0, sub, 0, 0, 0, 0, ty, 0⟩)
  | .fcmp d a b sub => some (0x31, d, a, b, ⟨0, sub, 0, 0, 0, 0, 0, 0⟩)
  | .pand d a b => some (0x32, d, a, b, Tail.zero)
  | .por d a b => some (0x33, d, a, b, Tail.zero)
  | .pxor d a b => some (0x34, d, a, b, Tail.zero)
  | .pnot d a => some (0x35, d, a, 0, Tail.zero)
  | .pmov d a => some (0x36, d, a, 0, Tail.zero)
  | .ptov d a => some (0x37, d, a, 0, Tail.zero)
  | .fadd d a b => some (0x38, d, a, b, Tail.zero)
  | .faddT d a b rnd => some (0x39, d, a, b, ⟨0, 0, 0, rnd, 0, 0, 0, 0⟩)
  | .fsub d a b => some (0x3A, d, a, b, Tail.zero)
  | .fsubT d a b rnd => some (0x3B, d, a, b, ⟨0, 0, 0, rnd, 0, 0, 0, 0⟩)
  | .fmul d a b => some (0x3C, d, a, b, Tail.zero)
  | .fmulT d a b rnd => some (0x3D, d, a, b, ⟨0, 0, 0, rnd, 0, 0, 0, 0⟩)
  | .ffma d a b c rnd => some (0x3E, d, a, b, ⟨c, 0, 0, rnd, 0, 0, 0, 0⟩)
  | .fmin d a b => some (0x3F, d, a, b, Tail.zero)
  | .fmax d a b => some (0x40, d, a, b, Tail.zero)
  | .fabs d a => some (0x41, d, a, 0, Tail.zero)
  | .fneg d a => some (0x42, d, a, 0, Tail.zero)
  | .frnd d a rnd => some (0x43, d, a, 0, ⟨0, 0, 0, rnd, 0, 0, 0, 0⟩)
  | .frcp d a => some (0x44, d, a, 0, Tail.zero)
  | .frsq d a => some (0x45, d, a, 0, Tail.zero)
  | .fsqrt d a rnd => some (0x46, d, a, 0, ⟨0, 0, 0, rnd, 0, 0, 0, 0⟩)
  | .fexp2 d a => some (0x47, d, a, 0, Tail.zero)
  | .flog2 d a => some (0x48, d, a, 0, Tail.zero)
  | .fsin d a => some (0x49, d, a, 0, Tail.zero)
  | .fcos d a => some (0x4A, d, a, 0, Tail.zero)
  | .fclass d a => some (0x4B, d, a, 0, Tail.zero)
  | .hadd2 d a b => some (0x4C, d, a, b, Tail.zero)
  | .hmul2 d a b => some (0x4D, d, a, b, Tail.zero)
  | .hfma2 d a b c => some (0x4E, d, a, b, ⟨c, 0, 0, 0, 0, 0, 0, 0⟩)
  | .hmax2 d a b => some (0x4F, d, a, b, Tail.zero)
  | .hmin2 d a b => some (0x50, d, a, b, Tail.zero)
  | .badd2 d a b => some (0x51, d, a, b, Tail.zero)
  | .bmul2 d a b => some (0x52, d, a, b, Tail.zero)
  | .bfma2 d a b c => some (0x53, d, a, b, ⟨c, 0, 0, 0, 0, 0, 0, 0⟩)
  | .cvt d a sub rnd aux => some (0x54, d, a, 0, ⟨0, sub, 0, rnd, 0, 0, 0, aux⟩)
  | .tepack d a aux => some (0x55, d, a, 0, ⟨0, 0, 0, 0, 0, 0, 0, aux⟩)
  | .teunpk d a aux => some (0x56, d, a, 0, ⟨0, 0, 0, 0, 0, 0, 0, aux⟩)
  | .scalex d a b sub aux => some (0x57, d, a, b, ⟨0, sub, 0, 0, 0, 0, 0, aux⟩)
  | .shuf d a b => some (0x60, d, a, b, Tail.zero)
  | .shufup d a b => some (0x61, d, a, b, Tail.zero)
  | .shufdn d a b => some (0x62, d, a, b, Tail.zero)
  | .shufx d a b => some (0x63, d, a, b, Tail.zero)
  | .voteall d a => some (0x64, d, a, 0, Tail.zero)
  | .voteany d a => some (0x65, d, a, 0, Tail.zero)
  | .ballot d a => some (0x66, d, a, 0, Tail.zero)
  | .matchLanes d a => some (0x67, d, a, 0, Tail.zero)
  | .redux d a sub => some (0x68, d, a, 0, ⟨0, sub, 0, 0, 0, 0, 0, 0⟩)
  | .scan d a sub => some (0x69, d, a, 0, ⟨0, sub, 0, 0, 0, 0, 0, 0⟩)
  | .bra o => some (0x70, o.extractLsb' 16 8, o.extractLsb' 8 8, o.extractLsb' 0 8, Tail.zero)
  | .brc o pd pn => some (0x71, o.extractLsb' 16 8, o.extractLsb' 8 8, o.extractLsb' 0 8, ⟨0, 0, 0, 0, pd, pn, 0, 0⟩)
  | .brx a => some (0x72, 0, a, 0, Tail.zero)
  | .call o c => some (0x73, o.extractLsb' 16 8, o.extractLsb' 8 8, o.extractLsb' 0 8, ⟨c, 0, 0, 0, 0, 0, 0, 0⟩)
  | .callx d a => some (0x74, d, a, 0, Tail.zero)
  | .ret a => some (0x75, 0, a, 0, Tail.zero)
  | .exit => some (0x76, 0, 0, 0, Tail.zero)
  | .reconv o => some (0x77, o.extractLsb' 16 8, o.extractLsb' 8 8, o.extractLsb' 0 8, Tail.zero)
  | .rjoin => some (0x78, 0, 0, 0, Tail.zero)
  | .reform a => some (0x79, 0, a, 0, Tail.zero)
  | .nop => some (0x7A, 0, 0, 0, Tail.zero)
  | .sleep i => some (0x7B, 0, i.extractLsb' 8 8, i.extractLsb' 0 8, Tail.zero)
  | .ldl d a b => some (0x80, d, a, b, Tail.zero)
  | .ldlT d a b ty => some (0x81, d, a, b, ⟨0, 0, 0, 0, 0, 0, ty, 0⟩)
  | .stl d a b => some (0x82, d, a, b, Tail.zero)
  | .stlT d a b ty => some (0x83, d, a, b, ⟨0, 0, 0, 0, 0, 0, ty, 0⟩)
  | .ldg d a b => some (0x84, d, a, b, Tail.zero)
  | .ldgT d a b sub ty => some (0x85, d, a, b, ⟨0, sub, 0, 0, 0, 0, ty, 0⟩)
  | .stg d a b => some (0x86, d, a, b, Tail.zero)
  | .stgT d a b sub ty => some (0x87, d, a, b, ⟨0, sub, 0, 0, 0, 0, ty, 0⟩)
  | .ldk d a b => some (0x88, d, a, b, Tail.zero)
  | .lda d a b scope ty => some (0x89, d, a, b, ⟨0, 0, scope, 0, 0, 0, ty, 0⟩)
  | .strel d a b scope ty => some (0x8A, d, a, b, ⟨0, 0, scope, 0, 0, 0, ty, 0⟩)
  | .atom d a b c sub scope ty => some (0x8B, d, a, b, ⟨c, sub, scope, 0, 0, 0, ty, 0⟩)
  | .atomc d a b c scope ty aux => some (0x8C, d, a, b, ⟨c, 0, scope, 0, 0, 0, ty, aux⟩)
  | .atoml d a b c sub ty => some (0x8D, d, a, b, ⟨c, sub, 0, 0, 0, 0, ty, 0⟩)
  | .fatom a b c sub ty => some (0x8E, 0, a, b, ⟨c, sub, 0, 0, 0, 0, ty, 0⟩)
  | .fence sub scope => some (0x8F, 0, 0, 0, ⟨0, sub, scope, 0, 0, 0, 0, 0⟩)
  | .barinit a b => some (0x90, 0, a, b, Tail.zero)
  | .bara b => some (0x91, 0, 0, b, Tail.zero)
  | .barw b => some (0x92, 0, 0, b, Tail.zero)
  | .bars b => some (0x93, 0, 0, b, Tail.zero)
  | .rwrite d a b => some (0x94, d, a, b, Tail.zero)
  | .rwait a => some (0x95, 0, a, 0, Tail.zero)
  | .rcount d => some (0x96, d, 0, 0, Tail.zero)
  | .claim b => some (0x97, 0, 0, b, Tail.zero)
  | .give b => some (0x98, 0, 0, b, Tail.zero)
  | .bmovWrite d a => some (0x99, d, a, 0, Tail.zero)
  | .bmovRead d a => some (0x9A, d, a, 0, Tail.zero)
  | .tlblock a b => some (0x9B, 0, a, b, Tail.zero)
  | .tlbunlk a => some (0x9C, 0, a, 0, Tail.zero)
  | .acopy d a b c sub ty => some (0xB0, d, a, b, ⟨c, sub, 0, 0, 0, 0, ty, 0⟩)
  | .bcopy d a b sub => some (0xB1, d, a, b, ⟨0, sub, 0, 0, 0, 0, 0, 0⟩)
  | .gather d a b c ty => some (0xB2, d, a, b, ⟨c, 0, 0, 0, 0, 0, ty, 0⟩)
  | .tokclr d => some (0xB3, d, 0, 0, Tail.zero)
  | .tlwait a b => some (0xB4, 0, a, b, Tail.zero)
  | .tlread d a => some (0xB5, d, a, 0, Tail.zero)
  | .stashmap a b c => some (0xB6, 0, a, b, ⟨c, 0, 0, 0, 0, 0, 0, 0⟩)
  | .stashwb a b => some (0xB7, 0, a, b, Tail.zero)
  | .stashinv a b => some (0xB8, 0, a, b, Tail.zero)
  | .tspawn a b sub aux => some (0xC0, 0, a, b, ⟨0, sub, 0, 0, 0, 0, 0, aux⟩)
  | .futnew d => some (0xC1, d, 0, 0, Tail.zero)
  | .futset a b => some (0xC2, 0, a, b, Tail.zero)
  | .futwait a => some (0xC3, 0, a, 0, Tail.zero)
  | .futget d a => some (0xC4, d, a, 0, Tail.zero)
  | .futdrop a => some (0xC5, 0, a, 0, Tail.zero)
  | .qpop d b => some (0xC6, d, 0, b, Tail.zero)
  | .qpush a b => some (0xC7, 0, a, b, Tail.zero)
  | .qroom d b => some (0xC8, d, 0, b, Tail.zero)
  | .mbxbind a b => some (0xC9, 0, a, b, Tail.zero)
  | .nmatch a b c => some (0xCA, 0, a, b, ⟨c, 0, 0, 0, 0, 0, 0, 0⟩)
  | .nunmatch a => some (0xCB, 0, a, 0, Tail.zero)
  | .tend => some (0xCC, 0, 0, 0, Tail.zero)
  | .take => some (0xD0, 0, 0, 0, Tail.zero)
  | .keep scope => some (0xD1, 0, 0, 0, ⟨0, 0, scope, 0, 0, 0, 0, 0⟩)
  | .drop a sub aux => some (0xD2, 0, a, 0, ⟨0, sub, 0, 0, 0, 0, 0, aux⟩)
  | .tstat d => some (0xD3, d, 0, 0, Tail.zero)
  | .solicit d a b sub scope => some (0xD4, d, a, b, ⟨0, sub, scope, 0, 0, 0, 0, 0⟩)
  | .census d a sub => some (0xD5, d, a, 0, ⟨0, sub, 0, 0, 0, 0, 0, 0⟩)
  | .respond a sub => some (0xD6, 0, a, 0, ⟨0, sub, 0, 0, 0, 0, 0, 0⟩)
  | .kdirins a b sub => some (0xD7, 0, a, b, ⟨0, sub, 0, 0, 0, 0, 0, 0⟩)
  | .kdirdel a => some (0xD8, 0, a, 0, Tail.zero)
  | .kdirlook d a => some (0xD9, d, a, 0, Tail.zero)
  | .kdirmig a b sub => some (0xDA, 0, a, b, ⟨0, sub, 0, 0, 0, 0, 0, 0⟩)
  | .trap b => some (0xE0, 0, 0, b, Tail.zero)
  | .getsr d b => some (0xE1, d, 0, b, Tail.zero)
  | .setsr a b => some (0xE2, 0, a, b, Tail.zero)
  | .bkpt i => some (0xFE, 0x01, i.extractLsb' 8 8, i.extractLsb' 0 8, Tail.zero)
  | .yield => some (0xFE, 0x02, 0, 0, Tail.zero)
  | .sysret => some (0xFE, 0x03, 0, 0, Tail.zero)
  | _ => none

/-- A field that an opcode does not use must be zero (R101, R102): the tail part. -/
def tailUnusedZero (u : TailUse) (t : Tail) : Bool :=
  (u.c || t.c == 0) && (u.sub || t.sub == 0) && (u.scope || t.scope == 0) && (u.rnd || t.rnd == 0) &&
  (u.pd || t.pd == 0) && (u.pn || t.pn == 0) && (u.ty || t.ty == 0) && (u.aux || t.aux == 0)

/-- Every field that the opcode does not use is zero (R102: kind 0; R103: 0x06). -/
def unusedZero (s : Shape) (d a b : Fld) (t : Tail) : Bool :=
  (s.d || d == 0) && (s.a || a == 0) && (s.b || b == 0) && (s.trail != .tail || tailUnusedZero s.tail t)

/-- Some condition that raises 0x06 fails first, then one that raises 0x07 (R99). -/
def check67 (bad6 bad7 : Bool) : Option Nat :=
  if bad6 then some 6 else if bad7 then some 7 else none

/-- Kind :v is broken (R102). -/
def notV (f : Fld) : Bool := decide (192 ≤ f.toNat)
/-- Kind :w is broken (R102). -/
def notW (f : Fld) : Bool := decide (f.toNat < 192)
/-- Kind :2 is broken (R102). -/
def odd (f : Fld) : Bool := f.toNat % 2 == 1
/-- Kind :p is broken (R102). -/
def notP (f : Fld) : Bool := decide (8 ≤ f.toNat)
/-- Kind :b is broken (R102). -/
def notB (f : Fld) : Bool := decide (64 ≤ f.toNat)
/-- Kind :sh is broken (R102). -/
def notSh (f : Fld) : Bool := decide (16 ≤ f.toNat)
/-- An immediate above a limit (R106, R120). -/
def above (n : Nat) (f : Fld) : Bool := decide (n < f.toNat)
/-- The field is no multiple of n. -/
def notMul (n : Nat) (f : Fld) : Bool := f.toNat % n != 0
/-- A group of 8 lane registers from 0x00 to 0xB8 (R260) is broken. -/
def notG8 (f : Fld) : Bool := notMul 8 f || notV f
/-- The scope code 0b111 is reserved (R101). -/
def badScope (s : BitVec 3) : Bool := s == 7
/-- A SUB above the last one that its instruction assigns. -/
def subAbove (n : Nat) (s : BitVec 4) : Bool := decide (n < s.toNat)

/-- The FMT codes that CVT takes (R137) and how many parts a register holds of each; 0 for the others. -/
def fmtParts (f : Nat) : Nat :=
  match f with
  | 0 => 1 | 9 => 1 | 1 => 2 | 2 => 2 | 3 => 4 | 4 => 4 | 5 => 4 | _ => 0

/-- The size and register conditions of a plain load or store (R186). -/
def sizeBad7 (s : Fld) (ty : BitVec 3) : Bool :=
  (ty == 5 && odd s) || (ty == 6 && notMul 4 s)

/-- The cause, 0x06 or 0x07, of the first field of an instruction whose value is outside what its entry allows:
R102 with the operand notes of R106 and R109, and the rules of each instruction's chapter. -/
def fieldFault : Instr → Option Nat
  | .shli _ _ n => check67 false (above 31 n)
  | .shri _ _ n => check67 false (above 31 n)
  | .sari _ _ n => check67 false (above 31 n)
  | .bfx _ _ sub aux =>
    check67 (aux.getLsbD 5) (decide (32 < (aux.toNat % 32) + ((sub.toNat % 8) * 4 + aux.toNat / 64) + 1))
  | .bfi _ _ _ aux =>
    check67 (decide (6 ≤ aux.toNat / 32)) (decide (32 < aux.toNat % 32 + 2 ^ (aux.toNat / 32)))
  | .lea _ _ _ aux => check67 false (above 31 aux)
  | .add64 d a b => check67 false (odd d || odd a || odd b)
  | .sub64 d a b => check67 false (odd d || odd a || odd b)
  | .mulw d _ _ sub => check67 (subAbove 1 sub) (odd d)
  | .icmp d _ _ sub ty => check67 (subAbove 5 sub || decide (1 < ty.toNat)) (notP d)
  | .fcmp d _ _ sub => check67 (subAbove 7 sub) (notP d)
  | .pand d a b => check67 false (notP d || notP a || notP b)
  | .por d a b => check67 false (notP d || notP a || notP b)
  | .pxor d a b => check67 false (notP d || notP a || notP b)
  | .pnot d a => check67 false (notP d || notP a)
  | .pmov d a => check67 false (notP d || notP a)
  | .ptov _ a => check67 false (notP a)
  | .cvt _ _ sub _ aux =>
    check67 (decide (fmtParts (aux.toNat % 16) ≤ sub.toNat / 4) || decide (fmtParts (aux.toNat / 16) ≤ sub.toNat % 4)) false
  | .tepack _ _ aux => check67 (decide (aux.toNat < 6) || above 8 aux) false
  | .teunpk _ _ aux =>
    check67 (aux.toNat % 16 != 0 || decide (aux.toNat / 16 < 6) || decide (8 < aux.toNat / 16)) false
  | .scalex _ _ b sub aux =>
    check67 (subAbove 1 sub || decide (aux.toNat < 3) || above 5 aux || (sub == 0 && b != 0)) false
  | .shufup _ _ n => check67 false (above 31 n)
  | .shufdn _ _ n => check67 false (above 31 n)
  | .shufx _ _ n => check67 false (above 31 n)
  | .voteall d a => check67 false (notP d || notP a)
  | .voteany d a => check67 false (notP d || notP a)
  | .ballot _ a => check67 false (notP a)
  | .redux _ _ sub => check67 (subAbove 10 sub) false
  | .scan _ _ sub => check67 (subAbove 8 sub) false
  | .ldlT s _ _ ty => check67 (ty == 7) (sizeBad7 s ty)
  | .stlT s _ _ ty => check67 (ty == 7 || ty == 1 || ty == 3) (sizeBad7 s ty)
  | .ldg _ base _ => check67 false (odd base)
  | .stg _ base _ => check67 false (odd base)
  | .ldk _ base _ => check67 false (odd base)
  | .ldgT s base _ sub ty => check67 (ty == 7 || subAbove 2 sub) (odd base || sizeBad7 s ty)
  | .stgT s base _ sub ty => check67 (ty == 7 || ty == 1 || ty == 3 || subAbove 1 sub) (odd base || sizeBad7 s ty)
  | .lda s base _ scope ty => check67 (badScope scope || decide (6 ≤ ty.toNat)) (odd base || sizeBad7 s ty)
  | .strel s base _ scope ty =>
    check67 (badScope scope || decide (6 ≤ ty.toNat) || ty == 1 || ty == 3) (odd base || sizeBad7 s ty)
  | .atom s base _ c sub scope ty =>
    check67 (badScope scope || subAbove 8 sub) (odd base || (ty.getLsbD 1 && (odd s || odd c)))
  | .atomc s base _ c scope ty aux =>
    check67 (badScope scope) (odd base || (ty.getLsbD 1 && (odd s || odd c || odd aux)))
  | .atoml s _ _ c sub ty =>
    check67 (subAbove 8 sub || decide (4 ≤ ty.toNat)) (ty.getLsbD 1 && (odd s || odd c))
  | .fatom base _ _ sub ty => check67 (subAbove 0 sub || decide (3 ≤ ty.toNat)) (odd base)
  | .fence sub scope => check67 (subAbove 2 sub || badScope scope) false
  | .barinit _ n => check67 false (above 31 n)
  | .bara n => check67 false (above 31 n)
  | .barw n => check67 false (above 31 n)
  | .bars n => check67 false (above 31 n)
  | .rwrite n _ _ => check67 false (notV n)
  | .claim m => check67 false (m == 0 || above 15 m)
  | .give m => check67 false (m == 0 || above 15 m)
  | .bmovWrite d _ => check67 false (notB d)
  | .bmovRead _ a => check67 false (notB a)
  | .tlblock a _ => check67 false (odd a)
  | .tlbunlk a => check67 false (odd a)
  | .acopy d a b c sub ty =>
    check67 (sub.toNat % 4 == 3 || sub.getLsbD 3 || (sub.toNat % 4 == 1 && sub.getLsbD 2) ||
        (!sub.getLsbD 2 && ty != 0) || (sub.getLsbD 2 && decide (2 < ty.toNat)))
      (notW d || (sub.toNat % 4 == 0 && odd b) || (sub.toNat % 4 == 1 && odd a) || (sub.getLsbD 2 && odd c))
  | .bcopy d a b sub => check67 (decide (4 ≤ sub.toNat)) (notW d || notSh a || odd b)
  | .gather d _ b _ ty => check67 (decide (6 ≤ ty.toNat)) (notW d || odd b)
  | .tokclr d => check67 false (notW d)
  | .tlwait _ b => check67 false (odd b)
  | .tlread d _ => check67 false (odd d)
  | .stashmap _ b _ => check67 false (odd b)
  | .tspawn _ b sub aux =>
    check67 (subAbove 1 sub || above 8 aux || (sub == 1 && aux == 0) || (aux == 0 && b != 0))
      (aux != 0 && (notV b || decide (192 < b.toNat + aux.toNat)))
  | .qpop d q => check67 false (notG8 d || above 7 q)
  | .qpush a q => check67 false (notG8 a || above 7 q)
  | .qroom _ q => check67 false (above 7 q)
  | .mbxbind _ b => check67 false (notMul 4 b)
  | .nmatch _ b _ => check67 false (notMul 4 b)
  | .keep scope => check67 (badScope scope) false
  | .drop a sub aux =>
    check67 (subAbove 1 sub || (aux != 0 && decide (aux.toNat < 128)) || (sub == 0 && a != 0)) false
  | .solicit _ a _ sub scope => check67 (subAbove 6 sub || decide (scope.toNat < 3) || badScope scope) (odd a)
  | .census _ _ sub => check67 (subAbove 4 sub) false
  | .respond _ sub => check67 (subAbove 1 sub) false
  | .kdirins a b sub => check67 (subAbove 1 sub) (odd a || odd b)
  | .kdirdel a => check67 false (odd a)
  | .kdirlook d a => check67 false (odd d || odd a)
  | .kdirmig a _ sub => check67 (subAbove 1 sub) (odd a)
  | .shset _ _ _ sel => check67 (!shsetSel sel.toNat) false
  | .mzero x => check67 false (decide (8 ≤ x.toNat))
  | .mma _ x _ _ _ => check67 false (decide (8 ≤ x.toNat))
  | .mmas _ x _ _ _ => check67 false (decide (8 ≤ x.toNat))
  | .mma32 x _ _ _ => check67 false (decide (8 ≤ x.toNat))
  | .conv _ x _ _ _ => check67 false (decide (8 ≤ x.toNat))
  | .mst x _ t => check67 (above 1 t) (decide (8 ≤ x.toNat))
  | .mld x _ => check67 false (decide (8 ≤ x.toNat))
  | .mact x fn => check67 (above 2 fn && decide (fn.toNat < 128)) (decide (8 ≤ x.toNat))
  | .sqbar n => check67 false (above 31 n)
  | .sqwait n => check67 false (above 31 n)
  | .sqsetUniform _ b => check67 (above 63 b) false
  | .cmpj _ _ z _ => check67 (decide (6 ≤ z.toNat)) false
  | .cmb _ _ _ co => check67 (co == 3) false
  | .cmbf _ _ _ _ co => check67 (co == 3) false
  | _ => none
where
  /-- The field selectors of SHSET (R232). -/
  shsetSel (n : Nat) : Bool :=
    decide (n ≤ 4) || decide (0x10 ≤ n ∧ n ≤ 0x15) || decide (0x21 ≤ n ∧ n ≤ 0x25) || n == 0x30 || n == 0x31 ||
    decide (0x40 ≤ n ∧ n ≤ 0x48) || n == 0x80

/-- The result of decoding one word: an instruction, or the cause code of the spec. -/
inductive Dec where
  | ok (i : Instr)
  | bad (code : Nat)
deriving DecidableEq, Repr

/-- Decode a lane instruction from its fields, in the order of R99: 0x05, then 0x06, then 0x07. -/
def decodeLane (op d a b : Fld) (t : Tail) : Dec :=
  match laneShape op d, buildLane op d a b t with
  | some s, some i =>
    if unusedZero s d a b t then
      match fieldFault i with
      | none => .ok i
      | some c => .bad c
    else .bad 6
  | _, _ => .bad 5

/-- A lane word's fields (R100). -/
def fOp (w : Word) : Fld := w.extractLsb' 24 8
/-- Bits [23:16] of a lane word (R100). -/
def fD (w : Word) : Fld := w.extractLsb' 16 8
/-- Bits [15:8] of a lane word (R100). -/
def fA (w : Word) : Fld := w.extractLsb' 8 8
/-- Bits [7:0] of a lane word (R100). -/
def fB (w : Word) : Fld := w.extractLsb' 0 8

/-- Decode a lane word with the word that follows it, if one does (R100). -/
def decodeLaneWord (w : Word) (t : Option Word) : Dec :=
  match laneShape (fOp w) (fD w), t with
  | none, _ => .bad 5
  | some ⟨_, .none, _, _, _, _, _⟩, _ => decodeLane (fOp w) (fD w) (fA w) (fB w) Tail.zero
  | some _, none => .bad 8
  | some _, some u => decodeLane (fOp w) (fD w) (fA w) (fB w) (unpackTail u)

/-- The words of a lane instruction: its word, and its trailing word if it has one (R100). -/
def encodeLane (i : Instr) : Option (Word × Option Word) :=
  match laneParts i with
  | none => none
  | some (op, d, a, b, t) =>
    some (op ++ d ++ a ++ b,
      match laneShape op d with
      | some ⟨_, .none, _, _, _, _, _⟩ => none
      | _ => some (packTail t))

/-! Matrix-stream words (R108, R109). -/

/-- The instruction that a matrix-stream word names (R109): opcode, four 4-bit fields, IMM8 and the literal. -/
def buildStream (op : Fld) (x y z w : BitVec 4) (imm : Fld) (lit : Word) : Option Instr :=
  let n := op.toNat
  if n = 0x01 then some (.shld x y)
  else if n = 0x02 then some (.shset x y z imm)
  else if n = 0x03 then some (.shcopy x y)
  else if n = 0x04 then some (.wload x y)
  else if n = 0x08 then some (.mzero x)
  else if n / 8 = 2 then some (.mma (op.extractLsb' 0 3) x y z w)
  else if n / 8 = 3 then some (.mmas (op.extractLsb' 0 3) x y z w)
  else if n = 0x20 then some (.mma32 x y z w)
  else if n / 8 = 5 then some (.conv (op.extractLsb' 0 3) x y z w)
  else if n = 0x30 then some (.mst x y imm)
  else if n = 0x31 then some (.mld x y)
  else if n = 0x32 then some (.mact x imm)
  else if n = 0x40 then some (.sqbar imm)
  else if n = 0x41 then some (.sqwait imm)
  else if n = 0x42 then some (.sqloop x)
  else if n = 0x43 then some (.sqend (y ++ z ++ w ++ imm))
  else if n = 0x44 then some (.sqbra x (y ++ z ++ w ++ imm))
  else if n = 0x45 then some .sqhalt
  else if n = 0x46 then some (.sqtl x y)
  else if n = 0x48 then some (.sqsetLiteral x lit)
  else if n = 0x49 then some (.sqsetUniform x imm)
  else if n = 0x4A then some (.sqadd x y z)
  else none

/-- The fields X, Y, Z, W, IMM8 that a matrix-stream instruction uses (R109). -/
def streamUse : Instr → Bool × Bool × Bool × Bool × Bool
  | .shld _ _ => (true, true, false, false, false)
  | .shset _ _ _ _ => (true, true, true, false, true)
  | .shcopy _ _ => (true, true, false, false, false)
  | .wload _ _ => (true, true, false, false, false)
  | .mzero _ => (true, false, false, false, false)
  | .mma _ _ _ _ _ => (true, true, true, true, false)
  | .mmas _ _ _ _ _ => (true, true, true, true, false)
  | .mma32 _ _ _ _ => (true, true, true, true, false)
  | .conv _ _ _ _ _ => (true, true, true, true, false)
  | .mst _ _ _ => (true, true, false, false, true)
  | .mld _ _ => (true, true, false, false, false)
  | .mact _ _ => (true, false, false, false, true)
  | .sqbar _ => (false, false, false, false, true)
  | .sqwait _ => (false, false, false, false, true)
  | .sqloop _ => (true, false, false, false, false)
  | .sqend _ => (false, true, true, true, true)
  | .sqbra _ _ => (true, true, true, true, true)
  | .sqtl _ _ => (true, true, false, false, false)
  | .sqsetLiteral _ _ => (true, false, false, false, false)
  | .sqsetUniform _ _ => (true, false, false, false, true)
  | .sqadd _ _ _ => (true, true, true, false, false)
  | _ => (false, false, false, false, false)

/-- Decode a matrix-stream word from its fields, in the order of R99. -/
def decodeStream (op : Fld) (x y z w : BitVec 4) (imm : Fld) (lit : Word) : Dec :=
  match buildStream op x y z w imm lit with
  | none => .bad 5
  | some i =>
    let u := streamUse i
    if (u.1 || x == 0) && (u.2.1 || y == 0) && (u.2.2.1 || z == 0) && (u.2.2.2.1 || w == 0) && (u.2.2.2.2 || imm == 0) then
      match fieldFault i with
      | none => .ok i
      | some c => .bad c
    else .bad 6

/-- Decode a matrix-stream word with the word that follows it, if one does (R108: only 0x48 takes a literal). -/
def decodeStreamWord (w : Word) (t : Option Word) : Dec :=
  if fOp w = 0x48 then
    match t with
    | none => .bad 8
    | some l =>
      decodeStream (fOp w) (w.extractLsb' 20 4) (w.extractLsb' 16 4) (w.extractLsb' 12 4) (w.extractLsb' 8 4) (fB w) l
  else
    decodeStream (fOp w) (w.extractLsb' 20 4) (w.extractLsb' 16 4) (w.extractLsb' 12 4) (w.extractLsb' 8 4) (fB w) 0

/-- The fields of a matrix-stream instruction (R109): opcode, X, Y, Z, W, IMM8 and the literal. -/
def streamParts : Instr → Option (Fld × BitVec 4 × BitVec 4 × BitVec 4 × BitVec 4 × Fld × Word)
  | .shld x y => some (0x01, x, y, 0, 0, 0, 0)
  | .shset x y z sel => some (0x02, x, y, z, 0, sel, 0)
  | .shcopy x y => some (0x03, x, y, 0, 0, 0, 0)
  | .wload x y => some (0x04, x, y, 0, 0, 0, 0)
  | .mzero x => some (0x08, x, 0, 0, 0, 0, 0)
  | .mma f x y z w => some ((0b00010#5) ++ f, x, y, z, w, 0, 0)
  | .mmas f x y z w => some ((0b00011#5) ++ f, x, y, z, w, 0, 0)
  | .mma32 x y z w => some (0x20, x, y, z, w, 0, 0)
  | .conv f x y z w => some ((0b00101#5) ++ f, x, y, z, w, 0, 0)
  | .mst x y t => some (0x30, x, y, 0, 0, t, 0)
  | .mld x y => some (0x31, x, y, 0, 0, 0, 0)
  | .mact x fn => some (0x32, x, 0, 0, 0, fn, 0)
  | .sqbar n => some (0x40, 0, 0, 0, 0, n, 0)
  | .sqwait n => some (0x41, 0, 0, 0, 0, n, 0)
  | .sqloop x => some (0x42, x, 0, 0, 0, 0, 0)
  | .sqend o => some (0x43, 0, o.extractLsb' 16 4, o.extractLsb' 12 4, o.extractLsb' 8 4, o.extractLsb' 0 8, 0)
  | .sqbra x o => some (0x44, x, o.extractLsb' 16 4, o.extractLsb' 12 4, o.extractLsb' 8 4, o.extractLsb' 0 8, 0)
  | .sqhalt => some (0x45, 0, 0, 0, 0, 0, 0)
  | .sqtl x y => some (0x46, x, y, 0, 0, 0, 0)
  | .sqsetLiteral x l => some (0x48, x, 0, 0, 0, 0, l)
  | .sqsetUniform x b => some (0x49, x, 0, 0, 0, b, 0)
  | .sqadd x y z => some (0x4A, x, y, z, 0, 0, 0)
  | _ => none

/-- The words of a matrix-stream instruction (R108). -/
def encodeStream (i : Instr) : Option (Word × Option Word) :=
  match streamParts i with
  | none => none
  | some (op, x, y, z, w, imm, l) =>
    some (op ++ x ++ y ++ z ++ w ++ imm, if op = 0x48 then some l else none)

/-- The instruction terminates its matrix-stream clause (R98). -/
def streamTerm (op : Fld) : Bool := op == 0x43 || op == 0x44 || op == 0x45

/-! Splice words (R365, R366). -/

/-- Decode a splice word: an instruction, or cause 0x60 or 0x61 (R366). -/
def decodeSplice (w : Word) : Dec :=
  let x := w.extractLsb' 20 4
  let y := w.extractLsb' 16 4
  let z := w.extractLsb' 12 4
  let i := w.extractLsb' 0 12
  let bf := w.extractLsb' 21 3
  let ki := w.extractLsb' 17 4
  let ks := w.extractLsb' 13 4
  let kd := w.extractLsb' 9 4
  let co := w.extractLsb' 7 2
  let t := w.getLsbD 6
  let low := w.extractLsb' 0 6 == 0
  let mk (ok : Bool) (ins : Instr) : Dec :=
    if ok && (fieldFault ins).isNone then .ok ins else .bad 0x61
  match (fOp w).toNat with
  | 0x01 => mk (w.extractLsb' 0 24 == 0) .spliceNop
  | 0x02 => mk (w.extractLsb' 0 24 == 0) .halt
  | 0x08 => mk (y == 0) (.spliceMovi x (w.extractLsb' 0 16))
  | 0x09 => mk (z == 0) (.addi x y i)
  | 0x0A => mk (z == 0) (.subi x y i)
  | 0x0B => mk (y == 0 && z == 0) (.ldc x i)
  | 0x10 => mk (x == 0 && y == 0 && z == 0) (.jmp i)
  | 0x11 => mk true (.cmpj x y z i)
  | 0x12 => mk (y == 0 && z == 0) (.spliceLoop x i)
  | 0x13 => mk (w.extractLsb' 0 24 == 0) .endl
  | 0x20 =>
    if t then mk (low && co == 0) (.xmitTag bf ki ks kd)
    else mk (low && co == 0 && ks == 0) (.xmit bf ki kd)
  | 0x21 => mk (low && !t && co == 0 && kd == 0) (.recv bf ki ks)
  | 0x22 => mk (low && !t && kd == 0) (.cmb bf ki ks co)
  | 0x23 => mk (low && !t) (.cmbf bf ki ks kd co)
  | 0x30 => mk (z == 0) (.fwait x y i)
  | 0x31 => mk (z == 0) (.fsig x y i)
  | _ => .bad 0x60

/-- The word of a splice instruction (R365, R366). -/
def encodeSplice : Instr → Option Word
  | .spliceNop => some 0x01000000
  | .halt => some 0x02000000
  | .spliceMovi x i => some (0x08#8 ++ x ++ 0#4 ++ i)
  | .addi x y i => some (0x09#8 ++ x ++ y ++ 0#4 ++ i)
  | .subi x y i => some (0x0A#8 ++ x ++ y ++ 0#4 ++ i)
  | .ldc x i => some (0x0B#8 ++ x ++ 0#8 ++ i)
  | .jmp i => some (0x10#8 ++ 0#12 ++ i)
  | .cmpj x y z i => some (0x11#8 ++ x ++ y ++ z ++ i)
  | .spliceLoop x i => some (0x12#8 ++ x ++ 0#8 ++ i)
  | .endl => some 0x13000000
  | .xmit bf ki kd => some (0x20#8 ++ bf ++ ki ++ 0#4 ++ kd ++ 0#9)
  | .xmitTag bf ki ks kd => some (0x20#8 ++ bf ++ ki ++ ks ++ kd ++ 0#2 ++ 1#1 ++ 0#6)
  | .recv bf ki ks => some (0x21#8 ++ bf ++ ki ++ ks ++ 0#13)
  | .cmb bf ki ks co => some (0x22#8 ++ bf ++ ki ++ ks ++ 0#4 ++ co ++ 0#7)
  | .cmbf bf ki ks kd co => some (0x23#8 ++ bf ++ ki ++ ks ++ kd ++ co ++ 0#7)
  | .fwait x y i => some (0x30#8 ++ x ++ y ++ 0#4 ++ i)
  | .fsig x y i => some (0x31#8 ++ x ++ y ++ 0#4 ++ i)
  | _ => none

/-! Clauses (R91 to R99). -/

/-- A clause header's fields (R92). -/
structure Header where
  check : BitVec 8
  gneg : Bool
  guard : Nat
  waitArg : BitVec 8
  waitKind : Nat
  bit7 : Bool
  cls : Nat
  count : Nat
deriving DecidableEq, Repr

/-- The fields of a clause header (R92). -/
def unpackHeader (w : Word) : Header :=
  ⟨w.extractLsb' 24 8, w.getLsbD 23, (w.extractLsb' 20 3).toNat, w.extractLsb' 12 8, (w.extractLsb' 8 4).toNat,
   w.getLsbD 7, (w.extractLsb' 4 3).toNat, (w.extractLsb' 0 4).toNat⟩

/-- A WAITARG bit that the wait kind leaves unused is set, or wait kind 3 names an odd register (R93, R103). -/
def waitArgBad (h : Header) : Bool :=
  match h.waitKind with
  | 0 => h.waitArg != 0
  | 1 => decide (32 ≤ h.waitArg.toNat)
  | 3 => decide (64 ≤ h.waitArg.toNat) || h.waitArg.getLsbD 0
  | _ => decide (64 ≤ h.waitArg.toNat)

/-- The first encoding fault of a clause header, in the order 0x01, 0x02, 0x03, 0x0A (R99, R103); seq says that a
block sequencer fetches it. -/
def headerFault (seq : Bool) (h : Header) : Option Nat :=
  if h.check ≠ 0xA5 then some 1
  else if h.count = 0 then some 2
  else if h.bit7 || h.cls == 7 || decide (6 ≤ h.waitKind) || waitArgBad h || (h.gneg && h.guard == 0) ||
      (h.cls == 6 && (decide (1 < h.waitKind) || h.guard != 0 || h.gneg)) then some 3
  else if (h.cls == 6) != seq then some 0x0A
  else none

/-- The first encoding fault of a clause's words with the index of its word, counted from 1 (R99): for each word in
address order 0x05, 0x04, 0x08, 0x06, 0x07, 0x09. -/
def wordsFault (cls : Nat) : Nat → List Word → Option (Nat × Nat)
  | _, [] => none
  | n, [w] => laneWordFault cls n w none [] 
  | n, w :: t :: r =>
    if cls = 6 then
      if fOp w = 0x48 then
        match decodeStreamWord w (some t) with
        | .bad c => some (n, c)
        | .ok _ => wordsFault cls (n + 2) r
      else
        match decodeStreamWord w (some t) with
        | .bad c => some (n, c)
        | .ok _ => if streamTerm (fOp w) then some (n, 9) else wordsFault cls (n + 1) (t :: r)
    else
      match laneWordFault cls n w (some t) r with
      | some f => some f
      | none =>
        match laneShape (fOp w) (fD w) with
        | some ⟨_, .none, _, _, _, _, _⟩ => wordsFault cls (n + 1) (t :: r)
        | _ => wordsFault cls (n + 2) r
where
  /-- The first fault of one word, given the word that follows it and the words after that one. -/
  laneWordFault (cls n : Nat) (w : Word) (t : Option Word) (r : List Word) : Option (Nat × Nat) :=
    if cls = 6 then
      match decodeStreamWord w t with
      | .bad c => some (n, c)
      | .ok _ => none
    else
      match laneShape (fOp w) (fD w) with
      | none => some (n, 5)
      | some s =>
        if s.cls ≠ cls ∧ fOp w ≠ 0x7A then some (n, 4)
        else
          match decodeLaneWord w t with
          | .bad c => some (n, c)
          | .ok _ =>
            let rest := match s.trail, t with
              | .none, some _ => true
              | .none, none => false
              | _, _ => !r.isEmpty
            if s.term && rest then some (n, 9) else none

/-- The instruction at index k, from 1, of a clause's words, as decoded from that word and the next. -/
def decodeAt (seq : Bool) (code : List Word) (k : Nat) : Dec :=
  match code[k - 1]? with
  | none => .bad 5
  | some w => if seq then decodeStreamWord w code[k]? else decodeLaneWord w code[k]?

/-- The number of words of the instruction at index k of a clause (R100). -/
def wordLen (seq : Bool) (code : List Word) (k : Nat) : Nat :=
  match code[k - 1]? with
  | none => 1
  | some w =>
    if seq then (if fOp w = 0x48 then 2 else 1)
    else
      match laneShape (fOp w) (fD w) with
      | some ⟨_, .none, _, _, _, _, _⟩ => 1
      | none => 1
      | some _ => 2

/-- The instruction of a row of the opcode table whose bits are given: a lane word (with its trailing word in bits
63..32), else a matrix-stream word, else a splice word. The three are separate sets of words of one width, and a lane
word is preferred (log 13). -/
def decodeTableWord (nbits w : Nat) : Option Instr :=
  let v := w % 2 ^ nbits
  let lo : Word := BitVec.ofNat 32 v
  let hi : Word := BitVec.ofNat 32 (v / 2 ^ 32)
  match decodeLaneWord lo (some hi) with
  | .ok i => some i
  | .bad _ =>
    match decodeStreamWord lo (some hi) with
    | .ok i => some i
    | .bad _ =>
      match decodeSplice lo with
      | .ok i => some i
      | .bad _ => none

end Sys2Proof
end

