-- ==== Sys2Proof/Machine/State.lean ====
section
/-! DEFINITION. The state of one Tesogor package, as plain data: everything the spec gives the machine.
Keys: a core is 64 * die + core; a warp is 64 * core + slot; a hardware queue is 8 * core + queue; a splicer
context is 8 * link + context; a workgroup is launch serial * 2^64 + workgroup number. -/

namespace Sys2Proof.Machine

/-- Why the machine stops with a fault. Only the model itself raises it; the spec's own faults end a grid, stop a
splicer or halt a queue, and the machine goes on. -/
inductive Fault where
  /-- A word was run that no agent issues: raised by the meaning of a lane word, stream word, splice word or packet
  when the state names no issuer of that kind. No run reaches it, since step names the issuer. Safe. -/
  | noIssuer
deriving DecidableEq, Repr

/-- Why the model refuses an instruction. -/
inductive Refusal where
  /-- No meaning is given yet; raised by the dispatcher only. Safe. -/
  | notModelled (mnemonic : String)
deriving DecidableEq, Repr

/-- The agent on whose behalf the next word is run (log 3). -/
inductive Issuer where
  | none
  | warp (k : Nat)
  | seq (c : Nat)
  | splicer (k : Nat)
  | queue (q : Nat)
deriving DecidableEq, Repr

/-- Who moves next (log 3): an event with its operands, one agent's word or packet, or time alone. -/
inductive Turn where
  | ev (i : Instr)
  | warp (k : Nat)
  | seq (c : Nat)
  | splicer (k : Nat)
  | queue (q : Nat)
  | idle (clocks : Nat)
deriving DecidableEq, Repr

/-- The name of a thread inside the package: its workgroup, and its ordinal or task serial (R14, R252); a lane of a trap
handler has the name of the thread that it serves, marked (R328). -/
structure TName where
  wg : Nat
  task : Bool
  n : Nat
  handler : Bool
deriving DecidableEq, Repr

/-- A thread's program counter: the address of a clause header and the index of a word in that clause (R95).
Index 0 is the header, index k the k-th word after it. -/
structure PC where
  hdr : DWord
  idx : Nat
deriving DecidableEq, Repr

/-- What a thread waits for (R38). -/
inductive Wait where
  | none
  /-- a clause-header wait (R93) -/
  | header (kind arg : Nat)
  /-- the header wait is over: it is not applied again (R94, R95) -/
  | headerOk
  | bar (n : Nat)
  | sleep (until_ : Nat)
  /-- a SLEEP of a frozen or saved warp: the count that it has left (R153) -/
  | slept (rest : Nat)
  | arrive (a : Word)
  | timeline (h : Word) (thr : DWord)
  /-- the futures still unresolved; with none left the wait is over, and so is that of a QPOP or QPUSH whose lane has been
  served while it was written out (17 R267, R271) -/
  | futures (hs : List Word)
  | queue (q : Nat)
  | solicit
  /-- waits at CENSUS until these censuses are complete, and then issues the word again -/
  | census (ids : List Nat)
  | claim
  /-- stalls at REFORM, whose target is in a register, and which it then issues again (R20, R53) -/
  | reform (a : Fld)
  | rjoin
  | keep
  /-- parked by a TRAP that a handler serves (R328) -/
  | trap
  /-- parked by a debug trap (R25) -/
  | debug
  /-- waits at YIELD while a drain is pending (R321) -/
  | drain
  /-- is being rolled back: waits where it stands until the pending writes of these lanes have completed, and then takes the
  status code, and after it the debug trap (cause, tag, PC) that has ended its take (R71, R292, R297) -/
  | rollback (m : Mask) (code : Byte) (trap : Option (Nat × Nat × DWord))
deriving DecidableEq, Repr

/-- A live thread in a lane of a warp. -/
structure Thread where
  pc : PC
  wait : Wait
  /-- where the thread goes on when its wait ends -/
  next : PC
  /-- pass count (R143) -/
  passes : Nat
  name : TName
  /-- work identifier (R10) -/
  wid : DWord
  /-- take depth and code (R281) -/
  tdepth : Nat
  tcode : Byte
  /-- the phase of the most recent arrival at each barrier (R198) -/
  barArr : Tbl Nat
  /-- the census that a responder answers, by the model's number for it, and its key-directory entry (R305) -/
  census : Option (Nat × Nat)
  responded : Bool
  /-- the trapped thread that a handler lane serves (R328) -/
  served : Option TName
  /-- the thread has been resumed at a breakpoint and issues that word without trapping again (R25) -/
  pass1 : Bool
deriving DecidableEq, Repr

/-- An entry of the reconvergence list (R147). -/
structure Recon where
  id : Nat
  join : DWord
  members : Mask
  arrived : Mask
deriving DecidableEq, Repr

/-- What kind of warp it is (R328: v7; R103: fault 0x0B). -/
inductive WKind where
  | launch
  | bin
  | task
  | responder
  | handler
deriving DecidableEq, Repr

/-- A byte held in a take's store buffer (R285): the lane that wrote it, its value, its physical place, and the number of the
store that wrote it, which tells stores apart (17 R274). -/
structure BufByte where
  lane : Nat
  val : Byte
  loc : Nat
  store : Nat
  /-- the byte comes from a register word beyond repair (29 R408) -/
  bad : Bool
deriving DecidableEq, Repr

/-- A deferred floating-point add (R178). -/
structure DAdd where
  name : TName
  pa : Nat
  fmt : Nat
  val : Word
  spilled : Bool
deriving DecidableEq, Repr

/-- An open take of a warp (R283 to R290). -/
structure Take where
  resume : PC
  ckV : Tbl Word
  ckP : Tbl Mask
  ckW : Tbl Word
  ckFlags : BitVec 5
  ckRecon : List Recon
  /-- store buffer: key is space * 2^64 + address, where space 0 is the global virtual space and space 1 + workgroup an LM -/
  store : Tbl BufByte
  /-- buffered FATOM adds in order, with the lane that made each (R285) -/
  adds : List (Nat × DAdd)
  /-- read set: line keys (R287) -/
  readSet : List Nat
  /-- write set: the lines of kinds other than 10 that a member has stored to; it outlives a partial rollback (R287, R292) -/
  writeSet : List Nat
  /-- bytes that a member has read through an atomic, with the lane (R286) -/
  atomRead : Tbl Nat
  /-- writes that were outstanding at the TAKE: their values belong to the checkpoint (R284) -/
  ckPend : List Nat
  /-- widest scope of the arrived KEEPs (R290) -/
  scope : Nat
  /-- the watched lines with their contents, when the take is saved whole (R297) -/
  saved : Tbl Byte
  /-- a line of the read set has changed with no conflicting access: no later read shows the same point (R289) -/
  stale : Bool
deriving DecidableEq, Repr

/-- A write still outstanding to a register of a warp (R67 to R69). -/
structure Pend where
  id : Nat
  /-- destination: operand-space register, lane mask -/
  reg : Fld
  lanes : Mask
  /-- word values by lane, as they will be written -/
  vals : Tbl Word
  /-- PC of the producing instruction (R69) -/
  pc : DWord
  /-- the issue clock; whether the access is a load from fabric memory (R334) -/
  issued : Nat
  fabric : Bool
  /-- a token of a copy rather than a load -/
  token : Bool
  /-- virtual and physical address, by lane, of the accesses that go to fabric memory -/
  lines : Tbl (Nat × Nat)
  /-- the lanes whose value is not written any more, though the access goes on: a later write came first or a rollback has
  put the checkpoint's value back (R68, R71) -/
  dead : Mask
  /-- the load to which the write belongs: the registers of one load share its number (R341) -/
  load : Nat
  /-- ordinals or task serials by lane, for the record of a fault (R333) -/
  names : Tbl Nat
deriving DecidableEq, Repr

/-- An access to fabric memory that is outstanding and that no register of a warp waits for: a store, or what a warp that has
exited has left. It names who made it, for the record of its fault (R46, R333). -/
structure Loose where
  wg : Nat
  warp : Nat
  kind : WKind
  store : Bool
  pend : Pend
deriving DecidableEq, Repr

/-- A warp in a warp slot. -/
structure Warp where
  wg : Nat
  kind : WKind
  /-- warp index k as formed at launch (R14); elsewhere the ordinal or task serial of the thread that lane 0 held as the warp
  formed (R316) -/
  index : Nat
  role : Nat
  threads : Tbl Thread
  v : Tbl Word
  w : Tbl Word
  p : Tbl Mask
  flags : BitVec 5
  claimed : BitVec 4
  arrive : Word
  /-- CODE of TSTAT (R66) -/
  tcode : Byte
  /-- the 64-bit counter value of the last read of CYCLE or RETIRED (R64) -/
  latch : DWord
  pend : List Pend
  /-- reconvergence list, newest first (R147) -/
  recon : List Recon
  reconNext : Nat
  /-- candidate lanes of the current group and, inside a clause, its active lanes (R94) -/
  cand : Mask
  act : Mask
  /-- the words of the current clause as fetched and decoded (R99) -/
  code : List Word
  take : Option Take
  sstep : Bool
  bypass : Nat
  /-- order of formation (R313); it also tells warps apart for R56 and R199 -/
  age : Nat
  held : Bool
  /-- warps that must issue before this one after a YIELD (R332) -/
  yieldTo : List Nat
  /-- register words beyond repair, as 32 * register + lane, lane 0 for a w register (29 R406) -/
  spoilt : List Nat
deriving DecidableEq, Repr

/-- A thread filed in a reform bin (R20): its name, claims and registers travel with it. -/
structure Filed where
  thread : Thread
  v : Tbl Word
  p : BitVec 8
  /-- v registers beyond repair (29 R406) -/
  spoilt : List Nat
deriving DecidableEq, Repr

/-- A reform bin that holds threads (R20, R22, R53). -/
structure Bin where
  wg : Nat
  pc : DWord
  claimed : BitVec 4
  threads : List Filed
  w : Tbl Word
  role : Nat
  flags : BitVec 5
  sstep : Bool
  /-- clock, or retired count in continuity mode, at the first filing -/
  since : Nat
  /-- the clock at which the bin became due, if it is (R254) -/
  due : Option Nat
  /-- w registers beyond repair, by operand number (29 R406) -/
  spoilt : List Nat
deriving DecidableEq, Repr

/-- A task record (R251 to R253). -/
structure Task where
  wg : Nat
  serial : Nat
  pc : DWord
  args : List Word
  wid : DWord
  /-- the future on which the task waits -/
  waits : Option Word
  /-- the clock, or the retired count in continuity mode, at which the task became ready; while its owner is saved, its age -/
  readyAt : Nat
  responder : Bool
  census : Option (Nat × Nat)
  /-- the clock at which its list became due -/
  due : Option Nat
  /-- the record lies in the task spill area while its owner is saved (R253, R278) -/
  spilled : Bool
deriving DecidableEq, Repr

/-- A trap-handler wave that waits for a slot (R328): one served thread per handler lane, with its v0 to v7. -/
structure HandlerReq where
  wg : Nat
  pc : DWord
  lanes : List (TName × List Word × DWord)
deriving DecidableEq, Repr

/-- An entry of a key directory (R298). -/
structure KEntry where
  id : Nat
  key : DWord
  payload : Word
  pc : DWord
  owner : Nat
  answered : List Nat
  wid : DWord
  /-- position in its core's order of insertions and landings -/
  age : Nat
deriving DecidableEq, Repr

/-- A key-directory entry in transit: its target core and its owner to be (R301). -/
structure Transit where
  entry : KEntry
  target : Nat
  owner : Nat
deriving DecidableEq, Repr

/-- A live response: where it stands in core order (package, core, age) and its value (R306). -/
structure Resp where
  pkg : Nat
  core : Nat
  age : Nat
  val : Word
deriving DecidableEq, Repr

/-- A census (R302 to R307). -/
structure Census where
  id : Nat
  word : Word
  ctx : Nat
  /-- contexts whose entries match -/
  ctxs : List Nat
  wg : Nat
  core : Nat
  key : DWord
  arg : Word
  op : Nat
  scope : Nat
  /-- cores whose arrival point is still to come -/
  todo : List Nat
  /-- responders created and not yet answered: entry, and its core and age -/
  due : List (Nat × Nat × Nat)
  live : List Resp
  wd : Nat
  /-- the fabric has reported, or nothing is awaited from it -/
  fabricDone : Bool
  /-- FID of the package that forwarded this census, if any -/
  from_ : Option Nat
  /-- where this package ranks among the packages: its FID when the census began (R306) -/
  self : Nat
deriving DecidableEq, Repr

/-- A lane, or a group with one census, that waits for a census slot (R302): its operands and what goes on with it. -/
structure SolWait where
  name : TName
  lanes : Mask
  key : DWord
  arg : Word
  op : Nat
  scope : Nat
  reg : Fld
deriving DecidableEq, Repr

/-- A named-barrier object (R198, R199). -/
structure Barrier where
  count : Nat
  arrived : Nat
  phase : Nat
  deflt : Bool
  /-- the warp that has set the count in this phase, by age -/
  initBy : Option Nat
deriving DecidableEq, Repr

/-- One line of a stash region (R157). -/
structure StashLine where
  filled : Bool
  dirty : Bool
deriving DecidableEq, Repr

/-- A stash region (R157, R208). -/
structure Stash where
  lm : Nat
  va : Nat
  size : Nat
  lines : Tbl StashLine
deriving DecidableEq, Repr

/-- A locked region of a workgroup in compatibility mode, with the first addresses of the pages locked (R164). -/
structure Locked where
  start : Nat
  size : Nat
  pages : List Nat
deriving DecidableEq, Repr

/-- A block-uniform register (R56, R57): its value, what other readers may still see in the phase of its last write, that
phase, and its writer by age. -/
structure BReg where
  val : Word
  olds : List Word
  phase : Nat
  writer : Nat
deriving DecidableEq, Repr

/-- A resident or saved workgroup. -/
structure Workgroup where
  number : Nat
  gang : Nat
  member : Nat
  /-- the core that holds it, or none while it is saved (R322) -/
  core : Option Nat
  /-- the member may begin (R27, R31) -/
  begun : Bool
  /-- where its LM region starts in the core's LM (R156) -/
  lmBase : Nat
  lm : Tbl Byte
  bars : Tbl Barrier
  b : Tbl BReg
  phase : Nat
  sh : Tbl (BitVec 512)
  stash : List Stash
  locked : List Locked
  retired : Nat
  nextSerial : Nat
  /-- threads that have not executed EXIT (R198) -/
  alive : Nat
  ended : Bool
deriving DecidableEq, Repr

/-- A block sequencer with its matrix engine, held by a workgroup (R216). -/
structure Seq where
  wg : Nat
  pc : PC
  waitDone : Bool
  code : List Word
  q : Tbl Word
  loops : List (DWord × Nat)
  consumed : Tbl Word
  arrRec : Tbl Nat
  acc : Tbl Word
  wbuf : Tbl Byte
  halted : Bool
  /-- engine operations in flight: number and issue clock -/
  flight : List (Nat × Nat)
  /-- handles of the counters of the cores from which a restore has brought it, on which its operations in flight complete
  too (R222, R250) -/
  homes : List Nat
  held : Bool
  age : Nat
  /-- bytes of the matrix storage beyond repair: weight-buffer bytes by offset, accumulator bytes from 2^20 on (29 R406) -/
  spoilt : List Nat
deriving DecidableEq, Repr

/-- A timeline counter of one engine context (R179): operations numbered, those completed above the count, the count. -/
structure Tl where
  issued : Nat
  done : List Nat
  value : Nat
deriving DecidableEq, Repr

/-- Where an access goes: a global address with its physical address and ordering kind, or a byte of a workgroup's LM,
whose offset stands as the address and whose place stands as the physical address. -/
structure Loc where
  lm : Bool
  wg : Nat
  va : Nat
  pa : Nat
  ord : Nat
deriving DecidableEq, Repr

/-- One byte that a copy moves. A move without a source writes a byte of its own: zero outside a tensor (R204), or what an
LM byte held when the LM of a gang that has retired was released (R46, R324). -/
structure Move where
  dst : Loc
  src : Option Loc
  /-- the byte that a move without a source writes -/
  fill : Byte
deriving DecidableEq, Repr

/-- A copy in flight (R202). -/
structure Copy where
  id : Nat
  wg : Nat
  warp : Nat
  token : Fld
  pendId : Nat
  handle : Nat
  n : Nat
  moves : List Move
  issued : Nat
  pc : DWord
deriving DecidableEq, Repr

/-- A core's own units. -/
structure Core where
  bins : Tbl Bin
  /-- claims in request order: warp * 2^32 + lane mask, and granules (R51) -/
  claims : List (Nat × BitVec 4)
  tasks : List Task
  handlers : List HandlerReq
  kdir : List KEntry
  census : Tbl Census
  censusSerial : Tbl Nat
  /-- lanes that wait for a census slot, in order (R302) -/
  solWait : List SolWait
  seq : Option Seq
  copies : List Copy
deriving DecidableEq, Repr

/-- A lane that waits in QPOP or QPUSH (R271): the record it pushes, or the first register it pops into. -/
structure QWait where
  name : TName
  push : Option (List Word)
  reg : Fld
deriving DecidableEq, Repr

/-- A hardware queue (R269, R270). -/
structure Hwq where
  desc : BitVec 256
  /-- records in order, each with its push number -/
  recs : List (Nat × List Word)
  waiters : List QWait
  /-- the enable waits for the ring to become resident: the descriptor as it will be -/
  enabling : Option (BitVec 256)
  /-- physical addresses of the ring's pages while the queue is enabled -/
  ring : List Nat
deriving DecidableEq, Repr

/-- An entry of a die's network matching table (R275). -/
structure MatchE where
  id : Nat
  wg : Nat
  ctx : Nat
  tag : Word
  buf : DWord
  pc : DWord
  len : Nat
  arg : Word
  wid : DWord
  claimed : Bool
  /-- bytes of the claimed message that have arrived -/
  got : Nat
  /-- the fabric source of the claimed message -/
  src : Nat
  /-- the grid has been killed or has faulted: the rest of the claimed message is discarded (R279) -/
  dead : Bool
deriving DecidableEq, Repr

/-- A mailbox binding (R273). -/
structure Mailbox where
  wg : Nat
  ctx : Nat
  number : Nat
  doorbell : DWord
  pa : Nat
  pc : DWord
  arg : Word
  count : Word
  wid : DWord
deriving DecidableEq, Repr

/-- A future-table entry (R263). -/
structure Fut where
  gen : Nat
  st : Nat
  val : Word
deriving DecidableEq, Repr

/-- A snapshot in progress (R183, R184): the lines still to copy, as pairs of physical line and area address. -/
structure Snap where
  todo : List (Nat × Nat)
deriving DecidableEq, Repr

/-- The units of a workgroup that are written out to the save area (R322, R325): the core they came from, whether the
workgroup's place and LM are among them, and the sequencer's timeline counter. Ages and the rests of SLEEP stand in place
of clocks. -/
structure SavedWg where
  wg : Nat
  core : Nat
  whole : Bool
  warps : List Warp
  bins : List Bin
  seq : Option Seq
  tl : Tl
  tasks : List Task
  handlers : List HandlerReq
  census : Tbl Census
  /-- the sealed units of a confidential context: each one's number, and the blocks of 256 bytes that it takes in the save
  area of the core (R325, R405) -/
  seals : List (Nat × List Nat)
deriving DecidableEq, Repr

/-- What the package keeps for a context beside its descriptor. -/
structure Ctx where
  futures : Tbl Fut
  round : Nat
  tl : Tbl Tl
  /-- a drain is pending, with its deadline in clocks of die 0 (R320) -/
  drain : Option Nat
  frozen : Bool
  /-- a drain has completed, and nothing has restored the context yet (R320) -/
  drained : Bool
  saved : List SavedWg
  snap : Option Snap
  /-- latency histograms: key engine * 32 + bin (R341) -/
  hist : Tbl Nat
  /-- bonded or LP6 granules of 2 MiB bound to the confidential context (R404) -/
  granules : List Nat
  /-- mailboxes granted (29 R415) -/
  mbx : Nat
  /-- the context has been resumed, and until its saved gangs are all back no round takes place (R319) -/
  resuming : Bool
  /-- free choices taken so far in the context's rounds (R318; log 2) -/
  choices : Nat
deriving DecidableEq, Repr

/-- A grid from its validation to its end. -/
structure Grid where
  ctx : Nat
  queue : Nat
  prio : Nat
  hdr : BitVec 1024
  rank : Nat
  /-- the context descriptor as read at the validator step (R384) -/
  desc : BitVec 1024
  /-- launch step of R311, from 3 -/
  stage : Nat
  conds : List (Word × DWord)
  leases : List (BitVec 128)
  /-- translations fixed at lease set-up: page address and entry (R166) -/
  fixed : List (Nat × DWord)
  /-- a page whose service is awaited (R166) -/
  page : Option Nat
  /-- next gang to place, and since when it has waited (R312) -/
  nextGang : Nat
  waitSince : Nat
  lastGang : Nat
  anyBegun : Bool
  /-- start gate (R31): acknowledgement sent, opened here, ranks counted, deadline -/
  acked : Bool
  gateOpen : Bool
  acks : List Nat
  deadline : Nat
  adds : List DAdd
  supp : Nat
  claunch : Option (Nat × BitVec 32 × Nat)
  /-- for LDK: every value held by a byte written since the launch, the launch value first (R191) -/
  ldk : Tbl (List Byte)
  limitHit : Bool
  /-- accesses still outstanding: stores to fabric memory, and those of warps that have exited (R46) -/
  loads : List Loose
deriving DecidableEq, Repr

/-- One level of packet buffer being executed (R392, R395). -/
structure Level where
  /-- virtual base and length of the buffer; for the ring the length is 2^RLOG2 -/
  base : Nat
  len : Nat
  pos : Nat
  loops : List (Nat × Nat)
  /-- bytes fetched ahead, from pos onwards -/
  ahead : List Byte
  /-- packets still to skip (R392) -/
  skip : Nat
  /-- how many of the bytes held came with the last fetch, and its clock (R399) -/
  got : Nat
  gotAt : Nat
deriving DecidableEq, Repr

/-- A command queue (R385, R386). -/
structure Queue where
  desc : BitVec 512
  st : Nat
  err : Nat
  parks : Nat
  haltAddr : Nat
  lastSerial : Nat
  levels : List Level
  conds : List (Word × DWord)
  /-- the launch that the queue is taking through steps 3 and 4 -/
  launching : Option Nat
  /-- clock since when the queue holds a wait slot -/
  slot : Option Nat
  parkedAt : Nat
  record : BitVec 512
  /-- a page whose service the packet at hand awaits (R389) -/
  fetchPage : Option Nat
  /-- the descriptor as the host has written it since the packet at hand began, which keeps the old one (R399) -/
  fresh : Option (BitVec 512)
  /-- clock since when the queue waits for a wait slot to become free (R396) -/
  wants : Option Nat
deriving DecidableEq, Repr

/-- A chunk in a transmit queue (R371): destination route, its bytes, and how many packets have gone. -/
structure TxChunk where
  route : DWord
  tag : Option Word
  op : Nat
  data : List Byte
  sent : Nat
deriving DecidableEq, Repr

/-- A staged packet (R351, R361). -/
structure Staged where
  src : Nat
  epoch : Nat
  len : Nat
  seqNo : Nat
  data : List Byte
  /-- the packet came marked poisoned (29 R408) -/
  bad : Bool
deriving DecidableEq, Repr

/-- What a splicer context waits for (R362): room in its transmit queue, the first packet of a chunk from a source route,
a verdict, a flag. -/
inductive SWait where
  | none
  | room
  | packet (src : Nat)
  | verdict
  | flag
deriving DecidableEq, Repr

/-- A splicer context (R356 to R360). -/
structure Splicer where
  cfg : DWord
  pc : Nat
  k : Tbl DWord
  bf : Tbl (BitVec 128)
  epoch : Nat
  loops : List (Nat × Nat × Nat)
  tx : List TxChunk
  staged : List Staged
  tl : Tl
  st : Nat
  cause : Nat
  detail : Nat
  offset : Nat
  faddr : Nat
  /-- credits towards remote contexts: key is FID * 256 + 8 * link + context (R351) -/
  credits : Tbl Nat
  /-- run of instructions since the last chunk boundary (R362) -/
  run : Nat
  wait : SWait
  /-- the translation that the chunk instruction at hand took when it issued: virtual and physical address and length of
  each piece (R363) -/
  xl : Option (List (Nat × Nat × Nat))
  /-- bytes of the arriving chunk that the instruction at hand has consumed -/
  got : Nat
  /-- the verdict on the tagged message at hand -/
  verdict : Option Bool
  /-- a refusal that stops the context at its next boundary (R359) -/
  refused : Option Nat
  /-- chunks in progress by source: packets seen so far (R351) -/
  inChunk : Tbl Nat
  /-- operations not yet completed, with their issue clock -/
  flight : List (Nat × Nat)
  /-- FSIG adds still to perform: operation, physical address, value (R374) -/
  sigs : List (Nat × Nat × DWord)
  /-- the word at hand, once it has been fetched (R357) -/
  word : Option Word
  /-- the fabric lines of the instruction at hand have been asked for (R349) -/
  asking : Bool
  /-- packets that the receiving instruction at hand has consumed, and the bytes of its chunk before it did (R375) -/
  taken : List Staged
  undo : List Byte
  /-- the places of that chunk that were beyond repair (R375, 29 R408) -/
  undoBad : List Nat
  /-- packets that a receiving instruction has consumed before it stopped, and consumes again once it is resumed: their
  credits have been returned (R359, R375) -/
  again : List Staged
deriving DecidableEq, Repr

/-- A fabric link (R352, R354, R414). -/
structure Link where
  stat : BitVec 32
  err : DWord
  errWidth : Nat
  /-- flits resent in the present window that have been reported one by one (R414) -/
  resent : Nat
  quiet : Nat
  /-- rate limiters: FID to rate (R354) -/
  limiters : Tbl Nat
  imem : Tbl Word
  /-- old values of instruction words written while a context whose window holds them runs (R357) -/
  imemOld : Tbl Word
  /-- the context that the splicer is issuing (R362) -/
  cur : Nat
  /-- the context served last by the transmit side -/
  txLast : Nat
  balWidth : Nat
deriving DecidableEq, Repr

/-- A packet handed to the fabric, or an interrupt or reply handed to the host (log 7). -/
structure Sent where
  kind : Nat
  fields : List Nat
  data : List Byte
deriving DecidableEq, Repr

/-- The completion of a request by an engine: context, engine, timeline handle, latency, die, core, launch serial and
workgroup number, and the context that its records are sealed for (R341). -/
structure Done where
  ctx : Nat
  engine : Nat
  handle : Nat
  lat : Nat
  die : Nat
  core : Nat
  serial : Nat
  wg : Nat
  conf : Option Nat
deriving DecidableEq, Repr

/-- What a partition has issued in a clock: the warp's slot, the word's address, and the thread that names the group (R339,
R340). -/
structure Issued where
  slot : Nat
  pc : DWord
  name : Nat
deriving DecidableEq, Repr

/-- Sampling state of one partition (R340). -/
structure Sampler where
  slot : Nat
  idle : Nat
  /-- slots whose warp exited since the last sample, with the PC of its EXIT and its name -/
  exited : Tbl (DWord × TName × Nat)
  /-- the word issued in this clock -/
  issued : Option Issued
  /-- the sampling interval whose sample has been taken: 1 + CYCLE / 2^SP, or 0 for none -/
  interval : Nat
deriving DecidableEq, Repr

/-- The whole package. -/
structure State where
  mem : List Host.Cell
  poison : List Nat
  cycle : Tbl DWord
  dieEn : BitVec 4
  coreEn : Tbl (BitVec 64)
  lp6En : BitVec 24
  linkEn : BitVec 32
  ready : BitVec 64
  balance : BitVec 3
  evBase : DWord
  evCfg : DWord
  evHead : Word
  evTail : Word
  evLost : Word
  capBase : DWord
  capCfg : DWord
  capLaunch : DWord
  capWgLo : DWord
  capWgHi : DWord
  capTypes : DWord
  histCtx : DWord
  dbgArg0 : DWord
  dbgArg1 : DWord
  dbgArg2 : DWord
  capState : Nat
  capOff : Nat
  capDropped : Nat
  triggers : Tbl DWord
  samplers : Tbl Sampler
  pulse : Nat
  launchSerial : Nat
  grids : Tbl Grid
  wgs : Tbl Workgroup
  warps : Tbl Warp
  cores : Tbl Core
  ctxDesc : Tbl (BitVec 1024)
  ctxs : Tbl Ctx
  hwqs : Tbl Hwq
  queues : Tbl Queue
  mailboxes : Tbl Mailbox
  netMatch : Tbl (List MatchE)
  transit : Tbl Transit
  forwarded : Tbl Census
  splicers : Tbl Splicer
  links : Tbl Link
  /-- the package's FID, which the fabric's manager assigns in link training (25 R348) -/
  fid : Option Nat
  /-- fabric lines that their homes have refused with no access outstanding: an access that completes within its step takes
  the refusal (25 R349) -/
  refusing : List Nat
  groups : Tbl (List Nat)
  /-- acknowledgements that came before the gate holder's launch: grid key, GATEFID, rank (R32) -/
  earlyAcks : List (DWord × Nat × Nat)
  /-- start gates whose grid has ended here, at the gate holder, before they opened, by launch serial: the header, and the
  deadline at which the other packages are told that the gate has not opened (R32, R33) -/
  deadGates : Tbl (BitVec 1024 × Nat)
  pageFaults : List (Nat × Nat)
  /-- holds that take effect at the end of a continuity round: the freeze scope, the workgroup of the trap, and the warp that
  trapped (R338) -/
  held : List (Nat × Nat × Nat)
  /-- firmware: running image and version, stand-in image and version (R382, R383); without an image the complex stays in
  reset (29 R402) -/
  lead : List Byte × Nat
  standIn : List Byte × Nat
  takeover : Bool
  measures : Tbl (BitVec 384)
  minVersion : Nat
  throttled : Bool
  stopped : Bool
  allotment : List Nat
  /-- free choices taken so far (log 2) -/
  choices : Nat
  /-- fresh numbers given out so far (the model's own, log 3) -/
  fresh : Nat
  /-- the agent or unit that the default arbiter served last, by its key (log 3) -/
  rotor : Nat
  turns : List Turn
  /-- the turns of the continuity round under way that are still to come (R316) -/
  round : List Turn
  events : List Instr
  issuer : Issuer
  sent : List Sent
  /-- writes that the capture unit and the lead have handed to memory in this step: physical address and bytes (R344, R401) -/
  posted : List (Nat × List Byte)
  /-- requests that engines have completed in this step: they are measured together (R341, R342) -/
  done : List Done
deriving DecidableEq, Repr

/-- A core with nothing on it. -/
def Core.empty : Core :=
  ⟨[], [], [], [], [], [], [], [], none, []⟩

/-- A context that nothing has used. -/
def Ctx.empty : Ctx := ⟨[], 0, [], none, false, false, [], none, [], [], 0, false, 0⟩

/-- A hardware queue after reset (R269). -/
def Hwq.empty : Hwq := ⟨0, [], [], none, []⟩

/-- A command queue after reset (R385, R386; log 5). -/
def Queue.empty : Queue := ⟨0, 0, 0, 0, 0, 0, [], [], none, none, 0, 0, none, none, none⟩

/-- A splicer context after reset (R357, R358; log 5). -/
def Splicer.empty : Splicer :=
  ⟨0, 0, [], [], 0, [], [], [], ⟨0, [], 0⟩, 0, 0, 0, 0, 0, [], 0, .none, none, 0, none, none, [], [], [], none, false, [], [], [], []⟩

/-- A link after reset (R352, R414). -/
def Link.empty : Link := ⟨0, 0, 0, 0, 0, [], [], [], 0, 0, 0⟩

/-- A partition's sampler after reset. -/
def Sampler.empty : Sampler := ⟨0, 0, [], none, 0⟩

/-- A future-table entry after reset (R263). -/
def Fut.empty : Fut := ⟨1, 0, 0⟩

/-- A context descriptor after reset: BINAGE is 1,024 (R384). -/
def ctxDescReset : BitVec 1024 := BitVec.ofNat 1024 (1024 * 2 ^ 15)

/-- A barrier object of a workgroup of n threads at its reset (R198). -/
def Barrier.fresh (n : Nat) : Barrier := ⟨n, 0, 0, true, none⟩

/-- The package right after whole-device reset (R3, R398 rung 6), a full part (R1, log 4). -/
def State.reset : State where
  mem := []
  poison := []
  cycle := []
  dieEn := 0xF
  coreEn := [(0, BitVec.allOnes 64), (1, BitVec.allOnes 64), (2, BitVec.allOnes 64), (3, BitVec.allOnes 64)]
  lp6En := BitVec.allOnes 24
  linkEn := BitVec.allOnes 32
  ready := 0
  balance := 0
  evBase := 0
  evCfg := 0
  evHead := 0
  evTail := 0
  evLost := 0
  capBase := 0
  capCfg := 0x80000
  capLaunch := 0
  capWgLo := 0
  capWgHi := 0
  capTypes := 0
  histCtx := 0
  dbgArg0 := 0
  dbgArg1 := 0
  dbgArg2 := 0
  capState := 0
  capOff := 0
  capDropped := 0
  triggers := []
  samplers := []
  pulse := 0
  launchSerial := 0
  grids := []
  wgs := []
  warps := []
  cores := []
  ctxDesc := []
  ctxs := []
  hwqs := []
  queues := []
  mailboxes := []
  netMatch := []
  transit := []
  forwarded := []
  splicers := []
  links := []
  fid := none
  refusing := []
  groups := []
  earlyAcks := []
  deadGates := []
  pageFaults := []
  held := []
  lead := ([], 0)
  standIn := ([], 0)
  takeover := false
  measures := []
  minVersion := 0
  throttled := false
  stopped := false
  allotment := []
  choices := 0
  fresh := 0
  rotor := 0
  turns := []
  round := []
  events := []
  issuer := .none
  sent := []
  posted := []
  done := []

end Sys2Proof.Machine
end

