-- ==== Sys2Proof/Machine/Operands.lean ====
section
/-! DEFINITION. Operand forms of lane words: lane masks, registers of the operand space (07 R102), warp-scalar writes
(03 R54), predicates (R55), granules (R50), pending registers (R67), branch and register targets (09 R144). -/

namespace Sys2Proof.Machine

/-- The lanes of a mask in ascending order (R5). -/
def lanesOf (m : Mask) : List Nat := (List.range 32).filter (fun l => m.getLsbD l)

/-- The mask of one lane. -/
def laneBit (l : Nat) : Mask := BitVec.ofNat 32 (2 ^ l)

/-- The mask of a list of lanes. -/
def maskOf (ls : List Nat) : Mask := ls.foldl (fun m l => m ||| laneBit l) 0

/-- The lowest-numbered lane of a mask. -/
def lowest (m : Mask) : Option Nat := (lanesOf m).head?

/-- The live lanes of a warp (R9). -/
def liveMask (w : Warp) : Mask := maskOf (w.threads.map (·.1))

/-- The value that a register of the operand space supplies to a lane (R102, R117). -/
def rd (w : Warp) (f : Fld) (l : Nat) : Word :=
  if f.toNat < 192 then tgetD 0 w.v (f.toNat * 32 + l) else tgetD 0 w.w (f.toNat - 192)

/-- The value of a register pair, low word first (R119). -/
def rd64 (w : Warp) (f : Fld) (l : Nat) : DWord := rd w (f + 1) l ++ rd w f l

/-- Write a register of the operand space for the lanes of a mask: each lane its own value, or into a w register the
value of the lowest lane (R54, R117). A word beyond repair is one no more once it is written (29 R408). -/
def wr (w : Warp) (f : Fld) (m : Mask) (g : Nat → Word) : Warp :=
  if f.toNat < 192 then
    { w with
      v := (lanesOf m).foldl (fun t l => tputD 0 t (f.toNat * 32 + l) (g l)) w.v
      spoilt := w.spoilt.filter (fun p => !(p / 32 == f.toNat && m.getLsbD (p % 32))) }
  else
    match lowest m with
    | none => w
    | some l => { w with
        w := tputD 0 w.w (f.toNat - 192) (g l)
        spoilt := w.spoilt.filter (fun p => p / 32 != f.toNat) }

/-- A register of the operand space holds a word beyond repair for a lane (29 R406). -/
def spoiltAt (w : Warp) (f : Fld) (l : Nat) : Bool :=
  w.spoilt.contains (32 * f.toNat + (if f.toNat < 192 then l else 0))

/-- Write a register pair, low word first (R119). -/
def wr64 (w : Warp) (f : Fld) (m : Mask) (g : Nat → DWord) : Warp :=
  wr (wr w f m (fun l => (g l).extractLsb' 0 32)) (f + 1) m (fun l => (g l).extractLsb' 32 32)

/-- A predicate register as read: p0 is all ones, and lanes that are not live read as 0 (R55). -/
def rdP (w : Warp) (p : Nat) : Mask :=
  (if p = 0 then BitVec.allOnes 32 else tgetD 0 w.p p) &&& liveMask w

/-- Write a predicate register for the lanes of a mask; a write to p0 is discarded (R55). -/
def wrP (w : Warp) (p : Nat) (m : Mask) (bits : Mask) : Warp :=
  if p = 0 then w
  else { w with p := tputD 0 w.p p ((tgetD 0 w.p p &&& ~~~m) ||| (bits &&& m)) }

/-- The mask of the lanes of m for which a condition holds. -/
def maskWhere (m : Mask) (c : Nat → Bool) : Mask := maskOf ((lanesOf m).filter c)

/-- The warp holds the granule of every register of a list (R50). -/
def heldAll (w : Warp) (fs : List Fld) : Bool :=
  fs.all (fun f => decide (f.toNat < 64) || decide (192 ≤ f.toNat) || w.claimed.getLsbD ((f.toNat - 64) / 32))

/-- Some register of a list is pending (R67). -/
def anyPending (w : Warp) (fs : List Fld) : Bool :=
  fs.any (fun f => w.pend.any (fun e => e.reg == f))

/-- The registers of a group of n from f upwards. -/
def regGroup (f : Fld) (n : Nat) : List Fld := (List.range n).map (fun i => f + BitVec.ofNat 8 i)

/-- A pair of registers (R119). -/
def pair (f : Fld) : List Fld := [f, f + 1]

/-- IMM8 sign-extended. -/
def simm8 (f : Fld) : Word := f.signExtend 32

/-- Offset of an M form: OFF8, signed, scaled by the access size (R100, R185). -/
def off8 (f : Fld) (size : Nat) : Int := f.toInt * size

/-- The target of a BR word: the clause header's address plus 4 times the signed offset (R100, R144). -/
def brTarget (hdr : DWord) (off : BitVec 24) : DWord := hdr + (off.signExtend 64 <<< 2)

/-- A register target: the upper half of the branching clause's address with the register's value (R144). -/
def regTarget (hdr : DWord) (r : Word) : DWord := hdr.extractLsb' 32 32 ++ r

/-- The address of the next clause header after a clause of n words (R91). -/
def nextHdr (hdr : DWord) (n : Nat) : DWord := hdr + BitVec.ofNat 64 (4 * (n + 1))

end Sys2Proof.Machine
end

