-- ==== Sys2Proof/Machine/Raw.lean ====
section
/-! DEFINITION. Bytes of physical memory in canonical form, the configuration's free choices, clocks, the host's event
ring (29 R401, R416) and the capture buffer (23 R339, R343, R344). -/

namespace Sys2Proof.Machine

/-- What an unlisted byte of memory reads as (log 1). -/
def memDefault : Byte := 0

/-- One byte of physical memory. -/
def memByte (mem : List Host.Cell) (a : Nat) : Byte := tgetD memDefault mem a

/-- Physical memory with one byte written; a byte that an unlisted address reads as is not listed. -/
def memPut (mem : List Host.Cell) (a : Nat) (b : Byte) : List Host.Cell := tputD memDefault mem a b

/-- Physical memory with bytes written at rising addresses. -/
def memPuts (mem : List Host.Cell) (a : Nat) : List Byte → List Host.Cell
  | [] => mem
  | b :: r => memPuts (memPut mem a b) (a + 1) r

/-- The canonical form of memory: addresses strictly rising, no entry that an unlisted address reads as. -/
def Memory.wf (mem : List Host.Cell) : Bool := tsorted mem && mem.all (fun c => c.2 != memDefault)

/-- n bytes of physical memory from an address. -/
def memBytes (mem : List Host.Cell) (a n : Nat) : List Byte := (List.range n).map (fun i => memByte mem (a + i))

/-- A little-endian number from its bytes (R2). -/
def leNat : List Byte → Nat
  | [] => 0
  | b :: r => b.toNat + 256 * leNat r

/-- The n little-endian bytes of a number (R2). -/
def leBytes (n : Nat) (x : Nat) : List Byte := (List.range n).map (fun i => BitVec.ofNat 8 (x / 2 ^ (8 * i)))

/-- A little-endian number of n bytes in physical memory. -/
def memNat (mem : List Host.Cell) (a n : Nat) : Nat := leNat (memBytes mem a n)

/-- A write of the capture unit or of the lead is handed to memory, which takes it at the end of the step (R344, R401). -/
def rawStore (s : State) (a : Nat) (bs : List Byte) : State := { s with posted := s.posted ++ [(a, bs)] }

/-- The next free choice, of n (log 2): a number below n that nothing constrains, and the state that has taken it. -/
def choose (s : State) (n : Nat) : Nat × State := (Config.choice s.choices % n, { s with choices := s.choices + 1 })

/-- Requests of engines have completed in this step (23 R341). -/
def noteDone (s : State) (ds : List Done) : State := { s with done := s.done ++ ds }

/-- A fresh number of the model's own. -/
def freshId (s : State) : Nat × State := (s.fresh, { s with fresh := s.fresh + 1 })

/-- CYCLE of a die (R64). -/
def cycleOf (s : State) (die : Nat) : Nat := (tgetD 0 s.cycle die).toNat

/-- The die of a core (64 cores a die). -/
def dieOf (c : Nat) : Nat := c / 64

/-- The core of a warp. -/
def coreOf (k : Nat) : Nat := k / 64

/-- Clocks in a microsecond of the 3.0 GHz reference (R2, R64). -/
def usClocks : Nat := 3000

/-- A core's units. -/
def coreRec (s : State) (c : Nat) : Core := tgetD Core.empty s.cores c
/-- Replace a core's units. -/
def setCore (s : State) (c : Nat) (x : Core) : State := { s with cores := tput s.cores c x }
/-- A context's record. -/
def ctxRec (s : State) (n : Nat) : Ctx := tgetD Ctx.empty s.ctxs n
/-- Replace a context's record. -/
def setCtx (s : State) (n : Nat) (x : Ctx) : State := { s with ctxs := tput s.ctxs n x }
/-- A context descriptor (R384). -/
def descOf (s : State) (n : Nat) : BitVec 1024 := tgetD ctxDescReset s.ctxDesc n
/-- A command queue. -/
def queueRec (s : State) (q : Nat) : Queue := tgetD Queue.empty s.queues q
/-- Replace a command queue. -/
def setQueue (s : State) (q : Nat) (x : Queue) : State := { s with queues := tput s.queues q x }
/-- A hardware queue, by 8 * core + number. -/
def hwqRec (s : State) (k : Nat) : Hwq := tgetD Hwq.empty s.hwqs k
/-- Replace a hardware queue. -/
def setHwq (s : State) (k : Nat) (x : Hwq) : State := { s with hwqs := tput s.hwqs k x }
/-- A splicer context, by 8 * link + number. -/
def splRec (s : State) (k : Nat) : Splicer := tgetD Splicer.empty s.splicers k
/-- Replace a splicer context. -/
def setSpl (s : State) (k : Nat) (x : Splicer) : State := { s with splicers := tput s.splicers k x }
/-- A link. -/
def linkRec (s : State) (l : Nat) : Link := tgetD Link.empty s.links l
/-- Replace a link. -/
def setLink (s : State) (l : Nat) (x : Link) : State := { s with links := tput s.links l x }
/-- Replace a warp. -/
def setWarp (s : State) (k : Nat) (w : Warp) : State := { s with warps := tput s.warps k w }
/-- Replace a workgroup. -/
def setWg (s : State) (k : Nat) (g : Workgroup) : State := { s with wgs := tput s.wgs k g }
/-- Replace a grid. -/
def setGrid (s : State) (n : Nat) (g : Grid) : State := { s with grids := tput s.grids n g }

/-- The launch serial of a workgroup's grid. -/
def serialOf (wg : Nat) : Nat := wg / 2 ^ 64
/-- The grid of a workgroup. -/
def gridOfWg (s : State) (wg : Nat) : Option Grid := tget s.grids (serialOf wg)
/-- The context number of a workgroup. -/
def ctxOfWg (s : State) (wg : Nat) : Nat := ((gridOfWg s wg).map (·.ctx)).getD 0

/-- A field of a bit string by its high and low bit. -/
def field {n : Nat} (x : BitVec n) (hi lo : Nat) : Nat := (x.extractLsb' lo (hi - lo + 1)).toNat

/-- A bit string with one field replaced. -/
def setField {n : Nat} (x : BitVec n) (hi lo : Nat) (v : Nat) : BitVec n :=
  let m : BitVec n := BitVec.ofNat n ((2 ^ (hi - lo + 1) - 1) * 2 ^ lo)
  (x &&& ~~~m) ||| (BitVec.ofNat n (v % 2 ^ (hi - lo + 1) * 2 ^ lo))

/-- Continuity mode of a workgroup's grid (R316, R384): the descriptor value that the grid read. -/
def contOfWg (s : State) (wg : Nat) : Bool := ((gridOfWg s wg).map (fun g => g.desc.getLsbD 1)).getD false

/-- A context runs in continuity mode: some grid of it read CONT as 1 (R316). -/
def contCtx (s : State) (ctx : Nat) : Bool := s.grids.any (fun e => e.2.ctx == ctx && e.2.desc.getLsbD 1)

/-- The next free choice, of n, for an access of a context (R318; log 2). -/
def chooseIn (s : State) (ctx n : Nat) : Nat × State :=
  if contCtx s ctx then
    let c := ctxRec s ctx
    (Config.choice c.choices % n, setCtx s ctx { c with choices := c.choices + 1 })
  else choose s n

/-- The free choices that an access of a workgroup has before it: in continuity mode those of its context's rounds, so that two
runs which begin alike choose alike (21 R318; log 2). -/
def choiceBase (s : State) (wg : Nat) : Nat := if contOfWg s wg then (ctxRec s (ctxOfWg s wg)).choices else s.choices

/-- Free choices of a workgroup's access are taken. -/
def choicesTaken (s : State) (wg n : Nat) : State :=
  if contOfWg s wg then
    let c := ctxRec s (ctxOfWg s wg)
    setCtx s (ctxOfWg s wg) { c with choices := c.choices + n }
  else { s with choices := s.choices + n }

/-- The next free choice, of n, for an access of a workgroup. -/
def chooseFor (s : State) (wg n : Nat) : Nat × State := (Config.choice (choiceBase s wg) % n, choicesTaken s wg 1)

/-- RETIRED of a workgroup (R64). -/
def retiredOf (s : State) (wg : Nat) : Nat := ((tget s.wgs wg).map (·.retired)).getD 0

/-- The clock that a workgroup's waits count: CYCLE of the core's die, or RETIRED in continuity mode (R22, R152, R317). -/
def wgClock (s : State) (core wg : Nat) : Nat :=
  if contOfWg s wg then retiredOf s wg else cycleOf s (dieOf core)

/-- Hand something to the fabric or the host (log 7). -/
def sendOut (s : State) (kind : Nat) (fields : List Nat) (data : List Byte) : State :=
  { s with sent := s.sent ++ [⟨kind, fields, data⟩] }

/-- Kinds of `sent` that are no fabric packet: an interrupt vector, an SPDM reply, a host read's data. -/
def sentMsix : Nat := 16
def sentSpdm : Nat := 17
def sentRead : Nat := 18
def sentRefused : Nat := 19

/-- EN, VEC and SIZE of EVCFG (R416). -/
def evEn (s : State) : Bool := s.evCfg.getLsbD 31

/-- The physical address of a host address: the host region (DEDUCED, log 88; 11 R154, 29 R401). -/
def hostPa (a : Nat) : Nat := 2 ^ 56 + a % 2 ^ 55

/-- SIZE of the event ring, from 8 to 16: a value outside that range counts as the nearest in it (R416; DESIGN CHOICE, log
71). -/
def evSize (s : State) : Nat := max 8 (min 16 (field s.evCfg 4 0))

/-- Write an event to the host's ring, or drop and count it (R401, R416). -/
def hostEvent (s : State) (kind : Nat) (data : Nat) (ctx die : Nat) : State :=
  let size := evSize s
  let full := (s.evTail - s.evHead).toNat == 2 ^ size
  if !evEn s || full then
    { s with evLost := if s.evLost = BitVec.allOnes 32 then s.evLost else s.evLost + 1 }
  else
    let n := 2 ^ size
    let idx := s.evTail.toNat % n
    let phase := if s.evTail.toNat / n % 2 = 0 then 1 else 0
    let entry := phase + die * 2 ^ 42 + ctx * 2 ^ 44 + kind * 2 ^ 56 + data * 2 ^ 64 + cycleOf s die * 2 ^ 192
    let s := rawStore s (hostPa ((s.evBase.toNat / 4096) * 4096 + 32 * idx)) (leBytes 32 entry)
    let ring := s.evHead == s.evTail
    let s := { s with evTail := s.evTail + 1 }
    if ring then sendOut s sentMsix [field s.evCfg 15 8] [] else s

/-- A slate (R339). -/
def slate (serial wg thread kind type die core len : Nat) : Nat :=
  len + core * 2 ^ 6 + die * 2 ^ 12 + type * 2 ^ 14 + kind * 2 ^ 20 + thread % 2 ^ 32 * 2 ^ 24 +
    wg % 2 ^ 40 * 2 ^ 56 + serial % 2 ^ 32 * 2 ^ 96

/-- Capture states (R344, R417). -/
def capIdle : Nat := 0
def capRunning : Nat := 1
def capStopped : Nat := 2
def capFrozen : Nat := 3

/-- Put bytes into the capture ring at its next offset: in wrap mode the oldest are overwritten; in stop mode a record
that does not fit is dropped and counted (R344). -/
def capPut (s : State) (bs : List Byte) : State :=
  let size := 2 ^ (max 16 (min 30 (field s.capCfg 4 0)))
  let stopMode := s.capCfg.getLsbD 8
  if stopMode && decide (size < s.capOff + bs.length) then { s with capDropped := s.capDropped + 1 }
  else
    let base := s.capBase.toNat
    let room := size - s.capOff
    let s1 := rawStore s (base + s.capOff) (bs.take room)
    let s1 := if room < bs.length then rawStore s1 base (bs.drop room) else s1
    let off := s.capOff + bs.length
    { s1 with capOff := if stopMode then off else off % size }

/-- The filters of the capture let a record of a launch, a workgroup and a type through (R344, R417). -/
def capPasses (s : State) (serial wg type : Nat) : Bool :=
  (!s.capLaunch.getLsbD 32 || field s.capLaunch 31 0 == serial % 2 ^ 32) &&
    (!s.capWgLo.getLsbD 63 ||
      (decide (field s.capWgLo 39 0 ≤ wg % 2 ^ 40) && decide (wg % 2 ^ 40 ≤ field s.capWgHi 39 0))) &&
    s.capTypes.getLsbD type

/-- The bytes of a record: slate, TIME and payload. For a confidential context all but TIME, TYPE and LEN is sealed
(R339, R343, R346). -/
def recordBytes (s : State) (sl type die len : Nat) (payload : List Nat) (conf : Option Nat) : List Byte :=
  let z (place v : Nat) : Nat := match conf with
    | none => v
    | some c => Config.sealed c place v
  let sl := match conf with
    | none => sl
    | some _ => z 0 sl / 2 ^ 20 * 2 ^ 20 + type * 2 ^ 14 + z 0 sl / 2 ^ 6 % 2 ^ 8 * 2 ^ 6 + len
  let raw := leBytes 16 sl ++ leBytes 8 (cycleOf s die) ++ payload.flatMap (fun x => leBytes 8 (z 1 x))
  (raw ++ List.replicate (16 * len - raw.length) 0).take (16 * len)

/-- A record of the capture buffer, with what follows it: written while the capture runs, and dropped and counted while it
is stopped or frozen (R344). -/
def capRecordWith (s : State) (serial wg thread kind type die core : Nat) (payload : List Nat) (conf : Option Nat)
    (more : List Byte) : State :=
  let len := (3 + payload.length + 1) / 2
  if !capPasses s serial wg type then s
  else if s.capState = capRunning then
    capPut s (recordBytes s (slate serial wg thread kind type die core len) type die len payload conf ++ more)
  else if s.capState = capIdle then s
  else { s with capDropped := s.capDropped + 1 }

/-- A record of the capture buffer. -/
def capRecord (s : State) (serial wg thread kind type die core : Nat) (payload : List Nat) (conf : Option Nat) : State :=
  capRecordWith s serial wg thread kind type die core payload conf []

end Sys2Proof.Machine
end

