-- ==== Sys2Proof/Machine/Warp.lean ====
section
/-! DEFINITION. A warp's threads: PCs and their advance (07 R95), waits and releases (01 R38), thread groups and the
choice point (09 R143), reconvergence entries (R147 to R149), debug traps and holds (01 R25, 23 R337, R338), rollback
and abort of a take (19 R292, R295). -/

namespace Sys2Proof.Machine

/-! Threads of a warp. -/

/-- The thread in a lane. -/
def thr (w : Warp) (l : Nat) : Option Thread := tget w.threads l

/-- Change the threads in the lanes of a mask. -/
def modLanes (w : Warp) (m : Mask) (f : Nat → Thread → Thread) : Warp :=
  { w with threads := w.threads.map (fun e => if m.getLsbD e.1 then (e.1, f e.1 e.2) else e) }

/-- The lanes whose thread satisfies a condition. -/
def lanesWhere (w : Warp) (c : Thread → Bool) : Mask := maskOf ((w.threads.filter (fun e => c e.2)).map (·.1))

/-- The PC of a lane's thread. -/
def pcOf (w : Warp) (l : Nat) : PC := ((thr w l).map (·.pc)).getD ⟨0, 0⟩

/-- The PC of the word that the warp is about to issue: that of its active lanes. -/
def curPC (w : Warp) : PC := match lowest w.act with
  | some l => pcOf w l
  | none => ⟨0, 0⟩

/-- The next clause header after the current clause (R91, R94). -/
def endPC (w : Warp) : PC := ⟨nextHdr (curPC w).hdr w.code.length, 0⟩

/-- The PC after the current word: the next word of its clause, or the next clause header (R95). -/
def nextPC (w : Warp) : PC :=
  let p := curPC w
  let j := p.idx + wordLen false w.code p.idx
  if j ≤ w.code.length then ⟨p.hdr, j⟩ else endPC w

/-- The byte address of a word of a clause (R95). -/
def wordAddr (p : PC) : DWord := p.hdr + BitVec.ofNat 64 (4 * p.idx)

/-- PCs are ordered by clause-header address and then by word index (R143). -/
def pcLt (a b : PC) : Bool := decide (a.hdr.toNat < b.hdr.toNat) || (a.hdr == b.hdr && decide (a.idx < b.idx))

/-- Set the PC of the lanes of a mask. -/
def setPC (w : Warp) (m : Mask) (p : PC) : Warp := modLanes w m (fun _ t => { t with pc := p })

/-- A choice point: the warp has no current group (R143). -/
def choicePoint (w : Warp) : Warp := { w with cand := 0, act := 0 }

/-- The active lanes go on to the next word; after the last word of the clause no lane is active, and the candidate
lanes stay the current group (R94, R143). -/
def advance (w : Warp) : Warp :=
  let n := nextPC w
  let w := setPC w w.act n
  if n.idx = 0 then { w with act := 0 } else w

/-- Lanes of a mask begin to wait at their word, to go on at a given PC (R38, R143). -/
def beginWait (w : Warp) (m : Mask) (wt : Wait) (nx : PC) : Warp :=
  choicePoint (modLanes w m (fun _ t => { t with wait := wt, next := nx }))

/-- The lanes whose threads are members of the warp's take (R281). -/
def members (w : Warp) : Mask := lanesWhere w (fun t => decide (0 < t.tdepth))

/-- A thread that R143 may choose: it waits for nothing. -/
def ready (t : Thread) : Bool := t.wait == .none || t.wait == .headerOk

/-- The lanes of the group at a PC: the live threads at that PC that are not waiting (R143). -/
def groupAt (w : Warp) (p : PC) : Mask := lanesWhere w (fun t => ready t && t.pc == p)

/-- The pass count of the group at a PC (R143). -/
def groupPasses (w : Warp) (p : PC) : Nat :=
  (w.threads.filter (fun e => ready e.2 && e.2.pc == p)).foldl (fun n e => max n e.2.passes) 0

/-- The PCs of the eligible groups. -/
def groupPCs (w : Warp) : List PC := ((w.threads.filter (fun e => ready e.2)).map (fun e => e.2.pc)).dedup

/-- The lower of two PCs, the first missing. -/
def lowerPC (best : Option PC) (p : PC) : Option PC := match best with
  | none => some p
  | some q => if pcLt p q then some p else some q

/-- The group that R143 chooses: with a pass count of 16 or more, the largest count and then the lower PC; else the
lowest PC. -/
def chosenPC (w : Warp) : Option PC :=
  let ps := groupPCs w
  let big := ps.filter (fun p => decide (16 ≤ groupPasses w p))
  let top := big.foldl (fun n p => max n (groupPasses w p)) 0
  if big.isEmpty then ps.foldl lowerPC none
  else (big.filter (fun p => groupPasses w p == top)).foldl lowerPC none

/-- The choice of R143: the chosen group becomes the candidate set with its pass counts at 0; every other eligible
group's counts rise by 1. -/
def chooseGroup (w : Warp) : Warp :=
  match chosenPC w with
  | none => w
  | some p =>
    let g := groupAt w p
    { modLanes w (BitVec.allOnes 32) (fun l t =>
        if g.getLsbD l then { t with passes := 0 }
        else if ready t then { t with passes := t.passes + 1 } else t) with cand := g, act := 0 }

/-- The word or header that the warp would turn to next, for records (R338, R340). -/
def nextWordPC (w : Warp) : PC :=
  if w.act ≠ 0 then curPC w
  else match lowest w.cand with
    | some l => pcOf w l
    | none => match chosenPC w with
      | some p => p
      | none => match lowest (liveMask w) with
        | some l => pcOf w l
        | none => ⟨0, 0⟩

/-! Names and records of threads. -/

/-- KIND of a slate for a thread of a warp (R339). -/
def slateKind (w : Warp) : Nat := match w.kind with
  | .launch => 0
  | .bin => 1
  | .task => 2
  | .responder => 3
  | .handler => 4

/-- SRC of a fault record for a kind of warp (R333). -/
def srcOf : WKind → Nat
  | .launch => 0
  | .bin => 0
  | .task => 1
  | .responder => 2
  | .handler => 3

/-- SRC of a fault record for a warp. -/
def srcKind (w : Warp) : Nat := srcOf w.kind

/-- The workgroup number within its grid. -/
def wgNumber (wg : Nat) : Nat := wg % 2 ^ 64

/-- The context that a record is sealed for, if the grid's context is confidential (R346, R405). -/
def confOf (s : State) (wg : Nat) : Option Nat :=
  match gridOfWg s wg with
  | some g => if g.desc.getLsbD 3 then some g.ctx else none
  | none => none

/-- Write a record about a warp that names a thread by its number (R339, R343). -/
def warpRecordOf (s : State) (k : Nat) (w : Warp) (n type : Nat) (payload : List Nat) : State :=
  capRecord s (serialOf w.wg) (wgNumber w.wg) n (slateKind w) type (dieOf (coreOf k)) (coreOf k % 64) payload
    (confOf s w.wg)

/-- Write a record about a thread of a warp (R339, R343). -/
def warpRecord (s : State) (k : Nat) (w : Warp) (l : Nat) (type : Nat) (payload : List Nat) : State :=
  warpRecordOf s k w (((thr w l).map (·.name.n)).getD 0) type payload

/-! Debug control of a grid (R336): the descriptor values that the grid read. -/

/-- DBGCTL as it acts: 0 when DBG is 0. -/
def dbgctl (g : Grid) : Nat := let c := field g.desc 767 736
  if c % 2 = 1 then c else 0

/-- The grid's debug control, by workgroup. -/
def dbgOf (s : State) (wg : Nat) : Nat := match gridOfWg s wg with
  | some g => dbgctl g
  | none => 0

/-- Bit n of a number. -/
def bitN (x n : Nat) : Bool := x / 2 ^ n % 2 == 1

/-- Some address breakpoint of the grid is enabled for an address (R336). -/
def abpHit (s : State) (wg : Nat) (a : DWord) : Bool :=
  match gridOfWg s wg with
  | none => false
  | some g => (List.range 4).any (fun n =>
      bitN (dbgctl g) (8 + n) && field g.desc (768 + 64 * n + 63) (768 + 64 * n) == a.toNat)

/-- One workgroup lies in the freeze scope of another: 1 workgroup, 2 gang, 3 grid (R336). -/
def inScope (s : State) (scope a b : Nat) : Bool :=
  match scope with
  | 0 => false
  | 1 => a == b
  | 2 => serialOf a == serialOf b &&
      (match tget s.wgs a, tget s.wgs b with
        | some x, some y => x.gang == y.gang
        | _, _ => false)
  | _ => serialOf a == serialOf b

/-- The lane that a hold record names: the lowest of the group that the warp would issue next (R339). -/
def holdLane (w : Warp) : Nat := (lowest (groupAt w (nextWordPC w))).getD ((lowest (liveMask w)).getD 0)

/-- A warp held at the boundary of its next word: a waiting condition of R38, so its group is chosen anew once it is
released (R143, R338). -/
def heldWarp (w : Warp) : Warp := choicePoint { w with held := true }

/-- Hold one warp at its next word boundary, with a hold record (R338). -/
def holdWarp (s : State) (k : Nat) : State :=
  match tget s.warps k with
  | none => s
  | some w =>
    if w.held then s
    else warpRecord (setWarp s k (heldWarp w)) k w (holdLane w) 3 [(wordAddr (nextWordPC w)).toNat]

/-- Hold every block sequencer of a freeze scope. -/
def holdSeqs (s : State) (scope wg : Nat) : State :=
  { s with cores := s.cores.map (fun e => match e.2.seq with
      | some q => if inScope s scope wg q.wg then (e.1, { e.2 with seq := some { q with held := true } }) else e
      | none => e) }

/-- Hold the saved units of a freeze scope; a saved warp's record names the core from which it came (R338). -/
def holdSaved (s : State) (scope wg : Nat) : State :=
  let xs := s.ctxs.flatMap (fun e => e.2.saved.filter (fun x => inScope s scope wg x.wg))
  let s1 := xs.foldl (fun s1 x => (x.warps.filter (fun w => !w.held)).foldl (fun s1 w =>
    warpRecord s1 (64 * x.core) w (holdLane w) 3 [(wordAddr (nextWordPC w)).toNat]) s1) s
  { s1 with ctxs := s1.ctxs.map (fun e => (e.1, { e.2 with saved := e.2.saved.map (fun x =>
      if inScope s scope wg x.wg then
        { x with warps := x.warps.map (fun w => if w.held then w else heldWarp w),
                 seq := x.seq.map (fun q => { q with held := true }) }
      else x) })) }

/-- Hold every unit of a freeze scope but the warp that trapped (R338). -/
def holdUnits (s : State) (h : Nat × Nat × Nat) : State :=
  let ks := (s.warps.filter (fun e => e.1 != h.2.2 && inScope s h.1 h.2.1 e.2.wg)).map (·.1)
  ks.foldl holdWarp (holdSaved (holdSeqs s h.1 h.2.1) h.1 h.2.1)

/-- A debug trap of a warp holds every other warp, wave, handler and sequencer of its freeze scope: at once, or in
continuity mode at the end of the round (R338). -/
def holdScope (s : State) (k : Nat) (w : Warp) : State :=
  let h := (dbgOf s w.wg / 64 % 4, w.wg, k)
  if h.1 = 0 then s
  else if contOfWg s w.wg then { s with held := s.held ++ [h] }
  else holdUnits s h

/-- Park lanes of a warp by a debug trap: they keep their PC, one record names each thread, the rest of the current group
goes on, and the freeze scope is held (R25, R338, R343). A group none of whose lanes is left is no current group any more
(R143). A lane parked at the word that trapped issues that word without a trap once it is resumed. -/
def parkLanes (s : State) (k : Nat) (m : Mask) (cause tag : Nat) (pc : DWord) : State :=
  match tget s.warps k with
  | none => s
  | some w =>
    if m = 0 then s
    else
      let s := (lanesOf m).foldl (fun s l => warpRecord s k w l 2 [pc.toNat, 0, cause + tag * 2 ^ 16]) s
      let w1 := modLanes w m (fun _ t => { t with wait := .debug, pass1 := cause != 0x72 && wordAddr t.pc == pc })
      let w1 := { w1 with act := w1.act &&& ~~~m, cand := w1.cand &&& ~~~m }
      holdScope (setWarp s k w1) k w

/-- The single-step trap that follows a retired word (R326, R337): members of an open take take none (R297), and lanes
that wait at the word take it when their wait ends. -/
def stepTrap (s : State) (k : Nat) (m : Mask) (pc : DWord) : State :=
  match tget s.warps k with
  | none => s
  | some w =>
    if w.sstep then parkLanes s k (m &&& lanesWhere w (fun t => t.wait == .none) &&& ~~~members w) 0x72 0 pc else s

/-- End the wait of lanes: they go on at the PC that their wait recorded, and the word they waited at retires. -/
def releaseLanes (s : State) (k : Nat) (m : Mask) : State :=
  match tget s.warps k with
  | none => s
  | some w =>
    let pc := match lowest m with
      | some l => wordAddr (pcOf w l)
      | none => 0
    let w := modLanes w m (fun _ t => { t with pc := t.next, wait := .none })
    stepTrap (setWarp s k w) k m pc

/-! Reconvergence (R147 to R149). -/

/-- The innermost entry that has a lane as a member. -/
def innermost (w : Warp) (l : Nat) : Option Recon := w.recon.find? (fun r => r.members.getLsbD l)

/-- The entries that are complete: every member has arrived. -/
def reconDone (w : Warp) : List Recon := w.recon.filter (fun r => r.members &&& ~~~r.arrived == 0)

/-- Remove the complete entries and let their arrived threads go on (R148, R149). -/
def reconSettle (s : State) (k : Nat) : State :=
  match tget s.warps k with
  | none => s
  | some w =>
    let m := (reconDone w).foldl (fun m r => m ||| r.arrived) (0 : Mask)
    let w := { w with recon := w.recon.filter (fun r => r.members &&& ~~~r.arrived != 0) }
    let s := setWarp s k w
    if m = 0 then s else releaseLanes s k m

/-- Lanes leave every entry of which they are members (R149). -/
def reconLeave (w : Warp) (m : Mask) : Warp :=
  { w with recon := w.recon.map (fun r => { r with members := r.members &&& ~~~m, arrived := r.arrived &&& ~~~m }) }

/-! Takes: rollback and abort (R292, R295). -/

/-- A warp's lane registers with those of a lane replaced by a checkpoint's. -/
def restoreLane (v ck : Tbl Word) (l : Nat) : Tbl Word :=
  (ck.filter (fun e => e.1 % 32 == l)).foldl (fun t e => tput t e.1 e.2) (v.filter (fun e => e.1 % 32 != l))

/-- Predicates with the bits of a mask replaced by a checkpoint's. -/
def restoreP (p ck : Tbl Mask) (m : Mask) : Tbl Mask :=
  [1, 2, 3, 4, 5, 6, 7].foldl (fun t i => tputD 0 t i ((tgetD 0 p i &&& ~~~m) ||| (tgetD 0 ck i &&& m))) []

/-- The reconvergence list after a rollback of lanes: entries of the checkpoint take back those lanes, later entries
lose them, and a later entry without members goes (R292). -/
def restoreRecon (now ck : List Recon) (m : Mask) : List Recon :=
  (now.map (fun r => match ck.find? (fun c => c.id == r.id) with
    | some c => { r with members := (r.members &&& ~~~m) ||| (c.members &&& m),
                         arrived := (r.arrived &&& ~~~m) ||| (c.arrived &&& m) }
    | none => { r with members := r.members &&& ~~~m, arrived := r.arrived &&& ~~~m })).filter
    (fun r => r.members != 0)

/-- The values of some outstanding writes are not written any more for the lanes of a mask: a write that is later in
program order, or a checkpoint's value, stands there (R68, R71). The accesses go on, and the registers stay pending. -/
def killPend (w : Warp) (m : Mask) (p : Pend → Bool) : Warp :=
  { w with pend := w.pend.map (fun e => if p e then { e with dead := e.dead ||| m } else e) }

/-- Some write is still pending for the lanes of a mask (R71). -/
def lanesPending (w : Warp) (m : Mask) : Bool := w.pend.any (fun e => e.lanes &&& m != 0)

/-- A load into the warp's registers that has begun since the TAKE of an open take. -/
def takeWrite (tk : Take) (e : Pend) : Bool := !e.token && !tk.ckPend.contains e.id && decide (192 ≤ e.reg.toNat)

/-- What a rollback of lanes of the open take does, once no write is pending for them (R292). A rollback that leaves no
member restores the warp's registers and FLAGS too: writes to w0 to w63 that other lanes have begun since the TAKE and that
are still outstanding do not outlive the checkpoint's values, and those pending since before it belong to the checkpoint
(R284; log 84). -/
def rollbackWarp (w : Warp) (tk : Take) (m : Mask) (code : Byte) : Warp :=
  let w1 := { w with
    v := (lanesOf m).foldl (fun v l => restoreLane v tk.ckV l) w.v
    p := restoreP w.p tk.ckP m
    recon := restoreRecon w.recon tk.ckRecon m
    tcode := code }
  let w1 := modLanes w1 m (fun _ t =>
    { t with tdepth := 0, tcode := code, pc := tk.resume, next := tk.resume, wait := .none })
  let left := members w1
  if left = 0 then
    choicePoint { killPend w1 (BitVec.allOnes 32) (takeWrite tk) with
      w := tk.ckW
      flags := tk.ckFlags
      take := none }
  else
    let tk := { tk with
      store := tk.store.filter (fun e => !m.getLsbD e.2.lane)
      adds := tk.adds.filter (fun e => !m.getLsbD e.1)
      atomRead := tk.atomRead.filter (fun e => !m.getLsbD e.2) }
    choicePoint { w1 with take := some tk }

/-- Roll back lanes at once, let a completed entry go, and take the step trap that the take has held back (R292, R297). -/
def rollbackNow (s : State) (k : Nat) (m : Mask) (code : Byte) : State :=
  match tget s.warps k with
  | none => s
  | some w =>
    match w.take with
    | none => s
    | some tk =>
      let s := reconSettle (setWarp s k (rollbackWarp w tk m code)) k
      stepTrap s k m (wordAddr tk.resume)

/-- The lanes whose rollback has begun and waits for pending writes (R71). -/
def rollingLanes (w : Warp) : Mask :=
  lanesWhere w (fun t => match t.wait with
    | .rollback _ _ _ => true
    | _ => false)

/-- Lanes begin to wait where they stand for their rollback: they stay members, and their take stays open, until it acts
(R71, R292). -/
def rollbackWait (w : Warp) (m : Mask) (code : Byte) : Warp :=
  let w1 := modLanes w m (fun _ t => { t with wait := .rollback m code none })
  if w.cand &&& m = 0 then w1 else choicePoint w1

/-- Roll back lanes of the open take with a status code, now or once every write that is pending for them has completed
(R71, R292). Lanes whose rollback has begun already keep to it (log 84). -/
def rollback (s : State) (k : Nat) (m : Mask) (code : Byte) : State :=
  match tget s.warps k with
  | none => s
  | some w =>
    let m := m &&& ~~~rollingLanes w
    if m = 0 then s
    else if lanesPending w m then setWarp s k (rollbackWait w m code)
    else rollbackNow s k m code

/-- Abort the open take of a warp with a status code: a whole rollback (R295). -/
def abortTake (s : State) (k : Nat) (code : Byte) : State :=
  match tget s.warps k with
  | none => s
  | some w => rollback s k (members w) code

/-- A debug trap that has ended the take of lanes which wait for their rollback is taken after it (R297). -/
def trapLater (w : Warp) (m : Mask) (trap : Nat × Nat × DWord) : Warp :=
  modLanes w m (fun _ t => match t.wait with
    | .rollback r code _ => { t with wait := .rollback r code (some trap) }
    | _ => t)

/-- The rollbacks of a warp that wait for no write any more: the lanes, and the code. -/
def rollsDue (w : Warp) : List (Mask × Byte) :=
  (w.threads.filterMap (fun e => match e.2.wait with
    | .rollback m code _ => if lanesPending w m then none else some (m, code)
    | _ => none)).dedup

/-- The lanes of a rollback that has waited. -/
def rollLanes (w : Warp) (r : Mask × Byte) : Mask :=
  lanesWhere w (fun t => match t.wait with
    | .rollback m code _ => m == r.1 && code == r.2
    | _ => false)

/-- The debug traps that the lanes of a rollback have raised, each with its lanes. -/
def rollTraps (w : Warp) (r : Mask × Byte) : List (Mask × (Nat × Nat × DWord)) :=
  ((w.threads.filterMap (fun e => match e.2.wait with
    | .rollback m code trap => if m == r.1 && code == r.2 then trap else none
    | _ => none)).dedup).map (fun t => (lanesWhere w (fun x => x.wait == .rollback r.1 r.2 (some t)), t))

/-- A rollback that has waited acts on its lanes, and the debug trap that has ended the take parks those that raised it at
the resume point (R292, R297). -/
def rollOne (s : State) (k : Nat) (r : Mask × Byte) : State :=
  match tget s.warps k with
  | none => s
  | some w =>
    (rollTraps w r).foldl (fun s t => parkLanes s k t.1 t.2.1 t.2.2.1 t.2.2.2) (rollbackNow s k (rollLanes w r) r.2)

/-- The lines that a take watches: its read set and its write set (R287). -/
def watches (tk : Take) (line : Nat) : Bool := tk.readSet.contains line || tk.writeSet.contains line

/-- A conflicting access to a line: every take that watches it aborts with status 0x02, save that of the warp whose
members make the access (R288). -/
def conflict (s : State) (own : Option Nat) (line : Nat) : State :=
  ((s.warps.filter (fun e => some e.1 != own && (match e.2.take with
    | some tk => watches tk line
    | none => false))).map (·.1)).foldl (fun s k => abortTake s k 2) s

end Sys2Proof.Machine
end

