-- ==== Sys2Proof/Machine/Capture.lean ====
section
/-! DEFINITION. The capture buffer's commands (23 R344), latency histograms and triggers of the engines (R341, R342). -/

namespace Sys2Proof.Machine

/-! Capture commands (R344). -/

/-- A marker record (R343). -/
def marker (s : State) (n : Nat) : State := capRecord s 0 0 0 7 7 0 0 [n] none

/-- The loss record that precedes the next start or reset, written whatever the capture's state was; where it finds no
room it is dropped and counted itself, and the count goes on (R343, R344). -/
def lossRecord (s : State) : State :=
  if s.capDropped = 0 then s
  else
    let s1 := capRecord { s with capState := capRunning } 0 0 0 7 6 0 0 [s.capDropped] none
    { s1 with
      capState := s.capState
      capDropped := if s1.posted.length = s.posted.length then s1.capDropped else 0 }

/-- Sampling begins with slot 0 of every partition after capture starts (R340). -/
def samplersFresh (s : State) : State :=
  { s with samplers := s.samplers.map (fun e => (e.1, { e.2 with slot := 0, interval := 0 })) }

/-- Marker 4: the idle counts of the four partitions of each core that has sampled, in 16 bytes each, which begin anew
(R340, R343; log 58). -/
def idleMarkers (s : State) : State :=
  if !s.capCfg.getLsbD 24 then s
  else
    let s1 := ((s.samplers.map (fun e => e.1 / 4)).dedup).foldl (fun s1 c =>
      capRecordWith s1 0 0 0 7 7 (c / 64) (c % 64) [4] none
        ((List.range 4).flatMap (fun i => leBytes 16 (tgetD Sampler.empty s.samplers (4 * c + i)).idle))) s
    { s1 with samplers := s1.samplers.map (fun e => (e.1, { e.2 with idle := 0 })) }

/-- START (R344). -/
def capStart (s : State) : State :=
  if s.capState = capIdle ∨ s.capState = capStopped then
    marker (samplersFresh { lossRecord s with capState := capRunning }) 1
  else s

/-- STOP: marker 2 is the last record of the run. -/
def capStop (s : State) : State :=
  if s.capState = capRunning then { marker (idleMarkers s) 2 with capState := capStopped } else s

/-- FREEZE: marker 3 where the capture runs. -/
def capFreeze (s : State) : State :=
  if s.capState = capRunning then { marker (idleMarkers s) 3 with capState := capFrozen }
  else if s.capState = capStopped then { s with capState := capFrozen }
  else s

/-- RESET: the capture becomes idle and is cleared, and with it the histograms (R341, R344). -/
def capReset (s : State) : State :=
  if s.capState = capIdle then s
  else
    let s := lossRecord s
    { s with
      capState := capIdle
      capOff := 0
      capDropped := 0
      samplers := []
      ctxs := s.ctxs.map (fun e => (e.1, { e.2 with hist := [] })) }

/-! Engines (29 R417). -/

/-- The engine index of a timeline handle. -/
def engineOf (h : Nat) : Nat :=
  let die := h / 2 ^ 26 % 4
  let core := h / 2 ^ 20 % 64
  match h / 2 ^ 28 with
  | 1 => 0xA00 + 64 * die + core
  | 2 => 512 * die + 8 * core + h % 8
  | 3 => 0x800 + 8 * die + h % 8
  | _ => 0x900 + 8 * (h / 32 % 32) + h % 8

/-- The engine index of the remote-load path of a core, by 64 * die + core. -/
def remoteEngine (c : Nat) : Nat := 0xB00 + c

/-- The bin of a latency (R341). -/
def latencyBin (l : Nat) : Nat := min 31 (Nat.log2 (max l 1))

/-- A counter of a context's histogram of an engine. -/
def histCount (s : State) (ctx e b : Nat) : Nat := tgetD 0 (ctxRec s ctx).hist (e * 32 + b)

/-- The total count of a histogram. -/
def histTotal (s : State) (ctx e : Nat) : Nat := (List.range 32).foldl (fun n b => n + histCount s ctx e b) 0

/-- The bin of the percentile: the least whose cumulative count is at least PCT thousandths of the total (R342). -/
def histBin (s : State) (ctx e pct : Nat) : Nat :=
  let need := (pct * histTotal s ctx e + 999) / 1000
  ((List.range 32).find? (fun b =>
    decide (need ≤ (List.range (b + 1)).foldl (fun n i => n + histCount s ctx e i) 0))).getD 31

/-- A trigger fires at a completion: it is armed, enough requests were counted before, and the latency lies a bin above
the percentile (R342, R417). -/
def triggerFires (s : State) (ctx e l : Nat) : Bool :=
  let t := tgetD 0 s.triggers e
  let pct := field t 9 0
  t.getLsbD 15 && decide (1 ≤ pct) && decide (pct ≤ 999) && decide (field t 63 32 ≤ histTotal s ctx e) &&
    decide (2 ^ (histBin s ctx e pct + 1) ≤ l)

/-- The action of a trigger (R342). -/
def triggerAction (s : State) (a : Nat) : State :=
  match a with
  | 1 => capStart s
  | 2 => capStop s
  | 3 => capFreeze s
  | _ => s

/-- Count one request in a histogram of saturating counters (R341). -/
def histAdd (s : State) (ctx e b : Nat) : State :=
  let x := ctxRec s ctx
  setCtx s ctx { x with hist := tput x.hist (e * 32 + b) (min (histCount s ctx e b + 1) (2 ^ 32 - 1)) }

/-- KIND of the slate of an engine's record: a block sequencer, or another engine (R339). -/
def engineKind (handle : Nat) : Nat := if handle / 2 ^ 28 = 1 then 5 else 6

/-- One completion: the trigger is tested, its record written and its action performed, save a freeze, before the request
is counted; the second part says whether the capture is to freeze (R341, R342). -/
def measureOne (acc : State × Bool) (d : Done) : State × Bool :=
  let s := acc.1
  if triggerFires s d.ctx d.engine d.lat then
    let t := tgetD 0 s.triggers d.engine
    let action := field t 13 12
    let s := capRecord s d.serial d.wg 0 (engineKind d.handle) 4 d.die d.core
      [d.handle, d.lat, histBin s d.ctx d.engine (field t 9 0)] d.conf
    (histAdd (if action = 3 then s else triggerAction s action) d.ctx d.engine (latencyBin d.lat), acc.2 || action == 3)
  else (histAdd s d.ctx d.engine (latencyBin d.lat), acc.2)

/-- Insert a completion behind those of engines that are not later. -/
def insertDone (d : Done) : List Done → List Done
  | [] => [d]
  | e :: r => if d.engine < e.engine then d :: e :: r else e :: insertDone d r

/-- The completions of one clock, in ascending engine order; a freeze follows all of their records (R342). -/
def measureAll (s : State) (ds : List Done) : State :=
  let (s, freeze) := (ds.foldl (fun l d => insertDone d l) []).foldl measureOne (s, false)
  if freeze then capFreeze s else s

/-- The completion of an operation of a core's engine, named by its handle, that was issued at a clock. -/
def opDone (s : State) (wg handle issued : Nat) : Done :=
  let die := handle / 2 ^ 26 % 4
  ⟨ctxOfWg s wg, engineOf handle, handle, cycleOf s die - issued, die, handle / 2 ^ 20 % 64, serialOf wg, wgNumber wg,
    confOf s wg⟩

/-- An engine completes one operation, which is measured at the end of the step with all others of the clock (R342). -/
def measureOp (s : State) (wg handle issued : Nat) : State := noteDone s [opDone s wg handle issued]

/-- What has completed in a step is measured (R341, R342). -/
def measureStep (s : State) : State := if s.done.isEmpty then s else measureAll { s with done := [] } s.done

end Sys2Proof.Machine
end

