-- ==== Sys2Proof/Machine/Hdr.lean ====
section
/-! DEFINITION. The launch header's fields (01 R15) and what they give: threads, gangs, the work identifier (R10 to
R14), roles (R36). -/

namespace Sys2Proof.Machine

/-- Width of field n of the work identifier (R10, R15). -/
def hWidth (h : BitVec 1024) (n : Nat) : Nat := field h (325 + 6 * n) (320 + 6 * n)
/-- Extent of field n. -/
def hExtent (h : BitVec 1024) (n : Nat) : Nat := field h (159 + 32 * n) (128 + 32 * n) + 1
/-- Number of thread fields. -/
def hWcut (h : BitVec 1024) : Nat := field h 358 356
/-- Number of gang-member fields. -/
def hGcut (h : BitVec 1024) : Nat := field h 361 359
/-- The grid holds the matrix engine. -/
def hMx (h : BitVec 1024) : Bool := h.getLsbD 362
/-- The grid is spread over several packages. -/
def hMulti (h : BitVec 1024) : Bool := h.getLsbD 363
/-- Named barriers per workgroup. -/
def hNbar (h : BitVec 1024) : Nat := field h 441 436
/-- LM bytes of a workgroup (R15: LM_UNITS × 256). -/
def hLmSize (h : BitVec 1024) : Nat := field h 379 368 * 256
/-- The entry PC. -/
def hEntry (h : BitVec 1024) : DWord := h.extractLsb' 0 64
/-- The address of the matrix stream. -/
def hStream (h : BitVec 1024) : DWord := h.extractLsb' 512 64
/-- The argument pointer. -/
def hArg (h : BitVec 1024) : DWord := h.extractLsb' 64 64
/-- Packages taking part, minus one. -/
def hPkgs (h : BitVec 1024) : Nat := field h 419 408
/-- The grid key. -/
def hMkey (h : BitVec 1024) : DWord := h.extractLsb' 576 64
/-- The fabric identifier of the gate holder. -/
def hGateFid (h : BitVec 1024) : Nat := field h 651 640
/-- The start-gate limit in microseconds. -/
def hGate (h : BitVec 1024) : Nat := field h 435 420
/-- Lease-table address and count. -/
def hLeasePtr (h : BitVec 1024) : Nat := field h 511 454 * 64
def hLeaseCnt (h : BitVec 1024) : Nat := field h 453 448

/-- The product of the extents of a range of fields. -/
def extProd (h : BitVec 1024) (fs : List Nat) : Nat := fs.foldl (fun p n => p * hExtent h n) 1
/-- The total width of a range of fields. -/
def widthSum (h : BitVec 1024) (fs : List Nat) : Nat := fs.foldl (fun p n => p + hWidth h n) 0
/-- The fields of the thread level, the gang-member level and the gang level (R12). -/
def threadFields (h : BitVec 1024) : List Nat := List.range (hWcut h)
def memberFields (h : BitVec 1024) : List Nat := (List.range 6).filter (fun n => hWcut h ≤ n ∧ n < hWcut h + hGcut h)
def gangFields (h : BitVec 1024) : List Nat := (List.range 6).filter (fun n => hWcut h + hGcut h ≤ n)

/-- Threads per workgroup N (R12). -/
def hN (h : BitVec 1024) : Nat := extProd h (threadFields h)
/-- Gang size (R12). -/
def hGangSize (h : BitVec 1024) : Nat := extProd h (memberFields h)
/-- Gang count G (R12). -/
def hGangs (h : BitVec 1024) : Nat := extProd h (gangFields h)
/-- Warps of a workgroup at launch (R14). -/
def hWarps (h : BitVec 1024) : Nat := (hN h + 31) / 32

/-- The part of an identifier that has a rank among the values that occur, its fields filled from bit 0 (R10, R14). -/
def partOf (h : BitVec 1024) : List Nat → Nat → Nat
  | [], _ => 0
  | n :: r, k => k % hExtent h n + 2 ^ hWidth h n * partOf h r (k / hExtent h n)

/-- The workgroup number of a member of a gang, both by rank (R12). -/
def wgNumberOf (h : BitVec 1024) (gang member : Nat) : Nat :=
  (partOf h (memberFields h) member + 2 ^ widthSum h (memberFields h) * partOf h (gangFields h) gang) % 2 ^ 64

/-- The gang number of a gang by rank (R12). -/
def gangNumberOf (h : BitVec 1024) (gang : Nat) : Nat := partOf h (gangFields h) gang % 2 ^ 64

/-- The work identifier of the thread with an ordinal in a workgroup (R10, R14). -/
def widOf (h : BitVec 1024) (wgn ordinal : Nat) : DWord :=
  BitVec.ofNat 64 (partOf h (threadFields h) ordinal + 2 ^ widthSum h (threadFields h) * wgn)

/-- The role of warp k of a workgroup (R36). -/
def roleOf (h : BitVec 1024) (k : Nat) : Nat :=
  let r0 := field h 389 384
  let r1 := field h 395 390
  let r2 := field h 401 396
  let r3 := field h 407 402
  if r0 + r1 + r2 + r3 = 0 then 0
  else if k < r0 then 0 else if k < r0 + r1 then 1 else if k < r0 + r1 + r2 then 2 else 3

/-- The package rank that runs the gang with a gang number (R30). -/
def gangRank (h : BitVec 1024) (g : Nat) : Nat := g * (hPkgs h + 1) / hGangs h

/-- The least gang, from a lower bound and within a span, whose gang number falls to a package rank or a later one: gang
numbers rise with the place of a gang in their order. Fuel bounds the halvings of the span. -/
def gangSearch (h : BitVec 1024) (rank : Nat) : Nat → Nat → Nat → Nat
  | 0, lo, _ => lo
  | fuel + 1, lo, span =>
    if span = 0 then lo
    else
      let mid := lo + span / 2
      if rank ≤ gangRank h (gangNumberOf h mid) then gangSearch h rank fuel lo (span / 2)
      else gangSearch h rank fuel (mid + 1) (span - span / 2 - 1)

/-- The header of a workgroup's grid. -/
def hdrOf (s : State) (wg : Nat) : BitVec 1024 := match gridOfWg s wg with
  | some g => g.hdr
  | none => 0

/-- The workgroup of a gang member by member index, in the gang of a workgroup (R27). -/
def memberWg (s : State) (wg m : Nat) : Option Nat :=
  match tget s.wgs wg with
  | none => none
  | some x => ((s.wgs.filter (fun e => serialOf e.1 == serialOf wg && e.2.gang == x.gang && e.2.member == m)).map
      (·.1)).head?

end Sys2Proof.Machine
end

