-- ==== Sys2Proof/Machine/Mem.lean ====
section
/-! DEFINITION. Memory as agents see it: translation (11 R154, R160 to R167), LM addresses (R155), the stash (R157),
what a write does to other agents (snapshots R184, takes R288, LDK R191, mailboxes 17 R274). A place is a physical
address, or 2^60 + workgroup * 2^20 + offset for a byte of LM; its line is the place divided by 128. -/

namespace Sys2Proof.Machine

/-! Physical addresses. -/

/-- The enabled dies. -/
def enabledDies (s : State) : Nat := ((List.range 4).filter (fun d => s.dieEn.getLsbD d)).length

/-- Enabled LP6 channels. -/
def lp6Channels (s : State) : Nat := ((List.range 24).filter (fun c => s.lp6En.getLsbD c)).length

/-- The first doubleword of a packet's header (25 R350): DFID, SFID, SLINK, SCTX, FLITS, KIND, LEN. -/
def packetHeader (sfid dfid slink sctx kind len : Nat) : Nat :=
  dfid % 2 ^ 12 * 2 ^ 52 + sfid % 2 ^ 12 * 2 ^ 40 + slink % 2 ^ 5 * 2 ^ 35 + sctx % 2 ^ 3 * 2 ^ 32 +
    (len + 63) / 64 % 2 ^ 4 * 2 ^ 28 + kind % 2 ^ 4 * 2 ^ 24 + len % 2 ^ 10 * 2 ^ 14

/-- A header by which an arriving packet is discarded: its KIND is reserved, or a reserved bit is set (25 R350). -/
def headerMalformed (h : DWord) : Bool :=
  field h 13 0 != 0 || field h 27 24 == 0 || decide (11 ≤ field h 27 24)

/-- Hand a packet of a kind to the fabric, for a FID, from a link and a splicer context (25 R350): the header's first
doubleword, and the fields of the kind. -/
def sendFabric (s : State) (kind dfid slink sctx : Nat) (fields : List Nat) (data : List Byte) : State :=
  sendOut s kind (packetHeader (s.fid.getD 0) dfid slink sctx kind data.length :: fields) data

/-- A physical address is populated and not reserved, and a fabric address does not name the package itself as its home
(R154, 25 R349). -/
def physOk (s : State) (pa : Nat) : Bool :=
  match pa / 2 ^ 55 % 4 with
  | 1 => s.fid != some (pa / 2 ^ 43 % 2 ^ 12)
  | 0 =>
    if pa < 2 ^ 38 then s.dieEn.getLsbD (pa / 2 ^ 36 % 4)
    else decide (2 ^ 40 ≤ pa) && decide (pa < 2 ^ 40 + lp6Channels s * 2 ^ 36)
  | 3 => false
  | _ => true

/-- The fabric region (R154). -/
def isFabric (pa : Nat) : Bool := pa / 2 ^ 55 % 4 == 1
/-- The host region (R154). -/
def isHost (pa : Nat) : Bool := pa / 2 ^ 55 % 4 == 2

/-- No context other than this one binds the granule of an address (29 R404). -/
def granuleOk (s : State) (ctx pa : Nat) : Bool :=
  s.ctxs.all (fun e => e.1 == ctx || !e.2.granules.contains (pa / 2 ^ 21))

/-- Every byte of a range of at most a page lies in physical memory that a context may reach (R154, R404). -/
def reachOk (s : State) (ctx pa n : Nat) : Bool :=
  physOk s pa && granuleOk s ctx pa && physOk s (pa + n - 1) && granuleOk s ctx (pa + n - 1)

/-- The physical lines that a range of bytes touches. -/
def linesOf (pa n : Nat) : List Nat := (List.range ((pa + n - 1) / 128 + 1 - pa / 128)).map (pa / 128 + ·)

/-! Translation (R160 to R162). -/

/-- Why a translation fails. -/
inductive XErr where
  | unmapped
  | malformed
  | perm
  | phys
deriving DecidableEq, Repr

/-- What an access needs of a page or a lease entry. -/
structure Need where
  r : Bool
  w : Bool
  x : Bool
deriving DecidableEq, Repr

def needR : Need := ⟨true, false, false⟩
def needW : Need := ⟨false, true, false⟩
def needRW : Need := ⟨true, true, false⟩
def needX : Need := ⟨false, false, true⟩

/-- Fields of a page-table entry (R162). -/
def pteSize (e : DWord) : Nat := field e 63 60
def pteOrd (e : DWord) : Nat := field e 59 58
def ptePa (e : DWord) : Nat := field e 56 12 * 4096
def pteLeaf (e : DWord) : Bool := e.getLsbD 1
def pteV (e : DWord) : Bool := e.getLsbD 0

/-- The permissions of a leaf suffice. -/
def pteAllows (e : DWord) (n : Need) : Bool :=
  (!n.r || e.getLsbD 2) && (!n.w || e.getLsbD 3) && (!n.x || e.getLsbD 4)

/-- The address that a leaf gives for a virtual address. -/
def leafPa (e : DWord) (va : Nat) : Nat := ptePa e + va % 2 ^ (12 + pteSize e)

/-- Fields of a context descriptor (27 R384). -/
def dHeapBase (d : BitVec 1024) : Nat := field d 127 64
def dHeapLimit (d : BitVec 1024) : Nat := field d 191 128
def dHeapOffset (d : BitVec 1024) : Nat := field d 255 192
def dPtRoot (d : BitVec 1024) : Nat := field d 319 256

/-- An address lies in the context's heap (R160). -/
def inHeap (d : BitVec 1024) (va : Nat) : Bool := decide (dHeapBase d ≤ va) && decide (va < dHeapLimit d)

/-- Translation of a heap address (R160). -/
def heapPa (d : BitVec 1024) (va : Nat) : Nat := (va + dHeapOffset d) % 2 ^ 57

/-! Leases (R165 to R167). -/

/-- A lease entry covers an address with the permission of a bit of PERM. -/
def leaseBit (e : BitVec 128) (bit va : Nat) : Bool :=
  let a := field e 56 12 * 4096
  e.getLsbD bit && decide (a ≤ va) && decide (va < a + (field e 108 64 + 1) * 4096)

/-- A list of lease entries grants what an access needs at a byte: entries that overlap add up (R165). -/
def leaseAllows (es : List (BitVec 128)) (n : Need) (va : Nat) : Bool :=
  (!n.r || es.any (fun e => leaseBit e 120 va)) && (!n.w || es.any (fun e => leaseBit e 121 va)) &&
    (!n.x || es.any (fun e => leaseBit e 122 va))

/-- The leased page of an address, by its first address and its entry (R166). -/
def fixedAt (g : Grid) (va : Nat) : Option (Nat × DWord) :=
  g.fixed.find? (fun e => decide (e.1 ≤ va) && decide (va < e.1 + 2 ^ (12 + pteSize e.2)))

/-- The fixed translation of a leased page (R166). -/
def fixedPage (g : Grid) (va : Nat) : Option DWord := (fixedAt g va).map (·.2)

/-- The first byte of a range, at or after an address, that neither the heap nor a lease entry of some sort covers; fuel
bounds the number of pieces. -/
def firstBare (g : Grid) (sort : BitVec 128 → Bool) (stop : Nat) : Nat → Nat → Nat
  | 0, va => va
  | fuel + 1, va =>
    if stop ≤ va then va
    else if inHeap g.desc va then firstBare g sort stop fuel (dHeapLimit g.desc)
    else
      let at_ (e : BitVec 128) : Bool := sort e &&
        decide (field e 56 12 * 4096 ≤ va) && decide (va < field e 56 12 * 4096 + (field e 108 64 + 1) * 4096)
      match g.leases.filter at_ with
      | [] => va
      | e :: _ => firstBare g sort stop fuel (field e 56 12 * 4096 + (field e 108 64 + 1) * 4096)

/-- A range of a grid lies wholly in the heap or in lease entries of some sort (R164, R165). -/
def covered (g : Grid) (sort : BitVec 128 → Bool) (va n : Nat) : Bool :=
  decide (va + n ≤ firstBare g sort (va + n) (2 * g.leases.length + 4) va)

/-- An access of a page that touches a locked region, while no locked region holds the page's entry (R164). -/
def lockedMiss (w : Workgroup) (g : Grid) (va n : Nat) : Bool :=
  w.locked.any (fun r => decide (va < r.start + r.size) && decide (r.start < va + n)) &&
    !w.locked.any (fun r => r.pages.any (fun p => (fixedAt g va).map (·.1) == some p))

/-- The lease and locked-miss check of a grid's access of some bytes of one 4 KiB unit: a cause code, or none (R160, R164,
R167; a fetch: 21 R335 cause 0x23). -/
def leaseFault (s : State) (wg : Nat) (n : Need) (va size : Nat) : Option Nat :=
  match gridOfWg s wg, tget s.wgs wg with
  | some g, some w =>
    if inHeap g.desc va then none
    else if !leaseAllows g.leases n va then some (if n.x then 0x23 else 0x15)
    else if lockedMiss w g va size then some 0x16
    else
      match fixedPage g va with
      | some e => if pteAllows e n then none else some (if n.x then 0x23 else 0x15)
      | none => some 0x14
  | _, _ => some 0x15

/-- Where a grid's access goes: physical address and ordering kind (R160, R166, R168). -/
def gridXlate (s : State) (wg va : Nat) : Nat × Nat :=
  match gridOfWg s wg with
  | none => (0, 0)
  | some g =>
    if inHeap g.desc va then (heapPa g.desc va, 0)
    else match fixedPage g va with
      | some e => (leafPa e va, pteOrd e)
      | none => (0, 0)

/-- The home of some line of a physical range refuses an access that completes within its step (25 R349; log 104). -/
def refusedNow (s : State) (pa n : Nat) : Bool := !s.refusing.isEmpty && (linesOf pa n).any (fun l => s.refusing.contains l)

/-- The physical-address check of a grid's access of some bytes of one 4 KiB unit (R154, R404); in continuity mode an access
completes within its step, and takes its home's refusal then (25 R349). -/
def physFault (s : State) (wg va size : Nat) : Bool :=
  let pa := (gridXlate s wg va).1
  !reachOk s (ctxOfWg s wg) pa size || (contOfWg s wg && refusedNow s pa size)

/-! LM (R155). -/

/-- The place of an LM byte. -/
def lmPlace (wg off : Nat) : Nat := 2 ^ 60 + wg * 2 ^ 20 + off

/-- The workgroup and offset that an LM address names, or none where the LM-range fault is raised (R155). -/
def lmTarget (s : State) (wg : Nat) (a : Word) (size : Nat) : Option (Nat × Nat) :=
  let h := hdrOf s wg
  let off := field a 19 0
  if field a 31 23 ≠ 0 ∨ hLmSize h < off + size then none
  else if a.getLsbD 20 then
    if field a 22 21 < hGangSize h then (memberWg s wg (field a 22 21)).map (fun t => (t, off)) else none
  else some (wg, off)

/-- An LM range touches a mapped stash region of its workgroup (R157). -/
def stashAlias (s : State) (wg off size : Nat) : Bool :=
  match tget s.wgs wg with
  | none => false
  | some w => w.stash.any (fun r => decide (off < r.lm + r.size) && decide (r.lm < off + size))

/-- Bytes of a workgroup's LM. -/
def lmBytes (s : State) (wg off n : Nat) : List Byte :=
  match tget s.wgs wg with
  | none => List.replicate n 0
  | some w => (List.range n).map (fun i => tgetD 0 w.lm (off + i))

/-- LM with bytes stored, no other agent regarded; poison goes with what it stood on (R408). -/
def lmStore (s : State) (wg off : Nat) (bs : List Byte) : State :=
  match tget s.wgs wg with
  | none => s
  | some w => setWg { s with poison := s.poison.filter (fun p =>
      !(decide (lmPlace wg off ≤ p) && decide (p < lmPlace wg off + bs.length))) } wg { w with
      lm := (List.range bs.length).foldl (fun m i => tputD 0 m (off + i) (bs.getD i 0)) w.lm }

/-! Physical memory under every agent's view. -/

/-- Add a byte written over an old one to the values that a fetch or LDK may return in a grid (07 R105, R191). -/
def ldkLog (g : Grid) (a : Nat) (old b : Byte) : Grid :=
  { g with ldk := tput g.ldk a (match tget g.ldk a with
      | some l => l ++ [b]
      | none => [old, b]) }

/-- Note for every grid that bytes of memory have been written over old ones, wherever they stand (07 R105, R191). -/
def logBytes (s : State) (a : Nat) (old new : List Byte) : State :=
  { s with grids := s.grids.map (fun e => (e.1, (List.range new.length).foldl (fun g i =>
      ldkLog g (a + i) (old.getD i 0) (new.getD i 0)) e.2)) }

/-- Change one byte of physical memory; poison goes (R408). -/
def cellByte (s : State) (a : Nat) (b : Byte) : State :=
  { s with
    poison := s.poison.filter (fun p => p != a)
    mem := memPut s.mem a b }

/-- Change bytes of physical memory whose stores have been noted already: a write-back (R157). -/
def cellStore (s : State) (a : Nat) : List Byte → State
  | [] => s
  | b :: r => cellStore (cellByte s a b) (a + 1) r

/-- Store one byte of physical memory: the values of fetches and LDK are noted, and poison goes (R105, R191, R408). -/
def plainByte (s : State) (a : Nat) (b : Byte) : State :=
  { cellByte s a b with grids := s.grids.map (fun e => (e.1, ldkLog e.2 a (memByte s.mem a) b)) }

/-- Store bytes of physical memory. -/
def plainStore (s : State) (a : Nat) : List Byte → State
  | [] => s
  | b :: r => plainStore (plainByte s a b) (a + 1) r

/-- Some byte of a range of places is poisoned (R408). -/
def poisoned (s : State) (a n : Nat) : Bool := s.poison.any (fun p => decide (a ≤ p) && decide (p < a + n))

/-- Poison goes with data that is copied from one place to another (R408). -/
def carryPoison (s : State) (src dst n : Nat) : State :=
  if poisoned s src n then
    { s with poison := s.poison ++ ((s.poison.filter (fun p => decide (src ≤ p) && decide (p < src + n))).map
        (fun p => p - src + dst)).filter (fun p => !s.poison.contains p) }
  else s

/-! The stash (R157). -/

/-- The physical address of the first byte of line j of a stash region. -/
def stashPa (s : State) (wg : Nat) (r : Stash) (j : Nat) : Nat := (gridXlate s wg (r.va + 128 * j)).1

/-- Change one line of a stash region. -/
def setStashLine (s : State) (wg i j : Nat) (x : Option StashLine) : State :=
  match tget s.wgs wg with
  | none => s
  | some w =>
    setWg s wg { w with stash := w.stash.modify i (fun r => { r with lines := match x with
      | some y => tput r.lines j y
      | none => tdel r.lines j }) }

/-- Write a filled stash line back to memory, with its poison; it stays filled and is clean (R157, R209). -/
def writeBackLine (s : State) (wg i j : Nat) : State :=
  match tget s.wgs wg with
  | none => s
  | some w =>
    match w.stash[i]? with
    | none => s
    | some r =>
      match tget r.lines j with
      | none => s
      | some y =>
        if y.dirty then
          let pa := stashPa s wg r j
          let s := cellStore s pa (lmBytes s wg (r.lm + 128 * j) 128)
          setStashLine (carryPoison s (lmPlace wg (r.lm + 128 * j)) pa 128) wg i j (some { y with dirty := false })
        else s

/-- The filled stash lines of every workgroup that hold some byte of a physical line: workgroup, region and line. -/
def stashHolders (s : State) (line : Nat) : List (Nat × Nat × Nat) :=
  s.wgs.flatMap (fun e => (List.range e.2.stash.length).flatMap (fun i =>
    match e.2.stash[i]? with
    | none => []
    | some r => (r.lines.filter (fun l => l.2.filled && decide (stashPa s e.1 r l.1 < 128 * line + 128) &&
        decide (128 * line < stashPa s e.1 r l.1 + 128))).map (fun l => (e.1, i, l.1))))

/-- The place that holds the present value of a byte of memory: an LM byte where a stash line that holds it is dirty, which
would be written back before another agent reads it, else the byte itself (R157). -/
def seenPlace (s : State) (a : Nat) : Nat :=
  ((stashHolders s (a / 128)).findSome? (fun h => (tget s.wgs h.1).bind (fun w => (w.stash[h.2.1]?).bind (fun r =>
    let pa := stashPa s h.1 r h.2.2
    match tget r.lines h.2.2 with
    | some y => if y.dirty && decide (pa ≤ a) && decide (a < pa + 128) then
        some (lmPlace h.1 (r.lm + 128 * h.2.2 + (a - pa))) else none
    | none => none)))).getD a

/-- The byte at a place: of LM, or of physical memory. -/
def placeByte (s : State) (a : Nat) : Byte :=
  if a < 2 ^ 60 then memByte s.mem a else (lmBytes s ((a - 2 ^ 60) / 2 ^ 20) (a % 2 ^ 20) 1).headD 0

/-- A byte of memory as an agent that reads past every stash sees it (R157). -/
def seenByte (s : State) (a : Nat) : Byte := placeByte s (seenPlace s a)

/-- Some byte of a physical range is beyond repair for an agent that reads past every stash (R157, R408). -/
def seenPoisoned (s : State) (a n : Nat) : Bool :=
  !s.poison.isEmpty && (List.range n).any (fun i => s.poison.contains (seenPlace s (a + i)))

/-- A little-endian number of n bytes as such an agent sees it. -/
def seenNat (s : State) (a n : Nat) : Nat := leNat ((List.range n).map (fun i => seenByte s (a + i)))

/-- Before an access to a physical line, every other stash that holds it writes a dirty line back; a write also unfills
it (R157). -/
def flushStash (s : State) (own : Option (Nat × Nat × Nat)) (line : Nat) (write : Bool) : State :=
  ((stashHolders s line).filter (fun h => some h != own)).foldl (fun s h =>
    let s := writeBackLine s h.1 h.2.1 h.2.2
    if write then setStashLine s h.1 h.2.1 h.2.2 none else s) s

/-- The same for every line of a range. -/
def flushRange (s : State) (own : Option (Nat × Nat × Nat)) (pa n : Nat) (write : Bool) : State :=
  (linesOf pa n).foldl (fun s l => flushStash s own l write) s

/-- The region and line of a workgroup's stash that serve an address (R157). -/
def stashAt (s : State) (wg va : Nat) : Option (Nat × Nat × Nat) :=
  match tget s.wgs wg with
  | none => none
  | some w =>
    match w.stash.findIdx? (fun r => decide (r.va ≤ va) && decide (va < r.va + r.size)) with
    | none => none
    | some i => (w.stash[i]?).map (fun r => (wg, i, (va - r.va) / 128))

/-- Fill a stash line from memory at its first touch, with its poison (R157): a write of the LM line, for takes that watch
it. -/
def fillLine (s : State) (own : Option Nat) (h : Nat × Nat × Nat) : State :=
  match tget s.wgs h.1 with
  | none => s
  | some w =>
    match w.stash[h.2.1]? with
    | none => s
    | some r =>
      match tget r.lines h.2.2 with
      | some _ => s
      | none =>
        let pa := stashPa s h.1 r h.2.2
        let off := r.lm + 128 * h.2.2
        let s := conflict (flushRange s (some h) pa 128 false) own (lmPlace h.1 off / 128)
        let s := carryPoison (lmStore s h.1 off (memBytes s.mem pa 128)) pa (lmPlace h.1 off) 128
        setStashLine s h.1 h.2.1 h.2.2 (some ⟨true, false⟩)

/-- Mark a stash line dirty. -/
def dirtyLine (s : State) (h : Nat × Nat × Nat) : State := setStashLine s h.1 h.2.1 h.2.2 (some ⟨true, true⟩)

/-- The LM offset of an address in a stash line's region. -/
def stashOff (s : State) (h : Nat × Nat × Nat) (va : Nat) : Nat :=
  match tget s.wgs h.1 with
  | none => 0
  | some w => match w.stash[h.2.1]? with
    | none => 0
    | some r => r.lm + (va - r.va)

/-- The stash line that holds an address has been filled. -/
def stashFilled (s : State) (h : Nat × Nat × Nat) : Bool :=
  match (tget s.wgs h.1).bind (fun w => w.stash[h.2.1]?) with
  | none => false
  | some r => (tget r.lines h.2.2).isSome

/-- An access of a workgroup goes to fabric memory: a stash line that has been filled serves it within the package (R157). -/
def remoteAt (s : State) (wg va pa : Nat) : Bool :=
  isFabric pa && !(match stashAt s wg va with
    | some h => stashFilled s h
    | none => false)

/-- The data that a workgroup would read from global memory lie beyond repair (R157, R408). -/
def dataPoisoned (s : State) (wg va pa n : Nat) : Bool :=
  match stashAt s wg va with
  | some h => if stashFilled s h then poisoned s (lmPlace wg (stashOff s h va)) n else seenPoisoned s pa n
  | none => seenPoisoned s pa n

/-! Page tables (R161, R162). -/

/-- The leaf that maps an address, by a walk of the levels named from the top (R161). -/
def walkFrom (s : State) (va : Nat) : List Nat → Nat → Except XErr DWord
  | [], _ => .error .malformed
  | l :: r, table =>
    let i := va / 2 ^ (12 + 9 * l) % 512
    if !physOk s (table + 8 * i) then .error .phys
    else
      let e : DWord := BitVec.ofNat 64 (seenNat s (table + 8 * i) 8)
      if !pteV e then .error .unmapped
      else if e.getLsbD 57 || field e 11 5 != 0 then .error .malformed
      else if pteLeaf e then
        let n := 2 ^ (if l = 0 then pteSize e else pteSize e - 9)
        if 2 ≤ l ∨ (l = 0 ∧ 8 < pteSize e) ∨ (l = 1 ∧ pteSize e < 9) ∨ pteOrd e = 3 ∨
            ptePa e % 2 ^ (12 + pteSize e) ≠ 0 ∨
            (List.range n).any (fun j => seenNat s (table + 8 * (i / n * n + j)) 8 != e.toNat) = true then
          .error .malformed
        else .ok e
      else if pteSize e ≠ 0 ∨ pteOrd e ≠ 0 then .error .malformed
      else walkFrom s va r (ptePa e)

/-- The page-table bytes that a walk of an address reads: physical addresses and lengths (R161). -/
def walkReads (s : State) (va : Nat) : List Nat → Nat → List (Nat × Nat)
  | [], _ => []
  | l :: r, table =>
    let i := va / 2 ^ (12 + 9 * l) % 512
    if !physOk s (table + 8 * i) then []
    else
      let e : DWord := BitVec.ofNat 64 (seenNat s (table + 8 * i) 8)
      (table + 8 * i, 8) :: (
        if !pteV e || e.getLsbD 57 || field e 11 5 != 0 then []
        else if pteLeaf e then
          let n := 2 ^ (if l = 0 then min 8 (pteSize e) else min 8 (pteSize e - 9))
          [(table + 8 * (i / n * n), 8 * n)]
        else walkReads s va r (ptePa e))

/-- Some workgroup has mapped a stash region. -/
def anyStash (s : State) : Bool := s.wgs.any (fun e => !e.2.stash.isEmpty)

/-- The walks of some ranges have read page tables: dirty stash lines that hold entries have been written back before (R157). -/
def tablesSeen (s : State) (d : BitVec 1024) (ps : List (Nat × Nat)) : State :=
  if !anyStash s then s
  else ps.foldl (fun s p =>
    if 2 ^ 57 ≤ p.1 ∨ inHeap d p.1 then s
    else (walkReads s p.1 [4, 3, 2, 1, 0] (dPtRoot d)).foldl (fun s r => flushRange s none r.1 r.2 false) s) s

/-- Translate some bytes of one 4 KiB unit through a context's heap and page tables, with no lease: physical address and
ordering kind (R154, R160, R161). -/
def ctxXlate (s : State) (ctx : Nat) (d : BitVec 1024) (n : Need) (va size : Nat) : Except XErr (Nat × Nat) :=
  let fin (pa ord : Nat) : Except XErr (Nat × Nat) := if reachOk s ctx pa size then .ok (pa, ord) else .error .phys
  if 2 ^ 57 ≤ va then .error .phys
  else if inHeap d va then fin (heapPa d va) 0
  else
    match walkFrom s va [4, 3, 2, 1, 0] (dPtRoot d) with
    | .error e => .error e
    | .ok e => if pteAllows e n then fin (leafPa e va) (pteOrd e) else .error .perm

/-- The first byte of a piece whose translation fails: where its first byte translates, it is that of the next 2 MiB granule
of the physical address. -/
def failsAt (s : State) (ctx : Nat) (d : BitVec 1024) (n : Need) (va : Nat) : Nat :=
  match ctxXlate s ctx d n va 1 with
  | .ok (pa, _) => va + (2 ^ 21 - pa % 2 ^ 21)
  | .error _ => va

/-! Timeline counters (R179). -/

/-- A timeline counter takes the completion of an operation: the count is the largest n for which 1 to n have all
completed (R179). -/
def tlComplete (t : Tl) (n : Nat) : Tl :=
  let done := (n :: t.done)
  let v := (List.range (done.length + 1)).foldl (fun v _ => if done.contains (v + 1) then v + 1 else v) t.value
  { t with value := v, done := done.filter (fun x => decide (v < x)) }

/-- The handle of a context's snapshot engine (R180). -/
def snapHandle : Nat := 5 * 2 ^ 28

/-- A context's timeline counter. -/
def tlOf (s : State) (ctx h : Nat) : Tl := tgetD ⟨0, [], 0⟩ (ctxRec s ctx).tl h

/-- Replace a context's timeline counter. -/
def setTl (s : State) (ctx h : Nat) (t : Tl) : State :=
  let c := ctxRec s ctx
  setCtx s ctx { c with tl := tput c.tl h t }

/-! Mailboxes (17 R274). -/

/-- Bound mailboxes whose doorbell a physical range touches (17 R274). -/
def doorbells (s : State) (a n : Nat) : List Nat :=
  (s.mailboxes.filter (fun e => decide (a < e.2.pa + 8) && decide (e.2.pa < a + n))).map (·.1)

/-- Arrivals at mailboxes follow at once (R274). -/
def ringDoorbells (s : State) (ms : List Nat) : State :=
  { s with events := s.events ++ ms.map (fun m => .mailboxArrival m) }

/-! Snapshots (R183, R184). -/

/-- The lines of the snapshots in progress that a physical range touches and that are still to be copied: context,
physical address and area address. -/
def snapHits (s : State) (pa n : Nat) : List (Nat × Nat × Nat) :=
  s.ctxs.flatMap (fun e => match e.2.snap with
    | none => []
    | some sn => (sn.todo.filter (fun t => decide (t.1 < pa + n) && decide (pa < t.1 + 128))).map (fun t => (e.1, t)))

/-- The number of lines that the snapshots in progress have still to copy. -/
def snapTodo (s : State) : Nat := s.ctxs.foldl (fun n e => n + ((e.2.snap.map (fun sn => sn.todo.length)).getD 0)) 0

/-- A snapshot with nothing left to copy is complete: the counter advances (R184). -/
def snapFinish (s : State) (ctx : Nat) : State :=
  match (ctxRec s ctx).snap with
  | some ⟨[]⟩ =>
    let s := setCtx s ctx { ctxRec s ctx with snap := none }
    let t := tlOf s ctx snapHandle
    setTl s ctx snapHandle (tlComplete t (t.value + 1))
  | _ => s

/-- Lines have changed with no conflicting access: a take that has read one shows the point before the change from then on,
and a read that no longer can do so aborts it (19 R289; log 103). -/
def staleTakes (s : State) (p : Nat → Bool) : State :=
  { s with warps := s.warps.map (fun e => (e.1, { e.2 with take := e.2.take.map (fun tk =>
      if tk.readSet.any p then { tk with stale := true } else tk) })) }

/-- Copy one line of a context's snapshot to its area (R184). The write of the area is one like any other: stashes give
the line up, another snapshot copies it first, doorbells ring; but it is no conflicting access (19 R288), and takes that
have read the area are only stale after a change of its bytes (R289). Fuel bounds the lines that snapshots copy for each
other. -/
def snapLine : Nat → State → Nat × Nat × Nat → State
  | 0, s, _ => s
  | fuel + 1, s, (ctx, pa, area) =>
    match (ctxRec s ctx).snap with
    | none => s
    | some sn =>
      if !sn.todo.contains (pa, area) then s
      else
        let s := setCtx s ctx { ctxRec s ctx with snap := some ⟨sn.todo.filter (· != (pa, area))⟩ }
        let s := flushRange (flushRange s none pa 128 false) none area 128 true
        let s := (snapHits s area 128).foldl (snapLine fuel) s
        let s := if memBytes s.mem pa 128 = memBytes s.mem area 128 then s
          else staleTakes s (fun n => (linesOf area 128).contains n)
        let s := carryPoison (plainStore s area (memBytes s.mem pa 128)) pa area 128
        snapFinish (ringDoorbells s (doorbells s area 128)) ctx

/-- The copy before a first write to lines of a snapshot (R184). -/
def snapBefore (s : State) (pa n : Nat) : State := (snapHits s pa n).foldl (snapLine (snapTodo s + 1)) s

/-! Writes and reads as other agents see them. -/

/-- Who makes an access: its workgroup, and the warp whose take's members make it. -/
structure Who where
  wg : Option Nat
  own : Option Nat
deriving DecidableEq, Repr

/-- An agent outside every grid. -/
def outside : Who := ⟨none, none⟩

/-- The stash line that serves an agent's access. -/
def ownStash (s : State) (who : Who) (va : Nat) : Option (Nat × Nat × Nat) := who.wg.bind (fun g => stashAt s g va)

/-- A conflicting access to every line of a range (19 R288). -/
def conflicts (s : State) (own : Option Nat) (pa n : Nat) : State :=
  (linesOf pa n).foldl (fun s l => conflict s own l) s

/-- Write bytes within one virtual line of global memory, mailboxes aside: other stashes give the line up, a snapshot
copies it first, and takes that watch it abort (R157, R184, R288). A store into the agent's own stash line is noted as one
of the values that its place in memory has held (R105, R191). -/
def writeQuiet (s : State) (who : Who) (va pa : Nat) (bs : List Byte) : State :=
  let own := ownStash s who va
  let s := snapBefore (flushRange s own pa bs.length true) pa bs.length
  let s := conflicts s who.own pa bs.length
  match own with
  | some h =>
    let s := fillLine s who.own h
    let s := logBytes s pa (lmBytes s h.1 (stashOff s h va) bs.length) bs
    dirtyLine (lmStore s h.1 (stashOff s h va) bs) h
  | none => plainStore s pa bs

/-- Write bytes within one virtual line of global memory; a bound doorbell gets its arrival (R274). -/
def writeGlobal (s : State) (who : Who) (va pa : Nat) (bs : List Byte) : State :=
  ringDoorbells (writeQuiet s who va pa bs) (doorbells s pa bs.length)

/-- Read bytes within one virtual line of global memory, through the agent's stash or past everyone else's (R157). -/
def readGlobal (s : State) (who : Who) (va pa n : Nat) : List Byte × State :=
  match ownStash s who va with
  | some h =>
    let s := fillLine s who.own h
    (lmBytes s h.1 (stashOff s h va) n, s)
  | none =>
    let s := flushRange s none pa n false
    (memBytes s.mem pa n, s)

/-- Write bytes of LM; takes that watch their line abort (R288). -/
def writeLm (s : State) (own : Option Nat) (wg off : Nat) (bs : List Byte) : State :=
  lmStore (conflict s own (lmPlace wg off / 128)) wg off bs

/-- Write bytes at a physical address for an agent outside every grid, line by line. -/
def writePhys (s : State) (pa : Nat) (bs : List Byte) : State :=
  let s := (List.range bs.length).foldl
    (fun st i => writeQuiet st outside (pa + i) (pa + i) [bs.getD i 0]) s
  ringDoorbells s (doorbells s pa bs.length)

/-- Read bytes at a physical address for an agent outside every grid. -/
def readPhys (s : State) (pa n : Nat) : List Byte × State :=
  let s := flushRange s none pa n false
  (memBytes s.mem pa n, s)

/-- The writes that the capture unit and the lead have handed to memory reach it as any agent's (23 R344, 29 R401). -/
def performPosted (s : State) : State := s.posted.foldl (fun s x => writePhys s x.1 x.2) { s with posted := [] }

end Sys2Proof.Machine
end

