-- ==== Sys2Proof/Machine/Dir.lean ====
section
/-! DEFINITION. Records that units of a core keep for threads: tasks (17 R251 to R253), the key directory and censuses
(19 R298 to R309), waiting claims of register granules (03 R49 to R52), barriers (13 R198 to R201). -/

namespace Sys2Proof.Machine

/-! Cores. -/

/-- A core is enabled (29 R410). -/
def coreOn (s : State) (c : Nat) : Bool :=
  s.dieEn.getLsbD (dieOf c) && (tgetD 0 s.coreEn (dieOf c)).getLsbD (c % 64)

/-- A link is enabled (R410). -/
def linkOn (s : State) (l : Nat) : Bool := s.linkEn.getLsbD l && s.dieEn.getLsbD (l / 8)

/-- A link is up (25 R352). -/
def linkUpNow (s : State) (l : Nat) : Bool := linkOn s l && (linkRec s l).stat.getLsbD 31

/-- The lowest-numbered link of a die that is up. -/
def dieLink (s : State) (d : Nat) : Option Nat := ((List.range 8).map (8 * d + ·)).find? (linkUpNow s)

/-- Hand a packet that the commons nodes distribute to the fabric, through the lowest-numbered link of a die that is up: it
names the node at that link (25 R350, R380; log 96). -/
def sendNode (s : State) (kind die : Nat) (fields : List Nat) (data : List Byte) : State :=
  let l := (dieLink s die).getD 0
  sendFabric s kind (field (linkRec s l).stat 23 12) l 0 fields data

/-- Hand a gate packet to the fabric: to the package of GATEFID, or from it to every other (01 R31; log 96). -/
def sendGate (s : State) (rank gfid : Nat) (mkey : DWord) (fields : List Nat) (data : List Byte) : State :=
  if rank = 0 then sendNode s 10 0 (gfid :: mkey.toNat :: fields) data
  else sendFabric s 10 gfid ((dieLink s 0).getD 0) 0 (gfid :: mkey.toNat :: fields) data

/-! Claims (R49 to R52). -/

/-- The number of granules in a set. -/
def granules (g : BitVec 4) : Nat := ((List.range 4).filter (fun i => g.getLsbD i)).length

/-- Frames of a core's pool in use: those of its warps and of its reform bins (R49, R53). -/
def framesUsed (s : State) (c : Nat) : Nat :=
  (s.warps.filter (fun e => coreOf e.1 == c)).foldl (fun n e => n + granules e.2.claimed) 0 +
    (coreRec s c).bins.foldl (fun n e => n + granules e.2.claimed) 0

/-- A register lies in one of the granules of a set (R50). -/
def inGranules (g : BitVec 4) (r : Nat) : Bool := decide (64 ≤ r) && decide (r < 192) && g.getLsbD ((r - 64) / 32)

/-- A granted granule reads zero in every lane (R51). -/
def zeroGranules (v : Tbl Word) (g : BitVec 4) : Tbl Word := v.filter (fun e => !inGranules g (e.1 / 32))

/-- A warp whose claimed granules are now these, where those of a mask come or go: their registers read zero, and no mark of
data beyond repair stays on them (R49, R51, 29 R408). -/
def regranule (w : Warp) (claimed g : BitVec 4) : Warp :=
  { w with claimed := claimed, v := zeroGranules w.v g, spoilt := w.spoilt.filter (fun p => !inGranules g (p / 32)) }

/-- A word counts in RETIRED (R64). -/
def countRetired (s : State) (wg : Nat) : State :=
  match tget s.wgs wg with
  | none => s
  | some g => setWg s wg { g with retired := g.retired + 1 }

/-- Grant the waiting claims of a core in request order while frames are free, each a word that retires now (R51, R64): fuel is
the length of the queue. -/
def grantClaims (s : State) (c : Nat) : Nat → State
  | 0 => s
  | n + 1 =>
    match (coreRec s c).claims with
    | [] => s
    | (x, g) :: r =>
      let k := x / 2 ^ 32
      let m : Mask := BitVec.ofNat 32 x
      match tget s.warps k with
      | none => grantClaims (setCore s c { coreRec s c with claims := r }) c n
      | some w =>
        if framesUsed s c + granules g ≤ 128 then
          let s := setCore s c { coreRec s c with claims := r }
          let s := setWarp s k (regranule w (w.claimed ||| g) g)
          grantClaims (releaseLanes (countRetired s w.wg) k m) c n
        else s

/-- Grant whatever claims a core's pool now allows. -/
def grantAll (s : State) (c : Nat) : State := grantClaims s c (coreRec s c).claims.length

/-! Barriers (13 R198 to R201). -/

/-- A barrier object of a workgroup: at its reset value where nothing has touched it (R198). -/
def barOf (w : Workgroup) (n : Nat) : Barrier := (tget w.bars n).getD (Barrier.fresh w.alive)

/-- The completion of a phase: phase + 1, arrivals 0, and the phase of R56 ends (R198). -/
def barComplete (w : Workgroup) (n : Nat) (b : Barrier) : Workgroup :=
  { w with bars := tput w.bars n { b with phase := b.phase + 1, arrived := 0, initBy := none }, phase := w.phase + 1 }

/-- One arrival at a barrier (R200). -/
def barArrive (w : Workgroup) (n : Nat) : Workgroup :=
  let b := barOf w n
  let b := { b with arrived := b.arrived + 1 }
  if b.count ≤ b.arrived then barComplete w n b else { w with bars := tput w.bars n b }

/-- A barrier object after a thread of the workgroup has executed EXIT: at its default count it loses one, which may
complete a phase (R201). An object that nothing has touched reads as its reset value and stays unlisted. -/
def barLose (w : Workgroup) (n : Nat) : Workgroup :=
  match tget w.bars n with
  | none => if w.alive = 0 then barComplete w n (Barrier.fresh 0) else w
  | some b =>
    if b.deflt then
      let b := { b with count := b.count - 1 }
      if b.count ≤ b.arrived then barComplete w n b else { w with bars := tput w.bars n b }
    else w

/-- A thread executes EXIT: every barrier at its default count loses one (R201); nbar is the number of objects that the
workgroup may use (R198). -/
def barExit (nbar : Nat) (w : Workgroup) : Workgroup := (List.range nbar).foldl barLose { w with alive := w.alive - 1 }

/-- A barrier has completed a phase (R200). -/
def barDone (w : Workgroup) (n ph : Nat) : Bool := decide (ph < (barOf w n).phase)

/-! Tasks (17 R251 to R253). -/

/-- Task records of a context in its spill area: those beyond the 1,024 that a core holds on chip, and of saved workgroups
those that did not stand on chip (R253, 21 R325). -/
def spilledTasks (s : State) (ctx : Nat) : Nat :=
  s.cores.foldl (fun n e => n + ((e.2.tasks.drop 1024).filter (fun t => ctxOfWg s t.wg == ctx)).length) 0 +
    (ctxRec s ctx).saved.foldl (fun n g => n + (g.tasks.filter (·.spilled)).length) 0

/-- A further task record of a workgroup finds room on chip or in the spill area (R253). -/
def taskRoom (s : State) (wg : Nat) : Bool :=
  match tget s.wgs wg, gridOfWg s wg with
  | some w, some g =>
    (match w.core with
      | some c => decide ((coreRec s c).tasks.length < 1024)
      | none => false) || decide (spilledTasks s g.ctx < field g.desc 639 608 * 64)
  | _, _ => false

/-- What a task that becomes ready now notes: the clock, or while its owner is saved an age of zero (R254, R278). -/
def readyClock (s : State) (wg : Nat) : Nat := match (tget s.wgs wg).bind (·.core) with
  | some c => wgClock s c wg
  | none => 0

/-- Create a task of an owner workgroup, with the next task serial (R252, R253); a saved owner's task goes to the spill
area (R278). -/
def createTask (s : State) (wg : Nat) (pc : DWord) (args : List Word) (wid : DWord) (waits : Option Word)
    (responder : Bool) (cen : Option (Nat × Nat)) : State :=
  match tget s.wgs wg with
  | none => s
  | some w =>
    let t : Task := ⟨wg, w.nextSerial, pc, args, wid, waits, readyClock s wg, responder, cen, none, w.core.isNone⟩
    let s := setWg s wg { w with nextSerial := (w.nextSerial + 1) % 2 ^ 32 }
    match w.core with
    | some c => setCore s c { coreRec s c with tasks := (coreRec s c).tasks ++ [t] }
    | none =>
      let ctx := ctxOfWg s wg
      let x := ctxRec s ctx
      setCtx s ctx { x with saved := x.saved.map (fun g => if g.wg == wg then { g with tasks := g.tasks ++ [t] } else g) }

/-! Censuses (R302 to R309). -/

/-- Change the census with a given number, wherever it is kept. -/
def updCensus (s : State) (id : Nat) (f : Census → Census) : State :=
  let g (t : Tbl Census) : Tbl Census := t.map (fun e => if e.2.id == id then (e.1, f e.2) else e)
  { s with
    cores := s.cores.map (fun e => (e.1, { e.2 with census := g e.2.census }))
    forwarded := g s.forwarded
    ctxs := s.ctxs.map (fun e => (e.1, { e.2 with saved := e.2.saved.map (fun x => { x with census := g x.census }) })) }

/-- An entry that a census still awaits answers it with a withdrawn response (R305). -/
def withdraw (s : State) (id entry : Nat) : State :=
  updCensus s id (fun c => if c.due.any (fun d => d.1 == entry) then
    { c with due := c.due.filter (fun d => d.1 != entry), wd := c.wd + 1 } else c)

/-- The responder tasks of an entry that have not started are discarded (R305). -/
def dropResponders (s : State) (entry : Nat) : State :=
  let keep (t : Task) : Bool := !(t.responder && (t.census.map (·.2)) == some entry)
  { s with
    cores := s.cores.map (fun e => (e.1, { e.2 with tasks := e.2.tasks.filter keep }))
    ctxs := s.ctxs.map (fun e => (e.1, { e.2 with
      saved := e.2.saved.map (fun x => { x with tasks := x.tasks.filter keep }) })) }

/-- An entry leaves its directory for good: every census that awaits it gets a withdrawn response (R305). -/
def entryGone (s : State) (e : KEntry) : State :=
  dropResponders (e.answered.foldl (fun s id => withdraw s id e.id) s) e.id

/-- Remove the entries of a core's directory that satisfy a condition (R305, R309). -/
def removeEntries (s : State) (c : Nat) (p : KEntry → Bool) : State :=
  let gone := (coreRec s c).kdir.filter p
  let s := setCore s c { coreRec s c with kdir := (coreRec s c).kdir.filter (fun e => !p e) }
  gone.foldl entryGone s

/-- The enabled cores that a scope contains, taken from an asker's core (R170, R303). -/
def scopeCores (s : State) (scope c : Nat) : List Nat :=
  ((List.range 256).filter (coreOn s)).filter (fun x =>
    match scope with
    | 3 => x / 4 == c / 4
    | 4 => x / 64 == c / 64
    | _ => true)

/-- Two cores lie in a census's scope (R304). -/
def inCensusScope (cen : Census) (x : Nat) : Bool :=
  match cen.scope with
  | 3 => x / 4 == cen.core / 4
  | 4 => x / 64 == cen.core / 64
  | _ => true

/-- The context of an entry: that of its owner (R298). -/
def entryCtx (s : State) (e : KEntry) : Nat := ctxOfWg s e.owner

/-- A census matches an entry by key and context (R303). -/
def censusHits (s : State) (cen : Census) (e : KEntry) : Bool := e.key == cen.key && cen.ctxs.contains (entryCtx s e)

/-- A census is complete (R307): every arrival point reached, every due response received, no matching entry in transit
within its scope that has not answered, and the fabric's report in. -/
def censusComplete (s : State) (cen : Census) : Bool :=
  cen.todo.isEmpty && cen.due.isEmpty && cen.fabricDone &&
    s.transit.all (fun t => !(censusHits s cen t.2.entry && !t.2.entry.answered.contains cen.id &&
      inCensusScope cen t.2.target))

/-- The lowest free census slot of a core (R302). -/
def freeSlotOf (c : Core) : Option Nat := (List.range 64).find? (fun i => (tget c.census i).isNone)

/-- The next serial of a census slot (R302). -/
def nextSerial (n : Nat) : Nat := if n = 65535 then 1 else n + 1

/-- The census identifier (R302). -/
def censusWord (serial core slot : Nat) : Word := BitVec.ofNat 32 (serial * 2 ^ 16 + core * 2 ^ 8 + slot)

/-- Start one census of a workgroup in a free slot: its identifier, and the package with the census (R302, 25 R380). -/
def startCensus (s : State) (wg c slot : Nat) (key : DWord) (arg : Word) (op scope : Nat) : Word × State :=
  let cr := coreRec s c
  let serial := nextSerial (tgetD 0 cr.censusSerial slot)
  let word := censusWord serial c slot
  let ctx := ctxOfWg s wg
  let out := scope == 6 && (dieLink s (dieOf c)).isSome
  let fg := match gridOfWg s wg with
    | some g => field g.desc 58 47
    | none => 0
  let (id, s) := freshId s
  let cen : Census := ⟨id, word, ctx, [ctx], wg, c, key, arg, op, scope, scopeCores s scope c, [], [], 0, !out, none, s.fid.getD 0⟩
  let s := setCore s c { cr with census := tput cr.census slot cen, censusSerial := tput cr.censusSerial slot serial }
  (word, if out then sendNode s 7 (dieOf c) [key.toNat, arg.toNat, op, word.toNat, s.fid.getD 0, fg] [] else s)

end Sys2Proof.Machine
end

