-- ==== Sys2Proof/Machine/Moves.lean ====
section
/-! DEFINITION. Reading and writing a place for a workgroup, and the moves of a copy (13 R202 to R204): its sources are
read, its bytes written, its token completed. -/

namespace Sys2Proof.Machine

/-- Read a place for a workgroup; own names the warp whose take's members read. -/
def readLocFor (s : State) (wg : Nat) (own : Option Nat) (x : Loc) (n : Nat) : List Byte × State :=
  if x.lm then (lmBytes s x.wg x.va n, s) else readGlobal s ⟨some wg, own⟩ x.va x.pa n

/-- Read a place for a workgroup. -/
def readLoc (s : State) (wg : Nat) (x : Loc) (n : Nat) : List Byte × State := readLocFor s wg none x n

/-- Write a place for a workgroup; own names the warp whose take's members write. -/
def writeLoc (s : State) (wg : Nat) (own : Option Nat) (x : Loc) (bs : List Byte) : State :=
  if x.lm then writeLm s own x.wg x.va bs else writeGlobal s ⟨some wg, own⟩ x.va x.pa bs

/-- The write of a copied byte; arrivals at mailboxes follow the whole copy (R274). -/
def moveByte (s : State) (wg : Nat) (x : Loc) (b : Byte) : State :=
  if x.lm then writeLm s none x.wg x.va [b] else writeQuiet s ⟨some wg, none⟩ x.va x.pa [b]

/-- The bytes that a copy's moves write: every source is read first (R203). -/
def moveReads (s : State) (wg : Nat) : List Move → List Byte × State
  | [] => ([], s)
  | m :: r =>
    let (b, s) := match m.src with
      | none => (m.fill, s)
      | some x =>
        let (bs, s) := readLoc s wg x 1
        (bs.headD 0, s)
    let (bs, s) := moveReads s wg r
    (b :: bs, s)

/-- Write a copy's bytes in order. -/
def moveWrites (s : State) (wg : Nat) : List Move → List Byte → State
  | m :: r, b :: bs => moveWrites (moveByte s wg m.dst b) wg r bs
  | _, _ => s

/-- Perform a copy's moves; each bound mailbox whose doorbell lies in the destination has one arrival (R274). -/
def performMoves (s : State) (wg : Nat) (ms : List Move) : State :=
  let (bs, s) := moveReads s wg ms
  let s := moveWrites s wg ms bs
  ringDoorbells s ((ms.flatMap (fun m => if m.dst.lm then [] else doorbells s m.dst.pa 1)).dedup)

/-- A token is written with its operation number, in the warp that waits for it, and in the checkpoint of a take that
opened meanwhile (R202, R284). -/
def tokenDone (s : State) (x : Copy) : State :=
  { s with warps := s.warps.map (fun e =>
      if e.2.pend.any (fun p => p.id == x.pendId) then
        let v := BitVec.ofNat 32 x.n
        let w := { e.2 with pend := e.2.pend.filter (fun p => p.id != x.pendId)
                            w := tputD 0 e.2.w (x.token.toNat - 192) v }
        (e.1, match w.take with
          | none => w
          | some tk =>
            if tk.ckPend.contains x.pendId then
              { w with take := some { tk with ckW := tputD 0 tk.ckW (x.token.toNat - 192) v } }
            else w)
      else e) }

/-- The first byte beyond repair that a copy reads (29 R408). -/
def copyPoison (s : State) (x : Copy) : Option Nat :=
  x.moves.findSome? (fun m => match m.src with
    | some l => if (if l.lm then poisoned s l.pa 1 else dataPoisoned s x.wg l.va l.pa 1) then some l.va else none
    | none => none)

/-- The first address that a copy reads in fabric memory. -/
def copyRemote (s : State) (x : Copy) : Option Nat := x.moves.findSome? (fun m => match m.src with
  | some l => if !l.lm && remoteAt s x.wg l.va l.pa then some l.va else none
  | none => none)

/-- The clocks within which an access to fabric memory returns: 20 µs (21 R334). -/
def remoteLimit : Nat := 20 * usClocks

/-- A copy that reads fabric memory has not returned in time: the address (R334). -/
def copyLate (s : State) (c : Nat) (x : Copy) : Option Nat :=
  if x.issued + remoteLimit < cycleOf s (dieOf c) then copyRemote s x else none

/-- A copy whose workgroup's gang retires: what it reads from LM it has read, and what it writes to LM nobody sees any
more (R46, R324). -/
def detachCopy (s : State) (x : Copy) : Copy :=
  { x with moves := x.moves.filterMap (fun m => if m.dst.lm then none else match m.src with
      | some l => if l.lm then some { m with src := none, fill := (lmBytes s l.wg l.va 1).headD 0 } else some m
      | none => some m) }

end Sys2Proof.Machine
end

