-- ==== Sys2Proof/Machine/Ops.lean ====
section
/-! DEFINITION. The machine's shared operations: a command queue's status block and records (27 R386, 21 R333), the end
of a grid by a fault, kill or reset as ONE operation (01 R41 to R46, 21 R324), the end of lanes, warps, workgroups and
gangs (R28, R52, R257), the entry into a trap handler and the return from it (21 R327, R328, R331), and the issue of a
lane word (21 R326, 03 R67). -/

namespace Sys2Proof.Machine

/-! Virtual memory of a context, as the command processor and the splicers use it (27 R385). -/

/-- A virtual range cut at 4 KiB boundaries: address and length of each piece. -/
def vPieces (va n : Nat) : List (Nat × Nat) :=
  (List.range (n / 4096 + 2)).filterMap (fun i =>
    let a := max va ((va / 4096 + i) * 4096)
    let b := min (va + n) ((va / 4096 + i + 1) * 4096)
    if a < b then some (a, b - a) else none)

/-- Translate a whole range: virtual address, physical address and length of each piece, or the first failure with its
address. -/
def vXlate (s : State) (ctx : Nat) (d : BitVec 1024) (n : Need) : List (Nat × Nat) →
    Except (XErr × Nat) (List (Nat × Nat × Nat))
  | [] => .ok []
  | (a, l) :: r =>
    match ctxXlate s ctx d n a l with
    | .error e => .error (e, failsAt s ctx d n a)
    | .ok (pa, _) =>
      match vXlate s ctx d n r with
      | .error e => .error e
      | .ok ps => .ok ((a, pa, l) :: ps)

/-- Read translated pieces. -/
def readPieces (s : State) : List (Nat × Nat × Nat) → List Byte × State
  | [] => ([], s)
  | (_, pa, l) :: r =>
    let (b, s) := readPhys s pa l
    let (bs, s) := readPieces s r
    (b ++ bs, s)

/-- Write translated pieces. -/
def writePieces (s : State) : List (Nat × Nat × Nat) → List Byte → State
  | [], _ => s
  | (_, pa, l) :: r, bs => writePieces (writePhys s pa (bs.take l)) r (bs.drop l)

/-- A virtual range of a context has been read: what dirty stash lines hold of it, and of the page tables that its
translation reads, has been written back before (11 R157). -/
def rangeSeen (s : State) (ctx : Nat) (d : BitVec 1024) (va n : Nat) : State :=
  if !anyStash s then s
  else
    let s := tablesSeen s d (vPieces va n)
    match vXlate s ctx d needR (vPieces va n) with
    | .error _ => s
    | .ok ps => (readPieces s ps).2

/-- Read a virtual range of a context. -/
def vRead (s : State) (ctx : Nat) (d : BitVec 1024) (va n : Nat) : Except (XErr × Nat) (List Byte × State) :=
  match vXlate s ctx d needR (vPieces va n) with
  | .error e => .error e
  | .ok ps => .ok (readPieces s ps)

/-- Write a virtual range of a context. -/
def vWrite (s : State) (ctx : Nat) (d : BitVec 1024) (va : Nat) (bs : List Byte) : Except (XErr × Nat) State :=
  match vXlate s ctx d needW (vPieces va bs.length) with
  | .error e => .error e
  | .ok ps => .ok (writePieces s ps bs)

/-! Command queues: status block and range table (R385, R386). -/

/-- Fields of a command-queue descriptor (R385). -/
def qCtx (d : BitVec 512) : Nat := field d 47 36
def qEn (d : BitVec 512) : Bool := d.getLsbD 0
def qPrio (d : BitVec 512) : Nat := field d 35 34
def qLog (d : BitVec 512) : Nat := field d 33 29
def qMask (d : BitVec 512) : Nat := field d 63 48
def qBase (d : BitVec 512) : Nat := field d 255 192
def qRptr (d : BitVec 512) : Nat := field d 287 256
def qWptr (d : BitVec 512) : Nat := field d 319 288
def qStatus (d : BitVec 512) : Nat := field d 383 320
def qArng (d : BitVec 512) : Nat := field d 511 448
def qAcnt (d : BitVec 512) : Nat := field d 447 442

/-- Lease-format entries from their bytes (R165). -/
def entriesOf (bs : List Byte) : List (BitVec 128) :=
  (List.range (bs.length / 16)).map (fun i => BitVec.ofNat 128 (leNat ((bs.drop (16 * i)).take 16)))

/-- The range table of a command queue; a table that cannot be read grants nothing (R385). -/
def qRanges (s : State) (q : Queue) : List (BitVec 128) :=
  let ctx := qCtx q.desc
  match vRead s ctx (descOf s ctx) (qArng q.desc) (16 * qAcnt q.desc) with
  | .ok (bs, _) => entriesOf bs
  | .error _ => []

/-- The range table of a command queue has been read (11 R157). -/
def rangesSeen (s : State) (q : Queue) : State :=
  rangeSeen s (qCtx q.desc) (descOf s (qCtx q.desc)) (qArng q.desc) (16 * qAcnt q.desc)

/-- A range table grants a permission on a whole range, cut at the 4 KiB units of its entries (R165, R389). -/
def rangeOk (es : List (BitVec 128)) (n : Need) (va len : Nat) : Bool :=
  (vPieces va len).all (fun p => leaseAllows es n p.1)

/-- QSTAT (R386). -/
def qstat (q : Queue) : Nat := min q.parks (2 ^ 32 - 1) * 2 ^ 32 + q.err % 256 * 2 ^ 24 + q.st % 16 * 2 ^ 20

/-- The bytes of a status block (R386). -/
def statusBytes (q : Queue) : List Byte :=
  leBytes 64 q.record.toNat ++ leBytes 8 (qstat q) ++ leBytes 8 q.lastSerial ++ leBytes 8 q.haltAddr ++
    List.replicate 40 0

/-- Write a queue's status block, if it has one that can be written (R386). -/
def writeStatus (s : State) (q : Nat) : State :=
  let x := queueRec s q
  let va := qStatus x.desc
  let ctx := qCtx x.desc
  let s := if va = 0 then s else tablesSeen (rangesSeen s x) (descOf s ctx) (vPieces va 128)
  if va = 0 ∨ ¬ rangeOk (qRanges s x) needW va 128 then s
  else match vWrite s ctx (descOf s ctx) va (statusBytes x) with
    | .ok s => s
    | .error _ => s

/-- Replace a queue's record and write its status block. -/
def putQueue (s : State) (q : Nat) (x : Queue) : State := writeStatus (setQueue s q x) q

/-- The packet at hand is over: what the host has written into the descriptor since it began takes effect (R399), and no
wait slot is held or wanted. -/
def packetOver (x : Queue) : Queue :=
  { x with desc := x.fresh.getD x.desc, fresh := none, slot := none, wants := none }

/-- The packet at hand has executed: the queue stands at the next one, and RPTR follows the ring (R385, R390). -/
def packetDone (x : Queue) : Queue :=
  let x := { packetOver x with launching := none, st := 1 }
  match x.levels with
  | [l] => { x with desc := setField x.desc 287 256 (l.pos % 2 ^ qLog x.desc) }
  | _ => x

/-! Fault records (R333). -/

/-- What a fault record says of the faulting unit. -/
structure Blame where
  cause : Nat
  fpc : Nat
  faddr : Nat
  wg : Nat
  thread : Nat
  tcode : Nat
  src : Nat
  die : Nat
  core : Nat
  slot : Nat
  lane : Nat
deriving DecidableEq, Repr

/-- A record that names no unit but the command processor (R333). -/
def cpBlame (cause : Nat) : Blame := ⟨cause, 0, 0, 0, 0, 0, 6, 0, 0, 0, 0⟩

/-- The fault record of a grid (R333); for a confidential context every field but CAUSE[6:4], GRID and TIME is sealed. -/
def faultRecord (conf : Option Nat) (time grid supp pkg : Nat) (b : Blame) : BitVec 512 :=
  let z (place width v : Nat) : Nat := (match conf with
    | some c => Config.sealed c place v
    | none => v) % 2 ^ width
  let cause := b.cause / 16 % 8 * 16 + z 10 4 (b.cause % 16)
  BitVec.ofNat 512 (cause + z 9 5 b.lane * 2 ^ 97 + z 8 6 b.slot * 2 ^ 102 + z 7 6 b.core * 2 ^ 108 +
    z 6 2 b.die * 2 ^ 114 + z 11 12 pkg * 2 ^ 116 + z 5 4 b.src * 2 ^ 132 + z 4 8 b.tcode * 2 ^ 136 +
    z 12 16 (min supp 65535) * 2 ^ 144 + z 3 32 b.thread * 2 ^ 160 + z 2 64 b.wg * 2 ^ 192 +
    z 1 64 b.faddr * 2 ^ 256 + z 0 64 b.fpc * 2 ^ 320 + grid % 2 ^ 64 * 2 ^ 384 + time % 2 ^ 64 * 2 ^ 448)

/-- The queue of an ended grid or a refused launch writes its record, raises the event of KIND 0x01 and goes on to its
next launch (R44, R386, R401). -/
def recordOnQueue (s : State) (q ctx serial die : Nat) (rec : BitVec 512) : State :=
  let x := queueRec s q
  let x := { x with record := rec }
  let x := if x.launching = some serial then packetDone { x with conds := [] } else x
  hostEvent (putQueue s q x) 1 (serial % 2 ^ 64 + q * 2 ^ 64) ctx die

/-! The end of units. -/

/-- The confidential context of a grid, if it is one. -/
def gridConf (g : Grid) : Option Nat := if g.desc.getLsbD 3 then some g.ctx else none

/-- The handle of a core's sequencer (R180, R222). -/
def seqHandle (c : Nat) : Nat := 2 ^ 28 + dieOf c * 2 ^ 26 + c % 64 * 2 ^ 20

/-- An operation of a sequencer is complete: on the context's counter of its core, and on those of the cores from which a
restore has brought it (15 R222). -/
def seqOpDone (s : State) (c : Nat) (q : Seq) (n : Nat) : State :=
  let ctx := ctxOfWg s q.wg
  (seqHandle c :: q.homes).foldl (fun s h => setTl s ctx h (tlComplete (tlOf s ctx h) n)) s

/-- Every operation in flight of a sequencer counts as completed when its holder goes (15 R222). -/
def seqFlightDone (s : State) (c : Nat) (q : Seq) : State :=
  q.flight.foldl (fun s e => seqOpDone s c q e.1) s

/-- A core's sequencer and matrix engine are released with their holder (R61, R324). -/
def releaseSeq (s : State) (c : Nat) (p : Nat → Bool) : State :=
  match (coreRec s c).seq with
  | none => s
  | some q => if p q.wg then setCore (seqFlightDone s c q) c { coreRec s c with seq := none } else s

/-- Copies in flight of some workgroups are dropped; their counters go on (13 R215). -/
def dropCopies (s : State) (c : Nat) (p : Nat → Bool) : State :=
  let gone := (coreRec s c).copies.filter (fun x => p x.wg)
  let s := gone.foldl (fun s x =>
    let ctx := ctxOfWg s x.wg
    setTl s ctx x.handle (tlComplete (tlOf s ctx x.handle) x.n)) s
  setCore s c { coreRec s c with copies := (coreRec s c).copies.filter (fun x => !p x.wg) }

/-- The censuses that the responders of a warp have yet to answer. -/
def owed (w : Warp) : List (Nat × Nat) := w.threads.filterMap (fun t => if t.2.responded then none else t.2.census)

/-- Responders of some workgroups that have not responded give withdrawn responses (17 R279, R309). -/
def withdrawResponders (s : State) (p : Nat → Bool) : State :=
  let saved := s.ctxs.flatMap (fun e => e.2.saved.filter (fun x => p x.wg))
  let ts := s.cores.flatMap (fun e => e.2.tasks.filterMap (fun t => if p t.wg then t.census else none))
  let ws := s.warps.flatMap (fun e => if p e.2.wg then owed e.2 else [])
  let xs := saved.flatMap (fun x => x.tasks.filterMap (·.census) ++ x.warps.flatMap owed)
  (ts ++ ws ++ xs).foldl (fun s x => withdraw s x.1 x.2) s

/-- The units that some workgroups hold on a core go: bins, claims, tasks, handlers, sequencer, copies, directory
entries, census slots (R324). -/
def dropOnCore (s : State) (p : Nat → Bool) (c : Nat) : State :=
  let s := removeEntries s c (fun e => p e.owner)
  let s := releaseSeq s c p
  let s := dropCopies s c p
  let cr := coreRec s c
  let s := setCore s c { cr with
    bins := cr.bins.filter (fun b => !p b.2.wg)
    claims := cr.claims.filter (fun x => (tget s.warps (x.1 / 2 ^ 32)).isSome)
    tasks := cr.tasks.filter (fun t => !p t.wg)
    handlers := cr.handlers.filter (fun h => !p h.wg)
    census := cr.census.filter (fun x => !p x.2.wg)
    solWait := cr.solWait.filter (fun n => !p n.name.wg) }
  grantAll s c

/-- The operations in flight of the sequencers that are written out count as completed when their holders go (15 R222). -/
def savedFlights (s : State) (p : Nat → Bool) : State :=
  (s.ctxs.flatMap (fun e => e.2.saved.filter (fun x => p x.wg))).foldl (fun s x => match x.seq with
    | some q => seqFlightDone s x.core q
    | none => s) s

/-- Every unit and resource of some workgroups is discarded and reclaimed (R43, R52, R279, R324). -/
def dropUnits (s : State) (p : Nat → Bool) : State :=
  let s := savedFlights (withdrawResponders s p) p
  let s := { s with warps := s.warps.filter (fun e => !p e.2.wg) }
  let s := (s.cores.map (·.1)).foldl (fun s c => dropOnCore s p c) s
  let s := (s.transit.filter (fun t => p t.2.entry.owner)).foldl (fun s t => entryGone s t.2.entry) s
  { s with
    transit := s.transit.filter (fun t => !p t.2.entry.owner)
    hwqs := s.hwqs.map (fun e => (e.1, { e.2 with waiters := e.2.waiters.filter (fun w => !p w.name.wg) }))
    mailboxes := s.mailboxes.filter (fun e => !p e.2.wg)
    netMatch := s.netMatch.map (fun e => (e.1, (e.2.filter (fun m => m.claimed || !p m.wg)).map (fun m =>
      if p m.wg then { m with dead := true } else m)))
    ctxs := s.ctxs.map (fun e => (e.1, { e.2 with saved := e.2.saved.filter (fun x => !p x.wg) }))
    wgs := s.wgs.filter (fun e => !p e.1) }

/-- The start gate of a grid that has ended at the gate holder before it opened: at its deadline the other packages are told
that it has not opened (01 R32, R33). -/
def closeGate (s : State) (serial : Nat) (h : BitVec 1024) (deadline : Nat) : State :=
  { s with deadGates := tput s.deadGates serial (h, deadline) }

/-- Tell the other packages of a grid that it has ended (01 R31, R44). The failure of the gate holder itself before the gate
has opened is a missing acknowledgement (R33), unless it is the deadline that ends the grid. -/
def sendEnd (s : State) (serial : Nat) (g : Grid) (cause : Nat) (rec : BitVec 512) : State :=
  if !hMulti g.hdr then s
  else if g.rank = 0 ∧ g.gateOpen = false ∧ cause ≠ 0x49 then closeGate s serial g.hdr g.deadline
  else sendGate s g.rank (hGateFid g.hdr) (hMkey g.hdr) [g.rank, 3] (leBytes 64 rec.toNat)

/-- THE END OF A GRID by a fault, a kill, a deadline or a reset, on this package: its units are discarded, its deferred
adds too, and its queue takes the record (R41 to R45, R324). -/
def finishGrid (s : State) (serial : Nat) (rec : BitVec 512) (die : Nat) : State :=
  match tget s.grids serial with
  | none => s
  | some g =>
    let s := dropUnits s (fun wg => serialOf wg == serial)
    let s := { s with
      grids := tdel s.grids serial
      pageFaults := s.pageFaults.filter (fun f => f.1 != 64 + serial) }
    recordOnQueue s g.queue g.ctx serial die rec

/-- Where a fault stands among those of one clock: by core, and then by slot and with it by partition (R44). -/
def blameKey (b : Blame) : Nat := (64 * b.die + b.core) * 64 + b.slot

/-- The fault of one grid that is recorded among those of one clock (R44). -/
def firstBlame (b : Blame) (bs : List Blame) : Blame := bs.foldl (fun x y => if blameKey y < blameKey x then y else x) b

/-- The record's naming of a lane of a warp (R333). -/
def blameLane (k : Nat) (w : Warp) (l cause faddr tcode : Nat) (pc : DWord) : Blame :=
  ⟨cause, pc.toNat, faddr, wgNumber w.wg, ((thr w l).map (·.name.n)).getD 0, tcode, srcKind w, dieOf (coreOf k),
   coreOf k % 64, k % 64, l⟩

/-- The record that names an access of a warp that is still outstanding: its lane, its address and the word that made it
(R333, R334). -/
def pendBlame (k wg : Nat) (kind : WKind) (e : Pend) (cause l faddr : Nat) : Blame :=
  ⟨cause, e.pc.toNat, faddr, wgNumber wg, tgetD 0 e.names l, 0, srcOf kind, dieOf (coreOf k), coreOf k % 64, k % 64, l⟩

/-- The record of an access to fabric memory that has not returned in time: the access of its lowest lane (R334). -/
def lateBlame (k wg : Nat) (kind : WKind) (e : Pend) : Blame :=
  match e.lines with
  | x :: _ => pendBlame k wg kind e 0x1E x.1 x.2.1
  | [] => pendBlame k wg kind e 0x1E ((lowest e.lanes).getD 0) 0

/-- An access to fabric memory has not returned within 20 µs of its issue (R334). -/
def lateAccess (s : State) (k : Nat) (e : Pend) : Bool :=
  e.fabric && decide (e.issued + remoteLimit < cycleOf s (dieOf (coreOf k)))

/-- The record of a copy in flight that faults: it names the copy queue and the copy's word (R333, R334). -/
def copyBlame (x : Copy) (cause faddr : Nat) : Blame :=
  let c := coreOf x.warp
  ⟨cause, x.pc.toNat, faddr, wgNumber x.wg, 0, 0, 5, dieOf c, c % 64, 0, 0⟩

/-- The context is frozen, or drained and not yet restored (R320, R322). -/
def ctxStopped (s : State) (ctx : Nat) : Bool := (ctxRec s ctx).frozen || (ctxRec s ctx).drained

/-- Such an access is a load or an atomic that has not returned in time (R334). -/
def looseLate (s : State) (k : Nat) (x : Loose) : Bool := !x.store && lateAccess s k x.pend

/-- One write of each load among outstanding writes. -/
def onePerLoad (ps : List Pend) : List Pend :=
  ps.foldl (fun l e => if l.any (fun x => x.load == e.load) then l else l ++ [e]) []

/-- The late loads among outstanding writes, one write for each load. -/
def latePends (s : State) (k : Nat) (ps : List Pend) : List Pend := onePerLoad (ps.filter (lateAccess s k))

/-- Every access to fabric memory that has not returned in time, each with the launch serial of its grid: loads and atomics of
the warps that are not frozen, those that warps have left, and copies (R334). -/
def lateAll (s : State) : List (Nat × Blame) :=
  s.warps.flatMap (fun e => if ctxStopped s (ctxOfWg s e.2.wg) then []
    else (latePends s e.1 e.2.pend).map (fun p => (serialOf e.2.wg, lateBlame e.1 e.2.wg e.2.kind p))) ++
  s.grids.flatMap (fun e => (e.2.loads.filter (fun x => looseLate s x.warp x)).map (fun x =>
    (e.1, lateBlame x.warp x.wg x.kind x.pend))) ++
  s.cores.flatMap (fun e => e.2.copies.filterMap (fun x => (copyLate s e.1 x).map (fun a =>
    (serialOf x.wg, copyBlame x 0x1E a))))

/-- The accesses of one grid that have become late in this clock (R44, R334). -/
def lateOf (s : State) (serial : Nat) : List Blame := ((lateAll s).filter (fun x => x.1 == serial)).map (·.2)

/-- A grid ends with a record that names one fault and counts others of the same clock as suppressed, and the other packages
of the grid are told (R41, R44, R333). -/
def endOne (s : State) (serial : Nat) (b : Blame) (others : Nat) : State :=
  match tget s.grids serial with
  | none => s
  | some g =>
    let fr (conf : Option Nat) :=
      faultRecord conf (cycleOf s b.die) serial (g.supp + others) (if hMulti g.hdr then g.rank else 0) b
    finishGrid (sendEnd s serial g b.cause (fr none)) serial (fr (gridConf g)) b.die

/-- Faults of several units in one clock, each with the launch serial of its grid, and with them the accesses of those grids
that become late in it: of each grid the one of the lowest core and partition is recorded, and the others are counted as
suppressed (R44). The spec leaves open which of several dies' faults reaches the command processor first; the model takes
the lowest die, and the command processor's own causes before every other (log 86). -/
def endGrids (s : State) (bs : List (Nat × Blame)) : State :=
  ((bs.map (·.1)).dedup).foldl (fun s n =>
    let own := (bs.filter (fun x => x.1 == n)).map (·.2)
    match own ++ (lateOf s n).filter (fun x => !own.contains x) with
    | b :: r => endOne s n (firstBlame b r) r.length
    | [] => s) s

/-- Taking a fault: the grid ends with a record that names the faulting unit, unless an access of the grid that becomes late
in the same clock stands before it (R41, R44, R333). -/
def endGrid (s : State) (serial : Nat) (b : Blame) : State := endGrids s [(serial, b)]

/-- A fault raised by a lane of a warp at its current word. -/
def faultLane (s : State) (k : Nat) (w : Warp) (l cause faddr tcode : Nat) (pc : DWord) : State :=
  endGrid s (serialOf w.wg) (blameLane k w l cause faddr tcode pc)

/-- A fault that a copy in flight raises. -/
def copyFault (s : State) (x : Copy) (cause faddr : Nat) : State := endGrid s (serialOf x.wg) (copyBlame x cause faddr)

/-- A copy in flight on a core lands: its moves, its token, its counter (R181, R202). -/
def copyLand (s : State) (c : Nat) (x : Copy) : State :=
  let s := setCore s c { coreRec s c with copies := (coreRec s c).copies.filter (fun y => y.id != x.id) }
  let s := tokenDone (performMoves s x.wg x.moves) x
  let ctx := ctxOfWg s x.wg
  setTl s ctx x.handle (tlComplete (tlOf s ctx x.handle) x.n)

/-- The cause and address for which a copy in flight faults as it completes: data beyond repair, or a read of fabric memory
that has not returned in time (29 R408, R334). -/
def copyBad (s : State) (c : Nat) (x : Copy) : Option (Nat × Nat) :=
  match copyLate s c x, copyPoison s x with
  | some a, _ => some (0x1E, a)
  | none, some a => some (0x1F, a)
  | none, none => none

/-- The completion of a copy in flight on a core, and the counting of its latency (R202, 23 R341). -/
def copyDone (s : State) (c : Nat) (x : Copy) : State :=
  match copyBad s c x with
  | some (cause, a) => copyFault s x cause a
  | none => measureOp (copyLand s c x) x.wg x.handle x.issued

/-- The copies in flight of some workgroups, in core order, each with its core. -/
def copiesOf (s : State) (p : Nat → Bool) : List (Nat × Copy) :=
  s.cores.flatMap (fun e => (e.2.copies.filter (fun x => p x.wg)).map (fun x => (e.1, x)))

/-- Copies in flight of some workgroups complete, in one clock: those that fault end their grids, by core order, and the
others land (R44, R215, 23 R342). -/
def finishCopies (s : State) (p : Nat → Bool) : State :=
  let xs := copiesOf s p
  let s1 := endGrids s (xs.filterMap (fun e => (copyBad s e.1 e.2).map (fun b => (serialOf e.2.wg, copyBlame e.2 b.1 b.2))))
  let ys := xs.filter (fun e => (gridOfWg s1 e.2.wg).isSome)
  noteDone (ys.foldl (fun s e => copyLand s e.1 e.2) s1) (ys.map (fun e => opDone s1 e.2.wg e.2.handle e.2.issued))

/-- The record that no instruction raises: a task that finds no room (17 R253). The spec names the owner's core, and a saved
owner has none: the model writes core 0 of die 0 (DESIGN CHOICE, log 87). -/
def taskSpaceFault (s : State) (wg : Nat) (responder : Bool) : State :=
  match tget s.wgs wg with
  | none => s
  | some w =>
    let c := w.core.getD 0
    endGrid s (serialOf wg) ⟨0x42, 0, 0, wgNumber wg, w.nextSerial, 0, if responder then 2 else 1, dieOf c, c % 64, 0, 0⟩

/-! The ends of lanes, warps, workgroups and gangs. -/

/-- A workgroup has something left: warps and waves, tasks, handlers, bins, a claimed match entry (R257, R279). -/
def wgBusy (s : State) (wg : Nat) : Bool :=
  s.warps.any (fun e => e.2.wg == wg) ||
    s.cores.any (fun e => e.2.bins.any (fun b => b.2.wg == wg) || e.2.tasks.any (fun t => t.wg == wg) ||
      e.2.handlers.any (fun h => h.wg == wg)) ||
    (ctxRec s (ctxOfWg s wg)).saved.any (fun x => x.wg == wg) ||
    s.netMatch.any (fun e => e.2.any (fun m => m.wg == wg && m.claimed && !m.dead))

/-- Write back every dirty line of a workgroup's stash (R157, R324). -/
def stashFlushAll (s : State) (wg : Nat) : State :=
  match tget s.wgs wg with
  | none => s
  | some w => (List.range w.stash.length).foldl (fun s i =>
      match w.stash[i]? with
      | none => s
      | some r => r.lines.foldl (fun s l => writeBackLine s wg i l.1) s) s

/-- The gang of a workgroup. -/
def gangOf (s : State) (wg : Nat) : List (Nat × Workgroup) :=
  match tget s.wgs wg with
  | none => []
  | some x => s.wgs.filter (fun e => serialOf e.1 == serialOf wg && e.2.gang == x.gang)

/-- Some unit of a workgroup's gang is written out (R322). -/
def gangSaved (s : State) (wg : Nat) : Bool :=
  (ctxRec s (ctxOfWg s wg)).saved.any (fun x => (gangOf s wg).any (fun e => e.1 == x.wg))

/-- A workgroup's units may issue and form: it has begun, it is resident, and with its whole gang neither frozen nor
saved (R27, R322). -/
def wgRuns (s : State) (wg : Nat) : Bool := match tget s.wgs wg with
  | some g => g.begun && g.core.isSome && !ctxStopped s (ctxOfWg s wg) && !gangSaved s wg
  | none => false

/-- The copies of a retiring gang that would still read a byte of LM beyond repair, in core order, as faults. -/
def detachBad (s : State) (p : Nat → Bool) : List (Nat × Blame) :=
  (copiesOf s p).filterMap (fun e => (e.2.moves.findSome? (fun m => match m.src with
    | some l => if l.lm && poisoned s l.pa 1 then some l.va else none
    | none => none)).map (fun a => (serialOf e.2.wg, copyBlame e.2 0x1F a)))

/-- A gang retires once every member has ended: LM and barriers are released (R28). A copy in flight goes on without LM. -/
def gangRetire (s : State) (wg : Nat) : State :=
  let g := gangOf s wg
  if g.all (fun e => e.2.ended) then
    let p (x : Nat) : Bool := g.any (fun e => e.1 == x)
    let bad := detachBad s p
    if bad.isEmpty then { s with
      cores := s.cores.map (fun e => (e.1, { e.2 with copies := e.2.copies.map (fun x =>
        if p x.wg then detachCopy s x else x) }))
      wgs := s.wgs.filter (fun e => !p e.1) }
    else endGrids s bad
  else s

/-- A workgroup ends once nothing of it is left: its stash is written back, its sequencer and matrix engine are released, its
barriers are reset, its bindings, unclaimed match entries, directory entries, census slots and locked entries are released
(R61, R257, R309, R324). -/
def wgEndCheck (s : State) (wg : Nat) : State :=
  match tget s.wgs wg with
  | none => s
  | some w =>
    if w.ended || !w.begun || w.core.isNone || wgBusy s wg then s
    else
      let c := w.core.getD 0
      let s := releaseSeq (stashFlushAll s wg) c (· == wg)
      let s := (s.cores.map (·.1)).foldl (fun s x => removeEntries s x (fun e => e.owner == wg)) s
      let cr := coreRec s c
      let s := setCore s c { cr with
        census := cr.census.filter (fun x => x.2.wg != wg)
        solWait := cr.solWait.filter (fun n => n.name.wg != wg) }
      let s := { s with
        mailboxes := s.mailboxes.filter (fun e => e.2.wg != wg)
        netMatch := s.netMatch.map (fun e => (e.1, e.2.filter (fun m => m.wg != wg || m.dead))) }
      match tget s.wgs wg with
      | none => s
      | some w => gangRetire (setWg s wg { w with bars := [], stash := [], locked := [], ended := true }) wg

/-- The accesses that a warp leaves outstanding when it exits stay with its grid, which they keep from completing (R46). -/
def keepLoads (s : State) (k : Nat) (w : Warp) : State :=
  match gridOfWg s w.wg with
  | none => s
  | some g =>
    let ls := (w.pend.filter (fun e => !e.token)).map (fun e => (⟨w.wg, k, w.kind, false, e⟩ : Loose))
    if ls.isEmpty then s else setGrid s (serialOf w.wg) { g with loads := g.loads ++ ls }

/-- A warp with no live lane frees its slot and its frames (R52). -/
def freeSlot (s : State) (k : Nat) (pc : DWord) (name : TName) (kind : Nat) : State :=
  match tget s.warps k with
  | none => s
  | some w =>
    let c := coreOf k
    let part := 4 * c + k % 64 / 16
    let sm := tgetD Sampler.empty s.samplers part
    let s := { s with
      warps := (tdel s.warps k).map (fun e => (e.1, { e.2 with yieldTo := e.2.yieldTo.filter (· != k) }))
      samplers := tput s.samplers part { sm with exited := tput sm.exited (k % 16) (pc, name, kind) } }
    let cr := coreRec s c
    let s := setCore s c { cr with claims := cr.claims.filter (fun x => x.1 / 2 ^ 32 != k) }
    wgEndCheck (grantAll (keepLoads s k w) c) w.wg

/-- Lanes of a warp cease to be live: they leave every reconvergence entry, and a warp with no live lane left frees its
slot (R9, R149, R150). -/
def endLanes (s : State) (k : Nat) (m : Mask) (pc : DWord) : State :=
  match tget s.warps k with
  | none => s
  | some w =>
    let l := (lowest m).getD 0
    let name := ((thr w l).map (·.name)).getD ⟨w.wg, false, 0, false⟩
    let w1 := reconLeave w m
    let w1 := { w1 with threads := w1.threads.filter (fun e => !m.getLsbD e.1), act := w1.act &&& ~~~m,
                        cand := w1.cand &&& ~~~m, p := w1.p.map (fun e => (e.1, e.2 &&& ~~~m)) }
    let s := setWarp s k w1
    if w1.threads.isEmpty then freeSlot s k pc name (slateKind w) else reconSettle s k

/-! Traps (R327, R328, R331). -/

/-- The trap-handler wave that a TRAP asks for: one handler lane for each trapped thread, with its v0 to v7 (R328). -/
def trapRequest (k : Nat) (w : Warp) (m : Mask) (n : Nat) : HandlerReq :=
  let pc := wordAddr (curPC w)
  let kind := match w.kind with
    | .launch => 0
    | .bin => 1
    | .task => 2
    | .responder => 3
    | .handler => 4
  ⟨w.wg, 0, (lanesOf m).filterMap (fun l => (thr w l).map (fun t =>
    (t.name, [BitVec.ofNat 32 n, rd w 0 l, rd w 1 l, pc.extractLsb' 0 32, pc.extractLsb' 32 32,
      BitVec.ofNat 32 t.name.n, BitVec.ofNat 32 (k % 64 * 32 + l), BitVec.ofNat 32 kind], t.wid)))⟩

/-- ENTERING A TRAP HANDLER: the trapping lanes park at their TRAP, to go on at the word after it, and a handler wave at
the trap-handler address waits for a slot (R328). -/
def enterTrap (s : State) (k : Nat) (w : Warp) (n : Nat) (handler : DWord) : State :=
  let c := coreOf k
  let cr := coreRec s c
  let s := setCore s c { cr with handlers := cr.handlers ++ [{ trapRequest k w w.act n with pc := handler }] }
  setWarp s k (beginWait w w.act .trap (nextPC w))

/-- The warp and lane that hold a named thread. -/
def findThread (s : State) (n : TName) : Option (Nat × Nat) :=
  (s.warps.filterMap (fun e => (e.2.threads.find? (fun t => t.2.name == n)).map (fun t => (e.1, t.1)))).head?

/-- RETURNING FROM A TRAP HANDLER, for one handler lane: the trapped thread takes v0 and v1 and goes on after its TRAP
(R331). Writes of those registers that are still outstanding for the lane are earlier in program order (R68). -/
def leaveTrap (s : State) (n : TName) (v0 v1 : Word) : State :=
  match findThread s n with
  | none => s
  | some (k, l) =>
    match tget s.warps k with
    | none => s
    | some w =>
      let w := killPend w (laneBit l) (fun e => !e.token && (e.reg == 0 || e.reg == 1))
      let w := wr (wr w 0 (laneBit l) (fun _ => v0)) 1 (laneBit l) (fun _ => v1)
      releaseLanes (setWarp s k w) k (laneBit l)

/-! The issue of a lane word (R326, 07 R94, 03 R67). -/

/-- What a lane word does. -/
inductive Eff where
  /-- the word retires, and its active lanes go on to the next word -/
  | next (s : State)
  /-- the word retires, and its meaning has placed every lane itself -/
  | moved (s : State)
  /-- the word has not issued -/
  | stall
  /-- every active lane waits at the word, or it serves no lane: nothing retires -/
  | parked (s : State)
  /-- a fault of a lane: cause, data address, TCODE -/
  | fault (cause faddr lane tcode : Nat)
  /-- the warp's take aborts -/
  | abort (code : Byte)

/-- Faults that abort a take instead of ending the grid (R295). -/
def takeFault (cause : Nat) : Bool := cause == 0x12 || cause == 0x14 || cause == 0x15 || cause == 0x16

/-- The lanes that issued a word and still stand where it left them: those that its own effects neither have rolled back nor
are to roll back. -/
def stillThere (w0 w1 : Warp) : Mask :=
  if w0.take.isNone then w0.act else w0.act &&& ~~~(members w0 &&& (~~~members w1 ||| (rollingLanes w1 &&& ~~~rollingLanes w0)))

/-- After a word: its lanes go on to the next word, in the clause or after it (R94, R95). -/
def goOn (w0 w1 : Warp) : Warp :=
  let n := nextPC w0
  let w2 := setPC w1 (stillThere w0 w1) n
  if n.idx = 0 then { w2 with act := 0 } else w2

/-- A word has retired: the count, the resumed lanes, the sampler's note of what issued, and the step trap (R64, R326,
R337, R340). -/
def retire (s : State) (k : Nat) (w0 : Warp) : State :=
  let pc := wordAddr (curPC w0)
  let s := countRetired s w0.wg
  match tget s.warps k with
  | none => s
  | some w =>
    if w.sstep then stepTrap s k (stillThere w0 w) pc else s

/-- Lanes that an address breakpoint stops before the word (R336): those active that were not resumed there. -/
def abpLanes (s : State) (w : Warp) : Mask :=
  if abpHit s w.wg (wordAddr (curPC w)) then
    maskWhere w.act (fun l => !((thr w l).map (·.pass1)).getD false) else 0

/-- A debug trap of lanes: a take that they are members of is first rolled back with status 0x06, and they park at the
resume point once it has been (R297). -/
def debugTrap (s : State) (k : Nat) (w : Warp) (m : Mask) (cause tag : Nat) : State :=
  let pc := wordAddr (curPC w)
  if m &&& members w = 0 then parkLanes s k m cause tag pc
  else
    let s1 := abortTake s k 6
    match tget s1.warps k with
    | none => s1
    | some w1 =>
      let r := m &&& rollingLanes w1
      let s1 := if r = 0 then s1 else setWarp s1 k (trapLater w1 r (cause, tag, pc))
      parkLanes s1 k (m &&& ~~~r) cause tag pc

/-- Place the outcome of a word's meaning. -/
def finishEff (s : State) (k : Nat) (w : Warp) : Eff → State
  | .next s1 =>
    match tget s1.warps k with
    | none => retire s1 k w
    | some w1 => retire (setWarp s1 k (goOn w w1)) k w
  | .moved s1 => retire s1 k w
  | .parked s1 => s1
  | .stall => s
  | .fault cause faddr lane tcode =>
    if takeFault cause && (members w).getLsbD lane then abortTake s k 5
    else faultLane s k w lane cause faddr tcode (wordAddr (curPC w))
  | .abort code => abortTake s k code

/-- Threads resumed at a breakpoint have issued their word. -/
def clearPass (w : Warp) : Warp :=
  if w.threads.any (fun e => e.2.pass1) then modLanes w w.act (fun _ t => { t with pass1 := false }) else w

/-- Issue a lane word for a warp (R326): it stalls while a register it reads or writes is pending (R67, R68); an address
breakpoint parks lanes; a register of a granule that is not held faults (R50); then its meaning. -/
def issueWord (s : State) (k : Nat) (w : Warp) (regs : List Fld) (body : State → Nat → Warp → Eff) : State :=
  if anyPending w regs then s
  else if abpLanes s w ≠ 0 then debugTrap s k w (abpLanes s w) 0x73 0
  else if !heldAll w regs then faultLane s k w ((lowest w.act).getD 0) 0x30 0 0 (wordAddr (curPC w))
  else
    let w := clearPass w
    finishEff (setWarp s k w) k w (body (setWarp s k w) k w)

/-- A lane word's meaning, from its registers and its effect, for the warp that issues it. -/
def laneWord (s : State) (regs : List Fld) (body : State → Nat → Warp → Eff) : Host.Outcome State Fault Refusal :=
  match s.issuer with
  | .warp k =>
    match tget s.warps k with
    | none => .fault .noIssuer
    | some w => .next (issueWord s k w regs body)
  | _ => .fault .noIssuer

/-- A lane word that changes nothing but its warp. -/
def warpWord (s : State) (regs : List Fld) (f : Warp → Warp) : Host.Outcome State Fault Refusal :=
  laneWord s regs (fun s k w => .next (setWarp s k (f w)))

/-- Raise floating-point flags (R65). -/
def raise (w : Warp) (f : FFlags) : Warp := { w with flags := w.flags ||| f }

/-- Write a register of the operand space lane by lane from the values that each active lane computes (R117). -/
def mapLanes (w : Warp) (d : Fld) (g : Nat → Word) : Warp := wr w d w.act g

/-- Write a predicate lane by lane. -/
def mapPred (w : Warp) (d : Fld) (c : Nat → Bool) : Warp := wrP w d.toNat w.act (maskWhere w.act c)

end Sys2Proof.Machine
end

