-- ==== Sys2Proof/Machine/Alu.lean ====
section
/-! DEFINITION. Integer instructions, moves, comparisons and predicates (09 R123 to R130). -/

namespace Sys2Proof.Machine

/-- A word that writes D from A and B lane by lane (R117). -/
def alu2 (s : State) (d a b : Fld) (f : Word → Word → Word) : Host.Outcome State Fault Refusal :=
  warpWord s [a, b, d] (fun w => mapLanes w d (fun l => f (rd w a l) (rd w b l)))

/-- A word that writes D from A lane by lane (R117). -/
def alu1 (s : State) (d a : Fld) (f : Word → Word) : Host.Outcome State Fault Refusal :=
  warpWord s [a, d] (fun w => mapLanes w d (fun l => f (rd w a l)))

/-- A word that writes the pair D from the pairs A and B lane by lane (R119, R126). -/
def alu64 (s : State) (d a b : Fld) (f : DWord → DWord → DWord) : Host.Outcome State Fault Refusal :=
  warpWord s (pair a ++ pair b ++ pair d) (fun w => wr64 w d w.act (fun l => f (rd64 w a l) (rd64 w b l)))

/-- A word that writes predicate D from predicates A and B lane by lane (R130). -/
def pred2 (s : State) (d a b : Fld) (f : Mask → Mask → Mask) : Host.Outcome State Fault Refusal :=
  warpWord s [] (fun w => wrP w d.toNat w.act (f (rdP w a.toNat) (rdP w b.toNat)))

/-! The functions of the table of R123. -/

def mulHighS (a b : Word) : Word := (a.signExtend 64 * b.signExtend 64).extractLsb' 32 32
def mulHighU (a b : Word) : Word := (a.setWidth 64 * b.setWidth 64).extractLsb' 32 32
def minS (a b : Word) : Word := if a.toInt ≤ b.toInt then a else b
def maxS (a b : Word) : Word := if a.toInt ≤ b.toInt then b else a
def minU (a b : Word) : Word := if a.toNat ≤ b.toNat then a else b
def maxU (a b : Word) : Word := if a.toNat ≤ b.toNat then b else a
def absW (a : Word) : Word := if a.toInt < 0 then -a else a
def shlW (a b : Word) : Word := a <<< b.toNat
def shrW (a b : Word) : Word := a >>> b.toNat
def sarW (a b : Word) : Word := a.sshiftRight (min b.toNat 32)
def rotlW (a b : Word) : Word := a.rotateLeft (b.toNat % 32)
def popcW (a : Word) : Word := BitVec.ofNat 32 (((List.range 32).filter (fun i => a.getLsbD i)).length)
def clzW (a : Word) : Word := BitVec.ofNat 32 (((List.range 32).takeWhile (fun i => !a.getLsbD (31 - i))).length)
def brevW (a : Word) : Word := a.reverse

/-- The field of BFX (R124): sgn, width minus one and position come from SUB and AUX. -/
def bfxW (sub : BitVec 4) (aux : Fld) (a : Word) : Word :=
  let f : BitVec 12 := sub ++ aux
  let pos := field f 4 0
  let width := field f 10 6 + 1
  let x := a.toNat / 2 ^ pos % 2 ^ width
  if f.getLsbD 11 && decide (2 ^ (width - 1) ≤ x) then BitVec.ofNat 32 (x + (2 ^ 32 - 2 ^ width)) else BitVec.ofNat 32 x

/-- The insertion of BFI (R125): position and width from AUX. -/
def bfiW (aux : Fld) (a b : Word) : Word :=
  let pos := field aux 4 0
  let width := 2 ^ field aux 7 5
  let mask : Word := BitVec.ofNat 32 ((2 ^ width - 1) * 2 ^ pos)
  (a &&& ~~~mask) ||| ((b <<< pos) &&& mask)

def execIadd (d a b : Fld) (s : State) := alu2 s d a b (· + ·)
def execIaddi (d a imm : Fld) (s : State) := alu1 s d a (· + simm8 imm)
def execIsub (d a b : Fld) (s : State) := alu2 s d a b (· - ·)
def execImul (d a b : Fld) (s : State) := alu2 s d a b (· * ·)
def execImulhs (d a b : Fld) (s : State) := alu2 s d a b mulHighS
def execImulhu (d a b : Fld) (s : State) := alu2 s d a b mulHighU
def execImad (d a b c : Fld) (s : State) : Host.Outcome State Fault Refusal :=
  warpWord s [a, b, c, d] (fun w => mapLanes w d (fun l => rd w a l * rd w b l + rd w c l))
def execImin (d a b : Fld) (s : State) := alu2 s d a b minS
def execImax (d a b : Fld) (s : State) := alu2 s d a b maxS
def execUmin (d a b : Fld) (s : State) := alu2 s d a b minU
def execUmax (d a b : Fld) (s : State) := alu2 s d a b maxU
def execIabs (d a : Fld) (s : State) := alu1 s d a absW
def execIneg (d a : Fld) (s : State) := alu1 s d a (fun x => -x)
def execIand (d a b : Fld) (s : State) := alu2 s d a b (· &&& ·)
def execIor (d a b : Fld) (s : State) := alu2 s d a b (· ||| ·)
def execIxor (d a b : Fld) (s : State) := alu2 s d a b (· ^^^ ·)
def execAndn (d a b : Fld) (s : State) := alu2 s d a b (fun x y => x &&& ~~~y)
def execInot (d a : Fld) (s : State) := alu1 s d a (fun x => ~~~x)
def execShl (d a b : Fld) (s : State) := alu2 s d a b shlW
def execShr (d a b : Fld) (s : State) := alu2 s d a b shrW
def execSar (d a b : Fld) (s : State) := alu2 s d a b sarW
def execRotl (d a b : Fld) (s : State) := alu2 s d a b rotlW
def execShli (d a imm : Fld) (s : State) := alu1 s d a (fun x => shlW x (imm.setWidth 32))
def execShri (d a imm : Fld) (s : State) := alu1 s d a (fun x => shrW x (imm.setWidth 32))
def execSari (d a imm : Fld) (s : State) := alu1 s d a (fun x => sarW x (imm.setWidth 32))
def execPopc (d a : Fld) (s : State) := alu1 s d a popcW
def execClz (d a : Fld) (s : State) := alu1 s d a clzW
def execBrev (d a : Fld) (s : State) := alu1 s d a brevW
def execBfx (d a : Fld) (sub : BitVec 4) (aux : Fld) (s : State) := alu1 s d a (bfxW sub aux)
def execBfi (d a b aux : Fld) (s : State) := alu2 s d a b (bfiW aux)
def execLea (d a b aux : Fld) (s : State) := alu2 s d a b (fun x y => x + y <<< aux.toNat)
def execAdd64 (d a b : Fld) (s : State) := alu64 s d a b (· + ·)
def execSub64 (d a b : Fld) (s : State) := alu64 s d a b (· - ·)
/-- MULW (R126): SUB 0 unsigned, SUB 1 signed. -/
def execMulw (d a b : Fld) (sub : BitVec 4) (s : State) : Host.Outcome State Fault Refusal :=
  warpWord s ([a, b] ++ pair d) (fun w => wr64 w d w.act (fun l =>
    if sub = 0 then (rd w a l).setWidth 64 * (rd w b l).setWidth 64
    else (rd w a l).signExtend 64 * (rd w b l).signExtend 64))

/-! Moves and selection (R127). -/

def execMov (d a : Fld) (s : State) := alu1 s d a id
def execMovi (d : Fld) (imm : Half) (s : State) : Host.Outcome State Fault Refusal :=
  warpWord s [d] (fun w => mapLanes w d (fun _ => imm.signExtend 32))
/-- MOVHI reads its destination (R118, R127). -/
def execMovhi (d : Fld) (imm : Half) (s : State) := alu1 s d d (fun x => imm ++ x.extractLsb' 0 16)
def execMovl (d : Fld) (lit : Word) (s : State) : Host.Outcome State Fault Refusal :=
  warpWord s [d] (fun w => mapLanes w d (fun _ => lit))
/-- A lane's bit of a predicate, with the negation of PN applied (R127, R145). -/
def predBit (w : Warp) (pd : BitVec 3) (pn : BitVec 1) (l : Nat) : Bool :=
  ((rdP w pd.toNat).getLsbD l) != (pn == 1)
def execSelp (d a b : Fld) (pd : BitVec 3) (pn : BitVec 1) (s : State) : Host.Outcome State Fault Refusal :=
  warpWord s [a, b, d] (fun w => mapLanes w d (fun l => if predBit w pd pn l then rd w a l else rd w b l))

/-! Comparisons and predicates (R128, R130). -/

/-- The condition of ICMP: SUB the relation, TY 1 unsigned (R128). -/
def icmpTrue (sub : BitVec 4) (ty : BitVec 3) (a b : Word) : Bool :=
  let lt := if ty = 1 then decide (a.toNat < b.toNat) else decide (a.toInt < b.toInt)
  match sub.toNat with
  | 0 => a == b
  | 1 => a != b
  | 2 => lt
  | 3 => lt || a == b
  | 4 => !(lt || a == b)
  | _ => !lt
def execIcmp (d a b : Fld) (sub : BitVec 4) (ty : BitVec 3) (s : State) : Host.Outcome State Fault Refusal :=
  warpWord s [a, b] (fun w => mapPred w d (fun l => icmpTrue sub ty (rd w a l) (rd w b l)))
def execPand (d a b : Fld) (s : State) := pred2 s d a b (· &&& ·)
def execPor (d a b : Fld) (s : State) := pred2 s d a b (· ||| ·)
def execPxor (d a b : Fld) (s : State) := pred2 s d a b (· ^^^ ·)
def execPnot (d a : Fld) (s : State) := pred2 s d a a (fun x _ => ~~~x)
def execPmov (d a : Fld) (s : State) := pred2 s d a a (fun x _ => x)
def execPtov (d a : Fld) (s : State) : Host.Outcome State Fault Refusal :=
  warpWord s [d] (fun w => mapLanes w d (fun l => if (rdP w a.toNat).getLsbD l then 1 else 0))

end Sys2Proof.Machine
end

