-- ==== Sys2Proof/Machine/Float.lean ====
section
/-! DEFINITION. Number formats and their arithmetic (05): values of encodings (R72 to R75), rounding once (R76) with
flags (R77), canonical NaNs (R78), conversions (R79), scaling (R80, R81), TE blocks (R82 to R84), the matrix engine's
sums (R85, R86) and slices (R88). Every value is exact: a sign, a natural significand and a power of two. -/

namespace Sys2Proof.Machine

/-- The value of an encoding: a NaN (signalling or quiet), an infinity, or (-1)^neg * m * 2^e. -/
inductive FVal where
  | nan (signalling : Bool)
  | inf (neg : Bool)
  | fin (neg : Bool) (m : Nat) (e : Int)
deriving DecidableEq, Repr

/-- A floating format: exponent bits, fraction bits, bias; OCP E4M3 has no infinity and one NaN fraction (R72, R74). -/
structure Fmt where
  eb : Nat
  fb : Nat
  bias : Int
  ocp : Bool
deriving DecidableEq, Repr

def fp32 : Fmt := ⟨8, 23, 127, false⟩
def fp16 : Fmt := ⟨5, 10, 15, false⟩
def bf16 : Fmt := ⟨8, 7, 127, false⟩
def e4m3 : Fmt := ⟨4, 3, 7, true⟩
def e5m2 : Fmt := ⟨5, 2, 15, false⟩

/-- The value of the encoding x (R73, R74). Every NaN of an 8-bit format is quiet. -/
def fdec (f : Fmt) (x : Nat) : FVal :=
  let fr := x % 2 ^ f.fb
  let ex := x / 2 ^ f.fb % 2 ^ f.eb
  let neg := x / 2 ^ (f.fb + f.eb) % 2 == 1
  let top := 2 ^ f.eb - 1
  if f.ocp && ex == top && fr == 2 ^ f.fb - 1 then .nan false
  else if !f.ocp && ex == top then
    if fr = 0 then .inf neg else .nan (decide (7 ≤ f.fb) && decide (fr < 2 ^ (f.fb - 1)))
  else if ex = 0 then .fin neg fr (1 - f.bias - f.fb)
  else .fin neg (2 ^ f.fb + fr) (ex - f.bias - f.fb)

/-- The canonical NaN of a format (R78). -/
def fnan (f : Fmt) : Nat :=
  if f.ocp then 2 ^ (f.eb + f.fb) - 1 else (2 ^ f.eb - 1) * 2 ^ f.fb + 2 ^ (f.fb - 1)

/-- The sign bit placed above a magnitude. -/
def fsign (f : Fmt) (neg : Bool) (mag : Nat) : Nat := if neg then 2 ^ (f.eb + f.fb) + mag else mag

/-- The magnitude bits of infinity (R72). -/
def finf (f : Fmt) : Nat := (2 ^ f.eb - 1) * 2 ^ f.fb

/-- The magnitude bits of the largest finite value (R72). -/
def fmaxMag (f : Fmt) : Nat := if f.ocp then finf f + 2 ^ f.fb - 2 else finf f - 1

/-- Rounding modes by their RND code (R101, R76): 0 .rn, 1 .rz, 2 .ru, 3 .rd. -/
abbrev Rnd := Nat

/-- Round the magnitude m * 2^e, or one strictly between it and (m + 1) * 2^e when sticky, to a multiple of 2^q:
the multiple, and whether it differs from the exact magnitude. -/
def roundMag (rnd : Rnd) (neg : Bool) (m : Nat) (e : Int) (sticky : Bool) (q : Int) : Nat × Bool :=
  if q ≤ e then
    let n := m * 2 ^ (e - q).toNat
    (if sticky && ((rnd == 2 && !neg) || (rnd == 3 && neg)) then n + 1 else n, sticky)
  else
    let d := (q - e).toNat
    let n := m / 2 ^ d
    let r := m % 2 ^ d
    let h := 2 ^ (d - 1)
    let inexact := r != 0 || sticky
    let up :=
      match rnd with
      | 0 => decide (h < r) || (r == h && (sticky || n % 2 == 1))
      | 1 => false
      | 2 => inexact && !neg
      | _ => inexact && neg
    (if up then n + 1 else n, inexact)

/-- The exponent of the leading bit of m * 2^e. -/
def msbExp (m : Nat) (e : Int) : Int := (Nat.log2 m : Int) + e

/-- Round a nonzero magnitude once to a format under a mode, with the overflow row of R79 and the flags of R77:
tininess is detected after rounding, overflow with unbounded exponent. -/
def roundFmt (f : Fmt) (rnd : Rnd) (neg : Bool) (m : Nat) (e : Int) (sticky : Bool) : Nat × FFlags :=
  let qu := msbExp m e - f.fb
  let emin := 1 - f.bias
  let q := max qu (emin - f.fb)
  let (nu, _) := roundMag rnd neg m e sticky qu
  let tiny := decide (msbExp nu qu < emin)
  let (n, inexact) := roundMag rnd neg m e sticky q
  let bits : Int := if n < 2 ^ f.fb then (n : Int) else (q + f.fb + f.bias) * 2 ^ f.fb + ((n : Int) - 2 ^ f.fb)
  if !tiny && decide ((fmaxMag f : Int) < bits) then
    let toInf := !f.ocp && (rnd == 0 || (rnd == 2 && !neg) || (rnd == 3 && neg))
    (fsign f neg (if toInf then finf f else fmaxMag f), fOF ||| fNX)
  else
    (fsign f neg bits.toNat, flagIf (tiny && inexact) fUF ||| flagIf inexact fNX)

/-- Round a value to a format (R76, R79): a zero keeps its sign, an infinity stays one or becomes the largest E4M3
value with OF and NX, a NaN becomes canonical with NV if it is signalling. -/
def roundVal (f : Fmt) (rnd : Rnd) : FVal → Nat × FFlags
  | .nan s => (fnan f, flagIf s fNV)
  | .inf neg => if f.ocp then (fsign f neg (fmaxMag f), fOF ||| fNX) else (fsign f neg (finf f), 0)
  | .fin neg m e => if m = 0 then (fsign f neg 0, 0) else roundFmt f rnd neg m e false

/-- A finite value as an integer multiple of 2^e0, for e0 at or below its exponent. -/
def scaledInt (neg : Bool) (m : Nat) (e e0 : Int) : Int :=
  let n : Int := (m * 2 ^ (e - e0).toNat : Nat)
  if neg then -n else n

/-- The exact sum of two values (R76): the result, and whether the operation is invalid. A zero sum of two zeros of one
sign keeps it; any other zero sum is +0, or -0 under .rd. -/
def fsum (rnd : Rnd) (x y : FVal) : FVal × Bool :=
  match x, y with
  | .nan s, .nan t => (.nan (s || t), false)
  | .nan s, _ => (.nan s, false)
  | _, .nan t => (.nan t, false)
  | .inf a, .inf b => if a = b then (.inf a, false) else (.nan false, true)
  | .inf a, _ => (.inf a, false)
  | _, .inf b => (.inf b, false)
  | .fin a m e, .fin b n g =>
    if m = 0 ∧ n = 0 then (.fin (if a = b then a else rnd == 3) 0 0, false)
    else
      let e0 := min e g
      let s := scaledInt a m e e0 + scaledInt b n g e0
      if s = 0 then (.fin (rnd == 3) 0 0, false)
      else (.fin (decide (s < 0)) s.natAbs e0, false)

/-- The exact product of two values: a NaN first, then 0 times infinity is invalid (R131). -/
def fprod (x y : FVal) : FVal × Bool :=
  match x, y with
  | .nan s, .nan t => (.nan (s || t), false)
  | .nan s, _ => (.nan s, false)
  | _, .nan t => (.nan t, false)
  | .inf a, .inf b => (.inf (a != b), false)
  | .inf a, .fin b n _ => if n = 0 then (.nan false, true) else (.inf (a != b), false)
  | .fin a m _, .inf b => if m = 0 then (.nan false, true) else (.inf (a != b), false)
  | .fin a m e, .fin b n g => (.fin (a != b) (m * n) (e + g), false)

/-- The negated value. -/
def fneg : FVal → FVal
  | .nan s => .nan s
  | .inf a => .inf (!a)
  | .fin a m e => .fin (!a) m e

/-- Round the outcome of an operation and add NV when it is invalid (R77). -/
def finish (f : Fmt) (rnd : Rnd) (r : FVal × Bool) : Nat × FFlags :=
  let (b, fl) := roundVal f rnd r.1
  (b, fl ||| flagIf r.2 fNV)

/-- FADD and its kin (R131, R136). -/
def fadd (f : Fmt) (rnd : Rnd) (x y : Nat) : Nat × FFlags := finish f rnd (fsum rnd (fdec f x) (fdec f y))
/-- FSUB (R131). -/
def fsub (f : Fmt) (rnd : Rnd) (x y : Nat) : Nat × FFlags := finish f rnd (fsum rnd (fdec f x) (fneg (fdec f y)))
/-- FMUL and its kin (R131, R136). -/
def fmul (f : Fmt) (rnd : Rnd) (x y : Nat) : Nat × FFlags := finish f rnd (fprod (fdec f x) (fdec f y))
/-- FFMA and its kin (R131, R136): one rounding; 0 times infinity is invalid even beside a quiet NaN addend. -/
def ffma (f : Fmt) (rnd : Rnd) (x y z : Nat) : Nat × FFlags :=
  let p := fprod (fdec f x) (fdec f y)
  let s := fsum rnd p.1 (fdec f z)
  finish f rnd (s.1, p.2 || s.2)

/-- Whether a value is a NaN. -/
def FVal.isNan : FVal → Bool
  | .nan _ => true
  | _ => false

/-- Whether a value is a signalling NaN. -/
def FVal.isSnan : FVal → Bool
  | .nan s => s
  | _ => false

/-- A comparison of two values that are no NaN: less, equal or greater. Zeros compare equal (R129). -/
def fcompare (x y : FVal) : Ordering :=
  match x, y with
  | .inf a, .inf b => if a = b then .eq else if a then .lt else .gt
  | .inf a, _ => if a then .lt else .gt
  | _, .inf b => if b then .gt else .lt
  | .fin a m e, .fin b n g =>
    let e0 := min e g
    compare (scaledInt a m e e0) (scaledInt b n g e0)
  | _, _ => .eq

/-- FMIN (isMax false) and FMAX (isMax true) in a format (R132, R136). -/
def fminmax (f : Fmt) (isMax : Bool) (x y : Nat) : Nat :=
  let a := fdec f x
  let b := fdec f y
  match a.isNan, b.isNan with
  | true, true => fnan f
  | true, false => y
  | false, true => x
  | false, false =>
    match a, b with
    | .fin s 0 _, .fin t 0 _ => fsign f (if isMax then s && t else s || t) 0
    | _, _ =>
      match fcompare a b with
      | .lt => if isMax then y else x
      | .gt => if isMax then x else y
      | .eq => x

/-- The truth of an FP32 comparison by its SUB code (R129). -/
def fcmpTrue (sub : Nat) (x y : Nat) : Bool :=
  let a := fdec fp32 x
  let b := fdec fp32 y
  let un := a.isNan || b.isNan
  let o := fcompare a b
  match sub with
  | 0 => !un && o == .eq
  | 1 => un || o != .eq
  | 2 => !un && o == .lt
  | 3 => !un && o != .gt
  | 4 => !un && o == .gt
  | 5 => !un && o != .lt
  | 6 => un
  | _ => !un

/-- FCLASS (R133): the mask with the bit of the operand's class. -/
def fclass (x : Nat) : Nat :=
  match fdec fp32 x with
  | .nan s => if s then 2 ^ 8 else 2 ^ 9
  | .inf neg => if neg then 1 else 2 ^ 7
  | .fin neg m _ =>
    if m = 0 then (if neg then 2 ^ 3 else 2 ^ 4)
    else if m < 2 ^ 23 then (if neg then 2 ^ 2 else 2 ^ 5)
    else if neg then 2 else 2 ^ 6

/-- Round a finite value to an integer under a mode: magnitude, and whether it differs. -/
def roundInt (rnd : Rnd) (neg : Bool) (m : Nat) (e : Int) : Nat × Bool := roundMag rnd neg m e false 0

/-- FRND (R134): an integral value with the operand's sign; NX when it differs, NV for a signalling NaN. -/
def frnd (rnd : Rnd) (x : Nat) : Nat × FFlags :=
  match fdec fp32 x with
  | .fin neg m e =>
    if m = 0 ∨ 0 ≤ e then (x, 0)
    else
      let (n, inexact) := roundInt rnd neg m e
      ((if n = 0 then fsign fp32 neg 0 else (roundFmt fp32 0 neg n 0 false).1), flagIf inexact fNX)
  | v => roundVal fp32 rnd v

/-- The square root of n, rounded down: bit by bit from bit k - 1. -/
def isqrt (n : Nat) : Nat → Nat → Nat
  | 0, r => r
  | k + 1, r => let c := r + 2 ^ k; isqrt n k (if c * c ≤ n then c else r)

/-- FRCP (R135). -/
def frcp (x : Nat) : Nat × FFlags :=
  match fdec fp32 x with
  | .nan s => (fnan fp32, flagIf s fNV)
  | .inf neg => (fsign fp32 neg 0, 0)
  | .fin neg m e =>
    if m = 0 then (fsign fp32 neg (finf fp32), fDZ)
    else roundFmt fp32 0 neg (2 ^ 64 / m) (-64 - e) (2 ^ 64 % m != 0)

/-- FSQRT (R135). -/
def fsqrt (rnd : Rnd) (x : Nat) : Nat × FFlags :=
  match fdec fp32 x with
  | .nan s => (fnan fp32, flagIf s fNV)
  | .inf neg => if neg then (fnan fp32, fNV) else (x, 0)
  | .fin neg m e =>
    if m = 0 then (x, 0)
    else if neg then (fnan fp32, fNV)
    else
      let odd := e % 2 = 1
      let k := (if odd then m * 2 else m) * 2 ^ 64
      let h := (if odd then e - 1 else e) / 2 - 32
      let r := isqrt k 48 0
      roundFmt fp32 rnd false r h (r * r != k)

/-- FRSQ (R135). -/
def frsq (x : Nat) : Nat × FFlags :=
  match fdec fp32 x with
  | .nan s => (fnan fp32, flagIf s fNV)
  | .inf neg => if neg then (fnan fp32, fNV) else (0, 0)
  | .fin neg m e =>
    if m = 0 then (fsign fp32 neg (finf fp32), fDZ)
    else if neg then (fnan fp32, fNV)
    else
      let odd := e % 2 = 1
      let k := if odd then m * 2 else m
      let h := (if odd then e - 1 else e) / 2
      let r := isqrt (2 ^ 128 / k) 65 0
      roundFmt fp32 0 false r (-64 - h) (r * r * k != 2 ^ 128)

/-! Conversions by FMT code (R60, R79, R137). -/

/-- The floating format of an FMT code (R60); FP32 stands for the codes that are no floating format. -/
def fmtOf (c : Nat) : Fmt :=
  match c with
  | 1 => fp16 | 2 => bf16 | 3 => e4m3 | 4 => e5m2 | _ => fp32

/-- The signed value of the low n bits (R75). -/
def sInt (n : Nat) (x : Nat) : Int :=
  let y := x % 2 ^ n
  if y < 2 ^ (n - 1) then (y : Int) else (y : Int) - 2 ^ n

/-- An integer as an exact value. -/
def ofInt (i : Int) : FVal := .fin (decide (i < 0)) i.natAbs 0

/-- The value of an element by its FMT code, for the codes that are no TE code (R73 to R75). -/
def elemVal (c : Nat) (x : Nat) : FVal :=
  match c with
  | 5 => ofInt (sInt 8 x)
  | 9 => ofInt (sInt 32 x)
  | _ => fdec (fmtOf c) x

/-- Convert to a two's complement integer of n bits (R79, R77). -/
def toIntFmt (n : Nat) (rnd : Rnd) : FVal → Nat × FFlags
  | .nan _ => (0, fNV)
  | .inf neg => (if neg then 2 ^ (n - 1) else 2 ^ (n - 1) - 1, fNV)
  | .fin neg m e =>
    let (r, inexact) := roundInt rnd neg m e
    if neg then
      if r ≤ 2 ^ (n - 1) then ((2 ^ n - r) % 2 ^ n, flagIf inexact fNX) else (2 ^ (n - 1), fNV)
    else if r < 2 ^ (n - 1) then (r, flagIf inexact fNX) else (2 ^ (n - 1) - 1, fNV)

/-- Convert a value to the format of an FMT code that is no TE code (R79). A nonzero value that a conversion turns into
an integer zero raises UF too (R77). -/
def convertTo (c : Nat) (rnd : Rnd) (v : FVal) : Nat × FFlags :=
  let intTo (n : Nat) : Nat × FFlags :=
    let (r, fl) := toIntFmt n rnd v
    match v with
    | .fin _ m _ => (r, fl ||| flagIf (m != 0 && r == 0) fUF)
    | _ => (r, fl)
  match c with
  | 5 => intTo 8
  | 9 => intTo 32
  | _ => roundVal (fmtOf c) rnd v

/-! E8M0 scaling (R80, R81). -/

/-- A value times 2^k. -/
def scaleBy (k : Int) : FVal → FVal
  | .fin neg m e => .fin neg m (e + k)
  | v => v

/-- The value of a scaled element: a scale of 0xFF makes it a NaN (R80). -/
def scaledVal (scale : Nat) (v : FVal) : FVal :=
  if scale = 255 then .nan false else scaleBy ((scale : Int) - 127) v

/-- |x| with an infinity counted as the largest FP32 magnitude (R81, R83): significand and exponent. -/
def absCounted : FVal → Nat × Int
  | .fin _ m e => (m, e)
  | _ => (2 ^ 24 - 1, 104)

/-- The sign of a value that is no NaN. -/
def signOf : FVal → Bool
  | .fin neg _ _ => neg
  | .inf neg => neg
  | .nan _ => false

/-- floor(log2) of the greatest magnitude, or none when every magnitude is zero. -/
def maxLog2 (l : List FVal) : Option Int :=
  l.foldl (fun acc v =>
    let (m, e) := absCounted v
    if m = 0 then acc
    else match acc with
      | none => some (msbExp m e)
      | some k => some (max k (msbExp m e))) none

/-- P of R81 by the FMT code of the element format. -/
def scaleP (c : Nat) : Int := match c with | 3 => 8 | 4 => 15 | _ => 6

/-- One element of a scaled group, rounded under .rn and saturating, with its flags (R81). Whether a value above the largest
finite magnitude that rounds back to it (450 to E4M3, 127.3 to INT8) counts as saturated, the spec does not settle between R81
and R77, R79: the model judges after rounding and raises NX alone (DESIGN CHOICE, log 110). -/
def scaledElem (c : Nat) (e : Int) (v : FVal) : Nat × FFlags :=
  let neg := signOf v
  match c, v with
  | 5, .inf _ => (if neg then 2 ^ 7 else 2 ^ 7 - 1, fNV)
  | 5, _ => convertTo 5 0 (scaleBy (127 - e) v)
  | _, .inf _ => (fsign (fmtOf c) neg (fmaxMag (fmtOf c)), fOF ||| fNX)
  | _, _ =>
    let (b, fl) := convertTo c 0 (scaleBy (127 - e) v)
    if fl &&& fOF = 0 then (b, fl) else (fsign (fmtOf c) neg (fmaxMag (fmtOf c)), fl)

/-- Choose the scale of a group of 8 values and encode its elements (R81). -/
def chooseScale (c : Nat) (x : List FVal) : Nat × List Nat × FFlags :=
  if x.any FVal.isNan then
    (255, x.map (fun _ => if c = 5 then 0 else fnan (fmtOf c)), flagIf (x.any FVal.isSnan) fNV)
  else
    let e : Int := match maxLog2 x with
      | none => 127
      | some k => max 0 (min 254 (k - scaleP c + 127))
    let els := x.map (scaledElem c e)
    (e.toNat, els.map (·.1), orFlags (els.map (·.2)))

/-! TE blocks (R82 to R84). -/

/-- m of R82 by FMT code: TE4 2, TE6 4, TE9 7. -/
def teM (c : Nat) : Nat := match c with | 6 => 2 | 7 => 4 | _ => 7

/-- Bits of a TE block (R82). -/
def teBits (m : Nat) : Nat := 16 + 16 * (1 + m)

/-- Pack 16 values into a TE block, as a number of teBits bits, with the flags of TEPACK (R83). -/
def tePack (m : Nat) (x : List FVal) : Nat × FFlags :=
  if x.any FVal.isNan then (0xFF, flagIf (x.any FVal.isSnan) fNV)
  else
    let e : Int := match maxLog2 x with
      | none => 0
      | some k => max 0 (k + 127)
    let below (v : FVal) : Bool :=
      let (mm, ee) := absCounted v
      mm == 0 || decide (msbExp mm ee < e - 128)
    let mu (j : Nat) : Bool := below (x.getD (2 * j) (.fin false 0 0)) && below (x.getD (2 * j + 1) (.fin false 0 0))
    let elem (i : Nat) : Nat × FFlags :=
      let v := x.getD i (.fin false 0 0)
      let (mm, ee) := absCounted v
      let k : Int := ((m : Int) - 1) + 127 + (if mu (i / 2) then 1 else 0) - e
      let (r, inexact) := if mm = 0 then (0, false) else roundMag 0 false mm (ee + k) false 0
      let mag := min r (2 ^ m - 1)
      let tooBig := decide (2 ^ m - 1 < r)
      let isInf := match v with | .inf _ => true | _ => false
      ((if signOf v then 2 ^ m else 0) + mag,
        flagIf (tooBig || isInf) fOF ||| flagIf (mm != 0 && !isInf && mag == 0) fUF ||| flagIf (inexact || tooBig || isInf) fNX)
    let els := (List.range 16).map elem
    let muBits := (List.range 8).foldl (fun acc j => acc + (if mu j then 2 ^ j else 0)) 0
    (e.toNat + muBits * 2 ^ 8 + (List.range 16).foldl (fun acc i => acc + (els.getD i (0, 0)).1 * 2 ^ (16 + i * (1 + m))) 0,
      orFlags (els.map (·.2)))

/-- The value of element i of a TE block (R82). -/
def teElem (m : Nat) (block : Nat) (i : Nat) : FVal :=
  let e := block % 256
  if e = 255 then .nan false
  else
    let mu : Int := if (block / 2 ^ (8 + i / 2)) % 2 = 1 then 1 else 0
    let el := block / 2 ^ (16 + i * (1 + m)) % 2 ^ (1 + m)
    .fin (decide (2 ^ m ≤ el)) (el % 2 ^ m) ((e : Int) - 127 - mu - ((m : Int) - 1))

/-! Matrix arithmetic (R85 to R89). -/

/-- The product of an A and a B element (R85). -/
def mprod (a b : FVal) : FVal := (fprod a b).1

/-- The sum of a group's products, exact; a zero sum is +0 (R86). -/
def groupSum (l : List FVal) : FVal :=
  if l.any FVal.isNan then .nan false
  else
    let pos := l.any (fun v => match v with | .inf false => true | _ => false)
    let neg := l.any (fun v => match v with | .inf true => true | _ => false)
    if pos && neg then .nan false
    else if pos then .inf false
    else if neg then .inf true
    else
      let e0 := l.foldl (fun acc v => match v with | .fin _ _ e => min acc e | _ => acc) 0
      let s := l.foldl (fun acc v => match v with | .fin n m e => acc + scaledInt n m e e0 | _ => acc) (0 : Int)
      .fin (decide (s < 0)) s.natAbs e0

/-- acc + S, rounded once under .rn to FP32 (R86). -/
def addRn (acc : Nat) (s : FVal) : Nat := (roundVal fp32 0 (fsum 0 (fdec fp32 acc) s).1).1

/-- The three BF16 slices of an FP32 value (R88). -/
def slices (x : Nat) : FVal × FVal × FVal :=
  let zero : FVal := .fin false 0 0
  match fdec fp32 x with
  | .fin neg m e =>
    let toB (v : FVal) : FVal :=
      match fdec bf16 (roundVal bf16 0 v).1 with
      | .inf n => fdec bf16 (fsign bf16 n (fmaxMag bf16))
      | w => w
    let v := FVal.fin neg m e
    let s0 := toB v
    let r1 := (fsum 0 v (fneg s0)).1
    let s1 := toB r1
    let r2 := (fsum 0 r1 (fneg s1)).1
    (s0, s1, toB r2)
  | v => (fdec bf16 (roundVal bf16 0 v).1, zero, zero)

/-- A non-finite slice value counts as +0 outside the pair (0, 0) (R88). -/
def sliceOrZero (v : FVal) : FVal :=
  match v with
  | .fin _ _ _ => v
  | _ => .fin false 0 0

end Sys2Proof.Machine
end

