-- ==== Sys2Proof/Machine/Trans.lean ====
section
/-! DEFINITION. FEXP2, FLOG2, FSIN and FCOS (09 R135): correctly rounded. Each is enclosed between two integers at a scale
of 2^-q and rounded when both ends round alike; the scale is doubled while they do not. No argument of FP32 is known to
need the last scale (log 14). -/

namespace Sys2Proof.Machine

/-- Sum over k below n of (p / (2k+1)), where p is multiplied by z2 * 2^-q at each step: the series of atanh. -/
def atanhSeries (q z2 : Nat) : Nat → Nat → Nat → Nat → Nat
  | 0, _, _, acc => acc
  | n + 1, k, p, acc => atanhSeries q z2 n (k + 1) (p * z2 / 2 ^ q) (acc + p / (2 * k + 1))

/-- An enclosure of atanh(a / b) * 2^q for a / b at most 1/3. -/
def atanhEncl (q a b : Nat) : Nat × Nat :=
  let n := q / 3 + 8
  let z := a * 2 ^ q / b
  let s := atanhSeries q (z * z / 2 ^ q) n 0 z 0
  (s, s + 4 * n + 16)

/-- An enclosure of ln 2 * 2^q. -/
def ln2Encl (q : Nat) : Nat × Nat :=
  let (lo, hi) := atanhEncl q 1 3
  (2 * lo, 2 * hi)

/-- Sum over n further terms of the exponential series of g * 2^-q. -/
def expSeries (q g : Nat) : Nat → Nat → Nat → Nat → Nat
  | 0, _, _, acc => acc
  | n + 1, k, t, acc => expSeries q g n (k + 1) (t * g / 2 ^ q / (k + 1)) (acc + t)

/-- The alternating series of atan(1 / c) * 2^q: positive and negative parts are summed as an integer. -/
def atanInv (c2 : Nat) : Nat → Nat → Nat → Int → Int
  | 0, _, _, acc => acc
  | n + 1, k, p, acc =>
    let t : Int := (p / (2 * k + 1) : Nat)
    atanInv c2 n (k + 1) (p / c2) (if k % 2 = 0 then acc + t else acc - t)

/-- An enclosure of pi * 2^q. -/
def piEncl (q : Nat) : Int × Int :=
  let n := q / 4 + 8
  let s := 16 * atanInv 25 n 0 (2 ^ q / 5) 0 - 4 * atanInv (239 * 239) n 0 (2 ^ q / 239) 0
  (s - 20 * n - 40, s + 20 * n + 40)

/-- The series of sine (from t = r, k = 1) or cosine (from t = 1, k = 0) of r * 2^-q. -/
def trigSeries (q : Nat) (r2 : Int) : Nat → Nat → Int → Int → Int
  | 0, _, _, acc => acc
  | n + 1, k, t, acc =>
    trigSeries q r2 n (k + 2) (-(t * r2 / 2 ^ q / (((k + 1) * (k + 2) : Nat) : Int))) (acc + t)

/-- Round a value strictly between lo * 2^e and hi * 2^e to FP32 under .rn, if both ends round alike. -/
def roundEncl (lo hi : Int) (e : Int) : Option (Nat × FFlags) :=
  if 0 < lo then
    let a := roundFmt fp32 0 false lo.toNat e true
    let b := roundFmt fp32 0 false (hi - 1).toNat e true
    if a = b then some a else none
  else if hi < 0 then
    let a := roundFmt fp32 0 true (-hi).toNat e true
    let b := roundFmt fp32 0 true (-lo - 1).toNat e true
    if a = b then some a else none
  else none

/-- The first enclosure that rounds, over doubling scales; the middle of the last one if none does. -/
def zivLoop (encl : Nat → Int × Int × Int) : Nat → Nat → Nat × FFlags
  | 0, q => let (lo, _, e) := encl q; roundFmt fp32 0 (decide (lo < 0)) lo.natAbs e true
  | n + 1, q =>
    let (lo, hi, e) := encl q
    match roundEncl lo hi e with
    | some r => r
    | none => zivLoop encl n (2 * q)

/-- An enclosure of 2^x for x = (-1)^neg * m * 2^-d that is no integer, as integers times a power of two. -/
def exp2Encl (neg : Bool) (m d : Nat) (q : Nat) : Int × Int × Int :=
  let x : Int := if neg then -(m : Int) else m
  let n : Int := x / 2 ^ d
  let f : Nat := (x % 2 ^ d).toNat * 2 ^ (q - d)
  let (l, h) := ln2Encl q
  let steps := q / 3 + 12
  let lo := expSeries q (f * l / 2 ^ q) steps 0 (2 ^ q) 0
  let hi := expSeries q (f * h / 2 ^ q + 1) steps 0 (2 ^ q) 0 + 2 * steps + 8
  (lo, hi, max (-400) (min 400 n) - q)

/-- FEXP2 (R135). -/
def fexp2 (x : Nat) : Nat × FFlags :=
  match fdec fp32 x with
  | .nan s => (fnan fp32, flagIf s fNV)
  | .inf neg => if neg then (0, 0) else (finf fp32, 0)
  | .fin neg m e =>
    if m = 0 then (0x3F800000, 0)
    else if 0 ≤ e ∨ m % 2 ^ (-e).toNat = 0 then
      let n : Int := if 0 ≤ e then (m * 2 ^ (min e 16).toNat : Nat) else (m / 2 ^ (-e).toNat : Nat)
      roundFmt fp32 0 false 1 (max (-400) (min 400 (if neg then -n else n))) false
    else zivLoop (exp2Encl neg m (-e).toNat) 4 192

/-- An enclosure of log2(m * 2^e) for a significand m that is no power of two. -/
def log2Encl (m : Nat) (e : Int) (q : Nat) : Int × Int × Int :=
  let k := Nat.log2 m
  let (a, b) := atanhEncl q (m - 2 ^ k) (m + 2 ^ k)
  let (l, h) := ln2Encl q
  let lo : Int := (2 * a * 2 ^ q / h : Nat)
  let hi : Int := (2 * b * 2 ^ q / l + 2 : Nat)
  let n : Int := ((k : Int) + e) * 2 ^ q
  (n + lo, n + hi, -(q : Int))

/-- FLOG2 (R135). -/
def flog2 (x : Nat) : Nat × FFlags :=
  match fdec fp32 x with
  | .nan s => (fnan fp32, flagIf s fNV)
  | .inf neg => if neg then (fnan fp32, fNV) else (x, 0)
  | .fin neg m e =>
    if m = 0 then (fsign fp32 true (finf fp32), fDZ)
    else if neg then (fnan fp32, fNV)
    else
      let k := Nat.log2 m
      if m = 2 ^ k then
        let n : Int := (k : Int) + e
        if n = 0 then (0, 0) else roundFmt fp32 0 (decide (n < 0)) n.natAbs 0 false
      else zivLoop (log2Encl m e) 4 128

/-- An enclosure of the sine of m * 2^e, or with turn 1 of its cosine; negated when neg. -/
def trigEncl (turn : Nat) (neg : Bool) (m : Nat) (e : Int) (q : Nat) : Int × Int × Int :=
  let x : Int := (m * 2 ^ (e + q).toNat : Nat)
  let (pl, ph) := piEncl q
  let k : Int := 2 * x / pl
  let rlo := x - (k * ph + 1) / 2
  let rhi := x - k * pl / 2
  let steps := q / 4 + 24
  let r2 := rlo * rlo / 2 ^ q
  let quad := (k + turn) % 4
  let s := if quad % 2 = 0 then trigSeries q r2 steps 1 rlo 0 else trigSeries q r2 steps 0 (2 ^ q) 0
  let err := 8 * (steps : Int) + (rhi - rlo) + 8
  let minus := decide (2 ≤ quad) != neg
  if minus then (-s - err, -s + err, -(q : Int)) else (s - err, s + err, -(q : Int))

/-- FSIN (R135). -/
def fsin (x : Nat) : Nat × FFlags :=
  match fdec fp32 x with
  | .nan s => (fnan fp32, flagIf s fNV)
  | .inf _ => (fnan fp32, fNV)
  | .fin neg m e => if m = 0 then (x, 0) else zivLoop (trigEncl 0 neg m e) 3 320

/-- FCOS (R135). -/
def fcos (x : Nat) : Nat × FFlags :=
  match fdec fp32 x with
  | .nan s => (fnan fp32, flagIf s fNV)
  | .inf _ => (fnan fp32, fNV)
  | .fin _ m e => if m = 0 then (0x3F800000, 0) else zivLoop (trigEncl 1 false m e) 3 320

end Sys2Proof.Machine
end

