-- ==== Sys2Proof/Machine/Fp.lean ====
section
/-! DEFINITION. FP32 and packed 16-bit arithmetic (09 R129, R131 to R136). -/

namespace Sys2Proof.Machine

/-- A word that writes D lane by lane and raises the flags of its active lanes (R65, R122). -/
def fpWord (s : State) (regs : List Fld) (d : Fld) (g : Warp → Nat → Nat × FFlags) : Host.Outcome State Fault Refusal :=
  warpWord s (regs ++ [d]) (fun w =>
    raise (mapLanes w d (fun l => BitVec.ofNat 32 (g w l).1)) (orFlags ((lanesOf w.act).map (fun l => (g w l).2))))

/-- One FP32 source. -/
def fp1 (s : State) (d a : Fld) (f : Nat → Nat × FFlags) : Host.Outcome State Fault Refusal :=
  fpWord s [a] d (fun w l => f (rd w a l).toNat)

/-- Two FP32 sources. -/
def fp2 (s : State) (d a b : Fld) (f : Nat → Nat → Nat × FFlags) : Host.Outcome State Fault Refusal :=
  fpWord s [a, b] d (fun w l => f (rd w a l).toNat (rd w b l).toNat)

/-- Two FP32 sources, no flags. -/
def fp2q (s : State) (d a b : Fld) (f : Nat → Nat → Nat) : Host.Outcome State Fault Refusal :=
  alu2 s d a b (fun x y => BitVec.ofNat 32 (f x.toNat y.toNat))

/-- A 16-bit format applied to both halves (R136). -/
def halves (f : Nat → Nat → Nat → Nat × FFlags) (x y z : Nat) : Nat × FFlags :=
  let lo := f (x % 2 ^ 16) (y % 2 ^ 16) (z % 2 ^ 16)
  let hi := f (x / 2 ^ 16) (y / 2 ^ 16) (z / 2 ^ 16)
  (lo.1 + hi.1 * 2 ^ 16, lo.2 ||| hi.2)

/-- Two packed sources (R136). -/
def packed2 (s : State) (d a b : Fld) (f : Nat → Nat → Nat × FFlags) : Host.Outcome State Fault Refusal :=
  fp2 s d a b (fun x y => halves (fun p q _ => f p q) x y 0)

/-- Three packed sources (R136). -/
def packed3 (s : State) (d a b c : Fld) (f : Nat → Nat → Nat → Nat × FFlags) : Host.Outcome State Fault Refusal :=
  fpWord s [a, b, c] d (fun w l => halves f (rd w a l).toNat (rd w b l).toNat (rd w c l).toNat)

/-- FABS and FNEG (R133): a NaN gives the canonical NaN. -/
def signOp (f : Word → Word) (x : Word) : Word := if (fdec fp32 x.toNat).isNan then 0x7FC00000 else f x

def execFcmp (d a b : Fld) (sub : BitVec 4) (s : State) : Host.Outcome State Fault Refusal :=
  warpWord s [a, b] (fun w => mapPred w d (fun l => fcmpTrue sub.toNat (rd w a l).toNat (rd w b l).toNat))
def execFadd (d a b : Fld) (s : State) := fp2 s d a b (fadd fp32 0)
def execFaddT (d a b : Fld) (rnd : BitVec 2) (s : State) := fp2 s d a b (fadd fp32 rnd.toNat)
def execFsub (d a b : Fld) (s : State) := fp2 s d a b (fsub fp32 0)
def execFsubT (d a b : Fld) (rnd : BitVec 2) (s : State) := fp2 s d a b (fsub fp32 rnd.toNat)
def execFmul (d a b : Fld) (s : State) := fp2 s d a b (fmul fp32 0)
def execFmulT (d a b : Fld) (rnd : BitVec 2) (s : State) := fp2 s d a b (fmul fp32 rnd.toNat)
def execFfma (d a b c : Fld) (rnd : BitVec 2) (s : State) : Host.Outcome State Fault Refusal :=
  fpWord s [a, b, c] d (fun w l => ffma fp32 rnd.toNat (rd w a l).toNat (rd w b l).toNat (rd w c l).toNat)
def execFmin (d a b : Fld) (s : State) := fp2q s d a b (fminmax fp32 false)
def execFmax (d a b : Fld) (s : State) := fp2q s d a b (fminmax fp32 true)
def execFabs (d a : Fld) (s : State) := alu1 s d a (signOp (fun x => x &&& 0x7FFFFFFF))
def execFneg (d a : Fld) (s : State) := alu1 s d a (signOp (fun x => x ^^^ 0x80000000))
def execFrnd (d a : Fld) (rnd : BitVec 2) (s : State) := fp1 s d a (frnd rnd.toNat)
def execFrcp (d a : Fld) (s : State) := fp1 s d a frcp
def execFrsq (d a : Fld) (s : State) := fp1 s d a frsq
def execFsqrt (d a : Fld) (rnd : BitVec 2) (s : State) := fp1 s d a (fsqrt rnd.toNat)
def execFexp2 (d a : Fld) (s : State) := fp1 s d a fexp2
def execFlog2 (d a : Fld) (s : State) := fp1 s d a flog2
def execFsin (d a : Fld) (s : State) := fp1 s d a fsin
def execFcos (d a : Fld) (s : State) := fp1 s d a fcos
def execFclass (d a : Fld) (s : State) := alu1 s d a (fun x => BitVec.ofNat 32 (fclass x.toNat))
def execHadd2 (d a b : Fld) (s : State) := packed2 s d a b (fadd fp16 0)
def execHmul2 (d a b : Fld) (s : State) := packed2 s d a b (fmul fp16 0)
def execHfma2 (d a b c : Fld) (s : State) := packed3 s d a b c (ffma fp16 0)
def execHmax2 (d a b : Fld) (s : State) := packed2 s d a b (fun x y => (fminmax fp16 true x y, 0))
def execHmin2 (d a b : Fld) (s : State) := packed2 s d a b (fun x y => (fminmax fp16 false x y, 0))
def execBadd2 (d a b : Fld) (s : State) := packed2 s d a b (fadd bf16 0)
def execBmul2 (d a b : Fld) (s : State) := packed2 s d a b (fmul bf16 0)
def execBfma2 (d a b c : Fld) (s : State) := packed3 s d a b c (ffma bf16 0)

end Sys2Proof.Machine
end

