-- ==== Sys2Proof/Machine/Conv.lean ====
section
/-! DEFINITION. Conversions: CVT, TEPACK, TEUNPK, SCALEX (09 R137 to R139). -/

namespace Sys2Proof.Machine

/-- Bits of an element of an FMT code that is no TE code (R60, R137). -/
def fmtBits (c : Nat) : Nat := match c with
  | 0 => 32
  | 1 => 16
  | 2 => 16
  | 9 => 32
  | _ => 8

/-- A part of a register (R137). -/
def partVal (c part : Nat) (x : Nat) : Nat := x / 2 ^ (fmtBits c * part) % 2 ^ fmtBits c

/-- A register with one part replaced (R137). -/
def partSet (c part : Nat) (x y : Nat) : Nat :=
  x - partVal c part x * 2 ^ (fmtBits c * part) + y % 2 ^ fmtBits c * 2 ^ (fmtBits c * part)

/-- CVT of one lane (R137): the destination's old value, the source register. Equal codes leave every value but a NaN. -/
def cvtW (sub : BitVec 4) (rnd : BitVec 2) (aux : Fld) (old a : Nat) : Nat × FFlags :=
  let src := field aux 7 4
  let dst := field aux 3 0
  let e := partVal src (field sub 1 0) a
  let v := elemVal src e
  let r := convertTo dst rnd.toNat v
  let r := if src = dst ∧ !v.isNan then (e, (0 : FFlags)) else r
  (partSet dst (field sub 3 2) old r.1, r.2)

def execCvt (d a : Fld) (sub : BitVec 4) (rnd : BitVec 2) (aux : Fld) (s : State) : Host.Outcome State Fault Refusal :=
  fpWord s [a] d (fun w l => cvtW sub rnd aux (rd w d l).toNat (rd w a l).toNat)

/-- The value that a lane gives to a cooperative conversion: +0 where it is not active (R138, R139). -/
def laneVal (w : Warp) (a : Fld) (l : Nat) : FVal :=
  if w.act.getLsbD l then fdec fp32 (rd w a l).toNat else .fin false 0 0

/-- Words of the image of two TE blocks (R138). -/
def teWords (c : Nat) : Nat := teBits (teM c) * 2 / 32

/-- Block g of TEPACK with its flags (R138). -/
def teBlock (w : Warp) (a : Fld) (c g : Nat) : Nat × FFlags :=
  tePack (teM c) ((List.range 16).map (fun i => laneVal w a (16 * g + i)))

/-- The image of the two blocks, back to back (R138). -/
def teImage (w : Warp) (a : Fld) (c : Nat) : Nat :=
  (teBlock w a c 0).1 + (teBlock w a c 1).1 * 2 ^ teBits (teM c)

def execTepack (d a : Fld) (aux : Fld) (s : State) : Host.Outcome State Fault Refusal :=
  let c := field aux 3 0
  warpWord s [a, d] (fun w =>
    raise (mapLanes w d (fun l => if l < teWords c then BitVec.ofNat 32 (teImage w a c / 2 ^ (32 * l)) else 0))
      ((teBlock w a c 0).2 ||| (teBlock w a c 1).2))

/-- The image that TEUNPK reads from its lanes (R138). -/
def teGather (w : Warp) (a : Fld) (c : Nat) : Nat :=
  (List.range (teWords c)).foldl
    (fun n k => n + (if w.act.getLsbD k then (rd w a k).toNat else 0) * 2 ^ (32 * k)) 0

def execTeunpk (d a : Fld) (aux : Fld) (s : State) : Host.Outcome State Fault Refusal :=
  let c := field aux 7 4
  let n := teBits (teM c)
  warpWord s [a, d] (fun w => mapLanes w d (fun l =>
    BitVec.ofNat 32 (roundVal fp32 0 (teElem (teM c) (teGather w a c / 2 ^ (n * (l / 16)) % 2 ^ n) (l % 16))).1))

/-- Group g of the encode form of SCALEX: scale, elements and flags (R139). -/
def scaleGroup (w : Warp) (a : Fld) (c g : Nat) : Nat × List Nat × FFlags :=
  chooseScale c ((List.range 8).map (fun i => laneVal w a (8 * g + i)))

/-- SCALEX (R139): SUB 0 encodes with a chosen scale, SUB 1 decodes. -/
def execScalex (d a b : Fld) (sub : BitVec 4) (aux : Fld) (s : State) : Host.Outcome State Fault Refusal :=
  let c := field aux 3 0
  if sub = 0 then
    warpWord s [a, d] (fun w =>
      raise (mapLanes w d (fun l =>
          let g := scaleGroup w a c (l / 8)
          BitVec.ofNat 32 (g.1 * 256 + g.2.1.getD (l % 8) 0)))
        (orFlags ((List.range 4).map (fun g => (scaleGroup w a c g).2.2))))
  else
    warpWord s [a, b, d] (fun w => mapLanes w d (fun l =>
      BitVec.ofNat 32 (roundVal fp32 0 (scaledVal (field (rd w b l) 7 0) (elemVal c (field (rd w a l) 7 0)))).1))

end Sys2Proof.Machine
end

