-- ==== Sys2Proof/Machine/Wait.lean ====
section
/-! DEFINITION. Waiting conditions that are evaluated when a warp is looked at (01 R38, 07 R93): timeline handles
(11 R179, R180), futures (17 R263, R265), barriers, arrival counters; the retry of a word that could not act yet. -/

namespace Sys2Proof.Machine

/-! Timeline counters (R179, R180). -/

/-- A handle names a counter that a context may read (R180). The spec does not say whether a splicer context whose EN is 0 is
an engine that is not enabled: the model asks that its link is enabled and that the context owns it (DESIGN CHOICE,
log 90). -/
def handleOk (s : State) (ctx : Nat) (h : Word) : Bool :=
  let die := field h 27 26
  let core := field h 25 20
  let link := field h 9 5
  let ix := field h 2 0
  let clean := field h 19 10 == 0 && field h 4 3 == 0
  clean && (match field h 31 28 with
    | 1 => link == 0 && ix == 0 && coreOn s (64 * die + core)
    | 2 => link == 0 && coreOn s (64 * die + core)
    | 3 => link == 0 && core == 0 && s.dieEn.getLsbD die
    | 4 => die == 0 && core == 0 && linkOn s link && field (splRec s (8 * link + ix)).cfg 59 48 == ctx
    | 5 => die == 0 && core == 0 && link == 0 && ix == 0
    | _ => false)

/-- The value of the counter that a handle names for a context (R179). -/
def handleVal (s : State) (ctx : Nat) (h : Word) : Nat :=
  if field h 31 28 = 4 then (splRec s (8 * field h 9 5 + field h 2 0)).tl.value
  else (tlOf s ctx h.toNat).value

/-- The signed distance of two 32-bit counts is not negative (R93, R212). -/
def reached (a b : Word) : Bool := !(a - b).msb

/-! Futures (R263 to R265). -/

/-- The index of a future handle (R263). -/
def futIx (h : Word) : Nat := field h 19 0

/-- The entry that a handle names. -/
def futEntry (s : State) (ctx : Nat) (h : Word) : Fut := tgetD Fut.empty (ctxRec s ctx).futures (futIx h)

/-- The number of entries of a context's future table, from the descriptor that the grid read (R263, R384). -/
def futSize (d : BitVec 1024) : Nat := 2 ^ field d 63 59

/-- A handle is not stale (R258: 0x43). -/
def futOk (s : State) (wg : Nat) (h : Word) : Bool :=
  match gridOfWg s wg with
  | none => false
  | some g =>
    let e := futEntry s g.ctx h
    field h 31 20 != 0 && decide (futIx h < futSize g.desc) && e.gen == field h 31 20 && e.st != 0

/-- A future is resolved. -/
def futDone (s : State) (wg : Nat) (h : Word) : Bool := (futEntry s (ctxOfWg s wg) h).st == 2

/-! The clause-header wait (R93). -/

/-- The phase of the warp's most recent arrival at a barrier, if it has arrived: the latest of the threads that the warp
holds. Whether an arrival still counts whose thread has executed EXIT or has been filed since, the spec does not say; here
it does not (DESIGN CHOICE, log 91). -/
def warpArrival (w : Warp) (n : Nat) : Option Nat :=
  w.threads.foldl (fun m e => match m, tget e.2.barArr n with
    | none, x => x
    | some a, some b => some (max a b)
    | some a, none => some a) none

/-- The condition of a header wait: what it needs is read when the wait begins. Kind 1: barrier + 32 * phase; kind 2:
the register; kind 3: handle + 2^32 * threshold; kind 4: the count; kind 5: the handle. -/
def headerDone (s : State) (w : Warp) (kind arg : Nat) : Bool :=
  match kind with
  | 1 => match tget s.wgs w.wg with
    | some g => barDone g (arg % 32) (arg / 32)
    | none => true
  | 2 => !anyPending w [BitVec.ofNat 8 arg]
  | 3 => reached (BitVec.ofNat 32 (handleVal s (ctxOfWg s w.wg) (BitVec.ofNat 32 arg))) (BitVec.ofNat 32 (arg / 2 ^ 32))
  | 4 => reached w.arrive (BitVec.ofNat 32 arg)
  | 5 => futDone s w.wg (BitVec.ofNat 32 arg)
  | _ => true

/-- The registers that a header wait reads (R93). -/
def headerRegs (h : Header) : List Fld :=
  let f : Fld := BitVec.ofNat 8 (192 + h.waitArg.toNat)
  match h.waitKind with
  | 3 => [f, f + 1]
  | 4 => [f]
  | 5 => [f]
  | _ => []

/-- What a header wait needs as it begins: a fault code, or the argument of headerDone, or none where the warp does not
wait (R93, R198, R180, R258). -/
def headerArg (s : State) (w : Warp) (h : Header) : Except Nat (Option Nat) :=
  let f : Fld := BitVec.ofNat 8 (192 + h.waitArg.toNat)
  let x := rd w f 0
  match h.waitKind with
  | 1 =>
    let n := h.waitArg.toNat
    if hNbar (hdrOf s w.wg) ≤ n then .error 0x40
    else .ok ((warpArrival w n).map (fun ph => n + 32 * ph))
  | 2 => .ok (some f.toNat)
  | 3 => if handleOk s (ctxOfWg s w.wg) x then .ok (some (x.toNat + 2 ^ 32 * (rd w (f + 1) 0).toNat)) else .error 0x1C
  | 4 => .ok (some x.toNat)
  | 5 => if futOk s w.wg x then .ok (some x.toNat) else .error 0x43
  | _ => .ok none

/-! Censuses. -/

/-- The census with a given number, wherever it is kept. -/
def censusById (s : State) (id : Nat) : Option Census :=
  ((s.cores.flatMap (fun e => e.2.census.map (·.2))) ++
    (s.ctxs.flatMap (fun e => e.2.saved.flatMap (fun x => x.census.map (·.2))))).find? (fun c => c.id == id)

/-- A census that a lane waits for is complete, or is gone. -/
def censusReady (s : State) (id : Nat) : Bool := match censusById s id with
  | none => true
  | some c => censusComplete s c

/-! Filing into reform bins (R20, R53, R151). -/

/-- The lane's thread as a bin holds it: its name, registers and predicate bits go with it (R20). -/
def filed (w : Warp) (a : Fld) (l : Nat) (t : Thread) : Filed :=
  let pc := regTarget (curHdr t) (rd w a l)
  ⟨{ t with pc := ⟨pc, 0⟩, wait := .none, next := ⟨pc, 0⟩, passes := 0, pass1 := false },
   (w.v.filter (fun e => e.1 % 32 == l)).map (fun e => (e.1 / 32, e.2)),
   BitVec.ofNat 8 ((List.range 8).foldl (fun n i =>
     if (tgetD 0 w.p i).getLsbD l then n + 2 ^ i else n) 0),
   (w.spoilt.filter (fun p => decide (p < 32 * 192) && p % 32 == l)).map (· / 32)⟩
where
  /-- The clause in which the thread stands. -/
  curHdr (t : Thread) : DWord := t.pc.hdr

/-- A new bin of a filing warp (R22, R53). -/
def newBin (s : State) (c : Nat) (w : Warp) (pc : DWord) : Bin :=
  ⟨w.wg, pc, w.claimed, [], w.w, w.role, 0, false, wgClock s c w.wg, none,
    (w.spoilt.filter (fun p => decide (32 * 192 ≤ p))).map (· / 32)⟩

/-- A bin with one more thread; it becomes due with its 32nd (R22). -/
def binPut (now : Nat) (w : Warp) (b : Bin) (f : Filed) : Bin :=
  { b with threads := b.threads ++ [f], flags := b.flags ||| w.flags, sstep := b.sstep || w.sstep,
           due := if b.due.isNone && b.threads.length + 1 == 32 then some now else b.due }

/-- File one lane: into the bin with its key that holds fewer than 32 threads, else into an empty bin, of which the spec
leaves the choice open and the model takes the lowest (DESIGN CHOICE, log 92); the second part counts the bins taken
(R20). -/
def fileLane (s : State) (c : Nat) (w : Warp) (a : Fld) (acc : Option (Tbl Bin × Nat)) (l : Nat) :
    Option (Tbl Bin × Nat) :=
  match acc, thr w l with
  | some (bs, n), some t =>
    let f := filed w a l t
    let pc := f.thread.pc.hdr
    let now := cycleOf s (dieOf c)
    match bs.find? (fun e => e.2.wg == w.wg && e.2.pc == pc && e.2.claimed == w.claimed &&
        decide (e.2.threads.length < 32)) with
    | some (i, b) => some (tput bs i (binPut now w b f), n)
    | none =>
      match (List.range 16).find? (fun i => (tget bs i).isNone) with
      | some i => some (tput bs i (binPut now w (newBin s c w pc) f), n + 1)
      | none => none
  | x, _ => x

/-- The bins of a core after all the lanes of a mask are filed, or none where a bin or a frame is missing (R20, R53). -/
def fileLanes (s : State) (c : Nat) (w : Warp) (a : Fld) (m : Mask) : Option (Tbl Bin) :=
  match (lanesOf m).foldl (fileLane s c w a) (some ((coreRec s c).bins, 0)) with
  | none => none
  | some (bs, n) => if framesUsed s c + n * granules w.claimed ≤ 128 then some bs else none

/-- The lanes that stall at the REFORM of a thread, by its place and register. -/
def reformMates (w : Warp) (t : Thread) : Mask := lanesWhere w (fun u => u.wait == t.wait && u.pc == t.pc)

/-! The sweep. -/

/-- The lanes whose wait is over: they go on at the word after the one they wait at. -/
def sweepDone (s : State) (w : Warp) : Mask :=
  lanesWhere w (fun t => match t.wait with
    | .bar n => match tget s.wgs w.wg, tget t.barArr n with
      | some g, some ph => barDone g n ph
      | _, _ => true
    | .arrive a => reached w.arrive a
    | .timeline h v => decide (v.toNat ≤ handleVal s (ctxOfWg s w.wg) h)
    | .futures hs => hs.isEmpty
    | _ => false)

/-- The lanes whose header wait is over. -/
def sweepHeader (s : State) (w : Warp) : Mask :=
  lanesWhere w (fun t => match t.wait with
    | .header kind arg => headerDone s w kind arg
    | _ => false)

/-- The lanes that issue the word at which they wait again. -/
def sweepRetry (s : State) (k : Nat) (w : Warp) : Mask :=
  lanesWhere w (fun t => match t.wait with
    | .census ids => ids.all (censusReady s)
    | .reform a => (fileLanes s (coreOf k) w a (reformMates w t)).isSome
    | _ => false)

/-- Look at the waiting conditions of a warp: what has come to hold ends its wait (R38). -/
def sweep (s : State) (k : Nat) : State :=
  match tget s.warps k with
  | none => s
  | some w =>
    let done := sweepDone s w
    let hdr := sweepHeader s w
    let again := sweepRetry s k w
    let w := modLanes w hdr (fun _ t => { t with wait := .headerOk })
    let w := modLanes w again (fun _ t => { t with wait := .none })
    let s := setWarp s k w
    if done = 0 then s else releaseLanes s k done

/-- Some thread of a warp can be issued. -/
def warpReady (s : State) (k : Nat) : Bool := match tget s.warps k with
  | none => false
  | some w => decide (w.act ≠ 0) || decide (w.cand ≠ 0) || w.threads.any (fun e => ready e.2)

end Sys2Proof.Machine
end

