-- ==== Sys2Proof/Machine/Ctl.lean ====
section
/-! DEFINITION. The issue of a clause (07 R93 to R99), branches and calls (09 R144 to R146), reconvergence (R147 to
R149), EXIT, REFORM, NOP and SLEEP (R150 to R152). -/

namespace Sys2Proof.Machine

/-! Branches. -/

/-- Send each active lane to its own clause; the issue of a branch is a choice point (R143, R145). -/
def branchTo (s : State) (k : Nat) (w : Warp) (dest : Nat → DWord) : State :=
  setWarp s k (choicePoint (modLanes w w.act (fun l t => { t with pc := ⟨dest l, 0⟩ })))

/-- The lowest active lane whose register target is not a multiple of 4 (R144). -/
def badTarget (w : Warp) (a : Fld) : Option Nat := (lanesOf w.act).find? (fun l => (rd w a l).extractLsb' 0 2 != 0)

/-- A branch of every active lane to its register target (R144). -/
def branchReg (s : State) (k : Nat) (w : Warp) (a : Fld) (post : Warp → Warp) : Eff :=
  match badTarget w a with
  | some l => .fault 1 0 l 0
  | none => .moved (branchTo s k (post w) (fun l => regTarget (curPC w).hdr (rd w a l)))

/-- The value of a link register: the low half of the address of the next clause header (R146). -/
def linkValue (w : Warp) : Word := (endPC w).hdr.extractLsb' 0 32

def execBra (off : BitVec 24) (s : State) : Host.Outcome State Fault Refusal :=
  laneWord s [] (fun s k w => .moved (branchTo s k w (fun _ => brTarget (curPC w).hdr off)))
def execBrc (off : BitVec 24) (pd : BitVec 3) (pn : BitVec 1) (s : State) : Host.Outcome State Fault Refusal :=
  laneWord s [] (fun s k w => .moved (branchTo s k w (fun l =>
    if predBit w pd pn l then brTarget (curPC w).hdr off else (endPC w).hdr)))
def execBrx (a : Fld) (s : State) : Host.Outcome State Fault Refusal :=
  laneWord s [a] (fun s k w => branchReg s k w a id)
def execCall (off : BitVec 24) (c : Fld) (s : State) : Host.Outcome State Fault Refusal :=
  laneWord s [c] (fun s k w =>
    .moved (branchTo s k (mapLanes w c (fun _ => linkValue w)) (fun _ => brTarget (curPC w).hdr off)))
def execCallx (d a : Fld) (s : State) : Host.Outcome State Fault Refusal :=
  laneWord s [a, d] (fun s k w => branchReg s k w a (fun w1 => mapLanes w1 d (fun _ => linkValue w)))
def execRet (a : Fld) (s : State) : Host.Outcome State Fault Refusal :=
  laneWord s [a] (fun s k w => branchReg s k w a id)

/-! Reconvergence. -/

/-- The newest entry of a lane was opened before the open take of which the lane is a member (R293). -/
def outerEntry (w : Warp) (l : Nat) : Bool :=
  match w.take, innermost w l with
  | some tk, some r => (members w).getLsbD l && tk.ckRecon.any (fun c => c.id == r.id)
  | _, _ => false

def execReconv (off : BitVec 24) (s : State) : Host.Outcome State Fault Refusal :=
  laneWord s [] (fun s k w =>
    if 16 ≤ w.recon.length then .fault 0x39 0 ((lowest w.act).getD 0) 0
    else .next (setWarp s k { w with
      recon := ⟨w.reconNext, brTarget (curPC w).hdr off, w.act, 0⟩ :: w.recon
      reconNext := w.reconNext + 1 }))

/-- The fault of an RJOIN for a lane: no entry or another join clause 0x3A, a take's outer entry 0x50 (R148, R293). -/
def rjoinFault (w : Warp) (l : Nat) : Option Nat :=
  match innermost w l with
  | none => some 0x3A
  | some r => if r.join ≠ (curPC w).hdr then some 0x3A else if outerEntry w l then some 0x50 else none

/-- Every active lane arrives at its innermost entry. -/
def rjoinArrive (w : Warp) : List Recon :=
  w.recon.map (fun r =>
    let m := maskWhere w.act (fun l => ((innermost w l).map (·.id)) == some r.id)
    { r with arrived := r.arrived ||| m })

def execRjoin (s : State) : Host.Outcome State Fault Refusal :=
  laneWord s [] (fun s k w =>
    match (lanesOf w.act).find? (fun l => (rjoinFault w l).isSome) with
    | some l => .fault ((rjoinFault w l).getD 0) 0 l 0
    | none =>
      .moved (reconSettle (setWarp s k
        { beginWait w w.act .rjoin (nextPC w) with recon := rjoinArrive w }) k))

/-! Ends, filing, waiting. -/

/-- A task wave, a responder wave or a trap handler (R121). -/
def isWave (w : Warp) : Bool := w.kind == .task || w.kind == .responder || w.kind == .handler

/-- The lowest active lane of a warp. -/
def low (w : Warp) : Nat := (lowest w.act).getD 0

/-- Threads of a workgroup execute EXIT: its barriers' default counts fall, one lane after another (R201). -/
def exitBars (s : State) (wg n : Nat) : State :=
  match tget s.wgs wg with
  | none => s
  | some g => setWg s wg ((List.range n).foldl (fun g _ => barExit (hNbar (hdrOf s wg)) g) g)

def execExit (s : State) : Host.Outcome State Fault Refusal :=
  laneWord s [] (fun s k w =>
    if isWave w then .fault 0x0B 0 (low w) 0
    else match lowest (w.act &&& members w) with
      | some l => .fault 0x51 0 l 0
      | none =>
        let s := exitBars s w.wg (lanesOf w.act).length
        .moved (endLanes (setWarp s k (choicePoint w)) k w.act (wordAddr (curPC w))))

/-- Writes still outstanding to registers that go into a bin with the lanes of a mask: their own, and the warp's w registers
(R20, R22, R67). -/
def filedPending (w : Warp) (m : Mask) : Bool :=
  w.pend.any (fun e => decide (192 ≤ e.reg.toNat) || e.lanes &&& m != 0)

/-- The active lanes leave the warp for the bins; a warp without lanes frees its slot (R20, R21, R149). -/
def reformLeave (s : State) (k : Nat) (w : Warp) (bins : Tbl Bin) : State :=
  let c := coreOf k
  let s := setCore s c { coreRec s c with bins := bins }
  endLanes (setWarp s k (choicePoint w)) k w.act (wordAddr (curPC w))

def execReform (a : Fld) (s : State) : Host.Outcome State Fault Refusal :=
  laneWord s [a] (fun s k w =>
    if isWave w then .fault 0x0B 0 (low w) 0
    else if w.act &&& members w ≠ 0 then .abort 8
    else match badTarget w a with
      | some l => .fault 1 0 l 0
      | none =>
        if filedPending w w.act then .stall
        else match fileLanes s (coreOf k) w a w.act with
          | none => .parked (setWarp s k (beginWait w w.act (.reform a) (curPC w)))
          | some bins => .moved (reformLeave s k w bins))

def execNop (s : State) : Host.Outcome State Fault Refusal := laneWord s [] (fun s _ _ => .next s)

/-- The moment at which a SLEEP of n that issues now ends: the SLEEP itself counts as retired (R152). -/
def sleepEnd (s : State) (k : Nat) (w : Warp) (n : Nat) : Nat :=
  wgClock s (coreOf k) w.wg + n + (if contOfWg s w.wg then 1 else 0)

def execSleep (n : Half) (s : State) : Host.Outcome State Fault Refusal :=
  laneWord s [] (fun s k w =>
    if n = 0 then .moved (setWarp s k (choicePoint (setPC w w.act (nextPC w))))
    else .moved (setWarp s k (beginWait w w.act (.sleep (sleepEnd s k w n.toNat)) (nextPC w))))

/-- The lanes of a warp whose SLEEP has run out (R152). -/
def sleepDue (s : State) (k : Nat) (w : Warp) : Mask :=
  lanesWhere w (fun t => match t.wait with
    | .sleep u => decide (u ≤ wgClock s (coreOf k) w.wg)
    | _ => false)

/-- SLEEP_EXPIRY: the lanes whose SLEEP has run out go on; the rest of a frozen warp's SLEEP stands still (R152, R153). -/
def execSleepExpiry (k : Nat) (s : State) : Host.Outcome State Fault Refusal :=
  match tget s.warps k with
  | none => .next s
  | some w => .next (if wgRuns s w.wg ∧ sleepDue s k w ≠ 0 then releaseLanes s k (sleepDue s k w) else s)

/-! The issue of a clause (R94). -/

/-- The values that a byte has held since the launch of a grid, the launch value first, or none where no agent has written
it (R105, R191). -/
def byteLog (s : State) (wg pa : Nat) : Option (List Byte) := (gridOfWg s wg).bind (fun g => tget g.ldk pa)

/-- Every choice of one byte from each of several lists. -/
def byteChoices : List (List Byte) → List (List Byte)
  | [] => [[]]
  | l :: r => l.flatMap (fun b => (byteChoices r).map (b :: ·))

/-- What a fetched word may be (R105): the bytes there now, or where an agent has written it since the launch its launch
value or any value stored to it. Where the four bytes have been written apart, any mixture of their values is among them
(log 89). -/
def fetchOpts (s : State) (wg pa : Nat) (now : List Byte) : List (List Byte) :=
  let logs := (List.range 4).map (fun i => byteLog s wg (pa + i))
  if logs.all (fun x => x.isNone) then [now]
  else
    let ls := (List.range 4).map (fun i => ((logs.getD i none).getD [now.getD i 0]))
    let n := (ls.headD []).length
    now :: (if ls.all (fun l => l.length == n) then (List.range n).map (fun j => ls.map (fun l => l.getD j 0))
      else byteChoices ls)

/-- What a fetch meets: a fault with its address, or the word (R99; lease and memory faults of a fetch: 21 R335). The
fetched value is a free choice among those that R105 allows: the j-th from the choices taken so far. -/
def fetchWord (s : State) (wg va j : Nat) : Except (Nat × Nat) Word :=
  match leaseFault s wg needX va 4 with
  | some c => .error (c, va)
  | none =>
    if physFault s wg va 4 || refusedNow s (gridXlate s wg va).1 4 then .error (0x12, va)
    else
      let pa := (gridXlate s wg va).1
      if dataPoisoned s wg va pa 4 then .error (0x1F, va)
      else
        let now := match stashAt s wg va with
          | some _ => (readGlobal s ⟨some wg, none⟩ va pa 4).1
          | none => (readGlobal s outside va pa 4).1
        let opts := fetchOpts s wg pa now
        .ok (BitVec.ofNat 32 (leNat (match opts with
          | [x] => x
          | _ => opts.getD (Config.choice (choiceBase s wg + j) % opts.length) now)))

/-- Fetch n words, of which the first is the j-th of its clause. -/
def fetchWords (s : State) (wg va j : Nat) : Nat → Except (Nat × Nat) (List Word)
  | 0 => .ok []
  | n + 1 =>
    match fetchWord s wg va j with
    | .error e => .error e
    | .ok x =>
      match fetchWords s wg (va + 4) (j + 1) n with
      | .error e => .error e
      | .ok r => .ok (x :: r)

/-- The choices that the fetch of a clause has taken are spent: 16, where some agent has written memory since the launch of
the grid. -/
def fetchSpent (s : State) (wg : Nat) : State :=
  match gridOfWg s wg with
  | some g => if g.ldk.isEmpty then s else choicesTaken s wg 16
  | none => s

/-- A clause as fetched and decoded for a warp or a sequencer: a fault with the address of the word at fault and the data
address, or the header and the words (R95, R99). The spec gives no order between a later word's fetch fault and an earlier
word's encoding fault: here every word is fetched before any is decoded (DESIGN CHOICE, log 112). -/
def fetchClause (s : State) (wg : Nat) (seq : Bool) (pc : DWord) : Except (Nat × Nat × Nat) (Header × List Word) :=
  if pc.toNat % 4 ≠ 0 then .error (1, pc.toNat, 0)
  else match fetchWord s wg pc.toNat 0 with
  | .error (c, a) => .error (c, pc.toNat, a)
  | .ok x =>
    let h := unpackHeader x
    match headerFault seq h with
    | some c => .error (c, pc.toNat, 0)
    | none =>
      match fetchWords s wg (pc.toNat + 4) 1 h.count with
      | .error (c, a) => .error (c, a, a)
      | .ok ws =>
        match wordsFault h.cls 1 ws with
        | some (i, c) => .error (c, pc.toNat + 4 * i, 0)
        | none => .ok (h, ws)

/-- A fault of a warp's clause before its first word: a take fault of a member aborts its take (R99, R42). -/
def clauseFault (s : State) (k : Nat) (w : Warp) (m : Mask) (cause fpc faddr : Nat) : State :=
  if takeFault cause && decide (m &&& members w ≠ 0) then abortTake s k 5
  else faultLane s k w ((lowest m).getD 0) cause faddr 0 (BitVec.ofNat 64 fpc)

/-- The clause holds an RJOIN. -/
def holdsRjoin (ws : List Word) : Bool :=
  let rec go (n : Nat) (fuel : Nat) : Bool :=
    match fuel with
    | 0 => false
    | fuel + 1 =>
      if ws.length < n then false
      else match ws[n - 1]? with
        | none => false
        | some w => fOp w == 0x78 || go (n + wordLen false ws n) fuel
  go 1 16

/-- Lanes that fail the guard of the clause that holds their innermost entry's RJOIN leave that entry (R149). -/
def guardLeave (w : Warp) (m : Mask) (hdr : DWord) : Warp :=
  { w with recon := w.recon.map (fun r =>
      if r.join = hdr then
        let out := maskWhere m (fun l => ((innermost w l).map (·.id)) == some r.id)
        { r with members := r.members &&& ~~~out, arrived := r.arrived &&& ~~~out }
      else r) }

/-- A member would leave an entry opened before its take by a guard (R293). -/
def guardFault (w : Warp) (m : Mask) (hdr : DWord) : Option Nat :=
  (lanesOf m).find? (fun l => outerEntry w l && ((innermost w l).map (·.join)) == some hdr)

/-- The candidate lanes whose guard bit is 1 (R94 step 3). -/
def guardPass (w : Warp) (h : Header) : Mask :=
  let p := rdP w h.guard
  if h.guard = 0 then w.cand else w.cand &&& (if h.gneg then ~~~p else p)

/-- Steps 3 to 5 of R94: the guard, and the words made ready for the active lanes. -/
def clauseGuard (s : State) (k : Nat) (w : Warp) (p : DWord) (h : Header) (ws : List Word) : State :=
  let act := guardPass w h
  let out := w.cand &&& ~~~act
  let rj := holdsRjoin ws
  match (if rj then guardFault w out p else none) with
  | some l => faultLane s k w l 0x50 0 0 p
  | none =>
    let dest (l : Nat) : PC := if act.getLsbD l then ⟨p, 1⟩ else ⟨nextHdr p ws.length, 0⟩
    let w := modLanes w w.cand (fun l t => { t with wait := .none, pc := dest l })
    let w := { w with act := act, code := ws }
    if rj then reconSettle (setWarp s k (guardLeave w out p)) k else setWarp s k w

/-- Step 2 of R94: the clause's wait, which a group that has waited for it does not meet again. A group formed once a wait has
ended may hold lanes that have come to the clause since: the spec does not say whether they meet the wait, and here the group
passes it as a whole (DESIGN CHOICE, log 111). -/
def clauseWait (s : State) (k : Nat) (w : Warp) (p : DWord) (h : Header) (ws : List Word) : State :=
  if h.waitKind = 0 ∨ lanesWhere w (fun t => t.wait == .headerOk) &&& w.cand ≠ 0 then clauseGuard s k w p h ws
  else if anyPending w (headerRegs h) then s
  else match headerArg s w h with
    | .error c => faultLane s k w ((lowest w.cand).getD 0) c 0 0 p
    | .ok none => clauseGuard s k w p h ws
    | .ok (some arg) =>
      if headerDone s w h.waitKind arg then clauseGuard s k w p h ws
      else setWarp s k (beginWait w w.cand (.header h.waitKind arg) ⟨p, 0⟩)

/-- A warp's current group, at a clause: the clause is fetched, and issues by R94; or the rest of a clause in the middle
of which the group stands (R95). Whether a group that goes on in the middle of a clause issues the words that were fetched with
it the spec does not say: here the clause is fetched and decoded again (DESIGN CHOICE, log 113). -/
def issueClause (s : State) (k : Nat) (w : Warp) : State :=
  match lowest w.cand with
  | none => s
  | some l =>
    let p := pcOf w l
    match fetchClause s w.wg false p.hdr with
    | .error (c, fpc, fa) => clauseFault s k w w.cand c fpc fa
    | .ok (h, ws) =>
      let s := fetchSpent s w.wg
      if p.idx = 0 then clauseWait s k w p.hdr h ws
      else setWarp s k { w with act := w.cand, code := ws }

/-- CLAUSE_ISSUE for a warp that is not inside a clause: its waiting conditions are looked at, which in continuity mode
only the start of a round does (R316); a group is chosen where there is none, and the group's clause issues (R94, R143).
-/
def warpClause (s : State) (k : Nat) : State :=
  match tget s.warps k with
  | none => s
  | some w =>
    if w.act ≠ 0 ∨ w.held then s
    else
      let s := if contOfWg s w.wg then s else sweep s k
      match tget s.warps k with
      | none => s
      | some w =>
        let w := if w.cand = 0 then chooseGroup w else w
        issueClause (setWarp s k w) k w

end Sys2Proof.Machine
end

