-- ==== Sys2Proof/Machine/MemI.lean ====
section
/-! DEFINITION. Loads, stores, atomics and fences of lane code (13 R185 to R197), inside and outside a take (R189, 19
R285 to R287). The order of all accesses is that of the steps, which R173 allows (log 8). -/

namespace Sys2Proof.Machine

/-! Addresses and checks (R185, R187). -/

/-- The effective global address of a lane. -/
def gAddr (w : Warp) (base off : Fld) (size l : Nat) : Nat := (rd64 w base l + BitVec.ofInt 64 (off8 off size)).toNat

/-- The effective LM address of a lane. -/
def lAddr (w : Warp) (base off : Fld) (size l : Nat) : Word := rd w base l + BitVec.ofInt 32 (off8 off size)

/-- The first lane for which a check gives a cause: cause, data address, lane. -/
def firstBad (ls : List Nat) (addr : Nat → Nat) (c : Nat → Option Nat) : Option (Nat × Nat × Nat) :=
  ls.findSome? (fun l => (c l).map (fun x => (x, addr l, l)))

/-- A cause where a condition holds. -/
def causeIf (b : Bool) (c : Nat) : Option Nat := if b then some c else none

/-- The first of two findings. -/
def orBad (a b : Option (Nat × Nat × Nat)) : Option (Nat × Nat × Nat) := match a with
  | some x => some x
  | none => b

/-- The checks of a global access of every lane: address, alignment, lease and locked miss, physical address, atomic on
unordered, and data beyond repair (R187, 29 R408). -/
def globalBad (s : State) (wg : Nat) (n : Need) (size : Nat) (addr : Nat → Nat) (extra : Nat → Bool) (ls : List Nat) :
    Option (Nat × Nat × Nat) :=
  orBad (firstBad ls addr (fun l => causeIf (decide (2 ^ 57 ≤ addr l)) 0x10))
    (orBad (firstBad ls addr (fun l => causeIf (addr l % size != 0) 0x11))
      (orBad (firstBad ls addr (fun l => leaseFault s wg n (addr l) size))
        (orBad (firstBad ls addr (fun l => causeIf (physFault s wg (addr l) size) 0x12))
          (orBad (firstBad ls addr (fun l => causeIf (extra l) 0x18))
            (firstBad ls addr (fun l => causeIf (n.r && dataPoisoned s wg (addr l) (gridXlate s wg (addr l)).1 size) 0x1F))))))

/-- The checks of an LM access of every lane: alignment, LM range, stash alias (R187, R155, R157). -/
def lmBad (s : State) (wg size : Nat) (addr : Nat → Word) (ls : List Nat) : Option (Nat × Nat × Nat) :=
  let a (l : Nat) : Nat := (addr l).toNat
  orBad (firstBad ls a (fun l => causeIf (a l % size != 0) 0x11))
    (firstBad ls a (fun l => match lmTarget s wg (addr l) size with
      | none => some 0x13
      | some (t, off) => causeIf (stashAlias s t off size) 0x19))

/-- The check of an LM read of every lane for data beyond repair (29 R408). -/
def lmPoison (s : State) (wg size : Nat) (addr : Nat → Word) (ls : List Nat) : Option (Nat × Nat × Nat) :=
  firstBad ls (fun l => (addr l).toNat) (fun l => match lmTarget s wg (addr l) size with
    | none => none
    | some (t, off) => causeIf (poisoned s (lmPlace t off) size) 0x1F)

/-! Where an access goes. -/

/-- A global access of a workgroup. -/
def gLoc (s : State) (wg va : Nat) : Loc := let x := gridXlate s wg va
  ⟨false, wg, va, x.1, x.2⟩

/-- An LM access; an address that the checks refuse is not performed. -/
def lLoc (s : State) (wg : Nat) (a : Word) (size : Nat) : Loc := match lmTarget s wg a size with
  | none => ⟨true, wg, 0, lmPlace wg 0, 0⟩
  | some (t, off) => ⟨true, t, off, lmPlace t off, 0⟩

/-- The key of a byte in a take's store buffer (R285). -/
def locKey (x : Loc) : Nat := (if x.lm then (x.wg + 1) * 2 ^ 64 else 0) + x.va

/-! A member's accesses (R285 to R287). -/

/-- The open take of a warp. -/
def takeOf (s : State) (k : Nat) : Option Take := (tget s.warps k).bind (·.take)

/-- Replace the open take of a warp. -/
def setTake (s : State) (k : Nat) (tk : Take) : State := match tget s.warps k with
  | none => s
  | some w => setWarp s k { w with take := some tk }

/-- The buffered byte at a place. -/
def bufAt (tk : Take) (place : Nat) : Option (Nat × BufByte) := tk.store.find? (fun e => e.2.loc == place)

/-- Some byte of a place is buffered by another member lane (R286). -/
def bufClash (tk : Take) (l place n : Nat) : Bool :=
  (List.range n).any (fun i => match bufAt tk (place + i) with
    | some e => e.2.lane != l
    | none => false)

/-- Some byte of a place has been read through an atomic by another member lane (R286). -/
def atomClash (tk : Take) (l place n : Nat) : Bool :=
  (List.range n).any (fun i => match tget tk.atomRead (place + i) with
    | some j => j != l
    | none => false)

/-- Bytes with a member's own buffered bytes in place (R286). -/
def forward (tk : Take) (place : Nat) (bs : List Byte) : List Byte :=
  (List.range bs.length).map (fun i => match bufAt tk (place + i) with
    | some e => e.2.val
    | none => bs.getD i 0)

/-- A member's read of n bytes at a place through a reader of memory: the bytes and the state, or the code of an abort. A
read of memory after a line of the read set has changed unwatched does not return (R289; log 103). -/
def memberRead (s : State) (k l : Nat) (x : Loc) (n : Nat) (watch atomic : Bool)
    (reader : State → List Byte × State) : Except Byte (List Byte × State) :=
  match takeOf s k with
  | none => .ok (reader s)
  | some tk =>
    if bufClash tk l x.pa n || (atomic && atomClash tk l x.pa n) then .error 2
    else
      let covered := (List.range n).all (fun i => (bufAt tk (x.pa + i)).isSome)
      let join := if watch && decide (x.ord ≠ 2) && !covered then
        (linesOf x.pa n).filter (fun l => !tk.readSet.contains l) else []
      if tk.stale && watch && decide (x.ord ≠ 2) && !covered then .error 2
      else if !join.isEmpty && decide (256 < tk.readSet.length + join.length) then .error 4
      else
        let tk := { tk with
          readSet := tk.readSet ++ join
          atomRead := if atomic then (List.range n).foldl (fun t i => tput t (x.pa + i) l) tk.atomRead
            else tk.atomRead }
        let (bs, s) := reader (setTake s k tk)
        .ok (forward tk x.pa bs, s)

/-- The store buffer's granules in use (R285). -/
def bufGranules (t : Tbl BufByte) : Nat := ((t.map (fun e => e.1 / 32)).dedup).length

/-- A member's store: buffered, or the code of an abort (R285, R286, R175); some of its bytes may come from register words
beyond repair (29 R408). -/
def memberWrite (s : State) (k l : Nat) (x : Loc) (bs : List Byte) (bad : List Nat) : Except Byte State :=
  match takeOf s k with
  | none => .ok s
  | some tk =>
    if bufClash tk l x.pa bs.length then .error 2
    else if x.ord = 1 then .error 5
    else
      let (no, s) := freshId s
      let store := (List.range bs.length).foldl (fun t i =>
        let key := match bufAt tk (x.pa + i) with
          | some e => e.1
          | none => locKey x + i
        tput t key ⟨l, bs.getD i 0, x.pa + i, no, bad.contains i⟩) tk.store
      let lines := if x.ord = 2 then [] else (linesOf x.pa bs.length).filter (fun l => !tk.writeSet.contains l)
      if 64 < bufGranules store then .error 3
      else .ok (setTake s k { tk with store := store, writeSet := tk.writeSet ++ lines })

/-- A lane was a member when the word issued, and its take has ended since: its access is not performed. -/
def outNow (s : State) (k : Nat) (w : Warp) (l : Nat) : Bool :=
  (members w).getLsbD l && !(match tget s.warps k with
    | some w1 => (members w1).getLsbD l
    | none => false)

/-! Performing the lanes of a word, in order. -/

/-- What the lanes of a load or atomic have got: the values by lane, or the end of the take. -/
abbrev Got := Except Byte (State × Tbl Nat)

/-- One lane reads. -/
def readLane (k : Nat) (w : Warp) (loc : Nat → Loc) (n : Nat) (watch : Bool)
    (reader : Option Nat → Loc → State → List Byte × State) (acc : Got) (l : Nat) : Got :=
  match acc with
  | .error e => .error e
  | .ok (s, vs) =>
    if outNow s k w l then .ok (s, vs)
    else if (members w).getLsbD l then
      match memberRead s k l (loc l) n watch false (reader (some k) (loc l)) with
      | .error e => .error e
      | .ok (bs, s) => .ok (s, tput vs l (leNat bs))
    else
      let (bs, s) := reader none (loc l) s
      .ok (s, tput vs l (leNat bs))

/-- Stored bytes that come from register words beyond repair stand as poisoned where the store has put them: in LM, in the
workgroup's stash line or in memory (29 R408). -/
def storePoison (s : State) (wg : Nat) (x : Loc) (bad : List Nat) : State :=
  if bad.isEmpty then s
  else
    let place (i : Nat) : Nat := if x.lm then x.pa + i else match stashAt s wg (x.va + i) with
      | some h => lmPlace h.1 (stashOff s h (x.va + i))
      | none => x.pa + i
    { s with poison := s.poison ++ (bad.map place).filter (fun p => !s.poison.contains p) }

/-- One lane stores: the bytes, and which of them come from register words beyond repair. -/
def storeLane (k : Nat) (w : Warp) (loc : Nat → Loc) (data : Nat → List Byte) (bad : Nat → List Nat)
    (acc : Except Byte State) (l : Nat) : Except Byte State :=
  match acc with
  | .error e => .error e
  | .ok s =>
    if outNow s k w l then .ok s
    else if (members w).getLsbD l then memberWrite s k l (loc l) (data l) (bad l)
    else .ok (storePoison (writeLoc s w.wg none (loc l) (data l)) w.wg (loc l) (bad l))

/-- One lane's atomic: read, and write what the operation gives, if it writes (R193, R194). -/
def atomLane (k : Nat) (w : Warp) (loc : Nat → Loc) (n : Nat) (op : Nat → Nat → Option Nat) (acc : Got) (l : Nat) :
    Got :=
  match acc with
  | .error e => .error e
  | .ok (s, vs) =>
    let x := loc l
    if outNow s k w l then .ok (s, vs)
    else if (members w).getLsbD l then
      match memberRead s k l x n true true (fun s => readLocFor s w.wg (some k) x n) with
      | .error e => .error e
      | .ok (bs, s) =>
        match op l (leNat bs) with
        | none => .ok (s, tput vs l (leNat bs))
        | some v =>
          match memberWrite s k l x (leBytes n v) [] with
          | .error e => .error e
          | .ok s => .ok (s, tput vs l (leNat bs))
    else
      let (bs, s) := readLoc s w.wg x n
      let s := match op l (leNat bs) with
        | none => s
        | some v => writeLoc s w.wg none x (leBytes n v)
      .ok (s, tput vs l (leNat bs))

/-- Lanes in the order of the kinds of their accesses: 01, then 00, then 10 (R169). -/
def kindOrder (loc : Nat → Loc) (ls : List Nat) : List Nat :=
  ls.filter (fun l => (loc l).ord == 1) ++ ls.filter (fun l => (loc l).ord == 0) ++
    ls.filter (fun l => decide (2 ≤ (loc l).ord))

/-- A remote load of a workgroup that was issued at a clock has returned to its core (23 R341). -/
def remoteReq (s : State) (k wg issued : Nat) : Done :=
  let c := coreOf k
  ⟨ctxOfWg s wg, remoteEngine c, 0, cycleOf s (dieOf c) - issued, dieOf c, c % 64, serialOf wg, wgNumber wg, confOf s wg⟩

/-- The outstanding writes of a load of some words, one for each register (R67). -/
def loadPends (s : State) (k : Nat) (w : Warp) (d : Fld) (words : Nat) (m : Mask) (val : Nat → Nat → Word)
    (fab : Tbl (Nat × Nat)) : List Pend :=
  (List.range words).map (fun i =>
    { id := s.fresh + i, reg := d + BitVec.ofNat 8 i, lanes := m, vals := (lanesOf m).map (fun l => (l, val i l)),
      pc := wordAddr (curPC w), issued := cycleOf s (dieOf (coreOf k)), fabric := true, token := false, lines := fab,
      dead := 0, load := s.fresh,
      names := (lanesOf m).map (fun l => (l, ((thr w l).map (·.name.n)).getD 0)) })

/-- Write a load's values into its registers: at once, or as writes still outstanding where the access goes to fabric
memory (R67, R182); in continuity mode every access completes with its word (21 R316). -/
def loadInto (s : State) (k : Nat) (w0 : Warp) (d : Fld) (words : Nat) (vs : Tbl Nat) (fab : Tbl (Nat × Nat)) : State :=
  let now := contOfWg s w0.wg
  let s := if now && !fab.isEmpty then noteDone s [remoteReq s k w0.wg (cycleOf s (dieOf (coreOf k)))] else s
  let fab := if now then [] else fab
  match tget s.warps k with
  | none => s
  | some w =>
    let m := maskOf (vs.map (·.1))
    let val (i l : Nat) : Word := BitVec.ofNat 32 (tgetD 0 vs l / 2 ^ (32 * i))
    if !fab.isEmpty then
      setWarp { s with fresh := s.fresh + words } k { w with pend := w.pend ++ loadPends s k w0 d words m val fab }
    else
      setWarp s k ((List.range words).foldl (fun w i => wr w (d + BitVec.ofNat 8 i) m (val i)) w)

/-- The outcome of a word that returns values. -/
def gotEff (k : Nat) (w : Warp) (d : Fld) (words : Nat) (fab : Tbl (Nat × Nat)) (post : Nat → Nat) : Got → Eff
  | .error c => .abort c
  | .ok (s, vs) => .next (loadInto s k w d words (vs.map (fun e => (e.1, post e.2))) fab)

/-- The outcome of a word that returns none. -/
def doneEff : Except Byte State → Eff
  | .error c => .abort c
  | .ok s => .next s

/-- A finding of the checks as an outcome. -/
def badEff (b : Option (Nat × Nat × Nat)) (go : Eff) : Eff := match b with
  | some (c, a, l) => .fault c a l 0
  | none => go

/-! Sizes (R186). -/

/-- Bytes of an access by TY. -/
def tySize (ty : BitVec 3) : Nat := match ty.toNat with
  | 0 => 1
  | 1 => 1
  | 2 => 2
  | 3 => 2
  | 4 => 4
  | 5 => 8
  | _ => 16

/-- Words that a load of TY writes. -/
def tyWords (ty : BitVec 3) : Nat := (tySize ty + 3) / 4

/-- The value of a load of TY in its registers: sign-extended for .sb8 and .sb16. -/
def tyExt (ty : BitVec 3) (x : Nat) : Nat := match ty.toNat with
  | 1 => ((BitVec.ofNat 8 x).signExtend 32).toNat
  | 3 => ((BitVec.ofNat 16 x).signExtend 32).toNat
  | _ => x

/-- The bytes that a store of n bytes takes from its register group. -/
def regBytes (w : Warp) (f : Fld) (n l : Nat) : List Byte :=
  ((List.range ((n + 3) / 4)).flatMap (fun i => leBytes 4 (rd w (f + BitVec.ofNat 8 i) l).toNat)).take n

/-- Which of the n bytes of such a store come from register words beyond repair (29 R408). -/
def regSpoilt (w : Warp) (f : Fld) (n l : Nat) : List Nat :=
  if w.spoilt.isEmpty then [] else (List.range n).filter (fun i => spoiltAt w (f + BitVec.ofNat 8 (i / 4)) l)

/-! The shared forms. -/

/-- The lanes whose access goes to fabric memory, with their addresses (R157). -/
def toFabric (s : State) (wg : Nat) (loc : Nat → Loc) (ls : List Nat) : Tbl (Nat × Nat) :=
  (ls.filter (fun l => !(loc l).lm && remoteAt s wg (loc l).va (loc l).pa)).map (fun l => (l, (loc l).va, (loc l).pa))

/-- The outstanding stores of one word to fabric memory, by lane. -/
def storePend (s : State) (k : Nat) (w : Warp) (fab : Tbl (Nat × Nat)) : Pend where
  id := s.fresh
  reg := 0
  lanes := 0
  vals := []
  pc := wordAddr (curPC w)
  issued := cycleOf s (dieOf (coreOf k))
  fabric := true
  token := false
  lines := fab
  dead := 0
  load := s.fresh
  names := fab.map (fun x => (x.1, ((thr w x.1).map (·.name.n)).getD 0))

/-- Stores of a warp to fabric memory are outstanding until the fabric has taken them (R46, 25 R349); in continuity mode every
access completes with its word (21 R316). -/
def noteStores (s : State) (k : Nat) (w : Warp) (fab : Tbl (Nat × Nat)) : State :=
  match gridOfWg s w.wg with
  | none => s
  | some g =>
    if fab.isEmpty || contOfWg s w.wg then s
    else
      setGrid { s with fresh := s.fresh + 1 } (serialOf w.wg)
        { g with loads := g.loads ++ [⟨w.wg, k, w.kind, true, storePend s k w fab⟩] }

/-- A load from LM. -/
def lmLoad (st base off : Fld) (ty : BitVec 3) (s : State) : Host.Outcome State Fault Refusal :=
  let n := tySize ty
  laneWord s (base :: regGroup st (tyWords ty)) (fun s k w =>
    let ls := lanesOf w.act
    let a := lAddr w base off n
    let loc (l : Nat) := lLoc s w.wg (a l) n
    badEff (orBad (lmBad s w.wg n a ls) (lmPoison s w.wg n a ls)) (gotEff k w st (tyWords ty) [] (tyExt ty)
      (ls.foldl (readLane k w loc n true (fun own x s => readLocFor s w.wg own x n)) (.ok (s, [])))))

/-- A store to LM. -/
def lmStoreW (st base off : Fld) (ty : BitVec 3) (s : State) : Host.Outcome State Fault Refusal :=
  let n := tySize ty
  laneWord s (base :: regGroup st (tyWords ty)) (fun s k w =>
    let ls := lanesOf w.act
    let a := lAddr w base off n
    let loc (l : Nat) := lLoc s w.wg (a l) n
    badEff (lmBad s w.wg n a ls) (doneEff (ls.foldl (storeLane k w loc (regBytes w st n) (regSpoilt w st n)) (.ok s))))

/-- A load from global memory. -/
def gLoad (st base off : Fld) (ty : BitVec 3) (s : State) : Host.Outcome State Fault Refusal :=
  let n := tySize ty
  laneWord s (pair base ++ regGroup st (tyWords ty)) (fun s k w =>
    let ls := lanesOf w.act
    let a := gAddr w base off n
    let loc (l : Nat) := gLoc s w.wg (a l)
    badEff (globalBad s w.wg needR n a (fun _ => false) ls) (gotEff k w st (tyWords ty) (toFabric s w.wg loc ls) (tyExt ty)
      ((kindOrder loc ls).foldl (readLane k w loc n true (fun own x s => readLocFor s w.wg own x n)) (.ok (s, [])))))

/-- A store to global memory. -/
def gStore (st base off : Fld) (ty : BitVec 3) (s : State) : Host.Outcome State Fault Refusal :=
  let n := tySize ty
  laneWord s (pair base ++ regGroup st (tyWords ty)) (fun s k w =>
    let ls := lanesOf w.act
    let a := gAddr w base off n
    let loc (l : Nat) := gLoc s w.wg (a l)
    let fab := toFabric s w.wg loc (ls.filter (fun l => !(members w).getLsbD l))
    badEff (globalBad s w.wg needW n a (fun _ => false) ls)
      (doneEff (((kindOrder loc ls).foldl (storeLane k w loc (regBytes w st n) (regSpoilt w st n)) (.ok s)).map
        (fun s => noteStores s k w fab))))

def execLdl (st base off : Fld) (s : State) := lmLoad st base off 4 s
def execLdlT (st base off : Fld) (ty : BitVec 3) (s : State) := lmLoad st base off ty s
def execStl (st base off : Fld) (s : State) := lmStoreW st base off 4 s
def execStlT (st base off : Fld) (ty : BitVec 3) (s : State) := lmStoreW st base off ty s
def execLdg (st base off : Fld) (s : State) := gLoad st base off 4 s
/-- The hint in SUB affects timing only (R190). -/
def execLdgT (st base off : Fld) (_hint : BitVec 4) (ty : BitVec 3) (s : State) := gLoad st base off ty s
def execStg (st base off : Fld) (s : State) := gStore st base off 4 s
def execStgT (st base off : Fld) (_hint : BitVec 4) (ty : BitVec 3) (s : State) := gStore st base off ty s
/-- In a model that performs every access in step order, an acquire adds no order (log 8, R192). -/
def execLda (st base off : Fld) (_scope ty : BitVec 3) (s : State) := gLoad st base off ty s
def execStrel (st base off : Fld) (_scope ty : BitVec 3) (s : State) := gStore st base off ty s

/-! The constant path (R191). -/

/-- One byte through the constant path: what the place holds where nothing has written it since the launch, else what it held
at the launch or any write since, the choice being free. -/
def ldkByte (wg : Nat) (acc : List Byte × State) (e : Nat × Byte) : List Byte × State :=
  let s := acc.2
  let opts := (match gridOfWg s wg with
    | some g => (tget g.ldk e.1).getD []
    | none => []) ++ [e.2]
  if opts.all (· == e.2) then (acc.1 ++ [e.2], s)
  else
    let (i, s) := chooseFor s wg opts.length
    (acc.1 ++ [opts.getD i 0], s)

/-- A word through the constant path. -/
def ldkRead (wg : Nat) (own : Option Nat) (x : Loc) (s : State) : List Byte × State :=
  let (bs, s) := readGlobal s ⟨some wg, own⟩ x.va x.pa 4
  ((List.range 4).map (fun i => (x.pa + i, bs.getD i 0))).foldl (ldkByte wg) ([], s)

def execLdk (st base off : Fld) (s : State) : Host.Outcome State Fault Refusal :=
  laneWord s (pair base ++ [st]) (fun s k w =>
    let ls := lanesOf w.act
    let a := gAddr w base off 4
    let loc (l : Nat) := gLoc s w.wg (a l)
    badEff (globalBad s w.wg needR 4 a (fun _ => false) ls) (gotEff k w st 1 (toFabric s w.wg loc ls) id
      ((kindOrder loc ls).foldl (readLane k w loc 4 false (ldkRead w.wg)) (.ok (s, [])))))

/-! Atomics (R193 to R195). -/

/-- The new value of an atomic of b bits: SUB the operation, sg signed minimum and maximum (R193). -/
def atomOp (sub : BitVec 4) (sg : Bool) (b old v : Nat) : Nat :=
  let neg (x : Nat) : Nat := if sg then (x + 2 ^ (b - 1)) % 2 ^ b else x
  match sub.toNat with
  | 0 => (old + v) % 2 ^ b
  | 1 => old &&& v
  | 2 => old ||| v
  | 3 => old ^^^ v
  | 4 => if neg v < neg old then v else old
  | 5 => if neg old < neg v then v else old
  | 6 => v
  | 7 => if v ≤ old then 0 else old + 1
  | _ => if old = 0 ∨ v < old then v else old - 1

/-- Bytes of an atomic by TY[1:0]. -/
def atomSize (ty : BitVec 3) : Nat := if ty.getLsbD 1 then 8 else 4

/-- An atomic type is signed. -/
def atomSigned (ty : BitVec 3) : Bool := ty.getLsbD 0

/-- A register's value of n bytes: one register or a pair. -/
def rdSize (w : Warp) (f : Fld) (n l : Nat) : Nat := if n = 8 then (rd64 w f l).toNat else (rd w f l).toNat

/-- An atomic in global memory: which lane accesses raise fault 0x18, and what the operation writes. -/
def gAtom (s : State) (regs : List Fld) (st base off : Fld) (n : Nat) (pcie : Bool)
    (op : Warp → Nat → Nat → Option Nat) : Host.Outcome State Fault Refusal :=
  laneWord s (pair base ++ regGroup st (n / 4) ++ regs) (fun s k w =>
    let ls := lanesOf w.act
    let a := gAddr w base off n
    let loc (l : Nat) := gLoc s w.wg (a l)
    let bad (l : Nat) : Bool := (loc l).ord == 2 || ((loc l).ord == 1 && isHost (loc l).pa && !pcie)
    badEff (globalBad s w.wg needRW n a bad ls) (gotEff k w st (n / 4) (toFabric s w.wg loc ls) id
      ((kindOrder loc ls).foldl (atomLane k w loc n (op w)) (.ok (s, [])))))

def execAtom (st base off c : Fld) (sub : BitVec 4) (_scope ty : BitVec 3) (s : State) :
    Host.Outcome State Fault Refusal :=
  let n := atomSize ty
  gAtom s (regGroup c (n / 4)) st base off n (sub == 0 || sub == 6) (fun w l old =>
    some (atomOp sub (atomSigned ty) (8 * n) old (rdSize w c n l)))
def execAtomc (st base off c : Fld) (_scope ty : BitVec 3) (aux : Fld) (s : State) :
    Host.Outcome State Fault Refusal :=
  let n := atomSize ty
  gAtom s (regGroup c (n / 4) ++ regGroup aux (n / 4)) st base off n true (fun w l old =>
    if old = rdSize w c n l then some (rdSize w aux n l) else none)
def execAtoml (st base off c : Fld) (sub : BitVec 4) (ty : BitVec 3) (s : State) :
    Host.Outcome State Fault Refusal :=
  let n := atomSize ty
  laneWord s (base :: regGroup st (n / 4) ++ regGroup c (n / 4)) (fun s k w =>
    let ls := lanesOf w.act
    let a := lAddr w base off n
    let loc (l : Nat) := lLoc s w.wg (a l) n
    badEff (orBad (lmBad s w.wg n a ls) (lmPoison s w.wg n a ls)) (gotEff k w st (n / 4) [] id
      (ls.foldl (atomLane k w loc n (fun l old => some (atomOp sub (atomSigned ty) (8 * n) old (rdSize w c n l))))
        (.ok (s, [])))))

/-! Deferred adds (R178, R196). -/

/-- The home die of a physical line, or the die whose L2 serves it (R154, R158). -/
def homeDie (s : State) (pa : Nat) : Nat :=
  if pa < 2 ^ 38 then pa / 2 ^ 36 % 4
  else ((List.range 4).filter (fun d => s.dieEn.getLsbD d)).getD (pa / 128 % 4 % max 1 (enabledDies s)) 0

/-- Deferred adds of a context in its spill area, over all its grids. -/
def spilledAdds (s : State) (ctx : Nat) : Nat :=
  s.grids.foldl (fun n e => if e.2.ctx = ctx then n + (e.2.adds.filter (·.spilled)).length else n) 0

/-- Deferred adds that the L2 of a die holds. -/
def l2Held (s : State) (die : Nat) : Nat :=
  s.grids.foldl (fun n e => n + (e.2.adds.filter (fun a => !a.spilled && homeDie s a.pa == die)).length) 0

/-- One add joins the deferred adds of its grid, or finds no room. R178 does not say which place takes it when both have room:
the model fills the spill area first, and then the L2 of its line's die (DESIGN CHOICE, log 11). Nor does it lay the spill
area out: the adds stay in the grid's record, and memory at DEFBASE shows none of them (DESIGN CHOICE, log 11). -/
def deferAdd (s : State) (wg : Nat) (a : DAdd) : Option State :=
  match gridOfWg s wg with
  | none => none
  | some g =>
    let d := homeDie s a.pa
    if spilledAdds s g.ctx < field g.desc 735 704 * 128 then
      some (setGrid s (serialOf wg) { g with adds := g.adds ++ [{ a with spilled := true }] })
    else if l2Held s d < Config.l2Adds d then
      some (setGrid s (serialOf wg) { g with adds := g.adds ++ [{ a with spilled := false }] })
    else none

/-- The thread under whose name a lane's adds are applied (R178). -/
def addName (t : Thread) : TName := t.served.getD t.name

/-- One lane's add: buffered by a member (R285), else deferred; the error is the lane that finds no room. -/
def fatomLane (k : Nat) (w : Warp) (c : Fld) (ty : BitVec 3) (a : Nat → Nat) (acc : Except Nat State) (l : Nat) :
    Except Nat State :=
  match acc with
  | .error e => .error e
  | .ok s =>
    let x : DAdd := ⟨((thr w l).map addName).getD ⟨w.wg, false, 0, false⟩, (gridXlate s w.wg (a l)).1, ty.toNat, rd w c l, false⟩
    if (members w).getLsbD l then
      match takeOf s k with
      | none => .ok s
      | some tk => .ok (setTake s k { tk with adds := tk.adds ++ [(l, x)] })
    else match deferAdd s w.wg x with
      | some s => .ok s
      | none => .error l

def execFatom (base off c : Fld) (_sub : BitVec 4) (ty : BitVec 3) (s : State) : Host.Outcome State Fault Refusal :=
  laneWord s (pair base ++ [c]) (fun s k w =>
    let ls := lanesOf w.act
    let a := gAddr w base off 4
    badEff (globalBad s w.wg needRW 4 a (fun l => (gridXlate s w.wg (a l)).2 == 2) ls)
      (match (kindOrder (fun l => gLoc s w.wg (a l)) ls).foldl (fatomLane k w c ty a) (.ok s) with
        | .error l => .fault 0x1B (a l) l 0
        | .ok s => .next s))

/-- A fence orders what the steps have ordered already (log 8, R197). -/
def execFence (_sub : BitVec 4) (_scope : BitVec 3) (s : State) : Host.Outcome State Fault Refusal :=
  laneWord s [] (fun s _ _ => .next s)

/-- One deferred add applied to a word: each element rounded once under .rn, no flag (R178, R196). -/
def addWord (fmt : Nat) (old v : Word) : Word :=
  let lo (f : Fmt) := (fadd f 0 (old.extractLsb' 0 16).toNat (v.extractLsb' 0 16).toNat).1
  let hi (f : Fmt) := (fadd f 0 (old.extractLsb' 16 16).toNat (v.extractLsb' 16 16).toNat).1
  match fmt with
  | 0 => BitVec.ofNat 32 (fadd fp32 0 old.toNat v.toNat).1
  | 1 => BitVec.ofNat 16 (hi fp16) ++ BitVec.ofNat 16 (lo fp16)
  | _ => BitVec.ofNat 16 (hi bf16) ++ BitVec.ofNat 16 (lo bf16)

/-! Writes that complete later (R67). -/

/-- An outstanding write is made, for the lanes that still want its value; one that was outstanding at an open take's TAKE
also reaches its checkpoint (R68, R284). -/
def pendDone (w : Warp) (e : Pend) : Warp :=
  let m := (if 192 ≤ e.reg.toNat then e.lanes else e.lanes &&& liveMask w) &&& ~~~e.dead
  if m = 0 then w
  else
    let val (l : Nat) : Word := tgetD 0 e.vals l
    let w := wr w e.reg m val
    match w.take with
    | none => w
    | some tk =>
      if tk.ckPend.contains e.id then
        let c := wr { w with v := tk.ckV, w := tk.ckW } e.reg m val
        { w with take := some { tk with ckV := c.v, ckW := c.w } }
      else w

/-- The access is the last of its load that is outstanding: the load has returned, and its latency counts once (23 R341). -/
def loadDone (s : State) (k wg : Nat) (rest : List Pend) (e : Pend) : State :=
  if e.fabric && !rest.any (fun x => x.load == e.load) then noteDone s [remoteReq s k wg e.issued] else s

/-- An outstanding write of a resident warp is made. -/
def warpArrives (s : State) (k : Nat) (w : Warp) (e : Pend) : State :=
  let rest := w.pend.filter (fun x => x.id != e.id)
  loadDone (setWarp s k (pendDone { w with pend := rest } e)) k w.wg rest e

/-- An access of a grid that no register waits for returns (R46). -/
def looseArrives (s : State) (n : Nat) (g : Grid) (x : Loose) : State :=
  let rest := g.loads.filter (fun y => y.pend.id != x.pend.id)
  let s := setGrid s n { g with loads := rest }
  if x.store then s else loadDone s x.warp x.wg (rest.map (·.pend)) x.pend

/-- The outstanding access with a number that a warp in a slot made and no register waits for. -/
def looseOf (s : State) (k id : Nat) : Option (Nat × Grid × Loose) :=
  s.grids.findSome? (fun e => (e.2.loads.find? (fun x => x.warp == k && x.pend.id == id)).map (fun x => (e.1, e.2, x)))

/-- PENDING_WRITE_COMPLETION: an outstanding access of a warp returns: its write is made, and its register stops being
pending. One that returns later than 20 µs after its issue raises its fault instead, save in a frozen warp, whose fault
waits for the restore (R334). -/
def execPendingWriteCompletion (k id : Nat) (s : State) : Host.Outcome State Fault Refusal :=
  match (tget s.warps k).bind (fun w => (w.pend.find? (fun e => e.id == id && !e.token)).map (fun e => (w, e))) with
  | some (w, e) =>
    if !lateAccess s k e then .next (warpArrives s k w e)
    else if ctxStopped s (ctxOfWg s w.wg) then .next s
    else .next (endGrid s (serialOf w.wg) (lateBlame k w.wg w.kind e))
  | none => match looseOf s k id with
    | none => .next s
    | some (n, g, x) =>
      .next (if looseLate s k x then endGrid s n (lateBlame k x.wg x.kind x.pend) else looseArrives s n g x)

/-- A copy that a warp issued and that has read from fabric memory for more than 20 µs in vain. -/
def lateCopy (s : State) (k : Nat) : Option (Copy × Nat) :=
  (coreRec s (coreOf k)).copies.findSome? (fun x =>
    if x.warp = k then (copyLate s (coreOf k) x).map (fun a => (x, a)) else none)

/-- Loads and atomics of a warp, or of warps that have exited from its slot, that have waited for fabric memory for more
than 20 µs, each with the launch serial of its grid; a frozen warp's fault waits for its restore (R334). -/
def lateLoads (s : State) (k : Nat) : List (Nat × Blame) :=
  (match tget s.warps k with
    | none => []
    | some w => if ctxStopped s (ctxOfWg s w.wg) then []
      else (latePends s k w.pend).map (fun e => (serialOf w.wg, lateBlame k w.wg w.kind e))) ++
    s.grids.flatMap (fun e => (e.2.loads.filter (fun x => x.warp == k && looseLate s k x)).map (fun x =>
      (e.1, lateBlame k x.wg x.kind x.pend)))

/-- REMOTE_TIMEOUT: an access of a warp, or a copy that it issued, that has not returned from fabric memory within 20 µs
ends the grid (R334). -/
def execRemoteTimeout (k : Nat) (s : State) : Host.Outcome State Fault Refusal :=
  match lateLoads s k, lateCopy s k with
  | [], some (x, a) => .next (copyFault s x 0x1E a)
  | bs, _ => .next (endGrids s bs)

/-- The clocks of issue of the accesses to fabric memory that are outstanding, with the die that counts them (R334). -/
def remoteIssues (s : State) : List (Nat × Nat) :=
  s.warps.flatMap (fun e => (e.2.pend.filter (·.fabric)).map (fun p => (dieOf (coreOf e.1), p.issued))) ++
  s.grids.flatMap (fun e => e.2.loads.map (fun x => (dieOf (coreOf x.warp), x.pend.issued))) ++
  s.cores.flatMap (fun e => e.2.copies.map (fun x => (dieOf e.1, x.issued)))

end Sys2Proof.Machine
end

