-- ==== Sys2Proof/Machine/Splice.lean ====
section
/-! DEFINITION. Splicer contexts: the splice instructions (25 R365 to R376), their stops, the time-sharing of a splicer
(R362), and the commands that drive a context (R357 to R360). -/

namespace Sys2Proof.Machine

/-! Fields (R357, R358, R360, R361). -/

/-- Fields of SPCFG (R357). -/
def spEn (x : Splicer) : Bool := x.cfg.getLsbD 63
def spStep (x : Splicer) : Bool := x.cfg.getLsbD 62
def spHold (x : Splicer) : Bool := x.cfg.getLsbD 61
def spOwner (x : Splicer) : Nat := field x.cfg 59 48
def spLimit (x : Splicer) : Nat := field x.cfg 44 32
def spBase (x : Splicer) : Nat := field x.cfg 11 0

/-- SPSTAT (R358). -/
def spstat (x : Splicer) : Nat :=
  x.offset % 2 ^ 20 * 2 ^ 44 + x.pc % 4096 * 2 ^ 32 + x.detail * 2 ^ 24 + x.st * 2 ^ 21 + x.cause

/-- States of a splicer context (R358). -/
def spIdle : Nat := 0
def spRunning : Nat := 1
def spWaiting : Nat := 2
def spStopped : Nat := 3
def spHalted : Nat := 4

/-- A k register and a buffer descriptor. -/
def kReg (x : Splicer) (i : Nat) : DWord := tgetD 0 x.k i
def bfReg (x : Splicer) (i : Nat) : BitVec 128 := tgetD 0 x.bf i

/-- Fields of a buffer descriptor (R360). -/
def bfCount (b : BitVec 128) : Nat := field b 95 80
def bfFmt (b : BitVec 128) : Nat := field b 79 76
def bfSize (b : BitVec 128) : Nat := (field b 75 64 + 1) * 256
def bfBase (b : BitVec 128) : Nat := field b 56 0
/-- A descriptor has no reserved bit set and is aligned (R360). -/
def bfOk (b : BitVec 128) : Bool := field b 127 96 == 0 && field b 63 57 == 0 && bfBase b % 256 == 0

/-- The key of a splicer context in a route word: FID, link and context (R361). -/
def routeKey (r : DWord) : Nat := field r 19 0
/-- The reserved bits of a route word are clear; the destination context number may be set in a tagged message's route
only (R361). -/
def routeOk (r : DWord) (tagged : Bool) : Bool :=
  field r 47 44 == 0 && field r 31 20 == 0 && (tagged || field r 43 32 == 0)

/-- The die of a splicer context. -/
def spDie (k : Nat) : Nat := k / 64

/-! Stops and commands. -/

/-- A context stops (R359, R375): the instruction at hand has done nothing; the lead reports SPSTAT and SPFADDR
(27 R397). -/
def spStop (s : State) (k cause detail off faddr : Nat) : State :=
  let x := { splRec s k with
    st := spStopped
    cause := cause
    detail := detail
    offset := off
    faddr := faddr % 2 ^ 57
    run := 0
    wait := .none
    xl := none
    got := 0
    verdict := none
    refused := none
    word := none
    asking := false
    taken := []
    undo := []
    undoBad := [] }
  hostEvent (setSpl s k x) 2 (spstat x + x.faddr * 2 ^ 64) (spOwner x) (spDie k)

/-- Return one credit to the sender of a staged packet (R351). -/
def returnCredit (s : State) (k : Nat) (p : Staged) : State :=
  sendFabric s 4 (p.src / 256) (k / 8) (k % 8) [p.src % 256, p.epoch, 1] []

/-- Discard staged packets: their credits return as though they had been consumed (R351). -/
def discardStaged (s : State) (k : Nat) (p : Staged → Bool) : State :=
  let x := splRec s k
  let keep := x.staged.filter (fun e => !p e)
  let s := setSpl s k { x with
    staged := keep
    inChunk := x.inChunk.filter (fun e => keep.any (fun q => q.src == e.1)) }
  (x.staged.filter p).foldl (fun s e => returnCredit s k e) s

/-- Discard the transmit queue: its operations count as completed (R364). -/
def discardTx (s : State) (k : Nat) : State :=
  let x := splRec s k
  let ops := (x.tx.filter (fun c => c.op ≠ 0)).map (·.op)
  setSpl s k { x with
    tx := []
    tl := ops.foldl tlComplete x.tl
    flight := x.flight.filter (fun e => !ops.contains e.1) }

/-! Memory of the owner (R363). -/

/-- Translate the pieces of a range: the first byte that fails gives cause and address (R363). -/
def spPieces (s : State) (owner : Nat) (n : Need) : List (Nat × Nat) → Except (Nat × Nat) (List (Nat × Nat × Nat))
  | [] => .ok []
  | (a, l) :: r =>
    if 2 ^ 57 ≤ a then .error (0x63, a)
    else match ctxXlate s owner (descOf s owner) n a l with
      | .error .perm => .error (0x64, a)
      | .error _ => .error (0x63, failsAt s owner (descOf s owner) n a)
      | .ok (pa, _) =>
        match spPieces s owner n r with
        | .error e => .error e
        | .ok ps => .ok ((a, pa, l) :: ps)

/-- The part of translated pieces that holds n bytes from an offset. -/
def cutPieces : List (Nat × Nat × Nat) → Nat → Nat → List (Nat × Nat × Nat)
  | [], _, _ => []
  | (va, pa, l) :: r, off, n =>
    if n = 0 then []
    else if l ≤ off then cutPieces r (off - l) n
    else
      let m := min (l - off) n
      (va + off, pa + off, m) :: cutPieces r 0 (n - m)

/-- Some byte of translated pieces is poisoned (29 R408). -/
def piecesPoisoned (s : State) (ps : List (Nat × Nat × Nat)) : Bool := ps.any (fun p => seenPoisoned s p.2.1 p.2.2)

/-! What a splice word does. -/

/-- The effect of a splice word on its context. -/
inductive SpEff where
  /-- it retires, with the next PC; the flag marks a chunk boundary (R362) -/
  | go (s : State) (pc : Nat) (boundary : Bool)
  /-- a wait begins or goes on -/
  | wait (s : State) (w : SWait)
  /-- in the middle of an arriving chunk: the context keeps the splicer -/
  | stay (s : State)
  /-- the context halts -/
  | halt
  /-- the context stops: cause, detail, offset, address -/
  | stop (cause detail off faddr : Nat)
  /-- the context stops on data beyond repair, for which no detail code is stated (29 R408; log 2) -/
  | poison

/-- What a receiving instruction has done of its chunk is undone before a precise stop: its bytes stand as before, with the
marks of those beyond repair, and the packets that it has consumed are to be consumed again (R359, R375). -/
def takeBack (s : State) (k : Nat) : State :=
  let x := splRec s k
  if x.taken.isEmpty then s
  else
    let s := writePieces s (x.xl.getD []) x.undo
    let s := { s with poison := s.poison ++ x.undoBad.filter (fun p => !s.poison.contains p) }
    setSpl s k { splRec s k with again := x.taken ++ x.again }

/-- A word has retired: the next PC, the run of R362, a refusal's stop at this boundary, a step stop (R359, R376). -/
def spRetire (s : State) (k pc : Nat) (boundary : Bool) : State :=
  let x := splRec s k
  let s1 := setSpl s k { x with
    pc := pc % 4096
    st := spRunning
    run := if boundary || decide (64 ≤ x.run + 1) then 0 else x.run + 1
    wait := .none
    xl := none
    got := 0
    verdict := none
    word := none
    asking := false
    taken := []
    undo := []
    undoBad := [] }
  match x.refused with
  | some d => spStop s1 k 0x69 d 0 0
  | none => if spStep x then spStop s1 k 0x6A 0 0 0 else s1

/-- Place the effect of a splice word. -/
def spFinish (s : State) (k : Nat) : SpEff → State
  | .go s1 pc boundary => spRetire s1 k pc boundary
  | .wait s1 w => setSpl s1 k { splRec s1 k with st := spWaiting, wait := w, run := 0 }
  | .stay s1 => s1
  | .halt => setSpl s k { splRec s k with st := spHalted, run := 0, word := none }
  | .stop cause detail off faddr => spStop s k cause detail off faddr
  | .poison =>
    let (d, s) := choose s 256
    spStop (takeBack s k) k 0x69 d 0 0

/-- A splice word's meaning, for the context that issues it. -/
def spliceWord (s : State) (body : State → Nat → Splicer → SpEff) : Host.Outcome State Fault Refusal :=
  match s.issuer with
  | .splicer k =>
    let s := setLink s (k / 8) { linkRec s (k / 8) with cur := k % 8 }
    .next (spFinish s k (body s k (splRec s k)))
  | _ => .fault .noIssuer

/-! Scalar and control words (R368 to R370). -/

/-- A word that writes one k register. -/
def spSet (s : State) (i : Nat) (f : Splicer → DWord) : Host.Outcome State Fault Refusal :=
  spliceWord s (fun s k x => .go (setSpl s k { x with k := tput x.k i (f x) }) (x.pc + 1) false)

def execSpliceNop (s : State) : Host.Outcome State Fault Refusal := spliceWord s (fun s _ x => .go s (x.pc + 1) false)
def execHalt (s : State) : Host.Outcome State Fault Refusal := spliceWord s (fun _ _ _ => .halt)
def execSpliceMovi (x : BitVec 4) (imm : Half) (s : State) : Host.Outcome State Fault Refusal :=
  spSet s x.toNat (fun _ => imm.signExtend 64)
def execAddi (x y : BitVec 4) (imm : BitVec 12) (s : State) : Host.Outcome State Fault Refusal :=
  spSet s x.toNat (fun c => kReg c y.toNat + imm.setWidth 64)
def execSubi (x y : BitVec 4) (imm : BitVec 12) (s : State) : Host.Outcome State Fault Refusal :=
  spSet s x.toNat (fun c => kReg c y.toNat - imm.setWidth 64)

/-- A word of a context's window, by the i-th choice from here; a word written while a context whose window holds it runs
is fetched as its old or its new value (R357; log 2). -/
def windowWord (s : State) (k : Nat) (x : Splicer) (w i : Nat) : Word :=
  let l := linkRec s (k / 8)
  let new := tgetD 0 l.imem (spBase x + w)
  match tget l.imemOld (spBase x + w) with
  | none => new
  | some old => if Config.choice (s.choices + i) % 2 = 0 then old else new

/-- The window of some running context of a link holds a word of its instruction memory. -/
def windowHeld (s : State) (l w : Nat) : Bool :=
  (List.range 8).any (fun c =>
    let x := splRec s (8 * l + c)
    (x.st == spRunning || x.st == spWaiting) && decide (spBase x ≤ w) && decide (w < spBase x + spLimit x))

/-- The instruction memory of a link with a word written (R357). -/
def imemWrite (s : State) (l w : Nat) (v : Word) : State :=
  let x := linkRec s l
  let old := tgetD 0 x.imem w
  setLink s l { x with
    imem := tputD 0 x.imem w v
    imemOld := if windowHeld s l w then tput x.imemOld w ((tget x.imemOld w).getD old) else tdel x.imemOld w }

def execLdc (d : BitVec 4) (imm : BitVec 12) (s : State) : Host.Outcome State Fault Refusal :=
  spliceWord s (fun s k x =>
    if spLimit x ≤ imm.toNat + 1 then .stop 0x62 0 0 0
    else
      let v := windowWord s k x (imm.toNat + 1) 1 ++ windowWord s k x imm.toNat 0
      .go (setSpl { s with choices := s.choices + 2 } k { x with k := tput x.k d.toNat v }) (x.pc + 1) false)

def execJmp (imm : BitVec 12) (s : State) : Host.Outcome State Fault Refusal :=
  spliceWord s (fun s _ _ => .go s imm.toNat false)

/-- The condition of a CMPJ (R369). -/
def cmpjHolds (z : Nat) (a b : DWord) : Bool :=
  match z with
  | 0 => a == b
  | 1 => a != b
  | 2 => a.slt b
  | 3 => !a.slt b
  | 4 => a.ult b
  | _ => !a.ult b

def execCmpj (x y z : BitVec 4) (imm : BitVec 12) (s : State) : Host.Outcome State Fault Refusal :=
  spliceWord s (fun s _ c =>
    .go s (if cmpjHolds z.toNat (kReg c x.toNat) (kReg c y.toNat) then imm.toNat else c.pc + 1) false)

def execSpliceLoop (x : BitVec 4) (imm : BitVec 12) (s : State) : Host.Outcome State Fault Refusal :=
  spliceWord s (fun s k c =>
    if imm.toNat ≤ c.pc then .stop 0x6B 0 0 0
    else if kReg c x.toNat = 0 then .go s (imm.toNat + 1) false
    else if 4 ≤ c.loops.length then .stop 0x6B 0 0 0
    else
      let s := setSpl s k { c with loops := (c.pc + 1, imm.toNat, (kReg c x.toNat).toNat) :: c.loops }
      .go s (c.pc + 1) false)

def execEndl (s : State) : Host.Outcome State Fault Refusal :=
  spliceWord s (fun s k c =>
    match c.loops with
    | [] => .stop 0x6B 0 0 0
    | (head, end_, n) :: r =>
      if end_ ≠ c.pc then .stop 0x6B 0 0 0
      else if 1 < n then .go (setSpl s k { c with loops := (head, end_, n - 1) :: r }) head false
      else .go (setSpl s k { c with loops := r }) (c.pc + 1) false)

/-! Chunk instructions (R371, R372). -/

/-- Number an operation of a context (R364): its number, and the context with the operation in flight. -/
def spNumber (s : State) (k : Nat) : Nat × State :=
  let x := splRec s k
  let n := x.tl.issued + 1
  (n, setSpl s k { x with tl := { x.tl with issued := n }, flight := x.flight ++ [(n, cycleOf s (spDie k))] })

/-- The checks that chunk instructions share, up to the routes: link, descriptor, chunk index (R355, R360). -/
def chunkChecks (s : State) (k : Nat) (b : BitVec 128) (i : DWord) : Option (Nat × Nat) :=
  if !linkUpNow s (k / 8) then some (0x68, 0)
  else if !bfOk b then some (0x61, 2)
  else if bfCount b < i.toNat then some (0x65, 1)
  else none

/-- A stop from a check: cause and detail. -/
def stopOf (e : Nat × Nat) : SpEff := .stop e.1 e.2 0 0

/-- An instruction with the translation of its bytes. Where some lie in fabric memory their lines are first asked for, and a
refusal that comes before the context goes on stops the instruction with nothing done (R349, R359). -/
def askLines (s : State) (k : Nat) (x : Splicer) (ps : List (Nat × Nat × Nat)) (go : State → Splicer → SpEff) : SpEff :=
  let remote := ps.any (fun p => isFabric p.2.1)
  let x := { x with xl := some ps, got := 0, verdict := none, asking := remote }
  if remote then .stay (setSpl s k x) else go (setSpl s k x) x

/-- The lines asked for have come: the instruction goes on. -/
def asked (s : State) (k : Nat) (x : Splicer) (go : State → Splicer → SpEff) : SpEff :=
  go (setSpl s k { x with asking := false }) { x with asking := false }

/-- Translate the chunk of an instruction, and go on with the translation; a stop names the first byte that fails
(R363). -/
def withChunk (s : State) (k : Nat) (x : Splicer) (b : BitVec 128) (i : DWord) (n : Need)
    (go : List (Nat × Nat × Nat) → State → Splicer → SpEff) : SpEff :=
  let va := bfBase b + i.toNat * bfSize b
  let s := tablesSeen s (descOf s (spOwner x)) (vPieces va (bfSize b))
  match spPieces s (spOwner x) n (vPieces va (bfSize b)) with
  | .error (c, a) => .stop c 0 (a - va) a
  | .ok ps => askLines s k x ps (go ps)

/-- Enqueue the chunk of an XMIT, once the queue has room, and number the operation. -/
def xmitRoom (s : State) (k : Nat) (x : Splicer) (route : DWord) (tag : Option Word) (ps : List (Nat × Nat × Nat)) :
    SpEff :=
  if 8 ≤ x.tx.length then .wait s .room
  else if piecesPoisoned s ps then .poison
  else
    let (data, s) := readPieces s ps
    let (n, s) := spNumber s k
    let x := splRec s k
    .go (setSpl s k { x with tx := x.tx ++ [⟨route, tag, n, data, 0⟩] }) (x.pc + 1) true

/-- Send the header packet of a tagged message and wait for its verdict (R371, R379). -/
def xmitAsk (s : State) (k : Nat) (b : BitVec 128) (route : DWord) (tag : Word) : SpEff :=
  .wait (sendFabric s 3 (field route 19 8) (k / 8) (k % 8)
    [field route 7 3, field route 43 32, tag.toNat, bfSize b, 0] []) .verdict

/-- XMIT once its chunk is translated and its lines have come (R371). -/
def xmitGo (b : BitVec 128) (route : DWord) (tag : Option Word) (k : Nat) (ps : List (Nat × Nat × Nat)) (s : State)
    (x : Splicer) : SpEff := match tag with
  | none => xmitRoom s k x route none ps
  | some t => xmitAsk s k b route t

/-- XMIT from its first check. -/
def xmitStart (s : State) (k : Nat) (x : Splicer) (b : BitVec 128) (i route : DWord) (tag : Option Word) : SpEff :=
  match chunkChecks s k b i with
  | some e => stopOf e
  | none =>
    if !routeOk route tag.isSome then .stop 0x61 1 0 0
    else withChunk s k x b i needR (xmitGo b route tag k)

/-- XMIT and XMIT.tag (R371): from the first check, or on from the wait at which it stands. -/
def xmitBody (bf ki kd : Nat) (ks : Option Nat) (s : State) (k : Nat) (x : Splicer) : SpEff :=
  let b := bfReg x bf
  let route := kReg x kd
  let tag := ks.map (fun i => (kReg x i).extractLsb' 0 32)
  match x.xl with
  | none => xmitStart s k x b (kReg x ki) route tag
  | some ps =>
    if x.asking then asked s k x (xmitGo b route tag k ps)
    else match tag, x.verdict with
    | some _, none => .wait s .verdict
    | some _, some false => .stop 0x69 2 0 0
    | t, _ => xmitRoom s k x route t ps

def execXmit (bf : BitVec 3) (ki kd : BitVec 4) (s : State) : Host.Outcome State Fault Refusal :=
  spliceWord s (xmitBody bf.toNat ki.toNat kd.toNat none)
def execXmitTag (bf : BitVec 3) (ki ks kd : BitVec 4) (s : State) : Host.Outcome State Fault Refusal :=
  spliceWord s (xmitBody bf.toNat ki.toNat kd.toNat (some ks.toNat))

/-- Combine one element: the local one first, the arriving one second (R373). -/
def combineElem (fmt co a b : Nat) : Nat :=
  let f : Fmt := if fmt = 2 then bf16 else fp32
  if fmt = 9 then
    let x : Word := BitVec.ofNat 32 a
    let y : Word := BitVec.ofNat 32 b
    (match co with
      | 0 => x + y
      | 1 => if y.slt x then y else x
      | _ => if x.slt y then y else x).toNat
  else match co with
    | 0 => (fadd f 0 a b).1
    | 1 => fminmax f false a b
    | _ => fminmax f true a b

/-- Combine bytes element by element. -/
def combineBytes (fmt co : Nat) (a b : List Byte) : List Byte :=
  let n := if fmt = 2 then 2 else 4
  (List.range (b.length / n)).flatMap (fun i =>
    leBytes n (combineElem fmt co (leNat ((a.drop (n * i)).take n)) (leNat ((b.drop (n * i)).take n))))

/-- What a receiving instruction does with arriving bytes: stores them, or combines them (R372). -/
structure RecvOp where
  bf : Nat
  ki : Nat
  ks : Nat
  /-- the combining operation of CMB and CMBF -/
  co : Option Nat
  /-- the destination route register of CMBF -/
  kd : Option Nat
deriving DecidableEq, Repr

/-- Perform the bytes of one packet at an offset of the local chunk. -/
def recvBytes (s : State) (b : BitVec 128) (o : RecvOp) (ps : List (Nat × Nat × Nat)) (off : Nat) (bs : List Byte) :
    State :=
  let cut := cutPieces ps off bs.length
  match o.co with
  | none => writePieces s cut bs
  | some co =>
    let (old, s) := readPieces s cut
    writePieces s cut (combineBytes (bfFmt b) co old bs)

/-- The chunk is complete: CMBF waits for room, at a chunk boundary, and forwards it; the operation is numbered (R362,
R372). -/
def recvDone (s : State) (k : Nat) (o : RecvOp) (ps : List (Nat × Nat × Nat)) : SpEff :=
  let x := splRec s k
  match o.kd with
  | none =>
    let (_, s) := spNumber s k
    .go s (x.pc + 1) true
  | some kd =>
    if 8 ≤ x.tx.length then .wait (setSpl s k { x with got := 0, verdict := some true }) .room
    else
      let (data, s) := readPieces s ps
      let (_, s) := spNumber s k
      let x := splRec s k
      .go (setSpl s k { x with tx := x.tx ++ [⟨kReg x kd, none, 0, data, 0⟩] }) (x.pc + 1) true

/-- The sequence number of the packet that continues a chunk of which some bytes have been consumed: every packet but the
last holds 960 bytes (R371). -/
def nextSeq (got : Nat) : Nat := got / 960

/-- The packets from a source that a receiving instruction finds: those that it consumes again before those that are staged. -/
def waitingFrom (x : Splicer) (src : Nat) : Option Staged := (x.again ++ x.staged).find? (fun p => p.src == src)

/-- A packet is consumed: its slot frees, and its credit returns, unless it was consumed before a stop (R351, R375). -/
def takePacket (s : State) (k : Nat) (p : Staged) : State :=
  let x := splRec s k
  if x.again.contains p then setSpl s k { x with again := x.again.erase p, taken := x.taken ++ [p] }
  else returnCredit (setSpl s k { x with staged := x.staged.erase p, taken := x.taken ++ [p] }) k p

/-- Consume the packets of the arriving chunk in order; fuel is the number of packets. A packet beyond repair stops the
context precisely (29 R408); one that does not continue the chunk, whose own packets were refused, is left (R351, R372). -/
def recvConsume (s : State) (k : Nat) (b : BitVec 128) (o : RecvOp) (src : Nat) (ps : List (Nat × Nat × Nat)) :
    Nat → SpEff
  | 0 => if bfSize b ≤ (splRec s k).got then recvDone s k o ps else .stay s
  | n + 1 =>
    let x := splRec s k
    if bfSize b ≤ x.got then recvDone s k o ps
    else match waitingFrom x src with
      | none => .stay s
      | some p =>
        if p.seqNo ≠ nextSeq x.got then .stay s
        else if p.bad then .poison
        else
          let s := recvBytes s b o ps x.got p.data
          let s := takePacket s k p
          let s := setSpl s k { splRec s k with got := x.got + p.data.length }
          recvConsume s k b o src ps n

/-- The chunk of a receiving instruction from its first packet on: its bytes as they stand are kept for a precise stop
(R375), with their marks. -/
def recvFirst (s : State) (k : Nat) (b : BitVec 128) (o : RecvOp) (src : Nat) (ps : List (Nat × Nat × Nat)) : SpEff :=
  let (old, s) := readPieces s ps
  let x := splRec s k
  let bad := ps.flatMap (fun p => ((List.range p.2.2).map (p.2.1 + ·)).filter (fun a => s.poison.contains a))
  recvConsume (setSpl s k { x with undo := old, undoBad := bad, taken := [] }) k b o src ps (x.again ++ x.staged).length

/-- A receiving instruction with its translation taken: it waits for the first packet of the next chunk from its source,
whose length is checked, and consumes the chunk (R372). A CMBF that has waited for room goes on behind its chunk. -/
def recvGo (s : State) (k : Nat) (x : Splicer) (b : BitVec 128) (o : RecvOp) (ps : List (Nat × Nat × Nat)) : SpEff :=
  let src := routeKey (kReg x o.ks)
  if x.verdict = some true then recvDone s k o ps
  else match x.got == 0, waitingFrom x src with
  | true, none => .wait s (.packet src)
  | true, some p =>
    if p.len ≠ bfSize b then .stop 0x65 2 0 0
    else if o.co.isSome && piecesPoisoned s ps then .poison
    else recvFirst s k b o src ps
  | false, _ => recvConsume s k b o src ps (x.again ++ x.staged).length

/-- The routes of a receiving instruction have no reserved bit set. -/
def recvRoutes (x : Splicer) (o : RecvOp) : Bool :=
  routeOk (kReg x o.ks) false && (match o.kd with
    | some kd => routeOk (kReg x kd) false
    | none => true)

/-- RECV, CMB and CMBF (R372). -/
def recvBody (o : RecvOp) (s : State) (k : Nat) (x : Splicer) : SpEff :=
  let b := bfReg x o.bf
  match x.xl with
  | some ps => asked s k x (fun s x => recvGo s k x b o ps)
  | none =>
    match chunkChecks s k b (kReg x o.ki) with
    | some e => stopOf e
    | none =>
      if !recvRoutes x o then .stop 0x61 1 0 0
      else if o.co.isSome && !(bfFmt b == 0 || bfFmt b == 2 || bfFmt b == 9) then .stop 0x66 0 0 0
      else withChunk s k x b (kReg x o.ki) (if o.co.isSome then needRW else needW) (fun ps s x => recvGo s k x b o ps)

def execRecv (bf : BitVec 3) (ki ks : BitVec 4) (s : State) : Host.Outcome State Fault Refusal :=
  spliceWord s (recvBody ⟨bf.toNat, ki.toNat, ks.toNat, none, none⟩)
def execCmb (bf : BitVec 3) (ki ks : BitVec 4) (co : BitVec 2) (s : State) : Host.Outcome State Fault Refusal :=
  spliceWord s (recvBody ⟨bf.toNat, ki.toNat, ks.toNat, some co.toNat, none⟩)
def execCmbf (bf : BitVec 3) (ki ks kd : BitVec 4) (co : BitVec 2) (s : State) : Host.Outcome State Fault Refusal :=
  spliceWord s (recvBody ⟨bf.toNat, ki.toNat, ks.toNat, some co.toNat, some kd.toNat⟩)

/-! Flags (R374). -/

/-- The physical address of a flag, or cause and address of a stop (R374). -/
def flagPa (s : State) (x : Splicer) (a : Nat) (n : Need) : Except (Nat × Nat) Nat :=
  if a % 8 ≠ 0 ∨ 2 ^ 57 ≤ a then .error (0x67, a)
  else match ctxXlate s (spOwner x) (descOf s (spOwner x)) n a 8 with
    | .error .perm => .error (0x64, a)
    | .error .phys => .error (0x67, a)
    | .error _ => .error (0x63, a)
    | .ok (pa, ord) => if ord = 2 then .error (0x67, a) else .ok pa

/-- The threshold of an FWAIT, and the addend of an FSIG. -/
def flagOperand (x : Splicer) (y : BitVec 4) (imm : BitVec 12) : DWord := kReg x y.toNat + imm.setWidth 64

/-- A flag word once its flag's line has come. -/
def flagGo (s : State) (pa : Nat) (go : SpEff) : SpEff := if seenPoisoned s pa 8 then .poison else go

/-- One read of the flag of an FWAIT, whose translation the context keeps: it retires, or waits (R374). -/
def fwaitRead (a y : BitVec 4) (imm : BitVec 12) (k pa : Nat) (s : State) (x : Splicer) : SpEff :=
  flagGo s pa
    (let (bs, s) := readPhys s pa 8
     if (flagOperand x y imm).toNat ≤ leNat bs then .go s (x.pc + 1) false
     else .wait (setSpl s k { x with xl := some [((kReg x a.toNat).toNat, pa, 8)] }) .flag)

/-- An FWAIT: it retires, waits, or stops; once its wait is over it retires (R374). -/
def fwaitBody (a y : BitVec 4) (imm : BitVec 12) (s : State) (k : Nat) (x : Splicer) : SpEff :=
  let s := tablesSeen s (descOf s (spOwner x)) [((kReg x a.toNat).toNat, 8)]
  if x.verdict == some true then .go s (x.pc + 1) false
  else match flagPa s x (kReg x a.toNat).toNat needR with
    | .error (c, fa) => .stop c 0 0 fa
    | .ok pa =>
      if x.xl.isSome then asked s k x (fwaitRead a y imm k pa)
      else askLines s k x [((kReg x a.toNat).toNat, pa, 8)] (fwaitRead a y imm k pa)

def execFwait (x y : BitVec 4) (imm : BitVec 12) (s : State) : Host.Outcome State Fault Refusal :=
  spliceWord s (fwaitBody x y imm)

/-- FSIG: the add is numbered now and performed once every earlier operation has completed (R374). -/
def fsigBody (a y : BitVec 4) (imm : BitVec 12) (s : State) (k : Nat) (x : Splicer) : SpEff :=
  let s := tablesSeen s (descOf s (spOwner x)) [((kReg x a.toNat).toNat, 8)]
  match flagPa s x (kReg x a.toNat).toNat needRW with
  | .error (c, fa) => .stop c 0 0 fa
  | .ok pa =>
    let add (s : State) (x : Splicer) : SpEff := flagGo s pa
      (let (n, s) := spNumber s k
       let c := splRec s k
       .go (setSpl s k { c with sigs := c.sigs ++ [(n, pa, flagOperand x y imm)] }) (x.pc + 1) false)
    if x.xl.isSome then asked s k x add else askLines s k x [((kReg x a.toNat).toNat, pa, 8)] add

def execFsig (x y : BitVec 4) (imm : BitVec 12) (s : State) : Host.Outcome State Fault Refusal :=
  spliceWord s (fsigBody x y imm)

/-! Fetch and choice of a context. -/

/-- The word at which a context stands: the one at hand, which is not fetched again while it waits, or the one of its window
(R357). -/
def spliceAt (s : State) (k : Nat) (x : Splicer) : Word := x.word.getD (windowWord s k x x.pc 0)

/-- The instruction at which a context stands, or the stop that its fetch meets (R366, R369). -/
def spliceFetch (s : State) (k : Nat) : Except Nat Instr :=
  let x := splRec s k
  if x.word.isNone && decide (spLimit x ≤ x.pc) then .error 0x62
  else match decodeSplice (spliceAt s k x) with
    | .ok i => .ok i
    | .bad c => .error c

/-- The word at which a context stands has been fetched. -/
def spliceTaken (s : State) (k : Nat) : State :=
  let x := splRec s k
  setSpl { s with choices := if x.word.isNone then s.choices + 1 else s.choices } k { x with word := some (spliceAt s k x) }

/-- A context is ready (R362), and its owner is not frozen (R376). -/
def spReady (s : State) (k : Nat) : Bool :=
  let x := splRec s k
  x.st == spRunning && !spHold x && !(ctxRec s (spOwner x)).frozen

/-- The context that a splicer issues next (R362): the current one in the middle of its run, else the next ready one in
ascending cyclic order. -/
def spChosen (s : State) (l : Nat) : Option Nat :=
  let cur := (linkRec s l).cur
  let x := splRec s (8 * l + cur)
  if x.st = spRunning ∧ (x.run ≠ 0 ∨ x.got ≠ 0 ∨ x.asking = true) then some (8 * l + cur)
  else ((List.range 8).map (fun i => 8 * l + (cur + 1 + i) % 8)).find? (spReady s)

/-- FLAG_REREAD: a context that waits at an FWAIT reads its flag again. A read that satisfies the wait makes the context
ready, and the FWAIT retires once its splicer chooses it (R362, R374, R376). -/
def execFlagReread (k : Nat) (s : State) : Host.Outcome State Fault Refusal :=
  let x := splRec s k
  match x.wait == .flag, spliceFetch s k with
  | true, .ok (.fwait a y imm) => .next (match fwaitBody a y imm s k x with
    | .go s1 _ _ => setSpl s1 k { splRec s1 k with st := spRunning, wait := .none, verdict := some true }
    | e => spFinish s k e)
  | _, _ => .next s

/-! Completion of operations (R364). -/

/-- The first operation in flight that may complete: its chunk is no longer queued, and an FSIG follows every earlier
operation. -/
def spDue (x : Splicer) : Option (Nat × Nat) :=
  x.flight.find? (fun e => !x.tx.any (fun c => c.op == e.1) &&
    (!x.sigs.any (fun g => g.1 == e.1) || decide (e.1 ≤ x.tl.value + 1)))

/-- Perform the add of an FSIG (R374). -/
def performSig (s : State) (k n : Nat) : State :=
  let x := splRec s k
  match x.sigs.find? (fun g => g.1 == n) with
  | none => s
  | some (_, pa, v) =>
    let s := setSpl s k { x with sigs := x.sigs.filter (fun g => g.1 != n) }
    let (bs, s) := readPhys s pa 8
    writePhys s pa (leBytes 8 (leNat bs + v.toNat))

/-- The timeline handle of a splicer context (11 R180). -/
def spHandle (k : Nat) : Nat := 4 * 2 ^ 28 + k / 8 * 32 + k % 8

/-- SPLICER_OPERATION_COMPLETION: an operation of a context completes and its counter advances (R364). -/
def execSplicerOperationCompletion (k : Nat) (s : State) : Host.Outcome State Fault Refusal :=
  match spDue (splRec s k) with
  | none => .next s
  | some (n, at_) =>
    let s := performSig s k n
    let o := spOwner (splRec s k)
    let s := noteDone s [⟨o, engineOf (spHandle k), spHandle k, cycleOf s (spDie k) - at_, spDie k, 0, 0, 0,
      if (descOf s o).getLsbD 3 then some o else none⟩]
    let x := splRec s k
    .next (setSpl s k { x with tl := tlComplete x.tl n, flight := x.flight.filter (fun e => e.1 != n) })

/-! Commands (R357 to R360). -/

/-- A START that is refused: the state stays, and the cause and detail are set (R359). -/
def refuseStart (s : State) (k detail faddr : Nat) : State :=
  setSpl s k { splRec s k with cause := 0x61, detail := detail, offset := 0, faddr := faddr }

/-- The start record takes effect (R356, R360). -/
def startWith (s : State) (k : Nat) (bs : List Byte) : State :=
  let ctl := leNat ((bs.drop 256).take 8)
  let epoch := ctl / 2 ^ 16 % 2 ^ 16
  let s := discardTx s k
  let s := discardStaged s k (fun p => p.epoch != epoch)
  let l := linkRec s (k / 8)
  let s := setLink s (k / 8) { l with imemOld := l.imemOld.filter (fun e => windowHeld s (k / 8) e.1) }
  setSpl s k { splRec s k with
    st := spRunning
    pc := ctl % 4096
    k := (List.range 16).map (fun i => (i, BitVec.ofNat 64 (leNat ((bs.drop (8 * i)).take 8))))
    bf := (List.range 8).map (fun i => (i, BitVec.ofNat 128 (leNat ((bs.drop (128 + 16 * i)).take 16))))
    epoch := epoch
    loops := []
    credits := []
    run := 0
    wait := .none
    xl := none
    got := 0
    verdict := none
    refused := none
    word := none
    asking := false
    taken := []
    undo := []
    undoBad := []
    again := [] }

/-- The control doubleword of a start record has a reserved bit set (R360). -/
def controlBad (bs : List Byte) : Bool :=
  let c := leNat ((bs.drop 256).take 8)
  c / 2 ^ 32 != 0 || c / 2 ^ 12 % 16 != 0

/-- START for a context with its start record, which lies in translated pieces if it can be read (R359, R360). -/
def startRecord (s : State) (k recAddr : Nat) (ps : Option (List (Nat × Nat × Nat))) : State :=
  let x := splRec s k
  if !linkOn s (k / 8) then s
  else if x.st ≠ spIdle ∧ x.st ≠ spHalted then refuseStart s k 3 0
  else if x.st = spIdle ∧ spEn x = false then refuseStart s k 4 0
  else
    match ps with
    | none => refuseStart s k 5 recAddr
    | some ps =>
      let (bs, s) := readPieces s ps
      if controlBad bs then refuseStart s k 3 0 else startWith s k bs

/-- SPCTL START: the record is read through the tables of the context that owns the splicer context (R359). -/
def startContext (s : State) (k recAddr : Nat) : State :=
  let s := tablesSeen s (descOf s (spOwner (splRec s k))) (vPieces recAddr 264)
  startRecord s k recAddr (spPieces s (spOwner (splRec s k)) needR (vPieces recAddr 264)).toOption

/-- SPLICER_START (R359). -/
def execSplicerStart (k recAddr : Nat) (s : State) : Host.Outcome State Fault Refusal := .next (startContext s k recAddr)

/-- The splicer starts of a CLAUNCH of a context take effect: context c of every link in the mask with its record, which is
read through the tables of the CLAUNCH's own context (27 R385, R393). -/
def claunchStart (s : State) (ctx : Nat) (c : Option (Nat × Word × Nat)) : State :=
  match c with
  | none => s
  | some (tbl, mask, x) => (lanesOf mask).foldl (fun s l =>
      let a := tbl + 320 * l
      let s := tablesSeen s (descOf s ctx) (vPieces a 264)
      startRecord s (8 * l + x) a (vXlate s ctx (descOf s ctx) needR (vPieces a 264)).toOption) s

/-- SPLICER_RESUME (R359): a stopped context goes on at its PC. -/
def execSplicerResume (k : Nat) (s : State) : Host.Outcome State Fault Refusal :=
  let x := splRec s k
  .next (if x.st = spStopped then setSpl s k { x with st := spRunning } else s)

/-- SPLICER_ABORT (R359): the context is idle, its queues are discarded. -/
def execSplicerAbort (k : Nat) (s : State) : Host.Outcome State Fault Refusal :=
  if (splRec s k).st = spIdle then .next s
  else
    let s := discardStaged (discardTx s k) k (fun _ => true)
    .next (setSpl s k { splRec s k with
      st := spIdle
      run := 0
      wait := .none
      xl := none
      got := 0
      verdict := none
      refused := none
      word := none
      asking := false
      taken := []
      undo := []
      undoBad := []
      again := []
      inChunk := [] })

/-- SPCFG_WRITE (R357). -/
def execSpcfgWrite (k : Nat) (v : DWord) (s : State) : Host.Outcome State Fault Refusal :=
  let x := splRec s k
  if !linkOn s (k / 8) then .next s
  else
    let cfg := setField x.cfg 63 61 (field v 63 61)
    if x.st ≠ spIdle then .next (setSpl s k { x with cfg := cfg })
    else
      let ok := decide (1 ≤ field v 44 32) && decide (field v 11 0 + field v 44 32 ≤ 4096)
      let cfg := if ok then setField (setField cfg 44 32 (field v 44 32)) 11 0 (field v 11 0) else cfg
      let same := field v 59 48 == spOwner x
      .next (setSpl s k { x with
        cfg := setField cfg 59 48 (field v 59 48)
        tl := if same then x.tl else ⟨0, [], 0⟩
        flight := if same then x.flight else []
        sigs := if same then x.sigs else [] })

/-- The state window of a context, as its bytes stand (27 R397): a start record with PC in the control doubleword. -/
def stateWindow (x : Splicer) : List Byte :=
  (List.range 16).flatMap (fun i => leBytes 8 (kReg x i).toNat) ++
    (List.range 8).flatMap (fun i => leBytes 16 (bfReg x i).toNat) ++ leBytes 8 (x.pc % 4096 + x.epoch * 2 ^ 16)

/-- SPLICER_STATE_WINDOW_WRITE: a stopped or halted context's PC, k registers or buffer descriptors are written (R358). -/
def execSplicerStateWindowWrite (k off size v : Nat) (s : State) : Host.Outcome State Fault Refusal :=
  let x := splRec s k
  if (x.st ≠ spStopped ∧ x.st ≠ spHalted) ∨ 264 < off + size then .next s
  else
    let w := stateWindow x
    let bs := w.take off ++ leBytes size v ++ w.drop (off + size)
    .next (setSpl s k { x with
      k := (List.range 16).map (fun i => (i, BitVec.ofNat 64 (leNat ((bs.drop (8 * i)).take 8))))
      bf := (List.range 8).map (fun i => (i, BitVec.ofNat 128 (leNat ((bs.drop (128 + 16 * i)).take 16))))
      pc := leNat ((bs.drop 256).take 8) % 4096 })

end Sys2Proof.Machine
end

