-- ==== Sys2Proof/Machine/Shape.lean ====
section
/-! DEFINITION. Shape records (03 R58 to R60): their fields, formats, element sizes and addresses, and the conditions
that make a record malformed. -/

namespace Sys2Proof.Machine

/-- Fields of a shape record (R59). -/
def shBase (r : BitVec 512) : Nat := field r 56 0
def shFmt (r : BitVec 512) : Nat := field r 60 57
def shRank (r : BitVec 512) : Nat := field r 63 61
def shScale (r : BitVec 512) : Nat := field r 117 64 * 8
def shTrans (r : BitVec 512) : Bool := r.getLsbD 118
/-- Extent of dimension n. -/
def shExt (r : BitVec 512) (n : Nat) : Nat := field r (149 + 22 * n) (128 + 22 * n) + 1
/-- Stride of dimension n in elements; that of dimension 0 is 1. -/
def shStr (r : BitVec 512) (n : Nat) : Nat := if n = 0 then 1 else field r (259 + 32 * n) (228 + 32 * n)
def shBox0 (r : BitVec 512) : Nat := field r 427 420 + 1
def shBox1 (r : BitVec 512) : Nat := field r 435 428 + 1
def shWinX (r : BitVec 512) : Nat := field r 439 436 + 1
def shWinY (r : BitVec 512) : Nat := field r 443 440 + 1
def shDilX (r : BitVec 512) : Nat := field r 447 444 + 1
def shDilY (r : BitVec 512) : Nat := field r 451 448 + 1
def shStepX (r : BitVec 512) : Nat := field r 455 452 + 1
def shStepY (r : BitVec 512) : Nat := field r 459 456 + 1
def shPadX (r : BitVec 512) : Nat := field r 463 460
def shPadY (r : BitVec 512) : Nat := field r 467 464
def shPadVal (r : BitVec 512) : Nat := field r 499 468

/-- Format codes (R60). -/
def shFp32 : Nat := 0
def shFp16 : Nat := 1
def shBf16 : Nat := 2
def shE4m3 : Nat := 3
def shE5m2 : Nat := 4
def shInt8 : Nat := 5
def shTe4 : Nat := 6
def shTe6 : Nat := 7
def shTe9 : Nat := 8
def shInt32 : Nat := 9

/-- A TE format. -/
def isTE (f : Nat) : Bool := f == 6 || f == 7 || f == 8

/-- Bytes of a unit: an element, or a TE block of 16 elements (R59, R82). -/
def unitBytes (f : Nat) : Nat :=
  match f with
  | 0 => 4
  | 1 => 2
  | 2 => 2
  | 6 => 8
  | 7 => 12
  | 8 => 18
  | 9 => 4
  | _ => 1

/-- Elements of a unit. -/
def unitElems (f : Nat) : Nat := if isTE f then 16 else 1

/-- A record is malformed (R58 to R60, R80). -/
def shapeBad (r : BitVec 512) : Bool :=
  let f := shFmt r
  let n := shRank r
  field r 511 500 != 0 || field r 127 119 != 0 || n == 0 || n == 7 || decide (9 < f) ||
    (shScale r != 0 && (!(f == 3 || f == 4 || f == 5) || shExt r 0 % 8 != 0 || shTrans r)) ||
    (List.range 6).any (fun i => decide (n ≤ i) && (shExt r i != 1 || (decide (0 < i) && shStr r i != 0))) ||
    (decide (n ≤ 1) && shBox1 r != 1) ||
    (if isTE f then shExt r 0 % 16 != 0 || shBox0 r % 16 != 0 || shBase r % 2 != 0 ||
      (List.range 6).any (fun i => decide (0 < i) && shStr r i % 16 != 0)
     else shBase r % unitBytes f != 0)

/-- The linear element index of an index vector (R59). -/
def shLin (r : BitVec 512) (d : List Nat) : Nat :=
  (List.range 6).foldl (fun a i => a + shStr r i * d.getD i 0) 0

/-- The byte offset of an element's unit: its own, or that of its TE block. -/
def unitOff (f lin : Nat) : Nat := lin / unitElems f * unitBytes f

end Sys2Proof.Machine
end

