-- ==== Sys2Proof/Machine/Sync.lean ====
section
/-! DEFINITION. Named barriers (13 R198 to R201), registers across warps (R211, R212), register granules (R213, 03 R51),
block-uniform registers (R214, 03 R56, R57) and locked translations (R210, 11 R164). -/

namespace Sys2Proof.Machine

/-- The lowest active lane that is a member of the open take, for the words that a take forbids. -/
def activeMember (w : Warp) : Option Nat := lowest (w.act &&& members w)

/-- A word that an open take forbids: fault 0x50 (R189, R259, R296). -/
def noTake (w : Warp) (go : Eff) : Eff := match activeMember w with
  | some l => .fault 0x50 0 l 0
  | none => go

/-- The active lanes of a mask wait at the word; the others go on after it (R38, R143). -/
def waitSome (s : State) (k : Nat) (w : Warp) (m : Mask) (wt : Wait) : Eff :=
  if m = 0 then .next (setWarp s k w)
  else .moved (setWarp s k (beginWait (setPC w (w.act &&& ~~~m) (nextPC w)) m wt (nextPC w)))

/-! Barriers. -/

/-- The barrier index is one that the workgroup may use (R198: 0x40). -/
def barIndex (s : State) (w : Warp) (n : Fld) (go : Workgroup → Eff) : Eff :=
  match tget s.wgs w.wg with
  | none => .stall
  | some g => if hNbar (hdrOf s w.wg) ≤ n.toNat then .fault 0x40 0 (low w) 0 else go g

/-- BARINIT is misused (R199). -/
def barInitBad (b : Barrier) (age : Nat) (v : Word) : Bool :=
  decide (v.toNat < 1) || decide (1025 < v.toNat) || decide (b.arrived ≠ 0) ||
    (match b.initBy with
      | some a => a != age
      | none => false)

def execBarinit (a n : Fld) (s : State) : Host.Outcome State Fault Refusal :=
  laneWord s [a] (fun s _ w => barIndex s w n (fun g =>
    let v := rd w a (low w)
    let b := barOf g n.toNat
    if barInitBad b w.age v then .fault 0x41 0 (low w) 0
    else .next (setWg s w.wg { g with
      bars := tput g.bars n.toNat { b with count := v.toNat, deflt := false, initBy := some w.age } })))

/-- The active lanes arrive at a barrier, in ascending order: each records the phase in which it arrives (R200). -/
def arriveAll (g : Workgroup) (w : Warp) (n : Nat) : Workgroup × Warp :=
  (lanesOf w.act).foldl (fun x l =>
    let ph := (barOf x.1 n).phase
    (barArrive x.1 n, modLanes x.2 (laneBit l) (fun _ t => { t with barArr := tput t.barArr n ph }))) (g, w)

/-- The active lanes whose most recent arrival lies in a phase that has not completed (R200). -/
def barWaiters (g : Workgroup) (w : Warp) (n : Nat) : Mask :=
  w.act &&& lanesWhere w (fun t => match tget t.barArr n with
    | some ph => !barDone g n ph
    | none => false)

def execBara (n : Fld) (s : State) : Host.Outcome State Fault Refusal :=
  laneWord s [] (fun s k w => barIndex s w n (fun g =>
    let (g, w1) := arriveAll g w n.toNat
    .next (setWarp (setWg s w.wg g) k w1)))
def execBarw (n : Fld) (s : State) : Host.Outcome State Fault Refusal :=
  laneWord s [] (fun s k w => barIndex s w n (fun g => waitSome s k w (barWaiters g w n.toNat) (.bar n.toNat)))
def execBars (n : Fld) (s : State) : Host.Outcome State Fault Refusal :=
  laneWord s [] (fun s k w => barIndex s w n (fun g =>
    let (g, w1) := arriveAll g w n.toNat
    waitSome (setWg s w.wg g) k w1 (barWaiters g w1 n.toNat) (.bar n.toNat)))

/-! Registers across warps. -/

/-- The warp of a workgroup that was formed at launch with a given index and still holds its slot. -/
def launchWarp (s : State) (wg j : Nat) : Option (Nat × Warp) :=
  s.warps.find? (fun e => e.2.wg == wg && e.2.kind == .launch && e.2.index == j)

/-- The warp and lane that an RWRITE target names, or the fault (R211). -/
def rwTarget (s : State) (wg : Nat) (n : Fld) (a : Word) : Except Nat (Nat × Nat) :=
  if field a 31 18 ≠ 0 ∨ field a 15 10 ≠ 0 ∨ hGangSize (hdrOf s wg) ≤ field a 17 16 then .error 0x33
  else match (memberWg s wg (field a 17 16)).bind (fun t => launchWarp s t (field a 9 5)) with
    | none => .error 0x33
    | some (k, w) =>
      if !(liveMask w).getLsbD (field a 4 0) then .error 0x33
      else if !heldAll w [n] then .error 0x30
      else .ok (k, field a 4 0)

/-- A deposit into a lane register; for a member of an open take also into its checkpoint (R294). -/
def deposit (w : Warp) (n : Fld) (l : Nat) (v : Word) : Warp :=
  let w1 := wr w n (laneBit l) (fun _ => v)
  match w1.take with
  | none => w1
  | some tk =>
    if (members w1).getLsbD l then
      { w1 with take := some { tk with ckV := (wr { w1 with v := tk.ckV } n (laneBit l) (fun _ => v)).v } }
    else w1

/-- The deposits of one RWRITE, and the arrival counters of the target warps (R62, R211). -/
def rwDeposit (s : State) (n : Fld) (ts : List (Nat × Nat × Word)) : State :=
  let s := ts.foldl (fun s t => match tget s.warps t.1 with
    | none => s
    | some w => setWarp s t.1 (deposit w n t.2.1 t.2.2)) s
  ((ts.map (·.1)).dedup).foldl (fun s k => match tget s.warps k with
    | none => s
    | some w => setWarp s k { w with arrive := w.arrive + 1 }) s

def execRwrite (n a b : Fld) (s : State) : Host.Outcome State Fault Refusal :=
  laneWord s [a, b] (fun s _ w => noTake w
    (match (lanesOf w.act).findSome? (fun l => match rwTarget s w.wg n (rd w a l) with
        | .error c => some (c, l)
        | .ok _ => none) with
      | some (c, l) => .fault c 0 l 0
      | none => .next (rwDeposit s n ((lanesOf w.act).filterMap (fun l => match rwTarget s w.wg n (rd w a l) with
          | .error _ => none
          | .ok (k, t) => some (k, t, rd w b l))))))
def execRwait (a : Fld) (s : State) : Host.Outcome State Fault Refusal :=
  laneWord s [a] (fun s k w =>
    let x := rd w a (low w)
    waitSome s k w (if reached w.arrive x then 0 else w.act) (.arrive x))
def execRcount (d : Fld) (s : State) : Host.Outcome State Fault Refusal :=
  warpWord s [d] (fun w => mapLanes w d (fun _ => w.arrive))

/-! Register granules (R51, R213). -/

/-- A granule mask is legal (R213: 0x07). -/
def granuleMask (m : Fld) : Bool := decide (0 < m.toNat) && decide (m.toNat < 16)

/-- Granules that the warp has requested and not yet been granted. -/
def requested (s : State) (k : Nat) : BitVec 4 :=
  (coreRec s (coreOf k)).claims.foldl (fun g x => if x.1 / 2 ^ 32 = k then g ||| x.2 else g) 0

/-- CLAIM: granted at once, or queued; a queued one retires with its grant (R51, R64, R213). -/
def execClaim (m : Fld) (s : State) : Host.Outcome State Fault Refusal :=
  laneWord s [] (fun s k w =>
    let g : BitVec 4 := m.extractLsb' 0 4
    let c := coreOf k
    if w.take.isSome then .abort 8
    else if !granuleMask m then .fault 7 0 (low w) 0
    else if g &&& (w.claimed ||| requested s k) ≠ 0 then .fault 0x31 0 (low w) 0
    else if (coreRec s c).claims.isEmpty && decide (framesUsed s c + granules g ≤ 128) then
      .next (setWarp s k (regranule w (w.claimed ||| g) g))
    else
      let s := setCore s c { coreRec s c with claims := (coreRec s c).claims ++ [(k * 2 ^ 32 + w.act.toNat, g)] }
      .parked (setWarp s k (beginWait w w.act .claim (nextPC w))))
def execGive (m : Fld) (s : State) : Host.Outcome State Fault Refusal :=
  laneWord s [] (fun s k w =>
    let g : BitVec 4 := m.extractLsb' 0 4
    if w.take.isSome then .abort 8
    else if !granuleMask m then .fault 7 0 (low w) 0
    else if g &&& ~~~w.claimed ≠ 0 then .fault 0x31 0 (low w) 0
    else if w.pend.any (fun e => inGranules g e.reg.toNat) then .stall
    else .next (grantAll (setWarp s k (regranule w (w.claimed &&& ~~~g) g)) (coreOf k)))

/-! Block-uniform registers (R56, R57, R214). -/

/-- The register with one more write of a warp in a phase (R56). -/
def bPut (g : Workgroup) (n age : Nat) (v : Word) : Workgroup :=
  let b := (tget g.b n).getD ⟨0, [], 0, 0⟩
  let fresh := decide (b.phase ≠ g.phase) || (tget g.b n).isNone
  { g with b := tput g.b n ⟨v, if fresh then [b.val] else b.olds ++ [b.val], g.phase, age⟩ }

/-- What a reader may see of a block-uniform register (R57). -/
def bOptions (g : Workgroup) (n : Nat) (age : Option Nat) : List Word :=
  match tget g.b n with
  | none => [0]
  | some b => if b.phase = g.phase ∧ age ≠ some b.writer then b.val :: b.olds else [b.val]

/-- Read a block-uniform register: where the reader races with a write, one of the values is free (R57, log 2). -/
def bRead (s : State) (wg n : Nat) (age : Option Nat) : Word × State :=
  match tget s.wgs wg with
  | none => (0, s)
  | some g =>
    let o := bOptions g n age
    if o.all (fun x => some x == o.head?) then (o.headD 0, s)
    else
      let (i, s) := chooseFor s wg o.length
      (o.getD i 0, s)

def execBmovWrite (d a : Fld) (s : State) : Host.Outcome State Fault Refusal :=
  laneWord s [a] (fun s _ w => noTake w (match tget s.wgs w.wg with
    | none => .stall
    | some g =>
      let other := match tget g.b d.toNat with
        | some b => decide (b.phase = g.phase ∧ b.writer ≠ w.age)
        | none => false
      if other then .fault 0x32 0 (low w) 0
      else .next (setWg s w.wg (bPut g d.toNat w.age (rd w a (low w))))))
def execBmovRead (d a : Fld) (s : State) : Host.Outcome State Fault Refusal :=
  laneWord s [d] (fun s k w =>
    let (v, s) := bRead s w.wg a.toNat (some w.age)
    .next (setWarp s k (mapLanes w d (fun _ => v))))

/-! Locked translations (R164, R210). -/

/-- The context of a warp's grid is in compatibility mode. -/
def compatOf (s : State) (wg : Nat) : Bool := match gridOfWg s wg with
  | some g => g.desc.getLsbD 2
  | none => false

/-- The first pages of a region, outside the heap, up to a number (R164). -/
def regionPages (g : Grid) (stop : Nat) : Nat → Nat → Nat → List Nat
  | 0, _, _ => []
  | fuel + 1, room, va =>
    if stop ≤ va ∨ room = 0 then []
    else if inHeap g.desc va then regionPages g stop fuel room (dHeapLimit g.desc)
    else match fixedAt g va with
      | none => []
      | some e => e.1 :: regionPages g stop fuel (room - 1) (e.1 + 2 ^ (12 + pteSize e.2))

/-- TLBLOCK (R164, R210). The spec gives no order between fault 0x17 and fault 0x50 of a member of a take (R189): the model
raises 0x17 first, here and in TLBUNLK (DESIGN CHOICE, log 93). Nor does it say whether a page that another locked region of the
workgroup holds takes a further one of the 16 entries: here it does (DESIGN CHOICE, log 114). -/
def execTlblock (a b : Fld) (s : State) : Host.Outcome State Fault Refusal :=
  laneWord s (pair a ++ [b]) (fun s _ w =>
    if !compatOf s w.wg then .fault 0x17 0 (low w) 0
    else noTake w (match gridOfWg s w.wg, tget s.wgs w.wg with
      | some g, some x =>
        let va := (rd64 w a (low w)).toNat
        let n := (rd w b (low w)).toNat
        if 2 ^ 57 ≤ va ∨ 2 ^ 57 < va + n then .fault 0x10 va (low w) 0
        else if n = 0 then .next s
        else if !covered g (fun _ => true) va n then .fault 0x15 va (low w) 0
        else
          let room := 16 - (x.locked.flatMap (·.pages)).length
          .next (setWg s w.wg { x with locked := x.locked ++ [⟨va, n, regionPages g (va + n) 20 room va⟩] })
      | _, _ => .stall))

/-- TLBUNLK (R210). Of several locked regions that start at the address, where the spec speaks of one, all are unlocked (DESIGN
CHOICE, log 116). -/
def execTlbunlk (a : Fld) (s : State) : Host.Outcome State Fault Refusal :=
  laneWord s (pair a) (fun s _ w =>
    if !compatOf s w.wg then .fault 0x17 0 (low w) 0
    else noTake w (match tget s.wgs w.wg with
      | some x => .next (setWg s w.wg { x with
          locked := x.locked.filter (fun r => r.start != (rd64 w a (low w)).toNat) })
      | none => .stall))

end Sys2Proof.Machine
end

