-- ==== Sys2Proof/Machine/Async.lean ====
section
/-! DEFINITION. Asynchronous copies (13 R202 to R207, R215) and the stash (R208, R209, 11 R157). -/

namespace Sys2Proof.Machine

/-! The sides of a copy. -/

/-- One side of a copy: LM from an LM address, or global memory from an address. -/
structure Side where
  lm : Bool
  at_ : Nat
deriving DecidableEq, Repr

/-- The workgroup and offset of a range at an LM address formed by a sum. The spec does not say what a sum is that carries out
of OFF: the model reads the whole sum as an LM address, in which the carry may set REM or MEMBER, and a sum of 2^32 or more
is out of range (DESIGN CHOICE, log 37). -/
def lmAt (s : State) (wg a n : Nat) : Option (Nat × Nat) :=
  if 2 ^ 32 ≤ a then none else lmTarget s wg (BitVec.ofNat 32 a) n

/-- A byte of a side. -/
def sideLoc (s : State) (own : Nat) (x : Side) (rel : Nat) : Loc :=
  if x.lm then
    let t := (lmAt s own (x.at_ + rel) 1).getD (own, 0)
    ⟨true, t.1, t.2, lmPlace t.1 t.2, 0⟩
  else gLoc s own (x.at_ + rel)

/-- Ranges of a side that a copy touches, as offset and length. -/
abbrev Segs := List (Nat × Nat)

/-- The LM-range and stash-alias checks of a range at an LM address (R155, R157). -/
def lmRangeBad (s : State) (wg a n : Nat) : Option Nat :=
  match lmAt s wg a n with
  | none => some 0x13
  | some (t, off) => if stashAlias s t off n then some 0x19 else none

/-- The LM checks of a side: cause and address. -/
def sideLmBad (s : State) (wg : Nat) (x : Side) (segs : Segs) : Option (Nat × Nat) :=
  if x.lm then segs.findSome? (fun g => (lmRangeBad s wg (x.at_ + g.1) g.2).map (fun c => (c, x.at_ + g.1))) else none

/-- The pieces of a global side, by 4 KiB, as address and length. -/
def sidePieces (x : Side) (segs : Segs) : List (Nat × Nat) :=
  if x.lm then [] else segs.flatMap (fun g => vPieces (x.at_ + g.1) g.2)

/-- The address check of pieces: a byte above the 57-bit space (R154). -/
def pieceAddrBad (ps : List (Nat × Nat)) : Option (Nat × Nat) :=
  (ps.find? (fun p => decide (2 ^ 57 < p.1 + p.2))).map (fun p => (0x10, p.1))

/-- The lease and locked-miss check of pieces. -/
def pieceLeaseBad (s : State) (wg : Nat) (n : Need) (ps : List (Nat × Nat)) : Option (Nat × Nat) :=
  ps.findSome? (fun p => (leaseFault s wg n p.1 p.2).map (fun c => (c, p.1)))

/-- The physical-address check of pieces. -/
def piecePhysBad (s : State) (wg : Nat) (ps : List (Nat × Nat)) : Option (Nat × Nat) :=
  (ps.find? (fun p => physFault s wg p.1 p.2)).map (fun p => (0x12, p.1))

/-- The first finding of several. -/
def firstSome (l : List (Option (Nat × Nat))) : Option (Nat × Nat) := l.findSome? id

/-- The checks of global pieces in the order of R187: addresses, leases, physical addresses. -/
def sideGlobalBad (s : State) (wg : Nat) (n : Need) (ps : List (Nat × Nat)) : Option (Nat × Nat) :=
  firstSome [pieceAddrBad ps, pieceLeaseBad s wg n ps, piecePhysBad s wg ps]

/-- The checks of a copy's two sides in the order of R187: addresses; then what the copy's own form checks; then LM ranges,
leases and physical addresses. -/
def sidesBad (s : State) (wg : Nat) (dst src : Side) (dsegs ssegs : Segs) (form : List (Option (Nat × Nat))) :
    Option (Nat × Nat) :=
  let dp := sidePieces dst dsegs
  let sp := sidePieces src ssegs
  firstSome ([pieceAddrBad dp, pieceAddrBad sp] ++ form ++ [sideLmBad s wg dst dsegs, sideLmBad s wg src ssegs,
    pieceLeaseBad s wg needW dp, pieceLeaseBad s wg needR sp, piecePhysBad s wg dp, piecePhysBad s wg sp])

/-! Performing a copy. -/

/-- ASYNC_COPY_COMPLETION. -/
def execAsyncCopyCompletion (id : Nat) (s : State) : Host.Outcome State Fault Refusal :=
  match s.cores.findSome? (fun e => (e.2.copies.find? (fun x => x.id == id)).map (fun x => (e.1, x))) with
  | none => .next s
  | some (c, x) => .next (copyDone s c x)

/-- The handle of a warp's copy queue, and of the bulk copy engine of its cluster (R180, R202). -/
def queueHandle (k : Nat) : Nat := 2 * 2 ^ 28 + dieOf (coreOf k) * 2 ^ 26 + coreOf k % 64 * 2 ^ 20 + k % 64 / 8
def bulkHandle (k : Nat) : Nat := 3 * 2 ^ 28 + dieOf (coreOf k) * 2 ^ 26 + coreOf k % 64 / 8

/-- Start a copy: it takes the next number of its counter, and its token becomes pending (R202). In continuity mode it
completes within its word (R316). -/
def startCopy (s : State) (k : Nat) (w : Warp) (d : Fld) (handle : Nat) (ms : List Move) : State :=
  let ctx := ctxOfWg s w.wg
  let t := tlOf s ctx handle
  let n := t.issued + 1
  let s := setTl s ctx handle { t with issued := n }
  let (id, s) := freshId s
  let now := cycleOf s (dieOf (coreOf k))
  let pc := wordAddr (curPC w)
  let s := setWarp s k { w with pend := w.pend ++ [⟨id, d, w.act, [], pc, now, false, true, [], 0, id, []⟩] }
  let x : Copy := ⟨id, w.wg, k, d, id, handle, n, ms, now, pc⟩
  let c := coreOf k
  let s := setCore s c { coreRec s c with copies := (coreRec s c).copies ++ [x] }
  if contOfWg s w.wg then copyDone s c x else s

/-- The 512 copies that a core can have in flight are in flight (R202). -/
def copiesFull (s : State) (k : Nat) : Bool := decide (512 ≤ (coreRec s (coreOf k)).copies.length)

/-- A copy word: forbidden in a take, stalled by a full core, then its checks, whose finding names a cause, an address and a
lane, and its start. -/
def copyWord (s : State) (k : Nat) (w : Warp) (d : Fld) (handle : Nat) (bad : Option (Nat × Nat × Nat))
    (ms : Unit → List Move) : Eff :=
  noTake w
    (if copiesFull s k then .stall
     else match bad with
      | some (c, a, l) => .fault c a l 0
      | none => .next (startCopy s k w d handle (ms ())))

/-- A finding that names the lowest active lane, which gives a copy its operands (R202). -/
def atLow (w : Warp) (b : Option (Nat × Nat)) : Option (Nat × Nat × Nat) := b.map (fun x => (x.1, x.2, low w))

/-- A global address operand with a bit above bit 56 (R154: 0x10). -/
def addrBad (g : Bool) (a : Nat) : Option (Nat × Nat) := if g && decide (2 ^ 57 ≤ a) then some (0x10, a) else none

/-- An address that is not aligned (0x11). -/
def alignBad (a n : Nat) : Option (Nat × Nat) := if a % n ≠ 0 then some (0x11, a) else none

/-! ACOPY (R203). -/

/-- An ACOPY as read at issue: its two operands, and its geometry: offset pairs of runs of bytes, destination and source,
with their length. -/
structure AcopyOps where
  dstG : Bool
  srcG : Bool
  dst : Nat
  src : Nat
  align : Nat
  limitBad : Bool
  dsegs : Segs
  ssegs : Segs
  runs : List (Nat × Nat × Nat)

/-- The operands of an ACOPY. -/
def acopyOps (w : Warp) (a b c : Fld) (sub : BitVec 4) (ty : BitVec 3) : AcopyOps :=
  let l := low w
  let dstG := sub.extractLsb' 0 2 == 1
  let srcG := sub.extractLsb' 0 2 == 0
  let dst := if dstG then (rd64 w a l).toNat else (rd w a l).toNat
  let src := if srcG then (rd64 w b l).toNat else (rd w b l).toNat
  if sub.getLsbD 2 then
    let e := 2 ^ ty.toNat
    let x := rd w c l
    let pitch := (rd w (c + 1) l).toNat
    let nr := field x 7 0 + 1
    let nc := field x 15 8 + 1
    ⟨dstG, srcG, dst, src, e, decide (field x 31 16 ≠ 0 ∨ pitch % e ≠ 0 ∨ pitch < nc * e), [(0, nr * nc * e)],
      (List.range nr).map (fun r => (r * pitch, nc * e)),
      (List.range nr).flatMap (fun r => (List.range nc).map (fun q => ((q * nr + r) * e, r * pitch + q * e, e)))⟩
  else
    let n := (rd w c l).toNat
    ⟨dstG, srcG, dst, src, 16, decide (n % 16 ≠ 0 ∨ n < 16 ∨ 1048576 < n), [(0, n)], [(0, n)], [(0, 0, n)]⟩

/-- The moves of runs of bytes between two sides. -/
def sideMoves (s : State) (wg : Nat) (d x : Side) (runs : List (Nat × Nat × Nat)) : List Move :=
  runs.flatMap (fun r => (List.range r.2.2).map (fun i =>
    ⟨sideLoc s wg d (r.1 + i), some (sideLoc s wg x (r.2.1 + i)), 0⟩))

def execAcopy (d a b c : Fld) (sub : BitVec 4) (ty : BitVec 3) (s : State) : Host.Outcome State Fault Refusal :=
  laneWord s ([d] ++ (if sub.extractLsb' 0 2 == 1 then pair a else [a]) ++
      (if sub.extractLsb' 0 2 == 0 then pair b else [b]) ++ (if sub.getLsbD 2 then pair c else [c])) (fun s k w =>
    let o := acopyOps w a b c sub ty
    let ds := (⟨!o.dstG, o.dst⟩ : Side)
    let ss := (⟨!o.srcG, o.src⟩ : Side)
    copyWord s k w d (queueHandle k)
      (atLow w (firstSome [addrBad o.dstG o.dst, addrBad o.srcG o.src,
        if o.limitBad then firstSome [alignBad o.dst o.align, alignBad o.src o.align, some (0x1D, 0)]
        else sidesBad s w.wg ds ss o.dsegs o.ssegs [alignBad o.dst o.align, alignBad o.src o.align]]))
      (fun _ => sideMoves s w.wg ds ss o.runs))

/-! BCOPY (R204). -/

/-- The units of the box of a tile: offset in LM, offset in the tensor, and whether the unit is inside. -/
def tileUnits (r : BitVec 512) (o0 o1 : Nat) : List (Nat × Nat × Bool) :=
  let f := shFmt r
  let u := unitElems f
  (List.range (shBox1 r)).flatMap (fun i1 => (List.range (shBox0 r / u)).map (fun j =>
    let i0 := j * u
    let lm := if shTrans r then i0 * shBox1 r + i1 else i1 * shBox0 r + i0
    (unitOff f lm, unitOff f (o0 + i0 + shStr r 1 * (o1 + i1)),
      decide (o0 + i0 < shExt r 0) && decide (o1 + i1 < shExt r 1))))

/-- Index vectors of a tensor, innermost dimension first, in steps of a unit. -/
def tensorIdx (r : BitVec 512) (u : Nat) : Nat → List (List Nat)
  | 0 => [[]]
  | n + 1 =>
    let inner := tensorIdx r u n
    let step := if n = 0 then u else 1
    (List.range (shExt r n / step)).flatMap (fun i => inner.map (fun d => d ++ [i * step]))

/-- The units of a whole tensor: offset in the dense image and in the tensor. -/
def bulkUnits (r : BitVec 512) : List (Nat × Nat) :=
  let f := shFmt r
  let ds := tensorIdx r (unitElems f) (shRank r)
  (List.range ds.length).map (fun i => (i * unitBytes f, unitOff f (shLin r (ds.getD i []))))

/-- Moves of a tile copy; outside units are zeroed in LM and left alone in memory. -/
def tileMoves (s : State) (wg : Nat) (out : Bool) (lm g : Side) (n : Nat) (us : List (Nat × Nat × Bool)) : List Move :=
  us.flatMap (fun u => (List.range n).filterMap (fun i =>
    let a := sideLoc s wg lm (u.1 + i)
    let b := sideLoc s wg g (u.2.1 + i)
    if out then (if u.2.2 then some ⟨b, some a, 0⟩ else none)
    else some ⟨a, if u.2.2 then some b else none, 0⟩))

/-- The shape register of a workgroup (R47, R58). -/
def shReg (s : State) (wg n : Nat) : BitVec 512 := match tget s.wgs wg with
  | none => 0
  | some g => tgetD 0 g.sh n

/-- BCOPY (R204). Whether the LM checks of a tile's .out copy cover elements that lie outside the tensor, and are not read, the
spec does not say: here they cover the whole box (DESIGN CHOICE, log 115). -/
def execBcopy (d a b : Fld) (sub : BitVec 4) (s : State) : Host.Outcome State Fault Refusal :=
  laneWord s ([d] ++ pair b) (fun s k w =>
    let r := shReg s w.wg a.toNat
    let f := shFmt r
    let n := unitBytes f
    let out := sub.getLsbD 0
    let bulk := sub.getLsbD 1
    let l := low w
    let malformed := shapeBad r || shScale r != 0 || (shTrans r && (bulk || isTE f))
    let ten : Side := ⟨false, shBase r⟩
    if bulk then
      let img := (rd64 w b l).toNat
      let us := bulkUnits r
      let im : Side := ⟨false, img⟩
      let isegs : Segs := [(0, us.length * n)]
      let tsegs : Segs := us.map (fun u => (u.2, n))
      copyWord s k w d (bulkHandle k)
        (atLow w (if malformed then some (0x34, 0) else firstSome [addrBad true img,
          if out then sidesBad s w.wg ten im tsegs isegs [] else sidesBad s w.wg im ten isegs tsegs []]))
        (fun _ => if out then sideMoves s w.wg ten im (us.map (fun u => (u.2, u.1, n)))
          else sideMoves s w.wg im ten (us.map (fun u => (u.1, u.2, n))))
    else
      let o := rd w (b + 1) l
      let us := tileUnits r (field o 15 0) (field o 31 16)
      let lm : Side := ⟨true, (rd w b l).toNat⟩
      let lsegs : Segs := [(0, us.length * n)]
      let tsegs : Segs := (us.filter (·.2.2)).map (fun u => (u.2.1, n))
      copyWord s k w d (queueHandle k)
        (atLow w (if malformed then some (0x34, 0)
          else
            let form := [if isTE f ∧ field o 15 0 % 16 ≠ 0 then some (0x1D, 0) else none]
            if out then sidesBad s w.wg ten lm tsegs lsegs form else sidesBad s w.wg lm ten lsegs tsegs form))
        (fun _ => tileMoves s w.wg out lm ten n us))

/-! GATHER (R205). -/

def execGather (d a b c : Fld) (ty : BitVec 3) (s : State) : Host.Outcome State Fault Refusal :=
  laneWord s ([d, a] ++ pair b ++ [c]) (fun s k w =>
    let l := low w
    let n := 4 * 2 ^ ty.toNat
    let ls := lanesOf w.act
    let lm : Side := ⟨true, (rd w a l).toNat⟩
    let stride := (rd w c l).toNat
    let src (x : Nat) : Nat := (rd64 w b x).toNat
    let at_ (c : Nat → Option (Nat × Nat)) : Option (Nat × Nat × Nat) :=
      ls.findSome? (fun x => (c x).map (fun b => (b.1, b.2, x)))
    copyWord s k w d (queueHandle k)
      ([at_ (fun x => addrBad true (src x)), atLow w (alignBad (rd w a l).toNat 4), at_ (fun x => alignBad (src x) n),
        atLow w (if stride % 4 ≠ 0 then some (0x1D, 0) else none),
        at_ (fun x => sideLmBad s w.wg lm [(x * stride, n)]), at_ (fun x => pieceLeaseBad s w.wg needR [(src x, n)]),
        at_ (fun x => piecePhysBad s w.wg [(src x, n)])].findSome? id)
      (fun _ => ls.flatMap (fun y => (List.range n).map (fun i =>
        ⟨sideLoc s w.wg lm (y * stride + i), some (gLoc s w.wg (src y + i)), 0⟩))))

/-! Tokens and timelines (R206, R207). -/

/-- TOKCLR waits behind a completion still pending for its register (R68, R206). -/
def execTokclr (d : Fld) (s : State) : Host.Outcome State Fault Refusal :=
  warpWord s [d] (fun w => wr w d w.act (fun _ => 0))
def execTlwait (a b : Fld) (s : State) : Host.Outcome State Fault Refusal :=
  laneWord s ([a] ++ pair b) (fun s k w =>
    let h := rd w a (low w)
    let v := rd64 w b (low w)
    let ctx := ctxOfWg s w.wg
    if !handleOk s ctx h then .fault 0x1C 0 (low w) 0
    else waitSome s k w (if v.toNat ≤ handleVal s ctx h then 0 else w.act) (.timeline h v))
/-- TLREAD: each lane reads the counter that its own handle names; that A is taken from the lowest active lane, the spec says
of TLWAIT only (DESIGN CHOICE, log 94; R117, R207). -/
def execTlread (d a : Fld) (s : State) : Host.Outcome State Fault Refusal :=
  laneWord s ([a] ++ pair d) (fun s k w =>
    let ctx := ctxOfWg s w.wg
    match (lanesOf w.act).find? (fun l => !handleOk s ctx (rd w a l)) with
    | some l => .fault 0x1C 0 l 0
    | none => .next (setWarp s k (wr64 w d w.act (fun l => BitVec.ofNat 64 (handleVal s ctx (rd w a l))))))

/-! The stash (R157, R208, R209). -/

/-- Two ranges overlap. -/
def overlap (a n b m : Nat) : Bool := decide (a < b + m) && decide (b < a + n)

/-- A copy of a workgroup in flight touches a range of its LM (R208). -/
def copyOnLm (s : State) (wg a n : Nat) : Bool :=
  s.cores.any (fun e => e.2.copies.any (fun x => x.wg == wg && x.moves.any (fun m =>
    let hit (l : Loc) : Bool := l.lm && l.wg == wg && decide (a ≤ l.va) && decide (l.va < a + n)
    hit m.dst || (match m.src with
      | some l => hit l
      | none => false))))

/-- Unmap a stash region: dirty lines are written back, and LM holds the filled lines' values and zero elsewhere
(R208). -/
def stashUnmap (s : State) (wg i : Nat) : State :=
  match (tget s.wgs wg).bind (fun w => w.stash[i]?) with
  | none => s
  | some r =>
    let s := r.lines.foldl (fun s l => writeBackLine s wg i l.1) s
    let s := (List.range (r.size / 128)).foldl (fun s j =>
      if (tget r.lines j).isSome then s else writeLm s none wg (r.lm + 128 * j) (List.replicate 128 0)) s
    match tget s.wgs wg with
    | none => s
    | some w => setWg s wg { w with stash := w.stash.eraseIdx i }

/-- A STASHMAP that breaks the limits of R208 (0x1A). -/
def stashBad (g : Workgroup) (lmSize a va n : Nat) : Bool :=
  decide (a % 128 ≠ 0 ∨ va % 128 ≠ 0 ∨ n % 128 ≠ 0) ||
    (if n = 0 then !g.stash.any (fun r => r.lm == a)
     else decide (4 ≤ g.stash.length) || decide (lmSize < a + n) ||
       g.stash.any (fun r => overlap r.lm r.size a n || overlap r.va r.size va n))

def execStashmap (a b c : Fld) (s : State) : Host.Outcome State Fault Refusal :=
  laneWord s ([a] ++ pair b ++ [c]) (fun s _ w => noTake w
    (let l := low w
     let lm := (rd w a l).toNat
     let va := (rd64 w b l).toNat
     let n := (rd w c l).toNat
     match tget s.wgs w.wg, gridOfWg s w.wg with
     | some g, some gr =>
       if 2 ^ 57 ≤ va then .fault 0x10 va l 0
       else if stashBad g (hLmSize gr.hdr) lm va n then .fault 0x1A lm l 0
       else if n = 0 then .next (stashUnmap s w.wg (g.stash.findIdx (fun r => r.lm == lm)))
       else if !(covered gr (·.getLsbD 120) va n && covered gr (·.getLsbD 121) va n) then .fault 0x15 va l 0
       else if copyOnLm s w.wg lm n then .stall
       else .next (setWg s w.wg { g with stash := g.stash ++ [⟨lm, va, n, []⟩] })
     | _, _ => .stall))

/-- The lines of mapped regions in a range of LM: region and line (R209). -/
def stashLines (g : Workgroup) (a n : Nat) : List (Nat × Nat) :=
  (List.range g.stash.length).flatMap (fun i => match g.stash[i]? with
    | none => []
    | some r => (r.lines.filter (fun l => decide (a ≤ r.lm + 128 * l.1) && decide (r.lm + 128 * l.1 < a + n))).map
        (fun l => (i, l.1)))

/-- STASHWB and STASHINV: an action on every line of a range (R209). -/
def stashRange (a b : Fld) (f : State → Nat → Nat × Nat → State) (s : State) : Host.Outcome State Fault Refusal :=
  laneWord s [a, b] (fun s _ w => noTake w
    (let l := low w
     let lm := (rd w a l).toNat
     let n := (rd w b l).toNat
     match tget s.wgs w.wg with
     | none => .stall
     | some g =>
       if lm % 128 ≠ 0 ∨ n % 128 ≠ 0 then .fault 0x1A lm l 0
       else .next ((stashLines g lm n).foldl (fun s x => f s w.wg x) s)))

def execStashwb (a b : Fld) (s : State) : Host.Outcome State Fault Refusal :=
  stashRange a b (fun s wg x => writeBackLine s wg x.1 x.2) s
/-- A filled line becomes unfilled; the stores that a dirty one loses change the line for takes that watch it (R209, 19
R289). -/
def dropLine (s : State) (wg i j : Nat) : State :=
  match ((tget s.wgs wg).bind (fun w => w.stash[i]?)).bind (fun r => (tget r.lines j).map (fun y => (r, y))) with
  | none => s
  | some (r, y) =>
    let s := if y.dirty then conflicts s none (stashPa s wg r j) 128 else s
    setStashLine s wg i j none

def execStashinv (a b : Fld) (s : State) : Host.Outcome State Fault Refusal :=
  stashRange a b (fun s wg x => dropLine s wg x.1 x.2) s

end Sys2Proof.Machine
end

