-- ==== Sys2Proof/Machine/TaskI.lean ====
section
/-! DEFINITION. Tasks, futures, hardware queues, mailboxes and network matches (17 R251 to R277), and the warps that form
from bins, ready lists and trap requests (01 R20 to R22, 17 R254, R255, 21 R328). -/

namespace Sys2Proof.Machine

/-! Checks of every active lane before any lane acts (R258, R310): a lane's effect is tried on the state that the lanes
before it would leave, and the first failure is raised with no effect. -/

/-- The lanes act in ascending order, or the first failure with its data address and lane. -/
def tryLanes (ls : List Nat) (s : State) (f : State → Nat → Except (Nat × Nat) State) : Except (Nat × Nat × Nat) State :=
  match ls with
  | [] => .ok s
  | l :: r =>
    match f s l with
    | .error (c, a) => .error (c, a, l)
    | .ok s => tryLanes r s f

/-- The outcome of lanes that act. -/
def tryEff (x : Except (Nat × Nat × Nat) State) : Eff := match x with
  | .error (c, a, l) => .fault c a l 0
  | .ok s => .next s

/-- A word that a take forbids checks its active lanes in ascending order, and of each lane first that it is no member of the
take; the first failure is raised (R258, 19 R310). The checks of some lanes are given as a finding. -/
def laneChecks (w : Warp) (ls : List Nat) (bad : List Nat → Option (Nat × Nat × Nat)) (go : Eff) : Eff :=
  match activeMember w with
  | some l => match bad (ls.filter (· < l)) with
    | some (c, a, x) => .fault c a x 0
    | none => .fault 0x50 0 l 0
  | none => match bad ls with
    | some (c, a, x) => .fault c a x 0
    | none => go

/-- The same for lanes that act one after another. -/
def laneActs (w : Warp) (ls : List Nat) (s : State) (f : State → Nat → Except (Nat × Nat) State) : Eff :=
  match activeMember w with
  | some l => match tryLanes (ls.filter (· < l)) s f with
    | .error (c, a, x) => .fault c a x 0
    | .ok _ => .fault 0x50 0 l 0
  | none => tryEff (tryLanes ls s f)

/-- The lanes that an operand names: every active lane, or the lowest for a w register (R266, R267, R302). -/
def lanesFor (w : Warp) (f : Fld) : List Nat := if f.toNat < 192 then lanesOf w.act else [low w]

/-- Raise a cause. -/
def failIf (b : Bool) (c : Nat) : Except (Nat × Nat) Unit := if b then .error (c, 0) else .ok ()

/-! Spawning and ending tasks (R260 to R262). -/

/-- Task records that still find room (R253). -/
def taskFree (s : State) (wg : Nat) : Nat :=
  match tget s.wgs wg, gridOfWg s wg with
  | some w, some g =>
    (match w.core with
      | some c => 1024 - (coreRec s c).tasks.length
      | none => 0) + (field g.desc 639 608 * 64 - spilledTasks s g.ctx)
  | _, _ => 0

/-- One lane's task (R261). -/
def spawnLane (w : Warp) (a b : Fld) (fut : Bool) (n : Nat) (s : State) (l : Nat) : Except (Nat × Nat) State := do
  let args := (List.range 8).map (fun i => if i < n then rd w (b + BitVec.ofNat 8 i) l else (0 : Word))
  let h := args.headD 0
  failIf ((rd w a l).extractLsb' 0 2 != 0) 1
  failIf (fut && !futOk s w.wg h) 0x43
  failIf (!taskRoom s w.wg) 0x42
  let done := futDone s w.wg h
  let args := if fut && done then (futEntry s (ctxOfWg s w.wg) h).val :: args.drop 1 else args
  .ok (createTask s w.wg (regTarget (curPC w).hdr (rd w a l)) args (((thr w l).map (·.wid)).getD 0)
    (if fut && !done then some h else none) false none)

def execTspawn (a b : Fld) (sub : BitVec 4) (aux : Fld) (s : State) : Host.Outcome State Fault Refusal :=
  let n := field aux 3 0
  laneWord s (a :: regGroup b n) (fun s _ w => laneActs w (lanesOf w.act) s (spawnLane w a b (sub == 1) n))

/-- A responder that ends without having responded sends a withdrawn response (R305). -/
def tendWithdraw (s : State) (w : Warp) : State :=
  (lanesOf w.act).foldl (fun s l => match thr w l with
    | some t => match t.census with
      | some (id, e) => if t.responded then s else withdraw s id e
      | none => s
    | none => s) s

def execTend (s : State) : Host.Outcome State Fault Refusal :=
  laneWord s [] (fun s k w =>
    if !(w.kind == .task || w.kind == .responder) then .fault 0x0B 0 (low w) 0
    else match activeMember w with
      | some l => .fault 0x51 0 l 0
      | none => .moved (endLanes (setWarp (tendWithdraw s w) k (choicePoint w)) k w.act (wordAddr (curPC w))))

/-! Futures (R263 to R268). -/

/-- Replace a future entry of a context. -/
def setFut (s : State) (ctx i : Nat) (e : Fut) : State :=
  let c := ctxRec s ctx
  setCtx s ctx { c with futures := tput c.futures i e }

/-- The lowest FREE entry of a context's table (R266). -/
def freeFut (s : State) (ctx size : Nat) : Option Nat :=
  let busy := ((ctxRec s ctx).futures.filter (fun e => e.2.st != 0)).map (·.1)
  (List.range (min size (busy.length + 1))).find? (fun i => !busy.contains i)

/-- The handle of an entry. -/
def futHandle (e : Fut) (i : Nat) : Word := BitVec.ofNat 32 (e.gen * 2 ^ 20 + i)

/-- Allocate one entry: its handle. -/
def newFut (s : State) (wg : Nat) : Option (Word × State) :=
  match gridOfWg s wg with
  | none => none
  | some g =>
    match freeFut s g.ctx (futSize g.desc) with
    | none => none
    | some i =>
      let e := tgetD Fut.empty (ctxRec s g.ctx).futures i
      some (futHandle e i, setFut s g.ctx i { e with st := 1, val := 0 })

/-- Allocate an entry for each of some lanes; the error is the first lane for which the table is full (R258, R266). -/
def newFuts (s : State) (wg : Nat) : List Nat → Except Nat (Tbl Word × State)
  | [] => .ok ([], s)
  | l :: r =>
    match newFut s wg with
    | none => .error l
    | some (h, s) =>
      match newFuts s wg r with
      | .error x => .error x
      | .ok (t, s) => .ok ((l, h) :: t, s)

/-- The lane for which FUTNEW finds no FREE entry. -/
def futFull (s : State) (wg : Nat) (ls : List Nat) : Option (Nat × Nat × Nat) := match newFuts s wg ls with
  | .error l => some (0x45, 0, l)
  | .ok _ => none

def execFutnew (d : Fld) (s : State) : Host.Outcome State Fault Refusal :=
  laneWord s [d] (fun s k w => laneChecks w (lanesFor w d) (futFull s w.wg)
    (match newFuts s w.wg (lanesFor w d) with
      | .error l => .fault 0x45 0 l 0
      | .ok (t, s) => .next (setWarp s k (mapLanes w d (fun l => tgetD 0 t l)))))

/-- A task that waits on a future becomes ready with its value (R256, R265). -/
def readyTask (s : State) (h : Word) (v : Word) (ctx : Nat) (t : Task) : Task :=
  if t.waits == some h && ctxOfWg s t.wg == ctx then
    { t with waits := none, args := v :: t.args.drop 1, readyAt := readyClock s t.wg }
  else t

/-- The waits of a warp's threads once a future is resolved, which removes every waiter of it (R265, R267). -/
def readyWarp (s : State) (h : Word) (ctx : Nat) (w : Warp) : Warp :=
  if ctxOfWg s w.wg == ctx then
    modLanes w (BitVec.allOnes 32) (fun _ t => match t.wait with
      | .futures hs => { t with wait := .futures (hs.filter (· != h)) }
      | .header 5 x => if x == h.toNat then { t with wait := .headerOk } else t
      | _ => t)
  else w

/-- The lanes of a warp whose FUTWAIT is over. -/
def futLanes (w : Warp) : Mask := lanesWhere w (fun t => t.wait == .futures [])

/-- Resolve a future: every waiting task becomes ready, every waiting warp goes on (R267). -/
def resolve (s : State) (ctx : Nat) (h v : Word) : State :=
  let e := futEntry s ctx h
  let s : State := setFut s ctx (futIx h) { e with st := 2, val := v }
  let s : State := { s with
    cores := s.cores.map (fun e => (e.1, { e.2 with tasks := e.2.tasks.map (readyTask s h v ctx) }))
    warps := s.warps.map (fun e => (e.1, readyWarp s h ctx e.2))
    ctxs := s.ctxs.map (fun e => (e.1, { e.2 with
      saved := e.2.saved.map (fun x => { x with
        tasks := x.tasks.map (readyTask s h v ctx), warps := x.warps.map (readyWarp s h ctx) }) })) }
  (s.warps.map (·.1)).foldl (fun s k => match tget s.warps k with
    | none => s
    | some w => if futLanes w = 0 then s else releaseLanes s k (futLanes w)) s

/-- Some lane before this one names the same entry. -/
def futTwice (w : Warp) (a : Fld) (ls : List Nat) (l : Nat) : Bool :=
  ls.any (fun j => decide (j < l) && futIx (rd w a j) == futIx (rd w a l))

/-- The fault that a FUTSET, FUTGET or FUTDROP lane meets on the state before the instruction. -/
def futBad (s : State) (w : Warp) (a : Fld) (bad : Fut → Word → Bool) (ls : List Nat) : Option (Nat × Nat × Nat) :=
  ls.findSome? (fun l =>
    let h := rd w a l
    if !futOk s w.wg h then some (0x43, 0, l)
    else if bad (futEntry s (ctxOfWg s w.wg) h) h || futTwice w a ls l then some (0x44, 0, l)
    else none)

def execFutset (a b : Fld) (s : State) : Host.Outcome State Fault Refusal :=
  laneWord s [a, b] (fun s k w => laneChecks w (lanesFor w a) (futBad s w a (fun e _ => e.st != 1))
    (let ctx := ctxOfWg s w.wg
     .next ((lanesFor w a).foldl (fun s l => resolve s ctx (rd w a l) (rd w b l)) (setWarp s k w))))

/-- Every handle is checked as the wait begins (R268). -/
def execFutwait (a : Fld) (s : State) : Host.Outcome State Fault Refusal :=
  laneWord s [a] (fun s k w =>
    let ls := lanesFor w a
    match ls.find? (fun l => !futOk s w.wg (rd w a l)) with
    | some l => .fault 0x43 0 l 0
    | none =>
      let hs := (ls.map (rd w a)).filter (fun h => !futDone s w.wg h)
      waitSome s k w (if hs.isEmpty then 0 else w.act) (.futures hs))
def execFutget (d a : Fld) (s : State) : Host.Outcome State Fault Refusal :=
  laneWord s [a, d] (fun s k w =>
    match (lanesOf w.act).findSome? (fun l =>
        let h := rd w a l
        if !futOk s w.wg h then some (0x43, l)
        else if (futEntry s (ctxOfWg s w.wg) h).st != 2 then some (0x44, l) else none) with
    | some (c, l) => .fault c 0 l 0
    | none => .next (setWarp s k (mapLanes w d (fun l => (futEntry s (ctxOfWg s w.wg) (rd w a l)).val))))

/-- A future has waiters: tasks, lanes in FUTWAIT, warps in a header wait; the set of a future has removed them all
(R265). -/
def futWaited (s : State) (ctx : Nat) (h : Word) : Bool :=
  let task (t : Task) : Bool := t.waits == some h && ctxOfWg s t.wg == ctx
  let warp (w : Warp) : Bool := ctxOfWg s w.wg == ctx && w.threads.any (fun t => match t.2.wait with
    | .futures hs => hs.contains h
    | .header 5 x => x == h.toNat
    | _ => false)
  s.cores.any (fun e => e.2.tasks.any task) || s.warps.any (fun e => warp e.2) ||
    s.ctxs.any (fun e => e.2.saved.any (fun x => x.tasks.any task || x.warps.any warp))

def execFutdrop (a : Fld) (s : State) : Host.Outcome State Fault Refusal :=
  laneWord s [a] (fun s _ w =>
    let ctx := ctxOfWg s w.wg
    laneChecks w (lanesFor w a) (futBad s w a (fun _ h => futWaited s ctx h))
      (.next ((lanesFor w a).foldl (fun s l =>
         let h := rd w a l
         let e := futEntry s ctx h
         setFut s ctx (futIx h) { e with st := 0, gen := if e.gen = 4095 then 1 else e.gen + 1 }) s)))

/-! Hardware queues (R269 to R272). -/

/-- Fields of a hardware-queue descriptor (R269). -/
def hqEn (d : BitVec 256) : Bool := d.getLsbD 0
def hqCtx (d : BitVec 256) : Nat := field d 59 48
def hqRing (d : BitVec 256) : Nat := 2 ^ field d 64 60
def hqBase (d : BitVec 256) : Nat := field d 116 65 * 32
def hqPushed (d : BitVec 256) : Nat := field d 191 128
def hqPopped (d : BitVec 256) : Nat := field d 255 192

/-- Records that a queue can hold. -/
def hqCap (x : Hwq) : Nat := 32 + hqRing x.desc

/-- The physical address of a ring slot, through the pages fixed when the queue was enabled (R269, R270). -/
def hqSlot (x : Hwq) (n : Nat) : Nat :=
  let va := hqBase x.desc + 32 * (n % hqRing x.desc)
  x.ring.getD (va / 4096 - hqBase x.desc / 4096) 0 + va % 4096

/-- The bytes of a record. -/
def recBytes (r : List Word) : List Byte := r.flatMap (fun x => leBytes 4 x.toNat)

/-- The words of a record from its bytes. -/
def recWords (bs : List Byte) : List Word :=
  (List.range 8).map (fun i => BitVec.ofNat 32 (leNat ((bs.drop (4 * i)).take 4)))

/-- One byte of a ring record as it is delivered: where another agent has changed it, the choice is free (R270). -/
def ringByte (ctx : Nat) (acc : List Byte × State) (e : Byte × Byte) : List Byte × State :=
  if e.1 = e.2 then (acc.1 ++ [e.1], acc.2)
  else
    let (i, s) := chooseIn acc.2 ctx 2
    (acc.1 ++ [if i = 0 then e.1 else e.2], s)

/-- A record comes onto the chip from its ring slot. -/
def ringRefill (s : State) (x : Hwq) (r : Nat × List Word) : (Nat × List Word) × State :=
  let (now, s) := readPhys s (hqSlot x r.1) 32
  let (bs, s) := ((recBytes r.2).zip now).foldl (ringByte (hqCtx x.desc)) ([], s)
  ((r.1, recWords bs), s)

/-- Push a record into a queue that has room (R270). -/
def hqPush (s : State) (k : Nat) (r : List Word) : State :=
  let x := hwqRec s k
  let n := hqPushed x.desc
  let s := if x.recs.length < 32 then s else writePhys s (hqSlot x n) (recBytes r)
  let x := hwqRec s k
  setHwq s k { x with recs := x.recs ++ [(n, r)], desc := setField x.desc 191 128 (n + 1) }

/-- Pop the oldest record of a queue; the oldest ring record takes its place on the chip (R270). -/
def hqPop (s : State) (k : Nat) : Option (List Word × State) :=
  let x := hwqRec s k
  match x.recs with
  | [] => none
  | r :: rest =>
    let (rest, s) := match rest[31]? with
      | none => (rest, s)
      | some y =>
        let (y, s) := ringRefill s x y
        (rest.set 31 y, s)
    let x := hwqRec s k
    some (r.2, setHwq s k { x with recs := rest, desc := setField x.desc 255 192 (hqPopped x.desc + 1) })

/-- A lane's group of 8 registers takes a record (R271). -/
def popRegs (w : Warp) (d : Fld) (l : Nat) (r : List Word) : Warp :=
  (List.range 8).foldl (fun w i => wr w (d + BitVec.ofNat 8 i) (laneBit l) (fun _ => r.getD i 0)) w

/-- Write a record into a lane's group of 8. -/
def popInto (s : State) (k : Nat) (d : Fld) (l : Nat) (r : List Word) : State :=
  match tget s.warps k with
  | none => s
  | some w => setWarp s k (popRegs w d l r)

/-- A served lane goes on, with the record that it popped. A lane that is written out takes it in what is saved of it, and
goes on once it is restored (R271, R278). -/
def hqGoOn (s : State) (q : QWait) (rec : List Word) : State :=
  match findThread s q.name with
  | some (kw, l) =>
    releaseLanes (if q.push.isSome then s else popInto s kw q.reg l rec) kw (laneBit l)
  | none =>
    let put (w : Warp) : Warp := match w.threads.find? (fun t => t.2.name == q.name) with
      | none => w
      | some (l, _) =>
        let w := if q.push.isSome then w else popRegs w q.reg l rec
        modLanes w (laneBit l) (fun _ t => { t with wait := .futures [] })
    { s with ctxs := s.ctxs.map (fun e => (e.1, { e.2 with
        saved := e.2.saved.map (fun x => if x.wg == q.name.wg then { x with warps := x.warps.map put } else x) })) }

/-- A queue is enabled for the context of a lane that waits on it. -/
def hqServes (s : State) (x : Hwq) (q : QWait) : Bool := hqEn x.desc && hqCtx x.desc == ctxOfWg s q.name.wg

/-- Serve the lanes that wait on a queue for its context, in the order in which they began to wait (R271); fuel is their
number. -/
def hqServe (s : State) (k : Nat) : Nat → State
  | 0 => s
  | n + 1 =>
    let x := hwqRec s k
    match x.waiters.find? (hqServes s x) with
    | none => s
    | some q =>
      let s1 := setHwq s k { x with waiters := x.waiters.erase q }
      match q.push with
      | some rec => if x.recs.length < hqCap x then hqServe (hqGoOn (hqPush s1 k rec) q rec) k n else s
      | none =>
        match hqPop s1 k with
        | none => s
        | some (rec, s) => hqServe (hqGoOn s q rec) k n

/-- Serve every lane that can be served. -/
def hqServeAll (s : State) (k : Nat) : State := hqServe s k (hwqRec s k).waiters.length

/-- The queue that an instruction names is enabled for its context (R258: 0x46). -/
def hqOk (s : State) (w : Warp) (k : Nat) : Bool :=
  let d := (hwqRec s k).desc
  hqEn d && hqCtx d == ctxOfWg s w.wg

/-- The queue of the issuing core that a word names. -/
def hqKey (k : Nat) (q : Fld) : Nat := 8 * coreOf k + q.toNat % 8

/-- Where the hardware queues of a context that are saved with it stand in the table of queues: beyond those of the cores, by
context and then by the queue that each was (17 R278). -/
def savedQueue (ctx k : Nat) : Nat := (ctx + 1) * 2 ^ 40 + k

/-- The lanes of m wait on a queue; the others have been served and go on. With every lane waiting nothing retires
(R64, R271). -/
def queueWait (s : State) (k hq : Nat) (act m : Mask) (w0 : Warp) (mk : Nat → QWait) : Eff :=
  match tget s.warps k with
  | none => .stall
  | some w =>
    if m = 0 then .next s
    else
      let x := hwqRec s hq
      let s := setHwq s hq { x with waiters := x.waiters ++ (lanesOf m).map mk }
      let s := setWarp s k (beginWait (setPC w (act &&& ~~~m) (nextPC w0)) m (.queue hq) (nextPC w0))
      if act &&& ~~~m = 0 then .parked s else .moved s

/-- The name of a lane's thread. -/
def nameOf (w : Warp) (l : Nat) : TName := ((thr w l).map (·.name)).getD ⟨w.wg, false, 0, false⟩

/-- QPOP for the lanes in order: those served. -/
def popLanes (k hq : Nat) (d : Fld) (acc : State × Mask) (l : Nat) : State × Mask :=
  match hqPop acc.1 hq with
  | none => acc
  | some (r, s) => (popInto s k d l r, acc.2 ||| laneBit l)

/-- The check of every lane of a queue word (R258: 0x46). -/
def hqBad (s : State) (w : Warp) (hq : Nat) (ls : List Nat) : Option (Nat × Nat × Nat) :=
  if hqOk s w hq then none else ls.head?.map (fun l => (0x46, 0, l))

def execQpop (d q : Fld) (s : State) : Host.Outcome State Fault Refusal :=
  laneWord s (regGroup d 8) (fun s k w =>
    let hq := hqKey k q
    laneChecks w (lanesOf w.act) (hqBad s w hq)
      (let (s, got) := (lanesOf w.act).foldl (popLanes k hq d) (s, 0)
       queueWait (hqServeAll s hq) k hq w.act (w.act &&& ~~~got) w (fun l => ⟨nameOf w l, none, d⟩)))

/-- The record that a lane pushes. -/
def pushRec (w : Warp) (a : Fld) (l : Nat) : List Word := (List.range 8).map (fun i => rd w (a + BitVec.ofNat 8 i) l)

/-- QPUSH for the lanes in order: a lane behind waiting pushes, or at a full queue, is not served. -/
def pushLanes (w : Warp) (hq : Nat) (a : Fld) (acc : State × Mask) (l : Nat) : State × Mask :=
  let x := hwqRec acc.1 hq
  if x.recs.length < hqCap x ∧ ¬ x.waiters.any (fun q => q.push.isSome && hqServes acc.1 x q) then
    (hqServeAll (hqPush acc.1 hq (pushRec w a l)) hq, acc.2 ||| laneBit l)
  else acc

def execQpush (a q : Fld) (s : State) : Host.Outcome State Fault Refusal :=
  laneWord s (regGroup a 8) (fun s k w =>
    let hq := hqKey k q
    laneChecks w (lanesOf w.act) (hqBad s w hq)
      (let (s, got) := (lanesOf w.act).foldl (pushLanes w hq a) (s, 0)
       queueWait s k hq w.act (w.act &&& ~~~got) w (fun l => ⟨nameOf w l, some (pushRec w a l), a⟩)))
def execQroom (d q : Fld) (s : State) : Host.Outcome State Fault Refusal :=
  laneWord s [d] (fun s k w =>
    let hq := hqKey k q
    let x := hwqRec s hq
    if !hqOk s w hq then .fault 0x46 0 (low w) 0
    else .next (setWarp s k (mapLanes w d (fun _ => BitVec.ofNat 32 (hqCap x - x.recs.length)))))

/-! Mailboxes (R273, R274). -/

/-- The key of a mailbox of a context. -/
def mbxKey (ctx n : Nat) : Nat := ctx * 4096 + n

/-- The memory checks of a single address of a lane, as a failure. -/
def memCheck (s : State) (wg va n : Nat) (need : Need) (len : Nat) : Except (Nat × Nat) Unit :=
  if 2 ^ 57 ≤ va then .error (0x10, va)
  else if va % n ≠ 0 then .error (0x11, va)
  else match sideGlobalBad s wg need (vPieces va len) with
    | some e => .error e
    | none => .ok ()

/-- MBXBIND of one lane (R273). -/
def bindLane (w : Warp) (a b : Fld) (s : State) (l : Nat) : Except (Nat × Nat) State :=
  match gridOfWg s w.wg with
  | none => .ok s
  | some g =>
    let n := (rd w a l).toNat
    let key := mbxKey g.ctx n
    let pc := rd w (b + 2) l
    let va := (rd64 w b l).toNat
    if field g.desc 540 528 ≤ n then .error (0x47, 0)
    else if pc = 0 then
      if (tget s.mailboxes key).isNone then .error (0x47, 0) else .ok { s with mailboxes := tdel s.mailboxes key }
    else if pc.extractLsb' 0 2 ≠ 0 then .error (1, 0)
    else match memCheck s w.wg va 8 needR 8 with
      | .error e => .error e
      | .ok () =>
        let pa := (gridXlate s w.wg va).1
        if (tget s.mailboxes key).isSome || s.mailboxes.any (fun m => m.2.pa == pa) then .error (0x47, va)
        else .ok { s with mailboxes := tput s.mailboxes key ⟨w.wg, g.ctx, n, BitVec.ofNat 64 va, pa,
          regTarget (curPC w).hdr pc, rd w (b + 3) l, 0, ((thr w l).map (·.wid)).getD 0⟩ }

def execMbxbind (a b : Fld) (s : State) : Host.Outcome State Fault Refusal :=
  laneWord s (a :: regGroup b 4) (fun s _ w => laneActs w (lanesOf w.act) s (bindLane w a b))

/-- MAILBOX_ARRIVAL: the count rises, and a handler task is created with a read of the doorbell (R256, R274). -/
def execMailboxArrival (m : Nat) (s : State) : Host.Outcome State Fault Refusal :=
  match tget s.mailboxes m with
  | none => .next s
  | some x =>
    let count := x.count + 1
    let s := { s with mailboxes := tput s.mailboxes m { x with count := count } }
    let (bs, s) := readPhys s x.pa 8
    if taskRoom s x.wg then
      let d : DWord := BitVec.ofNat 64 (leNat bs)
      .next (createTask s x.wg x.pc [d.extractLsb' 0 32, d.extractLsb' 32 32, x.arg, BitVec.ofNat 32 x.number, count,
        0, 0, 0] x.wid none false none)
    else .next (taskSpaceFault s x.wg false)

/-! Network matches (R275 to R277). -/

/-- The matching table of a die. -/
def matchTable (s : State) (die : Nat) : List MatchE := tgetD [] s.netMatch die

/-- Replace the matching table of a die. -/
def setMatch (s : State) (die : Nat) (t : List MatchE) : State := { s with netMatch := tput s.netMatch die t }

/-- NMATCH of one lane (R275). -/
def matchLane (die : Nat) (w : Warp) (a b c : Fld) (s : State) (l : Nat) : Except (Nat × Nat) State :=
  let va := (rd64 w b l).toNat
  let pc := rd w (b + 2) l
  let n := (rd w (b + 3) l).toNat
  if pc = 0 ∨ pc.extractLsb' 0 2 ≠ 0 then .error (1, 0)
  else if n < 1 ∨ 16777216 < n then .error (0x4B, 0)
  else match memCheck s w.wg va 64 needW n with
    | .error e => .error e
    | .ok () =>
      if 1024 ≤ ((matchTable s die).filter (fun e => !e.dead)).length then .error (0x48, 0)
      else
        let (id, s) := freshId s
        .ok (setMatch s die (matchTable s die ++ [⟨id, w.wg, ctxOfWg s w.wg, rd w a l, BitVec.ofNat 64 va,
          regTarget (curPC w).hdr pc, n, rd w c l, ((thr w l).map (·.wid)).getD 0, false, 0, 0, false⟩]))

def execNmatch (a b c : Fld) (s : State) : Host.Outcome State Fault Refusal :=
  laneWord s (a :: regGroup b 4 ++ [c]) (fun s k w =>
    laneActs w (lanesOf w.act) s (matchLane (dieOf (coreOf k)) w a b c))

/-- The unclaimed entries of a workgroup with a tag, on whichever die it inserted them, by their numbers, which rise with
insertion. -/
def matchesOf (s : State) (wg : Nat) (tag : Word) : List Nat :=
  s.netMatch.flatMap (fun d => (d.2.filter (fun e => e.wg == wg && e.tag == tag && !e.claimed)).map (·.id))

/-- Remove the oldest unclaimed entry of a workgroup with a tag (R277). -/
def unmatch (s : State) (wg : Nat) (tag : Word) : State :=
  match matchesOf s wg tag with
  | [] => s
  | x :: r =>
    let id := r.foldl min x
    { s with netMatch := s.netMatch.map (fun d => (d.1, d.2.filter (fun e => e.id != id))) }

def execNunmatch (a : Fld) (s : State) : Host.Outcome State Fault Refusal :=
  laneWord s [a] (fun s _ w => noTake w
    (.next ((lanesOf w.act).foldl (fun s l => unmatch s w.wg (rd w a l)) s)))

/-- NETWORK_MATCH_FIRE: a claimed entry whose message has wholly arrived creates its handler task and goes (R276). -/
def execNetworkMatchFire (die id : Nat) (s : State) : Host.Outcome State Fault Refusal :=
  match (matchTable s die).find? (fun e => e.id == id && e.claimed && !e.dead && e.got == e.len) with
  | none => .next s
  | some e =>
    let s := setMatch s die ((matchTable s die).filter (fun x => x.id != id))
    if taskRoom s e.wg then
      .next (createTask s e.wg e.pc [e.buf.extractLsb' 0 32, e.buf.extractLsb' 32 32, BitVec.ofNat 32 e.len, e.tag,
        e.arg, 0, 0, 0] e.wid none false none)
    else .next (taskSpaceFault s e.wg false)

/-! Warps that the hardware forms (R22, R254, R255, R328). -/

/-- The lowest-numbered free warp slot of a core. -/
def freeWarpSlot (s : State) (c : Nat) : Option Nat :=
  (List.range 64).find? (fun i => (tget s.warps (64 * c + i)).isNone)

/-- A warp with nothing in its registers. -/
def freshWarp (wg : Nat) (kind : WKind) (index role age : Nat) (ts : Tbl Thread) : Warp :=
  ⟨wg, kind, index, role, ts, [], [], [], 0, 0, 0, 0, 0, [], [], 0, 0, 0, [], none, false, 0, age, false, [], []⟩

/-- A thread at the start of its program. -/
def freshThread (name : TName) (pc wid : DWord) : Thread :=
  ⟨⟨pc, 0⟩, .none, ⟨pc, 0⟩, 0, name, wid, 0, 0, [], none, false, none, false⟩

/-- The bin-age limit of a workgroup's context (R23). -/
def binLimit (s : State) (wg : Nat) : Nat := match gridOfWg s wg with
  | some g => field g.desc 30 15
  | none => 1024

/-- A ready list: its owner, its entry PC, and whether it is one of responders (R254, R303). -/
structure ListKey where
  wg : Nat
  pc : DWord
  responder : Bool
deriving DecidableEq, Repr

/-- The key of a task's list. -/
def taskKey (t : Task) : ListKey := ⟨t.wg, t.pc, t.responder⟩

/-- Insert a task in the order of a ready list: by readiness and creation; in continuity mode by creation alone. -/
def insertTask (cont : Bool) (t : Task) : List Task → List Task
  | [] => [t]
  | u :: r =>
    if !cont && decide (t.readyAt < u.readyAt) then t :: u :: r else u :: insertTask cont t r

/-- A ready list in its order (R254). -/
def readyList (s : State) (c : Nat) (x : ListKey) : List Task :=
  ((coreRec s c).tasks.filter (fun t => t.waits.isNone && taskKey t == x)).foldl
    (fun l t => insertTask (contOfWg s x.wg) t l) []

/-- The clock at which a list became due, if it is due. -/
def listDue (l : List Task) : Option Nat := l.findSome? (·.due)

/-- The clock at which a list in its order became due, if it is: that of its 32nd task, or that at which its oldest task had
been ready for the gather limit; in continuity mode, where ages are no clocks, the present one (R254). Which task is a list's
oldest in continuity mode, where the list stands in creation order, the spec does not say: here it is the first in that order
(DESIGN CHOICE, log 117). -/
def dueClock (s : State) (c : Nat) (x : ListKey) (l : List Task) : Option Nat :=
  let now := wgClock s c x.wg
  let stamp (t : Nat) : Nat := if contOfWg s x.wg then cycleOf s (dieOf c) else t
  let full := (l[31]?).map (·.readyAt)
  let old := (l.head?.map (fun t => t.readyAt + binLimit s x.wg)).filter (fun t => decide (t ≤ now))
  match full, old with
  | some a, some b => some (stamp (min a b))
  | some a, none => some (stamp a)
  | none, some b => some (stamp b)
  | none, none => none

/-- Mark a list due at a clock. -/
def markList (s : State) (c : Nat) (x : ListKey) (now : Option Nat) : State :=
  setCore s c { coreRec s c with tasks := (coreRec s c).tasks.map (fun t =>
    if t.waits.isNone && taskKey t == x then { t with due := now } else t) }

/-- The ready lists of a core. -/
def listKeys (s : State) (c : Nat) : List ListKey :=
  (((coreRec s c).tasks.filter (fun t => t.waits.isNone)).map taskKey).dedup

/-- A list that has become due is marked with the clock at which it did (R254). -/
def markDue (c : Nat) (s : State) (x : ListKey) : State :=
  let l := readyList s c x
  match listDue l, dueClock s c x l with
  | none, some t => markList s c x (some t)
  | _, _ => s

/-- Every list of a core that has become due is marked. -/
def markLists (s : State) (c : Nat) : State := (listKeys s c).foldl (markDue c) s

/-- GATHER_LIMIT: a list whose oldest task has been ready for the gather limit is due (R254). -/
def execGatherLimit (c wg pc : Nat) (s : State) : Host.Outcome State Fault Refusal :=
  .next ([false, true].foldl (fun s resp => markDue c s ⟨wg, BitVec.ofNat 64 pc, resp⟩) s)

/-- A bin whose age has reached the limit is marked with the clock at which it did, in continuity mode with the present one
(R22). -/
def markBin (s : State) (c : Nat) (b : Bin) : Bin :=
  if b.due.isNone && decide (b.since + binLimit s b.wg ≤ wgClock s c b.wg) then
    { b with due := some (if contOfWg s b.wg then cycleOf s (dieOf c) else b.since + binLimit s b.wg) }
  else b

/-- Every bin of a core that has become due is marked. -/
def markBins (s : State) (c : Nat) : State :=
  setCore s c { coreRec s c with bins := (coreRec s c).bins.map (fun b => (b.1, markBin s c b.2)) }

/-- BIN_AGE_LIMIT: a bin whose age has reached the limit is due (R22). -/
def execBinAgeLimit (c bin : Nat) (s : State) : Host.Outcome State Fault Refusal :=
  match tget (coreRec s c).bins bin with
  | none => .next s
  | some b => .next (setCore s c { coreRec s c with bins := tput (coreRec s c).bins bin (markBin s c b) })

/-- What forms next in a free slot of a core. -/
inductive Form where
  | handler
  | bin (i : Nat)
  | list (x : ListKey)
deriving DecidableEq, Repr

/-- The order of due things: by clock, then bins before lists, then the owner's number, then the entry PC (R254). Among bins
of one workgroup that became due in one clock the spec gives no order: the model takes the lowest bin first (DESIGN CHOICE,
log 95). -/
def formKey (s : State) (c : Nat) : Form → Nat × Nat × Nat × Nat
  | .handler => (0, 0, 0, 0)
  | .bin i => match tget (coreRec s c).bins i with
    | some b => (b.due.getD 0, 0, wgNumber b.wg, i)
    | none => (0, 0, 0, 0)
  | .list x => ((listDue (readyList s c x)).getD 0, 1, wgNumber x.wg, x.pc.toNat)

/-- Lexicographic order of such keys. -/
def keyLt (a b : Nat × Nat × Nat × Nat) : Bool :=
  decide (a.1 < b.1) || (a.1 == b.1 && (decide (a.2.1 < b.2.1) || (a.2.1 == b.2.1 &&
    (decide (a.2.2.1 < b.2.2.1) || (a.2.2.1 == b.2.2.1 && decide (a.2.2.2 < b.2.2.2))))))

/-- What forms next on a core: a handler first, then what became due first (R254, R328). -/
def nextForm (s : State) (c : Nat) : Option Form :=
  let cr := coreRec s c
  if cr.handlers.any (fun h => wgRuns s h.wg) then some .handler
  else
    let fs := ((cr.bins.filter (fun b => b.2.due.isSome && wgRuns s b.2.wg)).map (fun b => Form.bin b.1)) ++
      ((listKeys s c).filter (fun x => (listDue (readyList s c x)).isSome && wgRuns s x.wg)).map Form.list
    fs.foldl (fun (best : Option Form) f => match best with
      | none => some f
      | some g => if keyLt (formKey s c f) (formKey s c g) then some f else some g) none

/-- The v registers and predicates of threads placed in lanes. -/
def laneRegs (l : Nat) (v : Tbl Word) (t : Tbl Word) : Tbl Word := v.foldl (fun t e => tputD 0 t (e.1 * 32 + l) e.2) t

/-- The predicates of filed threads by lane. -/
def lanePreds (fs : List Filed) : Tbl Mask :=
  [1, 2, 3, 4, 5, 6, 7].foldl (fun t i =>
    tputD 0 t i (maskOf ((List.range fs.length).filter (fun l => ((fs[l]?).map (fun f => f.p.getLsbD i)).getD false)))) []

/-- The warp that a bin becomes: lane k holds the thread filed k-th (R22, R53). -/
def binWarp (b : Bin) (age : Nat) : Warp :=
  let ls := (List.range b.threads.length).zip b.threads
  { freshWarp b.wg .bin ((b.threads.head?.map (·.thread.name.n)).getD 0) b.role age (ls.map (fun e => (e.1, e.2.thread))) with
    v := ls.foldl (fun t e => laneRegs e.1 e.2.v t) []
    p := lanePreds b.threads
    w := b.w
    flags := b.flags
    claimed := b.claimed
    sstep := b.sstep
    spoilt := ls.flatMap (fun e => e.2.spoilt.map (fun r => 32 * r + e.1)) ++ b.spoilt.map (32 * ·) }

/-- BIN_DRAW: the bin that is next is drawn into the lowest free slot (R22). -/
def execBinDraw (c bin : Nat) (s : State) : Host.Outcome State Fault Refusal :=
  match nextForm s c == some (.bin bin), freeWarpSlot s c, tget (coreRec s c).bins bin with
  | true, some i, some b =>
    let (age, s) := freshId s
    let s := setCore s c { coreRec s c with bins := tdel (coreRec s c).bins bin }
    .next (setWarp s (64 * c + i) (binWarp b age))
  | _, _, _ => .next s

/-- The thread that a task becomes (R255, R303). -/
def taskThread (t : Task) : Thread :=
  { freshThread ⟨t.wg, true, t.serial, false⟩ t.pc t.wid with census := t.census }

/-- The wave of a list of tasks: task k in lane k, with its argument record in v0 to v7 (R255). -/
def taskWave (x : ListKey) (ts : List Task) (age : Nat) : Warp :=
  let ls := (List.range ts.length).zip ts
  { freshWarp x.wg (if x.responder then .responder else .task) ((ts.head?.map (·.serial)).getD 0) 0 age (ls.map (fun e => (e.1, taskThread e.2))) with
    v := ls.foldl (fun t e => laneRegs e.1 ((List.range 8).zip e.2.args) t) [] }

/-- The list that a wave forms from: the one named that is next. -/
def waveKey (s : State) (c wg pc : Nat) : Option ListKey :=
  match nextForm s c with
  | some (.list x) => if x.wg = wg ∧ x.pc = BitVec.ofNat 64 pc then some x else none
  | _ => none

/-- WAVE_FORMATION: the due list that is next forms a wave of its first 32 tasks in the lowest free slot (R254). -/
def execWaveFormation (c wg pc : Nat) (s : State) : Host.Outcome State Fault Refusal :=
  match waveKey s c wg pc, freeWarpSlot s c with
  | some x, some i =>
    let ts := (readyList s c x).take 32
    let (age, s) := freshId s
    let s := setCore s c { coreRec s c with tasks := (coreRec s c).tasks.filter (fun t =>
      !(taskKey t == x && ts.any (fun u => u.serial == t.serial))) }
    let s := markList s c x none
    .next (setWarp s (64 * c + i) (taskWave x ts age))
  | _, _ => .next s

/-- The wave of a trap request: handler lane k serves the k-th trapped lane, with v0 to v7 of R328. -/
def handlerWave (h : HandlerReq) (age : Nat) : Warp :=
  let ls := (List.range h.lanes.length).zip h.lanes
  { freshWarp h.wg .handler ((h.lanes.head?.map (·.1.n)).getD 0) 0 age (ls.map (fun e =>
      (e.1, { freshThread { e.2.1 with handler := true } h.pc e.2.2.2 with served := some e.2.1 }))) with
    v := ls.foldl (fun t e => laneRegs e.1 ((List.range 8).zip e.2.2.1) t) [] }

/-- TRAP_HANDLER_FORMATION: the oldest trap request of a core forms its wave in the lowest free slot (R328). -/
def execTrapHandlerFormation (c : Nat) (s : State) : Host.Outcome State Fault Refusal :=
  let hs := (coreRec s c).handlers
  match hs.find? (fun h => wgRuns s h.wg), freeWarpSlot s c with
  | some h, some i =>
    let (age, s) := freshId s
    let s := setCore s c { coreRec s c with handlers := hs.eraseIdx (hs.findIdx (fun x => wgRuns s x.wg)) }
    .next (setWarp s (64 * c + i) (handlerWave h age))
  | _, _ => .next s

end Sys2Proof.Machine
end

