-- ==== Sys2Proof/Machine/Fab.lean ====
section
/-! DEFINITION. What arrives over the fabric and what happens to a link: packets for splicer contexts (25 R351, R361,
R379), the transmit side (R362), memory packets (11 R182, 25 R349), links (R352 to R355, 29 R414), the start gate
(01 R31 to R33, R44). -/

namespace Sys2Proof.Machine

/-! The transmit side (R351, R362, R371). -/

/-- The key of a source or destination splicer context: FID, link, context. -/
def ctxKey (fid link ctx : Nat) : Nat := fid * 256 + link * 8 + ctx

/-- The head chunk of a context may send a packet: a tagged message needs no credit (R351). -/
def sendable (x : Splicer) : Bool := match x.tx with
  | [] => false
  | c :: _ => c.tag.isSome || decide (0 < tgetD 32 x.credits (routeKey c.route))

/-- The context that the transmit side of a link serves next: rotation over the eight queues (R362). -/
def txNext (s : State) (l : Nat) : Option Nat :=
  ((List.range 8).map (fun i => ((linkRec s l).txLast + 1 + i) % 8)).find? (fun x => sendable (splRec s (8 * l + x)))

/-- The fields of a packet of a chunk: destination link and context, EPOCH, chunk length and packet sequence, or destination
link and context number, tag, total length and packet sequence (R350). -/
def chunkFields (c : TxChunk) : List Nat :=
  let r := c.route
  match c.tag with
  | none => [field r 7 3, field r 2 0, field r 63 48, c.data.length, c.sent]
  | some t => [field r 7 3, field r 43 32, t.toNat, c.data.length, c.sent + 1]

/-- A context that waits for room in its transmit queue goes on. -/
def wakeRoom (x : Splicer) : Splicer :=
  if x.wait = .room ∧ x.tx.length < 8 then { x with st := spRunning, wait := .none } else x

/-- Send one packet of 960 bytes or the chunk's rest (R371). -/
def sendPacket (s : State) (k : Nat) : State :=
  let x := splRec s k
  match x.tx with
  | [] => s
  | c :: r =>
    let s := sendFabric s (if c.tag.isSome then 3 else 2) (field c.route 19 8) (k / 8) (k % 8) (chunkFields c)
      ((c.data.drop (960 * c.sent)).take 960)
    let key := routeKey c.route
    let x := if c.tag.isSome then x
      else { x with credits := tput x.credits key (tgetD 32 x.credits key - 1) }
    let c := { c with sent := c.sent + 1 }
    setSpl s k (wakeRoom { x with tx := if c.data.length ≤ 960 * c.sent then r else c :: r })

/-- CHUNK_PACKET_SEND. -/
def execChunkPacketSend (l : Nat) (s : State) : Host.Outcome State Fault Refusal :=
  match linkUpNow s l, txNext s l with
  | true, some x => .next (setLink (sendPacket s (8 * l + x)) l { linkRec s l with txLast := x })
  | _, _ => .next s

/-! Packets for splicer contexts. -/

/-- A destination context accepts a chunk packet of an epoch (R361). -/
def accepts (x : Splicer) (epoch : Nat) : Bool := if x.st = spIdle then spEn x else epoch == x.epoch

/-- A packet is staged; a context that waits for this source goes on. -/
def stage (s : State) (k : Nat) (p : Staged) (total : Nat) : State :=
  let x := splRec s k
  let x := { x with
    staged := x.staged ++ [p]
    inChunk := if p.seqNo + 1 = total then tdel x.inChunk p.src else tput x.inChunk p.src (p.seqNo + 1) }
  setSpl s k (if x.wait = .packet p.src then { x with st := spRunning, wait := .none } else x)

/-- Refuse a chunk packet with a detail code; no chunk of its source is in progress any more (R351, R359). -/
def refusePacket (s : State) (k : Nat) (p : Staged) (detail : Nat) : State :=
  let x := splRec s k
  sendFabric (setSpl s k { x with inChunk := tdel x.inChunk p.src }) 5 (p.src / 256) (k / 8) (k % 8)
    [p.src % 256, p.seqNo, detail] []

/-- CHUNK_DATA_ARRIVAL: a chunk packet is staged, refused, or discarded with its credit returned (R351, R361). -/
def execChunkDataArrival (k sfid slink sctx epoch len seq : Nat) (data : Payload) (s : State) :
    Host.Outcome State Fault Refusal :=
  let p : Staged := ⟨ctxKey sfid slink sctx, epoch, len, seq, data.bytes, data.bad⟩
  let x := splRec s k
  if !linkUpNow s (k / 8) then .next s
  else if !accepts x epoch then .next (refusePacket s k p 1)
  else if seq ≠ 0 ∧ tget x.inChunk p.src ≠ some seq then .next (returnCredit s k p)
  else if 32 ≤ x.staged.length then .next (refusePacket s k p 1)
  else .next (stage s k p ((len + 959) / 960))

/-- CREDIT_ARRIVAL: slots of a destination context return, if the packet carries the context's EPOCH (R351). -/
def execCreditArrival (k dst epoch n : Nat) (s : State) : Host.Outcome State Fault Refusal :=
  let x := splRec s k
  .next (if epoch = x.epoch then setSpl s k { x with credits := tput x.credits dst (tgetD 32 x.credits dst + n) } else s)

/-- REFUSAL_ARRIVAL: the header of a tagged message is refused precisely, as its verdict; a chunk's sender stops at its next
instruction boundary (R359). -/
def execRefusalArrival (k : Nat) (refusal : RefusalCode) (s : State) : Host.Outcome State Fault Refusal :=
  let x := splRec s k
  if refusal.header then .next (if x.wait = .verdict then spStop s k 0x69 refusal.detail 0 0 else s)
  else if x.st = spRunning ∧ x.xl = none then .next (spStop s k 0x69 refusal.detail 0 0)
  else if x.st = spRunning ∨ x.st = spWaiting then .next (setSpl s k { x with refused := some refusal.detail })
  else .next s

/-- VERDICT_ARRIVAL: the verdict of a tagged message reaches its sender, which goes on (R379). -/
def execVerdictArrival (k : Nat) (claim : Bool) (s : State) : Host.Outcome State Fault Refusal :=
  let x := splRec s k
  .next (if x.wait = .verdict then setSpl s k { x with verdict := some claim, st := spRunning, wait := .none } else s)

/-! Tagged messages (17 R276). -/

/-- Write bytes into a workgroup's global memory for an engine, in pieces of one line. -/
def writeFor (s : State) (wg va : Nat) (bs : List Byte) : State :=
  (List.range (bs.length / 128 + 2)).foldl (fun s i =>
    let a := max va ((va / 128 + i) * 128)
    let b := min (va + bs.length) ((va / 128 + i + 1) * 128)
    if a < b then writeGlobal s ⟨some wg, none⟩ a (gridXlate s wg a).1 ((bs.drop (a - va)).take (b - a)) else s) s

/-- Bytes of physical memory take a packet's mark of data beyond repair (29 R408). -/
def markPoison (s : State) (pa n : Nat) : State :=
  { s with poison := s.poison ++ ((List.range n).map (pa + ·)).filter (fun p => !s.poison.contains p) }

/-- The mark of a message's packet on the bytes that it wrote for a workgroup. -/
def markFor (s : State) (wg va n : Nat) : State :=
  (vPieces va n).foldl (fun s p => markPoison s (gridXlate s wg p.1).1 p.2) s

/-- The bytes of a claimed message are written to its entry's buffer; with the last the entry is due to fire. What remains
of a message whose entry's grid has been killed is discarded (R276, R279). -/
def messageBytes (s : State) (die : Nat) (e : MatchE) (data : Payload) : State :=
  let bs := data.bytes.take (e.len - e.got)
  let got := e.got + bs.length
  let s := if e.dead then s else writeFor s e.wg (e.buf.toNat + e.got) bs
  let s := if e.dead || !data.bad then s else markFor s e.wg (e.buf.toNat + e.got) bs.length
  let s := setMatch s die (((matchTable s die).map (fun x => if x.id == e.id then { x with got := got } else x)).filter
    (fun x => !(x.dead && x.id == e.id && decide (e.len ≤ got))))
  if got = e.len ∧ e.dead = false then { s with events := s.events ++ [.networkMatchFire die e.id] } else s

/-- The verdict on a tagged message (25 R379). -/
def sendVerdict (s : State) (die src : Nat) (claim : Bool) : State :=
  sendFabric s 9 (src / 256) ((dieLink s die).getD 0) 0 [src % 256, if claim then 1 else 0] []

/-- TAGGED_MESSAGE_ARRIVAL: the header packet, of sequence 0, claims the oldest unclaimed entry of the context with its tag and
length, or is refused; a later packet is the next of the oldest message of its source that is still incomplete, and without
one it is discarded (R276, R279, 25 R379). -/
def execTaggedMessageArrival (die ctx : Nat) (tag : Word) (len : Nat) (part : Part) (sfid slink sctx : Nat) (s : State) :
    Host.Outcome State Fault Refusal :=
  let src := ctxKey sfid slink sctx
  let t := matchTable s die
  if part.seq ≠ 0 then
    .next (match t.find? (fun e => e.claimed && e.src == src && e.ctx == ctx && e.tag == tag && e.len == len &&
        decide (e.got < e.len)) with
      | some e => messageBytes s die e part.load
      | none => s)
  else
    match t.find? (fun e => !e.claimed && e.ctx == ctx && e.tag == tag && e.len == len) with
    | none => .next (sendVerdict s die src false)
    | some e =>
      let e := { e with claimed := true, src := src, got := 0 }
      let s := setMatch s die (t.map (fun x => if x.id == e.id then e else x))
      .next (messageBytes (sendVerdict s die src true) die e part.load)

/-! Memory packets (11 R182, 25 R349). -/

/-- The first virtual address at which a copy touches a fabric line. -/
def copyTouches (x : Copy) (line : Nat) : Option Nat :=
  let hit (l : Loc) : Option Nat := if !l.lm && l.pa / 128 == line then some l.va else none
  x.moves.findSome? (fun m => (m.src.bind hit).orElse (fun _ => hit m.dst))

/-- The first access to a fabric line among those outstanding: its record, lane and virtual address. -/
def accessTo (ps : List Pend) (line : Nat) : Option (Pend × Nat × Nat) :=
  ps.findSome? (fun e => (e.lines.find? (fun x => x.2.2 / 128 == line)).map (fun x => (e, x.1, x.2.1)))

/-- The access of a warp to a refused line is that of a member of its open take, which the refusal aborts (19 R295). -/
def refusesTake (w : Warp) (e : Pend) (l : Nat) : Bool := match w.take with
  | some tk => (members w).getLsbD l && !tk.ckPend.contains e.id
  | none => false

/-- The warps whose open take the refusal of a line aborts. -/
def refusedTakes (s : State) (line : Nat) : List Nat :=
  (s.warps.filter (fun x => match accessTo x.2.pend line with
    | some (e, l, _) => refusesTake x.2 e l
    | none => false)).map (·.1)

/-- The faults of the grids' accesses to a refused line: of warps, of what warps have left outstanding, and of copies (R349,
01 R44). -/
def refusedBlames (s : State) (line : Nat) : List (Nat × Blame) :=
  s.warps.filterMap (fun x => match accessTo x.2.pend line with
    | some (e, l, va) =>
      if refusesTake x.2 e l then none else some (serialOf x.2.wg, pendBlame x.1 x.2.wg x.2.kind e 0x12 l va)
    | none => none) ++
  s.grids.flatMap (fun g => g.2.loads.filterMap (fun x => (accessTo [x.pend] line).map (fun y =>
    (g.1, pendBlame x.warp x.wg x.kind x.pend 0x12 y.2.1 y.2.2)))) ++
  s.cores.flatMap (fun c => c.2.copies.filterMap (fun x => (copyTouches x line).map (fun va =>
    (serialOf x.wg, copyBlame x 0x12 va))))

/-- The refusal of a line reaches the splicer contexts that have asked for it, or that wait at a flag there: they stop with
fault 0x69, precisely (R349, R359). -/
def refuseSplicers (s : State) (line : Nat) : State :=
  (s.splicers.filter (fun e => (e.2.asking || e.2.wait == .flag) && (match e.2.xl with
    | some ps => ps.any (fun p => decide (p.2.1 / 128 ≤ line) && decide (line ≤ (p.2.1 + p.2.2 - 1) / 128))
    | none => false))).foldl (fun s e => spStop s e.1 0x69 3 0 0) s

/-- The home of a line refuses what is outstanding there. With nothing outstanding there it is the line that is refused from
then on to the accesses that complete within their step: fetches, deferred adds as they are applied, and every access of
continuity mode (R349; log 104). -/
def refuseLine (s : State) (line : Nat) : State :=
  let ts := refusedTakes s line
  let bs := refusedBlames s line
  let t := refuseSplicers (ts.foldl (fun s k => abortTake s k 5) (endGrids s bs)) line
  if ts.isEmpty && bs.isEmpty && t.splicers == s.splicers then { s with refusing := s.refusing.filter (· != line) ++ [line] }
  else t

/-- The home of a line serves it: it refuses it no more. -/
def lineServed (s : State) (line : Nat) : State :=
  if s.refusing.isEmpty then s else { s with refusing := s.refusing.filter (· != line) }

/-- MEMORY_PACKET_ARRIVAL: another package or a home writes bytes, which may be marked as beyond repair, takes a line for
itself, reads it, or refuses an access to it (R182, 19 R288, 25 R349, 29 R408). -/
def execMemoryPacketArrival (pa : Nat) (data : Payload) (excl refused : Bool) (s : State) :
    Host.Outcome State Fault Refusal :=
  let line := pa / 128
  if refused then .next (refuseLine s line)
  else
  let s := lineServed s line
  if !data.bytes.isEmpty then
    let s := writePhys s pa data.bytes
    .next (if data.bad then markPoison s pa data.bytes.length else s)
  else if excl then .next (conflict (flushStash s none line true) none line)
  else .next (flushStash s none line false)

/-! Links (R352 to R355, 29 R414). -/

/-- LNKSTAT changes are reported (29 R401). -/
def linkEvent (s : State) (l : Nat) : State := hostEvent s 7 (l + (linkRec s l).stat.toNat * 2 ^ 64) 0 (l / 8)

/-- The width in use: the lesser of the width for errors and that of the balance mode (R414). -/
def linkWidth (x : Link) : Nat := max x.errWidth x.balWidth

/-- A link takes the width in use, and a change is reported. -/
def applyWidth (s : State) (l : Nat) : State :=
  let x := linkRec s l
  if x.stat.getLsbD 31 ∧ field x.stat 27 26 ≠ linkWidth x then
    linkEvent (setLink s l { x with stat := setField x.stat 27 26 (linkWidth x) }) l
  else s

/-- LINK_UP: the link with an index on its die carries packets at the width in use (R347, R352). -/
def execLinkUp (die index node self : Nat) (s : State) : Host.Outcome State Fault Refusal :=
  let l := 8 * die + index
  if !linkOn s l then .next s
  else
    let width := linkWidth (linkRec s l)
    let stat : BitVec 32 := BitVec.ofNat 32 (2 ^ 31 + width % 4 * 2 ^ 26 + node % 4096 * 2 ^ 12 + self % 4096)
    .next (linkEvent (setLink { s with fid := some (self % 4096) } l { linkRec s l with stat := stat }) l)

/-- The contexts of a link that goes down: queues and staged packets go, their credits are lost, and a running or waiting
context stops with fault 0x68 (R351, R355). -/
def dropLinkContext (s : State) (k : Nat) : State :=
  let s := discardTx s k
  let x := splRec s k
  let s := setSpl s k { x with staged := [], inChunk := [], again := [] }
  if x.st = spRunning ∨ x.st = spWaiting then spStop s k 0x68 0 0 0 else s

/-- Censuses of a die none of whose links is up complete with this package's part alone (R380). -/
def censusAlone (s : State) (die : Nat) : State :=
  if (dieLink s die).isSome then s
  else
    let f (c : Census) : Census := if c.core / 64 = die then { c with fabricDone := true } else c
    { s with
      cores := s.cores.map (fun e => (e.1, { e.2 with census := e.2.census.map (fun x => (x.1, f x.2)) }))
      ctxs := s.ctxs.map (fun e => (e.1, { e.2 with
        saved := e.2.saved.map (fun x => { x with census := x.census.map (fun y => (y.1, f y.2)) }) })) }

/-- LINK_DOWN (R355). -/
def execLinkDown (l : Nat) (s : State) : Host.Outcome State Fault Refusal :=
  if !linkUpNow s l then .next s
  else
    let s := linkEvent (setLink s l { linkRec s l with stat := 0 }) l
    let s := (List.range 8).foldl (fun s x => dropLinkContext s (8 * l + x)) s
    .next (censusAlone s (l / 8))

/-- A counter of LNKERR raised, saturating (R414). -/
def errAdd (e : DWord) (hi lo n : Nat) : DWord := setField e hi lo (min (field e hi lo + n) (2 ^ (hi - lo + 1) - 1))

/-- The width for errors after a window of 1 ms: the new width, and the run of quiet windows (R414). -/
def errWindow (x : Link) (resent : Nat) : Nat × Nat :=
  if 64 < resent then (min 2 (x.errWidth + 1), 0)
  else if resent ≤ 4 then
    if 100 ≤ x.quiet + 1 then (x.errWidth - 1, 0) else (x.errWidth, x.quiet + 1)
  else (x.errWidth, 0)

/-- The event of a resent flit: location class 7, corrected, and the link of its die (29 R409). -/
def resentEvent (l : Nat) (s : State) : State := hostEvent s 4 (7 + 16 + l % 8 * 2 ^ 32) 0 (l / 8)

/-- LINK_ERROR_WINDOW: a window ends that has held some resent flits. Each of them that no SOFT_ERROR has reported is counted
and reported now (R409, R414; log 108). -/
def execLinkErrorWindow (l resent : Nat) (s : State) : Host.Outcome State Fault Refusal :=
  let x := linkRec s l
  let n := max resent x.resent
  let (w, q) := errWindow x n
  let err := errAdd x.err 31 0 (n - x.resent)
  let err := if w = x.errWidth then err else errAdd err 63 48 1
  let s := (List.range (n - x.resent)).foldl (fun s _ => resentEvent l s) s
  .next (applyWidth (setLink s l { x with err := err, errWidth := w, quiet := q, resent := 0 }) l)

/-- LNKERR_WRITE clears the counts (R414). -/
def execLnkerrWrite (l : Nat) (s : State) : Host.Outcome State Fault Refusal :=
  .next (if linkOn s l then setLink s l { linkRec s l with err := 0 } else s)

/-- MALFORMED_PACKET_ARRIVAL: a packet whose header has a reserved KIND or a reserved bit set is discarded and counted (R350,
R414). -/
def execMalformedPacketArrival (p : LinkHeader) (s : State) : Host.Outcome State Fault Refusal :=
  let x := linkRec s p.link
  .next (if headerMalformed p.hdr then setLink s p.link { x with err := errAdd x.err 47 32 1 } else s)

/-- The limiter that a notice replaces where all are in use: the highest rate, ties to the lower FID (R354). -/
def limiterVictim (t : Tbl Nat) : Nat :=
  (t.foldl (fun b e => match b with
    | none => some e
    | some x => if x.2 < e.2 then some e else some x) none).elim 0 (·.1)

/-- CONGESTION_NOTICE (R354). -/
def execCongestionNotice (l fid : Nat) (s : State) : Host.Outcome State Fault Refusal :=
  let x := linkRec s l
  let t := match tget x.limiters fid with
    | some r => tput x.limiters fid (max 1 (r / 2))
    | none =>
      if x.limiters.length < 64 then tput x.limiters fid 32
      else tput (tdel x.limiters (limiterVictim x.limiters)) fid 32
  .next (setLink s l { x with limiters := t })

/-- RATE_LIMITER_INTERVAL: 4 µs without a notice raise a limiter, and a full one is freed (R354). -/
def execRateLimiterInterval (l fid : Nat) (s : State) : Host.Outcome State Fault Refusal :=
  let x := linkRec s l
  match tget x.limiters fid with
  | none => .next s
  | some r => .next (setLink s l { x with
      limiters := if 64 ≤ r + 1 then tdel x.limiters fid else tput x.limiters fid (r + 1) })

/-! The start gate (01 R31 to R33). -/

/-- Every placed member of a grid begins (R31). -/
def beginAll (s : State) (serial : Nat) : State :=
  { s with wgs := s.wgs.map (fun e => if serialOf e.1 = serial then (e.1, { e.2 with begun := true }) else e) }

/-- The gate opens on this package: its members begin, and the splicer starts of a CLAUNCH take effect (27 R393). -/
def openGate (s : State) (serial : Nat) : State :=
  match tget s.grids serial with
  | none => s
  | some g =>
    if g.gateOpen then s
    else
      let s := setGrid s serial { g with gateOpen := true, anyBegun := true }
      claunchStart (beginAll s serial) g.ctx g.claunch

/-- The gate holder counts its acknowledgements: with PKGS + 1, no later than the deadline, the gate opens, and every
package is told (R31, R32). -/
def gateCount (s : State) (serial : Nat) : State :=
  match tget s.grids serial with
  | none => s
  | some g =>
    if g.rank = 0 ∧ g.gateOpen = false ∧ hPkgs g.hdr + 1 ≤ g.acks.length ∧ cycleOf s 0 ≤ g.deadline then
      openGate (sendGate s 0 (hGateFid g.hdr) (hMkey g.hdr) [0, 4] []) serial
    else s

/-- An acknowledgement of a rank is counted once. -/
def gateAdd (s : State) (serial rank : Nat) : State :=
  match tget s.grids serial with
  | none => s
  | some g =>
    gateCount (setGrid s serial { g with acks := if g.acks.contains rank then g.acks else g.acks ++ [rank] }) serial

/-- A rank's acknowledgement is missing: it is not counted while the gate is closed (R31, R33). -/
def gateMiss (s : State) (serial rank : Nat) : State :=
  match tget s.grids serial with
  | none => s
  | some g => if g.gateOpen then s else setGrid s serial { g with acks := g.acks.filter (· != rank) }

/-- The grid of a GATEFID and an MKEY on this package, by serial (R30, R31). -/
def gridByKey (s : State) (key : GridKey) : Option (Nat × Grid) :=
  s.grids.find? (fun e => hMulti e.2.hdr && hMkey e.2.hdr == key.mkey && hGateFid e.2.hdr == key.gfid)

/-- An acknowledgement that comes before the launch is kept (R31). The spec does not say when a kept one lapses: where the
launch of its MKEY is refused at the gate holder, or has ended there, it stays for a later launch with the same MKEY and
GATEFID (DESIGN CHOICE, log 105). -/
def keepAck (s : State) (key : GridKey) (rank : Nat) : State :=
  { s with earlyAcks := s.earlyAcks ++ [(key.mkey, key.gfid, rank)] }

/-- GATE_ACK_ARRIVAL: counted, or kept until the launch has passed its lease set-up (R31). -/
def execGateAckArrival (key : GridKey) (rank : Nat) (s : State) : Host.Outcome State Fault Refusal :=
  match gridByKey s key with
  | some (n, g) => .next (if g.rank = 0 ∧ 5 ≤ g.stage then gateAdd s n rank else keepAck s key rank)
  | none => .next (keepAck s key rank)

/-- GATE_REFUSAL_ARRIVAL: the rank's acknowledgement is missing (R31, R32). -/
def execGateRefusalArrival (key : GridKey) (rank : Nat) (s : State) : Host.Outcome State Fault Refusal :=
  let s := { s with earlyAcks := s.earlyAcks.filter (fun e => e != (key.mkey, key.gfid, rank)) }
  match gridByKey s key with
  | some (n, _) => .next (gateMiss s n rank)
  | none => .next s

/-- GATE_OPEN_NOTICE_ARRIVAL: the package's members begin (R31). -/
def execGateOpenNoticeArrival (key : GridKey) (s : State) : Host.Outcome State Fault Refusal :=
  match gridByKey s key with
  | some (n, _) => .next (openGate s n)
  | none => .next s

/-- The record that an end notice leaves: the originating package's account, under this package's clock (R44, R333). -/
def noticeRecord (s : State) (serial rank : Nat) (g : Grid) (r : BitVec 512) : BitVec 512 :=
  faultRecord (gridConf g) (cycleOf s 0) serial g.supp rank
    ⟨field r 6 0, field r 383 320, field r 319 256, field r 255 192, field r 191 160, field r 143 136, 7, 0, 0, 0, 0⟩

/-- GATE_END_NOTICE_ARRIVAL: the grid ends here too, and the gate holder passes the notice on (R31, R44); before its gate
has opened the gate holder takes the notice of a package for a missing acknowledgement (R33). A fault of its own that falls
in the same clock is recorded instead (R44). -/
def execGateEndNoticeArrival (key : GridKey) (rank : Nat) (r : BitVec 512) (s : State) :
    Host.Outcome State Fault Refusal :=
  match gridByKey s key with
  | none => .next s
  | some (n, g) =>
    if g.rank = 0 ∧ g.gateOpen = false then .next (gateMiss s n rank)
    else
      let s := if g.rank = 0 then sendGate s 0 key.gfid key.mkey [rank, 3] (leBytes 64 r.toNat) else s
      .next (match lateOf s n with
        | [] => finishGrid s n (noticeRecord s n rank g r) 0
        | b :: bs => endOne s n (firstBlame b bs) bs.length)

/-- GATE_TIMEOUT: the deadline has passed and the gate has not opened: the grid ends on every package, here too where it has
not ended before (R32). -/
def execGateTimeout (n : Nat) (s : State) : Host.Outcome State Fault Refusal :=
  match tget s.grids n, tget s.deadGates n with
  | some g, _ =>
    if hMulti g.hdr ∧ g.rank = 0 ∧ g.gateOpen = false ∧ g.deadline < cycleOf s 0 then .next (endGrid s n (cpBlame 0x49))
    else .next s
  | none, some (h, t) =>
    if t < cycleOf s 0 then
      .next (sendGate { s with deadGates := tdel s.deadGates n } 0 (hGateFid h) (hMkey h) [0, 3]
        (leBytes 64 (faultRecord none (cycleOf s 0) n 0 0 (cpBlame 0x49)).toNat))
    else .next s
  | none, none => .next s

/-- PACKAGE_LOST: a package of a rank no longer answers: after the gate has opened the grid ends, before it the package's
acknowledgement is missing (R33). -/
def execPackageLost (p : Peer) (s : State) : Host.Outcome State Fault Refusal :=
  match tget s.grids p.serial with
  | none => .next s
  | some g =>
    .next (if !hMulti g.hdr then s
      else if g.gateOpen then endGrid s p.serial (cpBlame 0x4A)
      else gateMiss s p.serial p.rank)

/-- FABRIC_GROUP_REPORT: the packages of a fabric group, as its manager reports them (R16). -/
def execFabricGroupReport (n : Nat) (members : List Nat) (s : State) : Host.Outcome State Fault Refusal :=
  .next { s with groups := tput s.groups n members }

end Sys2Proof.Machine
end

