-- ==== Sys2Proof/Machine/Launch.lean ====
section
/-! DEFINITION. A launch up to its placement (21 R311 steps 2 to 4): the validator's checks (01 R15 to R17, 27 R384), the
dependence wait, lease set-up (11 R165, R166), refusals (01 R44), the start gate's acknowledgement (R31). -/

namespace Sys2Proof.Machine

/-! The validator (R16, R17, 27 R384). -/

/-- An address field of a context descriptor lies in the 57-bit space and keeps its alignment. -/
def addrField (d : BitVec 1024) (hi lo align : Nat) : Bool :=
  decide (field d hi lo < 2 ^ 57) && field d hi lo % align == 0

/-- The address fields of a context descriptor are in range and aligned (R384). -/
def descAddrsOk (d : BitVec 1024) : Bool :=
  addrField d 703 640 4096 && addrField d 607 544 4096 && addrField d 511 448 4096 && addrField d 447 384 1 &&
    addrField d 383 320 4096 && addrField d 319 256 4096 && addrField d 191 128 65536 && addrField d 127 64 65536

/-- A context descriptor that a launch may use (R384). -/
def descOk (d : BitVec 1024) : Bool :=
  d.getLsbD 0 && field d 543 541 == 0 && field d 14 4 == 0 && field d 767 748 == 0 && field d 741 740 == 0 &&
    !d.getLsbD 737 && decide (field d 63 59 ≤ 20) &&
    decide (1 ≤ field d 46 31) && decide (64 ≤ field d 30 15) && decide (field d 540 528 ≤ 4096) && descAddrsOk d

/-- The reserved fields of a launch header are zero (R15). -/
def hdrReserved (h : BitVec 1024) : Bool :=
  field h 1023 652 == 0 && field h 447 442 == 0 && field h 383 380 == 0 && field h 367 364 == 0

/-- The work identifier's fields are well-formed, and with them the counts that they give (R16). -/
def hdrFields (h : BitVec 1024) : Bool :=
  (List.range 6).all (fun n => decide (hWidth h n ≤ 32) && decide (hExtent h n ≤ 2 ^ hWidth h n)) &&
    decide (widthSum h (List.range 6) ≤ 64) && decide (1 ≤ hWcut h) && decide (hWcut h + hGcut h ≤ 6) &&
    decide (1 ≤ hN h) && decide (hN h ≤ 1024) && decide (1 ≤ hGangSize h) && decide (hGangSize h ≤ 4)

/-- The roles' warps sum to the workgroup's warps, or no role is given (R16). -/
def hdrRoles (h : BitVec 1024) : Bool :=
  let n := field h 389 384 + field h 395 390 + field h 401 396 + field h 407 402
  n == 0 || n == hWarps h

/-- Sizes, entry points and the matrix stream (R15, R16). -/
def hdrSizes (h : BitVec 1024) : Bool :=
  decide (field h 379 368 ≤ 3904) && decide (hNbar h ≤ 32) && (hEntry h).toNat % 4 == 0 &&
    (if hMx h then (hStream h).toNat % 4 == 0 else hStream h == 0)

/-- The number of packages of a fabric group: the package itself where nothing has been reported (R16; log 15). -/
def groupSize (s : State) (n : Nat) : Nat := ((tget s.groups n).map (·.length)).getD 1

/-- The fields of a grid over several packages (R15, R16). -/
def hdrMulti (s : State) (d h : BitVec 1024) (rank : Nat) : Bool :=
  if hMulti h then
    hMkey h != 0 && decide (1 ≤ hGate h) && decide (hPkgs h < groupSize s (field d 58 47)) && decide (rank ≤ hPkgs h) &&
      (rank != 0 || s.fid == some (hGateFid h))
  else hMkey h == 0 && hGate h == 0 && hPkgs h == 0 && hGateFid h == 0 && rank == 0

/-- A header that passes R16 on a package of a rank. -/
def hdrOk (s : State) (d h : BitVec 1024) (rank : Nat) : Bool :=
  hdrReserved h && hdrFields h && hdrRoles h && hdrSizes h && hdrMulti s d h rank

/-- The most enabled cores that one cluster has. Every cluster of the package belongs to every context's placement: R17
speaks of the context's placement, and no field names one (DESIGN CHOICE, log 85). -/
def widestCluster (s : State) : Nat :=
  (List.range 64).foldl (fun n cl => max n ((List.range 4).filter (fun i => coreOn s (4 * cl + i))).length) 0

/-- The mailboxes that a context asks for can be granted out of the package's 4,096 (29 R415). -/
def mailboxesOk (s : State) (ctx : Nat) (d : BitVec 1024) : Bool :=
  decide (field d 540 528 + (s.ctxs.filter (fun e => e.1 != ctx)).foldl (fun n e => n + e.2.mbx) 0 ≤ 4096)

/-- The validator's verdict: a cause, or none (R16, R17, R384, R415). -/
def refusalOf (s : State) (ctx : Nat) (d h : BitVec 1024) (rank : Nat) : Option Nat :=
  if !descOk d || !hdrOk s d h rank || !mailboxesOk s ctx d then some 0x77
  else if widestCluster s < hGangSize h then some 0x78
  else none

/-! Refusals (R16, R31, R44). -/

/-- A launch is refused: no thread starts, its queue takes the record and advances, and the gate holder is told. -/
def refuseLaunch (s : State) (q ctx serial rank : Nat) (d h : BitVec 1024) (cause faddr : Nat) : State :=
  let s := if !hMulti h then s
    else if rank = 0 then closeGate s serial h (((tget s.grids serial).map (·.deadline)).getD
      (cycleOf s 0 + hGate h * usClocks))
    else sendGate s rank (hGateFid h) (hMkey h) [rank, 2] []
  let conf := if d.getLsbD 3 then some ctx else none
  let r := faultRecord conf (cycleOf s 0) serial 0 (if hMulti h then rank else 0) { cpBlame cause with faddr := faddr }
  let s := { s with
    grids := tdel s.grids serial
    pageFaults := s.pageFaults.filter (fun f => f.1 != 64 + serial) }
  recordOnQueue s q ctx serial 0 r

/-- A grid that is still a launch is refused. -/
def refuseGrid (s : State) (serial cause faddr : Nat) : State :=
  match tget s.grids serial with
  | none => s
  | some g => refuseLaunch s g.queue g.ctx serial g.rank g.desc g.hdr cause faddr

/-! Lease set-up (R165, R166). -/

/-- What lease set-up meets: it waits for a page, or it refuses with a cause and an address. -/
inductive LeaseErr where
  | page (va : Nat)
  | bad (cause faddr : Nat)
deriving DecidableEq, Repr

/-- A lease-table entry that R165 allows. -/
def leaseEntryOk (e : BitVec 128) : Bool :=
  field e 127 123 == 0 && field e 119 109 == 0 && field e 63 57 == 0 && field e 11 0 == 0 && field e 122 120 != 0 &&
    decide (field e 56 12 * 4096 + (field e 108 64 + 1) * 4096 ≤ 2 ^ 57)

/-- The lease table of a launch (R165). -/
def readLeases (s : State) (ctx : Nat) (d h : BitVec 1024) : Except LeaseErr (List (BitVec 128)) :=
  match vXlate s ctx d needR (vPieces (hLeasePtr h) (16 * hLeaseCnt h)) with
  | .error (.unmapped, a) => .error (.page a)
  | .error (_, a) => .error (.bad 0x20 a)
  | .ok ps =>
    let es := entriesOf (readPieces s ps).1
    if es.all leaseEntryOk then .ok es else .error (.bad 0x20 0)

/-- The permissions that a lease entry grants. -/
def leaseNeed (e : BitVec 128) : Need := ⟨e.getLsbD 120, e.getLsbD 121, e.getLsbD 122⟩

/-- Walk the pages of a leased range outside the heap, from an address: the translations to fix (R166). Fuel bounds the
number of pages. -/
def walkLease (s : State) (d : BitVec 1024) (n : Need) (stop : Nat) :
    Nat → Nat → List (Nat × DWord) → Except LeaseErr (List (Nat × DWord))
  | 0, _, acc => .ok acc
  | fuel + 1, va, acc =>
    if stop ≤ va then .ok acc
    else if inHeap d va then walkLease s d n stop fuel (dHeapLimit d) acc
    else match walkFrom s va [4, 3, 2, 1, 0] (dPtRoot d) with
      | .error .unmapped => .error (.page va)
      | .error _ => .error (.bad 0x14 va)
      | .ok e =>
        let size := 2 ^ (12 + pteSize e)
        let base := va / size * size
        if !pteAllows e n then .error (.bad 0x21 va)
        else walkLease s d n stop fuel (base + size) (if acc.any (fun x => x.1 == base) then acc else acc ++ [(base, e)])

/-- Walk every lease entry. -/
def walkLeases (s : State) (d : BitVec 1024) : List (BitVec 128) → List (Nat × DWord) →
    Except LeaseErr (List (Nat × DWord))
  | [], acc => .ok acc
  | e :: r, acc =>
    let va := field e 56 12 * 4096
    match walkLease s d (leaseNeed e) (va + (field e 108 64 + 1) * 4096) (field e 108 64 + 2) va acc with
    | .error x => .error x
    | .ok acc => walkLeases s d r acc

/-- The first gang of a package rank, by its place among the grid's gangs; that of the next rank follows the last one. A
grid on one package runs every gang there (R30). -/
def firstGang (h : BitVec 1024) (rank : Nat) : Nat :=
  if hMulti h then gangSearch h rank 65 0 (hGangs h) else if rank = 0 then 0 else hGangs h

/-- The package acknowledges to the gate holder, itself perhaps, once (R31). -/
def gateAck (s : State) (serial : Nat) : State :=
  match tget s.grids serial with
  | none => s
  | some g =>
    if hMulti g.hdr = false ∨ g.acked = true then s
    else
      let s := setGrid s serial { g with acked := true }
      if g.rank = 0 then gateAdd s serial 0
      else sendGate s g.rank (hGateFid g.hdr) (hMkey g.hdr) [g.rank, 1] []

/-- The gate holder takes the acknowledgements that came before its own launch had its leases (R31). -/
def takeEarlyAcks (s : State) (serial : Nat) (h : BitVec 1024) (rank : Nat) : State :=
  if hMulti h ∧ rank = 0 then
    let mine (e : DWord × Nat × Nat) : Bool := e.1 == hMkey h && e.2.1 == hGateFid h
    let acks := s.earlyAcks.filter mine
    let s := { s with earlyAcks := s.earlyAcks.filter (fun e => !mine e) }
    acks.foldl (fun s e => gateAdd s serial e.2.2) s
  else s

/-- The launch has left step 4: it has executed, and its queue goes on (27 R390). -/
def launchDone (s : State) (q serial : Nat) : State :=
  let x := queueRec s q
  if x.launching = some serial then putQueue s q (packetDone { x with conds := [] }) else s

/-- Leases are set up: the grid waits for placement; a package without a gang acknowledges at once (R31). -/
def leased (s : State) (serial : Nat) (g : Grid) (es : List (BitVec 128)) (fixed : List (Nat × DWord)) : State :=
  let none_ := g.nextGang == g.lastGang
  let s := setGrid s serial { g with
    stage := if none_ then 7 else 5
    leases := es
    fixed := fixed
    page := none
    waitSince := cycleOf s 0 }
  let s := { s with pageFaults := s.pageFaults.filter (fun f => f.1 != 64 + serial) }
  let s := takeEarlyAcks s serial g.hdr g.rank
  let s := if none_ then gateAck s serial else s
  launchDone s g.queue serial

/-- A page that a launch waits for is reported for service (R166, 29 R401). -/
def reportPage (s : State) (serial va : Nat) (g : Grid) : State :=
  let s := setGrid s serial { g with page := some va }
  hostEvent { s with pageFaults := s.pageFaults ++ [(64 + serial, va)] } 3 (va + serial * 2 ^ 64) g.ctx 0

/-- Dirty stash lines that hold what lease set-up reads, of the lease table and of page tables, have been written back (11
R157). -/
def leaseSeen (s : State) (g : Grid) : State :=
  if !anyStash s then s
  else
    let s := rangeSeen s g.ctx g.desc (hLeasePtr g.hdr) (16 * hLeaseCnt g.hdr)
    match readLeases s g.ctx g.desc g.hdr with
    | .error _ => s
    | .ok es => tablesSeen s g.desc (es.flatMap (fun e => vPieces (field e 56 12 * 4096) ((field e 108 64 + 1) * 4096)))

/-- Step 4 of a launch, from its start (R311). -/
def leaseSetup (s : State) (serial : Nat) : State :=
  match tget s.grids serial with
  | none => s
  | some g =>
    if g.stage ≠ 4 then s
    else
    let s := leaseSeen s g
    let g := (tget s.grids serial).getD g
    match readLeases s g.ctx g.desc g.hdr with
      | .error (.page va) => reportPage s serial va g
      | .error (.bad c a) => refuseGrid s serial c a
      | .ok es =>
        match walkLeases s g.desc es [] with
        | .error (.page va) => reportPage s serial va g
        | .error (.bad c a) => refuseGrid s serial c a
        | .ok fixed => leased s serial g es fixed

/-! The dependence wait (R311 step 3). -/

/-- Timeline conditions hold for a context (27 R388). -/
def condsHold (s : State) (ctx : Nat) (cs : List (Word × DWord)) : Bool :=
  cs.all (fun c => decide (c.2.toNat ≤ handleVal s ctx c.1))

/-- The launch at step 3 whose conditions hold goes on to lease set-up, and its queue gives its wait slot back (27
R396). -/
def toLease (s : State) (q serial : Nat) (g : Grid) : State :=
  let s := setQueue s q { queueRec s q with slot := none, wants := none, st := 2 }
  leaseSetup (setGrid s serial { g with stage := 4, conds := [] }) serial

/-- LAUNCH_CONDITIONS_SATISFIED: the launch that a queue holds at step 3 has its conditions. -/
def execLaunchConditionsSatisfied (q : Nat) (s : State) : Host.Outcome State Fault Refusal :=
  let x := queueRec s q
  match x.launching with
  | none => .next s
  | some n => match tget s.grids n with
    | none => .next s
    | some g =>
      .next (if g.stage = 3 ∧ condsHold s g.ctx g.conds = true ∧ x.st ≠ 3 then writeStatus (toLease s q n g) q else s)

/-- A grid of a launch that has passed the validator (R311 step 3). -/
def newGrid (s : State) (ctx q rank : Nat) (d h : BitVec 1024) (conds : List (Word × DWord))
    (cl : Option (Nat × Word × Nat)) : Grid where
  ctx := ctx
  queue := q
  prio := qPrio (queueRec s q).desc
  hdr := h
  rank := rank
  desc := d
  stage := 3
  conds := conds
  leases := []
  fixed := []
  page := none
  nextGang := firstGang h rank
  waitSince := 0
  lastGang := firstGang h (rank + 1)
  anyBegun := false
  acked := false
  gateOpen := false
  acks := []
  deadline := cycleOf s 0 + hGate h * usClocks
  adds := []
  supp := 0
  claunch := cl
  ldk := []
  limitHit := false
  loads := []

/-! Pages (R166, 27 R389). -/

/-- PAGE_SERVICE_RESUME: the driver has mapped the page that a queue, or for numbers from 64 the launch of a serial, waits
for. A queue gives back the wait slot that it has held meanwhile; a parked one is found by its next check (27 R396). -/
def execPageServiceResume (n : Nat) (s : State) : Host.Outcome State Fault Refusal :=
  let s := { s with pageFaults := s.pageFaults.filter (fun f => f.1 != n) }
  if n < 64 then
    let x := queueRec s n
    .next (if x.fetchPage.isNone then s
      else if x.st = 2 then putQueue s n { x with fetchPage := none, slot := none, wants := none, st := 1 }
      else setQueue s n { x with fetchPage := none })
  else match tget s.grids (n - 64) with
    | none => .next s
    | some g => .next (if g.page.isSome then leaseSetup s (n - 64) else s)

/-- PAGE_SERVICE_DECLINED: the driver declines to map a leased page (R311). -/
def execPageServiceDeclined (serial : Nat) (s : State) : Host.Outcome State Fault Refusal :=
  match tget s.grids serial with
  | none => .next s
  | some g => match g.page with
    | none => .next s
    | some va => .next (refuseGrid s serial 0x22 va)

end Sys2Proof.Machine
end

