-- ==== Sys2Proof/Machine/TakeI.lean ====
section
/-! DEFINITION. Takes (19 R281 to R297): TAKE, KEEP, DROP, TSTAT. -/

namespace Sys2Proof.Machine

/-- The checkpoint of a warp at its outermost TAKE (R284). -/
def checkpoint (w : Warp) : Take :=
  ⟨nextPC w, w.v, w.p, w.w, w.flags, w.recon, [], [], [], [], [], w.pend.map (·.id), 0, [], false⟩

def execTake (s : State) : Host.Outcome State Fault Refusal :=
  laneWord s [] (fun s k w =>
    let m := members w
    if m = 0 then
      .next (setWarp s k { modLanes w w.act (fun _ t => { t with tdepth := 1 }) with take := some (checkpoint w) })
    else if w.act &&& ~~~m ≠ 0 then .fault 0x53 0 ((lowest (w.act &&& ~~~m)).getD 0) 0
    else if w.act &&& lanesWhere w (fun t => decide (7 ≤ t.tdepth)) ≠ 0 then .abort 9
    else .next (setWarp s k (modLanes w w.act (fun _ t => { t with tdepth := t.tdepth + 1 }))))

/-! The commit (R290). -/

/-- The place of a buffered byte, from its key and its physical place. -/
def bufLoc (key : Nat) (b : BufByte) (ord : Nat) : Loc :=
  if 2 ^ 64 ≤ key then ⟨true, key / 2 ^ 64 - 1, key % 2 ^ 64, b.loc, 0⟩ else ⟨false, 0, key, b.loc, ord⟩

/-- The mailboxes that have an arrival at a commit: one for each buffered store that writes some of a doorbell's bytes (17
R274; log 38). -/
def takeRings (s : State) (tk : Take) : List Nat :=
  ((tk.store.flatMap (fun e => if 2 ^ 64 ≤ e.1 then [] else
    (doorbells s e.2.loc 1).map (fun m => (e.2.store, m)))).dedup).map (·.2)

/-- The buffered stores of a take that go to fabric memory are outstanding from the commit on, line by line (R46, 25 R349). -/
def takeRemote (s : State) (k : Nat) (w : Warp) (tk : Take) : State :=
  let es := tk.store.filter (fun e => decide (e.1 < 2 ^ 64) && remoteAt s w.wg e.1 e.2.loc)
  ((es.map (fun e => (e.2.lane, e.2.loc / 128))).dedup).foldl (fun s x =>
    match es.find? (fun e => e.2.lane == x.1 && e.2.loc / 128 == x.2) with
    | some e => noteStores s k w [(e.2.lane, e.1, e.2.loc)]
    | none => s) s

/-- Perform the stores of a take together (R177, R290). -/
def takeStores (s : State) (k : Nat) (w : Warp) (tk : Take) : State :=
  let s := tk.store.foldl (fun s e =>
    let x := bufLoc e.1 e.2 0
    let s := if x.lm then writeLm s (some k) x.wg x.va [e.2.val] else writeQuiet s ⟨some w.wg, some k⟩ x.va x.pa [e.2.val]
    storePoison s w.wg x (if e.2.bad then [0] else [])) s
  takeRemote (ringDoorbells s (takeRings s tk)) k w tk

/-- The buffered adds of a take join the deferred adds; the error is a lane whose add finds no room (R290: 0x1B). -/
def takeAdds (s : State) (wg : Nat) : List (Nat × DAdd) → Except Nat State
  | [] => .ok s
  | (l, a) :: r =>
    match deferAdd s wg a with
    | none => .error l
    | some s => takeAdds s wg r

/-- Commit the open take of a warp (R290): its adds, its stores, and its members go on. -/
def commit (s : State) (k : Nat) : Except Nat State :=
  match tget s.warps k with
  | none => .ok s
  | some w =>
    match w.take with
    | none => .ok s
    | some tk =>
      match takeAdds s w.wg tk.adds with
      | .error l => .error l
      | .ok s =>
        let s := takeStores s k w tk
        match tget s.warps k with
        | none => .ok s
        | some w =>
          let m := members w
          let w := modLanes w m (fun _ t => { t with tdepth := 0, tcode := 0 })
          .ok (releaseLanes (setWarp s k (choicePoint { w with take := none, tcode := 0 })) k m)

/-- Every live member has arrived at KEEP. -/
def allKept (w : Warp) : Bool :=
  decide (members w ≠ 0) && decide (members w &&& ~~~lanesWhere w (fun t => t.wait == .keep) = 0)

/-- The rollbacks of a warp that have waited act, and a partial one that leaves only members which have arrived at KEEP lets
the take commit; a commit that finds no room faults at the KEEP of the lane that finds none (R290 to R292). -/
def settleRolls (s : State) (k : Nat) : State :=
  match tget s.warps k with
  | none => s
  | some w =>
    let due := rollsDue w
    if due.isEmpty then s
    else
      let s := due.foldl (fun s r => rollOne s k r) s
      match tget s.warps k with
      | none => s
      | some w =>
        if !allKept w then s
        else match commit s k with
          | .error l => faultLane s k w l 0x1B 0 0 (wordAddr (pcOf w l))
          | .ok s => s

/-- Commit if every member has arrived; a failed commit is the fault of the word that completes it. -/
def commitIf (s : State) (k : Nat) : Eff :=
  match tget s.warps k with
  | none => .moved s
  | some w =>
    if allKept w then
      match commit s k with
      | .error l => .fault 0x1B 0 l 0
      | .ok s => .moved s
    else .moved s

def execKeep (scope : BitVec 3) (s : State) : Host.Outcome State Fault Refusal :=
  laneWord s [] (fun s k w =>
    match lowest (w.act &&& ~~~members w) with
    | some l => .fault 0x52 0 l 0
    | none =>
      let deep := w.act &&& lanesWhere w (fun t => decide (1 < t.tdepth))
      let m := w.act &&& ~~~deep
      let w1 := modLanes w deep (fun _ t => { t with tdepth := t.tdepth - 1 })
      if m = 0 then .next (setWarp s k w1)
      else
        let w1 := { w1 with take := w1.take.map (fun tk => { tk with scope := max tk.scope scope.toNat }) }
        commitIf (setWarp s k (beginWait (setPC w1 deep (nextPC w)) m .keep (nextPC w))) k)

/-- The code of a DROP (R291). -/
def dropCode (aux : Fld) : Byte := if aux = 0 then 1 else aux

def execDrop (a : Fld) (sub : BitVec 4) (aux : Fld) (s : State) : Host.Outcome State Fault Refusal :=
  laneWord s (if sub = 1 then [a] else []) (fun s k w =>
    match lowest (w.act &&& ~~~members w) with
    | some l => .fault 0x52 0 l 0
    | none =>
      let m := if sub = 1 then rd w a (low w) &&& members w else members w
      if m = 0 then .next s
      else commitIf (rollback (setWarp s k (setPC w (w.act &&& ~~~m) (nextPC w))) k m (dropCode aux)) k)
def execTstat (d : Fld) (s : State) : Host.Outcome State Fault Refusal :=
  warpWord s [d] (fun w => mapLanes w d (fun l => match thr w l with
    | some t => BitVec.ofNat 32 (t.tdepth * 256 + t.tcode.toNat)
    | none => 0))

end Sys2Proof.Machine
end

