-- ==== Sys2Proof/Machine/Sol.lean ====
section
/-! DEFINITION. Key directories, censuses and responders (19 R298 to R310, 25 R380). -/

namespace Sys2Proof.Machine

/-! Key directories (R298 to R301). -/

/-- Room left in a core's directory, entries on their way to it counted (R299, R301). -/
def kdirRoom (s : State) (c : Nat) : Nat :=
  2048 - ((coreRec s c).kdir.length + (s.transit.filter (fun t => t.2.target == c)).length)

/-- The entries of a workgroup with a key on a core, oldest first. -/
def kdirFind (s : State) (c wg : Nat) (key : DWord) : List KEntry :=
  (coreRec s c).kdir.filter (fun e => e.owner == wg && e.key == key)

/-- One lane's insertion (R299). -/
def insLane (c : Nat) (w : Warp) (a b : Fld) (once : Bool) (s : State) (l : Nat) : Except (Nat × Nat) State :=
  let key := rd64 w a l
  let pc := rd w (b + 1) l
  if pc.extractLsb' 0 2 ≠ 0 then .error (1, 0)
  else if once && !(kdirFind s c w.wg key).isEmpty then .ok s
  else if kdirRoom s c = 0 then .error (0x55, 0)
  else
    let (id, s) := freshId s
    let e : KEntry := ⟨id, key, rd w b l, regTarget (curPC w).hdr pc, w.wg, [], ((thr w l).map (·.wid)).getD 0, id⟩
    .ok (setCore s c { coreRec s c with kdir := (coreRec s c).kdir ++ [e] })

def execKdirins (a b : Fld) (sub : BitVec 4) (s : State) : Host.Outcome State Fault Refusal :=
  laneWord s (pair a ++ pair b) (fun s k w => laneActs w (lanesOf w.act) s (insLane (coreOf k) w a b (sub == 1)))
def execKdirdel (a : Fld) (s : State) : Host.Outcome State Fault Refusal :=
  laneWord s (pair a) (fun s k w => noTake w
    (.next ((lanesOf w.act).foldl (fun s l =>
      match kdirFind s (coreOf k) w.wg (rd64 w a l) with
      | [] => s
      | e :: _ => removeEntries s (coreOf k) (fun x => x.id == e.id)) s)))
def execKdirlook (d a : Fld) (s : State) : Host.Outcome State Fault Refusal :=
  laneWord s (pair a ++ pair d) (fun s k w =>
    let es (l : Nat) := kdirFind s (coreOf k) w.wg (rd64 w a l)
    let w1 := wr w d w.act (fun l => ((es l).head?.map (·.payload)).getD 0)
    .next (setWarp s k (wr w1 (d + 1) w.act (fun l => BitVec.ofNat 32 (es l).length))))

/-- One lane's migration (R301). -/
def migLane (c : Nat) (w : Warp) (a b : Fld) (all : Bool) (s : State) (l : Nat) : Except (Nat × Nat) State :=
  let m := field (rd w b l) 1 0
  if field (rd w b l) 31 2 ≠ 0 ∨ hGangSize (hdrOf s w.wg) ≤ m then .error (0x57, 0)
  else match memberWg s w.wg m with
    | none => .error (0x57, 0)
    | some t =>
      match tget s.wgs t with
      | none => .error (0x57, 0)
      | some g =>
        let es := kdirFind s c w.wg (rd64 w a l)
        let es := if all then es else es.take 1
        if g.ended then .error (0x57, 0)
        else if t = w.wg then .ok s
        else if kdirRoom s (g.core.getD c) < es.length then .error (0x55, 0)
        else
          let s := setCore s c { coreRec s c with
            kdir := (coreRec s c).kdir.filter (fun e => !es.any (fun x => x.id == e.id)) }
          .ok (es.foldl (fun s e =>
            let (id, s) := freshId s
            { s with transit := tput s.transit id ⟨e, g.core.getD c, t⟩ }) s)

/-! Arrival points and responders (R303, R304). -/

/-- The argument record of a responder (R303). -/
def responderArgs (cen : Census) (e : KEntry) : List Word :=
  [e.key.extractLsb' 0 32, e.key.extractLsb' 32 32, e.payload, cen.arg, cen.word,
    if cen.from_.isSome then 0xFFFFFFFF else BitVec.ofNat 32 (cen.core / 64 * 64 + cen.core % 64), 0, 0]

/-- Change one entry of a core's directory. -/
def modEntry (s : State) (c id : Nat) (f : KEntry → KEntry) : State :=
  setCore s c { coreRec s c with kdir := (coreRec s c).kdir.map (fun e => if e.id == id then f e else e) }

/-- An entry answers a census: it joins the answered set, and a responder is created; without room for the task the
owner's grid ends (R253, R303). -/
def makeResponder (s : State) (c : Nat) (cen : Census) (e : KEntry) : State :=
  let s := modEntry s c e.id (fun x => { x with answered := x.answered ++ [cen.id] })
  if taskRoom s e.owner then
    let s := updCensus s cen.id (fun x => { x with due := x.due ++ [(e.id, c, e.age)] })
    createTask s e.owner e.pc (responderArgs cen e) e.wid none true (some (cen.id, e.id))
  else taskSpaceFault s e.owner true

/-- Every census in flight on the package. -/
def allCensuses (s : State) : List Census :=
  s.cores.flatMap (fun e => e.2.census.map (·.2)) ++ s.forwarded.map (·.2) ++
    s.ctxs.flatMap (fun e => e.2.saved.flatMap (fun x => x.census.map (·.2)))

/-- A census reaches its arrival point at a core (R303). -/
def arrivalPoint (s : State) (c id : Nat) : State :=
  match (allCensuses s).find? (fun x => x.id == id && x.todo.contains c) with
  | none => s
  | some cen =>
    let s := updCensus s id (fun x => { x with todo := x.todo.erase c })
    let es := (coreRec s c).kdir.filter (fun e => censusHits s cen e && !e.answered.contains id)
    es.foldl (fun s e =>
      if (coreRec s c).kdir.any (fun x => x.id == e.id) then makeResponder s c cen e else s) s

def execCensusArrivalPoint (c cen : Nat) (s : State) : Host.Outcome State Fault Refusal := .next (arrivalPoint s c cen)

/-- An entry in transit lands: at an ended workgroup it is removed; else it joins the directory, and answers the censuses
that have already reached the core (R301, R304). -/
def land (s : State) (id : Nat) : State :=
  match tget s.transit id with
  | none => s
  | some t =>
    let s := { s with transit := tdel s.transit id }
    match tget s.wgs t.owner with
    | none => entryGone s t.entry
    | some g =>
      if g.ended then entryGone s t.entry
      else
        let c := g.core.getD t.target
        let (age, s) := freshId s
        let e := { t.entry with owner := t.owner, age := age }
        let s := setCore s c { coreRec s c with kdir := (coreRec s c).kdir ++ [e] }
        (allCensuses s).foldl (fun s cen =>
          if inCensusScope cen c && !cen.todo.contains c && censusHits s cen e && !e.answered.contains cen.id &&
              (coreRec s c).kdir.any (fun x => x.id == e.id) then makeResponder s c cen e else s) s

def execKeyEntryLanding (id : Nat) (s : State) : Host.Outcome State Fault Refusal := .next (land s id)

/-- In continuity mode what a word starts completes with it (R316): entries land, arrival points are reached. -/
def contLand (s : State) (wg : Nat) : State :=
  if contOfWg s wg then
    (s.transit.filter (fun t => serialOf t.2.owner == serialOf wg)).foldl (fun s t => land s t.1) s
  else s

def execKdirmig (a b : Fld) (sub : BitVec 4) (s : State) : Host.Outcome State Fault Refusal :=
  laneWord s (pair a ++ [b]) (fun s k w =>
    match laneActs w (lanesOf w.act) s (migLane (coreOf k) w a b (sub == 1)) with
    | .next s => .next (contLand s w.wg)
    | x => x)

/-! Solicitations (R302). -/

/-- Start a census, which in continuity mode reaches every core of its scope with its word (R302, R316). -/
def solicitOne (s : State) (wg c slot : Nat) (x : SolWait) : Word × State :=
  let (word, s) := startCensus s wg c slot x.key x.arg x.op x.scope
  if contOfWg s wg then
    match tget (coreRec s c).census slot with
    | none => (word, s)
    | some cen => (word, cen.todo.foldl (fun s y => arrivalPoint s y cen.id) s)
  else (word, s)

/-- The request of a lane, or of the group for a w destination. -/
def solRequest (w : Warp) (d a b : Fld) (sub : BitVec 4) (scope : BitVec 3) (l : Nat) : SolWait :=
  ⟨nameOf w l, if d.toNat < 192 then laneBit l else w.act, rd64 w a l, rd w b l, sub.toNat, scope.toNat, d⟩

/-- Serve a request of a warp's lane: the identifier goes to its lane or to the w register. -/
def solServe (s : State) (k l slot : Nat) (x : SolWait) : State :=
  let (word, s) := solicitOne s x.name.wg (coreOf k) slot x
  match tget s.warps k with
  | none => s
  | some w => setWarp s k (wr w x.reg (if x.reg.toNat < 192 then laneBit l else x.lanes) (fun _ => word))

/-- One lane of a SOLICIT: served, or it waits behind those that wait already (R302). -/
def solLane (k : Nat) (mk : Nat → SolWait) (acc : State × Mask × List SolWait) (l : Nat) : State × Mask × List SolWait :=
  let cr := coreRec acc.1 (coreOf k)
  match (if cr.solWait.isEmpty && acc.2.2.isEmpty then freeSlotOf cr else none) with
  | some slot => (solServe acc.1 k l slot (mk l), acc.2.1 ||| (mk l).lanes, acc.2.2)
  | none => (acc.1, acc.2.1, acc.2.2 ++ [mk l])

def execSolicit (d a b : Fld) (sub : BitVec 4) (scope : BitVec 3) (s : State) : Host.Outcome State Fault Refusal :=
  laneWord s ([d] ++ pair a ++ [b]) (fun s k w =>
    if (activeMember w).isSome then .abort 0x0A
    else
      let (s, got, rest) := (lanesFor w d).foldl (solLane k (solRequest w d a b sub scope)) (s, 0, [])
      let m := w.act &&& ~~~got
      let c := coreOf k
      match tget s.warps k with
      | none => .moved s
      | some w1 =>
        if rest.isEmpty then .next s
        else
          let s := setCore s c { coreRec s c with solWait := (coreRec s c).solWait ++ rest }
          let s := setWarp s k (beginWait (setPC w1 got (nextPC w)) m .solicit (nextPC w))
          if got = 0 then .parked s else .moved s)

/-- Serve the lanes of a core that wait for a census slot, in order, while slots are free (R302); fuel is their number. -/
def solServeAll (s : State) (c : Nat) : Nat → State
  | 0 => s
  | n + 1 =>
    let cr := coreRec s c
    match cr.solWait, freeSlotOf cr with
    | x :: r, some slot =>
      let s := setCore s c { cr with solWait := r }
      match findThread s x.name with
      | none => solServeAll s c n
      | some (k, l) => solServeAll (releaseLanes (solServe s k l slot x) k x.lanes) c n
    | _, _ => s

/-! Results (R305 to R308). -/

/-- Insert a response in core order (R306). -/
def insertResp (x : Resp) : List Resp → List Resp
  | [] => [x]
  | y :: r =>
    if keyLt (x.pkg, x.core, x.age, 0) (y.pkg, y.core, y.age, 0) then x :: y :: r else y :: insertResp x r

/-- The combined result of a census (R306). -/
def combine (op : Nat) (rs : List Resp) : Word :=
  let vs := (rs.foldl (fun l x => insertResp x l) []).map (·.val)
  match op with
  | 0 => vs.foldl (· + ·) 0
  | 1 => BitVec.ofNat 32 (roundVal fp32 0 (groupSum (vs.map (fun x => fdec fp32 x.toNat)))).1
  | 2 => vs.foldl minS 0x7FFFFFFF
  | 3 => vs.foldl maxS 0x80000000
  | 4 => vs.foldl (· ||| ·) 0
  | 5 => BitVec.ofNat 32 vs.length
  | _ => vs.headD 0

/-- The census in use that an identifier names on the issuing core (R308: 0x54). A census that a restore has brought to the
core keeps the identifier that it had (21 R322; log 45). -/
def censusOf (s : State) (k : Nat) (x : Word) : Option Census :=
  ((coreRec s (coreOf k)).census.find? (fun e => e.2.word == x)).map (·.2)

/-- What a query answers (R308). -/
def censusAnswer (s : State) (sub : BitVec 4) (cen : Census) : Word :=
  match sub.toNat with
  | 1 => BitVec.ofNat 32 cen.live.length
  | 2 => BitVec.ofNat 32 cen.wd
  | 3 => if censusComplete s cen then 1 else 0
  | _ => combine cen.op cen.live

/-- Free the census slots that identifiers name (R308 .fin). -/
def freeSlots (s : State) (c : Nat) (xs : List Word) : State :=
  setCore s c { coreRec s c with census := (coreRec s c).census.filter (fun e => !xs.contains e.2.word) }

/-- The first of some lanes whose operand names no census in use (R308: 0x54). -/
def censusBad (s : State) (k : Nat) (w : Warp) (a : Fld) (ls : List Nat) : Option (Nat × Nat × Nat) :=
  (ls.find? (fun l => (censusOf s k (rd w a l)).isNone)).map (fun l => (0x54, 0, l))

def execCensus (d a : Fld) (sub : BitVec 4) (s : State) : Host.Outcome State Fault Refusal :=
  laneWord s [a, d] (fun s k w =>
    let ls := lanesOf w.act
    laneChecks w ls (censusBad s k w a)
      (let cens := ls.filterMap (fun l => censusOf s k (rd w a l))
       if sub != 3 && !cens.all (censusComplete s) then
         .parked (setWarp s k (beginWait w w.act (.census (cens.map (·.id))) (curPC w)))
       else
         let ans (l : Nat) : Word := ((censusOf s k (rd w a l)).map (censusAnswer s sub)).getD 0
         let s := setWarp s k (mapLanes w d ans)
         .next (if sub = 4 then freeSlots s (coreOf k) (ls.map (rd w a)) else s)))

/-- One responder's answer (R305): a live or a withdrawn response, for a census that still awaits it. -/
def respondLane (wd : Bool) (s : State) (id entry : Nat) (v : Word) : State :=
  if wd then withdraw s id entry
  else
    updCensus s id (fun c => match c.due.find? (fun d => d.1 == entry) with
      | none => c
      | some (_, core, age) =>
        { c with due := c.due.filter (fun d => d.1 != entry), live := c.live ++ [⟨c.self, core, age, v⟩] })

/-- The first of some lanes that has responded already (R310: 0x56). -/
def respondBad (w : Warp) (ls : List Nat) : Option (Nat × Nat × Nat) :=
  (ls.find? (fun l => ((thr w l).map (·.responded)).getD false)).map (fun l => (0x56, 0, l))

def execRespond (a : Fld) (sub : BitVec 4) (s : State) : Host.Outcome State Fault Refusal :=
  laneWord s [a] (fun s k w =>
    if w.kind != .responder then .fault 0x0B 0 (low w) 0
    else laneChecks w (lanesOf w.act) (respondBad w)
      (let s := setWarp s k (modLanes w w.act (fun _ t => { t with responded := true }))
       .next ((lanesOf w.act).foldl (fun s l => match (thr w l).bind (·.census) with
         | some (id, e) => respondLane (sub == 1) s id e (rd w a l)
         | none => s) s)))

/-! Censuses of other packages (25 R380). -/

/-- CENSUS_PACKET_ARRIVAL: a forwarded census runs as a .dev census over the contexts of its fabric group. -/
def execCensusPacketArrival (fid : Nat) (word : Word) (key : DWord) (arg : Word) (op fgroup : Nat) (s : State) :
    Host.Outcome State Fault Refusal :=
  let (id, s) := freshId s
  let ctxs := (s.ctxDesc.filter (fun e => e.2.getLsbD 0 && field e.2 58 47 == fgroup)).map (·.1)
  let cen : Census := ⟨id, word, 0, ctxs, 0, 0, key, arg, op, 5, scopeCores s 5 0, [], [], 0, true, some fid, s.fid.getD 0⟩
  .next { s with forwarded := tput s.forwarded id cen }

/-- CENSUS_RESULT_ARRIVAL: the fabric's combined result and its report of completion (R307). -/
def execCensusResultArrival (word : Word) (live : List (Nat × Word)) (wd : Nat) (s : State) :
    Host.Outcome State Fault Refusal :=
  let upd (c : Census) : Census :=
    if c.word == word && !c.fabricDone then
      { c with fabricDone := true, wd := c.wd + wd,
               live := c.live ++ (List.range live.length).map (fun i =>
                 let e := live.getD i (0, 0)
                 ⟨e.1, 0, i, e.2⟩) }
    else c
  .next { s with
    cores := s.cores.map (fun e => (e.1, { e.2 with census := e.2.census.map (fun x => (x.1, upd x.2)) }))
    ctxs := s.ctxs.map (fun e => (e.1, { e.2 with
      saved := e.2.saved.map (fun x => { x with census := x.census.map (fun y => (y.1, upd y.2)) }) })) }

/-- An exact sum as it travels between packages: its kind, its sign, its magnitude and its exponent above that of the least
subnormal number (R307; the layout of the record is the model's, log 7). -/
def exactFields : FVal → List Nat
  | .nan _ => [2, 0, 0, 0]
  | .inf n => [1, n.toNat, 0, 0]
  | .fin n m e => [0, n.toNat, m, (e + 149).toNat]

/-- A package's partial result: the combination of its live responses, the .fadd one held exact (R307). -/
def partialResult (op : Nat) (rs : List Resp) : List Nat :=
  if op = 1 then exactFields (groupSum (rs.map (fun r => fdec fp32 r.val.toNat))) else [(combine op rs).toNat]

/-- Forwarded censuses that are complete return their live count, their withdrawn count and their partial result, and go
(R307, R380). -/
def forwardDone (s : State) : State :=
  let done := s.forwarded.filter (fun e => censusComplete s e.2)
  done.foldl (fun s e =>
    sendFabric { s with forwarded := tdel s.forwarded e.1 } 8 (e.2.from_.getD 0)
      (((List.range 32).find? (linkUpNow s)).getD 0) 0
      ([e.2.from_.getD 0, e.2.word.toNat, e.2.live.length, e.2.wd] ++ partialResult e.2.op e.2.live) []) s

end Sys2Proof.Machine
end

