-- ==== Sys2Proof/Machine/Stream.lean ====
section
/-! DEFINITION. The block sequencer and the matrix engine: the stream's words (15 R216 to R249, 07 R109) and the
completion of its operations (R222). -/

namespace Sys2Proof.Machine

/-! The sequencer. -/

/-- What a stream word does. -/
inductive SEff where
  /-- the word is done, and the stream goes on after it -/
  | next (s : State)
  /-- the same for an engine operation, which completes later (R222) -/
  | op (s : State)
  /-- the word is done, and the stream goes on at another clause -/
  | jump (s : State) (dest : DWord)
  /-- the word waits -/
  | stall
  | fault (cause faddr : Nat)

/-- The sequencer of a core. -/
def seqOf (s : State) (c : Nat) : Option Seq := (coreRec s c).seq

/-- Replace the sequencer of a core. -/
def setSeq (s : State) (c : Nat) (q : Seq) : State := setCore s c { coreRec s c with seq := some q }

/-- A fault of the sequencer ends its grid: the record names the workgroup (R217, R333). -/
def seqFault (s : State) (c : Nat) (q : Seq) (cause faddr fpc : Nat) : State :=
  endGrid s (serialOf q.wg) ⟨cause, fpc, faddr, wgNumber q.wg, 0, 0, 4, dieOf c, c % 64, 0, 0⟩

/-- The PC after the current word. -/
def seqNext (q : Seq) : PC :=
  let j := q.pc.idx + wordLen true q.code q.pc.idx
  if j ≤ q.code.length then ⟨q.pc.hdr, j⟩ else ⟨nextHdr q.pc.hdr q.code.length, 0⟩

/-- The stream stands at a PC. -/
def seqGo (s : State) (c : Nat) (p : PC) : State :=
  match seqOf s c with
  | none => s
  | some q => setSeq s c { q with pc := p, waitDone := if p.idx = 0 then false else q.waitDone }

/-- The oldest operation in flight of a sequencer completes (R222). -/
def seqComplete (s : State) (c : Nat) : State :=
  match seqOf s c with
  | none => s
  | some q =>
    match q.flight with
    | [] => s
    | (n, at_) :: r =>
      let s := measureOp s q.wg (seqHandle c) at_
      seqOpDone (setSeq s c { q with flight := r, homes := if r.isEmpty then [] else q.homes }) c q n

/-- An engine operation takes the next number of the sequencer's counter; in continuity mode it completes within its
word (R222, R316). -/
def seqNumber (s : State) (c : Nat) : State :=
  match seqOf s c with
  | none => s
  | some q =>
    let ctx := ctxOfWg s q.wg
    let t := tlOf s ctx (seqHandle c)
    let s := setTl s ctx (seqHandle c) { t with issued := t.issued + 1 }
    let s := setSeq s c { q with flight := q.flight ++ [(t.issued + 1, cycleOf s (dieOf c))] }
    if contOfWg s q.wg then seqComplete s c else s

/-- A stream word's meaning for the sequencer that issues it. -/
def seqWord (s : State) (body : State → Nat → Seq → SEff) : Host.Outcome State Fault Refusal :=
  match s.issuer with
  | .seq c =>
    match seqOf s c with
    | none => .fault .noIssuer
    | some q => .next (match body s c q with
      | .next s => seqGo s c (seqNext q)
      | .op s => seqGo (seqNumber s c) c (seqNext q)
      | .jump s p => seqGo s c ⟨p, 0⟩
      | .stall => s
      | .fault cause faddr => seqFault s c q cause faddr (wordAddr q.pc).toNat)
  | _ => .fault .noIssuer

/-- A q register. -/
def qReg (q : Seq) (x : BitVec 4) : Word := tgetD 0 q.q x.toNat

/-- Write a q register. -/
def setQ (s : State) (c : Nat) (q : Seq) (x : BitVec 4) (v : Word) : State :=
  setSeq s c { q with q := tputD 0 q.q x.toNat v }

/-- STREAM_OPERATION_COMPLETION. -/
def execStreamOperationCompletion (c : Nat) (s : State) : Host.Outcome State Fault Refusal := .next (seqComplete s c)

/-! The clause of a stream (R217). -/

/-- The header wait of a stream's clause: kind 1 on the recorded arrival (R217). -/
def seqWaitOver (s : State) (q : Seq) (h : Header) : Bool :=
  h.waitKind != 1 || (match tget q.arrRec h.waitArg.toNat, tget s.wgs q.wg with
    | some ph, some g => barDone g h.waitArg.toNat ph
    | _, _ => true)

/-- The sequencer fetches the clause at its PC and applies its wait. -/
def seqClause (s : State) (c : Nat) : State :=
  match seqOf s c with
  | none => s
  | some q =>
    if q.halted || q.held || decide (q.pc.idx ≠ 0) then s
    else match fetchClause s q.wg true q.pc.hdr with
      | .error (cause, fpc, fa) => seqFault s c q cause fa fpc
      | .ok (h, ws) =>
        let s := fetchSpent s q.wg
        if h.waitKind = 1 ∧ hNbar (hdrOf s q.wg) ≤ h.waitArg.toNat then seqFault s c q 0x40 0 q.pc.hdr.toNat
        else if seqWaitOver s q h then setSeq s c { q with code := ws, waitDone := true, pc := ⟨q.pc.hdr, 1⟩ }
        else s

/-! Shape registers (R231 to R233). -/

/-- The shape registers of the workgroup with one written. -/
def setSh (s : State) (wg : Nat) (n : Nat) (r : BitVec 512) : State :=
  match tget s.wgs wg with
  | none => s
  | some g => setWg s wg { g with sh := tputD 0 g.sh n r }

/-- A range of LM that the checks have passed holds data beyond repair (29 R408). -/
def lmSpoilt (s : State) (wg a n : Nat) : Bool := match lmAt s wg a n with
  | none => false
  | some (t, off) => poisoned s (lmPlace t off) n

def execShld (x y : BitVec 4) (s : State) : Host.Outcome State Fault Refusal :=
  seqWord s (fun s _ q =>
    let a := (qReg q y).toNat
    if a % 64 ≠ 0 then .fault 0x11 a
    else match lmRangeBad s q.wg a 64 with
      | some e => .fault e a
      | none =>
        let t := (lmAt s q.wg a 64).getD (q.wg, 0)
        if lmSpoilt s q.wg a 64 then .fault 0x1F a
        else .op (setSh s q.wg x.toNat (BitVec.ofNat 512 (leNat (lmBytes s t.1 t.2 64)))))

/-- The field of a shape record that a selector names: high and low bit (R232). -/
def shField (sel : Nat) : Option (Nat × Nat) :=
  match sel with
  | 0x00 => some (56, 0)
  | 0x01 => some (60, 57)
  | 0x02 => some (63, 61)
  | 0x03 => some (117, 64)
  | 0x04 => some (118, 118)
  | 0x30 => some (427, 420)
  | 0x31 => some (435, 428)
  | 0x40 => some (439, 436)
  | 0x41 => some (443, 440)
  | 0x42 => some (447, 444)
  | 0x43 => some (451, 448)
  | 0x44 => some (455, 452)
  | 0x45 => some (459, 456)
  | 0x46 => some (463, 460)
  | 0x47 => some (467, 464)
  | 0x48 => some (499, 468)
  | _ =>
    if 0x10 ≤ sel ∧ sel ≤ 0x15 then some (149 + 22 * (sel - 0x10), 128 + 22 * (sel - 0x10))
    else if 0x21 ≤ sel ∧ sel ≤ 0x25 then some (259 + 32 * (sel - 0x20), 228 + 32 * (sel - 0x20))
    else none

/-- A record after SHSET (R232). -/
def shSet (r : BitVec 512) (sel v : Nat) : BitVec 512 :=
  if sel = 0x80 then setField r 56 0 ((shBase r + v) % 2 ^ 57)
  else match shField sel with
    | some (hi, lo) => setField r hi lo v
    | none => r

def execShset (x y z : BitVec 4) (sel : Fld) (s : State) : Host.Outcome State Fault Refusal :=
  seqWord s (fun s _ q =>
    let v := (qReg q z).toNat * 2 ^ 32 + (qReg q y).toNat
    .op (setSh s q.wg x.toNat (shSet (shReg s q.wg x.toNat) sel.toNat v)))
def execShcopy (x y : BitVec 4) (s : State) : Host.Outcome State Fault Refusal :=
  seqWord s (fun s _ q => .op (setSh s q.wg x.toNat (shReg s q.wg y.toNat)))

/-! Elements in LM (R224). -/

/-- A shape record that names LM is malformed by its place (R224). -/
def lmShapeBad (r : BitVec 512) : Bool := decide (2 ^ 32 ≤ shBase r) || decide (2 ^ 32 ≤ shScale r)

/-- The byte address of the unit that holds an element. -/
def unitAddr (r : BitVec 512) (d : List Nat) : Nat :=
  let rest := shLin r d - d.getD 0 0
  if isTE (shFmt r) then shBase r + (d.getD 0 0 / 16 + rest / 16) * unitBytes (shFmt r)
  else shBase r + shLin r d * unitBytes (shFmt r)

/-- The byte address of an element's scale (R80): dimensions 1 to 5, the innermost first. -/
def scaleAddr (r : BitVec 512) (d : List Nat) : Nat :=
  let rest := d.getD 1 0 + shExt r 1 * (d.getD 2 0 + shExt r 2 * (d.getD 3 0 + shExt r 3 *
    (d.getD 4 0 + shExt r 4 * d.getD 5 0)))
  shScale r + d.getD 0 0 / 8 + shExt r 0 / 8 * rest

/-- An element is inside (R224). -/
def inside (r : BitVec 512) (d : List Nat) : Bool := (List.range (shRank r)).all (fun n => decide (d.getD n 0 < shExt r n))

/-- The bytes of a range of LM that the checks have passed. -/
def lmRead (s : State) (wg a n : Nat) : Nat :=
  match lmAt s wg a n with
  | none => 0
  | some (t, off) => leNat (lmBytes s t off n)

/-- The value of an element inside, scaled where the record says so (R224, R80). -/
def elemRead (s : State) (wg : Nat) (r : BitVec 512) (d : List Nat) : FVal :=
  let f := shFmt r
  let u := lmRead s wg (unitAddr r d) (unitBytes f)
  let v := if isTE f then teElem (teM f) u (d.getD 0 0 % 16) else elemVal f u
  if shScale r = 0 then v else scaledVal (lmRead s wg (scaleAddr r d) 1) v

/-- The LM checks of an element: its unit, and its scale byte. -/
def elemBad (s : State) (wg : Nat) (r : BitVec 512) (d : List Nat) : Option (Nat × Nat) :=
  match lmRangeBad s wg (unitAddr r d) (unitBytes (shFmt r)) with
  | some c => some (c, unitAddr r d)
  | none =>
    if shScale r = 0 then none
    else (lmRangeBad s wg (scaleAddr r d) 1).map (fun c => (c, scaleAddr r d))

/-- The first LM finding of a list of elements, those inside. -/
def elemsBad (s : State) (wg : Nat) (r : BitVec 512) (ds : List (List Nat)) : Option (Nat × Nat) :=
  (ds.filter (inside r)).findSome? (elemBad s wg r)

/-- An element or its scale holds data beyond repair. -/
def elemSpoilt (s : State) (wg : Nat) (r : BitVec 512) (d : List Nat) : Option (Nat × Nat) :=
  if lmSpoilt s wg (unitAddr r d) (unitBytes (shFmt r)) || (shScale r != 0 && lmSpoilt s wg (scaleAddr r d) 1) then
    some (0x1F, unitAddr r d)
  else none

/-- The first finding of a list of elements that an operation reads. -/
def operandBad (s : State) (wg : Nat) (r : BitVec 512) (ds : List (List Nat)) : Option (Nat × Nat) :=
  (elemsBad s wg r ds).orElse (fun _ =>
    if s.poison.isEmpty then none else (ds.filter (inside r)).findSome? (elemSpoilt s wg r))

/-- A range of a sequencer's matrix storage holds data beyond repair (29 R406). -/
def storeSpoilt (q : Seq) (a n : Nat) : Bool := q.spoilt.any (fun p => decide (a ≤ p) && decide (p < a + n))

/-- The matrix storage once a range of it has been written. -/
def storeClean (q : Seq) (a n : Nat) : Seq :=
  { q with spoilt := q.spoilt.filter (fun p => !(decide (a ≤ p) && decide (p < a + n))) }

/-- A weight-buffer range holds data beyond repair. -/
def wbSpoilt (q : Seq) (a n : Nat) : Bool := storeSpoilt q a n

/-- Where a tile's bytes stand in the matrix storage. -/
def tilePlace (t : Nat) : Nat := 2 ^ 20 + 65536 * t

/-- An accumulator tile holds data beyond repair. -/
def accSpoilt (q : Seq) (t : Nat) : Bool := storeSpoilt q (tilePlace t) 65536

/-! The weight buffer (R225 to R227). -/

def wbufSize : Nat := 524288

/-- Bytes of the weight buffer, as a number. -/
def wbNum (q : Seq) (a n : Nat) : Nat := leNat ((List.range n).map (fun i => tgetD 0 q.wbuf (a + i)))

/-- A weight-buffer range is refused (R225). -/
def wbBad (a n : Nat) : Bool := decide (a % 64 ≠ 0 ∨ wbufSize < a + n)

/-- K of a suffix (R226). -/
def sufK (f : Nat) : Nat := match f with
  | 0 => 128
  | 2 => 32
  | 6 => 16
  | 7 => 16
  | _ => 64

/-- The format of B by suffix (R236). -/
def sufB (f : Nat) : Nat := match f with
  | 0 => shTe4
  | 1 => shTe6
  | 2 => shTe9
  | 3 => shE4m3
  | 4 => shE5m2
  | 5 => shInt8
  | 6 => shBf16
  | _ => shFp16

/-- The formats accepted for A by suffix (R236). -/
def sufA (f : Nat) : List Nat := match f with
  | 0 => [6]
  | 1 => [7, 6]
  | 2 => [8, 7, 6]
  | 3 => [3, 4]
  | 4 => [3, 4]
  | 5 => [5]
  | 6 => [2]
  | _ => [1]

/-- Element n of a run of packed elements at a weight-buffer offset. -/
def wbElem (q : Seq) (f base n : Nat) : FVal :=
  let u := wbNum q (base + n / unitElems f * unitBytes f) (unitBytes f)
  if isTE f then teElem (teM f) u (n % 16) else elemVal f u

/-- Bytes of n packed elements. -/
def wbBytes (f n : Nat) : Nat := n / unitElems f * unitBytes f

/-- The dense panel's element B[k][j] (R226, R228). -/
def denseB (q : Seq) (f kk base : Nat) (scaled : Bool) (k j : Nat) : FVal :=
  let v := wbElem q f base (j * kk + k)
  if scaled then scaledVal (wbNum q (base + wbBytes f (128 * kk) + j * (kk / 8) + k / 8) 1) v else v

/-- The metadata nibble of a group of four rows of a column (R227). -/
def nibble (q : Seq) (f kk base j g : Nat) : Nat :=
  wbNum q (base + wbBytes f (64 * kk) + j * (kk / 8) + g / 2) 1 / 2 ^ (4 * (g % 2)) % 16

/-- A nibble that R227 refuses. -/
def nibbleBad (n : Nat) : Bool := decide (n / 4 ≤ n % 4)

/-- Some nibble of a sparse panel is refused (R227: 0x36). -/
def panelBad (q : Seq) (f kk base : Nat) : Bool :=
  (List.range 128).any (fun j => (List.range (kk / 4)).any (fun g => nibbleBad (nibble q f kk base j g)))

/-- The expanded sparse panel's element B[k][j] (R227, R87). -/
def sparseB (q : Seq) (f kk base : Nat) (scaled : Bool) (k j : Nat) : FVal :=
  let n := nibble q f kk base j (k / 4)
  let at_ (r : Nat) : FVal := wbElem q f base (j * (kk / 2) + 2 * (k / 4) + r)
  let v := if k % 4 = n % 4 then at_ 0 else if k % 4 = n / 4 then at_ 1 else .fin false 0 0
  if scaled then scaledVal (wbNum q (base + wbBytes f (64 * kk) + 16 * kk + j * (kk / 8) + k / 8) 1) v else v

/-- Bytes of a panel (R226, R227). -/
def panelBytes (f kk : Nat) (sparse scaled : Bool) : Nat :=
  (if sparse then wbBytes f (64 * kk) + 16 * kk else wbBytes f (128 * kk)) + (if scaled then 16 * kk else 0)

/-! Accumulator tiles. -/

/-- The element acc t [i][j]. -/
def accAt (q : Seq) (t i j : Nat) : Word := tgetD 0 q.acc (t * 16384 + i * 128 + j)

/-- The accumulators with a whole tile replaced. -/
def setTile (q : Seq) (t : Nat) (g : Nat → Nat → Word) : Seq :=
  let tile := (List.range 16384).map (fun n => (t * 16384 + n, g (n / 128) (n % 128)))
  let q := storeClean q (tilePlace t) 65536
  { q with acc := q.acc.filter (fun e => decide (e.1 < t * 16384)) ++ tile.filter (fun e => e.2 != 0) ++
      q.acc.filter (fun e => decide ((t + 1) * 16384 ≤ e.1)) }

/-- The groups of 16 of a list. -/
def groups16 {α : Type} (l : List α) : List (List α) :=
  (List.range ((l.length + 15) / 16)).map (fun g => (l.drop (16 * g)).take 16)

/-- Accumulate a row of A and a column of B into an element, group by group (R86). -/
def accumulate (old : Word) (a b : List FVal) : Word :=
  BitVec.ofNat 32 ((groups16 (List.zipWith mprod a b)).foldl (fun x g => addRn x (groupSum g)) old.toNat)

/-- A matrix operation on a tile, from the elements of A and B (R236). -/
def mmaTile (q : Seq) (t kk : Nat) (a : Nat → Nat → FVal) (b : Nat → Nat → FVal) : Seq :=
  let rows := (List.range 128).map (fun i => (List.range kk).map (a i))
  let cols := (List.range 128).map (fun j => (List.range kk).map (fun k => b k j))
  setTile q t (fun i j => accumulate (accAt q t i j) (rows.getD i []) (cols.getD j []))

def execMzero (x : BitVec 4) (s : State) : Host.Outcome State Fault Refusal :=
  seqWord s (fun s c q => .op (setSeq s c (setTile q x.toNat (fun _ _ => 0))))

/-! Weight loads (R234). -/

/-- The units of an image in its order: offset in the image and in the tensor; TRANS exchanges dimensions 0 and 1. -/
def imageUnits (r : BitVec 512) : List (Nat × Nat) :=
  if shTrans r then
    let n0 := shExt r 0
    let n1 := shExt r 1
    let us := bulkUnits r
    let b := unitBytes (shFmt r)
    us.map (fun u =>
      let i := u.1 / b
      let d0 := i % n0
      let d1 := i / n0 % n1
      let hi := i / (n0 * n1)
      ((d1 + n1 * (d0 + n0 * hi)) * b, u.2))
  else bulkUnits r

def execWload (x y : BitVec 4) (s : State) : Host.Outcome State Fault Refusal :=
  seqWord s (fun s c q =>
    let r := shReg s q.wg x.toNat
    let f := shFmt r
    let n := unitBytes f
    let off := (qReg q y).toNat
    let us := imageUnits r
    if shapeBad r || shScale r != 0 || (shTrans r && isTE f) then .fault 0x34 0
    else if wbBad off (us.length * n) then .fault 0x35 0
    else match sideGlobalBad s q.wg needR (sidePieces ⟨false, shBase r⟩ (us.map (fun u => (u.2, n)))) with
      | some (e, a) => .fault e a
      | none =>
        match us.find? (fun u => dataPoisoned s q.wg (shBase r + u.2) (gridXlate s q.wg (shBase r + u.2)).1 n) with
        | some u => .fault 0x1F (shBase r + u.2)
        | none =>
        let (buf, s) := us.foldl (fun (x : Tbl Byte × State) u =>
          (List.range n).foldl (fun (x : Tbl Byte × State) i =>
            let (bs, s) := readLoc x.2 q.wg (gLoc x.2 q.wg (shBase r + u.2 + i)) 1
            (tputD 0 x.1 (off + u.1 + i) (bs.headD 0), s)) x) (q.wbuf, s)
        match seqOf s c with
        | none => .op s
        | some q => .op (setSeq s c { (storeClean q off (us.length * n)) with wbuf := buf }))

/-! Matrix operations (R236 to R239). -/

/-- The operation is scaled (R228). -/
def scaledOp (f : Nat) (r : BitVec 512) : Bool := decide (3 ≤ f) && decide (f ≤ 5) && shScale r != 0

/-- The index vector that A[i][k] names (R236). -/
def aIdx (r : BitVec 512) (i kk : Nat) : List Nat := if shTrans r then [i, kk] else [kk, i]

/-- A's element, or +0 outside. -/
def aElem (s : State) (wg : Nat) (r : BitVec 512) (d : List Nat) : FVal :=
  if inside r d then elemRead s wg r d else .fin false 0 0

/-- MMA and MMAS: their checks in the order of R229, and the tile. -/
def mmaWord (f : BitVec 3) (x y z w : BitVec 4) (sparse : Bool) (s : State) : Host.Outcome State Fault Refusal :=
  seqWord s (fun s c q =>
    let fn := f.toNat
    let kk := sufK fn
    let r := shReg s q.wg y.toNat
    let qk := (qReg q w).toNat
    let qb := (qReg q z).toNat
    let sc := scaledOp fn r
    let bf := sufB fn
    let ds := (List.range 128).flatMap (fun i => (List.range kk).map (fun k => aIdx r i (qk + k)))
    if shapeBad r || shRank r != 2 || !(sufA fn).contains (shFmt r) || lmShapeBad r || (shTrans r && isTE (shFmt r)) then
      .fault 0x34 0
    else if qk % 16 ≠ 0 then .fault 0x37 0
    else if wbBad qb (panelBytes bf kk sparse sc) then .fault 0x35 0
    else match operandBad s q.wg r ds with
      | some (e, a) => .fault e a
      | none =>
        if wbSpoilt q qb (panelBytes bf kk sparse sc) || accSpoilt q x.toNat then .fault 0x1F 0
        else if sparse && panelBad q bf kk qb then .fault 0x36 0
        else .op (setSeq s c (mmaTile q x.toNat kk (fun i k => aElem s q.wg r (aIdx r i (qk + k)))
          (if sparse then sparseB q bf kk qb sc else denseB q bf kk qb sc))))

def execMma (f : BitVec 3) (x y z w : BitVec 4) (s : State) := mmaWord f x y z w false s
def execMmas (f : BitVec 3) (x y z w : BitVec 4) (s : State) := mmaWord f x y z w true s

/-- The slice pairs of MMA32 in their order (R89). -/
def slicePairs : List (Nat × Nat) := [(2, 0), (0, 2), (1, 1), (1, 0), (0, 1), (0, 0)]

/-- One slice of an element; outside the pair (0, 0) a non-finite element counts as +0 (R88). -/
def sliceOf (n : Nat) (lone : Bool) (x : Nat) : FVal :=
  let t := slices x
  let v := match n with
    | 0 => t.1
    | 1 => t.2.1
    | _ => t.2.2
  if lone then v else sliceOrZero v

/-- An element of a tile after MMA32, from FP32 patterns of A's row and B's column (R89). -/
def accumulate32 (old : Word) (a b : List Nat) : Word :=
  BitVec.ofNat 32 (slicePairs.foldl (fun x p =>
    let lone := p == (0, 0)
    addRn x (groupSum (List.zipWith (fun u v => mprod (sliceOf p.1 lone u) (sliceOf p.2 lone v)) a b))) old.toNat)

/-- The FP32 pattern of an element of A, or +0 outside. -/
def aBits (s : State) (wg : Nat) (r : BitVec 512) (d : List Nat) : Nat :=
  if inside r d then lmRead s wg (unitAddr r d) 4 else 0

def execMma32 (x y z w : BitVec 4) (s : State) : Host.Outcome State Fault Refusal :=
  seqWord s (fun s c q =>
    let r := shReg s q.wg y.toNat
    let qk := (qReg q w).toNat
    let qb := (qReg q z).toNat
    let ds := (List.range 128).flatMap (fun i => (List.range 16).map (fun k => aIdx r i (qk + k)))
    if shapeBad r || shRank r != 2 || shFmt r != shFp32 || lmShapeBad r then .fault 0x34 0
    else if qk % 16 ≠ 0 then .fault 0x37 0
    else if wbBad qb 8192 then .fault 0x35 0
    else match operandBad s q.wg r ds with
      | some (e, a) => .fault e a
      | none =>
        if wbSpoilt q qb 8192 || accSpoilt q x.toNat then .fault 0x1F 0 else
        let rows := (List.range 128).map (fun i => (List.range 16).map (fun k => aBits s q.wg r (aIdx r i (qk + k))))
        let cols := (List.range 128).map (fun j => (List.range 16).map (fun k => wbNum q (qb + 4 * (j * 16 + k)) 4))
        .op (setSeq s c (setTile q x.toNat (fun i j =>
          accumulate32 (accAt q x.toNat i j) (rows.getD i []) (cols.getD j [])))))

/-- The value of a padding element (R239). -/
def padValue (r : BitVec 512) : FVal :=
  let f := shFmt r
  let p := shPadVal r
  if isTE f then teElem (teM f) (tePack (teM f) (List.replicate 16 (fdec fp32 p))).1 0
  else if f = shInt8 then elemVal f (convertTo f 0 (ofInt (sInt 32 p))).1
  else elemVal f (convertTo f 0 (fdec fp32 p)).1

/-- Images of a convolution's record. -/
def convImages (r : BitVec 512) : Nat := if shRank r = 3 then 1 else shExt r 3

/-- Where A[i][k] of a convolution lies: nothing past the last image, the padding, or an element (R239). -/
def convAt (r : BitVec 512) (t koff i k : Nat) : Option (Option (List Nat)) :=
  let ow := shBox0 r
  let oh := shBox1 r
  let c := shExt r 0
  let p := 128 * t + i
  let n := p / (ow * oh)
  if convImages r ≤ n then none
  else
    let kk := koff + k
    let wx := kk / c % shWinX r
    let wy := kk / c / shWinX r
    let x : Int := ((p % ow * shStepX r + wx * shDilX r : Nat) : Int) - shPadX r
    let y : Int := ((p / ow % oh * shStepY r + wy * shDilY r : Nat) : Int) - shPadY r
    if 0 ≤ x ∧ x < shExt r 1 ∧ 0 ≤ y ∧ y < shExt r 2 then some (some [kk % c, x.toNat, y.toNat, n]) else some none

def execConv (f : BitVec 3) (x y z w : BitVec 4) (s : State) : Host.Outcome State Fault Refusal :=
  seqWord s (fun s c q =>
    let fn := f.toNat
    let kk := sufK fn
    let r := shReg s q.wg y.toNat
    let qw := qReg q w
    let t := field qw 31 20
    let koff := field qw 19 0
    let qb := (qReg q z).toNat
    let sc := scaledOp fn r
    let bf := sufB fn
    let kt := shWinX r * shWinY r * shExt r 0
    let ds := (List.range 128).flatMap (fun i => (List.range kk).filterMap (fun k => (convAt r t koff i k).join))
    if shapeBad r || !(shRank r == 3 || shRank r == 4) || !(sufA fn).contains (shFmt r) || lmShapeBad r || shTrans r ||
        shExt r 0 % kk != 0 then .fault 0x34 0
    else if koff % kk ≠ 0 ∨ kt < koff + kk then .fault 0x37 0
    else if wbBad qb (panelBytes bf kk false sc) then .fault 0x35 0
    else match operandBad s q.wg r ds with
      | some (e, a) => .fault e a
      | none => if wbSpoilt q qb (panelBytes bf kk false sc) || accSpoilt q x.toNat then .fault 0x1F 0 else
        .op (setSeq s c (mmaTile q x.toNat kk
          (fun i k => match convAt r t koff i k with
            | none => .fin false 0 0
            | some none => padValue r
            | some (some d) => elemRead s q.wg r d)
          (denseB q bf kk qb sc))))

/-! Moving tiles (R240, R241) and elementwise functions (R242). -/

/-- The bytes that MST writes: LM address and byte (R240). -/
def mstBytes (q : Seq) (r : BitVec 512) (t : Nat) (tr : Bool) : List (Nat × Byte) :=
  let f := shFmt r
  let n0 := min (shExt r 0) 128
  let n1 := min (shExt r 1) 128
  let bits (d0 d1 : Nat) : Nat := (if tr then accAt q t d0 d1 else accAt q t d1 d0).toNat
  let put (a n v : Nat) : List (Nat × Byte) := (List.range n).map (fun i => (a + i, BitVec.ofNat 8 (v / 2 ^ (8 * i))))
  (List.range n1).flatMap (fun d1 =>
    if isTE f then (List.range (n0 / 16)).flatMap (fun g =>
      put (unitAddr r [16 * g, d1]) (unitBytes f)
        (tePack (teM f) ((List.range 16).map (fun i => fdec fp32 (bits (16 * g + i) d1)))).1)
    else if shScale r ≠ 0 then (List.range (n0 / 8)).flatMap (fun g =>
      let sc := chooseScale f ((List.range 8).map (fun i => fdec fp32 (bits (8 * g + i) d1)))
      put (scaleAddr r [8 * g, d1]) 1 sc.1 ++
        (List.range 8).flatMap (fun i => put (unitAddr r [8 * g + i, d1]) 1 (sc.2.1.getD i 0)))
    else (List.range n0).flatMap (fun d0 =>
      put (unitAddr r [d0, d1]) (unitBytes f)
        (if f = shFp32 then bits d0 d1 else (convertTo f 0 (fdec fp32 (bits d0 d1))).1)))

/-- Write bytes at LM addresses that the checks have passed. -/
def lmWrites (s : State) (wg : Nat) (bs : List (Nat × Byte)) : State :=
  bs.foldl (fun s e => match lmAt s wg e.1 1 with
    | none => s
    | some (t, off) => writeLm s none t off [e.2]) s

/-- MST: the tile accX goes to LM through the record shY (R240, R248, R249). -/
def execMst (x y : BitVec 4) (t : Fld) (s : State) : Host.Outcome State Fault Refusal :=
  seqWord s (fun s _ q =>
    let r := shReg s q.wg y.toNat
    let ds := (List.range (min (shExt r 1) 128)).flatMap (fun d1 => (List.range (min (shExt r 0) 128)).map (fun d0 => [d0, d1]))
    if shapeBad r || shRank r != 2 || shTrans r || lmShapeBad r then .fault 0x34 0
    else match elemsBad s q.wg r ds with
      | some (e, a) => .fault e a
      | none =>
        if accSpoilt q x.toNat then .fault 0x1F 0
        else .op (lmWrites s q.wg (mstBytes q r x.toNat (t.getLsbD 0))))

def execMld (x y : BitVec 4) (s : State) : Host.Outcome State Fault Refusal :=
  seqWord s (fun s c q =>
    let r := shReg s q.wg y.toNat
    let idx (i j : Nat) : List Nat := if shTrans r then [i, j] else [j, i]
    let ds := (List.range 128).flatMap (fun i => (List.range 128).map (idx i))
    if shapeBad r || shRank r != 2 || lmShapeBad r || (shTrans r && isTE (shFmt r)) then .fault 0x34 0
    else match operandBad s q.wg r ds with
      | some (e, a) => .fault e a
      | none => .op (setSeq s c (setTile q x.toNat (fun i j =>
          if inside r (idx i j) then BitVec.ofNat 32 (roundVal fp32 0 (elemRead s q.wg r (idx i j))).1 else 0))))

/-- The elementwise function of MACT (R242). -/
def mactFn (fn : Fld) (x : Word) : Word :=
  let v := fdec fp32 x.toNat
  if v.isNan then 0x7FC00000
  else if fn.getLsbD 7 then BitVec.ofNat 32 (roundVal fp32 0 (scaleBy ((fn.extractLsb' 0 7).toInt) v)).1
  else match fn.toNat with
    | 0 => if x.msb then 0 else x
    | 1 => x &&& 0x7FFFFFFF
    | _ => x ^^^ 0x80000000

def execMact (x : BitVec 4) (fn : Fld) (s : State) : Host.Outcome State Fault Refusal :=
  seqWord s (fun s c q =>
    if accSpoilt q x.toNat then .fault 0x1F 0
    else .op (setSeq s c (setTile q x.toNat (fun i j => mactFn fn (accAt q x.toNat i j)))))

/-! Sequencing (R220, R221, R243 to R247, R109). -/

/-- The barrier index is one that the workgroup may use (R243). -/
def seqBar (s : State) (q : Seq) (n : Fld) (go : Workgroup → SEff) : SEff :=
  match tget s.wgs q.wg with
  | none => .stall
  | some g => if hNbar (hdrOf s q.wg) ≤ n.toNat then .fault 0x40 0 else go g

def execSqbar (n : Fld) (s : State) : Host.Outcome State Fault Refusal :=
  seqWord s (fun s c q => seqBar s q n (fun g =>
    if !q.flight.isEmpty then .stall
    else
      let b := barOf g n.toNat
      if b.deflt then .next s
      else .next (setWg (setSeq s c { q with arrRec := tput q.arrRec n.toNat b.phase }) q.wg (barArrive g n.toNat))))
def execSqwait (n : Fld) (s : State) : Host.Outcome State Fault Refusal :=
  seqWord s (fun s c q => seqBar s q n (fun g =>
    let u := tgetD 0 q.consumed n.toNat
    let f : Word := BitVec.ofNat 32 (barOf g n.toNat).phase
    if 0 < (f - u).toInt then .next (setSeq s c { q with consumed := tput q.consumed n.toNat (u + 1) }) else .stall))
def execSqloop (x : BitVec 4) (s : State) : Host.Outcome State Fault Refusal :=
  seqWord s (fun s c q =>
    if qReg q x = 0 ∨ 4 ≤ q.loops.length then .fault 0x38 0
    else .next (setSeq s c { q with loops := (nextHdr q.pc.hdr q.code.length, (qReg q x).toNat) :: q.loops }))

/-- The target of a stream branch (R108, R244). -/
def seqTarget (q : Seq) (off : BitVec 20) : DWord := q.pc.hdr + (off.signExtend 64 <<< 2)

def execSqend (off : BitVec 20) (s : State) : Host.Outcome State Fault Refusal :=
  seqWord s (fun s c q =>
    match q.loops with
    | [] => .fault 0x38 0
    | (head, n) :: r =>
      if seqTarget q off ≠ head then .fault 0x38 0
      else if 1 < n then .jump (setSeq s c { q with loops := (head, n - 1) :: r }) head
      else .next (setSeq s c { q with loops := r }))
def execSqbra (x : BitVec 4) (off : BitVec 20) (s : State) : Host.Outcome State Fault Refusal :=
  seqWord s (fun s _ q => if qReg q x = 0 then .next s else .jump s (seqTarget q off))
def execSqhalt (s : State) : Host.Outcome State Fault Refusal :=
  seqWord s (fun s c q => .next (setSeq s c { q with halted := true }))
def execSqtl (x y : BitVec 4) (s : State) : Host.Outcome State Fault Refusal :=
  seqWord s (fun s _ q =>
    let ctx := ctxOfWg s q.wg
    if !handleOk s ctx (qReg q x) then .fault 0x1C 0
    else if reached (BitVec.ofNat 32 (handleVal s ctx (qReg q x))) (qReg q y) then .next s else .stall)
def execSqsetLiteral (x : BitVec 4) (lit : Word) (s : State) : Host.Outcome State Fault Refusal :=
  seqWord s (fun s c q => .next (setQ s c q x lit))
def execSqsetUniform (x : BitVec 4) (b : Fld) (s : State) : Host.Outcome State Fault Refusal :=
  seqWord s (fun s c q =>
    let (v, s) := bRead s q.wg b.toNat none
    .next (setQ s c q x v))
def execSqadd (x y z : BitVec 4) (s : State) : Host.Outcome State Fault Refusal :=
  seqWord s (fun s c q => .next (setQ s c q x (qReg q y + qReg q z)))

/-- CLAUSE_ISSUE (R94, R143): the agent whose turn it is, a warp or a block sequencer that stands between clauses, looks
at what it waits for and issues its next clause. -/
def execClauseIssue (s : State) : Host.Outcome State Fault Refusal :=
  match s.issuer with
  | .warp k => .next (warpClause s k)
  | .seq c => .next (seqClause s c)
  | _ => .next s

end Sys2Proof.Machine
end

