-- ==== Sys2Proof/Machine/Sched.lean ====
section
/-! DEFINITION. The package scheduler (01 R26 to R29, 21 R312), save and restore (R322, R325), drains (R320, R321), the
urgent freeze (R322), kills (R324), the completion of a grid (01 R46, 11 R178) and the rounds of continuity mode
(R316). -/

namespace Sys2Proof.Machine

/-! What a placement needs of a core (R26). -/

/-- What a member needs of the core that takes it: warp slots, frames, bins, LM bytes, a workgroup place, the sequencer, and
the hardware queues that come back with it by number; and the core where it already stands, if it stands on one. -/
structure Room where
  at_ : Option Nat
  slots : Nat
  frames : Nat
  bins : Nat
  lm : Nat
  place : Bool
  seq : Bool
  queues : List Nat
deriving DecidableEq, Repr

/-- The resident workgroups of a core. -/
def wgsOn (s : State) (c : Nat) : List (Nat × Workgroup) := s.wgs.filter (fun e => e.2.core == some c)

/-- The LM of a core in bytes. -/
def lmTotal : Nat := 999424

/-- The LM regions of a core in use, by start and size (11 R155, R156). -/
def lmRegions (s : State) (c : Nat) : List (Nat × Nat) := (wgsOn s c).map (fun e => (e.2.lmBase, hLmSize (hdrOf s e.1)))

/-- Where a contiguous region of some bytes fits in the LM of a core: it starts at the core's first byte or behind another
region, and as every size is a multiple of 256, so is every start (R156). The scheduler chooses where: the model takes the
lowest place (DESIGN CHOICE, log 101). -/
def lmFit (s : State) (c size : Nat) : Option Nat :=
  let rs := lmRegions s c
  let free (b : Nat) : Bool :=
    decide (b + size ≤ lmTotal) && rs.all (fun r => decide (b + size ≤ r.1) || decide (r.1 + r.2 ≤ b))
  ((0 :: rs.map (fun r => r.1 + r.2)).filter free).min?

/-- The sequencer of a core can be held by a further workgroup: the place of an MX workgroup that has ended stays claimed
until its gang retires (R26, R28, R216). -/
def seqFree (s : State) (c : Nat) : Bool :=
  (coreRec s c).seq.isNone && !(wgsOn s c).any (fun e => e.2.ended && hMx (hdrOf s e.1))

/-- Free warp slots of a core in ascending order. -/
def freeSlots64 (s : State) (c : Nat) : List Nat := (List.range 64).filter (fun i => (tget s.warps (64 * c + i)).isNone)

/-- A hardware queue of a core is neither enabled nor being enabled (17 R269). -/
def hwqFree (s : State) (k : Nat) : Bool := !hqEn (hwqRec s k).desc && (hwqRec s k).enabling.isNone

/-- A core has what a member needs (R26): it is enabled, and its die has ended its initialisation (29 R411). -/
def coreFits (s : State) (c : Nat) (r : Room) : Bool :=
  coreOn s c && s.ready.getLsbD (2 + dieOf c) && (r.at_ == none || r.at_ == some c) &&
    decide (r.slots ≤ (freeSlots64 s c).length) && decide (framesUsed s c + r.frames ≤ 128) &&
    decide ((coreRec s c).bins.length + r.bins ≤ 16) &&
    (!r.place || ((lmFit s c r.lm).isSome && decide ((wgsOn s c).length < 8))) &&
    (!r.seq || seqFree s c) && r.queues.all (fun q => hwqFree s (8 * c + q))

/-- The ways to put members on different cores of one cluster (R27). -/
def assigns (s : State) (cl : Nat) : List Room → List Nat → List (List Nat)
  | [], _ => [[]]
  | r :: rs, used =>
    (((List.range 4).map (4 * cl + ·)).filter (fun c => !used.contains c && coreFits s c r)).flatMap
      (fun c => (assigns s cl rs (c :: used)).map (c :: ·))

/-- Every way to place a gang on the package. -/
def placements (s : State) (rs : List Room) : List (List Nat) := (List.range 64).flatMap (fun cl => assigns s cl rs [])

/-- One of the ways, which the scheduler picks. -/
def pickPlace (s : State) (rs : List Room) (pick : Nat) : Option (List Nat) :=
  let ps := placements s rs
  ps[pick % max 1 ps.length]?

/-! Placing a new gang (R14, R27, R36, R47). -/

/-- The threads of warp k of a workgroup (R10, R14). -/
def launchThreads (h : BitVec 1024) (wg k : Nat) : Tbl Thread :=
  ((List.range 32).filter (fun l => decide (32 * k + l < hN h))).map (fun l =>
    (l, freshThread ⟨wg, false, 32 * k + l, false⟩ (hEntry h) (widOf h (wgNumber wg) (32 * k + l))))

/-- Form the launch warps of a workgroup. Which of its core's free slots they take is the scheduler's choice (R19): the model
takes the lowest ones in warp order (DESIGN CHOICE, log 100). -/
def formWarps (s : State) (h : BitVec 1024) (wg c : Nat) : State :=
  ((List.range (hWarps h)).zip (freeSlots64 s c)).foldl (fun s e =>
    let (age, s) := freshId s
    setWarp s (64 * c + e.2) (freshWarp wg .launch e.1 (roleOf h e.1) age (launchThreads h wg e.1))) s

/-- A sequencer at the start of its stream (R217). -/
def freshSeq (h : BitVec 1024) (wg age : Nat) : Seq :=
  ⟨wg, ⟨hStream h, 0⟩, false, [], [], [], [], [], [], [], false, [], [], false, age, []⟩

/-- A member on its core: its workgroup, its warps, and with MX the sequencer (R26, R47, R216). -/
def placeMember (serial : Nat) (g : Grid) (begun : Bool) (s : State) (m : Nat × Nat) : State :=
  let h := g.hdr
  let wg := serial * 2 ^ 64 + wgNumberOf h g.nextGang m.1
  let s := setWg s wg ⟨wgNumberOf h g.nextGang m.1, g.nextGang, m.1, some m.2, begun, (lmFit s m.2 (hLmSize h)).getD 0,
    [], [], [], 0, [], [], [], 0, 0, hN h, false⟩
  let s := formWarps s h wg m.2
  if hMx h then
    let (age, s) := freshId s
    setCore s m.2 { coreRec s m.2 with seq := some (freshSeq h wg age) }
  else s

/-- The room that each member of a new gang needs. -/
def gangRoom (h : BitVec 1024) : List Room :=
  List.replicate (hGangSize h) ⟨none, hWarps h, 0, 0, hLmSize h, true, hMx h, []⟩

/-- A gang stands on its cores: the next gang of its grid waits from now (R312); the first gang acknowledges to the start
gate, or where there is none lets the splicer starts of a CLAUNCH take effect (R31, 27 R393). -/
def placeGang (s : State) (serial : Nat) (g : Grid) (cores : List Nat) : State :=
  let begun := !hMulti g.hdr || g.gateOpen
  let s := ((List.range cores.length).zip cores).foldl (placeMember serial g begun) s
  let next := g.nextGang + 1
  let s := setGrid s serial { g with
    nextGang := next
    waitSince := cycleOf s 0
    limitHit := false
    stage := if next = g.lastGang then 7 else 5
    anyBegun := g.anyBegun || begun }
  let s := if begun && !g.anyBegun then claunchStart s g.ctx g.claunch else s
  gateAck s serial

/-! Save areas (R325). -/

/-- Bytes of a warp in the save area. -/
def warpBytes (w : Warp) : Nat := 9216 + 4096 * granules w.claimed
def binBytes (b : Bin) : Nat := 9216 + 4096 * granules b.claimed
def seqBytes : Nat := 1052672

/-- Bytes of the save area that hold what was written out from a core (R325). -/
def savedBytes (s : State) (ctx c : Nat) : Nat :=
  let xs := (ctxRec s ctx).saved.filter (fun x => x.core == c)
  xs.foldl (fun n x => n + (x.warps.map warpBytes).sum + (x.bins.map binBytes).sum +
      (if x.seq.isSome then seqBytes else 0) + (if x.whole then hLmSize (hdrOf s x.wg) + 4096 else 0)) 0 +
    (if xs.any (fun x => !x.tasks.isEmpty) then 65536 else 0) + (if xs.any (fun x => !x.census.isEmpty) then 4096 else 0)

/-- Further bytes fit into the save area of a context for a core (27 R384: SAVESZ). -/
def saveRoom (s : State) (ctx c n : Nat) : Bool :=
  let g := (s.grids.find? (fun e => e.2.ctx == ctx)).map (fun e => e.2.desc)
  decide (savedBytes s ctx c + n ≤ field (g.getD (descOf s ctx)) 527 512 * 4096)

/-- The record of a unit that the save area cannot hold (R325). -/
def saveBlame (wg thread lane src c slot : Nat) : Blame :=
  ⟨0x7A, 0, 0, wg, thread, 0, src, dieOf c, c % 64, slot, lane⟩

/-- What is saved of a workgroup that came from a core, so far. -/
def savedOf (s : State) (wg c : Nat) : SavedWg :=
  (((ctxRec s (ctxOfWg s wg)).saved.find? (fun x => x.wg == wg))).getD ⟨wg, c, false, [], [], none, ⟨0, [], 0⟩, [], [], [], []⟩

/-- A gang of a grid of which nothing was saved is now the grid's next gang: it waits from now (R29, R312). -/
def nextIsSaved (s : State) (wg : Nat) : State :=
  match gridOfWg s wg with
  | none => s
  | some g =>
    if (ctxRec s g.ctx).saved.any (fun x => serialOf x.wg == serialOf wg) then s
    else setGrid s (serialOf wg) { g with waitSince := cycleOf s 0, limitHit := false }

/-- Replace what is saved of a workgroup. -/
def putSaved (s : State) (x : SavedWg) : State :=
  let s := nextIsSaved s x.wg
  let ctx := ctxOfWg s x.wg
  let r := ctxRec s ctx
  setCtx s ctx { r with saved := r.saved.filter (fun y => y.wg != x.wg) ++ [x] }

/-! Seals (R325, 29 R405). The save area of a core is SAVESZ pages of the context's area, from SAVEBASE on (27 R384; log 9),
and every unit takes whole blocks of 256 bytes of it. -/

/-- The address of a block of the save area of a core. -/
def saveAt (d : BitVec 1024) (c b : Nat) : Nat := field d 511 448 + c * field d 527 512 * 4096 + 256 * b

/-- The physical address of a block of the save area of a core, if the context's tables map it to memory. -/
def saveBlock (s : State) (ctx : Nat) (d : BitVec 1024) (c b : Nat) : Option Nat :=
  match ctxXlate s ctx d needRW (saveAt d c b) 256 with
  | .ok (pa, _) => some pa
  | .error _ => none

/-- The bytes of a block of a sealed unit. -/
def sealBytes (unit i : Nat) : List Byte := (List.range 256).map (fun j => Config.sealByte unit (256 * i + j))

/-- The blocks of a sealed unit, each with its place in the unit. -/
def unitBlocks (bs : List Nat) : List (Nat × Nat) := (List.range bs.length).zip bs

/-- The lowest free blocks of the save area of a core. -/
def freeBlocks (s : State) (ctx c n : Nat) : List Nat :=
  let used := ((ctxRec s ctx).saved.filter (fun x => x.core == c)).flatMap (fun x => x.seals.flatMap (·.2))
  ((List.range (used.length + n)).filter (fun b => !used.contains b)).take n

/-- A unit of some bytes of a workgroup of a confidential context is written out: the save area takes its sealed bytes, the
tag among them (R405; log 12). -/
def sealUnit (s : State) (wg c n : Nat) : State :=
  match gridOfWg s wg with
  | none => s
  | some g =>
    if !g.desc.getLsbD 3 then s
    else
      let bs := freeBlocks s g.ctx c (n / 256)
      let (unit, s) := freshId s
      let s := (unitBlocks bs).foldl (fun s e => match saveBlock s g.ctx g.desc c e.2 with
        | some pa => writePhys (tablesSeen s g.desc [(saveAt g.desc c e.2, 256)]) pa (sealBytes unit e.1)
        | none => s) s
      let x := savedOf s wg c
      putSaved s { x with seals := x.seals ++ [(unit, bs)] }

/-- Some sealed unit of a workgroup does not stand in the save area as it was written: its tag fails (R405). -/
def sealFails (s : State) (x : SavedWg) : Bool :=
  match gridOfWg s x.wg with
  | none => false
  | some g => x.seals.any (fun u => (unitBlocks u.2).any (fun e => match saveBlock s g.ctx g.desc x.core e.2 with
      | some pa => (List.range 256).map (fun j => seenByte s (pa + j)) != sealBytes u.1 e.1
      | none => false))

/-- Outstanding loads that are not overdue arrive before a warp's registers are written out; the others stay pending (R322,
R334). -/
def arriveLoads (s : State) (k : Nat) (w : Warp) : State :=
  (w.pend.filter (fun e => !e.token && !lateAccess s k e)).foldl (fun s e => match tget s.warps k with
    | none => s
    | some w => warpArrives s k w e) s

/-- The bytes of the lines that a take watches, as it sees them: of LM, or of memory with what stands in a dirty stash line
(R287, R297, 11 R157). -/
def watchedBytes (s : State) (tk : Take) : Tbl Byte :=
  let lines := (tk.readSet ++ tk.writeSet).dedup
  lines.flatMap (fun n => (List.range 128).map (fun i => (128 * n + i, seenByte s (128 * n + i))))

/-- A thread that stops with its warp: a SLEEP keeps the rest of its count (R153). -/
def stopSleep (now : Nat) (t : Thread) : Thread :=
  match t.wait with
  | .sleep u => { t with wait := .slept (u - now) }
  | _ => t

/-- A thread as it goes on: its SLEEP ends a rest after now. -/
def goSleep (now : Nat) (t : Thread) : Thread :=
  match t.wait with
  | .slept u => { t with wait := .sleep (now + u) }
  | _ => t

/-- A thread as it is saved: one that waits on a slot or a frame of its core issues its word again after the restore, and one
that waits in a hardware queue keeps its place there (17 R278). -/
def saveThread (now : Nat) (t : Thread) : Thread :=
  match t.wait with
  | .solicit => { t with wait := .none }
  | .claim => { t with wait := .none }
  | _ => stopSleep now t

/-- A warp as it is saved. -/
def saveWarp (s : State) (k : Nat) (w : Warp) : Warp :=
  let now := wgClock s (coreOf k) w.wg
  { modLanes w (BitVec.allOnes 32) (fun _ t => saveThread now t) with
    take := w.take.map (fun tk => { tk with saved := watchedBytes s tk })
    yieldTo := [] }

/-- The threads of a warp leave the queues for their core's frames and census slots. -/
def leaveQueues (s : State) (k : Nat) (w : Warp) : State :=
  let mine (n : TName) : Bool := w.threads.any (fun t => t.2.name == n)
  let c := coreOf k
  let cr := coreRec s c
  setCore s c { cr with
    claims := cr.claims.filter (fun x => x.1 / 2 ^ 32 != k)
    solWait := cr.solWait.filter (fun x => !mine x.name) }

/-- Write one warp out: its slot and frames are free (R322). -/
def outWarp (s : State) (k : Nat) : State :=
  match tget s.warps k with
  | none => s
  | some w =>
    let c := coreOf k
    if !saveRoom s (ctxOfWg s w.wg) c (warpBytes w) then
      let l := (lowest (liveMask w)).getD 0
      endGrid s (serialOf w.wg) (saveBlame (wgNumber w.wg) (((thr w l).map (·.name.n)).getD 0) l (srcKind w) c (k % 64))
    else
      let s := arriveLoads s k w
      let w := (tget s.warps k).getD w
      let x := savedOf s w.wg c
      let s := putSaved s { x with warps := x.warps ++ [saveWarp s k w] }
      let s := leaveQueues (sealUnit s w.wg c (warpBytes w)) k w
      grantAll { s with
        warps := (tdel s.warps k).map (fun e => (e.1, { e.2 with yieldTo := e.2.yieldTo.filter (· != k) })) } c

/-- Write one reform bin out. -/
def outBin (s : State) (c i : Nat) : State :=
  match tget (coreRec s c).bins i with
  | none => s
  | some b =>
    if !saveRoom s (ctxOfWg s b.wg) c (binBytes b) then
      endGrid s (serialOf b.wg) (saveBlame (wgNumber b.wg) 0 0 6 c 0)
    else
      let x := savedOf s b.wg c
      let s := putSaved s { x with bins := x.bins ++ [{ b with
        since := wgClock s c b.wg - b.since
        due := b.due.map (cycleOf s (dieOf c) - ·) }] }
      let s := sealUnit s b.wg c (binBytes b)
      grantAll (setCore s c { coreRec s c with bins := tdel (coreRec s c).bins i }) c

/-- Write a core's sequencer out, with its operations in flight and their progress (15 R250). -/
def outSeq (s : State) (c : Nat) : State :=
  match seqOf s c with
  | none => s
  | some q =>
    if !saveRoom s (ctxOfWg s q.wg) c seqBytes then
      endGrid s (serialOf q.wg) (saveBlame (wgNumber q.wg) 0 0 4 c 0)
    else
      let x := savedOf s q.wg c
      let now := cycleOf s (dieOf c)
      let s := putSaved s { x with
        seq := some { q with
          flight := q.flight.map (fun e => (e.1, now - e.2))
          homes := if q.flight.isEmpty then [] else (q.homes ++ [seqHandle c]).dedup }
        tl := tlOf s (ctxOfWg s q.wg) (seqHandle c) }
      let s := sealUnit s q.wg c seqBytes
      setCore s c { coreRec s c with seq := none }

/-- What the place of a workgroup needs in the save area beside its units: its LM, and the core's task records and census
slots where it has any. -/
def placeBytes (s : State) (wg c : Nat) : Nat :=
  let cr := coreRec s c
  let xs := (ctxRec s (ctxOfWg s wg)).saved.filter (fun x => x.core == c)
  hLmSize (hdrOf s wg) + 4096 +
    (if cr.tasks.any (fun t => t.wg == wg) && xs.all (fun x => x.tasks.isEmpty) then 65536 else 0) +
    (if cr.census.any (fun x => x.2.wg == wg) && xs.all (fun x => x.census.isEmpty) then 4096 else 0)

/-- A hardware queue takes another place, and with it those that wait there. -/
def moveQueue (s : State) (a b : Nat) : State :=
  let upd (w : Warp) : Warp := modLanes w (BitVec.allOnes 32) (fun _ t => if t.wait == .queue a then { t with wait := .queue b } else t)
  { s with
    hwqs := tput (tdel s.hwqs a) b (hwqRec s a)
    warps := s.warps.map (fun e => (e.1, upd e.2))
    ctxs := s.ctxs.map (fun e => (e.1, { e.2 with saved := e.2.saved.map (fun x => { x with warps := x.warps.map upd }) })) }

/-- With the last workgroup of a context gone from a core, the core's queues that are enabled for the context are saved (17
R269, R278). -/
def saveQueues (s : State) (ctx c : Nat) : State :=
  if (wgsOn s c).any (fun e => ctxOfWg s e.1 == ctx) then s
  else (List.range 8).foldl (fun s q =>
    let d := (hwqRec s (8 * c + q)).desc
    if hqEn d && hqCtx d == ctx then moveQueue s (8 * c + q) (savedQueue ctx (8 * c + q)) else s) s

/-- The queues saved with a context that come from a core, by number. -/
def queuesOf (s : State) (ctx c : Nat) : List Nat :=
  (List.range 8).filter (fun q => (tget s.hwqs (savedQueue ctx (8 * c + q))).isSome)

/-- The queues that were saved from one core are restored on another, where its queue of that number is free (17 R278; which
core's queue a workgroup names after a restore that has parted those of one core the spec does not say: DESIGN CHOICE, log 106). -/
def restoreQueues (s : State) (ctx from_ c : Nat) : State :=
  (queuesOf s ctx from_).foldl (fun s q =>
    if hwqFree s (8 * c + q) then moveQueue s (savedQueue ctx (8 * from_ + q)) (8 * c + q) else s) s

/-- Write the place of a workgroup out: LM, barriers, tasks, trap requests, census slots. -/
def outPlace (s : State) (wg c : Nat) : State :=
  match tget s.wgs wg with
  | none => s
  | some g =>
    if !saveRoom s (ctxOfWg s wg) c (placeBytes s wg c) then
      endGrid s (serialOf wg) (saveBlame (wgNumber wg) 0 0 6 c 0)
    else
      let s0 := s
      let cr := coreRec s c
      let x := savedOf s wg c
      let now := wgClock s c wg
      let mine := (((List.range cr.tasks.length).zip cr.tasks).filter (fun e => e.2.wg == wg)).map (fun e => { e.2 with
        readyAt := now - e.2.readyAt
        due := e.2.due.map (cycleOf s (dieOf c) - ·)
        spilled := decide (1024 ≤ e.1) })
      let s := putSaved s { x with
        whole := true
        tasks := x.tasks ++ mine
        handlers := x.handlers ++ cr.handlers.filter (fun h => h.wg == wg)
        census := cr.census.filter (fun e => e.2.wg == wg) }
      let s := setCore s c { cr with
        tasks := cr.tasks.filter (fun t => t.wg != wg)
        handlers := cr.handlers.filter (fun h => h.wg != wg)
        census := cr.census.filter (fun e => e.2.wg != wg) }
      saveQueues (setWg (sealUnit s wg c (placeBytes s0 wg c)) wg { g with core := none }) (ctxOfWg s wg) c

/-- Write a whole workgroup out. -/
def outWg (s : State) (wg : Nat) : State :=
  match (tget s.wgs wg).bind (·.core) with
  | none => s
  | some c =>
    let s := finishCopies s (· == wg)
    let s := ((s.warps.filter (fun e => e.2.wg == wg)).map (·.1)).foldl outWarp s
    let s := (((coreRec s c).bins.filter (fun b => b.2.wg == wg)).map (·.1)).foldl (fun s i => outBin s c i) s
    let s := if ((seqOf s c).map (·.wg)) == some wg then outSeq s c else s
    outPlace s wg c

/-- Write a whole gang out; a unit without room has ended the grid. -/
def outGang (s : State) (ws : List Nat) : State := ws.foldl outWg s

/-! Restore (R322). -/

/-- The saved gangs of a context: launch serial and gang, in order. -/
def savedGangs (s : State) (ctx : Nat) : List (Nat × Nat) :=
  (((ctxRec s ctx).saved.filterMap (fun x => (tget s.wgs x.wg).map (fun g => (serialOf x.wg, g.gang))))).dedup

/-- The members of a gang of a grid, by member index. -/
def gangMembers (s : State) (serial gang : Nat) : List Nat :=
  (List.range 4).filterMap (fun m =>
    (s.wgs.find? (fun e => serialOf e.1 == serial && e.2.gang == gang && e.2.member == m)).map (·.1))

/-- The room that a saved member needs: all that is saved of it, on the core where the rest stands, if any. -/
def savedRoom (s : State) (wg : Nat) : Room :=
  let x := savedOf s wg 0
  let core := (tget s.wgs wg).bind (·.core)
  let qs := if core.isNone && x.whole then queuesOf s (ctxOfWg s wg) x.core else []
  ⟨core, x.warps.length, (x.warps.map (fun w => granules w.claimed)).sum + (x.bins.map (fun b => granules b.claimed)).sum,
    x.bins.length, hLmSize (hdrOf s wg), core.isNone, x.seq.isSome, qs⟩

/-- A take that was saved whole: a watched line that has changed aborts it (R297). -/
def checkTake (s : State) (k : Nat) : State :=
  match (tget s.warps k).bind (·.take) with
  | none => s
  | some tk => if !tk.stale && tk.saved.all (fun e => seenByte s e.1 == e.2) then s else abortTake s k 2

/-- Lanes that waited at YIELD for the drain, and lanes whose futures have been resolved, go on (R321, 17 R278). -/
def wakeRestored (s : State) (k : Nat) : State :=
  match tget s.warps k with
  | none => s
  | some w =>
    let m := futLanes w ||| lanesWhere w (fun t => t.wait == .drain)
    if m = 0 then s else releaseLanes s k m

/-- Restore a warp into the lowest free slot of a core, unless its grid has ended meanwhile. -/
def inWarp (c : Nat) (s : State) (w : Warp) : State :=
  match freeWarpSlot s c, tget s.wgs w.wg with
  | some i, some _ =>
    let k := 64 * c + i
    let s := setWarp s k (modLanes w (BitVec.allOnes 32) (fun _ t => goSleep (wgClock s c w.wg) t))
    wakeRestored (checkTake s k) k
  | _, _ => s

/-- Restore a bin into the lowest empty bin of a core. -/
def inBin (c : Nat) (s : State) (b : Bin) : State :=
  match (List.range 16).find? (fun i => (tget (coreRec s c).bins i).isNone) with
  | none => s
  | some i => setCore s c { coreRec s c with bins := tput (coreRec s c).bins i { b with
      since := wgClock s c b.wg - b.since
      due := b.due.map (cycleOf s (dieOf c) - ·) } }

/-- Restore a census into its slot, or where that is taken into the lowest free one. Its scope stays that of the core which
began it (R304). -/
def inCensus (c : Nat) (s : State) (e : Nat × Census) : State :=
  let cr := coreRec s c
  let slot := if (tget cr.census e.1).isNone then e.1 else (freeSlotOf cr).getD e.1
  setCore s c { cr with census := tput cr.census slot e.2 }

/-- Two states of one counter: it never decreases, and every operation that either knows as completed is complete (R179,
15 R222). -/
def tlJoin (a b : Tl) : Tl :=
  let t := (a.done ++ b.done).foldl tlComplete { (if a.value < b.value then b else a) with done := [] }
  { t with issued := max a.issued b.issued }

/-- Restore a sequencer with its counter (15 R250): the context's counter of the core takes what has been saved, without
decreasing (R222). -/
def inSeq (c : Nat) (s : State) (x : SavedWg) : State :=
  match x.seq with
  | none => s
  | some q =>
    let now := cycleOf s (dieOf c)
    let ctx := ctxOfWg s x.wg
    let s := setCore s c { coreRec s c with seq := some { q with
      flight := q.flight.map (fun e => (e.1, now - e.2))
      homes := q.homes.filter (· != seqHandle c) } }
    setTl s ctx (seqHandle c) (tlJoin (tlOf s ctx (seqHandle c)) x.tl)

/-- The place of a workgroup on a core: where it stands if it is still placed, else with a new LM region (R156). -/
def inPlace (s : State) (wg c : Nat) (g : Workgroup) : Workgroup :=
  if g.core.isSome then g else { g with core := some c, lmBase := (lmFit s c (hLmSize (hdrOf s wg))).getD 0 }

/-- An entry of a workgroup answers the censuses that are still on their way to its core, before it leaves it. -/
def answerFirst (s : State) (c : Nat) (e : KEntry) : State :=
  (allCensuses s).foldl (fun s cen =>
    if cen.todo.contains c && censusHits s cen e && !e.answered.contains cen.id then makeResponder s c cen e else s) s

/-- The key-directory entries of a restored workgroup stand in the directory of its core: KDIRLOOK and KDIRMIG find them as
before (R322). No census misses one on its way (19 R303). -/
def moveEntries (s : State) (wg c : Nat) : State :=
  ((s.cores.map (·.1)).filter (· != c)).foldl (fun s x =>
    let mine (s : State) : List KEntry := (coreRec s x).kdir.filter (fun e => e.owner == wg)
    let s := (mine s).foldl (fun s e => answerFirst s x e) s
    let es := mine s
    if es.isEmpty then s
    else
      let s := setCore s x { coreRec s x with kdir := (coreRec s x).kdir.filter (fun e => e.owner != wg) }
      setCore s c { coreRec s c with kdir := (coreRec s c).kdir ++ es }) s

/-- Restore all that is saved of a workgroup onto a core. -/
def inUnits (s : State) (wg c : Nat) (x : SavedWg) (g : Workgroup) : State :=
  let ctx := ctxOfWg s wg
  let s := setWg s wg (inPlace s wg c g)
  let s := restoreQueues s ctx x.core c
  let now := wgClock s c wg
  let cr := coreRec s c
  let s := setCore s c { cr with
    tasks := cr.tasks ++ x.tasks.map (fun t => { t with
      readyAt := now - t.readyAt
      due := t.due.map (cycleOf s (dieOf c) - ·)
      spilled := false })
    handlers := cr.handlers ++ x.handlers }
  let s := inSeq c (x.census.foldl (inCensus c) (x.bins.foldl (inBin c) s)) x
  let ws := (((ctxRec s ctx).saved.find? (fun y => y.wg == wg)).map (·.warps)).getD []
  let s := setCtx s ctx { ctxRec s ctx with saved := (ctxRec s ctx).saved.filter (fun y => y.wg != wg) }
  let s := moveEntries s wg c
  ws.foldl (inWarp c) s

/-- Restore a workgroup; where the seal of what was saved of it is broken, the grid ends (R325, 29 R405). -/
def inWg (s : State) (wg c : Nat) : State :=
  match (ctxRec s (ctxOfWg s wg)).saved.find? (fun x => x.wg == wg), tget s.wgs wg with
  | some x, some g => if sealFails s x then endGrid s (serialOf wg) (cpBlame 0x7B) else inUnits s wg c x g
  | _, _ => s

/-- Loads that were still outstanding when their warps were written out raise their faults before the warps, which have come
into new slots, issue (R334). -/
def raiseLate (before s : State) : State :=
  endGrids s ((s.warps.filter (fun e => (tget before.warps e.1).isNone)).flatMap (fun e =>
    (onePerLoad (e.2.pend.filter (·.fabric))).map (fun p => (serialOf e.2.wg, lateBlame e.1 e.2.wg e.2.kind p))))

/-- The debug controls that a restore reads anew (23 R336, 27 R384). -/
def rereadDebug (s : State) (ctx : Nat) : State :=
  { s with grids := s.grids.map (fun e =>
      if e.2.ctx = ctx then (e.1, { e.2 with desc := setField e.2.desc 1023 736 (field (descOf s ctx) 1023 736) }) else e) }

/-- The next gang of a grid waits from now (R312). -/
def nextWaits (s : State) (serial : Nat) : State :=
  match tget s.grids serial with
  | none => s
  | some g => setGrid s serial { g with waitSince := cycleOf s 0, limitHit := false }

/-- The members of a gang are restored onto their cores. -/
def inGang (s : State) (serial : Nat) (ms : List (Nat × Nat)) : State :=
  let ctx := ((tget s.grids serial).map (·.ctx)).getD 0
  let t := rereadDebug (ms.foldl (fun s e => inWg s e.1 e.2) s) ctx
  nextWaits (raiseLate s t) serial

/-- Restore a gang whole in one cluster: members in place count where they stand; where the rest does not fit beside
them, they are written out too and the gang is placed anew (R322). -/
def restoreGang (s : State) (serial gang pick : Nat) : Option State :=
  let ms := gangMembers s serial gang
  let place (s : State) : Option State :=
    (pickPlace s (ms.map (savedRoom s)) pick).map (fun cs => inGang s serial (ms.zip cs))
  match place s with
  | some s => some s
  | none =>
    if ms.any (fun m => ((tget s.wgs m).bind (·.core)).isSome) then
      let s := outGang s ms
      if (tget s.grids serial).isNone then some s else (place s).orElse (fun _ => some s)
    else none

/-! The placement step (R29, R312). -/

/-- What the scheduler considers of a grid: its next gang to restore, else its next gang to place. -/
inductive Next where
  | restore (gang : Nat)
  | place
deriving DecidableEq, Repr

/-- The placement of a context's grids goes on (R320, R322). -/
def placesNow (s : State) (ctx : Nat) : Bool := !ctxStopped s ctx && (ctxRec s ctx).drain.isNone

/-- An earlier launch of the same queue still waits for placement (R311). -/
def overtakes (s : State) (serial : Nat) (g : Grid) : Bool :=
  s.grids.any (fun e => decide (e.1 < serial) && e.2.queue == g.queue && e.2.stage == 5)

/-- The next gang of a grid that waits (R29). -/
def nextOf (s : State) (e : Nat × Grid) : Option Next :=
  if !placesNow s e.2.ctx then none
  else match ((savedGangs s e.2.ctx).filter (fun x => x.1 == e.1)).map (·.2) with
    | x :: xs => some (.restore (xs.foldl min x))
    | [] => if e.2.stage = 5 ∧ overtakes s e.1 e.2 = false then some .place else none

/-- Insert a grid by descending priority and then ascending serial (R312). -/
def insertPrio (e : Nat × Grid) : List (Nat × Grid) → List (Nat × Grid)
  | [] => [e]
  | f :: r => if f.2.prio < e.2.prio ∨ (f.2.prio = e.2.prio ∧ e.1 < f.1) then e :: f :: r else f :: insertPrio e r

/-- The grids that wait, in the order in which the scheduler takes them. -/
def waitingGrids (s : State) : List (Nat × Grid) :=
  (s.grids.filter (fun e => (nextOf s e).isSome)).foldl (fun l e => insertPrio e l) []

/-- The next gang of a grid has waited 500 µs (R312). -/
def overdueGang (s : State) (g : Grid) : Bool := g.limitHit || decide (g.waitSince + 500 * usClocks ≤ cycleOf s 0)

/-- The grids that may place now: once a gang has waited its limit, of the other grids only those of higher priority
(R312). -/
def allowedGrids (s : State) : List (Nat × Grid) :=
  let ws := waitingGrids s
  match ws.find? (fun e => overdueGang s e.2) with
  | none => ws
  | some l => ws.filter (fun e => e.1 == l.1 || decide (l.2.prio < e.2.prio))

/-- Place or restore the next gang of one grid, if it fits. -/
def placeOne (s : State) (pick : Nat) (e : Nat × Grid) : Option State :=
  match nextOf s e with
  | none => none
  | some (.restore gang) => restoreGang s e.1 gang pick
  | some .place => (pickPlace s (gangRoom e.2.hdr) pick).map (fun cs => placeGang s e.1 e.2 cs)

/-- One gang of the first grid whose next gang fits. -/
def placeNext (s : State) (pick : Nat) : Option State := (allowedGrids s).findSome? (placeOne s pick)

/-- Place every gang that fits; fuel bounds the gangs that the package's 2,048 workgroup places can hold. -/
def placeAll (pick : Nat) : Nat → State → State
  | 0, s => s
  | n + 1, s => match placeNext s pick with
    | none => s
    | some s => placeAll pick n s

/-- One gang of a context that was saved, of its first grid whose next gang fits (R312, R322). -/
def restoreNext (s : State) (ctx pick : Nat) : Option State :=
  ((allowedGrids s).filter (fun e => e.2.ctx == ctx && nextOf s e != some .place)).findSome? (placeOne s pick)

/-- Restore every saved gang of a context that fits; fuel bounds the gangs. -/
def restoreAll (ctx pick : Nat) : Nat → State → State
  | 0, s => s
  | n + 1, s => match restoreNext s ctx pick with
    | none => s
    | some s => restoreAll ctx pick n s

/-- GANG_PLACEMENT: a placement step (R312). -/
def execGangPlacement (pick : Nat) (s : State) : Host.Outcome State Fault Refusal := .next (placeAll pick 2049 s)

/-- GANG_WAIT_LIMIT: the next gang of a grid has waited 500 µs (R312). -/
def execGangWaitLimit (serial : Nat) (s : State) : Host.Outcome State Fault Refusal :=
  match tget s.grids serial with
  | none => .next s
  | some g =>
    if (nextOf s (serial, g)).isSome ∧ g.waitSince + 500 * usClocks ≤ cycleOf s 0 then
      .next (setGrid s serial { g with limitHit := true })
    else .next s

/-! The completion of a grid (01 R46, 11 R178). -/

/-- Every gang of a grid has been placed and has retired. -/
def gridEnded (s : State) (serial : Nat) (g : Grid) : Bool :=
  g.stage == 7 && !s.wgs.any (fun e => serialOf e.1 == serial)

/-- The order in which deferred adds are applied: workgroup, ordinals before task serials (R178). -/
def addKey (a : DAdd) : Nat × Nat × Nat × Nat := (wgNumber a.name.wg, if a.name.task then 1 else 0, a.name.n, 0)

/-- Insert an add behind those that are not later. -/
def insertAdd (a : DAdd) : List DAdd → List DAdd
  | [] => [a]
  | b :: r => if keyLt (addKey a) (addKey b) then a :: b :: r else b :: insertAdd a r

/-- One deferred add: one read-modify-write. -/
def applyAdd (s : State) (a : DAdd) : State :=
  if refusedNow s a.pa 4 then s else
  let (bs, s) := readPhys s a.pa 4
  writePhys s a.pa (leBytes 4 (addWord a.fmt (BitVec.ofNat 32 (leNat bs)) a.val).toNat)

/-- A grid has ended here, and for a grid over several packages it may have ended on every one: its gate has opened. That it
has ended on the others the event that raises the question says (01 R31, R46, R178; log 107). -/
def endedEverywhere (s : State) (serial : Nat) (g : Grid) : Bool :=
  gridEnded s serial g && (!hMulti g.hdr || g.gateOpen)

/-- DEFERRED_ADD_APPLY: once every workgroup of the grid has ended, on every package, its adds are applied in order; a line
that fabric memory refuses takes none, and its add ends the grid (R178, 25 R349; log 104). -/
def execDeferredAddApply (serial : Nat) (s : State) : Host.Outcome State Fault Refusal :=
  match tget s.grids serial with
  | none => .next s
  | some g =>
    if endedEverywhere s serial g then
      let t := (g.adds.foldl (fun l a => insertAdd a l) []).foldl applyAdd (setGrid s serial { g with adds := [] })
      .next (if g.adds.any (fun a => refusedNow s a.pa 4) then endGrid t serial (cpBlame 0x12) else t)
    else .next s

/-- GRID_COMPLETION: the last warp has exited and every operation has completed, on every package of the grid: the queue
reports the launch serial (R46, 27 R386). -/
def execGridCompletion (serial : Nat) (s : State) : Host.Outcome State Fault Refusal :=
  match tget s.grids serial with
  | none => .next s
  | some g =>
    if endedEverywhere s serial g && g.adds.isEmpty && g.loads.isEmpty &&
        !s.cores.any (fun e => e.2.copies.any (fun x => serialOf x.wg == serial)) then
      let s := { s with grids := tdel s.grids serial }
      .next (putQueue s g.queue { queueRec s g.queue with lastSerial := serial })
    else .next s

/-! Kills (R324). -/

/-- Some unit of a grid is live: a warp, a wave, a bin, a task, a handler, saved or not, or a gang is still to come. -/
def killable (s : State) (serial : Nat) (g : Grid) : Bool :=
  g.stage != 7 || s.wgs.any (fun e => serialOf e.1 == serial && wgBusy s e.1)

/-- KILL: a grid ends with cause 0x75, unless its last warp has exited (R323, R324). -/
def execKill (serial : Nat) (s : State) : Host.Outcome State Fault Refusal :=
  match tget s.grids serial with
  | none => .next s
  | some g => .next (if killable s serial g then endGrid s serial (cpBlame 0x75) else s)

/-! Drains (R320, R321). -/

/-- The workgroups of a context on the package. -/
def residents (s : State) (ctx : Nat) : List Nat :=
  (s.wgs.filter (fun e => e.2.core.isSome && ctxOfWg s e.1 == ctx)).map (·.1)

/-- A thread is in a state in which its gang may yield (R321). -/
def yields (s : State) (t : Thread) : Bool :=
  match t.wait with
  | .drain => true
  | .bar _ => true
  | .header kind _ => kind == 1
  | .queue q => (hwqRec s q).waiters.any (fun x => x.name == t.name && x.push.isNone)
  | _ => false

/-- A sequencer stands at an SQWAIT or SQTL that waits (15 R245, R249), or at a header barrier wait (R217). -/
def streamWaits (s : State) (q : Seq) : Bool :=
  if q.pc.idx = 0 then
    match fetchClause s q.wg true q.pc.hdr with
    | .ok (h, _) => !seqWaitOver s q h
    | .error _ => false
  else
    match decodeStreamWord (q.code.getD (q.pc.idx - 1) 0) q.code[q.pc.idx]?, tget s.wgs q.wg with
    | .ok (.sqwait n), some g =>
      decide ((BitVec.ofNat 32 (barOf g n.toNat).phase - (tgetD 0 q.consumed n.toNat : Word)).toInt ≤ 0)
    | .ok (.sqtl x y), _ =>
      let ctx := ctxOfWg s q.wg
      handleOk s ctx (qReg q x) && !reached (BitVec.ofNat 32 (handleVal s ctx (qReg q x))) (qReg q y)
    | _, _ => false

/-- The stream of a workgroup lets its gang yield: no operation in flight, halted or waiting (R321). -/
def streamYields (s : State) (wg : Nat) : Bool :=
  match ((tget s.wgs wg).bind (·.core)).bind (seqOf s) with
  | none => true
  | some q => q.wg != wg || (q.flight.isEmpty && (q.halted || streamWaits s q))

/-- A member of a gang may yield: all its live threads wait (those filed in bins are not live, R9), and no copy is in flight
(R321). -/
def memberYields (s : State) (wg : Nat) : Bool :=
  (s.warps.filter (fun e => e.2.wg == wg)).all (fun e => e.2.threads.all (fun t => yields s t.2)) &&
    s.cores.all (fun e => !e.2.copies.any (fun x => x.wg == wg)) && streamYields s wg

/-- Before a yield point is saved, the open takes of its warps abort with status 0x07, save in continuity mode (R297,
R321). -/
def freezeTakes (s : State) (p : Nat → Bool) : State :=
  ((s.warps.filter (fun e => p e.2.wg && e.2.take.isSome && !contOfWg s e.2.wg)).map (·.1)).foldl
    (fun s k => abortTake s k 7) s

/-- The gangs of a context that are yield points are saved whole (R321). -/
def saveYields (s : State) (ctx : Nat) : State :=
  ((residents s ctx).filter (fun wg => (tget s.wgs wg).any (fun g => g.member == 0))).foldl (fun s wg =>
    let ms := (gangOf s wg).map (·.1)
    if !ms.isEmpty && ms.all (memberYields s) && ms.any (fun m => wgBusy s m) then
      outGang (freezeTakes s (fun x => ms.contains x)) ms
    else s) s

/-- The state that a context has on the package is cleared: what reset rungs and the driver keep of it stays (R320). -/
def clearContext (s : State) (ctx : Nat) : State :=
  let x := ctxRec s ctx
  let s := setCtx s ctx { Ctx.empty with granules := x.granules, mbx := x.mbx, hist := x.hist }
  { s with hwqs := (s.hwqs.filter (fun e => e.1 / 2 ^ 40 != ctx + 1)).map (fun e =>
      if field e.2.desc 59 48 = ctx then
        (e.1, { e.2 with recs := [], waiters := [], desc := setField e.2.desc 255 192 (field e.2.desc 191 128) })
      else e) }

/-- A drain that has not completed by its deadline ends every grid of the context that is resident, and the context's state is
cleared (R320). -/
def drainExpires (s : State) (ctx : Nat) : State :=
  match (ctxRec s ctx).drain with
  | none => s
  | some t =>
    if cycleOf s 0 < t then s
    else
      let ns := (s.grids.filter (fun e => e.2.ctx == ctx && s.wgs.any (fun w => serialOf w.1 == e.1))).map (·.1)
      clearContext (ns.foldl (fun s n => endGrid s n (cpBlame 0x76)) s) ctx

/-- DRAIN_DEADLINE: the deadline of a drain has passed (R320). -/
def execDrainDeadline (ctx : Nat) (s : State) : Host.Outcome State Fault Refusal := .next (drainExpires s ctx)

/-- A pending drain: yield points are saved; with no workgroup of the context left the drain completes, and past its deadline
it ends the grids that are left (R320). -/
def drainStep (s : State) (ctx : Nat) : State :=
  if (ctxRec s ctx).drain.isNone then s
  else
    let s := saveYields s ctx
    if (residents s ctx).isEmpty then setCtx s ctx { ctxRec s ctx with drain := none, drained := true } else drainExpires s ctx

/-- DRAIN: a drain of a context is requested, with the deadline that its descriptor gives (R320). -/
def execDrain (ctx : Nat) (s : State) : Host.Outcome State Fault Refusal :=
  let x := ctxRec s ctx
  if x.drain.isSome || x.drained then .next s
  else
    let t := cycleOf s 0 + field (descOf s ctx) 46 31 * usClocks
    .next (drainStep (setCtx s ctx { x with drain := some t }) ctx)

/-- DRAIN_CANCEL: a pending drain ends, and lanes that wait for it at YIELD go on (R321). Gangs that it has saved come back by
placement, and in continuity mode no round takes place before (R319). -/
def execDrainCancel (ctx : Nat) (s : State) : Host.Outcome State Fault Refusal :=
  let x := ctxRec s ctx
  if x.drain.isNone then .next s
  else
    let s := setCtx s ctx { x with drain := none, resuming := true }
    let ks := (s.warps.filter (fun e => ctxOfWg s e.2.wg == ctx)).map (·.1)
    .next (ks.foldl wakeRestored s)

/-! The urgent freeze (R322). -/

/-- Write out the storage of a victim that an urgent context claims. A claim is 4 times the unit plus its kind: 0 a warp
slot, 1 the LM region of a workgroup and with it the whole workgroup, 2 a reform bin as 16 * core + bin, 3 the sequencer
of a core. -/
def claimUnit (ctx : Nat) (s : State) (x : Nat) : State :=
  let u := x / 4
  match x % 4 with
  | 0 => match tget s.warps u with
    | some w =>
      if ctxOfWg s w.wg = ctx then outWarp s u else s
    | none => s
  | 1 => if ctxOfWg s u = ctx then outWg s u else s
  | 2 => match tget (coreRec s (u / 16)).bins (u % 16) with
    | some b => if ctxOfWg s b.wg = ctx then outBin s (u / 16) (u % 16) else s
    | none => s
  | _ => match seqOf s u with
    | some q => if ctxOfWg s q.wg = ctx then outSeq s u else s
    | none => s

/-- The SLEEPs of the warps of a context that stay in place stop, or go on (R153). -/
def sleepsInPlace (s : State) (ctx : Nat) (f : Nat → Thread → Thread) : State :=
  { s with warps := s.warps.map (fun e =>
      if ctxOfWg s e.2.wg == ctx then
        (e.1, modLanes e.2 (BitVec.allOnes 32) (fun _ t => f (wgClock s (coreOf e.1) e.2.wg) t))
      else e) }

/-- URGENT_FREEZE: the victim stops issuing, its copies in flight complete, its open takes abort save in continuity mode, and
what is claimed of it is written out (R319, R322). -/
def execUrgentFreeze (ctx : Nat) (claim : List Nat) (s : State) : Host.Outcome State Fault Refusal :=
  let mine (s : State) (wg : Nat) : Bool := ctxOfWg s wg == ctx
  let s := freezeTakes (finishCopies s (mine s)) (mine s)
  let s := if (ctxRec s ctx).frozen then s
    else sleepsInPlace (setCtx s ctx { ctxRec s ctx with frozen := true }) ctx stopSleep
  .next (claim.foldl (claimUnit ctx) s)

/-- The saved queues of a core of which nothing else is saved any more come back to it (17 R278). -/
def returnQueues (s : State) : State :=
  ((s.hwqs.map (·.1)).filter (fun k => decide (2 ^ 40 ≤ k))).foldl (fun s k =>
    let ctx := k / 2 ^ 40 - 1
    let c := k % 2 ^ 40 / 8
    if placesNow s ctx && !(ctxRec s ctx).saved.any (fun x => x.whole && x.core == c) then restoreQueues s ctx c c else s) s

/-- VICTIM_RESUME: a frozen or drained context goes on: its saved gangs are restored as far as they fit and the scheduler's
order allows, and the rest by later placement steps (R312, R320, R322). In continuity mode no round takes place before they are
all back (R319). Loads of warps that stayed in place and are overdue raise their faults first (R334). -/
def execVictimResume (ctx pick : Nat) (s : State) : Host.Outcome State Fault Refusal :=
  if !ctxStopped s ctx then .next s
  else
    let s := rereadDebug (setCtx s ctx { ctxRec s ctx with frozen := false, drained := false, resuming := true }) ctx
    let s := sleepsInPlace s ctx goSleep
    let ks := (s.warps.filter (fun e => ctxOfWg s e.2.wg == ctx)).map (·.1)
    let s := endGrids s (ks.flatMap (lateLoads s))
    .next (restoreAll ctx pick 2049 s)

/-! Continuity mode (R316, R317). -/

/-- Where a warp stands among the agents of its workgroup: its kind, then its index, which is that of the thread lane 0 held
as the warp formed (R316). -/
def agentKey (w : Warp) : Nat × Nat :=
  match w.kind with
  | .launch => (1, w.index)
  | .bin => (2, w.index)
  | _ => (3, w.index)

/-- The agents of a context in the order of R316, each with its key: workgroup, kind, index; of two with one key the warp that
formed earlier is first. -/
def agents (s : State) (ctx : Nat) : List ((Nat × Nat × Nat × Nat) × Turn) :=
  let ws := (s.warps.filter (fun e => ctxOfWg s e.2.wg == ctx)).map (fun e =>
    ((e.2.wg, (agentKey e.2).1, (agentKey e.2).2, e.2.age), Turn.warp e.1))
  let qs := s.cores.filterMap (fun e => match e.2.seq with
    | some q => if ctxOfWg s q.wg = ctx then some ((q.wg, 0, 0, 0), Turn.seq e.1) else none
    | none => none)
  qs ++ ws

/-- Insert an agent in order. -/
def insertAgent (a : (Nat × Nat × Nat × Nat) × Turn) : List ((Nat × Nat × Nat × Nat) × Turn) →
    List ((Nat × Nat × Nat × Nat) × Turn)
  | [] => [a]
  | b :: r => if keyLt a.1 b.1 then a :: b :: r else b :: insertAgent a r

/-- The waiting conditions of a context's warps are looked at, their SLEEPs among them (R316, R317). -/
def wakeAll (s : State) (ctx : Nat) : State :=
  ((s.warps.filter (fun e => ctxOfWg s e.2.wg == ctx)).map (·.1)).foldl (fun s k =>
    let s := sweep s k
    match tget s.warps k with
    | none => s
    | some w => if sleepDue s k w = 0 then s else releaseLanes s k (sleepDue s k w)) s

/-- An agent is not waiting on a condition: a warp with a thread that can be issued, or a sequencer whose word or clause
does not wait (R38). -/
def agentGoes (s : State) : Turn → Bool
  | .warp k => match tget s.warps k with
    | some w => wgRuns s w.wg && !w.held && warpReady s k
    | none => false
  | .seq c => match seqOf s c with
    | some q => wgRuns s q.wg && !q.held && !q.halted && !streamWaits s q
    | none => false
  | _ => false

/-- The turns of a round: the agents that go, from position k mod n of the list (R316). -/
def roundTurns (s : State) (ctx : Nat) : List Turn :=
  let as := ((agents s ctx).foldl (fun l a => insertAgent a l) []).map (·.2)
  let p := (ctxRec s ctx).round % max 1 as.length
  (as.drop p ++ as.take p).filter (agentGoes s)

/-- What forms next on a core forms (R22, R254, R328). -/
def formNext (s : State) (c : Nat) : Option State :=
  if (freeWarpSlot s c).isNone then none
  else (nextForm s c).bind (fun f =>
    let o := match f with
      | .handler => execTrapHandlerFormation c s
      | .bin i => execBinDraw c i s
      | .list x => execWaveFormation c x.wg x.pc.toNat s
    match o with
    | .next t => some t
    | _ => none)

/-- Everything that is due on a core forms; fuel bounds the warps. -/
def formAll (c : Nat) : Nat → State → State
  | 0, s => s
  | n + 1, s => match formNext s c with
    | none => s
    | some t => formAll c n t

/-- What a context's rounds have made due has formed before the next round begins, so that the round in which a bin is drawn
or a list gathered follows from the rounds alone (R316, R318). -/
def formBefore (s : State) : State :=
  (s.cores.map (·.1)).foldl (fun s c => formAll c 64 (markLists (markBins s c) c)) s

/-- The lanes of a warp that neither go nor wait at a clause header. -/
def elsewhere (w : Warp) : Mask := lanesWhere w (fun t => match t.wait with
  | .none => false
  | .headerOk => false
  | .header _ _ => false
  | _ => true)

/-- The clause issue of a warp leaves it without a word, and has done nothing but pass clauses whose guard holds for no lane or
begin a wait at a clause header. -/
def passesOn (s t : State) (k : Nat) : Bool :=
  match tget s.warps k, tget t.warps k with
  | some w, some w1 => w1.act == 0 && w1 != w && elsewhere w1 == elsewhere w && t.grids.length == s.grids.length
  | _, _ => false

/-- A warp as a round finds it: at a word that it can issue, or with its groups at header waits that do not hold yet, which
are waiting conditions of R38 (R94, R316). Fuel bounds the clauses. -/
def prepareWarp (k : Nat) : Nat → State → State
  | 0, s => s
  | n + 1, s => match tget s.warps k with
    | none => s
    | some w =>
      if w.act ≠ 0 ∨ w.held = true ∨ !wgRuns s w.wg ∨ !warpReady s k then s
      else if passesOn s (warpClause s k) k then prepareWarp k n (warpClause s k) else s

/-- The warps of a context as a round finds them: their waiting conditions are looked at, and the waits of the clauses at which
they stand (R316). -/
def roundStart (s : State) (ctx : Nat) : State :=
  let s := wakeAll s ctx
  ((s.warps.filter (fun e => ctxOfWg s e.2.wg == ctx)).map (·.1)).foldl (fun s k => prepareWarp k 64 s) s

/-- A context that has been resumed waits for the rest of its saved gangs before its next round (R319). -/
def roundsWait (s : State) (ctx : Nat) : Bool := (ctxRec s ctx).resuming && !(savedGangs s ctx).isEmpty

/-- CONTINUITY_ROUND: each agent that does not wait gets its turn, and the round number advances; with every agent waiting
there is no round. Waiting conditions are looked at as the round begins, after whatever is due has formed. No agent outside
the rounds comes between the round's words (R316, R317). -/
def execContinuityRound (ctx : Nat) (s : State) : Host.Outcome State Fault Refusal :=
  if !contCtx s ctx || !s.round.isEmpty || roundsWait s ctx then .next s
  else
    let s := roundStart (formBefore s) ctx
    let ts := roundTurns s ctx
    if ts.isEmpty then .next s
    else
      let x := ctxRec s ctx
      .next { setCtx s ctx { x with round := x.round + 1, resuming := false } with round := ts }

/-! The future table as it lies in memory (17 R263). -/

/-- A task or a warp of a context waits on a future. -/
def awaited (s : State) (ctx : Nat) (h : Word) : Bool :=
  let waits (w : Warp) : Bool := w.threads.any (fun t => match t.2.wait with
    | .futures hs => hs.contains h
    | .header kind x => kind == 5 && x == h.toNat
    | _ => false)
  s.warps.any (fun e => ctxOfWg s e.2.wg == ctx && waits e.2) ||
    s.cores.any (fun e => e.2.tasks.any (fun t => t.waits == some h && ctxOfWg s t.wg == ctx)) ||
    (ctxRec s ctx).saved.any (fun x => x.warps.any waits || x.tasks.any (fun t => t.waits == some h))

/-- What an entry of a context's table shows: the entry, and whether anything waits on it. -/
def futView (s : State) (ctx i : Nat) : Fut × Bool :=
  let e := tgetD Fut.empty (ctxRec s ctx).futures i
  (e, awaited s ctx (futHandle e i))

/-- The 16 bytes of an entry. WAITERS is in the task unit's own format: a free value that is not 0 where something waits
(R263; log 9). -/
def futBytes (v : Fut × Bool) (i now : Nat) : List Byte :=
  leBytes 16 (v.1.val.toNat + v.1.gen % 2 ^ 12 * 2 ^ 32 + v.1.st % 4 * 2 ^ 44 +
    (if v.2 then Config.waiterHead i now % (2 ^ 64 - 1) + 1 else 0) * 2 ^ 64)

/-- Write an entry where the table lies, if its page is mapped (R263, 27 R384; log 9). -/
def futStore (s : State) (ctx : Nat) (d : BitVec 1024) (i : Nat) (bs : List Byte) : State :=
  match ctxXlate s ctx d needRW (field d 383 320 + 16 * i) 16 with
  | .ok (pa, _) => writePhys (tablesSeen s d [(field d 383 320 + 16 * i, 16)]) pa bs
  | .error _ => s

/-- The table of a context that is created, as the command processor initialises it (R263). -/
def futInit (s : State) (ctx : Nat) (d : BitVec 1024) : State :=
  (List.range (futSize d)).foldl (fun s i => futStore s ctx d i (futBytes (Fut.empty, false) i 0)) s

/-- The entries that a step has changed are written where they lie (R263). -/
def futChanged (before s : State) : State :=
  s.ctxs.foldl (fun t e =>
    let is := ((e.2.futures ++ (ctxRec before e.1).futures).map (·.1)).dedup
    (is.filter (fun i => futView before e.1 i != futView s e.1 i)).foldl (fun t i =>
      futStore t e.1 (descOf s e.1) i (futBytes (futView s e.1 i) i (cycleOf s 0))) t) s

end Sys2Proof.Machine
end

