-- ==== Sys2Proof/Machine/Sys.lean ====
section
/-! DEFINITION. The system instructions (21 R326 to R332): TRAP, GETSR, SETSR, BKPT, YIELD, SYSRET, and the special
registers (03 R63 to R66). -/

namespace Sys2Proof.Machine

/-! Special registers. -/

/-- Half i of a doubleword: the low word for 0, the high word for 1. -/
def halfOf (x : Nat) (i : Nat) : Word := BitVec.ofNat 32 (x / 2 ^ (32 * i))

/-- The clock count that CYCLE returns: RETIRED in continuity mode (R64, R317). -/
def cycleRead (s : State) (k : Nat) (w : Warp) : DWord := BitVec.ofNat 64 (wgClock s (coreOf k) w.wg)

/-- A special register as a lane of a warp reads it (R63). -/
def special (s : State) (k : Nat) (w : Warp) (n l : Nat) : Word :=
  let h := hdrOf s w.wg
  let t := thr w l
  let d := match gridOfWg s w.wg with
    | some g => g.desc
    | none => 0
  let member := ((tget s.wgs w.wg).map (·.member)).getD 0
  let gang := gangNumberOf h (((tget s.wgs w.wg).map (·.gang)).getD 0)
  match n with
  | 0x00 => BitVec.ofNat 32 ((t.map (·.name.n)).getD 0)
  | 0x01 => BitVec.ofNat 32 l
  | 0x02 => BitVec.ofNat 32 (k % 64)
  | 0x03 => halfOf ((t.map (·.wid.toNat)).getD 0) 0
  | 0x04 => halfOf ((t.map (·.wid.toNat)).getD 0) 1
  | 0x05 => halfOf (wgNumber w.wg) 0
  | 0x06 => halfOf (wgNumber w.wg) 1
  | 0x07 => halfOf gang 0
  | 0x08 => halfOf gang 1
  | 0x09 => BitVec.ofNat 32 member
  | 0x0A => BitVec.ofNat 32 (coreOf k % 64)
  | 0x0B => BitVec.ofNat 32 (coreOf k % 64 / 4)
  | 0x0C => BitVec.ofNat 32 (dieOf (coreOf k))
  | 0x0D => BitVec.ofNat 32 (if hMulti h then ((gridOfWg s w.wg).map (·.rank)).getD 0 else 0)
  | 0x0E => BitVec.ofNat 32 w.role
  | 0x0F => BitVec.ofNat 32 (hN h)
  | 0x10 => halfOf (hArg h).toNat 0
  | 0x11 => halfOf (hArg h).toNat 1
  | 0x12 => halfOf (dHeapBase d) 0
  | 0x13 => halfOf (dHeapBase d) 1
  | 0x14 => halfOf (dHeapLimit d) 0
  | 0x15 => halfOf (dHeapLimit d) 1
  | 0x16 => BitVec.ofNat 32 (hLmSize h)
  | 0x17 => BitVec.ofNat 32 (binLimit s w.wg)
  | 0x18 => w.claimed.setWidth 32
  | 0x19 => w.arrive
  | 0x1A => w.flags.setWidth 32
  | 0x1B => BitVec.ofNat 32 (w.threads.foldl (fun n e => max n e.2.tdepth) 0 * 256 + w.tcode.toNat)
  | 0x1C => halfOf (cycleRead s k w).toNat 0
  | 0x1D => halfOf w.latch.toNat 1
  | 0x1E => halfOf (retiredOf s w.wg) 0
  | 0x1F => halfOf w.latch.toNat 1
  | 0x20 => if contOfWg s w.wg then 1 else 0
  | _ => 0

/-- A read of CYCLE or RETIRED latches the whole count for the warp, which has one latch (R64). -/
def latch (s : State) (k : Nat) (w : Warp) (n : Nat) : Warp :=
  match n with
  | 0x1C => { w with latch := cycleRead s k w }
  | 0x1E => { w with latch := BitVec.ofNat 64 (retiredOf s w.wg) }
  | _ => w

def execGetsr (d n : Fld) (s : State) : Host.Outcome State Fault Refusal :=
  laneWord s [d] (fun s k w =>
    if 0x21 ≤ n.toNat then .fault 0x3B 0 (low w) 0
    else .next (setWarp s k (mapLanes (latch s k w n.toNat) d (fun l => special s k w n.toNat l))))

def execSetsr (a n : Fld) (s : State) : Host.Outcome State Fault Refusal :=
  laneWord s [a] (fun s k w =>
    if n ≠ 0x1A then .fault 0x3C 0 (low w) 0
    else .next (setWarp s k (match lowest w.act with
      | some l => { w with flags := (rd w a l).extractLsb' 0 5 }
      | none => w)))

/-! Traps and breakpoints. -/

/-- The active lanes of the issuing warp that a debugger has resumed at the word: they issue it without trapping
(R25). -/
def passing (s : State) : Mask :=
  match s.issuer with
  | .warp k => match tget s.warps k with
    | some w => maskWhere w.act (fun l => ((thr w l).map (·.pass1)).getD false)
    | none => 0
  | _ => 0

/-- A debug trap taken at TRAP or BKPT by the lanes that do not pass: they park, and the other active lanes go on to the
next word (R25, R326, R331). -/
def trapWord (s : State) (k : Nat) (w : Warp) (pass : Mask) (cause tag : Nat) : Eff :=
  let m := w.act &&& ~~~pass
  if m = 0 then .next s
  else
    let s := debugTrap s k w m cause tag
    match tget s.warps k with
    | some w1 => if w1.act = 0 then .parked s else .moved (setWarp s k (advance w1))
    | none => .parked s

/-- The trap-handler address of a warp's context (27 R384). -/
def trapPc (s : State) (wg : Nat) : DWord := match gridOfWg s wg with
  | some g => g.desc.extractLsb' 384 64
  | none => 0

/-- On the way to a handler the request reads v0 and v1, so TRAP stalls while either is pending (R67, R328). -/
def execTrap (n : Fld) (s : State) : Host.Outcome State Fault Refusal :=
  let pass := passing s
  laneWord s [] (fun s k w =>
    if bitN (dbgOf s w.wg) 3 then trapWord s k w pass 0x70 n.toNat
    else if (activeMember w).isSome then .abort 6
    else if w.kind = .handler ∨ trapPc s w.wg = 0 then .fault 0x70 0 (low w) n.toNat
    else if anyPending w [0, 1] then .stall
    else .moved (enterTrap s k w n.toNat (trapPc s w.wg)))

def execBkpt (tag : Half) (s : State) : Host.Outcome State Fault Refusal :=
  let pass := passing s
  laneWord s [] (fun s k w =>
    if bitN (dbgOf s w.wg) 2 then trapWord s k w pass 0x71 tag.toNat else .next s)

/-! YIELD and SYSRET. -/

/-- A drain of the context of a workgroup is pending (R320, R321). -/
def drainPending (s : State) (wg : Nat) : Bool := (ctxRec s (ctxOfWg s wg)).drain.isSome

/-- After a YIELD outside continuity mode the warp stands back for the warps of its partition that are ready: it names
itself until the step has seen which those are (R332). -/
def standBack (s : State) (k : Nat) (w : Warp) : Warp :=
  if contOfWg s w.wg then w else { w with yieldTo := [k] }

def execYield (s : State) : Host.Outcome State Fault Refusal :=
  laneWord s [] (fun s k w =>
    if (activeMember w).isSome then .abort 7
    else if drainPending s w.wg then .moved (setWarp s k (beginWait w w.act .drain (nextPC w)))
    else .moved (setWarp s k (standBack s k (choicePoint (setPC w w.act (nextPC w))))))

/-- The trapped threads that the active lanes of a handler serve take their lane's v0 and v1 and go on (R331). -/
def returnAll (s : State) (w : Warp) : State :=
  (lanesOf w.act).foldl (fun s l => match (thr w l).bind (·.served) with
    | some n => leaveTrap s n (rd w 0 l) (rd w 1 l)
    | none => s) s

def execSysret (s : State) : Host.Outcome State Fault Refusal :=
  laneWord s [0, 1] (fun s k w =>
    if w.kind ≠ .handler then .fault 0x0B 0 (low w) 0
    else match activeMember w with
      | some l => .fault 0x50 0 l 0
      | none => .moved (endLanes (setWarp (returnAll s w) k (choicePoint w)) k w.act (wordAddr (curPC w))))

end Sys2Proof.Machine
end

