-- ==== Sys2Proof/Machine/Xch.lean ====
section
/-! DEFINITION. Lane exchange: shuffles, votes, matches, reductions and scans (09 R140 to R142). -/

namespace Sys2Proof.Machine

/-- The value of a source lane, or the lane's own where the source is no active lane (R140). -/
def shufVal (w : Warp) (a : Fld) (l : Nat) (j : Int) : Word :=
  if 0 ≤ j ∧ j ≤ 31 ∧ w.act.getLsbD j.toNat then rd w a j.toNat else rd w a l

/-- A shuffle from a source lane (R140). -/
def shufWord (s : State) (regs : List Fld) (d a : Fld) (src : Warp → Nat → Int) : Host.Outcome State Fault Refusal :=
  warpWord s (regs ++ [d]) (fun w => mapLanes w d (fun l => shufVal w a l (src w l)))

def execShuf (d a b : Fld) (s : State) := shufWord s [a, b] d a (fun w l => (field (rd w b l) 4 0 : Nat))
def execShufup (d a n : Fld) (s : State) := shufWord s [a] d a (fun _ l => (l : Int) - n.toNat)
def execShufdn (d a n : Fld) (s : State) := shufWord s [a] d a (fun _ l => (l : Int) + n.toNat)
def execShufx (d a n : Fld) (s : State) := shufWord s [a] d a (fun _ l => ((l ^^^ n.toNat : Nat) : Int))

def execVoteall (d a : Fld) (s : State) : Host.Outcome State Fault Refusal :=
  warpWord s [] (fun w => mapPred w d (fun _ => w.act &&& ~~~rdP w a.toNat == 0))
def execVoteany (d a : Fld) (s : State) : Host.Outcome State Fault Refusal :=
  warpWord s [] (fun w => mapPred w d (fun _ => w.act &&& rdP w a.toNat != 0))
def execBallot (d a : Fld) (s : State) : Host.Outcome State Fault Refusal :=
  warpWord s [d] (fun w => mapLanes w d (fun _ => w.act &&& rdP w a.toNat))
def execMatchLanes (d a : Fld) (s : State) : Host.Outcome State Fault Refusal :=
  warpWord s [a, d] (fun w => mapLanes w d (fun l => maskWhere w.act (fun j => rd w a j == rd w a l)))

/-- One step of a fold with its flags (R142). -/
def foldStep (sub : BitVec 4) (x y : Word) : Word × FFlags :=
  match sub.toNat with
  | 0 => (x + y, 0)
  | 1 => (minS x y, 0)
  | 2 => (maxS x y, 0)
  | 3 => (minU x y, 0)
  | 4 => (maxU x y, 0)
  | 5 => (x &&& y, 0)
  | 6 => (x ||| y, 0)
  | 7 => (x ^^^ y, 0)
  | 8 => let r := fadd fp32 0 x.toNat y.toNat
         (BitVec.ofNat 32 r.1, r.2)
  | 9 => (BitVec.ofNat 32 (fminmax fp32 false x.toNat y.toNat), 0)
  | _ => (BitVec.ofNat 32 (fminmax fp32 true x.toNat y.toNat), 0)

/-- The value with which a fold starts: a NaN of a floating fold is made canonical, with NV for a signalling NaN under
.fadd (R142). -/
def foldStart (sub : BitVec 4) (x : Word) : Word × FFlags :=
  let v := fdec fp32 x.toNat
  if decide (8 ≤ sub.toNat) && v.isNan then (0x7FC00000, flagIf (sub == 8 && v.isSnan) fNV) else (x, 0)

/-- The inclusive prefixes of a fold over lanes in order: lane, value, and the flags so far (R142). -/
def foldLanes (sub : BitVec 4) (w : Warp) (a : Fld) : List Nat → Word × FFlags → List (Nat × Word × FFlags)
  | [], _ => []
  | l :: r, acc =>
    let st := foldStep sub acc.1 (rd w a l)
    let acc := (st.1, acc.2 ||| st.2)
    (l, acc) :: foldLanes sub w a r acc

/-- All the prefixes of a fold over the active lanes (R142). -/
def prefixes (sub : BitVec 4) (w : Warp) (a : Fld) : List (Nat × Word × FFlags) :=
  match lanesOf w.act with
  | [] => []
  | l :: r => (l, foldStart sub (rd w a l)) :: foldLanes sub w a r (foldStart sub (rd w a l))

/-- The value and flags of the whole fold. -/
def foldAll (sub : BitVec 4) (w : Warp) (a : Fld) : Word × FFlags :=
  ((prefixes sub w a).getLast?.map (·.2)).getD (0, 0)

def execRedux (d a : Fld) (sub : BitVec 4) (s : State) : Host.Outcome State Fault Refusal :=
  warpWord s [a, d] (fun w => raise (mapLanes w d (fun _ => (foldAll sub w a).1)) (foldAll sub w a).2)
def execScan (d a : Fld) (sub : BitVec 4) (s : State) : Host.Outcome State Fault Refusal :=
  warpWord s [a, d] (fun w => raise (mapLanes w d (fun l =>
    (((prefixes sub w a).find? (fun e => e.1 == l)).map (·.2.1)).getD 0)) (foldAll sub w a).2)

end Sys2Proof.Machine
end

