-- ==== Sys2Proof/Machine/Dbg.lean ====
section
/-! DEFINITION. Debug and measurement (23 R337, R338, R340, R344, R345): stall samples, the alignment pulse, capture and
debug commands; and the meaning of a lane word by its instruction, by which a sample and the arbiter see whether a word
can issue. -/

namespace Sys2Proof.Machine

/-! Whether a word can issue. -/

/-- The meaning of a lane word. -/
def laneMeaning (i : Instr) (s : State) : Host.Outcome State Fault Refusal :=
  match i with
  | .iadd d a b => execIadd d a b s
  | .iaddi d a b => execIaddi d a b s
  | .isub d a b => execIsub d a b s
  | .imul d a b => execImul d a b s
  | .imulhs d a b => execImulhs d a b s
  | .imulhu d a b => execImulhu d a b s
  | .imad d a b c => execImad d a b c s
  | .imin d a b => execImin d a b s
  | .imax d a b => execImax d a b s
  | .umin d a b => execUmin d a b s
  | .umax d a b => execUmax d a b s
  | .iabs d a => execIabs d a s
  | .ineg d a => execIneg d a s
  | .iand d a b => execIand d a b s
  | .ior d a b => execIor d a b s
  | .ixor d a b => execIxor d a b s
  | .andn d a b => execAndn d a b s
  | .inot d a => execInot d a s
  | .shl d a b => execShl d a b s
  | .shr d a b => execShr d a b s
  | .sar d a b => execSar d a b s
  | .rotl d a b => execRotl d a b s
  | .shli d a b => execShli d a b s
  | .shri d a b => execShri d a b s
  | .sari d a b => execSari d a b s
  | .popc d a => execPopc d a s
  | .clz d a => execClz d a s
  | .brev d a => execBrev d a s
  | .bfx d a sub aux => execBfx d a sub aux s
  | .bfi d a b aux => execBfi d a b aux s
  | .lea d a b aux => execLea d a b aux s
  | .add64 d a b => execAdd64 d a b s
  | .sub64 d a b => execSub64 d a b s
  | .mulw d a b sub => execMulw d a b sub s
  | .mov d a => execMov d a s
  | .movi d i => execMovi d i s
  | .movhi d i => execMovhi d i s
  | .movl d l => execMovl d l s
  | .selp d a b pd pn => execSelp d a b pd pn s
  | .icmp d a b sub ty => execIcmp d a b sub ty s
  | .fcmp d a b sub => execFcmp d a b sub s
  | .pand d a b => execPand d a b s
  | .por d a b => execPor d a b s
  | .pxor d a b => execPxor d a b s
  | .pnot d a => execPnot d a s
  | .pmov d a => execPmov d a s
  | .ptov d a => execPtov d a s
  | .fadd d a b => execFadd d a b s
  | .faddT d a b rnd => execFaddT d a b rnd s
  | .fsub d a b => execFsub d a b s
  | .fsubT d a b rnd => execFsubT d a b rnd s
  | .fmul d a b => execFmul d a b s
  | .fmulT d a b rnd => execFmulT d a b rnd s
  | .ffma d a b c rnd => execFfma d a b c rnd s
  | .fmin d a b => execFmin d a b s
  | .fmax d a b => execFmax d a b s
  | .fabs d a => execFabs d a s
  | .fneg d a => execFneg d a s
  | .frnd d a rnd => execFrnd d a rnd s
  | .frcp d a => execFrcp d a s
  | .frsq d a => execFrsq d a s
  | .fsqrt d a rnd => execFsqrt d a rnd s
  | .fexp2 d a => execFexp2 d a s
  | .flog2 d a => execFlog2 d a s
  | .fsin d a => execFsin d a s
  | .fcos d a => execFcos d a s
  | .fclass d a => execFclass d a s
  | .hadd2 d a b => execHadd2 d a b s
  | .hmul2 d a b => execHmul2 d a b s
  | .hfma2 d a b c => execHfma2 d a b c s
  | .hmax2 d a b => execHmax2 d a b s
  | .hmin2 d a b => execHmin2 d a b s
  | .badd2 d a b => execBadd2 d a b s
  | .bmul2 d a b => execBmul2 d a b s
  | .bfma2 d a b c => execBfma2 d a b c s
  | .cvt d a sub rnd aux => execCvt d a sub rnd aux s
  | .tepack d a aux => execTepack d a aux s
  | .teunpk d a aux => execTeunpk d a aux s
  | .scalex d a b sub aux => execScalex d a b sub aux s
  | .shuf d a b => execShuf d a b s
  | .shufup d a b => execShufup d a b s
  | .shufdn d a b => execShufdn d a b s
  | .shufx d a b => execShufx d a b s
  | .voteall d a => execVoteall d a s
  | .voteany d a => execVoteany d a s
  | .ballot d a => execBallot d a s
  | .matchLanes d a => execMatchLanes d a s
  | .redux d a sub => execRedux d a sub s
  | .scan d a sub => execScan d a sub s
  | .bra o => execBra o s
  | .brc o pd pn => execBrc o pd pn s
  | .brx a => execBrx a s
  | .call o c => execCall o c s
  | .callx d a => execCallx d a s
  | .ret a => execRet a s
  | .exit => execExit s
  | .reconv o => execReconv o s
  | .rjoin => execRjoin s
  | .reform a => execReform a s
  | .nop => execNop s
  | .sleep i => execSleep i s
  | .ldl d a b => execLdl d a b s
  | .ldlT d a b ty => execLdlT d a b ty s
  | .stl d a b => execStl d a b s
  | .stlT d a b ty => execStlT d a b ty s
  | .ldg d a b => execLdg d a b s
  | .ldgT d a b sub ty => execLdgT d a b sub ty s
  | .stg d a b => execStg d a b s
  | .stgT d a b sub ty => execStgT d a b sub ty s
  | .ldk d a b => execLdk d a b s
  | .lda d a b scope ty => execLda d a b scope ty s
  | .strel d a b scope ty => execStrel d a b scope ty s
  | .atom d a b c sub scope ty => execAtom d a b c sub scope ty s
  | .atomc d a b c scope ty aux => execAtomc d a b c scope ty aux s
  | .atoml d a b c sub ty => execAtoml d a b c sub ty s
  | .fatom a b c sub ty => execFatom a b c sub ty s
  | .fence sub scope => execFence sub scope s
  | .barinit a b => execBarinit a b s
  | .bara b => execBara b s
  | .barw b => execBarw b s
  | .bars b => execBars b s
  | .rwrite d a b => execRwrite d a b s
  | .rwait a => execRwait a s
  | .rcount d => execRcount d s
  | .claim b => execClaim b s
  | .give b => execGive b s
  | .bmovWrite d a => execBmovWrite d a s
  | .bmovRead d a => execBmovRead d a s
  | .tlblock a b => execTlblock a b s
  | .tlbunlk a => execTlbunlk a s
  | .acopy d a b c sub ty => execAcopy d a b c sub ty s
  | .bcopy d a b sub => execBcopy d a b sub s
  | .gather d a b c ty => execGather d a b c ty s
  | .tokclr d => execTokclr d s
  | .tlwait a b => execTlwait a b s
  | .tlread d a => execTlread d a s
  | .stashmap a b c => execStashmap a b c s
  | .stashwb a b => execStashwb a b s
  | .stashinv a b => execStashinv a b s
  | .tspawn a b sub aux => execTspawn a b sub aux s
  | .futnew d => execFutnew d s
  | .futset a b => execFutset a b s
  | .futwait a => execFutwait a s
  | .futget d a => execFutget d a s
  | .futdrop a => execFutdrop a s
  | .qpop d b => execQpop d b s
  | .qpush a b => execQpush a b s
  | .qroom d b => execQroom d b s
  | .mbxbind a b => execMbxbind a b s
  | .nmatch a b c => execNmatch a b c s
  | .nunmatch a => execNunmatch a s
  | .tend => execTend s
  | .take => execTake s
  | .keep scope => execKeep scope s
  | .drop a sub aux => execDrop a sub aux s
  | .tstat d => execTstat d s
  | .solicit d a b sub scope => execSolicit d a b sub scope s
  | .census d a sub => execCensus d a sub s
  | .respond a sub => execRespond a sub s
  | .kdirins a b sub => execKdirins a b sub s
  | .kdirdel a => execKdirdel a s
  | .kdirlook d a => execKdirlook d a s
  | .kdirmig a b sub => execKdirmig a b sub s
  | .trap b => execTrap b s
  | .getsr d b => execGetsr d b s
  | .setsr a b => execSetsr a b s
  | .bkpt i => execBkpt i s
  | .yield => execYield s
  | .sysret => execSysret s
  | _ => .next s

/-- The word at which the active lanes of a warp stand. -/
def currentWord (w : Warp) : Option Instr :=
  let n := (curPC w).idx
  match w.code[n - 1]? with
  | none => none
  | some x => match decodeLaneWord x w.code[n]? with
    | .ok i => some i
    | .bad _ => none

/-- The active lanes of a warp stand at a word that would leave everything as it is: it has not issued. -/
def wordStalls (s : State) (k : Nat) (w : Warp) : Bool :=
  match currentWord w with
  | none => false
  | some i =>
    let s1 := setWarp { s with issuer := .warp k } k w
    match laneMeaning i s1 with
    | .next s2 => s2 == s1
    | _ => false

/-- The outstanding writes for which the current word of a warp waits (03 R67, R68). -/
def blockers (s : State) (k : Nat) (w : Warp) : List Pend :=
  if wordStalls s k { w with pend := [] } then []
  else w.pend.filter (fun e => wordStalls s k { w with pend := [e] })

/-- The operand fields of the current word of a warp, in operand order; C stands in the tail of a word that has one (R101). -/
def operandFields (w : Warp) : List Fld :=
  match w.code[(curPC w).idx - 1]? with
  | none => []
  | some x =>
    let tail := if wordLen false w.code (curPC w).idx = 2 then w.code[(curPC w).idx]?.map (fun t => (unpackTail t).c) else none
    [fA x, fB x] ++ tail.toList ++ [fD x]

/-- The operand to which a register of the current word belongs: that with the nearest field at or below it, by its place in
operand order. A group has at most 8 registers. -/
def operandOf (fs : List Fld) (r : Fld) : Nat :=
  let near := (fs.filter (fun f => decide (f ≤ r) && decide (r.toNat < f.toNat + 8))).foldl (fun n f => max n f.toNat) 0
  fs.findIdx (fun f => f.toNat == near)

/-- The blocker to blame: that of the first source in operand order, and of its group the lowest register (R69, R340). -/
def blamed (w : Warp) (ps : List Pend) : Option Pend :=
  let fs := operandFields w
  let key (e : Pend) : Nat := 256 * operandOf fs e.reg + e.reg.toNat
  ps.foldl (fun (b : Option Pend) e => match b with
    | none => some e
    | some x => if key e < key x then some e else some x) none

/-- The current word of a warp is a copy that stalls because 512 copies are in flight on the core, which counts as a
scoreboard dependence (13 R202). -/
def copyStalls (s : State) (k : Nat) (w : Warp) : Bool :=
  decide (512 ≤ (coreRec s (coreOf k)).copies.length) && (match currentWord w with
    | some (.acopy _ _ _ _ _ _) => true
    | some (.bcopy _ _ _ _) => true
    | some (.gather _ _ _ _ _) => true
    | _ => false)

/-! Stall samples (R340). -/

/-- The lane whose group a sample describes: the current group's, the one that R143 would choose, or where every thread
waits the lowest live one. -/
def sampleLane (w : Warp) : Nat :=
  match lowest w.act with
  | some l => l
  | none => match lowest w.cand with
    | some l => l
    | none => match (chosenPC w).bind (fun p => lowest (groupAt w p)) with
      | some l => l
      | none => (lowest (liveMask w)).getD 0

/-- The thread that a sample names: the lowest of the group that it describes (R339). -/
def sampleName (w : Warp) : Nat := ((thr w (sampleLane w)).map (·.name.n)).getD 0

/-- The outstanding write to a register that the header wait of the clause at which a group stands reads (R67, R93). -/
def headerPending (s : State) (w : Warp) (p : PC) : Option Pend :=
  if p.idx ≠ 0 then none
  else match fetchClause s w.wg false p.hdr with
    | .error _ => none
    | .ok (h, _) => (headerRegs h).findSome? (fun r => w.pend.find? (fun e => e.reg == r))

/-- What a sample says of a warp: reason, detail, PC, blame. The spec gives no code for the condition that SYNC names: it
is a free choice (log 2). -/
def sampleOf (s : State) (k : Nat) (w : Warp) : (Nat × Nat × Nat × Nat) × State :=
  let l := sampleLane w
  let t := thr w l
  let wt := (t.map (·.wait)).getD .none
  let pc := (wordAddr (pcOf w l)).toNat
  let part := 4 * coreOf k + k % 64 / 16
  match (tgetD Sampler.empty s.samplers part).issued with
  | some x => if x.slot = k % 16 then ((0, 0, x.pc.toNat, 0), s) else waiting l wt pc
  | none => waiting l wt pc
where
  /-- A warp whose group did not issue in the sampled clock. -/
  waiting (l : Nat) (wt : Wait) (pc : Nat) : (Nat × Nat × Nat × Nat) × State :=
    if w.held ∨ wt = .debug then ((1, 0, pc, 0), s)
    else match wt with
      | .header kind arg =>
        let by_ := if kind = 2 then w.pend.find? (fun e => e.token && e.reg.toNat == arg) else none
        ((4, kind, (pcOf w l).hdr.toNat, (by_.map (·.pc.toNat)).getD 0), s)
      | .none => going l pc
      | .headerOk => going l pc
      | _ =>
        let (n, s) := choose s 256
        ((5, n, pc, 0), s)
  /-- A warp whose group does not wait. One that stands at a clause header whose wait reads a pending register waits as for a
  source (R67, R93). -/
  going (l pc : Nat) : (Nat × Nat × Nat × Nat) × State :=
    if w.act = 0 then match headerPending s w (pcOf w l) with
      | some e => ((3, 0, pc, e.pc.toNat), s)
      | none => ((2, 0, pc, 0), s)
    else match blamed w (blockers s k w) with
      | some e => ((3, 0, pc, e.pc.toNat), s)
      | none =>
        if copyStalls s k w then ((3, 0, pc, 0), s)
        else if wordStalls s k w then ((6, 0, pc, 0), s)
        else ((7, 0, pc, 0), s)

/-- Sampling goes on: it is enabled, and the capture has started (R340, R344). -/
def sampling (s : State) : Bool := s.capCfg.getLsbD 24 && s.capState != capIdle

/-- SP, from 8 to 24: a value outside that range counts as the nearest in it (R340, 29 R417; DESIGN CHOICE, log 71). -/
def sampleExp (s : State) : Nat := max 8 (min 24 (field s.capCfg 20 16))

/-- The sampling interval in which a die stands, counted from 1: 2^SP clocks each (R340). -/
def sampleInterval (s : State) (die : Nat) : Nat := 1 + cycleOf s die / 2 ^ sampleExp s

/-- STALL_SAMPLE: a partition takes the sample of the present interval, of its next slot; an empty one adds to the idle count
(R340). While the capture is stopped or frozen the record is dropped and counted (R344). -/
def execStallSample (c part : Nat) (s : State) : Host.Outcome State Fault Refusal :=
  let key := 4 * c + part
  let sm := tgetD Sampler.empty s.samplers key
  if !sampling s || sm.interval == sampleInterval s (dieOf c) then .next s
  else
    let slot := sm.slot
    let k := 64 * c + 16 * part + slot
    let put (s : State) (idle : Nat) : State := { s with samplers := tput s.samplers key { sm with
      slot := (slot + 1) % 16
      idle := sm.idle + idle
      exited := tdel sm.exited slot
      interval := sampleInterval s (dieOf c) } }
    let word (reason detail : Nat) : Nat := reason + detail % 256 * 2 ^ 4 + part % 4 * 2 ^ 12 + slot * 2 ^ 14
    match tget s.warps k with
    | some w =>
      let ((reason, detail, pc, blame), s) := sampleOf s k w
      let n := match sm.issued with
        | some x => if x.slot = k % 16 then x.name else sampleName w
        | none => sampleName w
      .next (put (warpRecordOf s k w n 1 [pc, blame, word reason detail]) 0)
    | none => match tget sm.exited slot with
      | some (pc, name, kind) =>
        .next (put (capRecord s (serialOf name.wg) (wgNumber name.wg) name.n kind 1 (dieOf c) (c % 64)
          [pc.toNat, 0, word 9 0] (confOf s name.wg)) 0)
      | none => .next (put s 1)

/-- Every partition of every enabled core takes the sample that is due (R340). -/
def takeSamples (s : State) : State :=
  if !sampling s then s
  else ((List.range 256).filter (coreOn s)).foldl (fun s c => (List.range 4).foldl (fun s p =>
    match execStallSample c p s with
    | .next t => t
    | _ => s) s) s

/-! The alignment pulse and the capture commands (R344, R345). -/

/-- ALIGNMENT_PULSE: every enabled die writes a record of the pulse with its own TIME (R345). -/
def execAlignmentPulse (s : State) : Host.Outcome State Fault Refusal :=
  let n := s.pulse
  .next ((List.range 4).foldl (fun s d =>
    if s.dieEn.getLsbD d then capRecord s 0 0 0 7 5 d 0 [n] none else s) { s with pulse := n + 1 })

def execCaptureStart (s : State) : Host.Outcome State Fault Refusal := .next (capStart s)
def execCaptureStop (s : State) : Host.Outcome State Fault Refusal := .next (capStop s)
def execCaptureFreeze (s : State) : Host.Outcome State Fault Refusal := .next (capFreeze s)
def execCaptureReset (s : State) : Host.Outcome State Fault Refusal := .next (capReset s)

/-! Debug commands (29 R417). -/

/-- The warp or wave that DBGARG0 to DBGARG2 name, in a context that may be debugged: a wave by the serial of the task that its
lane 0 took as it formed (R337, R417). -/
def dbgNamed (s : State) (ctx : Nat) (w : Warp) : Bool :=
  ctxOfWg s w.wg == ctx && bitN (dbgOf s w.wg) 0 && serialOf w.wg % 2 ^ 32 == field s.dbgArg0 31 0 &&
    wgNumber w.wg % 2 ^ 40 == field s.dbgArg1 39 0 &&
    (if s.dbgArg2.getLsbD 6 then
      (w.kind == .task || w.kind == .responder) && w.index == field s.dbgArg2 63 32
     else w.kind == .launch && w.index == field s.dbgArg2 5 0)

/-- Apply a command to the named warp, resident or saved. -/
def dbgApply (s : State) (ctx : Nat) (f : Warp → Warp) : State :=
  let g (w : Warp) : Warp := if dbgNamed s ctx w then f w else w
  { s with
    warps := s.warps.map (fun e => (e.1, g e.2))
    ctxs := s.ctxs.map (fun e => (e.1, { e.2 with saved := e.2.saved.map (fun x => { x with warps := x.warps.map g }) })) }

/-- SET_SSTEP and CLEAR_SSTEP (R337). -/
def execSetSstep (ctx : Nat) (s : State) : Host.Outcome State Fault Refusal :=
  .next (dbgApply s ctx (fun w => { w with sstep := true }))
def execClearSstep (ctx : Nat) (s : State) : Host.Outcome State Fault Refusal :=
  .next (dbgApply s ctx (fun w => { w with sstep := false }))

/-- The parked lanes of a warp go on: a choice point (R25, 09 R143). -/
def resumeParked (w : Warp) : Warp :=
  let m := lanesWhere w (fun t => t.wait == .debug)
  if m = 0 then w else choicePoint (modLanes w m (fun _ t => { t with wait := .none }))

/-- RESUME_PARKED: the parked lanes of the named warp go on. -/
def execResumeParked (ctx : Nat) (s : State) : Host.Outcome State Fault Refusal := .next (dbgApply s ctx resumeParked)

/-- RELEASE_HOLDS: every hold of a context ends in one clock, those still to come among them (R338). -/
def execReleaseHolds (ctx : Nat) (s : State) : Host.Outcome State Fault Refusal :=
  let mine (wg : Nat) : Bool := ctxOfWg s wg == ctx && bitN (dbgOf s wg) 0
  let free (w : Warp) : Warp := if mine w.wg then { w with held := false } else w
  let seq (q : Seq) : Seq := if mine q.wg then { q with held := false } else q
  .next { s with
    warps := s.warps.map (fun e => (e.1, free e.2))
    cores := s.cores.map (fun e => (e.1, { e.2 with seq := e.2.seq.map seq }))
    ctxs := s.ctxs.map (fun e => (e.1, { e.2 with saved := e.2.saved.map (fun x =>
      { x with warps := x.warps.map free, seq := x.seq.map seq }) }))
    held := s.held.filter (fun h => !mine h.2.1) }

end Sys2Proof.Machine
end

