-- ==== Sys2Proof/Machine/Pkt.lean ====
section
/-! DEFINITION. Command queues and their packets (27 R385 to R396): the packets' encoding (R387, R388), the fetch (R395),
the validator (R389), the packets' effects (R390 to R394), waits and parking (R396). -/

namespace Sys2Proof.Machine

/-! Encoding (R387, R388). -/

/-- The doubleword of two body words, low word first. -/
def wpair (lo hi : Word) : DWord := hi ++ lo

/-- The words of a WRITE's data as they stand. -/
def decodeWrite (ws : List Word) : Except Nat Instr := match ws with
  | a :: b :: d :: r => .ok (.write (wpair a b).toNat (d :: r))
  | _ => .error 4

/-- The records of a FEED. -/
def feedRecs (ws : List Word) (n : Nat) : List (List Word) := (List.range n).map (fun i => (ws.drop (8 * i)).take 8)

/-- FEED (R388): a count of 0 is a value out of range. -/
def decodeFeed (ws : List Word) : Except Nat Instr := match ws with
  | [] => .error 4
  | w :: r =>
    let n := field w 15 11
    if field w 31 16 ≠ 0 ∨ r.length ≠ 8 * n then .error 4
    else .ok (.feed (field w 5 0) (field w 7 6) (field w 10 8) (feedRecs r n))

/-- A packet whose variant is 0 and whose body is of one length: reserved bits and the number of words are checked here,
ERR 0x04; ranges and addresses where the packet executes (R389). -/
def decodePlain (opc : Nat) (ws : List Word) : Except Nat Instr :=
  match opc, ws with
  | 0x01, [a, b, c] => if field c 31 12 ≠ 0 then .error 4 else .ok (.launch (wpair a b).toNat (field c 11 0))
  | 0x02, [a, b, m, c, d, e] =>
    if field c 19 3 ≠ 0 then .error 4
    else .ok (.claunch (wpair a b).toNat m (field c 2 0) (field c 31 20) (wpair d e).toNat)
  | 0x04, [w] => if field w 31 9 ≠ 0 then .error 4 else .ok (.wake (field w 5 0) (field w 7 6) (w.getLsbD 8))
  | 0x05, [a, b, n] => .ok (.indirect (wpair a b).toNat n.toNat)
  | 0x06, [a, b, v, c] =>
    if field c 15 3 ≠ 0 ∨ field c 31 24 ≠ 0 then .error 4
    else .ok (.pred (wpair a b).toNat v (field c 2 0) (field c 23 16))
  | 0x07, [n] => .ok (.packetLoop n.toNat)
  | 0x08, [] => .ok .endloop
  | 0x0A, [a, b, c, d, n] => .ok (.copy (wpair a b).toNat (wpair c d).toNat n.toNat)
  | 0x0D, [] => .ok .fetchfence
  | 0x0E, [a, b, n, c, d] =>
    if field n 31 16 ≠ 0 then .error 4 else .ok (.snap (wpair a b).toNat (field n 15 0) (wpair c d).toNat)
  | 0x0F, [h, a, b] => .ok (.tlset h (wpair a b))
  | 0x03, ws => decodeFeed ws
  | 0x09, ws => decodeWrite ws
  | 0x00, ws => .ok (.packetNop ws.length)
  | _, _ => .error 4

/-- A packet from its header and body: the instruction, or ERR 0x01 or 0x04 (R387 to R389). A SIGNAL or WAIT whose SUB is
none of the variants that the packet table gives has reserved bits set, ERR 0x04 (DESIGN CHOICE, log 98). -/
def decodePacket (h : Word) (ws : List Word) : Except Nat Instr :=
  let opc := field h 7 0
  let sub := field h 31 24
  if 0x0F < opc then .error 1
  else if field h 23 16 ≠ 0 ∨ field h 15 8 ≠ ws.length then .error 4
  else match opc, sub, ws with
    | 0x0B, 0, [a, b, c, d] => .ok (.signalWrite (wpair a b).toNat (wpair c d))
    | 0x0B, 1, [a, b, c, d] => .ok (.signalAdd (wpair a b).toNat (wpair c d))
    | 0x0C, 0, [a, b, c, d] => .ok (.waitMemory (wpair a b).toNat (wpair c d))
    | 0x0C, 1, [h, z, c, d] => if z ≠ 0 then .error 4 else .ok (.waitTimeline h (wpair c d))
    | opc, 0, ws => decodePlain opc ws
    | _, _, _ => .error 4

/-! The levels of a queue (R392, R395). -/

/-- The ring level of a queue that stands at RPTR. -/
def ringLevel (d : BitVec 512) : Level := ⟨qBase d, 2 ^ qLog d, qRptr d, [], [], 0, 0, 0⟩

/-- Whether the innermost level is the ring. -/
def atRing (x : Queue) : Bool := x.levels.length ≤ 1

/-- The innermost level, as the descriptor now gives it where it is the ring. -/
def topLevel (x : Queue) : Level := match x.levels with
  | [] => ringLevel x.desc
  | [l] => { l with base := qBase x.desc, len := 2 ^ qLog x.desc }
  | l :: _ => l

/-- Replace the innermost level. -/
def setTop (x : Queue) (l : Level) : Queue := match x.levels with
  | [] => { x with levels := [l] }
  | _ :: r => { x with levels := l :: r }

/-- The length in bytes of the packet at the innermost level, from its header's NW (R387). -/
def packetLen (l : Level) : Nat := 4 + 4 * (l.ahead.getD 1 0).toNat

/-- The bytes available at the innermost level: up to WPTR in the ring, up to the end in a buffer. -/
def availOf (x : Queue) : Nat :=
  let l := topLevel x
  if atRing x then (qWptr x.desc + l.len - l.pos % l.len) % l.len else l.len - l.pos

/-- The address of the packet at hand: the ring or buffer address (R386). -/
def packetAddr (x : Queue) : Nat := (topLevel x).base + (topLevel x).pos

/-- The innermost level moves past its packet. -/
def pastPacket (x : Queue) : Queue :=
  let l := topLevel x
  let n := packetLen l
  let p := if atRing x then (l.pos + n) % l.len else l.pos + n
  setTop x { l with pos := p, ahead := l.ahead.drop n }

/-- Virtual pieces of n bytes at an offset of a level; the ring wraps (29 R416). -/
def levelPieces (x : Queue) (off n : Nat) : List (Nat × Nat) :=
  let l := topLevel x
  if atRing x then
    let o := off % l.len
    let a := min n (l.len - o)
    vPieces (l.base + o) a ++ (if a < n then vPieces l.base (n - a) else [])
  else vPieces (l.base + off) n

/-! Failures, waits, effects. -/

/-- What stops or delays a packet (R389). -/
inductive PkFail where
  | halt (err : Nat)
  | page (va : Nat)
deriving DecidableEq, Repr

/-- The effect of a packet on its queue. -/
inductive PkEff where
  /-- it has executed -/
  | done (s : State)
  /-- it waits and asks for a wait slot (R396) -/
  | wait (s : State)
  /-- it waits without a slot -/
  | hold (s : State)
  /-- it has placed the queue itself -/
  | own (s : State)
  /-- it fails -/
  | fail (f : PkFail)

/-- Wait slots that are held (R396). -/
def slotsHeld (s : State) : Nat := (s.queues.filter (fun e => e.2.slot.isSome)).length

/-- Write the status block if what it shows has changed (R386). -/
def showStatus (s0 s : State) (q : Nat) : State :=
  if statusBytes (queueRec s0 q) = statusBytes (queueRec s q) then s else writeStatus s q

/-- The queue that takes the next free wait slot: the one that has wanted a slot longest, and of several the lowest-numbered
(R396; DESIGN CHOICE, log 20). -/
def slotWanted (s : State) : Option Nat :=
  let ws := s.queues.filterMap (fun e => e.2.wants.map (fun t => (e.1, t)))
  (ws.foldl (fun b e => match b with
    | none => some e
    | some x => if e.2 < x.2 then some e else some x) none).map (·.1)

/-- A queue takes a wait slot: one that was parked goes on (R396). -/
def giveSlot (s : State) (q : Nat) : State :=
  let x := queueRec s q
  showStatus s (setQueue s q { x with slot := some (cycleOf s 0), wants := none, st := 2 }) q

/-- Free wait slots go to the queues that want one (R396). Fuel bounds the queues. -/
def shareSlots : Nat → State → State
  | 0, s => s
  | fuel + 1, s =>
    if 16 ≤ slotsHeld s then s
    else match slotWanted s with
      | none => s
      | some q => shareSlots fuel (giveSlot s q)

/-- A queue waits and holds one of the package's 16 wait slots, at once or as soon as one is free (R396). -/
def takeSlot (s : State) (q : Nat) : State :=
  let x := queueRec s q
  let want := if x.slot.isSome then none else some (x.wants.getD (cycleOf s 0))
  shareSlots 64 (setQueue s q { x with st := 2, wants := want })

/-- A queue halts (R389): STATE 4, ERR, and the packet's address. -/
def haltQueue (s : State) (q err addr : Nat) : State :=
  setQueue s q { packetOver (queueRec s q) with st := 4, err := err, haltAddr := addr }

/-- A page that a packet needs is reported for service, and the queue waits (R389, 29 R401). -/
def queuePage (s : State) (q va : Nat) : State :=
  let x := queueRec s q
  let s := takeSlot (setQueue s q { x with fetchPage := some va }) q
  hostEvent { s with pageFaults := s.pageFaults ++ [(q, va)] } 3 va (qCtx x.desc) 0

/-- A failure of a queue at its packet. -/
def failQueue (s : State) (q : Nat) : PkFail → State
  | .halt e => haltQueue s q e (packetAddr (queueRec s q))
  | .page va => queuePage s q va

/-- Place the effect of a packet. -/
def packetEff (s : State) (q : Nat) : PkEff → State
  | .done s1 => showStatus s (setQueue s1 q (packetDone (pastPacket (queueRec s1 q)))) q
  | .wait s1 => showStatus s (takeSlot s1 q) q
  | .hold s1 => showStatus s (setQueue s1 q { queueRec s1 q with st := 2 }) q
  | .own s1 => showStatus s s1 q
  | .fail f => showStatus s (failQueue s q f) q

/-- A packet's meaning, for the queue that executes it. -/
def queueWord (s : State) (body : State → Nat → Queue → PkEff) : Host.Outcome State Fault Refusal :=
  match s.issuer with
  | .queue q => .next (packetEff s q (body s q (queueRec s q)))
  | _ => .fault .noIssuer

/-- Before a packet executes, dirty stash lines that hold what it reads of the range table and of page tables, for the ranges
that it names, have been written back (11 R157). -/
def operandsSeen (s : State) (rs : List (Nat × Nat)) : State :=
  if !anyStash s then s
  else match s.issuer with
    | .queue q =>
      let x := queueRec s q
      tablesSeen (rangesSeen s x) (descOf s (qCtx x.desc)) (rs.flatMap (fun r => vPieces r.1 r.2))
    | _ => s

/-- The meaning of a packet that names ranges of memory, for the queue that executes it. -/
def queueWordAt (s : State) (rs : List (Nat × Nat)) (body : State → Nat → Queue → PkEff) : Host.Outcome State Fault Refusal :=
  queueWord (operandsSeen s rs) body

/-! Operands (R385, R389). -/

/-- The pieces of a virtual range of a queue's context, or what its translation meets: a page for service, ERR 0x0A. -/
def xlated (s : State) (x : Queue) (n : Need) (va len : Nat) : Except PkFail (List (Nat × Nat × Nat)) :=
  match vXlate s (qCtx x.desc) (descOf s (qCtx x.desc)) n (vPieces va len) with
  | .error (.unmapped, a) => .error (.page a)
  | .error _ => .error (.halt 0x0A)
  | .ok ps => .ok ps

/-- Go on with what has been read or translated. -/
def orFail {α : Type} (r : Except PkFail α) (go : α → PkEff) : PkEff :=
  match r with
  | .error f => .fail f
  | .ok x => go x

/-- The range table of a queue (R385), which is read like every other address of the queue (R389). -/
def rangeTable (s : State) (x : Queue) : Except PkFail (List (BitVec 128)) :=
  match xlated s x needR (qArng x.desc) (16 * qAcnt x.desc) with
  | .error f => .error f
  | .ok ps => .ok (entriesOf (readPieces s ps).1)

/-- Ranges of addresses lie in the range table under the permissions they need: ERR 0x03 comes before what any translation
meets (R389). -/
def inRanges (s : State) (x : Queue) (as : List (Need × Nat × Nat)) (go : PkEff) : PkEff :=
  orFail (rangeTable s x) (fun es => if as.all (fun a => rangeOk es a.1 a.2.1 a.2.2) then go else .fail (.halt 3))

/-- The pieces of an operand under the permission that its page needs. -/
def withPieces (s : State) (x : Queue) (n : Need) (va len : Nat) (go : List (Nat × Nat × Nat) → PkEff) : PkEff :=
  orFail (xlated s x n va len) go

/-- Go on with the pieces of an operand: its bytes lie in the range table, and its pages translate (ERR 0x03, 0x0A). -/
def withOperand (s : State) (x : Queue) (n : Need) (va len : Nat) (go : List (Nat × Nat × Nat) → PkEff) : PkEff :=
  inRanges s x [(n, va, len)] (withPieces s x n va len go)

/-! Packets. -/

def nopBody (_n : Nat) (s : State) (_q : Nat) (_x : Queue) : PkEff := .done s
def execPacketNop (n : Nat) (s : State) : Host.Outcome State Fault Refusal := queueWord s (nopBody n)

/-- The launch of a header that has been read: a new serial, the validator, and step 3 (R311, R312). The queue has moved
past the packet, which executes when the launch leaves step 4 (R390). -/
def launchWith (s : State) (q : Nat) (hdr : Nat) (rank : Nat) (cl : Option (Nat × Word × Nat)) : State :=
  let n := s.launchSerial
  let x := queueRec s q
  let ctx := qCtx x.desc
  let d := descOf s ctx
  let h : BitVec 1024 := BitVec.ofNat 1024 hdr
  let s := { s with launchSerial := (n + 1) % 2 ^ 64 }
  let s := setQueue s q { pastPacket x with launching := some n, st := 2 }
  match refusalOf s ctx d h rank with
  | some c => refuseLaunch s q ctx n rank d h c 0
  | none =>
    let s := setCtx s ctx { ctxRec s ctx with mbx := field d 540 528 }
    let g := newGrid s ctx q rank d h x.conds cl
    let s := setGrid s n g
    if condsHold s ctx g.conds then toLease s q n g else takeSlot s q

def launchBody (hdr rank : Nat) (s : State) (q : Nat) (x : Queue) : PkEff :=
  if hdr % 128 ≠ 0 then .fail (.halt 7)
  else withOperand s x needR hdr 128 (fun ps =>
    let (bs, s) := readPieces s ps
    .own (launchWith s q (leNat bs) rank none))

def execLaunch (hdr rank : Nat) (s : State) : Host.Outcome State Fault Refusal :=
  queueWordAt s [(hdr, 128)] (launchBody hdr rank)

/-- A splicer context that a CLAUNCH may start: its link is enabled, and it is idle or halted (R393). -/
def startable (s : State) (k : Nat) : Bool :=
  linkOn s (k / 8) && ((splRec s k).st == spIdle || (splRec s k).st == spHalted)

/-- The first failure of a translation among the start records of a mask's links. -/
def recordsFail (s : State) (x : Queue) (tbl : Nat) : List Nat → Option PkFail
  | [] => none
  | l :: r => match xlated s x needR (tbl + 320 * l) 264 with
    | .error f => some f
    | .ok _ => recordsFail s x tbl r

/-- What a CLAUNCH reads: the records of the mask's links, and the launch header if it has one (R388). -/
def claunchReads (tbl hdr : Nat) (ls : List Nat) : List (Need × Nat × Nat) :=
  ls.map (fun l => (needR, tbl + 320 * l, 264)) ++ (if hdr = 0 then [] else [(needR, hdr, 128)])

/-- CLAUNCH (R393). -/
def claunchBody (tbl : Nat) (mask : Word) (c rank hdr : Nat) (s : State) (q : Nat) (x : Queue) : PkEff :=
  let ls := lanesOf mask
  if tbl % 64 ≠ 0 ∨ hdr % 128 ≠ 0 ∨ (hdr = 0 ∧ rank ≠ 0) ∨ ¬ ls.all (fun l => startable s (8 * l + c)) = true then
    .fail (.halt 7)
  else inRanges s x (claunchReads tbl hdr ls) (match recordsFail s x tbl ls with
    | some f => .fail f
    | none =>
      if hdr = 0 then
        if condsHold s (qCtx x.desc) x.conds then
          .done (setQueue (claunchStart s (qCtx x.desc) (some (tbl, mask, c))) q { x with conds := [] })
        else .wait s
      else withPieces s x needR hdr 128 (fun ps =>
        let (bs, s) := readPieces s ps
        .own (launchWith s q (leNat bs) rank (some (tbl, mask, c)))))

def execClaunch (tbl : Nat) (mask : Word) (c rank hdr : Nat) (s : State) : Host.Outcome State Fault Refusal :=
  queueWordAt s ((claunchReads tbl hdr (lanesOf mask)).map (·.2)) (claunchBody tbl mask c rank hdr)

/-- FEED: the records enter as one group once there is room for them, after every push of the context that came before (17
R271). A queue that is saved with its context takes them where it is (17 R278; log 106). -/
def feedBody (core die hq : Nat) (recs : List (List Word)) (s : State) (_q : Nat) (x : Queue) : PkEff :=
  let c := 64 * die + core
  let kept := savedQueue (qCtx x.desc) (8 * c + hq)
  let k := if (tget s.hwqs kept).isSome then kept else 8 * c + hq
  let h := hwqRec s k
  if recs.isEmpty ∨ ¬ coreOn s c = true then .fail (.halt 7)
  else if hqEn h.desc = false ∨ hqCtx h.desc ≠ qCtx x.desc then .fail (.halt 9)
  else if h.waiters.any (fun w => w.push.isSome && hqServes s h w) ∨ hqCap h < h.recs.length + recs.length then .wait s
  else .done (hqServeAll (recs.foldl (fun s r => hqPush s k r) s) k)

def execFeed (core die hq : Nat) (recs : List (List Word)) (s : State) : Host.Outcome State Fault Refusal :=
  queueWord s (feedBody core die hq recs)

/-- The lanes of a warp that sleep. -/
def sleepers (w : Warp) : Mask := lanesWhere w (fun t => match t.wait with
  | .sleep _ => true
  | .slept _ => true
  | _ => false)

/-- Every SLEEP of a context on a core ends, also of its warps that a freeze has stopped in place (R388). -/
def wakeCore (s : State) (ctx c : Nat) : State :=
  ((s.warps.filter (fun e => coreOf e.1 == c && ctxOfWg s e.2.wg == ctx)).map (·.1)).foldl (fun s k =>
    match tget s.warps k with
    | none => s
    | some w => if sleepers w = 0 then s else releaseLanes s k (sleepers w)) s

def wakeBody (core die : Nat) (all : Bool) (s : State) (_q : Nat) (x : Queue) : PkEff :=
  let cs := if all then (List.range 64).map (64 * die + ·) else [64 * die + core]
  .done (cs.foldl (fun s c => wakeCore s (qCtx x.desc) c) s)

def execWake (core die : Nat) (all : Bool) (s : State) : Host.Outcome State Fault Refusal :=
  queueWord s (wakeBody core die all)

/-- INDIRECT: the queue enters the buffer and returns to the packet after it (R392). The packet is over: what has been written
into the descriptor governs the next one (29 R415). -/
def indirectBody (a n : Nat) (s : State) (q : Nat) (x : Queue) : PkEff :=
  if 3 ≤ x.levels.length then .fail (.halt 5)
  else if a % 4 ≠ 0 ∨ n % 4 ≠ 0 ∨ n < 4 ∨ 2 ^ 20 < n then .fail (.halt 7)
  else withOperand s x needR a n (fun _ =>
    let x := packetOver (pastPacket x)
    .own (setQueue s q { x with levels := ⟨a, n, 0, [], [], 0, 0, 0⟩ :: x.levels, st := 1 }))

def execIndirect (a n : Nat) (s : State) : Host.Outcome State Fault Refusal :=
  queueWordAt s [(a, n)] (indirectBody a n)

/-- The condition of a PRED (R388). -/
def predHolds (c : Nat) (a v : Word) : Bool :=
  match c with
  | 0 => a == v
  | 1 => a != v
  | 2 => a.ult v
  | _ => !a.ult v

/-- PRED: a false condition skips the next packets of the buffer level (R392). -/
def predBody (a : Nat) (v : Word) (c skip : Nat) (s : State) (q : Nat) (x : Queue) : PkEff :=
  if a % 4 ≠ 0 ∨ 3 < c ∨ skip = 0 then .fail (.halt 7)
  else withOperand s x needR a 4 (fun ps =>
    let (bs, s) := readPieces s ps
    let l := topLevel x
    .done (if predHolds c (BitVec.ofNat 32 (leNat bs)) v then s
      else setQueue s q (setTop x { l with skip := skip })))

def execPred (a : Nat) (v : Word) (c skip : Nat) (s : State) : Host.Outcome State Fault Refusal :=
  queueWordAt s [(a, 4)] (predBody a v c skip)

/-- LOOP: the packet after it is the loop's head (R392). -/
def loopBody (n : Nat) (s : State) (q : Nat) (x : Queue) : PkEff :=
  let l := topLevel x
  if 4 ≤ l.loops.length then .fail (.halt 6)
  else if n = 0 ∨ 65535 < n then .fail (.halt 7)
  else
    let head := (topLevel (pastPacket x)).pos
    .done (setQueue s q (setTop x { l with loops := (head, n) :: l.loops }))

def execPacketLoop (n : Nat) (s : State) : Host.Outcome State Fault Refusal := queueWord s (loopBody n)

/-- ENDLOOP: the repeat is fetched afresh from the loop's head, or the loop is spent (R392, R395). -/
def endloopBody (s : State) (q : Nat) (x : Queue) : PkEff :=
  let l := topLevel x
  match l.loops with
  | [] => .fail (.halt 6)
  | (head, n) :: r =>
    if n ≤ 1 then .done (setQueue s q (setTop x { l with loops := r }))
    else .own (setQueue s q (packetDone (setTop x { l with pos := head, ahead := [], loops := (head, n - 1) :: r })))

def execEndloop (s : State) : Host.Outcome State Fault Refusal := queueWord s endloopBody

/-- The bytes of data words. -/
def wordBytes (ws : List Word) : List Byte := ws.flatMap (fun w => leBytes 4 w.toNat)

def writeBody (a : Nat) (ws : List Word) (s : State) (_q : Nat) (x : Queue) : PkEff :=
  if a % 4 ≠ 0 then .fail (.halt 7)
  else withOperand s x needW a (4 * ws.length) (fun ps => .done (writePieces s ps (wordBytes ws)))

def execWrite (a : Nat) (ws : List Word) (s : State) : Host.Outcome State Fault Refusal :=
  queueWordAt s [(a, 4 * ws.length)] (writeBody a ws)

/-- The physical addresses of translated pieces, byte by byte. -/
def pieceBytes (ps : List (Nat × Nat × Nat)) : List Nat := ps.flatMap (fun p => (List.range p.2.2).map (p.2.1 + ·))

/-- The bytes of a copy's destination to which poison travels (29 R408). -/
def travels (s : State) (src dst : List (Nat × Nat × Nat)) : List Nat :=
  if s.poison.isEmpty then []
  else (((pieceBytes src).zip (pieceBytes dst)).filter (fun e => seenPoisoned s e.1 1)).map (·.2)

def copyBody (dst src n : Nat) (s : State) (_q : Nat) (x : Queue) : PkEff :=
  if dst % 4 ≠ 0 ∨ src % 4 ≠ 0 ∨ n % 4 ≠ 0 ∨ n < 4 then .fail (.halt 7)
  else inRanges s x [(needR, src, n), (needW, dst, n)]
    (withPieces s x needR src n (fun ps => withPieces s x needW dst n (fun pd =>
      let bad := travels s ps pd
      let (bs, s) := readPieces s ps
      let s := writePieces s pd bs
      .done { s with poison := s.poison ++ bad })))

def execCopy (dst src n : Nat) (s : State) : Host.Outcome State Fault Refusal :=
  queueWordAt s [(src, n), (dst, n)] (copyBody dst src n)

/-- Some grid of a queue has neither completed nor ended (R390). -/
def queueBusy (s : State) (q : Nat) : Bool := s.grids.any (fun e => e.2.queue == q)

/-- SIGNAL SUB 0: the value is written once every earlier grid of the queue is over. -/
def signalWriteBody (a : Nat) (v : DWord) (s : State) (q : Nat) (x : Queue) : PkEff :=
  if a % 8 ≠ 0 then .fail (.halt 7)
  else inRanges s x [(needRW, a, 8)] (withPieces s x needW a 8 (fun ps =>
    if queueBusy s q then .hold s else .done (writePieces s ps (leBytes 8 v.toNat))))

def execSignalWrite (a : Nat) (v : DWord) (s : State) : Host.Outcome State Fault Refusal :=
  queueWordAt s [(a, 8)] (signalWriteBody a v)

/-- SIGNAL SUB 1: the value is added modulo 2^64. -/
def signalAddBody (a : Nat) (v : DWord) (s : State) (q : Nat) (x : Queue) : PkEff :=
  if a % 8 ≠ 0 then .fail (.halt 7)
  else withOperand s x needRW a 8 (fun ps =>
    if queueBusy s q then .hold s
    else
      let (bs, s) := readPieces s ps
      .done (writePieces s ps (leBytes 8 (leNat bs + v.toNat))))

def execSignalAdd (a : Nat) (v : DWord) (s : State) : Host.Outcome State Fault Refusal :=
  queueWordAt s [(a, 8)] (signalAddBody a v)

/-- WAIT SUB 0: until the word, read unsigned, is at least the threshold. -/
def waitMemoryBody (a : Nat) (v : DWord) (s : State) (_q : Nat) (x : Queue) : PkEff :=
  if a % 8 ≠ 0 then .fail (.halt 7)
  else withOperand s x needR a 8 (fun ps =>
    let (bs, s1) := readPieces s ps
    if v.toNat ≤ leNat bs then .done s1 else .wait s1)

def execWaitMemory (a : Nat) (v : DWord) (s : State) : Host.Outcome State Fault Refusal :=
  queueWordAt s [(a, 8)] (waitMemoryBody a v)

/-- WAIT SUB 1: until the counter is at least the threshold. -/
def waitTimelineBody (h : Word) (v : DWord) (s : State) (_q : Nat) (x : Queue) : PkEff :=
  let ctx := qCtx x.desc
  if !handleOk s ctx h then .fail (.halt 7)
  else if v.toNat ≤ handleVal s ctx h then .done s else .wait s

def execWaitTimeline (h : Word) (v : DWord) (s : State) : Host.Outcome State Fault Refusal :=
  queueWord s (waitTimelineBody h v)

/-- FETCHFENCE: every byte fetched ahead is discarded, at every level (R395). -/
def fenceBody (s : State) (q : Nat) (x : Queue) : PkEff :=
  let x := packetDone (pastPacket x)
  .own (setQueue s q { x with levels := x.levels.map (fun l => { l with ahead := [] }) })

def execFetchfence (s : State) : Host.Outcome State Fault Refusal := queueWord s fenceBody

/-- TLSET: the condition joins those of the next launch. -/
def tlsetBody (h : Word) (v : DWord) (s : State) (q : Nat) (x : Queue) : PkEff :=
  if !handleOk s (qCtx x.desc) h then .fail (.halt 7)
  else .done (setQueue s q { x with conds := x.conds ++ [(h, v)] })

def execTlset (h : Word) (v : DWord) (s : State) : Host.Outcome State Fault Refusal := queueWord s (tlsetBody h v)

/-! SNAP (11 R183, R184, 27 R388, R394). -/

/-- A snapshot range: its address and its lines. -/
def snapRanges (es : List (BitVec 128)) : List (Nat × Nat) := es.map (fun e => (field e 56 0, field e 95 64))

/-- A snapshot range entry has no bit set outside its fields. -/
def snapEntryClean (e : BitVec 128) : Bool := field e 63 57 == 0 && field e 127 96 == 0

/-- A snapshot range is aligned and not empty. -/
def snapEntryOk (e : BitVec 128) : Bool := field e 56 0 % 128 == 0 && field e 95 64 != 0

/-- Two ranges of bytes meet. -/
def rangesMeet (a n b m : Nat) : Bool := decide (a < b + m) && decide (b < a + n)

/-- The snapshot area overlaps a range of the snapshot or a lease of a grid of the context (11 R183). -/
def snapOverlap (s : State) (ctx : Nat) (rs : List (Nat × Nat)) (area n : Nat) : Bool :=
  rs.any (fun r => rangesMeet area n r.1 (128 * r.2)) ||
    s.grids.any (fun e => e.2.ctx == ctx && e.2.leases.any (fun l =>
      rangesMeet area n (field l 56 12 * 4096) ((field l 108 64 + 1) * 4096)))

/-- The lines of ranges and of the area, each by its first physical address, or what stops the translation. -/
def snapLines (s : State) (x : Queue) : List (Nat × Nat) → Except PkFail (List (Nat × Nat))
  | [] => .ok []
  | (va, av) :: r =>
    let ctx := qCtx x.desc
    match ctxXlate s ctx (descOf s ctx) needR va 128, ctxXlate s ctx (descOf s ctx) needW av 128 with
    | .error .unmapped, _ => .error (.page va)
    | _, .error .unmapped => .error (.page av)
    | .error _, _ => .error (.halt 0x0A)
    | _, .error _ => .error (.halt 0x0A)
    | .ok (p, _), .ok (a, _) => match snapLines s x r with
      | .error f => .error f
      | .ok ls => .ok ((p, a) :: ls)

/-- The virtual lines of ranges in order, each with its place in the area. -/
def snapPairs (area : Nat) (rs : List (Nat × Nat)) : List (Nat × Nat) :=
  let ls := rs.flatMap (fun r => (List.range r.2).map (fun i => r.1 + 128 * i))
  (List.range ls.length).zip ls |>.map (fun e => (e.2, area + 128 * e.1))

/-- The snapshot begins: its operation is numbered, and its lines are still to be copied (R184). -/
def snapStart (s : State) (ctx : Nat) (todo : List (Nat × Nat)) : State :=
  let t := tlOf s ctx snapHandle
  let s := setTl s ctx snapHandle { t with issued := t.issued + 1 }
  setCtx s ctx { ctxRec s ctx with snap := some ⟨todo⟩ }

/-- The bytes of ranges of lines. -/
def snapSize (rs : List (Nat × Nat)) : Nat := 128 * rs.foldl (fun n r => n + r.2) 0

/-- The checks of a snapshot's ranges and area, once they are known to be in range: ERR 0x0A, 0x08 (R389). -/
def snapChecked (s : State) (x : Queue) (rs : List (Nat × Nat)) (area : Nat) : PkEff :=
  let ctx := qCtx x.desc
  let s := tablesSeen s (descOf s ctx) ((snapPairs area rs).flatMap (fun p => [(p.1, 128), (p.2, 128)]))
  orFail (snapLines s x (snapPairs area rs)) (fun todo =>
    if snapOverlap s ctx rs area (snapSize rs) then .fail (.halt 8)
    else if (ctxRec s ctx).snap.isSome then .hold s
    else .done (snapStart s ctx todo))

/-- A snapshot whose range table has been read (R389): its entries' reserved bits, then alignment and lengths, then the
area's place in the queue's ranges. -/
def snapEntries (area : Nat) (es : List (BitVec 128)) (s : State) (x : Queue) : PkEff :=
  let rs := snapRanges es
  if !es.all snapEntryClean then .fail (.halt 4)
  else if area % 128 ≠ 0 ∨ es.all snapEntryOk = false then .fail (.halt 7)
  else inRanges s x [(needW, area, snapSize rs)] (snapChecked s x rs area)

/-- SNAP. A range table that cannot be read shows neither its entries nor the area's length: of the conditions that can be
seen without them the first in R389's order is recorded. -/
def snapBody (tbl n area : Nat) (s : State) (_q : Nat) (x : Queue) : PkEff :=
  if n = 0 ∨ 4096 < n then .fail (.halt 7)
  else orFail (rangeTable s x) (fun ranges =>
    if !rangeOk ranges needR tbl (16 * n) then .fail (.halt (if area % 128 ≠ 0 then 7 else 3))
    else match xlated s x needR tbl (16 * n) with
      | .error f =>
        .fail (if area % 128 ≠ 0 then .halt 7 else if !rangeOk ranges needW area 128 then .halt 3 else f)
      | .ok ps =>
        let (bs, s) := readPieces s ps
        snapEntries area (entriesOf bs) s x)

def execSnap (tbl n area : Nat) (s : State) : Host.Outcome State Fault Refusal :=
  queueWordAt s [(tbl, 16 * n)] (snapBody tbl n area)

/-- SNAPSHOT_BACKGROUND_COPY: the background engine copies the next line that no write has reached (11 R184). -/
def execSnapshotBackgroundCopy (ctx : Nat) (s : State) : Host.Outcome State Fault Refusal :=
  match (ctxRec s ctx).snap with
  | none => .next s
  | some sn => match sn.todo with
    | [] => .next s
    | line :: _ => .next (snapLine (snapTodo s + 1) s (ctx, line))

/-! The fetch (R392, R395). -/

/-- What a queue has at its next packet boundary. -/
inductive QFetch where
  /-- nothing to execute now -/
  | none (s : State)
  /-- a packet -/
  | packet (i : Instr) (s : State)

/-- Bytes of a level, or what stops the read (R389). -/
def levelRead (s : State) (x : Queue) (off n : Nat) : Except PkFail (List Byte × State) :=
  match vXlate s (qCtx x.desc) (descOf s (qCtx x.desc)) needR (levelPieces x off n) with
  | .error (.unmapped, a) => .error (.page a)
  | .error _ => .error (.halt 0x0A)
  | .ok ps => .ok (readPieces (tablesSeen s (descOf s (qCtx x.desc)) (levelPieces x off n)) ps)

/-- Hold at least n bytes of the innermost level, fetching those that are missing. -/
def holdBytes (s : State) (q n : Nat) : Except PkFail State :=
  let x := queueRec s q
  let l := topLevel x
  if n ≤ l.ahead.length then .ok s
  else match levelRead s x (l.pos + l.ahead.length) (n - l.ahead.length) with
    | .error f => .error f
    | .ok (bs, s) =>
      let got := if l.gotAt = cycleOf s 0 then l.got + bs.length else bs.length
      .ok (setQueue s q (setTop x { l with ahead := l.ahead ++ bs, got := got, gotAt := cycleOf s 0 }))

/-- Fetch further bytes ahead of the packet, as many as the lead chooses, up to 256 (R395; log 2). -/
def fetchAhead (s : State) (q total avail : Nat) : State :=
  let (n, s) := choose s 257
  match holdBytes s q (min avail (total + n)) with
  | .error _ => s
  | .ok s => s

/-- A host write into bytes that are being fetched ahead in its clock, or in that of the step before, which may be the same
one (log 3, log 99): the fetch holds the old or the new bytes, each byte independently (R399). -/
def mixQueue (s : State) (q pa : Nat) (bs : List Byte) : State :=
  let x := queueRec s q
  let l := topLevel x
  let old := l.ahead.length - l.got
  if l.ahead.isEmpty ∨ l.got = 0 ∨ l.gotAt + 1 < cycleOf s 0 then s
  else match vXlate s (qCtx x.desc) (descOf s (qCtx x.desc)) needR (levelPieces x (l.pos + old) (l.ahead.length - old)) with
    | .error _ => s
    | .ok ps =>
      let at_ := pieceBytes ps
      let (ahead, s) := ((List.range at_.length).zip at_).foldl (fun (r : List Byte × State) e =>
        if pa ≤ e.2 ∧ e.2 < pa + bs.length then
          let (c, s) := choose r.2 2
          (if c = 0 then r.1 else r.1.set (old + e.1) (bs.getD (e.2 - pa) 0), s)
        else r) (l.ahead, s)
      setQueue s q (setTop x { l with ahead := ahead })

/-- The errors that a header's opcode gives: ERR 0x01, 0x02 (R389). -/
def headerErr (x : Queue) (h : Word) : Option Nat :=
  let opc := field h 7 0
  if 0x0F < opc then some 1 else if (qMask x.desc).testBit opc = false then some 2 else none

/-- The packet's bytes are held: it is skipped, fails its mask or its encoding, or is decoded (R389, R392). -/
def fetched (s : State) (q : Nat) : QFetch :=
  let x := queueRec s q
  let l := topLevel x
  let n := packetLen l
  let ws := (List.range (n / 4)).map (fun i => (BitVec.ofNat 32 (leNat ((l.ahead.drop (4 * i)).take 4)) : Word))
  if l.skip ≠ 0 then
    .none (setQueue s q (packetDone (pastPacket (setTop x { l with skip := l.skip - 1 }))))
  else match ws with
    | [] => .none s
    | h :: body => match headerErr x h with
      | some e => .none (failQueue s q (.halt e))
      | none => match decodePacket h body with
        | .error e => .none (failQueue s q (.halt e))
        | .ok i => .packet i s

/-- The bytes that are available end in the middle of a packet: a buffer halts, with the errors of the packet's header
before ERR 0x04, and the ring waits for the rest (R389, R392). -/
def cutShort (s : State) (q : Nat) (x : Queue) : QFetch :=
  let l := topLevel x
  let h : Word := BitVec.ofNat 32 (leNat (l.ahead.take 4))
  .none (if atRing x then s
    else failQueue s q (.halt (if l.skip ≠ 0 ∨ l.ahead.length < 4 then 4 else (headerErr x h).getD 4)))

/-- Fetch the packet at the innermost level, of which some bytes are available. -/
def fetchPacket (s : State) (q : Nat) (x : Queue) : QFetch :=
  let avail := availOf x
  if avail < 4 then cutShort s q x
  else match holdBytes s q 4 with
    | .error f => .none (failQueue s q f)
    | .ok s =>
      let total := packetLen (topLevel (queueRec s q))
      if avail < total then cutShort s q (queueRec s q)
      else
        let fresh := decide ((topLevel (queueRec s q)).ahead.length < total)
        match holdBytes s q total with
        | .error f => .none (failQueue s q f)
        | .ok s => fetched (if fresh then fetchAhead s q total avail else s) q

/-- A buffer has been executed to its end: the queue returns to the level above, unless a loop is still open (R389,
R392). -/
def leaveBuffer (s : State) (q : Nat) (x : Queue) : State :=
  if (topLevel x).loops.isEmpty then setQueue s q (packetDone { x with levels := x.levels.tail })
  else failQueue s q (.halt 6)

/-- The lead runs: it has booted an image that the root has verified (R382, 29 R402). -/
def leadRuns (s : State) : Bool := !s.lead.1.isEmpty

/-- A queue that may fetch: enabled, not halted, parked or waiting for a page, and past its last launch's step 4. -/
def queueOpen (x : Queue) : Bool :=
  qEn x.desc && x.st != 3 && x.st != 4 && x.launching.isNone && x.fetchPage.isNone

/-- The ring size is in range (R385). -/
def ringSizeOk (x : Queue) : Bool := decide (12 ≤ qLog x.desc) && decide (qLog x.desc ≤ 24)

/-- A queue with nothing left to fetch is idle. -/
def idleQueue (s : State) (q : Nat) (x : Queue) : State := if x.st = 0 then s else setQueue s q { x with st := 0 }

/-- What a queue does at its next turn before a packet executes, its status block aside. -/
def fetchTurn (s : State) (q : Nat) : QFetch :=
  let x := queueRec s q
  if !(leadRuns s && queueOpen x) then .none s
  else if !ringSizeOk x then .none (haltQueue s q 7 0)
  else
    let x := { x with levels := if x.levels.isEmpty then [ringLevel x.desc] else x.levels }
    if availOf x = 0 then .none (if atRing x then idleQueue s q x else leaveBuffer s q x)
    else fetchPacket (setQueue s q x) q x

/-- What a queue does at its next turn before a packet executes. -/
def queueFetch (s : State) (q : Nat) : QFetch :=
  match fetchTurn s q with
  | .none t => .none (showStatus s t q)
  | .packet i t => .packet i t

/-! Parking (R396). -/

/-- The body of a packet that waits for a condition. -/
def waitBody : Instr → Option (State → Nat → Queue → PkEff)
  | .waitMemory a v => some (waitMemoryBody a v)
  | .waitTimeline h v => some (waitTimelineBody h v)
  | .feed c d h recs => some (feedBody c d h recs)
  | .claunch t m c r h => some (claunchBody t m c r h)
  | _ => none

/-- A packet no longer waits: it would execute, or fail. -/
def effReady : PkEff → Bool
  | .wait _ => false
  | .hold _ => false
  | _ => true

/-- What the packet at which a queue waits would do: its bytes are fetched anew where they are not held (R396). -/
def waitsAt (s : State) (q : Nat) : Option (PkEff) :=
  match holdBytes s q 4 with
  | .error _ => none
  | .ok s => match holdBytes s q (packetLen (topLevel (queueRec s q))) with
    | .error _ => none
    | .ok s => match fetched s q with
      | .packet i s => (waitBody i).map (fun b => b s q (queueRec s q))
      | .none _ => none

/-- The condition that a queue waits for holds (R396). -/
def conditionHolds (s : State) (q : Nat) : Bool :=
  let x := queueRec s q
  match x.launching, x.fetchPage with
  | some n, _ => match tget s.grids n with
    | some g => g.stage == 3 && condsHold s g.ctx g.conds
    | none => true
  | none, some _ => false
  | none, none => match waitsAt s q with
    | some e => effReady e
    | none => true

/-- The holder that has waited longest, of those that have waited for 64 µs. -/
def longestHolder (s : State) : Option Nat :=
  let hs := s.queues.filterMap (fun e => e.2.slot.map (fun t => (e.1, t)))
  let old := hs.filter (fun e => decide (e.2 + 64 * usClocks ≤ cycleOf s 0))
  (old.foldl (fun b e => match b with
    | none => some e
    | some x => if e.2 < x.2 then some e else some x) none).map (·.1)

/-- WAIT_SLOT_PARKING: with all 16 slots held, the longest holder is parked, unless its condition holds just then. -/
def execWaitSlotParking (s : State) : Host.Outcome State Fault Refusal :=
  if slotsHeld s < 16 then .next s
  else match longestHolder s with
    | none => .next s
    | some q =>
      if conditionHolds s q then .next s
      else
        let x := queueRec s q
        .next (putQueue s q { x with slot := none, st := 3, parks := x.parks + 1, parkedAt := cycleOf s 0 })

/-- A queue wants a wait slot as from now (R396). -/
def wantSlot (s : State) (q : Nat) (x : Queue) : State :=
  shareSlots 64 (setQueue s q { x with wants := some (cycleOf s 0) })

/-- PARKED_CONDITION_CHECK: every 64 µs the condition of a parked queue is checked again; when it holds, the queue takes the
next free slot and goes on. -/
def execParkedConditionCheck (q : Nat) (s : State) : Host.Outcome State Fault Refusal :=
  let x := queueRec s q
  if x.st ≠ 3 ∨ x.wants.isSome = true ∨ cycleOf s 0 < x.parkedAt + 64 * usClocks then .next s
  else if conditionHolds s q then .next (wantSlot s q x)
  else .next (setQueue s q { x with parkedAt := cycleOf s 0 })

end Sys2Proof.Machine
end

