-- ==== Sys2Proof/Machine/HostI.lean ====
section
/-! DEFINITION. The host interface (29 R400 to R417): doorbells, descriptor windows and the registers of BAR0, host
accesses to memory, errors, power and temperature, firmware (27 R382, R383, 29 R402, R403), confidential keys (R404) and
the reset ladder (27 R398). -/

namespace Sys2Proof.Machine

/-! Parts of wide registers. -/

/-- A register of n bits with some of its bytes written, from a byte offset. -/
def putBytes {n : Nat} (x : BitVec n) (off size v : Nat) : BitVec n := setField x (8 * (off + size) - 1) (8 * off) v

/-- A 64-bit register with the bits of a mask writable. -/
def maskWrite (x : DWord) (mask off size v : Nat) : DWord :=
  let m : DWord := BitVec.ofNat 64 mask
  (x &&& ~~~m) ||| (putBytes x off size v &&& m)

/-- The mask of a field by its high and low bit. -/
def bitsMask (hi lo : Nat) : Nat := 2 ^ (hi + 1) - 2 ^ lo

/-! Doorbells (R416) and command-queue descriptors (27 R385). -/

/-- The descriptor of a queue as the host has written it last (R399). -/
def hostDesc (x : Queue) : BitVec 512 := x.fresh.getD x.desc

/-- A queue has a packet at hand that waits: what is written into its descriptor takes effect with its next packet (27 R399,
R415). -/
def packetAtHand (x : Queue) : Bool := x.st == 2 || x.st == 3

/-- The host changes the descriptor of a queue. -/
def putHostDesc (s : State) (q : Nat) (d : BitVec 512) : State :=
  let x := queueRec s q
  setQueue s q (if packetAtHand x then { x with fresh := some d } else { x with desc := d })

/-- A new WPTR: a value that is no multiple of 4 or not below the ring size is ignored (R416). -/
def setWptr (s : State) (q v : Nat) : State :=
  let d := hostDesc (queueRec s q)
  if v % 4 = 0 ∧ v < 2 ^ qLog d then putHostDesc s q (setField d 319 288 v) else s

/-- DOORBELL_WRITE (R416). -/
def execDoorbellWrite (q off : Nat) (v : Word) (s : State) : Host.Outcome State Fault Refusal :=
  .next (if off = 0 ∧ q < 64 then setWptr s q v.toNat else s)

/-- The writable fields of a command-queue descriptor, WPTR aside (R385). -/
def qFields : List (Nat × Nat) := [(511, 448), (447, 442), (383, 320), (255, 192), (63, 48), (47, 36), (35, 34), (33, 29), (0, 0)]

/-- A write to a command-queue descriptor (R385, R415). -/
def queueDescWrite (s : State) (q off size v : Nat) : State :=
  let old := hostDesc (queueRec s q)
  let d := putBytes old off size v
  let s := putHostDesc s q (qFields.foldl (fun e f => setField e f.1 f.2 (field d f.1 f.2)) old)
  if off ≤ 36 ∧ 40 ≤ off + size then setWptr s q (field d 319 288) else s

/-! Hardware-queue descriptors (17 R269). -/

/-- The key of a hardware queue in the list of pages whose service is awaited. -/
def hwqPageKey (k : Nat) : Nat := 2 ^ 80 + k

/-- HWQ_DESCRIPTOR_WRITE (R269): CTX, RBASE and RLOG2 are taken while EN is 0; setting EN asks for the ring; clearing it
ends the queue's use. -/
def execHwqDescriptorWrite (k off size v : Nat) (s : State) : Host.Outcome State Fault Refusal :=
  let x := hwqRec s k
  let old := x.enabling.getD x.desc
  let d := putBytes old off size v
  if hqEn old then
    .next (if hqEn d then s
      else setHwq { s with pageFaults := s.pageFaults.filter (fun f => f.1 != hwqPageKey k) } k
        { x with desc := setField x.desc 0 0 0, enabling := none, recs := [], ring := [] })
  else
    let n := field d 64 60
    let log := if 5 ≤ n ∧ n ≤ 20 then n else field old 64 60
    let e := setField (setField (setField old 59 48 (field d 59 48)) 116 65 (field d 116 65)) 64 60 log
    .next (setHwq s k (if hqEn d then { x with desc := e, enabling := some (setField e 0 0 1) } else { x with desc := e }))

/-- The pages of a ring by number. -/
def ringPages (d : BitVec 256) : List Nat :=
  let a := hqBase d
  let n := (a + 32 * hqRing d - 1) / 4096 + 1 - a / 4096
  (List.range n).map (a / 4096 + ·)

/-- The part of a page that belongs to a ring: its first address and its length. -/
def ringPart (d : BitVec 256) (p : Nat) : Nat × Nat :=
  let a := max (hqBase d) (4096 * p)
  (a, min (hqBase d + 32 * hqRing d) (4096 * p + 4096) - a)

/-- The walk of a ring: the physical addresses of its pages, or the first failure with its address. -/
def ringWalk (s : State) (d : BitVec 256) : List Nat → Except (XErr × Nat) (List Nat)
  | [] => .ok []
  | p :: r =>
    let part := ringPart d p
    match ctxXlate s (hqCtx d) (descOf s (hqCtx d)) needRW part.1 part.2 with
    | .error e => .error (e, part.1)
    | .ok (pa, _) =>
      match ringWalk s d r with
      | .error e => .error e
      | .ok ps => .ok ((pa - part.1 % 4096) :: ps)

/-- HWQ_RING_RESIDENT: the ring that an enable waits for is resident, or a page of it is reported for service, or the
enable fails (R269). Lanes that still wait on the queue are served in their order (17 R271). -/
def execHwqRingResident (k : Nat) (s : State) : Host.Outcome State Fault Refusal :=
  let x := hwqRec s k
  match x.enabling with
  | none => .next s
  | some d =>
    let s0 := { s with pageFaults := s.pageFaults.filter (fun f => f.1 != hwqPageKey k) }
    match ringWalk s d (ringPages d) with
    | .ok ps =>
      let s0 := tablesSeen s0 (descOf s (hqCtx d)) ((ringPages d).map (ringPart d))
      .next (hqServeAll (setHwq s0 k ⟨setField (setField d 255 192 0) 191 128 0, [], x.waiters, none, ps⟩) k)
    | .error (.unmapped, a) =>
      if s.pageFaults.contains (hwqPageKey k, a) then .next s
      else .next (hostEvent { s0 with pageFaults := s0.pageFaults ++ [(hwqPageKey k, a)] } 3 a (hqCtx d) 0)
    | .error _ =>
      let c := k / 8
      .next (hostEvent (setHwq s0 k { x with enabling := none }) 8
        (dieOf c + c % 64 * 2 ^ 8 + k % 8 * 2 ^ 16) (hqCtx d) (dieOf c))

/-! Confidential keys (R404). -/

/-- The line of 128 bytes of a bound granule as it stands in memory: the line is the data unit of the cipher, and its
physical address the tweak (R404). -/
def cipherLine (s : State) (ctx line : Nat) : List Byte :=
  let bs := Config.cipher ctx (128 * line) (memBytes s.mem (128 * line) 128)
  (List.range 128).map (fun i => bs.getD i 0)

/-- The key of a context is destroyed: what its granules hold can no longer be read as it was, and nothing is bound to the
context any more. -/
def destroyKey (s : State) (ctx : Nat) : State :=
  let x := ctxRec s ctx
  let s := x.granules.foldl (fun s g => (List.range (2 ^ 14)).foldl (fun s i =>
    let line := g * 2 ^ 14 + i
    { s with mem := memPuts s.mem (128 * line) (cipherLine s ctx line) }) s) s
  if x.granules.isEmpty then s else setCtx s ctx { ctxRec s ctx with granules := [] }

/-- The granules that the root binds to a context that becomes confidential: of those it names, those in bonded DRAM or
LP6 that no other context has (R404; log 6). -/
def bindGranules (s : State) (ctx : Nat) : List Nat :=
  (Config.rootGranules ctx s.choices).filter (fun g =>
    decide (g * 2 ^ 21 < 2 ^ 55) && physOk s (g * 2 ^ 21) && s.ctxs.all (fun e => e.1 == ctx || !e.2.granules.contains g))

/-! Context descriptors (27 R384). -/

/-- CONF of a context may change: no grid, no saved state, no splicer context that is not IDLE (R384). -/
def confFree (s : State) (n : Nat) : Bool :=
  !s.grids.any (fun e => e.2.ctx == n) && (ctxRec s n).saved.isEmpty &&
    !s.splicers.any (fun e => spOwner e.2 == n && e.2.st != spIdle)

/-- The reserved bits of a context descriptor, which read zero and ignore writes (00 R3, R384; DBGCTL by 23 R336). -/
def ctxReserved : List (Nat × Nat) := [(767, 748), (741, 740), (737, 737), (543, 541), (14, 4)]

/-- A context descriptor with its reserved bits zero. -/
def ctxClean (d : BitVec 1024) : BitVec 1024 := ctxReserved.foldl (fun d f => setField d f.1 f.2 0) d

/-- A descriptor gives a context that exists and is confidential. -/
def confLive (d : BitVec 1024) : Bool := d.getLsbD 0 && d.getLsbD 3

/-- What a change of VALID or CONT from 0 to 1 does: the round number is zeroed, and with it the count of the free choices of
its rounds (21 R316, R318); a context that is created has a new future table, in memory too, and its timeline counters at 0
(17 R263, 11 R179). -/
def contextBegins (s : State) (n : Nat) (old d : BitVec 1024) : State :=
  let made := !old.getLsbD 0 && d.getLsbD 0
  let s := if made || (!old.getLsbD 1 && d.getLsbD 1) then
    setCtx s n { ctxRec s n with round := 0, choices := 0 } else s
  if made then futInit (setCtx s n { ctxRec s n with futures := [], tl := [] }) n d else s

/-- A context that has come to exist as a confidential one has its key, and granules are bound to it (R404). -/
def contextSealed (s : State) (n : Nat) (old d : BitVec 1024) : State :=
  if confLive d && !confLive old && (ctxRec s n).granules.isEmpty then
    setCtx { s with choices := s.choices + 1 } n { ctxRec s n with granules := bindGranules s n }
  else s

/-- What a change of VALID from 1 to 0 does: the key is destroyed, and the mailbox grant returns (R404, R415). -/
def contextEnds (s : State) (n : Nat) (old d : BitVec 1024) : State :=
  if old.getLsbD 0 && !d.getLsbD 0 then
    let s := destroyKey s n
    if (ctxRec s n).mbx = 0 then s else setCtx s n { ctxRec s n with mbx := 0 }
  else s

/-- CONTEXT_DESCRIPTOR_WRITE (R384): a change of CONF at a forbidden time is ignored. -/
def execContextDescriptorWrite (n off size v : Nat) (s : State) : Host.Outcome State Fault Refusal :=
  let old := descOf s n
  let d := ctxClean (putBytes old off size v)
  let d := if d.getLsbD 3 != old.getLsbD 3 && !confFree s n then setField d 3 3 (field old 3 3) else d
  let s := { s with ctxDesc := tputD ctxDescReset s.ctxDesc n d }
  .next (contextEnds (contextSealed (contextBegins s n old d) n old d) n old d)

/-! Registers of BAR0 (R415 to R417). -/

/-- EVCFG_WRITE: setting EN zeroes EVHEAD and EVTAIL (R416). -/
def execEvcfgWrite (v : DWord) (s : State) : Host.Outcome State Fault Refusal :=
  let x := maskWrite s.evCfg (bitsMask 31 31 + bitsMask 15 8 + bitsMask 4 0) 0 8 v.toNat
  .next (if !evEn s && x.getLsbD 31 then { s with evCfg := x, evHead := 0, evTail := 0 } else { s with evCfg := x })

/-- BALANCE_WRITE: the values 5 to 7 are ignored (R412). -/
def execBalanceWrite (v : DWord) (s : State) : Host.Outcome State Fault Refusal :=
  .next (if field v 2 0 ≤ 4 then { s with balance := v.extractLsb' 0 3 } else s)

/-- CAPCMD (R417). -/
def capCommand (s : State) (v : Nat) : State :=
  match v % 8 with
  | 1 => capStart s
  | 2 => capStop s
  | 3 => capFreeze s
  | 4 => capReset s
  | _ => s

/-- The state that an outcome leaves. -/
def stateOf (s : State) : Host.Outcome State Fault Refusal → State
  | .next t => t
  | _ => s

/-- DBGCMD (R417). -/
def dbgCommand (s : State) (v : Nat) : State :=
  let ctx := v / 2 ^ 16 % 2 ^ 12
  match v % 16 with
  | 1 => stateOf s (execSetSstep ctx s)
  | 2 => stateOf s (execClearSstep ctx s)
  | 3 => stateOf s (execResumeParked ctx s)
  | 4 => stateOf s (execReleaseHolds ctx s)
  | _ => s

/-- A write to one of the capture, sampling and debug registers, by its number of doublewords from 0x2000 (R417). -/
def captureWrite (s : State) (r off size v : Nat) : State :=
  let cmd := if off = 0 then v else v * 2 ^ 32
  match r with
  | 0 => { s with capBase := maskWrite s.capBase (bitsMask 63 12) off size v }
  | 1 => { s with capCfg := maskWrite s.capCfg (bitsMask 24 24 + bitsMask 20 16 + bitsMask 8 8 + bitsMask 4 0) off size v }
  | 2 => capCommand s cmd
  | 4 => { s with capLaunch := maskWrite s.capLaunch (bitsMask 32 0) off size v }
  | 5 => { s with capWgLo := maskWrite s.capWgLo (bitsMask 63 63 + bitsMask 39 0) off size v }
  | 6 => { s with capWgHi := maskWrite s.capWgHi (bitsMask 39 0) off size v }
  | 7 => { s with capTypes := maskWrite s.capTypes (bitsMask 7 1) off size v }
  | 8 => { s with histCtx := maskWrite s.histCtx (bitsMask 11 0) off size v }
  | 9 => dbgCommand s cmd
  | 10 => { s with dbgArg0 := maskWrite s.dbgArg0 (bitsMask 31 0) off size v }
  | 11 => { s with dbgArg1 := maskWrite s.dbgArg1 (bitsMask 39 0) off size v }
  | 12 => { s with dbgArg2 := maskWrite s.dbgArg2 (bitsMask 63 32 + bitsMask 6 0) off size v }
  | _ => s

/-- SPCTL (25 R359). -/
def spctlWrite (s : State) (k v : Nat) : State :=
  match v % 8 with
  | 1 => startContext s k (v / 2 ^ 6 % 2 ^ 51 * 2 ^ 6)
  | 2 => stateOf s (execSplicerResume k s)
  | 3 => stateOf s (execSplicerAbort k s)
  | _ => s

/-- A write to the register block of a splicer context; a disabled link has no splicer (R410, R415). -/
def splicerWrite (s : State) (k off size v : Nat) : State :=
  if !linkOn s (k / 8) then s
  else if off < 8 then stateOf s (execSpcfgWrite k (putBytes (splRec s k).cfg off size v) s)
  else if off = 8 then spctlWrite s k v
  else if 0x100 ≤ off then stateOf s (execSplicerStateWindowWrite k (off - 0x100) size v s)
  else s

/-- The trigger register of an engine exists (R417). -/
def engineExists (e : Nat) : Bool := decide (e < 0x820) || (decide (0x900 ≤ e) && decide (e < 0xC00))

/-- A write to the trigger register of an engine (R417). -/
def triggerWrite (s : State) (e off size v : Nat) : State :=
  if engineExists e then
    let mask := bitsMask 63 32 + bitsMask 15 15 + bitsMask 13 12 + bitsMask 9 0
    { s with triggers := tputD 0 s.triggers e (maskWrite (tgetD 0 s.triggers e) mask off size v) }
  else s

/-- A window of the register map: its base and size in bytes (R415). -/
def inWindow (a base size : Nat) : Bool := decide (base ≤ a) && decide (a < base + size)

/-- A write into a window of BAR0 (R415). -/
def windowWrite (s : State) (a size v : Nat) : State :=
  if inWindow a 0x10000 4096 then queueDescWrite s ((a - 0x10000) / 64) (a % 64) size v
  else if inWindow a 0x100000 65536 then
    stateOf s (execHwqDescriptorWrite ((a - 0x100000) / 32) (a % 32) size v s)
  else if inWindow a 0x800000 524288 then
    stateOf s (execContextDescriptorWrite ((a - 0x800000) / 128) (a % 128) size v s)
  else if inWindow a 0x1000000 131072 then splicerWrite s ((a - 0x1000000) / 512) (a % 512) size v
  else if inWindow a 0x1200000 524288 then
    let l := (a - 0x1200000) / 16384
    let w := a % 16384 / 4
    if !linkOn s l then s else
    let s := imemWrite s l w (BitVec.ofNat 32 v)
    if size = 8 then imemWrite s l (w + 1) (BitVec.ofNat 32 (v / 2 ^ 32)) else s
  else if inWindow a 0x1400000 24576 then triggerWrite s ((a - 0x1400000) / 8) (a % 8) size v
  else s

/-- REGISTER_WRITE: an aligned write of 4 or 8 bytes to BAR0 (R415). -/
def execRegisterWrite (off size v : Nat) (s : State) : Host.Outcome State Fault Refusal :=
  let r := off / 8 * 8
  if (size ≠ 4 ∧ size ≠ 8) ∨ off % size ≠ 0 then .next s
  else if r = 0x108 then execBalanceWrite (maskWrite 7 7 (off % 8) size v) s
  else if r = 0x120 then .next { s with evBase := maskWrite s.evBase (bitsMask 63 12) (off % 8) size v }
  else if r = 0x128 then execEvcfgWrite (putBytes s.evCfg (off % 8) size v) s
  else if r = 0x130 then .next (if off % 8 = 0 then { s with evHead := BitVec.ofNat 32 v } else s)
  else if inWindow off 0x1100 256 then execLnkerrWrite ((off - 0x1100) / 8) s
  else if inWindow off 0x2000 256 then .next (captureWrite s ((off - 0x2000) / 8) (off % 8) size v)
  else .next (windowWrite s off size v)

/-! What the host reads in BAR0 (R415). -/

/-- A byte of a little-endian register. -/
def byteOf (x i : Nat) : Nat := x / 2 ^ (8 * i) % 256

/-- The doubleword of the capture registers with a number (R417). -/
def captureReg (s : State) (r : Nat) : Nat :=
  match r with
  | 0 => s.capBase.toNat
  | 1 => s.capCfg.toNat
  | 3 => s.capState + s.capOff * 2 ^ 32
  | 4 => s.capLaunch.toNat
  | 5 => s.capWgLo.toNat
  | 6 => s.capWgHi.toNat
  | 7 => s.capTypes.toNat
  | 8 => s.histCtx.toNat
  | 10 => s.dbgArg0.toNat
  | 11 => s.dbgArg1.toNat
  | 12 => s.dbgArg2.toNat
  | _ => 0

/-- The links that exist: those of a disabled die show as 0 (R410). -/
def linkMask (s : State) : Nat := (maskOf ((List.range 32).filter (fun l => s.linkEn.getLsbD l && s.dieEn.getLsbD (l / 8)))).toNat

/-- A doubleword of the capability block (R410). -/
def capability (s : State) (r : Nat) : Nat :=
  match r with
  | 0 => s.dieEn.toNat
  | 5 => s.lp6En.toNat
  | 6 => linkMask s
  | n => if 1 ≤ n ∧ n ≤ 4 ∧ s.dieEn.getLsbD (n - 1) = true then (tgetD 0 s.coreEn (n - 1)).toNat else 0

/-- The counter that a histogram window shows: that of the context in HISTCTX, zero for a confidential one (R417). -/
def histShown (s : State) (e b : Nat) : Nat :=
  let ctx := field s.histCtx 11 0
  if (descOf s ctx).getLsbD 3 then 0 else histCount s ctx e b

/-- One byte of BAR0 as the host reads it; what the map does not list reads as zero (R415). -/
def barByte (s : State) (a : Nat) : Nat :=
  let i := a % 8
  if a < 256 then byteOf (capability s (a / 8)) i
  else if a / 8 * 8 = 0x100 then byteOf s.ready.toNat i
  else if a / 8 * 8 = 0x108 then byteOf s.balance.toNat i
  else if a / 8 * 8 = 0x110 then byteOf s.evLost.toNat i
  else if a / 8 * 8 = 0x120 then byteOf s.evBase.toNat i
  else if a / 8 * 8 = 0x128 then byteOf s.evCfg.toNat i
  else if a / 8 * 8 = 0x130 then byteOf s.evHead.toNat i
  else if a / 8 * 8 = 0x138 then byteOf s.evTail.toNat i
  else if inWindow a 0x1000 256 then byteOf (linkRec s ((a - 0x1000) / 8)).stat.toNat i
  else if inWindow a 0x1100 256 then byteOf (linkRec s ((a - 0x1100) / 8)).err.toNat i
  else if inWindow a 0x2000 256 then byteOf (captureReg s ((a - 0x2000) / 8)) i
  else if inWindow a 0x10000 4096 then byteOf (hostDesc (queueRec s ((a - 0x10000) / 64))).toNat (a % 64)
  else if inWindow a 0x100000 65536 then byteOf (hwqRec s ((a - 0x100000) / 32)).desc.toNat (a % 32)
  else if inWindow a 0x800000 524288 then byteOf (descOf s ((a - 0x800000) / 128)).toNat (a % 128)
  else if inWindow a 0x1000000 131072 then
    if !linkOn s ((a - 0x1000000) / 4096) then 0 else
    let x := splRec s ((a - 0x1000000) / 512)
    let o := a % 512
    if o < 8 then byteOf x.cfg.toNat o
    else if 16 ≤ o ∧ o < 24 then byteOf (spstat x) (o - 16)
    else if 24 ≤ o ∧ o < 32 then byteOf x.faddr (o - 24)
    else if 0x100 ≤ o ∧ o < 0x208 then ((stateWindow x).getD (o - 0x100) 0).toNat
    else 0
  else if inWindow a 0x1200000 524288 then
    if !linkOn s ((a - 0x1200000) / 16384) then 0 else
    byteOf (tgetD 0 (linkRec s ((a - 0x1200000) / 16384)).imem (a % 16384 / 4)).toNat (a % 4)
  else if inWindow a 0x1400000 24576 then byteOf (tgetD 0 s.triggers ((a - 0x1400000) / 8)).toNat i
  else if inWindow a 0x1480000 393216 then
    byteOf (histShown s ((a - 0x1480000) / 128) (a % 128 / 4)) (a % 4)
  else 0

/-! Memory accesses of the host (11 R171, 29 R404, R408). -/

/-- Some context binds the granule of an address. -/
def boundTo (s : State) (pa : Nat) : Option Nat := (s.ctxs.find? (fun e => e.2.granules.contains (pa / 2 ^ 21))).map (·.1)

/-- A physical range cut at the bounds of its granules: address and length of each piece. -/
def granulePieces (pa n : Nat) : List (Nat × Nat) :=
  (List.range (n / 2 ^ 21 + 2)).filterMap (fun i =>
    let a := max pa ((pa / 2 ^ 21 + i) * 2 ^ 21)
    let b := min (pa + n) ((pa / 2 ^ 21 + i + 1) * 2 ^ 21)
    if a < b then some (a, b - a) else none)

/-- The host writes a piece: one in a bound granule is dropped (R404); of bytes that a queue is fetching ahead in the same clock
the fetch holds the old or the new ones (27 R399). -/
def hostWrite (s : State) (pa : Nat) (bs : List Byte) : State :=
  if (boundTo s pa).isSome then s
  else (s.queues.map (·.1)).foldl (fun s q => mixQueue s q pa bs) (writePhys s pa bs)

/-- The host reads a piece: one in a bound granule shows ciphertext (R404). -/
def hostRead (s : State) (pa n : Nat) : List Byte × State :=
  let (bs, s) := readPhys s pa n
  match boundTo s pa with
  | some c => ((List.range n).map (fun i => (cipherLine s c ((pa + i) / 128)).getD ((pa + i) % 128) 0), s)
  | none => (bs, s)

/-- Read pieces in turn. -/
def hostReads (s : State) : List (Nat × Nat) → List Byte × State
  | [] => ([], s)
  | (a, n) :: r =>
    let (b, s) := hostRead s a n
    let (bs, s) := hostReads s r
    (b ++ bs, s)

/-- HOST_MEMORY_ACCESS: a write to a bound granule is dropped, a read of one returns ciphertext; a read of data beyond
repair is marked (R404, R408). -/
def execHostMemoryAccess (pa : Nat) (wr : Bool) (data : List Byte) (len : Nat) (s : State) :
    Host.Outcome State Fault Refusal :=
  let ps := granulePieces pa (if wr then data.length else len)
  if !ps.all (fun p => physOk s p.1 && physOk s (p.1 + p.2 - 1)) then .next s
  else if wr then .next (ps.foldl (fun s p => hostWrite s p.1 ((data.drop (p.1 - pa)).take p.2)) s)
  else
    let bad := seenPoisoned s pa len
    let (bs, s) := hostReads s ps
    .next (sendOut s sentRead [pa, if bad then 1 else 0] bs)

/-! Firmware (27 R382, R383, 29 R402, R403). -/

/-- The 48 bytes of a measurement register. -/
def measureBytes (m : BitVec 384) : List Byte := (leBytes 48 m.toNat).reverse

/-- A measurement register is extended by data (R403). -/
def extend (s : State) (i : Nat) (data : List Byte) : State :=
  { s with measures := tput s.measures i (sha384 (measureBytes (tgetD 0 s.measures i) ++ data)) }

/-- The root's two checks of an image of a security version (R402). -/
def imageOk (s : State) (image : List Byte) (version : Nat) : Bool :=
  Config.sigValid image && decide (s.minVersion ≤ version) && !image.isEmpty

/-- READY changes, and the change is reported (R401, R411). -/
def setReady (s : State) (v : BitVec 64) (die : Nat) : State :=
  if v = s.ready then s else hostEvent { s with ready := v } 6 v.toNat 0 die

/-- LIVE_UPDATE: a new image boots on the stand-in, which stays in reset and is not ready with one that the root does not verify (R411), and imports
the lead's state table of a version that the event gives; one that does not accept the version reports the refusal, and nothing else changes (R383,
R402). -/
def execLiveUpdate (image : List Byte) (version : Nat) (table : BitVec 16) (s : State) : Host.Outcome State Fault Refusal :=
  if !imageOk s image version then
    .next (setReady { s with standIn := ([], 0), takeover := false } (setField s.ready 1 1 0) 0)
  else if !Config.tableAccepted image table then .next (sendOut s sentRefused [table.toNat] [])
  else .next (extend { s with standIn := (image, version), takeover := true } 2 image)

/-- Every queue stands between two packets (R383). -/
def quiescent (s : State) : Bool := s.queues.all (fun e => e.2.launching.isNone)

/-- STAND_IN_TAKEOVER: at a quiescent packet boundary the stand-in becomes the lead; nothing that the former lead has
fetched ahead is used (R383). -/
def execStandInTakeover (s : State) : Host.Outcome State Fault Refusal :=
  if !(s.takeover && quiescent s) then .next s
  else
    let s := { s with
      lead := s.standIn
      standIn := s.lead
      takeover := false
      queues := s.queues.map (fun e => (e.1, { e.2 with levels := e.2.levels.map (fun l => { l with ahead := [] }) })) }
    .next (extend s 1 s.lead.1)

/-- SPDM_MEASUREMENT_REQUEST: the registers, the versions and the nonce, signed under the identity key (R403). -/
def execSpdmMeasurementRequest (nonce : BitVec 384) (s : State) : Host.Outcome State Fault Refusal :=
  let xs := (List.range 8).map (fun i => (tgetD 0 s.measures i).toNat) ++ [s.lead.2, s.standIn.2, nonce.toNat]
  .next (sendOut s sentSpdm (xs ++ [Config.idSign xs]) [])

/-- SPDM_COMMIT_MINIMUM: the fused minimum only rises (R402). -/
def execSpdmCommitMinimum (v : Nat) (s : State) : Host.Outcome State Fault Refusal :=
  .next { s with minVersion := max s.minVersion v }

/-! Readiness, errors, power and temperature (R406 to R413). -/

/-- The unit of a READY bit exists and is enabled (R410, R411). -/
def unitOn (s : State) (b : Nat) : Bool :=
  decide (b < 2) || (decide (2 ≤ b) && decide (b < 6) && s.dieEn.getLsbD (b - 2)) || decide (b = 6) || decide (b = 7) ||
    (decide (32 ≤ b) && decide (b < 64) && linkOn s (b - 32))

/-- The die of a READY bit, for the event that reports it. -/
def readyDie (b : Nat) : Nat := if 2 ≤ b ∧ b < 6 then b - 2 else if 32 ≤ b then (b - 32) / 8 else 0

/-- The image that a firmware complex boots, once the root has verified it: the boot firmware and the running image of the
lead are measured (R402, R403). -/
def boots (s : State) (b : Nat) (image : List Byte) (version : Nat) : State :=
  match b with
  | 0 => extend (extend { s with lead := (image, version) } 0 Config.bootImage) 1 image
  | 1 => { s with standIn := (image, version) }
  | _ => s

/-- UNIT_READY: a unit ends its initialisation (R411). A firmware complex does so with an image that the root verifies, and
stays in reset with another one (R402). -/
def execUnitReady (u : ReadyUnit) (s : State) : Host.Outcome State Fault Refusal :=
  let b := u.bit
  if !unitOn s b || s.ready.getLsbD b || (decide (b < 2) && !imageOk s u.image u.version) then .next s
  else
    let s := boots s b u.image u.version
    .next (setReady s (setField s.ready b b 1) (readyDie b))

/-- The places that an uncorrectable error spoils: a line of memory, a word of a store (R406). -/
def spoiltPlaces (cls at_ : Nat) : List Nat :=
  match cls with
  | 0 => (List.range 128).map (at_ / 128 * 128 + ·)
  | 1 => (List.range 128).map (at_ / 128 * 128 + ·)
  | 2 => (List.range 4).map (at_ / 4 * 4 + ·)
  | 3 => (List.range 4).map (at_ / 4 * 4 + ·)
  | 6 => [at_]
  | _ => []

/-- A word of the matrix storage of a core is spoilt: the weight buffer and the accumulators go with the sequencer that holds
them (R406). -/
def spoilStore (s : State) (at_ : Nat) : State :=
  match seqOf s (at_ / 2 ^ 24) with
  | none => s
  | some q => setSeq s (at_ / 2 ^ 24) { q with
      spoilt := q.spoilt ++ (List.range 4).map (fun i => at_ % 2 ^ 24 / 4 * 4 + i) }

/-- A register word of a warp is spoilt: at_ is 2^13 times the warp, plus 32 times the operand number, plus the lane (R406,
R408; log 78). -/
def spoilReg (s : State) (at_ : Nat) : State :=
  match tget s.warps (at_ / 2 ^ 13) with
  | none => s
  | some w => setWarp s (at_ / 2 ^ 13) { w with spoilt := w.spoilt ++ [at_ % 2 ^ 13] }

/-- What an error does: nothing when it is corrected, save the count of a link's flits; else poison, a link that goes down,
or the end of the grid whose host access failed (R406, R408). For a link `at_` names the link, for the host port the
launch serial of the grid, for the register file the warp with the register, for the matrix storage 2^24 times the core and
the byte, and elsewhere the place of the data (log 78). -/
def errorEffect (cls at_ : Nat) (corrected : Bool) (s : State) : State :=
  if cls = 7 then
    if corrected then
      let x := linkRec s at_
      setLink s at_ { x with err := errAdd x.err 31 0 1, resent := x.resent + 1 }
    else stateOf s (execLinkDown at_ s)
  else if corrected then s
  else if cls = 8 then endGrid s at_ (cpBlame 0x24)
  else if cls = 4 then spoilReg s at_
  else if cls = 5 then spoilStore s at_
  else { s with poison := s.poison ++ (spoiltPlaces cls at_).filter (fun p => !s.poison.contains p) }

/-- SOFT_ERROR: an error is met at a check of a die and reported by it (R406, R409). -/
def execSoftError (cls : Nat) (site : ErrorSite) (at_ : Nat) (corrected : Bool) (s : State) :
    Host.Outcome State Fault Refusal :=
  .next (hostEvent (errorEffect cls at_ corrected s) 4
    (cls % 16 + (if corrected then 16 else 0) + site.unit % 2 ^ 32 * 2 ^ 32) 0 site.die)

/-- THERMAL_THROTTLE: every clock is lowered, and an event is raised whose payload the spec does not lay out (R413;
log 2). -/
def execThermalThrottle (s : State) : Host.Outcome State Fault Refusal :=
  let (n, s) := choose s (2 ^ 128)
  .next (hostEvent { s with throttled := true } 5 n 0 0)
def execTemperatureFall (s : State) : Host.Outcome State Fault Refusal := .next { s with throttled := false }

/-- THERMAL_STOP: every clock stops until whole-device reset (R413). -/
def execThermalStop (s : State) : Host.Outcome State Fault Refusal := .next { s with stopped := true }

/-- POWER_ALLOTMENT_REACHED: a domain (0 matrix, 1 memory, 2 links, 3 lanes) reaches its allotment or falls back within
it: the links lower their width or restore it, no other effect reaches a result (R412, R414). -/
def execPowerAllotmentReached (domain : Nat) (reached : Bool) (s : State) : Host.Outcome State Fault Refusal :=
  let s := { s with allotment :=
    if reached then (if s.allotment.contains domain then s.allotment else s.allotment ++ [domain])
    else s.allotment.filter (· != domain) }
  if domain ≠ 2 then .next s
  else .next ((List.range 32).foldl (fun s l =>
    if linkOn s l then
      let x := linkRec s l
      applyWidth (setLink s l { x with balWidth := if reached then min 2 (x.balWidth + 1) else x.balWidth - 1 }) l
    else s) s)

/-! The reset ladder (27 R398). -/

/-- A grid ends by a reset rung, unless it has just completed: the completion comes first (R398, R399). A grid over several
packages completes once it has ended on all of them, of which its own event tells (log 107). -/
def resetGrid (s : State) (n : Nat) : State :=
  match tget s.grids n with
  | none => s
  | some g => endGrid (if hMulti g.hdr then s else stateOf s (execGridCompletion n s)) n (cpBlame 0x79)

/-- Grids end by a reset rung. -/
def resetGrids (s : State) (ns : List Nat) : State := ns.foldl resetGrid s

/-- Rung 1: a queue's grids end, its wait slot, parked state and fetch state go, and RPTR takes WPTR. -/
def queueReset (s : State) (q : Nat) : State :=
  let s := resetGrids s ((s.grids.filter (fun e => e.2.queue == q)).map (·.1))
  let x := packetOver (queueRec s q)
  let s := { s with pageFaults := s.pageFaults.filter (fun f => f.1 != q) }
  putQueue s q { x with
    desc := setField x.desc 287 256 (qWptr x.desc)
    st := 0
    err := 0
    levels := []
    conds := []
    launching := none
    fetchPage := none }

def execResetQueue (q : Nat) (s : State) : Host.Outcome State Fault Refusal := .next (if q < 64 then queueReset s q else s)

/-- Some grids end by a reset rung, and their queues are reset. -/
def endByReset (s : State) (p : Nat → Grid → Bool) : State :=
  (((s.grids.filter (fun e => p e.1 e.2)).map (fun e => e.2.queue)).dedup).foldl queueReset s

/-- The splicer contexts of a link go IDLE. -/
def idleSplicers (s : State) (l : Nat) : State :=
  (List.range 8).foldl (fun s x => stateOf s (execSplicerAbort (8 * l + x) s)) s

/-- A grid's CLAUNCH uses the splicer of a link. -/
def launchesOn (g : Grid) (l : Nat) : Bool := (g.claunch.map (fun c => c.2.1.getLsbD l)).getD false

/-- RESET_ENGINE, rung 2: the engine that a timeline handle names, of kind 2 a copy path, 3 a bulk copy engine, 4 a
splicer. -/
def execResetEngine (h : Word) (s : State) : Host.Outcome State Fault Refusal :=
  let uses (n : Nat) : Bool := s.cores.any (fun e => e.2.copies.any (fun x => serialOf x.wg == n && x.handle == h.toNat))
  match field h 31 28 with
  | 2 => .next (endByReset s (fun n _ => uses n))
  | 3 => .next (endByReset s (fun n _ => uses n))
  | 4 =>
    let l := field h 9 5
    .next (idleSplicers (endByReset s (fun _ g => launchesOn g l)) l)
  | _ => .next s

/-- A grid has work on the cores of a set of dies: a workgroup, a copy in flight, or an access that is still outstanding (R398;
log 42). -/
def worksOn (s : State) (dies : BitVec 4) (n : Nat) : Bool :=
  s.wgs.any (fun e => serialOf e.1 == n && (e.2.core.map (fun c => dies.getLsbD (dieOf c))).getD false) ||
    s.cores.any (fun e => dies.getLsbD (dieOf e.1) && e.2.copies.any (fun x => serialOf x.wg == n)) ||
    ((tget s.grids n).map (fun g => g.loads.any (fun x => dies.getLsbD (dieOf (coreOf x.warp))))).getD false

/-- Rung 3: the cores, L2s and engines of a set of dies; the grids that work there, or whose CLAUNCH uses a splicer of theirs,
end. -/
def partitionReset (s : State) (dies : BitVec 4) : State :=
  let s := endByReset s (fun n g =>
    worksOn s dies n || (List.range 32).any (fun l => dies.getLsbD (l / 8) && launchesOn g l))
  let s := (List.range 32).foldl (fun s l => if dies.getLsbD (l / 8) then idleSplicers s l else s) s
  let on (c : Nat) : Bool := dies.getLsbD (dieOf c)
  let s := { s with
    cores := s.cores.filter (fun e => !on e.1)
    warps := s.warps.filter (fun e => !on (coreOf e.1))
    hwqs := s.hwqs.filter (fun e => !on (e.1 / 8))
    netMatch := s.netMatch.filter (fun e => !dies.getLsbD e.1)
    samplers := s.samplers.filter (fun e => !on (e.1 / 4)) }
  setReady s (s.ready &&& ~~~(BitVec.ofNat 64 (dies.toNat * 4))) 0

def execResetPartition (dies : BitVec 4) (s : State) : Host.Outcome State Fault Refusal := .next (partitionReset s dies)

/-- A physical address lies in the bonded DRAM of a die (11 R154). -/
def inDram (die pa : Nat) : Bool := decide (die * 2 ^ 36 ≤ pa) && decide (pa < (die + 1) * 2 ^ 36)

/-- The links of a die go down, to be trained again, and start anew. -/
def retrainLinks (s : State) (die : Nat) : State :=
  let s := (List.range 8).foldl (fun s i => stateOf s (execLinkDown (8 * die + i) s)) s
  let s := { s with links := s.links.filter (fun e => e.1 / 8 != die) }
  setReady s (s.ready &&& ~~~(BitVec.ofNat 64 (255 * 2 ^ (32 + 8 * die)))) die

/-- CYCLE of die 0 is zeroed: what the command processor and the scheduler time by it keeps what is left of its time, or where
only an age is kept counts anew (R398; log 109). -/
def clockRestarts (s : State) : State :=
  let now := cycleOf s 0
  { s with
    grids := s.grids.map (fun e => (e.1, { e.2 with deadline := e.2.deadline - now, waitSince := 0 }))
    deadGates := s.deadGates.map (fun e => (e.1, (e.2.1, e.2.2 - now)))
    ctxs := s.ctxs.map (fun e => (e.1, { e.2 with drain := e.2.drain.map (· - now) }))
    queues := s.queues.map (fun e => (e.1, { e.2 with
      slot := e.2.slot.map (fun _ => 0)
      wants := e.2.wants.map (fun _ => 0)
      parkedAt := 0
      levels := e.2.levels.map (fun l => { l with got := 0 }) })) }

/-- Rung 4: a die with its DRAM, its links and its CYCLE. What the DRAM held is gone: it reads as memory that nothing has
written (log 1), and takes that have read lines of it no longer see the point they show (19 R289). -/
def dieReset (s : State) (die : Nat) : State :=
  let s := retrainLinks (partitionReset s (BitVec.ofNat 4 (2 ^ die))) die
  let s := staleTakes s (fun n => inDram die (128 * n))
  let s := if die = 0 then clockRestarts s else s
  { s with
    mem := s.mem.filter (fun c => !inDram die c.1)
    poison := s.poison.filter (fun p => !inDram die p)
    cycle := tdel s.cycle die }

def execResetDie (die : Nat) (s : State) : Host.Outcome State Fault Refusal := .next (if die < 4 then dieReset s die else s)

/-- FUNCTION_LEVEL_RESET, rung 5: every context, queue, future table and saved state ends, with what rung 3 resets on
every die and CYCLE; memory, firmware and links survive, and every confidential key is destroyed. The gates of grids that have
ended here before they opened still come to their deadlines (01 R32). -/
def execFunctionLevelReset (s : State) : Host.Outcome State Fault Refusal :=
  let s := partitionReset (resetGrids s (s.grids.map (·.1))) 0xF
  let s := clockRestarts ((s.ctxs.map (·.1)).foldl destroyKey s)
  .next { s with
    ctxDesc := []
    ctxs := []
    hwqs := []
    queues := []
    grids := []
    wgs := []
    warps := []
    cores := []
    mailboxes := []
    netMatch := []
    transit := []
    forwarded := []
    splicers := []
    earlyAcks := []
    pageFaults := []
    held := []
    round := []
    cycle := [] }

/-- A physical address lies outside the package: in host memory or behind the fabric (11 R154). -/
def outsidePackage (pa : Nat) : Bool := decide (2 ^ 55 ≤ pa)

/-- The other packages of a grid that has ended here before its gate opened are told at once, since what the package keeps of it
is lost (01 R32; log 109). -/
def tellGates (s : State) : State :=
  s.deadGates.foldl (fun s e => sendGate s 0 (hGateFid e.2.1) (hMkey e.2.1) [0, 3]
    (leBytes 64 (faultRecord none (cycleOf s 0) e.1 0 0 (cpBlame 0x49)).toNat)) s

/-- WHOLE_DEVICE_RESET, rung 6: the grids end, of which the other packages are told, and every field takes its reset value. After
a thermal stop no grid ends with a code, and the state is lost (29 R413).
The masks of a degraded part and the fused minimum stand in fuses; memory of the host and of other packages is not the
package's; the model's own counters, turns and outbox go on (log 2, log 3, log 7). -/
def execWholeDeviceReset (s : State) : Host.Outcome State Fault Refusal :=
  let s := if s.stopped then s else performPosted (tellGates (resetGrids s (s.grids.map (·.1))))
  .next { State.reset with
    mem := s.mem.filter (fun c => outsidePackage c.1)
    poison := s.poison.filter (fun p => outsidePackage p && decide (p < 2 ^ 57))
    dieEn := s.dieEn
    coreEn := s.coreEn
    lp6En := s.lp6En
    linkEn := s.linkEn
    minVersion := s.minVersion
    choices := s.choices
    fresh := s.fresh
    turns := s.turns
    sent := s.sent }

end Sys2Proof.Machine
end

