-- ==== Sys2Proof/Machine/Arbiter.lean ====
section
/-! DEFINITION. What a step adds around the meaning of one word, packet or event (log 3): whose move it is, what that
agent is about to run, and what settles after it. -/

namespace Sys2Proof.Machine

/-! What moves next. -/

/-- A packet. -/
def isPacket : Instr → Bool
  | .packetNop _ => true
  | .launch _ _ => true
  | .claunch _ _ _ _ _ => true
  | .feed _ _ _ _ => true
  | .wake _ _ _ => true
  | .indirect _ _ => true
  | .pred _ _ _ _ => true
  | .packetLoop _ => true
  | .endloop => true
  | .write _ _ => true
  | .copy _ _ _ => true
  | .signalWrite _ _ => true
  | .signalAdd _ _ => true
  | .waitMemory _ _ => true
  | .waitTimeline _ _ => true
  | .snap _ _ _ => true
  | .tlset _ _ => true
  | .fetchfence => true
  | _ => false

/-- A word or packet, which some agent must issue, and no event. -/
def isWord (i : Instr) : Bool :=
  (laneParts i).isSome || (streamParts i).isSome || (encodeSplice i).isSome || isPacket i

/-- Events of the package itself that no turn raises: die 0's alignment pulse comes with its clocks (23 R345). -/
def isOwn : Instr → Bool
  | .alignmentPulse => true
  | _ => false

/-- Whole-device reset is the one event that a package whose clocks have stopped takes (29 R413). -/
def isRevival : Instr → Bool
  | .wholeDeviceReset => true
  | _ => false

/-- A warp may be issued: its workgroup runs, it is not held, and no warp stands before it after a YIELD. -/
def mayIssue (s : State) (w : Warp) : Bool := wgRuns s w.wg && !w.held

/-- The next word of a warp waits for no source; a warp outside a clause has none. -/
def wordReady (s : State) (k : Nat) : Bool :=
  match tget s.warps k with
  | none => false
  | some w => w.act != 0 && !wordStalls s k w

/-- A warp is ready in this clock (21 R313): between clauses, where the issue of its next clause brings it to a word, past the
clause's wait and guard, that waits for no source. -/
def issuable (s : State) (k : Nat) : Bool :=
  match tget s.warps k with
  | none => false
  | some w => mayIssue s w && wordReady (if w.act ≠ 0 then s else warpClause s k) k

/-- A warp between clauses that is not ready can still go on without its partition's issue slot: it begins a clause's wait, or
passes a clause whose guard holds for no lane. -/
def advances (s : State) (k : Nat) : Bool :=
  match tget s.warps k with
  | none => false
  | some w => mayIssue s w && w.act == 0 && !issuable s k && tget (warpClause s k).warps k != some w

/-- The other warps of a warp's partition (16 slots each). -/
def mates (s : State) (k : Nat) : List Nat :=
  ((s.warps.filter (fun e => e.1 / 16 == k / 16 && e.1 != k)).map (·.1))

/-- After a YIELD a warp stands back while some other warp of its partition is ready (R332). -/
def standsBack (s : State) (k : Nat) (w : Warp) : Bool :=
  !w.yieldTo.isEmpty && (mates s k).any (issuable s)

/-- One warp issues before another of its partition when both are ready (R313): the one with the larger bypass count where
some count has reached 32, else the older one. -/
def issuesBefore (a b : Warp) : Bool :=
  let older := decide (a.age < b.age)
  if 32 ≤ a.bypass ∨ 32 ≤ b.bypass then decide (b.bypass < a.bypass) || (a.bypass == b.bypass && older) else older

/-- A warp that may take its partition's issue slot, outside continuity mode (R313, R317). -/
def contends (s : State) (e : Nat × Warp) : Bool :=
  !contOfWg s e.2.wg && issuable s e.1 && !standsBack s e.1 e.2

/-- Some other ready warp of the partition issues before this one (R313). -/
def outranked (s : State) (k : Nat) (w : Warp) : Bool :=
  s.warps.any (fun e => e.1 / 16 == k / 16 && e.1 != k && issuesBefore e.2 w && contends s e)

/-- The warp that a partition issues (R313). -/
def partitionPick (s : State) (p : Nat) : Option Nat :=
  ((s.warps.filter (fun e => e.1 / 16 == p && contends s e)).foldl (fun (b : Option (Nat × Warp)) e => match b with
    | none => some e
    | some x => if issuesBefore e.2 x.2 then some e else some x) none).map (·.1)

/-- What moves in a partition: the warp that it issues, or with none ready one that can go on without its issue slot. -/
def partitionMove (s : State) (p : Nat) : Option Nat :=
  (partitionPick s p).orElse fun _ =>
    (s.warps.find? (fun e => e.1 / 16 == p && !contOfWg s e.2.wg && advances s e.1)).map (·.1)

/-- The turn of a warp: its next word, or outside a clause the issue of its next one. Outside continuity mode its partition
must pick it, unless it needs no issue slot (R313); in continuity mode a warp has its turn in a round alone, and the turn lasts until one word has issued
(R316). -/
def warpTurn (s : State) (k : Nat) (inRound : Bool) : Option Instr × State :=
  match tget s.warps k with
  | none => (none, s)
  | some w =>
    if !mayIssue s w || contOfWg s w.wg != inRound then (none, s)
    else if !inRound && !advances s k && (standsBack s k w || outranked s k w) then (none, s)
    else if w.act ≠ 0 then
      match currentWord w with
      | some i => (some i, { s with issuer := .warp k })
      | none => (none, s)
    else if inRound then
      if warpReady s k then (some .clauseIssue, { s with round := .warp k :: s.round, issuer := .warp k }) else (none, s)
    else (some .clauseIssue, { s with issuer := .warp k })

/-- The word at which a sequencer stands. -/
def streamWord (q : Seq) : Option Instr :=
  match q.code[q.pc.idx - 1]? with
  | none => none
  | some x => match decodeStreamWord x q.code[q.pc.idx]? with
    | .ok i => some i
    | .bad _ => none

/-- The turn of a block sequencer; in continuity mode in a round alone (R316). -/
def seqTurn (s : State) (c : Nat) (inRound : Bool) : Option Instr × State :=
  match seqOf s c with
  | none => (none, s)
  | some q =>
    if !wgRuns s q.wg || q.held || q.halted || contOfWg s q.wg != inRound then (none, s)
    else if q.pc.idx ≠ 0 then
      match streamWord q with
      | some i => (some i, { s with issuer := .seq c })
      | none => (none, s)
    else if inRound && !streamWaits s q then
      (some .clauseIssue, { s with round := .seq c :: s.round, issuer := .seq c })
    else (some .clauseIssue, { s with issuer := .seq c })

/-- The turn of a splicer context: the one that its splicer issues next (25 R362). Its word is fetched once, and stays while
the instruction waits (R357). -/
def splicerTurn (s : State) (k : Nat) : Option Instr × State :=
  if spChosen s (k / 8) ≠ some k then (none, s)
  else match spliceFetch s k with
    | .ok i => (some i, { spliceTaken s k with issuer := .splicer k })
    | .error c => (none, spStop s k c 0 0 0)

/-- The turn of a command queue. -/
def queueTurn (s : State) (q : Nat) : Option Instr × State :=
  match queueFetch s q with
  | .none s => (none, s)
  | .packet i s => (some i, { s with issuer := .queue q })

/-- Holds take effect at the end of a round (23 R338). -/
def applyHolds (s : State) : State := if s.held.isEmpty then s else s.held.foldl holdUnits { s with held := [] }

/-- Clocks of every enabled die pass (03 R64). -/
def tick (s : State) (n : Nat) : State :=
  { s with cycle := (List.range 4).foldl (fun t d =>
      if s.dieEn.getLsbD d then tputD 0 t d (tgetD 0 t d + BitVec.ofNat 64 n) else t) s.cycle }

/-- Clocks from a count to the next multiple of 2^k, where the clock itself counts as one. -/
def toBoundary (c k : Nat) : Nat := if c % 2 ^ k = 0 then 1 else 2 ^ k - c % 2 ^ k

/-- Clocks up to the one in which the deadline of a drain falls, or some number where that is over (21 R320). -/
def toDeadline (s : State) (n : Nat) : Nat :=
  s.ctxs.foldl (fun n e => match e.2.drain with
    | some t => if cycleOf s 0 ≤ t then min n (t - cycleOf s 0 + 1) else n
    | none => n) n

/-- Clocks up to the one in which an outstanding access becomes late, or some number where all are late (21 R334). -/
def toLate (s : State) (n : Nat) : Nat :=
  (remoteIssues s).foldl (fun n x =>
    let t := x.2 + remoteLimit + 2
    if cycleOf s x.1 < t then min n (t - cycleOf s x.1) else n) n

/-- How many of some clocks pass before something happens by the clock: an alignment pulse, a sample, a remote timeout or the
deadline of a drain (23 R340, R345, 21 R320, R334). -/
def idleClocks (s : State) (n : Nat) : Nat :=
  let n := toDeadline s (toLate s (min n (toBoundary (cycleOf s 0) 22)))
  if sampling s then
    ((List.range 4).filter (fun d => s.dieEn.getLsbD d)).foldl (fun n d =>
      min n (toBoundary (cycleOf s d) (sampleExp s))) n
  else n

/-- Clocks pass with nothing to run, up to what the clock itself brings; the rest of them is still to come. -/
def idleTurn (s : State) (n : Nat) : State :=
  let m := idleClocks s n
  tick (if m < n then { s with turns := .idle (n - m) :: s.turns } else s) (m - 1)

/-- What a turn runs. -/
def planTurn (s : State) (inRound : Bool) : Turn → Option Instr × State
  | .ev i => if isWord i || isOwn i then (none, s) else (some i, s)
  | .warp k => warpTurn s k inRound
  | .seq c => seqTurn s c inRound
  | .splicer k => splicerTurn s k
  | .queue q => queueTurn s q
  | .idle n => (none, idleTurn s n)

/-! The default arbiter: what happens where no turn and no event says so. -/

/-- An outstanding access of a warp can return: one that is late in a frozen warp waits for the warp's restore (R334). -/
def returns (s : State) (k : Nat) (w : Warp) (p : Pend) : Bool :=
  !p.token && !(lateAccess s k p && ctxStopped s (ctxOfWg s w.wg))

/-- Operations in flight complete, the oldest unit first. -/
def dueOperation (s : State) : Option Instr :=
  (s.cores.findSome? (fun e => (e.2.copies.head?).map (fun x => Instr.asyncCopyCompletion x.id))).orElse fun _ =>
  (s.warps.findSome? (fun e => (e.2.pend.find? (returns s e.1 e.2)).map
    (fun p => Instr.pendingWriteCompletion e.1 p.id))).orElse fun _ =>
  (s.grids.findSome? (fun e => e.2.loads.head?.map (fun x => Instr.pendingWriteCompletion x.warp x.pend.id))).orElse fun _ =>
  (s.cores.findSome? (fun e => e.2.seq.bind (fun q =>
    if q.flight.isEmpty then none else some (Instr.streamOperationCompletion e.1)))).orElse fun _ =>
  (s.splicers.findSome? (fun e =>
    (spDue e.2).map (fun _ => Instr.splicerOperationCompletion e.1))).orElse fun _ =>
  ((allCensuses s).findSome? (fun c => (c.todo.head?).map (fun x => Instr.censusArrivalPoint x c.id))).orElse fun _ =>
  (s.transit.head?.map (fun t => Instr.keyEntryLanding t.1)).orElse fun _ =>
  (s.ctxs.findSome? (fun e => if e.2.snap.isSome then some (Instr.snapshotBackgroundCopy e.1) else none))

/-- What waits for a clock. -/
def dueTimer (s : State) : Option Instr :=
  let now := cycleOf s 0
  (s.warps.findSome? (fun e =>
    if wgRuns s e.2.wg && sleepDue s e.1 e.2 != 0 then some (Instr.sleepExpiry e.1) else none)).orElse fun _ =>
  (s.grids.findSome? (fun e =>
    if hMulti e.2.hdr && e.2.rank == 0 && !e.2.gateOpen && decide (e.2.deadline < now) then some (Instr.gateTimeout e.1)
    else if (nextOf s e).isSome && !e.2.limitHit && decide (e.2.waitSince + 500 * usClocks ≤ now) then
      some (Instr.gangWaitLimit e.1)
    else none)).orElse fun _ =>
  (s.deadGates.findSome? (fun e => if e.2.2 < now ∧ (tget s.grids e.1).isNone then some (Instr.gateTimeout e.1) else none)).orElse
    fun _ =>
  (s.ctxs.findSome? (fun e => e.2.drain.bind (fun t => if t ≤ now then some (Instr.drainDeadline e.1) else none)))

/-- What a core's units do by themselves: a warp forms (R22, R254, R328). -/
def dueOnCore (s : State) (c : Nat) : Option Instr :=
  if (freeWarpSlot s c).isNone then none
  else (nextForm s c).map (fun f => match f with
    | .handler => Instr.trapHandlerFormation c
    | .bin i => Instr.binDraw c i
    | .list x => Instr.waveFormation c x.wg x.pc.toNat)

/-- What the scheduler and the lead do by themselves. -/
def dueService (s : State) : Option Instr :=
  (s.queues.findSome? (fun e => e.2.launching.bind (fun n => (tget s.grids n).bind (fun g =>
    if g.stage = 3 ∧ condsHold s g.ctx g.conds = true ∧ e.2.st ≠ 3 then some (Instr.launchConditionsSatisfied e.1)
    else none)))).orElse fun _ =>
  (if (placeNext s 0).isSome then some (Instr.gangPlacement 0) else none).orElse fun _ =>
  (s.grids.findSome? (fun e =>
    if hMulti e.2.hdr || !gridEnded s e.1 e.2 then none
    else if !e.2.adds.isEmpty then some (Instr.deferredAddApply e.1)
    else if !e.2.loads.isEmpty || s.cores.any (fun x => x.2.copies.any (fun y => serialOf y.wg == e.1)) then none
    else some (Instr.gridCompletion e.1))).orElse fun _ =>
  (s.hwqs.findSome? (fun e => e.2.enabling.bind (fun d => match ringWalk s d (ringPages d) with
    | .error (.unmapped, a) =>
      if s.pageFaults.contains (hwqPageKey e.1, a) then none else some (Instr.hwqRingResident e.1)
    | _ => some (Instr.hwqRingResident e.1)))).orElse fun _ =>
  (s.links.findSome? (fun e =>
    if linkUpNow s e.1 && (txNext s e.1).isSome then some (Instr.chunkPacketSend e.1) else none))

/-- A context that waits at an FWAIT whose flag has reached its threshold (R374). -/
def flagDue (s : State) (k : Nat) (x : Splicer) : Bool :=
  match x.wait == .flag, spliceFetch s k with
  | true, .ok (.fwait a y imm) => match fwaitBody a y imm s k x with
    | .wait _ _ => false
    | _ => true
  | _, _ => false

/-- What waits outside the cores: a flag, a parked queue's check, the parking of a wait slot (R374, R396). -/
def dueOutside (s : State) : Option Instr :=
  (s.splicers.findSome? (fun e => if flagDue s e.1 e.2 then some (Instr.flagReread e.1) else none)).orElse fun _ =>
  (s.queues.findSome? (fun e =>
    if e.2.st = 3 ∧ e.2.wants = none ∧ e.2.parkedAt + 64 * usClocks ≤ cycleOf s 0 then some (Instr.parkedConditionCheck e.1) else none)).orElse
    fun _ =>
  (if slotsHeld s < 16 then none else (longestHolder s).bind (fun q =>
    if conditionHolds s q then none else some Instr.waitSlotParking))

/-- The contexts whose round can take place (R316). -/
def dueRounds (s : State) : List Nat :=
  ((s.grids.map (fun e => e.2.ctx)).dedup).filter (fun c =>
    contCtx s c && !roundsWait s c && !(roundTurns (roundStart s c) c).isEmpty)

/-- A context that its splicer issues has something to do: in the middle of a chunk, a packet that goes on with it (25
R372). -/
def spMoves (s : State) (k : Nat) : Bool :=
  let x := splRec s k
  x.got == 0 || x.asking || (x.again ++ x.staged).any (fun p => p.seqNo == nextSeq x.got)

/-- What can move now, each with a key of its own: the partitions by their picks, the sequencers, splicers, queues and
rounds. -/
def candidates (s : State) : List (Nat × Turn) :=
  let ps := ((s.warps.map (fun e => e.1 / 16)).dedup).filterMap (fun p => (partitionMove s p).map (fun k => (5 * p, Turn.warp k)))
  let qs := s.cores.filterMap (fun e => match e.2.seq with
    | some q => if !contOfWg s q.wg && wgRuns s q.wg && !q.held && !q.halted && !streamWaits s q then
        some (5 * e.1 + 1, Turn.seq e.1) else none
    | none => none)
  let sp := ((s.splicers.map (fun e => e.1 / 8)).dedup).filterMap (fun l =>
    ((spChosen s l).filter (spMoves s)).map (fun k => (5 * l + 2, Turn.splicer k)))
  let cq := (s.queues.filter (fun e =>
    leadRuns s && queueOpen e.2 && (availOf e.2 != 0 || !atRing e.2 || e.2.st == 1))).map (fun e => (5 * e.1 + 3, Turn.queue e.1))
  ps ++ qs ++ sp ++ cq ++ (dueRounds s).map (fun c => (5 * c + 4, Turn.ev (.continuityRound c)))

/-- The candidate with the least key. -/
def leastKey (ts : List (Nat × Turn)) : Option (Nat × Turn) :=
  ts.foldl (fun (b : Option (Nat × Turn)) e => match b with
    | none => some e
    | some x => if e.1 < x.1 then some e else some x) none

/-- The candidate that follows the one served last in the cyclic order of the keys, so that each is served in turn (R38,
R39). -/
def nextServed (s : State) : Option (Nat × Turn) :=
  let ts := candidates s
  (leastKey (ts.filter (fun e => decide (s.rotor < e.1)))).orElse fun _ => leastKey ts

/-- What the default arbiter runs: what is due, else the candidate whose turn it is, else time alone. What is due comes to an
end: each such event uses up what has made it due. -/
def planDefault (s : State) : Option Instr × State :=
  let due := (dueOperation s).orElse fun _ => (dueTimer s).orElse fun _ =>
    (s.cores.findSome? (fun e => dueOnCore s e.1)).orElse fun _ => (dueService s).orElse fun _ => dueOutside s
  match due with
  | some i => (some i, s)
  | none => match nextServed s with
    | some (n, t) => planTurn { s with rotor := n } false t
    | none => (none, s)

/-- What a package whose clocks have stopped takes: whole-device reset, and nothing else (29 R413). -/
def planStopped (s : State) : Option Instr × State :=
  match s.events, s.turns with
  | e :: r, _ => (if isRevival e then some e else none, { s with events := r })
  | [], .ev i :: r => (if isRevival i then some i else none, { s with turns := r })
  | [], _ :: r => (none, { s with turns := r })
  | [], [] => (none, s)

/-- Whose move it is: the events that have come, in order, then the turns of the round under way, between which no agent
outside the rounds comes (R317), then the turns, then the default arbiter (log 3). -/
def plan (s : State) : Option Instr × State :=
  if s.stopped then planStopped s
  else match s.events, s.round, s.turns with
    | e :: r, _, _ => (if isWord e then none else some e, { s with events := r })
    | [], t :: r, _ => planTurn { s with round := r } true t
    | [], [], t :: r => planTurn { s with turns := r } false t
    | [], [], [] => planDefault s

/-! What settles after a step. -/

/-- Some lane of a group has not been stopped where it stood by a trap before its word (23 R336, R338). -/
def notTrapped (w w1 : Warp) : Bool :=
  (lanesOf w.act).any (fun l => !((thr w1 l).any (fun t => t.wait == .debug && t.pc == pcOf w l)))

/-- The word that a warp issued in the step, as its slot, PC and the lowest lane of its group, or none (R313, R340). -/
def issuedWord (before after : State) : Option (Nat × DWord × Nat) :=
  match before.issuer with
  | .warp k => match tget before.warps k with
    | some w =>
      let went := match tget after.warps k with
        | some w1 => w1 != w && notTrapped w w1
        | none => true
      if w.act ≠ 0 ∧ went = true then some (k, wordAddr (curPC w), (lowest w.act).getD 0) else none
    | none => none
  | _ => none

/-- Bypass counts (R313): the warp that issued goes to 0, and the ready warps of its partition that did not issue go up, save
those in continuity mode, which have none (R317); warps that stood back for it need not any more (R332). -/
def bypassed (before s : State) (k : Nat) : State :=
  let up := (mates before k).filter (fun x =>
    issuable before x && !((tget before.warps x).any (fun w => contOfWg before w.wg)))
  { s with warps := s.warps.map (fun e =>
      if e.1 = k then (e.1, { e.2 with bypass := 0 })
      else if up.contains e.1 then (e.1, { e.2 with bypass := e.2.bypass + 1, yieldTo := e.2.yieldTo.filter (· != k) })
      else if e.2.yieldTo.contains k then (e.1, { e.2 with yieldTo := e.2.yieldTo.filter (· != k) })
      else e) }

/-- A warp that has just yielded stands back for the other warps of its partition that are ready; in continuity mode its turn
is over in any case (R332). -/
def yielded (s : State) (k : Nat) : State :=
  match tget s.warps k with
  | some w =>
    if w.yieldTo = [k] then
      setWarp s k { w with yieldTo := if contOfWg s w.wg then [] else (mates s k).filter (issuable s) }
    else s
  | none => s

/-- The sampler's note of what issued in the clock (R340), kept while sampling is enabled. -/
def noteIssued (s : State) (x : Option (Nat × Issued)) : State :=
  if !s.capCfg.getLsbD 24 then s
  else
    let t := s.samplers.map (fun e => (e.1, { e.2 with issued := none }))
    match x with
    | none => { s with samplers := t }
    | some (p, y) => { s with samplers := tput t p { tgetD Sampler.empty t p with issued := some y } }

/-- The notes that a step leaves about the word that issued. -/
def issueNotes (before s : State) : State :=
  match issuedWord before s with
  | some (k, pc, l) =>
    let name := (((tget before.warps k).bind (fun w => thr w l)).map (·.name.n)).getD 0
    noteIssued (yielded (bypassed before s k) k) (some (k / 16, ⟨k % 16, pc, name⟩))
  | none => noteIssued s none

/-- A workgroup that has nothing left ends (17 R257). -/
def endIdle (s : State) : State :=
  ((s.wgs.filter (fun e => !e.2.ended && !wgBusy s e.1)).map (·.1)).foldl wgEndCheck s

/-- Bins and lists that have become due are marked (R22, R254). -/
def markCores (s : State) : State :=
  ((s.cores.filter (fun e => !e.2.tasks.isEmpty || !e.2.bins.isEmpty)).map (·.1)).foldl (fun s c => markLists (markBins s c) c) s

/-- What follows by itself within the clock: rollbacks that have waited act, due bins and lists are marked, free census and wait
slots serve those that wait, forwarded censuses report, drains go on, saved queues come back, workgroups end, holds take effect
between rounds. -/
def settle (s : State) : State :=
  let s := ((s.warps.filter (fun e => e.2.take.isSome)).map (·.1)).foldl settleRolls s
  let s := endIdle (markCores s)
  let s := ((s.cores.filter (fun e => !e.2.solWait.isEmpty)).map (fun e => (e.1, e.2.solWait.length))).foldl
    (fun s e => solServeAll s e.1 e.2) s
  let s := if s.forwarded.isEmpty then s else forwardDone s
  let s := ((s.ctxs.filter (fun e => e.2.drain.isSome)).map (·.1)).foldl drainStep s
  let s := returnQueues s
  let s := if s.queues.any (fun e => e.2.wants.isSome) then shareSlots 64 s else s
  if s.round.isEmpty then applyHolds s else s

/-- What the clock itself brings: the faults of accesses to fabric memory that have not returned in time, the measurement of
the requests that have completed, samples, and die 0's alignment pulse every 2^22 clocks (21 R334, 23 R340, R342, R345). -/
def byClock (s : State) : State :=
  let s := takeSamples (measureStep (endGrids s (lateAll s)))
  if cycleOf s 0 ≠ 0 ∧ cycleOf s 0 % 2 ^ 22 = 0 then stateOf s (execAlignmentPulse s) else s

/-- The end of a step: the notes of what issued, what follows by itself, the future table's entries in memory, what the clock
brings, the writes handed to memory, one clock, and no issuer. -/
def finishStep (before s : State) : State :=
  if s.stopped then { s with issuer := .none }
  else { tick (performPosted (byClock (futChanged before (settle (issueNotes before s))))) 1 with issuer := .none }

/-! An instruction placed where the next step fetches it. -/

/-- A launch header of one thread (01 R15). -/
def probeHdr (entry : Nat) : BitVec 1024 := BitVec.ofNat 1024 (entry + 2 ^ 356)

/-- A context descriptor whose heap covers the first 2^32 bytes (27 R384). -/
def probeDesc : BitVec 1024 := BitVec.ofNat 1024 (1 + 1024 * 2 ^ 15 + 2 ^ 31 + 2 ^ 32 * 2 ^ 128)

/-- The grid of the placed instruction. -/
def probeGrid (entry : Nat) : Grid :=
  ⟨0, 0, 0, probeHdr entry, 0, probeDesc, 7, [], [], [], none, 1, 0, 1, true, false, false, [], 0, [], 0, none, [], false, []⟩

/-- The workgroup key of the placed instruction. -/
def probeWg : Nat := 2 ^ 64

/-- The workgroup of the placed instruction. -/
def probeWorkgroup : Workgroup := ⟨0, 0, 0, some 0, true, 0, [], [], [], 0, [], [], [], 0, 0, 1, false⟩

/-- The clause's address of the placed instruction. -/
def probePc : Nat := 0x1000

/-- The thread of the placed instruction, at the first word of its clause. -/
def probeThread : Thread :=
  { freshThread ⟨probeWg, false, 0, false⟩ (BitVec.ofNat 64 probePc) 0 with pc := ⟨BitVec.ofNat 64 probePc, 1⟩ }

/-- The words of an instruction: its first word and the one after it. -/
def probeWords (nbits w : Nat) : List Word :=
  let v := w % 2 ^ nbits
  [BitVec.ofNat 32 v, BitVec.ofNat 32 (v / 2 ^ 32)]

/-- The bytes of words. -/
def bytesOf (ws : List Word) : List Byte := ws.flatMap (fun x => leBytes 4 x.toNat)

/-- The state with the grid, the workgroup and the words in memory. -/
def probeBase (s : State) (ws : List Word) (t : Turn) : State :=
  { s with
    mem := memPuts s.mem (probePc + 4) (bytesOf ws)
    grids := tput s.grids 1 (probeGrid probePc)
    wgs := tput s.wgs probeWg probeWorkgroup
    events := []
    round := []
    turns := [t]
    stopped := false }

/-- A lane word as the next word of the warp in slot 0 of core 0. -/
def placeLane (s : State) (ws : List Word) : State :=
  let w := { freshWarp probeWg .launch 0 0 0 [(0, probeThread)] with cand := 1, act := 1, code := ws }
  let s := probeBase s ws (.warp 0)
  { s with warps := tput s.warps 0 w }

/-- A stream word as the next word of the sequencer of core 0. -/
def placeStream (s : State) (ws : List Word) : State :=
  let q : Seq := ⟨probeWg, ⟨BitVec.ofNat 64 probePc, 1⟩, true, ws, [], [], [], [], [], [], false, [], [], false, 0, []⟩
  let s := probeBase s ws (.seq 0)
  setCore s 0 { coreRec s 0 with seq := some q }

/-- A splice word as the next word of context 0 of link 0. -/
def placeSplice (s : State) (ws : List Word) : State :=
  let x := { Splicer.empty with cfg := BitVec.ofNat 64 (2 ^ 63 + 16 * 2 ^ 32), st := spRunning }
  let l := linkRec s 0
  let s := { s with events := [], round := [], turns := [.splicer 0], stopped := false }
  setSpl (setLink s 0 { l with imem := tputD 0 l.imem 0 (ws.headD 0), imemOld := [], cur := 0 }) 0 x

end Sys2Proof.Machine
end

