-- ==== Sys2Proof/Machine/Dispatch.lean ====
section
/-! DEFINITION. Every word, packet and event with its meaning: one arm per constructor of Instr. -/

namespace Sys2Proof.Machine

def exec (i : Instr) (s : State) : Host.Outcome State Fault Refusal :=
  match i with
  | .iadd d a b => Sys2Proof.Machine.execIadd d a b s
  | .iaddi d a imm => Sys2Proof.Machine.execIaddi d a imm s
  | .isub d a b => Sys2Proof.Machine.execIsub d a b s
  | .imul d a b => Sys2Proof.Machine.execImul d a b s
  | .imulhs d a b => Sys2Proof.Machine.execImulhs d a b s
  | .imulhu d a b => Sys2Proof.Machine.execImulhu d a b s
  | .imad d a b c => Sys2Proof.Machine.execImad d a b c s
  | .imin d a b => Sys2Proof.Machine.execImin d a b s
  | .imax d a b => Sys2Proof.Machine.execImax d a b s
  | .umin d a b => Sys2Proof.Machine.execUmin d a b s
  | .umax d a b => Sys2Proof.Machine.execUmax d a b s
  | .iabs d a => Sys2Proof.Machine.execIabs d a s
  | .ineg d a => Sys2Proof.Machine.execIneg d a s
  | .iand d a b => Sys2Proof.Machine.execIand d a b s
  | .ior d a b => Sys2Proof.Machine.execIor d a b s
  | .ixor d a b => Sys2Proof.Machine.execIxor d a b s
  | .andn d a b => Sys2Proof.Machine.execAndn d a b s
  | .inot d a => Sys2Proof.Machine.execInot d a s
  | .shl d a b => Sys2Proof.Machine.execShl d a b s
  | .shr d a b => Sys2Proof.Machine.execShr d a b s
  | .sar d a b => Sys2Proof.Machine.execSar d a b s
  | .rotl d a b => Sys2Proof.Machine.execRotl d a b s
  | .shli d a imm => Sys2Proof.Machine.execShli d a imm s
  | .shri d a imm => Sys2Proof.Machine.execShri d a imm s
  | .sari d a imm => Sys2Proof.Machine.execSari d a imm s
  | .popc d a => Sys2Proof.Machine.execPopc d a s
  | .clz d a => Sys2Proof.Machine.execClz d a s
  | .brev d a => Sys2Proof.Machine.execBrev d a s
  | .bfx d a sub aux => Sys2Proof.Machine.execBfx d a sub aux s
  | .bfi d a b aux => Sys2Proof.Machine.execBfi d a b aux s
  | .lea d a b aux => Sys2Proof.Machine.execLea d a b aux s
  | .add64 d a b => Sys2Proof.Machine.execAdd64 d a b s
  | .sub64 d a b => Sys2Proof.Machine.execSub64 d a b s
  | .mulw d a b sub => Sys2Proof.Machine.execMulw d a b sub s
  | .mov d a => Sys2Proof.Machine.execMov d a s
  | .movi d imm => Sys2Proof.Machine.execMovi d imm s
  | .movhi d imm => Sys2Proof.Machine.execMovhi d imm s
  | .movl d lit => Sys2Proof.Machine.execMovl d lit s
  | .selp d a b pd pn => Sys2Proof.Machine.execSelp d a b pd pn s
  | .icmp d a b sub ty => Sys2Proof.Machine.execIcmp d a b sub ty s
  | .fcmp d a b sub => Sys2Proof.Machine.execFcmp d a b sub s
  | .pand d a b => Sys2Proof.Machine.execPand d a b s
  | .por d a b => Sys2Proof.Machine.execPor d a b s
  | .pxor d a b => Sys2Proof.Machine.execPxor d a b s
  | .pnot d a => Sys2Proof.Machine.execPnot d a s
  | .pmov d a => Sys2Proof.Machine.execPmov d a s
  | .ptov d a => Sys2Proof.Machine.execPtov d a s
  | .fadd d a b => Sys2Proof.Machine.execFadd d a b s
  | .faddT d a b rnd => Sys2Proof.Machine.execFaddT d a b rnd s
  | .fsub d a b => Sys2Proof.Machine.execFsub d a b s
  | .fsubT d a b rnd => Sys2Proof.Machine.execFsubT d a b rnd s
  | .fmul d a b => Sys2Proof.Machine.execFmul d a b s
  | .fmulT d a b rnd => Sys2Proof.Machine.execFmulT d a b rnd s
  | .ffma d a b c rnd => Sys2Proof.Machine.execFfma d a b c rnd s
  | .fmin d a b => Sys2Proof.Machine.execFmin d a b s
  | .fmax d a b => Sys2Proof.Machine.execFmax d a b s
  | .fabs d a => Sys2Proof.Machine.execFabs d a s
  | .fneg d a => Sys2Proof.Machine.execFneg d a s
  | .frnd d a rnd => Sys2Proof.Machine.execFrnd d a rnd s
  | .frcp d a => Sys2Proof.Machine.execFrcp d a s
  | .frsq d a => Sys2Proof.Machine.execFrsq d a s
  | .fsqrt d a rnd => Sys2Proof.Machine.execFsqrt d a rnd s
  | .fexp2 d a => Sys2Proof.Machine.execFexp2 d a s
  | .flog2 d a => Sys2Proof.Machine.execFlog2 d a s
  | .fsin d a => Sys2Proof.Machine.execFsin d a s
  | .fcos d a => Sys2Proof.Machine.execFcos d a s
  | .fclass d a => Sys2Proof.Machine.execFclass d a s
  | .hadd2 d a b => Sys2Proof.Machine.execHadd2 d a b s
  | .hmul2 d a b => Sys2Proof.Machine.execHmul2 d a b s
  | .hfma2 d a b c => Sys2Proof.Machine.execHfma2 d a b c s
  | .hmax2 d a b => Sys2Proof.Machine.execHmax2 d a b s
  | .hmin2 d a b => Sys2Proof.Machine.execHmin2 d a b s
  | .badd2 d a b => Sys2Proof.Machine.execBadd2 d a b s
  | .bmul2 d a b => Sys2Proof.Machine.execBmul2 d a b s
  | .bfma2 d a b c => Sys2Proof.Machine.execBfma2 d a b c s
  | .cvt d a sub rnd aux => Sys2Proof.Machine.execCvt d a sub rnd aux s
  | .tepack d a aux => Sys2Proof.Machine.execTepack d a aux s
  | .teunpk d a aux => Sys2Proof.Machine.execTeunpk d a aux s
  | .scalex d a b sub aux => Sys2Proof.Machine.execScalex d a b sub aux s
  | .shuf d a b => Sys2Proof.Machine.execShuf d a b s
  | .shufup d a n => Sys2Proof.Machine.execShufup d a n s
  | .shufdn d a n => Sys2Proof.Machine.execShufdn d a n s
  | .shufx d a n => Sys2Proof.Machine.execShufx d a n s
  | .voteall d a => Sys2Proof.Machine.execVoteall d a s
  | .voteany d a => Sys2Proof.Machine.execVoteany d a s
  | .ballot d a => Sys2Proof.Machine.execBallot d a s
  | .matchLanes d a => Sys2Proof.Machine.execMatchLanes d a s
  | .redux d a sub => Sys2Proof.Machine.execRedux d a sub s
  | .scan d a sub => Sys2Proof.Machine.execScan d a sub s
  | .bra off => Sys2Proof.Machine.execBra off s
  | .brc off pd pn => Sys2Proof.Machine.execBrc off pd pn s
  | .brx a => Sys2Proof.Machine.execBrx a s
  | .call off c => Sys2Proof.Machine.execCall off c s
  | .callx d a => Sys2Proof.Machine.execCallx d a s
  | .ret a => Sys2Proof.Machine.execRet a s
  | .reconv off => Sys2Proof.Machine.execReconv off s
  | .reform a => Sys2Proof.Machine.execReform a s
  | .sleep imm => Sys2Proof.Machine.execSleep imm s
  | .ldl src base off => Sys2Proof.Machine.execLdl src base off s
  | .ldlT src base off ty => Sys2Proof.Machine.execLdlT src base off ty s
  | .stl src base off => Sys2Proof.Machine.execStl src base off s
  | .stlT src base off ty => Sys2Proof.Machine.execStlT src base off ty s
  | .ldg src base off => Sys2Proof.Machine.execLdg src base off s
  | .ldgT src base off sub ty => Sys2Proof.Machine.execLdgT src base off sub ty s
  | .stg src base off => Sys2Proof.Machine.execStg src base off s
  | .stgT src base off sub ty => Sys2Proof.Machine.execStgT src base off sub ty s
  | .ldk src base off => Sys2Proof.Machine.execLdk src base off s
  | .lda src base off scope ty => Sys2Proof.Machine.execLda src base off scope ty s
  | .strel src base off scope ty => Sys2Proof.Machine.execStrel src base off scope ty s
  | .atom src base off c sub scope ty => Sys2Proof.Machine.execAtom src base off c sub scope ty s
  | .atomc src base off c scope ty aux => Sys2Proof.Machine.execAtomc src base off c scope ty aux s
  | .atoml src base off c sub ty => Sys2Proof.Machine.execAtoml src base off c sub ty s
  | .fatom base off c sub ty => Sys2Proof.Machine.execFatom base off c sub ty s
  | .fence sub scope => Sys2Proof.Machine.execFence sub scope s
  | .barinit a n => Sys2Proof.Machine.execBarinit a n s
  | .bara n => Sys2Proof.Machine.execBara n s
  | .barw n => Sys2Proof.Machine.execBarw n s
  | .bars n => Sys2Proof.Machine.execBars n s
  | .rwrite n a b => Sys2Proof.Machine.execRwrite n a b s
  | .rwait a => Sys2Proof.Machine.execRwait a s
  | .rcount d => Sys2Proof.Machine.execRcount d s
  | .claim m => Sys2Proof.Machine.execClaim m s
  | .give m => Sys2Proof.Machine.execGive m s
  | .bmovWrite d a => Sys2Proof.Machine.execBmovWrite d a s
  | .bmovRead d a => Sys2Proof.Machine.execBmovRead d a s
  | .tlblock a b => Sys2Proof.Machine.execTlblock a b s
  | .tlbunlk a => Sys2Proof.Machine.execTlbunlk a s
  | .acopy d a b c sub ty => Sys2Proof.Machine.execAcopy d a b c sub ty s
  | .bcopy d a b sub => Sys2Proof.Machine.execBcopy d a b sub s
  | .gather d a b c ty => Sys2Proof.Machine.execGather d a b c ty s
  | .tokclr d => Sys2Proof.Machine.execTokclr d s
  | .tlwait a b => Sys2Proof.Machine.execTlwait a b s
  | .tlread d a => Sys2Proof.Machine.execTlread d a s
  | .stashmap a b c => Sys2Proof.Machine.execStashmap a b c s
  | .stashwb a b => Sys2Proof.Machine.execStashwb a b s
  | .stashinv a b => Sys2Proof.Machine.execStashinv a b s
  | .tspawn a b sub aux => Sys2Proof.Machine.execTspawn a b sub aux s
  | .futnew d => Sys2Proof.Machine.execFutnew d s
  | .futset a b => Sys2Proof.Machine.execFutset a b s
  | .futwait a => Sys2Proof.Machine.execFutwait a s
  | .futget d a => Sys2Proof.Machine.execFutget d a s
  | .futdrop a => Sys2Proof.Machine.execFutdrop a s
  | .qpop d q => Sys2Proof.Machine.execQpop d q s
  | .qpush a q => Sys2Proof.Machine.execQpush a q s
  | .qroom d q => Sys2Proof.Machine.execQroom d q s
  | .mbxbind a b => Sys2Proof.Machine.execMbxbind a b s
  | .nmatch a b c => Sys2Proof.Machine.execNmatch a b c s
  | .nunmatch a => Sys2Proof.Machine.execNunmatch a s
  | .keep scope => Sys2Proof.Machine.execKeep scope s
  | .drop a sub aux => Sys2Proof.Machine.execDrop a sub aux s
  | .tstat d => Sys2Proof.Machine.execTstat d s
  | .solicit d a b sub scope => Sys2Proof.Machine.execSolicit d a b sub scope s
  | .census d a sub => Sys2Proof.Machine.execCensus d a sub s
  | .respond a sub => Sys2Proof.Machine.execRespond a sub s
  | .kdirins a b sub => Sys2Proof.Machine.execKdirins a b sub s
  | .kdirdel a => Sys2Proof.Machine.execKdirdel a s
  | .kdirlook d a => Sys2Proof.Machine.execKdirlook d a s
  | .kdirmig a b sub => Sys2Proof.Machine.execKdirmig a b sub s
  | .trap n => Sys2Proof.Machine.execTrap n s
  | .getsr d n => Sys2Proof.Machine.execGetsr d n s
  | .setsr a n => Sys2Proof.Machine.execSetsr a n s
  | .bkpt tag => Sys2Proof.Machine.execBkpt tag s
  | .shld x y => Sys2Proof.Machine.execShld x y s
  | .shset x y z sel => Sys2Proof.Machine.execShset x y z sel s
  | .shcopy x y => Sys2Proof.Machine.execShcopy x y s
  | .wload x y => Sys2Proof.Machine.execWload x y s
  | .mzero x => Sys2Proof.Machine.execMzero x s
  | .mma f x y z w => Sys2Proof.Machine.execMma f x y z w s
  | .mmas f x y z w => Sys2Proof.Machine.execMmas f x y z w s
  | .mma32 x y z w => Sys2Proof.Machine.execMma32 x y z w s
  | .conv f x y z w => Sys2Proof.Machine.execConv f x y z w s
  | .mst x y t => Sys2Proof.Machine.execMst x y t s
  | .mld x y => Sys2Proof.Machine.execMld x y s
  | .mact x fn => Sys2Proof.Machine.execMact x fn s
  | .sqbar n => Sys2Proof.Machine.execSqbar n s
  | .sqwait n => Sys2Proof.Machine.execSqwait n s
  | .sqloop x => Sys2Proof.Machine.execSqloop x s
  | .sqend off => Sys2Proof.Machine.execSqend off s
  | .sqbra x off => Sys2Proof.Machine.execSqbra x off s
  | .sqtl x y => Sys2Proof.Machine.execSqtl x y s
  | .sqsetLiteral x lit => Sys2Proof.Machine.execSqsetLiteral x lit s
  | .sqsetUniform x b => Sys2Proof.Machine.execSqsetUniform x b s
  | .sqadd x y z => Sys2Proof.Machine.execSqadd x y z s
  | .spliceMovi x imm => Sys2Proof.Machine.execSpliceMovi x imm s
  | .addi x y imm => Sys2Proof.Machine.execAddi x y imm s
  | .subi x y imm => Sys2Proof.Machine.execSubi x y imm s
  | .ldc x imm => Sys2Proof.Machine.execLdc x imm s
  | .jmp imm => Sys2Proof.Machine.execJmp imm s
  | .cmpj x y z imm => Sys2Proof.Machine.execCmpj x y z imm s
  | .spliceLoop x imm => Sys2Proof.Machine.execSpliceLoop x imm s
  | .xmit bf ki kd => Sys2Proof.Machine.execXmit bf ki kd s
  | .xmitTag bf ki ks kd => Sys2Proof.Machine.execXmitTag bf ki ks kd s
  | .recv bf ki ks => Sys2Proof.Machine.execRecv bf ki ks s
  | .cmb bf ki ks co => Sys2Proof.Machine.execCmb bf ki ks co s
  | .cmbf bf ki ks kd co => Sys2Proof.Machine.execCmbf bf ki ks kd co s
  | .fwait x y imm => Sys2Proof.Machine.execFwait x y imm s
  | .fsig x y imm => Sys2Proof.Machine.execFsig x y imm s
  | .packetNop n => Sys2Proof.Machine.execPacketNop n s
  | .launch hdr rank => Sys2Proof.Machine.execLaunch hdr rank s
  | .claunch tbl mask ctx rank hdr => Sys2Proof.Machine.execClaunch tbl mask ctx rank hdr s
  | .feed core die q recs => Sys2Proof.Machine.execFeed core die q recs s
  | .wake core die all => Sys2Proof.Machine.execWake core die all s
  | .indirect addr len => Sys2Proof.Machine.execIndirect addr len s
  | .pred addr v cond skip => Sys2Proof.Machine.execPred addr v cond skip s
  | .packetLoop count => Sys2Proof.Machine.execPacketLoop count s
  | .write addr data => Sys2Proof.Machine.execWrite addr data s
  | .copy dst src len => Sys2Proof.Machine.execCopy dst src len s
  | .signalWrite addr v => Sys2Proof.Machine.execSignalWrite addr v s
  | .signalAdd addr v => Sys2Proof.Machine.execSignalAdd addr v s
  | .waitMemory addr thr => Sys2Proof.Machine.execWaitMemory addr thr s
  | .waitTimeline handle thr => Sys2Proof.Machine.execWaitTimeline handle thr s
  | .snap tbl n area => Sys2Proof.Machine.execSnap tbl n area s
  | .tlset handle thr => Sys2Proof.Machine.execTlset handle thr s
  | .sleepExpiry w => Sys2Proof.Machine.execSleepExpiry w s
  | .asyncCopyCompletion id => Sys2Proof.Machine.execAsyncCopyCompletion id s
  | .keyEntryLanding id => Sys2Proof.Machine.execKeyEntryLanding id s
  | .censusArrivalPoint core cen => Sys2Proof.Machine.execCensusArrivalPoint core cen s
  | .trapHandlerFormation core => Sys2Proof.Machine.execTrapHandlerFormation core s
  | .streamOperationCompletion core => Sys2Proof.Machine.execStreamOperationCompletion core s
  | .flagReread k => Sys2Proof.Machine.execFlagReread k s
  | .splicerOperationCompletion k => Sys2Proof.Machine.execSplicerOperationCompletion k s
  | .chunkPacketSend link => Sys2Proof.Machine.execChunkPacketSend link s
  | .networkMatchFire die id => Sys2Proof.Machine.execNetworkMatchFire die id s
  | .rateLimiterInterval link fid => Sys2Proof.Machine.execRateLimiterInterval link fid s
  | .gateTimeout serial => Sys2Proof.Machine.execGateTimeout serial s
  | .launchConditionsSatisfied q => Sys2Proof.Machine.execLaunchConditionsSatisfied q s
  | .pageServiceResume q => Sys2Proof.Machine.execPageServiceResume q s
  | .gangPlacement pick => Sys2Proof.Machine.execGangPlacement pick s
  | .gangWaitLimit serial => Sys2Proof.Machine.execGangWaitLimit serial s
  | .binAgeLimit core bin => Sys2Proof.Machine.execBinAgeLimit core bin s
  | .binDraw core bin => Sys2Proof.Machine.execBinDraw core bin s
  | .gatherLimit core wg pc => Sys2Proof.Machine.execGatherLimit core wg pc s
  | .waveFormation core wg pc => Sys2Proof.Machine.execWaveFormation core wg pc s
  | .mailboxArrival m => Sys2Proof.Machine.execMailboxArrival m s
  | .deferredAddApply serial => Sys2Proof.Machine.execDeferredAddApply serial s
  | .gridCompletion serial => Sys2Proof.Machine.execGridCompletion serial s
  | .remoteTimeout w => Sys2Proof.Machine.execRemoteTimeout w s
  | .continuityRound ctx => Sys2Proof.Machine.execContinuityRound ctx s
  | .drainDeadline ctx => Sys2Proof.Machine.execDrainDeadline ctx s
  | .stallSample core part => Sys2Proof.Machine.execStallSample core part s
  | .hwqRingResident k => Sys2Proof.Machine.execHwqRingResident k s
  | .parkedConditionCheck q => Sys2Proof.Machine.execParkedConditionCheck q s
  | .snapshotBackgroundCopy ctx => Sys2Proof.Machine.execSnapshotBackgroundCopy ctx s
  | .pendingWriteCompletion w id => Sys2Proof.Machine.execPendingWriteCompletion w id s
  | .clauseIssue => Sys2Proof.Machine.execClauseIssue s
  | .exit => Sys2Proof.Machine.execExit s
  | .rjoin => Sys2Proof.Machine.execRjoin s
  | .nop => Sys2Proof.Machine.execNop s
  | .tend => Sys2Proof.Machine.execTend s
  | .take => Sys2Proof.Machine.execTake s
  | .yield => Sys2Proof.Machine.execYield s
  | .sysret => Sys2Proof.Machine.execSysret s
  | .sqhalt => Sys2Proof.Machine.execSqhalt s
  | .spliceNop => Sys2Proof.Machine.execSpliceNop s
  | .halt => Sys2Proof.Machine.execHalt s
  | .endl => Sys2Proof.Machine.execEndl s
  | .endloop => Sys2Proof.Machine.execEndloop s
  | .fetchfence => Sys2Proof.Machine.execFetchfence s
  | .alignmentPulse => Sys2Proof.Machine.execAlignmentPulse s
  | .captureStart => Sys2Proof.Machine.execCaptureStart s
  | .captureStop => Sys2Proof.Machine.execCaptureStop s
  | .captureFreeze => Sys2Proof.Machine.execCaptureFreeze s
  | .captureReset => Sys2Proof.Machine.execCaptureReset s
  | .waitSlotParking => Sys2Proof.Machine.execWaitSlotParking s
  | .standInTakeover => Sys2Proof.Machine.execStandInTakeover s
  | .functionLevelReset => Sys2Proof.Machine.execFunctionLevelReset s
  | .wholeDeviceReset => Sys2Proof.Machine.execWholeDeviceReset s
  | .thermalThrottle => Sys2Proof.Machine.execThermalThrottle s
  | .thermalStop => Sys2Proof.Machine.execThermalStop s
  | .temperatureFall => Sys2Proof.Machine.execTemperatureFall s
  | .splicerStart k rec => Sys2Proof.Machine.execSplicerStart k rec s
  | .splicerResume k => Sys2Proof.Machine.execSplicerResume k s
  | .splicerAbort k => Sys2Proof.Machine.execSplicerAbort k s
  | .spcfgWrite k v => Sys2Proof.Machine.execSpcfgWrite k v s
  | .splicerStateWindowWrite k off size v => Sys2Proof.Machine.execSplicerStateWindowWrite k off size v s
  | .chunkDataArrival k sfid slink sctx epoch len seq data => Sys2Proof.Machine.execChunkDataArrival k sfid slink sctx epoch len seq data s
  | .creditArrival k dst epoch n => Sys2Proof.Machine.execCreditArrival k dst epoch n s
  | .refusalArrival k refusal => Sys2Proof.Machine.execRefusalArrival k refusal s
  | .taggedMessageArrival die ctx tag len part sfid slink sctx => Sys2Proof.Machine.execTaggedMessageArrival die ctx tag len part sfid slink sctx s
  | .verdictArrival k claim => Sys2Proof.Machine.execVerdictArrival k claim s
  | .congestionNotice link fid => Sys2Proof.Machine.execCongestionNotice link fid s
  | .memoryPacketArrival pa data excl refused => Sys2Proof.Machine.execMemoryPacketArrival pa data excl refused s
  | .censusPacketArrival fid id key arg op fgroup => Sys2Proof.Machine.execCensusPacketArrival fid id key arg op fgroup s
  | .censusResultArrival id live wd => Sys2Proof.Machine.execCensusResultArrival id live wd s
  | .linkUp die index node self => Sys2Proof.Machine.execLinkUp die index node self s
  | .linkDown l => Sys2Proof.Machine.execLinkDown l s
  | .linkErrorWindow l resent => Sys2Proof.Machine.execLinkErrorWindow l resent s
  | .lnkerrWrite l => Sys2Proof.Machine.execLnkerrWrite l s
  | .gateAckArrival key rank => Sys2Proof.Machine.execGateAckArrival key rank s
  | .gateRefusalArrival key rank => Sys2Proof.Machine.execGateRefusalArrival key rank s
  | .gateOpenNoticeArrival key => Sys2Proof.Machine.execGateOpenNoticeArrival key s
  | .gateEndNoticeArrival key rank rec => Sys2Proof.Machine.execGateEndNoticeArrival key rank rec s
  | .packageLost peer => Sys2Proof.Machine.execPackageLost peer s
  | .drain ctx => Sys2Proof.Machine.execDrain ctx s
  | .urgentFreeze ctx claim => Sys2Proof.Machine.execUrgentFreeze ctx claim s
  | .victimResume ctx pick => Sys2Proof.Machine.execVictimResume ctx pick s
  | .kill serial => Sys2Proof.Machine.execKill serial s
  | .setSstep ctx => Sys2Proof.Machine.execSetSstep ctx s
  | .clearSstep ctx => Sys2Proof.Machine.execClearSstep ctx s
  | .resumeParked ctx => Sys2Proof.Machine.execResumeParked ctx s
  | .releaseHolds ctx => Sys2Proof.Machine.execReleaseHolds ctx s
  | .doorbellWrite q off v => Sys2Proof.Machine.execDoorbellWrite q off v s
  | .hwqDescriptorWrite k off size v => Sys2Proof.Machine.execHwqDescriptorWrite k off size v s
  | .contextDescriptorWrite n off size v => Sys2Proof.Machine.execContextDescriptorWrite n off size v s
  | .evcfgWrite v => Sys2Proof.Machine.execEvcfgWrite v s
  | .balanceWrite v => Sys2Proof.Machine.execBalanceWrite v s
  | .registerWrite off size v => Sys2Proof.Machine.execRegisterWrite off size v s
  | .liveUpdate image version table => Sys2Proof.Machine.execLiveUpdate image version table s
  | .resetQueue q => Sys2Proof.Machine.execResetQueue q s
  | .resetEngine handle => Sys2Proof.Machine.execResetEngine handle s
  | .resetPartition dies => Sys2Proof.Machine.execResetPartition dies s
  | .resetDie die => Sys2Proof.Machine.execResetDie die s
  | .spdmMeasurementRequest nonce => Sys2Proof.Machine.execSpdmMeasurementRequest nonce s
  | .spdmCommitMinimum v => Sys2Proof.Machine.execSpdmCommitMinimum v s
  | .unitReady unit => Sys2Proof.Machine.execUnitReady unit s
  | .softError cls site at_ corrected => Sys2Proof.Machine.execSoftError cls site at_ corrected s
  | .hostMemoryAccess pa wr data len => Sys2Proof.Machine.execHostMemoryAccess pa wr data len s
  | .fabricGroupReport group members => Sys2Proof.Machine.execFabricGroupReport group members s
  | .pageServiceDeclined serial => Sys2Proof.Machine.execPageServiceDeclined serial s
  | .drainCancel ctx => Sys2Proof.Machine.execDrainCancel ctx s
  | .malformedPacketArrival packet => Sys2Proof.Machine.execMalformedPacketArrival packet s
  | .powerAllotmentReached domain reached => Sys2Proof.Machine.execPowerAllotmentReached domain reached s

end Sys2Proof.Machine
end

