-- ==== Sys2Proof/Machine/Step.lean ====
section
/-! DEFINITION. One step of the machine, and a word placed where the next step fetches it. -/

namespace Sys2Proof.Machine

/-- One step (log 3): the word, packet or event whose turn it is has its effect, what settles by itself settles, and one
clock passes; with nothing to run, only the clock passes. -/
def step (s : State) : Host.Outcome State Fault Refusal :=
  match plan s with
  | (none, t) => .next (finishStep t t)
  | (some i, t) => match exec i t with
    | .next u => .next (finishStep t u)
    | .fault f => .fault f
    | .refused r => .refused r

/-- The state in which the next step fetches and runs the instruction of these bits: a lane word as the next word of a
warp, a stream word as that of a block sequencer, a splice word as that of a splicer context (log 13). A program comes to
run from reset through the host (log 17). -/
def State.withFetchWord (s : State) (nbits w : Nat) : State :=
  let ws := probeWords nbits w
  match decodeTableWord nbits w with
  | none => placeLane s ws
  | some i =>
    if (laneParts i).isSome then placeLane s ws
    else if (streamParts i).isSome then placeStream s ws
    else placeSplice s ws

end Sys2Proof.Machine
end

