-- ==== Sys2Proof/WellFormed.lean ====
section
/-! DEFINITION. Well-formed instructions: every operand field lies in its kind and every variant is one that its entry
assigns (07 R102, R103; 25 R366). -/

namespace Sys2Proof

/-- Every field of the instruction has a value that the encoding admits. -/
abbrev WellFormed (i : Instr) : Prop := fieldFault i = none

/-- The instruction is a lane word (07 R106, R107). -/
def isLane (i : Instr) : Bool := (laneParts i).isSome

/-- The instruction is a matrix-stream word (07 R109). -/
def isStream (i : Instr) : Bool := (streamParts i).isSome

/-- The instruction is a splice word (25 R366). -/
def isSplice (i : Instr) : Bool := (encodeSplice i).isSome

end Sys2Proof
end

