-- ==== Sys2Proof/Laws/PerInstr.lean ====
section
/-! SUPPORT. The family RoundTrip, per instruction: decoding inverts encoding. -/

namespace Sys2Proof.Laws.RoundTrip

/-- The words of a well-formed lane, matrix-stream or splice instruction decode to it, whatever word follows; of an event
or a packet it says nothing (07 R100, R101, R108; 25 R365). -/
def Statement (i : Instr) : Prop :=
  WellFormed i →
    (∀ w t, encodeLane i = some (w, t) → ∀ u, decodeLaneWord w (t.orElse fun _ => u) = .ok i) ∧
    (∀ w t, encodeStream i = some (w, t) → ∀ u, decodeStreamWord w (t.orElse fun _ => u) = .ok i) ∧
    (∀ w, encodeSplice i = some w → decodeSplice w = .ok i)

/-! Fields of words. -/

theorem unpack_packTail (t : Tail) : unpackTail (packTail t) = t := by
  obtain ⟨c, sub, scope, rnd, pd, pn, ty, aux⟩ := t
  simp only [unpackTail, packTail, Tail.mk.injEq]
  refine ⟨?_, ?_, ?_, ?_, ?_, ?_, ?_, ?_⟩ <;> ext i hi <;> simp <;> grind

theorem pack_unpackTail (l : Word) : packTail (unpackTail l) = l := by
  simp only [unpackTail, packTail]
  ext i hi
  simp
  grind

theorem lane_fields (op d a b : Fld) : fOp (op ++ d ++ a ++ b) = op ∧ fD (op ++ d ++ a ++ b) = d ∧
    fA (op ++ d ++ a ++ b) = a ∧ fB (op ++ d ++ a ++ b) = b := by
  simp only [fOp, fD, fA, fB]
  refine ⟨?_, ?_, ?_, ?_⟩ <;> ext i hi <;> simp <;> grind

theorem half_bytes (h : Half) : h.extractLsb' 8 8 ++ h.extractLsb' 0 8 = h := by
  ext i hi; simp; grind

theorem offset_bytes (o : BitVec 24) : o.extractLsb' 16 8 ++ o.extractLsb' 8 8 ++ o.extractLsb' 0 8 = o := by
  ext i hi; simp; grind

theorem loop_bytes (o : BitVec 20) :
    o.extractLsb' 16 4 ++ o.extractLsb' 12 4 ++ o.extractLsb' 8 4 ++ o.extractLsb' 0 8 = o := by
  ext i hi; simp; grind

/-! The three sets of words. -/

/-- A lane instruction whose parts build it and use no other field. -/
theorem lane_inverts {i : Instr} {op d a b : Fld} {t : Tail} {s : Shape} (hp : laneParts i = some (op, d, a, b, t))
    (hs : laneShape op d = some s) (hb : buildLane op d a b t = some i) (hz : unusedZero s d a b t = true)
    (ht : (s.trail != .none || t == Tail.zero) = true) (h2 : streamParts i = none) (h3 : encodeSplice i = none) :
    Statement i := by
  intro hw
  refine ⟨fun w u h v => ?_, fun w u h => ?_, fun w h => ?_⟩
  · obtain ⟨f1, f2, f3, f4⟩ := lane_fields op d a b
    have hd : decodeLane op d a b t = .ok i := by simp only [decodeLane, hs, hb, hz, if_true, hw]
    obtain ⟨cls, trail, term, sd, sa, sb, tl⟩ := s
    simp only [encodeLane, hp, hs, Option.some.injEq, Prod.mk.injEq] at h
    obtain ⟨rfl, rfl⟩ := h
    simp only [decodeLaneWord, f1, f2, f3, f4, hs]
    cases trail
    · have : t = Tail.zero := by simpa using ht
      subst this; exact hd
    · simpa [unpack_packTail] using hd
    · simpa [unpack_packTail] using hd
  · simp [encodeStream, h2] at h
  · simp [h3] at h

theorem other_inverts {i : Instr} (h1 : laneParts i = none) (h2 : streamParts i = none) (h3 : encodeSplice i = none) :
    Statement i :=
  fun _ => ⟨fun w t h => by simp [encodeLane, h1] at h, fun w t h => by simp [encodeStream, h2] at h,
    fun w h => by simp [h3] at h⟩

theorem literal_inverts (d : Fld) (l : Word) : Statement (.movl d l) :=
  lane_inverts (op := 0x2B) (d := d) (a := 0) (b := 0) (t := unpackTail l) rfl rfl
    (by show some (Instr.movl d (packTail (unpackTail l))) = _; rw [pack_unpackTail]) rfl rfl rfl rfl

theorem stream_fields (op : Fld) (x y z w : BitVec 4) (imm : Fld) :
    let v : Word := op ++ x ++ y ++ z ++ w ++ imm
    fOp v = op ∧ v.extractLsb' 20 4 = x ∧ v.extractLsb' 16 4 = y ∧ v.extractLsb' 12 4 = z ∧ v.extractLsb' 8 4 = w ∧
      fB v = imm := by
  simp only [fOp, fB]
  refine ⟨?_, ?_, ?_, ?_, ?_, ?_⟩ <;> ext i hi <;> simp <;> grind

/-- A matrix-stream instruction without a literal, whose fields build it and of which it uses no other. -/
theorem stream_inverts {i : Instr} {op : Fld} {x y z w : BitVec 4} {imm : Fld}
    (hp : streamParts i = some (op, x, y, z, w, imm, 0)) (hb : buildStream op x y z w imm 0 = some i)
    (hz : (((streamUse i).1 || x == 0) && ((streamUse i).2.1 || y == 0) && ((streamUse i).2.2.1 || z == 0) &&
      ((streamUse i).2.2.2.1 || w == 0) && ((streamUse i).2.2.2.2 || imm == 0)) = true)
    (h1 : laneParts i = none) (h3 : encodeSplice i = none) (ho : op ≠ 0x48) : Statement i := by
  intro hw
  refine ⟨fun v t h => by simp [encodeLane, h1] at h, fun v t h u => ?_, fun v h => by simp [h3] at h⟩
  obtain ⟨f1, f2, f3, f4, f5, f6⟩ := stream_fields op x y z w imm
  simp only [encodeStream, hp, ho, if_false, Option.some.injEq, Prod.mk.injEq] at h
  obtain ⟨rfl, rfl⟩ := h
  simp only [decodeStreamWord, f1, f2, f3, f4, f5, f6, ho, if_false, decodeStream, hb, hz, if_true, hw]

theorem op_group (n : BitVec 5) (f : BitVec 3) : ((n ++ f : Fld)).toNat = 8 * n.toNat + f.toNat := by
  rw [BitVec.toNat_append, ← Nat.shiftLeft_add_eq_or_of_lt f.isLt, Nat.shiftLeft_eq, Nat.mul_comm]

theorem op_low (n : BitVec 5) (f : BitVec 3) : (n ++ f : Fld).extractLsb' 0 3 = f := by
  ext k hk; simp; grind

theorem build_mma (f : BitVec 3) (x y z w : BitVec 4) (m : Fld) (l : Word) :
    buildStream (0b00010#5 ++ f) x y z w m l = some (.mma f x y z w) := by
  have h := op_group 2#5 f
  have hf := f.isLt
  simp only [BitVec.toNat_ofNat] at h
  simp only [buildStream, op_low, h]
  repeat first | rw [if_pos (by omega)] | rw [if_neg (by omega)]

theorem build_mmas (f : BitVec 3) (x y z w : BitVec 4) (m : Fld) (l : Word) :
    buildStream (0b00011#5 ++ f) x y z w m l = some (.mmas f x y z w) := by
  have h := op_group 3#5 f
  have hf := f.isLt
  simp only [BitVec.toNat_ofNat] at h
  simp only [buildStream, op_low, h]
  repeat first | rw [if_pos (by omega)] | rw [if_neg (by omega)]

theorem build_conv (f : BitVec 3) (x y z w : BitVec 4) (m : Fld) (l : Word) :
    buildStream (0b00101#5 ++ f) x y z w m l = some (.conv f x y z w) := by
  have h := op_group 5#5 f
  have hf := f.isLt
  simp only [BitVec.toNat_ofNat] at h
  simp only [buildStream, op_low, h]
  repeat first | rw [if_pos (by omega)] | rw [if_neg (by omega)]

theorem op_mma (f : BitVec 3) : (0b00010#5 ++ f : Fld) ≠ 0x48 := by revert f; decide
theorem op_mmas (f : BitVec 3) : (0b00011#5 ++ f : Fld) ≠ 0x48 := by revert f; decide
theorem op_conv (f : BitVec 3) : (0b00101#5 ++ f : Fld) ≠ 0x48 := by revert f; decide

theorem decode_literal (x : BitVec 4) (l : Word) (hw : WellFormed (.sqsetLiteral x l)) :
    decodeStream 0x48 x 0 0 0 0 l = .ok (.sqsetLiteral x l) := by
  have h : fieldFault (.sqsetLiteral x l) = none := hw
  have hb : buildStream 0x48 x 0 0 0 0 l = some (.sqsetLiteral x l) := by
    simp [buildStream]
  simp only [decodeStream, hb, streamUse, h]
  rfl

theorem stream_literal_inverts (x : BitVec 4) (l : Word) : Statement (.sqsetLiteral x l) := by
  have h1 : laneParts (.sqsetLiteral x l) = none := rfl
  have h2 : streamParts (.sqsetLiteral x l) = some (0x48, x, 0, 0, 0, 0, l) := rfl
  have h3 : encodeSplice (.sqsetLiteral x l) = none := rfl
  intro hw
  refine ⟨fun v t h => by simp [encodeLane, h1] at h, fun v t h u => ?_, fun v h => by simp [h3] at h⟩
  obtain ⟨f1, f2, f3, f4, f5, f6⟩ := stream_fields 0x48 x 0 0 0 0
  simp only [encodeStream, h2, if_true, Option.some.injEq, Prod.mk.injEq] at h
  obtain ⟨rfl, rfl⟩ := h
  simp only [decodeStreamWord, f1, f2, f3, f4, f5, f6, if_true]
  exact decode_literal x l hw

theorem splice_inverts {i : Instr} {w : Word} (h1 : laneParts i = none) (h2 : streamParts i = none)
    (h3 : encodeSplice i = some w) (h : WellFormed i → decodeSplice w = .ok i) : Statement i :=
  fun hw => ⟨fun v t h => by simp [encodeLane, h1] at h, fun v t h => by simp [encodeStream, h2] at h,
    fun v e => by rw [h3] at e; cases e; exact h hw⟩


theorem splice_spliceMovi (x : BitVec 4) (imm : Half) (h : WellFormed (.spliceMovi x imm)) :
    decodeSplice (0x08#8 ++ x ++ 0#4 ++ imm) = .ok (.spliceMovi x imm) := by
  have h0 : fOp (0x08#8 ++ x ++ 0#4 ++ imm) = 0x08#8 := by
    simp only [fOp]; ext i hi; simp; grind
  have hx : (0x08#8 ++ x ++ 0#4 ++ imm).extractLsb' 20 4 = x := by
    ext i hi; simp; grind
  have hy : (0x08#8 ++ x ++ 0#4 ++ imm).extractLsb' 16 4 = 0 := by
    ext i hi; simp; grind
  have hw16 : (0x08#8 ++ x ++ 0#4 ++ imm).extractLsb' 0 16 = imm := by
    ext i hi; simp; grind
  have hw : fieldFault (.spliceMovi x imm) = none := h
  simp only [decodeSplice, h0, hx, hy, hw16, hw]
  rfl

theorem splice_addi (x y : BitVec 4) (imm : BitVec 12) (h : WellFormed (.addi x y imm)) :
    decodeSplice (0x09#8 ++ x ++ y ++ 0#4 ++ imm) = .ok (.addi x y imm) := by
  have h0 : fOp (0x09#8 ++ x ++ y ++ 0#4 ++ imm) = 0x09#8 := by
    simp only [fOp]; ext i hi; simp; grind
  have hx : (0x09#8 ++ x ++ y ++ 0#4 ++ imm).extractLsb' 20 4 = x := by
    ext i hi; simp; grind
  have hy : (0x09#8 ++ x ++ y ++ 0#4 ++ imm).extractLsb' 16 4 = y := by
    ext i hi; simp; grind
  have hz : (0x09#8 ++ x ++ y ++ 0#4 ++ imm).extractLsb' 12 4 = 0 := by
    ext i hi; simp; grind
  have hi : (0x09#8 ++ x ++ y ++ 0#4 ++ imm).extractLsb' 0 12 = imm := by
    ext i hi; simp; grind
  have hw : fieldFault (.addi x y imm) = none := h
  simp only [decodeSplice, h0, hx, hy, hz, hi, hw]
  rfl

theorem splice_subi (x y : BitVec 4) (imm : BitVec 12) (h : WellFormed (.subi x y imm)) :
    decodeSplice (0x0A#8 ++ x ++ y ++ 0#4 ++ imm) = .ok (.subi x y imm) := by
  have h0 : fOp (0x0A#8 ++ x ++ y ++ 0#4 ++ imm) = 0x0A#8 := by
    simp only [fOp]; ext i hi; simp; grind
  have hx : (0x0A#8 ++ x ++ y ++ 0#4 ++ imm).extractLsb' 20 4 = x := by
    ext i hi; simp; grind
  have hy : (0x0A#8 ++ x ++ y ++ 0#4 ++ imm).extractLsb' 16 4 = y := by
    ext i hi; simp; grind
  have hz : (0x0A#8 ++ x ++ y ++ 0#4 ++ imm).extractLsb' 12 4 = 0 := by
    ext i hi; simp; grind
  have hi : (0x0A#8 ++ x ++ y ++ 0#4 ++ imm).extractLsb' 0 12 = imm := by
    ext i hi; simp; grind
  have hw : fieldFault (.subi x y imm) = none := h
  simp only [decodeSplice, h0, hx, hy, hz, hi, hw]
  rfl

theorem splice_ldc (x : BitVec 4) (imm : BitVec 12) (h : WellFormed (.ldc x imm)) :
    decodeSplice (0x0B#8 ++ x ++ 0#8 ++ imm) = .ok (.ldc x imm) := by
  have h0 : fOp (0x0B#8 ++ x ++ 0#8 ++ imm) = 0x0B#8 := by
    simp only [fOp]; ext i hi; simp; grind
  have hx : (0x0B#8 ++ x ++ 0#8 ++ imm).extractLsb' 20 4 = x := by
    ext i hi; simp; grind
  have hy : (0x0B#8 ++ x ++ 0#8 ++ imm).extractLsb' 16 4 = 0 := by
    ext i hi; simp; grind
  have hz : (0x0B#8 ++ x ++ 0#8 ++ imm).extractLsb' 12 4 = 0 := by
    ext i hi; simp; grind
  have hi : (0x0B#8 ++ x ++ 0#8 ++ imm).extractLsb' 0 12 = imm := by
    ext i hi; simp; grind
  have hw : fieldFault (.ldc x imm) = none := h
  simp only [decodeSplice, h0, hx, hy, hz, hi, hw]
  rfl

theorem splice_cmpj (x y z : BitVec 4) (imm : BitVec 12) (h : WellFormed (.cmpj x y z imm)) :
    decodeSplice (0x11#8 ++ x ++ y ++ z ++ imm) = .ok (.cmpj x y z imm) := by
  have h0 : fOp (0x11#8 ++ x ++ y ++ z ++ imm) = 0x11#8 := by
    simp only [fOp]; ext i hi; simp; grind
  have hx : (0x11#8 ++ x ++ y ++ z ++ imm).extractLsb' 20 4 = x := by
    ext i hi; simp; grind
  have hy : (0x11#8 ++ x ++ y ++ z ++ imm).extractLsb' 16 4 = y := by
    ext i hi; simp; grind
  have hz : (0x11#8 ++ x ++ y ++ z ++ imm).extractLsb' 12 4 = z := by
    ext i hi; simp; grind
  have hi : (0x11#8 ++ x ++ y ++ z ++ imm).extractLsb' 0 12 = imm := by
    ext i hi; simp; grind
  have hw : fieldFault (.cmpj x y z imm) = none := h
  simp only [decodeSplice, h0, hx, hy, hz, hi, hw]
  rfl

theorem splice_spliceLoop (x : BitVec 4) (imm : BitVec 12) (h : WellFormed (.spliceLoop x imm)) :
    decodeSplice (0x12#8 ++ x ++ 0#8 ++ imm) = .ok (.spliceLoop x imm) := by
  have h0 : fOp (0x12#8 ++ x ++ 0#8 ++ imm) = 0x12#8 := by
    simp only [fOp]; ext i hi; simp; grind
  have hx : (0x12#8 ++ x ++ 0#8 ++ imm).extractLsb' 20 4 = x := by
    ext i hi; simp; grind
  have hy : (0x12#8 ++ x ++ 0#8 ++ imm).extractLsb' 16 4 = 0 := by
    ext i hi; simp; grind
  have hz : (0x12#8 ++ x ++ 0#8 ++ imm).extractLsb' 12 4 = 0 := by
    ext i hi; simp; grind
  have hi : (0x12#8 ++ x ++ 0#8 ++ imm).extractLsb' 0 12 = imm := by
    ext i hi; simp; grind
  have hw : fieldFault (.spliceLoop x imm) = none := h
  simp only [decodeSplice, h0, hx, hy, hz, hi, hw]
  rfl

theorem splice_xmit (bf : BitVec 3) (ki kd : BitVec 4) (h : WellFormed (.xmit bf ki kd)) :
    decodeSplice (0x20#8 ++ bf ++ ki ++ 0#4 ++ kd ++ 0#9) = .ok (.xmit bf ki kd) := by
  have h0 : fOp (0x20#8 ++ bf ++ ki ++ 0#4 ++ kd ++ 0#9) = 0x20#8 := by
    simp only [fOp]; ext i hi; simp; grind
  have hbf : (0x20#8 ++ bf ++ ki ++ 0#4 ++ kd ++ 0#9).extractLsb' 21 3 = bf := by
    ext i hi; simp; grind
  have hki : (0x20#8 ++ bf ++ ki ++ 0#4 ++ kd ++ 0#9).extractLsb' 17 4 = ki := by
    ext i hi; simp; grind
  have hks : (0x20#8 ++ bf ++ ki ++ 0#4 ++ kd ++ 0#9).extractLsb' 13 4 = 0 := by
    ext i hi; simp; grind
  have hkd : (0x20#8 ++ bf ++ ki ++ 0#4 ++ kd ++ 0#9).extractLsb' 9 4 = kd := by
    ext i hi; simp; grind
  have hco : (0x20#8 ++ bf ++ ki ++ 0#4 ++ kd ++ 0#9).extractLsb' 7 2 = 0 := by
    ext i hi; simp; grind
  have hlow : (0x20#8 ++ bf ++ ki ++ 0#4 ++ kd ++ 0#9).extractLsb' 0 6 = 0 := by
    ext i hi; simp; grind
  have ht : (0x20#8 ++ bf ++ ki ++ 0#4 ++ kd ++ 0#9).getLsbD 6 = false := by
    simp only [BitVec.getLsbD_append]; simp
  have hw : fieldFault (.xmit bf ki kd) = none := h
  simp only [decodeSplice, h0, hbf, hki, hks, hkd, hco, hlow, ht, hw]
  rfl

theorem splice_xmitTag (bf : BitVec 3) (ki ks kd : BitVec 4) (h : WellFormed (.xmitTag bf ki ks kd)) :
    decodeSplice (0x20#8 ++ bf ++ ki ++ ks ++ kd ++ 0#2 ++ 1#1 ++ 0#6) = .ok (.xmitTag bf ki ks kd) := by
  have h0 : fOp (0x20#8 ++ bf ++ ki ++ ks ++ kd ++ 0#2 ++ 1#1 ++ 0#6) = 0x20#8 := by
    simp only [fOp]; ext i hi; simp; grind
  have hbf : (0x20#8 ++ bf ++ ki ++ ks ++ kd ++ 0#2 ++ 1#1 ++ 0#6).extractLsb' 21 3 = bf := by
    ext i hi; simp; grind
  have hki : (0x20#8 ++ bf ++ ki ++ ks ++ kd ++ 0#2 ++ 1#1 ++ 0#6).extractLsb' 17 4 = ki := by
    ext i hi; simp; grind
  have hks : (0x20#8 ++ bf ++ ki ++ ks ++ kd ++ 0#2 ++ 1#1 ++ 0#6).extractLsb' 13 4 = ks := by
    ext i hi; simp; grind
  have hkd : (0x20#8 ++ bf ++ ki ++ ks ++ kd ++ 0#2 ++ 1#1 ++ 0#6).extractLsb' 9 4 = kd := by
    ext i hi; simp; grind
  have hco : (0x20#8 ++ bf ++ ki ++ ks ++ kd ++ 0#2 ++ 1#1 ++ 0#6).extractLsb' 7 2 = 0 := by
    ext i hi; simp; grind
  have hlow : (0x20#8 ++ bf ++ ki ++ ks ++ kd ++ 0#2 ++ 1#1 ++ 0#6).extractLsb' 0 6 = 0 := by
    ext i hi; simp; grind
  have ht : (0x20#8 ++ bf ++ ki ++ ks ++ kd ++ 0#2 ++ 1#1 ++ 0#6).getLsbD 6 = true := by
    simp only [BitVec.getLsbD_append]; simp
  have hw : fieldFault (.xmitTag bf ki ks kd) = none := h
  simp only [decodeSplice, h0, hbf, hki, hks, hkd, hco, hlow, ht, hw]
  rfl

theorem splice_recv (bf : BitVec 3) (ki ks : BitVec 4) (h : WellFormed (.recv bf ki ks)) :
    decodeSplice (0x21#8 ++ bf ++ ki ++ ks ++ 0#13) = .ok (.recv bf ki ks) := by
  have h0 : fOp (0x21#8 ++ bf ++ ki ++ ks ++ 0#13) = 0x21#8 := by
    simp only [fOp]; ext i hi; simp; grind
  have hbf : (0x21#8 ++ bf ++ ki ++ ks ++ 0#13).extractLsb' 21 3 = bf := by
    ext i hi; simp; grind
  have hki : (0x21#8 ++ bf ++ ki ++ ks ++ 0#13).extractLsb' 17 4 = ki := by
    ext i hi; simp; grind
  have hks : (0x21#8 ++ bf ++ ki ++ ks ++ 0#13).extractLsb' 13 4 = ks := by
    ext i hi; simp; grind
  have hkd : (0x21#8 ++ bf ++ ki ++ ks ++ 0#13).extractLsb' 9 4 = 0 := by
    ext i hi; simp; grind
  have hco : (0x21#8 ++ bf ++ ki ++ ks ++ 0#13).extractLsb' 7 2 = 0 := by
    ext i hi; simp; grind
  have hlow : (0x21#8 ++ bf ++ ki ++ ks ++ 0#13).extractLsb' 0 6 = 0 := by
    ext i hi; simp; grind
  have ht : (0x21#8 ++ bf ++ ki ++ ks ++ 0#13).getLsbD 6 = false := by
    simp only [BitVec.getLsbD_append]; simp
  have hw : fieldFault (.recv bf ki ks) = none := h
  simp only [decodeSplice, h0, hbf, hki, hks, hkd, hco, hlow, ht, hw]
  rfl

theorem splice_cmb (bf : BitVec 3) (ki ks : BitVec 4) (co : BitVec 2) (h : WellFormed (.cmb bf ki ks co)) :
    decodeSplice (0x22#8 ++ bf ++ ki ++ ks ++ 0#4 ++ co ++ 0#7) = .ok (.cmb bf ki ks co) := by
  have h0 : fOp (0x22#8 ++ bf ++ ki ++ ks ++ 0#4 ++ co ++ 0#7) = 0x22#8 := by
    simp only [fOp]; ext i hi; simp; grind
  have hbf : (0x22#8 ++ bf ++ ki ++ ks ++ 0#4 ++ co ++ 0#7).extractLsb' 21 3 = bf := by
    ext i hi; simp; grind
  have hki : (0x22#8 ++ bf ++ ki ++ ks ++ 0#4 ++ co ++ 0#7).extractLsb' 17 4 = ki := by
    ext i hi; simp; grind
  have hks : (0x22#8 ++ bf ++ ki ++ ks ++ 0#4 ++ co ++ 0#7).extractLsb' 13 4 = ks := by
    ext i hi; simp; grind
  have hkd : (0x22#8 ++ bf ++ ki ++ ks ++ 0#4 ++ co ++ 0#7).extractLsb' 9 4 = 0 := by
    ext i hi; simp; grind
  have hco : (0x22#8 ++ bf ++ ki ++ ks ++ 0#4 ++ co ++ 0#7).extractLsb' 7 2 = co := by
    ext i hi; simp; grind
  have hlow : (0x22#8 ++ bf ++ ki ++ ks ++ 0#4 ++ co ++ 0#7).extractLsb' 0 6 = 0 := by
    ext i hi; simp; grind
  have ht : (0x22#8 ++ bf ++ ki ++ ks ++ 0#4 ++ co ++ 0#7).getLsbD 6 = false := by
    simp only [BitVec.getLsbD_append]; simp
  have hw : fieldFault (.cmb bf ki ks co) = none := h
  simp only [decodeSplice, h0, hbf, hki, hks, hkd, hco, hlow, ht, hw]
  rfl

theorem splice_cmbf (bf : BitVec 3) (ki ks kd : BitVec 4) (co : BitVec 2) (h : WellFormed (.cmbf bf ki ks kd co)) :
    decodeSplice (0x23#8 ++ bf ++ ki ++ ks ++ kd ++ co ++ 0#7) = .ok (.cmbf bf ki ks kd co) := by
  have h0 : fOp (0x23#8 ++ bf ++ ki ++ ks ++ kd ++ co ++ 0#7) = 0x23#8 := by
    simp only [fOp]; ext i hi; simp; grind
  have hbf : (0x23#8 ++ bf ++ ki ++ ks ++ kd ++ co ++ 0#7).extractLsb' 21 3 = bf := by
    ext i hi; simp; grind
  have hki : (0x23#8 ++ bf ++ ki ++ ks ++ kd ++ co ++ 0#7).extractLsb' 17 4 = ki := by
    ext i hi; simp; grind
  have hks : (0x23#8 ++ bf ++ ki ++ ks ++ kd ++ co ++ 0#7).extractLsb' 13 4 = ks := by
    ext i hi; simp; grind
  have hkd : (0x23#8 ++ bf ++ ki ++ ks ++ kd ++ co ++ 0#7).extractLsb' 9 4 = kd := by
    ext i hi; simp; grind
  have hco : (0x23#8 ++ bf ++ ki ++ ks ++ kd ++ co ++ 0#7).extractLsb' 7 2 = co := by
    ext i hi; simp; grind
  have hlow : (0x23#8 ++ bf ++ ki ++ ks ++ kd ++ co ++ 0#7).extractLsb' 0 6 = 0 := by
    ext i hi; simp; grind
  have ht : (0x23#8 ++ bf ++ ki ++ ks ++ kd ++ co ++ 0#7).getLsbD 6 = false := by
    simp only [BitVec.getLsbD_append]; simp
  have hw : fieldFault (.cmbf bf ki ks kd co) = none := h
  simp only [decodeSplice, h0, hbf, hki, hks, hkd, hco, hlow, ht, hw]
  rfl

theorem splice_fwait (x y : BitVec 4) (imm : BitVec 12) (h : WellFormed (.fwait x y imm)) :
    decodeSplice (0x30#8 ++ x ++ y ++ 0#4 ++ imm) = .ok (.fwait x y imm) := by
  have h0 : fOp (0x30#8 ++ x ++ y ++ 0#4 ++ imm) = 0x30#8 := by
    simp only [fOp]; ext i hi; simp; grind
  have hx : (0x30#8 ++ x ++ y ++ 0#4 ++ imm).extractLsb' 20 4 = x := by
    ext i hi; simp; grind
  have hy : (0x30#8 ++ x ++ y ++ 0#4 ++ imm).extractLsb' 16 4 = y := by
    ext i hi; simp; grind
  have hz : (0x30#8 ++ x ++ y ++ 0#4 ++ imm).extractLsb' 12 4 = 0 := by
    ext i hi; simp; grind
  have hi : (0x30#8 ++ x ++ y ++ 0#4 ++ imm).extractLsb' 0 12 = imm := by
    ext i hi; simp; grind
  have hw : fieldFault (.fwait x y imm) = none := h
  simp only [decodeSplice, h0, hx, hy, hz, hi, hw]
  rfl

theorem splice_fsig (x y : BitVec 4) (imm : BitVec 12) (h : WellFormed (.fsig x y imm)) :
    decodeSplice (0x31#8 ++ x ++ y ++ 0#4 ++ imm) = .ok (.fsig x y imm) := by
  have h0 : fOp (0x31#8 ++ x ++ y ++ 0#4 ++ imm) = 0x31#8 := by
    simp only [fOp]; ext i hi; simp; grind
  have hx : (0x31#8 ++ x ++ y ++ 0#4 ++ imm).extractLsb' 20 4 = x := by
    ext i hi; simp; grind
  have hy : (0x31#8 ++ x ++ y ++ 0#4 ++ imm).extractLsb' 16 4 = y := by
    ext i hi; simp; grind
  have hz : (0x31#8 ++ x ++ y ++ 0#4 ++ imm).extractLsb' 12 4 = 0 := by
    ext i hi; simp; grind
  have hi : (0x31#8 ++ x ++ y ++ 0#4 ++ imm).extractLsb' 0 12 = imm := by
    ext i hi; simp; grind
  have hw : fieldFault (.fsig x y imm) = none := h
  simp only [decodeSplice, h0, hx, hy, hz, hi, hw]
  rfl

/-- The fields of a word of an opcode, twelve bits and a constant. -/
theorem jump_fields (o : Fld) (m i : BitVec 12) :
    fOp (o ++ m ++ i) = o ∧ (o ++ m ++ i).extractLsb' 12 12 = m ∧ (o ++ m ++ i).extractLsb' 0 12 = i := by
  simp only [fOp]
  refine ⟨?_, ?_, ?_⟩ <;> ext k hk <;> simp <;> grind

theorem nibbles_zero (w : Word) (h : w.extractLsb' 12 12 = 0) :
    w.extractLsb' 20 4 = 0 ∧ w.extractLsb' 16 4 = 0 ∧ w.extractLsb' 12 4 = 0 := by
  refine ⟨?_, ?_, ?_⟩ <;> ext k hk <;> simp only [BitVec.getElem_extractLsb']
  · have := congrArg (fun v => v.getLsbD (8 + k)) h
    simpa [show 8 + k < 12 by omega, ← Nat.add_assoc] using this
  · have := congrArg (fun v => v.getLsbD (4 + k)) h
    simpa [show 4 + k < 12 by omega, ← Nat.add_assoc] using this
  · have := congrArg (fun v => v.getLsbD k) h
    simpa [show k < 12 by omega] using this

theorem splice_jmp (imm : BitVec 12) (h : WellFormed (.jmp imm)) : decodeSplice (0x10#8 ++ 0#12 ++ imm) = .ok (.jmp imm) := by
  obtain ⟨h0, hm, hi⟩ := jump_fields 0x10#8 0#12 imm
  obtain ⟨hx, hy, hz⟩ := nibbles_zero _ hm
  have hw : fieldFault (.jmp imm) = none := h
  simp only [decodeSplice, h0, hx, hy, hz, hi, hw]
  rfl

theorem splice_spliceNop (_ : WellFormed .spliceNop) : decodeSplice 0x01000000 = .ok .spliceNop := by decide

theorem splice_halt (_ : WellFormed .halt) : decodeSplice 0x02000000 = .ok .halt := by decide

theorem splice_endl (_ : WellFormed .endl) : decodeSplice 0x13000000 = .ok .endl := by decide


theorem iadd (d : Fld) (a : Fld) (b : Fld) : Statement (.iadd d a b) := lane_inverts rfl rfl rfl rfl rfl rfl rfl
theorem iaddi (d : Fld) (a : Fld) (imm : Fld) : Statement (.iaddi d a imm) := lane_inverts rfl rfl rfl rfl rfl rfl rfl
theorem isub (d : Fld) (a : Fld) (b : Fld) : Statement (.isub d a b) := lane_inverts rfl rfl rfl rfl rfl rfl rfl
theorem imul (d : Fld) (a : Fld) (b : Fld) : Statement (.imul d a b) := lane_inverts rfl rfl rfl rfl rfl rfl rfl
theorem imulhs (d : Fld) (a : Fld) (b : Fld) : Statement (.imulhs d a b) := lane_inverts rfl rfl rfl rfl rfl rfl rfl
theorem imulhu (d : Fld) (a : Fld) (b : Fld) : Statement (.imulhu d a b) := lane_inverts rfl rfl rfl rfl rfl rfl rfl
theorem imad (d : Fld) (a : Fld) (b : Fld) (c : Fld) : Statement (.imad d a b c) :=
  lane_inverts rfl rfl rfl rfl rfl rfl rfl
theorem imin (d : Fld) (a : Fld) (b : Fld) : Statement (.imin d a b) := lane_inverts rfl rfl rfl rfl rfl rfl rfl
theorem imax (d : Fld) (a : Fld) (b : Fld) : Statement (.imax d a b) := lane_inverts rfl rfl rfl rfl rfl rfl rfl
theorem umin (d : Fld) (a : Fld) (b : Fld) : Statement (.umin d a b) := lane_inverts rfl rfl rfl rfl rfl rfl rfl
theorem umax (d : Fld) (a : Fld) (b : Fld) : Statement (.umax d a b) := lane_inverts rfl rfl rfl rfl rfl rfl rfl
theorem iabs (d : Fld) (a : Fld) : Statement (.iabs d a) := lane_inverts rfl rfl rfl rfl rfl rfl rfl
theorem ineg (d : Fld) (a : Fld) : Statement (.ineg d a) := lane_inverts rfl rfl rfl rfl rfl rfl rfl
theorem iand (d : Fld) (a : Fld) (b : Fld) : Statement (.iand d a b) := lane_inverts rfl rfl rfl rfl rfl rfl rfl
theorem ior (d : Fld) (a : Fld) (b : Fld) : Statement (.ior d a b) := lane_inverts rfl rfl rfl rfl rfl rfl rfl
theorem ixor (d : Fld) (a : Fld) (b : Fld) : Statement (.ixor d a b) := lane_inverts rfl rfl rfl rfl rfl rfl rfl
theorem andn (d : Fld) (a : Fld) (b : Fld) : Statement (.andn d a b) := lane_inverts rfl rfl rfl rfl rfl rfl rfl
theorem inot (d : Fld) (a : Fld) : Statement (.inot d a) := lane_inverts rfl rfl rfl rfl rfl rfl rfl
theorem shl (d : Fld) (a : Fld) (b : Fld) : Statement (.shl d a b) := lane_inverts rfl rfl rfl rfl rfl rfl rfl
theorem shr (d : Fld) (a : Fld) (b : Fld) : Statement (.shr d a b) := lane_inverts rfl rfl rfl rfl rfl rfl rfl
theorem sar (d : Fld) (a : Fld) (b : Fld) : Statement (.sar d a b) := lane_inverts rfl rfl rfl rfl rfl rfl rfl
theorem rotl (d : Fld) (a : Fld) (b : Fld) : Statement (.rotl d a b) := lane_inverts rfl rfl rfl rfl rfl rfl rfl
theorem shli (d : Fld) (a : Fld) (imm : Fld) : Statement (.shli d a imm) := lane_inverts rfl rfl rfl rfl rfl rfl rfl
theorem shri (d : Fld) (a : Fld) (imm : Fld) : Statement (.shri d a imm) := lane_inverts rfl rfl rfl rfl rfl rfl rfl
theorem sari (d : Fld) (a : Fld) (imm : Fld) : Statement (.sari d a imm) := lane_inverts rfl rfl rfl rfl rfl rfl rfl
theorem popc (d : Fld) (a : Fld) : Statement (.popc d a) := lane_inverts rfl rfl rfl rfl rfl rfl rfl
theorem clz (d : Fld) (a : Fld) : Statement (.clz d a) := lane_inverts rfl rfl rfl rfl rfl rfl rfl
theorem brev (d : Fld) (a : Fld) : Statement (.brev d a) := lane_inverts rfl rfl rfl rfl rfl rfl rfl
theorem bfx (d : Fld) (a : Fld) (sub : BitVec 4) (aux : Fld) : Statement (.bfx d a sub aux) :=
  lane_inverts rfl rfl rfl rfl rfl rfl rfl
theorem bfi (d : Fld) (a : Fld) (b : Fld) (aux : Fld) : Statement (.bfi d a b aux) :=
  lane_inverts rfl rfl rfl rfl rfl rfl rfl
theorem lea (d : Fld) (a : Fld) (b : Fld) (aux : Fld) : Statement (.lea d a b aux) :=
  lane_inverts rfl rfl rfl rfl rfl rfl rfl
theorem add64 (d : Fld) (a : Fld) (b : Fld) : Statement (.add64 d a b) := lane_inverts rfl rfl rfl rfl rfl rfl rfl
theorem sub64 (d : Fld) (a : Fld) (b : Fld) : Statement (.sub64 d a b) := lane_inverts rfl rfl rfl rfl rfl rfl rfl
theorem mulw (d : Fld) (a : Fld) (b : Fld) (sub : BitVec 4) : Statement (.mulw d a b sub) :=
  lane_inverts rfl rfl rfl rfl rfl rfl rfl
theorem mov (d : Fld) (a : Fld) : Statement (.mov d a) := lane_inverts rfl rfl rfl rfl rfl rfl rfl
theorem movi (d : Fld) (imm : Half) : Statement (.movi d imm) :=
  lane_inverts rfl rfl (congrArg some (congrArg _ (half_bytes imm))) rfl rfl rfl rfl
theorem movhi (d : Fld) (imm : Half) : Statement (.movhi d imm) :=
  lane_inverts rfl rfl (congrArg some (congrArg _ (half_bytes imm))) rfl rfl rfl rfl
theorem movl (d : Fld) (lit : Word) : Statement (.movl d lit) := literal_inverts d lit
theorem selp (d : Fld) (a : Fld) (b : Fld) (pd : BitVec 3) (pn : BitVec 1) : Statement (.selp d a b pd pn) :=
  lane_inverts rfl rfl rfl rfl rfl rfl rfl
theorem icmp (d : Fld) (a : Fld) (b : Fld) (sub : BitVec 4) (ty : BitVec 3) : Statement (.icmp d a b sub ty) :=
  lane_inverts rfl rfl rfl rfl rfl rfl rfl
theorem fcmp (d : Fld) (a : Fld) (b : Fld) (sub : BitVec 4) : Statement (.fcmp d a b sub) :=
  lane_inverts rfl rfl rfl rfl rfl rfl rfl
theorem pand (d : Fld) (a : Fld) (b : Fld) : Statement (.pand d a b) := lane_inverts rfl rfl rfl rfl rfl rfl rfl
theorem por (d : Fld) (a : Fld) (b : Fld) : Statement (.por d a b) := lane_inverts rfl rfl rfl rfl rfl rfl rfl
theorem pxor (d : Fld) (a : Fld) (b : Fld) : Statement (.pxor d a b) := lane_inverts rfl rfl rfl rfl rfl rfl rfl
theorem pnot (d : Fld) (a : Fld) : Statement (.pnot d a) := lane_inverts rfl rfl rfl rfl rfl rfl rfl
theorem pmov (d : Fld) (a : Fld) : Statement (.pmov d a) := lane_inverts rfl rfl rfl rfl rfl rfl rfl
theorem ptov (d : Fld) (a : Fld) : Statement (.ptov d a) := lane_inverts rfl rfl rfl rfl rfl rfl rfl
theorem fadd (d : Fld) (a : Fld) (b : Fld) : Statement (.fadd d a b) := lane_inverts rfl rfl rfl rfl rfl rfl rfl
theorem faddT (d : Fld) (a : Fld) (b : Fld) (rnd : BitVec 2) : Statement (.faddT d a b rnd) :=
  lane_inverts rfl rfl rfl rfl rfl rfl rfl
theorem fsub (d : Fld) (a : Fld) (b : Fld) : Statement (.fsub d a b) := lane_inverts rfl rfl rfl rfl rfl rfl rfl
theorem fsubT (d : Fld) (a : Fld) (b : Fld) (rnd : BitVec 2) : Statement (.fsubT d a b rnd) :=
  lane_inverts rfl rfl rfl rfl rfl rfl rfl
theorem fmul (d : Fld) (a : Fld) (b : Fld) : Statement (.fmul d a b) := lane_inverts rfl rfl rfl rfl rfl rfl rfl
theorem fmulT (d : Fld) (a : Fld) (b : Fld) (rnd : BitVec 2) : Statement (.fmulT d a b rnd) :=
  lane_inverts rfl rfl rfl rfl rfl rfl rfl
theorem ffma (d : Fld) (a : Fld) (b : Fld) (c : Fld) (rnd : BitVec 2) : Statement (.ffma d a b c rnd) :=
  lane_inverts rfl rfl rfl rfl rfl rfl rfl
theorem fmin (d : Fld) (a : Fld) (b : Fld) : Statement (.fmin d a b) := lane_inverts rfl rfl rfl rfl rfl rfl rfl
theorem fmax (d : Fld) (a : Fld) (b : Fld) : Statement (.fmax d a b) := lane_inverts rfl rfl rfl rfl rfl rfl rfl
theorem fabs (d : Fld) (a : Fld) : Statement (.fabs d a) := lane_inverts rfl rfl rfl rfl rfl rfl rfl
theorem fneg (d : Fld) (a : Fld) : Statement (.fneg d a) := lane_inverts rfl rfl rfl rfl rfl rfl rfl
theorem frnd (d : Fld) (a : Fld) (rnd : BitVec 2) : Statement (.frnd d a rnd) :=
  lane_inverts rfl rfl rfl rfl rfl rfl rfl
theorem frcp (d : Fld) (a : Fld) : Statement (.frcp d a) := lane_inverts rfl rfl rfl rfl rfl rfl rfl
theorem frsq (d : Fld) (a : Fld) : Statement (.frsq d a) := lane_inverts rfl rfl rfl rfl rfl rfl rfl
theorem fsqrt (d : Fld) (a : Fld) (rnd : BitVec 2) : Statement (.fsqrt d a rnd) :=
  lane_inverts rfl rfl rfl rfl rfl rfl rfl
theorem fexp2 (d : Fld) (a : Fld) : Statement (.fexp2 d a) := lane_inverts rfl rfl rfl rfl rfl rfl rfl
theorem flog2 (d : Fld) (a : Fld) : Statement (.flog2 d a) := lane_inverts rfl rfl rfl rfl rfl rfl rfl
theorem fsin (d : Fld) (a : Fld) : Statement (.fsin d a) := lane_inverts rfl rfl rfl rfl rfl rfl rfl
theorem fcos (d : Fld) (a : Fld) : Statement (.fcos d a) := lane_inverts rfl rfl rfl rfl rfl rfl rfl
theorem fclass (d : Fld) (a : Fld) : Statement (.fclass d a) := lane_inverts rfl rfl rfl rfl rfl rfl rfl
theorem hadd2 (d : Fld) (a : Fld) (b : Fld) : Statement (.hadd2 d a b) := lane_inverts rfl rfl rfl rfl rfl rfl rfl
theorem hmul2 (d : Fld) (a : Fld) (b : Fld) : Statement (.hmul2 d a b) := lane_inverts rfl rfl rfl rfl rfl rfl rfl
theorem hfma2 (d : Fld) (a : Fld) (b : Fld) (c : Fld) : Statement (.hfma2 d a b c) :=
  lane_inverts rfl rfl rfl rfl rfl rfl rfl
theorem hmax2 (d : Fld) (a : Fld) (b : Fld) : Statement (.hmax2 d a b) := lane_inverts rfl rfl rfl rfl rfl rfl rfl
theorem hmin2 (d : Fld) (a : Fld) (b : Fld) : Statement (.hmin2 d a b) := lane_inverts rfl rfl rfl rfl rfl rfl rfl
theorem badd2 (d : Fld) (a : Fld) (b : Fld) : Statement (.badd2 d a b) := lane_inverts rfl rfl rfl rfl rfl rfl rfl
theorem bmul2 (d : Fld) (a : Fld) (b : Fld) : Statement (.bmul2 d a b) := lane_inverts rfl rfl rfl rfl rfl rfl rfl
theorem bfma2 (d : Fld) (a : Fld) (b : Fld) (c : Fld) : Statement (.bfma2 d a b c) :=
  lane_inverts rfl rfl rfl rfl rfl rfl rfl
theorem cvt (d : Fld) (a : Fld) (sub : BitVec 4) (rnd : BitVec 2) (aux : Fld) : Statement (.cvt d a sub rnd aux) :=
  lane_inverts rfl rfl rfl rfl rfl rfl rfl
theorem tepack (d : Fld) (a : Fld) (aux : Fld) : Statement (.tepack d a aux) :=
  lane_inverts rfl rfl rfl rfl rfl rfl rfl
theorem teunpk (d : Fld) (a : Fld) (aux : Fld) : Statement (.teunpk d a aux) :=
  lane_inverts rfl rfl rfl rfl rfl rfl rfl
theorem scalex (d : Fld) (a : Fld) (b : Fld) (sub : BitVec 4) (aux : Fld) : Statement (.scalex d a b sub aux) :=
  lane_inverts rfl rfl rfl rfl rfl rfl rfl
theorem shuf (d : Fld) (a : Fld) (b : Fld) : Statement (.shuf d a b) := lane_inverts rfl rfl rfl rfl rfl rfl rfl
theorem shufup (d : Fld) (a : Fld) (n : Fld) : Statement (.shufup d a n) := lane_inverts rfl rfl rfl rfl rfl rfl rfl
theorem shufdn (d : Fld) (a : Fld) (n : Fld) : Statement (.shufdn d a n) := lane_inverts rfl rfl rfl rfl rfl rfl rfl
theorem shufx (d : Fld) (a : Fld) (n : Fld) : Statement (.shufx d a n) := lane_inverts rfl rfl rfl rfl rfl rfl rfl
theorem voteall (d : Fld) (a : Fld) : Statement (.voteall d a) := lane_inverts rfl rfl rfl rfl rfl rfl rfl
theorem voteany (d : Fld) (a : Fld) : Statement (.voteany d a) := lane_inverts rfl rfl rfl rfl rfl rfl rfl
theorem ballot (d : Fld) (a : Fld) : Statement (.ballot d a) := lane_inverts rfl rfl rfl rfl rfl rfl rfl
theorem matchLanes (d : Fld) (a : Fld) : Statement (.matchLanes d a) := lane_inverts rfl rfl rfl rfl rfl rfl rfl
theorem redux (d : Fld) (a : Fld) (sub : BitVec 4) : Statement (.redux d a sub) :=
  lane_inverts rfl rfl rfl rfl rfl rfl rfl
theorem scan (d : Fld) (a : Fld) (sub : BitVec 4) : Statement (.scan d a sub) :=
  lane_inverts rfl rfl rfl rfl rfl rfl rfl
theorem bra (off : BitVec 24) : Statement (.bra off) :=
  lane_inverts rfl rfl (congrArg some (congrArg _ (offset_bytes off))) rfl rfl rfl rfl
theorem brc (off : BitVec 24) (pd : BitVec 3) (pn : BitVec 1) : Statement (.brc off pd pn) :=
  lane_inverts rfl rfl (congrArg (fun o => some (Instr.brc o pd pn)) (offset_bytes off)) rfl rfl rfl rfl
theorem brx (a : Fld) : Statement (.brx a) := lane_inverts rfl rfl rfl rfl rfl rfl rfl
theorem call (off : BitVec 24) (c : Fld) : Statement (.call off c) :=
  lane_inverts rfl rfl (congrArg (fun o => some (Instr.call o c)) (offset_bytes off)) rfl rfl rfl rfl
theorem callx (d : Fld) (a : Fld) : Statement (.callx d a) := lane_inverts rfl rfl rfl rfl rfl rfl rfl
theorem ret (a : Fld) : Statement (.ret a) := lane_inverts rfl rfl rfl rfl rfl rfl rfl
theorem reconv (off : BitVec 24) : Statement (.reconv off) :=
  lane_inverts rfl rfl (congrArg some (congrArg _ (offset_bytes off))) rfl rfl rfl rfl
theorem reform (a : Fld) : Statement (.reform a) := lane_inverts rfl rfl rfl rfl rfl rfl rfl
theorem sleep (imm : Half) : Statement (.sleep imm) :=
  lane_inverts rfl rfl (congrArg some (congrArg _ (half_bytes imm))) rfl rfl rfl rfl
theorem ldl (s : Fld) (base : Fld) (off : Fld) : Statement (.ldl s base off) :=
  lane_inverts rfl rfl rfl rfl rfl rfl rfl
theorem ldlT (s : Fld) (base : Fld) (off : Fld) (ty : BitVec 3) : Statement (.ldlT s base off ty) :=
  lane_inverts rfl rfl rfl rfl rfl rfl rfl
theorem stl (s : Fld) (base : Fld) (off : Fld) : Statement (.stl s base off) :=
  lane_inverts rfl rfl rfl rfl rfl rfl rfl
theorem stlT (s : Fld) (base : Fld) (off : Fld) (ty : BitVec 3) : Statement (.stlT s base off ty) :=
  lane_inverts rfl rfl rfl rfl rfl rfl rfl
theorem ldg (s : Fld) (base : Fld) (off : Fld) : Statement (.ldg s base off) :=
  lane_inverts rfl rfl rfl rfl rfl rfl rfl
theorem ldgT (s : Fld) (base : Fld) (off : Fld) (sub : BitVec 4) (ty : BitVec 3) : Statement (.ldgT s base off sub ty) :=
  lane_inverts rfl rfl rfl rfl rfl rfl rfl
theorem stg (s : Fld) (base : Fld) (off : Fld) : Statement (.stg s base off) :=
  lane_inverts rfl rfl rfl rfl rfl rfl rfl
theorem stgT (s : Fld) (base : Fld) (off : Fld) (sub : BitVec 4) (ty : BitVec 3) : Statement (.stgT s base off sub ty) :=
  lane_inverts rfl rfl rfl rfl rfl rfl rfl
theorem ldk (s : Fld) (base : Fld) (off : Fld) : Statement (.ldk s base off) :=
  lane_inverts rfl rfl rfl rfl rfl rfl rfl
theorem lda (s : Fld) (base : Fld) (off : Fld) (scope : BitVec 3) (ty : BitVec 3) : Statement (.lda s base off scope ty) :=
  lane_inverts rfl rfl rfl rfl rfl rfl rfl
theorem strel (s : Fld) (base : Fld) (off : Fld) (scope : BitVec 3) (ty : BitVec 3) : Statement (.strel s base off scope ty) :=
  lane_inverts rfl rfl rfl rfl rfl rfl rfl
theorem atom (s : Fld) (base : Fld) (off : Fld) (c : Fld) (sub : BitVec 4) (scope : BitVec 3) (ty : BitVec 3) : Statement (.atom s base off c sub scope ty) :=
  lane_inverts rfl rfl rfl rfl rfl rfl rfl
theorem atomc (s : Fld) (base : Fld) (off : Fld) (c : Fld) (scope : BitVec 3) (ty : BitVec 3) (aux : Fld) : Statement (.atomc s base off c scope ty aux) :=
  lane_inverts rfl rfl rfl rfl rfl rfl rfl
theorem atoml (s : Fld) (base : Fld) (off : Fld) (c : Fld) (sub : BitVec 4) (ty : BitVec 3) : Statement (.atoml s base off c sub ty) :=
  lane_inverts rfl rfl rfl rfl rfl rfl rfl
theorem fatom (base : Fld) (off : Fld) (c : Fld) (sub : BitVec 4) (ty : BitVec 3) : Statement (.fatom base off c sub ty) :=
  lane_inverts rfl rfl rfl rfl rfl rfl rfl
theorem fence (sub : BitVec 4) (scope : BitVec 3) : Statement (.fence sub scope) :=
  lane_inverts rfl rfl rfl rfl rfl rfl rfl
theorem barinit (a : Fld) (n : Fld) : Statement (.barinit a n) := lane_inverts rfl rfl rfl rfl rfl rfl rfl
theorem bara (n : Fld) : Statement (.bara n) := lane_inverts rfl rfl rfl rfl rfl rfl rfl
theorem barw (n : Fld) : Statement (.barw n) := lane_inverts rfl rfl rfl rfl rfl rfl rfl
theorem bars (n : Fld) : Statement (.bars n) := lane_inverts rfl rfl rfl rfl rfl rfl rfl
theorem rwrite (n : Fld) (a : Fld) (b : Fld) : Statement (.rwrite n a b) := lane_inverts rfl rfl rfl rfl rfl rfl rfl
theorem rwait (a : Fld) : Statement (.rwait a) := lane_inverts rfl rfl rfl rfl rfl rfl rfl
theorem rcount (d : Fld) : Statement (.rcount d) := lane_inverts rfl rfl rfl rfl rfl rfl rfl
theorem claim (m : Fld) : Statement (.claim m) := lane_inverts rfl rfl rfl rfl rfl rfl rfl
theorem give (m : Fld) : Statement (.give m) := lane_inverts rfl rfl rfl rfl rfl rfl rfl
theorem bmovWrite (d : Fld) (a : Fld) : Statement (.bmovWrite d a) := lane_inverts rfl rfl rfl rfl rfl rfl rfl
theorem bmovRead (d : Fld) (a : Fld) : Statement (.bmovRead d a) := lane_inverts rfl rfl rfl rfl rfl rfl rfl
theorem tlblock (a : Fld) (b : Fld) : Statement (.tlblock a b) := lane_inverts rfl rfl rfl rfl rfl rfl rfl
theorem tlbunlk (a : Fld) : Statement (.tlbunlk a) := lane_inverts rfl rfl rfl rfl rfl rfl rfl
theorem acopy (d : Fld) (a : Fld) (b : Fld) (c : Fld) (sub : BitVec 4) (ty : BitVec 3) : Statement (.acopy d a b c sub ty) :=
  lane_inverts rfl rfl rfl rfl rfl rfl rfl
theorem bcopy (d : Fld) (a : Fld) (b : Fld) (sub : BitVec 4) : Statement (.bcopy d a b sub) :=
  lane_inverts rfl rfl rfl rfl rfl rfl rfl
theorem gather (d : Fld) (a : Fld) (b : Fld) (c : Fld) (ty : BitVec 3) : Statement (.gather d a b c ty) :=
  lane_inverts rfl rfl rfl rfl rfl rfl rfl
theorem tokclr (d : Fld) : Statement (.tokclr d) := lane_inverts rfl rfl rfl rfl rfl rfl rfl
theorem tlwait (a : Fld) (b : Fld) : Statement (.tlwait a b) := lane_inverts rfl rfl rfl rfl rfl rfl rfl
theorem tlread (d : Fld) (a : Fld) : Statement (.tlread d a) := lane_inverts rfl rfl rfl rfl rfl rfl rfl
theorem stashmap (a : Fld) (b : Fld) (c : Fld) : Statement (.stashmap a b c) :=
  lane_inverts rfl rfl rfl rfl rfl rfl rfl
theorem stashwb (a : Fld) (b : Fld) : Statement (.stashwb a b) := lane_inverts rfl rfl rfl rfl rfl rfl rfl
theorem stashinv (a : Fld) (b : Fld) : Statement (.stashinv a b) := lane_inverts rfl rfl rfl rfl rfl rfl rfl
theorem tspawn (a : Fld) (b : Fld) (sub : BitVec 4) (aux : Fld) : Statement (.tspawn a b sub aux) :=
  lane_inverts rfl rfl rfl rfl rfl rfl rfl
theorem futnew (d : Fld) : Statement (.futnew d) := lane_inverts rfl rfl rfl rfl rfl rfl rfl
theorem futset (a : Fld) (b : Fld) : Statement (.futset a b) := lane_inverts rfl rfl rfl rfl rfl rfl rfl
theorem futwait (a : Fld) : Statement (.futwait a) := lane_inverts rfl rfl rfl rfl rfl rfl rfl
theorem futget (d : Fld) (a : Fld) : Statement (.futget d a) := lane_inverts rfl rfl rfl rfl rfl rfl rfl
theorem futdrop (a : Fld) : Statement (.futdrop a) := lane_inverts rfl rfl rfl rfl rfl rfl rfl
theorem qpop (d : Fld) (q : Fld) : Statement (.qpop d q) := lane_inverts rfl rfl rfl rfl rfl rfl rfl
theorem qpush (a : Fld) (q : Fld) : Statement (.qpush a q) := lane_inverts rfl rfl rfl rfl rfl rfl rfl
theorem qroom (d : Fld) (q : Fld) : Statement (.qroom d q) := lane_inverts rfl rfl rfl rfl rfl rfl rfl
theorem mbxbind (a : Fld) (b : Fld) : Statement (.mbxbind a b) := lane_inverts rfl rfl rfl rfl rfl rfl rfl
theorem nmatch (a : Fld) (b : Fld) (c : Fld) : Statement (.nmatch a b c) := lane_inverts rfl rfl rfl rfl rfl rfl rfl
theorem nunmatch (a : Fld) : Statement (.nunmatch a) := lane_inverts rfl rfl rfl rfl rfl rfl rfl
theorem keep (scope : BitVec 3) : Statement (.keep scope) := lane_inverts rfl rfl rfl rfl rfl rfl rfl
theorem drop (a : Fld) (sub : BitVec 4) (aux : Fld) : Statement (.drop a sub aux) :=
  lane_inverts rfl rfl rfl rfl rfl rfl rfl
theorem tstat (d : Fld) : Statement (.tstat d) := lane_inverts rfl rfl rfl rfl rfl rfl rfl
theorem solicit (d : Fld) (a : Fld) (b : Fld) (sub : BitVec 4) (scope : BitVec 3) : Statement (.solicit d a b sub scope) :=
  lane_inverts rfl rfl rfl rfl rfl rfl rfl
theorem census (d : Fld) (a : Fld) (sub : BitVec 4) : Statement (.census d a sub) :=
  lane_inverts rfl rfl rfl rfl rfl rfl rfl
theorem respond (a : Fld) (sub : BitVec 4) : Statement (.respond a sub) := lane_inverts rfl rfl rfl rfl rfl rfl rfl
theorem kdirins (a : Fld) (b : Fld) (sub : BitVec 4) : Statement (.kdirins a b sub) :=
  lane_inverts rfl rfl rfl rfl rfl rfl rfl
theorem kdirdel (a : Fld) : Statement (.kdirdel a) := lane_inverts rfl rfl rfl rfl rfl rfl rfl
theorem kdirlook (d : Fld) (a : Fld) : Statement (.kdirlook d a) := lane_inverts rfl rfl rfl rfl rfl rfl rfl
theorem kdirmig (a : Fld) (b : Fld) (sub : BitVec 4) : Statement (.kdirmig a b sub) :=
  lane_inverts rfl rfl rfl rfl rfl rfl rfl
theorem trap (n : Fld) : Statement (.trap n) := lane_inverts rfl rfl rfl rfl rfl rfl rfl
theorem getsr (d : Fld) (n : Fld) : Statement (.getsr d n) := lane_inverts rfl rfl rfl rfl rfl rfl rfl
theorem setsr (a : Fld) (n : Fld) : Statement (.setsr a n) := lane_inverts rfl rfl rfl rfl rfl rfl rfl
theorem bkpt (tag : Half) : Statement (.bkpt tag) :=
  lane_inverts rfl rfl (congrArg some (congrArg _ (half_bytes tag))) rfl rfl rfl rfl
theorem shld (x : BitVec 4) (y : BitVec 4) : Statement (.shld x y) := stream_inverts rfl rfl rfl rfl rfl (by decide)
theorem shset (x : BitVec 4) (y : BitVec 4) (z : BitVec 4) (sel : Fld) : Statement (.shset x y z sel) :=
  stream_inverts rfl rfl rfl rfl rfl (by decide)
theorem shcopy (x : BitVec 4) (y : BitVec 4) : Statement (.shcopy x y) :=
  stream_inverts rfl rfl rfl rfl rfl (by decide)
theorem wload (x : BitVec 4) (y : BitVec 4) : Statement (.wload x y) := stream_inverts rfl rfl rfl rfl rfl (by decide)
theorem mzero (x : BitVec 4) : Statement (.mzero x) := stream_inverts rfl rfl rfl rfl rfl (by decide)
theorem mma (f : BitVec 3) (x : BitVec 4) (y : BitVec 4) (z : BitVec 4) (w : BitVec 4) : Statement (.mma f x y z w) :=
  stream_inverts rfl (build_mma f x y z w 0 0) rfl rfl rfl (op_mma f)
theorem mmas (f : BitVec 3) (x : BitVec 4) (y : BitVec 4) (z : BitVec 4) (w : BitVec 4) : Statement (.mmas f x y z w) :=
  stream_inverts rfl (build_mmas f x y z w 0 0) rfl rfl rfl (op_mmas f)
theorem mma32 (x : BitVec 4) (y : BitVec 4) (z : BitVec 4) (w : BitVec 4) : Statement (.mma32 x y z w) :=
  stream_inverts rfl rfl rfl rfl rfl (by decide)
theorem conv (f : BitVec 3) (x : BitVec 4) (y : BitVec 4) (z : BitVec 4) (w : BitVec 4) : Statement (.conv f x y z w) :=
  stream_inverts rfl (build_conv f x y z w 0 0) rfl rfl rfl (op_conv f)
theorem mst (x : BitVec 4) (y : BitVec 4) (t : Fld) : Statement (.mst x y t) :=
  stream_inverts rfl rfl rfl rfl rfl (by decide)
theorem mld (x : BitVec 4) (y : BitVec 4) : Statement (.mld x y) := stream_inverts rfl rfl rfl rfl rfl (by decide)
theorem mact (x : BitVec 4) (fn : Fld) : Statement (.mact x fn) := stream_inverts rfl rfl rfl rfl rfl (by decide)
theorem sqbar (n : Fld) : Statement (.sqbar n) := stream_inverts rfl rfl rfl rfl rfl (by decide)
theorem sqwait (n : Fld) : Statement (.sqwait n) := stream_inverts rfl rfl rfl rfl rfl (by decide)
theorem sqloop (x : BitVec 4) : Statement (.sqloop x) := stream_inverts rfl rfl rfl rfl rfl (by decide)
theorem sqend (off : BitVec 20) : Statement (.sqend off) :=
  stream_inverts rfl (congrArg some (congrArg _ (loop_bytes off))) rfl rfl rfl (by decide)
theorem sqbra (x : BitVec 4) (off : BitVec 20) : Statement (.sqbra x off) :=
  stream_inverts rfl (congrArg some (congrArg _ (loop_bytes off))) rfl rfl rfl (by decide)
theorem sqtl (x : BitVec 4) (y : BitVec 4) : Statement (.sqtl x y) := stream_inverts rfl rfl rfl rfl rfl (by decide)
theorem sqsetLiteral (x : BitVec 4) (lit : Word) : Statement (.sqsetLiteral x lit) := stream_literal_inverts x lit
theorem sqsetUniform (x : BitVec 4) (b : Fld) : Statement (.sqsetUniform x b) :=
  stream_inverts rfl rfl rfl rfl rfl (by decide)
theorem sqadd (x : BitVec 4) (y : BitVec 4) (z : BitVec 4) : Statement (.sqadd x y z) :=
  stream_inverts rfl rfl rfl rfl rfl (by decide)
theorem spliceMovi (x : BitVec 4) (imm : Half) : Statement (.spliceMovi x imm) :=
  splice_inverts rfl rfl rfl (splice_spliceMovi x imm)
theorem addi (x : BitVec 4) (y : BitVec 4) (imm : BitVec 12) : Statement (.addi x y imm) :=
  splice_inverts rfl rfl rfl (splice_addi x y imm)
theorem subi (x : BitVec 4) (y : BitVec 4) (imm : BitVec 12) : Statement (.subi x y imm) :=
  splice_inverts rfl rfl rfl (splice_subi x y imm)
theorem ldc (x : BitVec 4) (imm : BitVec 12) : Statement (.ldc x imm) := splice_inverts rfl rfl rfl (splice_ldc x imm)
theorem jmp (imm : BitVec 12) : Statement (.jmp imm) := splice_inverts rfl rfl rfl (splice_jmp imm)
theorem cmpj (x : BitVec 4) (y : BitVec 4) (z : BitVec 4) (imm : BitVec 12) : Statement (.cmpj x y z imm) :=
  splice_inverts rfl rfl rfl (splice_cmpj x y z imm)
theorem spliceLoop (x : BitVec 4) (imm : BitVec 12) : Statement (.spliceLoop x imm) :=
  splice_inverts rfl rfl rfl (splice_spliceLoop x imm)
theorem xmit (bf : BitVec 3) (ki : BitVec 4) (kd : BitVec 4) : Statement (.xmit bf ki kd) :=
  splice_inverts rfl rfl rfl (splice_xmit bf ki kd)
theorem xmitTag (bf : BitVec 3) (ki : BitVec 4) (ks : BitVec 4) (kd : BitVec 4) : Statement (.xmitTag bf ki ks kd) :=
  splice_inverts rfl rfl rfl (splice_xmitTag bf ki ks kd)
theorem recv (bf : BitVec 3) (ki : BitVec 4) (ks : BitVec 4) : Statement (.recv bf ki ks) :=
  splice_inverts rfl rfl rfl (splice_recv bf ki ks)
theorem cmb (bf : BitVec 3) (ki : BitVec 4) (ks : BitVec 4) (co : BitVec 2) : Statement (.cmb bf ki ks co) :=
  splice_inverts rfl rfl rfl (splice_cmb bf ki ks co)
theorem cmbf (bf : BitVec 3) (ki : BitVec 4) (ks : BitVec 4) (kd : BitVec 4) (co : BitVec 2) : Statement (.cmbf bf ki ks kd co) :=
  splice_inverts rfl rfl rfl (splice_cmbf bf ki ks kd co)
theorem fwait (x : BitVec 4) (y : BitVec 4) (imm : BitVec 12) : Statement (.fwait x y imm) :=
  splice_inverts rfl rfl rfl (splice_fwait x y imm)
theorem fsig (x : BitVec 4) (y : BitVec 4) (imm : BitVec 12) : Statement (.fsig x y imm) :=
  splice_inverts rfl rfl rfl (splice_fsig x y imm)
theorem packetNop (n : Nat) : Statement (.packetNop n) := other_inverts rfl rfl rfl
theorem launch (hdr : Nat) (rank : Nat) : Statement (.launch hdr rank) := other_inverts rfl rfl rfl
theorem claunch (tbl : Nat) (mask : Word) (ctx : Nat) (rank : Nat) (hdr : Nat) : Statement (.claunch tbl mask ctx rank hdr) :=
  other_inverts rfl rfl rfl
theorem feed (core : Nat) (die : Nat) (q : Nat) (recs : List (List Word)) : Statement (.feed core die q recs) :=
  other_inverts rfl rfl rfl
theorem wake (core : Nat) (die : Nat) (all : Bool) : Statement (.wake core die all) := other_inverts rfl rfl rfl
theorem indirect (addr : Nat) (len : Nat) : Statement (.indirect addr len) := other_inverts rfl rfl rfl
theorem pred (addr : Nat) (v : Word) (cond : Nat) (skip : Nat) : Statement (.pred addr v cond skip) :=
  other_inverts rfl rfl rfl
theorem packetLoop (count : Nat) : Statement (.packetLoop count) := other_inverts rfl rfl rfl
theorem write (addr : Nat) (data : List Word) : Statement (.write addr data) := other_inverts rfl rfl rfl
theorem copy (dst : Nat) (src : Nat) (len : Nat) : Statement (.copy dst src len) := other_inverts rfl rfl rfl
theorem signalWrite (addr : Nat) (v : DWord) : Statement (.signalWrite addr v) := other_inverts rfl rfl rfl
theorem signalAdd (addr : Nat) (v : DWord) : Statement (.signalAdd addr v) := other_inverts rfl rfl rfl
theorem waitMemory (addr : Nat) (thr : DWord) : Statement (.waitMemory addr thr) := other_inverts rfl rfl rfl
theorem waitTimeline (handle : Word) (thr : DWord) : Statement (.waitTimeline handle thr) := other_inverts rfl rfl rfl
theorem snap (tbl : Nat) (n : Nat) (area : Nat) : Statement (.snap tbl n area) := other_inverts rfl rfl rfl
theorem tlset (handle : Word) (thr : DWord) : Statement (.tlset handle thr) := other_inverts rfl rfl rfl
theorem sleepExpiry (w : Nat) : Statement (.sleepExpiry w) := other_inverts rfl rfl rfl
theorem asyncCopyCompletion (id : Nat) : Statement (.asyncCopyCompletion id) := other_inverts rfl rfl rfl
theorem keyEntryLanding (id : Nat) : Statement (.keyEntryLanding id) := other_inverts rfl rfl rfl
theorem censusArrivalPoint (core : Nat) (cen : Nat) : Statement (.censusArrivalPoint core cen) :=
  other_inverts rfl rfl rfl
theorem trapHandlerFormation (core : Nat) : Statement (.trapHandlerFormation core) := other_inverts rfl rfl rfl
theorem streamOperationCompletion (core : Nat) : Statement (.streamOperationCompletion core) :=
  other_inverts rfl rfl rfl
theorem flagReread (k : Nat) : Statement (.flagReread k) := other_inverts rfl rfl rfl
theorem splicerOperationCompletion (k : Nat) : Statement (.splicerOperationCompletion k) := other_inverts rfl rfl rfl
theorem chunkPacketSend (link : Nat) : Statement (.chunkPacketSend link) := other_inverts rfl rfl rfl
theorem networkMatchFire (die : Nat) (id : Nat) : Statement (.networkMatchFire die id) := other_inverts rfl rfl rfl
theorem rateLimiterInterval (link : Nat) (fid : Nat) : Statement (.rateLimiterInterval link fid) :=
  other_inverts rfl rfl rfl
theorem gateTimeout (serial : Nat) : Statement (.gateTimeout serial) :=
  other_inverts rfl rfl rfl
theorem launchConditionsSatisfied (q : Nat) : Statement (.launchConditionsSatisfied q) := other_inverts rfl rfl rfl
theorem pageServiceResume (q : Nat) : Statement (.pageServiceResume q) := other_inverts rfl rfl rfl
theorem gangPlacement (pick : Nat) : Statement (.gangPlacement pick) := other_inverts rfl rfl rfl
theorem gangWaitLimit (serial : Nat) : Statement (.gangWaitLimit serial) := other_inverts rfl rfl rfl
theorem binAgeLimit (core : Nat) (bin : Nat) : Statement (.binAgeLimit core bin) := other_inverts rfl rfl rfl
theorem binDraw (core : Nat) (bin : Nat) : Statement (.binDraw core bin) := other_inverts rfl rfl rfl
theorem gatherLimit (core : Nat) (wg : Nat) (pc : Nat) : Statement (.gatherLimit core wg pc) :=
  other_inverts rfl rfl rfl
theorem waveFormation (core : Nat) (wg : Nat) (pc : Nat) : Statement (.waveFormation core wg pc) :=
  other_inverts rfl rfl rfl
theorem mailboxArrival (m : Nat) : Statement (.mailboxArrival m) := other_inverts rfl rfl rfl
theorem deferredAddApply (serial : Nat) : Statement (.deferredAddApply serial) := other_inverts rfl rfl rfl
theorem gridCompletion (serial : Nat) : Statement (.gridCompletion serial) := other_inverts rfl rfl rfl
theorem remoteTimeout (w : Nat) : Statement (.remoteTimeout w) := other_inverts rfl rfl rfl
theorem continuityRound (ctx : Nat) : Statement (.continuityRound ctx) := other_inverts rfl rfl rfl
theorem drainDeadline (ctx : Nat) : Statement (.drainDeadline ctx) := other_inverts rfl rfl rfl
theorem stallSample (core : Nat) (part : Nat) : Statement (.stallSample core part) := other_inverts rfl rfl rfl
theorem hwqRingResident (k : Nat) : Statement (.hwqRingResident k) := other_inverts rfl rfl rfl
theorem parkedConditionCheck (q : Nat) : Statement (.parkedConditionCheck q) := other_inverts rfl rfl rfl
theorem snapshotBackgroundCopy (ctx : Nat) : Statement (.snapshotBackgroundCopy ctx) := other_inverts rfl rfl rfl
theorem pendingWriteCompletion (w : Nat) (id : Nat) : Statement (.pendingWriteCompletion w id) :=
  other_inverts rfl rfl rfl
theorem clauseIssue : Statement (.clauseIssue) := other_inverts rfl rfl rfl
theorem exit : Statement (.exit) := lane_inverts rfl rfl rfl rfl rfl rfl rfl
theorem rjoin : Statement (.rjoin) := lane_inverts rfl rfl rfl rfl rfl rfl rfl
theorem nop : Statement (.nop) := lane_inverts rfl rfl rfl rfl rfl rfl rfl
theorem tend : Statement (.tend) := lane_inverts rfl rfl rfl rfl rfl rfl rfl
theorem take : Statement (.take) := lane_inverts rfl rfl rfl rfl rfl rfl rfl
theorem yield : Statement (.yield) := lane_inverts rfl rfl rfl rfl rfl rfl rfl
theorem sysret : Statement (.sysret) := lane_inverts rfl rfl rfl rfl rfl rfl rfl
theorem sqhalt : Statement (.sqhalt) := stream_inverts rfl rfl rfl rfl rfl (by decide)
theorem spliceNop : Statement (.spliceNop) := splice_inverts rfl rfl rfl (splice_spliceNop)
theorem halt : Statement (.halt) := splice_inverts rfl rfl rfl (splice_halt)
theorem endl : Statement (.endl) := splice_inverts rfl rfl rfl (splice_endl)
theorem endloop : Statement (.endloop) := other_inverts rfl rfl rfl
theorem fetchfence : Statement (.fetchfence) := other_inverts rfl rfl rfl
theorem alignmentPulse : Statement (.alignmentPulse) := other_inverts rfl rfl rfl
theorem captureStart : Statement (.captureStart) := other_inverts rfl rfl rfl
theorem captureStop : Statement (.captureStop) := other_inverts rfl rfl rfl
theorem captureFreeze : Statement (.captureFreeze) := other_inverts rfl rfl rfl
theorem captureReset : Statement (.captureReset) := other_inverts rfl rfl rfl
theorem waitSlotParking : Statement (.waitSlotParking) := other_inverts rfl rfl rfl
theorem standInTakeover : Statement (.standInTakeover) := other_inverts rfl rfl rfl
theorem functionLevelReset : Statement (.functionLevelReset) := other_inverts rfl rfl rfl
theorem wholeDeviceReset : Statement (.wholeDeviceReset) := other_inverts rfl rfl rfl
theorem thermalThrottle : Statement (.thermalThrottle) := other_inverts rfl rfl rfl
theorem thermalStop : Statement (.thermalStop) := other_inverts rfl rfl rfl
theorem temperatureFall : Statement (.temperatureFall) := other_inverts rfl rfl rfl
theorem splicerStart (k : Nat) (rec : Nat) : Statement (.splicerStart k rec) := other_inverts rfl rfl rfl
theorem splicerResume (k : Nat) : Statement (.splicerResume k) := other_inverts rfl rfl rfl
theorem splicerAbort (k : Nat) : Statement (.splicerAbort k) := other_inverts rfl rfl rfl
theorem spcfgWrite (k : Nat) (v : DWord) : Statement (.spcfgWrite k v) := other_inverts rfl rfl rfl
theorem splicerStateWindowWrite (k : Nat) (off : Nat) (size : Nat) (v : Nat) : Statement (.splicerStateWindowWrite k off size v) :=
  other_inverts rfl rfl rfl
theorem chunkDataArrival (k : Nat) (sfid : Nat) (slink : Nat) (sctx : Nat) (epoch : Nat) (len : Nat) (seq : Nat) (data : Payload) : Statement (.chunkDataArrival k sfid slink sctx epoch len seq data) :=
  other_inverts rfl rfl rfl
theorem creditArrival (k : Nat) (dst : Nat) (epoch : Nat) (n : Nat) : Statement (.creditArrival k dst epoch n) :=
  other_inverts rfl rfl rfl
theorem refusalArrival (k : Nat) (refusal : RefusalCode) : Statement (.refusalArrival k refusal) := other_inverts rfl rfl rfl
theorem taggedMessageArrival (die : Nat) (ctx : Nat) (tag : Word) (len : Nat) (part : Part) (sfid : Nat) (slink : Nat) (sctx : Nat) : Statement (.taggedMessageArrival die ctx tag len part sfid slink sctx) :=
  other_inverts rfl rfl rfl
theorem verdictArrival (k : Nat) (claim : Bool) : Statement (.verdictArrival k claim) := other_inverts rfl rfl rfl
theorem congestionNotice (link : Nat) (fid : Nat) : Statement (.congestionNotice link fid) :=
  other_inverts rfl rfl rfl
theorem memoryPacketArrival (pa : Nat) (data : Payload) (excl : Bool) (refused : Bool) : Statement (.memoryPacketArrival pa data excl refused) :=
  other_inverts rfl rfl rfl
theorem censusPacketArrival (fid : Nat) (id : Word) (key : DWord) (arg : Word) (op : Nat) (fgroup : Nat) : Statement (.censusPacketArrival fid id key arg op fgroup) :=
  other_inverts rfl rfl rfl
theorem censusResultArrival (id : Word) (live : List (Nat × Word)) (wd : Nat) : Statement (.censusResultArrival id live wd) :=
  other_inverts rfl rfl rfl
theorem linkUp (die : Nat) (index : Nat) (node : Nat) (self : Nat) : Statement (.linkUp die index node self) :=
  other_inverts rfl rfl rfl
theorem linkDown (l : Nat) : Statement (.linkDown l) := other_inverts rfl rfl rfl
theorem linkErrorWindow (l : Nat) (resent : Nat) : Statement (.linkErrorWindow l resent) := other_inverts rfl rfl rfl
theorem lnkerrWrite (l : Nat) : Statement (.lnkerrWrite l) := other_inverts rfl rfl rfl
theorem gateAckArrival (key : GridKey) (rank : Nat) : Statement (.gateAckArrival key rank) :=
  other_inverts rfl rfl rfl
theorem gateRefusalArrival (key : GridKey) (rank : Nat) : Statement (.gateRefusalArrival key rank) :=
  other_inverts rfl rfl rfl
theorem gateOpenNoticeArrival (key : GridKey) : Statement (.gateOpenNoticeArrival key) :=
  other_inverts rfl rfl rfl
theorem gateEndNoticeArrival (key : GridKey) (rank : Nat) (rec : BitVec 512) : Statement (.gateEndNoticeArrival key rank rec) :=
  other_inverts rfl rfl rfl
theorem packageLost (peer : Peer) : Statement (.packageLost peer) :=
  other_inverts rfl rfl rfl
theorem drain (ctx : Nat) : Statement (.drain ctx) := other_inverts rfl rfl rfl
theorem urgentFreeze (ctx : Nat) (claim : List Nat) : Statement (.urgentFreeze ctx claim) := other_inverts rfl rfl rfl
theorem victimResume (ctx : Nat) (pick : Nat) : Statement (.victimResume ctx pick) := other_inverts rfl rfl rfl
theorem kill (serial : Nat) : Statement (.kill serial) := other_inverts rfl rfl rfl
theorem setSstep (ctx : Nat) : Statement (.setSstep ctx) := other_inverts rfl rfl rfl
theorem clearSstep (ctx : Nat) : Statement (.clearSstep ctx) := other_inverts rfl rfl rfl
theorem resumeParked (ctx : Nat) : Statement (.resumeParked ctx) := other_inverts rfl rfl rfl
theorem releaseHolds (ctx : Nat) : Statement (.releaseHolds ctx) := other_inverts rfl rfl rfl
theorem doorbellWrite (q : Nat) (off : Nat) (v : Word) : Statement (.doorbellWrite q off v) :=
  other_inverts rfl rfl rfl
theorem hwqDescriptorWrite (k : Nat) (off : Nat) (size : Nat) (v : Nat) : Statement (.hwqDescriptorWrite k off size v) :=
  other_inverts rfl rfl rfl
theorem contextDescriptorWrite (n : Nat) (off : Nat) (size : Nat) (v : Nat) : Statement (.contextDescriptorWrite n off size v) :=
  other_inverts rfl rfl rfl
theorem evcfgWrite (v : DWord) : Statement (.evcfgWrite v) := other_inverts rfl rfl rfl
theorem balanceWrite (v : DWord) : Statement (.balanceWrite v) := other_inverts rfl rfl rfl
theorem registerWrite (off : Nat) (size : Nat) (v : Nat) : Statement (.registerWrite off size v) :=
  other_inverts rfl rfl rfl
theorem liveUpdate (image : List Byte) (version : Nat) (table : BitVec 16) : Statement (.liveUpdate image version table) :=
  other_inverts rfl rfl rfl
theorem resetQueue (q : Nat) : Statement (.resetQueue q) := other_inverts rfl rfl rfl
theorem resetEngine (handle : Word) : Statement (.resetEngine handle) := other_inverts rfl rfl rfl
theorem resetPartition (dies : BitVec 4) : Statement (.resetPartition dies) := other_inverts rfl rfl rfl
theorem resetDie (die : Nat) : Statement (.resetDie die) := other_inverts rfl rfl rfl
theorem spdmMeasurementRequest (nonce : BitVec 384) : Statement (.spdmMeasurementRequest nonce) :=
  other_inverts rfl rfl rfl
theorem spdmCommitMinimum (v : Nat) : Statement (.spdmCommitMinimum v) := other_inverts rfl rfl rfl
theorem unitReady (unit : ReadyUnit) : Statement (.unitReady unit) :=
  other_inverts rfl rfl rfl
theorem softError (cls : Nat) (site : ErrorSite) (at_ : Nat) (corrected : Bool) : Statement (.softError cls site at_ corrected) :=
  other_inverts rfl rfl rfl
theorem hostMemoryAccess (pa : Nat) (wr : Bool) (data : List Byte) (len : Nat) : Statement (.hostMemoryAccess pa wr data len) :=
  other_inverts rfl rfl rfl
theorem fabricGroupReport (group : Nat) (members : List Nat) : Statement (.fabricGroupReport group members) :=
  other_inverts rfl rfl rfl
theorem pageServiceDeclined (serial : Nat) : Statement (.pageServiceDeclined serial) := other_inverts rfl rfl rfl
theorem drainCancel (ctx : Nat) : Statement (.drainCancel ctx) := other_inverts rfl rfl rfl
theorem malformedPacketArrival (packet : LinkHeader) : Statement (.malformedPacketArrival packet) :=
  other_inverts rfl rfl rfl
theorem powerAllotmentReached (domain : Nat) (reached : Bool) : Statement (.powerAllotmentReached domain reached) :=
  other_inverts rfl rfl rfl

end Sys2Proof.Laws.RoundTrip
end

