-- ==== Sys2Proof/Safety.lean ====
section
/-! DEFINITION. The terms in which statements about the machine are made: what a lane word needs in order to issue, what
it leaves behind when it retires, which registers it has written. -/

namespace Sys2Proof.Machine

/-! Lane words. -/

/-- A lane word with these registers issues from slot k of the warps: the turn is that warp's, no register of the word is
pending (R67), every granule of the word is held (R50), and no address breakpoint stops a lane (R336). -/
structure Issues (s : State) (k : Nat) (w : Warp) (regs : List Fld) : Prop where
  turn : s.issuer = .warp k
  slot : tget s.warps k = some w
  free : anyPending w regs = false
  held : heldAll w regs = true
  clear : abpLanes s w = 0

/-- Between s and t nothing has changed but the warp in slot k, now w1, and RETIRED of its workgroup, which has counted
one word (R64): no other warp, no byte of memory, no other piece of state. -/
structure OnlyWarp (s t : State) (k : Nat) (w w1 : Warp) : Prop where
  slot : tget t.warps k = some w1
  warps : ∀ j, j ≠ k → tget t.warps j = tget s.warps j
  wgs : ∀ j, j ≠ w.wg → tget t.wgs j = tget s.wgs j
  count : ∀ g, tget s.wgs w.wg = some g → tget t.wgs w.wg = some { g with retired := g.retired + 1 }
  mem : ∀ a, memByte t.mem a = memByte s.mem a
  rest : t = { s with warps := t.warps, wgs := t.wgs }

/-- The active lanes of w stand at the word after its current one, in the clause or after it (R94, R95), and no thread has
changed otherwise. -/
structure GoesOn (w w1 : Warp) : Prop where
  threads : ∀ l, thr w1 l = (thr w l).map (fun x =>
    if w.act.getLsbD l then { x with pc := nextPC w, pass1 := false } else x)
  act : w1.act = if (nextPC w).idx = 0 then 0 else w.act

/-- Each active lane of w has been placed by f, which ends in a choice point (R143): no lane is active and no group is
current. -/
structure Placed (w w1 : Warp) (f : Nat → Thread → Thread) : Prop where
  threads : ∀ l, thr w1 l = (thr w l).map (fun x =>
    if w.act.getLsbD l then { f l x with pass1 := false } else x)
  act : w1.act = 0
  cand : w1.cand = 0

/-- A word of the warp w in slot k has retired in t: its lanes go on, and of the warp itself only registers, predicates
and flags may have changed. -/
structure Retires (s t : State) (k : Nat) (w w1 : Warp) : Prop extends OnlyWarp s t k w w1, GoesOn w w1 where
  other : w1 = { w with
    threads := w1.threads, act := w1.act, v := w1.v, w := w1.w, p := w1.p, flags := w1.flags, spoilt := w1.spoilt }

/-- A word of w that writes register D writes a register in a lane. -/
def wrote (w : Warp) (d f : Fld) (l : Nat) : Bool :=
  f == d && (if d.toNat < 192 then w.act.getLsbD l else w.act != 0)

/-- A register word that was beyond repair is so no more where it has been written, and no other mark has changed (29 R408). -/
def Marks (w w1 : Warp) (written : Fld → Nat → Bool) : Prop :=
  ∀ f l, l < 32 → spoiltAt w1 f l = (spoiltAt w f l && !written f l)

/-- Register D holds g in each active lane, or, where it is a warp-scalar register, the value of the lowest active lane
(R54, R117); every other register, and every lane of D that is not active, is as before. -/
structure WroteReg (w w1 : Warp) (d : Fld) (g : Nat → Word) : Prop where
  dest : ∀ l < 32, rd w1 d l =
    if d.toNat < 192 then (if w.act.getLsbD l then g l else rd w d l)
    else match lowest w.act with
      | some m => g m
      | none => rd w d l
  kept : ∀ f l, f ≠ d → l < 32 → rd w1 f l = rd w f l
  marks : Marks w w1 (wrote w d)

/-- Predicate D holds c in each active lane, unless it is p0, to which writes are discarded (R55); every other predicate,
and every lane of D that is not active, is as before. -/
structure WrotePred (w w1 : Warp) (d : Nat) (c : Nat → Bool) : Prop where
  dest : ∀ l < 32, (tgetD 0 w1.p d).getLsbD l =
    if d = 0 then (tgetD 0 w.p d).getLsbD l else if w.act.getLsbD l then c l else (tgetD 0 w.p d).getLsbD l
  kept : ∀ q l, q ≠ d → l < 32 → (tgetD 0 w1.p q).getLsbD l = (tgetD 0 w.p q).getLsbD l

/-- No register of the warp has changed. -/
def SameRegs (w w1 : Warp) : Prop := w1.spoilt = w.spoilt ∧ ∀ f l, l < 32 → rd w1 f l = rd w f l

/-- The instruction retires for the warp in slot k, having written D and nothing else but what every word does. -/
def WritesLanes (i : Instr) (s : State) (k : Nat) (w : Warp) (d : Fld) (g : Nat → Word) : Prop :=
  ∃ t w1, exec i s = .next t ∧ Retires s t k w w1 ∧ WroteReg w w1 d g ∧ w1.p = w.p ∧ w1.flags = w.flags

/-- The same with floating-point flags raised (R65): the flags that the active lanes raise are added to those set. -/
def WritesFp (i : Instr) (s : State) (k : Nat) (w : Warp) (d : Fld) (g : Nat → Nat × FFlags) : Prop :=
  ∃ t w1, exec i s = .next t ∧ Retires s t k w w1 ∧ WroteReg w w1 d (fun l => BitVec.ofNat 32 (g l).1) ∧ w1.p = w.p ∧
    ∀ n < 5, w1.flags.getLsbD n = (w.flags.getLsbD n || (lanesOf w.act).any (fun l => (g l).2.getLsbD n))

/-- Registers D and D + 1 hold the low and the high word of g in each active lane, or, where they are warp-scalar, those
of the lowest active lane; all else is as before (R119). -/
structure WrotePair (w w1 : Warp) (d : Fld) (g : Nat → DWord) : Prop where
  low : ∀ l < 32, rd w1 d l =
    if d.toNat < 192 then (if w.act.getLsbD l then (g l).extractLsb' 0 32 else rd w d l)
    else match lowest w.act with
      | some m => (g m).extractLsb' 0 32
      | none => rd w d l
  high : ∀ l < 32, rd w1 (d + 1) l =
    if d.toNat < 192 then (if w.act.getLsbD l then (g l).extractLsb' 32 32 else rd w (d + 1) l)
    else match lowest w.act with
      | some m => (g m).extractLsb' 32 32
      | none => rd w (d + 1) l
  kept : ∀ f l, f ≠ d → f ≠ d + 1 → l < 32 → rd w1 f l = rd w f l
  marks : Marks w w1 (fun f l => wrote w d f l || wrote w (d + 1) f l)

/-- The instruction retires, having written a pair of registers and nothing else but what every word does. -/
def WritesPair (i : Instr) (s : State) (k : Nat) (w : Warp) (d : Fld) (g : Nat → DWord) : Prop :=
  ∃ t w1, exec i s = .next t ∧ Retires s t k w w1 ∧ WrotePair w w1 d g ∧ w1.p = w.p ∧ w1.flags = w.flags

/-- The instruction retires, having written a predicate and nothing else but what every word does. -/
def WritesPred (i : Instr) (s : State) (k : Nat) (w : Warp) (d : Nat) (c : Nat → Bool) : Prop :=
  ∃ t w1, exec i s = .next t ∧ Retires s t k w w1 ∧ SameRegs w w1 ∧ WrotePred w w1 d c ∧ w1.flags = w.flags

/-- The instruction retires and sends each active lane to the clause at an address, with a choice point (R143, R145); no
register changes but those that `regs` tells of. -/
def BranchesTo (i : Instr) (s : State) (k : Nat) (w : Warp) (dest : Nat → DWord) (regs : Warp → Prop) : Prop :=
  ∃ t w1, exec i s = .next t ∧ OnlyWarp s t k w w1 ∧ Placed w w1 (fun l x => { x with pc := ⟨dest l, 0⟩ }) ∧ regs w1 ∧
    w1 = { w with threads := w1.threads, act := w1.act, cand := w1.cand, v := w1.v, w := w1.w, spoilt := w1.spoilt }

/-! Words whose effect reaches beyond their warp. -/

/-- The state in which the meaning of a lane word of the warp w in slot k acts: lanes that were resumed at the word have
issued it (R25). -/
def issued (s : State) (k : Nat) (w : Warp) : State := setWarp s k (clearPass w)

/-- The lane word i, issued by the warp w from slot k, has the effect e: the machine goes on in the state that e gives,
in which the word has retired, waits, or has ended its grid. -/
def Does (i : Instr) (s : State) (k : Nat) (w : Warp) (e : Eff) : Prop :=
  exec i s = .next (finishEff (issued s k w) k (clearPass w) e)

/-- The effect of a word at which the lanes of a mask begin to wait while the other active lanes go on (R38, R143). -/
def waits (s : State) (k : Nat) (w w1 : Warp) (m : Mask) (wt : Wait) : Eff :=
  .moved (setWarp s k (beginWait (setPC w1 (w.act &&& ~~~m) (nextPC w)) m wt (nextPC w)))

/-- No thread of the active lanes is a member of an open take (R281). -/
def NoMember (w : Warp) : Prop := w.act &&& members w = 0

/-! Memory. -/

/-- Nothing stands between an access and memory: no take is open, no stash region is mapped, no snapshot runs, no mailbox
is bound. -/
structure PlainMemory (s : State) (w : Warp) : Prop where
  own : w.take = none
  members : members w = 0
  takes : ∀ e ∈ s.warps, e.2.take = none
  stash : ∀ e ∈ s.wgs, e.2.stash = []
  snaps : ∀ e ∈ s.ctxs, e.2.snap = none
  boxes : s.mailboxes = []

/-- A global access of a workgroup passes the checks of R187: the address, its alignment, the lease, the translation, the
physical address, and for a read the data. -/
structure MayAccess (s : State) (wg : Nat) (n : Need) (size va : Nat) : Prop where
  range : va < 2 ^ 57
  aligned : va % size = 0
  lease : leaseFault s wg n va size = none
  phys : physFault s wg va size = false
  sound : n.r = true → poisoned s (gridXlate s wg va).1 size = false

/-- An LM access of a workgroup names the bytes of a workgroup of its gang, from an offset, and passes the checks of
R187. -/
structure MayReach (s : State) (wg size : Nat) (a : Word) (t off : Nat) : Prop where
  aligned : a.toNat % size = 0
  target : lmTarget s wg a size = some (t, off)
  there : (tget s.wgs t).isSome = true
  plain : stashAlias s t off size = false
  sound : poisoned s (lmPlace t off) size = false

/-- A side of a copy, at some ranges given as offset and length, passes the checks of R187: its ranges lie in the LM of a
workgroup of the gang and no stash region is mapped there, or every piece of them of at most 4 KiB lies in the address
space, in the lease and in memory that is there. -/
structure MayMove (s : State) (wg : Nat) (n : Need) (x : Side) (ps : List (Nat × Nat)) : Prop where
  inLm : x.lm = true → ∀ p ∈ ps, ∃ t off, lmAt s wg (x.at_ + p.1) p.2 = some (t, off) ∧ stashAlias s t off p.2 = false
  inMem : x.lm = false → ∀ p ∈ ps, ∀ q ∈ vPieces (x.at_ + p.1) p.2,
    q.1 + q.2 ≤ 2 ^ 57 ∧ leaseFault s wg n q.1 q.2 = none ∧ physFault s wg q.1 q.2 = false

/-- A range of LM that an engine reads lies in the LM of a workgroup of the gang, where no stash region is mapped and no
data is beyond repair. -/
def MayRead (s : State) (wg a n : Nat) : Prop :=
  ∃ t off, lmAt s wg a n = some (t, off) ∧ stashAlias s t off n = false ∧ poisoned s (lmPlace t off) n = false

/-- The unit of an element of a record in LM, and its scale where the record has scales, can be read. -/
def ElementReady (s : State) (wg : Nat) (r : BitVec 512) (d : List Nat) : Prop :=
  MayRead s wg (unitAddr r d) (unitBytes (shFmt r)) ∧ (shScale r ≠ 0 → MayRead s wg (scaleAddr r d) 1)

/-- n registers from D upwards hold g in each active lane, word by word, or, where they are warp-scalar, the values of
the lowest active lane; every other register is as before (R119). -/
structure WroteGroup (w w1 : Warp) (d : Fld) (n : Nat) (g : Nat → Nat → Word) : Prop where
  dest : ∀ i < n, ∀ l < 32, rd w1 (d + BitVec.ofNat 8 i) l =
    if (d + BitVec.ofNat 8 i).toNat < 192 then (if w.act.getLsbD l then g i l else rd w (d + BitVec.ofNat 8 i) l)
    else match lowest w.act with
      | some m => g i m
      | none => rd w (d + BitVec.ofNat 8 i) l
  kept : ∀ f l, (∀ i < n, f ≠ d + BitVec.ofNat 8 i) → l < 32 → rd w1 f l = rd w f l
  marks : Marks w w1 (fun f l => (List.range n).any (fun i => wrote w (d + BitVec.ofNat 8 i) f l))

/-- The instruction retires, having written a group of registers and nothing else but what every word does. -/
def WritesGroup (i : Instr) (s : State) (k : Nat) (w : Warp) (d : Fld) (n : Nat) (g : Nat → Nat → Word) : Prop :=
  ∃ t w1, exec i s = .next t ∧ Retires s t k w w1 ∧ WroteGroup w w1 d n g ∧ w1.p = w.p ∧ w1.flags = w.flags

/-- Word i of a value of several words. -/
def wordOf (x i : Nat) : Word := BitVec.ofNat 32 (x / 2 ^ (32 * i))

/-- The byte that a store of the registers from D of a lane puts at distance i from its address (R2, R119). -/
def storedByte (w : Warp) (d : Fld) (l i : Nat) : Byte :=
  BitVec.ofNat 8 ((rd w (d + BitVec.ofNat 8 (i / 4)) l).toNat / 2 ^ (8 * (i % 4)))

/-- The last of some lanes, in their order, whose access of n bytes touches a place. -/
def lastAt (ls : List Nat) (place : Nat → Nat) (n a : Nat) : Option Nat :=
  ls.reverse.find? (fun l => decide (place l ≤ a) && decide (a < place l + n))

/-- Beside its own warp and its count, the word has changed bytes of memory alone, with what records them: the values
that LDK may return (R191) and the marks of data beyond repair (R408). -/
structure OnlyMemory (s t : State) (k : Nat) (w w1 : Warp) : Prop where
  slot : tget t.warps k = some w1
  warps : ∀ j, j ≠ k → tget t.warps j = tget s.warps j
  wgs : ∀ j, j ≠ w.wg → tget t.wgs j = tget s.wgs j
  count : ∀ g, tget s.wgs w.wg = some g → tget t.wgs w.wg = some { g with retired := g.retired + 1 }
  grids : ∀ n, (tget t.grids n).map (fun g => { g with ldk := [] }) = (tget s.grids n).map (fun g => { g with ldk := [] })
  rest : t = { s with
    warps := t.warps, wgs := t.wgs, mem := t.mem, grids := t.grids, poison := t.poison }

/-- Nobody else's unit stands between an agent outside every grid and memory: no take is open, no stash region is mapped,
no snapshot runs, no mailbox is bound. -/
structure Undisturbed (s : State) : Prop where
  takes : ∀ e ∈ s.warps, e.2.take = none
  stash : ∀ e ∈ s.wgs, e.2.stash = []
  snaps : ∀ e ∈ s.ctxs, e.2.snap = none
  boxes : s.mailboxes = []

/-- From s to t memory holds `new i` at the places of n bytes and everything else as before; what records written bytes
(R191, R405, R408) has followed. -/
structure StoredAt (s t : State) (n : Nat) (place : Nat → Nat) (new : Nat → Byte) : Prop where
  stored : ∀ i < n, memByte t.mem (place i) = new i
  kept : ∀ a, (∀ i < n, a ≠ place i) → memByte t.mem a = memByte s.mem a
  grids : ∀ n, (tget t.grids n).map (fun g => { g with ldk := [] }) = (tget s.grids n).map (fun g => { g with ldk := [] })
  poison : ∀ a, a ∈ t.poison → a ∈ s.poison

/-! Splice words. -/

/-- Splicer context k, in the state x, issues a word: the turn is its own, no refusal awaits its next boundary, and it
does not step (R359, R362, R376). -/
structure SpliceIssues (s : State) (k : Nat) (x : Splicer) : Prop where
  turn : s.issuer = .splicer k
  ctx : splRec s k = x
  calm : x.refused = none
  free : spStep x = false

/-- The splicer of context k is issuing that context (R362). -/
def spliceTurn (s : State) (k : Nat) : State := setLink s (k / 8) { linkRec s (k / 8) with cur := k % 8 }

/-- A context after a word that retires: its PC, and its run, which ends at a chunk boundary and after 64 words (R362). -/
def spAfter (x : Splicer) (pc : Nat) (boundary : Bool) : Splicer :=
  { x with
    pc := pc % 4096, st := spRunning, run := if boundary || decide (64 ≤ x.run + 1) then 0 else x.run + 1
    wait := .none, xl := none, got := 0, verdict := none, word := none, asking := false, taken := [], undo := []
    undoBad := [] }

/-- The physical place of byte i of a translated range. -/
def placeOf : List (Nat × Nat × Nat) → Nat → Nat
  | [], _ => 0
  | (_, pa, l) :: r, i => if i < l then pa + i else placeOf r (i - l)

/-- An operand of a packet of a queue: its bytes lie in the queue's range table under the permission that it needs, and they
translate to these pieces (R389). -/
def OperandAt (s : State) (x : Queue) (n : Need) (va len : Nat) (ps : List (Nat × Nat × Nat)) : Prop :=
  ∃ es, rangeTable s x = .ok es ∧ rangeOk es n va len = true ∧ xlated s x n va len = .ok ps

/-- The bytes of a translated range. -/
def piecesBytes (s : State) (ps : List (Nat × Nat × Nat)) : List Byte :=
  ps.flatMap (fun p => memBytes s.mem p.2.1 p.2.2)

end Sys2Proof.Machine
end

