-- ==== Sys2Proof/Certificates/Slice0/Obligations.lean ====
section
/-! DEFINITION. The statements about the machine: one for each family of the opcode table and each kind of state. A
docstring names the rules of spec/ first; a log entry named in it is a choice of the model on which the statement rests. -/

open Sys2Proof Sys2Proof.Machine

/-- R123. Each integer instruction of the table writes the stated value to D in every active lane, by s() and n() of
the operands, and raises no flag; a shift amount above 31 is refused with cause 0x07, and a B field that must be zero
and is not with 0x06. -/
def Obligations.IntegerInstructions : Prop :=
  ∀ (s : State) (k : Nat) (w : Warp), w.sstep = false → ∀ (d a b c : Fld),
    (Issues s k w [a, b, d] →
      WritesLanes (.iadd d a b) s k w d (fun l => BitVec.ofNat 32 ((rd w a l).toNat + (rd w b l).toNat)) ∧
      WritesLanes (.isub d a b) s k w d (fun l => BitVec.ofInt 32 ((rd w a l).toInt - (rd w b l).toInt)) ∧
      WritesLanes (.imul d a b) s k w d (fun l => BitVec.ofNat 32 ((rd w a l).toNat * (rd w b l).toNat)) ∧
      WritesLanes (.imulhs d a b) s k w d (fun l => BitVec.ofInt 32 ((rd w a l).toInt * (rd w b l).toInt / 2 ^ 32)) ∧
      WritesLanes (.imulhu d a b) s k w d (fun l => BitVec.ofNat 32 ((rd w a l).toNat * (rd w b l).toNat / 2 ^ 32)) ∧
      WritesLanes (.imin d a b) s k w d (fun l => BitVec.ofInt 32 (min (rd w a l).toInt (rd w b l).toInt)) ∧
      WritesLanes (.imax d a b) s k w d (fun l => BitVec.ofInt 32 (max (rd w a l).toInt (rd w b l).toInt)) ∧
      WritesLanes (.umin d a b) s k w d (fun l => BitVec.ofNat 32 (min (rd w a l).toNat (rd w b l).toNat)) ∧
      WritesLanes (.umax d a b) s k w d (fun l => BitVec.ofNat 32 (max (rd w a l).toNat (rd w b l).toNat)) ∧
      WritesLanes (.iand d a b) s k w d (fun l => rd w a l &&& rd w b l) ∧
      WritesLanes (.ior d a b) s k w d (fun l => rd w a l ||| rd w b l) ∧
      WritesLanes (.ixor d a b) s k w d (fun l => rd w a l ^^^ rd w b l) ∧
      WritesLanes (.andn d a b) s k w d (fun l => rd w a l &&& ~~~(rd w b l)) ∧
      WritesLanes (.shl d a b) s k w d (fun l =>
        if 32 ≤ (rd w b l).toNat then 0 else rd w a l <<< (rd w b l).toNat) ∧
      WritesLanes (.shr d a b) s k w d (fun l =>
        if 32 ≤ (rd w b l).toNat then 0 else rd w a l >>> (rd w b l).toNat) ∧
      WritesLanes (.sar d a b) s k w d (fun l =>
        if 32 ≤ (rd w b l).toNat then (if (rd w a l).msb then BitVec.allOnes 32 else 0)
        else (rd w a l).sshiftRight (rd w b l).toNat) ∧
      WritesLanes (.rotl d a b) s k w d (fun l => (rd w a l).rotateLeft ((rd w b l).toNat % 32)) ∧
      ∀ aux : Fld, WritesLanes (.lea d a b aux) s k w d (fun l => rd w a l + (rd w b l <<< aux.toNat))) ∧
    (Issues s k w [a, b, c, d] →
      WritesLanes (.imad d a b c) s k w d (fun l =>
        BitVec.ofNat 32 ((rd w a l).toNat * (rd w b l).toNat + (rd w c l).toNat))) ∧
    (Issues s k w [a, d] → ∀ imm : Fld,
      WritesLanes (.iaddi d a imm) s k w d (fun l => BitVec.ofInt 32 ((rd w a l).toInt + imm.toInt)) ∧
      WritesLanes (.iabs d a) s k w d (fun l => BitVec.ofNat 32 (rd w a l).toInt.natAbs) ∧
      WritesLanes (.ineg d a) s k w d (fun l => BitVec.ofNat 32 (2 ^ 32 - (rd w a l).toNat)) ∧
      WritesLanes (.inot d a) s k w d (fun l => ~~~(rd w a l)) ∧
      (imm.toNat < 32 →
        WritesLanes (.shli d a imm) s k w d (fun l => rd w a l <<< imm.toNat) ∧
        WritesLanes (.shri d a imm) s k w d (fun l => rd w a l >>> imm.toNat) ∧
        WritesLanes (.sari d a imm) s k w d (fun l => (rd w a l).sshiftRight imm.toNat)) ∧
      WritesLanes (.popc d a) s k w d (fun l =>
        BitVec.ofNat 32 ((List.range 32).countP (fun i => (rd w a l).getLsbD i))) ∧
      WritesLanes (.clz d a) s k w d (fun l =>
        BitVec.ofNat 32 ((List.range 32).countP (fun i => decide ((rd w a l).toNat < 2 ^ i)))) ∧
      WritesLanes (.brev d a) s k w d (fun l => (rd w a l).reverse)) ∧
    (∀ imm : Fld, 32 ≤ imm.toNat → fieldFault (.shli d a imm) = some 7 ∧ fieldFault (.shri d a imm) = some 7 ∧
      fieldFault (.sari d a imm) = some 7 ∧ fieldFault (.lea d a b imm) = some 7) ∧
    ∀ op ∈ ([0x0B, 0x0C, 0x11, 0x19, 0x1A, 0x1B] : List Fld), b ≠ 0 → decodeLaneWord (op ++ d ++ a ++ b) none = .bad 6

/-- R124, R125. BFX gives the field of W bits at P of A, sign-extended where F[11] is set; BFI gives A with W bits at
P replaced by the low bits of B. A field that reaches past bit 31 is refused with cause 0x07, and a reserved encoding
of the field word with 0x06. -/
def Obligations.BitFieldInstructions : Prop :=
  ∀ (s : State) (k : Nat) (w : Warp), w.sstep = false → ∀ (d a b : Fld) (sub : BitVec 4) (aux : Fld),
    (∀ P W : Nat, P = aux.toNat % 32 → W = sub.toNat % 8 * 4 + aux.toNat / 64 + 1 →
      (aux.getLsbD 5 = true → fieldFault (.bfx d a sub aux) = some 6) ∧
      (aux.getLsbD 5 = false → 32 < P + W → fieldFault (.bfx d a sub aux) = some 7) ∧
      (aux.getLsbD 5 = false → P + W ≤ 32 → Issues s k w [a, d] →
        WritesLanes (.bfx d a sub aux) s k w d (fun l =>
          let f := (rd w a l).toNat / 2 ^ P % 2 ^ W
          if sub.getLsbD 3 = true ∧ 2 ^ (W - 1) ≤ f then BitVec.ofInt 32 ((f : Int) - 2 ^ W) else BitVec.ofNat 32 f))) ∧
    (∀ P W : Nat, P = aux.toNat % 32 → W = 2 ^ (aux.toNat / 32) →
      (6 ≤ aux.toNat / 32 → fieldFault (.bfi d a b aux) = some 6) ∧
      (aux.toNat / 32 < 6 → 32 < P + W → fieldFault (.bfi d a b aux) = some 7) ∧
      (aux.toNat / 32 < 6 → P + W ≤ 32 → Issues s k w [a, b, d] →
        ∃ g : Nat → Word, WritesLanes (.bfi d a b aux) s k w d g ∧ ∀ l, w.act.getLsbD l = true → ∀ i < 32,
          (g l).getLsbD i = if P ≤ i ∧ i < P + W then (rd w b l).getLsbD (i - P) else (rd w a l).getLsbD i))

/-- R126. ADD64, SUB64 and MULW write a pair of registers, low word first, from pairs or from single registers; a
pair that starts at an odd register is refused with cause 0x07, and an unassigned SUB of MULW with 0x06. -/
def Obligations.WideInstructions : Prop :=
  ∀ (s : State) (k : Nat) (w : Warp), w.sstep = false → ∀ (d a b : Fld),
    (Issues s k w (pair a ++ pair b ++ pair d) → odd d = false →
      WritesPair (.add64 d a b) s k w d (fun l =>
        BitVec.ofNat 64 ((rd64 w a l).toNat + (rd64 w b l).toNat)) ∧
      WritesPair (.sub64 d a b) s k w d (fun l =>
        BitVec.ofInt 64 ((rd64 w a l).toInt - (rd64 w b l).toInt))) ∧
    (Issues s k w ([a, b] ++ pair d) → odd d = false →
      WritesPair (.mulw d a b 0) s k w d (fun l => BitVec.ofNat 64 ((rd w a l).toNat * (rd w b l).toNat)) ∧
      WritesPair (.mulw d a b 1) s k w d (fun l => BitVec.ofInt 64 ((rd w a l).toInt * (rd w b l).toInt))) ∧
    (∀ sub : BitVec 4, 1 < sub.toNat → fieldFault (.mulw d a b sub) = some 6) ∧
    (odd d = true → fieldFault (.add64 d a b) = some 7 ∧ fieldFault (.sub64 d a b) = some 7 ∧
      fieldFault (.mulw d a b 0) = some 7 ∧ fieldFault (.mulw d a b 1) = some 7) ∧
    (odd a = true ∨ odd b = true → fieldFault (.add64 d a b) = some 7 ∧ fieldFault (.sub64 d a b) = some 7)

/-- R127. The moves, the constants, MOVHI's keeping of the low half, and the choice of SELP by a predicate bit. R128,
R129, R130. Comparisons and predicate words set the predicate's bit of each active lane to the stated truth and
change nothing else; writes to p0 are discarded (R55); PTOV writes 1 or 0. -/
def Obligations.MovesAndPredicates : Prop :=
  (∀ (s : State) (k : Nat) (w : Warp), w.sstep = false → ∀ (d a b : Fld),
    (Issues s k w [a, d] → WritesLanes (.mov d a) s k w d (fun l => rd w a l)) ∧
    (Issues s k w [d] → ∀ imm : Half,
      WritesLanes (.movi d imm) s k w d (fun _ => BitVec.ofInt 32 imm.toInt)) ∧
    (Issues s k w [d, d] → ∀ imm : Half, WritesLanes (.movhi d imm) s k w d (fun l =>
      BitVec.ofNat 32 (imm.toNat * 2 ^ 16 + (rd w d l).toNat % 2 ^ 16))) ∧
    (Issues s k w [d] → ∀ lit : Word, WritesLanes (.movl d lit) s k w d (fun _ => lit)) ∧
    (Issues s k w [a, b, d] → ∀ (pd : BitVec 3) (pn : BitVec 1), WritesLanes (.selp d a b pd pn) s k w d (fun l =>
      if (rdP w pd.toNat).getLsbD l = (pn == 0) then rd w a l else rd w b l))) ∧
  (∀ (s : State) (k : Nat) (w : Warp), w.sstep = false → ∀ (d a b : Fld),
    (Issues s k w [a, b] → ∀ (sub : BitVec 4),
      (WritesPred (.icmp d a b 0 0) s k w d.toNat (fun l => decide (rd w a l = rd w b l)) ∧
       WritesPred (.icmp d a b 1 0) s k w d.toNat (fun l => decide (rd w a l ≠ rd w b l)) ∧
       WritesPred (.icmp d a b 2 0) s k w d.toNat (fun l => decide ((rd w a l).toInt < (rd w b l).toInt)) ∧
       WritesPred (.icmp d a b 3 0) s k w d.toNat (fun l => decide ((rd w a l).toInt ≤ (rd w b l).toInt)) ∧
       WritesPred (.icmp d a b 4 0) s k w d.toNat (fun l => decide ((rd w a l).toInt > (rd w b l).toInt)) ∧
       WritesPred (.icmp d a b 5 0) s k w d.toNat (fun l => decide ((rd w a l).toInt ≥ (rd w b l).toInt)) ∧
       WritesPred (.icmp d a b 0 1) s k w d.toNat (fun l => decide (rd w a l = rd w b l)) ∧
       WritesPred (.icmp d a b 1 1) s k w d.toNat (fun l => decide (rd w a l ≠ rd w b l)) ∧
       WritesPred (.icmp d a b 2 1) s k w d.toNat (fun l => decide ((rd w a l).toNat < (rd w b l).toNat)) ∧
       WritesPred (.icmp d a b 3 1) s k w d.toNat (fun l => decide ((rd w a l).toNat ≤ (rd w b l).toNat)) ∧
       WritesPred (.icmp d a b 4 1) s k w d.toNat (fun l => decide ((rd w a l).toNat > (rd w b l).toNat)) ∧
       WritesPred (.icmp d a b 5 1) s k w d.toNat (fun l => decide ((rd w a l).toNat ≥ (rd w b l).toNat))) ∧
      WritesPred (.fcmp d a b sub) s k w d.toNat (fun l => fcmpTrue sub.toNat (rd w a l).toNat (rd w b l).toNat)) ∧
    (Issues s k w [] →
      WritesPred (.pand d a b) s k w d.toNat (fun l =>
        (rdP w a.toNat).getLsbD l && (rdP w b.toNat).getLsbD l) ∧
      WritesPred (.por d a b) s k w d.toNat (fun l =>
        (rdP w a.toNat).getLsbD l || (rdP w b.toNat).getLsbD l) ∧
      WritesPred (.pxor d a b) s k w d.toNat (fun l =>
        (rdP w a.toNat).getLsbD l != (rdP w b.toNat).getLsbD l) ∧
      WritesPred (.pnot d a) s k w d.toNat (fun l => !(rdP w a.toNat).getLsbD l) ∧
      WritesPred (.pmov d a) s k w d.toNat (fun l => (rdP w a.toNat).getLsbD l)) ∧
    (Issues s k w [d] →
      WritesLanes (.ptov d a) s k w d (fun l => if (rdP w a.toNat).getLsbD l then 1 else 0)) ∧
    (∀ (sub : BitVec 4) (ty : BitVec 3), (5 < sub.toNat ∨ 1 < ty.toNat → fieldFault (.icmp d a b sub ty) = some 6) ∧
      (7 < sub.toNat → fieldFault (.fcmp d a b sub) = some 6)))

/-- R131, R134, R135, R136. The floating-point words write the rounded result to D in every active lane and add the
flags that the active lanes raise to FLAGS (R65). The transcendental words rest on log 14. -/
def Obligations.FloatingInstructions : Prop :=
  ∀ (s : State) (k : Nat) (w : Warp), w.sstep = false → ∀ (d a b c : Fld) (rnd : BitVec 2),
    (Issues s k w [a, b, d] →
      WritesFp (.fadd d a b) s k w d (fun l => fadd fp32 0 (rd w a l).toNat (rd w b l).toNat) ∧
      WritesFp (.faddT d a b rnd) s k w d (fun l => fadd fp32 rnd.toNat (rd w a l).toNat (rd w b l).toNat) ∧
      WritesFp (.fsub d a b) s k w d (fun l => fsub fp32 0 (rd w a l).toNat (rd w b l).toNat) ∧
      WritesFp (.fsubT d a b rnd) s k w d (fun l => fsub fp32 rnd.toNat (rd w a l).toNat (rd w b l).toNat) ∧
      WritesFp (.fmul d a b) s k w d (fun l => fmul fp32 0 (rd w a l).toNat (rd w b l).toNat) ∧
      WritesFp (.fmulT d a b rnd) s k w d (fun l => fmul fp32 rnd.toNat (rd w a l).toNat (rd w b l).toNat) ∧
      WritesFp (.hadd2 d a b) s k w d (fun l =>
        halves (fun x y _ => fadd fp16 0 x y) (rd w a l).toNat (rd w b l).toNat 0) ∧
      WritesFp (.hmul2 d a b) s k w d (fun l =>
        halves (fun x y _ => fmul fp16 0 x y) (rd w a l).toNat (rd w b l).toNat 0) ∧
      WritesFp (.badd2 d a b) s k w d (fun l =>
        halves (fun x y _ => fadd bf16 0 x y) (rd w a l).toNat (rd w b l).toNat 0) ∧
      WritesFp (.bmul2 d a b) s k w d (fun l =>
        halves (fun x y _ => fmul bf16 0 x y) (rd w a l).toNat (rd w b l).toNat 0)) ∧
    (Issues s k w [a, b, c, d] →
      WritesFp (.ffma d a b c rnd) s k w d (fun l =>
        ffma fp32 rnd.toNat (rd w a l).toNat (rd w b l).toNat (rd w c l).toNat) ∧
      WritesFp (.hfma2 d a b c) s k w d (fun l =>
        halves (ffma fp16 0) (rd w a l).toNat (rd w b l).toNat (rd w c l).toNat) ∧
      WritesFp (.bfma2 d a b c) s k w d (fun l =>
        halves (ffma bf16 0) (rd w a l).toNat (rd w b l).toNat (rd w c l).toNat)) ∧
    (Issues s k w [a, d] →
      WritesFp (.frnd d a rnd) s k w d (fun l => frnd rnd.toNat (rd w a l).toNat) ∧
      WritesFp (.frcp d a) s k w d (fun l => frcp (rd w a l).toNat) ∧
      WritesFp (.frsq d a) s k w d (fun l => frsq (rd w a l).toNat) ∧
      WritesFp (.fsqrt d a rnd) s k w d (fun l => fsqrt rnd.toNat (rd w a l).toNat) ∧
      WritesFp (.fexp2 d a) s k w d (fun l => fexp2 (rd w a l).toNat) ∧
      WritesFp (.flog2 d a) s k w d (fun l => flog2 (rd w a l).toNat) ∧
      WritesFp (.fsin d a) s k w d (fun l => fsin (rd w a l).toNat) ∧
      WritesFp (.fcos d a) s k w d (fun l => fcos (rd w a l).toNat))

/-- R132, R133, R136. Minimum, maximum, sign words and FCLASS write D and raise no flag (R122): a NaN beside a number
gives the number, two NaNs the canonical one; of two numbers FMIN gives the lesser and FMAX the greater, of two zeros FMIN
-0 if either is -0 and FMAX +0 if either is +0; FABS clears bit 31 and FNEG inverts it, a NaN giving the canonical NaN;
FCLASS sets the one bit of its table that belongs to the operand's sign, exponent and mantissa. R78, R122, R135. A NaN operand gives the canonical NaN 0x7FC0_0000; the
words of one operand raise NV for it exactly where it is signalling. -/
def Obligations.FlaglessFloating : Prop :=
  (∀ (s : State) (k : Nat) (w : Warp), w.sstep = false → ∀ (d a b : Fld),
    (Issues s k w [a, b, d] → ∀ mx : Bool, ∃ g : Nat → Word,
      WritesLanes (if mx then .fmax d a b else .fmin d a b) s k w d g ∧ ∀ l, w.act.getLsbD l = true →
        let x := rd w a l
        let y := rd w b l
        let nx := (fdec fp32 x.toNat).isNan
        let ny := (fdec fp32 y.toNat).isNan
        (nx = true → ny = true → g l = 0x7FC00000) ∧ (nx = true → ny = false → g l = y) ∧
        (nx = false → ny = true → g l = x) ∧ (nx = false → ny = false →
          let o := fcompare (fdec fp32 x.toNat) (fdec fp32 y.toNat)
          let zeros : Prop := x &&& 0x7FFFFFFF = 0 ∧ y &&& 0x7FFFFFFF = 0
          (o = .lt → g l = if mx then y else x) ∧ (o = .gt → g l = if mx then x else y) ∧
          (o = .eq → ¬ zeros → x = y ∧ g l = x) ∧ (zeros → g l = if mx then x &&& y else x ||| y))) ∧
    (Issues s k w [a, b, d] → ∀ mx : Bool, ∃ g : Nat → Word,
      WritesFp (if mx then .hmax2 d a b else .hmin2 d a b) s k w d (fun l => ((g l).toNat, 0)) ∧
        ∀ l, w.act.getLsbD l = true →
          (g l).toNat % 2 ^ 16 = fminmax fp16 mx ((rd w a l).toNat % 2 ^ 16) ((rd w b l).toNat % 2 ^ 16) ∧
          (g l).toNat / 2 ^ 16 = fminmax fp16 mx ((rd w a l).toNat / 2 ^ 16) ((rd w b l).toNat / 2 ^ 16)) ∧
    (Issues s k w [a, d] →
      WritesLanes (.fabs d a) s k w d (fun l =>
        if (fdec fp32 (rd w a l).toNat).isNan then 0x7FC00000 else rd w a l &&& 0x7FFFFFFF) ∧
      WritesLanes (.fneg d a) s k w d (fun l =>
        if (fdec fp32 (rd w a l).toNat).isNan then 0x7FC00000 else rd w a l ^^^ 0x80000000) ∧
      WritesLanes (.fclass d a) s k w d (fun l =>
        let x := rd w a l
        let e : BitVec 8 := x.extractLsb' 23 8
        let m : BitVec 23 := x.extractLsb' 0 23
        1 <<< (if e = 0xFF then (if m = 0 then (if x.msb then 0 else 7) else if m.toNat < 2 ^ 22 then 8 else 9)
          else if e = 0 then (if m = 0 then (if x.msb then 3 else 4) else if x.msb then 2 else 5)
          else if x.msb then 1 else 6)))) ∧
  (∀ (rnd x y : Nat), (fdec fp32 x).isNan = true →
    (fadd fp32 rnd x y).1 = 0x7FC00000 ∧ (fadd fp32 rnd y x).1 = 0x7FC00000 ∧
    (fsub fp32 rnd x y).1 = 0x7FC00000 ∧ (fsub fp32 rnd y x).1 = 0x7FC00000 ∧
    (fmul fp32 rnd x y).1 = 0x7FC00000 ∧ (fmul fp32 rnd y x).1 = 0x7FC00000 ∧
    (∀ z, (ffma fp32 rnd x y z).1 = 0x7FC00000 ∧ (ffma fp32 rnd y x z).1 = 0x7FC00000 ∧
      (ffma fp32 rnd y z x).1 = 0x7FC00000) ∧
    (∀ f ∈ [frnd rnd, frcp, frsq, fsqrt rnd, fexp2, flog2, fsin, fcos], (f x).1 = 0x7FC00000 ∧
      (f x).2 = flagIf (fdec fp32 x).isSnan fNV))

/-- R137, R138, R139. The conversions write D in every active lane from the lanes' sources as their rules say: CVT
keeps the bits of D outside the destination part (R118); TEUNPK and the decode form of SCALEX raise no flag. -/
def Obligations.ConversionInstructions : Prop :=
  ∀ (s : State) (k : Nat) (w : Warp), w.sstep = false → ∀ (d a b : Fld) (sub : BitVec 4) (rnd : BitVec 2) (aux : Fld),
    (Issues s k w [a, d] →
      (WritesFp (.cvt d a sub rnd aux) s k w d (fun l => cvtW sub rnd aux (rd w d l).toNat (rd w a l).toNat)) ∧
      (∃ (t : State) (w1 : Warp), exec (.tepack d a aux) s = .next t ∧ Retires s t k w w1 ∧
        WroteReg w w1 d (fun l =>
          if l < teWords (field aux 3 0) then BitVec.ofNat 32 (teImage w a (field aux 3 0) / 2 ^ (32 * l)) else 0) ∧
        w1.p = w.p ∧
        w1.flags = w.flags ||| (teBlock w a (field aux 3 0) 0).2 ||| (teBlock w a (field aux 3 0) 1).2) ∧
      WritesLanes (.teunpk d a aux) s k w d (fun l =>
        BitVec.ofNat 32 (roundVal fp32 0 (teElem (teM (field aux 7 4))
          (teGather w a (field aux 7 4) / 2 ^ (teBits (teM (field aux 7 4)) * (l / 16)) %
            2 ^ teBits (teM (field aux 7 4))) (l % 16))).1) ∧
      (∃ (t : State) (w1 : Warp), exec (.scalex d a b 0 aux) s = .next t ∧ Retires s t k w w1 ∧
        WroteReg w w1 d (fun l => BitVec.ofNat 32
          ((scaleGroup w a (field aux 3 0) (l / 8)).1 * 256 + (scaleGroup w a (field aux 3 0) (l / 8)).2.1.getD (l % 8) 0)) ∧
        w1.p = w.p ∧
        w1.flags = w.flags ||| orFlags ((List.range 4).map (fun g => (scaleGroup w a (field aux 3 0) g).2.2)))) ∧
    (Issues s k w [a, b, d] → sub ≠ 0 →
      WritesLanes (.scalex d a b sub aux) s k w d (fun l =>
        BitVec.ofNat 32 (roundVal fp32 0 (scaledVal ((rd w b l).toNat % 256)
          (elemVal (field aux 3 0) ((rd w a l).toNat % 256)))).1)) ∧
    (∀ (c part : Nat) (x y : Nat), x < 2 ^ 32 → fmtBits c * (part + 1) ≤ 32 →
      partVal c part (partSet c part x y) = y % 2 ^ fmtBits c ∧
      ∀ i, (i < fmtBits c * part ∨ fmtBits c * (part + 1) ≤ i) → (partSet c part x y).testBit i = x.testBit i)

/-- R140, R141. A shuffle gives the value of its source lane where that lane is active, else the lane's own; votes,
ballot and match read the active lanes alone. -/
def Obligations.LaneExchange : Prop :=
  ∀ (s : State) (k : Nat) (w : Warp), w.sstep = false → ∀ (d a b n : Fld),
    let shuf (j : Nat → Int) (l : Nat) : Word :=
      if 0 ≤ j l ∧ j l ≤ 31 ∧ w.act.getLsbD (j l).toNat = true then rd w a (j l).toNat else rd w a l
    (Issues s k w [a, b, d] →
      WritesLanes (.shuf d a b) s k w d (shuf (fun l => ((rd w b l).toNat % 32 : Nat)))) ∧
    (Issues s k w [a, d] →
      WritesLanes (.shufup d a n) s k w d (shuf (fun l => (l : Int) - n.toNat)) ∧
      WritesLanes (.shufdn d a n) s k w d (shuf (fun l => (l : Int) + n.toNat)) ∧
      WritesLanes (.shufx d a n) s k w d (shuf (fun l => ((l ^^^ n.toNat : Nat) : Int))) ∧
      ∃ g : Nat → Word, WritesLanes (.matchLanes d a) s k w d g ∧ ∀ l, w.act.getLsbD l = true →
        ∀ j, (g l).getLsbD j = (w.act.getLsbD j && decide (rd w a j = rd w a l))) ∧
    (Issues s k w [] →
      WritesPred (.voteall d a) s k w d.toNat (fun _ =>
        (lanesOf w.act).all (fun j => (rdP w a.toNat).getLsbD j)) ∧
      WritesPred (.voteany d a) s k w d.toNat (fun _ =>
        (lanesOf w.act).any (fun j => (rdP w a.toNat).getLsbD j))) ∧
    (Issues s k w [d] → WritesLanes (.ballot d a) s k w d (fun _ => w.act &&& rdP w a.toNat)) ∧
    (32 ≤ n.toNat → fieldFault (.shufup d a n) = some 7 ∧ fieldFault (.shufdn d a n) = some 7 ∧
      fieldFault (.shufx d a n) = some 7)

/-- R142. REDUX folds A over the active lanes in ascending order from the lowest one and gives every active lane the
result; SCAN gives each the prefix that ends at it. The step of each operation: the sum modulo 2^32, the signed and unsigned
minimum and maximum, and, or, exclusive or, which raise no flag; the FP32 sum, rounded at each step, with the flags of every
step; the FP32 minimum and maximum, without flags. A floating fold that starts at a NaN starts at the canonical one, with NV
for a signalling one under .fadd. A SUB outside the table is refused with cause 0x06. -/
def Obligations.ReductionAndScan : Prop :=
  (∀ (s : State) (k : Nat) (w : Warp), w.sstep = false → ∀ (d a : Fld) (sub : BitVec 4),
    Issues s k w [a, d] →
      let fadds (x y : Word) : Word × FFlags :=
        (BitVec.ofNat 32 (fadd fp32 0 x.toNat y.toNat).1, (fadd fp32 0 x.toNat y.toNat).2)
      let step (x y : Word) : Word × FFlags := match sub.toNat with
        | 0 => (x + y, 0)
        | 1 => (if x.toInt ≤ y.toInt then x else y, 0)
        | 2 => (if x.toInt ≤ y.toInt then y else x, 0)
        | 3 => (if x.toNat ≤ y.toNat then x else y, 0)
        | 4 => (if x.toNat ≤ y.toNat then y else x, 0)
        | 5 => (x &&& y, 0)
        | 6 => (x ||| y, 0)
        | 7 => (x ^^^ y, 0)
        | 8 => fadds x y
        | 9 => (BitVec.ofNat 32 (fminmax fp32 false x.toNat y.toNat), 0)
        | _ => (BitVec.ofNat 32 (fminmax fp32 true x.toNat y.toNat), 0)
      let first (x : Word) : Word × FFlags :=
        if 8 ≤ sub.toNat ∧ (fdec fp32 x.toNat).isNan = true then
          (0x7FC00000, if sub = 8 ∧ (fdec fp32 x.toNat).isSnan = true then fNV else 0)
        else (x, 0)
      let fold (ls : List Nat) : Word × FFlags := match ls with
        | [] => (0, 0)
        | m :: r => r.foldl (fun acc j => ((step acc.1 (rd w a j)).1, acc.2 ||| (step acc.1 (rd w a j)).2)) (first (rd w a m))
      (sub.toNat ≤ 10 → ∃ t w1, exec (.redux d a sub) s = .next t ∧ Retires s t k w w1 ∧
        WroteReg w w1 d (fun _ => (fold (lanesOf w.act)).1) ∧ w1.p = w.p ∧
        w1.flags = w.flags ||| (fold (lanesOf w.act)).2) ∧
      (sub.toNat ≤ 8 → ∃ t w1, exec (.scan d a sub) s = .next t ∧ Retires s t k w w1 ∧
        WroteReg w w1 d (fun l => (fold ((lanesOf w.act).filter (fun j => decide (j ≤ l)))).1) ∧ w1.p = w.p ∧
        w1.flags = w.flags ||| (fold (lanesOf w.act)).2) ∧
      (sub ≠ 8 → (fold (lanesOf w.act)).2 = 0)) ∧
  (∀ (d a : Fld) (sub : BitVec 4), (10 < sub.toNat → fieldFault (.redux d a sub) = some 6) ∧
    (sub.toNat ≤ 10 → fieldFault (.redux d a sub) = none) ∧
    (8 < sub.toNat → fieldFault (.scan d a sub) = some 6) ∧ (sub.toNat ≤ 8 → fieldFault (.scan d a sub) = none))

/-- R144, R145, R146. A taken branch sends its lanes to the clause at the target and the other active lanes to the
next clause header; CALL and CALLX leave the low half of that header's address in the link register; a register
target takes the upper half of the branching clause's address, and one that is not a multiple of 4 raises fault 0x01. -/
def Obligations.BranchesAndCalls : Prop :=
  ∀ (s : State) (k : Nat) (w : Warp), w.sstep = false → ∀ (d a : Fld) (off : BitVec 24),
    let hdr := (curPC w).hdr
    let target : DWord := BitVec.ofInt 64 (hdr.toNat + 4 * off.toInt)
    let regTo (l : Nat) : DWord := BitVec.ofNat 64 (hdr.toNat / 2 ^ 32 * 2 ^ 32 + (rd w a l).toNat)
    let link : Word := BitVec.ofNat 32 (hdr.toNat + 4 * (w.code.length + 1))
    (Issues s k w [] →
      BranchesTo (.bra off) s k w (fun _ => target) (SameRegs w) ∧
      ∀ (pd : BitVec 3) (pn : BitVec 1), BranchesTo (.brc off pd pn) s k w (fun l =>
        if (rdP w pd.toNat).getLsbD l = (pn == 0) then target else (endPC w).hdr) (SameRegs w)) ∧
    (Issues s k w [d] →
      BranchesTo (.call off d) s k w (fun _ => target) (fun w1 => WroteReg w w1 d (fun _ => link))) ∧
    ((∀ l, w.act.getLsbD l = true → (rd w a l).toNat % 4 = 0) →
      (Issues s k w [a] → BranchesTo (.brx a) s k w regTo (SameRegs w) ∧ BranchesTo (.ret a) s k w regTo (SameRegs w)) ∧
      (Issues s k w [a, d] →
        BranchesTo (.callx d a) s k w regTo (fun w1 => WroteReg w w1 d (fun _ => link)))) ∧
    (∀ m, w.act.getLsbD m = true → (rd w a m).toNat % 4 ≠ 0 →
      (∀ l < m, w.act.getLsbD l = true → (rd w a l).toNat % 4 = 0) →
      (Issues s k w [a] → Does (.brx a) s k w (.fault 1 0 m 0) ∧ Does (.ret a) s k w (.fault 1 0 m 0)) ∧
      (Issues s k w [a, d] → Does (.callx d a) s k w (.fault 1 0 m 0)))

/-- R147, R148, R149. RECONV opens an entry with the active lanes as members, or overflows with 16 entries; at RJOIN
every active lane arrives at its innermost entry, and the arrived threads of the entries that are then complete go on
together after the RJOIN, while the others wait. -/
def Obligations.ReconvergenceWords : Prop :=
  ∀ (s : State) (k : Nat) (w : Warp), w.sstep = false → Issues s k w [] →
    (∀ off : BitVec 24,
      (w.recon.length < 16 → ∃ t w1, exec (.reconv off) s = .next t ∧ OnlyWarp s t k w w1 ∧ GoesOn w w1 ∧
        w1 = { w with threads := w1.threads, act := w1.act, reconNext := w.reconNext + 1,
                      recon := ⟨w.reconNext, brTarget (curPC w).hdr off, w.act, 0⟩ :: w.recon }) ∧
      (16 ≤ w.recon.length → Does (.reconv off) s k w (.fault 0x39 0 ((lowest w.act).getD 0) 0))) ∧
    ((∀ l, w.act.getLsbD l = true → ∃ r, innermost w l = some r ∧ r.join = (curPC w).hdr ∧ outerEntry w l = false) →
      ∃ t w1, exec .rjoin s = .next t ∧ OnlyWarp s t k w w1 ∧
        let here (r : Recon) : Mask := maskWhere w.act (fun l => (innermost w l).map (·.id) == some r.id)
        let after := w.recon.map (fun r => { r with arrived := r.arrived ||| here r })
        let goes (l : Nat) : Bool := after.any (fun r => r.members &&& ~~~r.arrived == 0 && r.arrived.getLsbD l)
        (∀ l, thr w1 l = (thr w l).map (fun x =>
          let y := if w.act.getLsbD l then { x with wait := .rjoin, next := nextPC w, pass1 := false } else x
          if goes l then { y with pc := y.next, wait := .none } else y)) ∧
        w1 = { w with threads := w1.threads, act := 0, cand := 0,
                      recon := after.filter (fun r => r.members &&& ~~~r.arrived != 0) }) ∧
    (∀ m, w.act.getLsbD m = true → (∀ l < m, w.act.getLsbD l = true → rjoinFault w l = none) →
      (innermost w m = none ∨ (∃ r, innermost w m = some r ∧ r.join ≠ (curPC w).hdr) →
        Does .rjoin s k w (.fault 0x3A 0 m 0)) ∧
      (∀ r, innermost w m = some r → r.join = (curPC w).hdr → outerEntry w m = true →
        Does .rjoin s k w (.fault 0x50 0 m 0)))

/-- R150, R151, R149, R201. EXIT ends the active threads, which leave the workgroup's count of threads and the
default counts of its barriers one by one; REFORM files them into bins, or waits where a bin or a frame is missing.
The words are no end of a task, responder or handler, and EXIT is none inside a take. -/
def Obligations.ThreadEnds : Prop :=
  ∀ (s : State) (k : Nat) (w : Warp), w.sstep = false → ∀ a : Fld,
    (Issues s k w [] →
      (isWave w = true → Does .exit s k w (.fault 0x0B 0 (low w) 0)) ∧
      (∀ l, isWave w = false → lowest (w.act &&& members w) = some l → Does .exit s k w (.fault 0x51 0 l 0)) ∧
      (isWave w = false → NoMember w → w.recon = [] → (∃ l x, thr w l = some x ∧ w.act.getLsbD l = false) →
        ∀ g, tget s.wgs w.wg = some g → ∃ t w1, exec .exit s = .next t ∧
          (∀ l, thr w1 l = if w.act.getLsbD l then none else thr w l) ∧ w1.act = 0 ∧ w1.cand = 0 ∧ SameRegs w w1 ∧
          t = { s with
            warps := tput s.warps k w1
            wgs := tput s.wgs w.wg (let g1 := (lanesOf w.act).foldl (fun g _ => barExit (hNbar (hdrOf s w.wg)) g) g
              { g1 with retired := g1.retired + 1 }) } ∧
          (tget t.wgs w.wg).map (·.alive) = some (g.alive - (lanesOf w.act).length))) ∧
    (Issues s k w [a] →
      (isWave w = true → Does (.reform a) s k w (.fault 0x0B 0 (low w) 0)) ∧
      (isWave w = false → w.act &&& members w ≠ 0 → Does (.reform a) s k w (.abort 8)) ∧
      (isWave w = false → NoMember w → (∀ l, w.act.getLsbD l = true → (rd w a l).toNat % 4 = 0) →
        filedPending w w.act = false →
        (fileLanes (issued s k w) (coreOf k) (clearPass w) a w.act = none → ∃ t w1, exec (.reform a) s = .next t ∧
          t = setWarp s k w1 ∧ Placed w w1 (fun _ x => { x with wait := .reform a, next := curPC w })) ∧
        (∀ bins, fileLanes (issued s k w) (coreOf k) (clearPass w) a w.act = some bins →
          Does (.reform a) s k w (.moved (reformLeave (issued s k w) k (clearPass w) bins)))))

/-- R94, R143, R93. A warp whose threads stand together at one clause and wait for nothing takes that clause. Its wait is
applied once: a barrier index, a timeline handle or a future handle that is wrong ends the grid with the fault of its object;
a wait that is not met holds every lane at the header; once it is met the words as fetched become the warp's, the lanes whose
guard bit is 1 are active at its first word, and the others go to the next clause header. A pending register that a wait reads
keeps the warp where it is (R67). R99, R92, R103. A clause that breaks a rule of the encoding ends the grid at that point, with
the first fault in the stated order: the header's 0x01, 0x02, 0x03, 0x0A, then word after word 0x05, 0x04, the others of the
word, 0x09. That the fetch of every word comes before the decoding of any is log 112. R152, R64, R197. NOP and, in a machine
that performs accesses in the order of its steps, FENCE only
retire; SLEEP 0 is a choice point; the lanes of SLEEP n wait until n clocks have passed, or in continuity mode n
retired words, and go on when the clock has come. That FENCE only retires rests on log 8 (one order of accesses);
what a clock is, on log 10. -/
def Obligations.ClausesAndWaits : Prop :=
  (∀ (s : State) (k : Nat) (w : Warp) (hdr : DWord),
    s.issuer = .warp k → tget s.warps k = some w → w.act = 0 → w.cand = 0 → w.held = false → w.threads ≠ [] →
    (∀ e ∈ w.threads, e.1 < 32 ∧ e.2.wait = .none ∧ e.2.pc = ⟨hdr, 0⟩) →
    let n := serialOf w.wg
    let ends (cause fpc faddr : Nat) : Prop := ∃ t, exec .clauseIssue s = .next t ∧
      ∀ g, tget s.grids n = some g → tget t.grids n = none ∧ (∀ e ∈ t.warps, serialOf e.2.wg ≠ n) ∧
        (∀ e ∈ t.wgs, serialOf e.1 ≠ n) ∧
        (lateOf s n = [] → g.desc.getLsbD 3 = false →
          let r := (queueRec t g.queue).record
          field r 6 0 = cause % 128 ∧ field r 319 256 = faddr % 2 ^ 64 ∧ field r 383 320 = fpc % 2 ^ 64)
    (∀ c fpc fa, (∀ ks : Tbl Warp, fetchClause { s with warps := ks } w.wg false hdr = .error (c, fpc, fa)) →
      takeFault c = false ∨ members w = 0 → ends c fpc fa) ∧
    (∀ (h : Header) (ws : List Word),
      (∀ ks : Tbl Warp, fetchClause { s with warps := ks } w.wg false hdr = .ok (h, ws)) →
      let a := h.waitArg.toNat
      let f : Fld := BitVec.ofNat 8 (192 + a)
      let x := rd w f 0
      let ctx := ctxOfWg s w.wg
      let bad : Option Nat :=
        if h.waitKind = 1 ∧ hNbar (hdrOf s w.wg) ≤ a then some 0x40
        else if h.waitKind = 3 ∧ handleOk s ctx x = false then some 0x1C
        else if h.waitKind = 5 ∧ futOk s w.wg x = false then some 0x43 else none
      let met : Prop :=
        (h.waitKind = 1 → ∀ g ph, tget s.wgs w.wg = some g → warpArrival w a = some ph → barDone g a ph = true) ∧
        (h.waitKind = 2 → anyPending w [f] = false) ∧
        (h.waitKind = 3 → 0 ≤ (BitVec.ofNat 32 (handleVal s ctx x) - rd w (f + 1) 0).toInt) ∧
        (h.waitKind = 4 → 0 ≤ (w.arrive - x).toInt) ∧
        (h.waitKind = 5 → (futEntry s ctx x).st = 2)
      let gives (w1 : Warp) : Prop := ∃ t, exec .clauseIssue s = .next t ∧ tget t.warps k = some w1 ∧
        (∀ j, j ≠ k → tget t.warps j = tget s.warps j) ∧ t = { fetchSpent s w.wg with warps := t.warps }
      (anyPending w (headerRegs h) = true → ∃ w1, gives w1 ∧ w1 = { w with threads := w1.threads, cand := liveMask w } ∧
        ∀ l, thr w1 l = (thr w l).map (fun x => { x with passes := 0 })) ∧
      (anyPending w (headerRegs h) = false →
        (∀ c, bad = some c → ends c hdr.toNat 0) ∧
        (bad = none → ¬ met → ∃ w1 arg, gives w1 ∧ headerArg s w h = .ok (some arg) ∧
          w1 = { w with threads := w1.threads } ∧ ∀ l, thr w1 l = (thr w l).map (fun x => { x with
            passes := 0, wait := .header h.waitKind arg, next := ⟨hdr, 0⟩ })) ∧
        (bad = none → met → holdsRjoin ws = false → ∃ w1, gives w1 ∧ w1.code = ws ∧ w1.cand = liveMask w ∧
          (∀ l, w1.act.getLsbD l = ((liveMask w).getLsbD l &&
            (decide (h.guard = 0) || ((rdP w h.guard).getLsbD l != h.gneg)))) ∧
          (∀ l, thr w1 l = (thr w l).map (fun x => { x with
            passes := 0, wait := .none, pc := if w1.act.getLsbD l then ⟨hdr, 1⟩ else ⟨nextHdr hdr ws.length, 0⟩ })) ∧
          w1 = { w with threads := w1.threads, cand := w1.cand, act := w1.act, code := w1.code })))) ∧
  (∀ (s : State) (wg : Nat) (seq : Bool) (pc : DWord),
    (pc.toNat % 4 ≠ 0 → fetchClause s wg seq pc = .error (1, pc.toNat, 0)) ∧
    (pc.toNat % 4 = 0 →
      (∀ c a, fetchWord s wg pc.toNat 0 = .error (c, a) → fetchClause s wg seq pc = .error (c, pc.toNat, a)) ∧
      ∀ x, fetchWord s wg pc.toNat 0 = .ok x → let h := unpackHeader x
        (∀ c, headerFault seq h = some c → fetchClause s wg seq pc = .error (c, pc.toNat, 0)) ∧
        (headerFault seq h = none →
          (∀ c a, fetchWords s wg (pc.toNat + 4) 1 h.count = .error (c, a) → fetchClause s wg seq pc = .error (c, a, a)) ∧
          ∀ ws, fetchWords s wg (pc.toNat + 4) 1 h.count = .ok ws →
            (∀ i c, wordsFault h.cls 1 ws = some (i, c) → fetchClause s wg seq pc = .error (c, pc.toNat + 4 * i, 0)) ∧
            (wordsFault h.cls 1 ws = none → fetchClause s wg seq pc = .ok (h, ws))))) ∧
  (∀ (seq : Bool) (x : Word),
    let check := x.extractLsb' 24 8
    let guard := x.extractLsb' 20 3
    let arg := (x.extractLsb' 12 8).toNat
    let kind := (x.extractLsb' 8 4).toNat
    let cls := (x.extractLsb' 4 3).toNat
    let unused : Prop :=
      (kind = 0 ∧ arg ≠ 0) ∨ (kind = 1 ∧ 32 ≤ arg) ∨ (2 ≤ kind ∧ 64 ≤ arg) ∨ (kind = 3 ∧ arg % 2 = 1)
    let bad : Prop := x.getLsbD 7 = true ∨ cls = 7 ∨ 6 ≤ kind ∨ unused ∨ (x.getLsbD 23 = true ∧ guard = 0) ∨
      (cls = 6 ∧ (1 < kind ∨ guard ≠ 0 ∨ x.getLsbD 23 = true))
    (check ≠ 0xA5 → headerFault seq (unpackHeader x) = some 1) ∧
    (check = 0xA5 → (x.extractLsb' 0 4 = 0 → headerFault seq (unpackHeader x) = some 2) ∧
      (x.extractLsb' 0 4 ≠ 0 → (bad → headerFault seq (unpackHeader x) = some 3) ∧
        (¬ bad → ((cls = 6 ↔ seq = false) → headerFault seq (unpackHeader x) = some 0x0A) ∧
          ((cls = 6 ↔ seq = true) → headerFault seq (unpackHeader x) = none))))) ∧
  (∀ (cls n : Nat) (x : Word) (r : List Word), wordsFault cls n [] = none ∧
    (cls ≠ 6 →
      (laneShape (fOp x) (fD x) = none → wordsFault cls n (x :: r) = some (n, 5)) ∧
      ∀ sh, laneShape (fOp x) (fD x) = some sh → let len := if sh.trail = .none then 1 else 2
        (sh.cls ≠ cls → fOp x ≠ 0x7A → wordsFault cls n (x :: r) = some (n, 4)) ∧
        (sh.cls = cls ∨ fOp x = 0x7A →
          (∀ c, decodeLaneWord x r.head? = .bad c → wordsFault cls n (x :: r) = some (n, c)) ∧
          ∀ i, decodeLaneWord x r.head? = .ok i →
            (sh.term = true → r.drop (len - 1) ≠ [] → wordsFault cls n (x :: r) = some (n, 9)) ∧
            (sh.term = false ∨ r.drop (len - 1) = [] →
              wordsFault cls n (x :: r) = wordsFault cls (n + len) (r.drop (len - 1))))) ∧
    (∀ c, decodeStreamWord x r.head? = .bad c → wordsFault 6 n (x :: r) = some (n, c)) ∧
    (∀ i, decodeStreamWord x r.head? = .ok i →
      let len := if fOp x = 0x48 then 2 else 1
      (streamTerm (fOp x) = true → r ≠ [] → wordsFault 6 n (x :: r) = some (n, 9)) ∧
      (streamTerm (fOp x) = false ∨ r = [] → wordsFault 6 n (x :: r) = wordsFault 6 (n + len) (r.drop (len - 1))))) ∧
  (∀ (s : State) (k : Nat) (w : Warp), w.sstep = false →
    (Issues s k w [] →
      (∀ i : Instr, (i = .nop ∨ ∃ sub scope, i = .fence sub scope) → ∃ t w1, exec i s = .next t ∧
        Retires s t k w w1 ∧ SameRegs w w1 ∧ w1.p = w.p ∧ w1.flags = w.flags) ∧
      (∃ t w1, exec (.sleep 0) s = .next t ∧ OnlyWarp s t k w w1 ∧ Placed w w1 (fun _ x => { x with pc := nextPC w }) ∧
        w1 = { w with threads := w1.threads, act := w1.act, cand := w1.cand }) ∧
      (∀ n : Half, n ≠ 0 → ∃ t w1, exec (.sleep n) s = .next t ∧ OnlyWarp s t k w w1 ∧
        Placed w w1 (fun _ x => { x with
          wait := .sleep (wgClock s (coreOf k) w.wg + n.toNat + if contOfWg s w.wg then 1 else 0), next := nextPC w }) ∧
        w1 = { w with threads := w1.threads, act := w1.act, cand := w1.cand })) ∧
    (tget s.warps k = some w → tsorted w.threads = true → wgRuns s w.wg = true → ∃ t w1, exec (.sleepExpiry k) s = .next t ∧ tget t.warps k = some w1 ∧
      (∀ l < 32, thr w1 l = (thr w l).map (fun x => match x.wait with
        | .sleep u => if u ≤ wgClock s (coreOf k) w.wg then { x with pc := x.next, wait := .none } else x
        | _ => x)) ∧
      w1 = { w with threads := w1.threads } ∧ (∀ j, j ≠ k → tget t.warps j = tget s.warps j) ∧
      t = { s with warps := t.warps }))

/-- R185, R186, R187, R190, R191, R192. Every load from global memory gives each active lane the bytes at the
physical address of its effective address, extended as TY says, and changes nothing but its registers; LDK does so
where nothing has been written since the launch. A load of LM does the same with the bytes of the workgroup that its
address names. R186. What a load of each type makes of the bytes: zero-extended, or sign-extended for .sb8 and .sb16.
That a load reads memory at its own step rests on log 8. -/
def Obligations.Loads : Prop :=
  (∀ (s : State) (k : Nat) (w : Warp), w.sstep = false → PlainMemory s w → ∀ (d base off : Fld) (ty : BitVec 3),
    (∀ (i : Instr) (u : BitVec 3),
      ((i = .ldg d base off ∧ u = 4) ∨ (∃ hint, i = .ldgT d base off hint ty ∧ u = ty) ∨
        (∃ scope, i = .lda d base off scope ty ∧ u = ty) ∨
        (i = .ldk d base off ∧ u = 4 ∧ ∀ g, gridOfWg s w.wg = some g → g.ldk = [])) →
      let pa (l : Nat) : Nat := (gridXlate s w.wg (gAddr w base off (tySize u) l)).1
      (∀ l, w.act.getLsbD l = true →
        MayAccess s w.wg needR (tySize u) (gAddr w base off (tySize u) l) ∧ isFabric (pa l) = false) →
      Issues s k w (if i = .ldk d base off then pair base ++ [d] else pair base ++ regGroup d (tyWords u)) →
        WritesGroup i s k w d (tyWords u) (fun j l => wordOf (tyExt u (memNat s.mem (pa l) (tySize u))) j)) ∧
    (∀ (i : Instr) (u : BitVec 3) (t o : Nat → Nat),
      ((i = .ldl d base off ∧ u = 4) ∨ (i = .ldlT d base off ty ∧ u = ty)) →
      (∀ l, w.act.getLsbD l = true → MayReach s w.wg (tySize u) (lAddr w base off (tySize u) l) (t l) (o l)) →
      Issues s k w (base :: regGroup d (tyWords u)) →
        WritesGroup i s k w d (tyWords u) (fun j l => wordOf (tyExt u (leNat (lmBytes s (t l) (o l) (tySize u)))) j))) ∧
  (∀ x : Nat,
    (x < 2 ^ 8 → tySize 0 = 1 ∧ tyExt 0 x = x ∧ tySize 1 = 1 ∧ tyExt 1 x = if x < 2 ^ 7 then x else 2 ^ 32 - 2 ^ 8 + x) ∧
    (x < 2 ^ 16 → tySize 2 = 2 ∧ tyExt 2 x = x ∧ tySize 3 = 2 ∧
      tyExt 3 x = if x < 2 ^ 15 then x else 2 ^ 32 - 2 ^ 16 + x) ∧
    tySize 4 = 4 ∧ tyExt 4 x = x ∧ tySize 5 = 8 ∧ tyExt 5 x = x ∧ tySize 6 = 16 ∧ tyExt 6 x = x)

/-- R185, R186, R187, R192. A store puts the bytes of each active lane's registers, lowest first, at the physical
address of its effective address, a later lane over an earlier one; every other byte of memory reads as before, and
no register changes; a byte that comes from a register word beyond repair is stored as one (R408). A store to LM does
the same in the LM of the workgroup that its address names, and leaves memory alone. That a store writes memory at its own step rests on log 8. -/
def Obligations.Stores : Prop :=
  ∀ (s : State) (k : Nat) (w : Warp), w.sstep = false → PlainMemory s w → ∀ (d base off : Fld) (ty : BitVec 3),
    (∀ (i : Instr) (u : BitVec 3),
      ((i = .stg d base off ∧ u = 4) ∨ (∃ hint, i = .stgT d base off hint ty ∧ u = ty) ∨
        (∃ scope, i = .strel d base off scope ty ∧ u = ty)) →
      let loc (l : Nat) : Loc := gLoc s w.wg (gAddr w base off (tySize u) l)
      (∀ l, w.act.getLsbD l = true → MayAccess s w.wg needW (tySize u) (gAddr w base off (tySize u) l)) →
      Issues s k w (pair base ++ regGroup d (tyWords u)) →
        ∃ t w1, exec i s = .next t ∧ tget t.warps k = some w1 ∧ GoesOn w w1 ∧ SameRegs w w1 ∧ w1.p = w.p ∧
          w1.flags = w.flags ∧ (∀ a, memByte t.mem a =
            match lastAt (kindOrder loc (lanesOf w.act)) (fun l => (loc l).pa) (tySize u) a with
            | some l => storedByte w d l (a - (loc l).pa)
            | none => memByte s.mem a) ∧
          (∀ a, a ∈ t.poison ↔
            match lastAt (kindOrder loc (lanesOf w.act)) (fun l => (loc l).pa) (tySize u) a with
            | some l => spoiltAt w (d + BitVec.ofNat 8 ((a - (loc l).pa) / 4)) l = true
            | none => a ∈ s.poison) ∧
          t = { s with warps := t.warps, wgs := t.wgs, mem := t.mem, grids := t.grids, poison := t.poison, ctxs := t.ctxs
                       fresh := t.fresh } ∧
          ((∀ l, w.act.getLsbD l = true → isFabric (loc l).pa = false) → OnlyMemory s t k w w1) ∧
          (∀ g, gridOfWg s w.wg = some g → contOfWg s w.wg = false →
            (∃ l, w.act.getLsbD l = true ∧ isFabric (loc l).pa = true) → ∃ g1 x,
              tget t.grids (serialOf w.wg) = some g1 ∧ g1.loads = g.loads ++ [x] ∧ x.store = true ∧ x.warp = k ∧
              x.pend.lines = ((lanesOf w.act).filter (fun l => isFabric (loc l).pa)).map (fun l =>
                (l, (loc l).va, (loc l).pa)))) ∧
    (∀ (i : Instr) (u : BitVec 3) (tg o : Nat → Nat),
      ((i = .stl d base off ∧ u = 4) ∨ (i = .stlT d base off ty ∧ u = ty)) →
      (∀ l, w.act.getLsbD l = true → MayReach s w.wg (tySize u) (lAddr w base off (tySize u) l) (tg l) (o l)) →
      Issues s k w (base :: regGroup d (tyWords u)) →
        ∃ t w1, exec i s = .next t ∧ tget t.warps k = some w1 ∧ (∀ j, j ≠ k → tget t.warps j = tget s.warps j) ∧
          GoesOn w w1 ∧ SameRegs w w1 ∧ w1.p = w.p ∧ w1.flags = w.flags ∧
          t = { s with warps := t.warps, wgs := t.wgs, poison := t.poison } ∧
          ∀ j g, tget s.wgs j = some g → ∃ g1, tget t.wgs j = some g1 ∧
            g1 = { g with lm := g1.lm, retired := g.retired + if j = w.wg then 1 else 0 } ∧
            ∀ x, tgetD 0 g1.lm x =
              match lastAt ((lanesOf w.act).filter (fun l => tg l == j)) o (tySize u) x with
              | some l => storedByte w d l (x - o l)
              | none => tgetD 0 g.lm x)

/-- R193, R194, R195. An atomic gives each active lane the value that its place held and writes what the operation
makes of it, lane after lane; ATOMC writes only where the value is the one that it compares with. No other byte
changes. R195. ATOML does the same in LM, in ascending order of the lanes, and leaves memory alone. R193. The
operations of the atomics on values of b bits: addition modulo 2^b, the bitwise ones, the minimum and the maximum of
the type, exchange, and the wrapping increment and decrement. -/
def Obligations.Atomics : Prop :=
  (∀ (s : State) (k : Nat) (w : Warp), w.sstep = false → PlainMemory s w →
    ∀ (d base off c aux : Fld) (sub : BitVec 4) (scope ty : BitVec 3),
    let n := atomSize ty
    let loc (l : Nat) : Loc := gLoc s w.wg (gAddr w base off n l)
    let run (op : Nat → Nat → Option Nat) : List Host.Cell × Tbl Nat :=
      (kindOrder loc (lanesOf w.act)).foldl (fun x l =>
        let old := memNat x.1 (loc l).pa n
        ((match op l old with
          | some v => memPuts x.1 (loc l).pa (leBytes n v)
          | none => x.1), tput x.2 l old)) (s.mem, [])
    (∀ (i : Instr) (op : Nat → Nat → Option Nat) (regs : List Fld),
      ((i = .atom d base off c sub scope ty ∧ regs = regGroup c (n / 4) ∧
          op = fun l old => some (atomOp sub (atomSigned ty) (8 * n) old (rdSize w c n l))) ∨
        (i = .atomc d base off c scope ty aux ∧ regs = regGroup c (n / 4) ++ regGroup aux (n / 4) ∧
          op = fun l old => if old = rdSize w c n l then some (rdSize w aux n l) else none)) →
      (∀ l, w.act.getLsbD l = true → MayAccess s w.wg needRW n (gAddr w base off n l) ∧ (loc l).ord ≠ 2 ∧
        ((loc l).ord = 1 → isHost (loc l).pa = true → sub = 0 ∨ sub = 6 ∨ i = .atomc d base off c scope ty aux)) →
      let remote : Prop := ∃ l, w.act.getLsbD l = true ∧ isFabric (loc l).pa = true
      Issues s k w (pair base ++ regGroup d (n / 4) ++ regs) →
        ∃ t w1, exec i s = .next t ∧ tget t.warps k = some w1 ∧ GoesOn w w1 ∧ t.mem = (run op).1 ∧ w1.p = w.p ∧
          w1.flags = w.flags ∧
          (∀ a, (∀ l, w.act.getLsbD l = true → a < (loc l).pa ∨ (loc l).pa + n ≤ a) →
            memByte t.mem a = memByte s.mem a) ∧
          (¬ remote → OnlyMemory s t k w w1) ∧
          (¬ remote ∨ contOfWg s w.wg = true →
            WroteGroup w w1 d (n / 4) (fun j l => wordOf (tgetD 0 (run op).2 l) j)) ∧
          (remote → contOfWg s w.wg = false →
            SameRegs w w1 ∧ ∀ j < n / 4, anyPending w1 [d + BitVec.ofNat 8 j] = true))) ∧
  (∀ (s : State) (k : Nat) (w : Warp), w.sstep = false → PlainMemory s w →
    ∀ (d base off c : Fld) (sub : BitVec 4) (ty : BitVec 3) (tg o : Nat → Nat),
    let n := atomSize ty
    let run : State × Tbl Nat := (lanesOf w.act).foldl (fun x l =>
      let old := leNat (lmBytes x.1 (tg l) (o l) n)
      (lmStore x.1 (tg l) (o l) (leBytes n (atomOp sub (atomSigned ty) (8 * n) old (rdSize w c n l))), tput x.2 l old))
      (s, [])
    (∀ l, w.act.getLsbD l = true → MayReach s w.wg n (lAddr w base off n l) (tg l) (o l)) →
    Issues s k w (base :: regGroup d (n / 4) ++ regGroup c (n / 4)) →
      ∃ t w1, exec (.atoml d base off c sub ty) s = .next t ∧ tget t.warps k = some w1 ∧ GoesOn w w1 ∧
        WroteGroup w w1 d (n / 4) (fun j l => wordOf (tgetD 0 run.2 l) j) ∧ w1.p = w.p ∧ w1.flags = w.flags ∧
        (∀ j, (tget t.wgs j).map (·.lm) = (tget run.1.wgs j).map (·.lm)) ∧
        t = { s with warps := t.warps, wgs := t.wgs, poison := t.poison }) ∧
  (∀ (b old v : Nat), (b = 32 ∨ b = 64) → old < 2 ^ b → v < 2 ^ b → ∀ sg : Bool,
    let x : BitVec b := BitVec.ofNat b old
    let y : BitVec b := BitVec.ofNat b v
    atomOp 0 sg b old v = (x + y).toNat ∧ atomOp 1 sg b old v = (x &&& y).toNat ∧
    atomOp 2 sg b old v = (x ||| y).toNat ∧ atomOp 3 sg b old v = (x ^^^ y).toNat ∧
    atomOp 4 false b old v = min old v ∧ atomOp 5 false b old v = max old v ∧
    (BitVec.ofNat b (atomOp 4 true b old v)).toInt = min x.toInt y.toInt ∧
    (BitVec.ofNat b (atomOp 5 true b old v)).toInt = max x.toInt y.toInt ∧
    atomOp 6 sg b old v = v ∧
    atomOp 7 sg b old v = (if v ≤ old then 0 else old + 1) ∧
    atomOp 8 sg b old v = (if old = 0 ∨ v < old then v else old - 1))

/-- R178, R169, R196. FATOM changes no memory and no register: each active lane's add joins the deferred adds of its grid,
the lanes whose pages are of kind 01 first and each kind in ascending order, while the spill area has room. R67, R68, R334,
R341. A load that goes to fabric memory leaves its
registers as they are and makes them pending; a word that reads or writes a pending register does not issue; when the
write completes in time, its lanes hold its values and it is no longer outstanding, and the last write of a load notes the
load's latency for its measurement; one that has not come back within 20 µs
ends its grid with cause 0x1E. How many adds the L2 holds is the free value of log 11. -/
def Obligations.DeferredAddsAndPendingWrites : Prop :=
  (∀ (s : State) (k : Nat) (w : Warp), w.sstep = false → NoMember w → tsorted s.grids = true →
    ∀ (base off c : Fld) (sub : BitVec 4) (ty : BitVec 3) (g : Grid), gridOfWg s w.wg = some g →
    (∀ l, w.act.getLsbD l = true → MayAccess s w.wg needRW 4 (gAddr w base off 4 l) ∧
      (gridXlate s w.wg (gAddr w base off 4 l)).2 ≠ 2) →
    spilledAdds s g.ctx + 32 ≤ field g.desc 735 704 * 128 →
    Issues s k w (pair base ++ [c]) →
      ∃ t w1, exec (.fatom base off c sub ty) s = .next t ∧ tget t.warps k = some w1 ∧ GoesOn w w1 ∧ SameRegs w w1 ∧
        t = { s with warps := t.warps, wgs := t.wgs, grids := t.grids } ∧
        (∀ n, n ≠ serialOf w.wg → tget t.grids n = tget s.grids n) ∧
        let made := (kindOrder (fun l => gLoc s w.wg (gAddr w base off 4 l)) (lanesOf w.act)).map (fun l =>
          (⟨((thr w l).map addName).getD ⟨w.wg, false, 0, false⟩, (gridXlate s w.wg (gAddr w base off 4 l)).1, ty.toNat,
            rd w c l, true⟩ : DAdd))
        tget t.grids (serialOf w.wg) = some { g with adds := g.adds ++ made }) ∧
  (∀ (s : State) (k : Nat) (w : Warp),
    (w.sstep = false → PlainMemory s w → ∀ (d base off : Fld) (i : Instr) (u : BitVec 3),
      ((i = .ldg d base off ∧ u = 4) ∨ (∃ hint, i = .ldgT d base off hint u) ∨ (∃ scope, i = .lda d base off scope u) ∨
        (i = .ldk d base off ∧ u = 4)) →
      let pa (l : Nat) : Nat := (gridXlate s w.wg (gAddr w base off (tySize u) l)).1
      (∀ l, w.act.getLsbD l = true → MayAccess s w.wg needR (tySize u) (gAddr w base off (tySize u) l)) →
      (∃ l, w.act.getLsbD l = true ∧ isFabric (pa l) = true) →
      Issues s k w (if i = .ldk d base off then pair base ++ [d] else pair base ++ regGroup d (tyWords u)) →
        (contOfWg s w.wg = false → ∃ t w1, exec i s = .next t ∧ tget t.warps k = some w1 ∧ GoesOn w w1 ∧ SameRegs w w1 ∧
          (∀ j < tyWords u, anyPending w1 [d + BitVec.ofNat 8 j] = true) ∧ (∀ a, memByte t.mem a = memByte s.mem a)) ∧
        (contOfWg s w.wg = true → ∃ t w1, exec i s = .next t ∧ tget t.warps k = some w1 ∧
          GoesOn w w1 ∧ (∀ a, memByte t.mem a = memByte s.mem a) ∧
          ((∀ g, gridOfWg s w.wg = some g → g.ldk = []) → WroteGroup w w1 d (tyWords u) (fun j l =>
            wordOf (tyExt u (memNat s.mem (pa l) (tySize u))) j)))) ∧
    (∀ (regs : List Fld) (body : State → Nat → Warp → Eff), s.issuer = .warp k → tget s.warps k = some w →
      anyPending w regs = true → laneWord s regs body = .next s) ∧
    (∀ (e : Pend) (id : Nat), tget s.warps k = some w → w.pend.find? (fun x => x.id == id && !x.token) = some e →
      lateAccess s k e = false →
      let last : Bool := e.fabric && w.pend.all (fun x => x.id == id || x.load != e.load)
      let c := coreOf k
      ∃ w1, exec (.pendingWriteCompletion k id) s = .next { setWarp s k w1 with
          done := s.done ++ if last then [⟨ctxOfWg s w.wg, remoteEngine c, 0, cycleOf s (dieOf c) - e.issued, dieOf c, c % 64,
            serialOf w.wg, wgNumber w.wg, confOf s w.wg⟩] else [] } ∧
        w1.pend = w.pend.filter (fun x => x.id != id) ∧ (w.take = none → w1.take = none) ∧
        w1.threads = w.threads ∧ w1.p = w.p ∧ w1.flags = w.flags ∧
        (∀ f l, f ≠ e.reg → l < 32 → rd w1 f l = rd w f l) ∧
        (e.reg.toNat < 192 → ∀ l < 32, rd w1 e.reg l =
          if e.lanes.getLsbD l && (liveMask w).getLsbD l && !e.dead.getLsbD l then tgetD 0 e.vals l
          else rd w e.reg l) ∧
        (192 ≤ e.reg.toNat → ∀ m l, lowest (e.lanes &&& ~~~e.dead) = some m → l < 32 →
          rd w1 e.reg l = tgetD 0 e.vals m)) ∧
    (∀ (n id : Nat) (g : Grid) (x : Loose), tget s.warps k = none → looseOf s k id = some (n, g, x) →
      looseLate s k x = false → ∃ t, exec (.pendingWriteCompletion k id) s = .next t ∧
        t = { s with grids := t.grids, done := t.done } ∧
        tget t.grids n = some { g with loads := g.loads.filter (fun y => y.pend.id != id) } ∧
        ∀ m, m ≠ n → tget t.grids m = tget s.grids m) ∧
    (lateLoads s k = [] → lateCopy s k = none → exec (.remoteTimeout k) s = .next s) ∧
    (∀ (e : Pend) (id : Nat), tget s.warps k = some w → w.pend.find? (fun x => x.id == id && !x.token) = some e →
      ctxStopped s (ctxOfWg s w.wg) = false → lateAccess s k e = true →
        exec (.pendingWriteCompletion k id) s = .next (endGrid s (serialOf w.wg) (lateBlame k w.wg w.kind e))) ∧
    (∀ (e : Pend) (g : Grid), tget s.warps k = some w → ctxStopped s (ctxOfWg s w.wg) = false →
      latePends s k w.pend = [e] → (∀ x ∈ s.grids, ∀ y ∈ x.2.loads, y.warp ≠ k) → tsorted s.grids = true →
      tget s.grids (serialOf w.wg) = some g →
        exec (.remoteTimeout k) s = .next (endGrid s (serialOf w.wg) (lateBlame k w.wg w.kind e)) ∧
        tget (endGrid s (serialOf w.wg) (lateBlame k w.wg w.kind e)).grids (serialOf w.wg) = none ∧
        (lateBlame k w.wg w.kind e).cause = 0x1E ∧ (lateBlame k w.wg w.kind e).fpc = e.pc.toNat ∧
        ∀ l va pa r, e.lines = (l, va, pa) :: r →
          (lateBlame k w.wg w.kind e).faddr = va ∧ (lateBlame k w.wg w.kind e).lane = l))

/-- R198, R200, R201. An arrival counts at its barrier; the arrival that reaches the count completes the phase: the
phase number rises, the arrivals return to 0 and the workgroup's phase of R56 ends. No other barrier changes. R198,
R199, R200. The barrier words on an index that the workgroup has: BARINIT sets the count, ARRIVE counts the active
lanes, WAIT waits for the phases in which its lanes have arrived, SYNC does both. An index at or above NBAR raises
0x40, and a BARINIT against its rules 0x41. -/
def Obligations.BarrierWords : Prop :=
  (∀ (g : Workgroup) (n : Nat), let b := barOf g n
    (b.arrived + 1 < b.count → barOf (barArrive g n) n = { b with arrived := b.arrived + 1 } ∧
      (barArrive g n).phase = g.phase) ∧
    (b.count ≤ b.arrived + 1 → barOf (barArrive g n) n = { b with arrived := 0, phase := b.phase + 1, initBy := none } ∧
      (barArrive g n).phase = g.phase + 1 ∧ barDone (barArrive g n) n b.phase = true) ∧
    (∀ m, m ≠ n → barOf (barArrive g n) m = barOf g m) ∧
    barArrive g n = { g with bars := (barArrive g n).bars, phase := (barArrive g n).phase }) ∧
  (∀ (s : State) (k : Nat) (w : Warp) (g : Workgroup) (a n : Fld), tget s.wgs w.wg = some g →
    let s1 := issued s k w
    let w1 := clearPass w
    let v := rd w a (low w)
    (n.toNat < hNbar (hdrOf s w.wg) →
      (Issues s k w [a] →
        (1 ≤ v.toNat ∧ v.toNat ≤ 1025 ∧ (barOf g n.toNat).arrived = 0 ∧
            ((barOf g n.toNat).initBy = none ∨ (barOf g n.toNat).initBy = some w.age) →
          let b : Barrier := { barOf g n.toNat with count := v.toNat, deflt := false, initBy := some w.age }
          Does (.barinit a n) s k w (.next (setWg s1 w.wg { g with bars := tput g.bars n.toNat b }))) ∧
        (v.toNat = 0 ∨ 1025 < v.toNat ∨ (barOf g n.toNat).arrived ≠ 0 ∨
            (∃ x, (barOf g n.toNat).initBy = some x ∧ x ≠ w.age) →
          Does (.barinit a n) s k w (.fault 0x41 0 (low w) 0))) ∧
      (Issues s k w [] →
        let after := arriveAll g w1 n.toNat
        Does (.bara n) s k w (.next (setWarp (setWg s1 w.wg after.1) k after.2)) ∧
        (barWaiters g w1 n.toNat = 0 → Does (.barw n) s k w (.next s1)) ∧
        (barWaiters g w1 n.toNat ≠ 0 →
          Does (.barw n) s k w (waits s1 k w1 w1 (barWaiters g w1 n.toNat) (.bar n.toNat))) ∧
        (barWaiters after.1 after.2 n.toNat = 0 →
          Does (.bars n) s k w (.next (setWarp (setWg s1 w.wg after.1) k after.2))) ∧
        (barWaiters after.1 after.2 n.toNat ≠ 0 →
          Does (.bars n) s k w
            (waits (setWg s1 w.wg after.1) k w1 after.2 (barWaiters after.1 after.2 n.toNat) (.bar n.toNat))))) ∧
    (hNbar (hdrOf s w.wg) ≤ n.toNat →
      (Issues s k w [a] → Does (.barinit a n) s k w (.fault 0x40 0 (low w) 0)) ∧
      (Issues s k w [] → Does (.bara n) s k w (.fault 0x40 0 (low w) 0) ∧
        Does (.barw n) s k w (.fault 0x40 0 (low w) 0) ∧ Does (.bars n) s k w (.fault 0x40 0 (low w) 0))))

/-- R62, R211, R212. RWRITE deposits each active lane's value in the register of the thread that its operand names,
and the target warp's arrival counter rises; RWAIT waits until the counter has reached its operand; RCOUNT reads it.
R49, R50, R51, R213. CLAIM gives the warp granules that read zero where the pool has frames and nobody waits, and
waits in order otherwise; GIVE takes them away; a mask that is wrong raises 0x07, a granule held or requested
already, or not held, 0x31, and either word in a take aborts it. A word that names a register of a granule not held
raises 0x30. R56, R57, R214. A write of a block-uniform register takes effect for its own warp at once and for every
reader once the phase has ended; between, another reader may see any value that the register has had in the phase; a
second warp's write in one phase raises 0x32. A granule that is already requested counts as held by log 29; a racing
read of a block-uniform register is the free value of log 2. -/
def Obligations.RegistersOfWarps : Prop :=
  (∀ (s : State) (k : Nat) (w : Warp) (n a b d : Fld),
    let s1 := issued s k w
    let x := rd w a (low w)
    (∀ tg : Nat → Nat × Nat, NoMember w → Issues s k w [a, b] →
      (∀ l, w.act.getLsbD l = true → rwTarget s1 w.wg n (rd w a l) = .ok (tg l)) →
      Does (.rwrite n a b) s k w
        (.next (rwDeposit s1 n ((lanesOf w.act).map (fun l => ((tg l).1, (tg l).2, rd w b l)))))) ∧
    (∀ (j l : Nat) (v : Word) (u : Warp), tget s.warps j = some u → u.take = none → n.toNat < 192 → l < 32 →
      ∃ u1, tget (rwDeposit s n [(j, l, v)]).warps j = some u1 ∧ u1.arrive = u.arrive + 1 ∧ rd u1 n l = v ∧
        (∀ f m, m < 32 → (f ≠ n ∨ m ≠ l) → rd u1 f m = rd u f m) ∧
        (∀ i, i ≠ j → tget (rwDeposit s n [(j, l, v)]).warps i = tget s.warps i)) ∧
    (Issues s k w [a] →
      (0 ≤ (w.arrive - x).toInt → Does (.rwait a) s k w (.next s1)) ∧
      ((w.arrive - x).toInt < 0 → w.act ≠ 0 →
        Does (.rwait a) s k w (waits s1 k (clearPass w) (clearPass w) w.act (.arrive x)))) ∧
    (w.sstep = false → Issues s k w [d] → WritesLanes (.rcount d) s k w d (fun _ => w.arrive))) ∧
  (∀ (s : State) (k : Nat) (w : Warp) (m : Fld),
    let s1 := issued s k w
    let w1 := clearPass w
    let g : BitVec 4 := m.extractLsb' 0 4
    let cr := coreRec s (coreOf k)
    (Issues s k w [] →
      (w.take.isSome = true → Does (.claim m) s k w (.abort 8) ∧ Does (.give m) s k w (.abort 8)) ∧
      (w.take = none → m = 0 ∨ 16 ≤ m.toNat →
        Does (.claim m) s k w (.fault 7 0 (low w) 0) ∧ Does (.give m) s k w (.fault 7 0 (low w) 0)) ∧
      (w.take = none → 0 < m.toNat → m.toNat < 16 →
        (g &&& (w.claimed ||| requested s k) ≠ 0 → Does (.claim m) s k w (.fault 0x31 0 (low w) 0)) ∧
        (g &&& ~~~w.claimed ≠ 0 → Does (.give m) s k w (.fault 0x31 0 (low w) 0)) ∧
        (g &&& (w.claimed ||| requested s k) = 0 →
          (cr.claims = [] → framesUsed s1 (coreOf k) + granules g ≤ 128 → w.sstep = false →
            ∃ t w2, exec (.claim m) s = .next t ∧ OnlyWarp s t k w w2 ∧ GoesOn w w2 ∧ w2.claimed = w.claimed ||| g ∧
              (∀ f l, l < 32 → rd w2 f l = if inGranules g f.toNat then 0 else rd w f l)) ∧
          (cr.claims ≠ [] ∨ 128 < framesUsed s1 (coreOf k) + granules g →
            Does (.claim m) s k w (.parked (setWarp (setCore s1 (coreOf k)
              { cr with claims := cr.claims ++ [(k * 2 ^ 32 + w.act.toNat, g)] }) k
              (beginWait w1 w.act .claim (nextPC w)))))) ∧
        (g &&& ~~~w.claimed = 0 → w.pend.any (fun e => inGranules g e.reg.toNat) = false →
          Does (.give m) s k w (.next (grantAll (setWarp s1 k
            { w1 with
              claimed := w.claimed &&& ~~~g, v := zeroGranules w.v g
              spoilt := w.spoilt.filter (fun p => !inGranules g (p / 32)) }) (coreOf k)))))) ∧
    (∀ (regs : List Fld) (body : State → Nat → Warp → Eff), s.issuer = .warp k → tget s.warps k = some w →
      anyPending w regs = false → abpLanes s w = 0 →
      (∃ f ∈ regs, 64 ≤ f.toNat ∧ f.toNat < 192 ∧ w.claimed.getLsbD ((f.toNat - 64) / 32) = false) →
      laneWord s regs body = .next (faultLane s k w ((lowest w.act).getD 0) 0x30 0 0 (wordAddr (curPC w))))) ∧
  (∀ (s : State) (k : Nat) (w : Warp) (g : Workgroup) (d a : Fld), tget s.wgs w.wg = some g →
    (Issues s k w [a] → NoMember w →
      ((∀ b, tget g.b d.toNat = some b → b.phase = g.phase → b.writer = w.age) →
        Does (.bmovWrite d a) s k w (.next (setWg (issued s k w) w.wg (bPut g d.toNat w.age (rd w a (low w)))))) ∧
      (∀ b, tget g.b d.toNat = some b → b.phase = g.phase → b.writer ≠ w.age →
        Does (.bmovWrite d a) s k w (.fault 0x32 0 (low w) 0))) ∧
    (∀ (n age : Nat) (v : Word), bOptions (bPut g n age v) n (some age) = [v] ∧
      (∀ reader, bOptions { bPut g n age v with phase := g.phase + 1 } n reader = [v]) ∧
      (∀ reader, v ∈ bOptions (bPut g n age v) n reader) ∧
      (∀ m reader, m ≠ n → bOptions (bPut g n age v) m reader = bOptions g m reader)) ∧
    (w.sstep = false → Issues s k w [d] → ∃ t w1 v, exec (.bmovRead d a) s = .next t ∧
      v ∈ bOptions g a.toNat (some w.age) ∧ tget t.warps k = some w1 ∧ GoesOn w w1 ∧ WroteReg w w1 d (fun _ => v) ∧
      t = { s with warps := t.warps, wgs := t.wgs, choices := t.choices, ctxs := t.ctxs }))

/-- R164, R210. In compatibility mode TLBLOCK records a region of the workgroup with the first pages of it that it
locks, at most 16 in all, and TLBUNLK removes the regions that start at its address; outside that mode both raise
0x17. -/
def Obligations.LockedTranslations : Prop :=
  ∀ (s : State) (k : Nat) (w : Warp) (x : Workgroup) (g : Grid) (a b : Fld),
    tget s.wgs w.wg = some x → gridOfWg s w.wg = some g →
    let s1 := issued s k w
    let va := (rd64 w a (low w)).toNat
    let n := (rd w b (low w)).toNat
    (g.desc.getLsbD 2 = false →
      (Issues s k w (pair a ++ [b]) → Does (.tlblock a b) s k w (.fault 0x17 0 (low w) 0)) ∧
      (Issues s k w (pair a) → Does (.tlbunlk a) s k w (.fault 0x17 0 (low w) 0))) ∧
    (g.desc.getLsbD 2 = true → NoMember w →
      (Issues s k w (pair a ++ [b]) → va < 2 ^ 57 → va + n ≤ 2 ^ 57 →
        (n = 0 → Does (.tlblock a b) s k w (.next s1)) ∧
        (n ≠ 0 → covered g (fun _ => true) va n = false → Does (.tlblock a b) s k w (.fault 0x15 va (low w) 0)) ∧
        (n ≠ 0 → covered g (fun _ => true) va n = true →
          Does (.tlblock a b) s k w (.next (setWg s1 w.wg { x with locked := x.locked ++
            [⟨va, n, regionPages g (va + n) 20 (16 - (x.locked.flatMap (·.pages)).length) va⟩] })))) ∧
      (Issues s k w (pair a) → Does (.tlbunlk a) s k w (.next (setWg s1 w.wg { x with
        locked := x.locked.filter (fun r => decide (r.start ≠ va)) }))))

/-- R202, R203, R204, R205. A copy word whose checks find nothing starts one copy: ACOPY moves a run of bytes, or
with .t the elements of rows at a pitch to columns in turn; BCOPY a tile or a whole tensor of a shape record; GATHER
a run of bytes for each active lane. R202, R203, R181. A copy that starts outside continuity mode takes the next
number of its counter and makes its token pending, and no byte changes; when it completes its bytes are read, all
sources before any write, and written in order; its token holds the number, and it is in flight no longer. -/
def Obligations.Copies : Prop :=
  (∀ (s : State) (k : Nat) (w : Warp) (d a b c : Fld) (sub : BitVec 4) (ty : BitVec 3),
    NoMember w → (coreRec s (coreOf k)).copies.length < 512 →
    let s1 := issued s k w
    let w1 := clearPass w
    let l := low w
    let starts (i : Instr) (handle : Nat) (ms : List Move) : Prop :=
      Does i s k w (.next (startCopy s1 k w1 d handle ms)) ∧
      (w.sstep = false → contOfWg s w.wg = false → ∃ t w2 x, exec i s = .next t ∧ tget t.warps k = some w2 ∧
        GoesOn w w2 ∧ SameRegs w w2 ∧ w2.p = w.p ∧ w2.flags = w.flags ∧ anyPending w2 [d] = true ∧
        (coreRec t (coreOf k)).copies = (coreRec s (coreOf k)).copies ++ [x] ∧
        x.moves = ms ∧ x.handle = handle ∧ x.token = d ∧ x.n = (tlOf s (ctxOfWg s w.wg) handle).issued + 1 ∧
        (∀ a, memByte t.mem a = memByte s.mem a) ∧
        t = { s with warps := t.warps, wgs := t.wgs, cores := t.cores, ctxs := t.ctxs, fresh := t.fresh })
    let toG : Bool := sub.toNat % 4 == 1
    let fromG : Bool := sub.toNat % 4 == 0
    let dst : Side := ⟨!toG, if toG then (rd64 w a l).toNat else (rd w a l).toNat⟩
    let src : Side := ⟨!fromG, if fromG then (rd64 w b l).toNat else (rd w b l).toNat⟩
    let inRange : Prop := (toG = true → dst.at_ < 2 ^ 57) ∧ (fromG = true → src.at_ < 2 ^ 57)
    let regsA := if toG then pair a else [a]
    let regsB := if fromG then pair b else [b]
    (sub.getLsbD 2 = false → Issues s k w ([d] ++ regsA ++ regsB ++ [c]) → inRange →
      let n := (rd w c l).toNat
      n % 16 = 0 → 16 ≤ n → n ≤ 1048576 → dst.at_ % 16 = 0 → src.at_ % 16 = 0 →
      sidesBad s1 w.wg dst src [(0, n)] [(0, n)] [] = none →
        starts (.acopy d a b c sub ty) (queueHandle k) ((List.range n).map (fun i =>
          ⟨sideLoc s1 w.wg dst i, some (sideLoc s1 w.wg src i), 0⟩))) ∧
    (sub.getLsbD 2 = true → Issues s k w ([d] ++ regsA ++ regsB ++ pair c) → inRange →
      let e := 2 ^ ty.toNat
      let nr := (rd w c l).toNat % 256 + 1
      let nc := (rd w c l).toNat / 256 % 256 + 1
      let pitch := (rd w (c + 1) l).toNat
      (rd w c l).toNat < 2 ^ 16 → pitch % e = 0 → nc * e ≤ pitch → dst.at_ % e = 0 → src.at_ % e = 0 →
      sidesBad s1 w.wg dst src [(0, nr * nc * e)] ((List.range nr).map (fun r => (r * pitch, nc * e))) [] = none →
        starts (.acopy d a b c sub ty) (queueHandle k) ((List.range nr).flatMap (fun r => (List.range nc).flatMap (fun q =>
          (List.range e).map (fun i =>
            ⟨sideLoc s1 w.wg dst ((q * nr + r) * e + i), some (sideLoc s1 w.wg src (r * pitch + q * e + i)), 0⟩))))) ∧
    (Issues s k w ([d] ++ pair b) →
      let r := shReg s w.wg a.toNat
      let n := unitBytes (shFmt r)
      let ten : Side := ⟨false, shBase r⟩
      shapeBad r = false → shScale r = 0 →
      (sub.getLsbD 1 = true → shTrans r = false →
        let im : Side := ⟨false, (rd64 w b l).toNat⟩
        let us := bulkUnits r
        im.at_ < 2 ^ 57 →
        (sub.getLsbD 0 = false →
          sidesBad s1 w.wg im ten [(0, us.length * n)] (us.map (fun u => (u.2, n))) [] = none →
          starts (.bcopy d a b sub) (bulkHandle k) (sideMoves s1 w.wg im ten (us.map (fun u => (u.1, u.2, n))))) ∧
        (sub.getLsbD 0 = true →
          sidesBad s1 w.wg ten im (us.map (fun u => (u.2, n))) [(0, us.length * n)] [] = none →
          starts (.bcopy d a b sub) (bulkHandle k) (sideMoves s1 w.wg ten im (us.map (fun u => (u.2, u.1, n)))))) ∧
      (sub.getLsbD 1 = false → (shTrans r = true → isTE (shFmt r) = false) →
        let lm : Side := ⟨true, (rd w b l).toNat⟩
        let o := (rd w (b + 1) l).toNat
        let us := tileUnits r (o % 2 ^ 16) (o / 2 ^ 16)
        (isTE (shFmt r) = true → o % 16 = 0) →
        (sub.getLsbD 0 = false →
          sidesBad s1 w.wg lm ten [(0, us.length * n)] ((us.filter (·.2.2)).map (fun u => (u.2.1, n))) [] = none →
          starts (.bcopy d a b sub) (queueHandle k) (tileMoves s1 w.wg false lm ten n us)) ∧
        (sub.getLsbD 0 = true →
          sidesBad s1 w.wg ten lm ((us.filter (·.2.2)).map (fun u => (u.2.1, n))) [(0, us.length * n)] [] = none →
          starts (.bcopy d a b sub) (queueHandle k) (tileMoves s1 w.wg true lm ten n us)))) ∧
    (Issues s k w ([d, a] ++ pair b ++ [c]) →
      let n := 4 * 2 ^ ty.toNat
      let lm : Side := ⟨true, (rd w a l).toNat⟩
      let stride := (rd w c l).toNat
      (∀ x, w.act.getLsbD x = true → (rd64 w b x).toNat < 2 ^ 57 ∧ (rd64 w b x).toNat % n = 0) →
      lm.at_ % 4 = 0 → stride % 4 = 0 →
      sideLmBad s1 w.wg lm ((lanesOf w.act).map (fun x => (x * stride, n))) = none →
      sideGlobalBad s1 w.wg needR ((lanesOf w.act).map (fun x => ((rd64 w b x).toNat, n))) = none →
        starts (.gather d a b c ty) (queueHandle k) ((lanesOf w.act).flatMap (fun y => (List.range n).map (fun i =>
          ⟨sideLoc s1 w.wg lm (y * stride + i), some (gLoc s1 w.wg ((rd64 w b y).toNat + i)), 0⟩))))) ∧
  ((∀ (s : State) (k : Nat) (w : Warp) (d : Fld) (handle : Nat) (ms : List Move),
    contOfWg s w.wg = false →
    let ctx := ctxOfWg s w.wg
    let t := startCopy s k w d handle ms
    (tlOf t ctx handle) = { tlOf s ctx handle with issued := (tlOf s ctx handle).issued + 1 } ∧
    (∀ a, memByte t.mem a = memByte s.mem a) ∧ t.wgs = s.wgs ∧
    (∃ w1, tget t.warps k = some w1 ∧ anyPending w1 [d] = true ∧ SameRegs w w1) ∧
    ∃ x, (coreRec t (coreOf k)).copies = (coreRec s (coreOf k)).copies ++ [x] ∧ x.n = (tlOf s ctx handle).issued + 1 ∧
      x.moves = ms ∧ x.wg = w.wg ∧ x.token = d) ∧
  (∀ (s : State) (c id : Nat) (x : Copy),
    s.cores.findSome? (fun e => (e.2.copies.find? (fun x => x.id == id)).map (fun x => (e.1, x))) = some (c, x) →
    (copyBad s c x = none →
      exec (.asyncCopyCompletion id) s = .next (measureOp (copyLand s c x) x.wg x.handle x.issued)) ∧
    (∀ cause a, copyBad s c x = some (cause, a) →
      exec (.asyncCopyCompletion id) s = .next (copyFault s x cause a))) ∧
  (∀ (s : State) (w : Warp) (wg : Nat) (ms : List Move), PlainMemory s w → (∀ m ∈ ms, m.dst.lm = false) →
    let t := performMoves s wg ms
    let val (m : Move) : Byte := match m.src with
      | none => m.fill
      | some l => if l.lm then (lmBytes s l.wg l.va 1).headD 0 else memByte s.mem l.pa
    t.wgs = s.wgs ∧ ∀ a, memByte t.mem a = match ms.reverse.find? (fun m => m.dst.pa == a) with
      | some m => val m
      | none => memByte s.mem a) ∧
  (∀ (s : State) (k : Nat) (w : Warp) (x : Copy), tget s.warps k = some w → w.take = none →
    w.pend.any (fun p => p.id == x.pendId) = true → ∃ w1, tget (tokenDone s x).warps k = some w1 ∧
      w1.pend = w.pend.filter (fun p => p.id != x.pendId) ∧
      (192 ≤ x.token.toNat → ∀ l, rd w1 x.token l = BitVec.ofNat 32 x.n) ∧
      (∀ f l, f ≠ x.token → 192 ≤ x.token.toNat → rd w1 f l = rd w f l)))

/-- R179, R180, R206, R207. TOKCLR clears a token; TLREAD gives each active lane the count of the timeline that its
handle names, and TLWAIT waits until a count has been reached; a handle that names none raises 0x1C. R157, R208,
R209. STASHMAP maps a region of global memory on a range of LM with no line filled, or unmaps the region that starts
there; STASHWB writes the dirty lines of a range back; STASHINV gives its lines up. -/
def Obligations.TimelinesAndStash : Prop :=
  (∀ (s : State) (k : Nat) (w : Warp) (d a b : Fld),
    let ctx := ctxOfWg s w.wg
    let h := rd w a (low w)
    let v := rd64 w b (low w)
    (w.sstep = false → Issues s k w [d] → WritesLanes (.tokclr d) s k w d (fun _ => 0)) ∧
    (w.sstep = false → Issues s k w ([a] ++ pair d) → odd d = false →
      (∀ l, w.act.getLsbD l = true → handleOk s ctx (rd w a l) = true) →
      WritesPair (.tlread d a) s k w d (fun l => BitVec.ofNat 64 (handleVal s ctx (rd w a l)))) ∧
    (∀ m, Issues s k w ([a] ++ pair d) → w.act.getLsbD m = true → handleOk s ctx (rd w a m) = false →
      (∀ l < m, w.act.getLsbD l = true → handleOk s ctx (rd w a l) = true) →
      Does (.tlread d a) s k w (.fault 0x1C 0 m 0)) ∧
    (Issues s k w ([a] ++ pair b) →
      (handleOk s ctx h = false → Does (.tlwait a b) s k w (.fault 0x1C 0 (low w) 0)) ∧
      (handleOk s ctx h = true → v.toNat ≤ handleVal s ctx h → Does (.tlwait a b) s k w (.next (issued s k w))) ∧
      (handleOk s ctx h = true → handleVal s ctx h < v.toNat → w.act ≠ 0 →
        Does (.tlwait a b) s k w (waits (issued s k w) k (clearPass w) (clearPass w) w.act (.timeline h v))))) ∧
  (∀ (s : State) (k : Nat) (w : Warp) (g : Workgroup) (gr : Grid) (a b c : Fld),
    tget s.wgs w.wg = some g → gridOfWg s w.wg = some gr → NoMember w →
    let s1 := issued s k w
    let lm := (rd w a (low w)).toNat
    let va := (rd64 w b (low w)).toNat
    let n := (rd w c (low w)).toNat
    let m := (rd w b (low w)).toNat
    (Issues s k w ([a] ++ pair b ++ [c]) → va < 2 ^ 57 → lm % 128 = 0 → va % 128 = 0 → n % 128 = 0 →
      (n ≠ 0 → g.stash.length < 4 → lm + n ≤ hLmSize gr.hdr →
        (∀ r ∈ g.stash, overlap r.lm r.size lm n = false ∧ overlap r.va r.size va n = false) →
        covered gr (·.getLsbD 120) va n = true → covered gr (·.getLsbD 121) va n = true → copyOnLm s w.wg lm n = false →
        Does (.stashmap a b c) s k w (.next (setWg s1 w.wg { g with stash := g.stash ++ [⟨lm, va, n, []⟩] }))) ∧
      (n = 0 → (∃ r ∈ g.stash, r.lm = lm) →
        Does (.stashmap a b c) s k w (.next (stashUnmap s1 w.wg (g.stash.findIdx (fun r => r.lm == lm)))))) ∧
    (Issues s k w [a, b] → lm % 128 = 0 → m % 128 = 0 →
      Does (.stashwb a b) s k w (.next ((stashLines g lm m).foldl (fun s x => writeBackLine s w.wg x.1 x.2) s1)) ∧
      Does (.stashinv a b) s k w (.next ((stashLines g lm m).foldl (fun s x => dropLine s w.wg x.1 x.2) s1))) ∧
    (∀ (t : State) (i j : Nat) (r : Stash) (x : StashLine), (tget t.wgs w.wg).bind (fun u => u.stash[i]?) = some r →
      tget r.lines j = some x →
      let p := stashPa t w.wg r j
      (x.dirty = true → ∀ y, memByte (writeBackLine t w.wg i j).mem y =
        if p ≤ y ∧ y < p + 128 then (lmBytes t w.wg (r.lm + 128 * j + (y - p)) 1).headD 0 else memByte t.mem y) ∧
      ((∀ e ∈ t.warps, e.2.take = none) → dropLine t w.wg i j = setStashLine t w.wg i j none)))

/-- R251, R252, R253, R260, R261, R262. TSPAWN gives its workgroup one task for each active lane, in ascending order,
with the next task serials, the lane's register target, its arguments with zeros after them, and its work identifier;
TSPAWN on futures or without room acts lane by lane in the same way or raises the first fault with no effect. TEND
ends the tasks of its active lanes, a responder that has not responded with a withdrawn response. -/
def Obligations.TaskWords : Prop :=
  ∀ (s : State) (k : Nat) (w : Warp), ∀ (a b aux : Fld) (sub : BitVec 4),
    let s1 := issued s k w
    let w1 := clearPass w
    let n := aux.toNat % 16
    let arg (l i : Nat) : Word := if i < n then rd w (b + BitVec.ofNat 8 i) l else 0
    (NoMember w → Issues s k w (a :: regGroup b n) →
      (∀ t, tryLanes (lanesOf w.act) s1 (spawnLane w1 a b (sub == 1) n) = .ok t →
        Does (.tspawn a b sub aux) s k w (.next t)) ∧
      (∀ c x l, tryLanes (lanesOf w.act) s1 (spawnLane w1 a b (sub == 1) n) = .error (c, x, l) →
        Does (.tspawn a b sub aux) s k w (.fault c x l 0)) ∧
      (∀ (g : Workgroup) (c : Nat), tget s.wgs w.wg = some g → g.core = some c → (gridOfWg s w.wg).isSome = true →
        w.sstep = false → g.nextSerial < 2 ^ 32 → (coreRec s c).tasks.length + 32 ≤ 1024 →
        (∀ l, w.act.getLsbD l = true → (rd w a l).toNat % 4 = 0) →
        ∃ t, exec (.tspawn a b 0 aux) s = .next t ∧ (∀ x, memByte t.mem x = memByte s.mem x) ∧
          (coreRec t c).tasks = (coreRec s c).tasks ++
            ((List.range (lanesOf w.act).length).zip (lanesOf w.act)).map (fun e =>
              ⟨w.wg, (g.nextSerial + e.1) % 2 ^ 32, regTarget (curPC w).hdr (rd w a e.2), (List.range 8).map (arg e.2),
                ((thr w e.2).map (·.wid)).getD 0, none, wgClock s c w.wg, false, none, none, false⟩))) ∧
    (Issues s k w [] →
      (w.kind ≠ .task → w.kind ≠ .responder → Does .tend s k w (.fault 0x0B 0 (low w) 0)) ∧
      (w.kind = .task ∨ w.kind = .responder →
        (∀ l, lowest (w.act &&& members w) = some l → Does .tend s k w (.fault 0x51 0 l 0)) ∧
        (NoMember w → Does .tend s k w
          (.moved (endLanes (setWarp (tendWithdraw s1 w1) k (choicePoint w1)) k w.act (wordAddr (curPC w)))))))

/-- R258, R263, R264, R266, R268. FUTNEW gives each active lane, or the group for a warp-scalar register, the lowest
free entry; FUTWAIT waits until every future is resolved; FUTGET reads resolved values; a stale handle raises 0x43,
an entry in the wrong state 0x44, and a full table 0x45. R256, R264, R265, R267, R268. FUTSET resolves the futures
that its lanes name, each once, with their values: the entry holds the value, the tasks that waited are ready with it
as their first argument. FUTDROP frees the entries, whose generation rises, from 4,095 to 1; a future with waiters is
not dropped. An entry that a step has changed is written to the table in memory, in the 16 bytes of R263; the head of its
waiter list is a free value that is 0 where nothing waits (log 9). -/
def Obligations.Futures : Prop :=
  (∀ (s : State) (k : Nat) (w : Warp) (d a : Fld),
    let s1 := issued s k w
    let w1 := clearPass w
    let ctx := ctxOfWg s w.wg
    let ls (f : Fld) : List Nat := if f.toNat < 192 then lanesOf w.act else [low w]
    let entry (l : Nat) : Fut := futEntry s ctx (rd w a l)
    let ok (l : Nat) : Prop := futOk s w.wg (rd w a l) = true
    (NoMember w → Issues s k w [d] →
      (∀ hs s2, newFuts s1 w.wg (ls d) = .ok (hs, s2) →
        Does (.futnew d) s k w (.next (setWarp s2 k (mapLanes w1 d (fun l => tgetD 0 hs l))))) ∧
      (∀ l, newFuts s1 w.wg (ls d) = .error l → Does (.futnew d) s k w (.fault 0x45 0 l 0)) ∧
      (∀ g : Grid, gridOfWg s w.wg = some g → w.sstep = false → tsorted (ctxRec s g.ctx).futures = true →
        ((ctxRec s g.ctx).futures.filter (fun e => e.2.st != 0)).length + (ls d).length ≤ futSize g.desc →
        (∀ e ∈ (ctxRec s g.ctx).futures, e.2.gen < 4096) → futSize g.desc ≤ 2 ^ 20 →
        (w.act = 0 → d.toNat < 192) → ∃ t w2, exec (.futnew d) s = .next t ∧ tget t.warps k = some w2 ∧ GoesOn w w2 ∧
          (∀ l ∈ ls d, (futEntry t ctx (rd w2 d l)).st = 1 ∧ (futEntry t ctx (rd w2 d l)).gen = field (rd w2 d l) 31 20) ∧
          (∀ f l, f ≠ d → l < 32 → rd w2 f l = rd w f l) ∧
          t = { s with warps := t.warps, wgs := t.wgs, ctxs := t.ctxs })) ∧
    (∀ g : Grid, gridOfWg s w.wg = some g → ∀ i, i < futSize g.desc →
      (∀ j < i, (tgetD Fut.empty (ctxRec s g.ctx).futures j).st ≠ 0) →
      (tgetD Fut.empty (ctxRec s g.ctx).futures i).st = 0 → tsorted (ctxRec s g.ctx).futures = true →
      let e := tgetD Fut.empty (ctxRec s g.ctx).futures i
      newFut s w.wg = some (BitVec.ofNat 32 (e.gen * 2 ^ 20 + i), setFut s g.ctx i { e with st := 1, val := 0 })) ∧
    (Issues s k w [a] →
      ((∀ l ∈ ls a, ok l) → (∀ l ∈ ls a, (entry l).st = 2) → Does (.futwait a) s k w (.next s1)) ∧
      ((∀ l ∈ ls a, ok l) → (∃ l ∈ ls a, (entry l).st ≠ 2) → w.act ≠ 0 →
        Does (.futwait a) s k w (waits s1 k w1 w1 w.act
          (.futures (((ls a).map (rd w a)).filter (fun h => (futEntry s ctx h).st != 2)))))) ∧
    (w.sstep = false → Issues s k w [a, d] → (∀ l, w.act.getLsbD l = true → ok l ∧ (entry l).st = 2) →
      WritesLanes (.futget d a) s k w d (fun l => (entry l).val)) ∧
    (∀ m, Issues s k w [a, d] → w.act.getLsbD m = true → (∀ l < m, w.act.getLsbD l = true → ok l ∧ (entry l).st = 2) →
      (¬ ok m → Does (.futget d a) s k w (.fault 0x43 0 m 0)) ∧
      (ok m → (entry m).st ≠ 2 → Does (.futget d a) s k w (.fault 0x44 0 m 0)))) ∧
  (∀ (s : State) (k : Nat) (w : Warp), NoMember w → ∀ (a b : Fld),
    let s1 := issued s k w
    let ctx := ctxOfWg s w.wg
    let ls : List Nat := if a.toNat < 192 then lanesOf w.act else [low w]
    (Issues s k w [a, b] → futBad s1 (clearPass w) a (fun e _ => e.st != 1) ls = none →
      Does (.futset a b) s k w (.next (ls.foldl (fun s l => resolve s ctx (rd w a l) (rd w b l)) s1))) ∧
    (∀ c x l, Issues s k w [a, b] → futBad s1 (clearPass w) a (fun e _ => e.st != 1) ls = some (c, x, l) →
      Does (.futset a b) s k w (.fault c x l 0)) ∧
    (Issues s k w [a] → futBad s1 (clearPass w) a (fun _ h => futWaited s1 ctx h) ls = none →
      Does (.futdrop a) s k w (.next (ls.foldl (fun s l =>
        let e := futEntry s ctx (rd w a l)
        setFut s ctx (futIx (rd w a l)) { e with st := 0, gen := if e.gen = 4095 then 1 else e.gen + 1 }) s1))) ∧
    (∀ c x l, Issues s k w [a] → futBad s1 (clearPass w) a (fun _ h => futWaited s1 ctx h) ls = some (c, x, l) →
      Does (.futdrop a) s k w (.fault c x l 0)) ∧
    (∀ (h v : Word), (∀ e ∈ s.warps, futLanes (readyWarp s h ctx e.2) = 0) →
      let t := resolve s ctx h v
      futEntry t ctx h = { futEntry s ctx h with st := 2, val := v } ∧
      t.warps = s.warps.map (fun e => (e.1, readyWarp s h ctx e.2)) ∧
      ∀ c, (coreRec t c).tasks = (coreRec s c).tasks.map (fun x =>
        if x.waits = some h ∧ ctxOfWg s x.wg = ctx then
          { x with waits := none, args := v :: x.args.drop 1, readyAt := readyClock s x.wg }
        else x))) ∧
  (∀ (e : Fut) (waiting : Bool) (i now : Nat), e.gen < 2 ^ 12 → e.st < 4 →
    let bs := futBytes (e, waiting) i now
    let x : BitVec 128 := BitVec.ofNat 128 (leNat bs)
    bs.length = 16 ∧ x.extractLsb' 0 32 = e.val ∧ field x 43 32 = e.gen ∧ field x 45 44 = e.st ∧ field x 63 46 = 0 ∧
      (field x 127 64 = 0 ↔ waiting = false)) ∧
  (∀ (s : State) (ctx i : Nat) (d : BitVec 1024) (bs : List Byte), bs.length = 16 →
    (∀ pa x, Undisturbed s → ctxXlate s ctx d needRW (field d 383 320 + 16 * i) 16 = .ok (pa, x) →
      StoredAt s (futStore s ctx d i bs) 16 (pa + ·) (fun j => bs.getD j 0)) ∧
    (∀ x, ctxXlate s ctx d needRW (field d 383 320 + 16 * i) 16 = .error x → futStore s ctx d i bs = s)) ∧
  (∀ before s : State,
    ((∀ ctx i, futView before ctx i = futView s ctx i) → futChanged before s = s) ∧
    ∀ ctx i, tsorted s.ctxs = true → (∀ c j, futView before c j ≠ futView s c j → c = ctx ∧ j = i) →
      futView before ctx i ≠ futView s ctx i → (tget s.ctxs ctx).isSome = true →
      (i ∈ (ctxRec s ctx).futures.map (·.1) ∨ i ∈ (ctxRec before ctx).futures.map (·.1)) →
        futChanged before s = futStore s ctx (descOf s ctx) i (futBytes (futView s ctx i) i (cycleOf s 0)))

/-- R269, R270, R271, R272. A queue delivers its records in the order of their pushes: QPOP gives the active lanes
the oldest records in turn, QPUSH appends theirs, QROOM counts the free places, and a queue that is not enabled for
the context raises 0x46. Lanes that cannot be served wait on the queue. -/
def Obligations.HardwareQueueWords : Prop :=
  ∀ (s : State) (k : Nat) (w : Warp), ∀ (d q : Fld),
    let s1 := issued s k w
    let hq := 8 * coreOf k + q.toNat % 8
    let x := hwqRec s hq
    let n := (lanesOf w.act).length
    (hqOk s w hq = false →
      (NoMember w → w.act ≠ 0 → Issues s k w (regGroup d 8) → Does (.qpop d q) s k w (.fault 0x46 0 (low w) 0) ∧
        Does (.qpush d q) s k w (.fault 0x46 0 (low w) 0)) ∧
      (Issues s k w [d] → Does (.qroom d q) s k w (.fault 0x46 0 (low w) 0))) ∧
    (hqOk s w hq = true →
      (w.sstep = false → Issues s k w [d] →
        WritesLanes (.qroom d q) s k w d (fun _ => BitVec.ofNat 32 (32 + hqRing x.desc - x.recs.length))) ∧
      (NoMember w → Issues s k w (regGroup d 8) →
        (let r := (lanesOf w.act).foldl (popLanes k hq d) (s1, (0 : Mask))
         Does (.qpop d q) s k w (queueWait (hqServeAll r.1 hq) k hq w.act (w.act &&& ~~~r.2) (clearPass w)
           (fun l => ⟨nameOf (clearPass w) l, none, d⟩))) ∧
        (let r := (lanesOf w.act).foldl (pushLanes (clearPass w) hq d) (s1, (0 : Mask))
         Does (.qpush d q) s k w (queueWait r.1 k hq w.act (w.act &&& ~~~r.2) (clearPass w)
           (fun l => ⟨nameOf (clearPass w) l, some (pushRec (clearPass w) d l), d⟩))) ∧
        (w.sstep = false → x.waiters = [] → x.recs.length ≤ 32 → n ≤ x.recs.length → d.toNat + 8 ≤ 192 →
          ∃ t w1, exec (.qpop d q) s = .next t ∧ tget t.warps k = some w1 ∧ GoesOn w w1 ∧
            (∀ (i l : Nat) (r : Nat × List Word), (lanesOf w.act)[i]? = some l → x.recs[i]? = some r → ∀ j < 8,
              rd w1 (d + BitVec.ofNat 8 j) l = r.2.getD j 0) ∧
            (hwqRec t hq).recs = x.recs.drop n ∧ (∀ a, memByte t.mem a = memByte s.mem a)) ∧
        (w.sstep = false → x.waiters = [] → x.recs.length + n ≤ 32 →
          ∃ t w1, exec (.qpush d q) s = .next t ∧ tget t.warps k = some w1 ∧ GoesOn w w1 ∧ SameRegs w w1 ∧
            ((hwqRec t hq).recs.map (·.2)) = x.recs.map (·.2) ++ (lanesOf w.act).map (fun l =>
              (List.range 8).map (fun j => rd w (d + BitVec.ofNat 8 j) l)) ∧
            hqPushed (hwqRec t hq).desc = (hqPushed x.desc + n) % 2 ^ 64 ∧
            (∀ a, memByte t.mem a = memByte s.mem a))))

/-- R273, R274, R275, R276, R277. MBXBIND and NMATCH act lane by lane, or raise the first fault with no effect; a
binding and a match entry record what their handler will get; NUNMATCH removes the oldest unclaimed entries. An
arrival at a mailbox raises its count and creates the handler task with the doorbell's words, and so does a message
that has wholly come. A match entry with a handler PC of 0 is refused by log 41. -/
def Obligations.MailboxesAndMatches : Prop :=
  ∀ (s : State) (k : Nat) (w : Warp), ∀ (a b c : Fld),
    let s1 := issued s k w
    let w1 := clearPass w
    let die := dieOf (coreOf k)
    let act (i : Instr) (f : State → Nat → Except (Nat × Nat) State) : Prop :=
      (∀ t, tryLanes (lanesOf w.act) s1 f = .ok t → Does i s k w (.next t)) ∧
      (∀ x y l, tryLanes (lanesOf w.act) s1 f = .error (x, y, l) → Does i s k w (.fault x y l 0))
    (NoMember w → Issues s k w (a :: regGroup b 4) → act (.mbxbind a b) (bindLane w1 a b)) ∧
    (NoMember w → Issues s k w (a :: regGroup b 4 ++ [c]) → act (.nmatch a b c) (matchLane die w1 a b c)) ∧
    (∀ g : Grid, gridOfWg s w.wg = some g → w.sstep = false → NoMember w → Issues s k w (a :: regGroup b 4) →
      let n (l : Nat) : Nat := (rd w a l).toNat
      let va (l : Nat) : Nat := (rd64 w b l).toNat
      let pc (l : Nat) : Word := rd w (b + 2) l
      let pa (l : Nat) : Nat := (gridXlate s w.wg (va l)).1
      let key (l : Nat) : Nat := mbxKey g.ctx (n l)
      let bound (t : State) (w2 : Warp) : Prop := exec (.mbxbind a b) s = .next t ∧ tget t.warps k = some w2 ∧
        GoesOn w w2 ∧ SameRegs w w2 ∧ t = { s with warps := t.warps, wgs := t.wgs, mailboxes := t.mailboxes } ∧
        ∀ m, (∀ l, w.act.getLsbD l = true → m ≠ key l) → tget t.mailboxes m = tget s.mailboxes m
      (∀ l j, w.act.getLsbD l = true → w.act.getLsbD j = true → l ≠ j → n l ≠ n j) →
      ((∀ l, w.act.getLsbD l = true → n l < field g.desc 540 528 ∧ pc l ≠ 0 ∧ (pc l).toNat % 4 = 0 ∧
          memCheck s w.wg (va l) 8 needR 8 = .ok () ∧ tget s.mailboxes (key l) = none ∧
          ∀ m ∈ s.mailboxes, m.2.pa ≠ pa l) →
        (∀ l j, w.act.getLsbD l = true → w.act.getLsbD j = true → l ≠ j → pa l ≠ pa j) →
        ∃ t w2, bound t w2 ∧ ∀ l, w.act.getLsbD l = true → tget t.mailboxes (key l) = some
          ⟨w.wg, g.ctx, n l, rd64 w b l, pa l, regTarget (curPC w).hdr (pc l), rd w (b + 3) l, 0,
            ((thr w l).map (·.wid)).getD 0⟩) ∧
      ((∀ l, w.act.getLsbD l = true → n l < field g.desc 540 528 ∧ pc l = 0 ∧ (tget s.mailboxes (key l)).isSome = true) →
        ∃ t w2, bound t w2 ∧ ∀ l, w.act.getLsbD l = true → tget t.mailboxes (key l) = none)) ∧
    (w.sstep = false → NoMember w → Issues s k w (a :: regGroup b 4 ++ [c]) →
      let va (l : Nat) : Nat := (rd64 w b l).toNat
      let pc (l : Nat) : Word := rd w (b + 2) l
      let n (l : Nat) : Nat := (rd w (b + 3) l).toNat
      (∀ l, w.act.getLsbD l = true → pc l ≠ 0 ∧ (pc l).toNat % 4 = 0 ∧ 1 ≤ n l ∧ n l ≤ 16777216 ∧
        memCheck s w.wg (va l) 64 needW (n l) = .ok ()) →
      ((matchTable s die).filter (fun e => !e.dead)).length + (lanesOf w.act).length ≤ 1024 →
      ∃ t w2, exec (.nmatch a b c) s = .next t ∧ tget t.warps k = some w2 ∧ GoesOn w w2 ∧ SameRegs w w2 ∧
        t = { s with warps := t.warps, wgs := t.wgs, netMatch := t.netMatch, fresh := t.fresh } ∧
        (∀ d, d ≠ die → matchTable t d = matchTable s d) ∧
        matchTable t die = matchTable s die ++ ((List.range (lanesOf w.act).length).zip (lanesOf w.act)).map (fun e =>
          ⟨s.fresh + e.1, w.wg, ctxOfWg s w.wg, rd w a e.2, rd64 w b e.2, regTarget (curPC w).hdr (pc e.2), n e.2,
            rd w c e.2, ((thr w e.2).map (·.wid)).getD 0, false, 0, 0, false⟩)) ∧
    (w.sstep = false → NoMember w → Issues s k w [a] → ∃ t w2, exec (.nunmatch a) s = .next t ∧
      tget t.warps k = some w2 ∧ GoesOn w w2 ∧ SameRegs w w2 ∧
      t = { s with warps := t.warps, wgs := t.wgs, netMatch := t.netMatch } ∧
      t.netMatch = ((lanesOf w.act).foldl (fun s l => unmatch s w.wg (rd w a l)) s).netMatch) ∧
    (∀ tag : Word, (matchesOf s w.wg tag = [] → unmatch s w.wg tag = s) ∧
      ∀ m ∈ matchesOf s w.wg tag, (∀ x ∈ matchesOf s w.wg tag, m ≤ x) → unmatch s w.wg tag =
        { s with netMatch := s.netMatch.map (fun d => (d.1, d.2.filter (fun e => e.id != m))) }) ∧
    (∀ (g : Grid) (l : Nat), gridOfWg s w.wg = some g →
      let n := (rd w a l).toNat
      let va := (rd64 w b l).toNat
      let pc := rd w (b + 2) l
      let pa := (gridXlate s w.wg va).1
      n < field g.desc 540 528 → pc ≠ 0 → pc.toNat % 4 = 0 → memCheck s w.wg va 8 needR 8 = .ok () →
      tget s.mailboxes (mbxKey g.ctx n) = none → (∀ m ∈ s.mailboxes, m.2.pa ≠ pa) →
      let box : Mailbox := ⟨w.wg, g.ctx, n, BitVec.ofNat 64 va, pa, regTarget (curPC w).hdr pc, rd w (b + 3) l, 0,
        ((thr w l).map (·.wid)).getD 0⟩
      bindLane w a b s l = .ok { s with mailboxes := tput s.mailboxes (mbxKey g.ctx n) box }) ∧
    (∀ (m : Nat) (x : Mailbox), tget s.mailboxes m = some x → (∀ e ∈ s.wgs, e.2.stash = []) →
      let s2 := { s with mailboxes := tput s.mailboxes m { x with count := x.count + 1 } }
      (taskRoom s2 x.wg = true → exec (.mailboxArrival m) s = .next (createTask s2 x.wg x.pc
        [BitVec.ofNat 32 (memNat s.mem x.pa 4), BitVec.ofNat 32 (memNat s.mem (x.pa + 4) 4), x.arg,
          BitVec.ofNat 32 x.number, x.count + 1, 0, 0, 0] x.wid none false none)) ∧
      (taskRoom s2 x.wg = false → exec (.mailboxArrival m) s = .next (taskSpaceFault s2 x.wg false))) ∧
    (∀ (e : MatchE), (matchTable s die).find? (fun x => x.id == e.id && x.claimed && !x.dead && x.got == x.len) = some e →
      let s2 := setMatch s die ((matchTable s die).filter (fun x => x.id != e.id))
      (taskRoom s2 e.wg = true → exec (.networkMatchFire die e.id) s = .next (createTask s2 e.wg e.pc
        [e.buf.extractLsb' 0 32, e.buf.extractLsb' 32 32, BitVec.ofNat 32 e.len, e.tag, e.arg, 0, 0, 0] e.wid none false
        none)) ∧
      (taskRoom s2 e.wg = false → exec (.networkMatchFire die e.id) s = .next (taskSpaceFault s2 e.wg false)))

/-- R22, R53, R254, R255, R328. A bin whose age has reached the limit becomes due, and so does a ready list; what is
next on a core forms a warp in its lowest free slot: the threads of a bin with their registers, the first 32 tasks of
a list with their arguments in v0 to v7, or the handler lanes of a trap with theirs. The order by the clock at which
a unit became due is log 34. -/
def Obligations.WarpsForm : Prop :=
  ∀ (s : State) (c slot : Nat),
    (∀ (i : Nat) (b : Bin), tget (coreRec s c).bins i = some b → b.due = none →
      b.since + binLimit s b.wg ≤ wgClock s c b.wg →
      exec (.binAgeLimit c i) s = .next (setCore s c { coreRec s c with
        bins := tput (coreRec s c).bins i { b with
          due := some (if contOfWg s b.wg then cycleOf s (dieOf c) else b.since + binLimit s b.wg) } })) ∧
    (∀ wg pc : Nat, ∃ t, exec (.gatherLimit c wg pc) s = .next t ∧ (coreRec t c).tasks = (coreRec s c).tasks.map (fun x =>
      let key : ListKey := ⟨wg, BitVec.ofNat 64 pc, x.responder⟩
      let l := readyList s c key
      if x.waits = none ∧ taskKey x = key ∧ listDue l = none ∧ dueClock s c key l ≠ none then
        { x with due := dueClock s c key l }
      else x)) ∧
    (∀ (key : ListKey) (y : Task) (r : List Task), readyList s c key = y :: r → r.length < 31 →
      contOfWg s key.wg = false → dueClock s c key (readyList s c key) =
        if y.readyAt + binLimit s key.wg ≤ cycleOf s (dieOf c) then some (y.readyAt + binLimit s key.wg) else none) ∧
    (freeWarpSlot s c = some slot →
      (∀ (i : Nat) (b : Bin), nextForm s c = some (.bin i) → tget (coreRec s c).bins i = some b → ∃ t u,
        exec (.binDraw c i) s = .next t ∧ tget t.warps (64 * c + slot) = some u ∧
        (coreRec t c).bins = tdel (coreRec s c).bins i ∧ u.wg = b.wg ∧ u.claimed = b.claimed ∧ u.w = b.w ∧
        u.recon = [] ∧ u.take = none ∧
        (∀ l f, b.threads[l]? = some f → thr u l = some f.thread) ∧ (∀ l, b.threads.length ≤ l → thr u l = none)) ∧
      (∀ x : ListKey, nextForm s c = some (.list x) → ∃ t u,
        exec (.waveFormation c x.wg x.pc.toNat) s = .next t ∧ tget t.warps (64 * c + slot) = some u ∧
        u.wg = x.wg ∧ u.kind = (if x.responder then .responder else .task) ∧ u.claimed = 0 ∧ u.flags = 0 ∧
        (∀ l y, ((readyList s c x).take 32)[l]? = some y → thr u l = some (taskThread y)) ∧
        (∀ l, 32 ≤ l ∨ (readyList s c x).length ≤ l → thr u l = none) ∧
        (∀ l y i, ((readyList s c x).take 32)[l]? = some y → i < 8 → rd u (BitVec.ofNat 8 i) l = y.args.getD i 0)) ∧
      (∀ h : HandlerReq, (coreRec s c).handlers.find? (fun h => wgRuns s h.wg) = some h → h.lanes.length ≤ 32 → ∃ t u,
        exec (.trapHandlerFormation c) s = .next t ∧ tget t.warps (64 * c + slot) = some u ∧ u.kind = .handler ∧
        (coreRec t c).handlers.length + 1 = (coreRec s c).handlers.length ∧
        (∀ l e, h.lanes[l]? = some e → ∃ x, thr u l = some x ∧ x.pc = ⟨h.pc, 0⟩ ∧ x.served = some e.1 ∧
          ∀ i < 8, rd u (BitVec.ofNat 8 i) l = e.2.1.getD i 0)))

/-- R281, R282, R283. The outermost TAKE makes its active lanes members at depth 1 and records the checkpoint and the
resume point; a nested one raises the depth, or aborts the take with status 0x09 at depth 7; a mix of members and
others raises 0x53. TSTAT reads depth and code. R290, R291, R292. KEEP and DROP by a lane that is no member raise
0x52. A KEEP above depth 1 lowers the depth; at depth 1 its lanes arrive, and the take commits once every member has.
DROP rolls back every member, or those that its mask names, with its code. -/
def Obligations.TakesOpenAndEnd : Prop :=
  (∀ (s : State) (k : Nat) (w : Warp), w.sstep = false → ∀ d : Fld,
    let m := members w
    let deeper (w1 : Warp) : Prop := ∀ l, thr w1 l = (thr w l).map (fun x =>
      if w.act.getLsbD l then { x with pc := nextPC w, pass1 := false, tdepth := if m = 0 then 1 else x.tdepth + 1 } else x)
    (Issues s k w [] →
      (m = 0 → ∃ t w1 tk, exec .take s = .next t ∧ OnlyWarp s t k w w1 ∧ deeper w1 ∧ w1.take = some tk ∧ SameRegs w w1 ∧
        tk.resume = nextPC w ∧ tk.ckV = w.v ∧ tk.ckP = w.p ∧ tk.ckW = w.w ∧ tk.ckFlags = w.flags ∧ tk.ckRecon = w.recon ∧
        tk.store = [] ∧ tk.adds = [] ∧ tk.readSet = []) ∧
      (m ≠ 0 → w.act &&& ~~~m = 0 → (∀ l x, w.act.getLsbD l = true → thr w l = some x → x.tdepth < 7) →
        tsorted w.threads = true →
        ∃ t w1, exec .take s = .next t ∧ OnlyWarp s t k w w1 ∧ deeper w1 ∧ w1.take = w.take ∧ SameRegs w w1) ∧
      (m ≠ 0 → w.act &&& ~~~m = 0 → (∃ l x, l < 32 ∧ w.act.getLsbD l = true ∧ thr w l = some x ∧ 7 ≤ x.tdepth) →
        Does .take s k w (.abort 9)) ∧
      (∀ l, m ≠ 0 → lowest (w.act &&& ~~~m) = some l → Does .take s k w (.fault 0x53 0 l 0))) ∧
    (Issues s k w [d] → WritesLanes (.tstat d) s k w d (fun l => match thr w l with
      | some x => BitVec.ofNat 32 (x.tdepth * 256 + x.tcode.toNat)
      | none => 0))) ∧
  (∀ (s : State) (k : Nat) (w : Warp) (scope : BitVec 3) (a aux : Fld) (sub : BitVec 4),
    let s1 := issued s k w
    let w1 := clearPass w
    let deep := w.act &&& lanesWhere w (fun x => decide (1 < x.tdepth))
    let flat := w.act &&& ~~~deep
    let low1 := modLanes w1 deep (fun _ x => { x with tdepth := x.tdepth - 1 })
    (Issues s k w [] →
      (∀ l, lowest (w.act &&& ~~~members w) = some l → Does (.keep scope) s k w (.fault 0x52 0 l 0)) ∧
      (w.act &&& ~~~members w = 0 →
        (flat = 0 → Does (.keep scope) s k w (.next (setWarp s1 k low1))) ∧
        (flat ≠ 0 →
          let kept := beginWait (setPC { low1 with take := low1.take.map (fun tk =>
            { tk with scope := max tk.scope scope.toNat }) } deep (nextPC w)) flat .keep (nextPC w)
          let s2 := setWarp s1 k kept
          (allKept kept = false → Does (.keep scope) s k w (.moved s2)) ∧
          (∀ t, allKept kept = true → commit s2 k = .ok t → Does (.keep scope) s k w (.moved t)) ∧
          (∀ l, allKept kept = true → commit s2 k = .error l → Does (.keep scope) s k w (.fault 0x1B 0 l 0))))) ∧
    (Issues s k w (if sub = 1 then [a] else []) →
      (∀ l, lowest (w.act &&& ~~~members w) = some l → Does (.drop a sub aux) s k w (.fault 0x52 0 l 0)) ∧
      (w.act &&& ~~~members w = 0 →
        let m := if sub = 1 then rd w a (low w) &&& members w else members w
        let s2 := rollback (setWarp s1 k (setPC w1 (w.act &&& ~~~m) (nextPC w))) k m (if aux = 0 then 1 else aux)
        (m = 0 → Does (.drop a sub aux) s k w (.next s1)) ∧
        (m ≠ 0 → (∀ u, tget s2.warps k = some u → allKept u = false) → Does (.drop a sub aux) s k w (.moved s2)) ∧
        (∀ u t, m ≠ 0 → tget s2.warps k = some u → allKept u = true → commit s2 k = .ok t →
          Does (.drop a sub aux) s k w (.moved t)))))

/-- R285, R286. A member's store changes no memory: its bytes stand in the take's store buffer under the lane that
wrote them, and a member's later load of its own bytes returns them. R177, R290, R292. A commit writes every buffered
byte to its place and leaves every other byte of memory, and its members stand at depth 0 with code 0; a whole
rollback writes no memory and brings back the registers, predicates and flags of the checkpoint, with its members at
the resume point: at once, or, while a write is pending for one of them, first its members wait where they are, still members
of the open take, and it acts as the last such write has completed (R71). -/
def Obligations.TakesHoldTheirStores : Prop :=
  (∀ (s : State) (k : Nat) (w : Warp) (tk : Take), w.sstep = false → w.take = some tk → tk.store = [] →
    w.act &&& ~~~members w = 0 → ∀ (d base off : Fld),
    let va (l : Nat) : Nat := gAddr w base off 4 l
    let pa (l : Nat) : Nat := (gridXlate s w.wg (va l)).1
    (∀ l, w.act.getLsbD l = true → MayAccess s w.wg needW 4 (va l) ∧ (gridXlate s w.wg (va l)).2 = 0) →
    (∀ l m, w.act.getLsbD l = true → w.act.getLsbD m = true → l ≠ m →
      va l ≠ va m ∧ (pa l + 4 ≤ pa m ∨ pa m + 4 ≤ pa l)) →
    Issues s k w (pair base ++ [d]) →
      (∃ t w1 tk1, exec (.stg d base off) s = .next t ∧ tget t.warps k = some w1 ∧ w1.take = some tk1 ∧ GoesOn w w1 ∧
        SameRegs w w1 ∧ t = { s with warps := t.warps, wgs := t.wgs, fresh := t.fresh } ∧
        ∀ l i, w.act.getLsbD l = true → i < 4 → ∃ e, bufAt tk1 (pa l + i) = some e ∧
          e.2.lane = l ∧ e.2.val = storedByte w d l i) ∧
      (∀ (n a : Nat) (bs : List Byte) (tk1 : Take), bs.length = n → ∀ i < n,
        (forward tk1 a bs).getD i 0 = match bufAt tk1 (a + i) with
          | some e => e.2.val
          | none => bs.getD i 0)) ∧
  (∀ (s : State) (k : Nat) (w : Warp) (tk : Take), tget s.warps k = some w → w.take = some tk → w.sstep = false →
    members w ≠ 0 → tsorted w.threads = true → tsorted tk.ckV = true →
    ((∀ e ∈ s.warps, e.1 ≠ k → e.2.take = none) → (∀ e ∈ s.wgs, e.2.stash = []) → (∀ e ∈ s.ctxs, e.2.snap = none) →
      s.mailboxes = [] → tk.adds = [] → (∀ e ∈ tk.store, e.1 < 2 ^ 64) →
      ∃ t w1, commit s k = .ok t ∧ tget t.warps k = some w1 ∧ w1.take = none ∧ members w1 = 0 ∧ w1.tcode = 0 ∧
        SameRegs w w1 ∧ w1.p = w.p ∧ w1.flags = w.flags ∧
        ∀ a, memByte t.mem a = match tk.store.reverse.find? (fun e => e.2.loc == a) with
          | some e => e.2.val
          | none => memByte s.mem a) ∧
    (∀ code : Byte, w.recon = [] →
      let m := members w
      let restored (t : State) : Prop := ∃ w1, t = setWarp s k w1 ∧
        w1.take = none ∧ w1.act = 0 ∧ w1.cand = 0 ∧ w1.tcode = code ∧ w1.w = tk.ckW ∧ w1.flags = tk.ckFlags ∧
        (∀ l, m.getLsbD l = true → ∃ x, thr w l = some x ∧ thr w1 l = some { x with
          tdepth := 0, tcode := code, pc := tk.resume, next := tk.resume, wait := .none }) ∧
        (∀ l, m.getLsbD l = false → thr w1 l = thr w l) ∧
        (∀ f l, f.toNat < 192 → l < 32 → rd w1 f l =
          if m.getLsbD l then tgetD 0 tk.ckV (f.toNat * 32 + l) else rd w f l) ∧
        (∀ q l, 0 < q → q < 8 → (tgetD 0 w1.p q).getLsbD l =
          if m.getLsbD l then (tgetD 0 tk.ckP q).getLsbD l else (tgetD 0 w.p q).getLsbD l)
      (rollingLanes w = 0 → lanesPending w m = false → restored (rollback s k m code)) ∧
      (rollingLanes w = 0 → lanesPending w m = true → ∃ w1, rollback s k m code = setWarp s k w1 ∧
        w1 = { w with threads := w1.threads, act := w1.act, cand := w1.cand } ∧
        ∀ l, thr w1 l = (thr w l).map (fun x => if m.getLsbD l then { x with wait := .rollback m code none } else x)) ∧
      ((∀ l x, thr w l = some x → if m.getLsbD l then x.wait = .rollback m code none else ∀ r c t, x.wait ≠ .rollback r c t) →
        (lanesPending w m = false → restored (settleRolls s k)) ∧ (lanesPending w m = true → settleRolls s k = s))))

/-- R298, R299, R300, R301. KDIRINS and KDIRMIG act lane by lane, or raise the first fault with no effect; an
insertion puts its entry behind those of its core with the responder's address; KDIRLOOK counts the entries of a key
and gives the payload of the oldest; KDIRDEL removes the oldest. An entry that lands joins the directory of its new
owner's core. That entries in transit count against the capacity is log 44. -/
def Obligations.KeyDirectory : Prop :=
  ∀ (s : State) (k : Nat) (w : Warp) (a b d : Fld) (sub : BitVec 4),
    let s1 := issued s k w
    let w1 := clearPass w
    let c := coreOf k
    let found (l : Nat) : List KEntry :=
      (coreRec s c).kdir.filter (fun e => e.owner == w.wg && e.key == rd64 w a l)
    (NoMember w →
      (Issues s k w (pair a ++ pair b) →
        (∀ t, tryLanes (lanesOf w.act) s1 (insLane c w1 a b (sub == 1)) = .ok t →
          Does (.kdirins a b sub) s k w (.next t)) ∧
        (∀ x y l, tryLanes (lanesOf w.act) s1 (insLane c w1 a b (sub == 1)) = .error (x, y, l) →
          Does (.kdirins a b sub) s k w (.fault x y l 0))) ∧
      (Issues s k w (pair a ++ [b]) →
        (∀ t, tryLanes (lanesOf w.act) s1 (migLane c w1 a b (sub == 1)) = .ok t →
          Does (.kdirmig a b sub) s k w (.next (contLand t w.wg))) ∧
        (∀ x y l, tryLanes (lanesOf w.act) s1 (migLane c w1 a b (sub == 1)) = .error (x, y, l) →
          Does (.kdirmig a b sub) s k w (.fault x y l 0))) ∧
      (Issues s k w (pair a) → Does (.kdirdel a) s k w (.next ((lanesOf w.act).foldl (fun s l =>
        match kdirFind s c w.wg (rd64 w a l) with
        | [] => s
        | e :: _ => removeEntries s c (fun x => x.id == e.id)) s1)))) ∧
    (w.sstep = false → odd d = false → Issues s k w (pair a ++ pair d) → ∃ t w2, exec (.kdirlook d a) s = .next t ∧
      Retires s t k w w2 ∧ w2.p = w.p ∧ w2.flags = w.flags ∧
      (∀ l, w.act.getLsbD l = true → d.toNat < 192 →
        rd w2 d l = ((found l).head?.map (·.payload)).getD 0 ∧ rd w2 (d + 1) l = BitVec.ofNat 32 (found l).length) ∧
      (∀ f l, f ≠ d → f ≠ d + 1 → l < 32 → rd w2 f l = rd w f l)) ∧
    (∀ l, (rd w (b + 1) l).toNat % 4 = 0 → kdirRoom s c ≠ 0 → ∃ t, insLane c w a b false s l = .ok t ∧
      (coreRec t c).kdir = (coreRec s c).kdir ++ [⟨s.fresh, rd64 w a l, rd w b l,
        regTarget (curPC w).hdr (rd w (b + 1) l), w.wg, [], ((thr w l).map (·.wid)).getD 0, s.fresh⟩]) ∧
    (∀ (id : Nat) (x : Transit) (g : Workgroup) (y : Nat), tget s.transit id = some x → tget s.wgs x.owner = some g →
      g.ended = false → g.core = some y → allCensuses s = [] → ∃ t, exec (.keyEntryLanding id) s = .next t ∧
        t.transit = tdel s.transit id ∧
        (coreRec t y).kdir = (coreRec s y).kdir ++ [{ x.entry with owner := x.owner, age := s.fresh }])

/-- R302, R303, R306, R308. A census takes the lowest free slot of its core and the slot's next serial, and reaches
each core of its scope; at an arrival point every matching entry gets a responder task. CENSUS answers when every
census is complete, or says at once whether it is, and its combination does not depend on the order in which the
answers came: the sum, the least and the greatest value, the bitwise or, the count, the first in core order, and for .fadd the
exact sum of the values, rounded once; each with the stated value where there is no answer. R253, R303, R304, R305, R307, R380. At an arrival point a matching entry that has not answered gets a
responder task with the census's arguments; RESPOND sends each responder's one answer, live or withdrawn; a census
from another package runs over the whole device, and the fabric's report completes the one that awaits it. -/
def Obligations.CensusesAndResponders : Prop :=
  (∀ (s : State) (k : Nat) (w : Warp) (a b d : Fld) (sub : BitVec 4) (scope : BitVec 3),
    let s1 := issued s k w
    let w1 := clearPass w
    let c := coreOf k
    let r := (if d.toNat < 192 then lanesOf w.act else [low w]).foldl (solLane k (solRequest w1 d a b sub scope))
      (s1, (0 : Mask), ([] : List SolWait))
    (Issues s k w ([d] ++ pair a ++ [b]) →
      (w.act &&& members w ≠ 0 → Does (.solicit d a b sub scope) s k w (.abort 0x0A)) ∧
      (NoMember w → r.2.2 = [] → (tget r.1.warps k).isSome = true →
        Does (.solicit d a b sub scope) s k w (.next r.1))) ∧
    (∀ (wg x slot : Nat) (key : DWord) (arg : Word) (op sc : Nat), freeSlotOf (coreRec s x) = some slot →
      let serial := nextSerial (tgetD 0 (coreRec s x).censusSerial slot)
      (startCensus s wg x slot key arg op sc).1 = BitVec.ofNat 32 (serial * 2 ^ 16 + x * 2 ^ 8 + slot) ∧
      ∃ cen, tget (coreRec (startCensus s wg x slot key arg op sc).2 x).census slot = some cen ∧
        cen.key = key ∧ cen.arg = arg ∧ cen.op = op ∧ cen.todo = scopeCores s sc x ∧ cen.due = [] ∧ cen.live = []) ∧
    (NoMember w → Issues s k w [a, d] →
      (∀ m, w.act.getLsbD m = true → censusOf s1 k (rd w a m) = none →
        (∀ l < m, w.act.getLsbD l = true → censusOf s1 k (rd w a l) ≠ none) →
        Does (.census d a sub) s k w (.fault 0x54 0 m 0)) ∧
      (∀ cen : Nat → Census, w.sstep = false → (∀ l, w.act.getLsbD l = true → censusOf s k (rd w a l) = some (cen l)) →
        (sub = 3 ∨ ∀ l, w.act.getLsbD l = true → censusComplete s (cen l) = true) →
        (sub ≠ 4 → WritesLanes (.census d a sub) s k w d (fun l => censusAnswer s sub (cen l))) ∧
        (sub = 4 → Does (.census d a sub) s k w (.next (freeSlots
          (setWarp s1 k (mapLanes w1 d (fun l => combine (cen l).op (cen l).live))) c ((lanesOf w.act).map (rd w a)))) ∧
          ∃ t w2, exec (.census d a sub) s = .next t ∧ tget t.warps k = some w2 ∧ GoesOn w w2 ∧
            WroteReg w w2 d (fun l => combine (cen l).op (cen l).live) ∧
            (∀ l, w.act.getLsbD l = true → censusOf t k (rd w a l) = none) ∧
            t = { s with warps := t.warps, wgs := t.wgs, cores := t.cores }))) ∧
    (let ls : List Nat := if d.toNat < 192 then lanesOf w.act else [low w]
     let slots := (List.range 64).filter (fun i => (tget (coreRec s c).census i).isNone)
     Issues s k w ([d] ++ pair a ++ [b]) → NoMember w → w.act ≠ 0 → w.sstep = false → contOfWg s w.wg = false →
     (coreRec s c).solWait = [] → ls.length ≤ slots.length →
       ∃ t w2, exec (.solicit d a b sub scope) s = .next t ∧ tget t.warps k = some w2 ∧ GoesOn w w2 ∧
         (∀ f l, f ≠ d → l < 32 → rd w2 f l = rd w f l) ∧
         t = { s with warps := t.warps, wgs := t.wgs, cores := t.cores, fresh := t.fresh, sent := t.sent } ∧
         ∀ i l slot : Nat, ls[i]? = some l → slots[i]? = some slot → ∃ cen,
           rd w2 d l = censusWord (nextSerial (tgetD 0 (coreRec s c).censusSerial slot)) c slot ∧
           tget (coreRec t c).census slot = some cen ∧ cen.word = rd w2 d l ∧ cen.wg = w.wg ∧ cen.core = c ∧
           cen.key = rd64 w a l ∧ cen.arg = rd w b l ∧ cen.op = sub.toNat ∧ cen.scope = scope.toNat ∧
           cen.todo = scopeCores s scope.toNat c ∧ cen.due = [] ∧ cen.live = []) ∧
    (∀ rs : List Resp,
      (rs.Pairwise (fun x y => (x.pkg, x.core, x.age) ≠ (y.pkg, y.core, y.age)) → ∀ rs' : List Resp, rs.Perm rs' →
        ∀ op : Nat, combine op rs = combine op rs') ∧
      combine 0 rs = (rs.map (·.val)).foldl (· + ·) 0 ∧
      (rs.Pairwise (fun x y => keyLt (x.pkg, x.core, x.age, 0) (y.pkg, y.core, y.age, 0) = true) →
        combine 1 rs = BitVec.ofNat 32 (roundVal fp32 0 (groupSum (rs.map (fun x => fdec fp32 x.val.toNat)))).1) ∧
      combine 4 rs = (rs.map (·.val)).foldl (· ||| ·) 0 ∧ combine 5 rs = BitVec.ofNat 32 rs.length ∧
      (∀ x ∈ rs, (combine 2 rs).toInt ≤ x.val.toInt ∧ x.val.toInt ≤ (combine 3 rs).toInt) ∧
      (rs ≠ [] → (∃ x ∈ rs, combine 2 rs = x.val) ∧ ∃ x ∈ rs, combine 3 rs = x.val) ∧
      (rs = [] → combine 0 rs = 0 ∧ combine 1 rs = 0 ∧ combine 2 rs = 0x7FFFFFFF ∧ combine 3 rs = 0x80000000 ∧
        combine 4 rs = 0 ∧ combine 5 rs = 0 ∧ combine 6 rs = 0) ∧
      (∀ x ∈ rs, (∀ y ∈ rs, y ≠ x → keyLt (x.pkg, x.core, x.age, 0) (y.pkg, y.core, y.age, 0) = true) →
        combine 6 rs = x.val))) ∧
  (∀ (s : State) (k : Nat) (w : Warp) (a : Fld) (sub : BitVec 4),
    let s1 := setWarp (issued s k w) k (modLanes (clearPass w) w.act (fun _ x => { x with responded := true }))
    (Issues s k w [a] →
      (w.kind ≠ .responder → Does (.respond a sub) s k w (.fault 0x0B 0 (low w) 0)) ∧
      (w.kind = .responder → NoMember w →
        (∀ m x, w.act.getLsbD m = true → thr w m = some x → x.responded = true →
          (∀ l y, l < m → w.act.getLsbD l = true → thr w l = some y → y.responded = false) →
          Does (.respond a sub) s k w (.fault 0x56 0 m 0)) ∧
        ((∀ l x, w.act.getLsbD l = true → thr w l = some x → x.responded = false) →
          Does (.respond a sub) s k w (.next ((lanesOf w.act).foldl (fun s l => match (thr w l).bind (·.census) with
            | some (id, e) => if sub = 1 then withdraw s id e else respondLane false s id e (rd w a l)
            | none => s) s1)) ∧
          (w.sstep = false → ∃ t w2, exec (.respond a sub) s = .next t ∧ tget t.warps k = some w2 ∧
            (∀ l, thr w2 l = (thr w l).map (fun x =>
              if w.act.getLsbD l then { x with pc := nextPC w, pass1 := false, responded := true } else x)) ∧
            SameRegs w w2 ∧ w2.p = w.p ∧ w2.flags = w.flags ∧ t = { s with
              warps := t.warps, wgs := t.wgs, cores := t.cores, forwarded := t.forwarded, ctxs := t.ctxs })))) ∧
    (∀ (c slot id e : Nat) (v : Word) (cen : Census) (x : Nat × Nat × Nat), tget (coreRec s c).census slot = some cen →
      cen.id = id → cen.due.find? (fun y => y.1 == e) = some x →
      let left := cen.due.filter (fun y => y.1 != e)
      tget (coreRec (respondLane false s id e v) c).census slot = some { cen with
        due := left, live := cen.live ++ [⟨cen.self, x.2.1, x.2.2, v⟩] } ∧
      tget (coreRec (withdraw s id e) c).census slot = some { cen with due := left, wd := cen.wd + 1 }) ∧
    (∀ (c id : Nat) (cen : Census), (allCensuses s).find? (fun x => x.id == id && x.todo.contains c) = some cen →
      let s2 := updCensus s id (fun x => { x with todo := x.todo.erase c })
      let hit (e : KEntry) : Bool := censusHits s cen e && !e.answered.contains id
      ((coreRec s c).kdir.filter hit = [] → exec (.censusArrivalPoint c id) s = .next s2) ∧
      (∀ e, (coreRec s c).kdir.filter hit = [e] →
        exec (.censusArrivalPoint c id) s = .next (makeResponder s2 c cen e))) ∧
    (∀ (c id slot : Nat) (cen : Census) (e : KEntry) (g : Workgroup),
      s.cores = [(c, { Core.empty with kdir := [e], census := [(slot, cen)] })] → s.forwarded = [] → s.ctxs = [] →
      cen.id = id → cen.todo.contains c = true → censusHits s cen e = true →
      e.answered.contains id = false → tget s.wgs e.owner = some g → g.core = some c → taskRoom s e.owner = true →
      ∃ t, exec (.censusArrivalPoint c id) s = .next t ∧
        (coreRec t c).tasks.map (fun x => (x.wg, x.pc, x.args, x.responder, x.census)) =
          [(e.owner, e.pc, [e.key.extractLsb' 0 32, e.key.extractLsb' 32 32, e.payload, cen.arg, cen.word,
            if cen.from_.isSome then 0xFFFFFFFF else BitVec.ofNat 32 cen.core, 0, 0], true, some (id, e.id))] ∧
        (coreRec t c).kdir.map (·.answered) = [e.answered ++ [id]] ∧
        (tget (coreRec t c).census slot).map (fun x => (x.todo, x.due)) =
          some (cen.todo.erase c, cen.due ++ [(e.id, c, e.age)])) ∧
    (∀ (fid op group : Nat) (word arg : Word) (key : DWord), ∃ t x,
      exec (.censusPacketArrival fid word key arg op group) s = .next t ∧ tget t.forwarded s.fresh = some x ∧
      x.word = word ∧ x.key = key ∧ x.arg = arg ∧ x.op = op ∧ x.todo = scopeCores s 5 0 ∧ x.from_ = some fid ∧
      t = { s with forwarded := t.forwarded, fresh := s.fresh + 1 }) ∧
    (∀ (word : Word) (live : List (Nat × Word)) (wd c slot : Nat) (cen : Census),
      tget (coreRec s c).census slot = some cen → cen.word = word → cen.fabricDone = false → ∃ t cen1,
        exec (.censusResultArrival word live wd) s = .next t ∧ tget (coreRec t c).census slot = some cen1 ∧
        cen1.fabricDone = true ∧ cen1.wd = cen.wd + wd ∧
        cen1.live.map (·.val) = cen.live.map (·.val) ++ live.map (·.2)))

/-- R25, R327, R328, R331. TRAP parks its lanes, to go on at the next word, and asks for a handler lane for each of
them at the trap handler's address; without a handler it ends the grid with cause 0x70, in a take it aborts it with
status 0x06; where TRAP or BKPT is a debug trap the lanes park at the word. The return from a handler gives the
trapped thread its handler lane's v0 and v1 and lets it go on. R63, R64, R65, R66, R329, R330, R332. GETSR reads each
special register, and a read of CYCLE or RETIRED holds the upper half for the next; SETSR writes FLAGS alone; YIELD
is a choice point at which the warp stands back, or waits where a drain is pending. A special register that is not
there raises 0x3B, and a write of any other 0x3C. What counts as retired at a trap is log 22; SYSRET in a take is log
47. -/
def Obligations.TrapsAndSpecialRegisters : Prop :=
  (∀ (s : State) (k : Nat) (w : Warp) (n : Fld) (tag : Half),
    let s1 := issued s k w
    let c := coreOf k
    let pass := maskWhere w.act (fun l => ((thr w l).map (·.pass1)).getD false)
    (Issues s k w [] →
      (bitN (dbgOf s w.wg) 3 = false →
        (w.act &&& members w ≠ 0 → Does (.trap n) s k w (.abort 6)) ∧
        (NoMember w → (w.kind = .handler ∨ trapPc s w.wg = 0) → Does (.trap n) s k w (.fault 0x70 0 (low w) n.toNat)) ∧
        (NoMember w → w.kind ≠ .handler → trapPc s w.wg ≠ 0 → anyPending w [0, 1] = true → Does (.trap n) s k w .stall) ∧
        (NoMember w → w.kind ≠ .handler → trapPc s w.wg ≠ 0 → anyPending w [0, 1] = false → w.sstep = false → ∃ t w1 h, exec (.trap n) s = .next t ∧
          tget t.warps k = some w1 ∧ Placed w w1 (fun _ x => { x with wait := .trap, next := nextPC w }) ∧
          (coreRec t c).handlers = (coreRec s c).handlers ++ [h] ∧ h.wg = w.wg ∧ h.pc = trapPc s w.wg ∧
          (∀ a, memByte t.mem a = memByte s.mem a) ∧
          h.lanes = (lanesOf w.act).filterMap (fun l => (thr w l).map (fun x => (x.name,
            [n.setWidth 32, rd w 0 l, rd w 1 l, (wordAddr (curPC w)).extractLsb' 0 32,
              (wordAddr (curPC w)).extractLsb' 32 32, BitVec.ofNat 32 x.name.n, BitVec.ofNat 32 (k % 64 * 32 + l),
              BitVec.ofNat 32 (slateKind w)], x.wid))))) ∧
      (bitN (dbgOf s w.wg) 3 = true → Does (.trap n) s k w (trapWord s1 k (clearPass w) pass 0x70 n.toNat)) ∧
      (bitN (dbgOf s w.wg) 2 = true → Does (.bkpt tag) s k w (trapWord s1 k (clearPass w) pass 0x71 tag.toNat)) ∧
      (bitN (dbgOf s w.wg) 2 = false → w.sstep = false → ∃ t w1, exec (.bkpt tag) s = .next t ∧ Retires s t k w w1 ∧
        SameRegs w w1 ∧ w1.p = w.p ∧ w1.flags = w.flags)) ∧
    (Issues s k w [0, 1] →
      (w.kind ≠ .handler → Does .sysret s k w (.fault 0x0B 0 (low w) 0)) ∧
      (w.kind = .handler → NoMember w → Does .sysret s k w (.moved (endLanes
        (setWarp (returnAll s1 (clearPass w)) k (choicePoint (clearPass w))) k w.act (wordAddr (curPC w)))))) ∧
    (∀ (name : TName) (v0 v1 : Word) (j l : Nat) (u : Warp) (x : Thread), findThread s name = some (j, l) →
      tget s.warps j = some u → thr u l = some x → l < 32 → u.sstep = false → ∃ u1,
        leaveTrap s name v0 v1 = setWarp s j u1 ∧ rd u1 0 l = v0 ∧ rd u1 1 l = v1 ∧
        thr u1 l = some { x with pc := x.next, wait := .none })) ∧
  (∀ (s : State) (k : Nat) (w : Warp), w.sstep = false → ∀ (d n a : Fld),
    let c := coreOf k
    let word (x i : Nat) : Word := BitVec.ofNat 32 (x / 2 ^ (32 * i))
    (Issues s k w [d] →
      (0x21 ≤ n.toNat → Does (.getsr d n) s k w (.fault 0x3B 0 (low w) 0)) ∧
      (n.toNat < 0x21 → ∃ t w1, exec (.getsr d n) s = .next t ∧ OnlyWarp s t k w w1 ∧ GoesOn w w1 ∧
        WroteReg w w1 d (fun l => special s k w n.toNat l) ∧ w1.p = w.p ∧ w1.flags = w.flags ∧
        (n = 0x1E → w1.latch = BitVec.ofNat 64 (retiredOf s w.wg)) ∧
        (n = 0x1C → w1.latch = BitVec.ofNat 64 (wgClock s c w.wg)) ∧
        (n ≠ 0x1E → n ≠ 0x1C → w1.latch = w.latch))) ∧
    (∀ (g : Workgroup) (gr : Grid) (l : Nat) (x : Thread), tget s.wgs w.wg = some g → gridOfWg s w.wg = some gr →
      thr w l = some x → l < 32 → contOfWg s w.wg = false →
      special s k w 0x00 l = BitVec.ofNat 32 x.name.n ∧ special s k w 0x01 l = BitVec.ofNat 32 l ∧
      special s k w 0x02 l = BitVec.ofNat 32 (k % 64) ∧ special s k w 0x03 l = word x.wid.toNat 0 ∧
      special s k w 0x04 l = word x.wid.toNat 1 ∧ special s k w 0x05 l = word (wgNumber w.wg) 0 ∧
      special s k w 0x06 l = word (wgNumber w.wg) 1 ∧ special s k w 0x09 l = BitVec.ofNat 32 g.member ∧
      special s k w 0x0A l = BitVec.ofNat 32 (c % 64) ∧ special s k w 0x0C l = BitVec.ofNat 32 (dieOf c) ∧
      special s k w 0x0E l = BitVec.ofNat 32 w.role ∧ special s k w 0x10 l = word (hArg gr.hdr).toNat 0 ∧
      special s k w 0x11 l = word (hArg gr.hdr).toNat 1 ∧ special s k w 0x12 l = word (dHeapBase gr.desc) 0 ∧
      special s k w 0x14 l = word (dHeapLimit gr.desc) 0 ∧ special s k w 0x18 l = w.claimed.setWidth 32 ∧
      special s k w 0x19 l = w.arrive ∧ special s k w 0x1A l = w.flags.setWidth 32 ∧
      (∀ m, (∀ e ∈ w.threads, e.2.tdepth ≤ m) → (∃ e ∈ w.threads, e.2.tdepth = m) →
        special s k w 0x1B l = BitVec.ofNat 32 (m * 256 + w.tcode.toNat)) ∧
      special s k w 0x1C l = word (cycleOf s (dieOf c)) 0 ∧ special s k w 0x1D l = word w.latch.toNat 1 ∧
      special s k w 0x1E l = word g.retired 0 ∧ special s k w 0x1F l = word w.latch.toNat 1 ∧
      special s k w 0x20 l = 0) ∧
    (Issues s k w [a] →
      (n ≠ 0x1A → Does (.setsr a n) s k w (.fault 0x3C 0 (low w) 0)) ∧
      (∀ m, n = 0x1A → lowest w.act = some m → ∃ t w1, exec (.setsr a n) s = .next t ∧ Retires s t k w w1 ∧
        SameRegs w w1 ∧ w1.p = w.p ∧ w1.flags = (rd w a m).extractLsb' 0 5)) ∧
    (Issues s k w [] →
      (w.act &&& members w ≠ 0 → Does .yield s k w (.abort 7)) ∧
      (NoMember w → drainPending s w.wg = true → ∃ t w1, exec .yield s = .next t ∧ OnlyWarp s t k w w1 ∧
        Placed w w1 (fun _ x => { x with wait := .drain, next := nextPC w })) ∧
      (NoMember w → drainPending s w.wg = false → ∃ t w1, exec .yield s = .next t ∧ OnlyWarp s t k w w1 ∧
        Placed w w1 (fun _ x => { x with pc := nextPC w }) ∧
        w1.yieldTo = if contOfWg s w.wg then w.yieldTo else [k])))

/-- R217, R218, R219, R220, R221, R243 to R247, R109. The sequencer's own words: arithmetic on q registers, the tests
of barriers, loops and branches, timelines and the end of the stream; a word that waits leaves the machine as it is.
The sequencer issues a clause once its wait is over. -/
def Obligations.SequencerWords : Prop :=
  ∀ (s : State) (c : Nat) (q : Seq), s.issuer = .seq c → seqOf s c = some q →
    ∀ (x y z : BitVec 4) (n b : Fld) (off : BitVec 20) (lit : Word),
    let done (i : Instr) (t : State) : Prop := exec i s = .next (seqGo t c (seqNext q))
    let fault (i : Instr) (cause : Nat) : Prop := exec i s = .next (seqFault s c q cause 0 (wordAddr q.pc).toNat)
    let target : DWord := BitVec.ofInt 64 (q.pc.hdr.toNat + 4 * off.toInt)
    done (.sqsetLiteral x lit) (setSeq s c { q with q := tputD 0 q.q x.toNat lit }) ∧
    (let sum : Word := BitVec.ofNat 32 ((qReg q y).toNat + (qReg q z).toNat)
     done (.sqadd x y z) (setSeq s c { q with q := tputD 0 q.q x.toNat sum })) ∧
    (∃ (v : Word) (t : State), exec (.sqsetUniform x b) s = .next t ∧
      (∀ g, tget s.wgs q.wg = some g → v ∈ bOptions g b.toNat none) ∧
      (seqOf t c).map (fun u => (u.q, u.pc)) = some (tputD 0 q.q x.toNat v, seqNext q)) ∧
    done .sqhalt (setSeq s c { q with halted := true }) ∧
    (qReg q x = 0 → done (.sqbra x off) s) ∧
    (qReg q x ≠ 0 → exec (.sqbra x off) s = .next (seqGo s c ⟨target, 0⟩)) ∧
    (qReg q x ≠ 0 → q.loops.length < 4 → done (.sqloop x) (setSeq s c { q with
      loops := (nextHdr q.pc.hdr q.code.length, (qReg q x).toNat) :: q.loops })) ∧
    (qReg q x = 0 ∨ 4 ≤ q.loops.length → fault (.sqloop x) 0x38) ∧
    (∀ head m r, q.loops = (head, m) :: r →
      (target ≠ head → fault (.sqend off) 0x38) ∧
      (target = head → 1 < m → exec (.sqend off) s =
        .next (seqGo (setSeq s c { q with loops := (head, m - 1) :: r }) c ⟨head, 0⟩)) ∧
      (target = head → m ≤ 1 → done (.sqend off) (setSeq s c { q with loops := r }))) ∧
    (q.loops = [] → fault (.sqend off) 0x38) ∧
    (handleOk s (ctxOfWg s q.wg) (qReg q x) = false → fault (.sqtl x y) 0x1C) ∧
    (handleOk s (ctxOfWg s q.wg) (qReg q x) = true →
      let d := BitVec.ofNat 32 (handleVal s (ctxOfWg s q.wg) (qReg q x)) - qReg q y
      (0 ≤ d.toInt → done (.sqtl x y) s) ∧ (d.toInt < 0 → exec (.sqtl x y) s = .next s)) ∧
    (∀ g, tget s.wgs q.wg = some g →
      (hNbar (hdrOf s q.wg) ≤ n.toNat → fault (.sqbar n) 0x40 ∧ fault (.sqwait n) 0x40) ∧
      (n.toNat < hNbar (hdrOf s q.wg) →
        (q.flight ≠ [] → exec (.sqbar n) s = .next s) ∧
        (q.flight = [] → (barOf g n.toNat).deflt = true → done (.sqbar n) s) ∧
        (q.flight = [] → (barOf g n.toNat).deflt = false → done (.sqbar n)
          (setWg (setSeq s c { q with arrRec := tput q.arrRec n.toNat (barOf g n.toNat).phase }) q.wg
            (barArrive g n.toNat))) ∧
        (let u := tgetD 0 q.consumed n.toNat
         let f : Word := BitVec.ofNat 32 (barOf g n.toNat).phase
         (0 < (f - u).toInt → done (.sqwait n) (setSeq s c { q with consumed := tput q.consumed n.toNat (u + 1) })) ∧
         ((f - u).toInt ≤ 0 → exec (.sqwait n) s = .next s)))) ∧
    (∀ h ws, q.halted = false → q.held = false → q.pc.idx = 0 → fetchClause s q.wg true q.pc.hdr = .ok (h, ws) →
      (h.waitKind ≠ 1 → exec .clauseIssue s = .next (setSeq (fetchSpent s q.wg) c { q with
        code := ws, waitDone := true, pc := ⟨q.pc.hdr, 1⟩ })) ∧
      (h.waitKind = 1 → hNbar (hdrOf s q.wg) ≤ h.waitArg.toNat →
        exec .clauseIssue s = .next (seqFault (fetchSpent s q.wg) c q 0x40 0 q.pc.hdr.toNat)) ∧
      (∀ g ph, h.waitKind = 1 → h.waitArg.toNat < hNbar (hdrOf s q.wg) → tget s.wgs q.wg = some g →
        tget q.arrRec h.waitArg.toNat = some ph → (barOf g h.waitArg.toNat).phase ≤ ph →
        exec .clauseIssue s = .next (fetchSpent s q.wg)) ∧
      (∀ g ph, h.waitKind = 1 → h.waitArg.toNat < hNbar (hdrOf s q.wg) → tget s.wgs q.wg = some g →
        tget q.arrRec h.waitArg.toNat = some ph → ph < (barOf g h.waitArg.toNat).phase →
        exec .clauseIssue s = .next (setSeq (fetchSpent s q.wg) c { q with
          code := ws, waitDone := true, pc := ⟨q.pc.hdr, 1⟩ }))) ∧
    (∀ cause fpc fa, q.halted = false → q.held = false → q.pc.idx = 0 →
      fetchClause s q.wg true q.pc.hdr = .error (cause, fpc, fa) →
      exec .clauseIssue s = .next (seqFault s c q cause fa fpc))

/-- R224, R231, R232, R233. The shape words: SHLD reads a record from LM, SHCOPY copies one, SHSET replaces one field
from a pair of q registers, low word first, and leaves every other bit. -/
def Obligations.ShapeWords : Prop :=
  ∀ (s : State) (c : Nat) (q : Seq) (g : Workgroup), s.issuer = .seq c → seqOf s c = some q → tget s.wgs q.wg = some g →
    ∀ (x y z : BitVec 4) (sel : Fld),
    let op (i : Instr) (t : State) : Prop := exec i s = .next (seqGo (seqNumber t c) c (seqNext q))
    let put (r : BitVec 512) : State := setWg s q.wg { g with sh := tputD 0 g.sh x.toNat r }
    let a := (qReg q y).toNat
    op (.shcopy x y) (put (tgetD 0 g.sh y.toNat)) ∧
    op (.shset x y z sel) (put (shSet (tgetD 0 g.sh x.toNat) sel.toNat ((qReg q z).toNat * 2 ^ 32 + (qReg q y).toNat))) ∧
    (∀ t off, a % 64 = 0 → lmAt s q.wg a 64 = some (t, off) → stashAlias s t off 64 = false →
      poisoned s (lmPlace t off) 64 = false →
      op (.shld x y) (put (BitVec.ofNat 512 (leNat (lmBytes s t off 64))))) ∧
    (a % 64 ≠ 0 → exec (.shld x y) s = .next (seqFault s c q 0x11 a (wordAddr q.pc).toNat)) ∧
    (∀ (r : BitVec 512) (n v hi lo : Nat), shField n = some (hi, lo) → n ≠ 0x80 → ∀ i < 512,
      (shSet r n v).getLsbD i = if lo ≤ i ∧ i ≤ hi then (v % 2 ^ (hi - lo + 1)).testBit (i - lo) else r.getLsbD i) ∧
    (∀ (r : BitVec 512) (v : Nat), shBase (shSet r 0x80 v) = (shBase r + v) % 2 ^ 57 ∧
      ∀ i, 57 ≤ i → (shSet r 0x80 v).getLsbD i = r.getLsbD i)

/-- R86, R226 to R230, R236 to R239. A matrix operation whose checks find nothing replaces one tile: each element is
the old one with the products of its row of A and its column of B added in groups of sixteen; every other tile is as
before. -/
def Obligations.MatrixOperations : Prop :=
  (∀ (s : State) (c : Nat) (q : Seq), s.issuer = .seq c → seqOf s c = some q →
    ∀ (f : BitVec 3) (x y z w : BitVec 4),
    let op (i : Instr) (t : State) : Prop := exec i s = .next (seqGo (seqNumber t c) c (seqNext q))
    let kk := sufK f.toNat
    let r := shReg s q.wg y.toNat
    let qk := (qReg q w).toNat
    let qb := (qReg q z).toNat
    let sc := scaledOp f.toNat r
    let bf := sufB f.toNat
    let ds (n : Nat) : List (List Nat) := (List.range 128).flatMap (fun i => (List.range n).map (fun k => aIdx r i (qk + k)))
    (shapeBad r = false → shRank r = 2 → lmShapeBad r = false → qk % 16 = 0 → accSpoilt q x.toNat = false →
      ((sufA f.toNat).contains (shFmt r) = true → (shTrans r = true → isTE (shFmt r) = false) →
        operandBad s q.wg r (ds kk) = none →
        (wbBad qb (panelBytes bf kk false sc) = false → wbSpoilt q qb (panelBytes bf kk false sc) = false →
          op (.mma f x y z w) (setSeq s c (mmaTile q x.toNat kk (fun i k => aElem s q.wg r (aIdx r i (qk + k)))
            (denseB q bf kk qb sc)))) ∧
        (wbBad qb (panelBytes bf kk true sc) = false → wbSpoilt q qb (panelBytes bf kk true sc) = false →
          panelBad q bf kk qb = false →
          op (.mmas f x y z w) (setSeq s c (mmaTile q x.toNat kk (fun i k => aElem s q.wg r (aIdx r i (qk + k)))
            (sparseB q bf kk qb sc))))) ∧
      (shFmt r = shFp32 → operandBad s q.wg r (ds 16) = none → wbBad qb 8192 = false → wbSpoilt q qb 8192 = false →
        op (.mma32 x y z w) (setSeq s c (setTile q x.toNat (fun i j => accumulate32 (accAt q x.toNat i j)
          ((List.range 16).map (fun k => aBits s q.wg r (aIdx r i (qk + k))))
          ((List.range 16).map (fun k => wbNum q (qb + 4 * (j * 16 + k)) 4))))))) ∧
    (let t := (qReg q w).toNat / 2 ^ 20
     let koff := (qReg q w).toNat % 2 ^ 20
     let el (i k : Nat) : FVal := match convAt r t koff i k with
       | none => .fin false 0 0
       | some none => padValue r
       | some (some d) => elemRead s q.wg r d
     shapeBad r = false → (shRank r = 3 ∨ shRank r = 4) → (sufA f.toNat).contains (shFmt r) = true →
     lmShapeBad r = false → shTrans r = false → shExt r 0 % kk = 0 → koff % kk = 0 →
     koff + kk ≤ shWinX r * shWinY r * shExt r 0 →
     operandBad s q.wg r ((List.range 128).flatMap (fun i =>
       (List.range kk).filterMap (fun k => (convAt r t koff i k).join))) = none →
     wbBad qb (panelBytes bf kk false sc) = false → wbSpoilt q qb (panelBytes bf kk false sc) = false →
     accSpoilt q x.toNat = false → op (.conv f x y z w) (setSeq s c (mmaTile q x.toNat kk el (denseB q bf kk qb sc))))) ∧
  (∀ (q : Seq) (t kk : Nat) (a b : Nat → Nat → FVal) (t1 i j : Nat), i < 128 → j < 128 →
    accAt (mmaTile q t kk a b) t1 i j =
      if t1 = t then accumulate (accAt q t i j) ((List.range kk).map (a i)) ((List.range kk).map (fun k => b k j))
      else accAt q t1 i j)

/-- R225, R234, R240, R241, R242. MZERO clears a tile, MACT applies its function to each element, MLD reads a tile
from the elements that a record names in LM, MST writes one there, WLOAD fills the weight buffer from memory; no
other tile changes. The functions of MACT: the positive part, the magnitude, the negation, and for 0x80 to 0xFF the product
with a power of two whose exponent is the signed number in bits [6:0], rounded once; a NaN gives the canonical NaN. The bytes of
MST: the elements of the record's first two dimensions, each the tile's element at row d1 and column d0, or with .t at row d0
and column d1, in the record's format, with the scales of groups of 8 and the blocks of 16 in the formats that have them. R179, R180, R222. Operations of a sequencer are numbered as they issue and complete in order; its
timeline counter is the number up to which all have completed. -/
def Obligations.TilesAndCompletion : Prop :=
  ((∀ (s : State) (c : Nat) (q : Seq), s.issuer = .seq c → seqOf s c = some q →
    ∀ (x y : BitVec 4) (fn : Fld),
    let op (i : Instr) (t : State) : Prop := exec i s = .next (seqGo (seqNumber t c) c (seqNext q))
    op (.mzero x) (setSeq s c (setTile q x.toNat (fun _ _ => 0))) ∧
    (accSpoilt q x.toNat = false → op (.mact x fn) (setSeq s c (setTile q x.toNat (fun i j => mactFn fn (accAt q x.toNat i j))))) ∧
    (accSpoilt q x.toNat = true → exec (.mact x fn) s = .next (seqFault s c q 0x1F 0 (wordAddr q.pc).toNat)) ∧
    (let r := shReg s q.wg y.toNat
     let idx (i j : Nat) : List Nat := if shTrans r then [i, j] else [j, i]
     shapeBad r = false → shRank r = 2 → lmShapeBad r = false → (shTrans r = true → isTE (shFmt r) = false) →
     operandBad s q.wg r ((List.range 128).flatMap (fun i => (List.range 128).map (idx i))) = none →
     op (.mld x y) (setSeq s c (setTile q x.toNat (fun i j =>
       if inside r (idx i j) then BitVec.ofNat 32 (roundVal fp32 0 (elemRead s q.wg r (idx i j))).1 else 0)))) ∧
    (let r := shReg s q.wg y.toNat
     shapeBad r = false → shRank r = 2 → lmShapeBad r = false → shTrans r = false → accSpoilt q x.toNat = false →
     elemsBad s q.wg r ((List.range (min (shExt r 1) 128)).flatMap (fun d1 =>
       (List.range (min (shExt r 0) 128)).map (fun d0 => [d0, d1]))) = none →
     op (.mst x y fn) (lmWrites s q.wg (mstBytes q r x.toNat (fn.getLsbD 0)))) ∧
    (let r := shReg s q.wg x.toNat
     let n := unitBytes (shFmt r)
     let off := (qReg q y).toNat
     let us := imageUnits r
     shapeBad r = false → shScale r = 0 → (shTrans r = true → isTE (shFmt r) = false) → wbBad off (us.length * n) = false →
     sideGlobalBad s q.wg needR (sidePieces ⟨false, shBase r⟩ (us.map (fun u => (u.2, n)))) = none →
     (∀ u ∈ us, poisoned s (gridXlate s q.wg (shBase r + u.2)).1 n = false) → (∀ e ∈ s.wgs, e.2.stash = []) →
     ∃ t, exec (.wload x y) s = .next t ∧ (∀ a, memByte t.mem a = memByte s.mem a) ∧ ∃ u, seqOf t c = some u ∧
       u.acc = q.acc ∧ u.pc = seqNext q ∧
       u.wbuf = (us.flatMap (fun e => (List.range n).map (fun i => (e.1 + i, e.2 + i)))).foldl (fun b e =>
         tputD 0 b (off + e.1) (memByte s.mem (gridXlate s q.wg (shBase r + e.2)).1)) q.wbuf)) ∧
  (∀ (q : Seq) (t t1 i j : Nat) (g : Nat → Nat → Word), i < 128 → j < 128 →
    accAt (setTile q t g) t1 i j = if t1 = t then g i j else accAt q t1 i j) ∧
  (∀ (fn : Fld) (v : Word), (fdec fp32 v.toNat).isNan = true → mactFn fn v = 0x7FC00000) ∧
  (∀ v : Word, (fdec fp32 v.toNat).isNan = false → mactFn 0 v = (if v.msb then 0 else v) ∧
    mactFn 1 v = v &&& 0x7FFFFFFF ∧ mactFn 2 v = v ^^^ 0x80000000) ∧
  (∀ (fn : Fld) (v : Word), fn.getLsbD 7 = true → let n : Int := (fn.extractLsb' 0 7).toInt
    (∀ neg m e, fdec fp32 v.toNat = .fin neg m e →
      mactFn fn v = BitVec.ofNat 32 (roundVal fp32 0 (.fin neg m (e + n))).1) ∧
    (∀ neg, fdec fp32 v.toNat = .inf neg → mactFn fn v = v)) ∧
  (∀ (q : Seq) (r : BitVec 512) (t : Nat) (tr : Bool) (p : Nat) (v : Byte),
    let f := shFmt r
    let n0 := min (shExt r 0) 128
    let n1 := min (shExt r 1) 128
    let bits (d0 d1 : Nat) : Nat := (if tr then accAt q t d0 d1 else accAt q t d1 d0).toNat
    let val (d0 d1 : Nat) : FVal := fdec fp32 (bits d0 d1)
    (isTE f = false → shScale r = 0 → ((p, v) ∈ mstBytes q r t tr ↔ ∃ d0 < n0, ∃ d1 < n1, ∃ i < unitBytes f,
      p = unitAddr r [d0, d1] + i ∧
      v = BitVec.ofNat 8 ((if f = shFp32 then bits d0 d1 else (convertTo f 0 (val d0 d1)).1) / 2 ^ (8 * i)))) ∧
    (isTE f = false → shScale r ≠ 0 → ((p, v) ∈ mstBytes q r t tr ↔ ∃ g < n0 / 8, ∃ d1 < n1,
      let sc := chooseScale f ((List.range 8).map (fun i => val (8 * g + i) d1))
      (p = scaleAddr r [8 * g, d1] ∧ v = BitVec.ofNat 8 sc.1) ∨
      ∃ i < 8, p = unitAddr r [8 * g + i, d1] ∧ v = BitVec.ofNat 8 (sc.2.1.getD i 0))) ∧
    (isTE f = true → ((p, v) ∈ mstBytes q r t tr ↔ ∃ g < n0 / 16, ∃ d1 < n1, ∃ i < unitBytes f,
      p = unitAddr r [16 * g, d1] + i ∧
      v = BitVec.ofNat 8 ((tePack (teM f) ((List.range 16).map (fun j => val (16 * g + j) d1))).1 / 2 ^ (8 * i)))))) ∧
  (∀ (s : State) (c : Nat) (q : Seq), seqOf s c = some q →
    let ctx := ctxOfWg s q.wg
    let h := seqHandle c
    (∀ n clock r, q.flight = (n, clock) :: r → ∃ t, exec (.streamOperationCompletion c) s = .next t ∧
      seqOf t c = some { q with flight := r, homes := if r.isEmpty then [] else q.homes } ∧
      (h ∉ q.homes → tlOf t ctx h = tlComplete (tlOf s ctx h) n) ∧
      (∀ j ∈ q.homes, j ≠ h → q.homes.Nodup → tlOf t ctx j = tlComplete (tlOf s ctx j) n) ∧
      ∀ a, memByte t.mem a = memByte s.mem a) ∧
    (contOfWg s q.wg = false → ∃ u, seqOf (seqNumber s c) c = some u ∧
      u.flight.map (·.1) = q.flight.map (·.1) ++ [(tlOf s ctx h).issued + 1] ∧
      tlOf (seqNumber s c) ctx h = { tlOf s ctx h with issued := (tlOf s ctx h).issued + 1 }) ∧
    (∀ (t : Tl) (n : Nat), t.done = [] → (n = t.value + 1 → (tlComplete t n).value = n) ∧
      (t.value + 1 < n → (tlComplete t n).value = t.value ∧ (tlComplete t n).done = [n])))

/-- R367, R368, R369, R370. The scalar and control words of a splicer retire with the register or the PC that the
spec gives; a constant outside the window stops with fault 0x62, a bad loop with 0x6B; HALT halts the context. That
both words of LDC must lie inside the window is log 82. -/
def Obligations.SpliceScalarWords : Prop :=
  ∀ (s : State) (k : Nat) (x : Splicer), SpliceIssues s k x →
    let goes (i : Instr) (x1 : Splicer) (pc : Nat) : Prop :=
      exec i s = .next (setSpl (spliceTurn s k) k (spAfter x1 pc false))
    let sets (i : Instr) (d : BitVec 4) (v : DWord) : Prop := goes i { x with k := tput x.k d.toNat v } (x.pc + 1)
    let stops (i : Instr) (cause : Nat) : Prop := exec i s = .next (spStop (spliceTurn s k) k cause 0 0 0)
    goes .spliceNop x (x.pc + 1) ∧
    exec .halt s = .next (setSpl (spliceTurn s k) k { x with st := spHalted, run := 0, word := none }) ∧
    (∀ (d : BitVec 4) (imm : Half), sets (.spliceMovi d imm) d (imm.signExtend 64)) ∧
    (∀ (d y : BitVec 4) (imm : BitVec 12), sets (.addi d y imm) d (kReg x y.toNat + imm.setWidth 64) ∧
      sets (.subi d y imm) d (kReg x y.toNat - imm.setWidth 64)) ∧
    (∀ (d : BitVec 4) (imm : BitVec 12),
      (imm.toNat + 1 < spLimit x → ∃ v : DWord, exec (.ldc d imm) s = .next (setSpl
          { spliceTurn s k with choices := s.choices + 2 } k
          (spAfter { x with k := tput x.k d.toNat v } (x.pc + 1) false)) ∧
        ∀ i < 2, let word : Word := v.extractLsb' (32 * i) 32
          let place := spBase x + imm.toNat + i
          word = tgetD 0 (linkRec s (k / 8)).imem place ∨ tget (linkRec s (k / 8)).imemOld place = some word) ∧
      (spLimit x ≤ imm.toNat + 1 → stops (.ldc d imm) 0x62)) ∧
    (∀ imm : BitVec 12, goes (.jmp imm) x imm.toNat) ∧
    (∀ (y z c : BitVec 4) (imm : BitVec 12), c.toNat < 6 →
      let a := kReg x y.toNat
      let b := kReg x z.toNat
      let holds : Prop := match c.toNat with
        | 0 => a = b
        | 1 => a ≠ b
        | 2 => a.toInt < b.toInt
        | 3 => b.toInt ≤ a.toInt
        | 4 => a.toNat < b.toNat
        | _ => b.toNat ≤ a.toNat
      (holds → goes (.cmpj y z c imm) x imm.toNat) ∧ (¬ holds → goes (.cmpj y z c imm) x (x.pc + 1))) ∧
    (∀ (y : BitVec 4) (imm : BitVec 12),
      (imm.toNat ≤ x.pc → stops (.spliceLoop y imm) 0x6B) ∧
      (x.pc < imm.toNat → kReg x y.toNat = 0 → goes (.spliceLoop y imm) x (imm.toNat + 1)) ∧
      (x.pc < imm.toNat → kReg x y.toNat ≠ 0 → 4 ≤ x.loops.length → stops (.spliceLoop y imm) 0x6B) ∧
      (x.pc < imm.toNat → kReg x y.toNat ≠ 0 → x.loops.length < 4 →
        goes (.spliceLoop y imm) { x with loops := (x.pc + 1, imm.toNat, (kReg x y.toNat).toNat) :: x.loops }
          (x.pc + 1))) ∧
    ((x.loops = [] ∨ ∃ h e n r, x.loops = (h, e, n) :: r ∧ e ≠ x.pc) → stops .endl 0x6B) ∧
    (∀ h n r, x.loops = (h, x.pc, n) :: r →
      (1 < n → goes .endl { x with loops := (h, x.pc, n - 1) :: r } h) ∧
      (n ≤ 1 → goes .endl { x with loops := r } (x.pc + 1)))

/-- R371, R372, R373, R364, R349, R351, R375. Over a link that is up, with a good descriptor, index, route and translation:
XMIT reads its chunk from memory into the transmit queue as a numbered operation, or waits for room there; XMIT.tag
first sends the header packet of its message and waits for the verdict; RECV, CMB and CMBF consume the staged packets of
one chunk in order, store them or combine them element by element with the local chunk, and return their credits, and
CMBF forwards the result, once its queue has room. A packet beyond repair stops the context precisely: its memory, its PC and
its registers are as before the word, and the packets consumed so far wait to be consumed again. Combining adds, or takes the
lesser or the greater, element by element: INT32 modulo 2^32 and signed, FP32 and BF16 rounded once.
Where some bytes of the chunk lie in fabric memory their lines are asked for first, and the word
goes on when they have come. That XMIT reads its chunk as it issues is log 50. -/
def Obligations.SpliceChunkWords : Prop :=
  (∀ (s : State) (k : Nat) (x : Splicer), SpliceIssues s k x → Undisturbed s →
    ∀ (bf : BitVec 3) (ki ks kd : BitVec 4) (co : BitVec 2) (ps : List (Nat × Nat × Nat)),
    let b := bfReg x bf.toNat
    let idx := kReg x ki.toNat
    let route := kReg x kd.toNat
    let s0 := spliceTurn s k
    let range := vPieces (bfBase b + idx.toNat * bfSize b) (bfSize b)
    let remote := ps.any (fun p => isFabric p.2.1)
    let header (kind dfid : Nat) : Nat := packetHeader (s.fid.getD 0) dfid (k / 8) (k % 8) kind 0
    let numbered : Splicer := { x with
      tl := { x.tl with issued := x.tl.issued + 1 }
      flight := x.flight ++ [(x.tl.issued + 1, cycleOf s (k / 64))] }
    let begins (n : Need) : Prop := x.xl = none ∧ linkUpNow s (k / 8) = true ∧ bfOk b = true ∧
      idx.toNat ≤ bfCount b ∧ spPieces s0 (spOwner x) n range = .ok ps
    let here (n : Need) : Prop := (begins n ∧ remote = false) ∨
      (x.xl = some ps ∧ x.asking = true ∧ x.got = 0 ∧ x.verdict = none ∧ (ps.map (fun p => p.2.2)).sum = bfSize b)
    let asks (i : Instr) : Prop :=
      exec i s = .next (setSpl s0 k { x with xl := some ps, got := 0, verdict := none, asking := true })
    let queued (i : Instr) (tag : Option Word) : Prop := exec i s = .next (setSpl s0 k (spAfter { numbered with
      tx := x.tx ++ [⟨route, tag, x.tl.issued + 1, piecesBytes s ps, 0⟩] } (x.pc + 1) true))
    let waitsFor (w : SWait) : Splicer := { x with
      xl := some ps, got := 0, verdict := none, asking := false, st := spWaiting, wait := w, run := 0 }
    (routeOk route false = true →
      (begins needR → remote = true → asks (.xmit bf ki kd)) ∧
      (here needR → x.tx.length < 8 → piecesPoisoned s ps = false → queued (.xmit bf ki kd) none) ∧
      (here needR → x.tx.length < 8 → piecesPoisoned s ps = true →
        ∃ d < 256, exec (.xmit bf ki kd) s = .next (spStop { s0 with choices := s0.choices + 1 } k 0x69 d 0 0)) ∧
      (here needR → 8 ≤ x.tx.length → exec (.xmit bf ki kd) s = .next (setSpl s0 k (waitsFor .room))) ∧
      (x.xl = some ps → x.asking = false → x.tx.length < 8 → piecesPoisoned s ps = false →
        queued (.xmit bf ki kd) none)) ∧
    (routeOk route true = true →
      (begins needR → remote = true → asks (.xmitTag bf ki ks kd)) ∧
      (here needR → exec (.xmitTag bf ki ks kd) s = .next (setSpl (sendOut s0 3
        [header 3 (field route 19 8), field route 7 3, field route 43 32, (kReg x ks.toNat).toNat % 2 ^ 32, bfSize b, 0]
        []) k (waitsFor .verdict)))) ∧
    (x.xl = some ps → x.asking = false →
      (x.verdict = none → exec (.xmitTag bf ki ks kd) s = .next (setSpl s0 k { x with
        st := spWaiting, wait := .verdict, run := 0 })) ∧
      (x.verdict = some false → exec (.xmitTag bf ki ks kd) s = .next (spStop s0 k 0x69 2 0 0)) ∧
      (x.verdict = some true → x.tx.length < 8 → piecesPoisoned s ps = false →
        queued (.xmitTag bf ki ks kd) (some ((kReg x ks.toNat).extractLsb' 0 32)))) ∧
    ∀ (pk : List Staged) (rest : List Staged),
      let src := kReg x ks.toNat
      let new := pk.flatMap (·.data)
      let old := piecesBytes s ps
      let use (l : List Staged) : List Staged × List Staged × List Staged := l.foldl (fun y p =>
        if y.1.contains p then (y.1.erase p, y.2.1, y.2.2) else (y.1, y.2.1.erase p, y.2.2 ++ [p])) (x.again, x.staged, [])
      let received (i : Instr) (bytes : List Byte) (tx : List TxChunk) : Prop := ∃ t, exec i s = .next t ∧
        StoredAt s t (bfSize b) (placeOf ps) (fun j => bytes.getD j 0) ∧
        t = { s with
          mem := t.mem, grids := t.grids, poison := t.poison, ctxs := t.ctxs, links := s0.links
          splicers := tput s.splicers k (spAfter { numbered with
            again := (use pk).1, staged := (use pk).2.1, tx := tx } (x.pc + 1) true)
          sent := s.sent ++ (use pk).2.2.map (fun p => ⟨4, [header 4 (p.src / 256), p.src % 256, p.epoch, 1], []⟩) }
      routeOk src false = true →
      (begins needW → remote = true → asks (.recv bf ki ks)) ∧
      (here needW → (x.again ++ x.staged).find? (fun p => p.src == routeKey src) = none →
        exec (.recv bf ki ks) s = .next (setSpl s0 k (waitsFor (.packet (routeKey src))))) ∧
      (∀ j p, (x.again ++ x.staged).filter (fun p => p.src == routeKey src) = pk ++ rest → pk[j]? = some p →
        p.bad = true → p.seqNo = ((pk.take j).flatMap (·.data)).length / 960 →
        ((pk.take j).flatMap (·.data)).length < bfSize b →
        (∀ i < j, ∀ q, pk[i]? = some q → q.data ≠ [] ∧ q.bad = false ∧
          q.seqNo = ((pk.take i).flatMap (·.data)).length / 960) →
        (∀ q, pk.head? = some q → q.len = bfSize b) → here needW → x.taken = [] →
        ∃ d < 256, exec (.recv bf ki ks) s = .next (spStop { s0 with choices := s0.choices + 1 } k 0x69 d 0 0)) ∧
      (∀ p, x.xl = some ps → 0 < x.got → x.got < bfSize b → x.verdict = none → x.taken ≠ [] →
        (x.again ++ x.staged).find? (fun p => p.src == routeKey src) = some p → p.bad = true → p.seqNo = x.got / 960 →
        (ps.map (fun p => p.2.2)).sum = bfSize b → x.undo.length = bfSize b →
        (∀ i < bfSize b, ∀ j < bfSize b, placeOf ps i = placeOf ps j → i = j) →
        ∃ t d, d < 256 ∧ exec (.recv bf ki ks) s = .next t ∧
          StoredAt s t (bfSize b) (placeOf ps) (fun j => x.undo.getD j 0) ∧
          let y := splRec t k
          y.st = spStopped ∧ y.cause = 0x69 ∧ y.detail = d ∧ y.pc = x.pc ∧ y.k = x.k ∧ y.bf = x.bf ∧ y.tl = x.tl ∧
            y.again = x.taken ++ x.again ∧ y.staged = x.staged) ∧
      (x.xl = some ps → x.asking = false → x.verdict = some true →
        (x.tx.length < 8 → exec (.cmbf bf ki ks kd co) s = .next (setSpl s0 k (spAfter { numbered with
          tx := x.tx ++ [⟨route, none, 0, piecesBytes s ps, 0⟩] } (x.pc + 1) true))) ∧
        (8 ≤ x.tx.length → exec (.cmbf bf ki ks kd co) s = .next (setSpl s0 k { x with
          got := 0, verdict := some true, asking := false, st := spWaiting, wait := .room, run := 0 }))) ∧
      ((x.again ++ x.staged).filter (fun p => p.src == routeKey src) = pk ++ rest →
        (∀ i p, pk[i]? = some p → p.data ≠ [] ∧ p.data.length % 4 = 0 ∧ p.bad = false ∧
          p.seqNo = ((pk.take i).flatMap (·.data)).length / 960) →
        (∀ p, pk.head? = some p → p.len = bfSize b) → new.length = bfSize b →
        (∀ i < bfSize b, ∀ j < bfSize b, placeOf ps i = placeOf ps j → i = j) →
        (here needW → received (.recv bf ki ks) new x.tx) ∧
        (here needRW → (bfFmt b = 0 ∨ bfFmt b = 2 ∨ bfFmt b = 9) → piecesPoisoned s ps = false →
          let sum := combineBytes (bfFmt b) co.toNat old new
          received (.cmb bf ki ks co) sum x.tx ∧
          (routeOk route false = true → x.tx.length < 8 →
            received (.cmbf bf ki ks kd co) sum (x.tx ++ [⟨route, none, 0, sum, 0⟩]))))) ∧
  (∀ (co : Nat) (a b : List Byte) (i : Nat), co < 3 →
    let elem (n : Nat) (l : List Byte) : Nat := leNat ((l.drop (n * i)).take n)
    let gives (fmt n : Nat) (v : Nat) : Prop := i < b.length / n → elem n (combineBytes fmt co a b) = v % 2 ^ (8 * n)
    let real (f : Fmt) (n : Nat) : Nat :=
      if co = 0 then (fadd f 0 (elem n a) (elem n b)).1 else fminmax f (co == 2) (elem n a) (elem n b)
    let x : Word := BitVec.ofNat 32 (elem 4 a)
    let y : Word := BitVec.ofNat 32 (elem 4 b)
    (∀ fmt, (combineBytes fmt co a b).length = (if fmt = 2 then b.length / 2 * 2 else b.length / 4 * 4)) ∧
    gives 0 4 (real fp32 4) ∧ gives 2 2 (real bf16 2) ∧
    gives 9 4 (if co = 0 then elem 4 a + elem 4 b
      else (BitVec.ofInt 32 (if co = 1 then min x.toInt y.toInt else max x.toInt y.toInt)).toNat))

/-- R374, R364, R359, R357, R358, R360, R355. FWAIT retires once the flag has reached its threshold and waits before
that, reading again at each FLAG_REREAD; a flag in fabric memory is asked for first; FSIG numbers its add, which is performed when every earlier operation of its
context has completed, at the completion that advances the context's counter. START, RESUME, ABORT and the writes of
SPCFG and of the state window do to a context what the spec says of each. That EPOCH is not written through the state
window is log 51. -/
def Obligations.SpliceFlagsAndCommands : Prop :=
  ∀ (s : State) (k : Nat) (x : Splicer), Undisturbed s → splRec s k = x →
    (∀ (y z : BitVec 4) (imm : BitVec 12) (pa : Nat), poisoned s pa 8 = false →
      let v := memNat s.mem pa 8
      let thr := (kReg x z.toNat + imm.setWidth 64).toNat
      let s0 := spliceTurn s k
      let line : List (Nat × Nat × Nat) := [((kReg x y.toNat).toNat, pa, 8)]
      let here : Prop := x.xl.isSome = true ∨ (x.xl = none ∧ isFabric pa = false)
      let asks (i : Instr) : Prop := x.xl = none → isFabric pa = true →
        exec i s = .next (setSpl s0 k { x with xl := some line, got := 0, verdict := none, asking := true })
      (SpliceIssues s k x → x.verdict = some true →
        exec (.fwait y z imm) s = .next (setSpl s0 k (spAfter x (x.pc + 1) false))) ∧
      (flagPa s0 x (kReg x y.toNat).toNat needR = .ok pa → SpliceIssues s k x → x.verdict = none →
        asks (.fwait y z imm) ∧
        (here → thr ≤ v → exec (.fwait y z imm) s = .next (setSpl s0 k (spAfter x (x.pc + 1) false))) ∧
        (here → v < thr → x.got = 0 → exec (.fwait y z imm) s = .next (setSpl s0 k { x with
          xl := some line, asking := false, st := spWaiting, wait := .flag, run := 0 }))) ∧
      (flagPa s x (kReg x y.toNat).toNat needR = .ok pa → x.wait = .flag → spliceFetch s k = .ok (.fwait y z imm) →
        x.xl = some line → x.verdict = none →
        (thr ≤ v → exec (.flagReread k) s = .next (setSpl s k { x with
          asking := false, st := spRunning, wait := .none, verdict := some true })) ∧
        (v < thr → exec (.flagReread k) s = .next (setSpl s k { x with
          asking := false, st := spWaiting, wait := .flag, run := 0 }))) ∧
      (flagPa s0 x (kReg x y.toNat).toNat needRW = .ok pa → SpliceIssues s k x →
        asks (.fsig y z imm) ∧
        (here → exec (.fsig y z imm) s = .next (setSpl s0 k (spAfter { x with
          tl := { x.tl with issued := x.tl.issued + 1 }
          flight := x.flight ++ [(x.tl.issued + 1, cycleOf s (k / 64))]
          sigs := x.sigs ++ [(x.tl.issued + 1, pa, kReg x z.toNat + imm.setWidth 64)] } (x.pc + 1) false))))) ∧
    (∀ n at_, spDue x = some (n, at_) → ∃ t, exec (.splicerOperationCompletion k) s = .next t ∧
      splRec t k = { x with
        tl := tlComplete x.tl n, flight := x.flight.filter (fun e => e.1 != n)
        sigs := x.sigs.filter (fun g => g.1 != n) } ∧
      match x.sigs.find? (fun g => g.1 == n) with
      | none => t.mem = s.mem
      | some (_, pa, v) => memNat t.mem pa 8 = (memNat s.mem pa 8 + v.toNat) % 2 ^ 64 ∧
          ∀ a, (a < pa ∨ pa + 8 ≤ a) → memByte t.mem a = memByte s.mem a) ∧
    (exec (.splicerResume k) s = .next (if x.st = spStopped then setSpl s k { x with st := spRunning } else s)) ∧
    (x.st ≠ spIdle → ∃ t, exec (.splicerAbort k) s = .next t ∧
      t = { s with splicers := t.splicers, sent := t.sent } ∧ (splRec t k).st = spIdle ∧ (splRec t k).tx = [] ∧
      (splRec t k).staged = [] ∧ (splRec t k).inChunk = [] ∧ (splRec t k).tl =
        (x.tx.filter (fun c => c.op ≠ 0)).foldl (fun tl c => tlComplete tl c.op) x.tl ∧
      t.sent = s.sent ++ x.staged.map (fun p => ⟨4, [packetHeader (s.fid.getD 0) (p.src / 256) (k / 8) (k % 8) 4 0,
        p.src % 256, p.epoch, 1], []⟩)) ∧
    (∀ rec, linkOn s (k / 8) = true → (x.st = spIdle ∨ x.st = spHalted) → (x.st = spIdle → spEn x = true) →
      ∀ ps, spPieces s (spOwner x) needR (vPieces rec 264) = .ok ps → controlBad (piecesBytes s ps) = false →
      ∃ t, exec (.splicerStart k rec) s = .next t ∧
        let bs := piecesBytes s ps
        let y := splRec t k
        y.st = spRunning ∧ y.pc = leNat ((bs.drop 256).take 2) % 4096 ∧ y.epoch = leNat ((bs.drop 258).take 2) ∧
        (∀ i < 16, kReg y i = BitVec.ofNat 64 (leNat ((bs.drop (8 * i)).take 8))) ∧
        (∀ i < 8, bfReg y i = BitVec.ofNat 128 (leNat ((bs.drop (128 + 16 * i)).take 16))) ∧
        y.loops = [] ∧ y.tx = [] ∧ y.credits = [] ∧ (∀ p ∈ y.staged, p.epoch = y.epoch) ∧ y.cfg = x.cfg ∧
        t.mem = s.mem) ∧
    (∀ v : DWord, linkOn s (k / 8) = true → ∃ y, exec (.spcfgWrite k v) s = .next (setSpl s k y) ∧
      y.pc = x.pc ∧ y.st = x.st ∧ y.k = x.k ∧ y.bf = x.bf ∧ field y.cfg 63 61 = field v 63 61 ∧
      (x.st ≠ spIdle → spOwner y = spOwner x ∧ spLimit y = spLimit x ∧ spBase y = spBase x) ∧
      (x.st = spIdle → spOwner y = field v 59 48 ∧
        (1 ≤ field v 44 32 ∧ field v 11 0 + field v 44 32 ≤ 4096 →
          spLimit y = field v 44 32 ∧ spBase y = field v 11 0) ∧
        (¬ (1 ≤ field v 44 32 ∧ field v 11 0 + field v 44 32 ≤ 4096) →
          spLimit y = spLimit x ∧ spBase y = spBase x)) ∧
      (x.st = spIdle → field v 59 48 ≠ spOwner x → y.tl = ⟨0, [], 0⟩)) ∧
    (∀ v : DWord,
      (∀ i < 16, (x.st = spStopped ∨ x.st = spHalted) → ∃ y, exec (.splicerStateWindowWrite k (8 * i) 8 v.toNat) s =
        .next (setSpl s k y) ∧ (∀ j < 16, kReg y j = if j = i then v else kReg x j) ∧
        (∀ j < 8, bfReg y j = bfReg x j) ∧ y.pc = x.pc % 4096 ∧ y.epoch = x.epoch) ∧
      (∀ off size, x.st ≠ spStopped → x.st ≠ spHalted → exec (.splicerStateWindowWrite k off size v.toNat) s = .next s))

/-- R350, R351, R359, R361, R362, R371, R379. The transmit side sends the next packet of the chunk at the head of a
queue, against a credit where the chunk is no tagged message; an arriving packet is staged, refused with detail 0x01,
or, out of its chunk's sequence, discarded with its credit returned; credits count for the EPOCH they carry; the refusal
of a tagged message's header stops its sender in place of the verdict, and a chunk's refusal stops a sender at its next
instruction boundary; a verdict lets one go on. R276, R379, R182, R349. The first flit of a tagged message claims
the oldest unclaimed entry of the context with its tag and length, or is refused, and the sender hears which; the
bytes of a packet from another package are written at their address, with its mark of data beyond repair, and a packet
that takes or reads a line changes no memory; a refused line ends each grid that accesses it and stops the splicer
contexts that have asked for it with detail 0x03; with nothing outstanding there the line stays refused to the accesses that
complete within their step, until its home serves it (log 104). Credits after a refusal are log 49, the outbox log 7. -/
def Obligations.FabricPacketsArrive : Prop :=
  (∀ (s : State) (k : Nat) (x : Splicer), splRec s k = x →
    let header (kind dfid len : Nat) : Nat := packetHeader (s.fid.getD 0) dfid (k / 8) (k % 8) kind len
    (∀ l c r, k / 8 = l → linkUpNow s l = true → txNext s l = some (k % 8) → x.tx = c :: r →
      ∃ t, exec (.chunkPacketSend l) s = .next t ∧
        let key := routeKey c.route
        let y := splRec t k
        let data := (c.data.drop (960 * c.sent)).take 960
        (c.tag = none → t.sent = s.sent ++ [⟨2, [header 2 (field c.route 19 8) data.length, field c.route 7 3,
            field c.route 2 0, field c.route 63 48, c.data.length, c.sent], data⟩] ∧
          tgetD 32 y.credits key + 1 = tgetD 32 x.credits key ∧
          (∀ d, d ≠ key → tgetD 32 y.credits d = tgetD 32 x.credits d)) ∧
        (∀ g, c.tag = some g → t.sent = s.sent ++ [⟨3, [header 3 (field c.route 19 8) data.length, field c.route 7 3,
            field c.route 43 32, g.toNat, c.data.length, c.sent + 1], data⟩] ∧ y.credits = x.credits) ∧
        y.tx = (if c.data.length ≤ 960 * (c.sent + 1) then r else { c with sent := c.sent + 1 } :: r) ∧
        (linkRec t l).txLast = k % 8 ∧
        t = { s with splicers := t.splicers, links := t.links, sent := t.sent }) ∧
    (∀ (fid link ctx epoch len seq : Nat) (data : List Byte) (bad : Bool), linkUpNow s (k / 8) = true →
      let src := ctxKey fid link ctx
      let i := Instr.chunkDataArrival k fid link ctx epoch len seq ⟨data, bad⟩
      let refusal (t : State) : Prop := t.sent = s.sent ++ [⟨5, [header 5 (src / 256) 0, src % 256, seq, 1], []⟩] ∧
        (splRec t k).staged = x.staged ∧ tget (splRec t k).inChunk src = none
      let there : Prop := if x.st = spIdle then spEn x = true else epoch = x.epoch
      (¬ there → ∃ t, exec i s = .next t ∧ refusal t) ∧
      (there → seq ≠ 0 → tget x.inChunk src ≠ some seq →
        exec i s = .next { s with sent := s.sent ++ [⟨4, [header 4 (src / 256) 0, src % 256, epoch, 1], []⟩] }) ∧
      (there → (seq = 0 ∨ tget x.inChunk src = some seq) →
        (32 ≤ x.staged.length → ∃ t, exec i s = .next t ∧ refusal t) ∧
        (x.staged.length < 32 → ∃ t, exec i s = .next t ∧ t = { s with splicers := t.splicers } ∧
          (splRec t k).staged = x.staged ++ [⟨src, epoch, len, seq, data, bad⟩] ∧
          (splRec t k).st = (if x.wait = .packet src then spRunning else x.st)))) ∧
    (∀ dst epoch n, exec (.creditArrival k dst epoch n) s = .next (if epoch = x.epoch then
      setSpl s k { x with credits := tput x.credits dst (tgetD 32 x.credits dst + n) } else s)) ∧
    (∀ detail,
      (x.wait = .verdict → exec (.refusalArrival k ⟨detail, true⟩) s = .next (spStop s k 0x69 detail 0 0)) ∧
      (x.wait ≠ .verdict → exec (.refusalArrival k ⟨detail, true⟩) s = .next s) ∧
      (x.st = spRunning → x.xl = none → exec (.refusalArrival k ⟨detail, false⟩) s = .next (spStop s k 0x69 detail 0 0)) ∧
      ((x.st = spWaiting ∨ (x.st = spRunning ∧ x.xl ≠ none)) →
        exec (.refusalArrival k ⟨detail, false⟩) s = .next (setSpl s k { x with refused := some detail })) ∧
      (x.st ≠ spRunning → x.st ≠ spWaiting → exec (.refusalArrival k ⟨detail, false⟩) s = .next s)) ∧
    (∀ claim, x.wait = .verdict → exec (.verdictArrival k claim) s =
      .next (setSpl s k { x with verdict := some claim, st := spRunning, wait := .none }))) ∧
  (∀ s : State, Undisturbed s →
    (∀ (die ctx : Nat) (tag : Word) (len : Nat) (data : List Byte) (bad : Bool) (fid link sctx : Nat),
      let src := ctxKey fid link sctx
      let i (seq : Nat) := Instr.taggedMessageArrival die ctx tag len ⟨seq, data, bad⟩ fid link sctx
      let verdict (claim : Nat) : Sent :=
        ⟨9, [packetHeader (s.fid.getD 0) (src / 256) ((dieLink s die).getD 0) 0 9 0, src % 256, claim], []⟩
      let table := tgetD [] s.netMatch die
      let fits (e : MatchE) : Prop := e.claimed = false ∧ e.ctx = ctx ∧ e.tag = tag ∧ e.len = len
      let goesOn (e : MatchE) : Prop := e.claimed = true ∧ e.src = src ∧ e.ctx = ctx ∧ e.tag = tag ∧ e.len = len ∧
        e.got < len
      ((∀ e ∈ table, ¬ fits e) → exec (i 0) s = .next { s with sent := s.sent ++ [verdict 0] }) ∧
      (∀ seq, seq ≠ 0 → (∀ e ∈ table, ¬ goesOn e) → exec (i seq) s = .next s) ∧
      (∀ before e after, table = before ++ e :: after → (∀ x ∈ before ++ after, x.id ≠ e.id) → e.dead = false →
        (fits e → (∀ x ∈ before, ¬ fits x) → data.length < len → ∃ t, exec (i 0) s = .next t ∧
          t.sent = s.sent ++ [verdict 1] ∧
          tgetD [] t.netMatch die = before ++ { e with claimed := true, src := src, got := data.length } :: after) ∧
        (∀ seq, seq ≠ 0 → goesOn e → (∀ x ∈ before, ¬ goesOn x) → e.got + data.length ≤ len →
          ∃ t, exec (i seq) s = .next t ∧ t.sent = s.sent ∧
            tgetD [] t.netMatch die = before ++ { e with got := e.got + data.length } :: after ∧
            t.events = s.events ++ (if e.got + data.length = len then [.networkMatchFire die e.id] else [])))) ∧
    (∀ (pa : Nat) (data : List Byte) (bad : Bool),
      (data ≠ [] → ∀ excl, ∃ t, exec (.memoryPacketArrival pa ⟨data, bad⟩ excl false) s = .next t ∧
        (∀ i < data.length, memByte t.mem (pa + i) = data.getD i 0) ∧
        (∀ a, (a < pa ∨ pa + data.length ≤ a) → memByte t.mem a = memByte s.mem a) ∧
        (bad = false → StoredAt s t data.length (pa + ·) (fun j => data.getD j 0)) ∧
        (bad = true → ∀ i < data.length, pa + i ∈ t.poison) ∧
        t = { s with mem := t.mem, grids := t.grids, poison := t.poison, ctxs := t.ctxs
                     refusing := s.refusing.filter (· != pa / 128) }) ∧
      (∀ excl, exec (.memoryPacketArrival pa ⟨[], bad⟩ excl false) s =
        .next { s with refusing := s.refusing.filter (· != pa / 128) }) ∧
      (∀ excl, (∀ e ∈ s.warps, accessTo e.2.pend (pa / 128) = none) →
        (∀ e ∈ s.grids, ∀ x ∈ e.2.loads, accessTo [x.pend] (pa / 128) = none) →
        (∀ e ∈ s.cores, ∀ x ∈ e.2.copies, copyTouches x (pa / 128) = none) →
        (∀ e ∈ s.splicers, e.2.asking = false ∧ e.2.wait ≠ .flag) →
        exec (.memoryPacketArrival pa ⟨data, bad⟩ excl true) s =
          .next { s with refusing := s.refusing.filter (· != pa / 128) ++ [pa / 128] }) ∧
      (∀ excl, ∃ t, exec (.memoryPacketArrival pa ⟨data, bad⟩ excl true) s = .next t ∧
        (∀ k w, tget s.warps k = some w → (accessTo w.pend (pa / 128)).isSome = true →
          tget t.grids (serialOf w.wg) = none) ∧
        (∀ n g x, tget s.grids n = some g → x ∈ g.loads → (accessTo [x.pend] (pa / 128)).isSome = true →
          tget t.grids n = none) ∧
        (∀ k x ps, tget s.splicers k = some x → (x.asking = true ∨ x.wait = .flag) → x.xl = some ps →
          (∃ p ∈ ps, p.2.1 / 128 ≤ pa / 128 ∧ pa / 128 ≤ (p.2.1 + p.2.2 - 1) / 128) → tsorted s.splicers = true →
          (splRec t k).st = spStopped ∧ (splRec t k).cause = 0x69 ∧ (splRec t k).detail = 3))))

/-- R16, R350, R352, R353, R354, R355, R414. A link that comes up shows its FIDs and the width in use; one that goes down reads
0, and its running and waiting contexts stop with fault 0x68 and lose their queues; a window of more than 64 resent
packets narrows the link by a step and 100 quiet windows widen it; LNKERR counts each resent packet once, whether it was
reported by itself or with its window, and is cleared by a write; a
congestion notice halves a limiter's rate, or sets up one of 32, in the place of the one with the highest rate, and of several
the lowest FID, where all 64 are in use, and a quiet interval raises it until it is freed at
64; the fabric manager's report names a group's packages. That the event of a window counts what no event of its own has
reported is log 108. When an interval of a limiter ends is given from outside
(log 68). -/
def Obligations.Links : Prop :=
  ∀ (s : State) (l : Nat),
    let x := linkRec s l
    (∀ die index node self, l = 8 * die + index → linkOn s l = true → x.errWidth < 3 → x.balWidth < 3 → node < 4096 →
      self < 4096 → ∃ t, exec (.linkUp die index node self) s = .next t ∧
        let stat := (linkRec t l).stat.toNat
        let width := max x.errWidth x.balWidth
        stat / 2 ^ 31 = 1 ∧ stat / 2 ^ 26 % 4 = width ∧ stat / 2 ^ 12 % 4096 = node ∧ stat % 4096 = self ∧
        stat = 2 ^ 31 + width * 2 ^ 26 + node * 2 ^ 12 + self ∧ t.fid = some self ∧ t.splicers = s.splicers) ∧
    (∀ die index node self, l = 8 * die + index → linkOn s l = false → exec (.linkUp die index node self) s = .next s) ∧
    (linkUpNow s l = true → ∃ t, exec (.linkDown l) s = .next t ∧ (linkRec t l).stat = 0 ∧
      ∀ c < 8, let y := splRec s (8 * l + c)
        let z := splRec t (8 * l + c)
        z.tx = [] ∧ z.staged = [] ∧ z.pc = y.pc ∧ z.k = y.k ∧ z.credits = y.credits ∧
        (y.st = spRunning ∨ y.st = spWaiting → z.st = spStopped ∧ z.cause = 0x68) ∧
        (¬ (y.st = spRunning ∨ y.st = spWaiting) → z.st = y.st ∧ z.cause = y.cause)) ∧
    (∀ resent, ∃ t, exec (.linkErrorWindow l resent) s = .next t ∧
      let y := linkRec t l
      let n := max resent x.resent
      field y.err 31 0 = min (field x.err 31 0 + (n - x.resent)) (2 ^ 32 - 1) ∧ y.resent = 0 ∧
      field y.err 63 48 = min (field x.err 63 48 + if y.errWidth = x.errWidth then 0 else 1) (2 ^ 16 - 1) ∧
      (64 < n → y.errWidth = min 2 (x.errWidth + 1)) ∧
      (4 < n → n ≤ 64 → y.errWidth = x.errWidth ∧ y.quiet = 0) ∧
      (n ≤ 4 → x.quiet < 99 → y.errWidth = x.errWidth ∧ y.quiet = x.quiet + 1) ∧
      (n ≤ 4 → 99 ≤ x.quiet → y.errWidth = x.errWidth - 1) ∧
      (resent = x.resent + 1 → y.errWidth = x.errWidth → field x.stat 27 26 = max x.errWidth x.balWidth →
        t = { hostEvent s 4 (7 + 16 + l % 8 * 2 ^ 32) 0 (l / 8) with links := t.links }) ∧
      (linkUpNow s l = true → field y.stat 27 26 = max y.errWidth x.balWidth % 4) ∧
      t.splicers = s.splicers) ∧
    exec (.lnkerrWrite l) s = .next (if linkOn s l then setLink s l { x with err := 0 } else s) ∧
    (∀ hdr : DWord,
      let kind := field hdr 27 24
      (field hdr 13 0 ≠ 0 ∨ kind = 0 ∨ 11 ≤ kind → ∃ y, exec (.malformedPacketArrival ⟨l, hdr⟩) s = .next (setLink s l y) ∧
        y = { x with err := y.err } ∧ field y.err 47 32 = min (field x.err 47 32 + 1) 65535 ∧
        field y.err 31 0 = field x.err 31 0) ∧
      (field hdr 13 0 = 0 → 1 ≤ kind → kind ≤ 10 → exec (.malformedPacketArrival ⟨l, hdr⟩) s = .next s)) ∧
    (∀ fid, ∃ y, exec (.congestionNotice l fid) s = .next (setLink s l y) ∧ y = { x with limiters := y.limiters } ∧
      (∀ r, tget x.limiters fid = some r → tget y.limiters fid = some (max 1 (r / 2)) ∧
        ∀ f, f ≠ fid → tget y.limiters f = tget x.limiters f) ∧
      (tget x.limiters fid = none → tget y.limiters fid = some 32 ∧
        (x.limiters.length < 64 → ∀ f, f ≠ fid → tget y.limiters f = tget x.limiters f) ∧
        (64 ≤ x.limiters.length → tsorted x.limiters = true → ∃ v r, tget x.limiters v = some r ∧
          (∀ f q, tget x.limiters f = some q → q < r ∨ (q = r ∧ v ≤ f)) ∧ tget y.limiters v = none ∧
          ∀ f, f ≠ fid → f ≠ v → tget y.limiters f = tget x.limiters f))) ∧
    (∀ fid,
      (∀ r, tget x.limiters fid = some r → ∃ y, exec (.rateLimiterInterval l fid) s = .next (setLink s l y) ∧
        tget y.limiters fid = if r < 63 then some (r + 1) else none) ∧
      (tget x.limiters fid = none → exec (.rateLimiterInterval l fid) s = .next s)) ∧
    ∀ n ms, exec (.fabricGroupReport n ms) s = .next { s with groups := tput s.groups n ms }

/-- R30, R31, R32, R33, R44. The start gate of a grid over several packages: the holder counts the acknowledgement of
each rank once and opens with the last that comes by its deadline, telling every package, or after the deadline ends the
grid with fault 0x49; a refusal takes an acknowledgement away, and so does, before the gate has opened, the loss of a
package or its notice that the grid has ended there; the notice that the gate is open lets the placed members begin; a
lost package ends a grid that has begun with fault 0x4A; an end notice ends the grid here, and the gate holder passes it
on. Which node of the commons distributes the holder's packets is log 96. -/
def Obligations.StartGate : Prop :=
  ∀ (s : State) (n : Nat) (g : Grid), tget s.grids n = some g → hMulti g.hdr = true →
    (∀ e ∈ s.grids, hMulti e.2.hdr = true → hMkey e.2.hdr = hMkey g.hdr → hGateFid e.2.hdr = hGateFid g.hdr → e.1 = n) →
    let key := hMkey g.hdr
    let fid := hGateFid g.hdr
    let ends (t : State) : Prop := tget t.grids n = none ∧ ∀ e ∈ t.warps, serialOf e.2.wg ≠ n
    let link := (dieLink s 0).getD 0
    let told (what : List Nat) (data : List Byte) : Sent := ⟨10, packetHeader (s.fid.getD 0)
      (field (linkRec s link).stat 23 12) link 0 10 data.length :: fid :: key.toNat :: what, data⟩
    let missing (rank : Nat) : State := setGrid s n { g with acks := g.acks.filter (· != rank) }
    (∀ rank, g.rank = 0 → 5 ≤ g.stage → g.gateOpen = false → g.claunch = none →
      let acks := if g.acks.contains rank then g.acks else g.acks ++ [rank]
      (acks.length ≤ hPkgs g.hdr ∨ g.deadline < cycleOf s 0 →
        exec (.gateAckArrival ⟨fid, key⟩ rank) s = .next (setGrid s n { g with acks := acks })) ∧
      (hPkgs g.hdr < acks.length → cycleOf s 0 ≤ g.deadline → ∃ t, exec (.gateAckArrival ⟨fid, key⟩ rank) s = .next t ∧
        tget t.grids n = some { g with acks := acks, gateOpen := true, anyBegun := true } ∧
        t.sent = s.sent ++ [told [0, 4] []] ∧
        t.wgs = s.wgs.map (fun e => if serialOf e.1 = n then (e.1, { e.2 with begun := true }) else e))) ∧
    (∀ rank, g.stage < 5 ∨ g.rank ≠ 0 → exec (.gateAckArrival ⟨fid, key⟩ rank) s =
      .next { s with earlyAcks := s.earlyAcks ++ [(key, fid, rank)] }) ∧
    (∀ rank, g.gateOpen = false → ∃ t, exec (.gateRefusalArrival ⟨fid, key⟩ rank) s = .next t ∧
      (key, fid, rank) ∉ t.earlyAcks ∧ tget t.grids n = some { g with acks := g.acks.filter (· != rank) }) ∧
    (g.gateOpen = false → g.claunch = none → ∃ t, exec (.gateOpenNoticeArrival ⟨fid, key⟩) s = .next t ∧
      tget t.grids n = some { g with gateOpen := true, anyBegun := true } ∧
      t.wgs = s.wgs.map (fun e => if serialOf e.1 = n then (e.1, { e.2 with begun := true }) else e) ∧
      t = { s with grids := t.grids, wgs := t.wgs }) ∧
    (g.gateOpen = true → exec (.gateOpenNoticeArrival ⟨fid, key⟩) s = .next s) ∧
    (g.rank = 0 → g.gateOpen = false →
      (g.deadline < cycleOf s 0 → ∃ t, exec (.gateTimeout n) s = .next t ∧ t = endGrid s n (cpBlame 0x49) ∧ ends t) ∧
      (cycleOf s 0 ≤ g.deadline → exec (.gateTimeout n) s = .next s)) ∧
    (∀ rank,
      (g.gateOpen = true → exec (.packageLost ⟨n, rank⟩) s = .next (endGrid s n (cpBlame 0x4A))) ∧
      (g.gateOpen = false → exec (.packageLost ⟨n, rank⟩) s = .next (missing rank))) ∧
    ∀ rank r,
      (g.rank = 0 → g.gateOpen = false → exec (.gateEndNoticeArrival ⟨fid, key⟩ rank r) s = .next (missing rank)) ∧
      (g.rank ≠ 0 ∨ g.gateOpen = true → ∃ t, exec (.gateEndNoticeArrival ⟨fid, key⟩ rank r) s = .next t ∧ ends t ∧
        (g.rank = 0 → told [rank, 3] (leBytes 64 r.toNat) ∈ t.sent))

/-- R386, R388, R389, R390, R392, R395. A packet that has executed moves its queue past it, and one that fails halts
the queue at it with an error code; INDIRECT enters its buffer, and what was written into the descriptor meanwhile takes
effect, PRED skips the next packets where its condition
fails, LOOP and ENDLOOP repeat, FETCHFENCE discards what was fetched ahead, TLSET adds a condition to the next
launch, FEED pushes its records as one group, behind the pushes that its own context waits with, WAKE ends sleeps, also of
warps that are frozen. How far a queue fetches ahead is the free value of
log 16; where the records of a FEED to a queue go that is saved with its context, log 106. -/
def Obligations.PacketsOfControl : Prop :=
  ∀ (s : State) (q : Nat) (x : Queue), s.issuer = .queue q → queueRec s q = x → Undisturbed s →
    let done (i : Instr) (t : State) (y : Queue) : Prop :=
      exec i s = .next (showStatus s (setQueue t q (packetDone (pastPacket y))) q)
    let halts (i : Instr) (err : Nat) : Prop := exec i s = .next (showStatus s (haltQueue s q err (packetAddr x)) q)
    let l := topLevel x
    (∀ n, done (.packetNop n) s x) ∧
    (∀ a n,
      (3 ≤ x.levels.length → halts (.indirect a n) 5) ∧
      (x.levels.length < 3 → (a % 4 ≠ 0 ∨ n % 4 ≠ 0 ∨ n < 4 ∨ 2 ^ 20 < n) → halts (.indirect a n) 7) ∧
      (x.levels.length < 3 → a % 4 = 0 → n % 4 = 0 → 4 ≤ n → n ≤ 2 ^ 20 → (∃ ps, OperandAt s x needR a n ps) →
        exec (.indirect a n) s = .next (showStatus s (setQueue s q { pastPacket x with
          levels := ⟨a, n, 0, [], [], 0, 0, 0⟩ :: (pastPacket x).levels, st := 1
          desc := x.fresh.getD x.desc, fresh := none, slot := none, wants := none }) q))) ∧
    (∀ a v c n ps, a % 4 = 0 → c ≤ 3 → n ≠ 0 → OperandAt s x needR a 4 ps →
      let m : Word := BitVec.ofNat 32 (leNat (piecesBytes s ps))
      let holds : Prop := match c with
        | 0 => m = v
        | 1 => m ≠ v
        | 2 => m.toNat < v.toNat
        | _ => v.toNat ≤ m.toNat
      (holds → done (.pred a v c n) s x) ∧ (¬ holds → done (.pred a v c n) s (setTop x { l with skip := n }))) ∧
    (∀ n,
      (4 ≤ l.loops.length → halts (.packetLoop n) 6) ∧
      (l.loops.length < 4 → (n = 0 ∨ 65535 < n) → halts (.packetLoop n) 7) ∧
      (l.loops.length < 4 → n ≠ 0 → n ≤ 65535 →
        done (.packetLoop n) s (setTop x { l with loops := ((topLevel (pastPacket x)).pos, n) :: l.loops }))) ∧
    (l.loops = [] → halts .endloop 6) ∧
    (∀ h n r, l.loops = (h, n) :: r →
      (n ≤ 1 → done .endloop s (setTop x { l with loops := r })) ∧
      (1 < n → exec .endloop s = .next (showStatus s (setQueue s q
        (packetDone (setTop x { l with pos := h, ahead := [], loops := (h, n - 1) :: r }))) q))) ∧
    (exec .fetchfence s = .next (showStatus s (setQueue s q { packetDone (pastPacket x) with
      levels := (packetDone (pastPacket x)).levels.map (fun l => { l with ahead := [] }) }) q)) ∧
    (∀ h v, (handleOk s (qCtx x.desc) h = true → done (.tlset h v) s { x with conds := x.conds ++ [(h, v)] }) ∧
      (handleOk s (qCtx x.desc) h = false → halts (.tlset h v) 7)) ∧
    (∀ core die hq recs,
      let here := 8 * (64 * die + core) + hq
      let kept := savedQueue (qCtx x.desc) here
      let k := if (tget s.hwqs kept).isSome = true then kept else here
      let y := hwqRec s k
      ((recs = [] ∨ coreOn s (64 * die + core) = false) → halts (.feed core die hq recs) 7) ∧
      (recs ≠ [] → coreOn s (64 * die + core) = true → (hqEn y.desc = false ∨ hqCtx y.desc ≠ qCtx x.desc) →
        halts (.feed core die hq recs) 9) ∧
      (recs ≠ [] → coreOn s (64 * die + core) = true → hqEn y.desc = true → hqCtx y.desc = qCtx x.desc →
        ((hqCap y < y.recs.length + recs.length ∨
            ∃ w ∈ y.waiters, w.push.isSome = true ∧ ctxOfWg s w.name.wg = qCtx x.desc) → exec (.feed core die hq recs) s =
          .next (showStatus s (takeSlot s q) q)) ∧
        (y.waiters = [] → y.recs.length + recs.length ≤ 32 → ∃ z, done (.feed core die hq recs) (setHwq s k z) x ∧
          z.recs.map (·.2) = y.recs.map (·.2) ++ recs ∧
          hqPushed z.desc = (hqPushed y.desc + recs.length) % 2 ^ 64))) ∧
    (tsorted s.warps = true → (∀ e ∈ s.warps, e.2.sstep = false) → ∀ core die all, ∃ t,
      done (.wake core die all) t x ∧ t = { s with warps := t.warps } ∧
      ∀ k w, tget s.warps k = some w → tsorted w.threads = true → ∃ w1, tget t.warps k = some w1 ∧
        w1 = { w with threads := w1.threads } ∧
        let reached : Prop :=
          (if all = true then coreOf k / 64 = die else coreOf k = 64 * die + core) ∧ ctxOfWg s w.wg = qCtx x.desc
        ∀ n < 32, ∀ y, thr w n = some y →
          (reached → (∃ u, y.wait = .sleep u ∨ y.wait = .slept u) → thr w1 n = some { y with pc := y.next, wait := .none }) ∧
          (¬ reached ∨ (∀ u, y.wait ≠ .sleep u ∧ y.wait ≠ .slept u) → thr w1 n = some y))

/-- R388, R389, R390, R394, R183. WRITE stores its words, COPY its source's bytes as they stood, SIGNAL its value
once every earlier grid of the queue is over; WAIT executes once its word or counter has come and waits before that;
SNAP numbers a snapshot whose lines are still to copy; an operand outside the range table halts the queue with error
0x03 and a misaligned one with 0x07. The alignment of a snapshot's area is log 54. -/
def Obligations.PacketsOfMemory : Prop :=
  ∀ (s : State) (q : Nat) (x : Queue), s.issuer = .queue q → queueRec s q = x → Undisturbed s →
    let after (t : State) : State := showStatus s (setQueue t q (packetDone (pastPacket x))) q
    let halts (i : Instr) (err : Nat) : Prop := exec i s = .next (showStatus s (haltQueue s q err (packetAddr x)) q)
    let stores (i : Instr) (ps : List (Nat × Nat × Nat)) (bs : List Byte) : Prop := ∃ t, exec i s = .next (after t) ∧
      StoredAt s t bs.length (placeOf ps) (fun j => bs.getD j 0) ∧
      t = { s with mem := t.mem, grids := t.grids, poison := t.poison, ctxs := t.ctxs }
    let apart (ps : List (Nat × Nat × Nat)) (n : Nat) : Prop :=
      ∀ i < n, ∀ j < n, placeOf ps i = placeOf ps j → i = j
    (∀ a ws ps, a % 4 = 0 → OperandAt s x needW a (4 * ws.length) ps → apart ps (4 * ws.length) →
      stores (.write a ws) ps (ws.flatMap (fun w => leBytes 4 w.toNat))) ∧
    (∀ a ws, (a % 4 ≠ 0 → halts (.write a ws) 7) ∧
      (∀ es, a % 4 = 0 → rangeTable s x = .ok es → rangeOk es needW a (4 * ws.length) = false → halts (.write a ws) 3) ∧
      (∀ e, a % 4 = 0 → rangeTable s x = .error e → exec (.write a ws) s = .next (showStatus s (failQueue s q e) q))) ∧
    (∀ dst src n es ps pd, dst % 4 = 0 → src % 4 = 0 → n % 4 = 0 → 4 ≤ n → rangeTable s x = .ok es →
      rangeOk es needR src n = true → rangeOk es needW dst n = true → xlated s x needR src n = .ok ps →
      xlated s x needW dst n = .ok pd → apart pd n → ∃ t, exec (.copy dst src n) s = .next (after t) ∧
        (∀ i < n, memByte t.mem (placeOf pd i) = (piecesBytes s ps).getD i 0 ∧
          (placeOf pd i ∈ t.poison ↔ placeOf ps i ∈ s.poison)) ∧
        (∀ a, (∀ i < n, a ≠ placeOf pd i) → memByte t.mem a = memByte s.mem a ∧ (a ∈ t.poison ↔ a ∈ s.poison)) ∧
        t = { s with mem := t.mem, grids := t.grids, poison := t.poison, ctxs := t.ctxs }) ∧
    (∀ a v es ps, a % 8 = 0 → rangeTable s x = .ok es →
      (rangeOk es needRW a 8 = true →
        let holds (i : Instr) : Prop := exec i s = .next (showStatus s (setQueue s q { x with st := 2 }) q)
        (queueBusy s q = false → apart ps 8 →
          (xlated s x needW a 8 = .ok ps → stores (.signalWrite a v) ps (leBytes 8 v.toNat)) ∧
          (xlated s x needRW a 8 = .ok ps →
            stores (.signalAdd a v) ps (leBytes 8 (leNat (piecesBytes s ps) + v.toNat)))) ∧
        (queueBusy s q = true →
          (xlated s x needW a 8 = .ok ps → holds (.signalWrite a v)) ∧
          (xlated s x needRW a 8 = .ok ps → holds (.signalAdd a v)))) ∧
      (rangeOk es needR a 8 = true → xlated s x needR a 8 = .ok ps →
        (v.toNat ≤ leNat (piecesBytes s ps) → exec (.waitMemory a v) s = .next (after s)) ∧
        (leNat (piecesBytes s ps) < v.toNat →
          exec (.waitMemory a v) s = .next (showStatus s (takeSlot s q) q)))) ∧
    (∀ h v, handleOk s (qCtx x.desc) h = true →
      (v.toNat ≤ handleVal s (qCtx x.desc) h → exec (.waitTimeline h v) s = .next (after s)) ∧
      (handleVal s (qCtx x.desc) h < v.toNat →
        exec (.waitTimeline h v) s = .next (showStatus s (takeSlot s q) q))) ∧
    (∀ tbl n area ranges ps todo, n ≠ 0 → n ≤ 4096 → area % 128 = 0 → rangeTable s x = .ok ranges →
      rangeOk ranges needR tbl (16 * n) = true → xlated s x needR tbl (16 * n) = .ok ps →
      let es := entriesOf (piecesBytes s ps)
      let rs := es.map (fun e => (field e 56 0, field e 95 64))
      let size := 128 * rs.foldl (fun n r => n + r.2) 0
      let ctx := qCtx x.desc
      (∀ e ∈ es, field e 63 57 = 0 ∧ field e 127 96 = 0 ∧ field e 56 0 % 128 = 0 ∧ field e 95 64 ≠ 0) →
      rangeOk ranges needW area size = true → snapLines s x (snapPairs area rs) = .ok todo →
      (snapOverlap s ctx rs area size = true → halts (.snap tbl n area) 8) ∧
      (snapOverlap s ctx rs area size = false →
        ∃ t, exec (.snap tbl n area) s = .next (after t) ∧ t = { s with ctxs := t.ctxs } ∧
          (ctxRec t ctx).snap = some ⟨todo⟩ ∧ (tlOf t ctx snapHandle).issued = (tlOf s ctx snapHandle).issued + 1 ∧
          (tlOf t ctx snapHandle).value = (tlOf s ctx snapHandle).value))

/-- R15, R16, R17, R311, R390, R393, R44. LAUNCH reads its header and takes the next launch serial; a header that the
validator refuses ends there, and one that passes is a grid at the dependence wait, which goes on to lease set-up
once its conditions hold; CLAUNCH does the same with splicer starts, or without a header only starts them. -/
def Obligations.Launches : Prop :=
  ∀ (s : State) (q : Nat) (x : Queue), s.issuer = .queue q → queueRec s q = x → Undisturbed s →
    let ctx := qCtx x.desc
    let d := descOf s ctx
    let n := s.launchSerial
    let halts (i : Instr) (err : Nat) : Prop := exec i s = .next (showStatus s (haltQueue s q err (packetAddr x)) q)
    (∀ hdr rank es ps, rangeTable s x = .ok es → xlated s x needR hdr 128 = .ok ps →
      let h : BitVec 1024 := BitVec.ofNat 1024 (leNat (piecesBytes s ps))
      let launches (i : Instr) (cl : Option (Nat × Word × Nat)) : Prop :=
        (refusalOf s ctx d h rank = none → condsHold s ctx x.conds = false → ∃ t, exec i s = .next t ∧
          t.launchSerial = (n + 1) % 2 ^ 64 ∧
          (tget t.grids n).map (fun g => { g with ldk := [] }) = some (newGrid s ctx q rank d h x.conds cl) ∧
          (queueRec t q).launching = some n ∧ (queueRec t q).st = 2 ∧
          (queueRec t q).levels = (pastPacket x).levels ∧ (ctxRec t ctx).mbx = field d 540 528) ∧
        (refusalOf s ctx d h rank = none → condsHold s ctx x.conds = true → hLeaseCnt h = 0 → hMulti h = false →
          ∃ t, exec i s = .next t ∧ t.launchSerial = (n + 1) % 2 ^ 64 ∧
          (tget t.grids n).map (fun g => { g with ldk := [] }) = some { newGrid s ctx q rank d h x.conds cl with
            stage := if firstGang h rank = firstGang h (rank + 1) then 7 else 5
            conds := [], waitSince := cycleOf s 0 } ∧
          (queueRec t q).launching = none ∧ (queueRec t q).conds = [] ∧ (queueRec t q).st = 1) ∧
        (∀ c, refusalOf s ctx d h rank = some c → ∃ t, exec i s = .next t ∧ t.launchSerial = (n + 1) % 2 ^ 64 ∧
          tget t.grids n = none ∧ field (queueRec t q).record 6 0 = c ∧ field (queueRec t q).record 447 384 = n % 2 ^ 64 ∧
          (queueRec t q).launching = none)
      hdr % 128 = 0 → d.getLsbD 3 = false → (rangeOk es needR hdr 128 = true → launches (.launch hdr rank) none) ∧
      ∀ (tbl : Nat) (mask : Word) (c : Nat), tbl % 64 = 0 → hdr ≠ 0 →
        (∀ l ∈ lanesOf mask, startable s (8 * l + c) = true) →
        (∀ a ∈ claunchReads tbl hdr (lanesOf mask), rangeOk es a.1 a.2.1 a.2.2 = true) →
        recordsFail s x tbl (lanesOf mask) = none → launches (.claunch tbl mask c rank hdr) (some (tbl, mask, c))) ∧
    (∀ hdr rank, hdr % 128 ≠ 0 → halts (.launch hdr rank) 7) ∧
    ∀ (tbl : Nat) (mask : Word) (c : Nat), tbl % 64 = 0 →
      ((∃ l ∈ lanesOf mask, startable s (8 * l + c) = false) → halts (.claunch tbl mask c 0 0) 7) ∧
      (∀ es, (∀ l ∈ lanesOf mask, startable s (8 * l + c) = true) → rangeTable s x = .ok es →
        (∀ a ∈ claunchReads tbl 0 (lanesOf mask), rangeOk es a.1 a.2.1 a.2.2 = true) →
        recordsFail s x tbl (lanesOf mask) = none →
        (condsHold s ctx x.conds = true → exec (.claunch tbl mask c 0 0) s = .next (showStatus s
          (setQueue (claunchStart s ctx (some (tbl, mask, c))) q (packetDone (pastPacket { x with conds := [] }))) q)) ∧
        (condsHold s ctx x.conds = false → exec (.claunch tbl mask c 0 0) s = .next (showStatus s (takeSlot s q) q)))

/-- R269, R311, R166, R386, R396, R389. What a queue waits for: a launch whose conditions hold goes on to lease
set-up; a page that the driver has mapped lets its queue fetch or its launch walk again, and one that it declines
refuses the launch with fault 0x22; with all 16 wait slots held the queue that has held one longest is parked, and a
parked queue whose condition holds takes a free slot, or wants the next one that becomes free; a hardware queue is
enabled, empty, once its ring is resident, and the lanes that still wait on it are served; a background copy of a
snapshot writes the next line to the area, and its poison with it, and is no conflict for an open take that has read the area,
which is stale from then on where the bytes have changed (log 103). When a page has been served is given from outside
(log 68). -/
def Obligations.WaitsOfQueues : Prop :=
  ∀ (s : State),
    (∀ q n g, (queueRec s q).launching = some n → tget s.grids n = some g →
      (g.stage = 3 → condsHold s g.ctx g.conds = true → (queueRec s q).st ≠ 3 →
        exec (.launchConditionsSatisfied q) s = .next (writeStatus (leaseSetup (setGrid
          (setQueue s q { queueRec s q with slot := none, wants := none, st := 2 }) n { g with stage := 4, conds := [] }) n) q)) ∧
      ((g.stage ≠ 3 ∨ condsHold s g.ctx g.conds = false) → exec (.launchConditionsSatisfied q) s = .next s)) ∧
    (∀ n va, n < 64 → (queueRec s n).fetchPage = some va →
      let s1 := { s with pageFaults := s.pageFaults.filter (fun f => f.1 != n) }
      ((queueRec s n).st = 2 → exec (.pageServiceResume n) s = .next (putQueue s1 n { queueRec s n with
        fetchPage := none, slot := none, wants := none, st := 1 })) ∧
      ((queueRec s n).st ≠ 2 → exec (.pageServiceResume n) s =
        .next (setQueue s1 n { queueRec s n with fetchPage := none }))) ∧
    (∀ n g va, tget s.grids n = some g → g.page = some va → g.stage = 4 →
      let s1 := { s with pageFaults := s.pageFaults.filter (fun f => f.1 != 64 + n) }
      (∀ es fixed, (∀ e ∈ s.wgs, e.2.stash = []) → readLeases s1 g.ctx g.desc g.hdr = .ok es → walkLeases s1 g.desc es [] = .ok fixed →
        hMulti g.hdr = false → (queueRec s g.queue).launching ≠ some n → ∃ t, exec (.pageServiceResume (64 + n)) s = .next t ∧
          tget t.grids n = some { g with
            stage := if g.nextGang = g.lastGang then 7 else 5
            leases := es, fixed := fixed, page := none, waitSince := cycleOf s 0 } ∧
          ∀ e ∈ t.pageFaults, e.1 ≠ 64 + n) ∧
      (∀ a, (∀ e ∈ s.wgs, e.2.stash = []) → readLeases s1 g.ctx g.desc g.hdr = .error (.page a) → ∃ t, exec (.pageServiceResume (64 + n)) s = .next t ∧
        tget t.grids n = some { g with page := some a } ∧ (64 + n, a) ∈ t.pageFaults) ∧
      (hMulti g.hdr = false → g.desc.getLsbD 3 = false → ∃ t, exec (.pageServiceDeclined n) s = .next t ∧
        tget t.grids n = none ∧ field (queueRec t g.queue).record 6 0 = 0x22 ∧
        field (queueRec t g.queue).record 319 256 = va % 2 ^ 64)) ∧
    (slotsHeld s < 16 → exec .waitSlotParking s = .next s) ∧
    (∀ q since, 16 ≤ slotsHeld s → conditionHolds s q = false → (queueRec s q).slot = some since →
      tget s.queues q = some (queueRec s q) → tsorted s.queues = true → since + 64 * usClocks ≤ cycleOf s 0 →
      (∀ e ∈ s.queues, ∀ u, e.2.slot = some u → e.1 ≠ q → since < u) →
      exec .waitSlotParking s = .next (putQueue s q { queueRec s q with
        slot := none, st := 3, parks := (queueRec s q).parks + 1, parkedAt := cycleOf s 0 })) ∧
    (∀ q, (queueRec s q).st = 3 → (queueRec s q).wants = none → (queueRec s q).parkedAt + 64 * usClocks ≤ cycleOf s 0 →
      (conditionHolds s q = true → slotsHeld s < 16 → tsorted s.queues = true → (∀ e ∈ s.queues, e.2.wants = none) →
        exec (.parkedConditionCheck q) s = .next (putQueue s q { queueRec s q with st := 2, slot := some (cycleOf s 0) })) ∧
      (conditionHolds s q = true → 16 ≤ slotsHeld s → tsorted s.queues = true → exec (.parkedConditionCheck q) s =
        .next (setQueue s q { queueRec s q with wants := some (cycleOf s 0) })) ∧
      (conditionHolds s q = false → exec (.parkedConditionCheck q) s =
        .next (setQueue s q { queueRec s q with parkedAt := cycleOf s 0 }))) ∧
    (∀ k d ps, (hwqRec s k).enabling = some d → ringWalk s d (ringPages d) = .ok ps → ∃ y : Hwq,
      y.recs = [] ∧ y.waiters = (hwqRec s k).waiters ∧ y.enabling = none ∧ y.ring = ps ∧ hqEn y.desc = hqEn d ∧
      hqCtx y.desc = hqCtx d ∧ hqPushed y.desc = 0 ∧ hqPopped y.desc = 0 ∧
      (let s1 := { s with pageFaults := s.pageFaults.filter (fun f => f.1 != hwqPageKey k) }
       let t := setHwq (tablesSeen s1 (descOf s (hqCtx d)) ((ringPages d).map (ringPart d))) k y
       exec (.hwqRingResident k) s = .next (hqServeAll t k) ∧
       (y.waiters = [] → exec (.hwqRingResident k) s = .next t) ∧
       ((∀ e ∈ s.wgs, e.2.stash = []) → t = setHwq s1 k y))) ∧
    ∀ (ctx p a : Nat) (r : List (Nat × Nat)), (∀ e ∈ s.wgs, e.2.stash = []) → s.mailboxes = [] →
      (ctxRec s ctx).snap = some ⟨(p, a) :: r⟩ → (p, a) ∉ r →
      (∀ e ∈ s.ctxs, ∀ sn, e.2.snap = some sn → ∀ y ∈ sn.todo, y.1 + 128 ≤ a ∨ a + 128 ≤ y.1) →
      ∃ t, exec (.snapshotBackgroundCopy ctx) s = .next t ∧
        (∀ j < 128, memByte t.mem (a + j) = memByte s.mem (p + j) ∧ (a + j ∈ t.poison ↔ p + j ∈ s.poison)) ∧
        (∀ x, x < a ∨ a + 128 ≤ x → memByte t.mem x = memByte s.mem x ∧ (x ∈ t.poison ↔ x ∈ s.poison)) ∧
        (ctxRec t ctx).snap = (if r = [] then none else some ⟨r⟩) ∧
        (r = [] → tlOf t ctx snapHandle = tlComplete (tlOf s ctx snapHandle) ((tlOf s ctx snapHandle).value + 1)) ∧
        (∀ k w, tget s.warps k = some w → tget t.warps k = some { w with take := w.take.map (fun tk =>
          if memBytes s.mem p 128 ≠ memBytes s.mem a 128 ∧ tk.readSet.any (fun n => (linesOf a 128).contains n) = true then
            { tk with stale := true } else tk) }) ∧
        t = { s with mem := t.mem, grids := t.grids, poison := t.poison, ctxs := t.ctxs, warps := t.warps }

/-- R26, R27, R14, R29, R312, R46, R178, R324, R43. A gang whose members all fit is placed at once, each member on a
core of its own in one cluster with its LM region and its warps in the lowest free places, and a gang that has waited 500 µs sets the
limit; the deferred adds of a grid whose workgroups have ended are applied in the order of their threads, those of one
thread in their own order, and a line that fabric memory refuses ends the grid with 0x12 (log 104); then, with no
copy and no access outstanding, the grid completes and its queue reports its serial; a kill ends a live grid with cause 0x75: its units, workgroups and
adds are gone. Of a grid over several packages the two events stand for its end
on every package, once its gate has opened (log 107). Which of the possible places is taken is the event's operand (log 83), which
slots and LM bytes there logs 100 and 101. -/
def Obligations.GridsFromPlacementToEnd : Prop :=
  ∀ (s : State) (n : Nat) (g : Grid), tget s.grids n = some g →
    (∀ pick, placeNext s pick = none → exec (.gangPlacement pick) s = .next s) ∧
    (∀ pick cores, s.grids = [(n, g)] → g.stage = 5 → hMulti g.hdr = false → g.claunch = none →
      g.nextGang + 1 = g.lastGang → placesNow s g.ctx = true → (ctxRec s g.ctx).saved = [] →
      pickPlace s (gangRoom g.hdr) pick = some cores →
      (∀ i < hGangSize g.hdr, tget s.wgs (n * 2 ^ 64 + wgNumberOf g.hdr g.nextGang i) = none) →
      (∀ i < hGangSize g.hdr, ∀ j < hGangSize g.hdr, wgNumberOf g.hdr g.nextGang i = wgNumberOf g.hdr g.nextGang j →
        i = j) →
      ∃ t, exec (.gangPlacement pick) s = .next t ∧
        tget t.grids n = some { g with
          nextGang := g.lastGang, waitSince := cycleOf s 0, limitHit := false, stage := 7, anyBegun := true } ∧
        cores.length = hGangSize g.hdr ∧ cores.Nodup ∧ (∃ cl, ∀ c ∈ cores, c / 4 = cl) ∧
        ∀ m c, cores[m]? = some c →
          let wg := n * 2 ^ 64 + wgNumberOf g.hdr g.nextGang m
          coreOn s c = true ∧
          tget t.wgs wg = some ⟨wgNumberOf g.hdr g.nextGang m, g.nextGang, m, some c, true,
            (lmFit s c (hLmSize g.hdr)).getD 0, [], [], [], 0, [], [], [], 0, 0, hN g.hdr, false⟩ ∧
          (∀ i < hWarps g.hdr, ∃ slot age, (freeSlots64 s c)[i]? = some slot ∧ tget t.warps (64 * c + slot) =
            some (freshWarp wg .launch i (roleOf g.hdr i) age (launchThreads g.hdr wg i))) ∧
          (hMx g.hdr = true → ∃ age, (coreRec t c).seq = some (freshSeq g.hdr wg age))) ∧
    exec (.gangWaitLimit n) s = .next (if (nextOf s (n, g)).isSome ∧ g.waitSince + 500 * usClocks ≤ cycleOf s 0 then
      setGrid s n { g with limitHit := true } else s) ∧
    (endedEverywhere s n g = (gridEnded s n g && (!hMulti g.hdr || g.gateOpen))) ∧
    (gridEnded s n g = true ↔ g.stage = 7 ∧ ∀ e ∈ s.wgs, serialOf e.1 ≠ n) ∧
    (endedEverywhere s n g = false → exec (.deferredAddApply n) s = .next s ∧ exec (.gridCompletion n) s = .next s) ∧
    (endedEverywhere s n g = true → (∃ a ∈ g.adds, refusedNow s a.pa 4 = true) →
      ∃ t u, exec (.deferredAddApply n) s = .next t ∧ t = endGrid u n (cpBlame 0x12) ∧ tget t.grids n = none) ∧
    (∀ adds : List DAdd, endedEverywhere s n g = true → Undisturbed s → (∀ a ∈ g.adds, refusedNow s a.pa 4 = false) →
      adds.Perm g.adds → adds.Pairwise (fun a b => keyLt (addKey b) (addKey a) = false) →
      (∀ key, adds.filter (fun a => addKey a == key) = g.adds.filter (fun a => addKey a == key)) →
      ∃ t, exec (.deferredAddApply n) s = .next t ∧
        (tget t.grids n).map (fun x => { x with ldk := [] }) = some { g with adds := [], ldk := [] } ∧
        (∀ pa, (∀ a ∈ adds, a.pa = pa ∨ a.pa + 4 ≤ pa ∨ pa + 4 ≤ a.pa) →
          memNat t.mem pa 4 = (adds.filter (fun a => a.pa == pa)).foldl
            (fun m a => (addWord a.fmt (BitVec.ofNat 32 m) a.val).toNat) (memNat s.mem pa 4)) ∧
        t = { s with mem := t.mem, grids := t.grids, poison := t.poison, ctxs := t.ctxs }) ∧
    (endedEverywhere s n g = true → g.adds = [] → (g.loads ≠ [] ∨ ∃ e ∈ s.cores, ∃ x ∈ e.2.copies, serialOf x.wg = n) →
      exec (.gridCompletion n) s = .next s) ∧
    (endedEverywhere s n g = true → g.adds = [] → g.loads = [] → (∀ e ∈ s.cores, ∀ x ∈ e.2.copies, serialOf x.wg ≠ n) →
      exec (.gridCompletion n) s = .next (putQueue { s with grids := tdel s.grids n } g.queue
        { queueRec s g.queue with lastSerial := n })) ∧
    (killable s n g = false → exec (.kill n) s = .next s) ∧
    (killable s n g = true → ∃ t, exec (.kill n) s = .next t ∧ t = endGrid s n (cpBlame 0x75) ∧
      tget t.grids n = none ∧ (∀ e ∈ t.warps, serialOf e.2.wg ≠ n) ∧ (∀ e ∈ t.wgs, serialOf e.1 ≠ n) ∧
      (g.desc.getLsbD 3 = false → field (queueRec t g.queue).record 6 0 = 0x75 ∧
        field (queueRec t g.queue).record 447 384 = n % 2 ^ 64))

/-- R316, R317, R320, R321, R322, R319. A drain sets its deadline, and completes where no workgroup is resident; its
cancellation lets the lanes that wait for it at YIELD go on; its deadline ends every resident grid of the context and
clears the context. An urgent freeze stops a victim, and with it the counts of its SLEEPs, and writes out the warp slot
that is claimed; its resumption lets a victim of which nothing is saved go on as it stands, its SLEEPs with the counts
that they have left. A round of continuity mode gives each agent that goes one
turn, from position k mod n of the list on, whose order is that of workgroup, kind and index; no round takes place while a
resumed context has saved gangs. What a drain leaves marked is log 62, what its deadline clears log 63, the units claimed log 61, the start of a
round log 66. -/
def Obligations.DrainsFreezesAndRounds : Prop :=
  ∀ (s : State) (ctx : Nat),
    let x := ctxRec s ctx
    let now := cycleOf s 0
    (x.drain.isSome = true ∨ x.drained = true → exec (.drain ctx) s = .next s) ∧
    (x.drain = none → x.drained = false →
      (residents s ctx = [] → exec (.drain ctx) s = .next (setCtx s ctx { x with drain := none, drained := true })) ∧
      (residents s ctx ≠ [] → (∀ wg ∈ residents s ctx, memberYields s wg = false) → exec (.drain ctx) s =
        if field (descOf s ctx) 46 31 = 0 then exec (.drainDeadline ctx) (setCtx s ctx { x with drain := some now })
        else .next (setCtx s ctx { x with drain := some (now + field (descOf s ctx) 46 31 * usClocks) }))) ∧
    (x.drain = none → exec (.drainCancel ctx) s = .next s ∧ exec (.drainDeadline ctx) s = .next s) ∧
    (∀ until_, x.drain = some until_ →
      (tsorted s.warps = true → (∀ e ∈ s.warps, e.2.sstep = false ∧ futLanes e.2 = 0 ∧ tsorted e.2.threads = true) →
        ∃ t, exec (.drainCancel ctx) s = .next t ∧ ctxRec t ctx = { x with drain := none, resuming := true } ∧
          t = { s with warps := t.warps, ctxs := t.ctxs } ∧
          ∀ k w, tget s.warps k = some w → ∃ w1, tget t.warps k = some w1 ∧ w1 = { w with threads := w1.threads } ∧
            ∀ l < 32, thr w1 l = (thr w l).map (fun y =>
              if ctxOfWg s w.wg = ctx ∧ y.wait = .drain then { y with pc := y.next, wait := .none } else y)) ∧
      (now < until_ → exec (.drainDeadline ctx) s = .next s) ∧
      (until_ ≤ now → ∃ t, exec (.drainDeadline ctx) s = .next t ∧
        (∀ e ∈ s.grids, e.2.ctx = ctx → (∃ w ∈ s.wgs, serialOf w.1 = e.1) → tget t.grids e.1 = none) ∧
        (ctxRec t ctx).futures = [] ∧ (ctxRec t ctx).tl = [] ∧ (ctxRec t ctx).saved = [] ∧ (ctxRec t ctx).drain = none ∧
        (ctxRec t ctx).round = 0 ∧ (ctxRec t ctx).resuming = false)) ∧
    (Undisturbed s → (∀ e ∈ s.cores, ∀ y ∈ e.2.copies, ctxOfWg s y.wg ≠ ctx) →
      (x.frozen = true → exec (.urgentFreeze ctx []) s = .next s) ∧
      (x.frozen = false → ∃ t, exec (.urgentFreeze ctx []) s = .next t ∧
        t = { setCtx s ctx { x with frozen := true } with warps := t.warps } ∧
        ∀ k w, tget s.warps k = some w → ∃ w1, tget t.warps k = some w1 ∧ w1 = { w with threads := w1.threads } ∧
          ∀ l < 32, thr w1 l = (thr w l).map (fun y => match y.wait with
            | .sleep u => if ctxOfWg s w.wg = ctx then { y with wait := .slept (u - wgClock s (coreOf k) w.wg) } else y
            | _ => y)) ∧
      ∀ k w, tget s.warps k = some w → ctxOfWg s w.wg = ctx → w.pend = [] →
        saveRoom s ctx (coreOf k) (warpBytes w) = true → (∀ y ∈ x.saved, y.wg ≠ w.wg) →
        ∃ t, exec (.urgentFreeze ctx [4 * k]) s = .next t ∧ tget t.warps k = none ∧ (ctxRec t ctx).frozen = true ∧
          (ctxRec t ctx).saved.map (fun y => (y.wg, y.warps)) =
            x.saved.map (fun y => (y.wg, y.warps)) ++ [(w.wg, [saveWarp s k w])]) ∧
    (x.frozen = false → x.drained = false → ∀ pick, exec (.victimResume ctx pick) s = .next s) ∧
    ((x.frozen = true ∨ x.drained = true) → x.saved = [] → tsorted s.warps = true → (∀ e ∈ s.grids, e.2.loads = []) →
      (∀ k w, tget s.warps k = some w → ctxOfWg s w.wg = ctx → latePends s k w.pend = []) →
      ∀ pick, ∃ t, exec (.victimResume ctx pick) s = .next t ∧
        t = { rereadDebug (setCtx s ctx { x with frozen := false, drained := false, resuming := true }) ctx with warps := t.warps } ∧
        ∀ k w, tget s.warps k = some w → ∃ w1, tget t.warps k = some w1 ∧ w1 = { w with threads := w1.threads } ∧
          ∀ l < 32, thr w1 l = (thr w l).map (fun y => match y.wait with
            | .slept r => if ctxOfWg s w.wg = ctx then { y with wait := .sleep (wgClock s (coreOf k) w.wg + r) } else y
            | _ => y)) ∧
    (contCtx s ctx = false ∨ s.round ≠ [] ∨ (x.resuming = true ∧ savedGangs s ctx ≠ []) →
      exec (.continuityRound ctx) s = .next s) ∧
    (contCtx s ctx = true → s.round = [] → (x.resuming = false ∨ savedGangs s ctx = []) → formBefore s = s →
      roundStart s ctx = s → ∃ order : List ((Nat × Nat × Nat × Nat) × Turn),
      order.Perm (agents s ctx) ∧ order.Pairwise (fun a b => keyLt b.1 a.1 = false) ∧
      let first := x.round % order.length
      let ts := ((order.drop first ++ order.take first).map (·.2)).filter (agentGoes s)
      exec (.continuityRound ctx) s = .next (if ts = [] then s
        else { setCtx s ctx { x with round := x.round + 1, resuming := false } with round := ts }))

/-- R25, R337, R338, R340, R344, R345, R417. The capture changes its state as the table says; an alignment pulse
writes one record a die through the filters, which is handed to memory; a sample, of which each interval of 2^SP
clocks takes one, takes the partition's slots in turn, and an empty slot adds to the idle count; the record of a warp says the reason, the PC
and the producer to blame, and one of an exited warp the PC of its EXIT (the code of the condition that SYNC names is a free
choice, log 2); while the capture is
stopped or frozen its record is dropped and counted; the debug commands set and clear the step mode of the warp they
name, let its parked lanes go on, and end the holds of a context. The phase of the pulse and of
the samples is log 69; an SP outside 8 to 24 counts as the nearest by log 71. -/
def Obligations.DebugAndCapture : Prop :=
  ∀ s : State,
    (∀ cmd : Fin 4,
      let i : Instr := match cmd with
        | 0 => .captureStart
        | 1 => .captureStop
        | 2 => .captureFreeze
        | 3 => .captureReset
      let next : Nat := match s.capState, cmd with
        | 0, 0 => 1
        | 2, 0 => 1
        | 1, 1 => 2
        | 1, 2 => 3
        | 2, 2 => 3
        | _, 3 => 0
        | c, _ => c
      s.capState < 4 → ∃ t, exec i s = .next t ∧ t.capState = next ∧ t.capCfg = s.capCfg ∧ t.grids = s.grids ∧
        t.warps = s.warps ∧ t.wgs = s.wgs ∧ (next = s.capState → t = s) ∧
        (cmd = 3 → s.capState ≠ 0 → t.capOff = 0 ∧ t.capDropped = 0 ∧ t.samplers = [] ∧ ∀ e ∈ t.ctxs, e.2.hist = [])) ∧
    (s.capTypes.getLsbD 5 = false → exec .alignmentPulse s = .next { s with pulse := s.pulse + 1 }) ∧
    (s.capTypes.getLsbD 5 = true → s.capState = 1 → s.dieEn = 1 → s.capLaunch.getLsbD 32 = false →
      s.capWgLo.getLsbD 63 = false → s.capCfg.getLsbD 8 = false →
      let size := 2 ^ max 16 (min 30 (field s.capCfg 4 0))
      let place (j : Nat) : Nat := s.capBase.toNat + (s.capOff + j) % size
      s.capOff < size → ∃ (t : State) (bs : List Byte), exec .alignmentPulse s = .next t ∧
        t = { s with pulse := s.pulse + 1, capOff := (s.capOff + 32) % size, posted := t.posted } ∧ bs.length = 32 ∧
        s.posted <+: t.posted ∧
        (t.posted.drop s.posted.length).flatMap (fun e => (List.range e.2.length).map (fun j => (e.1 + j, e.2.getD j 0))) =
          (List.range 32).map (fun j => (place j, bs.getD j 0)) ∧
        (∀ j < 8, bs.getD (16 + j) 0 = BitVec.ofNat 8 (cycleOf s 0 / 2 ^ (8 * j))) ∧
        (∀ j < 8, bs.getD (24 + j) 0 = BitVec.ofNat 8 (s.pulse / 2 ^ (8 * j)))) ∧
    (∀ c part, let key := 4 * c + part
      let sm := tgetD Sampler.empty s.samplers key
      let k := 64 * c + 16 * part + sm.slot
      let due : Nat := 1 + cycleOf s (c / 64) / 2 ^ max 8 (min 24 (field s.capCfg 20 16))
      let taken (sm : Sampler) : Sampler :=
        { sm with slot := (sm.slot + 1) % 16, exited := tdel sm.exited sm.slot, interval := due }
      ((s.capCfg.getLsbD 24 = false ∨ s.capState = 0 ∨ sm.interval = due) → exec (.stallSample c part) s = .next s) ∧
      (s.capCfg.getLsbD 24 = true → s.capState ≠ 0 → sm.interval ≠ due →
        (tget s.warps k = none → tget sm.exited sm.slot = none → exec (.stallSample c part) s =
          .next { s with samplers := tput s.samplers key { taken sm with idle := sm.idle + 1 } }) ∧
        (tget s.warps k = none → tget sm.exited sm.slot ≠ none → s.capTypes.getLsbD 1 = false →
          exec (.stallSample c part) s = .next { s with samplers := tput s.samplers key (taken sm) }) ∧
        (∀ w, tget s.warps k = some w → s.capTypes.getLsbD 1 = false → ∃ t, exec (.stallSample c part) s = .next t ∧
          t = { s with choices := t.choices, samplers := tput s.samplers key (taken sm) }) ∧
        (∀ w, tget s.warps k = some w → s.capTypes.getLsbD 1 = true → s.capLaunch.getLsbD 32 = false →
          s.capWgLo.getLsbD 63 = false → s.capState = 2 ∨ s.capState = 3 → ∃ t, exec (.stallSample c part) s = .next t ∧
          t = { s with choices := t.choices, capDropped := s.capDropped + 1,
                       samplers := tput s.samplers key (taken sm) }) ∧
        (s.capTypes.getLsbD 1 = true → s.capLaunch.getLsbD 32 = false → s.capWgLo.getLsbD 63 = false → s.capState = 1 →
          s.capCfg.getLsbD 8 = false → c < 256 → part < 4 → sm.slot < 16 →
          let size := 2 ^ max 16 (min 30 (field s.capCfg 4 0))
          let record (name : TName) (kind reason detail pc blame : Nat) : List Byte :=
            leBytes 16 (slate (serialOf name.wg) (wgNumber name.wg) name.n kind 1 (c / 64) (c % 64) 3) ++
              leBytes 8 (cycleOf s (c / 64)) ++ leBytes 8 pc ++ leBytes 8 blame ++
              leBytes 8 (reason + detail % 256 * 2 ^ 4 + part * 2 ^ 12 + sm.slot * 2 ^ 14)
          let writes (name : TName) (kind reason detail pc blame : Nat) : Prop := ∃ t, exec (.stallSample c part) s = .next t ∧
            t = { s with choices := t.choices, samplers := tput s.samplers key (taken sm),
                         capOff := (s.capOff + 48) % size,
                         posted := s.posted ++ [(s.capBase.toNat + s.capOff, record name kind reason detail pc blame)] }
          s.capOff + 48 ≤ size →
          (∀ pc name kind, tget s.warps k = none → tget sm.exited sm.slot = some (pc, name, kind) → confOf s name.wg = none →
            writes name kind 9 0 pc.toNat 0) ∧
          (∀ w, tget s.warps k = some w → confOf s w.wg = none →
            let l := sampleLane w
            let p := pcOf w l
            let of_ (n reason detail pc blame : Nat) : Prop :=
              writes ⟨w.wg, false, n, false⟩ (slateKind w) reason detail pc blame
            let next (reason detail blame : Nat) : Prop := of_ (sampleName w) reason detail (wordAddr p).toNat blame
            let free (x : Wait) : Prop := x = .none ∨ x = .headerOk
            (∀ x, sm.issued = some x → x.slot = sm.slot → of_ x.name 0 0 x.pc.toNat 0) ∧
            ((∀ x, sm.issued = some x → x.slot ≠ sm.slot) → ∀ y, thr w l = some y →
              (w.held = true ∨ y.wait = .debug → next 1 0 0) ∧
              (w.held = false →
                (∀ kind arg, y.wait = .header kind arg → ∃ blame, of_ (sampleName w) 4 kind p.hdr.toNat blame ∧
                  (kind ≠ 2 → blame = 0) ∧
                  (kind = 2 → (∀ e ∈ w.pend, e.token = true → e.reg.toNat = arg → ∃ e1 ∈ w.pend, e1.token = true ∧
                    e1.reg.toNat = arg ∧ blame = e1.pc.toNat) ∧
                    ((∀ e ∈ w.pend, e.token = true → e.reg.toNat ≠ arg) → blame = 0))) ∧
                (free y.wait → w.act = 0 → headerPending s w p = none → next 2 0 0) ∧
                (∀ e, free y.wait → w.act = 0 → headerPending s w p = some e → next 3 0 e.pc.toNat) ∧
                (∀ e, free y.wait → w.act ≠ 0 → blamed w (blockers s k w) = some e → next 3 0 e.pc.toNat) ∧
                (free y.wait → w.act ≠ 0 → blamed w (blockers s k w) = none →
                  (copyStalls s k w = true → next 3 0 0) ∧
                  (copyStalls s k w = false → wordStalls s k w = true → next 6 0 0) ∧
                  (copyStalls s k w = false → wordStalls s k w = false → next 7 0 0)) ∧
                ((∀ kind arg, y.wait ≠ .header kind arg) → ¬ free y.wait → y.wait ≠ .debug →
                  ∃ detail, next 5 detail 0))))))) ∧
    (∀ ctx, let named (w : Warp) : Bool := dbgNamed s ctx w
      (∃ t, exec (.setSstep ctx) s = .next t ∧ t = { s with warps := t.warps, ctxs := t.ctxs } ∧
        ∀ k, tget t.warps k = (tget s.warps k).map (fun w => if named w then { w with sstep := true } else w)) ∧
      (∃ t, exec (.clearSstep ctx) s = .next t ∧ t = { s with warps := t.warps, ctxs := t.ctxs } ∧
        ∀ k, tget t.warps k = (tget s.warps k).map (fun w => if named w then { w with sstep := false } else w)) ∧
      (∃ t, exec (.resumeParked ctx) s = .next t ∧ t = { s with warps := t.warps, ctxs := t.ctxs } ∧
        ∀ k w, tget s.warps k = some w → tsorted w.threads = true → ∃ w1, tget t.warps k = some w1 ∧
          w1 = { w with threads := w1.threads, act := w1.act, cand := w1.cand } ∧
          (∀ l < 32, thr w1 l = (thr w l).map (fun x =>
            if named w ∧ x.wait = .debug then { x with wait := .none } else x)) ∧
          ((named w = true ∧ ∃ l < 32, (thr w l).map (·.wait) = some .debug) → w1.act = 0 ∧ w1.cand = 0) ∧
          (named w = false → w1 = w)) ∧
      (∃ t, exec (.releaseHolds ctx) s = .next t ∧
        t = { s with warps := t.warps, ctxs := t.ctxs, cores := t.cores, held := t.held } ∧
        ∀ k w, tget s.warps k = some w → ctxOfWg s w.wg = ctx → (dbgOf s w.wg).testBit 0 = true →
          tget t.warps k = some { w with held := false } ∧ ∀ h ∈ t.held, h.2.1 ≠ w.wg))

/-- R3, R263, R269, R384, R385, R399, R412, R415, R416, R417, R316, R404. A doorbell moves WPTR to a multiple of 4 below
the ring's size, in the descriptor that a packet at hand does not see yet; the descriptor windows take the fields that
software may write: a hardware queue's while it is disabled, a command queue's, a context's, whose reserved bits stay
zero, where VALID set gives a new future table, in memory too (R263), and timeline counters at 0 (R179), and VALID cleared destroys the key; EVCFG's enable zeroes the event ring, the balance
register ignores reserved modes, and a write to a register of BAR0 reaches the register its offset names. That
EVCFG's enable zeroes the ring's indexes is log 71, CONF while in use log 70, what a disable of a hardware queue
drops log 72. -/
def Obligations.HostRegisters : Prop :=
  ∀ s : State,
    (∀ q (v : Word), q < 64 →
      let x := queueRec s q
      let old := x.fresh.getD x.desc
      (v.toNat % 4 = 0 → v.toNat < 2 ^ qLog old → ∃ d,
        (x.st = 2 ∨ x.st = 3 → exec (.doorbellWrite q 0 v) s = .next (setQueue s q { x with fresh := some d })) ∧
        (x.st ≠ 2 → x.st ≠ 3 → exec (.doorbellWrite q 0 v) s = .next (setQueue s q { x with desc := d })) ∧
        qWptr d = v.toNat ∧ qRptr d = qRptr old ∧ qBase d = qBase old ∧ qEn d = qEn old) ∧
      ((v.toNat % 4 ≠ 0 ∨ 2 ^ qLog old ≤ v.toNat) → exec (.doorbellWrite q 0 v) s = .next s)) ∧
    (∀ k v, v < 2 ^ 64 → (hwqRec s k).enabling = none →
      (hqEn (hwqRec s k).desc = false → v % 2 = 1 → ∃ e, exec (.hwqDescriptorWrite k 0 8 v) s =
        .next (setHwq s k { hwqRec s k with desc := e, enabling := some (setField e 0 0 1) }) ∧
        hqCtx e = v / 2 ^ 48 % 2 ^ 12 ∧ hqEn e = false) ∧
      (hqEn (hwqRec s k).desc = true → v % 2 = 1 → exec (.hwqDescriptorWrite k 0 8 v) s = .next s) ∧
      (hqEn (hwqRec s k).desc = true → v % 2 = 0 → ∃ t, exec (.hwqDescriptorWrite k 0 8 v) s = .next t ∧
        hqEn (hwqRec t k).desc = false ∧ (hwqRec t k).recs = [] ∧ (hwqRec t k).ring = [] ∧
        hqPushed (hwqRec t k).desc = hqPushed (hwqRec s k).desc)) ∧
    (∀ n v, v < 2 ^ 64 → let old := descOf s n
      let new := v / 2 ^ 3 % 2
      (new = field old 3 3 → ∃ t, exec (.contextDescriptorWrite n 0 8 v) s = .next t ∧
        field (descOf t n) 63 0 = v / 2 ^ 15 * 2 ^ 15 + v % 2 ^ 4 ∧ ctxClean (descOf t n) = descOf t n ∧
        (ctxClean old = old → field (descOf t n) 1023 64 = field old 1023 64) ∧
        (∀ m, m ≠ n → descOf t m = descOf s m) ∧
        (old.getLsbD 0 = true → v % 2 = 0 → (ctxRec t n).granules = [] ∧ (ctxRec t n).mbx = 0) ∧
        (old.getLsbD 0 = false → v % 2 = 1 → (ctxRec t n).round = 0 ∧ (ctxRec t n).choices = 0 ∧
          (ctxRec t n).futures = [] ∧ (ctxRec t n).tl = [] ∧
          t.mem = (futInit (setCtx { s with ctxDesc := t.ctxDesc } n { ctxRec s n with
            round := 0, choices := 0, futures := [], tl := [] }) n (descOf t n)).mem)) ∧
      (new ≠ field old 3 3 → confFree s n = false → ∃ t, exec (.contextDescriptorWrite n 0 8 v) s = .next t ∧
        field (descOf t n) 3 3 = field old 3 3)) ∧
    (∀ v : DWord, ∃ t, exec (.evcfgWrite v) s = .next t ∧
      t = { s with evCfg := t.evCfg, evHead := t.evHead, evTail := t.evTail } ∧
      t.evCfg.getLsbD 31 = v.getLsbD 31 ∧ field t.evCfg 15 8 = field v 15 8 ∧ field t.evCfg 4 0 = field v 4 0 ∧
      (evEn s = false → v.getLsbD 31 = true → t.evHead = 0 ∧ t.evTail = 0) ∧
      ((evEn s = true ∨ v.getLsbD 31 = false) → t.evHead = s.evHead ∧ t.evTail = s.evTail)) ∧
    (∀ v : DWord, exec (.balanceWrite v) s = .next (if v.toNat % 8 ≤ 4 then { s with balance := v.extractLsb' 0 3 } else s)) ∧
    (∀ (off size v : Nat), (size ≠ 4 ∧ size ≠ 8 ∨ off % size ≠ 0) → exec (.registerWrite off size v) s = .next s) ∧
    (∀ v : DWord, exec (.registerWrite 0x108 8 v.toNat) s = exec (.balanceWrite (v &&& 7)) s ∧
      exec (.registerWrite 0x128 8 v.toNat) s = exec (.evcfgWrite v) s ∧
      exec (.registerWrite 0x130 4 (v.toNat % 2 ^ 32)) s = .next { s with evHead := v.extractLsb' 0 32 } ∧
      (let base : DWord := BitVec.ofNat 64 (s.evBase.toNat % 4096 + v.toNat / 4096 * 4096)
       exec (.registerWrite 0x120 8 v.toNat) s = .next { s with evBase := base }) ∧
      (∀ n < 4096, exec (.registerWrite (0x800000 + 128 * n) 8 v.toNat) s =
        exec (.contextDescriptorWrite n 0 8 v.toNat) s) ∧
      (∀ k < 2048, exec (.registerWrite (0x100000 + 32 * k) 8 v.toNat) s = exec (.hwqDescriptorWrite k 0 8 v.toNat) s) ∧
      (∀ k < 256, exec (.registerWrite (0x1000000 + 512 * k) 8 v.toNat) s = exec (.spcfgWrite k v) s))

/-- R398, R45, R64, R3. Each rung of the reset ladder: a queue's grids end with cause 0x79 and it stands idle at its
write pointer; the grids that use an engine end; a partition's cores, queues and tables are empty and its dies are
not ready; a die loses its DRAM's contents, its links and its CYCLE with it; a function-level reset leaves no
context, queue, grid or splicer state; a whole-device reset ends every grid, and after it every register holds its reset
value. What each
rung reaches beyond the words of R398 is the model's choice: logs 1, 73, 74 and 75. -/
def Obligations.Resets : Prop :=
  ∀ s : State,
    (∀ q < 64, ∃ t, exec (.resetQueue q) s = .next t ∧
      (∀ e ∈ s.grids, e.2.queue = q → tget t.grids e.1 = none) ∧
      let y := queueRec t q
      y.st = 0 ∧ y.err = 0 ∧ y.levels = [] ∧ y.conds = [] ∧ y.launching = none ∧ y.slot = none ∧ y.fetchPage = none ∧
      qRptr y.desc = qWptr y.desc ∧ qWptr y.desc = qWptr (hostDesc (queueRec s q))) ∧
    (∀ h : Word, (h.toNat / 2 ^ 28 = 2 ∨ h.toNat / 2 ^ 28 = 3) → ∃ t, exec (.resetEngine h) s = .next t ∧
      ∀ e ∈ s.grids, (∃ c ∈ s.cores, ∃ x ∈ c.2.copies, serialOf x.wg = e.1 ∧ x.handle = h.toNat) →
        tget t.grids e.1 = none) ∧
    (∀ h : Word, h.toNat / 2 ^ 28 = 4 → ∃ t, exec (.resetEngine h) s = .next t ∧
      ∀ c < 8, (splRec t (8 * (h.toNat / 2 ^ 5 % 32) + c)).st = 0) ∧
    (∀ dies : BitVec 4, ∃ t, exec (.resetPartition dies) s = .next t ∧
      (∀ e ∈ t.warps, dies.getLsbD (e.1 / 4096) = false) ∧ (∀ e ∈ t.cores, dies.getLsbD (e.1 / 64) = false) ∧
      (∀ e ∈ t.hwqs, dies.getLsbD (e.1 / 512) = false) ∧ (∀ e ∈ t.netMatch, dies.getLsbD e.1 = false) ∧
      (∀ l < 32, dies.getLsbD (l / 8) = true → ∀ c < 8, (splRec t (8 * l + c)).st = 0) ∧
      ∀ d < 4, t.ready.getLsbD (2 + d) = (s.ready.getLsbD (2 + d) && !dies.getLsbD d)) ∧
    (∀ die < 4, ∃ t, exec (.resetDie die) s = .next t ∧
      (∀ a, die * 2 ^ 36 ≤ a → a < (die + 1) * 2 ^ 36 → memByte t.mem a = memDefault) ∧
      cycleOf t die = 0 ∧ (∀ d, d ≠ die → cycleOf t d = cycleOf s d) ∧
      (∀ e ∈ t.links, e.1 / 8 ≠ die) ∧ (∀ e ∈ t.cores, e.1 / 64 ≠ die)) ∧
    (∃ t, exec .functionLevelReset s = .next t ∧ t.ctxDesc = [] ∧ t.ctxs = [] ∧ t.queues = [] ∧ t.hwqs = [] ∧
      t.grids = [] ∧ t.wgs = [] ∧ t.warps = [] ∧ t.cores = [] ∧ t.mailboxes = [] ∧ t.netMatch = [] ∧ t.splicers = [] ∧
      t.cycle = [] ∧ t.lead = s.lead ∧ t.links.map (·.1) = s.links.map (·.1)) ∧
    (let u := performPosted (resetGrids s (s.grids.map (·.1)))
     (∀ n, tget u.grids n = none) ∧ (s.grids = [] → s.posted = [] → u = s) ∧
     exec .wholeDeviceReset s = .next { State.reset with
      mem := u.mem.filter (fun c => decide (2 ^ 55 ≤ c.1))
      poison := u.poison.filter (fun p => decide (2 ^ 55 ≤ p) && decide (p < 2 ^ 57))
      dieEn := u.dieEn, coreEn := u.coreEn, lp6En := u.lp6En, linkEn := u.linkEn, minVersion := u.minVersion
      choices := u.choices, fresh := u.fresh, turns := u.turns, sent := u.sent })

/-- R171, R382, R383, R402, R403, R404, R406, R408, R409, R410, R411, R412, R413, R414. A live update needs a valid
signature and a version not below the minimum, else the stand-in stays in reset, and a state table of a version that the
new image accepts, else it reports the refusal; it takes over at a packet boundary; measurements are extended by SHA-384
and reported, the minimum only rises; units become ready, a firmware complex with an image that the root verifies alone;
an uncorrected error poisons the line, word, byte, register or matrix storage that it meets, takes its link down, or ends
its grid; the host reads and writes memory, ciphertext of bound granules;
temperature and power lower clocks and link widths and change nothing else. Signatures and ciphertext are the free
values of logs 6 and 12, SHA-384 is that of log 102; the width step is log 60, the moments of measurement log 77, the operand of an error
log 78. -/
def Obligations.FirmwareErrorsAndPower : Prop :=
  ∀ s : State,
    (∀ image version table,
      let good : Prop := Config.sigValid image = true ∧ s.minVersion ≤ version ∧ image ≠ []
      (¬ good → ∃ t, exec (.liveUpdate image version table) s = .next t ∧ t.standIn = ([], 0) ∧ t.takeover = false ∧
        (∀ b < 64, t.ready.getLsbD b = (s.ready.getLsbD b && decide (b ≠ 1))) ∧
        (s.ready.getLsbD 1 = false → t = { s with standIn := ([], 0), takeover := false }) ∧
        (s.ready.getLsbD 1 = true → evEn s = false → t = { s with
          standIn := ([], 0), takeover := false, ready := t.ready,
          evLost := if s.evLost = BitVec.allOnes 32 then s.evLost else s.evLost + 1 })) ∧
      (good → Config.tableAccepted image table = false → exec (.liveUpdate image version table) s =
        .next { s with sent := s.sent ++ [⟨sentRefused, [table.toNat], []⟩] }) ∧
      (good → Config.tableAccepted image table = true → ∃ t, exec (.liveUpdate image version table) s = .next t ∧
        t = { s with standIn := (image, version), takeover := true, measures := t.measures } ∧
        tgetD 0 t.measures 2 = sha384 (measureBytes (tgetD 0 s.measures 2) ++ image) ∧
        ∀ i, i ≠ 2 → tgetD 0 t.measures i = tgetD 0 s.measures i)) ∧
    ((s.takeover = false ∨ ∃ e ∈ s.queues, e.2.launching ≠ none) → exec .standInTakeover s = .next s) ∧
    (s.takeover = true → (∀ e ∈ s.queues, e.2.launching = none) → ∃ t, exec .standInTakeover s = .next t ∧
      t = { s with lead := s.standIn, standIn := s.lead, takeover := false, queues := t.queues, measures := t.measures } ∧
      (∀ e ∈ t.queues, ∀ l ∈ e.2.levels, l.ahead = []) ∧
      tgetD 0 t.measures 1 = sha384 (measureBytes (tgetD 0 s.measures 1) ++ s.standIn.1)) ∧
    (∀ nonce, let xs := (List.range 8).map (fun i => (tgetD 0 s.measures i).toNat) ++
        [s.lead.2, s.standIn.2, BitVec.toNat nonce]
      exec (.spdmMeasurementRequest nonce) s =
        .next { s with sent := s.sent ++ [⟨sentSpdm, xs ++ [Config.idSign xs], []⟩] }) ∧
    (∀ v, exec (.spdmCommitMinimum v) s = .next { s with minVersion := max s.minVersion v }) ∧
    (∀ b image version, b < 64 →
      let good : Prop := Config.sigValid image = true ∧ s.minVersion ≤ version ∧ image ≠ []
      (unitOn s b = true → s.ready.getLsbD b = false → (b < 2 → good) → ∃ t,
        exec (.unitReady ⟨b, image, version⟩) s = .next t ∧
        (∀ c < 64, t.ready.getLsbD c = (s.ready.getLsbD c || decide (c = b))) ∧
        t.lead = (if b = 0 then (image, version) else s.lead) ∧
        t.standIn = (if b = 1 then (image, version) else s.standIn) ∧
        (b = 0 → tgetD 0 t.measures 0 = sha384 (measureBytes (tgetD 0 s.measures 0) ++ Config.bootImage) ∧
          tgetD 0 t.measures 1 = sha384 (measureBytes (tgetD 0 s.measures 1) ++ image))) ∧
      (unitOn s b = false ∨ s.ready.getLsbD b = true ∨ b < 2 ∧ ¬ good →
        exec (.unitReady ⟨b, image, version⟩) s = .next s)) ∧
    (∀ die cls unit at_, cls < 9 → evEn s = false →
      let lost := if s.evLost = BitVec.allOnes 32 then s.evLost else s.evLost + 1
      (cls ≠ 7 → exec (.softError cls ⟨die, unit⟩ at_ true) s = .next { s with evLost := lost }) ∧
      ((cls = 0 ∨ cls = 1) → ∃ t, exec (.softError cls ⟨die, unit⟩ at_ false) s = .next t ∧
        (∀ a, a ∈ t.poison ↔ a ∈ s.poison ∨ a / 128 = at_ / 128) ∧ t = { s with poison := t.poison, evLost := lost }) ∧
      ((cls = 2 ∨ cls = 3) → ∃ t, exec (.softError cls ⟨die, unit⟩ at_ false) s = .next t ∧
        (∀ a, a ∈ t.poison ↔ a ∈ s.poison ∨ a / 4 = at_ / 4) ∧ t = { s with poison := t.poison, evLost := lost }) ∧
      (cls = 4 → ∀ w, tget s.warps (at_ / 2 ^ 13) = some w → exec (.softError cls ⟨die, unit⟩ at_ false) s =
        .next { setWarp s (at_ / 2 ^ 13) { w with spoilt := w.spoilt ++ [at_ % 2 ^ 13] } with evLost := lost }) ∧
      (cls = 5 → ∀ q, seqOf s (at_ / 2 ^ 24) = some q → exec (.softError cls ⟨die, unit⟩ at_ false) s =
        .next { setSeq s (at_ / 2 ^ 24) { q with spoilt := q.spoilt ++
          [at_ % 2 ^ 24 / 4 * 4, at_ % 2 ^ 24 / 4 * 4 + 1, at_ % 2 ^ 24 / 4 * 4 + 2, at_ % 2 ^ 24 / 4 * 4 + 3] }
          with evLost := lost }) ∧
      ((cls = 4 ∧ tget s.warps (at_ / 2 ^ 13) = none) ∨ (cls = 5 ∧ seqOf s (at_ / 2 ^ 24) = none) →
        exec (.softError cls ⟨die, unit⟩ at_ false) s = .next { s with evLost := lost }) ∧
      (cls = 6 → ∃ t, exec (.softError cls ⟨die, unit⟩ at_ false) s = .next t ∧
        (∀ a, a ∈ t.poison ↔ a ∈ s.poison ∨ a = at_) ∧ t = { s with poison := t.poison, evLost := lost }) ∧
      (cls = 7 → let x := linkRec s at_
        exec (.softError cls ⟨die, unit⟩ at_ true) s = .next { setLink s at_ { x with
          err := setField x.err 31 0 (min (2 ^ 32 - 1) (field x.err 31 0 + 1)), resent := x.resent + 1 } with evLost := lost }) ∧
      (cls = 7 → linkUpNow s at_ = true → ∃ t, exec (.softError cls ⟨die, unit⟩ at_ false) s = .next t ∧
        linkUpNow t at_ = false) ∧
      (cls = 8 → ∃ t, exec (.softError cls ⟨die, unit⟩ at_ false) s = .next t ∧ tget t.grids at_ = none)) ∧
    (∀ pa wr (data : List Byte) n,
      (∃ p ∈ granulePieces pa (if wr then data.length else n), physOk s p.1 = false ∨ physOk s (p.1 + p.2 - 1) = false) →
      exec (.hostMemoryAccess pa wr data n) s = .next s) ∧
    (∀ pa (data : List Byte), Undisturbed s → (∀ e ∈ s.queues, (topLevel e.2).ahead = []) →
      (∀ p ∈ granulePieces pa data.length, physOk s p.1 = true ∧ physOk s (p.1 + p.2 - 1) = true) →
      ∃ t, exec (.hostMemoryAccess pa true data 0) s = .next t ∧
        StoredAt s t data.length (pa + ·) (fun j =>
          if (boundTo s (pa + j)).isSome then memByte s.mem (pa + j) else data.getD j 0) ∧
        t = { s with mem := t.mem, grids := t.grids, poison := t.poison, ctxs := t.ctxs }) ∧
    (∀ pa n, Undisturbed s →
      (∀ p ∈ granulePieces pa n, physOk s p.1 = true ∧ physOk s (p.1 + p.2 - 1) = true) →
      let flag := if (List.range n).any (fun j => s.poison.contains (pa + j)) then 1 else 0
      let sees (j : Nat) : Byte :=
        let line := (pa + j) / 128
        match boundTo s (pa + j) with
        | none => memByte s.mem (pa + j)
        | some c => (Config.cipher c (128 * line) (memBytes s.mem (128 * line) 128)).getD ((pa + j) % 128) 0
      exec (.hostMemoryAccess pa false [] n) s =
        .next { s with sent := s.sent ++ [⟨sentRead, [pa, flag], (List.range n).map sees⟩] }) ∧
    (∃ t, exec .thermalThrottle s = .next t ∧ t.throttled = true ∧ t.warps = s.warps ∧ t.grids = s.grids) ∧
    exec .temperatureFall s = .next { s with throttled := false } ∧
    exec .thermalStop s = .next { s with stopped := true } ∧
    ∀ domain reached, (domain ≠ 2 → ∃ t, exec (.powerAllotmentReached domain reached) s = .next t ∧
        t = { s with allotment := t.allotment } ∧ (domain ∈ t.allotment ↔ reached = true)) ∧
      (domain = 2 → ∃ t, exec (.powerAllotmentReached domain reached) s = .next t ∧ t.warps = s.warps ∧ t.splicers = s.splicers ∧
        ∀ l < 32, linkOn s l = true → (linkRec t l).balWidth =
          if reached then min 2 ((linkRec s l).balWidth + 1) else (linkRec s l).balWidth - 1)

/-- R41, R43, R44, R333. A fault of a lane ends the whole grid: every warp, wave and workgroup of it is gone, the
queue records the cause, the address and the launch, and the other grids of the package go on. -/
def Obligations.FaultsEndTheGrid : Prop :=
  ∀ (s : State) (k : Nat) (w : Warp) (i : Instr) (g : Grid) (cause faddr lane tcode : Nat),
    Does i s k w (.fault cause faddr lane tcode) → tget s.grids (serialOf w.wg) = some g →
    (takeFault cause = false ∨ (members w).getLsbD lane = false) →
    let n := serialOf w.wg
    ∃ t, exec i s = .next t ∧ tget t.grids n = none ∧ (∀ e ∈ t.warps, serialOf e.2.wg ≠ n) ∧
      (∀ e ∈ t.wgs, serialOf e.1 ≠ n) ∧
      (∀ m, m ≠ n → (tget t.grids m).map (fun x => { x with ldk := [] }) =
        (tget s.grids m).map (fun x => { x with ldk := [] })) ∧
      (g.desc.getLsbD 3 = false → lateOf s n = [] →
        let r := (queueRec t g.queue).record
        field r 6 0 = cause % 128 ∧ field r 319 256 = faddr % 2 ^ 64 ∧
        field r 383 320 = (wordAddr (curPC (clearPass w))).toNat ∧ field r 447 384 = n % 2 ^ 64 ∧
        field r 255 192 = wgNumber w.wg % 2 ^ 64 ∧ field r 143 136 = tcode % 256 ∧ field r 101 97 = lane % 32)

/-- R25, R326, R336, R337. An address breakpoint parks the active lanes that it stops before the word issues,
wherever the word is a lane word; with SSTEP set a word that has retired parks its lanes at the next word. The mark
with which a resumed lane passes its breakpoint is log 23. -/
def Obligations.DebugTraps : Prop :=
  ∀ (s : State) (k : Nat) (w : Warp), tget s.warps k = some w → NoMember w → dbgOf s w.wg / 64 % 4 = 0 →
    (∀ regs body, anyPending w regs = false → abpLanes s w ≠ 0 →
      let m := abpLanes s w
      ∃ w1, tget (issueWord s k w regs body).warps k = some w1 ∧ w1.act = w.act &&& ~~~m ∧
        (∀ l, thr w1 l = (thr w l).map (fun x =>
          if m.getLsbD l then { x with wait := .debug, pass1 := wordAddr x.pc == wordAddr (curPC w) } else x)) ∧
        SameRegs w w1 ∧ (issueWord s k w regs body).wgs = s.wgs ∧ (issueWord s k w regs body).grids = s.grids) ∧
    ((∀ l, w.act.getLsbD l = true → ∃ x, thr w l = some x ∧ x.wait = .none) → tsorted w.threads = true →
      w.sstep = true → Issues s k w [] → ∃ t w1, exec .nop s = .next t ∧ tget t.warps k = some w1 ∧ w1.act = 0 ∧
        SameRegs w w1 ∧ ∀ l, thr w1 l = (thr w l).map (fun x => if w.act.getLsbD l then
          { x with pc := nextPC w, wait := .debug, pass1 := false } else x))

/-- R100, R101, R106, R107, R108, R109, R365, R366. Words written out from the encoding tables decode to the
instructions that they stand for, and words with an unlisted opcode or a bit set in an unused field decode to none. -/
def Obligations.DecodedWords : Prop :=
  decodeLaneWord 0x00050A03 none = .ok (.iadd 5 10 3) ∧
  decodeLaneWord 0x06010203 (some 0x04000000) = .ok (.imad 1 2 3 4) ∧
  decodeLaneWord 0x29C18001 none = .ok (.movi 0xC1 0x8001) ∧
  decodeLaneWord 0x2B070000 (some 0x3F800000) = .ok (.movl 7 0x3F800000) ∧
  decodeLaneWord 0x2C010203 (some 0x00005800) = .ok (.selp 1 2 3 5 1) ∧
  decodeLaneWord 0x39010203 (some 0x00018000) = .ok (.faddT 1 2 3 3) ∧
  decodeLaneWord 0x68010200 (some 0x00A00000) = .ok (.redux 1 2 10) ∧
  decodeLaneWord 0x70FFFFFE none = .ok (.bra (-2)) ∧
  decodeLaneWord 0x8B040608 (some 0x0A0A0200) = .ok (.atom 4 6 8 10 0 5 2) ∧
  decodeLaneWord 0x97000005 none = .ok (.claim 5) ∧
  decodeLaneWord 0xC6080003 none = .ok (.qpop 8 3) ∧
  decodeLaneWord 0xFE010123 none = .ok (.bkpt 0x0123) ∧
  decodeStreamWord 0x12123400 none = .ok (.mma 2 1 2 3 4) ∧
  decodeStreamWord 0x48700000 (some 0x80000001) = .ok (.sqsetLiteral 7 0x80000001) ∧
  decodeStreamWord 0x43012345 none = .ok (.sqend 0x12345) ∧
  decodeSplice 0x09120FFF = .ok (.addi 1 2 0xFFF) ∧
  decodeSplice 0x20A6AA40 = .ok (.xmitTag 5 3 5 5) ∧
  decodeLaneWord 0xA5000000 none = .bad 5 ∧ decodeLaneWord 0x76000001 none = .bad 6 ∧
  decodeLaneWord 0x32080102 none = .bad 7 ∧ decodeLaneWord 0x06010203 none = .bad 8 ∧
  decodeStreamWord 0x09000000 none = .bad 5 ∧ decodeSplice 0x03000000 = .bad 0x60 ∧ decodeSplice 0x01000001 = .bad 0x61

/-- R100, R101, R106 to R109, R365, R366. Decoding inverts encoding: the words of a well-formed lane, matrix-stream
or splice instruction, with every operand at every value that its encoding admits, decode to that instruction,
whatever word follows. R387, R388, R389. A packet of the command ring, laid out as the table gives it, decodes to that packet
at every value of its fields; an unlisted opcode is ERR 0x01, a reserved header bit or a wrong number of words ERR 0x04. That
a SIGNAL or WAIT with another SUB is ERR 0x04 is log 98. -/
def Obligations.DecodeInvertsEncode : Prop :=
  (∀ i : Instr, Sys2Proof.Laws.RoundTrip.Statement i) ∧
  (let hdr (opc nw sub : Nat) : Word := BitVec.ofNat 32 (opc + nw * 2 ^ 8 + sub * 2 ^ 24)
   let word (n : Nat) : Word := BitVec.ofNat 32 n
   let two (n : Nat) : List Word := [word n, word (n / 2 ^ 32)]
   let pair (v : DWord) : List Word := two v.toNat
   (∀ (a b : Nat) (v : DWord), a < 2 ^ 64 → b < 2 ^ 64 →
     (∀ body : List Word, body.length < 256 → decodePacket (hdr 0x00 body.length 0) body = .ok (.packetNop body.length)) ∧
     (∀ rank < 2 ^ 12, decodePacket (hdr 0x01 3 0) (two a ++ [word rank]) = .ok (.launch a rank)) ∧
     (∀ (links : Word), ∀ ctx < 8, ∀ rank < 2 ^ 12, decodePacket (hdr 0x02 6 0)
       (two a ++ [links, word (ctx + rank * 2 ^ 20)] ++ two b) = .ok (.claunch a links ctx rank b)) ∧
     (∀ recs : List (List Word), recs.length < 32 → (∀ x ∈ recs, x.length = 8) → ∀ core < 64, ∀ die < 4, ∀ queue < 8,
       decodePacket (hdr 0x03 (1 + 8 * recs.length) 0)
         (word (core + die * 2 ^ 6 + queue * 2 ^ 8 + recs.length * 2 ^ 11) :: recs.flatten) = .ok (.feed core die queue recs)) ∧
     (∀ core < 64, ∀ die < 4, ∀ all : Bool, decodePacket (hdr 0x04 1 0)
       [word (core + die * 2 ^ 6 + (if all then 2 ^ 8 else 0))] = .ok (.wake core die all)) ∧
     (∀ n < 2 ^ 32, decodePacket (hdr 0x05 3 0) (two a ++ [word n]) = .ok (.indirect a n)) ∧
     (∀ (x : Word), ∀ cond < 8, ∀ skip < 256, decodePacket (hdr 0x06 4 0)
       (two a ++ [x, word (cond + skip * 2 ^ 16)]) = .ok (.pred a x cond skip)) ∧
     (∀ n < 2 ^ 32, decodePacket (hdr 0x07 1 0) [word n] = .ok (.packetLoop n)) ∧
     decodePacket (hdr 0x08 0 0) [] = .ok .endloop ∧
     (∀ data : List Word, data ≠ [] → data.length < 254 →
       decodePacket (hdr 0x09 (2 + data.length) 0) (two a ++ data) = .ok (.write a data)) ∧
     (∀ n < 2 ^ 32, decodePacket (hdr 0x0A 5 0) (two a ++ two b ++ [word n]) = .ok (.copy a b n)) ∧
     decodePacket (hdr 0x0B 4 0) (two a ++ pair v) = .ok (.signalWrite a v) ∧
     decodePacket (hdr 0x0B 4 1) (two a ++ pair v) = .ok (.signalAdd a v) ∧
     decodePacket (hdr 0x0C 4 0) (two a ++ pair v) = .ok (.waitMemory a v) ∧
     (∀ h : Word, decodePacket (hdr 0x0C 4 1) ([h, 0] ++ pair v) = .ok (.waitTimeline h v)) ∧
     decodePacket (hdr 0x0D 0 0) [] = .ok .fetchfence ∧
     (∀ n < 2 ^ 16, decodePacket (hdr 0x0E 5 0) (two a ++ [word n] ++ two b) = .ok (.snap a n b)) ∧
     (∀ h : Word, decodePacket (hdr 0x0F 3 0) (h :: pair v) = .ok (.tlset h v)) ∧
     (∀ sub, 2 ≤ sub → sub < 256 → decodePacket (hdr 0x0B 4 sub) (two a ++ pair v) = .error 4 ∧
       decodePacket (hdr 0x0C 4 sub) (two a ++ pair v) = .error 4)) ∧
   ∀ (h : Word) (body : List Word),
     (0x0F < field h 7 0 → decodePacket h body = .error 1) ∧
     (field h 7 0 ≤ 0x0F → field h 23 16 ≠ 0 ∨ field h 15 8 ≠ body.length → decodePacket h body = .error 4))

/-- R94, R100, R326, R362, R366, R392, R413; log 3. A step whose turn is a warp's, a sequencer's, a splicer's or a
queue's runs the instruction that the word or packet at hand decodes to, with that agent as its issuer: a warp outside
continuity mode where its partition picks it, in continuity mode within a round; a splicer's word is fetched once. An
event that has come runs as it stands; then what settles settles and one clock passes. A package whose clocks have stopped
runs nothing but whole-device reset. Whose turn it is is the model's data (log 3), and that a step is a clock is log
10. -/
def Obligations.StepRunsWhatIsDecoded : Prop :=
  ∀ (s : State),
    let runs (i : Instr) (t : State) : Prop :=
      (∀ u, exec i t = .next u → step s = .next (finishStep t u)) ∧
      (∀ f, exec i t = .fault f → step s = .fault f) ∧ (∀ f, exec i t = .refused f → step s = .refused f)
    (s.stopped = false → s.events = [] → s.round = [] →
      (∀ k r w, s.turns = .warp k :: r → tget s.warps k = some w → mayIssue s w = true → contOfWg s w.wg = false →
        (advances { s with turns := r } k = true ∨
          standsBack { s with turns := r } k w = false ∧ outranked { s with turns := r } k w = false) →
        (∀ x i, w.act ≠ 0 → w.code[(curPC w).idx - 1]? = some x → decodeLaneWord x w.code[(curPC w).idx]? = .ok i →
          runs i { s with turns := r, issuer := .warp k }) ∧
        (w.act = 0 → runs .clauseIssue { s with turns := r, issuer := .warp k })) ∧
      (∀ c r q, s.turns = .seq c :: r → seqOf s c = some q → wgRuns s q.wg = true → q.held = false →
        q.halted = false → contOfWg s q.wg = false →
        (∀ x i, q.pc.idx ≠ 0 → q.code[q.pc.idx - 1]? = some x → decodeStreamWord x q.code[q.pc.idx]? = .ok i →
          runs i { s with turns := r, issuer := .seq c }) ∧
        (q.pc.idx = 0 → runs .clauseIssue { s with turns := r, issuer := .seq c })) ∧
      (∀ k r i, s.turns = .splicer k :: r → spChosen s (k / 8) = some k →
        (∀ v, (splRec s k).word = some v → decodeSplice v = .ok i →
          runs i { setSpl s k (splRec s k) with turns := r, issuer := .splicer k }) ∧
        (let v := windowWord s k (splRec s k) (splRec s k).pc 0
         (splRec s k).word = none → (splRec s k).pc < spLimit (splRec s k) → decodeSplice v = .ok i →
          runs i { setSpl s k { splRec s k with word := some v } with
            turns := r, choices := s.choices + 1, issuer := .splicer k })) ∧
      (∀ q r i t, s.turns = .queue q :: r → queueFetch { s with turns := r } q = .packet i t →
        runs i { t with issuer := .queue q })) ∧
    (s.stopped = false → s.events = [] →
      (∀ k r w, s.round = .warp k :: r → tget s.warps k = some w → mayIssue s w = true → contOfWg s w.wg = true →
        (∀ x i, w.act ≠ 0 → w.code[(curPC w).idx - 1]? = some x → decodeLaneWord x w.code[(curPC w).idx]? = .ok i →
          runs i { s with round := r, issuer := .warp k }) ∧
        (w.act = 0 → warpReady s k = true → runs .clauseIssue { s with issuer := .warp k })) ∧
      (∀ c r q, s.round = .seq c :: r → seqOf s c = some q → wgRuns s q.wg = true → q.held = false →
        q.halted = false → contOfWg s q.wg = true → ∀ x i, q.pc.idx ≠ 0 → q.code[q.pc.idx - 1]? = some x →
        decodeStreamWord x q.code[q.pc.idx]? = .ok i → runs i { s with round := r, issuer := .seq c })) ∧
    (∀ i r, s.events = i :: r → isWord i = false → (s.stopped = false ∨ i = .wholeDeviceReset) →
      runs i { s with events := r }) ∧
    (∀ i r, s.events = i :: r → s.stopped = true → i ≠ .wholeDeviceReset →
      step s = .next { s with events := r, issuer := .none }) ∧
    (s.stopped = true → s.events = [] → (∀ i r, s.turns ≠ .ev i :: r) →
      step s = .next { s with turns := s.turns.tail, issuer := .none })

/-- A step keeps memory in its canonical form: addresses rise strictly, and no listed byte is the one that an
unlisted address reads as. The form is the model's own; what an unlisted address reads as is log 1. -/
def Obligations.StepsKeepMemoryCanonical : Prop :=
  ∀ s t : State, Memory.wf s.mem = true → step s = .next t → Memory.wf t.mem = true

/-- R3, R64, R198, R263, R316, R344, R352, R357, R358, R384, R411, R416. After whole-device reset memory lists
nothing, in canonical form; every CYCLE is 0; nothing is ready; every register of the host's map has the reset value
that its field map gives: the event ring's, the links', the capture's with SP 8, the descriptors of queues and hardware
queues, the triggers and histograms, the splicers'; the measurement registers are zero; every context descriptor has
BINAGE 1,024 and else zero; no link is up; every splicer context is IDLE; nothing runs. Registers for which the spec
states no reset value hold the value of log 5, memory that of log 1, the fuse registers that of log 4. -/
def Obligations.ResetState : Prop :=
  let s := State.reset
  Memory.wf s.mem = true ∧ s.mem = [] ∧ (∀ d, cycleOf s d = 0) ∧ s.ready = 0 ∧ s.balance = 0 ∧ s.evBase = 0 ∧ s.evCfg = 0 ∧
  s.evHead = 0 ∧ s.evTail = 0 ∧ s.evLost = 0 ∧ s.capState = 0 ∧ s.capOff = 0 ∧ s.capDropped = 0 ∧
  s.capCfg = 0x80000 ∧ s.capBase = 0 ∧ s.capLaunch = 0 ∧ s.capWgLo = 0 ∧ s.capWgHi = 0 ∧ s.capTypes = 0 ∧ s.histCtx = 0 ∧
  s.dbgArg0 = 0 ∧ s.dbgArg1 = 0 ∧ s.dbgArg2 = 0 ∧ (∀ e, tgetD 0 s.triggers e = 0) ∧ (∀ e b, histShown s e b = 0) ∧
  (∀ i, tgetD 0 s.measures i = 0) ∧ s.minVersion = 0 ∧
  (∀ k, hwqRec s k = Hwq.empty ∧ (hwqRec s k).desc = 0 ∧ (hwqRec s k).enabling = none) ∧
  (∀ n, field (descOf s n) 30 15 = 1024 ∧ field (descOf s n) 14 0 = 0 ∧ field (descOf s n) 1023 31 = 0) ∧
  (∀ l, (linkRec s l).stat = 0 ∧ (linkRec s l).err = 0) ∧
  (∀ k, (splRec s k).st = spIdle ∧ (splRec s k).cfg = 0 ∧ spstat (splRec s k) = 0 ∧ (splRec s k).faddr = 0) ∧
  (∀ l w, tgetD 0 (linkRec s l).imem w = 0) ∧
  (∀ c, (ctxRec s c).round = 0 ∧ (ctxRec s c).drain = none ∧ ∀ h, (tlOf s c h).value = 0) ∧
  (∀ c h, (futEntry s c h).st = 0 ∧ (futEntry s c h).gen = 1 ∧ (futEntry s c h).val = 0) ∧
  (∀ q, queueRec s q = Queue.empty ∧ (queueRec s q).desc = 0 ∧ (queueRec s q).st = 0) ∧
  s.grids = [] ∧ s.wgs = [] ∧ s.warps = [] ∧ s.cores = []

/-- R178, R179, R202 to R205, R225, R234, R240 to R242, R273 to R277, R302 to R307, R334, R337, R338, R340, R344, R345, R380,
R417. Conditions on the state and the operands alone under which these forms complete, each with its own effect: FATOM
adds; an outstanding write comes in time, or its time is over; ACOPY, BCOPY and GATHER start a copy, which the event of its completion ends; MBXBIND, NMATCH and NUNMATCH bind, offer and withdraw,
and the arrival and the match make their tasks; SOLICIT, CENSUS and RESPOND, and the events of a census; WLOAD, MZERO,
MST, MLD and MACT, and the completion of an operation of a stream; the pulse, the samples and the commands of the
capture; and the debug commands. Copies and censuses of continuity mode complete within their words, of which the
statements on them tell. -/
def Obligations.FormsComplete : Prop :=
  (∀ (s : State) (k : Nat) (w : Warp), w.sstep = false → NoMember w → w.act ≠ 0 → contOfWg s w.wg = false →
    ∀ (d a b c : Fld) (sub : BitVec 4) (ty scope : BitVec 3),
    let l := low w
    let core := coreOf k
    let ls : List Nat := if d.toNat < 192 then lanesOf w.act else [l]
    let retires (i : Instr) (t : State) : Prop :=
      exec i s = .next t ∧ ∃ w1, tget t.warps k = some w1 ∧ GoesOn w w1
    let copies (i : Instr) (handle : Nat) : Prop := (coreRec s core).copies.length < 512 → ∃ t x, retires i t ∧
      (coreRec t core).copies = (coreRec s core).copies ++ [x] ∧ x.handle = handle ∧ x.token = d ∧ x.wg = w.wg ∧
      ∀ p, memByte t.mem p = memByte s.mem p
    (let toG : Bool := sub.toNat % 4 == 1
     let fromG : Bool := sub.toNat % 4 == 0
     let dst : Side := ⟨!toG, if toG then (rd64 w a l).toNat else (rd w a l).toNat⟩
     let src : Side := ⟨!fromG, if fromG then (rd64 w b l).toNat else (rd w b l).toNat⟩
     let x := (rd w c l).toNat
     let e := 2 ^ ty.toNat
     let nr := x % 256 + 1
     let nc := x / 256 % 256 + 1
     let pitch := (rd w (c + 1) l).toNat
     Issues s k w ([d] ++ (if toG then pair a else [a]) ++ (if fromG then pair b else [b]) ++
       (if sub.getLsbD 2 then pair c else [c])) →
     (toG = true → dst.at_ < 2 ^ 57) → (fromG = true → src.at_ < 2 ^ 57) →
     (sub.getLsbD 2 = false → x % 16 = 0 → 16 ≤ x → x ≤ 1048576 → dst.at_ % 16 = 0 → src.at_ % 16 = 0 →
       MayMove s w.wg needW dst [(0, x)] → MayMove s w.wg needR src [(0, x)] →
       copies (.acopy d a b c sub ty) (queueHandle k)) ∧
     (sub.getLsbD 2 = true → x < 2 ^ 16 → pitch % e = 0 → nc * e ≤ pitch → dst.at_ % e = 0 → src.at_ % e = 0 →
       MayMove s w.wg needW dst [(0, nr * nc * e)] →
       MayMove s w.wg needR src ((List.range nr).map (fun r => (r * pitch, nc * e))) →
       copies (.acopy d a b c sub ty) (queueHandle k))) ∧
    (let r := shReg s w.wg a.toNat
     let n := unitBytes (shFmt r)
     let ten : Side := ⟨false, shBase r⟩
     Issues s k w ([d] ++ pair b) → shapeBad r = false → shScale r = 0 →
     (sub.getLsbD 1 = true → shTrans r = false → (rd64 w b l).toNat < 2 ^ 57 →
       let im : Side := ⟨false, (rd64 w b l).toNat⟩
       let image : List (Nat × Nat) := [(0, (bulkUnits r).length * n)]
       let units := (bulkUnits r).map (fun u => (u.2, n))
       (if sub.getLsbD 0 then MayMove s w.wg needW ten units ∧ MayMove s w.wg needR im image
        else MayMove s w.wg needW im image ∧ MayMove s w.wg needR ten units) →
       copies (.bcopy d a b sub) (bulkHandle k)) ∧
     (sub.getLsbD 1 = false → (shTrans r = true → isTE (shFmt r) = false) →
       let o := (rd w (b + 1) l).toNat
       let us := tileUnits r (o % 2 ^ 16) (o / 2 ^ 16)
       let lm : Side := ⟨true, (rd w b l).toNat⟩
       let tile : List (Nat × Nat) := [(0, us.length * n)]
       let units := (us.filter (·.2.2)).map (fun u => (u.2.1, n))
       (isTE (shFmt r) = true → o % 16 = 0) →
       (if sub.getLsbD 0 then MayMove s w.wg needW ten units ∧ MayMove s w.wg needR lm tile
        else MayMove s w.wg needW lm tile ∧ MayMove s w.wg needR ten units) →
       copies (.bcopy d a b sub) (queueHandle k))) ∧
    (let n := 4 * 2 ^ ty.toNat
     let stride := (rd w c l).toNat
     Issues s k w ([d, a] ++ pair b ++ [c]) → (rd w a l).toNat % 4 = 0 → stride % 4 = 0 →
     (∀ x, w.act.getLsbD x = true → (rd64 w b x).toNat < 2 ^ 57 ∧ (rd64 w b x).toNat % n = 0 ∧
       leaseFault s w.wg needR (rd64 w b x).toNat n = none ∧ physFault s w.wg (rd64 w b x).toNat n = false ∧
       MayMove s w.wg needW ⟨true, (rd w a l).toNat⟩ [(x * stride, n)]) →
     copies (.gather d a b c ty) (queueHandle k)) ∧
    (∀ g : Grid, gridOfWg s w.wg = some g → Issues s k w (pair b ++ [c]) →
      (∀ x, w.act.getLsbD x = true → MayAccess s w.wg needRW 4 (gAddr w b a 4 x) ∧ (gridXlate s w.wg (gAddr w b a 4 x)).2 ≠ 2) →
      spilledAdds s g.ctx + 32 ≤ field g.desc 735 704 * 128 →
      ∃ t g1, retires (.fatom b a c sub ty) t ∧ tget t.grids (serialOf w.wg) = some g1 ∧
        g1.adds.length = g.adds.length + (lanesOf w.act).length ∧ ∀ p, memByte t.mem p = memByte s.mem p) ∧
    (∀ g : Grid, gridOfWg s w.wg = some g → Issues s k w (a :: regGroup b 4) →
      let va (x : Nat) : Nat := (rd64 w b x).toNat
      let key (x : Nat) : Nat := mbxKey g.ctx (rd w a x).toNat
      (∀ x y, w.act.getLsbD x = true → w.act.getLsbD y = true → x ≠ y → rd w a x ≠ rd w a y ∧
        (gridXlate s w.wg (va x)).1 ≠ (gridXlate s w.wg (va y)).1) →
      (∀ x, w.act.getLsbD x = true → (rd w a x).toNat < field g.desc 540 528 ∧ rd w (b + 2) x ≠ 0 ∧
        (rd w (b + 2) x).toNat % 4 = 0 ∧ va x % 8 = 0 ∧ MayMove s w.wg needR ⟨false, va x⟩ [(0, 8)] ∧
        tget s.mailboxes (key x) = none ∧ ∀ m ∈ s.mailboxes, m.2.pa ≠ (gridXlate s w.wg (va x)).1) →
      ∃ t, retires (.mbxbind a b) t ∧ ∀ x, w.act.getLsbD x = true → ∃ box, tget t.mailboxes (key x) = some box ∧
        box.wg = w.wg ∧ box.pa = (gridXlate s w.wg (va x)).1 ∧ box.arg = rd w (b + 3) x) ∧
    (let die := dieOf core
     let va (x : Nat) : Nat := (rd64 w b x).toNat
     let n (x : Nat) : Nat := (rd w (b + 3) x).toNat
     Issues s k w (a :: regGroup b 4 ++ [c]) →
     (∀ x, w.act.getLsbD x = true → rd w (b + 2) x ≠ 0 ∧ (rd w (b + 2) x).toNat % 4 = 0 ∧ 1 ≤ n x ∧ n x ≤ 16777216 ∧
       va x % 64 = 0 ∧ MayMove s w.wg needW ⟨false, va x⟩ [(0, n x)]) →
     ((matchTable s die).filter (fun e => !e.dead)).length + (lanesOf w.act).length ≤ 1024 →
     ∃ t, retires (.nmatch a b c) t ∧ (matchTable t die).map (fun e => (e.wg, e.tag, e.len)) =
       (matchTable s die).map (fun e => (e.wg, e.tag, e.len)) ++ (lanesOf w.act).map (fun x => (w.wg, rd w a x, n x))) ∧
    (Issues s k w [a] → ∃ t, retires (.nunmatch a) t ∧
      t.netMatch = ((lanesOf w.act).foldl (fun s x => unmatch s w.wg (rd w a x)) s).netMatch) ∧
    (Issues s k w ([d] ++ pair a ++ [b]) → (coreRec s core).solWait = [] →
      ls.length ≤ ((List.range 64).filter (fun i => (tget (coreRec s core).census i).isNone)).length →
      ∃ t w1, exec (.solicit d a b sub scope) s = .next t ∧ tget t.warps k = some w1 ∧ GoesOn w w1 ∧
        ∀ x ∈ ls, ∃ slot cen, tget (coreRec s core).census slot = none ∧ tget (coreRec t core).census slot = some cen ∧
          cen.word = rd w1 d x ∧ cen.key = rd64 w a x ∧ cen.arg = rd w b x) ∧
    (∀ cen : Nat → Census, Issues s k w [a, d] →
      (∀ x, w.act.getLsbD x = true → censusOf s k (rd w a x) = some (cen x)) →
      (sub = 3 ∨ ∀ x, w.act.getLsbD x = true → (cen x).todo = [] ∧ (cen x).due = [] ∧ (cen x).fabricDone = true ∧
        s.transit = []) →
      ∃ t w1, exec (.census d a sub) s = .next t ∧ tget t.warps k = some w1 ∧ GoesOn w w1 ∧
        WroteReg w w1 d (fun x => censusAnswer s sub (cen x))) ∧
    (Issues s k w [a] → w.kind = .responder →
      (∀ x y, w.act.getLsbD x = true → thr w x = some y → y.responded = false) →
      ∃ t w1, exec (.respond a sub) s = .next t ∧ tget t.warps k = some w1 ∧
        ∀ x, thr w1 x = (thr w x).map (fun y =>
          if w.act.getLsbD x then { y with pc := nextPC w, pass1 := false, responded := true } else y))) ∧
  (∀ (s : State) (c : Nat) (q : Seq), s.issuer = .seq c → seqOf s c = some q → ∀ (x y : BitVec 4) (fn : Fld),
    let op (i : Instr) (t : State) : Prop := exec i s = .next (seqGo (seqNumber t c) c (seqNext q))
    op (.mzero x) (setSeq s c (setTile q x.toNat (fun _ _ => 0))) ∧
    (q.spoilt = [] → op (.mact x fn) (setSeq s c (setTile q x.toNat (fun i j => mactFn fn (accAt q x.toNat i j))))) ∧
    (let r := shReg s q.wg y.toNat
     let idx (i j : Nat) : List Nat := if shTrans r then [i, j] else [j, i]
     shapeBad r = false → shRank r = 2 → shBase r < 2 ^ 32 → shScale r < 2 ^ 32 →
     ((shTrans r = true → isTE (shFmt r) = false) →
       (∀ i < 128, ∀ j < 128, inside r (idx i j) = true → ElementReady s q.wg r (idx i j)) →
       op (.mld x y) (setSeq s c (setTile q x.toNat (fun i j => if inside r (idx i j) then
         BitVec.ofNat 32 (roundVal fp32 0 (elemRead s q.wg r (idx i j))).1 else 0)))) ∧
     (shTrans r = false → q.spoilt = [] →
       (∀ i < 128, ∀ j < 128, inside r [i, j] = true → ElementReady s q.wg r [i, j]) →
       op (.mst x y fn) (lmWrites s q.wg (mstBytes q r x.toNat (fn.getLsbD 0))))) ∧
    (let r := shReg s q.wg x.toNat
     let n := unitBytes (shFmt r)
     let off := (qReg q y).toNat
     shapeBad r = false → shScale r = 0 → (shTrans r = true → isTE (shFmt r) = false) →
     off % 64 = 0 → off + (imageUnits r).length * n ≤ 524288 →
     MayMove s q.wg needR ⟨false, shBase r⟩ ((imageUnits r).map (fun u => (u.2, n))) → s.poison = [] →
     (∀ e ∈ s.wgs, e.2.stash = []) →
     ∃ t u, exec (.wload x y) s = .next t ∧ seqOf t c = some u ∧ u.pc = seqNext q ∧ u.acc = q.acc ∧
       ∀ p, memByte t.mem p = memByte s.mem p)) ∧
  (∀ s : State,
    (∀ (c id : Nat) (x : Copy),
      s.cores.findSome? (fun e => (e.2.copies.find? (fun x => x.id == id)).map (fun x => (e.1, x))) = some (c, x) →
      s.poison = [] → cycleOf s (dieOf c) ≤ x.issued + remoteLimit →
      ∃ t, exec (.asyncCopyCompletion id) s = .next t ∧ t = measureOp (copyLand s c x) x.wg x.handle x.issued) ∧
    (∀ (k id : Nat) (w : Warp) (e : Pend), tget s.warps k = some w →
      w.pend.find? (fun x => x.id == id && !x.token) = some e →
      cycleOf s (dieOf (coreOf k)) ≤ e.issued + remoteLimit →
      ∃ t w1, exec (.pendingWriteCompletion k id) s = .next t ∧ tget t.warps k = some w1 ∧
        w1.pend = w.pend.filter (fun x => x.id != id) ∧
        (e.reg.toNat < 192 → ∀ l < 32, e.lanes.getLsbD l = true → (liveMask w).getLsbD l = true → e.dead.getLsbD l = false →
          rd w1 e.reg l = tgetD 0 e.vals l)) ∧
    (∀ (k : Nat) (w : Warp) (e : Pend) (g : Grid), tget s.warps k = some w → ctxStopped s (ctxOfWg s w.wg) = false →
      e ∈ w.pend → e.fabric = true → e.issued + remoteLimit < cycleOf s (dieOf (coreOf k)) → tsorted s.grids = true →
      tget s.grids (serialOf w.wg) = some g →
      ∃ t, exec (.remoteTimeout k) s = .next t ∧ tget t.grids (serialOf w.wg) = none) ∧
    (∀ (m : Nat) (x : Mailbox), tget s.mailboxes m = some x → (∀ e ∈ s.wgs, e.2.stash = []) → taskRoom s x.wg = true →
      exec (.mailboxArrival m) s =
        .next (createTask { s with mailboxes := tput s.mailboxes m { x with count := x.count + 1 } } x.wg x.pc
          [BitVec.ofNat 32 (memNat s.mem x.pa 4), BitVec.ofNat 32 (memNat s.mem (x.pa + 4) 4), x.arg,
            BitVec.ofNat 32 x.number, x.count + 1, 0, 0, 0] x.wid none false none)) ∧
    (∀ (die : Nat) (e : MatchE),
      (matchTable s die).find? (fun x => x.id == e.id && x.claimed && !x.dead && x.got == x.len) = some e →
      taskRoom s e.wg = true →
      exec (.networkMatchFire die e.id) s =
        .next (createTask (setMatch s die ((matchTable s die).filter (fun x => x.id != e.id))) e.wg e.pc
          [e.buf.extractLsb' 0 32, e.buf.extractLsb' 32 32, BitVec.ofNat 32 e.len, e.tag, e.arg, 0, 0, 0] e.wid none
          false none)) ∧
    (∀ (c id : Nat) (cen : Census), (allCensuses s).find? (fun x => x.id == id && x.todo.contains c) = some cen →
      (∀ e ∈ (coreRec s c).kdir, censusHits s cen e = false) → exec (.censusArrivalPoint c id) s =
        .next (updCensus s id (fun x => { x with todo := x.todo.erase c }))) ∧
    (∀ (fid op group : Nat) (word arg : Word) (key : DWord), ∃ t x,
      exec (.censusPacketArrival fid word key arg op group) s = .next t ∧ tget t.forwarded s.fresh = some x ∧
      x.word = word ∧ x.key = key ∧ x.arg = arg ∧ x.op = op ∧ x.from_ = some fid) ∧
    (∀ (word : Word) (live : List (Nat × Word)) (wd c slot : Nat) (cen : Census),
      tget (coreRec s c).census slot = some cen → cen.word = word → cen.fabricDone = false → ∃ t cen1,
        exec (.censusResultArrival word live wd) s = .next t ∧ tget (coreRec t c).census slot = some cen1 ∧
        cen1.fabricDone = true ∧ cen1.wd = cen.wd + wd) ∧
    (∀ (c n clock : Nat) (q : Seq) (r : List (Nat × Nat)), seqOf s c = some q → q.flight = (n, clock) :: r →
      ∃ t u, exec (.streamOperationCompletion c) s = .next t ∧ seqOf t c = some u ∧ u.flight = r ∧ u.pc = q.pc) ∧
    (∃ t, exec .alignmentPulse s = .next t ∧ t.pulse = s.pulse + 1 ∧ t.warps = s.warps ∧ t.mem = s.mem) ∧
    (∀ c part : Nat, let sm := tgetD Sampler.empty s.samplers (4 * c + part)
      s.capCfg.getLsbD 24 = true → s.capState ≠ 0 →
      sm.interval ≠ 1 + cycleOf s (c / 64) / 2 ^ max 8 (min 24 (field s.capCfg 20 16)) →
      ∃ t sm1, exec (.stallSample c part) s = .next t ∧ tget t.samplers (4 * c + part) = some sm1 ∧
        sm1.slot = (sm.slot + 1) % 16 ∧ sm1.interval = 1 + cycleOf s (c / 64) / 2 ^ max 8 (min 24 (field s.capCfg 20 16)) ∧
        t.warps = s.warps) ∧
    (∃ t, exec .captureStart s = .next t ∧ (s.capState = 0 ∨ s.capState = 2 → t.capState = 1) ∧
      (s.capState ≠ 0 → s.capState ≠ 2 → t = s)) ∧
    (∃ t, exec .captureStop s = .next t ∧ (s.capState = 1 → t.capState = 2) ∧ (s.capState ≠ 1 → t = s)) ∧
    (∃ t, exec .captureFreeze s = .next t ∧ (s.capState = 1 ∨ s.capState = 2 → t.capState = 3) ∧
      (s.capState ≠ 1 → s.capState ≠ 2 → t = s)) ∧
    (∃ t, exec .captureReset s = .next t ∧ (s.capState = 0 → t = s) ∧
      (s.capState ≠ 0 → t.capState = 0 ∧ t.capOff = 0 ∧ t.capDropped = 0)) ∧
    (∀ ctx k : Nat, ∀ w, tget s.warps k = some w →
      let named := dbgNamed s ctx w
      (∃ t, exec (.setSstep ctx) s = .next t ∧
        tget t.warps k = some (if named then { w with sstep := true } else w)) ∧
      (∃ t, exec (.clearSstep ctx) s = .next t ∧
        tget t.warps k = some (if named then { w with sstep := false } else w)) ∧
      (tsorted w.threads = true → ∃ t w1, exec (.resumeParked ctx) s = .next t ∧ tget t.warps k = some w1 ∧
        ∀ l < 32, thr w1 l = (thr w l).map (fun x =>
          if named ∧ x.wait = .debug then { x with wait := .none } else x)) ∧
      (∃ t w1, exec (.releaseHolds ctx) s = .next t ∧ tget t.warps k = some w1 ∧
        (ctxOfWg s w.wg = ctx → (dbgOf s w.wg).testBit 0 = true → w1.held = false))))
end

