-- ==== Sys2Proof/Laws/Tbl.lean ====
section
/-! SUPPORT. What tables and memory do: a read after a write, and the canonical form that every write keeps. -/

namespace Sys2Proof.Machine

variable {α : Type}

@[simp] theorem tget_nil (k : Nat) : tget ([] : Tbl α) k = none := rfl

/-- A read after a write: the written key gives the value, every other key what it gave. -/
theorem tget_tput (t : Tbl α) (k j : Nat) (v : α) : tget (tput t k v) j = if k = j then some v else tget t j := by
  induction t with
  | nil => simp [tput, tget]
  | cons e r ih =>
    obtain ⟨i, x⟩ := e
    simp only [tput]
    split
    · simp [tget]
    · split
      · next h => subst h; simp only [tget]; split <;> simp_all
      · next h => simp only [tget, ih]; grind

@[simp] theorem tget_tput_self (t : Tbl α) (k : Nat) (v : α) : tget (tput t k v) k = some v := by simp [tget_tput]

theorem tget_tput_ne (t : Tbl α) {k j : Nat} (v : α) (h : k ≠ j) : tget (tput t k v) j = tget t j := by
  simp [tget_tput, h]

/-- A removed key is absent, every other key gives what it gave. -/
theorem tget_tdel (t : Tbl α) (k j : Nat) : tget (tdel t k) j = if k = j then none else tget t j := by
  induction t with
  | nil => simp [tdel, tget]
  | cons e r ih =>
    obtain ⟨i, x⟩ := e
    unfold tdel at ih ⊢
    by_cases h : i = k
    · subst h; simp [ih, tget]; grind
    · simp [h, ih, tget]; grind

/-- A read after a write in a table with a default. -/
theorem tgetD_tputD [DecidableEq α] (d : α) (t : Tbl α) (k j : Nat) (v : α) :
    tgetD d (tputD d t k v) j = if k = j then v else tgetD d t j := by
  unfold tgetD tputD
  split
  · next h => subst h; rw [tget_tdel]; split <;> simp
  · rw [tget_tput]; split <;> simp

theorem tgetD_tput (d : α) (t : Tbl α) (k j : Nat) (v : α) :
    tgetD d (tput t k v) j = if k = j then v else tgetD d t j := by
  unfold tgetD; rw [tget_tput]; split <;> simp

/-- Writes of pairwise different keys, one for each element of a list. -/
theorem tgetD_foldl_tputD [DecidableEq α] (d : α) (g : Nat → α) (key : Nat → Nat) (hk : Function.Injective key) :
    ∀ (ls : List Nat) (t : Tbl α) (j : Nat),
      tgetD d (ls.foldl (fun t l => tputD d t (key l) (g l)) t) (key j) = if j ∈ ls then g j else tgetD d t (key j)
  | [], _, _ => by simp
  | l :: r, t, j => by
    rw [List.foldl_cons, tgetD_foldl_tputD d g key hk r]
    by_cases h : j ∈ r
    · simp [h]
    · simp only [h, if_false, tgetD_tputD, List.mem_cons, or_false]
      by_cases e : l = j
      · simp [e]
      · simp [hk.ne e, Ne.symm e]

/-- Writes leave the keys that they do not name. -/
theorem tgetD_foldl_tputD_ne [DecidableEq α] (d : α) (g : Nat → α) (key : Nat → Nat) (j : Nat) :
    ∀ (ls : List Nat) (t : Tbl α), (∀ l ∈ ls, key l ≠ j) →
      tgetD d (ls.foldl (fun t l => tputD d t (key l) (g l)) t) j = tgetD d t j
  | [], _, _ => rfl
  | l :: r, t, h => by
    rw [List.foldl_cons, tgetD_foldl_tputD_ne d g key j r _ (fun x hx => h x (by simp [hx])), tgetD_tputD,
      if_neg (h l (by simp))]

/-! The canonical form. -/

theorem tsorted_iff (t : Tbl α) : tsorted t = true ↔ t.Pairwise (fun a b => a.1 < b.1) := by
  induction t with
  | nil => simp [tsorted]
  | cons a r ih =>
    cases r with
    | nil => simp [tsorted]
    | cons b r =>
      simp only [tsorted, Bool.and_eq_true, decide_eq_true_eq, ih, List.pairwise_cons]
      constructor
      · rintro ⟨hab, hb, hr⟩
        exact ⟨fun x hx => by
          rcases List.mem_cons.1 hx with rfl | hx
          · exact hab
          · exact Nat.lt_trans hab (hb x hx), hb, hr⟩
      · rintro ⟨ha, hb, hr⟩
        exact ⟨ha b (by simp), hb, hr⟩

theorem mem_tput {t : Tbl α} {k : Nat} {v : α} {e : Nat × α} (h : e ∈ tput t k v) : e = (k, v) ∨ e ∈ t := by
  induction t with
  | nil => simpa [tput] using h
  | cons a r ih =>
    simp only [tput] at h
    split at h
    · simpa using h
    · split at h
      · simp only [List.mem_cons] at h ⊢; grind
      · simp only [List.mem_cons] at h ⊢; grind

/-- A write keeps rising keys rising. -/
theorem tsorted_tput {t : Tbl α} (k : Nat) (v : α) (h : tsorted t = true) : tsorted (tput t k v) = true := by
  rw [tsorted_iff] at h ⊢
  induction t with
  | nil => simp [tput]
  | cons a r ih =>
    obtain ⟨i, x⟩ := a
    rw [List.pairwise_cons] at h
    simp only [tput]
    split
    · next hk =>
      refine List.pairwise_cons.2 ⟨fun e he => ?_, List.pairwise_cons.2 h⟩
      rcases List.mem_cons.1 he with rfl | he
      · exact hk
      · exact Nat.lt_trans hk (h.1 e he)
    · split
      · next hk => subst hk; exact List.pairwise_cons.2 ⟨h.1, h.2⟩
      · refine List.pairwise_cons.2 ⟨fun e he => ?_, ih h.2⟩
        rcases mem_tput he with rfl | he
        · simp only; omega
        · exact h.1 e he

theorem tsorted_filter {t : Tbl α} (p : Nat × α → Bool) (h : tsorted t = true) : tsorted (t.filter p) = true := by
  rw [tsorted_iff] at h ⊢; exact h.filter p

theorem tsorted_tdel {t : Tbl α} (k : Nat) (h : tsorted t = true) : tsorted (tdel t k) = true := tsorted_filter _ h

/-! Memory. -/

/-- A read of a byte after a write of a byte. -/
theorem memByte_memPut (m : List Host.Cell) (a j : Nat) (b : Byte) :
    memByte (memPut m a b) j = if a = j then b else memByte m j := tgetD_tputD _ _ _ _ _

/-- A write of one byte keeps memory canonical. -/
theorem memWf_memPut {m : List Host.Cell} (a : Nat) (b : Byte) (h : Memory.wf m = true) : Memory.wf (memPut m a b) = true := by
  simp only [Memory.wf, Bool.and_eq_true, List.all_eq_true] at h ⊢
  unfold memPut tputD
  split
  · exact ⟨tsorted_tdel _ h.1, fun c hc => h.2 c (List.mem_filter.1 hc).1⟩
  · next hb =>
    refine ⟨tsorted_tput _ _ h.1, fun c hc => ?_⟩
    rcases mem_tput hc with rfl | hc
    · simpa using hb
    · exact h.2 c hc

/-- A write of bytes keeps memory canonical. -/
theorem memWf_memPuts {m : List Host.Cell} (a : Nat) (bs : List Byte) (h : Memory.wf m = true) :
    Memory.wf (memPuts m a bs) = true := by
  induction bs generalizing m a with
  | nil => exact h
  | cons b r ih => exact ih _ (memWf_memPut a b h)

/-- Dropping bytes keeps memory canonical. -/
theorem memWf_filter {m : List Host.Cell} (p : Host.Cell → Bool) (h : Memory.wf m = true) : Memory.wf (m.filter p) = true := by
  simp only [Memory.wf, Bool.and_eq_true, List.all_eq_true] at h ⊢
  exact ⟨tsorted_filter _ h.1, fun c hc => h.2 c (List.mem_filter.1 hc).1⟩

/-- A read of a byte after a write of bytes. -/
theorem memByte_memPuts (bs : List Byte) : ∀ (m : List Host.Cell) (a j : Nat),
    memByte (memPuts m a bs) j = if a ≤ j ∧ j < a + bs.length then bs.getD (j - a) 0 else memByte m j := by
  induction bs with
  | nil => intro m a j; simp [memPuts]
  | cons b r ih =>
    intro m a j
    simp only [memPuts, ih, memByte_memPut, List.length_cons]
    by_cases h1 : a = j
    · subst h1; simp
    · rw [if_neg h1]
      by_cases h2 : a + 1 ≤ j ∧ j < a + 1 + r.length
      · rw [if_pos h2, if_pos (by omega), show j - a = (j - (a + 1)) + 1 by omega, List.getD_cons_succ]
      · rw [if_neg h2, if_neg (by omega)]

end Sys2Proof.Machine
end

