-- ==== Sys2Proof/Laws/Lane.lean ====
section
/-! SUPPORT. What the issue of a lane word does: lane masks, register and predicate writes, and how a word that changes
nothing but its warp retires. -/

namespace Sys2Proof.Machine

/-! Lane masks. -/

theorem mem_lanesOf {m : Mask} {l : Nat} : l ∈ lanesOf m ↔ l < 32 ∧ m.getLsbD l = true := by simp [lanesOf]

theorem lanesOf_of_getLsbD {m : Mask} {l : Nat} (h : m.getLsbD l = true) : l ∈ lanesOf m :=
  mem_lanesOf.2 ⟨BitVec.lt_of_getLsbD h, h⟩

@[simp] theorem lanesOf_zero : lanesOf 0 = [] := by decide

theorem getLsbD_laneBit (l j : Nat) (hl : l < 32) : (laneBit l).getLsbD j = decide (j = l) := by
  unfold laneBit
  rw [BitVec.getLsbD_ofNat, Nat.testBit_two_pow]
  by_cases h : j = l
  · simp [h, hl]
  · simp [h, Ne.symm h]

theorem getLsbD_foldl_laneBit (ls : List Nat) (m : Mask) (j : Nat) (h : ∀ l ∈ ls, l < 32) :
    (ls.foldl (fun m l => m ||| laneBit l) m).getLsbD j = (m.getLsbD j || decide (j ∈ ls)) := by
  induction ls generalizing m with
  | nil => simp
  | cons l r ih =>
    rw [List.foldl_cons, ih _ (fun x hx => h x (by simp [hx])), BitVec.getLsbD_or, getLsbD_laneBit l j (h l (by simp))]
    simp [Bool.or_assoc]

/-- A lane is in the mask of a list of lanes. -/
theorem getLsbD_maskOf (ls : List Nat) (j : Nat) (h : ∀ l ∈ ls, l < 32) : (maskOf ls).getLsbD j = decide (j ∈ ls) := by
  rw [maskOf, getLsbD_foldl_laneBit ls 0 j h]; simp

/-- A lane is in the mask of the lanes that satisfy a condition. -/
theorem getLsbD_maskWhere (m : Mask) (c : Nat → Bool) (j : Nat) :
    (maskWhere m c).getLsbD j = (m.getLsbD j && c j) := by
  rw [maskWhere, getLsbD_maskOf _ _ (fun l hl => (mem_lanesOf.1 (List.mem_filter.1 hl).1).1)]
  rw [Bool.eq_iff_iff]
  simp only [decide_eq_true_eq, List.mem_filter, mem_lanesOf, Bool.and_eq_true]
  exact ⟨fun h => ⟨h.1.2, h.2⟩, fun h => ⟨⟨BitVec.lt_of_getLsbD h.1, h.1⟩, h.2⟩⟩

/-! Writes of registers and predicates. -/

theorem key_inj (d : Fld) : Function.Injective (fun l => d.toNat * 32 + l) := fun _ _ h => by
  simp only at h; omega

theorem key_ne {d f : Fld} {l j : Nat} (h : f ≠ d) (hl : l < 32) (hj : j < 32) :
    d.toNat * 32 + j ≠ f.toNat * 32 + l := by
  have : f.toNat ≠ d.toNat := fun e => h (BitVec.eq_of_toNat_eq e)
  omega

/-- What a register of the operand space reads after it was written (R54, R117). -/
theorem rd_wr_self (w : Warp) (d : Fld) (m : Mask) (g : Nat → Word) (l : Nat) (hl : l < 32) :
    rd (wr w d m g) d l =
      if d.toNat < 192 then (if m.getLsbD l then g l else rd w d l)
      else match lowest m with
        | some j => g j
        | none => rd w d l := by
  by_cases h : d.toNat < 192
  · simp only [wr, rd, h, if_true]
    rw [tgetD_foldl_tputD 0 g _ (key_inj d)]
    simp [mem_lanesOf, hl]
  · simp only [wr, rd, h, if_false]
    cases lowest m with
    | none => simp
    | some j => simp [tgetD_tputD]

/-- What every other register reads after a write. -/
theorem rd_wr_ne (w : Warp) {d f : Fld} (m : Mask) (g : Nat → Word) {l : Nat} (h : f ≠ d) (hl : l < 32) :
    rd (wr w d m g) f l = rd w f l := by
  have ht : f.toNat ≠ d.toNat := fun e => h (BitVec.eq_of_toNat_eq e)
  by_cases hd : d.toNat < 192
  · simp only [wr, rd, hd, if_true]
    by_cases hf : f.toNat < 192
    · simp only [hf, if_true]
      exact tgetD_foldl_tputD_ne 0 g _ _ _ _ (fun j hj => key_ne h hl (mem_lanesOf.1 hj).1)
    · simp [hf]
  · simp only [wr, rd, hd, if_false]
    cases lowest m with
    | none => simp
    | some j =>
      by_cases hf : f.toNat < 192
      · simp [hf]
      · simp only [hf, if_false, tgetD_tputD]
        rw [if_neg (by omega)]

/-- A write of a register changes nothing of the warp but its registers. -/
theorem wr_other (w : Warp) (d : Fld) (m : Mask) (g : Nat → Word) :
    wr w d m g = { w with v := (wr w d m g).v, w := (wr w d m g).w, spoilt := (wr w d m g).spoilt } := by
  unfold wr; split
  · rfl
  · split <;> rfl

section
variable (w : Warp) (d : Fld) (m : Mask) (g : Nat → Word)
@[simp] theorem wr_threads : (wr w d m g).threads = w.threads := by rw [wr_other]
@[simp] theorem wr_p : (wr w d m g).p = w.p := by rw [wr_other]
@[simp] theorem wr_flags : (wr w d m g).flags = w.flags := by rw [wr_other]
@[simp] theorem wr_act : (wr w d m g).act = w.act := by rw [wr_other]
@[simp] theorem wr_take : (wr w d m g).take = w.take := by rw [wr_other]
@[simp] theorem wr_sstep : (wr w d m g).sstep = w.sstep := by rw [wr_other]
end

/-- What a write of D does to the marks of register words beyond repair (29 R408). -/
theorem spoiltAt_wr (w : Warp) (d : Fld) (m : Mask) (g : Nat → Word) (f : Fld) {l : Nat} (hl : l < 32) :
    spoiltAt (wr w d m g) f l =
      (spoiltAt w f l && !(f == d && (if d.toNat < 192 then m.getLsbD l else (lowest m).isSome))) := by
  have key (p : Nat → Bool) (n : Nat) : (w.spoilt.filter p).contains n = (w.spoilt.contains n && p n) := by
    rw [Bool.eq_iff_iff]; simp
  have hdiv (x : Nat) (hx : x < 32) : (32 * f.toNat + x) / 32 = f.toNat := by omega
  have hmod : (32 * f.toNat + l) % 32 = l := by omega
  have heq : (f.toNat == d.toNat) = (f == d) := by
    rw [Bool.eq_iff_iff, beq_iff_eq, beq_iff_eq]; exact BitVec.toNat_inj
  unfold spoiltAt wr
  by_cases hd : d.toNat < 192
  · simp only [hd, if_true]
    rw [key]
    by_cases hf : f.toNat < 192
    · simp only [hf, if_true]; rw [hdiv l hl, hmod, heq]
    · have hne : (f == d) = false := by
        rw [beq_eq_false_iff_ne]; intro e; subst e; exact hf hd
      simp only [hf, if_false]; rw [hdiv 0 (by omega), heq, hne]; simp
  · simp only [hd, if_false]
    cases hm : lowest m with
    | none => simp
    | some j =>
      simp only [Option.isSome_some, Bool.and_true]
      rw [key]
      by_cases hf : f.toNat < 192
      · have hne : (f == d) = false := by
          rw [beq_eq_false_iff_ne]; intro e; subst e; exact hd hf
        simp only [hf, if_true]; rw [hdiv l hl, bne, heq, hne]
      · simp only [hf, if_false]; rw [hdiv 0 (by omega), bne, heq]

/-- What a predicate holds after it was written (R55). -/
theorem tgetD_wrP (w : Warp) (p q : Nat) (m b : Mask) (l : Nat) :
    (tgetD 0 (wrP w p m b).p q).getLsbD l =
      if q = p ∧ p ≠ 0 ∧ m.getLsbD l then b.getLsbD l else (tgetD 0 w.p q).getLsbD l := by
  unfold wrP
  by_cases h0 : p = 0
  · simp [h0]
  · simp only [h0, if_false, tgetD_tputD]
    by_cases hq : p = q
    · subst hq
      by_cases hl : l < 32
      · rw [if_pos rfl, BitVec.getLsbD_or, BitVec.getLsbD_and, BitVec.getLsbD_and, BitVec.getLsbD_not]
        cases m.getLsbD l <;> simp [h0, hl]
      · simp [BitVec.getLsbD_of_ge _ _ (Nat.le_of_not_lt hl)]
    · simp [hq, Ne.symm hq]

section
variable (w : Warp) (p : Nat) (m b : Mask)
@[simp] theorem wrP_threads : (wrP w p m b).threads = w.threads := by unfold wrP; split <;> rfl
@[simp] theorem wrP_v : (wrP w p m b).v = w.v := by unfold wrP; split <;> rfl
@[simp] theorem wrP_w : (wrP w p m b).w = w.w := by unfold wrP; split <;> rfl
@[simp] theorem wrP_flags : (wrP w p m b).flags = w.flags := by unfold wrP; split <;> rfl
@[simp] theorem wrP_act : (wrP w p m b).act = w.act := by unfold wrP; split <;> rfl
@[simp] theorem wrP_take : (wrP w p m b).take = w.take := by unfold wrP; split <;> rfl
@[simp] theorem wrP_spoilt : (wrP w p m b).spoilt = w.spoilt := by unfold wrP; split <;> rfl
@[simp] theorem wrP_sstep : (wrP w p m b).sstep = w.sstep := by unfold wrP; split <;> rfl
end

theorem wrP_other (w : Warp) (p : Nat) (m b : Mask) : wrP w p m b = { w with p := (wrP w p m b).p } := by
  unfold wrP; split <;> rfl

/-! Threads. -/

theorem tget_map (t : Tbl α) (f : Nat → α → α) (j : Nat) :
    tget (t.map (fun e => (e.1, f e.1 e.2))) j = (tget t j).map (f j) := by
  induction t with
  | nil => rfl
  | cons e r ih =>
    obtain ⟨i, x⟩ := e
    simp only [List.map_cons, tget]
    by_cases h : i = j
    · simp [h]
    · simp [h, ih]

theorem modLanes_threads (w : Warp) (m : Mask) (f : Nat → Thread → Thread) :
    (modLanes w m f).threads = w.threads.map (fun e => (e.1, if m.getLsbD e.1 then f e.1 e.2 else e.2)) := by
  simp only [modLanes]
  exact List.map_congr_left (fun e _ => by split <;> rfl)

/-- A change of the threads of a mask, lane by lane. -/
theorem thr_modLanes (w : Warp) (m : Mask) (f : Nat → Thread → Thread) (l : Nat) :
    thr (modLanes w m f) l = (thr w l).map (fun x => if m.getLsbD l then f l x else x) := by
  simp only [thr, modLanes_threads]
  exact tget_map w.threads (fun i x => if m.getLsbD i then f i x else x) l

/-- A change that leaves every take depth leaves the members of the take (R281). -/
theorem members_modLanes (w : Warp) (m : Mask) (f : Nat → Thread → Thread) (h : ∀ l x, (f l x).tdepth = x.tdepth) :
    members (modLanes w m f) = members w := by
  simp only [members, lanesWhere, modLanes_threads, List.filter_map, List.map_map]
  congr 1
  induction w.threads with
  | nil => rfl
  | cons e r ih =>
    have hc : (decide (0 < (if m.getLsbD e.1 then f e.1 e.2 else e.2).tdepth)) = decide (0 < e.2.tdepth) := by
      split <;> simp [h]
    simp only [List.filter_cons, Function.comp, hc]
    split
    · simpa using ih
    · exact ih

/-! The issue and the end of a word. -/

/-- Threads resumed at a breakpoint have issued their word, lane by lane. -/
theorem thr_clearPass (w : Warp) (l : Nat) :
    thr (clearPass w) l = (thr w l).map (fun x => if w.act.getLsbD l then { x with pass1 := false } else x) := by
  unfold clearPass
  split
  · exact thr_modLanes _ _ _ _
  · next h =>
    cases ht : thr w l with
    | none => rfl
    | some x =>
      have hx : x.pass1 = false := by
        by_contra hc
        apply h
        rw [List.any_eq_true]
        refine ⟨(l, x), ?_, by simpa using hc⟩
        have : ∀ t : Tbl Thread, tget t l = some x → (l, x) ∈ t := by
          intro t
          induction t with
          | nil => simp
          | cons e r ih => obtain ⟨i, y⟩ := e; simp only [tget]; split <;> grind
        exact this _ ht
      simp only [Option.map_some, Option.some.injEq]
      split
      · cases x; simp_all
      · rfl

theorem clearPass_other (w : Warp) : clearPass w = { w with threads := (clearPass w).threads } := by
  unfold clearPass modLanes; split <;> rfl

section
variable (w : Warp)
@[simp] theorem clearPass_v : (clearPass w).v = w.v := by rw [clearPass_other]
@[simp] theorem clearPass_w : (clearPass w).w = w.w := by rw [clearPass_other]
@[simp] theorem clearPass_p : (clearPass w).p = w.p := by rw [clearPass_other]
@[simp] theorem clearPass_flags : (clearPass w).flags = w.flags := by rw [clearPass_other]
@[simp] theorem clearPass_act : (clearPass w).act = w.act := by rw [clearPass_other]
@[simp] theorem clearPass_code : (clearPass w).code = w.code := by rw [clearPass_other]
@[simp] theorem clearPass_wg : (clearPass w).wg = w.wg := by rw [clearPass_other]
@[simp] theorem clearPass_take : (clearPass w).take = w.take := by rw [clearPass_other]
@[simp] theorem clearPass_sstep : (clearPass w).sstep = w.sstep := by rw [clearPass_other]
@[simp] theorem clearPass_claimed : (clearPass w).claimed = w.claimed := by rw [clearPass_other]
@[simp] theorem clearPass_pend : (clearPass w).pend = w.pend := by rw [clearPass_other]
@[simp] theorem clearPass_spoilt : (clearPass w).spoilt = w.spoilt := by rw [clearPass_other]
@[simp] theorem clearPass_kind : (clearPass w).kind = w.kind := by rw [clearPass_other]
@[simp] theorem clearPass_recon : (clearPass w).recon = w.recon := by rw [clearPass_other]
end

@[simp] theorem rd_clearPass (w : Warp) (f : Fld) (l : Nat) : rd (clearPass w) f l = rd w f l := by simp [rd]
@[simp] theorem rd64_clearPass (w : Warp) (f : Fld) (l : Nat) : rd64 (clearPass w) f l = rd64 w f l := by simp [rd64]

theorem pcOf_clearPass (w : Warp) (l : Nat) : pcOf (clearPass w) l = pcOf w l := by
  simp only [pcOf, thr_clearPass, Option.map_map]
  congr 2
  funext x; simp only [Function.comp]; split <;> rfl

@[simp] theorem curPC_clearPass (w : Warp) : curPC (clearPass w) = curPC w := by
  simp only [curPC, clearPass_act, pcOf_clearPass]

@[simp] theorem endPC_clearPass (w : Warp) : endPC (clearPass w) = endPC w := by simp [endPC]

@[simp] theorem nextPC_clearPass (w : Warp) : nextPC (clearPass w) = nextPC w := by
  simp only [nextPC, curPC_clearPass, clearPass_code, endPC_clearPass]

@[simp] theorem liveMask_clearPass (w : Warp) : liveMask (clearPass w) = liveMask w := by
  unfold clearPass
  split
  · simp [liveMask, modLanes_threads, Function.comp_def]
  · rfl

@[simp] theorem rdP_clearPass (w : Warp) (p : Nat) : rdP (clearPass w) p = rdP w p := by simp [rdP]

/-- A word whose registers are ready has its effect and is placed. -/
theorem issueWord_ready {s : State} {k : Nat} {w : Warp} {regs : List Fld} (h : Issues s k w regs)
    (body : State → Nat → Warp → Eff) :
    issueWord s k w regs body =
      finishEff (setWarp s k (clearPass w)) k (clearPass w) (body (setWarp s k (clearPass w)) k (clearPass w)) := by
  simp [issueWord, h.free, h.held, h.clear]

/-- The same for the meaning of a lane word. -/
theorem laneWord_ready {s : State} {k : Nat} {w : Warp} {regs : List Fld} (h : Issues s k w regs)
    (body : State → Nat → Warp → Eff) :
    laneWord s regs body = .next
      (finishEff (setWarp s k (clearPass w)) k (clearPass w) (body (setWarp s k (clearPass w)) k (clearPass w))) := by
  simp [laneWord, h.turn, h.slot, issueWord_ready h]

theorem tput_tput (t : Tbl α) (k : Nat) (u v : α) : tput (tput t k u) k v = tput t k v := by
  induction t with
  | nil => simp [tput]
  | cons e r ih =>
    obtain ⟨i, x⟩ := e
    by_cases h1 : k < i
    · simp [tput, h1]
    · by_cases h2 : i = k
      · subst h2; simp [tput]
      · simp [tput, h1, h2, ih]

@[simp] theorem setWarp_setWarp (s : State) (k : Nat) (u v : Warp) : setWarp (setWarp s k u) k v = setWarp s k v := by
  simp [setWarp, tput_tput]

/-- A step without single-stepping only counts the word (R64). -/
theorem retire_plain (s : State) (k : Nat) (w0 w1 : Warp) (h : tget s.warps k = some w1) (hs : w1.sstep = false) :
    retire s k w0 = countRetired s w0.wg := by
  unfold retire
  have hw : (countRetired s w0.wg).warps = s.warps := by unfold countRetired; split <;> rfl
  simp [hw, h, hs]

/-- A change of a warp that keeps its threads, its mode and everything that no lane word writes. -/
structure Keeps (w w1 : Warp) : Prop where
  threads : w1.threads = w.threads
  act : w1.act = w.act
  other : w1 = { w with v := w1.v, w := w1.w, p := w1.p, flags := w1.flags, spoilt := w1.spoilt }

theorem stillThere_keeps {w w1 : Warp} (h : Keeps w w1) : stillThere w w1 = w.act := by
  unfold stillThere
  split
  · rfl
  · have h1 : members w1 = members w := by simp [members, lanesWhere, h.threads]
    have h2 : rollingLanes w1 = rollingLanes w := by simp [rollingLanes, lanesWhere, h.threads]
    rw [h1, h2]
    ext i hi
    simp only [BitVec.getElem_and, BitVec.getElem_not, BitVec.getElem_or]
    cases (members w)[i] <;> cases (rollingLanes w)[i] <;> simp

/-- Where a word's lanes go (R95). -/
theorem goOn_fields (w w1 : Warp) (h : Keeps w w1) :
    (∀ l, thr (goOn w w1) l = (thr w l).map (fun x => if w.act.getLsbD l then { x with pc := nextPC w } else x)) ∧
    (goOn w w1).act = (if (nextPC w).idx = 0 then 0 else w.act) ∧
    goOn w w1 = { w with threads := (goOn w w1).threads, act := (goOn w w1).act, v := w1.v, w := w1.w, p := w1.p,
                         flags := w1.flags, spoilt := w1.spoilt } := by
  refine ⟨fun l => ?_, ?_, ?_⟩
  · have ht : thr w1 l = thr w l := by simp [thr, h.threads]
    unfold goOn
    rw [stillThere_keeps h]
    simp only
    split
    · simp only [setPC, thr, modLanes]
      have := thr_modLanes w1 w.act (fun _ t => { t with pc := nextPC w }) l
      simpa [thr, modLanes, h.threads] using this
    · have := thr_modLanes w1 w.act (fun _ t => { t with pc := nextPC w }) l
      simpa [setPC, ht] using this
  · unfold goOn; simp only; split
    · rfl
    · simp [setPC, modLanes, h.act]
  · have ho := h.other
    unfold goOn setPC modLanes
    simp only
    split <;> (rw [ho])

/-- A warp replaced and one word counted: nothing else changes. -/
theorem onlyWarp_count (s : State) (k : Nat) (w w1 : Warp) : OnlyWarp s (countRetired (setWarp s k w1) w.wg) k w w1 := by
  constructor
  · unfold countRetired; split <;> simp [setWarp, setWg]
  · intro j hj; unfold countRetired; split <;> simp [setWarp, setWg, tget_tput, Ne.symm hj]
  · intro j hj; unfold countRetired; split <;> simp [setWarp, setWg, tget_tput, Ne.symm hj]
  · intro g hg
    have hg' : tget (setWarp s k w1).wgs w.wg = some g := hg
    simp [countRetired, hg', setWg]
  · intro a; unfold countRetired; split <;> rfl
  · unfold countRetired; split <;> rfl

/-- A lane word that changes nothing but its own warp retires with that change (R95). -/
theorem warpWord_retires {s : State} {k : Nat} {w : Warp} {regs : List Fld} (h : Issues s k w regs)
    (hs : w.sstep = false) (f : Warp → Warp) (hf : Keeps (clearPass w) (f (clearPass w))) :
    ∃ t w1, warpWord s regs f = .next t ∧ Retires s t k w w1 ∧ w1.v = (f (clearPass w)).v ∧
      w1.w = (f (clearPass w)).w ∧ w1.p = (f (clearPass w)).p ∧ w1.flags = (f (clearPass w)).flags ∧
      w1.spoilt = (f (clearPass w)).spoilt := by
  obtain ⟨g1, g2, g3⟩ := goOn_fields _ _ hf
  refine ⟨_, goOn (clearPass w) (f (clearPass w)), laneWord_ready h _, ?_, by rw [g3], by rw [g3], by rw [g3], by rw [g3],
    by rw [g3]⟩
  have hw1 : (goOn (clearPass w) (f (clearPass w))).sstep = false := by rw [g3]; simp [hs]
  have e : finishEff (setWarp s k (clearPass w)) k (clearPass w)
      (.next (setWarp (setWarp s k (clearPass w)) k (f (clearPass w)))) =
      countRetired (setWarp s k (goOn (clearPass w) (f (clearPass w)))) w.wg := by
    have ht : tget (setWarp (setWarp s k (clearPass w)) k (f (clearPass w))).warps k = some (f (clearPass w)) := by
      simp [setWarp]
    simp only [finishEff, ht]
    rw [setWarp_setWarp, setWarp_setWarp,
      retire_plain _ _ _ (goOn (clearPass w) (f (clearPass w))) (by simp [setWarp]) hw1, clearPass_wg]
  rw [e]
  refine ⟨onlyWarp_count s k w _, ⟨fun l => ?_, by simpa using g2⟩, by rw [g3, clearPass_other]⟩
  rw [g1, thr_clearPass]
  cases thr w l with
  | none => rfl
  | some x =>
    simp only [Option.map_some, clearPass_act, nextPC_clearPass]
    split <;> rfl

/-! Lane words by what they write. -/

theorem lowest_mem {m : Mask} {l : Nat} (h : lowest m = some l) : m.getLsbD l = true := by
  unfold lowest at h
  exact (mem_lanesOf.1 (List.mem_of_mem_head? h)).2

/-- A mask has a lowest lane unless it is empty. -/
theorem lowest_isSome (m : Mask) : (lowest m).isSome = (m != 0) := by
  unfold lowest
  rw [Bool.eq_iff_iff, List.isSome_head?, bne_iff_ne]
  constructor
  · rintro h rfl; exact h (by simp [lanesOf])
  · intro h e
    apply h
    ext i hi
    have : i ∉ lanesOf m := by rw [e]; simp
    rw [mem_lanesOf] at this
    simpa [hi] using this

/-- What a write of D for the active lanes says of each register. -/
theorem wroteReg_wr (w w1 : Warp) (d : Fld) (f g : Nat → Word) (hv : w1.v = (wr (clearPass w) d w.act f).v)
    (hw : w1.w = (wr (clearPass w) d w.act f).w) (hs : w1.spoilt = (wr (clearPass w) d w.act f).spoilt)
    (hg : ∀ l, w.act.getLsbD l = true → f l = g l) : WroteReg w w1 d g := by
  have hr : ∀ x l, rd w1 x l = rd (wr (clearPass w) d w.act f) x l := by intro x l; simp [rd, hv, hw]
  constructor
  · intro l hl
    rw [hr, rd_wr_self _ _ _ _ _ hl]
    split
    · split
      · next h => exact hg l h
      · simp
    · cases hm : lowest w.act with
      | none => simp
      | some m => exact hg m (lowest_mem hm)
  · intro x l hx hl
    rw [hr, rd_wr_ne _ _ _ hx hl, rd_clearPass]
  · intro x l hl
    rw [show spoiltAt w1 x l = spoiltAt (wr (clearPass w) d w.act f) x l by simp [spoiltAt, hs], spoiltAt_wr _ _ _ _ _ hl]
    simp [wrote, spoiltAt, lowest_isSome]

/-- A word that writes D lane by lane from the warp's registers. -/
theorem warpWord_writes {i : Instr} {s : State} {k : Nat} {w : Warp} {regs : List Fld} (h : Issues s k w regs)
    (hs : w.sstep = false) (d : Fld) (f : Warp → Nat → Word) (g : Nat → Word)
    (hi : exec i s = warpWord s regs (fun w => mapLanes w d (f w)))
    (hg : ∀ l, w.act.getLsbD l = true → f (clearPass w) l = g l) : WritesLanes i s k w d g := by
  obtain ⟨t, w1, e, r, hv, hw, hp, hf, hsp⟩ := warpWord_retires h hs (fun w => mapLanes w d (f w))
    ⟨by simp [mapLanes], by simp [mapLanes], by simp only [mapLanes]; rw [wr_other]⟩
  refine ⟨t, w1, hi.trans e, r, wroteReg_wr w w1 d (f (clearPass w)) g ?_ ?_ ?_ hg, ?_, ?_⟩
  · simpa [mapLanes] using hv
  · simpa [mapLanes] using hw
  · simpa [mapLanes] using hsp
  · simpa [mapLanes] using hp
  · simpa [mapLanes] using hf

theorem orFlags_bit (l : List FFlags) (n : Nat) : (orFlags l).getLsbD n = l.any (fun f => f.getLsbD n) := by
  have : ∀ (l : List FFlags) (z : FFlags), (l.foldl (· ||| ·) z).getLsbD n = (z.getLsbD n || l.any (fun f => f.getLsbD n)) := by
    intro l
    induction l with
    | nil => simp
    | cons a r ih => intro z; simp [ih, Bool.or_assoc]
  simpa [orFlags] using this l 0

/-- A floating-point word: it writes D lane by lane and adds the flags of its active lanes (R65, R122). -/
theorem fpWord_writes {i : Instr} {s : State} {k : Nat} {w : Warp} {regs : List Fld} (d : Fld)
    (h : Issues s k w (regs ++ [d])) (hs : w.sstep = false) (f : Warp → Nat → Nat × FFlags) (g : Nat → Nat × FFlags)
    (hi : exec i s = warpWord s (regs ++ [d]) (fun w => raise (mapLanes w d (fun l => BitVec.ofNat 32 (f w l).1))
      (orFlags ((lanesOf w.act).map (fun l => (f w l).2)))))
    (hg : ∀ l, w.act.getLsbD l = true → f (clearPass w) l = g l) : WritesFp i s k w d g := by
  obtain ⟨t, w1, e, r, hv, hw, hp, hf, hsp⟩ := warpWord_retires h hs
    (fun w => raise (mapLanes w d (fun l => BitVec.ofNat 32 (f w l).1)) (orFlags ((lanesOf w.act).map (fun l => (f w l).2))))
    ⟨by simp [raise, mapLanes], by simp [raise, mapLanes], by simp only [raise, mapLanes]; rw [wr_other]⟩
  refine ⟨t, w1, hi.trans e, r,
    wroteReg_wr w w1 d (fun l => BitVec.ofNat 32 (f (clearPass w) l).1) _ ?_ ?_ ?_ (fun l hl => by rw [hg l hl]), ?_, ?_⟩
  · simpa [raise, mapLanes] using hv
  · simpa [raise, mapLanes] using hw
  · simpa [raise, mapLanes] using hsp
  · simpa [raise, mapLanes] using hp
  · intro n _
    rw [hf]
    simp only [raise, mapLanes, wr_flags, clearPass_flags, clearPass_act, BitVec.getLsbD_or, orFlags_bit, List.any_map]
    congr 1
    rw [Bool.eq_iff_iff, List.any_eq_true, List.any_eq_true]
    constructor <;> rintro ⟨l, hl, hx⟩ <;> refine ⟨l, hl, ?_⟩ <;> simpa [hg l (mem_lanesOf.1 hl).2] using hx

/-- A word that writes a pair of registers (R119). -/
theorem warpWord_writes64 {i : Instr} {s : State} {k : Nat} {w : Warp} {regs : List Fld} (h : Issues s k w regs)
    (hs : w.sstep = false) (d : Fld) (hd : odd d = false) (f : Warp → Nat → DWord) (g : Nat → DWord)
    (hi : exec i s = warpWord s regs (fun w => wr64 w d w.act (f w)))
    (hg : ∀ l, w.act.getLsbD l = true → f (clearPass w) l = g l) : WritesPair i s k w d g := by
  have hd2 : d.toNat % 2 = 0 := by unfold odd at hd; simp at hd; omega
  have hlt := d.isLt
  have h1 : (d + 1).toNat = d.toNat + 1 := by rw [BitVec.toNat_add]; simp; omega
  have hne : d + 1 ≠ d := fun e => by have := congrArg BitVec.toNat e; omega
  obtain ⟨t, w1, e, r, hv, hw, hp, hf, hsp⟩ := warpWord_retires h hs (fun w => wr64 w d w.act (f w))
    ⟨by simp [wr64], by simp [wr64], by simp only [wr64]; rw [wr_other, wr_other (clearPass w)]⟩
  have hr : ∀ x l, rd w1 x l = rd (wr64 (clearPass w) d w.act (f (clearPass w))) x l := by
    intro x l; simp only [rd, hv, hw, clearPass_act]
  refine ⟨t, w1, hi.trans e, r, ⟨?_, ?_, ?_, ?_⟩, by simpa [wr64] using hp, by simpa [wr64] using hf⟩
  · intro l hl
    rw [hr, wr64, rd_wr_ne _ _ _ hne.symm hl, rd_wr_self _ _ _ _ _ hl]
    split
    · split
      · next ha => rw [hg l ha]
      · simp
    · cases hm : lowest w.act with
      | none => simp
      | some m => simp [hg m (lowest_mem hm)]
  · intro l hl
    rw [hr, wr64, rd_wr_self _ _ _ _ _ hl, rd_wr_ne _ _ _ hne hl, h1]
    by_cases h192 : d.toNat < 192
    · rw [if_pos (by omega), if_pos h192]
      split
      · next ha => rw [hg l ha]
      · simp
    · rw [if_neg (by omega), if_neg h192]
      cases hm : lowest w.act with
      | none => simp
      | some m => simp [hg m (lowest_mem hm)]
  · intro x l hx hx1 hl
    rw [hr, wr64, rd_wr_ne _ _ _ hx1 hl, rd_wr_ne _ _ _ hx hl, rd_clearPass]
  · intro x l hl
    rw [show spoiltAt w1 x l = spoiltAt (wr64 (clearPass w) d w.act (f (clearPass w))) x l by
      simp [spoiltAt, hsp], wr64, spoiltAt_wr _ _ _ _ _ hl, spoiltAt_wr _ _ _ _ _ hl]
    simp [wrote, spoiltAt, lowest_isSome, Bool.and_assoc, Bool.not_or]

/-- A word that writes a predicate (R55). -/
theorem warpWord_writesPred {i : Instr} {s : State} {k : Nat} {w : Warp} {regs : List Fld} (h : Issues s k w regs)
    (hs : w.sstep = false) (p : Nat) (b : Warp → Mask) (c : Nat → Bool)
    (hi : exec i s = warpWord s regs (fun w => wrP w p w.act (b w)))
    (hc : ∀ l, w.act.getLsbD l = true → (b (clearPass w)).getLsbD l = c l) : WritesPred i s k w p c := by
  obtain ⟨t, w1, e, r, hv, hw, hp, hf, hsp⟩ := warpWord_retires h hs (fun w => wrP w p w.act (b w))
    ⟨by simp, by simp, by rw [wrP_other]⟩
  refine ⟨t, w1, hi.trans e, r, ⟨by rw [hsp]; simp [wrP_spoilt], fun f l _ => ?_⟩, ⟨fun l _ => ?_, fun q l hq _ => ?_⟩, by simpa using hf⟩
  · simp only [rd, hv, hw]; simp
  · rw [hp, tgetD_wrP, clearPass_act, clearPass_p]
    by_cases h0 : p = 0
    · simp [h0]
    · cases ha : w.act.getLsbD l
      · simp [h0]
      · simp [h0, hc l ha]
  · rw [hp, tgetD_wrP, clearPass_p]; simp [hq]

end Sys2Proof.Machine
end

