-- ==== Sys2Proof/Laws/State.lean ====
section
/-! SUPPORT. What each named update of the state leaves and what it gives: one lemma for each field, true by rfl. -/

namespace Sys2Proof.Machine

/-! setCore -/

section
variable (s : State) (c : Nat) (x : Core)
@[simp] theorem setCore_mem : (setCore s c x).mem = s.mem := rfl
@[simp] theorem setCore_poison : (setCore s c x).poison = s.poison := rfl
@[simp] theorem setCore_cycle : (setCore s c x).cycle = s.cycle := rfl
@[simp] theorem setCore_dieEn : (setCore s c x).dieEn = s.dieEn := rfl
@[simp] theorem setCore_coreEn : (setCore s c x).coreEn = s.coreEn := rfl
@[simp] theorem setCore_lp6En : (setCore s c x).lp6En = s.lp6En := rfl
@[simp] theorem setCore_linkEn : (setCore s c x).linkEn = s.linkEn := rfl
@[simp] theorem setCore_ready : (setCore s c x).ready = s.ready := rfl
@[simp] theorem setCore_balance : (setCore s c x).balance = s.balance := rfl
@[simp] theorem setCore_evBase : (setCore s c x).evBase = s.evBase := rfl
@[simp] theorem setCore_evCfg : (setCore s c x).evCfg = s.evCfg := rfl
@[simp] theorem setCore_evHead : (setCore s c x).evHead = s.evHead := rfl
@[simp] theorem setCore_evTail : (setCore s c x).evTail = s.evTail := rfl
@[simp] theorem setCore_evLost : (setCore s c x).evLost = s.evLost := rfl
@[simp] theorem setCore_capBase : (setCore s c x).capBase = s.capBase := rfl
@[simp] theorem setCore_capCfg : (setCore s c x).capCfg = s.capCfg := rfl
@[simp] theorem setCore_capLaunch : (setCore s c x).capLaunch = s.capLaunch := rfl
@[simp] theorem setCore_capWgLo : (setCore s c x).capWgLo = s.capWgLo := rfl
@[simp] theorem setCore_capWgHi : (setCore s c x).capWgHi = s.capWgHi := rfl
@[simp] theorem setCore_capTypes : (setCore s c x).capTypes = s.capTypes := rfl
@[simp] theorem setCore_histCtx : (setCore s c x).histCtx = s.histCtx := rfl
@[simp] theorem setCore_dbgArg0 : (setCore s c x).dbgArg0 = s.dbgArg0 := rfl
@[simp] theorem setCore_dbgArg1 : (setCore s c x).dbgArg1 = s.dbgArg1 := rfl
@[simp] theorem setCore_dbgArg2 : (setCore s c x).dbgArg2 = s.dbgArg2 := rfl
@[simp] theorem setCore_capState : (setCore s c x).capState = s.capState := rfl
@[simp] theorem setCore_capOff : (setCore s c x).capOff = s.capOff := rfl
@[simp] theorem setCore_capDropped : (setCore s c x).capDropped = s.capDropped := rfl
@[simp] theorem setCore_triggers : (setCore s c x).triggers = s.triggers := rfl
@[simp] theorem setCore_samplers : (setCore s c x).samplers = s.samplers := rfl
@[simp] theorem setCore_pulse : (setCore s c x).pulse = s.pulse := rfl
@[simp] theorem setCore_launchSerial : (setCore s c x).launchSerial = s.launchSerial := rfl
@[simp] theorem setCore_grids : (setCore s c x).grids = s.grids := rfl
@[simp] theorem setCore_wgs : (setCore s c x).wgs = s.wgs := rfl
@[simp] theorem setCore_warps : (setCore s c x).warps = s.warps := rfl
@[simp] theorem setCore_cores : (setCore s c x).cores = tput s.cores c x := rfl
@[simp] theorem setCore_ctxDesc : (setCore s c x).ctxDesc = s.ctxDesc := rfl
@[simp] theorem setCore_ctxs : (setCore s c x).ctxs = s.ctxs := rfl
@[simp] theorem setCore_hwqs : (setCore s c x).hwqs = s.hwqs := rfl
@[simp] theorem setCore_queues : (setCore s c x).queues = s.queues := rfl
@[simp] theorem setCore_mailboxes : (setCore s c x).mailboxes = s.mailboxes := rfl
@[simp] theorem setCore_netMatch : (setCore s c x).netMatch = s.netMatch := rfl
@[simp] theorem setCore_transit : (setCore s c x).transit = s.transit := rfl
@[simp] theorem setCore_forwarded : (setCore s c x).forwarded = s.forwarded := rfl
@[simp] theorem setCore_splicers : (setCore s c x).splicers = s.splicers := rfl
@[simp] theorem setCore_links : (setCore s c x).links = s.links := rfl
@[simp] theorem setCore_fid : (setCore s c x).fid = s.fid := rfl
@[simp] theorem setCore_refusing : (setCore s c x).refusing = s.refusing := rfl
@[simp] theorem setCore_groups : (setCore s c x).groups = s.groups := rfl
@[simp] theorem setCore_earlyAcks : (setCore s c x).earlyAcks = s.earlyAcks := rfl
@[simp] theorem setCore_deadGates : (setCore s c x).deadGates = s.deadGates := rfl
@[simp] theorem setCore_pageFaults : (setCore s c x).pageFaults = s.pageFaults := rfl
@[simp] theorem setCore_held : (setCore s c x).held = s.held := rfl
@[simp] theorem setCore_lead : (setCore s c x).lead = s.lead := rfl
@[simp] theorem setCore_standIn : (setCore s c x).standIn = s.standIn := rfl
@[simp] theorem setCore_takeover : (setCore s c x).takeover = s.takeover := rfl
@[simp] theorem setCore_measures : (setCore s c x).measures = s.measures := rfl
@[simp] theorem setCore_minVersion : (setCore s c x).minVersion = s.minVersion := rfl
@[simp] theorem setCore_throttled : (setCore s c x).throttled = s.throttled := rfl
@[simp] theorem setCore_stopped : (setCore s c x).stopped = s.stopped := rfl
@[simp] theorem setCore_allotment : (setCore s c x).allotment = s.allotment := rfl
@[simp] theorem setCore_choices : (setCore s c x).choices = s.choices := rfl
@[simp] theorem setCore_fresh : (setCore s c x).fresh = s.fresh := rfl
@[simp] theorem setCore_rotor : (setCore s c x).rotor = s.rotor := rfl
@[simp] theorem setCore_turns : (setCore s c x).turns = s.turns := rfl
@[simp] theorem setCore_round : (setCore s c x).round = s.round := rfl
@[simp] theorem setCore_events : (setCore s c x).events = s.events := rfl
@[simp] theorem setCore_issuer : (setCore s c x).issuer = s.issuer := rfl
@[simp] theorem setCore_sent : (setCore s c x).sent = s.sent := rfl
@[simp] theorem setCore_posted : (setCore s c x).posted = s.posted := rfl
@[simp] theorem setCore_done : (setCore s c x).done = s.done := rfl
theorem coreRec_setCore (j : Nat) : coreRec (setCore s c x) j = if c = j then x else coreRec s j := by
  simp only [coreRec, setCore, tgetD_tput]
@[simp] theorem coreRec_setCore_self : coreRec (setCore s c x) c = x := by rw [coreRec_setCore, if_pos rfl]
@[simp] theorem ctxRec_setCore (j : Nat) : ctxRec (setCore s c x) j = ctxRec s j := rfl
@[simp] theorem descOf_setCore (j : Nat) : descOf (setCore s c x) j = descOf s j := rfl
@[simp] theorem queueRec_setCore (j : Nat) : queueRec (setCore s c x) j = queueRec s j := rfl
@[simp] theorem hwqRec_setCore (j : Nat) : hwqRec (setCore s c x) j = hwqRec s j := rfl
@[simp] theorem splRec_setCore (j : Nat) : splRec (setCore s c x) j = splRec s j := rfl
@[simp] theorem linkRec_setCore (j : Nat) : linkRec (setCore s c x) j = linkRec s j := rfl
@[simp] theorem cycleOf_setCore (j : Nat) : cycleOf (setCore s c x) j = cycleOf s j := rfl
end

/-! setCtx -/

section
variable (s : State) (n : Nat) (x : Ctx)
@[simp] theorem setCtx_mem : (setCtx s n x).mem = s.mem := rfl
@[simp] theorem setCtx_poison : (setCtx s n x).poison = s.poison := rfl
@[simp] theorem setCtx_cycle : (setCtx s n x).cycle = s.cycle := rfl
@[simp] theorem setCtx_dieEn : (setCtx s n x).dieEn = s.dieEn := rfl
@[simp] theorem setCtx_coreEn : (setCtx s n x).coreEn = s.coreEn := rfl
@[simp] theorem setCtx_lp6En : (setCtx s n x).lp6En = s.lp6En := rfl
@[simp] theorem setCtx_linkEn : (setCtx s n x).linkEn = s.linkEn := rfl
@[simp] theorem setCtx_ready : (setCtx s n x).ready = s.ready := rfl
@[simp] theorem setCtx_balance : (setCtx s n x).balance = s.balance := rfl
@[simp] theorem setCtx_evBase : (setCtx s n x).evBase = s.evBase := rfl
@[simp] theorem setCtx_evCfg : (setCtx s n x).evCfg = s.evCfg := rfl
@[simp] theorem setCtx_evHead : (setCtx s n x).evHead = s.evHead := rfl
@[simp] theorem setCtx_evTail : (setCtx s n x).evTail = s.evTail := rfl
@[simp] theorem setCtx_evLost : (setCtx s n x).evLost = s.evLost := rfl
@[simp] theorem setCtx_capBase : (setCtx s n x).capBase = s.capBase := rfl
@[simp] theorem setCtx_capCfg : (setCtx s n x).capCfg = s.capCfg := rfl
@[simp] theorem setCtx_capLaunch : (setCtx s n x).capLaunch = s.capLaunch := rfl
@[simp] theorem setCtx_capWgLo : (setCtx s n x).capWgLo = s.capWgLo := rfl
@[simp] theorem setCtx_capWgHi : (setCtx s n x).capWgHi = s.capWgHi := rfl
@[simp] theorem setCtx_capTypes : (setCtx s n x).capTypes = s.capTypes := rfl
@[simp] theorem setCtx_histCtx : (setCtx s n x).histCtx = s.histCtx := rfl
@[simp] theorem setCtx_dbgArg0 : (setCtx s n x).dbgArg0 = s.dbgArg0 := rfl
@[simp] theorem setCtx_dbgArg1 : (setCtx s n x).dbgArg1 = s.dbgArg1 := rfl
@[simp] theorem setCtx_dbgArg2 : (setCtx s n x).dbgArg2 = s.dbgArg2 := rfl
@[simp] theorem setCtx_capState : (setCtx s n x).capState = s.capState := rfl
@[simp] theorem setCtx_capOff : (setCtx s n x).capOff = s.capOff := rfl
@[simp] theorem setCtx_capDropped : (setCtx s n x).capDropped = s.capDropped := rfl
@[simp] theorem setCtx_triggers : (setCtx s n x).triggers = s.triggers := rfl
@[simp] theorem setCtx_samplers : (setCtx s n x).samplers = s.samplers := rfl
@[simp] theorem setCtx_pulse : (setCtx s n x).pulse = s.pulse := rfl
@[simp] theorem setCtx_launchSerial : (setCtx s n x).launchSerial = s.launchSerial := rfl
@[simp] theorem setCtx_grids : (setCtx s n x).grids = s.grids := rfl
@[simp] theorem setCtx_wgs : (setCtx s n x).wgs = s.wgs := rfl
@[simp] theorem setCtx_warps : (setCtx s n x).warps = s.warps := rfl
@[simp] theorem setCtx_cores : (setCtx s n x).cores = s.cores := rfl
@[simp] theorem setCtx_ctxDesc : (setCtx s n x).ctxDesc = s.ctxDesc := rfl
@[simp] theorem setCtx_ctxs : (setCtx s n x).ctxs = tput s.ctxs n x := rfl
@[simp] theorem setCtx_hwqs : (setCtx s n x).hwqs = s.hwqs := rfl
@[simp] theorem setCtx_queues : (setCtx s n x).queues = s.queues := rfl
@[simp] theorem setCtx_mailboxes : (setCtx s n x).mailboxes = s.mailboxes := rfl
@[simp] theorem setCtx_netMatch : (setCtx s n x).netMatch = s.netMatch := rfl
@[simp] theorem setCtx_transit : (setCtx s n x).transit = s.transit := rfl
@[simp] theorem setCtx_forwarded : (setCtx s n x).forwarded = s.forwarded := rfl
@[simp] theorem setCtx_splicers : (setCtx s n x).splicers = s.splicers := rfl
@[simp] theorem setCtx_links : (setCtx s n x).links = s.links := rfl
@[simp] theorem setCtx_fid : (setCtx s n x).fid = s.fid := rfl
@[simp] theorem setCtx_refusing : (setCtx s n x).refusing = s.refusing := rfl
@[simp] theorem setCtx_groups : (setCtx s n x).groups = s.groups := rfl
@[simp] theorem setCtx_earlyAcks : (setCtx s n x).earlyAcks = s.earlyAcks := rfl
@[simp] theorem setCtx_deadGates : (setCtx s n x).deadGates = s.deadGates := rfl
@[simp] theorem setCtx_pageFaults : (setCtx s n x).pageFaults = s.pageFaults := rfl
@[simp] theorem setCtx_held : (setCtx s n x).held = s.held := rfl
@[simp] theorem setCtx_lead : (setCtx s n x).lead = s.lead := rfl
@[simp] theorem setCtx_standIn : (setCtx s n x).standIn = s.standIn := rfl
@[simp] theorem setCtx_takeover : (setCtx s n x).takeover = s.takeover := rfl
@[simp] theorem setCtx_measures : (setCtx s n x).measures = s.measures := rfl
@[simp] theorem setCtx_minVersion : (setCtx s n x).minVersion = s.minVersion := rfl
@[simp] theorem setCtx_throttled : (setCtx s n x).throttled = s.throttled := rfl
@[simp] theorem setCtx_stopped : (setCtx s n x).stopped = s.stopped := rfl
@[simp] theorem setCtx_allotment : (setCtx s n x).allotment = s.allotment := rfl
@[simp] theorem setCtx_choices : (setCtx s n x).choices = s.choices := rfl
@[simp] theorem setCtx_fresh : (setCtx s n x).fresh = s.fresh := rfl
@[simp] theorem setCtx_rotor : (setCtx s n x).rotor = s.rotor := rfl
@[simp] theorem setCtx_turns : (setCtx s n x).turns = s.turns := rfl
@[simp] theorem setCtx_round : (setCtx s n x).round = s.round := rfl
@[simp] theorem setCtx_events : (setCtx s n x).events = s.events := rfl
@[simp] theorem setCtx_issuer : (setCtx s n x).issuer = s.issuer := rfl
@[simp] theorem setCtx_sent : (setCtx s n x).sent = s.sent := rfl
@[simp] theorem setCtx_posted : (setCtx s n x).posted = s.posted := rfl
@[simp] theorem setCtx_done : (setCtx s n x).done = s.done := rfl
@[simp] theorem coreRec_setCtx (j : Nat) : coreRec (setCtx s n x) j = coreRec s j := rfl
theorem ctxRec_setCtx (j : Nat) : ctxRec (setCtx s n x) j = if n = j then x else ctxRec s j := by
  simp only [ctxRec, setCtx, tgetD_tput]
@[simp] theorem ctxRec_setCtx_self : ctxRec (setCtx s n x) n = x := by rw [ctxRec_setCtx, if_pos rfl]
@[simp] theorem descOf_setCtx (j : Nat) : descOf (setCtx s n x) j = descOf s j := rfl
@[simp] theorem queueRec_setCtx (j : Nat) : queueRec (setCtx s n x) j = queueRec s j := rfl
@[simp] theorem hwqRec_setCtx (j : Nat) : hwqRec (setCtx s n x) j = hwqRec s j := rfl
@[simp] theorem splRec_setCtx (j : Nat) : splRec (setCtx s n x) j = splRec s j := rfl
@[simp] theorem linkRec_setCtx (j : Nat) : linkRec (setCtx s n x) j = linkRec s j := rfl
@[simp] theorem cycleOf_setCtx (j : Nat) : cycleOf (setCtx s n x) j = cycleOf s j := rfl
end

/-! setQueue -/

section
variable (s : State) (q : Nat) (x : Queue)
@[simp] theorem setQueue_mem : (setQueue s q x).mem = s.mem := rfl
@[simp] theorem setQueue_poison : (setQueue s q x).poison = s.poison := rfl
@[simp] theorem setQueue_cycle : (setQueue s q x).cycle = s.cycle := rfl
@[simp] theorem setQueue_dieEn : (setQueue s q x).dieEn = s.dieEn := rfl
@[simp] theorem setQueue_coreEn : (setQueue s q x).coreEn = s.coreEn := rfl
@[simp] theorem setQueue_lp6En : (setQueue s q x).lp6En = s.lp6En := rfl
@[simp] theorem setQueue_linkEn : (setQueue s q x).linkEn = s.linkEn := rfl
@[simp] theorem setQueue_ready : (setQueue s q x).ready = s.ready := rfl
@[simp] theorem setQueue_balance : (setQueue s q x).balance = s.balance := rfl
@[simp] theorem setQueue_evBase : (setQueue s q x).evBase = s.evBase := rfl
@[simp] theorem setQueue_evCfg : (setQueue s q x).evCfg = s.evCfg := rfl
@[simp] theorem setQueue_evHead : (setQueue s q x).evHead = s.evHead := rfl
@[simp] theorem setQueue_evTail : (setQueue s q x).evTail = s.evTail := rfl
@[simp] theorem setQueue_evLost : (setQueue s q x).evLost = s.evLost := rfl
@[simp] theorem setQueue_capBase : (setQueue s q x).capBase = s.capBase := rfl
@[simp] theorem setQueue_capCfg : (setQueue s q x).capCfg = s.capCfg := rfl
@[simp] theorem setQueue_capLaunch : (setQueue s q x).capLaunch = s.capLaunch := rfl
@[simp] theorem setQueue_capWgLo : (setQueue s q x).capWgLo = s.capWgLo := rfl
@[simp] theorem setQueue_capWgHi : (setQueue s q x).capWgHi = s.capWgHi := rfl
@[simp] theorem setQueue_capTypes : (setQueue s q x).capTypes = s.capTypes := rfl
@[simp] theorem setQueue_histCtx : (setQueue s q x).histCtx = s.histCtx := rfl
@[simp] theorem setQueue_dbgArg0 : (setQueue s q x).dbgArg0 = s.dbgArg0 := rfl
@[simp] theorem setQueue_dbgArg1 : (setQueue s q x).dbgArg1 = s.dbgArg1 := rfl
@[simp] theorem setQueue_dbgArg2 : (setQueue s q x).dbgArg2 = s.dbgArg2 := rfl
@[simp] theorem setQueue_capState : (setQueue s q x).capState = s.capState := rfl
@[simp] theorem setQueue_capOff : (setQueue s q x).capOff = s.capOff := rfl
@[simp] theorem setQueue_capDropped : (setQueue s q x).capDropped = s.capDropped := rfl
@[simp] theorem setQueue_triggers : (setQueue s q x).triggers = s.triggers := rfl
@[simp] theorem setQueue_samplers : (setQueue s q x).samplers = s.samplers := rfl
@[simp] theorem setQueue_pulse : (setQueue s q x).pulse = s.pulse := rfl
@[simp] theorem setQueue_launchSerial : (setQueue s q x).launchSerial = s.launchSerial := rfl
@[simp] theorem setQueue_grids : (setQueue s q x).grids = s.grids := rfl
@[simp] theorem setQueue_wgs : (setQueue s q x).wgs = s.wgs := rfl
@[simp] theorem setQueue_warps : (setQueue s q x).warps = s.warps := rfl
@[simp] theorem setQueue_cores : (setQueue s q x).cores = s.cores := rfl
@[simp] theorem setQueue_ctxDesc : (setQueue s q x).ctxDesc = s.ctxDesc := rfl
@[simp] theorem setQueue_ctxs : (setQueue s q x).ctxs = s.ctxs := rfl
@[simp] theorem setQueue_hwqs : (setQueue s q x).hwqs = s.hwqs := rfl
@[simp] theorem setQueue_queues : (setQueue s q x).queues = tput s.queues q x := rfl
@[simp] theorem setQueue_mailboxes : (setQueue s q x).mailboxes = s.mailboxes := rfl
@[simp] theorem setQueue_netMatch : (setQueue s q x).netMatch = s.netMatch := rfl
@[simp] theorem setQueue_transit : (setQueue s q x).transit = s.transit := rfl
@[simp] theorem setQueue_forwarded : (setQueue s q x).forwarded = s.forwarded := rfl
@[simp] theorem setQueue_splicers : (setQueue s q x).splicers = s.splicers := rfl
@[simp] theorem setQueue_links : (setQueue s q x).links = s.links := rfl
@[simp] theorem setQueue_fid : (setQueue s q x).fid = s.fid := rfl
@[simp] theorem setQueue_refusing : (setQueue s q x).refusing = s.refusing := rfl
@[simp] theorem setQueue_groups : (setQueue s q x).groups = s.groups := rfl
@[simp] theorem setQueue_earlyAcks : (setQueue s q x).earlyAcks = s.earlyAcks := rfl
@[simp] theorem setQueue_deadGates : (setQueue s q x).deadGates = s.deadGates := rfl
@[simp] theorem setQueue_pageFaults : (setQueue s q x).pageFaults = s.pageFaults := rfl
@[simp] theorem setQueue_held : (setQueue s q x).held = s.held := rfl
@[simp] theorem setQueue_lead : (setQueue s q x).lead = s.lead := rfl
@[simp] theorem setQueue_standIn : (setQueue s q x).standIn = s.standIn := rfl
@[simp] theorem setQueue_takeover : (setQueue s q x).takeover = s.takeover := rfl
@[simp] theorem setQueue_measures : (setQueue s q x).measures = s.measures := rfl
@[simp] theorem setQueue_minVersion : (setQueue s q x).minVersion = s.minVersion := rfl
@[simp] theorem setQueue_throttled : (setQueue s q x).throttled = s.throttled := rfl
@[simp] theorem setQueue_stopped : (setQueue s q x).stopped = s.stopped := rfl
@[simp] theorem setQueue_allotment : (setQueue s q x).allotment = s.allotment := rfl
@[simp] theorem setQueue_choices : (setQueue s q x).choices = s.choices := rfl
@[simp] theorem setQueue_fresh : (setQueue s q x).fresh = s.fresh := rfl
@[simp] theorem setQueue_rotor : (setQueue s q x).rotor = s.rotor := rfl
@[simp] theorem setQueue_turns : (setQueue s q x).turns = s.turns := rfl
@[simp] theorem setQueue_round : (setQueue s q x).round = s.round := rfl
@[simp] theorem setQueue_events : (setQueue s q x).events = s.events := rfl
@[simp] theorem setQueue_issuer : (setQueue s q x).issuer = s.issuer := rfl
@[simp] theorem setQueue_sent : (setQueue s q x).sent = s.sent := rfl
@[simp] theorem setQueue_posted : (setQueue s q x).posted = s.posted := rfl
@[simp] theorem setQueue_done : (setQueue s q x).done = s.done := rfl
@[simp] theorem coreRec_setQueue (j : Nat) : coreRec (setQueue s q x) j = coreRec s j := rfl
@[simp] theorem ctxRec_setQueue (j : Nat) : ctxRec (setQueue s q x) j = ctxRec s j := rfl
@[simp] theorem descOf_setQueue (j : Nat) : descOf (setQueue s q x) j = descOf s j := rfl
theorem queueRec_setQueue (j : Nat) : queueRec (setQueue s q x) j = if q = j then x else queueRec s j := by
  simp only [queueRec, setQueue, tgetD_tput]
@[simp] theorem queueRec_setQueue_self : queueRec (setQueue s q x) q = x := by rw [queueRec_setQueue, if_pos rfl]
@[simp] theorem hwqRec_setQueue (j : Nat) : hwqRec (setQueue s q x) j = hwqRec s j := rfl
@[simp] theorem splRec_setQueue (j : Nat) : splRec (setQueue s q x) j = splRec s j := rfl
@[simp] theorem linkRec_setQueue (j : Nat) : linkRec (setQueue s q x) j = linkRec s j := rfl
@[simp] theorem cycleOf_setQueue (j : Nat) : cycleOf (setQueue s q x) j = cycleOf s j := rfl
end

/-! setHwq -/

section
variable (s : State) (k : Nat) (x : Hwq)
@[simp] theorem setHwq_mem : (setHwq s k x).mem = s.mem := rfl
@[simp] theorem setHwq_poison : (setHwq s k x).poison = s.poison := rfl
@[simp] theorem setHwq_cycle : (setHwq s k x).cycle = s.cycle := rfl
@[simp] theorem setHwq_dieEn : (setHwq s k x).dieEn = s.dieEn := rfl
@[simp] theorem setHwq_coreEn : (setHwq s k x).coreEn = s.coreEn := rfl
@[simp] theorem setHwq_lp6En : (setHwq s k x).lp6En = s.lp6En := rfl
@[simp] theorem setHwq_linkEn : (setHwq s k x).linkEn = s.linkEn := rfl
@[simp] theorem setHwq_ready : (setHwq s k x).ready = s.ready := rfl
@[simp] theorem setHwq_balance : (setHwq s k x).balance = s.balance := rfl
@[simp] theorem setHwq_evBase : (setHwq s k x).evBase = s.evBase := rfl
@[simp] theorem setHwq_evCfg : (setHwq s k x).evCfg = s.evCfg := rfl
@[simp] theorem setHwq_evHead : (setHwq s k x).evHead = s.evHead := rfl
@[simp] theorem setHwq_evTail : (setHwq s k x).evTail = s.evTail := rfl
@[simp] theorem setHwq_evLost : (setHwq s k x).evLost = s.evLost := rfl
@[simp] theorem setHwq_capBase : (setHwq s k x).capBase = s.capBase := rfl
@[simp] theorem setHwq_capCfg : (setHwq s k x).capCfg = s.capCfg := rfl
@[simp] theorem setHwq_capLaunch : (setHwq s k x).capLaunch = s.capLaunch := rfl
@[simp] theorem setHwq_capWgLo : (setHwq s k x).capWgLo = s.capWgLo := rfl
@[simp] theorem setHwq_capWgHi : (setHwq s k x).capWgHi = s.capWgHi := rfl
@[simp] theorem setHwq_capTypes : (setHwq s k x).capTypes = s.capTypes := rfl
@[simp] theorem setHwq_histCtx : (setHwq s k x).histCtx = s.histCtx := rfl
@[simp] theorem setHwq_dbgArg0 : (setHwq s k x).dbgArg0 = s.dbgArg0 := rfl
@[simp] theorem setHwq_dbgArg1 : (setHwq s k x).dbgArg1 = s.dbgArg1 := rfl
@[simp] theorem setHwq_dbgArg2 : (setHwq s k x).dbgArg2 = s.dbgArg2 := rfl
@[simp] theorem setHwq_capState : (setHwq s k x).capState = s.capState := rfl
@[simp] theorem setHwq_capOff : (setHwq s k x).capOff = s.capOff := rfl
@[simp] theorem setHwq_capDropped : (setHwq s k x).capDropped = s.capDropped := rfl
@[simp] theorem setHwq_triggers : (setHwq s k x).triggers = s.triggers := rfl
@[simp] theorem setHwq_samplers : (setHwq s k x).samplers = s.samplers := rfl
@[simp] theorem setHwq_pulse : (setHwq s k x).pulse = s.pulse := rfl
@[simp] theorem setHwq_launchSerial : (setHwq s k x).launchSerial = s.launchSerial := rfl
@[simp] theorem setHwq_grids : (setHwq s k x).grids = s.grids := rfl
@[simp] theorem setHwq_wgs : (setHwq s k x).wgs = s.wgs := rfl
@[simp] theorem setHwq_warps : (setHwq s k x).warps = s.warps := rfl
@[simp] theorem setHwq_cores : (setHwq s k x).cores = s.cores := rfl
@[simp] theorem setHwq_ctxDesc : (setHwq s k x).ctxDesc = s.ctxDesc := rfl
@[simp] theorem setHwq_ctxs : (setHwq s k x).ctxs = s.ctxs := rfl
@[simp] theorem setHwq_hwqs : (setHwq s k x).hwqs = tput s.hwqs k x := rfl
@[simp] theorem setHwq_queues : (setHwq s k x).queues = s.queues := rfl
@[simp] theorem setHwq_mailboxes : (setHwq s k x).mailboxes = s.mailboxes := rfl
@[simp] theorem setHwq_netMatch : (setHwq s k x).netMatch = s.netMatch := rfl
@[simp] theorem setHwq_transit : (setHwq s k x).transit = s.transit := rfl
@[simp] theorem setHwq_forwarded : (setHwq s k x).forwarded = s.forwarded := rfl
@[simp] theorem setHwq_splicers : (setHwq s k x).splicers = s.splicers := rfl
@[simp] theorem setHwq_links : (setHwq s k x).links = s.links := rfl
@[simp] theorem setHwq_fid : (setHwq s k x).fid = s.fid := rfl
@[simp] theorem setHwq_refusing : (setHwq s k x).refusing = s.refusing := rfl
@[simp] theorem setHwq_groups : (setHwq s k x).groups = s.groups := rfl
@[simp] theorem setHwq_earlyAcks : (setHwq s k x).earlyAcks = s.earlyAcks := rfl
@[simp] theorem setHwq_deadGates : (setHwq s k x).deadGates = s.deadGates := rfl
@[simp] theorem setHwq_pageFaults : (setHwq s k x).pageFaults = s.pageFaults := rfl
@[simp] theorem setHwq_held : (setHwq s k x).held = s.held := rfl
@[simp] theorem setHwq_lead : (setHwq s k x).lead = s.lead := rfl
@[simp] theorem setHwq_standIn : (setHwq s k x).standIn = s.standIn := rfl
@[simp] theorem setHwq_takeover : (setHwq s k x).takeover = s.takeover := rfl
@[simp] theorem setHwq_measures : (setHwq s k x).measures = s.measures := rfl
@[simp] theorem setHwq_minVersion : (setHwq s k x).minVersion = s.minVersion := rfl
@[simp] theorem setHwq_throttled : (setHwq s k x).throttled = s.throttled := rfl
@[simp] theorem setHwq_stopped : (setHwq s k x).stopped = s.stopped := rfl
@[simp] theorem setHwq_allotment : (setHwq s k x).allotment = s.allotment := rfl
@[simp] theorem setHwq_choices : (setHwq s k x).choices = s.choices := rfl
@[simp] theorem setHwq_fresh : (setHwq s k x).fresh = s.fresh := rfl
@[simp] theorem setHwq_rotor : (setHwq s k x).rotor = s.rotor := rfl
@[simp] theorem setHwq_turns : (setHwq s k x).turns = s.turns := rfl
@[simp] theorem setHwq_round : (setHwq s k x).round = s.round := rfl
@[simp] theorem setHwq_events : (setHwq s k x).events = s.events := rfl
@[simp] theorem setHwq_issuer : (setHwq s k x).issuer = s.issuer := rfl
@[simp] theorem setHwq_sent : (setHwq s k x).sent = s.sent := rfl
@[simp] theorem setHwq_posted : (setHwq s k x).posted = s.posted := rfl
@[simp] theorem setHwq_done : (setHwq s k x).done = s.done := rfl
@[simp] theorem coreRec_setHwq (j : Nat) : coreRec (setHwq s k x) j = coreRec s j := rfl
@[simp] theorem ctxRec_setHwq (j : Nat) : ctxRec (setHwq s k x) j = ctxRec s j := rfl
@[simp] theorem descOf_setHwq (j : Nat) : descOf (setHwq s k x) j = descOf s j := rfl
@[simp] theorem queueRec_setHwq (j : Nat) : queueRec (setHwq s k x) j = queueRec s j := rfl
theorem hwqRec_setHwq (j : Nat) : hwqRec (setHwq s k x) j = if k = j then x else hwqRec s j := by
  simp only [hwqRec, setHwq, tgetD_tput]
@[simp] theorem hwqRec_setHwq_self : hwqRec (setHwq s k x) k = x := by rw [hwqRec_setHwq, if_pos rfl]
@[simp] theorem splRec_setHwq (j : Nat) : splRec (setHwq s k x) j = splRec s j := rfl
@[simp] theorem linkRec_setHwq (j : Nat) : linkRec (setHwq s k x) j = linkRec s j := rfl
@[simp] theorem cycleOf_setHwq (j : Nat) : cycleOf (setHwq s k x) j = cycleOf s j := rfl
end

/-! setSpl -/

section
variable (s : State) (k : Nat) (x : Splicer)
@[simp] theorem setSpl_mem : (setSpl s k x).mem = s.mem := rfl
@[simp] theorem setSpl_poison : (setSpl s k x).poison = s.poison := rfl
@[simp] theorem setSpl_cycle : (setSpl s k x).cycle = s.cycle := rfl
@[simp] theorem setSpl_dieEn : (setSpl s k x).dieEn = s.dieEn := rfl
@[simp] theorem setSpl_coreEn : (setSpl s k x).coreEn = s.coreEn := rfl
@[simp] theorem setSpl_lp6En : (setSpl s k x).lp6En = s.lp6En := rfl
@[simp] theorem setSpl_linkEn : (setSpl s k x).linkEn = s.linkEn := rfl
@[simp] theorem setSpl_ready : (setSpl s k x).ready = s.ready := rfl
@[simp] theorem setSpl_balance : (setSpl s k x).balance = s.balance := rfl
@[simp] theorem setSpl_evBase : (setSpl s k x).evBase = s.evBase := rfl
@[simp] theorem setSpl_evCfg : (setSpl s k x).evCfg = s.evCfg := rfl
@[simp] theorem setSpl_evHead : (setSpl s k x).evHead = s.evHead := rfl
@[simp] theorem setSpl_evTail : (setSpl s k x).evTail = s.evTail := rfl
@[simp] theorem setSpl_evLost : (setSpl s k x).evLost = s.evLost := rfl
@[simp] theorem setSpl_capBase : (setSpl s k x).capBase = s.capBase := rfl
@[simp] theorem setSpl_capCfg : (setSpl s k x).capCfg = s.capCfg := rfl
@[simp] theorem setSpl_capLaunch : (setSpl s k x).capLaunch = s.capLaunch := rfl
@[simp] theorem setSpl_capWgLo : (setSpl s k x).capWgLo = s.capWgLo := rfl
@[simp] theorem setSpl_capWgHi : (setSpl s k x).capWgHi = s.capWgHi := rfl
@[simp] theorem setSpl_capTypes : (setSpl s k x).capTypes = s.capTypes := rfl
@[simp] theorem setSpl_histCtx : (setSpl s k x).histCtx = s.histCtx := rfl
@[simp] theorem setSpl_dbgArg0 : (setSpl s k x).dbgArg0 = s.dbgArg0 := rfl
@[simp] theorem setSpl_dbgArg1 : (setSpl s k x).dbgArg1 = s.dbgArg1 := rfl
@[simp] theorem setSpl_dbgArg2 : (setSpl s k x).dbgArg2 = s.dbgArg2 := rfl
@[simp] theorem setSpl_capState : (setSpl s k x).capState = s.capState := rfl
@[simp] theorem setSpl_capOff : (setSpl s k x).capOff = s.capOff := rfl
@[simp] theorem setSpl_capDropped : (setSpl s k x).capDropped = s.capDropped := rfl
@[simp] theorem setSpl_triggers : (setSpl s k x).triggers = s.triggers := rfl
@[simp] theorem setSpl_samplers : (setSpl s k x).samplers = s.samplers := rfl
@[simp] theorem setSpl_pulse : (setSpl s k x).pulse = s.pulse := rfl
@[simp] theorem setSpl_launchSerial : (setSpl s k x).launchSerial = s.launchSerial := rfl
@[simp] theorem setSpl_grids : (setSpl s k x).grids = s.grids := rfl
@[simp] theorem setSpl_wgs : (setSpl s k x).wgs = s.wgs := rfl
@[simp] theorem setSpl_warps : (setSpl s k x).warps = s.warps := rfl
@[simp] theorem setSpl_cores : (setSpl s k x).cores = s.cores := rfl
@[simp] theorem setSpl_ctxDesc : (setSpl s k x).ctxDesc = s.ctxDesc := rfl
@[simp] theorem setSpl_ctxs : (setSpl s k x).ctxs = s.ctxs := rfl
@[simp] theorem setSpl_hwqs : (setSpl s k x).hwqs = s.hwqs := rfl
@[simp] theorem setSpl_queues : (setSpl s k x).queues = s.queues := rfl
@[simp] theorem setSpl_mailboxes : (setSpl s k x).mailboxes = s.mailboxes := rfl
@[simp] theorem setSpl_netMatch : (setSpl s k x).netMatch = s.netMatch := rfl
@[simp] theorem setSpl_transit : (setSpl s k x).transit = s.transit := rfl
@[simp] theorem setSpl_forwarded : (setSpl s k x).forwarded = s.forwarded := rfl
@[simp] theorem setSpl_splicers : (setSpl s k x).splicers = tput s.splicers k x := rfl
@[simp] theorem setSpl_links : (setSpl s k x).links = s.links := rfl
@[simp] theorem setSpl_fid : (setSpl s k x).fid = s.fid := rfl
@[simp] theorem setSpl_refusing : (setSpl s k x).refusing = s.refusing := rfl
@[simp] theorem setSpl_groups : (setSpl s k x).groups = s.groups := rfl
@[simp] theorem setSpl_earlyAcks : (setSpl s k x).earlyAcks = s.earlyAcks := rfl
@[simp] theorem setSpl_deadGates : (setSpl s k x).deadGates = s.deadGates := rfl
@[simp] theorem setSpl_pageFaults : (setSpl s k x).pageFaults = s.pageFaults := rfl
@[simp] theorem setSpl_held : (setSpl s k x).held = s.held := rfl
@[simp] theorem setSpl_lead : (setSpl s k x).lead = s.lead := rfl
@[simp] theorem setSpl_standIn : (setSpl s k x).standIn = s.standIn := rfl
@[simp] theorem setSpl_takeover : (setSpl s k x).takeover = s.takeover := rfl
@[simp] theorem setSpl_measures : (setSpl s k x).measures = s.measures := rfl
@[simp] theorem setSpl_minVersion : (setSpl s k x).minVersion = s.minVersion := rfl
@[simp] theorem setSpl_throttled : (setSpl s k x).throttled = s.throttled := rfl
@[simp] theorem setSpl_stopped : (setSpl s k x).stopped = s.stopped := rfl
@[simp] theorem setSpl_allotment : (setSpl s k x).allotment = s.allotment := rfl
@[simp] theorem setSpl_choices : (setSpl s k x).choices = s.choices := rfl
@[simp] theorem setSpl_fresh : (setSpl s k x).fresh = s.fresh := rfl
@[simp] theorem setSpl_rotor : (setSpl s k x).rotor = s.rotor := rfl
@[simp] theorem setSpl_turns : (setSpl s k x).turns = s.turns := rfl
@[simp] theorem setSpl_round : (setSpl s k x).round = s.round := rfl
@[simp] theorem setSpl_events : (setSpl s k x).events = s.events := rfl
@[simp] theorem setSpl_issuer : (setSpl s k x).issuer = s.issuer := rfl
@[simp] theorem setSpl_sent : (setSpl s k x).sent = s.sent := rfl
@[simp] theorem setSpl_posted : (setSpl s k x).posted = s.posted := rfl
@[simp] theorem setSpl_done : (setSpl s k x).done = s.done := rfl
@[simp] theorem coreRec_setSpl (j : Nat) : coreRec (setSpl s k x) j = coreRec s j := rfl
@[simp] theorem ctxRec_setSpl (j : Nat) : ctxRec (setSpl s k x) j = ctxRec s j := rfl
@[simp] theorem descOf_setSpl (j : Nat) : descOf (setSpl s k x) j = descOf s j := rfl
@[simp] theorem queueRec_setSpl (j : Nat) : queueRec (setSpl s k x) j = queueRec s j := rfl
@[simp] theorem hwqRec_setSpl (j : Nat) : hwqRec (setSpl s k x) j = hwqRec s j := rfl
theorem splRec_setSpl (j : Nat) : splRec (setSpl s k x) j = if k = j then x else splRec s j := by
  simp only [splRec, setSpl, tgetD_tput]
@[simp] theorem splRec_setSpl_self : splRec (setSpl s k x) k = x := by rw [splRec_setSpl, if_pos rfl]
@[simp] theorem linkRec_setSpl (j : Nat) : linkRec (setSpl s k x) j = linkRec s j := rfl
@[simp] theorem cycleOf_setSpl (j : Nat) : cycleOf (setSpl s k x) j = cycleOf s j := rfl
end

/-! setLink -/

section
variable (s : State) (l : Nat) (x : Link)
@[simp] theorem setLink_mem : (setLink s l x).mem = s.mem := rfl
@[simp] theorem setLink_poison : (setLink s l x).poison = s.poison := rfl
@[simp] theorem setLink_cycle : (setLink s l x).cycle = s.cycle := rfl
@[simp] theorem setLink_dieEn : (setLink s l x).dieEn = s.dieEn := rfl
@[simp] theorem setLink_coreEn : (setLink s l x).coreEn = s.coreEn := rfl
@[simp] theorem setLink_lp6En : (setLink s l x).lp6En = s.lp6En := rfl
@[simp] theorem setLink_linkEn : (setLink s l x).linkEn = s.linkEn := rfl
@[simp] theorem setLink_ready : (setLink s l x).ready = s.ready := rfl
@[simp] theorem setLink_balance : (setLink s l x).balance = s.balance := rfl
@[simp] theorem setLink_evBase : (setLink s l x).evBase = s.evBase := rfl
@[simp] theorem setLink_evCfg : (setLink s l x).evCfg = s.evCfg := rfl
@[simp] theorem setLink_evHead : (setLink s l x).evHead = s.evHead := rfl
@[simp] theorem setLink_evTail : (setLink s l x).evTail = s.evTail := rfl
@[simp] theorem setLink_evLost : (setLink s l x).evLost = s.evLost := rfl
@[simp] theorem setLink_capBase : (setLink s l x).capBase = s.capBase := rfl
@[simp] theorem setLink_capCfg : (setLink s l x).capCfg = s.capCfg := rfl
@[simp] theorem setLink_capLaunch : (setLink s l x).capLaunch = s.capLaunch := rfl
@[simp] theorem setLink_capWgLo : (setLink s l x).capWgLo = s.capWgLo := rfl
@[simp] theorem setLink_capWgHi : (setLink s l x).capWgHi = s.capWgHi := rfl
@[simp] theorem setLink_capTypes : (setLink s l x).capTypes = s.capTypes := rfl
@[simp] theorem setLink_histCtx : (setLink s l x).histCtx = s.histCtx := rfl
@[simp] theorem setLink_dbgArg0 : (setLink s l x).dbgArg0 = s.dbgArg0 := rfl
@[simp] theorem setLink_dbgArg1 : (setLink s l x).dbgArg1 = s.dbgArg1 := rfl
@[simp] theorem setLink_dbgArg2 : (setLink s l x).dbgArg2 = s.dbgArg2 := rfl
@[simp] theorem setLink_capState : (setLink s l x).capState = s.capState := rfl
@[simp] theorem setLink_capOff : (setLink s l x).capOff = s.capOff := rfl
@[simp] theorem setLink_capDropped : (setLink s l x).capDropped = s.capDropped := rfl
@[simp] theorem setLink_triggers : (setLink s l x).triggers = s.triggers := rfl
@[simp] theorem setLink_samplers : (setLink s l x).samplers = s.samplers := rfl
@[simp] theorem setLink_pulse : (setLink s l x).pulse = s.pulse := rfl
@[simp] theorem setLink_launchSerial : (setLink s l x).launchSerial = s.launchSerial := rfl
@[simp] theorem setLink_grids : (setLink s l x).grids = s.grids := rfl
@[simp] theorem setLink_wgs : (setLink s l x).wgs = s.wgs := rfl
@[simp] theorem setLink_warps : (setLink s l x).warps = s.warps := rfl
@[simp] theorem setLink_cores : (setLink s l x).cores = s.cores := rfl
@[simp] theorem setLink_ctxDesc : (setLink s l x).ctxDesc = s.ctxDesc := rfl
@[simp] theorem setLink_ctxs : (setLink s l x).ctxs = s.ctxs := rfl
@[simp] theorem setLink_hwqs : (setLink s l x).hwqs = s.hwqs := rfl
@[simp] theorem setLink_queues : (setLink s l x).queues = s.queues := rfl
@[simp] theorem setLink_mailboxes : (setLink s l x).mailboxes = s.mailboxes := rfl
@[simp] theorem setLink_netMatch : (setLink s l x).netMatch = s.netMatch := rfl
@[simp] theorem setLink_transit : (setLink s l x).transit = s.transit := rfl
@[simp] theorem setLink_forwarded : (setLink s l x).forwarded = s.forwarded := rfl
@[simp] theorem setLink_splicers : (setLink s l x).splicers = s.splicers := rfl
@[simp] theorem setLink_links : (setLink s l x).links = tput s.links l x := rfl
@[simp] theorem setLink_fid : (setLink s l x).fid = s.fid := rfl
@[simp] theorem setLink_refusing : (setLink s l x).refusing = s.refusing := rfl
@[simp] theorem setLink_groups : (setLink s l x).groups = s.groups := rfl
@[simp] theorem setLink_earlyAcks : (setLink s l x).earlyAcks = s.earlyAcks := rfl
@[simp] theorem setLink_deadGates : (setLink s l x).deadGates = s.deadGates := rfl
@[simp] theorem setLink_pageFaults : (setLink s l x).pageFaults = s.pageFaults := rfl
@[simp] theorem setLink_held : (setLink s l x).held = s.held := rfl
@[simp] theorem setLink_lead : (setLink s l x).lead = s.lead := rfl
@[simp] theorem setLink_standIn : (setLink s l x).standIn = s.standIn := rfl
@[simp] theorem setLink_takeover : (setLink s l x).takeover = s.takeover := rfl
@[simp] theorem setLink_measures : (setLink s l x).measures = s.measures := rfl
@[simp] theorem setLink_minVersion : (setLink s l x).minVersion = s.minVersion := rfl
@[simp] theorem setLink_throttled : (setLink s l x).throttled = s.throttled := rfl
@[simp] theorem setLink_stopped : (setLink s l x).stopped = s.stopped := rfl
@[simp] theorem setLink_allotment : (setLink s l x).allotment = s.allotment := rfl
@[simp] theorem setLink_choices : (setLink s l x).choices = s.choices := rfl
@[simp] theorem setLink_fresh : (setLink s l x).fresh = s.fresh := rfl
@[simp] theorem setLink_rotor : (setLink s l x).rotor = s.rotor := rfl
@[simp] theorem setLink_turns : (setLink s l x).turns = s.turns := rfl
@[simp] theorem setLink_round : (setLink s l x).round = s.round := rfl
@[simp] theorem setLink_events : (setLink s l x).events = s.events := rfl
@[simp] theorem setLink_issuer : (setLink s l x).issuer = s.issuer := rfl
@[simp] theorem setLink_sent : (setLink s l x).sent = s.sent := rfl
@[simp] theorem setLink_posted : (setLink s l x).posted = s.posted := rfl
@[simp] theorem setLink_done : (setLink s l x).done = s.done := rfl
@[simp] theorem coreRec_setLink (j : Nat) : coreRec (setLink s l x) j = coreRec s j := rfl
@[simp] theorem ctxRec_setLink (j : Nat) : ctxRec (setLink s l x) j = ctxRec s j := rfl
@[simp] theorem descOf_setLink (j : Nat) : descOf (setLink s l x) j = descOf s j := rfl
@[simp] theorem queueRec_setLink (j : Nat) : queueRec (setLink s l x) j = queueRec s j := rfl
@[simp] theorem hwqRec_setLink (j : Nat) : hwqRec (setLink s l x) j = hwqRec s j := rfl
@[simp] theorem splRec_setLink (j : Nat) : splRec (setLink s l x) j = splRec s j := rfl
theorem linkRec_setLink (j : Nat) : linkRec (setLink s l x) j = if l = j then x else linkRec s j := by
  simp only [linkRec, setLink, tgetD_tput]
@[simp] theorem linkRec_setLink_self : linkRec (setLink s l x) l = x := by rw [linkRec_setLink, if_pos rfl]
@[simp] theorem cycleOf_setLink (j : Nat) : cycleOf (setLink s l x) j = cycleOf s j := rfl
end

/-! setWarp -/

section
variable (s : State) (k : Nat) (x : Warp)
@[simp] theorem setWarp_mem : (setWarp s k x).mem = s.mem := rfl
@[simp] theorem setWarp_poison : (setWarp s k x).poison = s.poison := rfl
@[simp] theorem setWarp_cycle : (setWarp s k x).cycle = s.cycle := rfl
@[simp] theorem setWarp_dieEn : (setWarp s k x).dieEn = s.dieEn := rfl
@[simp] theorem setWarp_coreEn : (setWarp s k x).coreEn = s.coreEn := rfl
@[simp] theorem setWarp_lp6En : (setWarp s k x).lp6En = s.lp6En := rfl
@[simp] theorem setWarp_linkEn : (setWarp s k x).linkEn = s.linkEn := rfl
@[simp] theorem setWarp_ready : (setWarp s k x).ready = s.ready := rfl
@[simp] theorem setWarp_balance : (setWarp s k x).balance = s.balance := rfl
@[simp] theorem setWarp_evBase : (setWarp s k x).evBase = s.evBase := rfl
@[simp] theorem setWarp_evCfg : (setWarp s k x).evCfg = s.evCfg := rfl
@[simp] theorem setWarp_evHead : (setWarp s k x).evHead = s.evHead := rfl
@[simp] theorem setWarp_evTail : (setWarp s k x).evTail = s.evTail := rfl
@[simp] theorem setWarp_evLost : (setWarp s k x).evLost = s.evLost := rfl
@[simp] theorem setWarp_capBase : (setWarp s k x).capBase = s.capBase := rfl
@[simp] theorem setWarp_capCfg : (setWarp s k x).capCfg = s.capCfg := rfl
@[simp] theorem setWarp_capLaunch : (setWarp s k x).capLaunch = s.capLaunch := rfl
@[simp] theorem setWarp_capWgLo : (setWarp s k x).capWgLo = s.capWgLo := rfl
@[simp] theorem setWarp_capWgHi : (setWarp s k x).capWgHi = s.capWgHi := rfl
@[simp] theorem setWarp_capTypes : (setWarp s k x).capTypes = s.capTypes := rfl
@[simp] theorem setWarp_histCtx : (setWarp s k x).histCtx = s.histCtx := rfl
@[simp] theorem setWarp_dbgArg0 : (setWarp s k x).dbgArg0 = s.dbgArg0 := rfl
@[simp] theorem setWarp_dbgArg1 : (setWarp s k x).dbgArg1 = s.dbgArg1 := rfl
@[simp] theorem setWarp_dbgArg2 : (setWarp s k x).dbgArg2 = s.dbgArg2 := rfl
@[simp] theorem setWarp_capState : (setWarp s k x).capState = s.capState := rfl
@[simp] theorem setWarp_capOff : (setWarp s k x).capOff = s.capOff := rfl
@[simp] theorem setWarp_capDropped : (setWarp s k x).capDropped = s.capDropped := rfl
@[simp] theorem setWarp_triggers : (setWarp s k x).triggers = s.triggers := rfl
@[simp] theorem setWarp_samplers : (setWarp s k x).samplers = s.samplers := rfl
@[simp] theorem setWarp_pulse : (setWarp s k x).pulse = s.pulse := rfl
@[simp] theorem setWarp_launchSerial : (setWarp s k x).launchSerial = s.launchSerial := rfl
@[simp] theorem setWarp_grids : (setWarp s k x).grids = s.grids := rfl
@[simp] theorem setWarp_wgs : (setWarp s k x).wgs = s.wgs := rfl
@[simp] theorem setWarp_warps : (setWarp s k x).warps = tput s.warps k x := rfl
@[simp] theorem setWarp_cores : (setWarp s k x).cores = s.cores := rfl
@[simp] theorem setWarp_ctxDesc : (setWarp s k x).ctxDesc = s.ctxDesc := rfl
@[simp] theorem setWarp_ctxs : (setWarp s k x).ctxs = s.ctxs := rfl
@[simp] theorem setWarp_hwqs : (setWarp s k x).hwqs = s.hwqs := rfl
@[simp] theorem setWarp_queues : (setWarp s k x).queues = s.queues := rfl
@[simp] theorem setWarp_mailboxes : (setWarp s k x).mailboxes = s.mailboxes := rfl
@[simp] theorem setWarp_netMatch : (setWarp s k x).netMatch = s.netMatch := rfl
@[simp] theorem setWarp_transit : (setWarp s k x).transit = s.transit := rfl
@[simp] theorem setWarp_forwarded : (setWarp s k x).forwarded = s.forwarded := rfl
@[simp] theorem setWarp_splicers : (setWarp s k x).splicers = s.splicers := rfl
@[simp] theorem setWarp_links : (setWarp s k x).links = s.links := rfl
@[simp] theorem setWarp_fid : (setWarp s k x).fid = s.fid := rfl
@[simp] theorem setWarp_refusing : (setWarp s k x).refusing = s.refusing := rfl
@[simp] theorem setWarp_groups : (setWarp s k x).groups = s.groups := rfl
@[simp] theorem setWarp_earlyAcks : (setWarp s k x).earlyAcks = s.earlyAcks := rfl
@[simp] theorem setWarp_deadGates : (setWarp s k x).deadGates = s.deadGates := rfl
@[simp] theorem setWarp_pageFaults : (setWarp s k x).pageFaults = s.pageFaults := rfl
@[simp] theorem setWarp_held : (setWarp s k x).held = s.held := rfl
@[simp] theorem setWarp_lead : (setWarp s k x).lead = s.lead := rfl
@[simp] theorem setWarp_standIn : (setWarp s k x).standIn = s.standIn := rfl
@[simp] theorem setWarp_takeover : (setWarp s k x).takeover = s.takeover := rfl
@[simp] theorem setWarp_measures : (setWarp s k x).measures = s.measures := rfl
@[simp] theorem setWarp_minVersion : (setWarp s k x).minVersion = s.minVersion := rfl
@[simp] theorem setWarp_throttled : (setWarp s k x).throttled = s.throttled := rfl
@[simp] theorem setWarp_stopped : (setWarp s k x).stopped = s.stopped := rfl
@[simp] theorem setWarp_allotment : (setWarp s k x).allotment = s.allotment := rfl
@[simp] theorem setWarp_choices : (setWarp s k x).choices = s.choices := rfl
@[simp] theorem setWarp_fresh : (setWarp s k x).fresh = s.fresh := rfl
@[simp] theorem setWarp_rotor : (setWarp s k x).rotor = s.rotor := rfl
@[simp] theorem setWarp_turns : (setWarp s k x).turns = s.turns := rfl
@[simp] theorem setWarp_round : (setWarp s k x).round = s.round := rfl
@[simp] theorem setWarp_events : (setWarp s k x).events = s.events := rfl
@[simp] theorem setWarp_issuer : (setWarp s k x).issuer = s.issuer := rfl
@[simp] theorem setWarp_sent : (setWarp s k x).sent = s.sent := rfl
@[simp] theorem setWarp_posted : (setWarp s k x).posted = s.posted := rfl
@[simp] theorem setWarp_done : (setWarp s k x).done = s.done := rfl
@[simp] theorem coreRec_setWarp (j : Nat) : coreRec (setWarp s k x) j = coreRec s j := rfl
@[simp] theorem ctxRec_setWarp (j : Nat) : ctxRec (setWarp s k x) j = ctxRec s j := rfl
@[simp] theorem descOf_setWarp (j : Nat) : descOf (setWarp s k x) j = descOf s j := rfl
@[simp] theorem queueRec_setWarp (j : Nat) : queueRec (setWarp s k x) j = queueRec s j := rfl
@[simp] theorem hwqRec_setWarp (j : Nat) : hwqRec (setWarp s k x) j = hwqRec s j := rfl
@[simp] theorem splRec_setWarp (j : Nat) : splRec (setWarp s k x) j = splRec s j := rfl
@[simp] theorem linkRec_setWarp (j : Nat) : linkRec (setWarp s k x) j = linkRec s j := rfl
@[simp] theorem cycleOf_setWarp (j : Nat) : cycleOf (setWarp s k x) j = cycleOf s j := rfl
end

/-! setWg -/

section
variable (s : State) (k : Nat) (x : Workgroup)
@[simp] theorem setWg_mem : (setWg s k x).mem = s.mem := rfl
@[simp] theorem setWg_poison : (setWg s k x).poison = s.poison := rfl
@[simp] theorem setWg_cycle : (setWg s k x).cycle = s.cycle := rfl
@[simp] theorem setWg_dieEn : (setWg s k x).dieEn = s.dieEn := rfl
@[simp] theorem setWg_coreEn : (setWg s k x).coreEn = s.coreEn := rfl
@[simp] theorem setWg_lp6En : (setWg s k x).lp6En = s.lp6En := rfl
@[simp] theorem setWg_linkEn : (setWg s k x).linkEn = s.linkEn := rfl
@[simp] theorem setWg_ready : (setWg s k x).ready = s.ready := rfl
@[simp] theorem setWg_balance : (setWg s k x).balance = s.balance := rfl
@[simp] theorem setWg_evBase : (setWg s k x).evBase = s.evBase := rfl
@[simp] theorem setWg_evCfg : (setWg s k x).evCfg = s.evCfg := rfl
@[simp] theorem setWg_evHead : (setWg s k x).evHead = s.evHead := rfl
@[simp] theorem setWg_evTail : (setWg s k x).evTail = s.evTail := rfl
@[simp] theorem setWg_evLost : (setWg s k x).evLost = s.evLost := rfl
@[simp] theorem setWg_capBase : (setWg s k x).capBase = s.capBase := rfl
@[simp] theorem setWg_capCfg : (setWg s k x).capCfg = s.capCfg := rfl
@[simp] theorem setWg_capLaunch : (setWg s k x).capLaunch = s.capLaunch := rfl
@[simp] theorem setWg_capWgLo : (setWg s k x).capWgLo = s.capWgLo := rfl
@[simp] theorem setWg_capWgHi : (setWg s k x).capWgHi = s.capWgHi := rfl
@[simp] theorem setWg_capTypes : (setWg s k x).capTypes = s.capTypes := rfl
@[simp] theorem setWg_histCtx : (setWg s k x).histCtx = s.histCtx := rfl
@[simp] theorem setWg_dbgArg0 : (setWg s k x).dbgArg0 = s.dbgArg0 := rfl
@[simp] theorem setWg_dbgArg1 : (setWg s k x).dbgArg1 = s.dbgArg1 := rfl
@[simp] theorem setWg_dbgArg2 : (setWg s k x).dbgArg2 = s.dbgArg2 := rfl
@[simp] theorem setWg_capState : (setWg s k x).capState = s.capState := rfl
@[simp] theorem setWg_capOff : (setWg s k x).capOff = s.capOff := rfl
@[simp] theorem setWg_capDropped : (setWg s k x).capDropped = s.capDropped := rfl
@[simp] theorem setWg_triggers : (setWg s k x).triggers = s.triggers := rfl
@[simp] theorem setWg_samplers : (setWg s k x).samplers = s.samplers := rfl
@[simp] theorem setWg_pulse : (setWg s k x).pulse = s.pulse := rfl
@[simp] theorem setWg_launchSerial : (setWg s k x).launchSerial = s.launchSerial := rfl
@[simp] theorem setWg_grids : (setWg s k x).grids = s.grids := rfl
@[simp] theorem setWg_wgs : (setWg s k x).wgs = tput s.wgs k x := rfl
@[simp] theorem setWg_warps : (setWg s k x).warps = s.warps := rfl
@[simp] theorem setWg_cores : (setWg s k x).cores = s.cores := rfl
@[simp] theorem setWg_ctxDesc : (setWg s k x).ctxDesc = s.ctxDesc := rfl
@[simp] theorem setWg_ctxs : (setWg s k x).ctxs = s.ctxs := rfl
@[simp] theorem setWg_hwqs : (setWg s k x).hwqs = s.hwqs := rfl
@[simp] theorem setWg_queues : (setWg s k x).queues = s.queues := rfl
@[simp] theorem setWg_mailboxes : (setWg s k x).mailboxes = s.mailboxes := rfl
@[simp] theorem setWg_netMatch : (setWg s k x).netMatch = s.netMatch := rfl
@[simp] theorem setWg_transit : (setWg s k x).transit = s.transit := rfl
@[simp] theorem setWg_forwarded : (setWg s k x).forwarded = s.forwarded := rfl
@[simp] theorem setWg_splicers : (setWg s k x).splicers = s.splicers := rfl
@[simp] theorem setWg_links : (setWg s k x).links = s.links := rfl
@[simp] theorem setWg_fid : (setWg s k x).fid = s.fid := rfl
@[simp] theorem setWg_refusing : (setWg s k x).refusing = s.refusing := rfl
@[simp] theorem setWg_groups : (setWg s k x).groups = s.groups := rfl
@[simp] theorem setWg_earlyAcks : (setWg s k x).earlyAcks = s.earlyAcks := rfl
@[simp] theorem setWg_deadGates : (setWg s k x).deadGates = s.deadGates := rfl
@[simp] theorem setWg_pageFaults : (setWg s k x).pageFaults = s.pageFaults := rfl
@[simp] theorem setWg_held : (setWg s k x).held = s.held := rfl
@[simp] theorem setWg_lead : (setWg s k x).lead = s.lead := rfl
@[simp] theorem setWg_standIn : (setWg s k x).standIn = s.standIn := rfl
@[simp] theorem setWg_takeover : (setWg s k x).takeover = s.takeover := rfl
@[simp] theorem setWg_measures : (setWg s k x).measures = s.measures := rfl
@[simp] theorem setWg_minVersion : (setWg s k x).minVersion = s.minVersion := rfl
@[simp] theorem setWg_throttled : (setWg s k x).throttled = s.throttled := rfl
@[simp] theorem setWg_stopped : (setWg s k x).stopped = s.stopped := rfl
@[simp] theorem setWg_allotment : (setWg s k x).allotment = s.allotment := rfl
@[simp] theorem setWg_choices : (setWg s k x).choices = s.choices := rfl
@[simp] theorem setWg_fresh : (setWg s k x).fresh = s.fresh := rfl
@[simp] theorem setWg_rotor : (setWg s k x).rotor = s.rotor := rfl
@[simp] theorem setWg_turns : (setWg s k x).turns = s.turns := rfl
@[simp] theorem setWg_round : (setWg s k x).round = s.round := rfl
@[simp] theorem setWg_events : (setWg s k x).events = s.events := rfl
@[simp] theorem setWg_issuer : (setWg s k x).issuer = s.issuer := rfl
@[simp] theorem setWg_sent : (setWg s k x).sent = s.sent := rfl
@[simp] theorem setWg_posted : (setWg s k x).posted = s.posted := rfl
@[simp] theorem setWg_done : (setWg s k x).done = s.done := rfl
@[simp] theorem coreRec_setWg (j : Nat) : coreRec (setWg s k x) j = coreRec s j := rfl
@[simp] theorem ctxRec_setWg (j : Nat) : ctxRec (setWg s k x) j = ctxRec s j := rfl
@[simp] theorem descOf_setWg (j : Nat) : descOf (setWg s k x) j = descOf s j := rfl
@[simp] theorem queueRec_setWg (j : Nat) : queueRec (setWg s k x) j = queueRec s j := rfl
@[simp] theorem hwqRec_setWg (j : Nat) : hwqRec (setWg s k x) j = hwqRec s j := rfl
@[simp] theorem splRec_setWg (j : Nat) : splRec (setWg s k x) j = splRec s j := rfl
@[simp] theorem linkRec_setWg (j : Nat) : linkRec (setWg s k x) j = linkRec s j := rfl
@[simp] theorem cycleOf_setWg (j : Nat) : cycleOf (setWg s k x) j = cycleOf s j := rfl
end

/-! setGrid -/

section
variable (s : State) (n : Nat) (x : Grid)
@[simp] theorem setGrid_mem : (setGrid s n x).mem = s.mem := rfl
@[simp] theorem setGrid_poison : (setGrid s n x).poison = s.poison := rfl
@[simp] theorem setGrid_cycle : (setGrid s n x).cycle = s.cycle := rfl
@[simp] theorem setGrid_dieEn : (setGrid s n x).dieEn = s.dieEn := rfl
@[simp] theorem setGrid_coreEn : (setGrid s n x).coreEn = s.coreEn := rfl
@[simp] theorem setGrid_lp6En : (setGrid s n x).lp6En = s.lp6En := rfl
@[simp] theorem setGrid_linkEn : (setGrid s n x).linkEn = s.linkEn := rfl
@[simp] theorem setGrid_ready : (setGrid s n x).ready = s.ready := rfl
@[simp] theorem setGrid_balance : (setGrid s n x).balance = s.balance := rfl
@[simp] theorem setGrid_evBase : (setGrid s n x).evBase = s.evBase := rfl
@[simp] theorem setGrid_evCfg : (setGrid s n x).evCfg = s.evCfg := rfl
@[simp] theorem setGrid_evHead : (setGrid s n x).evHead = s.evHead := rfl
@[simp] theorem setGrid_evTail : (setGrid s n x).evTail = s.evTail := rfl
@[simp] theorem setGrid_evLost : (setGrid s n x).evLost = s.evLost := rfl
@[simp] theorem setGrid_capBase : (setGrid s n x).capBase = s.capBase := rfl
@[simp] theorem setGrid_capCfg : (setGrid s n x).capCfg = s.capCfg := rfl
@[simp] theorem setGrid_capLaunch : (setGrid s n x).capLaunch = s.capLaunch := rfl
@[simp] theorem setGrid_capWgLo : (setGrid s n x).capWgLo = s.capWgLo := rfl
@[simp] theorem setGrid_capWgHi : (setGrid s n x).capWgHi = s.capWgHi := rfl
@[simp] theorem setGrid_capTypes : (setGrid s n x).capTypes = s.capTypes := rfl
@[simp] theorem setGrid_histCtx : (setGrid s n x).histCtx = s.histCtx := rfl
@[simp] theorem setGrid_dbgArg0 : (setGrid s n x).dbgArg0 = s.dbgArg0 := rfl
@[simp] theorem setGrid_dbgArg1 : (setGrid s n x).dbgArg1 = s.dbgArg1 := rfl
@[simp] theorem setGrid_dbgArg2 : (setGrid s n x).dbgArg2 = s.dbgArg2 := rfl
@[simp] theorem setGrid_capState : (setGrid s n x).capState = s.capState := rfl
@[simp] theorem setGrid_capOff : (setGrid s n x).capOff = s.capOff := rfl
@[simp] theorem setGrid_capDropped : (setGrid s n x).capDropped = s.capDropped := rfl
@[simp] theorem setGrid_triggers : (setGrid s n x).triggers = s.triggers := rfl
@[simp] theorem setGrid_samplers : (setGrid s n x).samplers = s.samplers := rfl
@[simp] theorem setGrid_pulse : (setGrid s n x).pulse = s.pulse := rfl
@[simp] theorem setGrid_launchSerial : (setGrid s n x).launchSerial = s.launchSerial := rfl
@[simp] theorem setGrid_grids : (setGrid s n x).grids = tput s.grids n x := rfl
@[simp] theorem setGrid_wgs : (setGrid s n x).wgs = s.wgs := rfl
@[simp] theorem setGrid_warps : (setGrid s n x).warps = s.warps := rfl
@[simp] theorem setGrid_cores : (setGrid s n x).cores = s.cores := rfl
@[simp] theorem setGrid_ctxDesc : (setGrid s n x).ctxDesc = s.ctxDesc := rfl
@[simp] theorem setGrid_ctxs : (setGrid s n x).ctxs = s.ctxs := rfl
@[simp] theorem setGrid_hwqs : (setGrid s n x).hwqs = s.hwqs := rfl
@[simp] theorem setGrid_queues : (setGrid s n x).queues = s.queues := rfl
@[simp] theorem setGrid_mailboxes : (setGrid s n x).mailboxes = s.mailboxes := rfl
@[simp] theorem setGrid_netMatch : (setGrid s n x).netMatch = s.netMatch := rfl
@[simp] theorem setGrid_transit : (setGrid s n x).transit = s.transit := rfl
@[simp] theorem setGrid_forwarded : (setGrid s n x).forwarded = s.forwarded := rfl
@[simp] theorem setGrid_splicers : (setGrid s n x).splicers = s.splicers := rfl
@[simp] theorem setGrid_links : (setGrid s n x).links = s.links := rfl
@[simp] theorem setGrid_fid : (setGrid s n x).fid = s.fid := rfl
@[simp] theorem setGrid_refusing : (setGrid s n x).refusing = s.refusing := rfl
@[simp] theorem setGrid_groups : (setGrid s n x).groups = s.groups := rfl
@[simp] theorem setGrid_earlyAcks : (setGrid s n x).earlyAcks = s.earlyAcks := rfl
@[simp] theorem setGrid_deadGates : (setGrid s n x).deadGates = s.deadGates := rfl
@[simp] theorem setGrid_pageFaults : (setGrid s n x).pageFaults = s.pageFaults := rfl
@[simp] theorem setGrid_held : (setGrid s n x).held = s.held := rfl
@[simp] theorem setGrid_lead : (setGrid s n x).lead = s.lead := rfl
@[simp] theorem setGrid_standIn : (setGrid s n x).standIn = s.standIn := rfl
@[simp] theorem setGrid_takeover : (setGrid s n x).takeover = s.takeover := rfl
@[simp] theorem setGrid_measures : (setGrid s n x).measures = s.measures := rfl
@[simp] theorem setGrid_minVersion : (setGrid s n x).minVersion = s.minVersion := rfl
@[simp] theorem setGrid_throttled : (setGrid s n x).throttled = s.throttled := rfl
@[simp] theorem setGrid_stopped : (setGrid s n x).stopped = s.stopped := rfl
@[simp] theorem setGrid_allotment : (setGrid s n x).allotment = s.allotment := rfl
@[simp] theorem setGrid_choices : (setGrid s n x).choices = s.choices := rfl
@[simp] theorem setGrid_fresh : (setGrid s n x).fresh = s.fresh := rfl
@[simp] theorem setGrid_rotor : (setGrid s n x).rotor = s.rotor := rfl
@[simp] theorem setGrid_turns : (setGrid s n x).turns = s.turns := rfl
@[simp] theorem setGrid_round : (setGrid s n x).round = s.round := rfl
@[simp] theorem setGrid_events : (setGrid s n x).events = s.events := rfl
@[simp] theorem setGrid_issuer : (setGrid s n x).issuer = s.issuer := rfl
@[simp] theorem setGrid_sent : (setGrid s n x).sent = s.sent := rfl
@[simp] theorem setGrid_posted : (setGrid s n x).posted = s.posted := rfl
@[simp] theorem setGrid_done : (setGrid s n x).done = s.done := rfl
@[simp] theorem coreRec_setGrid (j : Nat) : coreRec (setGrid s n x) j = coreRec s j := rfl
@[simp] theorem ctxRec_setGrid (j : Nat) : ctxRec (setGrid s n x) j = ctxRec s j := rfl
@[simp] theorem descOf_setGrid (j : Nat) : descOf (setGrid s n x) j = descOf s j := rfl
@[simp] theorem queueRec_setGrid (j : Nat) : queueRec (setGrid s n x) j = queueRec s j := rfl
@[simp] theorem hwqRec_setGrid (j : Nat) : hwqRec (setGrid s n x) j = hwqRec s j := rfl
@[simp] theorem splRec_setGrid (j : Nat) : splRec (setGrid s n x) j = splRec s j := rfl
@[simp] theorem linkRec_setGrid (j : Nat) : linkRec (setGrid s n x) j = linkRec s j := rfl
@[simp] theorem cycleOf_setGrid (j : Nat) : cycleOf (setGrid s n x) j = cycleOf s j := rfl
end

/-! The outbox, free choices and fresh numbers. -/

@[simp] theorem sendOut_rest (s : State) (kind : Nat) (fs : List Nat) (data : List Byte) :
    sendOut s kind fs data = { s with sent := s.sent ++ [⟨kind, fs, data⟩] } := rfl
@[simp] theorem choose_state (s : State) (n : Nat) : (choose s n).2 = { s with choices := s.choices + 1 } := rfl
@[simp] theorem freshId_state (s : State) : (freshId s).2 = { s with fresh := s.fresh + 1 } := rfl

theorem choose_lt (s : State) {n : Nat} (h : 0 < n) : (choose s n).1 < n := Nat.mod_lt _ h

end Sys2Proof.Machine
end

