-- ==== Sys2Proof/Laws/Words.lean ====
section
/-! SUPPORT. What the shared operations do that issue the words of each agent, and that store bytes of memory. -/

namespace Sys2Proof.Machine

/-! Lane words. -/

/-- A lane word that issues has the effect that its meaning gives. -/
theorem does_of_laneWord {i : Instr} {s : State} {k : Nat} {w : Warp} {regs : List Fld}
    {body : State → Nat → Warp → Eff} (h : Issues s k w regs) (hi : exec i s = laneWord s regs body) :
    Does i s k w (body (issued s k w) k (clearPass w)) := by
  unfold Does
  rw [hi, laneWord_ready h]
  rfl

/-- A lane word always answers a next state for a warp whose turn it is. -/
theorem laneWord_next {s : State} {k : Nat} {w : Warp} (regs : List Fld) (body : State → Nat → Warp → Eff)
    (ht : s.issuer = .warp k) (hs : tget s.warps k = some w) :
    laneWord s regs body = .next (issueWord s k w regs body) := by
  simp only [laneWord, ht, hs]

/-- A word with a pending register does not issue (R67). -/
theorem issueWord_pending {s : State} {k : Nat} {w : Warp} {regs : List Fld} (body : State → Nat → Warp → Eff)
    (h : anyPending w regs = true) : issueWord s k w regs body = s := by
  simp only [issueWord, h, if_true]

/-- Lane after lane: nothing to do for no lane. -/
@[simp] theorem tryLanes_nil (s : State) (f : State → Nat → Except (Nat × Nat) State) : tryLanes [] s f = .ok s := rfl

/-! Stream words. -/

section
variable {s t : State} {c : Nat} {q : Seq} {body : State → Nat → Seq → SEff}
variable (ht : s.issuer = .seq c) (hq : seqOf s c = some q)
include ht hq

theorem seqWord_next (h : body s c q = .next t) : seqWord s body = .next (seqGo t c (seqNext q)) := by
  simp only [seqWord, ht, hq, h]

theorem seqWord_op (h : body s c q = .op t) : seqWord s body = .next (seqGo (seqNumber t c) c (seqNext q)) := by
  simp only [seqWord, ht, hq, h]

theorem seqWord_jump {p : DWord} (h : body s c q = .jump t p) : seqWord s body = .next (seqGo t c ⟨p, 0⟩) := by
  simp only [seqWord, ht, hq, h]

theorem seqWord_stall (h : body s c q = .stall) : seqWord s body = .next s := by
  simp only [seqWord, ht, hq, h]

theorem seqWord_fault {cause faddr : Nat} (h : body s c q = .fault cause faddr) :
    seqWord s body = .next (seqFault s c q cause faddr (wordAddr q.pc).toNat) := by
  simp only [seqWord, ht, hq, h]

end

/-! Splice words. -/

/-- A splice word's effect is that of its meaning for the context that issues it. -/
theorem spliceWord_issues {s : State} {k : Nat} {x : Splicer} (body : State → Nat → Splicer → SpEff)
    (h : SpliceIssues s k x) : spliceWord s body = .next (spFinish (spliceTurn s k) k (body (spliceTurn s k) k x)) := by
  have e : splRec (spliceTurn s k) k = x := by rw [spliceTurn, splRec_setLink, h.ctx]
  simp only [spliceWord, h.turn]
  show Host.Outcome.next (spFinish (spliceTurn s k) k (body (spliceTurn s k) k (splRec (spliceTurn s k) k))) = _
  rw [e]

/-- A word that retires, in a context that no refusal stops and that does not step. -/
theorem spRetire_calm {s : State} {k pc : Nat} {boundary : Bool} (hr : (splRec s k).refused = none)
    (hs : spStep (splRec s k) = false) :
    spRetire s k pc boundary = setSpl s k (spAfter (splRec s k) pc boundary) := by
  simp only [spRetire, hr, hs, spAfter, Bool.false_eq_true, if_false]

/-! Packets. -/

theorem queueWord_turn {s : State} {q : Nat} (body : State → Nat → Queue → PkEff) (h : s.issuer = .queue q) :
    queueWord s body = .next (packetEff s q (body s q (queueRec s q))) := by
  simp only [queueWord, h]

/-! Bytes of physical memory. -/

theorem memByte_plainByte (s : State) (a j : Nat) (b : Byte) :
    memByte (plainByte s a b).mem j = if a = j then b else memByte s.mem j := memByte_memPut _ _ _ _

/-- A store of one byte keeps memory canonical. -/
theorem wf_plainByte {s : State} (a : Nat) (b : Byte) (h : Memory.wf s.mem = true) :
    Memory.wf (plainByte s a b).mem = true := memWf_memPut a b h

/-- The memory after a store of bytes. -/
theorem plainStore_mem (bs : List Byte) : ∀ (s : State) (a : Nat), (plainStore s a bs).mem = memPuts s.mem a bs := by
  induction bs with
  | nil => intro s a; rfl
  | cons b r ih => intro s a; exact ih _ _

/-- A store of bytes keeps memory canonical. -/
theorem wf_plainStore {s : State} (a : Nat) (bs : List Byte) (h : Memory.wf s.mem = true) :
    Memory.wf (plainStore s a bs).mem = true := by
  rw [plainStore_mem]; exact memWf_memPuts a bs h

/-- A store of bytes changes bytes, the values that LDK may return and poison (R191, R408): nothing else. -/
theorem plainStore_rest (bs : List Byte) : ∀ (s : State) (a : Nat), plainStore s a bs =
    { s with
      mem := (plainStore s a bs).mem, grids := (plainStore s a bs).grids, poison := (plainStore s a bs).poison } := by
  induction bs with
  | nil => intro s a; rfl
  | cons b r ih => intro s a; rw [plainStore, ih]; rfl

/-- A store of bytes changes a grid in its record of LDK alone (R191). -/
theorem plainStore_grids (bs : List Byte) : ∀ (s : State) (a n : Nat),
    (tget (plainStore s a bs).grids n).map (fun g => { g with ldk := [] }) =
      (tget s.grids n).map (fun g => { g with ldk := [] }) := by
  induction bs with
  | nil => intro s a n; rfl
  | cons b r ih =>
    intro s a n
    rw [plainStore, ih, plainByte, tget_map s.grids (fun _ g => ldkLog g a (memByte s.mem a) b)]
    cases tget s.grids n <;> rfl

/-- A store of bytes takes poison away and adds none (R408). -/
theorem mem_poison_plainStore (bs : List Byte) : ∀ (s : State) (a p : Nat), p ∈ (plainStore s a bs).poison → p ∈ s.poison := by
  induction bs with
  | nil => intro s a p h; exact h
  | cons b r ih => intro s a p h; exact (List.mem_filter.1 (ih _ _ _ h)).1

/-! Reads where no stash region is mapped. -/

theorem stashHolders_none (s : State) (hs : ∀ e ∈ s.wgs, e.2.stash = []) (line : Nat) : stashHolders s line = [] := by
  simp only [stashHolders, List.flatMap_eq_nil_iff]
  intro e he
  simp [hs e he]

theorem flushRange_none (s : State) (hs : ∀ e ∈ s.wgs, e.2.stash = []) (own : Option (Nat × Nat × Nat)) (pa n : Nat)
    (write : Bool) : flushRange s own pa n write = s := by
  unfold flushRange
  induction linesOf pa n with
  | nil => rfl
  | cons l r ih => simpa [flushStash, stashHolders_none s hs] using ih

theorem readGlobal_outside (s : State) (hs : ∀ e ∈ s.wgs, e.2.stash = []) (va pa n : Nat) :
    readGlobal s outside va pa n = (memBytes s.mem pa n, s) := by
  simp [readGlobal, ownStash, outside, flushRange_none s hs]

theorem tget_mem {t : Tbl α} {k : Nat} {v : α} (h : tget t k = some v) : (k, v) ∈ t := by
  induction t with
  | nil => simp [tget] at h
  | cons e r ih =>
    obtain ⟨j, x⟩ := e
    simp only [tget] at h
    split at h
    · next e => cases h; simp [e]
    · exact List.mem_cons_of_mem _ (ih h)

theorem stashAt_none (s : State) (hs : ∀ e ∈ s.wgs, e.2.stash = []) (wg va : Nat) : stashAt s wg va = none := by
  unfold stashAt
  split
  · rfl
  · next g hg =>
    have h : g.stash = [] := hs _ (tget_mem hg)
    simp [h]

theorem fetchWord_warps (s : State) (ks : Tbl Warp) (hs : ∀ e ∈ s.wgs, e.2.stash = []) (wg a j : Nat) :
    fetchWord { s with warps := ks } wg a j = fetchWord s wg a j := by
  have h1 : leaseFault { s with warps := ks } wg needX a 4 = leaseFault s wg needX a 4 := rfl
  have h2 : physFault { s with warps := ks } wg a 4 = physFault s wg a 4 := rfl
  have h3 : gridXlate { s with warps := ks } wg a = gridXlate s wg a := rfl
  have h4 : dataPoisoned { s with warps := ks } wg a = dataPoisoned s wg a := rfl
  simp only [fetchWord, h1, h2, h3, h4, stashAt_none s hs, stashAt_none { s with warps := ks } hs,
    readGlobal_outside s hs, readGlobal_outside { s with warps := ks } hs]
  rfl

theorem fetchWords_warps (s : State) (ks : Tbl Warp) (hs : ∀ e ∈ s.wgs, e.2.stash = []) (wg n : Nat) :
    ∀ a j, fetchWords { s with warps := ks } wg a j n = fetchWords s wg a j n := by
  induction n with
  | zero => intro a j; rfl
  | succ n ih => intro a j; simp only [fetchWords, fetchWord_warps s ks hs, ih]

/-- A fetch reads the same clause whatever the warps are, where no stash region is mapped. -/
theorem fetchClause_warps (s : State) (ks : Tbl Warp) (hs : ∀ e ∈ s.wgs, e.2.stash = []) (wg : Nat) (seq : Bool)
    (pc : DWord) : fetchClause { s with warps := ks } wg seq pc = fetchClause s wg seq pc := by
  simp only [fetchClause, fetchWord_warps s ks hs, fetchWords_warps s ks hs]

end Sys2Proof.Machine
end

