-- ==== Sys2Proof/Tests/Slice0.lean ====
section
/-! SUPPORT. The model's own tests: for each statement with hypotheses a state that meets them (witness_ and the
statement's name); terms that WellFormed refuses; words written out from the encoding tables; effects of single steps. -/

namespace Sys2Proof.Machine

/-! Each test is checked before the next one begins: their kernel evaluations side by side would need a thread each. -/
set_option Elab.async false

/-! States for the tests. -/

/-- A thread of the test warp, at the first word of the clause at 0x1000. -/
def tThread (l : Nat) : Thread :=
  { freshThread ⟨probeWg, false, l, false⟩ 0x1000 0 with pc := ⟨0x1000, 1⟩ }

/-- A warp of n threads with active lanes 0 and 1 in a clause of one word, and the values of v and p registers. -/
def tWarp (n : Nat) (v : Tbl Word) (p : Tbl Mask) : Warp :=
  { freshWarp probeWg .launch 0 0 0 ((List.range n).map (fun l => (l, tThread l))) with
    v := v, p := p, cand := 3, act := 3, code := [0] }

/-- The package with one grid, one workgroup and this warp, whose turn it is. -/
def tState (w : Warp) : State :=
  { State.reset with
    grids := [(1, probeGrid 0x1000)]
    wgs := [(probeWg, { probeWorkgroup with alive := 2 })]
    warps := [(0, w)]
    issuer := .warp 0 }

/-- The test warp: two threads; v1 = 7 and 0xFFFFFFFF, v2 = 9 and 1, v4:v5 = 0x2000 in lane 0 and 0x2010 in lane 1. -/
def tW : Warp :=
  tWarp 2 [(32, 7), (33, 0xFFFFFFFF), (64, 9), (65, 1), (128, 0x2000), (129, 0x2010)] [(1, 1)]

/-- The test state. -/
def tS : State := tState tW

/-- Register f of lane l of warp 0 after an instruction. -/
def after (i : Instr) (s : State) (f : Fld) (l : Nat) : Option Word :=
  match exec i s with
  | .next t => (tget t.warps 0).map (fun w => rd w f l)
  | _ => none

/-- A word issues in a state whose turn is that of its warp, when no write is pending and no breakpoint is set. -/
theorem test_issues (w : Warp) (regs : List Fld) (hp : w.pend = []) (hh : heldAll w regs = true)
    (ha : abpLanes (tState w) w = 0) : Issues (tState w) 0 w regs :=
  ⟨rfl, rfl, by simp [anyPending, hp], hh, ha⟩

/-- Any word of low registers issues for the test warp. -/
theorem test_tS_issues (regs : List Fld) (hh : heldAll tW regs = true) : Issues tS 0 tW regs :=
  test_issues tW regs rfl hh (by decide +kernel)

/-- What holds of lanes 0 and 1 holds of every active lane of the test warp. -/
theorem test_act {P : Nat → Prop} (h0 : P 0) (h1 : P 1) : ∀ l, (3 : Mask).getLsbD l = true → P l := by
  intro l h
  have hl : l < 32 := BitVec.lt_of_getLsbD h
  have : ∀ l < 32, (3 : Mask).getLsbD l = true → l = 0 ∨ l = 1 := by decide
  rcases this l hl h with rfl | rfl
  · exact h0
  · exact h1

theorem test_noMember : NoMember tW := by unfold NoMember; decide +kernel

theorem test_plain : PlainMemory tS tW := (by constructor <;> decide +kernel)

/-! A witness for the hypotheses of each statement. -/

theorem witness_IntegerInstructions : tW.sstep = false ∧ Issues tS 0 tW [1, 2, 5] ∧ Issues tS 0 tW [1, 2, 3, 5] ∧
    Issues tS 0 tW [1, 5] ∧ (31 : Fld).toNat < 32 ∧ 32 ≤ (32 : Fld).toNat ∧ (1 : Fld) ≠ 0 :=
  ⟨rfl, test_tS_issues _ rfl, test_tS_issues _ rfl, test_tS_issues _ rfl, by decide, by decide, by decide⟩

/-- BFX of 32 bits at 0 and of 33, a reserved encoding; BFI of 32 bits at 0 and at 1, and a reserved width. -/
theorem witness_BitFieldInstructions : tW.sstep = false ∧ Issues tS 0 tW [1, 5] ∧ Issues tS 0 tW [1, 2, 5] ∧
    ((0xC0 : Fld).toNat % 32 + ((7 : BitVec 4).toNat % 8 * 4 + (0xC0 : Fld).toNat / 64 + 1) = 32 ∧
      (0xC0 : Fld).getLsbD 5 = false) ∧
    ((0xC1 : Fld).toNat % 32 + ((7 : BitVec 4).toNat % 8 * 4 + (0xC1 : Fld).toNat / 64 + 1) = 33 ∧
      (0xC1 : Fld).getLsbD 5 = false) ∧ (0x20 : Fld).getLsbD 5 = true ∧
    ((0xA0 : Fld).toNat / 32 = 5 ∧ (0xA0 : Fld).toNat % 32 + 2 ^ 5 = 32) ∧
    ((0xA1 : Fld).toNat / 32 = 5 ∧ (0xA1 : Fld).toNat % 32 + 2 ^ 5 = 33) ∧ (0xC0 : Fld).toNat / 32 = 6 :=
  ⟨rfl, test_tS_issues _ rfl, test_tS_issues _ rfl, by decide, by decide, by decide, by decide, by decide, by decide⟩

theorem witness_WideInstructions : tW.sstep = false ∧ Issues tS 0 tW (pair 4 ++ pair 2 ++ pair 6) ∧ odd (6 : Fld) = false ∧
    Issues tS 0 tW ([1, 2] ++ pair 6) ∧ 1 < (2 : BitVec 4).toNat ∧ odd (7 : Fld) = true :=
  ⟨rfl, test_tS_issues _ rfl, rfl, test_tS_issues _ rfl, by decide, rfl⟩

theorem witness_MovesAndPredicates : tW.sstep = false ∧ Issues tS 0 tW [1, 5] ∧ Issues tS 0 tW [5] ∧ Issues tS 0 tW [5, 5] ∧
    Issues tS 0 tW [1, 2, 5] ∧ Issues tS 0 tW [1, 2] ∧ Issues tS 0 tW [] ∧ 5 < (6 : BitVec 4).toNat ∧
    1 < (2 : BitVec 3).toNat ∧ 7 < (8 : BitVec 4).toNat :=
  ⟨rfl, test_tS_issues _ rfl, test_tS_issues _ rfl, test_tS_issues _ rfl, test_tS_issues _ rfl, test_tS_issues _ rfl,
    test_tS_issues _ rfl, by decide, by decide, by decide⟩

theorem witness_FloatingInstructions : tW.sstep = false ∧ Issues tS 0 tW [1, 2, 5] ∧ Issues tS 0 tW [1, 2, 3, 5] ∧
    Issues tS 0 tW [1, 5] := ⟨rfl, test_tS_issues _ rfl, test_tS_issues _ rfl, test_tS_issues _ rfl⟩

/-- The hypotheses of the statement, a NaN, and two numbers of which one is less. -/
theorem witness_FlaglessFloating : tW.sstep = false ∧ Issues tS 0 tW [1, 2, 5] ∧ Issues tS 0 tW [1, 5] ∧
    (fdec fp32 0x7F800001).isNan = true ∧ (fdec fp32 0x3F800000).isNan = false ∧
    fcompare (fdec fp32 0x3F800000) (fdec fp32 0x40000000) = .lt :=
  ⟨rfl, test_tS_issues _ rfl, test_tS_issues _ rfl, by decide +kernel, by decide +kernel, by decide +kernel⟩

theorem witness_ConversionInstructions : tW.sstep = false ∧ Issues tS 0 tW [1, 5] ∧ Issues tS 0 tW [1, 2, 5] ∧
    (1 : BitVec 4) ≠ 0 ∧ (0xFFFFFFFF : Nat) < 2 ^ 32 ∧ fmtBits 1 * (1 + 1) ≤ 32 :=
  ⟨rfl, test_tS_issues _ rfl, test_tS_issues _ rfl, by decide, by decide, by decide +kernel⟩

theorem witness_LaneExchange : tW.sstep = false ∧ Issues tS 0 tW [1, 2, 5] ∧ Issues tS 0 tW [1, 5] ∧ Issues tS 0 tW [] ∧
    Issues tS 0 tW [5] ∧ 32 ≤ (32 : Fld).toNat ∧ tW.act.getLsbD 1 = true :=
  ⟨rfl, test_tS_issues _ rfl, test_tS_issues _ rfl, test_tS_issues _ rfl, test_tS_issues _ rfl, by decide, by decide⟩

/-- The last operations of REDUX and of SCAN, and the first that each refuses. -/
theorem witness_ReductionAndScan : tW.sstep = false ∧ Issues tS 0 tW [1, 5] ∧ (10 : BitVec 4).toNat ≤ 10 ∧
    10 < (11 : BitVec 4).toNat ∧ (8 : BitVec 4).toNat ≤ 8 ∧ 8 < (9 : BitVec 4).toNat ∧ (9 : BitVec 4) ≠ 8 :=
  ⟨rfl, test_tS_issues _ rfl, by decide, by decide, by decide, by decide, by decide⟩

/-- Lane 0 of v4 holds a multiple of 4, lane 0 of v1 none. -/
theorem witness_BranchesAndCalls : tW.sstep = false ∧ Issues tS 0 tW [] ∧ Issues tS 0 tW [5] ∧ Issues tS 0 tW [4] ∧
    Issues tS 0 tW [4, 5] ∧ (∀ l, tW.act.getLsbD l = true → (rd tW 4 l).toNat % 4 = 0) ∧ tW.act.getLsbD 0 = true ∧ (rd tW 1 0).toNat % 4 ≠ 0 :=
  ⟨rfl, test_tS_issues _ rfl, test_tS_issues _ rfl, test_tS_issues _ rfl, test_tS_issues _ rfl, test_act (by decide) (by decide),
    by decide, by decide⟩

/-- The test warp with an entry of both lanes that joins at its clause, or elsewhere, and with a full list. -/
def tRecon (join : DWord) (n : Nat) : Warp :=
  { tW with recon := (List.range n).map (fun i => ⟨i, join, 3, 0⟩) }

theorem witness_ReconvergenceWords : tW.sstep = false ∧ Issues tS 0 tW [] ∧ tW.recon.length < 16 ∧
    (tRecon 0x1000 16).recon.length = 16 ∧ Issues (tState (tRecon 0x1000 16)) 0 (tRecon 0x1000 16) [] ∧
    (∀ l, (tRecon 0x1000 1).act.getLsbD l = true → (∃ r, innermost (tRecon 0x1000 1) l = some r ∧
      r.join = (curPC (tRecon 0x1000 1)).hdr ∧ outerEntry (tRecon 0x1000 1) l = false)) ∧
    innermost tW 0 = none ∧ (innermost (tRecon 0x2000 1) 0).map (·.join) = some 0x2000 :=
  ⟨rfl, test_tS_issues _ rfl, by decide, by decide, test_issues _ _ rfl rfl (by decide +kernel),
    test_act ⟨⟨0, 0x1000, 3, 0⟩, by decide +kernel⟩ ⟨⟨0, 0x1000, 3, 0⟩, by decide +kernel⟩, by decide, by decide⟩

/-- The test warp with both lanes in a take, as lanes of a wave, and with a third thread that is not active. -/
def tTake (d : Nat) : Warp :=
  { tW with
    threads := tW.threads.map (fun e => (e.1, { e.2 with tdepth := d }))
    take := some { checkpoint tW with resume := ⟨0x1000, 1⟩ } }

theorem witness_ThreadEnds : tW.sstep = false ∧ Issues tS 0 tW [] ∧ Issues tS 0 tW [4] ∧
    isWave { tW with kind := .task } = true ∧ isWave tW = false ∧ lowest ((tTake 1).act &&& members (tTake 1)) = some 0 ∧
    NoMember tW ∧ tW.recon = [] ∧ (thr (tWarp 3 [] []) 2).isSome = true ∧ (tWarp 3 [] []).act.getLsbD 2 = false ∧
    (∀ l, tW.act.getLsbD l = true → (rd tW 4 l).toNat % 4 = 0) ∧ filedPending tW tW.act = false ∧
    (fileLanes (issued tS 0 tW) 0 (clearPass tW) 4 tW.act).isSome = true ∧
    (fileLanes (setCore (issued tS 0 tW) 0 { Core.empty with bins := (List.range 16).map (fun i =>
      (i, { newBin (issued tS 0 tW) 0 tW 0x9000 with wg := i })) }) 0 (clearPass tW) 4 tW.act).isSome = false :=
  ⟨rfl, test_tS_issues _ rfl, test_tS_issues _ rfl, by decide, by decide, by decide +kernel, test_noMember, rfl,
    by decide, by decide, test_act (by decide) (by decide), by decide, by decide +kernel, by decide +kernel⟩

/-- The test warp between clauses, and memory with a clause of one NOP at 0x1000 under a guard. -/
def tIdle : Warp :=
  { tWarp 2 [] [(1, 1)] with act := 0, cand := 0, threads := [(0, { tThread 0 with pc := ⟨0x1000, 0⟩ }), (1, { tThread 1 with pc := ⟨0x1000, 0⟩ })] }

/-- The header A5 with class 2, one word, guard p1; the word NOP. -/
def tClause : State := { tState tIdle with mem := memPuts [] 0x1000 (bytesOf [0xA5100021, 0x7A000000]) }

theorem witness_ClausesAndWaits : tW.sstep = false ∧ Issues tS 0 tW [] ∧ (1 : Half) ≠ 0 ∧ tget tS.warps 0 = some tW ∧
    tsorted tW.threads = true ∧ wgRuns tS tW.wg = true ∧ tIdle.act = 0 ∧ tIdle.cand = 0 ∧ tIdle.held = false ∧ tIdle.threads ≠ [] ∧
    (∀ e ∈ tIdle.threads, e.1 < 32 ∧ e.2.wait = .none ∧ e.2.pc = ⟨0x1000, 0⟩) ∧
    (∃ h, (∀ ks : Tbl Warp, fetchClause { tClause with warps := ks } tIdle.wg false 0x1000 = .ok (h, [0x7A000000])) ∧
      h.waitKind = 0) ∧ holdsRjoin [0x7A000000] = false :=
  ⟨rfl, test_tS_issues _ rfl, by decide, rfl, by decide, by decide +kernel, rfl, rfl, rfl, by decide, by decide,
    ⟨⟨0xA5, false, 1, 0, 0, false, 2, 1⟩, fun ks => (fetchClause_warps tClause ks (by decide +kernel) _ _ _).trans
      (by decide +kernel), rfl⟩, by decide +kernel⟩

/-- An access of four bytes at v4:v5, one of LM at v4, whose workgroup has 16 KiB of it, and the plain memory that they
need. -/
def tLm : State :=
  { tS with grids := [(1, { probeGrid 0x1000 with hdr := probeHdr 0x1000 ||| BitVec.ofNat 1024 (64 * 2 ^ 368) })] }

theorem witness_Loads : tW.sstep = false ∧ PlainMemory tS tW ∧
    (∀ l, tW.act.getLsbD l = true → MayAccess tS tW.wg needR (tySize 4) (gAddr tW 4 0 (tySize 4) l) ∧
      isFabric (gridXlate tS tW.wg (gAddr tW 4 0 (tySize 4) l)).1 = false) ∧
    (∀ g, gridOfWg tS tW.wg = some g → g.ldk = []) ∧ Issues tS 0 tW (pair 4 ++ regGroup 6 (tyWords 4)) ∧
    Issues tS 0 tW (pair 4 ++ [6]) ∧ 255 < 2 ^ 8 ∧ 65535 < 2 ^ 16 :=
  ⟨rfl, test_plain,
    test_act ⟨(by constructor <;> decide +kernel),
      by decide +kernel⟩
      ⟨(by constructor <;> decide +kernel),
      by decide +kernel⟩,
    by intro g h; have : gridOfWg tS tW.wg = some (probeGrid 0x1000) := rfl
       rw [this] at h; cases h; rfl,
    test_tS_issues _ rfl, test_tS_issues _ rfl, by decide, by decide⟩

/-- A four-byte access to LM at the addresses that v4 holds, 0x2000 and 0x2010. -/
theorem test_reach : ∀ l, tW.act.getLsbD l = true →
    MayReach tLm tW.wg 4 (lAddr tW 4 0 4 l) probeWg (0x2000 + 16 * l) :=
  test_act (by constructor <;> decide +kernel)
    (by constructor <;> decide +kernel)

theorem test_access (n : Need) (hn : n = needR ∨ n = needW ∨ n = needRW) : ∀ l, tW.act.getLsbD l = true →
    MayAccess tS tW.wg n 4 (gAddr tW 4 0 4 l) := by
  have h0 : gAddr tW 4 0 4 0 = 0x2000 := by decide +kernel
  have h1 : gAddr tW 4 0 4 1 = 0x2010 := by decide +kernel
  refine test_act ?_ ?_
  · rw [h0]
    rcases hn with rfl | rfl | rfl <;>
      (constructor <;> decide +kernel)
  · rw [h1]
    rcases hn with rfl | rfl | rfl <;>
      (constructor <;> decide +kernel)

theorem test_tLm_issues (regs : List Fld) (hh : heldAll tW regs = true) : Issues tLm 0 tW regs :=
  ⟨rfl, rfl, by simp [anyPending, tW, tWarp, freshWarp], hh, by decide +kernel⟩

theorem witness_Loads_lm : (∀ l, tW.act.getLsbD l = true →
    MayReach tLm tW.wg (tySize 4) (lAddr tW 4 0 (tySize 4) l) probeWg (0x2000 + 16 * l)) ∧
    Issues tLm 0 tW (4 :: regGroup 6 (tyWords 4)) ∧ PlainMemory tLm tW :=
  ⟨test_reach, test_tLm_issues _ rfl, (by constructor <;> decide +kernel)⟩

theorem witness_Stores : PlainMemory tS tW ∧
    (∀ l, tW.act.getLsbD l = true → MayAccess tS tW.wg needW (tySize 4) (gAddr tW 4 0 (tySize 4) l)) ∧
    Issues tS 0 tW (pair 4 ++ regGroup 6 (tyWords 4)) ∧
    (∀ l, tW.act.getLsbD l = true →
      MayReach tLm tW.wg (tySize 4) (lAddr tW 4 0 (tySize 4) l) probeWg (0x2000 + 16 * l)) :=
  ⟨test_plain, test_access _ (.inr (.inl rfl)), test_tS_issues _ rfl, test_reach⟩

theorem witness_Atomics : PlainMemory tS tW ∧
    (∀ l, tW.act.getLsbD l = true → MayAccess tS tW.wg needRW (atomSize 0) (gAddr tW 4 0 (atomSize 0) l) ∧
      (gLoc tS tW.wg (gAddr tW 4 0 (atomSize 0) l)).ord ≠ 2 ∧
      ((gLoc tS tW.wg (gAddr tW 4 0 (atomSize 0) l)).ord = 1 → isHost (gLoc tS tW.wg (gAddr tW 4 0 (atomSize 0) l)).pa = false) ∧
      isFabric (gLoc tS tW.wg (gAddr tW 4 0 (atomSize 0) l)).pa = false) ∧
    Issues tS 0 tW (pair 4 ++ regGroup 6 (atomSize 0 / 4) ++ (regGroup 1 (atomSize 0 / 4) ++ regGroup 2 (atomSize 0 / 4))) ∧
    Issues tLm 0 tW (4 :: regGroup 6 (atomSize 0 / 4) ++ regGroup 1 (atomSize 0 / 4)) ∧
    ((2 : Nat) ^ 32 - 1 < 2 ^ 32 ∧ (2 : Nat) ^ 64 - 1 < 2 ^ 64) :=
  ⟨test_plain, fun l h => ⟨test_access _ (.inr (.inr rfl)) l h,
      test_act (P := fun l => (gLoc tS tW.wg (gAddr tW 4 0 (atomSize 0) l)).ord ≠ 2 ∧
        ((gLoc tS tW.wg (gAddr tW 4 0 (atomSize 0) l)).ord = 1 →
          isHost (gLoc tS tW.wg (gAddr tW 4 0 (atomSize 0) l)).pa = false) ∧
        isFabric (gLoc tS tW.wg (gAddr tW 4 0 (atomSize 0) l)).pa = false)
        (by decide +kernel) (by decide +kernel) l h⟩,
    test_tS_issues _ rfl, test_tLm_issues _ rfl, by decide⟩

/-- The test state with other context-descriptor bits for its grid. -/
def tDesc (d : BitVec 1024) : State := { tS with grids := [(1, { probeGrid 0x1000 with desc := probeDesc ||| d })] }

/-- The test state whose grid has header bits. -/
def tHdr (h : BitVec 1024) : State := { tS with grids := [(1, { probeGrid 0x1000 with hdr := probeHdr 0x1000 ||| h })] }

/-- A task spill area of one page. -/
def tSpill : State := tDesc (BitVec.ofNat 1024 (2 ^ 704))

/-- A heap that lies in fabric memory. -/
def tFabric : State := tDesc (BitVec.ofNat 1024 (2 ^ 55 * 2 ^ 192))

/-- The test warp with a write outstanding to v6, and one that is late. -/
def tPend (e : Pend) : Warp := { tW with pend := [e] }

/-- A load of lane 0 to v6, issued at clock 0, from fabric memory or not. -/
def tLoad (fabric : Bool) : Pend :=
  ⟨5, 6, 1, [(0, 77)], 0x1004, 0, fabric, false, if fabric then [(0, 0x2000, 0x2000)] else [], 0, 0, []⟩

/-- The test warp with such a load from fabric memory outstanding, at a clock of die 0. -/
def tLate (clock : Nat) : State := { tState (tPend (tLoad true)) with cycle := [(0, clock)] }

theorem witness_DeferredAddsAndPendingWrites : tW.sstep = false ∧ NoMember tW ∧ tsorted tSpill.grids = true ∧
    (∃ g, gridOfWg tSpill tW.wg = some g ∧ spilledAdds tSpill g.ctx + 32 ≤ field g.desc 735 704 * 128) ∧
    (∀ l, tW.act.getLsbD l = true → MayAccess tSpill tW.wg needRW 4 (gAddr tW 4 0 4 l) ∧
      (gridXlate tSpill tW.wg (gAddr tW 4 0 4 l)).2 ≠ 2) ∧ Issues tSpill 0 tW (pair 4 ++ [1]) ∧
    PlainMemory tFabric tW ∧ contOfWg tFabric tW.wg = false ∧
    (∀ l, tW.act.getLsbD l = true → MayAccess tFabric tW.wg needR (tySize 4) (gAddr tW 4 0 (tySize 4) l)) ∧
    isFabric (gridXlate tFabric tW.wg (gAddr tW 4 0 (tySize 4) 0)).1 = true ∧ Issues tFabric 0 tW (pair 4 ++ regGroup 6 (tyWords 4)) ∧
    anyPending (tPend (tLoad false)) [6] = true ∧
    (lateAccess (tLate 60001) 0 (tLoad true) = true ∧ lateAccess (tLate 60000) 0 (tLoad true) = false) ∧
    (ctxStopped (tLate 60001) (ctxOfWg (tLate 60001) tW.wg) = false ∧
      latePends (tLate 60001) 0 (tPend (tLoad true)).pend = [tLoad true] ∧ (tLoad true).lines ≠ [] ∧
      ∀ x ∈ (tLate 60001).grids, ∀ y ∈ x.2.loads, y.warp ≠ 0) :=
  ⟨rfl, test_noMember, by decide, ⟨_, rfl, by decide +kernel⟩,
    test_act ⟨by constructor <;> decide +kernel, by decide +kernel⟩ ⟨by constructor <;> decide +kernel, by decide +kernel⟩,
    ⟨rfl, rfl, rfl, rfl, by decide +kernel⟩, by constructor <;> decide +kernel, by decide +kernel,
    test_act (by constructor <;> decide +kernel) (by constructor <;> decide +kernel), by decide +kernel,
    ⟨rfl, rfl, rfl, rfl, by decide +kernel⟩, by and_intros <;> decide +kernel⟩

/-- The test state with two barriers, and a workgroup whose barrier 1 has an arrival. -/
def tBar : State := tHdr (BitVec.ofNat 1024 (2 * 2 ^ 436))

theorem witness_BarrierWords : (Barrier.fresh 2).arrived + 1 < (Barrier.fresh 2).count ∧
    (Barrier.fresh 1).count ≤ (Barrier.fresh 1).arrived + 1 ∧
    (∃ g, tget tBar.wgs tW.wg = some g ∧ (barOf g 1).arrived = 0 ∧ (barOf g 1).initBy = none) ∧
    (1 : Fld).toNat < hNbar (hdrOf tBar tW.wg) ∧ hNbar (hdrOf tBar tW.wg) ≤ (2 : Fld).toNat ∧
    Issues tBar 0 tW [1] ∧ Issues tBar 0 tW [] ∧ (1 ≤ (rd tW 1 0).toNat ∧ (rd tW 1 0).toNat ≤ 1025) ∧
    1025 < (rd tW 4 0).toNat ∧ (rd tW 7 0).toNat = 0 ∧
    barWaiters probeWorkgroup tW 1 = 0 ∧
    barWaiters { probeWorkgroup with bars := [(1, { Barrier.fresh 2 with arrived := 1 })] }
      { tW with threads := [(0, { tThread 0 with barArr := [(1, 0)] }), (1, tThread 1)] } 1 = 1 :=
  ⟨by decide, by decide, ⟨_, rfl, by decide +kernel, by decide +kernel⟩, by decide +kernel, by decide +kernel,
    ⟨rfl, rfl, rfl, rfl, by decide +kernel⟩, ⟨rfl, rfl, rfl, rfl, by decide +kernel⟩, by decide, by decide, by decide,
    by decide +kernel, by decide +kernel⟩

/-- The test warp with granule 1 claimed. -/
def tClaim : Warp := { tW with claimed := 1 }

theorem witness_RegistersOfWarps : NoMember tW ∧ Issues tS 0 tW [1, 2] ∧
    (∃ tg : Nat → Nat × Nat, ∀ l, tW.act.getLsbD l = true → rwTarget (issued tS 0 tW) tW.wg 6 (rd tW 9 l) = .ok (tg l)) ∧
    (tget tS.warps 0 = some tW ∧ tW.take = none ∧ (6 : Fld).toNat < 192) ∧
    Issues tS 0 tW [1] ∧ 0 ≤ (tW.arrive - rd tW 9 0).toInt ∧ (tW.arrive - rd tW 1 0).toInt < 0 ∧ tW.act ≠ 0 ∧
    (tTake 1).take.isSome = true ∧ Issues (tState (tTake 1)) 0 (tTake 1) [] ∧
    ((0 : Fld) = 0 ∧ 16 ≤ (16 : Fld).toNat ∧ 0 < (1 : Fld).toNat ∧ (15 : Fld).toNat < 16) ∧
    (1 : BitVec 4) &&& (tClaim.claimed ||| requested (tState tClaim) 0) ≠ 0 ∧ (2 : BitVec 4) &&& ~~~tClaim.claimed ≠ 0 ∧
    (1 : BitVec 4) &&& (tW.claimed ||| requested tS 0) = 0 ∧ (coreRec tS 0).claims = [] ∧
    framesUsed (issued tS 0 tW) 0 + granules 15 ≤ 128 ∧ (1 : BitVec 4) &&& ~~~tClaim.claimed = 0 ∧
    tClaim.pend.any (fun e => inGranules 1 e.reg.toNat) = false ∧
    (∃ f ∈ ([64, 191] : List Fld), 64 ≤ f.toNat ∧ f.toNat < 192 ∧ tW.claimed.getLsbD ((f.toNat - 64) / 32) = false) ∧
    (tget tS.wgs tW.wg).isSome = true ∧
    tget (bPut probeWorkgroup 3 0 9).b 3 = some ⟨9, [0], 0, 0⟩ :=
  ⟨test_noMember, test_tS_issues _ rfl, ⟨fun _ => (0, 0), test_act (by decide +kernel) (by decide +kernel)⟩,
    ⟨rfl, rfl, by decide⟩, test_tS_issues _ rfl, by decide, by decide, by decide, rfl,
    test_issues _ _ rfl rfl (by decide +kernel), by decide, by decide +kernel, by decide, by decide +kernel, by decide +kernel,
    by decide +kernel, by decide, by decide, ⟨64, by decide⟩, by decide +kernel, by decide +kernel⟩

/-- The test state in compatibility mode. -/
def tCompat : State := tDesc 4

theorem witness_LockedTranslations : (∃ g, gridOfWg tS tW.wg = some g ∧ g.desc.getLsbD 2 = false) ∧
    (∃ g, gridOfWg tCompat tW.wg = some g ∧ g.desc.getLsbD 2 = true ∧
      covered g (fun _ => true) (rd64 tW 4 0).toNat (rd tW 1 0).toNat = true ∧
      covered { g with desc := 4, leases := [] } (fun _ => true) (rd64 tW 4 0).toNat (rd tW 1 0).toNat = false) ∧ NoMember tW ∧
    Issues tCompat 0 tW (pair 4 ++ [1]) ∧ Issues tCompat 0 tW (pair 4) ∧ (rd64 tW 4 0).toNat < 2 ^ 57 ∧
    (rd64 tW 4 0).toNat + (rd tW 1 0).toNat ≤ 2 ^ 57 ∧ (rd tW 1 0).toNat ≠ 0 ∧ (rd tW 9 0).toNat = 0 :=
  ⟨⟨_, rfl, by decide +kernel⟩, ⟨_, rfl, by and_intros <;> decide +kernel⟩, test_noMember,
    ⟨rfl, rfl, rfl, rfl, by decide +kernel⟩, ⟨rfl, rfl, rfl, rfl, by decide +kernel⟩, by decide, by decide, by decide, by decide⟩

/-- A warp for copies: v4:v5 and v6:v7 hold 0x2000 and 0x3000, v8 holds 16, v9 holds 4, in lane 0; in lane 1 v6:v7 holds
0x3010. -/
def tCw : Warp :=
  tWarp 2 [(128, 0x2000), (192, 0x3000), (193, 0x3010), (256, 16), (288, 4)] []

/-- A shape record of four FP32 elements at 0x3000. -/
def tSh : BitVec 512 := BitVec.ofNat 512 (0x3000 + 2 ^ 61 + 3 * 2 ^ 128)

/-- A package with 16 KiB of LM, the shape record in sh0 and the warp for copies. -/
def tCopy : State :=
  { tLm with
    wgs := [(probeWg, { probeWorkgroup with alive := 2, sh := [(0, tSh)] })]
    warps := [(0, tCw)] }

theorem test_tCopy_issues (regs : List Fld) (hh : heldAll tCw regs = true) : Issues tCopy 0 tCw regs :=
  ⟨rfl, rfl, by simp [anyPending, tCw, tWarp, freshWarp], hh, by decide +kernel⟩

theorem test_tCw_noMember : NoMember tCw := by unfold NoMember; decide +kernel

/-- The checks of a plain copy to LM, of one with rows, of bulk and tile copies, and of a gather. -/
theorem witness_Copies : NoMember tCw ∧ (coreRec tCopy 0).copies.length < 512 ∧
    (Issues tCopy 0 tCw ([192] ++ [4] ++ pair 6 ++ [8]) ∧ (rd tCw 8 0).toNat = 16 ∧
      sidesBad (issued tCopy 0 tCw) tCw.wg ⟨true, 0x2000⟩ ⟨false, 0x3000⟩ [(0, 16)] [(0, 16)] [] = none) ∧
    (Issues tCopy 0 tCw ([192] ++ [4] ++ pair 6 ++ pair 8) ∧ (rd tCw 8 0).toNat < 2 ^ 16 ∧
      (let nr := (rd tCw 8 0).toNat % 256 + 1
       let nc := (rd tCw 8 0).toNat / 256 % 256 + 1
       let pitch := (rd tCw 9 0).toNat
       nr = 17 ∧ nc = 1 ∧ pitch % 4 = 0 ∧ nc * 4 ≤ pitch ∧
       sidesBad (issued tCopy 0 tCw) tCw.wg ⟨true, 0x2000⟩ ⟨false, 0x3000⟩ [(0, nr * nc * 4)]
         ((List.range nr).map (fun r => (r * pitch, nc * 4))) [] = none)) ∧
    (Issues tCopy 0 tCw ([192] ++ pair 4) ∧ shReg tCopy tCw.wg 0 = tSh ∧ shapeBad tSh = false ∧ shScale tSh = 0 ∧
      shTrans tSh = false ∧
      sidesBad (issued tCopy 0 tCw) tCw.wg ⟨false, 0x2000⟩ ⟨false, shBase tSh⟩ [(0, (bulkUnits tSh).length * 4)]
        ((bulkUnits tSh).map (fun u => (u.2, 4))) [] = none ∧
      (let us := tileUnits tSh 0 0
       sidesBad (issued tCopy 0 tCw) tCw.wg ⟨true, 0x2000⟩ ⟨false, shBase tSh⟩ [(0, us.length * 4)]
         ((us.filter (·.2.2)).map (fun u => (u.2.1, 4))) [] = none)) ∧
    (Issues tCopy 0 tCw ([192, 4] ++ pair 6 ++ [9]) ∧
      (∀ x, tCw.act.getLsbD x = true → (rd64 tCw 6 x).toNat < 2 ^ 57 ∧ (rd64 tCw 6 x).toNat % 4 = 0) ∧
      sideLmBad (issued tCopy 0 tCw) tCw.wg ⟨true, 0x2000⟩ ((lanesOf tCw.act).map (fun x => (x * 4, 4))) = none ∧
      sideGlobalBad (issued tCopy 0 tCw) tCw.wg needR ((lanesOf tCw.act).map (fun x => ((rd64 tCw 6 x).toNat, 4))) = none) :=
  ⟨test_tCw_noMember, by decide, ⟨test_tCopy_issues _ rfl, by decide, by decide +kernel⟩,
    ⟨test_tCopy_issues _ rfl, by decide, by decide +kernel⟩,
    ⟨test_tCopy_issues _ rfl, by decide +kernel, by decide +kernel, by decide +kernel, by decide +kernel, by decide +kernel,
      by decide +kernel⟩,
    ⟨test_tCopy_issues _ rfl, test_act (by decide) (by decide), by decide +kernel, by decide +kernel⟩⟩

/-- A copy in flight of one byte from 0x3000 to 0x2000, with token w0. -/
def tMove : Copy := ⟨9, probeWg, 0, 192, 5, queueHandle 0, 1, [⟨⟨false, probeWg, 0x2000, 0x2000, 0⟩, some ⟨false, probeWg, 0x3000, 0x3000, 0⟩, 0⟩], 0, 0x1004⟩

/-- The token of that copy, pending. -/
def tToken : Pend := ⟨5, 192, 0, [], 0x1004, 0, false, true, [], 0, 0, []⟩

/-- The state with that copy in flight. -/
def tFlight : State :=
  { tState (tPend tToken) with cores := [(0, { Core.empty with copies := [tMove] })] }

theorem witness_Copies_inFlight : contOfWg tS tW.wg = false ∧
    tFlight.cores.findSome? (fun e => (e.2.copies.find? (fun x => x.id == 9)).map (fun x => (e.1, x))) = some (0, tMove) ∧
    PlainMemory tS tW ∧ (∀ m ∈ tMove.moves, m.dst.lm = false) ∧ copyBad tFlight 0 tMove = none ∧
    copyBad { tFlight with poison := [0x3000] } 0 tMove ≠ none ∧
    tget tFlight.warps 0 = some (tPend tToken) ∧
    (tPend tToken).pend.any (fun p => p.id == tMove.pendId) = true ∧
    192 ≤ tMove.token.toNat :=
  ⟨by decide +kernel, by decide +kernel, test_plain, by decide, by decide +kernel, by decide +kernel, rfl, by decide,
    by decide⟩

/-- The handle of copy queue 0 of core 0 names a counter, 7 names none. -/
theorem witness_TimelinesAndStash_timelines : tW.sstep = false ∧ Issues tS 0 tW [192] ∧
    Issues tS 0 tW ([1] ++ pair 6) ∧ odd (6 : Fld) = false ∧ handleOk tS (ctxOfWg tS tW.wg) (rd tW 1 0) = false ∧
    handleOk tS (ctxOfWg tS tW.wg) 0x20000000 = true ∧
    (let w := tWarp 2 [(32, 0x20000000), (33, 0x20000000), (64, 1)] []
     (∀ l, w.act.getLsbD l = true → handleOk (tState w) (ctxOfWg (tState w) w.wg) (rd w 1 l) = true) ∧
     Issues (tState w) 0 w ([1] ++ pair 2) ∧ handleVal (tState w) (ctxOfWg (tState w) w.wg) (rd w 1 0) < (rd64 w 2 0).toNat ∧
     (rd64 w 4 0).toNat ≤ handleVal (tState w) (ctxOfWg (tState w) w.wg) (rd w 1 0)) :=
  ⟨rfl, test_tS_issues _ rfl, test_tS_issues _ rfl, rfl, by decide +kernel, by decide +kernel,
    test_act (by decide +kernel) (by decide +kernel), test_issues _ _ rfl rfl (by decide +kernel), by decide +kernel,
    by decide +kernel⟩

/-- A warp for stash words: v4 holds LM 0, v6:v7 hold 0x3000, v8 holds 128 and v9 zero. -/
def tSw : Warp := tWarp 2 [(192, 0x3000), (256, 128)] []

/-- A workgroup with one stash region, whose first line is dirty. -/
def tStash : Workgroup := { probeWorkgroup with stash := [⟨0, 0x3000, 128, [(0, ⟨true, true⟩)]⟩] }

theorem witness_TimelinesAndStash :
    (∃ g gr, tget tLm.wgs tSw.wg = some g ∧ gridOfWg tLm tSw.wg = some gr ∧ g.stash.length < 4 ∧
      (rd tSw 4 0).toNat + (rd tSw 8 0).toNat ≤ hLmSize gr.hdr ∧ (∀ r ∈ g.stash, overlap r.lm r.size 0 128 = false) ∧
      covered gr (·.getLsbD 120) (rd64 tSw 6 0).toNat (rd tSw 8 0).toNat = true ∧
      covered gr (·.getLsbD 121) (rd64 tSw 6 0).toNat (rd tSw 8 0).toNat = true) ∧
    NoMember tSw ∧ copyOnLm tLm tSw.wg 0 128 = false ∧ (rd tSw 8 0).toNat = 128 ∧ (rd tSw 9 0).toNat = 0 ∧
    (∃ r ∈ tStash.stash, r.lm = (rd tSw 4 0).toNat) ∧ (tStash.stash[0]?).map (·.lines) = some [(0, ⟨true, true⟩)] :=
  ⟨⟨_, _, rfl, rfl, by decide, by decide +kernel, by decide, by decide +kernel, by decide +kernel⟩,
    by unfold NoMember; decide +kernel, by decide +kernel, by decide, by decide, ⟨_, .head _, rfl⟩, by decide⟩

/-- A warp of tasks and futures: v4 holds the entry PC 0x2000 in both lanes. -/
def tTw : Warp := tWarp 2 [(128, 0x2000), (129, 0x2000)] []

theorem witness_TaskWords : NoMember tTw ∧ Issues (tState tTw) 0 tTw (4 :: regGroup 8 8) ∧
    (∃ t, tryLanes (lanesOf tTw.act) (issued (tState tTw) 0 tTw) (spawnLane (clearPass tTw) 4 8 false 8) = .ok t) ∧
    (∃ c x l, tryLanes (lanesOf tW.act) (issued tS 0 tW) (spawnLane (clearPass tW) 1 8 false 8) = .error (c, x, l)) ∧
    (∃ g, tget (tState tTw).wgs tTw.wg = some g ∧ g.core = some 0 ∧ g.nextSerial < 2 ^ 32) ∧
    (gridOfWg (tState tTw) tTw.wg).isSome = true ∧ tTw.sstep = false ∧ (coreRec (tState tTw) 0).tasks.length + 32 ≤ 1024 ∧
    (∀ l, tTw.act.getLsbD l = true → (rd tTw 4 l).toNat % 4 = 0) ∧ Issues tS 0 tW [] ∧ tW.kind ≠ .task ∧ tW.kind ≠ .responder ∧
    Issues (tState { tW with kind := .task }) 0 { tW with kind := .task } [] ∧
    lowest ((tTake 1).act &&& members (tTake 1)) = some 0 :=
  ⟨by unfold NoMember; decide +kernel, test_issues _ _ rfl rfl (by decide +kernel), ⟨_, rfl⟩,
    ⟨1, 0, 0, by decide +kernel⟩, ⟨_, rfl, rfl, by decide⟩, by decide +kernel, rfl, by decide +kernel,
    test_act (by decide) (by decide), test_tS_issues _ rfl, by decide, by decide, test_issues _ _ rfl rfl (by decide +kernel),
    by decide +kernel⟩

/-- A package whose context holds future 3, pending in generation 1, and future 4, resolved with 9; v1 names the first in
both lanes, v2 the second. -/
def tFut : State :=
  { tState (tWarp 2 [(32, 0x00100003), (33, 0x00100003), (64, 0x00100004), (65, 0x00100004)] []) with
    grids := [(1, { probeGrid 0x1000 with desc := probeDesc ||| BitVec.ofNat 1024 (12 * 2 ^ 59) })]
    ctxs := [(0, { Ctx.empty with futures := [(0, ⟨1, 1, 0⟩), (3, ⟨1, 1, 0⟩), (4, ⟨1, 2, 9⟩)] })] }

/-- Its warp. -/
def tFw : Warp := tWarp 2 [(32, 0x00100003), (33, 0x00100003), (64, 0x00100004), (65, 0x00100004)] []

theorem test_tFut_issues (regs : List Fld) (hh : heldAll tFw regs = true) : Issues tFut 0 tFw regs :=
  ⟨rfl, rfl, by simp [anyPending, tFw, tWarp, freshWarp], hh, by decide +kernel⟩

theorem test_tFw_noMember : NoMember tFw := by unfold NoMember; decide +kernel

/-- Future 3 has no waiter; the grid, its size and its table of futures are those that FUTNEW needs. -/
theorem witness_Futures : NoMember tFw ∧ Issues tFut 0 tFw [5] ∧ Issues tFut 0 tFw [1] ∧ Issues tFut 0 tFw [1, 5] ∧
    (∀ l, tFw.act.getLsbD l = true → futOk tFut tFw.wg (rd tFw 2 l) = true ∧ (futEntry tFut 0 (rd tFw 2 l)).st = 2) ∧
    (newFuts (issued tFut 0 tFw) tFw.wg [0, 1]).toOption.isSome = true ∧
    newFuts { issued tFut 0 tFw with grids := [] } tFw.wg [0, 1] = .error 0 ∧
    futSize (probeDesc ||| BitVec.ofNat 1024 (12 * 2 ^ 59)) = 4096 ∧
    (tgetD Fut.empty (ctxRec tFut 0).futures 0).st ≠ 0 ∧ (tgetD Fut.empty (ctxRec tFut 0).futures 1).st = 0 ∧
    tsorted (ctxRec tFut 0).futures = true ∧ (∀ e ∈ (ctxRec tFut 0).futures, e.2.gen < 4096) ∧
    ((gridOfWg tFut tFw.wg).any (fun g => g.ctx == 0)) = true ∧ tFw.act ≠ 0 ∧
    (∀ l ∈ lanesOf tFw.act, futOk tFut tFw.wg (rd tFw 1 l) = true ∧ (futEntry tFut 0 (rd tFw 1 l)).st ≠ 2) ∧
    futOk tFut tFw.wg (rd tFw 9 0) = false ∧
    futBad (issued tFut 0 tFw) (clearPass tFw) 193 (fun e _ => e.st != 1) [0] = some (0x43, 0, 0) ∧
    futBad (issued tFut 0 tFw) (clearPass tFw) 1 (fun e _ => e.st != 1) [0] = none ∧
    futBad (issued tFut 0 tFw) (clearPass tFw) 2 (fun _ h => futWaited (issued tFut 0 tFw) 0 h) [0] = none ∧
    futBad (issued tFut 0 tFw) (clearPass tFw) 2 (fun _ h => futWaited (issued tFut 0 tFw) 0 h) [0, 1] = some (0x44, 0, 1) ∧
    (∀ e ∈ tFut.warps, futLanes (readyWarp tFut 0x00100003 0 e.2) = 0) :=
  ⟨test_tFw_noMember, test_tFut_issues _ rfl, test_tFut_issues _ rfl, test_tFut_issues _ rfl,
    test_act (by decide +kernel) (by decide +kernel), by and_intros <;> decide +kernel⟩

/-- Hardware queue 0 of core 0, enabled for context 0, with two records. -/
def tHwq : State :=
  { tS with hwqs := [(0, { Hwq.empty with desc := 1, recs := [(0, [11, 12]), (1, [21, 22])] })] }

theorem witness_HardwareQueueWords : NoMember tW ∧ Issues tHwq 0 tW (regGroup 8 8) ∧ Issues tHwq 0 tW [5] ∧
    Issues tS 0 tW (regGroup 8 8) ∧ hqOk tS tW 0 = false ∧ hqOk tHwq tW 0 = true ∧ tW.act ≠ 0 ∧ tW.sstep = false ∧
    (hwqRec tHwq 0).waiters = [] ∧ (hwqRec tHwq 0).recs.length ≤ 32 ∧
    (lanesOf tW.act).length ≤ (hwqRec tHwq 0).recs.length ∧ (184 : Fld).toNat + 8 ≤ 192 ∧
    (hwqRec tHwq 0).recs.length + (lanesOf tW.act).length ≤ 32 :=
  ⟨test_noMember, ⟨rfl, rfl, rfl, rfl, by decide +kernel⟩, ⟨rfl, rfl, rfl, rfl, by decide +kernel⟩,
    test_tS_issues _ rfl, by and_intros <;> decide +kernel⟩

/-- A warp for mailboxes and match entries: v1 names numbers 3 and 2, the group v4 to v7 the addresses 0x2000 and 0x2040,
the PC 0x3000 and 64; from v8 on the same without a PC. -/
def tMw : Warp :=
  tWarp 2 [(32, 3), (33, 2), (128, 0x2000), (129, 0x2040), (192, 0x3000), (193, 0x3000), (224, 64), (225, 64),
    (256, 0x2000), (257, 0x2040)] []

/-- A context with four mailboxes, of which 2 and 3 are bound or not, and a message that has wholly come. -/
def tMbx (bound : Bool) : State :=
  { tDesc (BitVec.ofNat 1024 (4 * 2 ^ 528)) with
    warps := [(0, tMw)]
    mailboxes := if bound then [(mbxKey 0 2, ⟨probeWg, 0, 2, 0x2040, 0x2040, 0x3000, 64, 0, 0⟩),
      (mbxKey 0 3, ⟨probeWg, 0, 3, 0x2000, 0x2000, 0x3000, 64, 0, 0⟩)] else []
    netMatch := [(0, [⟨7, probeWg, 0, 5, 0x2000, 0x3000, 64, 1, 0, true, 64, 0, false⟩])] }

theorem test_tMbx_issues (b : Bool) (regs : List Fld) (hh : heldAll tMw regs = true) : Issues (tMbx b) 0 tMw regs :=
  ⟨rfl, rfl, by simp [anyPending, tMw, tWarp, freshWarp], hh, by cases b <;> decide +kernel⟩

/-- The hypotheses by lane: for a binding, for its removal, and for a match entry. -/
theorem witness_MailboxesAndMatches_lanes :
    (∀ l, tMw.act.getLsbD l = true → (rd tMw 1 l).toNat < 4 ∧ rd tMw 6 l ≠ 0 ∧ (rd tMw 6 l).toNat % 4 = 0 ∧
      memCheck (tMbx false) tMw.wg (rd64 tMw 4 l).toNat 8 needR 8 = .ok () ∧
      tget (tMbx false).mailboxes (mbxKey 0 (rd tMw 1 l).toNat) = none ∧
      ∀ m ∈ (tMbx false).mailboxes, m.2.pa ≠ (gridXlate (tMbx false) tMw.wg (rd64 tMw 4 l).toNat).1) ∧
    (∀ l, tMw.act.getLsbD l = true → ∀ j, tMw.act.getLsbD j = true → l ≠ j → (rd tMw 1 l).toNat ≠ (rd tMw 1 j).toNat ∧
      (gridXlate (tMbx false) tMw.wg (rd64 tMw 4 l).toNat).1 ≠ (gridXlate (tMbx false) tMw.wg (rd64 tMw 4 j).toNat).1) ∧
    (∀ l, tMw.act.getLsbD l = true → rd tMw 10 l = 0 ∧
      (tget (tMbx true).mailboxes (mbxKey 0 (rd tMw 1 l).toNat)).isSome = true) ∧
    (∀ l, tMw.act.getLsbD l = true → 1 ≤ (rd tMw 7 l).toNat ∧ (rd tMw 7 l).toNat ≤ 16777216 ∧
      memCheck (tMbx false) tMw.wg (rd64 tMw 4 l).toNat 64 needW (rd tMw 7 l).toNat = .ok ()) :=
  ⟨test_act (by decide +kernel) (by decide +kernel),
    test_act (test_act (fun h => absurd rfl h) (fun _ => by decide +kernel))
      (test_act (fun _ => by decide +kernel) (fun h => absurd rfl h)),
    test_act (by decide +kernel) (by decide +kernel), test_act (by decide +kernel) (by decide +kernel)⟩

theorem witness_MailboxesAndMatches : NoMember tMw ∧ Issues (tMbx false) 0 tMw (1 :: regGroup 4 4) ∧
    Issues (tMbx true) 0 tMw (1 :: regGroup 8 4) ∧ Issues (tMbx false) 0 tMw (1 :: regGroup 4 4 ++ [2]) ∧
    Issues (tMbx false) 0 tMw [1] ∧ (∃ x y l, tryLanes (lanesOf tMw.act) (issued (tMbx true) 0 tMw)
      (bindLane (clearPass tMw) 1 4) = .error (x, y, l)) ∧
    (tryLanes [0] (issued (tMbx false) 0 tMw) (bindLane (clearPass tMw) 1 4)).toOption.isSome = true ∧
    (tryLanes [0] (issued (tMbx false) 0 tMw) (matchLane 0 (clearPass tMw) 1 4 2)).toOption.isSome = true ∧
    (gridOfWg (tMbx false) tMw.wg).map (fun g => (g.ctx, field g.desc 540 528)) = some (0, 4) ∧
    ((matchTable (tMbx false) 0).filter (fun e => !e.dead)).length + (lanesOf tMw.act).length ≤ 1024 ∧
    matchesOf (tMbx false) tMw.wg 9 = [] ∧ (∀ e ∈ (tMbx false).wgs, e.2.stash = []) ∧
    taskRoom (tMbx false) probeWg = true ∧
    taskRoom { tMbx false with wgs := [(probeWg, { probeWorkgroup with core := none })] } probeWg = false ∧
    ((matchTable (tMbx false) 0).find? (fun x => x.id == 7 && x.claimed && !x.dead && x.got == x.len)).isSome = true :=
  ⟨by unfold NoMember; decide +kernel, test_tMbx_issues _ _ rfl, test_tMbx_issues _ _ rfl, test_tMbx_issues _ _ rfl,
    test_tMbx_issues _ _ rfl, ⟨0x47, 0x2000, 0, by decide +kernel⟩, by and_intros <;> decide +kernel⟩

/-- Core 0 with a bin, two ready tasks of one list, and a handler that waits, each as wanted; no warp but that of slot 0. -/
def tForm (due : Option Nat) (bin tasks handler : Bool) : State :=
  { tS with
    cycle := [(0, 1024)]
    cores := [(0, { Core.empty with
      bins := if bin then [(2, ⟨probeWg, 0x3000, 0, [⟨tThread 0, [(5, 9)], 1, []⟩], [], 0, 0, false, 0, due, []⟩)] else []
      tasks := if tasks then [⟨probeWg, 1, 0x4000, [1, 2], 7, none, 0, false, none, due, false⟩,
        ⟨probeWg, 2, 0x4000, [3], 7, none, 0, false, none, due, false⟩] else []
      handlers := if handler then [⟨probeWg, 0x5000, [(⟨probeWg, false, 0, false⟩, [1, 2, 3], 0x1000)]⟩] else [] })] }

theorem witness_WarpsForm : freeWarpSlot (tForm none true true true) 0 = some 1 ∧
    (∀ b, tget (coreRec (tForm none true true true) 0).bins 2 = some b →
      b.due = none ∧ b.since + binLimit (tForm none true true true) b.wg ≤ wgClock (tForm none true true true) 0 b.wg) ∧
    (tget (coreRec (tForm none true true true) 0).bins 2).isSome = true ∧
    listDue (readyList (tForm none true true true) 0 ⟨probeWg, 0x4000, false⟩) = none ∧
    (readyList (tForm none true true true) 0 ⟨probeWg, 0x4000, false⟩).length = 2 ∧
    (∀ y ∈ readyList (tForm none true true true) 0 ⟨probeWg, 0x4000, false⟩, y.readyAt +
      binLimit (tForm none true true true) probeWg ≤ wgClock (tForm none true true true) 0 probeWg) ∧
    nextForm (tForm (some 3) true false false) 0 = some (.bin 2) ∧
    nextForm (tForm (some 3) false true false) 0 = some (.list ⟨probeWg, 0x4000, false⟩) ∧
    ((coreRec (tForm none true true true) 0).handlers.find? (fun h => wgRuns (tForm none true true true) h.wg)).any
      (fun h => decide (h.lanes.length ≤ 32)) = true := by
  refine ⟨?_, ?_, ?_, ?_, ?_, ?_, ?_, ?_, ?_⟩
  · decide +kernel
  · intro b hb
    have : b = ⟨probeWg, 0x3000, 0, [⟨tThread 0, [(5, 9)], 1, []⟩], [], 0, 0, false, 0, none, []⟩ := by
      have h2 : tget (coreRec (tForm none true true true) 0).bins 2 =
        some ⟨probeWg, 0x3000, 0, [⟨tThread 0, [(5, 9)], 1, []⟩], [], 0, 0, false, 0, none, []⟩ := by decide +kernel
      exact (Option.some.inj (h2.symm.trans hb)).symm
    subst this
    decide +kernel
  all_goals decide +kernel

/-- The warp of `tTake` with a depth in lane 0 and another in lane 1. -/
def tMix (d0 d1 : Nat) : Warp :=
  { tTake 1 with threads := [(0, { tThread 0 with tdepth := d0 }), (1, { tThread 1 with tdepth := d1 })] }

theorem witness_TakesOpenAndEnd : Issues tS 0 tW [] ∧ members tW = 0 ∧ Issues tS 0 tW [5] ∧
    lowest (tW.act &&& ~~~members tW) = some 0 ∧ Issues tS 0 tW [1] ∧
    (tTake 1).sstep = false ∧ Issues (tState (tTake 1)) 0 (tTake 1) [] ∧ members (tTake 1) ≠ 0 ∧
    (tTake 1).act &&& ~~~members (tTake 1) = 0 ∧ tsorted (tTake 1).threads = true ∧
    (∀ l x, (tTake 1).act.getLsbD l = true → thr (tTake 1) l = some x → x.tdepth < 7) ∧
    Issues (tState (tTake 7)) 0 (tTake 7) [] ∧ members (tTake 7) ≠ 0 ∧ (tTake 7).act &&& ~~~members (tTake 7) = 0 ∧
    (∃ l x, l < 32 ∧ (tTake 7).act.getLsbD l = true ∧ thr (tTake 7) l = some x ∧ 7 ≤ x.tdepth) ∧
    Issues (tState (tMix 1 0)) 0 (tMix 1 0) [] ∧ members (tMix 1 0) ≠ 0 ∧
    lowest ((tMix 1 0).act &&& ~~~members (tMix 1 0)) = some 1 ∧
    (tTake 2).act &&& ~~~(lanesWhere (tTake 2) (fun x => decide (1 < x.tdepth))) = 0 ∧
    (commit (tState (tTake 1)) 0).toOption.isSome = true ∧
    rd (tTake 1) 2 0 &&& members (tTake 1) ≠ 0 ∧ rd (tTake 1) 9 0 &&& members (tTake 1) = 0 ∧
    ((tget (rollback (tState (tTake 1)) 0 1 5).warps 0).map (fun u => allKept u)) = some false :=
  ⟨test_tS_issues _ rfl, by decide +kernel, test_tS_issues _ rfl, by decide +kernel, test_tS_issues _ rfl,
    rfl, ⟨rfl, rfl, rfl, rfl, by decide +kernel⟩, by decide +kernel, by decide +kernel, by decide +kernel,
    fun l x h => test_act (P := fun l => thr (tTake 1) l = some x → x.tdepth < 7)
      (fun h => by have := Option.some.inj h; subst this; decide +kernel)
      (fun h => by have := Option.some.inj h; subst this; decide +kernel) l h,
    ⟨rfl, rfl, rfl, rfl, by decide +kernel⟩, by decide +kernel, by decide +kernel, ⟨0, _, by decide, by decide, rfl, by decide⟩,
    ⟨rfl, rfl, rfl, rfl, by decide +kernel⟩, by decide +kernel, by decide +kernel, by decide +kernel, by decide +kernel,
    by decide +kernel, by decide +kernel, by decide +kernel⟩

/-- A package whose one warp is in a take that holds a byte of lane 0. -/
def tHeld : Warp := { tTake 1 with take := some { checkpoint tW with resume := ⟨0x1000, 1⟩, store := [(0x2000, ⟨0, 7, 0x2000, 1, false⟩)] } }

theorem test_tTake_access : ∀ l, (tTake 1).act.getLsbD l = true →
    MayAccess (tState (tTake 1)) (tTake 1).wg needW 4 (gAddr (tTake 1) 4 0 4 l) ∧
    (gridXlate (tState (tTake 1)) (tTake 1).wg (gAddr (tTake 1) 4 0 4 l)).2 = 0 :=
  test_act ⟨by constructor <;> decide +kernel, by decide +kernel⟩ ⟨by constructor <;> decide +kernel, by decide +kernel⟩

theorem witness_TakesHoldTheirStores : (tTake 1).sstep = false ∧ (∃ tk, (tTake 1).take = some tk ∧ tk.store = []) ∧
    (tTake 1).act &&& ~~~members (tTake 1) = 0 ∧
    (∀ l, (tTake 1).act.getLsbD l = true → ∀ m, (tTake 1).act.getLsbD m = true → l ≠ m →
      gAddr (tTake 1) 4 0 4 l ≠ gAddr (tTake 1) 4 0 4 m ∧
      ((gridXlate (tState (tTake 1)) (tTake 1).wg (gAddr (tTake 1) 4 0 4 l)).1 + 4 ≤
          (gridXlate (tState (tTake 1)) (tTake 1).wg (gAddr (tTake 1) 4 0 4 m)).1 ∨
        (gridXlate (tState (tTake 1)) (tTake 1).wg (gAddr (tTake 1) 4 0 4 m)).1 + 4 ≤
          (gridXlate (tState (tTake 1)) (tTake 1).wg (gAddr (tTake 1) 4 0 4 l)).1)) ∧
    Issues (tState (tTake 1)) 0 (tTake 1) (pair 4 ++ [1]) ∧
    tget (tState tHeld).warps 0 = some tHeld ∧ tHeld.sstep = false ∧ members tHeld ≠ 0 ∧ tsorted tHeld.threads = true ∧
    (∃ tk, tHeld.take = some tk ∧ tsorted tk.ckV = true ∧ tk.adds = [] ∧ (∀ e ∈ tk.store, e.1 < 2 ^ 64)) ∧
    (∀ e ∈ (tState tHeld).warps, e.1 ≠ 0 → e.2.take = none) ∧ (∀ e ∈ (tState tHeld).wgs, e.2.stash = []) ∧
    (∀ e ∈ (tState tHeld).ctxs, e.2.snap = none) ∧ (tState tHeld).mailboxes = [] ∧ tHeld.recon = [] :=
  ⟨rfl, ⟨_, rfl, rfl⟩, by decide +kernel,
    test_act (test_act (fun h => absurd rfl h) (fun _ => by decide +kernel))
      (test_act (fun _ => by decide +kernel) (fun h => absurd rfl h)),
    ⟨rfl, rfl, rfl, rfl, by decide +kernel⟩, rfl, rfl, by decide +kernel, by decide +kernel,
    ⟨_, rfl, by decide +kernel, rfl, by decide +kernel⟩, by decide +kernel, by decide +kernel, by decide +kernel, rfl, rfl⟩

/-- Core 0 with a directory entry of key 0x100000007 and payload 5, and one in transit. -/
def tDir : State :=
  { tS with
    cores := [(0, { Core.empty with kdir := [⟨3, 7, 5, 0x4000, probeWg, [], 0, 3⟩] })]
    transit := [(9, ⟨⟨4, 8, 6, 0x4000, probeWg, [], 0, 4⟩, 0, probeWg⟩)] }

theorem witness_KeyDirectory : NoMember tW ∧ Issues tDir 0 tW (pair 0 ++ pair 4) ∧ Issues tDir 0 tW (pair 0 ++ [1]) ∧
    Issues tDir 0 tW (pair 0) ∧
    (tryLanes (lanesOf tW.act) (issued tDir 0 tW) (insLane 0 (clearPass tW) 0 4 false)).toOption.isSome = true ∧
    (tryLanes (lanesOf tW.act) (issued tDir 0 tW) (insLane 0 (clearPass tW) 0 0 false)).toOption.isSome = false ∧
    (tryLanes (lanesOf tW.act) (issued tDir 0 tW) (migLane 0 (clearPass tW) 0 9 false)).toOption.isSome = true ∧
    (tryLanes (lanesOf tW.act) (issued tDir 0 tW) (migLane 0 (clearPass tW) 0 1 false)).toOption.isSome = false ∧
    odd (8 : Fld) = false ∧ Issues tDir 0 tW (pair 0 ++ pair 8) ∧ (rd tW (4 + 1) 0).toNat % 4 = 0 ∧ kdirRoom tDir 0 ≠ 0 ∧
    (tget tDir.transit 9).isSome = true ∧ (tget tDir.wgs probeWg).isSome = true ∧ probeWorkgroup.ended = false ∧
    probeWorkgroup.core = some 0 ∧ allCensuses tDir = [] :=
  ⟨test_noMember, ⟨rfl, rfl, rfl, rfl, by decide +kernel⟩, ⟨rfl, rfl, rfl, rfl, by decide +kernel⟩,
    ⟨rfl, rfl, rfl, rfl, by decide +kernel⟩, by decide +kernel, by decide +kernel, by decide +kernel, by decide +kernel,
    by decide, ⟨rfl, rfl, rfl, rfl, by decide +kernel⟩, by decide, by decide +kernel, rfl, rfl, rfl, rfl, by decide +kernel⟩

/-- A census of core 0 in slot 0, whose arrival point at that core is to come. -/
def tCen : Census := ⟨1, 0x10000, 0, [0], probeWg, 0, 7, 5, 5, 0, [0], [], [], 0, true, none, 0⟩

/-- A package with this census and an entry that matches it; v3 names the census in both lanes. -/
def tCensus (cen : Census) : State :=
  { tState (tWarp 2 [(96, 0x10000), (97, 0x10000)] []) with
    cores := [(0, { Core.empty with kdir := [⟨3, 7, 5, 0x4000, probeWg, [], 0, 3⟩], census := [(0, cen)] })] }

/-- Its warp. -/
def tNw : Warp := tWarp 2 [(96, 0x10000), (97, 0x10000)] []

/-- A warp of two responders. -/
def tRw (done : Bool) : Warp :=
  { tWarp 2 [] [] with
    kind := .responder, threads := (List.range 2).map (fun l => (l, { tThread l with responded := done, census := some (1, 3) })) }

/-- The hypotheses of SOLICIT and CENSUS: a slot that is free, a census that is complete and one that is not. -/
theorem witness_CensusesAndResponders_words : NoMember tW ∧ Issues tS 0 tW ([8] ++ pair 4 ++ [6]) ∧
    Issues (tState (tTake 1)) 0 (tTake 1) ([8] ++ pair 4 ++ [6]) ∧ Issues tS 0 tW [1, 8] ∧ NoMember tNw ∧
    Issues (tCensus tCen) 0 tNw [3, 8] ∧
    (∀ l, tNw.act.getLsbD l = true → censusOf (tCensus tCen) 0 (rd tNw 3 l) = some tCen) ∧
    (tTake 1).act &&& members (tTake 1) ≠ 0 ∧ tW.act ≠ 0 ∧ contOfWg tS tW.wg = false ∧ (coreRec tS 0).solWait = [] ∧
    (lanesOf tW.act).length ≤ ((List.range 64).filter (fun i => (tget (coreRec tS 0).census i).isNone)).length ∧
    ((lanesOf tW.act).foldl (solLane 0 (solRequest (clearPass tW) 8 4 6 0 0)) (issued tS 0 tW, 0, [])).2.2 = [] ∧
    (tget ((lanesOf tW.act).foldl (solLane 0 (solRequest (clearPass tW) 8 4 6 0 0)) (issued tS 0 tW, 0, [])).1.warps
      0).isSome = true ∧
    freeSlotOf (coreRec tS 0) = some 0 ∧ censusOf (issued tS 0 tW) 0 (rd tW 1 0) = none ∧
    censusComplete (tCensus { tCen with todo := [] }) { tCen with todo := [] } = true ∧
    censusComplete (tCensus tCen) tCen = false :=
  ⟨test_noMember, ⟨rfl, rfl, rfl, rfl, by decide +kernel⟩, ⟨rfl, rfl, rfl, rfl, by decide +kernel⟩,
    ⟨rfl, rfl, rfl, rfl, by decide +kernel⟩, by unfold NoMember; decide +kernel, ⟨rfl, rfl, rfl, rfl, by decide +kernel⟩,
    test_act (by decide +kernel) (by decide +kernel), by and_intros <;> decide +kernel⟩

/-- The hypotheses of RESPOND and of an arrival point; the entry and the census stand alone on their core. -/
theorem witness_CensusesAndResponders : Issues tS 0 tW [1] ∧ NoMember (tRw true) ∧
    Issues (tState (tRw true)) 0 (tRw true) [1] ∧ NoMember (tRw false) ∧ Issues (tState (tRw false)) 0 (tRw false) [1] ∧
    (∀ l, (tRw false).act.getLsbD l = true → ∀ x, thr (tRw false) l = some x → x.responded = false) ∧
    (∃ g, tget (tCensus tCen).wgs probeWg = some g ∧ g.core = some 0) ∧ tW.kind ≠ .responder ∧
    (tRw true).kind = .responder ∧ (thr (tRw true) 0).any (·.responded) = true ∧ (tRw false).kind = .responder ∧
    tCen.todo.contains 0 = true ∧ censusHits (tCensus tCen) tCen ⟨3, 7, 5, 0x4000, probeWg, [], 0, 3⟩ = true ∧
    taskRoom (tCensus tCen) probeWg = true ∧ (tCensus tCen).forwarded = [] ∧ (tCensus tCen).ctxs = [] ∧
    (allCensuses (tCensus tCen)).find? (fun x => x.id == 1 && x.todo.contains 0) = some tCen ∧
    tget (coreRec (tCensus { tCen with due := [(3, 0, 3)] }) 0).census 0 = some { tCen with due := [(3, 0, 3)] } ∧
    tget (coreRec (tCensus { tCen with fabricDone := false }) 0).census 0 = some { tCen with fabricDone := false } :=
  ⟨⟨rfl, rfl, rfl, rfl, by decide +kernel⟩, by unfold NoMember; decide +kernel, ⟨rfl, rfl, rfl, rfl, by decide +kernel⟩,
    by unfold NoMember; decide +kernel, ⟨rfl, rfl, rfl, rfl, by decide +kernel⟩,
    test_act (fun x h => by have := Option.some.inj h; subst this; rfl)
      (fun x h => by have := Option.some.inj h; subst this; rfl), ⟨_, rfl, rfl⟩, by and_intros <;> decide +kernel⟩

/-- A load outstanding to v0. -/
def tOnV0 : Warp := tPend { tLoad true with reg := 0 }

/-- A handler warp of the test workgroup. -/
def tHw : Warp := { tW with kind := .handler }

/-- The test state with a trap handler at 0x5000, or with DBGCTL. -/
def tTrap (dbg : Nat) : State := tDesc (BitVec.ofNat 1024 (0x5000 * 2 ^ 384 + dbg * 2 ^ 736))

/-- A test state whose context has a drain pending. -/
def tDrain : State := { tS with ctxs := [(0, { Ctx.empty with drain := some 5 })] }

theorem witness_TrapsAndSpecialRegisters : Issues (tTrap 0) 0 tW [] ∧ Issues (tTrap 13) 0 tW [] ∧
    Issues (tState (tTake 1)) 0 (tTake 1) [] ∧ Issues tS 0 tW [] ∧ Issues tS 0 tW [0, 1] ∧ Issues (tState tHw) 0 tHw [0, 1] ∧
    Issues tS 0 tW [8] ∧ Issues tDrain 0 tW [] ∧ NoMember tW ∧ NoMember tHw ∧
    Issues { tTrap 0 with warps := [(0, tOnV0)] } 0 tOnV0 [] ∧ NoMember tOnV0 ∧ tOnV0.kind ≠ .handler ∧
    anyPending tOnV0 [0, 1] = true ∧ anyPending tW [0, 1] = false ∧
    (bitN (dbgOf (tTrap 0) tW.wg) 3 = false ∧ bitN (dbgOf (tTrap 0) tW.wg) 2 = false ∧
      bitN (dbgOf (tTrap 13) tW.wg) 3 = true ∧ bitN (dbgOf (tTrap 13) tW.wg) 2 = true) ∧
    (tTake 1).act &&& members (tTake 1) ≠ 0 ∧ bitN (dbgOf (tState (tTake 1)) (tTake 1).wg) 3 = false ∧
    trapPc tS tW.wg = 0 ∧ tW.kind ≠ .handler ∧ trapPc (tTrap 0) tW.wg ≠ 0 ∧ tW.sstep = false ∧ tHw.kind = .handler ∧
    findThread tS ⟨probeWg, false, 1, false⟩ = some (0, 1) ∧ (thr tW 1).isSome = true ∧ contOfWg tS tW.wg = false ∧
    (gridOfWg tS tW.wg).isSome = true ∧ (∀ e ∈ tW.threads, e.2.tdepth ≤ 0) ∧ (∃ e ∈ tW.threads, e.2.tdepth = 0) ∧
    lowest tW.act = some 0 ∧ drainPending tS tW.wg = false ∧ drainPending tDrain tW.wg = true :=
  ⟨⟨rfl, rfl, rfl, rfl, by decide +kernel⟩, ⟨rfl, rfl, rfl, rfl, by decide +kernel⟩, ⟨rfl, rfl, rfl, rfl, by decide +kernel⟩,
    test_tS_issues _ rfl, test_tS_issues _ rfl, ⟨rfl, rfl, rfl, rfl, by decide +kernel⟩, test_tS_issues _ rfl,
    ⟨rfl, rfl, rfl, rfl, by decide +kernel⟩, test_noMember, by unfold NoMember; decide +kernel,
    ⟨rfl, rfl, rfl, rfl, by decide +kernel⟩, by unfold NoMember; decide +kernel, by and_intros <;> decide +kernel⟩

/-- A sequencer in a clause of one word at 0x3000: q1 = 2, q2 = 5, q3 a handle, q4 = 32. -/
def tQ : Seq := ⟨probeWg, ⟨0x3000, 1⟩, true, [0], [(1, 2), (2, 5), (3, 0x10000000), (4, 32)], [], [], [], [], [], false, [], [], false, 0, []⟩

/-- A package with this sequencer, two barriers, 16 KiB of LM, and shape registers: 1 a tile of bf16, 2 one of fp32, 3 an
image of bf16. -/
def tSeq (q : Seq) : State :=
  { tHdr (BitVec.ofNat 1024 (2 * 2 ^ 436 + 64 * 2 ^ 368)) with
    wgs := [(probeWg, { probeWorkgroup with
      alive := 2
      bars := [(1, { Barrier.fresh 2 with deflt := false })]
      sh := [(1, BitVec.ofNat 512 (2 * 2 ^ 57 + 2 * 2 ^ 61 + 3 * 2 ^ 128 + 3 * 2 ^ 150 + 4 * 2 ^ 260)),
        (2, BitVec.ofNat 512 (2 * 2 ^ 61 + 3 * 2 ^ 128 + 3 * 2 ^ 150 + 4 * 2 ^ 260)),
        (3, BitVec.ofNat 512 (2 * 2 ^ 57 + 3 * 2 ^ 61 + 15 * 2 ^ 128 + 3 * 2 ^ 150 + 3 * 2 ^ 172 + 16 * 2 ^ 260 + 64 * 2 ^ 292))] })]
    mem := memPuts [] 0x3000 (bytesOf [0xA5000061, 0x45000000])
    cores := [(0, { Core.empty with seq := some q })]
    issuer := .seq 0 }

theorem witness_SequencerWords : (tSeq tQ).issuer = .seq 0 ∧ seqOf (tSeq tQ) 0 = some tQ ∧ qReg tQ 0 = 0 ∧ qReg tQ 1 ≠ 0 ∧
    tQ.loops = [] ∧ ({ tQ with loops := List.replicate 4 (0x3000, 2) } : Seq).loops.length = 4 ∧
    handleOk (tSeq tQ) (ctxOfWg (tSeq tQ) tQ.wg) (qReg tQ 0) = false ∧
    handleOk (tSeq tQ) (ctxOfWg (tSeq tQ) tQ.wg) (qReg tQ 3) = true ∧
    (tget (tSeq tQ).wgs tQ.wg).any (fun g => (barOf g 0).deflt && !(barOf g 1).deflt) = true ∧
    hNbar (hdrOf (tSeq tQ) tQ.wg) = 2 ∧ tQ.flight = [] ∧
    (match fetchClause (tSeq tQ) tQ.wg true 0x3000 with | .ok (h, _) => decide (h.waitKind ≠ 1) | _ => false) = true ∧
    (match fetchClause { tSeq tQ with mem := memPuts [] 0x3000 (bytesOf [0xA5000161, 0x45000000]) } tQ.wg true 0x3000 with
      | .ok (h, _) => decide (h.waitKind = 1 ∧ h.waitArg.toNat < 2) | _ => false) = true :=
  ⟨rfl, rfl, by and_intros <;> decide +kernel⟩

/-- A sequencer at a clause header that waits for barrier 1, whose phase it has recorded; no clause lies at 0x3002. -/
theorem witness_SequencerWords_clause :
    let q : Seq := { tQ with pc := ⟨0x3000, 0⟩, arrRec := [(1, 0)] }
    (q.halted = false ∧ q.held = false ∧ q.pc.idx = 0) ∧ tget q.arrRec 1 = some 0 ∧
    (tget (tSeq q).wgs q.wg).any (fun g => decide ((barOf g 1).phase ≤ 0)) = true ∧
    (fetchClause (tSeq q) q.wg true 0x3002).toOption.isSome = false := by
  and_intros <;> decide +kernel

theorem witness_ShapeWords : (tSeq tQ).issuer = .seq 0 ∧ seqOf (tSeq tQ) 0 = some tQ ∧ (tget (tSeq tQ).wgs tQ.wg).isSome = true ∧
    (qReg tQ 0).toNat % 64 = 0 ∧ lmAt (tSeq tQ) tQ.wg (qReg tQ 0).toNat 64 = some (probeWg, 0) ∧
    stashAlias (tSeq tQ) probeWg 0 64 = false ∧ poisoned (tSeq tQ) (lmPlace probeWg 0) 64 = false ∧
    (qReg tQ 1).toNat % 64 ≠ 0 ∧ shField 0x10 = some (149, 128) :=
  ⟨rfl, rfl, by and_intros <;> decide +kernel⟩

/-- The record of a shape register of the test workgroup. -/
def tShape (n : Nat) : BitVec 512 := shReg (tSeq tQ) probeWg n

theorem witness_MatrixOperations : (tSeq tQ).issuer = .seq 0 ∧ seqOf (tSeq tQ) 0 = some tQ ∧
    accSpoilt tQ 0 = false ∧ accSpoilt { tQ with spoilt := [2 ^ 20] } 0 = true ∧ shapeBad (tShape 1) = false ∧
    shRank (tShape 1) = 2 ∧ lmShapeBad (tShape 1) = false ∧ (qReg tQ 0).toNat % 16 = 0 ∧
    (sufA 6).contains (shFmt (tShape 1)) = true ∧ shTrans (tShape 1) = false ∧
    operandBad (tSeq tQ) probeWg (tShape 1) ((List.range 128).flatMap (fun i => (List.range (sufK 6)).map (fun k => aIdx (tShape 1) i k))) =
      none ∧
    wbBad 0 (panelBytes 2 16 false false) = false ∧ wbSpoilt tQ 0 (panelBytes 2 16 false false) = false ∧
    wbBad 0 (panelBytes 2 16 true false) = false ∧ wbSpoilt tQ 0 (panelBytes 2 16 true false) = false ∧
    panelBad { tQ with wbuf := (List.range 256).map (fun i => (2048 + i, 0x44)) } 2 16 0 = false ∧
    shapeBad (tShape 2) = false ∧ shRank (tShape 2) = 2 ∧ shFmt (tShape 2) = shFp32 ∧
    operandBad (tSeq tQ) probeWg (tShape 2) ((List.range 128).flatMap (fun i => (List.range 16).map (fun k => aIdx (tShape 2) i k))) =
      none ∧ wbBad 0 8192 = false ∧ wbSpoilt tQ 0 8192 = false ∧
    shapeBad (tShape 3) = false ∧ shRank (tShape 3) = 3 ∧ lmShapeBad (tShape 3) = false ∧ shTrans (tShape 3) = false ∧
    shExt (tShape 3) 0 % 16 = 0 ∧ 0 + 16 ≤ shWinX (tShape 3) * shWinY (tShape 3) * shExt (tShape 3) 0 ∧
    operandBad (tSeq tQ) probeWg (tShape 3) ((List.range 128).flatMap (fun i =>
      (List.range 16).filterMap (fun k => (convAt (tShape 3) 0 0 i k).join))) = none :=
  ⟨rfl, rfl, by and_intros <;> decide +kernel⟩

theorem witness_TilesAndCompletion : (tSeq tQ).issuer = .seq 0 ∧ seqOf (tSeq tQ) 0 = some tQ ∧
    shapeBad (tShape 1) = false ∧ shRank (tShape 1) = 2 ∧ lmShapeBad (tShape 1) = false ∧ shTrans (tShape 1) = false ∧
    operandBad (tSeq tQ) probeWg (tShape 1) ((List.range 128).flatMap (fun i => (List.range 128).map (fun j => [j, i]))) = none ∧
    elemsBad (tSeq tQ) probeWg (tShape 1) ((List.range (min (shExt (tShape 1) 1) 128)).flatMap (fun d1 =>
      (List.range (min (shExt (tShape 1) 0) 128)).map (fun d0 => [d0, d1]))) = none ∧
    shScale (tShape 1) = 0 ∧ wbBad 0 ((imageUnits (tShape 1)).length * 2) = false ∧
    sideGlobalBad (tSeq tQ) probeWg needR (sidePieces ⟨false, shBase (tShape 1)⟩ ((imageUnits (tShape 1)).map (fun u => (u.2, 2)))) =
      none ∧ (∀ u ∈ imageUnits (tShape 1), poisoned (tSeq tQ) (gridXlate (tSeq tQ) probeWg (shBase (tShape 1) + u.2)).1 2 = false) ∧
    accSpoilt tQ 1 = false ∧ accSpoilt { tQ with spoilt := [2 ^ 20 + 65536] } 1 = true ∧
    (∀ e ∈ (tSeq tQ).wgs, e.2.stash = []) ∧ ([5] : List Nat).Nodup ∧ seqHandle 0 ∉ tQ.homes ∧
    seqOf (tSeq { tQ with flight := [(1, 0)] }) 0 = some { tQ with flight := [(1, 0)] } ∧ contOfWg (tSeq tQ) tQ.wg = false ∧
    (fdec fp32 0x7FC00001).isNan = true ∧ (fdec fp32 0).isNan = false :=
  ⟨rfl, rfl, by and_intros <;> decide +kernel⟩

/-- Splicer context 0 of context 0, running in a window of 16 words with k1 = 0x3000, k2 = 5 and buffer 1 at 0x2000. -/
def tX : Splicer :=
  { Splicer.empty with
    cfg := BitVec.ofNat 64 (2 ^ 63 + 16 * 2 ^ 32), k := [(1, 0x3000), (2, 5)], bf := [(1, 0x2000)], st := 1 }

/-- A package with this context on a link that is up, and the word FWAIT k1, k0 at its PC. -/
def tSplice (x : Splicer) : State :=
  { State.reset with
    ctxDesc := [(0, probeDesc)]
    splicers := [(0, x)]
    links := [(0, { Link.empty with stat := 0x80000000, imem := [(0, 0x30100000)] })]
    issuer := .splicer 0 }

theorem test_tX_free : spStep tX = false := by decide

/-- The test for a context that issues. -/
theorem test_tSplice_issues (x : Splicer) (h : x.refused = none) (hs : spStep x = false) : SpliceIssues (tSplice x) 0 x :=
  ⟨rfl, rfl, h, hs⟩

theorem test_tSplice_quiet (x : Splicer) : Undisturbed (tSplice x) :=
  ⟨by simp [tSplice, State.reset], by simp [tSplice, State.reset], by simp [tSplice, State.reset], rfl⟩

theorem witness_SpliceScalarWords : SpliceIssues (tSplice tX) 0 tX ∧
    SpliceIssues (tSplice { tX with loops := [(7, 0, 2)] }) 0 { tX with loops := [(7, 0, 2)] } ∧
    (linkRec (tSplice tX) 0).imemOld = [] ∧ (14 : BitVec 12).toNat + 1 < spLimit tX ∧
    spLimit tX ≤ (15 : BitVec 12).toNat + 1 ∧ kReg tX 0 = 0 ∧ kReg tX 1 ≠ kReg tX 2 ∧ (0 : BitVec 12).toNat ≤ tX.pc ∧
    tX.pc < (3 : BitVec 12).toNat ∧ kReg tX 2 ≠ 0 ∧ tX.loops.length < 4 ∧
    4 ≤ ({ tX with loops := List.replicate 4 (0, 1, 2) } : Splicer).loops.length ∧ tX.loops = [] :=
  ⟨test_tSplice_issues _ rfl (by decide), test_tSplice_issues _ rfl (by decide), by and_intros <;> decide⟩

/-- A staged packet of 256 bytes from the route 0x500. -/
def tPacket : Staged := ⟨0x500, 0, 256, 0, List.replicate 256 3, false⟩

/-- A context with it. -/
def tRx : Splicer := { tX with k := [(3, 0x500)], staged := [tPacket] }

/-- The pieces of the chunk of buffer 1: in DRAM, or in the fabric memory at which the heap then lies. -/
def tChunk (far : Bool) : List (Nat × Nat × Nat) := [(0x2000, if far then 2 ^ 55 + 2 ^ 43 + 0x2000 else 0x2000, 256)]

/-- The package whose context 0 has its heap in fabric memory. -/
def tFar (x : Splicer) : State := { tSplice x with ctxDesc := [(0, probeDesc ||| BitVec.ofNat 1024 ((2 ^ 55 + 2 ^ 43) * 2 ^ 192))] }

/-- The words of a context that issue with a full queue, with a chunk asked for, and with a verdict. -/
theorem witness_SpliceChunkWords_turns : Undisturbed (tSplice tX) ∧ SpliceIssues (tSplice tX) 0 tX ∧
    SpliceIssues (tSplice tRx) 0 tRx ∧
    (∀ tx : List TxChunk, SpliceIssues (tSplice { tX with tx := tx }) 0 { tX with tx := tx }) ∧
    (∀ (b : Bool) (v : Option Bool), SpliceIssues (tFar { tX with xl := some (tChunk true), asking := b, verdict := v }) 0
      { tX with xl := some (tChunk true), asking := b, verdict := v }) ∧
    SpliceIssues (tFar tX) 0 tX ∧ Undisturbed (tFar tX) :=
  ⟨test_tSplice_quiet _, test_tSplice_issues _ rfl (by decide), test_tSplice_issues _ rfl (by decide),
    fun _ => test_tSplice_issues _ rfl test_tX_free, fun _ _ => ⟨rfl, rfl, rfl, test_tX_free⟩, ⟨rfl, rfl, rfl, by decide⟩,
    ⟨by simp [tFar, tSplice, State.reset], by simp [tFar, tSplice, State.reset], by simp [tFar, tSplice, State.reset], rfl⟩⟩

/-- What the chunk words find of their descriptor, index, routes, chunk and packets. -/
theorem witness_SpliceChunkWords : (∀ i < 256, ∀ j < 256, placeOf (tChunk false) i = placeOf (tChunk false) j → i = j) ∧
    linkUpNow (tSplice tX) 0 = true ∧ bfOk (bfReg tX 1) = true ∧ (kReg tX 0).toNat ≤ bfCount (bfReg tX 1) ∧ tX.xl = none ∧
    spPieces (spliceTurn (tSplice tX) 0) (spOwner tX) needR (vPieces (bfBase (bfReg tX 1) + 0 * bfSize (bfReg tX 1)) 256) =
      .ok (tChunk false) ∧
    spPieces (spliceTurn (tFar tX) 0) (spOwner tX) needR (vPieces (bfBase (bfReg tX 1) + 0 * bfSize (bfReg tX 1)) 256) =
      .ok (tChunk true) ∧
    (tChunk true).any (fun p => isFabric p.2.1) = true ∧ (tChunk false).any (fun p => isFabric p.2.1) = false ∧
    bfSize (bfReg tX 1) = 256 ∧ ((tChunk true).map (fun p => p.2.2)).sum = 256 ∧ tX.got = 0 ∧ tX.verdict = none ∧
    piecesPoisoned (tSplice tX) (tChunk false) = false ∧
    piecesPoisoned { tSplice tX with poison := [0x2000] } (tChunk false) = true ∧
    routeOk (kReg tX 2) false = true ∧ routeOk (kReg tX 2) true = true ∧ tX.tx.length < 8 ∧
    routeOk (kReg tRx 3) false = true ∧ routeOk (kReg tRx 0) false = true ∧
    tX.staged.find? (fun p => p.src == routeKey 0) = none ∧
    tRx.staged.filter (fun p => p.src == routeKey (kReg tRx 3)) = [tPacket] ++ [] ∧
    (tPacket.data ≠ [] ∧ tPacket.data.length % 4 = 0 ∧ tPacket.bad = false ∧ tPacket.seqNo = 0) ∧
    tPacket.len = bfSize (bfReg tRx 1) ∧ ([tPacket].flatMap (·.data)).length = bfSize (bfReg tRx 1) ∧
    spPieces (spliceTurn (tSplice tRx) 0) (spOwner tRx) needW (vPieces 0x2000 256) = .ok (tChunk false) ∧
    spPieces (spliceTurn (tSplice tRx) 0) (spOwner tRx) needRW (vPieces 0x2000 256) = .ok (tChunk false) ∧
    bfFmt (bfReg tRx 1) = 0 := by
  refine ⟨?_, ?_⟩
  · intro i hi j hj h
    simp only [tChunk, placeOf, hi, hj, if_true] at h
    omega
  · and_intros <;> decide +kernel

/-- A start record of zeros but for PC 3 and EPOCH 7 in its control doubleword. -/
def tRecord (x : Splicer) : State := { tSplice x with mem := memPuts [] 0x3100 [3, 0, 7, 0] }

/-- A context that waits on the flag at 0x3000, which it has read in DRAM. -/
def tFlag : Splicer := { tX with wait := .flag, xl := some [(0x3000, 0x3000, 8)] }

theorem witness_SpliceFlagsAndCommands : Undisturbed (tSplice tX) ∧ SpliceIssues (tSplice tX) 0 tX ∧
    SpliceIssues (tSplice { tX with verdict := some true }) 0 { tX with verdict := some true } ∧ SpliceIssues (tFar tX) 0 tX ∧
    splRec (tSplice tX) 0 = tX ∧ poisoned (tSplice tX) 0x3000 8 = false ∧
    flagPa (spliceTurn (tSplice tX) 0) tX (kReg tX 1).toNat needR = .ok 0x3000 ∧
    flagPa (spliceTurn (tFar tX) 0) tX (kReg tX 1).toNat needR = .ok (2 ^ 55 + 2 ^ 43 + 0x3000) ∧
    isFabric (2 ^ 55 + 2 ^ 43 + 0x3000) = true ∧
    memNat (tSplice tX).mem 0x3000 8 = 0 ∧ tFlag.wait = .flag ∧ tFlag.verdict = none ∧
    flagPa (tSplice tFlag) tFlag (kReg tX 1).toNat needR = .ok 0x3000 ∧ spliceFetch (tSplice tFlag) 0 = .ok (.fwait 1 0 0) ∧
    flagPa (spliceTurn (tSplice tX) 0) tX (kReg tX 1).toNat needRW = .ok 0x3000 ∧
    spDue { tX with flight := [(1, 0)], sigs := [(1, 0x3000, 5)] } = some (1, 0) ∧
    tX.st ≠ spIdle ∧ linkOn (tRecord { tX with st := 0 }) 0 = true ∧ spEn { tX with st := 0 } = true ∧
    spPieces (tRecord { tX with st := 0 }) (spOwner tX) needR (vPieces 0x3000 264) = .ok [(0x3000, 0x3000, 264)] ∧
    controlBad (piecesBytes (tRecord { tX with st := 0 }) [(0x3000, 0x3000, 264)]) = false ∧
    field (BitVec.ofNat 64 (16 * 2 ^ 32)) 44 32 = 16 ∧ ({ tX with st := 3 } : Splicer).st = spStopped :=
  ⟨test_tSplice_quiet _, test_tSplice_issues _ rfl (by decide), test_tSplice_issues _ rfl (by decide),
    ⟨rfl, rfl, rfl, by decide⟩, rfl, by and_intros <;> decide +kernel⟩

/-- A context with a chunk of 8 bytes to send. -/
def tTx : Splicer := { tX with tx := [⟨0x500, none, 1, [1, 2, 3, 4, 5, 6, 7, 8], 0⟩] }

/-- A matching-table entry, unclaimed or claimed by the source 0x100 with 8 bytes come. -/
def tEntry (id : Nat) (tag : Word) (claimed : Bool) : MatchE :=
  ⟨id, probeWg, 0, tag, 0x2000, 0x3000, 64, 0, 0, claimed, if claimed then 8 else 0, if claimed then 0x100 else 0, false⟩

/-- An access outstanding to the line of 0x2000, and a warp that makes it. -/
def tAccess : Pend := ⟨5, 6, 1, [(0, 77)], 0x1004, 0, true, false, [(0, 0x2000, 0x2000)], 0, 0, []⟩

/-- That warp. -/
def tLine : Warp := tPend tAccess

theorem witness_FabricPacketsArrive : Undisturbed (tSplice tX) ∧ Undisturbed (tState tLine) ∧
    splRec (tSplice tTx) 0 = tTx ∧ linkUpNow (tSplice tTx) 0 = true ∧ txNext (tSplice tTx) 0 = some 0 ∧
    tTx.st ≠ spIdle ∧ (1 : Nat) ≠ tTx.epoch ∧ (0 : Nat) = tTx.epoch ∧ spEn tTx = true ∧ spEn Splicer.empty = false ∧
    Splicer.empty.st = spIdle ∧ tget tTx.inChunk 0x500 ≠ some 1 ∧ tTx.staged.length < 32 ∧
    32 ≤ ({ tTx with staged := List.replicate 32 tPacket } : Splicer).staged.length ∧
    ({ tX with wait := .verdict } : Splicer).wait = .verdict ∧ tX.st = spRunning ∧ tX.xl = none ∧ tX.wait ≠ .verdict ∧
    [tEntry 1 4 false, tEntry 2 5 false] = [tEntry 1 4 false] ++ tEntry 2 5 false :: [] ∧
    (∀ x ∈ [tEntry 1 4 false] ++ ([] : List MatchE), x.id ≠ (tEntry 2 5 false).id) ∧
    (∀ x ∈ [tEntry 1 4 false], ¬ (x.claimed = false ∧ x.ctx = 0 ∧ x.tag = 5 ∧ x.len = 64)) ∧
    ((tEntry 2 5 true).claimed = true ∧ (tEntry 2 5 true).src = ctxKey 1 0 0 ∧ (tEntry 2 5 true).got < 64) ∧
    (tEntry 2 5 true).got + 56 ≤ 64 ∧ (tEntry 2 5 true).dead = false ∧
    tget (tState tLine).warps 0 = some tLine ∧ (accessTo tLine.pend (0x2000 / 128)).isSome = true ∧
    (accessTo [tAccess] (0x2000 / 128)).isSome = true ∧
    tsorted (tSplice { tX with asking := true, xl := some (tChunk false) }).splicers = true ∧
    (∃ p ∈ tChunk false, p.2.1 / 128 ≤ 0x2080 / 128 ∧ 0x2080 / 128 ≤ (p.2.1 + p.2.2 - 1) / 128) := by
  refine ⟨test_tSplice_quiet _, ⟨?_, ?_, ?_, rfl⟩, rfl, ?_⟩
  all_goals (and_intros <;> decide +kernel)

theorem witness_Links : linkOn State.reset 0 = true ∧ linkOn { State.reset with dieEn := 0 } 0 = false ∧
    linkUpNow (tSplice tX) 0 = true ∧ (linkRec State.reset 0).errWidth < 3 ∧ (linkRec State.reset 0).balWidth < 3 ∧
    (linkRec State.reset 0).quiet < 99 ∧ 99 ≤ ({ Link.empty with quiet := 99 } : Link).quiet ∧
    (field (0x0B000000 : DWord) 13 0 = 0 ∧ field (0x0B000000 : DWord) 27 24 = 11) ∧
    (field (0x0A000000 : DWord) 13 0 = 0 ∧ field (0x0A000000 : DWord) 27 24 = 10) ∧ field (1 : DWord) 13 0 ≠ 0 ∧
    tget ({ Link.empty with limiters := [(5, 32)] } : Link).limiters 5 = some 32 ∧ tget Link.empty.limiters 5 = none := by
  and_intros <;> decide +kernel

/-- The test grid as one of several packages: rank 0, the gate not yet open. -/
def tMulti (stage : Nat) (opened : Bool) : Grid :=
  { probeGrid 0x1000 with
    hdr := probeHdr 0x1000 ||| BitVec.ofNat 1024 (2 ^ 363 + 2 ^ 408 + 9 * 2 ^ 576), stage := stage, gateOpen := opened }

/-- A package with this grid. -/
def tGate (g : Grid) : State := { tS with grids := [(1, g)] }

theorem witness_StartGate : tget (tGate (tMulti 7 false)).grids 1 = some (tMulti 7 false) ∧ hMulti (tMulti 7 false).hdr = true ∧
    (∀ e ∈ (tGate (tMulti 7 false)).grids, hMulti e.2.hdr = true → hMkey e.2.hdr = hMkey (tMulti 7 false).hdr →
      hGateFid e.2.hdr = hGateFid (tMulti 7 false).hdr → e.1 = 1) ∧
    (tMulti 7 false).rank = 0 ∧ 5 ≤ (tMulti 7 false).stage ∧ (tMulti 7 false).gateOpen = false ∧ (tMulti 7 false).claunch = none ∧
    ([] ++ [1] : List Nat).length ≤ hPkgs (tMulti 7 false).hdr ∧ hPkgs (tMulti 7 false).hdr < [1, 0].length ∧
    tget (tGate (tMulti 4 false)).grids 1 = some (tMulti 4 false) ∧ (tMulti 4 false).stage < 5 ∧
    tget (tGate (tMulti 7 true)).grids 1 = some (tMulti 7 true) ∧ (tMulti 7 true).gateOpen = true ∧
    cycleOf (tGate (tMulti 7 false)) 0 ≤ (tMulti 7 false).deadline ∧
    (tMulti 7 false).deadline < cycleOf { tGate (tMulti 7 false) with cycle := [(0, 5)] } 0 := by
  and_intros <;> decide +kernel

/-- Queue 0 of context 0, whose ring of 4 KiB stands at 0x10000 and whose range table of one entry at 0x30000. -/
def tQu : Queue :=
  { Queue.empty with desc := BitVec.ofNat 512 (1 + 12 * 2 ^ 29 + 0x10000 * 2 ^ 192 + 2 ^ 442 + 0x30000 * 2 ^ 448) }

/-- The entry of its range table, which grants all of the heap. -/
def tRange : BitVec 128 := BitVec.ofNat 128 ((2 ^ 20 - 1) * 2 ^ 64 + 7 * 2 ^ 120)

/-- A package that executes packets of this queue: the range table grants all of the heap; a launch header stands at
0x4000, an entry for SNAP at 0x5000. -/
def tQueue (x : Queue) : State :=
  { State.reset with
    ctxDesc := [(0, probeDesc)]
    ready := 0x3F
    coreEn := [(0, 0xF)]
    queues := [(0, x)]
    hwqs := [(0, { Hwq.empty with desc := 1 })]
    mem := memPuts (memPuts (memPuts [] 0x30000 (leBytes 16 tRange.toNat))
      0x4000 (leBytes 128 (probeHdr 0x1000).toNat)) 0x5000 (leBytes 16 (0x2000 + 2 ^ 64))
    issuer := .queue 0 }

theorem test_tQueue_quiet (x : Queue) : Undisturbed (tQueue x) :=
  ⟨by simp [tQueue, State.reset], by simp [tQueue, State.reset], by simp [tQueue, State.reset], rfl⟩

/-- The queue with loops, or three levels. -/
def tLoops (ls : List (Nat × Nat)) : Queue := { tQu with levels := [{ ringLevel tQu.desc with loops := ls }] }

/-- An operand of the queue, whose range table has the one entry, in memory at its own address. -/
theorem test_operand (n : Need) (va len : Nat) (hr : rangeOk [tRange] n va len = true)
    (hx : xlated (tQueue tQu) tQu n va len = .ok [(va, va, len)]) : OperandAt (tQueue tQu) tQu n va len [(va, va, len)] :=
  ⟨[tRange], by decide +kernel, hr, hx⟩

theorem witness_PacketsOfControl : Undisturbed (tQueue tQu) ∧
    OperandAt (tQueue tQu) tQu needR 0x4000 8 [(0x4000, 0x4000, 8)] ∧
    OperandAt (tQueue tQu) tQu needR 0x4000 4 [(0x4000, 0x4000, 4)] ∧ (tQueue tQu).issuer = .queue 0 ∧
    queueRec (tQueue tQu) 0 = tQu ∧ tQu.levels.length < 3 ∧
    3 ≤ ({ tQu with levels := List.replicate 3 (ringLevel 0) } : Queue).levels.length ∧
    (topLevel tQu).loops = [] ∧ (topLevel (tLoops (List.replicate 4 (0, 2)))).loops.length = 4 ∧
    (topLevel (tLoops [(0, 2)])).loops = [(0, 2)] ∧ (topLevel (tLoops [(0, 1)])).loops = [(0, 1)] ∧
    handleOk (tQueue tQu) (qCtx tQu.desc) 0x10000000 = true ∧ handleOk (tQueue tQu) (qCtx tQu.desc) 0 = false ∧
    coreOn (tQueue tQu) 0 = true ∧ coreOn (tQueue tQu) 5 = false ∧ hqEn (hwqRec (tQueue tQu) 0).desc = true ∧
    hqCtx (hwqRec (tQueue tQu) 0).desc = qCtx tQu.desc ∧ hqEn (hwqRec (tQueue tQu) 1).desc = false ∧
    (hwqRec (tQueue tQu) 0).waiters = [] ∧ (hwqRec (tQueue tQu) 0).recs.length + [List.replicate 8 (0 : Word)].length ≤ 32 ∧
    hqCap (hwqRec (tQueue tQu) 0) < (hwqRec (tQueue tQu) 0).recs.length + 34 ∧ tsorted (tQueue tQu).warps = true ∧
    (∀ e ∈ (tQueue tQu).warps, e.2.sstep = false) :=
  ⟨test_tQueue_quiet _, test_operand _ _ _ (by decide +kernel) (by decide +kernel),
    test_operand _ _ _ (by decide +kernel) (by decide +kernel), by and_intros <;> decide +kernel⟩

theorem witness_PacketsOfMemory : Undisturbed (tQueue tQu) ∧
    OperandAt (tQueue tQu) tQu needW 0x4000 8 [(0x4000, 0x4000, 8)] ∧
    (∀ i < 8, ∀ j < 8, placeOf [(0x4000, 0x4000, 8)] i = placeOf [(0x4000, 0x4000, 8)] j → i = j) ∧
    (tQueue tQu).issuer = .queue 0 ∧ queueRec (tQueue tQu) 0 = tQu ∧ rangeTable (tQueue tQu) tQu = .ok [tRange] ∧
    rangeTable { tQueue tQu with ctxDesc := [] } tQu = .error (.page 0x30000) ∧
    rangeOk [tRange] needW (2 ^ 40) 8 = false ∧ (tQueue tQu).poison = [] ∧ rangeOk [tRange] needRW 0x4000 8 = true ∧
    xlated (tQueue tQu) tQu needW 0x4000 8 = .ok [(0x4000, 0x4000, 8)] ∧
    xlated (tQueue tQu) tQu needRW 0x4000 8 = .ok [(0x4000, 0x4000, 8)] ∧
    (rangeOk [tRange] needR 0x5000 16 = true ∧ xlated (tQueue tQu) tQu needR 0x5000 16 = .ok [(0x5000, 0x5000, 16)]) ∧
    queueBusy (tQueue tQu) 0 = false ∧ queueBusy { tQueue tQu with grids := [(1, probeGrid 0x1000)] } 0 = true ∧
    leNat (piecesBytes (tQueue tQu) [(0x5000, 0x5000, 8)]) = 0x2000 ∧
    handleOk (tQueue tQu) (qCtx tQu.desc) 0x10000000 = true ∧ handleVal (tQueue tQu) (qCtx tQu.desc) 0x10000000 = 0 ∧
    (entriesOf (piecesBytes (tQueue tQu) [(0x5000, 0x5000, 16)])).map (·.toNat) = [0x10000000000002000] ∧
    (field (0x10000000000002000 : BitVec 128) 63 57 = 0 ∧ field (0x10000000000002000 : BitVec 128) 127 96 = 0 ∧
      field (0x10000000000002000 : BitVec 128) 56 0 = 0x2000 ∧ field (0x10000000000002000 : BitVec 128) 95 64 = 1) ∧
    rangeOk [tRange] needW 0x6000 128 = true ∧
    (snapLines (tQueue tQu) tQu (snapPairs 0x6000 [(0x2000, 1)])).toOption = some [(0x2000, 0x6000)] ∧
    snapOverlap (tQueue tQu) 0 [(0x2000, 1)] 0x6000 128 = false ∧ snapOverlap (tQueue tQu) 0 [(0x2000, 1)] 0x2000 128 = true := by
  refine ⟨test_tQueue_quiet _, test_operand _ _ _ ?_ ?_, ?_, ?_⟩
  · decide +kernel
  · decide +kernel
  · intro i hi j hj h
    simp only [placeOf, hi, hj, if_true] at h
    omega
  · and_intros <;> decide +kernel

theorem witness_Launches : Undisturbed (tQueue tQu) ∧ OperandAt (tQueue tQu) tQu needR 0x4000 128 [(0x4000, 0x4000, 128)] ∧
    (tQueue tQu).issuer = .queue 0 ∧ queueRec (tQueue tQu) 0 = tQu ∧
    BitVec.ofNat 1024 (leNat (piecesBytes (tQueue tQu) [(0x4000, 0x4000, 128)])) = probeHdr 0x1000 ∧
    refusalOf (tQueue tQu) 0 probeDesc (probeHdr 0x1000) 0 = none ∧
    refusalOf (tQueue tQu) 0 probeDesc (probeHdr 0x1000) 1 = some 0x77 ∧
    condsHold (tQueue tQu) 0 tQu.conds = true ∧ condsHold (tQueue tQu) 0 [(0x10000000, 5)] = false ∧
    hLeaseCnt (probeHdr 0x1000) = 0 ∧ hMulti (probeHdr 0x1000) = false ∧ probeDesc.getLsbD 3 = false ∧
    descOf (tQueue tQu) (qCtx tQu.desc) = probeDesc ∧
    (∀ a ∈ claunchReads 0x7000 0x4000 (lanesOf 1), rangeOk [tRange] a.1 a.2.1 a.2.2 = true) ∧
    (∀ l ∈ lanesOf 1, startable (tQueue tQu) (8 * l + 0) = true) ∧ recordsFail (tQueue tQu) tQu 0x7000 (lanesOf 1) = none ∧
    (∃ l ∈ lanesOf 1, startable { tQueue tQu with splicers := [(0, tX)] } (8 * l + 0) = false) :=
  ⟨test_tQueue_quiet _, test_operand _ _ _ (by decide +kernel) (by decide +kernel), by and_intros <;> decide +kernel⟩

/-- A package whose queue takes the launch of a grid through steps 3 and 4. -/
def tLaunching (g : Grid) : State :=
  { tQueue { tQu with launching := some 1, st := 2 } with grids := [(1, g)], pageFaults := [(65, 0x9000)] }

/-- The test grid in a stage. -/
def tStage (n : Nat) : Grid := { probeGrid 0x1000 with stage := n, page := some 0x9000, queue := 1, anyBegun := false }

/-- Sixteen queues with wait slots; queue 0 has held its slot longest, and all of them wait for a page. -/
def tSlots : State :=
  { State.reset with
    cycle := [(0, 200000)]
    queues := (List.range 16).map (fun i => (i, { Queue.empty with slot := some i, fetchPage := some 0, st := 2 })) }

/-- Queue 0 parked with a launch whose conditions hold, or at a fetch that waits; the other queues hold slots or not. -/
def tParked (ready full : Bool) : State :=
  { (if ready then tLaunching (tStage 3) else tSlots) with
    cycle := [(0, 200000)]
    queues := (0, { tQu with launching := if ready then some 1 else none, fetchPage := some 0, st := 3 }) ::
      if full then (List.range 16).map (fun i => (i + 1, { Queue.empty with slot := some i })) else [] }

/-- A snapshot with one line left. -/
def tSnap : State := { State.reset with ctxs := [(0, { Ctx.empty with snap := some ⟨[(0x2000, 0x6000)]⟩ })] }

/-- Hardware queue 0 while its ring is being made resident. -/
def tEnabling : State := { tQueue tQu with hwqs := [(0, { Hwq.empty with enabling := some 1 })] }

theorem witness_WaitsOfQueues : (∀ e ∈ tSlots.queues, ∀ u, e.2.slot = some u → e.1 ≠ 0 → 0 < u) ∧
    ((queueRec (tLaunching (tStage 3)) 0).launching = some 1 ∧ tget (tLaunching (tStage 3)).grids 1 = some (tStage 3) ∧
      (tStage 3).stage = 3 ∧ condsHold (tLaunching (tStage 3)) 0 (tStage 3).conds = true ∧
      (queueRec (tLaunching (tStage 3)) 0).st ≠ 3) ∧
    ((queueRec tSlots 0).fetchPage = some 0 ∧ (queueRec tSlots 0).st = 2 ∧
      (queueRec (tParked false false) 0).fetchPage = some 0 ∧ (queueRec (tParked false false) 0).st ≠ 2) ∧
    tget (tLaunching (tStage 4)).grids 1 = some (tStage 4) ∧ (tStage 4).page = some 0x9000 ∧ (tStage 4).stage = 4 ∧
    (∀ e ∈ (tLaunching (tStage 4)).wgs, e.2.stash = []) ∧
    (readLeases { tLaunching (tStage 4) with pageFaults := [] } 0 (tStage 4).desc (tStage 4).hdr).toOption = some [] ∧
    (walkLeases { tLaunching (tStage 4) with pageFaults := [] } (tStage 4).desc [] []).toOption = some [] ∧
    hMulti (tStage 4).hdr = false ∧ (queueRec (tLaunching (tStage 4)) (tStage 4).queue).launching ≠ some 1 ∧
    (match readLeases { tLaunching (tStage 4) with pageFaults := [] } 0 (tStage 4).desc
        ((tStage 4).hdr ||| BitVec.ofNat 1024 (2 ^ 448 + 2 ^ 40 / 64 * 2 ^ 454)) with
      | .error (.page a) => a == 2 ^ 40
      | _ => false) = true ∧ (tStage 4).desc.getLsbD 3 = false ∧
    (slotsHeld State.reset < 16 ∧ 16 ≤ slotsHeld tSlots ∧ conditionHolds tSlots 0 = false ∧
      (queueRec tSlots 0).slot = some 0 ∧ tget tSlots.queues 0 = some (queueRec tSlots 0) ∧
      tsorted tSlots.queues = true ∧ 0 + 64 * usClocks ≤ cycleOf tSlots 0) ∧
    (∀ ready ∈ [true, false], ∀ full ∈ [true, false], (queueRec (tParked ready full) 0).st = 3 ∧
      (queueRec (tParked ready full) 0).wants = none ∧ conditionHolds (tParked ready full) 0 = ready ∧
      decide (16 ≤ slotsHeld (tParked ready full)) = full ∧ tsorted (tParked ready full).queues = true ∧
      (queueRec (tParked ready full) 0).parkedAt + 64 * usClocks ≤ cycleOf (tParked ready full) 0 ∧
      ∀ e ∈ (tParked ready full).queues, e.2.wants = none) ∧
    ((hwqRec tEnabling 0).enabling = some 1 ∧ (ringWalk tEnabling 1 (ringPages 1)).toOption = some [0] ∧
      (hwqRec tEnabling 0).waiters = []) ∧
    (tSnap.wgs = [] ∧ tSnap.mailboxes = [] ∧ (ctxRec tSnap 0).snap = some ⟨(0x2000, 0x6000) :: []⟩) ∧
    tSnap.ctxs.all (fun e => e.2.snap.all (fun n => n.todo.all (fun y =>
      decide (y.1 + 128 ≤ 0x6000) || decide (0x6000 + 128 ≤ y.1)))) = true := by
  refine ⟨?_, ?_⟩
  · intro e he u hu hne
    simp only [tSlots, List.mem_map, List.mem_range] at he
    obtain ⟨i, -, rfl⟩ := he
    simp only [Option.some.injEq] at hu
    subst hu
    exact Nat.pos_of_ne_zero hne
  · and_intros <;> decide +kernel

/-- The test grid before the placement of its one gang. -/
def tWait : Grid := { probeGrid 0x1000 with stage := 5, nextGang := 0, lastGang := 1, anyBegun := false }

/-- A package of four cores that places it. -/
def tPlace : State := { tQueue tQu with grids := [(1, tWait)] }

/-- The test grid after its last workgroup, with two deferred adds. -/
def tEnd : Grid := { probeGrid 0x1000 with adds := [⟨⟨probeWg, false, 1, false⟩, 0x2000, 0, 0x3F800000, false⟩,
  ⟨⟨probeWg, false, 0, false⟩, 0x2000, 0, 0x40000000, false⟩] }

/-- A package with it. -/
def tOver : State := { tQueue tQu with grids := [(1, tEnd)] }

/-- The package of the ended grid with an access of it outstanding. -/
def tLoose : Grid := { probeGrid 0x1000 with loads := [⟨probeWg, 0, .launch, true, tAccess⟩] }

theorem witness_GridsFromPlacementToEnd : Undisturbed tOver ∧
    List.Perm [(⟨⟨probeWg, false, 0, false⟩, 0x2000, 0, 0x40000000, false⟩ : DAdd),
      ⟨⟨probeWg, false, 1, false⟩, 0x2000, 0, 0x3F800000, false⟩] tEnd.adds ∧
    tget tPlace.grids 1 = some tWait ∧ tPlace.grids = [(1, tWait)] ∧
    (placeNext tOver 0).isNone = true ∧ tWait.stage = 5 ∧ hMulti tWait.hdr = false ∧ tWait.claunch = none ∧
    tWait.nextGang + 1 = tWait.lastGang ∧ placesNow tPlace tWait.ctx = true ∧ (ctxRec tPlace tWait.ctx).saved = [] ∧
    (pickPlace tPlace (gangRoom tWait.hdr) 2) = some [2] ∧ hGangSize tWait.hdr = 1 ∧ tPlace.wgs = [] ∧
    gridEnded tPlace 1 tWait = false ∧ tget tOver.grids 1 = some tEnd ∧ gridEnded tOver 1 tEnd = true ∧
    [(⟨⟨probeWg, false, 0, false⟩, 0x2000, 0, 0x40000000, false⟩ : DAdd),
      ⟨⟨probeWg, false, 1, false⟩, 0x2000, 0, 0x3F800000, false⟩].Pairwise (fun a b => keyLt (addKey a) (addKey b) = true) ∧
    gridEnded { tOver with grids := [(1, probeGrid 0x1000)] } 1 (probeGrid 0x1000) = true ∧
    ((probeGrid 0x1000).adds = [] ∧ (probeGrid 0x1000).loads = []) ∧
    (gridEnded { tOver with grids := [(1, tLoose)] } 1 tLoose = true ∧ tLoose.adds = [] ∧ tLoose.loads ≠ []) ∧
    (∀ e ∈ tOver.cores, ∀ x ∈ e.2.copies, serialOf x.wg ≠ 1) ∧ killable tOver 1 tEnd = false ∧ killable tPlace 1 tWait = true ∧
    tWait.desc.getLsbD 3 = false := by
  refine ⟨⟨?_, ?_, ?_, rfl⟩, ?_⟩
  all_goals (and_intros <;> decide +kernel)

/-- A package whose context has some record, and a save area. -/
def tCtx (x : Ctx) : State := { tDesc (BitVec.ofNat 1024 (64 * 2 ^ 512)) with ctxs := [(0, x)] }

/-- Continuity mode. -/
def tCont : State := tDesc 2

theorem witness_DrainsFreezesAndRounds : Undisturbed (tCtx Ctx.empty) ∧
    (∀ k w, tget (tCtx { Ctx.empty with frozen := true }).warps k = some w →
      latePends (tCtx { Ctx.empty with frozen := true }) k w.pend = []) ∧
    (ctxRec (tCtx { Ctx.empty with drained := true }) 0).drained = true ∧
    (ctxRec (tCtx Ctx.empty) 0).drain = none ∧ (ctxRec (tCtx Ctx.empty) 0).drained = false ∧
    residents State.reset 0 = [] ∧ residents (tCtx Ctx.empty) 0 = [probeWg] ∧ memberYields (tCtx Ctx.empty) probeWg = false ∧
    (ctxRec (tCtx { Ctx.empty with drain := some 5 }) 0).drain = some 5 ∧
    tsorted (tCtx { Ctx.empty with drain := some 5 }).warps = true ∧
    (∀ e ∈ (tCtx { Ctx.empty with drain := some 5 }).warps, e.2.sstep = false ∧ futLanes e.2 = 0 ∧
      tsorted e.2.threads = true) ∧
    cycleOf (tCtx { Ctx.empty with drain := some 5 }) 0 < 5 ∧ (0 : Nat) ≤ cycleOf (tCtx { Ctx.empty with drain := some 0 }) 0 ∧
    tget (tCtx Ctx.empty).warps 0 = some tW ∧ ctxOfWg (tCtx Ctx.empty) tW.wg = 0 ∧ tW.pend = [] ∧
    (∀ e ∈ (tCtx Ctx.empty).cores, ∀ y ∈ e.2.copies, ctxOfWg (tCtx Ctx.empty) y.wg ≠ 0) ∧
    saveRoom (tCtx Ctx.empty) 0 (coreOf 0) (warpBytes tW) = true ∧
    (ctxRec (tCtx Ctx.empty) 0).saved = [] ∧ (ctxRec (tCtx { Ctx.empty with frozen := true }) 0).frozen = true ∧
    (∀ e ∈ (tCtx { Ctx.empty with frozen := true }).grids, e.2.loads = []) ∧
    contCtx tS 0 = false ∧ contCtx tCont 0 = true ∧ tCont.round = [] ∧ formBefore tCont = tCont ∧ wakeAll tCont 0 = tCont ∧
    ((agents tCont 0).map (·.2)).filter (agentGoes tCont) = [.warp 0] := by
  refine ⟨⟨?_, ?_, ?_, rfl⟩, ?_, ?_⟩
  · decide +kernel
  · decide +kernel
  · decide +kernel
  · intro k w h
    have hw : w = tW := by
      simp only [tCtx, tDesc, tS, tState, tget] at h
      revert h
      by_cases hk : k = 0
      · subst hk; intro h; exact (Option.some.inj h).symm
      · intro h; simp [Ne.symm hk] at h
    subst hw
    rfl
  · and_intros <;> decide +kernel

/-- A package that captures: its state, its types, and STALL samples on; buffer at 0x100000. -/
def tCap (st : Nat) (types : DWord) (cfg : DWord) : State :=
  { tS with capState := st, capTypes := types, capCfg := cfg, capBase := 0x100000, dieEn := 1 }

/-- The partition's sampler has an exit on record in the slot that is next, or has taken this interval's sample. -/
def tSampled (key : Nat) (m : Sampler) : State := { tCap 1 0 0x1000000 with samplers := [(key, m)] }

theorem witness_DebugAndCapture : (tCap 1 0 0).capState < 4 ∧ (tCap 1 0 0).capTypes.getLsbD 5 = false ∧
    (tCap 1 32 0).capTypes.getLsbD 5 = true ∧ (tCap 1 32 0).capState = 1 ∧ (tCap 1 32 0).dieEn = 1 ∧
    (tCap 1 32 0).capLaunch.getLsbD 32 = false ∧ (tCap 1 32 0).capWgLo.getLsbD 63 = false ∧
    (tCap 1 32 0).capCfg.getLsbD 8 = false ∧ (tCap 1 32 0).capOff < 2 ^ 16 ∧ (tCap 1 0 0).capCfg.getLsbD 24 = false ∧
    (tgetD Sampler.empty (tCap 1 0 0x1000000).samplers 4).interval ≠ 1 + cycleOf (tCap 1 0 0x1000000) 0 / 2 ^ 8 ∧
    (tgetD Sampler.empty (tSampled 4 { Sampler.empty with interval := 1 }).samplers 4).interval =
      1 + cycleOf (tCap 1 0 0x1000000) 0 / 2 ^ 8 ∧
    (tCap 1 0 0x1000000).capCfg.getLsbD 24 = true ∧ field (tCap 1 0 0x1000000).capCfg 20 16 = 0 ∧
    tget (tCap 1 0 0x1000000).warps (64 * 1 + 16 * 0 + 0) = none ∧ tget (tCap 1 0 0x1000000).warps (64 * 0 + 16 * 0 + 0) = some tW ∧
    tget (tgetD Sampler.empty (tSampled 4 { Sampler.empty with
      exited := [(0, 0x1000, ⟨probeWg, false, 0, false⟩, 0)] }).samplers 4).exited 0 ≠ none ∧
    (tCap 1 0 0x1000000).capTypes.getLsbD 1 = false ∧ (tCap 2 2 0x1000000).capTypes.getLsbD 1 = true ∧
    (tCap 2 2 0x1000000).capState = 2 ∧ tsorted tW.threads = true ∧ ctxOfWg (tTrap 1) tW.wg = 0 ∧
    (dbgOf (tTrap 1) tW.wg).testBit 0 = true ∧ tget (tTrap 1).warps 0 = some tW ∧
    dbgNamed { tTrap 1 with dbgArg0 := 1 } 0 tW = true := by
  and_intros <;> decide +kernel

theorem witness_HostRegisters : (8 : Word).toNat % 4 = 0 ∧ (8 : Word).toNat < 2 ^ qLog (queueRec (tQueue tQu) 0).desc ∧
    (6 : Word).toNat % 4 ≠ 0 ∧ (queueRec (tQueue { tQu with st := 2 }) 0).st = 2 ∧ tQu.st ≠ 2 ∧ tQu.st ≠ 3 ∧ tQu.fresh = none ∧
    (hwqRec (tQueue tQu) 1).enabling = none ∧ hqEn (hwqRec (tQueue tQu) 1).desc = false ∧
    hqEn (hwqRec (tQueue tQu) 0).desc = true ∧ (hwqRec (tQueue tQu) 0).enabling = none ∧
    1 / 2 ^ 3 % 2 = field (descOf (tQueue tQu) 0) 3 3 ∧ (descOf (tQueue tQu) 0).getLsbD 0 = true ∧
    ctxClean (descOf (tQueue tQu) 0) = descOf (tQueue tQu) 0 ∧
    (descOf (tQueue tQu) 1).getLsbD 0 = false ∧ 8 / 2 ^ 3 % 2 ≠ field (descOf tS 0) 3 3 ∧ confFree tS 0 = false ∧
    evEn tS = false ∧ (0x80000000 : DWord).getLsbD 31 = true ∧ evEn { tS with evCfg := 0x80000000 } = true ∧
    (2 : Nat) ≠ 4 ∧ (4 : Nat) % 8 ≠ 0 := by
  and_intros <;> decide +kernel

/-- Every rung resets something of this package: a grid of queue 0 with a copy in flight, a splicer context, memory of
die 0. -/
theorem witness_Resets : (∃ e ∈ tFlight.grids, e.2.queue = 0) ∧
    (∃ e ∈ tFlight.grids, ∃ c ∈ tFlight.cores, ∃ x ∈ c.2.copies, serialOf x.wg = e.1 ∧ x.handle = queueHandle 0) ∧
    queueHandle 0 / 2 ^ 28 = 2 ∧ (0x30000000 : Word).toNat / 2 ^ 28 = 3 ∧ (0x40000000 : Word).toNat / 2 ^ 28 = 4 ∧
    (splRec (tSplice tX) 0).st ≠ 0 ∧ memByte (tQueue tQu).mem 0x5001 ≠ memDefault ∧ State.reset.grids = [] ∧
    State.reset.posted = [] :=
  ⟨⟨_, List.mem_singleton.mpr rfl, rfl⟩, by and_intros <;> decide +kernel⟩

/-- An image that the root's signature check accepts (a free value, log 6) meets the rest; one of no bytes never does. -/
theorem witness_FirmwareErrorsAndPower : Undisturbed State.reset ∧
    (∀ image, Config.sigValid image = true → image ≠ [] →
      Config.sigValid image = true ∧ State.reset.minVersion ≤ 0 ∧ image ≠ []) ∧
    (∀ version, ¬ (Config.sigValid [] = true ∧ State.reset.minVersion ≤ version ∧ ([] : List Byte) ≠ [])) ∧
    State.reset.takeover = false ∧
    ({ State.reset with takeover := true } : State).takeover = true ∧ (∀ e ∈ State.reset.queues, e.2.launching = none) ∧
    (∃ e ∈ (tLaunching (tStage 3)).queues, e.2.launching ≠ none) ∧ unitOn State.reset 0 = true ∧ unitOn State.reset 8 = false ∧
    State.reset.ready.getLsbD 0 = false ∧ (tQueue tQu).ready.getLsbD 0 = true ∧
    evEn State.reset = false ∧ linkUpNow (tSplice tX) 0 = true ∧ tget tS.grids 1 ≠ none ∧
    (∀ p ∈ granulePieces 0x1FFFFE 4, physOk State.reset p.1 = true ∧ physOk State.reset (p.1 + p.2 - 1) = true) ∧
    (∃ p ∈ granulePieces (2 ^ 39) 4, physOk State.reset p.1 = false) ∧
    (∀ e ∈ State.reset.queues, (topLevel e.2).ahead = []) ∧ boundTo State.reset 0x2000 = none ∧
    boundTo { State.reset with ctxs := [(5, { Ctx.empty with granules := [0] })] } 0x2000 = some 5 ∧ linkOn State.reset 0 = true := by
  refine ⟨⟨?_, ?_, ?_, rfl⟩, fun _ h n => ⟨h, Nat.le_refl 0, n⟩, fun _ h => h.2.2 rfl, ?_⟩
  · decide
  · decide
  · decide
  · and_intros <;> decide +kernel

/-- A special register that is not there is a fault of the test warp. -/
theorem test_fault : Does (.getsr 5 0x30) tS 0 tW (.fault 0x3B 0 (low (clearPass tW)) 0) := by
  have h : exec (.getsr 5 0x30) tS = laneWord tS [5] (fun s k w =>
      if 0x21 ≤ (0x30 : Fld).toNat then .fault 0x3B 0 (low w) 0
      else .next (setWarp s k (mapLanes (latch s k w 0x30) 5 (fun l => special s k w 0x30 l)))) := rfl
  have d := does_of_laneWord (test_tS_issues [5] rfl) h
  rwa [if_pos (by decide)] at d

theorem witness_FaultsEndTheGrid : Does (.getsr 5 0x30) tS 0 tW (.fault 0x3B 0 (low (clearPass tW)) 0) ∧
    tget tS.grids (serialOf tW.wg) = some (probeGrid 0x1000) ∧ takeFault 0x3B = false ∧
    (members tW).getLsbD 0 = false ∧ (probeGrid 0x1000).desc.getLsbD 3 = false :=
  ⟨test_fault, by have h : serialOf tW.wg = 1 := by decide +kernel
                  rw [h]; rfl, by decide +kernel, by decide +kernel, by decide +kernel⟩

/-- The test warp in step mode. -/
def tStep : Warp := { tW with sstep := true }

/-- The test state with a breakpoint at the test warp's word. -/
def tAbp : State := tDesc (BitVec.ofNat 1024 ((1 + 256) * 2 ^ 736 + 0x1004 * 2 ^ 768))

theorem witness_DebugTraps : tget tAbp.warps 0 = some tW ∧ NoMember tW ∧ dbgOf tAbp tW.wg / 64 % 4 = 0 ∧
    anyPending tW [5] = false ∧ abpLanes tAbp tW ≠ 0 ∧ tget (tState tStep).warps 0 = some tStep ∧ NoMember tStep ∧
    dbgOf (tState tStep) tStep.wg / 64 % 4 = 0 ∧
    (∀ l, tStep.act.getLsbD l = true → ∃ x, thr tStep l = some x ∧ x.wait = .none) ∧ tsorted tStep.threads = true ∧
    tStep.sstep = true ∧ Issues (tState tStep) 0 tStep [] :=
  ⟨rfl, test_noMember, by decide +kernel, by decide, by decide +kernel, rfl, by unfold NoMember; decide +kernel, by decide +kernel,
    test_act ⟨tThread 0, rfl, rfl⟩ ⟨tThread 1, rfl, rfl⟩, by decide +kernel, rfl, ⟨rfl, rfl, rfl, rfl, by decide +kernel⟩⟩

/-- The test warp whose clause is one NOP. -/
def tNop : Warp := { tW with code := [0x7A000000] }

/-- Queue 0 enabled, with a NOP packet of one word in its ring. -/
def tRing : Queue := { tQu with desc := tQu.desc ||| BitVec.ofNat 512 (2 ^ 48 + 4 * 2 ^ 288), st := 1 }

/-- The test warp in a round of continuity mode. -/
def tRound : State := { tDesc 2 with warps := [(0, tNop)], round := [.warp 0] }

theorem witness_StepRunsWhatIsDecoded : (∀ i r, State.reset.turns ≠ .ev i :: r) ∧ tS.stopped = false ∧ tS.events = [] ∧
    tS.round = [] ∧ ({ tState tNop with turns := [.warp 0] } : State).turns = .warp 0 :: [] ∧
    tget (tState tNop).warps 0 = some tNop ∧ mayIssue { tState tNop with turns := [.warp 0] } tNop = true ∧
    contOfWg (tState tNop) tNop.wg = false ∧ standsBack (tState tNop) 0 tNop = false ∧
    outranked (tState tNop) 0 tNop = false ∧ tNop.act ≠ 0 ∧ tNop.code[(curPC tNop).idx - 1]? = some 0x7A000000 ∧
    decodeLaneWord 0x7A000000 tNop.code[(curPC tNop).idx]? = .ok .nop ∧
    tget tClause.warps 0 = some tIdle ∧ mayIssue { tClause with turns := [.warp 0] } tIdle = true ∧
    standsBack tClause 0 tIdle = false ∧ outranked tClause 0 tIdle = false ∧ tIdle.act = 0 ∧
    contOfWg tClause tIdle.wg = false ∧
    (tRound.stopped = false ∧ tRound.events = [] ∧ tRound.round = .warp 0 :: [] ∧ tget tRound.warps 0 = some tNop ∧
      mayIssue tRound tNop = true ∧ contOfWg tRound tNop.wg = true ∧ warpReady tRound 0 = true) ∧
    seqOf (tSeq { tQ with code := [0x45000000] }) 0 = some { tQ with code := [0x45000000] } ∧
    wgRuns (tSeq { tQ with code := [0x45000000] }) tQ.wg = true ∧ contOfWg (tSeq tQ) tQ.wg = false ∧ tQ.held = false ∧
    tQ.halted = false ∧ tQ.pc.idx ≠ 0 ∧
    ([0x45000000] : List Word)[tQ.pc.idx - 1]? = some 0x45000000 ∧ decodeStreamWord 0x45000000 none = .ok .sqhalt ∧
    spChosen (tSplice tX) (0 / 8) = some 0 ∧ spLimit (splRec (tSplice tX) 0) > (splRec (tSplice tX) 0).pc ∧
    (splRec (tSplice tX) 0).word = none ∧ decodeSplice (windowWord (tSplice tX) 0 tX tX.pc 0) = .ok (.fwait 1 0 0) ∧
    (match queueFetch { tQueue tRing with lead := ([1], 0) } 0 with | .packet i _ => decide (i = .packetNop 0) | _ => false) = true ∧
    isWord .alignmentPulse = false ∧ isWord .nop = true ∧ ({ State.reset with stopped := true } : State).stopped = true := by
  refine ⟨fun _ _ h => ?_, ?_⟩
  · cases h
  · and_intros <;> decide +kernel

/-- Reset memory has the canonical form; so does memory after a write, and one with a listed default, or in disorder, has
it not. -/
theorem witness_StepsKeepMemoryCanonical : Memory.wf State.reset.mem = true ∧ Memory.wf (tQueue tQu).mem = true ∧
    Memory.wf [⟨5, memDefault⟩] = false ∧ Memory.wf [⟨5, 1⟩, ⟨4, 1⟩] = false :=
  ⟨rfl, by decide +kernel, by decide +kernel, by decide +kernel⟩

/-- A side in LM whose ranges are there, in the form that can be evaluated. -/
def lmSideOk (s : State) (wg : Nat) (x : Side) (ps : List (Nat × Nat)) : Bool :=
  ps.all (fun p => (lmAt s wg (x.at_ + p.1) p.2).any (fun e => !stashAlias s e.1 e.2 p.2))

/-- What `lmSideOk` finds is what `MayMove` asks of a side in LM. -/
theorem test_moveLm {s : State} {wg a : Nat} {n : Need} {ps : List (Nat × Nat)} (h : lmSideOk s wg ⟨true, a⟩ ps = true) :
    MayMove s wg n ⟨true, a⟩ ps := by
  refine ⟨fun _ p hp => ?_, fun h => by cases h⟩
  have h1 := List.all_eq_true.mp h p hp
  revert h1
  cases he : lmAt s wg (a + p.1) p.2 with
  | none => simp
  | some e => exact fun h1 => ⟨e.1, e.2, rfl, by simpa using h1⟩

/-- The checks of the pieces of a side in global memory can be evaluated as they stand. -/
theorem test_moveMem {s : State} {wg a : Nat} {n : Need} {ps : List (Nat × Nat)}
    (h : ∀ p ∈ ps, ∀ q ∈ vPieces (a + p.1) p.2,
      q.1 + q.2 ≤ 2 ^ 57 ∧ leaseFault s wg n q.1 q.2 = none ∧ physFault s wg q.1 q.2 = false) : MayMove s wg n ⟨false, a⟩ ps :=
  ⟨fun h => (by cases h), fun _ => h⟩

/-- An element that is ready, in the form that can be evaluated. -/
def unitOk (s : State) (wg a n : Nat) : Bool :=
  (lmAt s wg a n).any (fun e => !stashAlias s e.1 e.2 n && !poisoned s (lmPlace e.1 e.2) n)

/-- Without scales such a unit is what `ElementReady` asks for. -/
theorem test_element {s : State} {wg : Nat} {r : BitVec 512} {d : List Nat} (hs : shScale r = 0)
    (h : unitOk s wg (unitAddr r d) (unitBytes (shFmt r)) = true) : ElementReady s wg r d := by
  unfold unitOk at h
  revert h
  cases he : lmAt s wg (unitAddr r d) (unitBytes (shFmt r)) with
  | none => simp
  | some e =>
    intro h
    rw [Option.any_some, Bool.and_eq_true] at h
    exact ⟨⟨e.1, e.2, he, by simpa using h.1, by simpa using h.2⟩, fun h => absurd hs h⟩

/-- The conditions of the copy words: the two sides of each copy of `tCopy`. -/
theorem witness_FormsComplete_copies : NoMember tCw ∧ Issues tCopy 0 tCw ([192] ++ [4] ++ pair 6 ++ [8]) ∧
    Issues tCopy 0 tCw ([192] ++ [4] ++ pair 6 ++ pair 8) ∧ Issues tCopy 0 tCw ([192] ++ pair 4) ∧
    Issues tCopy 0 tCw ([192, 4] ++ pair 6 ++ [9]) ∧
    MayMove tCopy tCw.wg needW ⟨true, 0x2000⟩ [(0, 16)] ∧ MayMove tCopy tCw.wg needR ⟨false, 0x3000⟩ [(0, 16)] ∧
    MayMove tCopy tCw.wg needW ⟨true, 0x2000⟩ [(0, 17 * 1 * 4)] ∧
    MayMove tCopy tCw.wg needR ⟨false, 0x3000⟩ ((List.range 17).map (fun r => (r * 4, 1 * 4))) ∧
    MayMove tCopy tCw.wg needW ⟨false, 0x2000⟩ [(0, (bulkUnits tSh).length * 4)] ∧
    MayMove tCopy tCw.wg needR ⟨false, shBase tSh⟩ ((bulkUnits tSh).map (fun u => (u.2, 4))) ∧
    MayMove tCopy tCw.wg needW ⟨true, 0x2000⟩ [(0, (tileUnits tSh 0 0).length * 4)] ∧
    MayMove tCopy tCw.wg needR ⟨false, shBase tSh⟩ (((tileUnits tSh 0 0).filter (·.2.2)).map (fun u => (u.2.1, 4))) ∧
    (∀ x, tCw.act.getLsbD x = true → (rd64 tCw 6 x).toNat < 2 ^ 57 ∧ (rd64 tCw 6 x).toNat % 4 = 0 ∧
      leaseFault tCopy tCw.wg needR (rd64 tCw 6 x).toNat 4 = none ∧ physFault tCopy tCw.wg (rd64 tCw 6 x).toNat 4 = false ∧
      MayMove tCopy tCw.wg needW ⟨true, (rd tCw 4 0).toNat⟩ [(x * 4, 4)]) ∧
    tCw.sstep = false ∧ tCw.act ≠ 0 ∧ contOfWg tCopy tCw.wg = false ∧ (coreRec tCopy 0).copies.length < 512 := by
  refine ⟨test_tCw_noMember, test_tCopy_issues _ rfl, test_tCopy_issues _ rfl, test_tCopy_issues _ rfl, test_tCopy_issues _ rfl,
    test_moveLm ?_, test_moveMem ?_, test_moveLm ?_, test_moveMem ?_, test_moveMem ?_, test_moveMem ?_, test_moveLm ?_,
    test_moveMem ?_, test_act ⟨?_, ?_, ?_, ?_, test_moveLm ?_⟩ ⟨?_, ?_, ?_, ?_, test_moveLm ?_⟩, ?_⟩
  all_goals (and_intros <;> decide +kernel)

/-- The conditions of the words of mailboxes, match entries and censuses that their own witnesses do not show. -/
theorem witness_FormsComplete_words :
    (∀ x, tMw.act.getLsbD x = true → (rd64 tMw 4 x).toNat % 8 = 0 ∧
      MayMove (tMbx false) tMw.wg needR ⟨false, (rd64 tMw 4 x).toNat⟩ [(0, 8)]) ∧
    (∀ x, tMw.act.getLsbD x = true → (rd64 tMw 4 x).toNat % 64 = 0 ∧
      MayMove (tMbx false) tMw.wg needW ⟨false, (rd64 tMw 4 x).toNat⟩ [(0, (rd tMw 7 x).toNat)]) ∧
    (let cen : Census := { tCen with todo := [] }
     (∀ x, tNw.act.getLsbD x = true → censusOf (tCensus cen) 0 (rd tNw 3 x) = some cen) ∧
     cen.todo = [] ∧ cen.due = [] ∧ cen.fabricDone = true ∧ (tCensus cen).transit = []) ∧
    tMw.sstep = false ∧ tMw.act ≠ 0 ∧ contOfWg (tMbx false) tMw.wg = false ∧ (tRw false).act ≠ 0 ∧
    contOfWg (tCensus tCen) tNw.wg = false ∧ contOfWg (tState (tRw false)) (tRw false).wg = false := by
  refine ⟨test_act ⟨?_, test_moveMem ?_⟩ ⟨?_, test_moveMem ?_⟩, test_act ⟨?_, test_moveMem ?_⟩ ⟨?_, test_moveMem ?_⟩,
    ⟨test_act ?_ ?_, ?_⟩, ?_⟩
  all_goals (and_intros <;> decide +kernel)

/-- The conditions of the words of a stream, of an arrival of a census without an entry, and of the events. -/
theorem witness_FormsComplete :
    (∀ i < 128, ∀ j < 128, inside (tShape 1) [i, j] = true → ElementReady (tSeq tQ) tQ.wg (tShape 1) [i, j]) ∧
    MayMove (tSeq tQ) tQ.wg needR ⟨false, shBase (tShape 1)⟩ ((imageUnits (tShape 1)).map (fun u => (u.2, 2))) ∧
    (tQ.spoilt = [] ∧ shBase (tShape 1) < 2 ^ 32 ∧ shScale (tShape 1) = 0 ∧ shTrans (tShape 1) = false) ∧
    (qReg tQ 0).toNat % 64 = 0 ∧ (qReg tQ 0).toNat + (imageUnits (tShape 1)).length * 2 ≤ 524288 ∧
    (tSeq tQ).poison = [] ∧ (tFlight.poison = [] ∧ cycleOf tFlight (dieOf 0) ≤ tMove.issued + remoteLimit) ∧
    (∀ e ∈ (coreRec (tCensus tCen) 0).kdir, censusHits (tCensus tCen) { tCen with key := 8 } e = false) := by
  refine ⟨?_, test_moveMem ?_, ?_⟩
  · intro i hi j hj h
    refine test_element (by decide +kernel) ?_
    revert i j
    decide +kernel
  all_goals (and_intros <;> decide +kernel)

/-! Witnesses for the further clauses of some statements, in the order of the statements. -/

/-- Numbers in every order, zeros, and the sign classes of FCLASS. -/
theorem witness_FlaglessFloating_orders : fcompare (fdec fp32 0x40000000) (fdec fp32 0x3F800000) = .gt ∧
    (fcompare (fdec fp32 0x3F800000) (fdec fp32 0x3F800000) = .eq ∧
      ¬ ((0x3F800000 : Word) &&& 0x7FFFFFFF = 0 ∧ (0x3F800000 : Word) &&& 0x7FFFFFFF = 0)) ∧
    ((0x80000000 : Word) &&& 0x7FFFFFFF = 0 ∧ (0 : Word) &&& 0x7FFFFFFF = 0) ∧
    (0x7F800000 : Word).extractLsb' 23 8 = (0xFF : BitVec 8) ∧ (0x00000001 : Word).extractLsb' 23 8 = (0 : BitVec 8) := by
  and_intros <;> decide +kernel

/-- The test warp between clauses, with values in w0 and w1. -/
def tHdrW (w0 w1 : Word) : Warp := { tIdle with w := [(0, w0), (1, w1)] }

/-- A package whose warp, between clauses, stands at a clause of one NOP with this header; it has two barriers and future 3,
pending in generation 1. -/
def tAtHeader (x : Word) (w : Warp) : State :=
  { tState w with
    grids := [(1, { probeGrid 0x1000 with
      desc := probeDesc ||| BitVec.ofNat 1024 (12 * 2 ^ 59), hdr := probeHdr 0x1000 ||| ((2 : BitVec 1024) <<< 436) })]
    ctxs := [(0, { Ctx.empty with futures := [(3, ⟨1, 1, 0⟩)] })]
    mem := memPuts [] 0x1000 (bytesOf [x, 0x7A000000]) }

/-- What a fetch of the clause gives, whatever the other warps are. -/
theorem test_atHeader (x : Word) (w : Warp) (ks : Tbl Warp) :
    fetchClause { tAtHeader x w with warps := ks } w.wg false 0x1000 = fetchClause (tAtHeader x w) w.wg false 0x1000 :=
  fetchClause_warps _ ks (by simp [tAtHeader, tState, probeWorkgroup]) _ _ _

/-- A fetch that faults; for each kind of wait one that is wrong, one that is not met and one that is. -/
theorem witness_ClausesAndWaits_waits :
    (fetchClause (tAtHeader 0xA6000021 tIdle) tIdle.wg false 0x1000 = .error (1, 0x1000, 0) ∧ takeFault 1 = false ∧
      lateOf (tAtHeader 0xA6000021 tIdle) (serialOf tIdle.wg) = []) ∧
    (∀ x ∈ ([0xA5002121, 0xA5001121, 0xA5000221, 0xA5000321, 0xA5000421, 0xA5000521] : List Word), 
      fetchClause (tAtHeader x tIdle) tIdle.wg false 0x1000 = .ok (unpackHeader x, [0x7A000000]) ∧
      anyPending tIdle (headerRegs (unpackHeader x)) = false) ∧
    anyPending (tPend { tLoad true with reg := 192 }) (headerRegs (unpackHeader 0xA5000421)) = true ∧
    (hNbar (hdrOf (tAtHeader 0xA5002121 tIdle) tIdle.wg) ≤ 2 ∧
      barDone { probeWorkgroup with bars := [(1, Barrier.fresh 2)] } 1 0 = false ∧
      barDone { probeWorkgroup with bars := [(1, { Barrier.fresh 2 with phase := 1 })] } 1 0 = true) ∧
    (anyPending (tPend { tToken with reg := 192 }) [192] = true ∧ anyPending tIdle [192] = false) ∧
    (handleOk (tAtHeader 0xA5000321 (tHdrW 7 0)) 0 7 = false ∧ handleOk (tAtHeader 0xA5000321 (tHdrW 0x20000000 0)) 0 0x20000000 = true ∧
      0 ≤ ((0 : Word) - rd (tHdrW 0x20000000 0) 193 0).toInt ∧ ((0 : Word) - rd (tHdrW 0x20000000 1) 193 0).toInt < 0) ∧
    (0 ≤ (tIdle.arrive - rd (tHdrW 0 0) 192 0).toInt ∧ (tIdle.arrive - rd (tHdrW 1 0) 192 0).toInt < 0) ∧
    (futOk (tAtHeader 0xA5000521 tIdle) tIdle.wg 7 = false ∧ futOk (tAtHeader 0xA5000521 tIdle) tIdle.wg 0x00100003 = true ∧
      (futEntry (tAtHeader 0xA5000521 tIdle) 0 0x00100003).st = 1 ∧ (futEntry tFut 0 0x00100004).st = 2) := by
  refine ⟨?_, fun x hx => ?_, ?_⟩
  · and_intros <;> decide +kernel
  · fin_cases hx <;> exact ⟨by decide +kernel, by decide +kernel⟩
  · and_intros <;> decide +kernel

/-- A clause for each fault of the encoding, in memory at 0x1000, and one without. -/
theorem witness_ClausesAndWaits_faults : (0x1002 : DWord).toNat % 4 ≠ 0 ∧
    (fetchWord tClause probeWg (2 ^ 40) 0).toOption.isSome = false ∧ (fetchWord tClause probeWg 0x1000 0).toOption = some 0xA5100021 ∧
    headerFault false (unpackHeader 0xA5100021) = none ∧ headerFault false (unpackHeader 0xA6000021) = some 1 ∧
    headerFault false (unpackHeader 0xA5000020) = some 2 ∧ headerFault false (unpackHeader 0xA50000A1) = some 3 ∧
    headerFault false (unpackHeader 0xA5000061) = some 0x0A ∧ headerFault true (unpackHeader 0xA5000061) = none ∧
    (fetchWords tClause probeWg (2 ^ 40) 1 1).toOption.isSome = false ∧
    (fetchWords tClause probeWg 0x1004 1 1).toOption = some [0x7A000000] ∧ wordsFault 2 1 [0x7A000000] = none ∧
    wordsFault 2 1 [0xA5070000] = some (1, 5) ∧ wordsFault 2 1 [0x00040506] = some (1, 4) ∧ wordsFault 0 1 [0x0B040501] = some (1, 6) ∧
    wordsFault 2 1 [0x76000000, 0x7A000000] = some (1, 9) ∧ wordsFault 6 1 [0x2F71230F] = some (1, 6) ∧
    wordsFault 6 1 [0x45000000, 0x45000000] = some (1, 9) ∧ wordsFault 6 1 [0x40000002, 0x45000000] = none := by
  and_intros <;> decide +kernel

/-- A register word of v1 beyond repair in lane 0, and a byte to which a lane stores or none does. -/
theorem witness_Stores_spoilt : spoiltAt { tW with spoilt := [32] } 1 0 = true ∧ spoiltAt tW 1 0 = false ∧
    lastAt [0, 1] (fun l => 0x2000 + 2 * l) 4 0x2003 = some 1 ∧ lastAt [0, 1] (fun l => 0x2000 + 2 * l) 4 0x2006 = none := by
  and_intros <;> decide +kernel

/-- Writes that complete in time, as the last of their load or not, to a v and to a w register, and one whose warp has
ended; nothing late is outstanding at clock 60,000. -/
theorem witness_DeferredAddsAndPendingWrites_inTime :
    (tget (tLate 60000).warps 0 = some (tPend (tLoad true)) ∧
      (tPend (tLoad true)).pend.find? (fun x => x.id == 5 && !x.token) = some (tLoad true) ∧
      lateAccess (tLate 60000) 0 (tLoad true) = false ∧
      (tPend (tLoad true)).pend.all (fun x => x.id == 5 || x.load != (tLoad true).load) = true ∧ (tLoad true).reg.toNat < 192) ∧
    ([tLoad true, { tLoad true with id := 6 }].all (fun x => x.id == 5 || x.load != (tLoad true).load) = false) ∧
    (192 ≤ ({ tLoad true with reg := 192 } : Pend).reg.toNat ∧ lowest ((tLoad true).lanes &&& ~~~(tLoad true).dead) = some 0) ∧
    (let x : Loose := ⟨probeWg, 3, .launch, false, tLoad true⟩
     let s : State := { tLate 60000 with grids := [(1, { probeGrid 0x1000 with loads := [x] })] }
     tget s.warps 3 = none ∧ looseOf s 3 5 = some (1, { probeGrid 0x1000 with loads := [x] }, x) ∧ looseLate s 3 x = false) ∧
    (lateLoads (tLate 60000) 0 = [] ∧ lateCopy (tLate 60000) 0 = none) ∧
    kindOrder (fun l => gLoc tSpill tW.wg (gAddr tW 4 0 4 l)) (lanesOf tW.act) = [0, 1] := by
  and_intros <;> decide +kernel

/-- An entry with a waiter; the table of context 0 in memory, and one where nothing can be written. -/
theorem witness_Futures_table : ((1 : Nat) < 2 ^ 12 ∧ (1 : Nat) < 4) ∧
    (ctxXlate (tQueue tQu) 0 probeDesc needRW (field probeDesc 383 320 + 16 * 3) 16).toOption.isSome = true ∧
    (ctxXlate (tQueue tQu) 0 0 needRW (field (0 : BitVec 1024) 383 320 + 16 * 3) 16).toOption.isSome = false ∧
    (let before : State := { tFut with ctxs := [(0, { Ctx.empty with futures := [(3, ⟨1, 1, 0⟩)] })] }
     let s : State := { tFut with ctxs := [(0, { Ctx.empty with futures := [(3, ⟨1, 2, 9⟩)] })] }
     tsorted s.ctxs = true ∧ futView before 0 3 ≠ futView s 0 3 ∧ futView before 0 4 = futView s 0 4 ∧
     (tget s.ctxs 0).isSome = true ∧ 3 ∈ (ctxRec s 0).futures.map (·.1)) := by
  and_intros <;> decide +kernel

/-- A take whose members may be restored at once, one for which a write of a member is still pending, and one that waits. -/
theorem witness_TakesHoldTheirStores_rollback :
    let wait (x : Warp) : Warp := { x with threads := x.threads.map (fun e => (e.1, { e.2 with wait := .rollback 3 5 none })) }
    let far : Warp := { tHeld with pend := [tLoad true] }
    rollingLanes tHeld = 0 ∧ lanesPending tHeld (members tHeld) = false ∧
    rollingLanes far = 0 ∧ lanesPending far (members far) = true ∧ members tHeld = 3 ∧
    (∀ e ∈ (wait tHeld).threads, e.2.wait = .rollback 3 5 none) ∧ lanesPending (wait tHeld) 3 = false ∧
    lanesPending (wait far) 3 = true ∧ far.recon = [] := by
  and_intros <;> decide +kernel

/-- Answers of two packages, in core order, one of them the first. -/
theorem witness_CensusesAndResponders_answers :
    let rs : List Resp := [⟨0, 1, 0, 7⟩, ⟨1, 0, 0, 9⟩]
    rs.Pairwise (fun x y => (x.pkg, x.core, x.age) ≠ (y.pkg, y.core, y.age)) ∧ rs.Perm rs.reverse ∧
    rs.Pairwise (fun x y => keyLt (x.pkg, x.core, x.age, 0) (y.pkg, y.core, y.age, 0) = true) ∧ rs ≠ [] ∧
    (∀ y ∈ rs, y ≠ ⟨0, 1, 0, 7⟩ → keyLt (0, 1, 0, 0) (y.pkg, y.core, y.age, 0) = true) := by
  intro rs
  and_intros <;> decide +kernel

/-- The function codes of scaled MACT, and records of MST with and without scales and of a blocked format. -/
theorem witness_TilesAndCompletion_functions : (0x83 : Fld).getLsbD 7 = true ∧ fdec fp32 0x40400000 = .fin false 12582912 (-22) ∧
    fdec fp32 0xFF800000 = .inf true ∧ (isTE (shFmt (tShape 1)) = false ∧ shScale (tShape 1) = 0) ∧
    shScale (tShape 1 ||| BitVec.ofNat 512 (5 * 2 ^ 64)) = 40 ∧ isTE (shFmt (tSh ||| BitVec.ofNat 512 (6 * 2 ^ 57))) = true := by
  and_intros <;> decide +kernel

/-- A packet beyond repair, first of its chunk or after another, whose bytes are on record to be put back. -/
theorem witness_SpliceChunkWords_beyondRepair :
    let bad : Staged := { tPacket with bad := true }
    let x : Splicer := { tRx with staged := [bad] }
    let first : Staged := { tPacket with len := 1920, data := List.replicate 960 3 }
    let y : Splicer := { tRx with
      got := 128, xl := some (tChunk false), taken := [tPacket], undo := List.replicate 256 0, staged := [bad] }
    let z : Splicer := { tX with xl := some (tChunk false), verdict := some true }
    (SpliceIssues (tSplice x) 0 x ∧ Undisturbed (tSplice x) ∧ (x.again ++ x.staged).filter (fun p => p.src == routeKey (kReg x 3)) = [bad] ++ [] ∧
      [bad][0]? = some bad ∧ bad.seqNo = (([bad].take 0).flatMap (·.data)).length / 960 ∧
      (([bad].take 0).flatMap (·.data)).length < bfSize (bfReg x 1) ∧ bad.len = bfSize (bfReg x 1) ∧ x.taken = []) ∧
    ([first, bad][1]? = some bad ∧ (([first, bad].take 1).flatMap (·.data)).length / 960 = 1) ∧
    (SpliceIssues (tSplice y) 0 y ∧ Undisturbed (tSplice y) ∧ 0 < y.got ∧ y.got < bfSize (bfReg y 1) ∧ y.verdict = none ∧ y.taken ≠ [] ∧
      (y.again ++ y.staged).find? (fun p => p.src == routeKey (kReg y 3)) = some bad ∧ bad.seqNo = y.got / 960 ∧
      ((tChunk false).map (fun p => p.2.2)).sum = bfSize (bfReg y 1) ∧ y.undo.length = bfSize (bfReg y 1)) ∧
    (SpliceIssues (tSplice z) 0 z ∧ z.asking = false ∧ z.tx.length < 8 ∧
      8 ≤ ({ z with tx := List.replicate 8 ⟨0x500, none, 1, [], 0⟩ } : Splicer).tx.length) := by
  intro bad x first y z
  refine ⟨⟨test_tSplice_issues _ rfl (by decide), test_tSplice_quiet _, ?_⟩, ?_,
    ⟨test_tSplice_issues _ rfl (by decide), test_tSplice_quiet _, ?_⟩, test_tSplice_issues _ rfl (by decide), ?_⟩
  all_goals (and_intros <;> decide +kernel)

/-- A refusal of a chunk reaches a context that issues or waits, or none; nothing accesses a line that its home refuses. -/
theorem witness_FabricPacketsArrive_refusals : ({ tX with st := spWaiting, wait := .room } : Splicer).st = spWaiting ∧
    ({ tX with st := spHalted } : Splicer).st ≠ spRunning ∧ ({ tX with st := spHalted } : Splicer).st ≠ spWaiting ∧
    (∀ e ∈ tS.warps, accessTo e.2.pend (0x2000 / 128) = none) ∧
    (∀ e ∈ tS.grids, ∀ x ∈ e.2.loads, accessTo [x.pend] (0x2000 / 128) = none) ∧
    (∀ e ∈ tS.cores, ∀ x ∈ e.2.copies, copyTouches x (0x2000 / 128) = none) ∧
    (∀ e ∈ tS.splicers, e.2.asking = false ∧ e.2.wait ≠ .flag) := by
  and_intros <;> decide +kernel

/-- A link all of whose limiters are in use, one of them with the highest rate, and a window of which one flit has been
reported. -/
theorem witness_Links_limiters :
    let x : Link := { Link.empty with limiters := (List.range 64).map (fun i => (i, 32)), resent := 3 }
    tget x.limiters 100 = none ∧ 64 ≤ x.limiters.length ∧ tsorted x.limiters = true ∧ Link.empty.limiters.length < 64 ∧
    (4 : Nat) = x.resent + 1 ∧ field x.stat 27 26 = max x.errWidth x.balWidth := by
  intro x
  and_intros <;> decide +kernel

/-- A lane that waits to push for the queue's own context, or for none; a queue saved with its context; a frozen SLEEP. -/
theorem witness_PacketsOfControl_waits :
    let y : Hwq := { Hwq.empty with desc := 1, waiters := [⟨⟨probeWg, false, 0, false⟩, some [1], 0⟩] }
    (∃ w ∈ y.waiters, w.push.isSome = true ∧ ctxOfWg tS w.name.wg = qCtx tQu.desc) ∧
    (tget ({ tQueue tQu with hwqs := [(savedQueue 0 0, y)] } : State).hwqs (savedQueue (qCtx tQu.desc) 0)).isSome = true ∧
    (∃ u, ({ tThread 0 with wait := .slept 5 } : Thread).wait = .sleep u ∨ ({ tThread 0 with wait := .slept 5 } : Thread).wait = .slept u) ∧
    (∀ u, (tThread 0).wait ≠ .sleep u ∧ (tThread 0).wait ≠ .slept u) :=
  ⟨⟨_, .head _, by decide +kernel, by decide +kernel⟩, by decide +kernel, ⟨5, .inr rfl⟩, fun _ => ⟨nofun, nofun⟩⟩

/-- A take that has read the line which a copy of the snapshot changes. -/
theorem witness_WaitsOfQueues_takes :
    let s : State := { tState tHeld with mem := memPuts [] 0x2000 [5], ctxs := tSnap.ctxs }
    memBytes s.mem 0x2000 128 ≠ memBytes s.mem 0x6000 128 ∧
    ({ checkpoint tW with readSet := linesOf 0x6000 128 } : Take).readSet.any (fun n => (linesOf 0x6000 128).contains n) = true := by
  intro s
  and_intros <;> decide +kernel

/-- The same adds in order, with two of one thread; a line that its home refuses; a gangless package whose gate is shut. -/
theorem witness_GridsFromPlacementToEnd_adds :
    let add (n : Nat) (v : Word) : DAdd := ⟨⟨probeWg, false, n, false⟩, 0x2000, 0, v, false⟩
    let g : Grid := { probeGrid 0x1000 with adds := [add 1 3, add 0 4, add 1 5] }
    let s : State := { tQueue tQu with grids := [(1, g)] }
    let adds : List DAdd := [add 0 4, add 1 3, add 1 5]
    endedEverywhere s 1 g = true ∧ (∀ a ∈ g.adds, refusedNow s a.pa 4 = false) ∧ adds.Perm g.adds ∧
    adds.Pairwise (fun a b => keyLt (addKey b) (addKey a) = false) ∧
    (∀ key ∈ adds.map addKey, adds.filter (fun a => addKey a == key) = g.adds.filter (fun a => addKey a == key)) ∧
    (∃ a ∈ g.adds, refusedNow { s with refusing := [0x2000 / 128] } a.pa 4 = true) ∧
    endedEverywhere (tGate (tMulti 7 false)) 1 (tMulti 7 false) = false ∧
    endedEverywhere { tOver with grids := [(1, probeGrid 0x1000)] } 1 (probeGrid 0x1000) = true ∧
    endedEverywhere { tOver with grids := [(1, tLoose)] } 1 tLoose = true := by
  intro add g s adds
  and_intros <;> decide +kernel

/-- A save area whose drain has no deadline, a resumed context with and without saved gangs, and the start of a round. -/
theorem witness_DrainsFreezesAndRounds_rounds :
    let saved : SavedWg := ⟨probeWg, 0, true, [], [], none, ⟨0, [], 0⟩, [], [], [], []⟩
    let s : State := { tCont with ctxs := [(0, { Ctx.empty with resuming := true, saved := [saved] })] }
    field (descOf State.reset 0) 46 31 = 0 ∧ (ctxRec s 0).resuming = true ∧ savedGangs s 0 ≠ [] ∧ contCtx s 0 = true ∧
    (ctxRec tCont 0).resuming = false ∧ roundStart tCont 0 = tCont ∧ formBefore tCont = tCont ∧ agents tCont 0 ≠ [] := by
  intro saved s
  and_intros <;> decide +kernel

/-- A capture that writes STALL records: an exited warp, a word that issued, and a warp in each of the reasons. -/
theorem witness_DebugAndCapture_records :
    let s : State := tCap 1 2 0x1000000
    (s.capTypes.getLsbD 1 = true ∧ s.capLaunch.getLsbD 32 = false ∧ s.capWgLo.getLsbD 63 = false ∧ s.capState = 1 ∧
      s.capCfg.getLsbD 8 = false ∧ s.capOff + 48 ≤ 2 ^ max 16 (min 30 (field s.capCfg 4 0))) ∧
    tget ({ Sampler.empty with exited := [(0, 0x1000, ⟨probeWg, false, 0, false⟩, 0)] } : Sampler).exited Sampler.empty.slot =
      some (0x1000, ⟨probeWg, false, 0, false⟩, 0) ∧
    (tget s.warps 0 = some tW ∧ confOf s tW.wg = none ∧ sampleLane tW = 0 ∧ thr tW 0 = some (tThread 0)) ∧
    (({ Sampler.empty with issued := some ⟨0, 0x1004, 0⟩ } : Sampler).issued = some ⟨0, 0x1004, 0⟩ ∧ Sampler.empty.issued = none) ∧
    (tW.held = false ∧ ({ tW with held := true } : Warp).held = true) ∧
    (∃ e ∈ (tPend tToken).pend, e.token = true ∧ e.reg.toNat = 192) ∧ (∀ e ∈ tIdle.pend, e.token = true → e.reg.toNat ≠ 192) ∧
    (tIdle.act = 0 ∧ headerPending (tState tIdle) tIdle ⟨0x1000, 0⟩ = none) ∧
    (let w : Warp := { tIdle with pend := [{ tLoad true with reg := 192 }] }
     (headerPending { tState w with mem := memPuts [] 0x1000 (bytesOf [0xA5000421, 0x7A000000]) } w ⟨0x1000, 0⟩).isSome = true) ∧
    (let w : Warp := { tW with code := [0x00050602], pend := [tLoad true] }
     (blamed w (blockers (tState w) 0 w)).map (·.id) = some 5) ∧
    (tW.act ≠ 0 ∧ blamed tW (blockers s 0 tW) = none ∧ copyStalls s 0 tW = false ∧ wordStalls s 0 tW = false) ∧
    (let w : Warp := { tSw with code := [0xB6000406, 0x08000000] }
     let u : State := { tLm with
       warps := [(0, w)]
       cores := [(0, { Core.empty with copies := [{ tMove with moves := [⟨⟨true, probeWg, 5, 5, 0⟩, none, 0⟩] }] })] }
     w.act ≠ 0 ∧ blamed w (blockers u 0 w) = none ∧ copyStalls u 0 w = false ∧ wordStalls u 0 w = true) := by
  intro s
  and_intros <;> decide +kernel

/-- A context that is created. -/
theorem witness_HostRegisters_contexts : (descOf (tQueue tQu) 1).getLsbD 0 = false ∧
    (1 : Nat) / 2 ^ 3 % 2 = field (descOf (tQueue tQu) 1) 3 3 ∧ 1 % 2 = 1 := by
  and_intros <;> decide +kernel

/-- What an error of classes 4 and 5 meets or does not, and a stand-in that runs while a bad image is written. -/
theorem witness_FirmwareErrorsAndPower_classes : tget tS.warps (37 / 2 ^ 13) = some tW ∧ tget tS.warps (2 ^ 13 / 2 ^ 13) = none ∧
    seqOf (tSeq tQ) (4 / 2 ^ 24) = some tQ ∧ seqOf tS (4 / 2 ^ 24) = none ∧ (tQueue tQu).ready.getLsbD 1 = true ∧
    State.reset.ready.getLsbD 1 = false ∧ evEn (tQueue tQu) = false := by
  and_intros <;> decide +kernel

/-- Nothing else of the grid is late when the word faults. -/
theorem witness_FaultsEndTheGrid_alone : lateOf tS (serialOf tW.wg) = [] := by decide +kernel

/-- The last values of the fields of a packet. -/
theorem witness_DecodeInvertsEncode : (2 : Nat) ^ 64 - 1 < 2 ^ 64 ∧ (4095 : Nat) < 2 ^ 12 ∧ 7 < 8 ∧ (31 : Nat) < 32 ∧ (63 : Nat) < 64 ∧
    (255 : Nat) < 256 ∧ (65535 : Nat) < 2 ^ 16 ∧ 0x0F < field (0x00000010 : Word) 7 0 ∧ field (0x00010000 : Word) 23 16 ≠ 0 := by
  and_intros <;> decide +kernel

/-- A warp between clauses at a header whose wait is yet to begin. -/
theorem witness_StepRunsWhatIsDecoded_advances :
    advances (tAtHeader 0xA5000421 (tHdrW 1 0)) 0 = true ∧
    mayIssue (tAtHeader 0xA5000421 (tHdrW 1 0)) (tHdrW 1 0) = true ∧ (tHdrW 1 0).act = 0 := by
  and_intros <;> decide +kernel

/-- The late write of a grid's load, and its timeout. -/
theorem witness_FormsComplete_events : tget (tLate 60000).warps 0 = some (tPend (tLoad true)) ∧
    cycleOf (tLate 60000) (dieOf (coreOf 0)) ≤ (tLoad true).issued + remoteLimit ∧
    (tLoad true).issued + remoteLimit < cycleOf (tLate 60001) (dieOf (coreOf 0)) ∧ (tLoad true).fabric = true ∧
    tLoad true ∈ (tPend (tLoad true)).pend ∧ tsorted (tLate 60001).grids = true ∧
    tget (tLate 60001).grids (serialOf tW.wg) = some (probeGrid 0x1000) ∧ ctxStopped (tLate 60001) (ctxOfWg (tLate 60001) tW.wg) = false := by
  and_intros <;> decide +kernel

/-! Ill-formed terms: each check of WellFormed refuses one, with the cause of the spec (R102, R103, R366). -/

/-- Every term of a list is refused with a cause. -/
def refuses (code : Nat) (is : List Instr) : Bool := is.all (fun i => fieldFault i == some code)

theorem test_illformed_kinds_of_words : refuses 7
    [.shli 1 2 32, .shri 1 2 32, .sari 1 2 32, .bfx 1 2 7 0xDF, .bfi 1 2 3 0x5F, .lea 1 2 3 32, .add64 3 4 6, .add64 2 5 6,
     .sub64 2 4 7, .mulw 3 1 2 0, .icmp 8 1 2 0 0, .fcmp 8 1 2 0, .pand 8 1 2, .pand 1 8 2, .por 1 2 8, .pxor 8 1 2, .pnot 1 8,
     .pmov 8 1, .ptov 1 8, .shufup 1 2 32, .shufdn 1 2 32, .shufx 1 2 32] = true := by decide

theorem test_illformed_lanes_and_memory : refuses 7
    [.voteall 8 1, .voteany 1 8, .ballot 1 8, .ldlT 5 1 0 5, .ldlT 6 1 0 6, .stlT 5 1 0 5, .ldg 1 5 0, .stg 1 5 0, .ldk 1 5 0,
     .ldgT 1 5 0 0 4, .ldgT 6 4 0 0 6, .stgT 1 5 0 0 4, .lda 5 4 0 3 5, .lda 1 5 0 3 4, .strel 1 5 0 3 4,
     .atom 1 5 0 2 0 3 0, .atom 1 4 0 2 0 3 2, .atomc 2 4 0 2 3 2 5, .atoml 1 2 0 4 0 2, .fatom 5 0 1 0 0, .barinit 1 32,
     .bara 32, .barw 32, .bars 32] = true := by decide

theorem test_illformed_engines_and_tasks : refuses 7
    [.rwrite 192 1 2, .claim 0, .claim 16, .give 0, .give 16, .bmovWrite 64 2, .bmovRead 1 64, .tlblock 1 2, .tlbunlk 1,
     .acopy 1 4 6 8 0 0, .acopy 192 4 5 8 0 0, .acopy 192 5 6 8 1 0, .acopy 192 4 6 9 4 0, .bcopy 1 2 4 0, .bcopy 192 16 4 0,
     .bcopy 192 2 5 0, .gather 1 2 4 5 0, .gather 192 2 5 5 0, .tokclr 1, .tlwait 1 3, .tlread 3 1, .stashmap 1 3 2,
     .tspawn 1 192 0 1, .tspawn 1 190 0 3] = true := by decide +kernel

theorem test_illformed_queues_and_streams : refuses 7
    [.qpop 9 0, .qpop 192 0, .qpop 8 8, .qpush 9 0, .qpush 8 8, .qroom 1 8, .mbxbind 1 6, .nmatch 1 6 2, .solicit 1 5 2 0 3,
     .kdirins 5 2 0, .kdirins 4 3 0, .kdirdel 5, .kdirlook 5 4, .kdirlook 4 5, .kdirmig 5 1 0, .mzero 8,
     .mma 0 8 0 0 0, .mmas 0 8 0 0 0, .mma32 8 0 0 0, .conv 0 8 0 0 0, .mst 8 0 0, .mld 8 0, .mact 8 0, .sqbar 32, .sqwait 32] =
    true := by decide

theorem test_illformed_variants : refuses 6
    [.bfx 1 2 0 0x20, .bfi 1 2 3 0xC0, .mulw 2 1 3 2, .icmp 1 2 3 6 0, .icmp 1 2 3 0 2, .fcmp 1 2 3 8, .cvt 1 2 4 0 0x00,
     .tepack 1 2 5, .tepack 1 2 9, .teunpk 1 2 0x61, .teunpk 1 2 0x50, .teunpk 1 2 0x90, .scalex 1 2 3 2 3, .scalex 1 2 3 1 2,
     .scalex 1 2 3 1 6, .scalex 1 2 3 0 3, .redux 1 2 11, .scan 1 2 9, .ldlT 4 1 0 7, .stlT 4 1 0 1, .stlT 4 1 0 3, .ldgT 1 4 0 3 4,
     .ldgT 1 4 0 0 7] = true := by decide

theorem test_illformed_variants_of_memory : refuses 6
    [.stgT 1 4 0 2 4, .stgT 1 4 0 0 3, .lda 1 4 0 7 4, .lda 1 4 0 3 6, .strel 1 4 0 3 1, .strel 1 4 0 7 4, .atom 1 4 0 2 9 3 0,
     .atom 1 4 0 2 0 7 0, .atomc 1 4 0 2 7 0 3, .atoml 1 2 0 4 9 0, .atoml 1 2 0 4 0 4, .fatom 4 0 1 1 0, .fatom 4 0 1 0 3,
     .fence 3 0, .fence 0 7, .acopy 192 4 6 8 3 0, .acopy 192 4 6 8 8 0, .acopy 192 4 6 8 5 0, .acopy 192 4 6 8 0 1,
     .acopy 192 4 6 8 4 3, .bcopy 192 2 4 4, .gather 192 2 4 5 6] = true := by decide

theorem test_illformed_variants_of_agents : refuses 6
    [.tspawn 1 2 2 1, .tspawn 1 2 0 9, .tspawn 1 0 1 0, .tspawn 1 2 0 0, .keep 7, .drop 1 2 0, .drop 0 0 5, .drop 1 0 0,
     .solicit 1 4 2 7 3, .solicit 1 4 2 0 2, .solicit 1 4 2 0 7, .census 1 2 5, .respond 1 2, .kdirins 4 2 2, .kdirmig 4 1 2,
     .mst 1 0 2, .shset 1 2 3 5, .mact 1 3, .sqsetUniform 1 64, .cmpj 1 2 6 0, .cmb 1 2 3 3, .cmbf 1 2 3 4 3] = true := by decide

/-! Words written out from the encoding tables (R100, R101, R106 to R109, R365, R366); those of the manual's own examples
are among them. -/

/-- A lane word without a trailing word, or with one, decodes to an instruction. -/
def laneIs (w : Word) (t : Option Word) (i : Instr) : Bool := decodeLaneWord w t == .ok i

theorem test_decode_lane_alu :
    laneIs 0x00040506 none (.iadd 4 5 6) = true ∧ laneIs 0x01C0057F none (.iaddi 0xC0 5 0x7F) = true ∧
    laneIs 0x1C080200 (some 0x003000C0) (.bfx 8 2 3 0xC0) = true ∧ laneIs 0x1D010203 (some 0x00000048) (.bfi 1 2 3 0x48) = true ∧
    laneIs 0x21020304 (some 0x00100000) (.mulw 2 3 4 1) = true ∧ laneIs 0x30030102 (some 0x00200100) (.icmp 3 1 2 2 1) = true ∧
    laneIs 0x38080407 none (.fadd 8 4 7) = true ∧ laneIs 0x39090407 (some 0x00008000) (.faddT 9 4 7 1) = true ∧
    laneIs 0x3E010203 (some 0x04010000) (.ffma 1 2 3 4 2) = true ∧
    laneIs 0x54040100 (some 0x00400001) (.cvt 4 1 4 0 1) = true := by decide

theorem test_decode_exchange_and_control :
    laneIs 0x67171600 none (.matchLanes 0x17 0x16) = true ∧ laneIs 0x661A0200 none (.ballot 0x1A 2) = true ∧
    laneIs 0x6301020F none (.shufx 1 2 15) = true ∧ laneIs 0x69010200 (some 0x00800000) (.scan 1 2 8) = true ∧
    laneIs 0x71000003 (some 0x00001800) (.brc 3 1 1) = true ∧ laneIs 0x73FFFFFF (some 0x0A000000) (.call (-1) 10) = true ∧
    laneIs 0x74050600 none (.callx 5 6) = true ∧ laneIs 0x77000002 none (.reconv 2) = true ∧
    laneIs 0x7B001388 none (.sleep 5000) = true ∧ laneIs 0x76000000 none .exit = true := by decide

theorem test_decode_memory :
    laneIs 0x821A1C00 none (.stl 0x1A 0x1C 0) = true ∧ laneIs 0x8B1C1200 (some 0x0F0A0000) (.atom 0x1C 0x12 0 0x0F 0 5 0) = true ∧
    laneIs 0x85040602 (some 0x00100500) (.ldgT 4 6 2 1 5) = true ∧ laneIs 0x8904060F (some 0x000C0400) (.lda 4 6 15 6 4) = true ∧
    laneIs 0x8C040600 (some 0x0A080012) (.atomc 4 6 0 0x0A 4 0 0x12) = true ∧ laneIs 0x8E0006FF (some 0x05000100) (.fatom 6 0xFF 5 0 1) = true ∧
    laneIs 0x8F000000 (some 0x00260000) (.fence 2 3) = true ∧ laneIs 0x9000051F none (.barinit 5 31) = true ∧
    laneIs 0x94BF0102 none (.rwrite 0xBF 1 2) = true ∧ laneIs 0x993F0500 none (.bmovWrite 0x3F 5) = true ∧
    laneIs 0x9A053F00 none (.bmovRead 5 0x3F) = true := by decide

theorem test_decode_engines_tasks_and_system :
    laneIs 0xB0C00408 (some 0x06100000) (.acopy 0xC0 4 8 6 1 0) = true ∧ laneIs 0xB1C10304 (some 0x00200000) (.bcopy 0xC1 3 4 2) = true ∧
    laneIs 0xC0000A10 (some 0x00100003) (.tspawn 10 16 1 3) = true ∧ laneIs 0xC2000405 none (.futset 4 5) = true ∧
    laneIs 0xC6080002 none (.qpop 8 2) = true ∧ laneIs 0xC7001005 none (.qpush 16 5) = true ∧
    laneIs 0xCA000204 (some 0x09000000) (.nmatch 2 4 9) = true ∧ laneIs 0xCC000000 none .tend = true ∧
    laneIs 0xD0000000 none .take = true ∧ laneIs 0xD1000000 (some 0x000A0000) (.keep 5) = true ∧
    laneIs 0xD2000500 (some 0x00100081) (.drop 5 1 0x81) = true ∧
    laneIs 0xD40A0406 (some 0x00180000) (.solicit 10 4 6 1 4) = true ∧ laneIs 0xD50B0A00 (some 0) (.census 11 10 0) = true ∧
    laneIs 0xD6000800 (some 0) (.respond 8 0) = true ∧ laneIs 0xE106001C none (.getsr 6 0x1C) = true ∧
    laneIs 0xE200051A none (.setsr 5 0x1A) = true ∧ laneIs 0xFE020000 none .yield = true := by decide

theorem test_decode_refused_lane_words :
    decodeLaneWord 0xA5070000 none = .bad 5 ∧ decodeLaneWord 0xFE040000 none = .bad 5 ∧ decodeLaneWord 0xFE020001 none = .bad 6 ∧
    decodeLaneWord 0x9D000000 none = .bad 5 ∧ decodeLaneWord 0x97000010 none = .bad 7 ∧ decodeLaneWord 0x39090407 (some 0x00008001) = .bad 6 ∧
    decodeLaneWord 0x0B040501 none = .bad 6 := by decide

theorem test_decode_stream :
    decodeStreamWord 0x10234500 none = .ok (.mma 0 2 3 4 5) ∧ decodeStreamWord 0x30160001 none = .ok (.mst 1 6 1) ∧
    decodeStreamWord 0x04240000 none = .ok (.wload 2 4) ∧ decodeStreamWord 0x10015400 none = .ok (.mma 0 0 1 5 4) ∧
    decodeStreamWord 0x41000000 none = .ok (.sqwait 0) ∧ decodeStreamWord 0x40000002 none = .ok (.sqbar 2) ∧
    decodeStreamWord 0x2F71230F none = .bad 6 ∧ decodeStreamWord 0x2F712300 none = .ok (.conv 7 7 1 2 3) ∧
    decodeStreamWord 0x4473FFFF none = .ok (.sqbra 7 0x3FFFF) ∧ decodeStreamWord 0x4912003F none = .bad 6 := by decide

theorem test_decode_splice :
    decodeSplice 0x20240A00 = .ok (.xmit 1 2 5) ∧ decodeSplice 0x21068000 = .ok (.recv 0 3 4) ∧
    decodeSplice 0x23428A00 = .ok (.cmbf 2 1 4 5 0) ∧ decodeSplice 0x31800001 = .ok (.fsig 8 0 1) ∧
    decodeSplice 0x0830FFFF = .ok (.spliceMovi 3 0xFFFF) ∧ decodeSplice 0x1112600A = .bad 0x61 ∧ decodeSplice 0 = .bad 0x60 := by
  decide

theorem test_decode_packets :
    decodePacket 0x00000301 [0x4000, 1, 7] = .ok (.launch 0x100004000 7) ∧ decodePacket 0x00000301 [0x4000, 1, 0x1000] = .error 4 ∧
    decodePacket 0x0100040C [0x30000000, 0, 9, 0] = .ok (.waitTimeline 0x30000000 9) ∧
    decodePacket 0x00000406 [0x4000, 0, 5, 0x00020003] = .ok (.pred 0x4000 5 3 2) ∧
    decodePacket 0x00000409 [0x4000, 0, 5, 6] = .ok (.write 0x4000 [5, 6]) ∧ decodePacket 0x00000010 [] = .error 1 := by decide

/-! Effects, one step each. The expected values are the manual's, or worked out by hand from its rules. -/

/-- The value of v5 in lane 0 after an instruction on v1 = x and v2 = y. -/
def on (i : Instr) (x y : Word) : Option Word := after i (tState (tWarp 2 [(32, x), (64, y)] [])) 5 0

theorem test_integer_effects :
    on (.iadd 5 1 2) 0xFFFFFFFF 1 = some 0 ∧ on (.isub 5 1 2) 1 2 = some 0xFFFFFFFF ∧ on (.iabs 5 1) 0x80000000 0 = some 0x80000000 ∧
    on (.imulhs 5 1 2) 0xFFFFFFFF 2 = some 0xFFFFFFFF ∧ on (.imulhu 5 1 2) 0xFFFFFFFF 2 = some 1 ∧
    on (.sari 5 1 31) 0x80000000 0 = some 0xFFFFFFFF ∧ on (.umin 5 1 2) 0xFFFFFFFF 1 = some 1 ∧
    on (.imin 5 1 2) 0xFFFFFFFF 1 = some 0xFFFFFFFF ∧ on (.clz 5 1) 0 0 = some 32 ∧ on (.iaddi 5 1 0xFF) 5 0 = some 4 := by
  decide +kernel

theorem test_float_effects :
    on (.fadd 5 1 2) 0x3F800000 0x33800000 = some 0x3F800000 ∧ on (.faddT 5 1 2 2) 0x3F800000 0x33800000 = some 0x3F800001 ∧
    on (.fmin 5 1 2) 0x7F800001 0xFFC00000 = some 0x7FC00000 ∧ on (.cvt 5 1 0 0 0x09) 0x4F32D05E 0 = some 0x7FFFFFFF ∧
    on (.cvt 5 1 0 0 0x09) 0xFF800000 0 = some 0x80000000 ∧ on (.cvt 5 1 0 0 0x02) 0x7F800001 0 = some 0x7FC0 ∧
    on (.fmul 5 1 2) 0x7F7FFFFF 0x40000000 = some 0x7F800000 := by
  decide +kernel

/-- The manual's two groups of the matrix engine: 1, then 3 times 2^-25, which costs one rounding (06, R86). -/
theorem test_accumulate : accumulate 0
    (.fin false 1 0 :: List.replicate 15 (.fin false 0 0) ++ (.fin false 3 (-25) :: List.replicate 15 (.fin false 0 0)))
    (List.replicate 32 (.fin false 1 0)) = 0x3F800001 := by decide +kernel

theorem test_exchange_effects :
    after (.shufx 5 1 1) tS 5 0 = some 0xFFFFFFFF ∧ after (.ballot 5 0) tS 5 0 = some 3 ∧ after (.redux 5 1 0) tS 5 1 = some 6 ∧
    after (.matchLanes 5 1) tS 5 1 = some 2 ∧ after (.iadd 5 1 2) tS 5 2 = some 0 := by decide +kernel

/-- The PC, and whether a lane is active, after an instruction. -/
def goes (i : Instr) (s : State) (l : Nat) : Option (PC × Bool) :=
  match exec i s with
  | .next t => (tget t.warps 0).bind (fun w => (thr w l).map (fun x => (x.pc, w.act.getLsbD l)))
  | _ => none

theorem test_control_effects :
    goes (.bra (-2)) tS 0 = some (⟨0xFF8, 0⟩, false) ∧ goes .nop tS 0 = some (⟨0x1008, 0⟩, false) ∧
    (match exec .exit tS with | .next t => t.warps.isEmpty | _ => false) = true ∧
    goes (.iadd 5 1 2) { tS with warps := [(0, { tW with code := [0, 0] })] } 1 = some (⟨0x1000, 2⟩, true) := by decide +kernel

/-- Memory after a store of v1 to v4:v5, and a load of it. -/
theorem test_memory_effects :
    (match exec (.stg 1 4 1) tS with
      | .next t => memByte t.mem 0x2004 == 7 && memByte t.mem 0x2014 == 0xFF && memByte t.mem 0x2017 == 0xFF
      | _ => false) = true ∧
    after (.ldg 5 4 0) { tS with mem := memPuts [] 0x2000 [1, 2, 3, 4] } 5 0 = some 0x04030201 ∧
    (match exec (.atom 5 4 0 2 0 5 0) { tS with mem := memPuts [] 0x2000 [1, 2, 3, 4] } with
      | .next t => memByte t.mem 0x2000 == 10 && memByte t.mem 0x2010 == 1
      | _ => false) = true := by decide +kernel

/-- TRAP without a handler ends the grid (R328); with one it saves what v0 to v7 of the handler lane need. -/
theorem test_trap_effects :
    (match exec (.trap 3) tS with | .next t => t.grids.isEmpty && t.warps.isEmpty | _ => false) = true ∧
    (match exec (.trap 3) (tTrap 0) with
      | .next t => (coreRec t 0).handlers.map (fun h => (h.pc, h.lanes.map (fun x => (x.2.1.take 4)))) ==
          [(0x5000, [[3, 0, 7, 0x1004], [3, 0, 0xFFFFFFFF, 0x1004]])]
      | _ => false) = true := by decide +kernel

end Sys2Proof.Machine
end

/-! PROOF. What whole-device reset leaves: the package's tables are empty, so that each accessor of the state
gives the reset record of its kind; what that record holds is said once for each kind. -/

namespace Sys2Proof.Machine

/-! Records of the package right after reset. -/

@[simp] theorem cycleOf_reset (d : Nat) : cycleOf State.reset d = 0 := rfl
@[simp] theorem ctxRec_reset (c : Nat) : ctxRec State.reset c = Ctx.empty := rfl
@[simp] theorem descOf_reset (n : Nat) : descOf State.reset n = ctxDescReset := rfl
@[simp] theorem hwqRec_reset (k : Nat) : hwqRec State.reset k = Hwq.empty := rfl
@[simp] theorem queueRec_reset (q : Nat) : queueRec State.reset q = Queue.empty := rfl
@[simp] theorem splRec_reset (k : Nat) : splRec State.reset k = Splicer.empty := rfl
@[simp] theorem linkRec_reset (l : Nat) : linkRec State.reset l = Link.empty := rfl

/-! What a context holds then. -/

@[simp] theorem tlOf_reset (c h : Nat) : tlOf State.reset c h = ⟨0, [], 0⟩ := by
  rw [tlOf, ctxRec_reset]; rfl

@[simp] theorem futEntry_reset (c : Nat) (h : Word) : futEntry State.reset c h = Fut.empty := by
  rw [futEntry, ctxRec_reset]; rfl

@[simp] theorem histCount_reset (c e b : Nat) : histCount State.reset c e b = 0 := by
  rw [histCount, ctxRec_reset]; rfl

/-- A histogram window shows zero, be the context confidential or not. -/
@[simp] theorem histShown_reset (e b : Nat) : histShown State.reset e b = 0 := by
  simp only [histShown, histCount_reset, ite_self]

/-! What the reset records hold. -/

/-- A field that lies above every bit that is set is zero. -/
theorem field_eq_zero_of_lt {n : Nat} {x : BitVec n} {hi lo : Nat} (h : x.toNat < 2 ^ lo) : field x hi lo = 0 := by
  rw [field, BitVec.extractLsb'_toNat, Nat.shiftRight_eq_div_pow, Nat.div_eq_of_lt h]
  exact Nat.zero_mod _

/-- One bit of a context descriptor is set: that of BINAGE whose weight is 1,024 (R384). -/
theorem ctxDescReset_toNat : ctxDescReset.toNat = 2 ^ 25 :=
  (BitVec.toNat_ofNat _ _).trans (Nat.mod_eq_of_lt (Nat.pow_lt_pow_right (by decide : 1 < 2) (by decide : 25 < 1024)))

/-- BINAGE is 1,024, and the bits below and above it are zero (R384). -/
theorem ctxDescReset_fields : field ctxDescReset 30 15 = 1024 ∧ field ctxDescReset 14 0 = 0 ∧
    field ctxDescReset 1023 31 = 0 := by
  have above : ctxDescReset.toNat < 2 ^ 31 := by rw [ctxDescReset_toNat]; decide
  refine ⟨?_, ?_, field_eq_zero_of_lt above⟩ <;>
    rw [field, BitVec.extractLsb'_toNat, ctxDescReset_toNat] <;> decide

/-- A splicer context is IDLE, with SPCFG, SPSTAT and SPFADDR zero (R357, R358). -/
theorem splicerEmpty_registers : Splicer.empty.st = spIdle ∧ Splicer.empty.cfg = 0 ∧ spstat Splicer.empty = 0 ∧
    Splicer.empty.faddr = 0 := by decide

theorem hwqEmpty_idle : Hwq.empty.desc = 0 ∧ Hwq.empty.enabling = none := ⟨rfl, rfl⟩
theorem queueEmpty_idle : Queue.empty.desc = 0 ∧ Queue.empty.st = 0 := ⟨rfl, rfl⟩
theorem linkEmpty_down : Link.empty.stat = 0 ∧ Link.empty.err = 0 := ⟨rfl, rfl⟩
theorem linkEmpty_imem (w : Nat) : tgetD 0 Link.empty.imem w = 0 := rfl
theorem futEmpty_free : Fut.empty.st = 0 ∧ Fut.empty.gen = 1 ∧ Fut.empty.val = 0 := ⟨rfl, rfl, rfl⟩

/-- Settles O59: the registers of the package by their values in State.reset, and every unit by the reset record that its
accessor gives. -/
theorem resetState : Obligations.ResetState := by
  unfold Obligations.ResetState
  intro s
  refine ⟨rfl, rfl, cycleOf_reset, rfl, rfl, rfl, rfl, rfl, rfl, rfl, rfl, rfl, rfl, rfl, rfl, rfl, rfl, rfl, rfl, rfl, rfl,
    rfl, rfl, ?triggers, histShown_reset, ?measures, rfl, ?hwqs, ?descs, ?links, ?splicers, ?imem, ?ctxs, ?futures, ?queues,
    ?running⟩
  case triggers => exact fun _ => rfl
  case measures => exact fun _ => rfl
  case hwqs => exact fun k => ⟨hwqRec_reset k, hwqEmpty_idle⟩
  case descs => exact fun n => descOf_reset n ▸ ctxDescReset_fields
  case links => exact fun l => linkRec_reset l ▸ linkEmpty_down
  case splicers => exact fun k => splRec_reset k ▸ splicerEmpty_registers
  case imem => exact fun l w => linkRec_reset l ▸ linkEmpty_imem w
  case ctxs => exact fun c => ⟨rfl, rfl, fun h => by rw [tlOf_reset]⟩
  case futures => exact fun c h => futEntry_reset c h ▸ futEmpty_free
  case queues => exact fun q => ⟨queueRec_reset q, queueEmpty_idle⟩
  case running => exact ⟨rfl, rfl, rfl, rfl⟩

end Sys2Proof.Machine

/-! PROOF. What the end of a grid leaves (01 R41 to R44, 21 R324): the units that go are those of the grid; of the others'
state nothing that a statement about grids reads is lost. -/

namespace Sys2Proof.Machine

/-! A change that stays beside grids and queues: no grid changes save in its record of LDK (R191), no command queue changes,
no warp or workgroup comes that belongs to another workgroup than one before, and nothing that was sent is taken back. -/

/-- From s to t every grid, queue, clock and descriptor is kept, and no unit of a further workgroup appears. -/
structure Beside (s t : State) : Prop where
  grids : ∀ n, (tget t.grids n).map (fun g => { g with ldk := [] }) = (tget s.grids n).map (fun g => { g with ldk := [] })
  warps : ∀ e ∈ t.warps, ∃ f ∈ s.warps, f.2.wg = e.2.wg
  wgs : ∀ e ∈ t.wgs, ∃ f ∈ s.wgs, f.1 = e.1
  sent : s.sent <+: t.sent
  mbx : ∀ c, (ctxRec t c).mbx = (ctxRec s c).mbx
  queues : t.queues = s.queues
  cycle : t.cycle = s.cycle
  serial : t.launchSerial = s.launchSerial
  descs : t.ctxDesc = s.ctxDesc

namespace Beside

variable {s t u : State}

theorem refl (s : State) : Beside s s where
  grids _ := rfl
  warps e he := ⟨e, he, rfl⟩
  wgs e he := ⟨e, he, rfl⟩
  sent := List.prefix_rfl
  mbx _ := rfl
  queues := rfl
  cycle := rfl
  serial := rfl
  descs := rfl

theorem trans (h : Beside s t) (k : Beside t u) : Beside s u where
  grids n := (k.grids n).trans (h.grids n)
  warps e he := by
    obtain ⟨f, hf, ef⟩ := k.warps e he
    obtain ⟨g, hg, eg⟩ := h.warps f hf
    exact ⟨g, hg, eg.trans ef⟩
  wgs e he := by
    obtain ⟨f, hf, ef⟩ := k.wgs e he
    obtain ⟨g, hg, eg⟩ := h.wgs f hf
    exact ⟨g, hg, eg.trans ef⟩
  sent := h.sent.trans k.sent
  mbx c := (k.mbx c).trans (h.mbx c)
  queues := k.queues.trans h.queues
  cycle := k.cycle.trans h.cycle
  serial := k.serial.trans h.serial
  descs := k.descs.trans h.descs

/-- A change of the pieces that the relation does not speak of. -/
theorem quiet (h : t = { s with
    mem := t.mem, poison := t.poison, cores := t.cores, events := t.events, posted := t.posted, capOff := t.capOff
    capDropped := t.capDropped, held := t.held, evLost := t.evLost, evTail := t.evTail, transit := t.transit
    hwqs := t.hwqs, mailboxes := t.mailboxes, netMatch := t.netMatch, forwarded := t.forwarded
    deadGates := t.deadGates, pageFaults := t.pageFaults, samplers := t.samplers, earlyAcks := t.earlyAcks }) :
    Beside s t := by
  rw [h]; exact { refl s with }

/-- A fold of steps each of which stays beside. -/
theorem foldl {α : Type} (f : State → α → State) (h : ∀ s a, Beside s (f s a)) (l : List α) (s : State) :
    Beside s (l.foldl f s) := by
  induction l generalizing s with
  | nil => exact refl s
  | cons a r ih => exact (h s a).trans (ih _)

/-- One warp is replaced by another of its workgroup. -/
theorem setWarp {k : Nat} {w w1 : Warp} (h : tget s.warps k = some w) (e : w1.wg = w.wg) :
    Beside s (Machine.setWarp s k w1) :=
  { refl s with
    warps := fun x hx => by
      rcases mem_tput hx with rfl | hx
      · exact ⟨_, tget_mem h, e.symm⟩
      · exact ⟨x, hx, rfl⟩ }

/-- Every warp stays one of its workgroup, or goes. -/
theorem warpsOnly (ks : Tbl Warp) (h : ∀ e ∈ ks, ∃ f ∈ s.warps, f.2.wg = e.2.wg) : Beside s { s with warps := ks } :=
  { refl s with warps := h }

/-- One workgroup is replaced. -/
theorem setWg {k : Nat} {g g1 : Workgroup} (h : tget s.wgs k = some g) : Beside s (Machine.setWg s k g1) :=
  { refl s with
    wgs := fun x hx => by
      rcases mem_tput hx with rfl | hx
      · exact ⟨_, tget_mem h, rfl⟩
      · exact ⟨x, hx, rfl⟩ }

/-- One context's record changes but for its mailboxes. -/
theorem setCtx {n : Nat} {x : Ctx} (h : x.mbx = (ctxRec s n).mbx) : Beside s (Machine.setCtx s n x) :=
  { refl s with
    mbx := fun c => by
      rw [ctxRec_setCtx]
      split
      · next e => rw [← e, h]
      · rfl }

/-- Every context's record changes but for its mailboxes, and censuses and tasks wherever they stand. -/
theorem ctxs (f : Nat × Ctx → Nat × Ctx)
    (ht : t = { s with ctxs := s.ctxs.map f, cores := t.cores, forwarded := t.forwarded })
    (h : ∀ e, (f e).1 = e.1 ∧ (f e).2.mbx = e.2.mbx) : Beside s t := by
  rw [ht]
  exact { refl s with
    mbx := fun c => by
      have kept (l : Tbl Ctx) : (tgetD Ctx.empty (l.map f) c).mbx = (tgetD Ctx.empty l c).mbx := by
        induction l with
        | nil => rfl
        | cons e r ih =>
          simp only [tgetD, List.map_cons, tget, (h e).1] at ih ⊢
          split
          · exact (h e).2
          · exact ih
      exact kept s.ctxs }

end Beside

/-! Memory. -/

theorem beside_cellStore (bs : List Byte) : ∀ (s : State) (a : Nat), Beside s (cellStore s a bs) := by
  induction bs with
  | nil => exact fun s _ => .refl s
  | cons b r ih => exact fun s a => (Beside.quiet rfl).trans (ih _ _)

theorem beside_plainStore (s : State) (a : Nat) (bs : List Byte) : Beside s (plainStore s a bs) := by
  have h := plainStore_rest bs s a
  have e : Beside s { s with mem := (plainStore s a bs).mem, grids := (plainStore s a bs).grids,
                             poison := (plainStore s a bs).poison } :=
    { Beside.refl s with grids := plainStore_grids bs s a }
  exact h ▸ e

theorem beside_setStashLine (s : State) (wg i j : Nat) (x : Option StashLine) : Beside s (setStashLine s wg i j x) := by
  unfold setStashLine
  split
  · exact .refl s
  · next h => exact .setWg h

theorem beside_carryPoison (s : State) (a b n : Nat) : Beside s (carryPoison s a b n) := by
  unfold carryPoison
  split
  · exact .quiet rfl
  · exact .refl s

theorem beside_writeBackLine (s : State) (wg i j : Nat) : Beside s (writeBackLine s wg i j) := by
  unfold writeBackLine
  split
  · exact .refl s
  split
  · exact .refl s
  split
  · exact .refl s
  dsimp only
  split
  · exact ((beside_cellStore _ _ _).trans (beside_carryPoison _ _ _ _)).trans (beside_setStashLine _ _ _ _ _)
  · exact .refl s

theorem beside_flushStash (s : State) (own : Option (Nat × Nat × Nat)) (line : Nat) (write : Bool) :
    Beside s (flushStash s own line write) := by
  refine .foldl _ (fun s h => ?_) _ _
  dsimp only
  split
  · exact (beside_writeBackLine _ _ _ _).trans (beside_setStashLine _ _ _ _ _)
  · exact beside_writeBackLine _ _ _ _

theorem beside_flushRange (s : State) (own : Option (Nat × Nat × Nat)) (pa n : Nat) (write : Bool) :
    Beside s (flushRange s own pa n write) :=
  .foldl _ (fun s l => beside_flushStash s own l write) _ _

theorem beside_tablesSeen (s : State) (d : BitVec 1024) (ps : List (Nat × Nat)) : Beside s (tablesSeen s d ps) := by
  unfold tablesSeen
  split
  · exact .refl s
  · refine .foldl _ (fun s p => ?_) _ _
    split
    · exact .refl s
    · exact .foldl _ (fun s r => beside_flushRange s _ _ _ _) _ _

theorem beside_readPieces (ps : List (Nat × Nat × Nat)) : ∀ s : State, Beside s (readPieces s ps).2 := by
  induction ps with
  | nil => exact .refl
  | cons p r ih => exact fun s => (beside_flushRange s none p.2.1 p.2.2 false).trans (ih _)

theorem beside_rangeSeen (s : State) (ctx : Nat) (d : BitVec 1024) (va n : Nat) :
    Beside s (rangeSeen s ctx d va n) := by
  unfold rangeSeen
  split
  · exact .refl s
  · dsimp only
    split
    · exact beside_tablesSeen _ _ _
    · exact (beside_tablesSeen _ _ _).trans (beside_readPieces _ _)

/-! Timelines and snapshots. -/

theorem beside_setTl (s : State) (ctx h : Nat) (t : Tl) : Beside s (setTl s ctx h t) := .setCtx rfl

theorem beside_snapFinish (s : State) (ctx : Nat) : Beside s (snapFinish s ctx) := by
  unfold snapFinish
  split
  · refine .trans ?_ (beside_setTl _ _ _ _)
    exact .setCtx rfl
  · exact .refl s

theorem beside_staleTakes (s : State) (p : Nat → Bool) : Beside s (staleTakes s p) :=
  .warpsOnly _ (fun e he => by
    obtain ⟨f, hf, rfl⟩ := List.mem_map.1 he
    exact ⟨f, hf, rfl⟩)

theorem beside_ringDoorbells (s : State) (ms : List Nat) : Beside s (ringDoorbells s ms) := .quiet rfl

theorem beside_snapLine (fuel : Nat) : ∀ (s : State) (h : Nat × Nat × Nat), Beside s (snapLine fuel s h) := by
  induction fuel with
  | zero => exact fun s _ => .refl s
  | succ n ih =>
    rintro s ⟨ctx, pa, area⟩
    unfold snapLine
    split
    · exact .refl s
    split
    · exact .refl s
    dsimp only
    refine .trans ?_ (beside_snapFinish _ _)
    refine .trans ?_ (beside_ringDoorbells _ _)
    refine .trans ?_ (beside_carryPoison _ _ _ _)
    refine .trans ?_ (beside_plainStore _ _ _)
    have flushed {x : Ctx} (h : x.mbx = (ctxRec s ctx).mbx) :
        Beside s (flushRange (flushRange (setCtx s ctx x) none pa 128 false) none area 128 true) :=
      .trans (.trans (.setCtx h) (beside_flushRange ..)) (beside_flushRange ..)
    have copied (s : State) : Beside s ((snapHits s area 128).foldl (snapLine n) s) := .foldl _ (ih · ·) _ s
    split
    · refine .trans ?_ (copied _)
      exact flushed rfl
    · refine .trans ?_ (beside_staleTakes _ _)
      refine .trans ?_ (copied _)
      exact flushed rfl

theorem beside_snapBefore (s : State) (pa n : Nat) : Beside s (snapBefore s pa n) :=
  .foldl _ (beside_snapLine _ · ·) _ _

/-! Debug traps and the rollback of a take. -/

/-- From s to t only records have gone to the capture buffer or been dropped: bytes are handed to memory and counted (R344). -/
def OnlyRecords (s t : State) : Prop :=
  t = { s with posted := t.posted, capOff := t.capOff, capDropped := t.capDropped }

namespace OnlyRecords

theorem refl (s : State) : OnlyRecords s s := rfl

theorem trans {s t u : State} (h : OnlyRecords s t) (k : OnlyRecords t u) : OnlyRecords s u := by
  unfold OnlyRecords at h k ⊢
  rw [k, h]

theorem foldl {α : Type} (f : State → α → State) (h : ∀ s a, OnlyRecords s (f s a)) (l : List α) (s : State) :
    OnlyRecords s (l.foldl f s) := by
  induction l generalizing s with
  | nil => exact refl s
  | cons a r ih => exact (h s a).trans (ih _)

theorem warps {s t : State} (h : OnlyRecords s t) : t.warps = s.warps := by
  unfold OnlyRecords at h
  rw [h]

theorem beside {s t : State} (h : OnlyRecords s t) : Beside s t := by
  unfold OnlyRecords at h
  exact .quiet (by rw [h])

end OnlyRecords

theorem onlyRecords_capPut (s : State) (bs : List Byte) : OnlyRecords s (capPut s bs) := by
  unfold capPut
  dsimp only
  split
  · rfl
  split <;> rfl

theorem onlyRecords_capRecordWith (s : State) (serial wg thread kind type die core : Nat) (payload : List Nat)
    (conf : Option Nat) (more : List Byte) :
    OnlyRecords s (capRecordWith s serial wg thread kind type die core payload conf more) := by
  unfold capRecordWith
  dsimp only
  split
  · rfl
  split
  · exact onlyRecords_capPut _ _
  split <;> rfl

theorem onlyRecords_warpRecordOf (s : State) (k : Nat) (w : Warp) (n type : Nat) (payload : List Nat) :
    OnlyRecords s (warpRecordOf s k w n type payload) := onlyRecords_capRecordWith ..

theorem onlyRecords_warpRecord (s : State) (k : Nat) (w : Warp) (l type : Nat) (payload : List Nat) :
    OnlyRecords s (warpRecord s k w l type payload) := onlyRecords_warpRecordOf ..

theorem beside_holdWarp (s : State) (k : Nat) : Beside s (holdWarp s k) := by
  unfold holdWarp
  split
  · exact .refl s
  · next h =>
    split
    · exact .refl s
    · refine .trans ?_ (onlyRecords_warpRecord ..).beside
      exact .setWarp h rfl

theorem beside_holdSaved (s : State) (scope wg : Nat) : Beside s (holdSaved s scope wg) := by
  unfold holdSaved
  dsimp only
  refine .trans ?records (.ctxs _ rfl (fun _ => ⟨rfl, rfl⟩))
  exact .foldl _ (fun s x => .foldl _ (fun s w => (onlyRecords_warpRecord ..).beside) _ _) _ s

theorem beside_holdScope (s : State) (k : Nat) (w : Warp) : Beside s (holdScope s k w) := by
  unfold holdScope
  dsimp only
  split
  · exact .refl s
  split
  · exact .quiet rfl
  · refine .trans ?_ (.foldl _ beside_holdWarp _ _)
    refine .trans ?_ (beside_holdSaved _ _ _)
    exact .quiet rfl

theorem beside_parkLanes (s : State) (k : Nat) (m : Mask) (cause tag : Nat) (pc : DWord) :
    Beside s (parkLanes s k m cause tag pc) := by
  unfold parkLanes
  split
  · exact .refl s
  · next w h =>
    split
    · exact .refl s
    · have records : OnlyRecords s ((lanesOf m).foldl (fun s l => warpRecord s k w l 2
          [pc.toNat, 0, cause + tag * 2 ^ 16]) s) := .foldl _ (fun s l => onlyRecords_warpRecord ..) _ _
      refine .trans ?_ (beside_holdScope _ _ _)
      exact records.beside.trans (.setWarp (w := w) (records.warps ▸ h) rfl)

theorem beside_stepTrap (s : State) (k : Nat) (m : Mask) (pc : DWord) : Beside s (stepTrap s k m pc) := by
  unfold stepTrap
  split
  · exact .refl s
  split
  · exact beside_parkLanes ..
  · exact .refl s

theorem beside_releaseLanes (s : State) (k : Nat) (m : Mask) : Beside s (releaseLanes s k m) := by
  unfold releaseLanes
  split
  · exact .refl s
  · next h =>
    refine .trans ?_ (beside_stepTrap ..)
    exact .setWarp h rfl

theorem beside_reconSettle (s : State) (k : Nat) : Beside s (reconSettle s k) := by
  unfold reconSettle
  split
  · exact .refl s
  · next h =>
    dsimp only
    split
    · exact .setWarp h rfl
    · refine .trans ?_ (beside_releaseLanes ..)
      exact .setWarp h rfl

theorem rollbackWarp_wg (w : Warp) (tk : Take) (m : Mask) (code : Byte) : (rollbackWarp w tk m code).wg = w.wg := by
  unfold rollbackWarp
  dsimp only
  split <;> rfl

theorem rollbackWait_wg (w : Warp) (m : Mask) (code : Byte) : (rollbackWait w m code).wg = w.wg := by
  unfold rollbackWait
  dsimp only
  split <;> rfl

theorem beside_rollbackNow (s : State) (k : Nat) (m : Mask) (code : Byte) : Beside s (rollbackNow s k m code) := by
  unfold rollbackNow
  split
  · exact .refl s
  · next h =>
    split
    · exact .refl s
    · refine .trans ?_ (beside_stepTrap ..)
      exact (Beside.setWarp h (rollbackWarp_wg ..)).trans (beside_reconSettle ..)

theorem beside_abortTake (s : State) (k : Nat) (code : Byte) : Beside s (abortTake s k code) := by
  unfold abortTake
  split
  · exact .refl s
  unfold rollback
  split
  · exact .refl s
  · next h =>
    dsimp only
    split
    · exact .refl s
    split
    · exact .setWarp h (rollbackWait_wg ..)
    · exact beside_rollbackNow ..

theorem beside_conflict (s : State) (own : Option Nat) (line : Nat) : Beside s (conflict s own line) :=
  .foldl _ (beside_abortTake · · 2) _ _

/-! Writes by an agent outside every grid, and the status block of a queue. -/

theorem beside_writeQuiet_outside (s : State) (va pa : Nat) (bs : List Byte) :
    Beside s (writeQuiet s outside va pa bs) := by
  have e : ownStash s outside va = none := rfl
  simp only [writeQuiet, e]
  refine .trans ?_ (beside_plainStore ..)
  refine .trans ?_ (.foldl _ (beside_conflict · _ ·) _ _)
  exact (beside_flushRange ..).trans (beside_snapBefore ..)

theorem beside_writePhys (s : State) (pa : Nat) (bs : List Byte) : Beside s (writePhys s pa bs) :=
  .trans (.foldl _ (fun s _ => beside_writeQuiet_outside s _ _ _) _ s) (.quiet rfl)

theorem beside_writePieces (ps : List (Nat × Nat × Nat)) : ∀ (s : State) (bs : List Byte),
    Beside s (writePieces s ps bs) := by
  induction ps with
  | nil => exact fun s _ => .refl s
  | cons p r ih => exact fun s bs => (beside_writePhys s p.2.1 (bs.take p.2.2)).trans (ih _ _)

theorem beside_vWrite {s t : State} {ctx va : Nat} {d : BitVec 1024} {bs : List Byte} (h : vWrite s ctx d va bs = .ok t) :
    Beside s t := by
  unfold vWrite at h
  split at h
  · cases h
  · cases h; exact beside_writePieces ..

theorem beside_writeStatus (s : State) (q : Nat) : Beside s (writeStatus s q) := by
  unfold writeStatus
  by_cases h0 : qStatus (queueRec s q).desc = 0
  · simp only [h0, if_true, true_or]
    exact .refl s
  · simp only [h0, if_false, false_or]
    have seen (d : BitVec 1024) (ps : List (Nat × Nat)) : Beside s (tablesSeen (rangesSeen s (queueRec s q)) d ps) :=
      (beside_rangeSeen ..).trans (beside_tablesSeen ..)
    split
    · exact seen _ _
    split
    · next h => exact (seen _ _).trans (beside_vWrite h)
    · exact seen _ _

/-- An event for the host goes to its ring, or is dropped and counted (R401). -/
theorem hostEvent_rest (s : State) (kind data ctx die : Nat) :
    let t := hostEvent s kind data ctx die
    t = { s with evLost := t.evLost, evTail := t.evTail, posted := t.posted, sent := t.sent } := by
  unfold hostEvent
  dsimp only
  split
  · rfl
  generalize leBytes 32 _ = entry
  split <;> rfl

theorem sent_hostEvent (s : State) (kind data ctx die : Nat) : s.sent <+: (hostEvent s kind data ctx die).sent := by
  unfold hostEvent
  dsimp only
  split
  · exact List.prefix_rfl
  generalize leBytes 32 _ = entry
  split
  · exact List.prefix_append _ _
  · exact List.prefix_rfl

theorem beside_hostEvent (s : State) (kind data ctx die : Nat) : Beside s (hostEvent s kind data ctx die) := by
  have h := hostEvent_rest s kind data ctx die
  have sent := sent_hostEvent s kind data ctx die
  dsimp only at h
  generalize hostEvent s kind data ctx die = t at h sent ⊢
  rw [h]
  exact { Beside.refl s with sent := sent }

/-! The units of a grid that ends (R324). -/

theorem beside_updCensus (s : State) (id : Nat) (f : Census → Census) : Beside s (updCensus s id f) := by
  unfold updCensus
  dsimp only
  exact .ctxs _ rfl (fun _ => ⟨rfl, rfl⟩)

theorem beside_withdraw (s : State) (id entry : Nat) : Beside s (withdraw s id entry) := beside_updCensus ..

theorem beside_entryGone (s : State) (e : KEntry) : Beside s (entryGone s e) := by
  unfold entryGone dropResponders
  dsimp only
  refine .trans (.foldl _ (beside_withdraw · · e.id) e.answered s) ?_
  exact .ctxs _ rfl (fun _ => ⟨rfl, rfl⟩)

theorem beside_setCore (s : State) (c : Nat) (x : Core) : Beside s (setCore s c x) := .quiet rfl

theorem beside_removeEntries (s : State) (c : Nat) (p : KEntry → Bool) : Beside s (removeEntries s c p) :=
  .trans (beside_setCore ..) (.foldl _ beside_entryGone _ _)

theorem beside_seqFlightDone (s : State) (c : Nat) (q : Seq) : Beside s (seqFlightDone s c q) :=
  .foldl _ (fun _ _ => .foldl _ (fun s _ => beside_setTl s ..) _ _) _ _

theorem beside_releaseSeq (s : State) (c : Nat) (p : Nat → Bool) : Beside s (releaseSeq s c p) := by
  unfold releaseSeq
  split
  · exact .refl s
  split
  · exact (beside_seqFlightDone ..).trans (beside_setCore ..)
  · exact .refl s

theorem beside_dropCopies (s : State) (c : Nat) (p : Nat → Bool) : Beside s (dropCopies s c p) :=
  .trans (.foldl _ (fun s _ => beside_setTl s ..) _ _) (beside_setCore ..)

theorem beside_countRetired (s : State) (wg : Nat) : Beside s (countRetired s wg) := by
  unfold countRetired
  split
  · exact .refl s
  · next h => exact .setWg h

theorem beside_grantClaims (c n : Nat) : ∀ s : State, Beside s (grantClaims s c n) := by
  induction n with
  | zero => exact .refl
  | succ n ih =>
    intro s
    unfold grantClaims
    split
    · exact .refl s
    dsimp only
    split
    · exact (beside_setCore ..).trans (ih _)
    next h =>
    split
    · refine .trans ?_ (ih _)
      refine .trans ?_ (beside_releaseLanes ..)
      refine .trans ?_ (beside_countRetired ..)
      exact (beside_setCore ..).trans (.setWarp h rfl)
    · exact .refl s

theorem beside_dropOnCore (s : State) (p : Nat → Bool) (c : Nat) : Beside s (dropOnCore s p c) := by
  unfold dropOnCore grantAll
  dsimp only
  refine .trans ?_ (beside_grantClaims ..)
  refine .trans ?_ (beside_setCore ..)
  exact ((beside_removeEntries ..).trans (beside_releaseSeq ..)).trans (beside_dropCopies ..)

theorem beside_withdrawResponders (s : State) (p : Nat → Bool) : Beside s (withdrawResponders s p) :=
  .foldl _ (fun s _ => beside_withdraw s ..) _ _

theorem beside_savedFlights (s : State) (p : Nat → Bool) : Beside s (savedFlights s p) := by
  refine .foldl _ (fun s x => ?_) _ _
  split
  · exact beside_seqFlightDone ..
  · exact .refl s

/-- The units of some workgroups go, and what stays is as it was. -/
theorem dropUnits_gone (s : State) (p : Nat → Bool) : Beside s (dropUnits s p) ∧
    (∀ e ∈ (dropUnits s p).warps, p e.2.wg = false) ∧ ∀ e ∈ (dropUnits s p).wgs, p e.1 = false := by
  unfold dropUnits
  generalize h1 : savedFlights (withdrawResponders s p) p = s1
  have b1 : Beside s s1 := h1 ▸ (beside_withdrawResponders ..).trans (beside_savedFlights ..)
  dsimp only
  generalize h2 : ((s1.cores.map (·.1)).foldl (fun s c => dropOnCore s p c)
    { s1 with warps := s1.warps.filter (fun e => !p e.2.wg) }) = s2
  have b2 : Beside { s1 with warps := s1.warps.filter (fun e => !p e.2.wg) } s2 :=
    h2 ▸ .foldl _ (beside_dropOnCore · p ·) _ _
  generalize h3 : (s2.transit.filter (fun t => p t.2.entry.owner)).foldl (fun s t => entryGone s t.2.entry) s2 = s3
  have b3 : Beside s2 s3 := h3 ▸ .foldl _ (fun s (t : Nat × Transit) => beside_entryGone s t.2.entry) _ _
  have kept : Beside s1 { s1 with warps := s1.warps.filter (fun e => !p e.2.wg) } :=
    .warpsOnly _ (fun e he => ⟨e, (List.mem_filter.1 he).1, rfl⟩)
  have saved : Beside s3 { s3 with
      ctxs := s3.ctxs.map (fun e => (e.1, { e.2 with saved := e.2.saved.filter (fun x => !p x.wg) })) } :=
    .ctxs _ rfl (fun _ => ⟨rfl, rfl⟩)
  refine ⟨((b1.trans kept).trans (b2.trans b3)).trans ?_, fun e he => ?_, fun e he => ?_⟩
  · exact { Beside.refl s3 with
      mbx := saved.mbx
      wgs := fun e he => ⟨e, (List.mem_filter.1 he).1, rfl⟩ }
  · obtain ⟨f, hf, ef⟩ := (b2.trans b3).warps e he
    simpa [ef] using (List.mem_filter.1 hf).2
  · simpa using (List.mem_filter.1 he).2

/-! The record of the grid's end on its queue (R44, R333). -/

theorem packetDone_record (x : Queue) : (packetDone x).record = x.record := by
  unfold packetDone packetOver
  dsimp only
  split <;> rfl

/-- From s to t the grid n has ended: it is gone with its warps and workgroups, the other grids go on, and what has been
sent stays sent. -/
structure GridGone (s t : State) (n : Nat) : Prop where
  gone : tget t.grids n = none
  warps : ∀ e ∈ t.warps, serialOf e.2.wg ≠ n
  wgs : ∀ e ∈ t.wgs, serialOf e.1 ≠ n
  others : ∀ m, m ≠ n →
    (tget t.grids m).map (fun g => { g with ldk := [] }) = (tget s.grids m).map (fun g => { g with ldk := [] })
  sent : s.sent <+: t.sent

/-- The record of an ended grid changes its queue, and beside it nothing of grids. -/
theorem recordOnQueue_beside (s : State) (q ctx serial die : Nat) (r : BitVec 512) :
    ∃ x : Queue, x.record = r ∧ Beside (setQueue s q x) (recordOnQueue s q ctx serial die r) := by
  unfold recordOnQueue putQueue
  dsimp only
  split
  · exact ⟨_, packetDone_record _, (beside_writeStatus ..).trans (beside_hostEvent ..)⟩
  · exact ⟨{ queueRec s q with record := r }, rfl, (beside_writeStatus ..).trans (beside_hostEvent ..)⟩

theorem finishGrid_gone {s : State} {n die : Nat} {r : BitVec 512} {g : Grid} (h : tget s.grids n = some g) :
    GridGone s (finishGrid s n r die) n ∧ (queueRec (finishGrid s n r die) g.queue).record = r := by
  unfold finishGrid
  rw [h]
  dsimp only
  obtain ⟨b, hw, hg⟩ := dropUnits_gone s (fun wg => serialOf wg == n)
  generalize dropUnits s (fun wg => serialOf wg == n) = s1 at b hw hg ⊢
  obtain ⟨x, hx, b2⟩ := recordOnQueue_beside { s1 with
    grids := tdel s1.grids n, pageFaults := s1.pageFaults.filter (fun f => f.1 != 64 + n) } g.queue g.ctx n die r
  generalize recordOnQueue _ g.queue g.ctx n die r = t at b2 ⊢
  refine ⟨⟨?_, fun e he => ?_, fun e he => ?_, fun m hm => ?_, ?_⟩, ?_⟩
  · simpa [tget_tdel] using b2.grids n
  · obtain ⟨f, hf, ef⟩ := b2.warps e he
    exact ef ▸ by simpa using hw f hf
  · obtain ⟨f, hf, ef⟩ := b2.wgs e he
    exact ef ▸ by simpa using hg f hf
  · refine (b2.grids m).trans (Eq.trans ?_ (b.grids m))
    simp [tget_tdel, Ne.symm hm]
  · exact b.sent.trans b2.sent
  · rw [queueRec, b2.queues, ← hx]
    exact congrArg Queue.record (queueRec_setQueue_self ..)

/-! The end of a grid by a fault (R41, R44). -/

/-- A grid ends by the first of the faults that one clock raises for it (R44). -/
theorem endGrid_eq_endOne (s : State) (n : Nat) (b : Blame) :
    let late := (lateOf s n).filter (fun x => x != b)
    endGrid s n b = endOne s n (firstBlame b late) late.length := by
  simp [endGrid, endGrids, bne, Bool.beq_eq_decide_eq]

/-- The other packages of a grid are told of its end: something is sent, or the gate's deadline noted (R31, R44). -/
theorem sendEnd_beside (s : State) (n : Nat) (g : Grid) (cause : Nat) (r : BitVec 512) :
    Beside s (sendEnd s n g cause r) ∧ (sendEnd s n g cause r).grids = s.grids := by
  have told (s : State) (kind : Nat) (fs : List Nat) (data : List Byte) : Beside s (sendOut s kind fs data) :=
    { Beside.refl s with sent := List.prefix_append _ _ }
  unfold sendEnd
  split
  · exact ⟨.refl s, rfl⟩
  split
  · exact ⟨.quiet rfl, rfl⟩
  unfold sendGate
  split
  · exact ⟨told .., rfl⟩
  · exact ⟨told .., rfl⟩

/-- The record that a fault leaves on its grid's queue (R333). -/
def endRecord (s : State) (n : Nat) (g : Grid) (b : Blame) (others : Nat) : BitVec 512 :=
  faultRecord (gridConf g) (cycleOf s b.die) n (g.supp + others) (if hMulti g.hdr then g.rank else 0) b

theorem endOne_gone {s : State} {n : Nat} {g : Grid} (h : tget s.grids n = some g) (b : Blame) (others : Nat) :
    GridGone s (endOne s n b others) n ∧ (queueRec (endOne s n b others) g.queue).record = endRecord s n g b others := by
  unfold endOne
  rw [h]
  dsimp only
  generalize faultRecord none _ _ _ _ _ = r
  obtain ⟨b1, hg⟩ := sendEnd_beside s n g b.cause r
  generalize sendEnd s n g b.cause r = s1 at b1 hg ⊢
  obtain ⟨gone, rec⟩ := finishGrid_gone (s := s1) (die := b.die) (r := endRecord s n g b others) (hg ▸ h)
  exact ⟨{ gone with
    others := fun m hm => hg ▸ gone.others m hm
    sent := b1.sent.trans gone.sent }, rec⟩

theorem endGrid_gone {s : State} {n : Nat} {g : Grid} (h : tget s.grids n = some g) (b : Blame) :
    GridGone s (endGrid s n b) n := by
  rw [endGrid_eq_endOne]
  exact (endOne_gone h _ _).1

end Sys2Proof.Machine

namespace Sys2Proof.Machine

/-! Fields of a bit string that is given by a number. -/

/-- A field of a number's bit string is a digit of the number. -/
theorem field_ofNat {n hi lo : Nat} (x : Nat) (h : hi < n) (hl : lo ≤ hi) :
    field (BitVec.ofNat n x) hi lo = x / 2 ^ lo % 2 ^ (hi - lo + 1) := by
  rw [field, BitVec.extractLsb'_toNat, BitVec.toNat_ofNat, Nat.shiftRight_eq_div_pow]
  have e : n = lo + (hi - lo + 1) + (n - hi - 1) := by omega
  rw [e, Nat.add_assoc, Nat.pow_add, Nat.mod_mul_right_div_self, Nat.pow_add, Nat.mod_mul_right_mod]

/-- What the fault record of a context that is not confidential holds (R333). -/
theorem faultRecord_fields (time grid supp pkg : Nat) (b : Blame) :
    let r := faultRecord none time grid supp pkg b
    field r 6 0 = b.cause % 128 ∧ field r 319 256 = b.faddr % 2 ^ 64 ∧ field r 383 320 = b.fpc % 2 ^ 64 ∧
      field r 447 384 = grid % 2 ^ 64 ∧ field r 255 192 = b.wg % 2 ^ 64 ∧ field r 143 136 = b.tcode % 256 ∧
      field r 101 97 = b.lane % 32 := by
  obtain ⟨cause, fpc, faddr, wg, thread, tcode, src, die, core, slot, lane⟩ := b
  dsimp only [faultRecord]
  refine ⟨?_, ?_, ?_, ?_, ?_, ?_, ?_⟩ <;> rw [field_ofNat _ (by decide) (by decide)] <;> norm_num <;> omega


theorem gridConf_eq_none {g : Grid} (h : g.desc.getLsbD 3 = false) : gridConf g = none := by
  rw [gridConf, h]
  rfl

/-! The fault of a lane (R41, R333). -/

theorem members_clearPass (w : Warp) : members (clearPass w) = members w := by
  unfold clearPass
  split
  · exact members_modLanes _ _ _ (fun _ _ => rfl)
  · rfl

/-- A fault that no open take turns into an abort ends the grid (R41, R295). -/
theorem finishEff_fault (s : State) (k : Nat) (w : Warp) (cause faddr lane tcode : Nat)
    (h : takeFault cause = false ∨ (members w).getLsbD lane = false) :
    finishEff s k w (.fault cause faddr lane tcode) =
      endGrid s (serialOf w.wg) (blameLane k w lane cause faddr tcode (wordAddr (curPC w))) := by
  have e : (takeFault cause && (members w).getLsbD lane) = false := by
    rcases h with h | h <;> simp [h]
  simp only [finishEff, e, faultLane, Bool.false_eq_true, if_false]

/-- Of the accesses that are late, those of a warp are its own. -/
def lateOfWarp (s : State) (e : Nat × Warp) : List (Nat × Blame) :=
  if ctxStopped s (ctxOfWg s e.2.wg) then []
  else (latePends s e.1 e.2.pend).map (fun p => (serialOf e.2.wg, lateBlame e.1 e.2.wg e.2.kind p))

/-- The late accesses that stand with no warp: those that warps have left, and copies. -/
def lateElsewhere (s : State) : List (Nat × Blame) :=
  s.grids.flatMap (fun e => (e.2.loads.filter (fun x => looseLate s x.warp x)).map (fun x =>
    (e.1, lateBlame x.warp x.wg x.kind x.pend))) ++
  s.cores.flatMap (fun e => e.2.copies.filterMap (fun x => (copyLate s e.1 x).map (fun a =>
    (serialOf x.wg, copyBlame x 0x1E a))))

theorem lateAll_eq (s : State) : lateAll s = s.warps.flatMap (lateOfWarp s) ++ lateElsewhere s :=
  List.append_assoc ..

/-- The late access of a warp names its slot. -/
theorem blameKey_lateBlame (k wg : Nat) (kind : WKind) (p : Pend) :
    blameKey (lateBlame k wg kind p) = (64 * dieOf (coreOf k) + coreOf k % 64) * 64 + k % 64 := by
  unfold lateBlame
  split <;> rfl

/-- Where no access of a grid is late, one that is late once a warp has been replaced is that warp's. -/
theorem lateOf_setWarp {s : State} {n : Nat} (h : lateOf s n = []) (k : Nat) (w : Warp) {b : Blame}
    (hb : b ∈ lateOf (setWarp s k w) n) : ∃ p, b = lateBlame k w.wg w.kind p := by
  have none (x : Nat × Blame) (hx : x ∈ lateAll s) : x.1 ≠ n := fun e => by
    have : x.2 ∈ lateOf s n := List.mem_map.2 ⟨x, List.mem_filter.2 ⟨hx, by simpa using e⟩, rfl⟩
    rw [h] at this
    exact List.not_mem_nil this
  obtain ⟨x, hx, rfl⟩ := List.mem_map.1 hb
  obtain ⟨hx, hn⟩ := List.mem_filter.1 hx
  rw [lateAll_eq, List.mem_append] at hx
  rcases hx with hx | hx
  · obtain ⟨e, he, hx⟩ := List.mem_flatMap.1 hx
    rcases mem_tput he with rfl | he
    · unfold lateOfWarp at hx
      split at hx
      · cases hx
      · obtain ⟨p, -, rfl⟩ := List.mem_map.1 hx
        exact ⟨p, rfl⟩
    · exact absurd (by simpa using hn) (none x (lateAll_eq s ▸ List.mem_append_left _ (List.mem_flatMap.2 ⟨e, he, hx⟩)))
  · exact absurd (by simpa using hn) (none x (lateAll_eq s ▸ List.mem_append_right _ hx))

/-- Of faults of one place the first is recorded (R44). -/
theorem firstBlame_eq (b : Blame) (bs : List Blame) (h : ∀ x ∈ bs, blameKey x = blameKey b) : firstBlame b bs = b := by
  unfold firstBlame
  induction bs with
  | nil => rfl
  | cons x r ih =>
    rw [List.foldl_cons, if_neg (by rw [h x (by simp)]; omega)]
    exact ih (fun y hy => h y (by simp [hy]))

/-- Settles O53: the fault ends the grid as `endGrid` does, and its record stands before every access of the faulting warp
that is late in the same clock. -/
theorem faultsEndTheGrid : Obligations.FaultsEndTheGrid := by
  unfold Obligations.FaultsEndTheGrid
  intro s k w i g cause faddr lane tcode hi hg hm n
  have wgEq : serialOf (clearPass w).wg = n := by rw [clearPass_wg]
  have hg1 : tget (issued s k w).grids n = some g := hg
  rw [Does, finishEff_fault _ _ _ _ _ _ _ (by rwa [members_clearPass]), wgEq] at hi
  generalize hb : blameLane k (clearPass w) lane cause faddr tcode (wordAddr (curPC (clearPass w))) = b at hi
  have gone := endGrid_gone hg1 b
  refine ⟨_, hi, gone.gone, gone.warps, gone.wgs, gone.others, fun hc late => ?_⟩
  have first : firstBlame b ((lateOf (issued s k w) n).filter (fun x => x != b)) = b :=
    firstBlame_eq _ _ (fun x hx => by
      obtain ⟨p, rfl⟩ := lateOf_setWarp late k (clearPass w) (List.mem_filter.1 hx).1
      rw [blameKey_lateBlame, ← hb]
      rfl)
  have record := (endOne_gone hg1 b ((lateOf (issued s k w) n).filter (fun x => x != b)).length).2
  rw [endRecord, gridConf_eq_none hc] at record
  rw [endGrid_eq_endOne, first, record]
  obtain ⟨h1, h2, h3, h4, h5, h6, h7⟩ := faultRecord_fields (cycleOf (issued s k w) b.die) n
    (g.supp + ((lateOf (issued s k w) n).filter (fun x => x != b)).length) (if hMulti g.hdr then g.rank else 0) b
  subst hb
  refine ⟨h1, h2, h3.trans (Nat.mod_eq_of_lt (BitVec.isLt _)), h4, h5.trans ?_, h6, h7⟩
  simp only [blameLane, clearPass_wg]

end Sys2Proof.Machine

/-! PROOF. The start gate of a grid over several packages (01 R30 to R33): one lemma for each event, for the grid that the
package holds under the event's key. -/

namespace Sys2Proof.Machine

/-- A search that only the entry of one key can end finds that entry. -/
theorem find?_eq_of_tget {α : Type} {t : Tbl α} {n : Nat} {g : α} (p : Nat × α → Bool) (hg : tget t n = some g)
    (hp : p (n, g) = true) (only : ∀ e ∈ t, p e = true → e.1 = n) : t.find? p = some (n, g) := by
  induction t with
  | nil => cases hg
  | cons e r ih =>
    obtain ⟨j, x⟩ := e
    by_cases hj : j = n
    · subst hj
      simp only [tget, if_true, Option.some.injEq] at hg
      subst hg
      exact List.find?_cons_of_pos hp
    · rw [List.find?_cons_of_neg (fun h => hj (only _ (by simp) h))]
      simp only [tget, hj, if_false] at hg
      exact ih hg (fun e he => only e (by simp [he]))

section
variable {s : State} {n : Nat} {g : Grid} (hg : tget s.grids n = some g)

/-- A grid is alone under its GATEFID and MKEY (R30). -/
def AloneByKey (s : State) (n : Nat) (g : Grid) : Prop :=
  ∀ e ∈ s.grids, hMulti e.2.hdr = true → hMkey e.2.hdr = hMkey g.hdr → hGateFid e.2.hdr = hGateFid g.hdr → e.1 = n

include hg

theorem gridByKey_alone (hm : hMulti g.hdr = true) (only : AloneByKey s n g) :
    gridByKey s ⟨hGateFid g.hdr, hMkey g.hdr⟩ = some (n, g) := by
  refine find?_eq_of_tget _ hg (by simp [hm]) (fun e he h => ?_)
  simp only [Bool.and_eq_true, beq_iff_eq] at h
  exact only e he h.1.1 h.1.2 h.2

theorem gateMiss_closed (h : g.gateOpen = false) (rank : Nat) :
    gateMiss s n rank = setGrid s n { g with acks := g.acks.filter (· != rank) } := by
  simp only [gateMiss, hg, h, Bool.false_eq_true, if_false]

theorem openGate_open (h : g.gateOpen = true) : openGate s n = s := by
  simp only [openGate, hg, h, if_true]

theorem openGate_closed (h : g.gateOpen = false) (hc : g.claunch = none) :
    openGate s n = beginAll (setGrid s n { g with gateOpen := true, anyBegun := true }) n := by
  simp only [openGate, hg, h, hc, claunchStart, Bool.false_eq_true, if_false]

/-- The gate holder counts a rank once (R31). -/
theorem gateAdd_eq (rank : Nat) : gateAdd s n rank =
    gateCount (setGrid s n { g with acks := if g.acks.contains rank then g.acks else g.acks ++ [rank] }) n := by
  simp only [gateAdd, hg]

/-- The gate stays closed while an acknowledgement is missing, or once the deadline has passed (R31, R32). -/
theorem gateCount_closed (h : g.acks.length ≤ hPkgs g.hdr ∨ g.deadline < cycleOf s 0) : gateCount s n = s := by
  simp only [gateCount, hg]
  exact if_neg (by omega)

/-- The gate opens, and every package is told, with the last acknowledgement that comes in time (R31, R32). -/
theorem gateCount_opens (h0 : g.rank = 0) (hc : g.gateOpen = false) (ha : hPkgs g.hdr < g.acks.length)
    (hd : g.deadline ≥ cycleOf s 0) :
    gateCount s n = openGate (sendGate s 0 (hGateFid g.hdr) (hMkey g.hdr) [0, 4] []) n := by
  simp only [gateCount, hg]
  exact if_pos ⟨h0, hc, ha, hd⟩

end

/-- What the gate holder tells every other package leaves through the first link of die 0 that is up (R31; log 96). -/
theorem sendGate_zero (s : State) (gfid : Nat) (mkey : DWord) (what : List Nat) (data : List Byte) :
    let link := (dieLink s 0).getD 0
    sendGate s 0 gfid mkey what data = { s with sent := s.sent ++ [⟨10, packetHeader (s.fid.getD 0)
      (field (linkRec s link).stat 23 12) link 0 10 data.length :: gfid :: mkey.toNat :: what, data⟩] } := rfl

/-- An end notice ends the grid here, after the gate holder has passed it on (R31, R44). -/
theorem endNotice_ends {s : State} {n : Nat} {g : Grid} {key : GridKey} (hg : tget s.grids n = some g)
    (byKey : gridByKey s key = some (n, g)) (h : ¬ (g.rank = 0 ∧ g.gateOpen = false)) (rank : Nat) (r : BitVec 512) :
    ∃ t, exec (.gateEndNoticeArrival key rank r) s = .next t ∧
      GridGone (if g.rank = 0 then sendGate s 0 key.gfid key.mkey [rank, 3] (leBytes 64 r.toNat) else s) t n := by
  show ∃ t, execGateEndNoticeArrival _ _ _ _ = _ ∧ _
  simp only [execGateEndNoticeArrival, byKey, h, if_false]
  refine ⟨_, rfl, ?_⟩
  have hg1 : tget (if g.rank = 0 then sendGate s 0 key.gfid key.mkey [rank, 3] (leBytes 64 r.toNat) else s).grids n =
      some g := by
    split
    · exact hg
    · exact hg
  generalize (if g.rank = 0 then sendGate s 0 key.gfid key.mkey [rank, 3] (leBytes 64 r.toNat) else s) = s1 at hg1 ⊢
  split
  · exact (finishGrid_gone hg1).1
  · exact (endOne_gone hg1 _ _).1

/-- Settles O42: each event of the gate finds the grid under its key, and does to it what R31 to R33 say. -/
theorem startGate : Obligations.StartGate := by
  unfold Obligations.StartGate
  intro s n g hg hm only key fid ends link told missing
  have byKey : gridByKey s ⟨fid, key⟩ = some (n, g) := gridByKey_alone hg hm only
  have ended (b : Blame) : ends (endGrid s n b) := ⟨(endGrid_gone hg b).gone, (endGrid_gone hg b).warps⟩
  have counted (rank : Nat) (h0 : g.rank = 0) (h5 : 5 ≤ g.stage) :
      exec (.gateAckArrival ⟨fid, key⟩ rank) s = .next (gateAdd s n rank) := by
    show execGateAckArrival _ _ _ = _
    simp only [execGateAckArrival, byKey]
    rw [if_pos ⟨h0, h5⟩]
  refine ⟨fun rank h0 h5 hc hl => ⟨fun h => ?early, fun ha hd => ?opens⟩, fun rank h => ?kept, fun rank hc => ?refusal,
    fun hc hl => ?notice, fun hc => ?again, fun h0 hc => ⟨fun hd => ?late, fun hd => ?intime⟩,
    fun rank => ⟨fun hc => ?lost, fun hc => ?missing⟩, fun rank r => ⟨fun h0 hc => ?endMissing, fun h => ?endNotice⟩⟩
  case early =>
    rw [counted rank h0 h5, gateAdd_eq hg, gateCount_closed (tget_tput_self ..) h]
  case opens =>
    let g1 : Grid := { g with acks := if g.acks.contains rank then g.acks else g.acks ++ [rank] }
    have hg1 : tget (setGrid s n g1).grids n = some g1 := tget_tput_self ..
    have e := counted rank h0 h5
    rw [gateAdd_eq hg, gateCount_opens hg1 h0 hc ha hd, sendGate_zero,
      openGate_closed (g := g1) (tget_tput_self ..) hc hl] at e
    exact ⟨_, e, tget_tput_self .., rfl, rfl⟩
  case kept =>
    show execGateAckArrival _ _ _ = _
    simp only [execGateAckArrival, byKey]
    rw [if_neg (by omega)]
    rfl
  case refusal =>
    let s1 : State := { s with earlyAcks := s.earlyAcks.filter (fun e => e != (key, fid, rank)) }
    have byKey1 : gridByKey s1 ⟨fid, key⟩ = some (n, g) := byKey
    have e : exec (.gateRefusalArrival ⟨fid, key⟩ rank) s = .next (gateMiss s1 n rank) := by
      show (match gridByKey s1 ⟨fid, key⟩ with | some (n, _) => _ | none => _) = _
      rw [byKey1]
    rw [gateMiss_closed (s := s1) hg hc] at e
    exact ⟨_, e, by simp [s1], tget_tput_self ..⟩
  case notice =>
    have e : exec (.gateOpenNoticeArrival ⟨fid, key⟩) s = .next (openGate s n) := by
      show execGateOpenNoticeArrival _ _ = _
      simp only [execGateOpenNoticeArrival, byKey]
    rw [openGate_closed hg hc hl] at e
    exact ⟨_, e, tget_tput_self .., rfl, rfl⟩
  case again =>
    show execGateOpenNoticeArrival _ _ = _
    simp only [execGateOpenNoticeArrival, byKey, openGate_open hg hc]
  case late =>
    refine ⟨endGrid s n (cpBlame 0x49), ?_, rfl, ended _⟩
    show execGateTimeout _ _ = _
    simp only [execGateTimeout, hg]
    exact if_pos ⟨hm, h0, hc, hd⟩
  case intime =>
    show execGateTimeout _ _ = _
    simp only [execGateTimeout, hg]
    exact if_neg (by omega)
  case lost =>
    show execPackageLost _ _ = _
    simp only [execPackageLost, hg, hm, hc, Bool.not_true, Bool.false_eq_true, if_false, if_true]
  case missing =>
    show execPackageLost _ _ = _
    simp only [execPackageLost, hg, hm, hc, Bool.not_true, Bool.false_eq_true, if_false]
    rw [gateMiss_closed hg hc]
  case endMissing =>
    show execGateEndNoticeArrival _ _ _ _ = _
    simp only [execGateEndNoticeArrival, byKey, h0, hc, and_self, if_true]
    rw [gateMiss_closed hg hc]
  case endNotice =>
    have open_ : ¬ (g.rank = 0 ∧ g.gateOpen = false) := by
      rintro ⟨h0, hc⟩
      rcases h with h | h
      · exact h h0
      · simp [hc] at h
    obtain ⟨t, et, gone⟩ := endNotice_ends hg byKey open_ rank r
    refine ⟨t, et, ⟨gone.gone, gone.warps⟩, fun h0 => ?_⟩
    refine gone.sent.subset ?_
    simp only [h0, if_true, sendGate_zero]
    exact List.mem_append_right _ (List.mem_singleton_self _)

end Sys2Proof.Machine

/-! PROOF. Debug traps (01 R25, 23 R326, R336 to R338): where lanes that park stand, before the word that trapped or after
the word that has retired. -/

namespace Sys2Proof.Machine

/-! The lanes of a mask, by the threads of a warp. -/

/-- A lane is in the mask of a list of lanes, whatever else the list holds. -/
theorem getLsbD_maskOf_of_mem {ls : List Nat} {j : Nat} (h : j ∈ ls) (hj : j < 32) : (maskOf ls).getLsbD j = true := by
  have grows (ls : List Nat) (m : Mask) (hm : m.getLsbD j = true) :
      (ls.foldl (fun m l => m ||| laneBit l) m).getLsbD j = true := by
    induction ls generalizing m with
    | nil => exact hm
    | cons l r ih => exact ih _ (by simp [hm])
  obtain ⟨a, b, rfl⟩ := List.append_of_mem h
  rw [maskOf, List.foldl_append, List.foldl_cons]
  exact grows _ _ (by simp [getLsbD_laneBit j j hj])

theorem getLsbD_lanesWhere {w : Warp} {c : Thread → Bool} {l : Nat} {x : Thread} (h : thr w l = some x) (hc : c x = true)
    (hl : l < 32) : (lanesWhere w c).getLsbD l = true :=
  getLsbD_maskOf_of_mem (List.mem_map.2 ⟨(l, x), List.mem_filter.2 ⟨tget_mem h, hc⟩, rfl⟩) hl

theorem getLsbD_of_and_eq_zero {a b : Mask} (h : a &&& b = 0) {l : Nat} (ha : a.getLsbD l = true) : b.getLsbD l = false := by
  have := congrArg (fun m => m.getLsbD l) h
  simpa [ha] using this

/-- Of the active lanes none is a member where no active thread is one. -/
theorem NoMember.and_not {w : Warp} (h : NoMember w) (x : Mask) : w.act &&& ~~~(members w &&& x) = w.act := by
  refine BitVec.eq_of_getLsbD_eq (fun i hi => ?_)
  cases ha : w.act.getLsbD i
  · simp [ha]
  · have out := getLsbD_of_and_eq_zero h ha
    rw [BitVec.getLsbD_and, BitVec.getLsbD_not, BitVec.getLsbD_and, ha, out]
    simp [hi]

/-! Parked lanes. -/

/-- A warp some of whose lanes a debug trap has parked (R25). -/
def parked (w : Warp) (m : Mask) (cause : Nat) (pc : DWord) : Warp :=
  { modLanes w m (fun _ t => { t with wait := .debug, pass1 := cause != 0x72 && wordAddr t.pc == pc }) with
    act := w.act &&& ~~~m, cand := w.cand &&& ~~~m }

theorem thr_parked (w : Warp) (m : Mask) (cause : Nat) (pc : DWord) (l : Nat) : thr (parked w m cause pc) l =
    (thr w l).map (fun x => if m.getLsbD l then
      { x with wait := .debug, pass1 := cause != 0x72 && wordAddr x.pc == pc } else x) :=
  thr_modLanes w m (fun _ t => { t with wait := .debug, pass1 := cause != 0x72 && wordAddr t.pc == pc }) l

/-- Where no freeze scope is set, a debug trap changes its own warp alone, but for the records (R338, R343). -/
theorem parkLanes_noScope {s : State} {k : Nat} {w : Warp} (h : tget s.warps k = some w) (hd : dbgOf s w.wg / 64 % 4 = 0)
    {m : Mask} (hm : m ≠ 0) (cause tag : Nat) (pc : DWord) :
    ∃ s1, OnlyRecords s s1 ∧ parkLanes s k m cause tag pc = setWarp s1 k (parked w m cause pc) := by
  have records : OnlyRecords s ((lanesOf m).foldl (fun s l => warpRecord s k w l 2
    [pc.toNat, 0, cause + tag * 2 ^ 16]) s) := .foldl _ (fun s l => onlyRecords_warpRecord ..) _ _
  refine ⟨_, records, ?_⟩
  simp only [parkLanes, h, hm, if_false]
  generalize (lanesOf m).foldl _ s = s1 at records
  have scope : dbgOf (setWarp s1 k (parked w m cause pc)) w.wg / 64 % 4 = 0 := by
    have e : dbgOf (setWarp s1 k (parked w m cause pc)) w.wg = dbgOf s w.wg := by rw [records]; rfl
    rw [e, hd]
  exact if_pos scope

theorem sameRegs_parked (w : Warp) (m : Mask) (cause : Nat) (pc : DWord) : SameRegs w (parked w m cause pc) :=
  ⟨rfl, fun _ _ _ => rfl⟩

/-- The lanes that a breakpoint stops are active. -/
theorem abpLanes_and_members {s : State} {w : Warp} (h : NoMember w) : abpLanes s w &&& members w = 0 := by
  unfold abpLanes
  split
  · refine BitVec.eq_of_getLsbD_eq (fun i hi => ?_)
    rw [BitVec.getLsbD_and, getLsbD_maskWhere]
    cases ha : w.act.getLsbD i
    · simp
    · simp [getLsbD_of_and_eq_zero h ha]
  · simp

/-! A word that retires in single-step mode. -/

theorem stillThere_noMember {w : Warp} (h : NoMember w) (w1 : Warp) : stillThere w w1 = w.act := by
  unfold stillThere
  split
  · rfl
  · exact h.and_not _

theorem countRetired_warps (s : State) (wg : Nat) : (countRetired s wg).warps = s.warps := by
  unfold countRetired
  split <;> rfl

theorem dbgOf_countRetired (s : State) (wg wg1 : Nat) : dbgOf (countRetired s wg) wg1 = dbgOf s wg1 := by
  unfold countRetired
  split <;> rfl

theorem thr_goOn {w : Warp} (h : NoMember w) (l : Nat) : thr (goOn w w) l =
    (thr w l).map (fun x => if w.act.getLsbD l then { x with pc := nextPC w } else x) := by
  have e : thr (goOn w w) l = thr (setPC w w.act (nextPC w)) l := by
    unfold goOn
    rw [stillThere_noMember h]
    dsimp only
    split <;> rfl
  rw [e]
  exact thr_modLanes w w.act (fun _ t => { t with pc := nextPC w }) l

/-- What a word that changes nothing leaves of its warp but PCs: the lanes active, or none after the clause (R95). -/
theorem goOn_rest (w : Warp) : goOn w w = { w with threads := (goOn w w).threads, act := (goOn w w).act } := by
  unfold goOn
  dsimp only
  split <;> rfl

theorem goOn_act (w : Warp) : (goOn w w).act = w.act ∨ (goOn w w).act = 0 := by
  unfold goOn
  dsimp only
  split
  · exact .inr rfl
  · exact .inl rfl

theorem members_goOn (w : Warp) : members (goOn w w) = members w := by
  have e : members (goOn w w) = members (setPC w (stillThere w w) (nextPC w)) := by
    unfold goOn
    dsimp only
    split <;> rfl
  rw [e]
  exact members_modLanes _ _ _ (fun _ _ => rfl)

/-- A word that changes nothing retires with its lanes at the next word (R95). -/
theorem finishEff_unchanged {s : State} {k : Nat} {w : Warp} (h : tget s.warps k = some w) :
    finishEff s k w (.next s) = retire (setWarp s k (goOn w w)) k w := by
  simp only [finishEff, h]

/-- The step trap parks the lanes of a mask that wait for nothing and are no members (R297, R337). -/
theorem stepTrap_eq_parkLanes {s : State} {k : Nat} {w : Warp} (h : tget s.warps k = some w) (hs : w.sstep = true) {m : Mask}
    (free : ∀ l, m.getLsbD l = true → ∃ x, thr w l = some x ∧ x.wait = .none) (hm : m &&& members w = 0) (pc : DWord) :
    stepTrap s k m pc = parkLanes s k m 0x72 0 pc := by
  have e : m &&& lanesWhere w (fun t => t.wait == .none) &&& ~~~members w = m := by
    refine BitVec.eq_of_getLsbD_eq (fun i hi => ?_)
    cases ha : m.getLsbD i
    · simp [ha]
    · obtain ⟨x, hx, hw⟩ := free i ha
      have there := getLsbD_lanesWhere (c := fun t => t.wait == .none) hx (by simp [hw]) hi
      rw [BitVec.getLsbD_and, BitVec.getLsbD_and, BitVec.getLsbD_not, ha, there, getLsbD_of_and_eq_zero hm ha]
      simp [hi]
  simp only [stepTrap, h, hs, if_true, e]

/-- In single-step mode a word that changes nothing retires and parks its lanes at the next word (R326, R337). -/
theorem retire_parks {s : State} {k : Nat} {w : Warp} (h : tget s.warps k = some w) (hn : NoMember w)
    (hs : w.sstep = true) (hd : dbgOf s w.wg / 64 % 4 = 0)
    (free : ∀ l, w.act.getLsbD l = true → ∃ x, thr w l = some x ∧ x.wait = .none) :
    ∃ w1, tget (finishEff s k w (.next s)).warps k = some w1 ∧ w1.act = 0 ∧ SameRegs w w1 ∧
      ∀ l, thr w1 l = (thr w l).map (fun x => if w.act.getLsbD l then
        { x with pc := nextPC w, wait := .debug, pass1 := false } else x) := by
  rw [finishEff_unchanged h, retire]
  generalize hg : goOn w w = g
  have rest : g = { w with threads := g.threads, act := g.act } := by rw [← hg]; exact goOn_rest w
  have threads (l : Nat) : thr g l = (thr w l).map (fun x => if w.act.getLsbD l then { x with pc := nextPC w } else x) := by
    rw [← hg]; exact thr_goOn hn l
  have mem : w.act &&& members g = 0 := by rw [← hg, members_goOn]; exact hn
  have sstep : g.sstep = true := by rw [rest]; exact hs
  have regs : SameRegs w g := ⟨by rw [rest], fun f l _ => by rw [rest]; rfl⟩
  have act : g.act = w.act ∨ g.act = 0 := by rw [← hg]; exact goOn_act w
  have free1 (l : Nat) (hl : w.act.getLsbD l = true) : ∃ x, thr g l = some x ∧ x.wait = .none := by
    obtain ⟨x, hx, hw⟩ := free l hl
    exact ⟨{ x with pc := nextPC w }, by rw [threads, hx, Option.map_some, if_pos hl], hw⟩
  generalize hu : countRetired (setWarp s k g) w.wg = u
  have there : tget u.warps k = some g := by rw [← hu, countRetired_warps]; exact tget_tput_self ..
  have scope : dbgOf u g.wg / 64 % 4 = 0 := by rw [← hu, dbgOf_countRetired, rest]; exact hd
  simp only [there, sstep, if_true, stillThere_noMember hn]
  rw [stepTrap_eq_parkLanes there sstep free1 mem]
  by_cases h0 : w.act = 0
  · refine ⟨g, by simp [parkLanes, there, h0], by simpa [h0] using act, regs, fun l => ?_⟩
    rw [threads]
    simp [h0]
  · obtain ⟨s1, -, e⟩ := parkLanes_noScope there scope h0 0x72 0 (wordAddr (curPC w))
    refine ⟨parked g w.act 0x72 (wordAddr (curPC w)), by rw [e]; exact tget_tput_self .., ?_,
      ⟨regs.1, regs.2⟩, fun l => ?_⟩
    · show g.act &&& ~~~w.act = 0
      rcases act with h | h <;> simp [h]
    · rw [thr_parked, threads, Option.map_map]
      congr 1
      funext x
      simp only [Function.comp]
      split <;> rfl

/-- Settles O54: the breakpoint parks before the word issues, the step trap after it has retired. -/
theorem debugTraps : Obligations.DebugTraps := by
  unfold Obligations.DebugTraps
  intro s k w hw hn hd
  refine ⟨fun regs body hp ha => ?_, fun free _ hs hi => ?_⟩
  · intro m
    obtain ⟨s1, records, e⟩ := parkLanes_noScope hw hd ha 0x73 0 (wordAddr (curPC w))
    have stop : issueWord s k w regs body = setWarp s1 k (parked w m 0x73 (wordAddr (curPC w))) := by
      rw [← e]
      simp only [issueWord, hp, ha, debugTrap, abpLanes_and_members hn, Bool.false_eq_true, if_false, if_true, ne_eq,
        not_false_eq_true]
    rw [stop]
    refine ⟨parked w m 0x73 (wordAddr (curPC w)), tget_tput_self .., rfl, fun l => ?_, sameRegs_parked .., ?_, ?_⟩
    · rw [thr_parked]
      rfl
    · rw [records]; rfl
    · rw [records]; rfl
  · have mem : NoMember (clearPass w) := by
      rw [NoMember, members_clearPass, clearPass_act]
      exact hn
    have free1 (l : Nat) (hl : (clearPass w).act.getLsbD l = true) :
        ∃ x, thr (clearPass w) l = some x ∧ x.wait = .none := by
      rw [clearPass_act] at hl
      obtain ⟨x, hx, hw⟩ := free l hl
      exact ⟨{ x with pass1 := false }, by rw [thr_clearPass, hx, Option.map_some, if_pos hl], hw⟩
    have scope : dbgOf (setWarp s k (clearPass w)) (clearPass w).wg / 64 % 4 = 0 := by
      rw [clearPass_wg]
      exact hd
    obtain ⟨w1, there, act, regs, threads⟩ := retire_parks (s := setWarp s k (clearPass w)) (w := clearPass w)
      (tget_tput_self ..) mem (by rw [clearPass_sstep]; exact hs) scope free1
    refine ⟨_, w1, laneWord_ready hi (fun s _ _ => .next s), there, act, ⟨by rw [regs.1, clearPass_spoilt],
      fun f l hl => by rw [regs.2 f l hl, rd_clearPass]⟩, fun l => ?_⟩
    rw [threads, thr_clearPass, Option.map_map, nextPC_clearPass, clearPass_act]
    congr 1
    funext x
    simp only [Function.comp]
    split <;> rfl

end Sys2Proof.Machine

/-! PROOF. Links (25 R352 to R355, 29 R414): fields of the error counters, a link's events, its contexts, its limiters. -/

namespace Sys2Proof.Machine

/-! A field of a bit string after a field has been replaced. -/

theorem getLsbD_setField {n : Nat} (x : BitVec n) {hi lo : Nat} (v i : Nat) (hl : lo ≤ hi) :
    (setField x hi lo v).getLsbD i =
      (decide (i < n) && if lo ≤ i ∧ i ≤ hi then v.testBit (i - lo) else x.getLsbD i) := by
  have mask : (BitVec.ofNat n ((2 ^ (hi - lo + 1) - 1) * 2 ^ lo)).getLsbD i =
      (decide (i < n) && decide (lo ≤ i ∧ i ≤ hi)) := by
    rw [BitVec.getLsbD_ofNat, Nat.testBit_mul_two_pow, Nat.testBit_two_pow_sub_one, ← Bool.decide_and]
    congr 2
    exact propext (by omega)
  have value : (BitVec.ofNat n (v % 2 ^ (hi - lo + 1) * 2 ^ lo)).getLsbD i =
      (decide (i < n) && (decide (lo ≤ i ∧ i ≤ hi) && v.testBit (i - lo))) := by
    rw [BitVec.getLsbD_ofNat, Nat.testBit_mul_two_pow, Nat.testBit_mod_two_pow, ← Bool.and_assoc (decide (lo ≤ i)),
      ← Bool.decide_and]
    congr 3
    exact propext (by omega)
  rw [setField, BitVec.getLsbD_or, BitVec.getLsbD_and, BitVec.getLsbD_not, mask, value]
  by_cases h : i < n
  · by_cases hin : lo ≤ i ∧ i ≤ hi <;> simp [h, hin]
  · simp [h]

theorem field_eq_of_getLsbD {n hi lo : Nat} {x y : BitVec n} (hl : lo ≤ hi)
    (h : ∀ i, lo ≤ i → i ≤ hi → x.getLsbD i = y.getLsbD i) :
    field x hi lo = field y hi lo := by
  unfold field
  congr 1
  refine BitVec.eq_of_getLsbD_eq (fun i hi => ?_)
  rw [BitVec.getLsbD_extractLsb', BitVec.getLsbD_extractLsb', h (lo + i) (by omega) (by omega)]

theorem field_setField_self {n : Nat} (x : BitVec n) {hi lo : Nat} (v : Nat) (hl : lo ≤ hi) (hn : hi < n) :
    field (setField x hi lo v) hi lo = v % 2 ^ (hi - lo + 1) := by
  refine Nat.eq_of_testBit_eq (fun i => ?_)
  rw [field, BitVec.testBit_toNat, BitVec.getLsbD_extractLsb', getLsbD_setField _ _ _ hl, Nat.testBit_mod_two_pow]
  by_cases h : i < hi - lo + 1
  · rw [if_pos (by omega), Nat.add_sub_cancel_left]
    simp [h, show lo + i < n by omega]
  · simp [h]

theorem field_setField_ne {n : Nat} (x : BitVec n) {hi lo : Nat} (v : Nat) {a b : Nat} (hl : lo ≤ hi) (hb : b ≤ a)
    (h : a < lo ∨ hi < b) :
    field (setField x hi lo v) a b = field x a b := by
  refine field_eq_of_getLsbD hb (fun i h1 h2 => ?_)
  rw [getLsbD_setField _ _ _ hl, if_neg (by omega)]
  by_cases hn : i < n
  · simp [hn]
  · simp [BitVec.getLsbD_of_ge _ _ (Nat.le_of_not_lt hn)]

theorem field_lt {n : Nat} (x : BitVec n) (hi lo : Nat) : field x hi lo < 2 ^ (hi - lo + 1) := BitVec.isLt _

/-! The error counters of a link (R414). -/

/-- A counter of LNKERR after it has been raised. -/
theorem field_errAdd_self (e : DWord) {hi lo : Nat} (n : Nat) (hl : lo ≤ hi) (h : hi < 64) :
    field (errAdd e hi lo n) hi lo = min (field e hi lo + n) (2 ^ (hi - lo + 1) - 1) := by
  rw [errAdd, field_setField_self _ _ hl h]
  exact Nat.mod_eq_of_lt (by have := Nat.two_pow_pos (hi - lo + 1); omega)

theorem field_errAdd_ne (e : DWord) {hi lo : Nat} (n : Nat) {a b : Nat} (hl : lo ≤ hi) (hb : b ≤ a) (h : a < lo ∨ hi < b) :
    field (errAdd e hi lo n) a b = field e a b := field_setField_ne _ _ hl hb h

/-! Events leave links and contexts alone. -/

theorem linkRec_hostEvent (s : State) (kind data ctx die l : Nat) : linkRec (hostEvent s kind data ctx die) l = linkRec s l := by
  have h := hostEvent_rest s kind data ctx die
  dsimp only at h
  rw [h]
  rfl

theorem splicers_hostEvent (s : State) (kind data ctx die : Nat) : (hostEvent s kind data ctx die).splicers = s.splicers := by
  have h := hostEvent_rest s kind data ctx die
  dsimp only at h
  rw [h]

theorem splRec_hostEvent (s : State) (kind data ctx die k : Nat) : splRec (hostEvent s kind data ctx die) k = splRec s k := by
  rw [splRec, splicers_hostEvent]
  rfl

theorem fid_hostEvent (s : State) (kind data ctx die : Nat) : (hostEvent s kind data ctx die).fid = s.fid := by
  have h := hostEvent_rest s kind data ctx die
  dsimp only at h
  rw [h]

/-! A link that comes up or goes down (R352, R355). -/

theorem linkStat_fields {width node self : Nat} (hw : width < 4) (hn : node < 4096) (hs : self < 4096) :
    let stat := (BitVec.ofNat 32 (2 ^ 31 + width % 4 * 2 ^ 26 + node % 4096 * 2 ^ 12 + self % 4096)).toNat
    stat / 2 ^ 31 = 1 ∧ stat / 2 ^ 26 % 4 = width ∧ stat / 2 ^ 12 % 4096 = node ∧ stat % 4096 = self ∧
      stat = 2 ^ 31 + width * 2 ^ 26 + node * 2 ^ 12 + self := by
  rw [BitVec.toNat_ofNat]
  omega

/-- A context of a link that has gone down: what it had queued and staged is lost, and one that ran or waited has stopped
(R351, R355). -/
def dropped (x : Splicer) : Splicer :=
  let ops := (x.tx.filter (fun c => c.op ≠ 0)).map (·.op)
  let y : Splicer := { x with
    tx := [], tl := ops.foldl tlComplete x.tl, flight := x.flight.filter (fun e => !ops.contains e.1)
    staged := [], inChunk := [], again := [] }
  if x.st = spRunning ∨ x.st = spWaiting then
    { y with
      st := spStopped, cause := 0x68, detail := 0, offset := 0, faddr := 0, run := 0, wait := .none, xl := none, got := 0
      verdict := none, refused := none, word := none, asking := false, taken := [], undo := [], undoBad := [] }
  else y

theorem splRec_dropLinkContext (s : State) (k j : Nat) :
    splRec (dropLinkContext s k) j = if k = j then dropped (splRec s k) else splRec s j := by
  simp only [dropLinkContext, discardTx, splRec_setSpl_self, dropped]
  by_cases h : (splRec s k).st = spRunning ∨ (splRec s k).st = spWaiting
  · simp only [h, if_true, spStop, splRec_hostEvent, splRec_setSpl]
    split <;> rfl
  · simp only [h, if_false, splRec_setSpl]
    split <;> rfl

theorem linkRec_dropLinkContext (s : State) (k l : Nat) : linkRec (dropLinkContext s k) l = linkRec s l := by
  simp only [dropLinkContext, discardTx, splRec_setSpl_self]
  by_cases h : (splRec s k).st = spRunning ∨ (splRec s k).st = spWaiting
  · simp only [h, if_true, spStop, linkRec_hostEvent, linkRec_setSpl]
  · simp only [h, if_false, linkRec_setSpl]

/-- Every context of a list has lost what it had, once. -/
theorem splRec_foldl_drop (l : Nat) : ∀ (cs : List Nat) (s : State), cs.Nodup → ∀ c ∈ cs,
    splRec (cs.foldl (fun s x => dropLinkContext s (8 * l + x)) s) (8 * l + c) = dropped (splRec s (8 * l + c))
  | [], _, _, c, hc => absurd hc List.not_mem_nil
  | x :: r, s, nd, c, hc => by
    have kept (cs : List Nat) (h : c ∉ cs) : ∀ s,
        splRec (cs.foldl (fun s x => dropLinkContext s (8 * l + x)) s) (8 * l + c) = splRec s (8 * l + c) := by
      induction cs with
      | nil => exact fun _ => rfl
      | cons y r ih =>
        intro s
        rw [List.mem_cons, not_or] at h
        rw [List.foldl_cons, ih h.2, splRec_dropLinkContext, if_neg (by omega)]
    obtain ⟨hx, nd⟩ := List.nodup_cons.1 nd
    rw [List.foldl_cons]
    rcases List.mem_cons.1 hc with rfl | hc
    · rw [kept r hx, splRec_dropLinkContext, if_pos rfl]
    · rw [splRec_foldl_drop l r _ nd c hc, splRec_dropLinkContext, if_neg (fun e => hx (by
        rw [show x = c by omega]; exact hc))]

theorem linkRec_foldl_drop (l : Nat) (cs : List Nat) : ∀ s : State,
    linkRec (cs.foldl (fun s x => dropLinkContext s (8 * l + x)) s) l = linkRec s l := by
  induction cs with
  | nil => exact fun _ => rfl
  | cons x r ih => exact fun s => by rw [List.foldl_cons, ih, linkRec_dropLinkContext]

theorem censusAlone_links (s : State) (die : Nat) : (censusAlone s die).links = s.links ∧
    (censusAlone s die).splicers = s.splicers := by
  unfold censusAlone
  split <;> exact ⟨rfl, rfl⟩

/-! The width of a link (R414). -/

/-- The run of resent flits that are reported now leaves the links alone. -/
theorem resentEvents_rest (l n : Nat) : ∀ s : State,
    linkRec ((List.range n).foldl (fun s _ => resentEvent l s) s) l = linkRec s l ∧
    ((List.range n).foldl (fun s _ => resentEvent l s) s).splicers = s.splicers := by
  generalize List.range n = is
  induction is with
  | nil => exact fun _ => ⟨rfl, rfl⟩
  | cons x r ih =>
    intro s
    obtain ⟨h1, h2⟩ := ih (resentEvent l s)
    exact ⟨h1.trans (linkRec_hostEvent ..), h2.trans (splicers_hostEvent ..)⟩

/-- A link takes the width in use: the field of LNKSTAT alone may change (R414). -/
theorem linkRec_applyWidth (s : State) (l : Nat) : linkRec (applyWidth s l) l = { linkRec s l with
    stat := if (linkRec s l).stat.getLsbD 31 ∧ field (linkRec s l).stat 27 26 ≠ linkWidth (linkRec s l) then
      setField (linkRec s l).stat 27 26 (linkWidth (linkRec s l)) else (linkRec s l).stat } := by
  unfold applyWidth
  dsimp only
  split
  · rw [linkEvent, linkRec_hostEvent, linkRec_setLink_self]
  · rfl

theorem splicers_applyWidth (s : State) (l : Nat) : (applyWidth s l).splicers = s.splicers := by
  unfold applyWidth
  dsimp only
  split
  · rw [linkEvent, splicers_hostEvent]
    rfl
  · rfl

theorem applyWidth_same {s : State} {l : Nat} (h : field (linkRec s l).stat 27 26 = linkWidth (linkRec s l)) :
    applyWidth s l = s := if_neg (fun e => e.2 h)

/-! Rate limiters (R354). -/

/-- The step of the search for the limiter to replace. -/
def fasterLimiter (b : Option (Nat × Nat)) (e : Nat × Nat) : Option (Nat × Nat) := match b with
  | none => some e
  | some x => if x.2 < e.2 then some e else some x

/-- Of limiters with rising FIDs the one to replace has the highest rate, and of several the lowest FID (R354). -/
theorem foldl_fasterLimiter (t : Tbl Nat) (b : Nat × Nat) (h : (b :: t).Pairwise (fun a b => a.1 < b.1)) :
    ∃ x ∈ b :: t, t.foldl fasterLimiter (some b) = some x ∧ ∀ e ∈ b :: t, e.2 < x.2 ∨ (e.2 = x.2 ∧ x.1 ≤ e.1) := by
  induction t generalizing b with
  | nil => exact ⟨b, by simp, rfl, by simp⟩
  | cons a r ih =>
    obtain ⟨hb, har⟩ := List.pairwise_cons.1 h
    have hba : b.1 < a.1 := hb a (by simp)
    by_cases hr : b.2 < a.2
    · obtain ⟨x, hx, e, best⟩ := ih a har
      refine ⟨x, List.mem_cons_of_mem _ hx, by simpa [fasterLimiter, hr] using e, fun y hy => ?_⟩
      rcases List.mem_cons.1 hy with rfl | hy
      · have := best a (by simp)
        omega
      · exact best y hy
    · obtain ⟨x, hx, e, best⟩ := ih b (List.pairwise_cons.2 ⟨fun y hy => hb y (List.mem_cons_of_mem _ hy),
        (List.pairwise_cons.1 har).2⟩)
      refine ⟨x, ?_, by simpa [fasterLimiter, hr] using e, fun y hy => ?_⟩
      · rcases List.mem_cons.1 hx with rfl | hx
        · simp
        · simp [hx]
      · rcases List.mem_cons.1 hy with rfl | hy
        · exact best _ (by simp)
        rcases List.mem_cons.1 hy with rfl | hy
        · have := best b (by simp)
          omega
        · exact best y (by simp [hy])

theorem tget_of_mem {α : Type} {t : Tbl α} (h : tsorted t = true) {e : Nat × α} (he : e ∈ t) : tget t e.1 = some e.2 := by
  rw [tsorted_iff] at h
  induction t with
  | nil => cases he
  | cons a r ih =>
    obtain ⟨ha, hr⟩ := List.pairwise_cons.1 h
    rcases List.mem_cons.1 he with rfl | he
    · simp [tget]
    · simp only [tget]
      rw [if_neg (by have := ha e he; omega), ih hr he]

/-- Where limiters are in use the one that a notice replaces is the fastest (R354). -/
theorem limiterVictim_spec {t : Tbl Nat} (hs : tsorted t = true) (hn : t ≠ []) :
    ∃ r, tget t (limiterVictim t) = some r ∧
      ∀ f q, tget t f = some q → q < r ∨ (q = r ∧ limiterVictim t ≤ f) := by
  obtain ⟨b, t, rfl⟩ := List.exists_cons_of_ne_nil hn
  obtain ⟨x, hx, e, best⟩ := foldl_fasterLimiter t b ((tsorted_iff _).1 hs)
  have v : limiterVictim (b :: t) = x.1 := by
    show ((b :: t).foldl fasterLimiter none).elim 0 (·.1) = x.1
    rw [List.foldl_cons]
    exact congrArg (fun o => o.elim 0 (·.1)) e
  refine ⟨x.2, by rw [v]; exact tget_of_mem hs hx, fun f q hf => ?_⟩
  rw [v]
  exact best (f, q) (tget_mem hf)

/-- A link after a window of n resent flits: each that has not been reported before is counted, and a change of the width
for errors too (R414). -/
def windowed (x : Link) (n : Nat) : Link :=
  { x with
    err := if (errWindow x n).1 = x.errWidth then errAdd x.err 31 0 (n - x.resent)
      else errAdd (errAdd x.err 31 0 (n - x.resent)) 63 48 1
    errWidth := (errWindow x n).1, quiet := (errWindow x n).2, resent := 0 }

theorem exec_linkErrorWindow (s : State) (l resent : Nat) :
    let n := max resent (linkRec s l).resent
    exec (.linkErrorWindow l resent) s = .next (applyWidth (setLink
      ((List.range (n - (linkRec s l).resent)).foldl (fun s _ => resentEvent l s) s) l (windowed (linkRec s l) n)) l) := rfl

theorem windowed_err (x : Link) (n : Nat) :
    field (windowed x n).err 31 0 = min (field x.err 31 0 + (n - x.resent)) (2 ^ 32 - 1) ∧
    field (windowed x n).err 63 48 =
      min (field x.err 63 48 + if (windowed x n).errWidth = x.errWidth then 0 else 1) (2 ^ 16 - 1) := by
  have hi := field_lt x.err 63 48
  have low := field_errAdd_self x.err (hi := 31) (lo := 0) (n - x.resent) (by decide) (by decide)
  have kept := field_errAdd_ne x.err (hi := 31) (lo := 0) (n - x.resent) (a := 63) (b := 48) (by decide) (by decide) (by decide)
  have w : (windowed x n).errWidth = (errWindow x n).1 := rfl
  rw [w]
  by_cases h : (errWindow x n).1 = x.errWidth
  · have e : (windowed x n).err = errAdd x.err 31 0 (n - x.resent) := if_pos h
    rw [if_pos h, e, kept]
    exact ⟨low, by omega⟩
  · have e : (windowed x n).err = errAdd (errAdd x.err 31 0 (n - x.resent)) 63 48 1 := if_neg h
    rw [if_neg h, e]
    refine ⟨(field_errAdd_ne _ _ (by decide) (by decide) (by decide)).trans low, ?_⟩
    rw [field_errAdd_self _ _ (by decide) (by decide), kept]

/-- The width for errors and the run of quiet windows after a window (R414). -/
theorem windowed_width (x : Link) (n : Nat) :
    (64 < n → (windowed x n).errWidth = min 2 (x.errWidth + 1)) ∧
    (4 < n → n ≤ 64 → (windowed x n).errWidth = x.errWidth ∧ (windowed x n).quiet = 0) ∧
    (n ≤ 4 → x.quiet < 99 → (windowed x n).errWidth = x.errWidth ∧ (windowed x n).quiet = x.quiet + 1) ∧
    (n ≤ 4 → 99 ≤ x.quiet → (windowed x n).errWidth = x.errWidth - 1) := by
  simp only [windowed, errWindow]
  refine ⟨fun h => ?_, fun h1 h2 => ?_, fun h1 h2 => ?_, fun h1 h2 => ?_⟩
  · rw [if_pos h]
  · rw [if_neg (by omega), if_neg (by omega)]
    exact ⟨rfl, rfl⟩
  · rw [if_neg (by omega), if_pos h1, if_neg (by omega)]
    exact ⟨rfl, rfl⟩
  · rw [if_neg (by omega), if_pos h1, if_pos (by omega)]

/-- A link that is up carries packets at the width in use (R352, R414). -/
theorem width_applyWidth {s : State} {l : Nat} (h : (linkRec s l).stat.getLsbD 31 = true) :
    field (linkRec (applyWidth s l) l).stat 27 26 = linkWidth (linkRec s l) % 4 := by
  rw [linkRec_applyWidth]
  dsimp only
  split
  · exact field_setField_self _ _ (by decide) (by decide)
  · next n =>
    have e : field (linkRec s l).stat 27 26 = linkWidth (linkRec s l) := by
      by_contra c
      exact n ⟨h, c⟩
    have := field_lt (linkRec s l).stat 27 26
    omega

/-- A notice that finds every limiter in use replaces the fastest (R354). -/
theorem tget_replaceLimiter (t : Tbl Nat) (fid f : Nat) : tget (tput (tdel t (limiterVictim t)) fid 32) f =
    if fid = f then some 32 else if limiterVictim t = f then none else tget t f := by
  rw [tget_tput, tget_tdel]

/-- Settles O41: each event changes its own link, whose fields the lemmas above give, and the contexts of a link that goes
down. -/
theorem links : Obligations.Links := by
  unfold Obligations.Links
  intro s l x
  refine ⟨?up, ?off, ?down, ?window, ?clear, fun hdr => ⟨fun h => ?bad, fun h0 h1 h10 => ?good⟩, ?congestion, ?interval, ?group⟩
  case up =>
    intro die index node self hl on he hb hn hs
    have hw : linkWidth x < 4 := by unfold linkWidth; omega
    obtain ⟨h1, h2, h3, h4, h5⟩ := linkStat_fields hw hn hs
    subst hl
    refine ⟨_, by
      show execLinkUp _ _ _ _ _ = _
      simp only [execLinkUp, on, Bool.not_true, Bool.false_eq_true, if_false]
      rfl, ?_⟩
    rw [linkEvent, linkRec_hostEvent, linkRec_setLink_self, fid_hostEvent, splicers_hostEvent]
    exact ⟨h1, h2, h3, h4, h5, congrArg some (Nat.mod_eq_of_lt hs), rfl⟩
  case off =>
    intro die index node self hl off
    subst hl
    show execLinkUp _ _ _ _ _ = _
    simp only [execLinkUp, off, Bool.not_false, if_true]
  case down =>
    intro up
    refine ⟨_, by
      show execLinkDown _ _ = _
      simp only [execLinkDown, up, Bool.not_true, Bool.false_eq_true, if_false]
      rfl, ?_, fun c hc => ?_⟩
    · rw [linkRec, (censusAlone_links _ _).1]
      show (linkRec _ l).stat = 0
      rw [linkRec_foldl_drop, linkEvent, linkRec_hostEvent, linkRec_setLink_self]
    · dsimp only
      have e (u : State) : splRec (censusAlone ((List.range 8).foldl (fun s x => dropLinkContext s (8 * l + x)) u) (l / 8))
          (8 * l + c) = dropped (splRec u (8 * l + c)) := by
        rw [splRec, (censusAlone_links _ _).2]
        exact splRec_foldl_drop l _ u List.nodup_range c (List.mem_range.2 hc)
      rw [e, linkEvent, splRec_hostEvent, splRec_setLink]
      unfold dropped
      dsimp only
      split
      · next h => exact ⟨rfl, rfl, rfl, rfl, rfl, fun _ => ⟨rfl, rfl⟩, fun n => absurd h n⟩
      · next h => exact ⟨rfl, rfl, rfl, rfl, rfl, fun y => absurd y h, fun _ => ⟨rfl, rfl⟩⟩
  case window =>
    intro resent
    let n := max resent x.resent
    obtain ⟨kept, splicers⟩ := resentEvents_rest l (n - x.resent) s
    have e := exec_linkErrorWindow s l resent
    dsimp only at e
    generalize hs : (List.range (max resent (linkRec s l).resent - (linkRec s l).resent)).foldl
      (fun s _ => resentEvent l s) s = s1 at e
    refine ⟨_, e, ?_⟩
    have y : linkRec (setLink s1 l (windowed x n)) l = windowed x n := linkRec_setLink_self ..
    have same := linkRec_applyWidth (setLink s1 l (windowed x n)) l
    have err := windowed_err x n
    have width := windowed_width x n
    rw [y] at same
    show let y := linkRec (applyWidth (setLink s1 l (windowed x n)) l) l; _
    have ye : (linkRec (applyWidth (setLink s1 l (windowed x n)) l) l).err = (windowed x n).err := by rw [same]
    have yw : (linkRec (applyWidth (setLink s1 l (windowed x n)) l) l).errWidth = (windowed x n).errWidth := by rw [same]
    have yq : (linkRec (applyWidth (setLink s1 l (windowed x n)) l) l).quiet = (windowed x n).quiet := by rw [same]
    have yr : (linkRec (applyWidth (setLink s1 l (windowed x n)) l) l).resent = 0 := by rw [same]; rfl
    dsimp only
    rw [ye, yw, yq, yr]
    refine ⟨err.1, rfl, err.2, width.1, width.2.1, width.2.2.1, width.2.2.2, fun one hw stat => ?_, fun up => ?_, ?_⟩
    · have n1 : n - x.resent = 1 := by omega
      have nochange : field (linkRec (setLink s1 l (windowed x n)) l).stat 27 26 =
          linkWidth (linkRec (setLink s1 l (windowed x n)) l) := by
        rw [y, linkWidth, hw]
        exact stat
      rw [applyWidth_same nochange]
      have : s1 = resentEvent l s := by
        rw [← hs]
        show (List.range (n - x.resent)).foldl _ s = _
        rw [n1]
        rfl
      rw [this]
      rfl
    · have bit : (linkRec (setLink s1 l (windowed x n)) l).stat.getLsbD 31 = true := by
        rw [y]
        exact (Bool.and_eq_true _ _ ▸ up).2
      rw [width_applyWidth bit, y]
      rfl
    · rw [splicers_applyWidth, ← hs]
      exact splicers
  case clear => rfl
  case bad =>
    have malformed : headerMalformed hdr = true := by
      simp only [headerMalformed, Bool.or_eq_true, bne_iff_ne, beq_iff_eq, decide_eq_true_eq]
      tauto
    refine ⟨{ x with err := errAdd x.err 47 32 1 }, ?_, rfl, ?_, ?_⟩
    · show execMalformedPacketArrival _ _ = _
      simp only [execMalformedPacketArrival, malformed, if_true]
      rfl
    · exact field_errAdd_self _ _ (by decide) (by decide)
    · exact field_errAdd_ne _ _ (by decide) (by decide) (by decide)
  case good =>
    have wellFormed : headerMalformed hdr = false := by
      simp only [headerMalformed, Bool.or_eq_false_iff, bne_eq_false_iff_eq, beq_eq_false_iff_ne, decide_eq_false_iff_not]
      omega
    show execMalformedPacketArrival _ _ = _
    simp only [execMalformedPacketArrival, wellFormed, Bool.false_eq_true, if_false]
  case congestion =>
    intro fid
    refine ⟨_, rfl, rfl, fun r hr => ?_, fun hn => ?_⟩
    · have hr : tget (linkRec s l).limiters fid = some r := hr
      simp only [hr]
      exact ⟨tget_tput_self .., fun f hf => tget_tput_ne _ _ (Ne.symm hf)⟩
    · have hn : tget (linkRec s l).limiters fid = none := hn
      simp only [hn]
      refine ⟨?_, fun room f hf => ?_, fun full sorted => ?_⟩
      · split <;> exact tget_tput_self ..
      · rw [if_pos room]
        exact tget_tput_ne _ _ (Ne.symm hf)
      · rw [if_neg (Nat.not_lt.2 full)]
        have some_ : x.limiters ≠ [] := by
          intro e
          rw [e] at full
          simp at full
        obtain ⟨r, hr, best⟩ := limiterVictim_spec sorted some_
        have ne : fid ≠ limiterVictim x.limiters := by
          intro e
          rw [← e, hn] at hr
          cases hr
        refine ⟨_, r, hr, best, ?_, fun f h1 h2 => ?_⟩
        · rw [tget_replaceLimiter, if_neg ne, if_pos rfl]
        · rw [tget_replaceLimiter, if_neg (Ne.symm h1), if_neg (Ne.symm h2)]
  case interval =>
    intro fid
    refine ⟨fun r hr => ⟨{ x with limiters := if 64 ≤ r + 1 then tdel x.limiters fid else tput x.limiters fid (r + 1) },
      ?_, ?_⟩, fun hn => ?_⟩
    · show execRateLimiterInterval _ _ _ = _
      simp only [execRateLimiterInterval]
      rw [hr]
    · dsimp only
      by_cases h : r < 63
      · rw [if_neg (by omega), if_pos h, tget_tput_self]
      · rw [if_pos (by omega), if_neg h, tget_tdel, if_pos rfl]
    · show execRateLimiterInterval _ _ _ = _
      simp only [execRateLimiterInterval]
      rw [hn]
  case group => exact fun _ _ => rfl

end Sys2Proof.Machine

/-! PROOF. The warps that the hardware forms (01 R22, 17 R254, R255, 21 R328): the threads of a list stand in the lanes of
their places in it, with their arguments in v0 to v7. -/

namespace Sys2Proof.Machine

/-! A list numbered by lanes. -/

section
variable {α β : Type}

theorem tget_eq_none {t : Tbl α} {k : Nat} (h : ∀ e ∈ t, e.1 ≠ k) : tget t k = none := by
  cases ht : tget t k with
  | none => rfl
  | some v => exact absurd rfl (h _ (tget_mem ht))

theorem mem_zip_range {xs : List α} {l : Nat} {y : α} (h : xs[l]? = some y) :
    (l, y) ∈ (List.range xs.length).zip xs := by
  obtain ⟨hl, -⟩ := List.getElem?_eq_some_iff.1 h
  refine List.mem_of_getElem? (i := l) (List.getElem?_zip_eq_some.2 ⟨?_, h⟩)
  rw [List.getElem?_range hl]

theorem keys_zip_range (xs : List α) : ((List.range xs.length).zip xs).map (·.1) = List.range xs.length :=
  List.map_fst_zip (by simp)

/-- What stands at a lane of a numbered list. -/
theorem tget_zip_range (xs : List α) (f : α → β) (l : Nat) :
    tget (((List.range xs.length).zip xs).map (fun e => (e.1, f e.2))) l = (xs[l]?).map f := by
  have keys : (((List.range xs.length).zip xs).map (fun e => (e.1, f e.2))).map (·.1) = List.range xs.length := by
    rw [List.map_map]
    exact keys_zip_range xs
  cases h : xs[l]? with
  | none =>
    refine tget_eq_none (fun e he => ?_)
    have := keys ▸ List.mem_map_of_mem (f := Prod.fst) he
    rw [List.mem_range] at this
    rw [List.getElem?_eq_none_iff] at h
    omega
  | some y =>
    refine tget_of_mem (e := (l, f y)) ?_ (List.mem_map.2 ⟨(l, y), mem_zip_range h, rfl⟩)
    rw [tsorted_iff, ← List.pairwise_map (f := Prod.fst) (R := (· < ·)), keys]
    exact List.pairwise_lt_range

end

/-! Arguments in v0 to v7 of lanes. -/

theorem zip_range_eight (args : List Word) :
    (List.range 8).zip args = (List.range (min 8 args.length)).map (fun i => (i, args.getD i 0)) := by
  refine List.ext_getElem (by simp) (fun i h1 h2 => ?_)
  simp only [List.length_zip, List.length_range, Nat.lt_min] at h1
  simp [List.getD_eq_getElem?_getD, h1.2]

/-- One lane's arguments: its own registers hold them, and those of other lanes are as before. -/
theorem tgetD_laneRegs (args : List Word) (t : Tbl Word) (i : Nat) {l j : Nat} (hl : l < 32) (hj : j < 32) :
    tgetD 0 (laneRegs l ((List.range 8).zip args) t) (i * 32 + j) =
      if l = j ∧ i < min 8 args.length then args.getD i 0 else tgetD 0 t (i * 32 + j) := by
  rw [zip_range_eight, laneRegs, List.foldl_map]
  by_cases h : l = j
  · subst h
    rw [tgetD_foldl_tputD 0 (fun i => args.getD i 0) (fun i => i * 32 + l) (fun a b e => by simp only at e; omega)]
    simp
  · rw [tgetD_foldl_tputD_ne 0 (fun i => args.getD i 0) (fun i => i * 32 + l) _ _ _ (fun a _ => by omega), if_neg (by tauto)]

section
variable {α : Type} (args : α → List Word)

/-- The registers of lanes whose arguments are v0 to v7. -/
def laneRows (ls : List (Nat × α)) (t : Tbl Word) : Tbl Word :=
  ls.foldl (fun t e => laneRegs e.1 ((List.range 8).zip (args e.2)) t) t

theorem tgetD_laneRows_ne (ls : List (Nat × α)) (t : Tbl Word) {l : Nat} (i : Nat) (hl : l < 32)
    (h : ∀ e ∈ ls, e.1 < 32 ∧ e.1 ≠ l) : tgetD 0 (laneRows args ls t) (i * 32 + l) = tgetD 0 t (i * 32 + l) := by
  induction ls generalizing t with
  | nil => rfl
  | cons e r ih =>
    obtain ⟨h32, hne⟩ := h e (by simp)
    show tgetD 0 (laneRows args r _) _ = _
    rw [ih _ (fun x hx => h x (by simp [hx])), tgetD_laneRegs _ _ _ h32 hl, if_neg (by tauto)]

theorem tgetD_laneRows (ls : List (Nat × α)) (t : Tbl Word) {l i : Nat} {y : α} (hi : i < 8)
    (nd : (ls.map (·.1)).Nodup) (h : ∀ e ∈ ls, e.1 < 32) (hy : (l, y) ∈ ls) (h0 : tgetD 0 t (i * 32 + l) = 0) :
    tgetD 0 (laneRows args ls t) (i * 32 + l) = (args y).getD i 0 := by
  induction ls generalizing t with
  | nil => cases hy
  | cons e r ih =>
    rw [List.map_cons, List.nodup_cons] at nd
    have hl : l < 32 := h _ hy
    have out (x : Nat × α) (hx : x ∈ r) : x.1 ≠ e.1 := fun c => nd.1 (c ▸ List.mem_map_of_mem hx)
    show tgetD 0 (laneRows args r _) _ = _
    rcases List.mem_cons.1 hy with rfl | hy
    · rw [tgetD_laneRows_ne args r _ i hl (fun x hx => ⟨h x (by simp [hx]), out x hx⟩), tgetD_laneRegs _ _ _ hl hl, h0]
      split
      · rfl
      · exact (List.getD_eq_default _ _ (by dsimp only at *; omega)).symm
    · refine ih _ nd.2 (fun x hx => h x (by simp [hx])) hy ?_
      rw [tgetD_laneRegs _ _ _ (h e (by simp)) hl, if_neg (fun c => out _ hy c.1.symm), h0]

/-- A warp whose lanes take the arguments of a list, in its order, reads them in v0 to v7. -/
theorem rd_laneRows {u : Warp} {xs : List α} (hu : u.v = laneRows args ((List.range xs.length).zip xs) [])
    (h32 : xs.length ≤ 32) {l i : Nat} {y : α} (hy : xs[l]? = some y) (hi : i < 8) :
    rd u (BitVec.ofNat 8 i) l = (args y).getD i 0 := by
  have e : (BitVec.ofNat 8 i).toNat = i := by rw [BitVec.toNat_ofNat]; omega
  rw [rd, e, if_pos (by omega), hu]
  refine tgetD_laneRows args _ _ hi (by rw [keys_zip_range]; exact List.nodup_range) (fun x hx => ?_) (mem_zip_range hy) rfl
  have := keys_zip_range xs ▸ List.mem_map_of_mem (f := Prod.fst) hx
  rw [List.mem_range] at this
  omega

end

/-! Ready lists (R254). -/

/-- A task of ready list `x`, due where the list is not yet and its clock has come. -/
def dueTask (s : State) (c : Nat) (x : ListKey) (t : Task) : Task :=
  if t.waits = none ∧ taskKey t = x ∧ listDue (readyList s c x) = none ∧ dueClock s c x (readyList s c x) ≠ none then
    { t with due := dueClock s c x (readyList s c x) }
  else t

theorem dueTask_of_ne {s : State} {c : Nat} {x : ListKey} {t : Task} (h : taskKey t ≠ x) : dueTask s c x t = t :=
  if_neg (fun e => h e.2.1)

theorem taskKey_dueTask (s : State) (c : Nat) (x : ListKey) (t : Task) : taskKey (dueTask s c x t) = taskKey t := by
  unfold dueTask
  split <;> rfl

/-- A ready list is marked due where it is not yet and its clock has come. -/
theorem markDue_tasks (c : Nat) (s : State) (x : ListKey) :
    (coreRec (markDue c s x) c).tasks = (coreRec s c).tasks.map (dueTask s c x) := by
  unfold dueTask
  unfold markDue
  dsimp only
  generalize listDue (readyList s c x) = due
  generalize dueClock s c x (readyList s c x) = clock
  cases due with
  | some d => simp
  | none =>
    cases clock with
    | none => simp
    | some t =>
      simp only [markList, coreRec_setCore_self]
      refine List.map_congr_left (fun y _ => ?_)
      simp [Option.isNone_iff_eq_none]

/-- Marking one list due leaves the others as they are. -/
theorem readyList_markDue (c : Nat) (s : State) {x y : ListKey} (h : x ≠ y) :
    readyList (markDue c s x) c y = readyList s c y := by
  have cont : contOfWg (markDue c s x) y.wg = contOfWg s y.wg := by
    unfold markDue
    dsimp only
    split <;> rfl
  have same : ((coreRec (markDue c s x) c).tasks.filter (fun t => t.waits.isNone && taskKey t == y)) =
      (coreRec s c).tasks.filter (fun t => t.waits.isNone && taskKey t == y) := by
    rw [markDue_tasks]
    generalize (coreRec s c).tasks = ts
    induction ts with
    | nil => rfl
    | cons t r ih =>
      rw [List.map_cons, List.filter_cons, List.filter_cons, ih]
      unfold dueTask
      split
      · next m =>
        have other : (taskKey t == y) = false := by
          rw [m.2.1]
          exact beq_false_of_ne h
        simp only [taskKey] at other
        simp [taskKey, other]
      · rfl
  rw [readyList, readyList, cont, same]

theorem dueClock_markDue (c : Nat) (s : State) (x y : ListKey) (l : List Task) :
    dueClock (markDue c s x) c y l = dueClock s c y l := by
  unfold markDue
  dsimp only
  split <;> rfl

/-- Which lists of an entry PC GATHER_LIMIT marks: that of tasks and that of responders (R254). -/
theorem gatherLimit_tasks (s : State) (c wg pc : Nat) : ∃ t, exec (.gatherLimit c wg pc) s = .next t ∧
    (coreRec t c).tasks = (coreRec s c).tasks.map (fun x =>
      dueTask s c ⟨wg, BitVec.ofNat 64 pc, x.responder⟩ x) := by
  refine ⟨_, rfl, ?_⟩
  have ne : (⟨wg, BitVec.ofNat 64 pc, false⟩ : ListKey) ≠ ⟨wg, BitVec.ofNat 64 pc, true⟩ := fun e => by cases e
  show (coreRec (markDue c (markDue c s ⟨wg, BitVec.ofNat 64 pc, false⟩) ⟨wg, BitVec.ofNat 64 pc, true⟩) c).tasks = _
  have later : dueTask (markDue c s ⟨wg, BitVec.ofNat 64 pc, false⟩) c ⟨wg, BitVec.ofNat 64 pc, true⟩ =
      dueTask s c ⟨wg, BitVec.ofNat 64 pc, true⟩ := by
    funext x
    rw [dueTask, dueTask, readyList_markDue _ _ ne, dueClock_markDue]
  rw [markDue_tasks, later, markDue_tasks, List.map_map]
  refine List.map_congr_left (fun x _ => ?_)
  rw [Function.comp_apply]
  have other {b : Bool} (h : x.responder ≠ b) : taskKey x ≠ ⟨wg, BitVec.ofNat 64 pc, b⟩ :=
    fun e => h (congrArg ListKey.responder e)
  rcases Bool.eq_false_or_eq_true x.responder with hr | hr
  · rw [dueTask_of_ne (other (by simp [hr])), hr]
  · rw [dueTask_of_ne (by rw [taskKey_dueTask]; exact other (by simp [hr])), hr]

/-! Formation in the lowest free slot. -/

theorem coreRec_setWarp_setCore (s : State) (k c : Nat) (x : Core) (w : Warp) :
    coreRec (setWarp (setCore s c x) k w) c = x := coreRec_setCore_self s c x

theorem eraseIdx_findIdx_length {α : Type} {l : List α} {p : α → Bool} {x : α} (h : l.find? p = some x) :
    (l.eraseIdx (l.findIdx p)).length + 1 = l.length := by
  have lt : l.findIdx p < l.length := List.findIdx_lt_length_of_exists ⟨x, List.mem_of_find?_eq_some h, List.find?_some h⟩
  rw [List.length_eraseIdx_of_lt lt]
  omega

/-- The thread of a handler lane: a fresh one at the handler's address, which names the thread it serves (R328). -/
def handlerThread (pc : DWord) (x : TName × List Word × DWord) : Thread :=
  { freshThread { x.1 with handler := true } pc x.2.2 with served := some x.1 }

theorem thr_handlerWave {h : HandlerReq} {n l : Nat} {x : TName × List Word × DWord} (hx : h.lanes[l]? = some x) :
    thr (handlerWave h n) l = some (handlerThread h.pc x) :=
  (tget_zip_range h.lanes (handlerThread h.pc) l).trans (by rw [hx]; rfl)

/-- Settles O27: what is due becomes due, and what is next forms its warp lane by lane. -/
theorem warpsForm : Obligations.WarpsForm := by
  unfold Obligations.WarpsForm
  intro s c slot
  refine ⟨fun i b hb hd hl => ?age, fun wg pc => gatherLimit_tasks s c wg pc, fun key y r hy hr hc => ?clock, fun free =>
    ⟨fun i b next hb => ?bin, fun x next => ?wave, fun h hh h32 => ?handler⟩⟩
  case age =>
    show execBinAgeLimit _ _ _ = _
    simp only [execBinAgeLimit, hb, markBin, hd, hl, Option.isNone_none, decide_true, Bool.and_self, if_true]
  case clock =>
    have full : ((y :: r)[31]?) = none := List.getElem?_eq_none (by simp; omega)
    simp only [hy, dueClock, full, hc, wgClock, Option.map_none, List.head?_cons, Option.map_some, Option.filter_some,
      Bool.false_eq_true, if_false, decide_eq_true_eq]
    by_cases old : y.readyAt + binLimit s key.wg ≤ cycleOf s (dieOf c)
    · rw [if_pos old]
    · rw [if_neg old]
  case bin =>
    have e : exec (.binDraw c i) s = .next (setWarp (setCore (freshId s).2 c { coreRec s c with
        bins := tdel (coreRec s c).bins i }) (64 * c + slot) (binWarp b (freshId s).1)) := by
      show execBinDraw _ _ _ = _
      simp only [execBinDraw, next, free, hb, beq_self_eq_true]
      rfl
    refine ⟨_, _, e, tget_tput_self .., by rw [coreRec_setWarp_setCore], rfl, rfl, rfl, rfl, rfl, fun l f hf => ?_,
      fun l hl => ?_⟩
    · exact (tget_zip_range b.threads Filed.thread l).trans (by rw [hf]; rfl)
    · exact (tget_zip_range b.threads Filed.thread l).trans (by rw [List.getElem?_eq_none hl]; rfl)
  case wave =>
    have key : waveKey s c x.wg x.pc.toNat = some x := by
      simp only [waveKey, next, BitVec.ofNat_toNat, BitVec.setWidth_eq, and_self, if_true]
    obtain ⟨t, age, e, ht⟩ : ∃ t age, exec (.waveFormation c x.wg x.pc.toNat) s = .next t ∧
        tget t.warps (64 * c + slot) = some (taskWave x ((readyList s c x).take 32) age) := by
      show ∃ t age, execWaveFormation c x.wg x.pc.toNat s = .next t ∧ _
      simp only [execWaveFormation, key, free]
      exact ⟨_, _, rfl, tget_tput_self ..⟩
    have h32 : ((readyList s c x).take 32).length ≤ 32 := List.length_take_le ..
    refine ⟨t, _, e, ht, rfl, rfl, rfl, rfl, fun l y hy => ?_, fun l hl => ?_, fun l y i hy hi => ?_⟩
    · exact (tget_zip_range _ taskThread l).trans (by rw [hy]; rfl)
    · refine (tget_zip_range _ taskThread l).trans ?_
      rw [List.getElem?_eq_none (by rw [List.length_take]; omega)]
      rfl
    · exact rd_laneRows Task.args rfl h32 hy hi
  case handler =>
    have e : exec (.trapHandlerFormation c) s = .next (setWarp (setCore (freshId s).2 c { coreRec s c with
        handlers := (coreRec s c).handlers.eraseIdx ((coreRec s c).handlers.findIdx (fun x => wgRuns s x.wg)) })
        (64 * c + slot) (handlerWave h (freshId s).1)) := by
      show execTrapHandlerFormation _ _ = _
      simp only [execTrapHandlerFormation, hh, free]
      rfl
    refine ⟨_, _, e, tget_tput_self .., rfl, ?_, fun l x hx => ⟨handlerThread h.pc x,
      thr_handlerWave hx, rfl, rfl, fun i hi => ?_⟩⟩
    · rw [coreRec_setWarp_setCore]
      exact eraseIdx_findIdx_length hh
    · exact rd_laneRows (fun x : TName × List Word × DWord => x.2.1) rfl h32 hx hi

end Sys2Proof.Machine

/-! PROOF. Traps and their handlers, the special registers and YIELD (03 R63 to R66, 21 R327 to R332): where the lanes of
a word that places them itself stand, and what a lane reads in each special register. -/

namespace Sys2Proof.Machine

/-! A word that has placed its lanes itself. -/

/-- Such a word retires: outside single-step mode it is only counted (R64). -/
theorem finishEff_moved {s u : State} {k : Nat} {w w1 : Warp} (h : tget u.warps k = some w1) (hs : w1.sstep = false) :
    finishEff s k (clearPass w) (.moved u) = countRetired u w.wg := by
  rw [finishEff, retire_plain u k _ w1 h hs, clearPass_wg]

/-- Where such a word changes its warp alone, so does the step. -/
theorem onlyWarp_moved (s s0 : State) (k : Nat) (w : Warp) {w1 : Warp} (hs : w1.sstep = false) :
    OnlyWarp s (finishEff s0 k (clearPass w) (.moved (setWarp (issued s k w) k w1))) k w w1 := by
  rw [finishEff_moved (tget_tput_self ..) hs, issued, setWarp_setWarp]
  exact onlyWarp_count s k w w1

/-- The active lanes that a word changes before a choice point (R143). -/
theorem placed_modLanes (w : Warp) (f : Nat → Thread → Thread)
    (hf : ∀ l x, f l { x with pass1 := false } = { f l x with pass1 := false }) :
    Placed w (choicePoint (modLanes (clearPass w) w.act f)) f := by
  refine ⟨fun l => ?_, rfl, rfl⟩
  have e : thr (choicePoint (modLanes (clearPass w) w.act f)) l = thr (modLanes (clearPass w) w.act f) l := rfl
  rw [e, thr_modLanes, thr_clearPass, Option.map_map]
  congr 1
  funext x
  simp only [Function.comp]
  split
  · exact hf l x
  · rfl

theorem placed_beginWait (w : Warp) (wt : Wait) :
    Placed w (beginWait (clearPass w) (clearPass w).act wt (nextPC (clearPass w)))
      (fun _ x => { x with wait := wt, next := nextPC w }) := by
  rw [beginWait, clearPass_act, nextPC_clearPass]
  exact placed_modLanes w _ (fun _ _ => rfl)

theorem placed_setPC (w : Warp) : Placed w (choicePoint (setPC (clearPass w) (clearPass w).act (nextPC (clearPass w))))
    (fun _ x => { x with pc := nextPC w }) := by
  rw [setPC, clearPass_act, nextPC_clearPass]
  exact placed_modLanes w _ (fun _ _ => rfl)

theorem activeMember_clearPass (w : Warp) : activeMember (clearPass w) = activeMember w := by
  rw [activeMember, activeMember, clearPass_act, members_clearPass]

theorem activeMember_isSome {w : Warp} (h : w.act &&& members w ≠ 0) : (activeMember (clearPass w)).isSome = true := by
  rw [activeMember_clearPass, activeMember, lowest_isSome]
  exact bne_iff_ne.2 h

theorem activeMember_eq_none {w : Warp} (h : NoMember w) : activeMember (clearPass w) = none := by
  have e : (activeMember w).isSome = false := by
    rw [activeMember, lowest_isSome]
    exact bne_eq_false_iff_eq.2 h
  rw [activeMember_clearPass]
  simpa using e

theorem low_clearPass (w : Warp) : low (clearPass w) = low w := by rw [low, low, clearPass_act]

theorem anyPending_clearPass (w : Warp) (fs : List Fld) : anyPending (clearPass w) fs = anyPending w fs := by
  rw [anyPending, anyPending, clearPass_pend]

/-! TRAP and BKPT (R327 to R331). -/

theorem passing_issues {s : State} {k : Nat} {w : Warp} {regs : List Fld} (h : Issues s k w regs) :
    passing s = maskWhere w.act (fun l => ((thr w l).map (·.pass1)).getD false) := by
  simp only [passing, h.turn, h.slot]

/-- What TRAP does, by its first test that holds. -/
theorem does_trap {s : State} {k : Nat} {w : Warp} (h : Issues s k w []) (n : Fld) :
    Does (.trap n) s k w (if bitN (dbgOf s w.wg) 3 then trapWord (issued s k w) k (clearPass w) (passing s) 0x70 n.toNat
      else if (activeMember (clearPass w)).isSome then .abort 6
      else if w.kind = .handler ∨ trapPc s w.wg = 0 then .fault 0x70 0 (low w) n.toNat
      else if anyPending w [0, 1] then .stall
      else .moved (enterTrap (issued s k w) k (clearPass w) n.toNat (trapPc s w.wg))) := by
  have d := does_of_laneWord (i := .trap n) h (Eq.refl (execTrap n s))
  rw [clearPass_wg, clearPass_kind, low_clearPass, anyPending_clearPass] at d
  exact d

/-- The lanes of a trap request: for each trapped lane its thread and what its handler lane is given (R328). -/
theorem trapRequest_lanes (k : Nat) (w : Warp) (n : Fld) :
    (trapRequest k (clearPass w) (clearPass w).act n.toNat).lanes =
      (lanesOf w.act).filterMap (fun l => (thr w l).map (fun x => (x.name,
        [n.setWidth 32, rd w 0 l, rd w 1 l, (wordAddr (curPC w)).extractLsb' 0 32,
          (wordAddr (curPC w)).extractLsb' 32 32, BitVec.ofNat 32 x.name.n, BitVec.ofNat 32 (k % 64 * 32 + l),
          BitVec.ofNat 32 (slateKind w)], x.wid))) := by
  simp only [trapRequest, clearPass_act, curPC_clearPass, rd_clearPass, thr_clearPass, Option.map_map, clearPass_kind,
    slateKind]
  refine List.filterMap_congr (fun l _ => ?_)
  congr 1
  funext x
  simp only [Function.comp, BitVec.ofNat_toNat]
  split <;> rfl

/-- TRAP where a handler is set: its lanes wait for the handler wave that it asks for (R328). -/
theorem trap_enters {s : State} {k : Nat} {w : Warp} (h : Issues s k w []) (n : Fld) (hd : bitN (dbgOf s w.wg) 3 = false)
    (hm : NoMember w) (hk : w.kind ≠ .handler) (ht : trapPc s w.wg ≠ 0) (hp : anyPending w [0, 1] = false)
    (hs : w.sstep = false) : ∃ t w1 r, exec (.trap n) s = .next t ∧ tget t.warps k = some w1 ∧
      Placed w w1 (fun _ x => { x with wait := .trap, next := nextPC w }) ∧
      (coreRec t (coreOf k)).handlers = (coreRec s (coreOf k)).handlers ++ [r] ∧ r.wg = w.wg ∧ r.pc = trapPc s w.wg ∧
      (∀ a, memByte t.mem a = memByte s.mem a) ∧
      r.lanes = (lanesOf w.act).filterMap (fun l => (thr w l).map (fun x => (x.name,
        [n.setWidth 32, rd w 0 l, rd w 1 l, (wordAddr (curPC w)).extractLsb' 0 32,
          (wordAddr (curPC w)).extractLsb' 32 32, BitVec.ofNat 32 x.name.n, BitVec.ofNat 32 (k % 64 * 32 + l),
          BitVec.ofNat 32 (slateKind w)], x.wid))) := by
  have d := does_trap h n
  rw [if_neg (ne_true_of_eq_false hd), if_neg (by rw [activeMember_eq_none hm]; exact Bool.false_ne_true), if_neg (not_or.2 ⟨hk, ht⟩),
    if_neg (ne_true_of_eq_false hp)] at d
  generalize hu : enterTrap (issued s k w) k (clearPass w) n.toNat (trapPc s w.wg) = u at d
  have slot : tget u.warps k = some (beginWait (clearPass w) (clearPass w).act .trap (nextPC (clearPass w))) := by
    rw [← hu]
    exact tget_tput_self ..
  have quiet : (beginWait (clearPass w) (clearPass w).act .trap (nextPC (clearPass w))).sstep = false := by
    rw [← hs, ← clearPass_sstep w]
    rfl
  rw [Does, finishEff_moved slot quiet] at d
  refine ⟨_, _, { trapRequest k (clearPass w) (clearPass w).act n.toNat with pc := trapPc s w.wg }, d, ?_,
    placed_beginWait w .trap, ?_, clearPass_wg w, rfl, fun a => ?_, trapRequest_lanes k w n⟩
  · rw [countRetired_warps]
    exact slot
  · have e : coreRec (countRetired u w.wg) (coreOf k) = coreRec u (coreOf k) := by unfold countRetired; split <;> rfl
    rw [e, ← hu]
    exact congrArg Core.handlers (coreRec_setCore_self ..)
  · have e : (countRetired u w.wg).mem = u.mem := by unfold countRetired; split <;> rfl
    rw [e, ← hu]
    rfl

/-- A word that changes nothing retires (R331). -/
theorem bkpt_retires {s : State} {k : Nat} {w : Warp} (h : Issues s k w []) (tag : Half)
    (hd : bitN (dbgOf s w.wg) 2 = false) (hs : w.sstep = false) : ∃ t w1, exec (.bkpt tag) s = .next t ∧
      Retires s t k w w1 ∧ SameRegs w w1 ∧ w1.p = w.p ∧ w1.flags = w.flags := by
  obtain ⟨t, w1, e, r, hv, hw, hp, hf, hsp⟩ := warpWord_retires h hs id ⟨rfl, rfl, rfl⟩
  refine ⟨t, w1, ?_, r, ⟨hsp.trans (clearPass_spoilt w), fun f l _ => ?_⟩, hp.trans (clearPass_p w),
    hf.trans (clearPass_flags w)⟩
  · rw [← e, warpWord, laneWord_ready h]
    show laneWord s [] _ = _
    rw [laneWord_ready h]
    have off : bitN (dbgOf (setWarp s k (clearPass w)) (clearPass w).wg) 2 = false := by rw [clearPass_wg]; exact hd
    simp only [off, Bool.false_eq_true, if_false, id, setWarp_setWarp]
  · rw [rd, rd, hv, hw]
    simp

/-! The return from a handler (R331). -/

/-- A lane's thread after its handler lane has returned: it has v0 and v1, and goes on. -/
theorem leaveTrap_returns {s : State} {name : TName} {j l : Nat} {u : Warp} {x : Thread} (v0 v1 : Word)
    (hf : findThread s name = some (j, l)) (hu : tget s.warps j = some u) (hx : thr u l = some x) (hl : l < 32)
    (hs : u.sstep = false) : ∃ u1, leaveTrap s name v0 v1 = setWarp s j u1 ∧ rd u1 0 l = v0 ∧ rd u1 1 l = v1 ∧
      thr u1 l = some { x with pc := x.next, wait := .none } := by
  have bit : (laneBit l).getLsbD l = true := by simp [getLsbD_laneBit l l hl]
  generalize hy : killPend u (laneBit l) (fun e => !e.token && (e.reg == 0 || e.reg == 1)) = y
  have thread : thr y l = some x := by rw [← hy]; exact hx
  have step : y.sstep = false := by rw [← hy]; exact hs
  generalize hz : wr (wr y 0 (laneBit l) (fun _ => v0)) 1 (laneBit l) (fun _ => v1) = z
  have threads : thr z l = some x := by rw [← hz, thr, wr_threads, wr_threads]; exact thread
  have quiet : z.sstep = false := by rw [← hz, wr_sstep, wr_sstep, step]
  have first : rd z 0 l = v0 := by
    rw [← hz, rd_wr_ne _ _ _ (by decide) hl, rd_wr_self _ _ _ _ _ hl, if_pos (by decide), if_pos bit]
  have second : rd z 1 l = v1 := by
    rw [← hz, rd_wr_self _ _ _ _ _ hl, if_pos (by decide), if_pos bit]
  refine ⟨modLanes z (laneBit l) (fun _ t => { t with pc := t.next, wait := .none }), ?_, first, second, ?_⟩
  · have slot : tget (setWarp s j z).warps j = some z := tget_tput_self ..
    simp only [leaveTrap, hf, hu, hy, hz, releaseLanes, slot, setWarp_setWarp, stepTrap]
    simp [setWarp, modLanes, quiet]
  · rw [thr_modLanes, threads, Option.map_some, if_pos bit]

/-! Special registers (R63 to R65). -/

/-- What the special registers show does not depend on the marks of resumed lanes. -/
theorem special_clearPass (s : State) (k : Nat) (w : Warp) (n l : Nat) :
    special (issued s k w) k (clearPass w) n l = special s k w n l := by
  have onName : (thr (clearPass w) l).map (·.name.n) = (thr w l).map (·.name.n) := by
    rw [thr_clearPass, Option.map_map]
    congr 1
    funext x
    simp only [Function.comp]
    split <;> rfl
  have onWid : (thr (clearPass w) l).map (·.wid.toNat) = (thr w l).map (·.wid.toNat) := by
    rw [thr_clearPass, Option.map_map]
    congr 1
    funext x
    simp only [Function.comp]
    split <;> rfl
  have onDepth : (clearPass w).threads.foldl (fun n e => max n e.2.tdepth) 0 =
      w.threads.foldl (fun n e => max n e.2.tdepth) 0 := by
    unfold clearPass
    split
    · rw [modLanes_threads, List.foldl_map]
      congr 1
      funext m e
      dsimp only
      split <;> rfl
    · rfl
  have onState : special (issued s k w) k (clearPass w) n l = special s k (clearPass w) n l := rfl
  rw [onState]
  unfold special cycleRead
  dsimp only
  rw [onName, onWid, onDepth, clearPass_other]

/-- The read of CYCLE or RETIRED changes nothing of the warp but its latch (R64). -/
theorem latch_other (s : State) (k : Nat) (w : Warp) (n : Nat) :
    latch s k w n = { w with latch := (latch s k w n).latch } := by
  unfold latch
  split <;> rfl

theorem latch_clearPass (s : State) (k : Nat) (w : Warp) (n : Nat) :
    (latch (issued s k w) k (clearPass w) n).latch = (latch s k w n).latch := by
  unfold latch cycleRead
  rw [clearPass_other]
  split <;> rfl

/-- GETSR of a register that is there writes it to D, and what it holds of CYCLE or RETIRED to the latch (R64, R329). -/
theorem getsr_writes {s : State} {k : Nat} {w : Warp} {d : Fld} (h : Issues s k w [d]) (hs : w.sstep = false) {n : Fld}
    (hn : n.toNat < 0x21) : ∃ t w1, exec (.getsr d n) s = .next t ∧ OnlyWarp s t k w w1 ∧ GoesOn w w1 ∧
      WroteReg w w1 d (fun l => special s k w n.toNat l) ∧ w1.p = w.p ∧ w1.flags = w.flags ∧
      w1.latch = (latch s k w n.toNat).latch := by
  let c : Warp := { clearPass w with latch := (latch s k w n.toNat).latch }
  let g (l : Nat) : Word := special (issued s k w) k (clearPass w) n.toNat l
  have latched : latch (issued s k w) k (clearPass w) n.toNat = c := by rw [latch_other, latch_clearPass]
  have e : exec (.getsr d n) s = .next (finishEff (issued s k w) k (clearPass w)
      (.next (setWarp (issued s k w) k (mapLanes c d g)))) := by
    show laneWord s [d] _ = _
    rw [laneWord_ready h, if_neg (by omega), ← latched]
    rfl
  have keeps : Keeps c (mapLanes c d g) := ⟨wr_threads .., wr_act .., by rw [mapLanes, wr_other]⟩
  obtain ⟨threads, act, rest⟩ := goOn_fields c (mapLanes c d g) keeps
  have same : goOn c (mapLanes c d g) = goOn (clearPass w) (mapLanes c d g) := rfl
  generalize goOn c (mapLanes c d g) = w1 at threads act rest same
  have slot : tget (setWarp (issued s k w) k (mapLanes c d g)).warps k = some (mapLanes c d g) := tget_tput_self ..
  have quiet : w1.sstep = false := by
    rw [rest]
    exact (clearPass_sstep w).trans hs
  have t1 : finishEff (issued s k w) k (clearPass w) (.next (setWarp (issued s k w) k (mapLanes c d g))) =
      countRetired (setWarp s k w1) w.wg := by
    simp only [finishEff, slot]
    rw [← same, issued, setWarp_setWarp, setWarp_setWarp, retire_plain _ _ _ w1 (tget_tput_self ..) quiet, clearPass_wg]
  refine ⟨_, w1, e.trans (congrArg _ t1), onlyWarp_count s k w w1, ⟨fun l => ?_, ?_⟩, ?_, ?_, ?_, by rw [rest]⟩
  · have onC : thr c l = thr (clearPass w) l := rfl
    have pc : nextPC c = nextPC w := nextPC_clearPass w
    have on : c.act = w.act := clearPass_act w
    rw [threads, onC, thr_clearPass, Option.map_map, pc, on]
    congr 1
    funext x
    simp only [Function.comp]
    split <;> rfl
  · rw [act]
    have pc : nextPC c = nextPC w := nextPC_clearPass w
    have on : c.act = w.act := clearPass_act w
    rw [pc, on]
  · have wrote : (mapLanes c d g).v = (wr (clearPass w) d w.act g).v ∧ (mapLanes c d g).w = (wr (clearPass w) d w.act g).w ∧
        (mapLanes c d g).spoilt = (wr (clearPass w) d w.act g).spoilt := by
      have on : c.act = w.act := clearPass_act w
      rw [mapLanes, on]
      unfold wr
      split
      · exact ⟨rfl, rfl, rfl⟩
      · split <;> exact ⟨rfl, rfl, rfl⟩
    obtain ⟨hv, hw, hp⟩ := wrote
    exact wroteReg_wr w w1 d g _ (by rw [rest]; exact hv) (by rw [rest]; exact hw) (by rw [rest]; exact hp)
      (fun l _ => special_clearPass s k w n.toNat l)
  · rw [rest]
    exact (wr_p ..).trans (clearPass_p w)
  · rw [rest]
    exact (wr_flags ..).trans (clearPass_flags w)

/-- The deepest nesting of a warp's threads is what the fold over them finds. -/
theorem foldl_max_tdepth {ts : Tbl Thread} {m : Nat} (bound : ∀ e ∈ ts, e.2.tdepth ≤ m) (there : ∃ e ∈ ts, e.2.tdepth = m) :
    ts.foldl (fun n e => max n e.2.tdepth) 0 = m := by
  have atMost (l : Tbl Thread) (z : Nat) (hz : z ≤ m) (hl : ∀ e ∈ l, e.2.tdepth ≤ m) :
      l.foldl (fun n e => max n e.2.tdepth) z ≤ m := by
    induction l generalizing z with
    | nil => exact hz
    | cons e r ih => exact ih _ (max_le hz (hl e (by simp))) (fun x hx => hl x (by simp [hx]))
  have grows (l : Tbl Thread) (z : Nat) : z ≤ l.foldl (fun n e => max n e.2.tdepth) z := by
    induction l generalizing z with
    | nil => exact le_refl z
    | cons e r ih => exact (le_max_left ..).trans (ih _)
  refine le_antisymm (atMost ts 0 (Nat.zero_le m) bound) ?_
  obtain ⟨e, he, rfl⟩ := there
  obtain ⟨a, b, rfl⟩ := List.append_of_mem he
  rw [List.foldl_append, List.foldl_cons]
  exact (le_max_right ..).trans (grows _ _)

/-- The low word of a count is that of its 64 bits. -/
theorem halfOf_ofNat_zero (x : Nat) : halfOf (BitVec.ofNat 64 x).toNat 0 = BitVec.ofNat 32 (x / 2 ^ (32 * 0)) := by
  apply BitVec.eq_of_toNat_eq
  simp only [halfOf, BitVec.toNat_ofNat]
  omega

/-- A warp whose FLAGS are those that its lowest active lane gives (R65, R330). -/
def withFlags (a : Fld) (w : Warp) : Warp :=
  match lowest w.act with
  | some l => { w with flags := (rd w a l).extractLsb' 0 5 }
  | none => w

theorem execSetsr_flags (a : Fld) (s : State) : exec (.setsr a 0x1A) s = warpWord s [a] (withFlags a) := by
  show execSetsr a 0x1A s = _
  simp only [execSetsr, ne_eq, not_true_eq_false, if_false]
  rfl

/-- SETSR of FLAGS retires, having changed nothing else (R65, R330). -/
theorem setsr_flags {s : State} {k : Nat} {w : Warp} {a : Fld} (h : Issues s k w [a]) (hs : w.sstep = false) {m : Nat}
    (hm : lowest w.act = some m) : ∃ t w1, exec (.setsr a 0x1A) s = .next t ∧ Retires s t k w w1 ∧ SameRegs w w1 ∧
      w1.p = w.p ∧ w1.flags = (rd w a m).extractLsb' 0 5 := by
  have f : withFlags a (clearPass w) = { clearPass w with flags := (rd w a m).extractLsb' 0 5 } := by
    simp only [withFlags, clearPass_act, hm, rd_clearPass]
  obtain ⟨t, w1, e, r, hv, hw, hp, hf, hsp⟩ := warpWord_retires h hs (withFlags a) (by rw [f]; exact ⟨rfl, rfl, rfl⟩)
  rw [f] at hv hw hp hf hsp
  refine ⟨t, w1, (execSetsr_flags a s).trans e, r, ⟨hsp.trans (clearPass_spoilt w), fun f l _ => ?_⟩,
    hp.trans (clearPass_p w), hf⟩
  rw [rd, rd, hv, hw]
  simp

/-! YIELD and SYSRET (R331, R332). -/

/-- What YIELD does, by its first test that holds. -/
theorem does_yield {s : State} {k : Nat} {w : Warp} (h : Issues s k w []) :
    Does .yield s k w (if (activeMember (clearPass w)).isSome then .abort 7
      else if drainPending s w.wg then
        .moved (setWarp (issued s k w) k (beginWait (clearPass w) (clearPass w).act .drain (nextPC (clearPass w))))
      else .moved (setWarp (issued s k w) k (standBack s k
        (choicePoint (setPC (clearPass w) (clearPass w).act (nextPC (clearPass w))))))) := by
  have d := does_of_laneWord (i := .yield) h (Eq.refl (execYield s))
  rw [clearPass_wg] at d
  exact d

theorem standBack_other (s : State) (k : Nat) (w : Warp) :
    standBack s k w = { w with yieldTo := if contOfWg s w.wg then w.yieldTo else [k] } := by
  unfold standBack
  split <;> rfl

theorem yield_places {s : State} {k : Nat} {w : Warp} (h : Issues s k w []) (hs : w.sstep = false) (hm : NoMember w) :
    (drainPending s w.wg = true → ∃ t w1, exec .yield s = .next t ∧ OnlyWarp s t k w w1 ∧
      Placed w w1 (fun _ x => { x with wait := .drain, next := nextPC w })) ∧
    (drainPending s w.wg = false → ∃ t w1, exec .yield s = .next t ∧ OnlyWarp s t k w w1 ∧
      Placed w w1 (fun _ x => { x with pc := nextPC w }) ∧ w1.yieldTo = if contOfWg s w.wg then w.yieldTo else [k]) := by
  have d := does_yield h
  rw [if_neg (by rw [activeMember_eq_none hm]; exact Bool.false_ne_true)] at d
  constructor <;> intro hd
  · rw [if_pos hd] at d
    refine ⟨_, _, d, onlyWarp_moved s _ k w ?_, placed_beginWait w .drain⟩
    rw [← hs, ← clearPass_sstep w]
    rfl
  · rw [if_neg (ne_true_of_eq_false hd), standBack_other] at d
    have p := placed_setPC w
    have own : (choicePoint (setPC (clearPass w) (clearPass w).act (nextPC (clearPass w)))).wg = w.wg := clearPass_wg w
    have turns : (choicePoint (setPC (clearPass w) (clearPass w).act (nextPC (clearPass w)))).yieldTo = w.yieldTo := by
      rw [clearPass_other]
      rfl
    have quiet : (choicePoint (setPC (clearPass w) (clearPass w).act (nextPC (clearPass w)))).sstep = false :=
      (clearPass_sstep w).trans hs
    generalize choicePoint (setPC (clearPass w) (clearPass w).act (nextPC (clearPass w))) = u at d p own turns quiet
    exact ⟨_, _, d, onlyWarp_moved s _ k w quiet, ⟨p.threads, p.act, p.cand⟩, by rw [own, turns]⟩

theorem does_sysret {s : State} {k : Nat} {w : Warp} (h : Issues s k w [0, 1]) :
    Does .sysret s k w (if w.kind ≠ .handler then .fault 0x0B 0 (low w) 0
      else match activeMember (clearPass w) with
        | some l => .fault 0x50 0 l 0
        | none => .moved (endLanes (setWarp (returnAll (issued s k w) (clearPass w)) k (choicePoint (clearPass w))) k w.act
            (wordAddr (curPC w)))) := by
  have d := does_of_laneWord (i := .sysret) h (Eq.refl (execSysret s))
  rw [clearPass_kind, low_clearPass, clearPass_act, curPC_clearPass] at d
  exact d

/-- Settles O32: each word by its first test that holds, and what it leaves of its warp. -/
theorem trapsAndSpecialRegisters : Obligations.TrapsAndSpecialRegisters := by
  unfold Obligations.TrapsAndSpecialRegisters
  refine ⟨fun s k w n tag => ⟨fun h => ⟨fun hd => ?trap, fun hd => ?debugTrap, fun hd => ?debugBkpt, bkpt_retires h tag⟩,
    fun h => ⟨fun hk => ?notHandler, fun hk hm => ?sysret⟩,
    fun name v0 v1 j l u x hf hu hx hl hs => leaveTrap_returns v0 v1 hf hu hx hl hs⟩,
    fun s k w hs d n a => ⟨fun h => ⟨fun hn => ?noRegister, fun hn => ?getsr⟩, fun g gr l x hg hgr hx hl hc => ?special,
      fun h => ⟨fun hn => ?notFlags, fun m hn hm => ?setsr⟩, fun h => ⟨fun hm => ?yieldMember, ?yield⟩⟩⟩
  case trap =>
    have off : ¬ bitN (dbgOf s w.wg) 3 = true := ne_true_of_eq_false hd
    have d := does_trap h n
    rw [if_neg off] at d
    refine ⟨fun hm => ?_, fun hm hk => ?_, fun hm hk ht hp => ?_, fun hm hk ht hp hs => trap_enters h n hd hm hk ht hp hs⟩
    · rwa [if_pos (activeMember_isSome hm)] at d
    · rwa [if_neg (by rw [activeMember_eq_none hm]; exact Bool.false_ne_true), if_pos hk] at d
    · rwa [if_neg (by rw [activeMember_eq_none hm]; exact Bool.false_ne_true), if_neg (not_or.2 ⟨hk, ht⟩), if_pos hp] at d
  case debugTrap =>
    have d := does_trap h n
    rwa [if_pos hd, passing_issues h] at d
  case debugBkpt =>
    have d := does_of_laneWord (i := .bkpt tag) h (Eq.refl (execBkpt tag s))
    rw [clearPass_wg, passing_issues h] at d
    have on : bitN (dbgOf (issued s k w) w.wg) 2 = true := hd
    rwa [if_pos on] at d
  case notHandler =>
    have d := does_sysret h
    rwa [if_pos hk] at d
  case sysret =>
    have d := does_sysret h
    rwa [if_neg (not_not.2 hk), activeMember_eq_none hm] at d
  case noRegister =>
    have d := does_of_laneWord (i := .getsr d n) h (Eq.refl (execGetsr d n s))
    rwa [if_pos hn, low_clearPass] at d
  case getsr =>
    obtain ⟨t, w1, e, only, goes, wrote, hp, hf, hl⟩ := getsr_writes h hs hn
    refine ⟨t, w1, e, only, goes, wrote, hp, hf, fun e1 => ?_, fun e1 => ?_, fun h1 h2 => ?_⟩
    · rw [hl, e1]
      rfl
    · rw [hl, e1]
      rfl
    · have n1 : n.toNat ≠ 0x1E := fun e => h1 (BitVec.eq_of_toNat_eq e)
      have n2 : n.toNat ≠ 0x1C := fun e => h2 (BitVec.eq_of_toNat_eq e)
      rw [hl]
      unfold latch
      split
      · exact absurd ‹_› n2
      · exact absurd ‹_› n1
      · rfl
  case special =>
    have hdr : hdrOf s w.wg = gr.hdr := by simp only [hdrOf, hgr]
    simp only [special, hx, hg, hgr, hdr, Option.map_some, Option.getD_some, halfOf, retiredOf, cycleRead, wgClock, hc,
      Bool.false_eq_true, if_false, true_and]
    refine ⟨fun m bound there => by rw [foldl_max_tdepth bound there], halfOf_ofNat_zero _, trivial⟩
  case notFlags =>
    have d := does_of_laneWord (i := .setsr a n) h (Eq.refl (execSetsr a n s))
    rwa [if_pos hn, low_clearPass] at d
  case setsr =>
    subst hn
    exact setsr_flags h hs hm
  case yieldMember =>
    have d := does_yield h
    rwa [if_pos (activeMember_isSome hm)] at d
  case yield => exact ⟨fun hm => (yield_places h hs hm).1, fun hm => (yield_places h hs hm).2⟩

end Sys2Proof.Machine

/-! PROOF. Launches (01 R15 to R17, R44, 21 R311, 27 R390, R393): a header that has been read becomes a grid at the
dependence wait or past lease set-up, or a refusal on its queue. -/

namespace Sys2Proof.Machine

/-! Packets where no stash region is mapped. -/

theorem anyStash_none {s : State} (hs : ∀ e ∈ s.wgs, e.2.stash = []) : anyStash s = false := by
  rw [anyStash, List.any_eq_false]
  intro e he
  simp [hs e he]

theorem operandsSeen_none {s : State} (hs : ∀ e ∈ s.wgs, e.2.stash = []) (rs : List (Nat × Nat)) :
    operandsSeen s rs = s := by
  rw [operandsSeen, anyStash_none hs]
  rfl

theorem readPieces_none {s : State} (hs : ∀ e ∈ s.wgs, e.2.stash = []) (ps : List (Nat × Nat × Nat)) :
    readPieces s ps = (piecesBytes s ps, s) := by
  induction ps with
  | nil => rfl
  | cons p r ih =>
    obtain ⟨va, pa, n⟩ := p
    simp only [readPieces, readPhys, flushRange_none s hs, ih, piecesBytes, List.flatMap_cons]

/-- A packet that names ranges has the effect of its meaning in the state as it stands. -/
theorem queueWordAt_turn {s : State} {q : Nat} {x : Queue} (ht : s.issuer = .queue q) (hx : queueRec s q = x)
    (hs : ∀ e ∈ s.wgs, e.2.stash = []) (rs : List (Nat × Nat)) (body : State → Nat → Queue → PkEff) :
    queueWordAt s rs body = .next (packetEff s q (body s q x)) := by
  rw [queueWordAt, operandsSeen_none hs, queueWord_turn body ht, hx]

theorem beside_showStatus (s0 s : State) (q : Nat) : Beside s (showStatus s0 s q) := by
  unfold showStatus
  split
  · exact .refl s
  · exact beside_writeStatus s q

/-! Wait slots (R396). -/

/-- From s to t wait slots have been given: grids and mailboxes are as before, and of a queue what it launches, its levels
and its waiting state. -/
structure SlotsGiven (s t : State) : Prop where
  grids : ∀ n, (tget t.grids n).map (fun g => { g with ldk := [] }) = (tget s.grids n).map (fun g => { g with ldk := [] })
  mbx : ∀ c, (ctxRec t c).mbx = (ctxRec s c).mbx
  serial : t.launchSerial = s.launchSerial
  launching : ∀ q, (queueRec t q).launching = (queueRec s q).launching
  levels : ∀ q, (queueRec t q).levels = (queueRec s q).levels
  st : ∀ q, (queueRec s q).st = 2 → (queueRec t q).st = 2

namespace SlotsGiven

variable {s t u : State}

theorem trans (h : SlotsGiven s t) (k : SlotsGiven t u) : SlotsGiven s u where
  grids n := (k.grids n).trans (h.grids n)
  mbx c := (k.mbx c).trans (h.mbx c)
  serial := k.serial.trans h.serial
  launching q := (k.launching q).trans (h.launching q)
  levels q := (k.levels q).trans (h.levels q)
  st q e := k.st q (h.st q e)

theorem ofBeside (h : Beside s t) : SlotsGiven s t := by
  have same (q : Nat) : queueRec t q = queueRec s q := by rw [queueRec, queueRec, h.queues]
  exact
    { grids := h.grids, mbx := h.mbx, serial := h.serial, launching := fun q => by rw [same]
      levels := fun q => by rw [same], st := fun q e => by rw [same, e] }

/-- A queue that waits from now on. -/
theorem setQueue (q : Nat) (x : Queue) (hl : x.launching = (queueRec s q).launching)
    (hv : x.levels = (queueRec s q).levels) (hst : x.st = 2) : SlotsGiven s (Machine.setQueue s q x) where
  grids _ := rfl
  mbx _ := rfl
  serial := rfl
  launching p := by rw [queueRec_setQueue]; split <;> simp_all
  levels p := by rw [queueRec_setQueue]; split <;> simp_all
  st p e := by rw [queueRec_setQueue]; split <;> simp_all

end SlotsGiven

theorem slotsGiven_giveSlot (s : State) (q : Nat) : SlotsGiven s (giveSlot s q) :=
  .trans (.setQueue q { queueRec s q with slot := some (cycleOf s 0), wants := none, st := 2 } rfl rfl rfl)
    (.ofBeside (beside_showStatus ..))

theorem slotsGiven_shareSlots (fuel : Nat) : ∀ s : State, SlotsGiven s (shareSlots fuel s) := by
  induction fuel with
  | zero => exact fun s => .ofBeside (.refl s)
  | succ n ih =>
    intro s
    unfold shareSlots
    split
    · exact .ofBeside (.refl s)
    split
    · exact .ofBeside (.refl s)
    · exact (slotsGiven_giveSlot ..).trans (ih _)

/-- A queue that asks for a wait slot waits, whether it gets one or not. -/
theorem slotsGiven_takeSlot {s : State} (q : Nat) : SlotsGiven s (takeSlot s q) ∧ (queueRec (takeSlot s q) q).st = 2 := by
  unfold takeSlot
  dsimp only
  generalize hy : ({ queueRec s q with st := 2, wants := _ } : Queue) = y
  have waits : y.st = 2 := by rw [← hy]
  refine ⟨.trans (.setQueue q y (by rw [← hy]) (by rw [← hy]) waits) (slotsGiven_shareSlots ..), ?_⟩
  exact (slotsGiven_shareSlots ..).st q (by rw [queueRec_setQueue_self, waits])

/-! The queue of a launch. -/

theorem setTop_other (x : Queue) (l : Level) : setTop x l = { x with levels := (setTop x l).levels } := by
  unfold setTop
  split <;> rfl

theorem pastPacket_other (x : Queue) : pastPacket x = { x with levels := (pastPacket x).levels } := setTop_other ..

theorem packetDone_launching (x : Queue) : (packetDone x).launching = none := by
  unfold packetDone
  dsimp only
  split <;> rfl

theorem packetDone_st (x : Queue) : (packetDone x).st = 1 := by
  unfold packetDone
  dsimp only
  split <;> rfl

theorem packetDone_conds (x : Queue) : (packetDone x).conds = x.conds := by
  unfold packetDone packetOver
  dsimp only
  split <;> rfl

/-- The state in which the header of a launch is judged: its serial is taken, and its queue stands past the packet (R312,
R390). -/
def launchTurn (s : State) (q : Nat) : State :=
  setQueue { s with launchSerial := (s.launchSerial + 1) % 2 ^ 64 } q
    { pastPacket (queueRec s q) with launching := some s.launchSerial, st := 2 }

/-- The state in which a launch that has passed is a grid at the dependence wait (R311). -/
def launchMade (s : State) (q rank : Nat) (h : BitVec 1024) (cl : Option (Nat × Word × Nat)) : State :=
  setGrid (setCtx (launchTurn s q) (qCtx (queueRec s q).desc) { ctxRec s (qCtx (queueRec s q).desc) with
      mbx := field (descOf s (qCtx (queueRec s q).desc)) 540 528 }) s.launchSerial
    (newGrid s (qCtx (queueRec s q).desc) q rank (descOf s (qCtx (queueRec s q).desc)) h (queueRec s q).conds cl)

/-- A change of a context's mailboxes leaves what conditions of timelines say. -/
theorem condsHold_setCtx (s : State) (ctx m : Nat) (cs : List (Word × DWord)) (n : Nat) :
    condsHold (setCtx s n { ctxRec s n with mbx := m }) ctx cs = condsHold s ctx cs := by
  have tl (h : Nat) : tlOf (setCtx s n { ctxRec s n with mbx := m }) ctx h = tlOf s ctx h := by
    rw [tlOf, tlOf, ctxRec_setCtx]
    split
    · next e => rw [e]
    · rfl
  have val (h : Word) : handleVal (setCtx s n { ctxRec s n with mbx := m }) ctx h = handleVal s ctx h := by
    rw [handleVal, handleVal, tl]
    rfl
  simp only [condsHold, val]

/-- What becomes of a header that has been read: the validator's verdict, then the conditions of its queue (R311). -/
theorem launchWith_eq {s : State} {q : Nat} {x : Queue} (hx : queueRec s q = x) {ctx : Nat} (hctx : qCtx x.desc = ctx)
    {d : BitVec 1024} (hd : descOf s ctx = d) (hdr rank : Nat) (cl : Option (Nat × Word × Nat)) :
    launchWith s q hdr rank cl = match refusalOf s ctx d (BitVec.ofNat 1024 hdr) rank with
      | some c => refuseLaunch (launchTurn s q) q ctx s.launchSerial rank d (BitVec.ofNat 1024 hdr) c 0
      | none => if condsHold s ctx x.conds then
          toLease (launchMade s q rank (BitVec.ofNat 1024 hdr) cl) q s.launchSerial
            (newGrid s ctx q rank d (BitVec.ofNat 1024 hdr) x.conds cl)
        else takeSlot (launchMade s q rank (BitVec.ofNat 1024 hdr) cl) q := by
  have judged : refusalOf (launchTurn s q) ctx d (BitVec.ofNat 1024 hdr) rank =
      refusalOf s ctx d (BitVec.ofNat 1024 hdr) rank := rfl
  have made : newGrid (setCtx (launchTurn s q) ctx { ctxRec s ctx with mbx := field d 540 528 }) ctx q rank
      d (BitVec.ofNat 1024 hdr) x.conds cl = newGrid s ctx q rank d (BitVec.ofNat 1024 hdr) x.conds cl := by
    have desc : (queueRec (launchTurn s q) q).desc = (queueRec s q).desc := by
      rw [launchTurn, queueRec_setQueue_self, pastPacket_other]
    rw [newGrid, newGrid, queueRec_setCtx, desc]
    rfl
  have conds : condsHold (launchMade s q rank (BitVec.ofNat 1024 hdr) cl) ctx x.conds = condsHold s ctx x.conds := by
    rw [launchMade, hx, hctx, hd]
    exact condsHold_setCtx (launchTurn s q) ctx (field d 540 528) x.conds ctx
  rw [← judged, ← conds, launchMade, hx, hctx, hd, ← made]
  subst hx hctx hd
  rfl

/-- A launch whose conditions do not hold yet waits as a grid at the dependence wait (R311 step 3). -/
theorem launchWith_waits {s : State} {q hdr rank : Nat} {cl : Option (Nat × Word × Nat)} {x : Queue}
    (hx : queueRec s q = x)
    (hr : refusalOf s (qCtx x.desc) (descOf s (qCtx x.desc)) (BitVec.ofNat 1024 hdr) rank = none)
    (hc : condsHold s (qCtx x.desc) x.conds = false) :
    let t := showStatus s (launchWith s q hdr rank cl) q
    t.launchSerial = (s.launchSerial + 1) % 2 ^ 64 ∧
      (tget t.grids s.launchSerial).map (fun g => { g with ldk := [] }) = some (newGrid s (qCtx x.desc) q rank
        (descOf s (qCtx x.desc)) (BitVec.ofNat 1024 hdr) x.conds cl) ∧
      (queueRec t q).launching = some s.launchSerial ∧ (queueRec t q).st = 2 ∧
      (queueRec t q).levels = (pastPacket x).levels ∧
      (ctxRec t (qCtx x.desc)).mbx = field (descOf s (qCtx x.desc)) 540 528 := by
  rw [launchWith_eq hx rfl rfl]
  subst hx
  simp only [hr, hc, Bool.false_eq_true, if_false]
  generalize hu : launchMade s q rank (BitVec.ofNat 1024 hdr) cl = u
  obtain ⟨given, waits⟩ := slotsGiven_takeSlot (s := u) q
  have shown := given.trans (.ofBeside (beside_showStatus s (takeSlot u q) q))
  have stands : queueRec u q = { pastPacket (queueRec s q) with launching := some s.launchSerial, st := 2 } := by
    rw [← hu]
    exact queueRec_setQueue_self ..
  refine ⟨?_, ?_, ?_, shown.st q (by rw [stands]), ?_, ?_⟩
  · rw [shown.serial, ← hu]
    rfl
  · rw [shown.grids, ← hu, launchMade, setGrid_grids, tget_tput_self]
    rfl
  · rw [shown.launching, stands]
  · rw [shown.levels, stands]
  · rw [shown.mbx, ← hu]
    exact congrArg Ctx.mbx (ctxRec_setCtx_self ..)

/-! Lease set-up of a launch without leases (R165, R311 step 4). -/

theorem vPieces_zero (va : Nat) : vPieces va 0 = [] := by
  rw [vPieces, List.filterMap_eq_nil_iff]
  intro i _
  dsimp only
  rw [if_neg (by omega)]

/-- Without a lease table nothing is read or walked. -/
theorem leaseSetup_noLeases {s : State} {n : Nat} {g : Grid} (hg : tget s.grids n = some g) (h4 : g.stage = 4)
    (hs : ∀ e ∈ s.wgs, e.2.stash = []) (hl : hLeaseCnt g.hdr = 0) : leaseSetup s n = leased s n g [] [] := by
  have seen : leaseSeen s g = s := by
    rw [leaseSeen, anyStash_none hs]
    rfl
  have read : readLeases s g.ctx g.desc g.hdr = .ok [] := by
    rw [readLeases, hl, Nat.mul_zero, vPieces_zero]
    simp [vXlate, readPieces, entriesOf]
  simp only [leaseSetup, hg, h4, ne_eq, not_true_eq_false, if_false, seen, Option.getD_some, read, walkLeases]

/-- A grid whose leases are set up, on a package that has gangs of it or none (R30, R311). -/
def leasedGrid (s : State) (g : Grid) (es : List (BitVec 128)) (fixed : List (Nat × DWord)) : Grid :=
  { g with
    stage := if g.nextGang == g.lastGang then 7 else 5
    leases := es
    fixed := fixed
    page := none
    waitSince := cycleOf s 0 }

/-- A grid on one package waits for placement from then on, and its queue goes on (R30, R390). -/
theorem leased_onePackage {s : State} {n : Nat} {g : Grid} (es : List (BitVec 128)) (fixed : List (Nat × DWord))
    (hm : hMulti g.hdr = false) (hq : (queueRec s g.queue).launching = some n) :
    ∃ u, u.grids = tput s.grids n (leasedGrid s g es fixed) ∧ u.launchSerial = s.launchSerial ∧
      Beside (setQueue u g.queue (packetDone { queueRec s g.queue with conds := [] })) (leased s n g es fixed) := by
  let u : State := { setGrid s n (leasedGrid s g es fixed) with
    pageFaults := s.pageFaults.filter (fun f => f.1 != 64 + n) }
  have early : takeEarlyAcks u n g.hdr g.rank = u := by
    rw [takeEarlyAcks, if_neg (fun e => Bool.false_ne_true (hm.symm.trans e.1))]
  have acked : gateAck u n = u := by
    have there : tget u.grids n = some (leasedGrid s g es fixed) := tget_tput_self ..
    simp only [gateAck, there]
    rw [if_pos (.inl hm)]
  have all : leased s n g es fixed = launchDone (if (g.nextGang == g.lastGang) = true then gateAck
      (takeEarlyAcks u n g.hdr g.rank) n else takeEarlyAcks u n g.hdr g.rank) g.queue n := rfl
  have stays : leased s n g es fixed = putQueue u g.queue (packetDone { queueRec s g.queue with conds := [] }) := by
    rw [all, early, acked, ite_self]
    exact if_pos hq
  exact ⟨u, rfl, rfl, by rw [stays]; exact beside_writeStatus ..⟩

/-- A launch whose conditions hold and that leases nothing goes on to wait for placement at once (R311 step 4). -/
theorem launchWith_goesOn {s : State} {q hdr rank : Nat} {cl : Option (Nat × Word × Nat)} {x : Queue}
    (hx : queueRec s q = x) (hs : ∀ e ∈ s.wgs, e.2.stash = [])
    (hr : refusalOf s (qCtx x.desc) (descOf s (qCtx x.desc)) (BitVec.ofNat 1024 hdr) rank = none)
    (hc : condsHold s (qCtx x.desc) x.conds = true) (hl : hLeaseCnt (BitVec.ofNat 1024 hdr) = 0)
    (hm : hMulti (BitVec.ofNat 1024 hdr) = false) :
    let t := showStatus s (launchWith s q hdr rank cl) q
    t.launchSerial = (s.launchSerial + 1) % 2 ^ 64 ∧
      (tget t.grids s.launchSerial).map (fun g => { g with ldk := [] }) =
        some { newGrid s (qCtx x.desc) q rank (descOf s (qCtx x.desc)) (BitVec.ofNat 1024 hdr) x.conds cl with
          stage := if firstGang (BitVec.ofNat 1024 hdr) rank = firstGang (BitVec.ofNat 1024 hdr) (rank + 1) then 7 else 5
          conds := [], waitSince := cycleOf s 0 } ∧
      (queueRec t q).launching = none ∧ (queueRec t q).conds = [] ∧ (queueRec t q).st = 1 := by
  generalize hg : newGrid s (qCtx x.desc) q rank (descOf s (qCtx x.desc)) (BitVec.ofNat 1024 hdr) x.conds cl = g
  have made : launchWith s q hdr rank cl = toLease (launchMade s q rank (BitVec.ofNat 1024 hdr) cl) q s.launchSerial g := by
    rw [launchWith_eq hx rfl rfl, hr, ← hg]
    exact if_pos hc
  have onQ : g.queue = q := by rw [← hg]; rfl
  have onHdr : g.hdr = BitVec.ofNat 1024 hdr := by rw [← hg]; rfl
  generalize hu : launchMade s q rank (BitVec.ofNat 1024 hdr) cl = u at made
  have stands : (queueRec u q).launching = some s.launchSerial := by
    rw [← hu]
    exact congrArg Queue.launching (queueRec_setQueue_self ..)
  have stash : ∀ e ∈ u.wgs, e.2.stash = [] := by rw [← hu]; exact hs
  have clock : cycleOf u 0 = cycleOf s 0 := by rw [← hu]; rfl
  have serial : u.launchSerial = (s.launchSerial + 1) % 2 ^ 64 := by rw [← hu]; rfl
  let s1 : State := setGrid (setQueue u q { queueRec u q with slot := none, wants := none, st := 2 }) s.launchSerial
    { g with stage := 4, conds := [] }
  have there : tget s1.grids s.launchSerial = some { g with stage := 4, conds := [] } := tget_tput_self ..
  have queue : (queueRec s1 g.queue).launching = some s.launchSerial := by
    have e : queueRec s1 q = { queueRec u q with slot := none, wants := none, st := 2 } := queueRec_setQueue_self ..
    rw [onQ, e]
    exact stands
  have lease : launchWith s q hdr rank cl = leased s1 s.launchSerial { g with stage := 4, conds := [] } [] [] := by
    rw [made]
    exact leaseSetup_noLeases there rfl stash (by rw [onHdr, hl])
  obtain ⟨v, grids, kept, b⟩ := leased_onePackage (s := s1) (g := { g with stage := 4, conds := [] }) [] []
    (by rw [onHdr, hm]) queue
  rw [← lease] at b
  have shown := b.trans (beside_showStatus s _ q)
  generalize showStatus s (launchWith s q hdr rank cl) q = t at shown
  generalize hy : ({ queueRec s1 g.queue with conds := [] } : Queue) = y at shown
  have onT : queueRec t q = packetDone y := by
    rw [queueRec, shown.queues, onQ]
    exact queueRec_setQueue_self ..
  refine ⟨?_, ?_, by rw [onT, packetDone_launching], by rw [onT, packetDone_conds, ← hy], by rw [onT, packetDone_st]⟩
  · rw [shown.serial]
    exact kept.trans serial
  · have at1 : tget v.grids s.launchSerial = some (leasedGrid s1 { g with stage := 4, conds := [] } [] []) := by
      rw [grids, tget_tput_self]
    have clock1 : cycleOf s1 0 = cycleOf s 0 := clock
    rw [shown.grids, setQueue_grids, at1, leasedGrid, clock1, ← hg]
    simp only [Option.map_some, newGrid, beq_iff_eq]

/-! Refusals (R16, R44). -/

theorem refusalOf_lt {s : State} {ctx rank c : Nat} {d h : BitVec 1024} (e : refusalOf s ctx d h rank = some c) :
    c < 128 := by
  unfold refusalOf at e
  split at e
  · cases e; decide
  split at e
  · cases e; decide
  · cases e

/-- A gate packet changes only what has been sent (R31). -/
theorem beside_sendGate (s : State) (rank gfid : Nat) (mkey : DWord) (fs : List Nat) (data : List Byte) :
    Beside s (sendGate s rank gfid mkey fs data) := by
  have told (s : State) (kind : Nat) (fs : List Nat) (data : List Byte) : Beside s (sendOut s kind fs data) :=
    { Beside.refl s with sent := List.prefix_append _ _ }
  unfold sendGate
  split
  · exact told ..
  · exact told ..

/-- The state in which the gate holder has been told of a refused launch (R16, R31). -/
def refusalTold (s : State) (serial rank : Nat) (h : BitVec 1024) : State :=
  if !hMulti h then s
  else if rank = 0 then closeGate s serial h (((tget s.grids serial).map (·.deadline)).getD (cycleOf s 0 + hGate h * usClocks))
  else sendGate s rank (hGateFid h) (hMkey h) [rank, 2] []

theorem beside_refusalTold (s : State) (serial rank : Nat) (h : BitVec 1024) : Beside s (refusalTold s serial rank h) := by
  unfold refusalTold
  split
  · exact .refl s
  split
  · exact .quiet rfl
  · exact beside_sendGate ..

/-- Where the context is not confidential the record of a refusal is in the clear (R44, R333). -/
theorem refuseLaunch_open (s : State) (q ctx serial rank : Nat) {d : BitVec 1024} (hd : d.getLsbD 3 = false)
    (h : BitVec 1024) (cause faddr : Nat) : refuseLaunch s q ctx serial rank d h cause faddr =
      let s1 := refusalTold s serial rank h
      recordOnQueue { s1 with
        grids := tdel s1.grids serial
        pageFaults := s1.pageFaults.filter (fun f => f.1 != 64 + serial) } q ctx serial 0
        (faultRecord none (cycleOf s1 0) serial 0 (if hMulti h then rank else 0) { cpBlame cause with faddr := faddr }) := by
  have clear : (if d.getLsbD 3 then some ctx else none) = none := if_neg (ne_true_of_eq_false hd)
  rw [← clear]
  rfl

/-- The record of a launch that its queue still holds ends the packet there (R44, R390). -/
theorem recordOnQueue_launching {s : State} {q n : Nat} (h : (queueRec s q).launching = some n) (ctx die : Nat)
    (r : BitVec 512) : Beside (setQueue s q (packetDone { queueRec s q with record := r, conds := [] }))
      (recordOnQueue s q ctx n die r) := by
  simp only [recordOnQueue, h, if_true]
  exact (beside_writeStatus ..).trans (beside_hostEvent ..)

theorem launchWith_refused {s : State} {q hdr rank c : Nat} {cl : Option (Nat × Word × Nat)} {x : Queue}
    (hx : queueRec s q = x) (hd : (descOf s (qCtx x.desc)).getLsbD 3 = false)
    (hr : refusalOf s (qCtx x.desc) (descOf s (qCtx x.desc)) (BitVec.ofNat 1024 hdr) rank = some c) :
    let t := showStatus s (launchWith s q hdr rank cl) q
    t.launchSerial = (s.launchSerial + 1) % 2 ^ 64 ∧ tget t.grids s.launchSerial = none ∧
      field (queueRec t q).record 6 0 = c ∧ field (queueRec t q).record 447 384 = s.launchSerial % 2 ^ 64 ∧
      (queueRec t q).launching = none := by
  rw [launchWith_eq hx rfl rfl]
  simp only [hr]
  rw [refuseLaunch_open _ _ _ _ _ hd]
  have told : Beside (launchTurn s q) _ := beside_refusalTold (launchTurn s q) s.launchSerial rank (BitVec.ofNat 1024 hdr)
  generalize refusalTold (launchTurn s q) s.launchSerial rank (BitVec.ofNat 1024 hdr) = v at told ⊢
  dsimp only
  have stands : (queueRec v q).launching = some s.launchSerial := by
    rw [queueRec, told.queues]
    exact congrArg Queue.launching (queueRec_setQueue_self ..)
  generalize hrec : faultRecord none _ s.launchSerial 0 _ _ = r
  obtain ⟨cause, -, -, launch, -⟩ := faultRecord_fields (cycleOf v 0) s.launchSerial 0
    (if hMulti (BitVec.ofNat 1024 hdr) then rank else 0) { cpBlame c with faddr := 0 }
  rw [hrec] at cause launch
  generalize hw : ({ v with grids := _, pageFaults := _ } : State) = w
  have onW : (queueRec w q).launching = some s.launchSerial := by
    rw [← hw]
    exact stands
  have shown := (recordOnQueue_launching onW (qCtx x.desc) 0 r).trans (beside_showStatus s _ q)
  generalize showStatus s _ q = t at shown ⊢
  have queue : queueRec t q = packetDone { queueRec w q with record := r, conds := [] } := by
    rw [queueRec, shown.queues]
    exact queueRec_setQueue_self ..
  refine ⟨?_, ?_, ?_, ?_, ?_⟩
  · rw [shown.serial, ← hw]
    exact told.serial
  · have gone := shown.grids s.launchSerial
    rw [← hw] at gone
    simpa [tget_tdel] using gone
  · rw [queue, packetDone_record]
    exact cause.trans (Nat.mod_eq_of_lt (refusalOf_lt hr))
  · rw [queue, packetDone_record]
    exact launch
  · rw [queue, packetDone_launching]

/-! LAUNCH and CLAUNCH (R390, R393). -/

theorem setQueue_setQueue (s : State) (q : Nat) (x y : Queue) : setQueue (setQueue s q x) q y = setQueue s q y := by
  simp only [setQueue, tput_tput]

section
variable {s : State} {q : Nat} {x : Queue} (ht : s.issuer = .queue q) (hx : queueRec s q = x)
variable (hs : ∀ e ∈ s.wgs, e.2.stash = [])
include ht hx hs

/-- A header in the range table that translates is read and judged. -/
theorem exec_launch {hdr rank : Nat} {es : List (BitVec 128)} {ps : List (Nat × Nat × Nat)} (hes : rangeTable s x = .ok es)
    (hps : xlated s x needR hdr 128 = .ok ps) (hmod : hdr % 128 = 0) (hok : rangeOk es needR hdr 128 = true) :
    exec (.launch hdr rank) s =
      .next (showStatus s (launchWith s q (leNat (piecesBytes s ps)) rank none) q) := by
  show queueWordAt s _ _ = _
  rw [queueWordAt_turn ht hx hs]
  simp only [launchBody, hmod, ne_eq, not_true_eq_false, if_false, withOperand, inRanges, hes, orFail, List.all_cons, hok,
    List.all_nil, Bool.and_self, if_true, withPieces, hps, readPieces_none hs, packetEff]

/-- A packet whose operands are out of range halts its queue (R389). -/
theorem exec_launch_misaligned {hdr rank : Nat} (hmod : hdr % 128 ≠ 0) :
    exec (.launch hdr rank) s = .next (showStatus s (haltQueue s q 7 (packetAddr x)) q) := by
  show queueWordAt s _ _ = _
  rw [queueWordAt_turn ht hx hs]
  simp only [launchBody, hmod, ne_eq, not_false_eq_true, if_true, packetEff, failQueue, hx]

theorem exec_claunch_halts {tbl c : Nat} {mask : Word} (h : ∃ l ∈ lanesOf mask, startable s (8 * l + c) = false) :
    exec (.claunch tbl mask c 0 0) s = .next (showStatus s (haltQueue s q 7 (packetAddr x)) q) := by
  have busy : ¬ (lanesOf mask).all (fun l => startable s (8 * l + c)) = true := by
    obtain ⟨l, hl, e⟩ := h
    exact fun a => Bool.false_ne_true (e.symm.trans (List.all_eq_true.1 a l hl))
  show queueWordAt s _ _ = _
  rw [queueWordAt_turn ht hx hs]
  simp only [claunchBody]
  rw [if_pos (.inr (.inr (.inr busy)))]
  simp only [packetEff, failQueue, hx]

/-- A CLAUNCH whose operands are in order, up to what it does with its header (R393). -/
theorem exec_claunch {tbl c rank hdr : Nat} {mask : Word} {es : List (BitVec 128)} (hes : rangeTable s x = .ok es)
    (htbl : tbl % 64 = 0) (hmod : hdr % 128 = 0) (hrank : hdr = 0 → rank = 0)
    (hst : ∀ l ∈ lanesOf mask, startable s (8 * l + c) = true)
    (hok : ∀ a ∈ claunchReads tbl hdr (lanesOf mask), rangeOk es a.1 a.2.1 a.2.2 = true)
    (hrec : recordsFail s x tbl (lanesOf mask) = none) :
    exec (.claunch tbl mask c rank hdr) s = .next (packetEff s q (if hdr = 0 then
        if condsHold s (qCtx x.desc) x.conds then
          .done (setQueue (claunchStart s (qCtx x.desc) (some (tbl, mask, c))) q { x with conds := [] })
        else .wait s
      else withPieces s x needR hdr 128 (fun ps =>
        .own (launchWith (readPieces s ps).2 q (leNat (readPieces s ps).1) rank (some (tbl, mask, c)))))) := by
  have free : (lanesOf mask).all (fun l => startable s (8 * l + c)) = true := List.all_eq_true.2 hst
  show queueWordAt s _ _ = _
  rw [queueWordAt_turn ht hx hs]
  simp only [claunchBody]
  rw [if_neg]
  · simp only [inRanges, hes, orFail, hrec]
    rw [if_pos (List.all_eq_true.2 hok)]
  · rintro (h | h | ⟨h, hr⟩ | h)
    · exact h htbl
    · exact h hmod
    · exact hr (hrank h)
    · exact h free

end

/-- Settles O45: a header that is read is judged, and without one the starts take effect or wait. -/
theorem launches : Obligations.Launches := by
  unfold Obligations.Launches
  intro s q x ht hx hu
  have hs := hu.stash
  refine ⟨fun hdr rank es ps hes hps => ?header, fun hdr rank hmod => exec_launch_misaligned ht hx hs hmod,
    fun tbl mask c htbl => ⟨exec_claunch_halts ht hx hs, fun es hst hes hok hrec => ?starts⟩⟩
  case header =>
    dsimp only
    intro hmod hd
    refine ⟨fun hok => ?_, fun tbl mask c htbl hne hst hok hrec => ?_⟩
    · have e := exec_launch (rank := rank) ht hx hs hes hps hmod hok
      exact ⟨fun hr hc => ⟨_, e, launchWith_waits hx hr hc⟩,
        fun hr hc hl hm => ⟨_, e, launchWith_goesOn hx hs hr hc hl hm⟩, fun c hr => ⟨_, e, launchWith_refused hx hd hr⟩⟩
    · have e := exec_claunch (rank := rank) ht hx hs hes htbl hmod (fun h => absurd h hne) hst hok hrec
      rw [if_neg hne, withPieces, hps] at e
      simp only [orFail, readPieces_none hs, packetEff] at e
      exact ⟨fun hr hc => ⟨_, e, launchWith_waits hx hr hc⟩,
        fun hr hc hl hm => ⟨_, e, launchWith_goesOn hx hs hr hc hl hm⟩, fun c hr => ⟨_, e, launchWith_refused hx hd hr⟩⟩
  case starts =>
    have e := exec_claunch (rank := 0) (hdr := 0) ht hx hs hes htbl (Nat.zero_mod _) (fun _ => rfl) hst hok hrec
    rw [if_pos rfl] at e
    refine ⟨fun hc => ?_, fun hc => ?_⟩
    · rw [e, if_pos hc, packetEff, queueRec_setQueue_self, setQueue_setQueue]
    · rw [e, if_neg (ne_true_of_eq_false hc), packetEff]

end Sys2Proof.Machine

/-! PROOF. The placement of a gang (01 R14, R26, R27, 21 R312): each member finds its core as it stood before the step,
since no other member is placed there. -/

namespace Sys2Proof.Machine

/-! The places that are picked (R26, R27). -/

/-- A way to put members on a cluster puts each on a core of its own that has what it needs. -/
theorem assigns_spec (s : State) (cl : Nat) {r : Room} (n : Nat) : ∀ (used cs : List Nat),
    cs ∈ assigns s cl (List.replicate n r) used →
      cs.length = n ∧ cs.Nodup ∧ ∀ c ∈ cs, c ∉ used ∧ c / 4 = cl ∧ coreFits s c r = true := by
  induction n with
  | zero =>
    intro used cs h
    rw [List.replicate_zero, assigns, List.mem_singleton] at h
    subst h
    exact ⟨rfl, List.nodup_nil, fun c hc => absurd hc List.not_mem_nil⟩
  | succ n ih =>
    intro used cs h
    rw [List.replicate_succ, assigns, List.mem_flatMap] at h
    obtain ⟨c, hc, h⟩ := h
    obtain ⟨ds, hds, rfl⟩ := List.mem_map.1 h
    obtain ⟨hc, free⟩ := List.mem_filter.1 hc
    obtain ⟨i, hi, rfl⟩ := List.mem_map.1 hc
    rw [List.mem_range] at hi
    simp only [Bool.and_eq_true, Bool.not_eq_true', List.contains_eq_mem, decide_eq_false_iff_not] at free
    obtain ⟨unused, fits⟩ := free
    obtain ⟨len, nodup, each⟩ := ih _ _ hds
    refine ⟨by rw [List.length_cons, len], List.nodup_cons.2 ⟨fun m => (each _ m).1 (by simp), nodup⟩, fun d hd => ?_⟩
    rcases List.mem_cons.1 hd with rfl | hd
    · exact ⟨unused, by omega, fits⟩
    · obtain ⟨h1, h2, h3⟩ := each d hd
      exact ⟨fun m => h1 (List.mem_cons_of_mem _ m), h2, h3⟩

theorem pickPlace_spec {s : State} {n pick : Nat} {r : Room} {cs : List Nat}
    (h : pickPlace s (List.replicate n r) pick = some cs) :
    cs.length = n ∧ cs.Nodup ∧ (∃ cl, ∀ c ∈ cs, c / 4 = cl) ∧ ∀ c ∈ cs, coreFits s c r = true := by
  obtain ⟨cl, -, h⟩ := List.mem_flatMap.1 (List.mem_of_getElem? h)
  obtain ⟨len, nodup, each⟩ := assigns_spec s cl n [] cs h
  exact ⟨len, nodup, ⟨cl, fun c hc => (each c hc).2.1⟩, fun c hc => (each c hc).2.2⟩

theorem coreFits_gangRoom {s : State} {c : Nat} {h : BitVec 1024}
    (e : coreFits s c ⟨none, hWarps h, 0, 0, hLmSize h, true, hMx h, []⟩ = true) :
    coreOn s c = true ∧ hWarps h ≤ (freeSlots64 s c).length := by
  simp only [coreFits, Bool.and_eq_true, decide_eq_true_eq] at e
  obtain ⟨⟨⟨⟨⟨⟨⟨⟨on, -⟩, -⟩, slots⟩, -⟩, -⟩, -⟩, -⟩, -⟩ := e
  exact ⟨on, slots⟩

/-! The warps of a member (R14, R19). -/

/-- The warps of a workgroup, formed in some slots of its core. -/
def formAt (h : BitVec 1024) (wg c : Nat) (s : State) (es : List (Nat × Nat)) : State :=
  es.foldl (fun s e =>
    let (age, s) := freshId s
    setWarp s (64 * c + e.2) (freshWarp wg .launch e.1 (roleOf h e.1) age (launchThreads h wg e.1))) s

theorem formAt_spec (h : BitVec 1024) (wg c : Nat) (es : List (Nat × Nat)) : ∀ s : State, (es.map Prod.snd).Nodup →
    (∀ e ∈ es, ∃ age, tget (formAt h wg c s es).warps (64 * c + e.2) =
      some (freshWarp wg .launch e.1 (roleOf h e.1) age (launchThreads h wg e.1))) ∧
    (∀ k, (∀ e ∈ es, 64 * c + e.2 ≠ k) → tget (formAt h wg c s es).warps k = tget s.warps k) ∧
    formAt h wg c s es = { s with warps := (formAt h wg c s es).warps, fresh := (formAt h wg c s es).fresh } := by
  induction es with
  | nil => exact fun s _ => ⟨fun e he => absurd he List.not_mem_nil, fun _ _ => rfl, rfl⟩
  | cons e r ih =>
    intro s nodup
    obtain ⟨fresh, nodup⟩ := List.nodup_cons.1 nodup
    generalize hs1 : setWarp (freshId s).2 (64 * c + e.2)
      (freshWarp wg .launch e.1 (roleOf h e.1) (freshId s).1 (launchThreads h wg e.1)) = s1
    have step : formAt h wg c s (e :: r) = formAt h wg c s1 r := by rw [← hs1]; rfl
    obtain ⟨each, others, rest⟩ := ih s1 nodup
    rw [step]
    refine ⟨fun d hd => ?_, fun k hk => ?_, ?_⟩
    · rcases List.mem_cons.1 hd with rfl | hd
      · refine ⟨(freshId s).1, ?_⟩
        rw [others _ (fun f hf e => fresh (List.mem_map.2 ⟨f, hf, by omega⟩)), ← hs1]
        exact tget_tput_self ..
      · exact each d hd
    · rw [others k (fun f hf => hk f (List.mem_cons_of_mem _ hf)), ← hs1]
      exact tget_tput_ne _ _ (hk e (by simp))
    · rw [rest, ← hs1]
      rfl

theorem formWarps_eq (s : State) (h : BitVec 1024) (wg c : Nat) :
    formWarps s h wg c = formAt h wg c s ((List.range (hWarps h)).zip (freeSlots64 s c)) := rfl

theorem freeSlots64_nodup (s : State) (c : Nat) : (freeSlots64 s c).Nodup := List.nodup_range.filter _

theorem mem_freeSlots64 {s : State} {c i : Nat} (h : i ∈ freeSlots64 s c) : i < 64 :=
  List.mem_range.1 (List.mem_filter.1 h).1

theorem map_snd_zip_sublist {α β : Type} (xs : List α) : ∀ ys : List β, ((xs.zip ys).map Prod.snd).Sublist ys := by
  induction xs with
  | nil => exact fun ys => List.nil_sublist ys
  | cons x r ih =>
    intro ys
    cases ys with
    | nil => exact .slnil
    | cons y ys => exact (ih ys).cons_cons y

theorem formWarps_spec (s : State) (h : BitVec 1024) (wg c : Nat) :
    (∀ i slot, i < hWarps h → (freeSlots64 s c)[i]? = some slot → ∃ age, tget (formWarps s h wg c).warps (64 * c + slot) =
      some (freshWarp wg .launch i (roleOf h i) age (launchThreads h wg i))) ∧
    (∀ k, k / 64 ≠ c → tget (formWarps s h wg c).warps k = tget s.warps k) ∧
    formWarps s h wg c = { s with warps := (formWarps s h wg c).warps, fresh := (formWarps s h wg c).fresh } := by
  have slots := map_snd_zip_sublist (List.range (hWarps h)) (freeSlots64 s c)
  obtain ⟨each, others, rest⟩ := formAt_spec h wg c ((List.range (hWarps h)).zip (freeSlots64 s c)) s
    (slots.nodup (freeSlots64_nodup s c))
  rw [formWarps_eq]
  refine ⟨fun i slot hi hslot => each (i, slot) ?_, fun k hk => others k (fun e he => ?_), rest⟩
  · refine List.mem_of_getElem? (i := i) ?_
    rw [List.getElem?_zip_eq_some]
    exact ⟨by rw [List.getElem?_range hi], hslot⟩
  · have := mem_freeSlots64 (slots.subset (List.mem_map_of_mem he))
    omega

/-! One member (R26, R47). -/

/-- The workgroup that a member becomes. -/
def memberNo (n : Nat) (g : Grid) (i : Nat) : Nat := n * 2 ^ 64 + wgNumberOf g.hdr g.nextGang i

/-- What a state shows of a member placed on a core, where the scheduler has chosen its LM and slots from what was free in
another state. -/
structure MemberPlaced (s t : State) (n : Nat) (g : Grid) (i c : Nat) : Prop where
  wg : tget t.wgs (memberNo n g i) = some ⟨wgNumberOf g.hdr g.nextGang i, g.nextGang, i, some c, true,
    (lmFit s c (hLmSize g.hdr)).getD 0, [], [], [], 0, [], [], [], 0, 0, hN g.hdr, false⟩
  warps : ∀ j slot, j < hWarps g.hdr → (freeSlots64 s c)[j]? = some slot → ∃ age, tget t.warps (64 * c + slot) =
    some (freshWarp (memberNo n g i) .launch j (roleOf g.hdr j) age (launchThreads g.hdr (memberNo n g i) j))
  seq : hMx g.hdr = true → ∃ age, (coreRec t c).seq = some (freshSeq g.hdr (memberNo n g i) age)

/-- From s to t only workgroups, warps and cores have changed, and none of them on a core or under a number that is not
named. -/
structure PlacedOnly (s t : State) (cores wgs : List Nat) : Prop where
  wgs : ∀ j, j ∉ wgs → tget t.wgs j = tget s.wgs j
  on : ∀ c, c ∉ cores → wgsOn t c = wgsOn s c
  warps : ∀ k, k / 64 ∉ cores → tget t.warps k = tget s.warps k
  cores : ∀ c, c ∉ cores → coreRec t c = coreRec s c
  rest : t = { s with wgs := t.wgs, warps := t.warps, cores := t.cores, fresh := t.fresh }

namespace PlacedOnly

variable {s t u : State} {cs ws ds vs : List Nat}

theorem refl (s : State) : PlacedOnly s s cs ws := ⟨fun _ _ => rfl, fun _ _ => rfl, fun _ _ => rfl, fun _ _ => rfl, rfl⟩

theorem trans (h : PlacedOnly s t cs ws) (k : PlacedOnly t u ds vs) (hc : cs ⊆ es) (hd : ds ⊆ es) (hw : ws ⊆ xs)
    (hv : vs ⊆ xs) : PlacedOnly s u es xs where
  wgs j m := (k.wgs j (fun e => m (hv e))).trans (h.wgs j (fun e => m (hw e)))
  on c m := (k.on c (fun e => m (hd e))).trans (h.on c (fun e => m (hc e)))
  warps j m := (k.warps j (fun e => m (hd e))).trans (h.warps j (fun e => m (hc e)))
  cores c m := (k.cores c (fun e => m (hd e))).trans (h.cores c (fun e => m (hc e)))
  rest := by rw [k.rest, h.rest]

/-- LM is free on a core where no member was placed as it was before. -/
theorem lmFit (h : PlacedOnly s t cs ws) {c : Nat} (hc : c ∉ cs) (n : Nat) : lmFit t c n = Machine.lmFit s c n := by
  have hdr (wg : Nat) : hdrOf t wg = hdrOf s wg := by rw [h.rest]; rfl
  simp only [Machine.lmFit, lmRegions, h.on c hc, hdr]

theorem freeSlots64 (h : PlacedOnly s t cs ws) {c : Nat} (hc : c ∉ cs) : freeSlots64 t c = Machine.freeSlots64 s c := by
  refine List.filter_congr (fun i hi => ?_)
  rw [List.mem_range] at hi
  have e : (64 * c + i) / 64 = c := by omega
  rw [h.warps (64 * c + i) (by rw [e]; exact hc)]

end PlacedOnly

/-- A value that a filter drops may come in under a new key. -/
theorem filter_tput_of_none {α : Type} {t : Tbl α} {k : Nat} {v : α} {p : Nat × α → Bool} (h : tget t k = none)
    (hp : p (k, v) = false) : (tput t k v).filter p = t.filter p := by
  induction t with
  | nil => simp [tput, hp]
  | cons e r ih =>
    obtain ⟨j, w⟩ := e
    have ne : j ≠ k := fun e => by simp [tget, e] at h
    rw [tget, if_neg ne] at h
    rw [tput]
    split
    · rw [List.filter_cons, hp]
      rfl
    · rw [List.filter_cons, List.filter_cons, ih h]

theorem placeMember_spec {s : State} {n : Nat} {g : Grid} {i c : Nat} (new : tget s.wgs (memberNo n g i) = none) :
    MemberPlaced s (placeMember n g true s (i, c)) n g i c ∧
      PlacedOnly s (placeMember n g true s (i, c)) [c] [memberNo n g i] := by
  let w : Workgroup := ⟨wgNumberOf g.hdr g.nextGang i, g.nextGang, i, some c, true, (lmFit s c (hLmSize g.hdr)).getD 0,
    [], [], [], 0, [], [], [], 0, 0, hN g.hdr, false⟩
  let s1 := setWg s (memberNo n g i) w
  let s2 := formWarps s1 g.hdr (memberNo n g i) c
  obtain ⟨each, others, rest⟩ := formWarps_spec s1 g.hdr (memberNo n g i) c
  have only2 : PlacedOnly s s2 [c] [memberNo n g i] := by
    have wgs : s2.wgs = tput s.wgs (memberNo n g i) w := congrArg State.wgs rest
    have same := congrArg State.cores rest
    have cores : s2.cores = s.cores := same
    refine ⟨fun j m => ?_, fun d m => ?_, fun k m => ?_, fun d m => ?_, ?_⟩
    · rw [wgs]
      exact tget_tput_ne _ _ (fun e => m (by simp [e]))
    · rw [wgsOn, wgsOn, wgs]
      refine filter_tput_of_none new ?_
      have ne : c ≠ d := fun e => m (by simp [e])
      simpa [w] using ne
    · exact others k (by simpa using m)
    · rw [coreRec, coreRec, cores]
    · refine Eq.trans rest ?_
      rw [wgs, cores]
      rfl
  have wg2 : tget s2.wgs (memberNo n g i) = some w := by
    have wgs : s2.wgs = tput s.wgs (memberNo n g i) w := congrArg State.wgs rest
    rw [wgs]
    exact tget_tput_self ..
  have all : placeMember n g true s (i, c) = if hMx g.hdr then
      setCore (freshId s2).2 c { coreRec (freshId s2).2 c with seq := some (freshSeq g.hdr (memberNo n g i) (freshId s2).1) }
    else s2 := rfl
  rw [all]
  split
  · refine ⟨⟨wg2, each, fun _ => ⟨_, congrArg Core.seq (coreRec_setCore_self ..)⟩⟩, ⟨only2.wgs, only2.on, only2.warps,
      fun d m => ?_, ?_⟩⟩
    · rw [coreRec_setCore, if_neg (fun e => m (by simp [e]))]
      exact only2.cores d m
    · rw [only2.rest]
      rfl
  · next mx => exact ⟨⟨wg2, each, fun e => absurd e mx⟩, only2⟩

/-! A gang (R27). -/

/-- Members with numbers and cores of their own are each placed as if they were alone. -/
theorem placeMembers_spec {n : Nat} {g : Grid} (ms : List (Nat × Nat)) : ∀ s : State, (ms.map Prod.snd).Nodup →
    (ms.map (fun m => memberNo n g m.1)).Nodup → (∀ m ∈ ms, tget s.wgs (memberNo n g m.1) = none) →
    (∀ m ∈ ms, MemberPlaced s (ms.foldl (placeMember n g true) s) n g m.1 m.2) ∧
      PlacedOnly s (ms.foldl (placeMember n g true) s) (ms.map Prod.snd) (ms.map (fun m => memberNo n g m.1)) := by
  induction ms with
  | nil => exact fun s _ _ _ => ⟨fun m hm => absurd hm List.not_mem_nil, .refl s⟩
  | cons m r ih =>
    intro s cores wgs new
    obtain ⟨core, cores⟩ := List.nodup_cons.1 cores
    obtain ⟨wg, wgs⟩ := List.nodup_cons.1 wgs
    obtain ⟨first, only⟩ := placeMember_spec (c := m.2) (new m (by simp))
    obtain ⟨each, later⟩ := ih (placeMember n g true s m) cores wgs (fun x hx => by
      rw [only.wgs _ (fun e => wg (List.mem_map.2 ⟨x, hx, by simpa using e⟩))]
      exact new x (List.mem_cons_of_mem _ hx))
    rw [List.foldl_cons]
    generalize r.foldl (placeMember n g true) (placeMember n g true s m) = t at each later ⊢
    refine ⟨fun x hx => ?_, only.trans later (by simp) (by simp) (by simp) (by simp)⟩
    rcases List.mem_cons.1 hx with rfl | hx
    · refine ⟨(later.wgs _ wg).trans first.wg, fun j slot hj hslot => ?_, fun mx => ?_⟩
      · obtain ⟨age, e⟩ := first.warps j slot hj hslot
        have lt := mem_freeSlots64 (List.mem_of_getElem? hslot)
        exact ⟨age, (later.warps _ (by rwa [show (64 * x.2 + slot) / 64 = x.2 by omega])).trans e⟩
      · obtain ⟨age, e⟩ := first.seq mx
        exact ⟨age, by rw [later.cores _ core, e]⟩
    · have there := each x hx
      have apart : x.2 ∉ [m.2] := fun e => core (List.mem_map.2 ⟨x, hx, by simpa using e⟩)
      refine ⟨?_, fun j slot hj hslot => ?_, there.seq⟩
      · rw [there.wg, only.lmFit apart]
      · exact there.warps j slot hj (by rw [only.freeSlots64 apart, hslot])

/-! The placement step (R29, R312). -/

theorem placeAll_none {s : State} {pick : Nat} (h : placeNext s pick = none) (fuel : Nat) : placeAll pick fuel s = s := by
  cases fuel with
  | zero => rfl
  | succ n => rw [placeAll, h]

/-- Where nothing is saved of the contexts, a grid waits for the placement of its next gang or for nothing. -/
theorem nextOf_fresh {s : State} {n : Nat} {g : Grid} (hs : (ctxRec s g.ctx).saved = []) :
    nextOf s (n, g) = if placesNow s g.ctx = true ∧ g.stage = 5 ∧ overtakes s n g = false then some .place else none := by
  have none_ : ((savedGangs s g.ctx).filter (fun x => x.1 == n)).map (·.2) = [] := by
    rw [savedGangs, hs]
    rfl
  unfold nextOf
  cases placesNow s g.ctx
  · simp
  · simp [none_]

/-- The one grid of a package whose next gang is to be placed. -/
theorem placeNext_one {s : State} {n pick : Nat} {g : Grid} {cores : List Nat} (hg : s.grids = [(n, g)])
    (h5 : g.stage = 5) (hp : placesNow s g.ctx = true) (hs : (ctxRec s g.ctx).saved = [])
    (hc : pickPlace s (gangRoom g.hdr) pick = some cores) : placeNext s pick = some (placeGang s n g cores) := by
  have first : overtakes s n g = false := by simp [overtakes, hg]
  have next : nextOf s (n, g) = some .place := by rw [nextOf_fresh hs, if_pos ⟨hp, h5, first⟩]
  have waits : waitingGrids s = [(n, g)] := by simp [waitingGrids, hg, next, insertPrio]
  have allowed : allowedGrids s = [(n, g)] := by
    rw [allowedGrids, waits]
    by_cases late : overdueGang s g = true
    · simp [late]
    · simp [late]
  simp only [placeNext, allowed, List.findSome?_cons, placeOne, next, hc, Option.map_some]

theorem placeNext_stands {s : State} {n : Nat} {g : Grid} (hg : s.grids = [(n, g)]) (h5 : g.stage ≠ 5)
    (hs : (ctxRec s g.ctx).saved = []) (pick : Nat) : placeNext s pick = none := by
  have next : nextOf s (n, g) = none := by rw [nextOf_fresh hs, if_neg (fun e => h5 e.2.1)]
  have waits : waitingGrids s = [] := by simp [waitingGrids, hg, next]
  rw [placeNext, allowedGrids, waits]
  rfl

/-- The last gang of a grid on one package that starts no splicer context stands on its cores (R31). -/
theorem placeGang_last {s : State} {n : Nat} {g : Grid} (hm : hMulti g.hdr = false) (hc : g.claunch = none)
    (hl : g.nextGang + 1 = g.lastGang) (cores : List Nat) :
    placeGang s n g cores =
      let s1 := ((List.range cores.length).zip cores).foldl (placeMember n g true) s
      setGrid s1 n { g with
        nextGang := g.lastGang, waitSince := cycleOf s1 0, limitHit := false, stage := 7, anyBegun := true } := by
  have begun : (!hMulti g.hdr || g.gateOpen) = true := by rw [hm]; rfl
  have starts (u : State) : claunchStart u g.ctx g.claunch = u := by rw [hc]; rfl
  unfold placeGang
  simp only [begun, hl, if_true, Bool.or_true, starts, ite_self]
  generalize ((List.range cores.length).zip cores).foldl (placeMember n g true) s = s1
  unfold gateAck
  rw [setGrid_grids, tget_tput_self]
  exact if_pos (.inl hm)

/-- The members of a gang, each with its core. -/
theorem zip_range_cores (cores : List Nat) : ((List.range cores.length).zip cores).map Prod.snd = cores :=
  List.map_snd_zip (by simp)

/-- A gang whose members all fit is placed at once (R27, R312). -/
theorem gangPlacement_places {s : State} {n pick : Nat} {g : Grid} {cores : List Nat} (hg : s.grids = [(n, g)])
    (h5 : g.stage = 5) (hm : hMulti g.hdr = false) (hc : g.claunch = none) (hl : g.nextGang + 1 = g.lastGang)
    (hp : placesNow s g.ctx = true) (hs : (ctxRec s g.ctx).saved = [])
    (hpick : pickPlace s (gangRoom g.hdr) pick = some cores)
    (new : ∀ i < hGangSize g.hdr, tget s.wgs (memberNo n g i) = none)
    (own : ∀ i < hGangSize g.hdr, ∀ j < hGangSize g.hdr, wgNumberOf g.hdr g.nextGang i = wgNumberOf g.hdr g.nextGang j →
      i = j) :
    ∃ t, exec (.gangPlacement pick) s = .next t ∧ tget t.grids n = some { g with
        nextGang := g.lastGang, waitSince := cycleOf s 0, limitHit := false, stage := 7, anyBegun := true } ∧
      ∀ m c, cores[m]? = some c → MemberPlaced s t n g m c := by
  obtain ⟨len, nodup, -, -⟩ := pickPlace_spec hpick
  generalize hms : (List.range cores.length).zip cores = ms
  have member {m : Nat × Nat} (h : m ∈ ms) : m.1 < hGangSize g.hdr := by
    rw [← hms] at h
    have := (List.of_mem_zip h).1
    rwa [List.mem_range, len] at this
  have numbers : (ms.map Prod.fst).Nodup := by
    rw [← hms, List.map_fst_zip (by simp)]
    exact List.nodup_range
  have names : (ms.map (fun m => memberNo n g m.1)).Nodup := by
    have e : ms.map (fun m => memberNo n g m.1) = (ms.map Prod.fst).map (memberNo n g) := by rw [List.map_map]; rfl
    rw [e]
    refine numbers.map_on (fun x hx y hy e => ?_)
    obtain ⟨a, ha, rfl⟩ := List.mem_map.1 hx
    obtain ⟨b, hb, rfl⟩ := List.mem_map.1 hy
    exact own _ (member ha) _ (member hb) (by unfold memberNo at e; omega)
  obtain ⟨each, only⟩ := placeMembers_spec (n := n) (g := g) ms s (by rw [← hms, zip_range_cores]; exact nodup) names
    (fun m hm => new _ (member hm))
  have placed := placeGang_last (s := s) (n := n) hm hc hl cores
  rw [hms] at placed
  generalize ms.foldl (placeMember n g true) s = s1 at each only placed
  have clock : cycleOf s1 0 = cycleOf s 0 := by rw [only.rest]; rfl
  have grids : s1.grids = [(n, g)] := by rw [only.rest, ← hg]
  have saved : (ctxRec s1 g.ctx).saved = [] := by rw [only.rest, ← hs]; rfl
  have later : (placeGang s n g cores).grids = [(n, { g with
      nextGang := g.lastGang, waitSince := cycleOf s1 0, limitHit := false, stage := 7, anyBegun := true })] := by
    rw [placed, setGrid_grids, grids]
    simp [tput]
  have done : placeNext (placeGang s n g cores) pick = none :=
    placeNext_stands later (by simp) (by rw [placed]; exact saved) pick
  refine ⟨placeGang s n g cores, ?_, ?_, fun m c hmc => ?_⟩
  · show Host.Outcome.next (placeAll pick (2048 + 1) s) = _
    rw [placeAll, placeNext_one hg h5 hp hs hpick]
    simp only
    rw [placeAll_none done]
  · rw [placed, setGrid_grids, tget_tput_self, clock]
  · have there : (m, c) ∈ ms := by
      rw [← hms]
      refine List.mem_of_getElem? (i := m) (List.getElem?_zip_eq_some.2 ⟨?_, hmc⟩)
      exact List.getElem?_range (List.getElem?_eq_some_iff.1 hmc).1
    have at1 := each _ there
    rw [placed]
    exact ⟨at1.wg, at1.warps, at1.seq⟩

end Sys2Proof.Machine

/-! PROOF. The end of a grid (01 R26, R43, R46, 11 R178, 21 R312, R324): its deferred adds in the order of their threads, its
completion, a kill. -/

namespace Sys2Proof.Machine

/-! Writes of an agent outside every grid where nobody else's unit stands between. -/

theorem plainStore_append (xs ys : List Byte) : ∀ (s : State) (a : Nat),
    plainStore s a (xs ++ ys) = plainStore (plainStore s a xs) (a + xs.length) ys := by
  induction xs with
  | nil => exact fun s a => rfl
  | cons b r ih =>
    intro s a
    rw [List.cons_append, plainStore, ih, plainStore, List.length_cons]
    congr 1
    omega

namespace Undisturbed

variable {s : State} (h : Undisturbed s)
include h

theorem conflict (own : Option Nat) (line : Nat) : conflict s own line = s := by
  unfold Machine.conflict
  rw [List.filter_eq_nil_iff.2]
  · rfl
  · intro e he
    simp [h.takes e he]

theorem snapBefore (pa n : Nat) : snapBefore s pa n = s := by
  unfold Machine.snapBefore snapHits
  rw [List.flatMap_eq_nil_iff.2]
  · rfl
  · intro e he
    simp [h.snaps e he]

theorem plainStore (a : Nat) (bs : List Byte) : Undisturbed (plainStore s a bs) := by
  rw [plainStore_rest]
  exact ⟨h.takes, h.stash, h.snaps, h.boxes⟩

theorem writeQuiet (va pa : Nat) (bs : List Byte) :
    writeQuiet s outside va pa bs = Machine.plainStore s pa bs := by
  have lines (ls : List Nat) : ls.foldl (fun s l => Machine.conflict s none l) s = s := by
    induction ls with
    | nil => rfl
    | cons l r ih => rw [List.foldl_cons, h.conflict, ih]
  have own : ownStash s outside va = none := rfl
  rw [Machine.writeQuiet, own, flushRange_none s h.stash, h.snapBefore, conflicts]
  dsimp only
  rw [show outside.own = none from rfl, lines]

theorem writePhys (pa : Nat) (bs : List Byte) : writePhys s pa bs = Machine.plainStore s pa bs := by
  have upTo (n : Nat) : (List.range n).foldl (fun st i => Machine.writeQuiet st outside (pa + i) (pa + i) [bs.getD i 0]) s =
      Machine.plainStore s pa ((List.range n).map (fun i => bs.getD i 0)) := by
    induction n with
    | zero => rfl
    | succ n ih =>
      rw [List.range_succ, List.foldl_append, ih, List.foldl_cons, List.foldl_nil, (h.plainStore ..).writeQuiet,
        List.map_append, plainStore_append]
      simp
  have bytes : (List.range bs.length).map (fun i => bs.getD i 0) = bs := by
    refine List.ext_getElem (by simp) (fun i h1 h2 => ?_)
    simp [List.getD_eq_getElem?_getD, h2]
  have rung (n : Nat) : doorbells (Machine.plainStore s pa bs) pa n = [] := by
    rw [doorbells, (h.plainStore pa bs).boxes]
    rfl
  rw [Machine.writePhys, upTo, bytes, rung, ringDoorbells, List.map_nil, List.append_nil]

end Undisturbed

/-! Numbers in memory. -/

theorem leNat_leBytes (n : Nat) : ∀ x : Nat, x < 256 ^ n → leNat (leBytes n x) = x := by
  have shift (n x : Nat) : leBytes (n + 1) x = BitVec.ofNat 8 x :: leBytes n (x / 256) := by
    simp only [leBytes, List.range_succ_eq_map, List.map_cons, List.map_map, Nat.mul_zero, pow_zero, Nat.div_one]
    congr 1
    refine List.map_congr_left (fun i _ => ?_)
    rw [Function.comp_apply, Nat.div_div_eq_div_mul, Nat.mul_succ, Nat.pow_add, Nat.mul_comm]
  induction n with
  | zero => exact fun x hx => by rw [pow_zero] at hx; simp [leBytes, leNat]; omega
  | succ n ih =>
    intro x hx
    rw [shift, leNat, ih _ (by rw [pow_succ] at hx; omega), BitVec.toNat_ofNat]
    omega

/-- A number read where it was stored. -/
theorem memNat_plainStore_self (s : State) (a n : Nat) {x : Nat} (hx : x < 256 ^ n) :
    memNat (plainStore s a (leBytes n x)).mem a n = x := by
  have bytes : memBytes (plainStore s a (leBytes n x)).mem a n = leBytes n x := by
    refine List.ext_getElem (by simp [memBytes, leBytes]) (fun i h1 h2 => ?_)
    have hi : i < n := by simpa [memBytes] using h1
    have read (m : List Host.Cell) (h : i < (memBytes m a n).length) : (memBytes m a n)[i] = memByte m (a + i) := by
      simp [memBytes]
    rw [read, plainStore_mem, memByte_memPuts, if_pos (by simp [leBytes]; omega), Nat.add_sub_cancel_left, List.getD_eq_getElem?_getD, List.getElem?_eq_getElem h2]
    rfl
  rw [memNat, bytes, leNat_leBytes n x hx]

theorem memNat_plainStore_apart (s : State) {a b n : Nat} (bs : List Byte) (h : a + bs.length ≤ b ∨ b + n ≤ a) :
    memNat (plainStore s a bs).mem b n = memNat s.mem b n := by
  rw [memNat, memNat, memBytes, memBytes]
  congr 1
  refine List.map_congr_left (fun i hi => ?_)
  rw [List.mem_range] at hi
  rw [plainStore_mem, memByte_memPuts, if_neg (by omega)]

/-! The order of deferred adds (R178). -/

theorem keyLt_iff (a b : Nat × Nat × Nat × Nat) : keyLt a b = true ↔ a.1 < b.1 ∨ (a.1 = b.1 ∧ (a.2.1 < b.2.1 ∨
    (a.2.1 = b.2.1 ∧ (a.2.2.1 < b.2.2.1 ∨ (a.2.2.1 = b.2.2.1 ∧ a.2.2.2 < b.2.2.2))))) := by
  simp [keyLt]

theorem keyLt_asymm {a b : Nat × Nat × Nat × Nat} (h : keyLt a b = true) : keyLt b a = false := by
  rw [keyLt_iff] at h
  rw [← Bool.not_eq_true, keyLt_iff]
  omega

/-- What is not before is after or the same: the order is linear. -/
theorem eq_of_keyLt_false {a b : Nat × Nat × Nat × Nat} (h : keyLt a b = false) (k : keyLt b a = false) : a = b := by
  rw [← Bool.not_eq_true, keyLt_iff] at h k
  refine Prod.ext ?_ (Prod.ext ?_ (Prod.ext ?_ ?_)) <;> omega

theorem keyLt_of_lt_of_le {a b c : Nat × Nat × Nat × Nat} (h : keyLt a b = true) (k : keyLt c b = false) :
    keyLt a c = true := by
  rw [← Bool.not_eq_true, keyLt_iff] at k
  rw [keyLt_iff] at h ⊢
  omega

/-- Adds in the order of their threads. -/
def InOrder (l : List DAdd) : Prop := l.Pairwise (fun a b => keyLt (addKey b) (addKey a) = false)

/-- The adds of one thread. -/
def addsOf (key : Nat × Nat × Nat × Nat) (l : List DAdd) : List DAdd := l.filter (fun a => addKey a == key)

theorem mem_insertAdd {a x : DAdd} {l : List DAdd} : x ∈ insertAdd a l ↔ x = a ∨ x ∈ l := by
  induction l with
  | nil => simp [insertAdd]
  | cons b r ih =>
    rw [insertAdd]
    split
    · simp
    · simp only [List.mem_cons, ih]
      tauto

theorem inOrder_insertAdd (a : DAdd) {l : List DAdd} (h : InOrder l) : InOrder (insertAdd a l) := by
  induction l with
  | nil => exact List.pairwise_singleton _ _
  | cons b r ih =>
    obtain ⟨first, rest⟩ := List.pairwise_cons.1 h
    rw [insertAdd]
    split
    · next lt =>
      refine List.pairwise_cons.2 ⟨fun c hc => ?_, h⟩
      rcases List.mem_cons.1 hc with rfl | hc
      · exact keyLt_asymm lt
      · exact keyLt_asymm (keyLt_of_lt_of_le lt (first c hc))
    · next ge =>
      refine List.pairwise_cons.2 ⟨fun c hc => ?_, ih rest⟩
      rcases mem_insertAdd.1 hc with rfl | hc
      · exact Bool.eq_false_iff.2 ge
      · exact first c hc

/-- An add comes in behind those of its thread. -/
theorem addsOf_insertAdd (key : Nat × Nat × Nat × Nat) (a : DAdd) {l : List DAdd} (h : InOrder l) :
    addsOf key (insertAdd a l) = addsOf key l ++ addsOf key [a] := by
  induction l with
  | nil => rfl
  | cons b r ih =>
    obtain ⟨first, rest⟩ := List.pairwise_cons.1 h
    rw [insertAdd]
    split
    · next lt =>
      by_cases own : addKey a = key
      · have none_ : addsOf key (b :: r) = [] := by
          rw [addsOf, List.filter_eq_nil_iff]
          intro c hc
          have lt2 : keyLt (addKey a) (addKey c) = true := by
            rcases List.mem_cons.1 hc with rfl | hc
            · exact lt
            · exact keyLt_of_lt_of_le lt (first c hc)
          intro e
          rw [beq_iff_eq, ← own] at e
          rw [e] at lt2
          exact Bool.false_ne_true ((keyLt_asymm lt2).symm.trans lt2)
        have split_ : addsOf key (a :: b :: r) = addsOf key [a] ++ addsOf key (b :: r) := List.filter_append (l₁ := [a]) ..
        rw [split_, none_, List.append_nil, List.nil_append]
      · have drop : addsOf key [a] = [] := by simp [addsOf, own]
        have skip : addsOf key (a :: b :: r) = addsOf key (b :: r) := by simp [addsOf, own]
        rw [drop, skip, List.append_nil]
    · have head (xs : List DAdd) : addsOf key (b :: xs) = addsOf key [b] ++ addsOf key xs := List.filter_append (l₁ := [b]) ..
      rw [head, head r, ih rest, List.append_assoc]

/-- The adds of a grid as they are applied. -/
def sortAdds (l : List DAdd) : List DAdd := l.foldl (fun l a => insertAdd a l) []

theorem sortAdds_spec (l : List DAdd) : InOrder (sortAdds l) ∧ ∀ key, addsOf key (sortAdds l) = addsOf key l := by
  have onto (l acc : List DAdd) (h : InOrder acc) : InOrder (l.foldl (fun l a => insertAdd a l) acc) ∧
      ∀ key, addsOf key (l.foldl (fun l a => insertAdd a l) acc) = addsOf key acc ++ addsOf key l := by
    induction l generalizing acc with
    | nil => exact ⟨h, fun key => (List.append_nil _).symm⟩
    | cons a r ih =>
      obtain ⟨order, same⟩ := ih (insertAdd a acc) (inOrder_insertAdd a h)
      refine ⟨order, fun key => ?_⟩
      have head : addsOf key (a :: r) = addsOf key [a] ++ addsOf key r := List.filter_append (l₁ := [a]) ..
      rw [List.foldl_cons, same, addsOf_insertAdd key a h, head, List.append_assoc]
  exact onto l [] .nil

/-- Adds in order are known by those of each thread. -/
theorem eq_of_inOrder {xs ys : List DAdd} (hx : InOrder xs) (hy : InOrder ys) (h : ∀ key, addsOf key xs = addsOf key ys) :
    xs = ys := by
  have mem_of {a : DAdd} {xs ys : List DAdd} (h : ∀ key, addsOf key xs = addsOf key ys) (ha : a ∈ xs) : a ∈ ys := by
    have : a ∈ addsOf (addKey a) ys := h (addKey a) ▸ List.mem_filter.2 ⟨ha, by simp⟩
    exact (List.mem_filter.1 this).1
  induction xs generalizing ys with
  | nil =>
    refine (List.eq_nil_iff_forall_not_mem.2 (fun a ha => ?_)).symm
    exact List.not_mem_nil (mem_of (fun key => (h key).symm) ha)
  | cons x r ih =>
    cases ys with
    | nil => exact absurd (mem_of h (a := x) (by simp)) List.not_mem_nil
    | cons y r1 =>
      obtain ⟨firstX, restX⟩ := List.pairwise_cons.1 hx
      obtain ⟨firstY, restY⟩ := List.pairwise_cons.1 hy
      have atLeast {z a : DAdd} {l : List DAdd} (first : ∀ b ∈ l, keyLt (addKey b) (addKey z) = false) (ha : a ∈ z :: l) :
          keyLt (addKey a) (addKey z) = false := by
        rcases List.mem_cons.1 ha with rfl | ha
        · rw [← Bool.not_eq_true]
          intro e
          exact Bool.false_ne_true ((keyLt_asymm e).symm.trans e)
        · exact first a ha
      have key : addKey x = addKey y := eq_of_keyLt_false
        (atLeast firstY (mem_of h (by simp))) (atLeast firstX (mem_of (fun key => (h key).symm) (by simp)))
      have heads := h (addKey x)
      simp only [addsOf, List.filter_cons, key, beq_self_eq_true, if_true, List.cons.injEq] at heads
      obtain ⟨rfl, tails⟩ := heads
      congr 1
      refine ih restX restY (fun k => ?_)
      by_cases own : addKey x = k
      · rw [← own]
        exact tails
      · have := h k
        simpa [addsOf, List.filter_cons, own] using this

/-! Deferred adds (R178). -/

/-- The word that a deferred add leaves where it finds another. -/
def addedWord (m : Nat) (a : DAdd) : Nat := (addWord a.fmt (BitVec.ofNat 32 m) a.val).toNat

theorem applyAdd_undisturbed {s : State} (h : Undisturbed s) {a : DAdd} (ha : refusedNow s a.pa 4 = false) :
    applyAdd s a = plainStore s a.pa (leBytes 4 (addedWord (memNat s.mem a.pa 4) a)) := by
  simp only [applyAdd, ha, Bool.false_eq_true, if_false, readPhys, flushRange_none s h.stash, h.writePhys]
  rfl

/-- What the adds of a grid leave of a word that each of them hits or misses, and of the rest of the state. -/
theorem applyAdds_undisturbed (adds : List DAdd) : ∀ s : State, Undisturbed s →
    (∀ a ∈ adds, refusedNow s a.pa 4 = false) →
    (∀ pa, (∀ a ∈ adds, a.pa = pa ∨ a.pa + 4 ≤ pa ∨ pa + 4 ≤ a.pa) →
      memNat (adds.foldl applyAdd s).mem pa 4 = (adds.filter (fun a => a.pa == pa)).foldl addedWord (memNat s.mem pa 4)) ∧
    adds.foldl applyAdd s = { s with
      mem := (adds.foldl applyAdd s).mem, grids := (adds.foldl applyAdd s).grids, poison := (adds.foldl applyAdd s).poison } := by
  induction adds with
  | nil => exact fun s _ _ => ⟨fun pa _ => rfl, rfl⟩
  | cons a r ih =>
    intro s h free
    have step := applyAdd_undisturbed h (free a (by simp))
    have later : ∀ b ∈ r, refusedNow (applyAdd s a) b.pa 4 = false := by
      rw [step, plainStore_rest]
      exact fun b hb => free b (List.mem_cons_of_mem _ hb)
    obtain ⟨words, rest⟩ := ih (applyAdd s a) (by rw [step]; exact h.plainStore ..) later
    rw [List.foldl_cons]
    refine ⟨fun pa apart => ?_, ?_⟩
    · rw [words pa (fun b hb => apart b (List.mem_cons_of_mem _ hb)), step, List.filter_cons]
      by_cases hit : a.pa = pa
      · have lt : addedWord (memNat s.mem a.pa 4) a < 256 ^ 4 := BitVec.isLt _
        rw [if_pos (beq_iff_eq.2 hit), List.foldl_cons, ← hit, memNat_plainStore_self _ _ _ lt]
      · rw [if_neg (by simpa using hit), memNat_plainStore_apart]
        have := apart a (by simp)
        simp only [leBytes, List.length_map, List.length_range]
        omega
    · rw [rest, step, plainStore_rest]

theorem beside_applyAdd (s : State) (a : DAdd) : Beside s (applyAdd s a) := by
  unfold applyAdd
  split
  · exact .refl s
  · exact (beside_flushRange ..).trans (beside_writePhys ..)

/-! The record of a grid that the command processor ends (R44, R333). -/

/-- A cause of the command processor stands before every access that is late in the same clock. -/
theorem firstBlame_cpBlame (cause : Nat) (bs : List Blame) : firstBlame (cpBlame cause) bs = cpBlame cause := by
  unfold firstBlame
  induction bs with
  | nil => rfl
  | cons x r ih => rw [List.foldl_cons, if_neg (by exact Nat.not_lt_zero _), ih]

theorem endGrid_cpBlame_record {s : State} {n : Nat} {g : Grid} (h : tget s.grids n = some g) (hd : g.desc.getLsbD 3 = false)
    (cause : Nat) : field (queueRec (endGrid s n (cpBlame cause)) g.queue).record 6 0 = cause % 128 ∧
      field (queueRec (endGrid s n (cpBlame cause)) g.queue).record 447 384 = n % 2 ^ 64 := by
  rw [endGrid_eq_endOne, firstBlame_cpBlame, (endOne_gone h _ _).2, endRecord, gridConf_eq_none hd]
  obtain ⟨c, -, -, launch, -⟩ := faultRecord_fields (cycleOf s (cpBlame cause).die) n
    (g.supp + (List.filter (fun x => x != cpBlame cause) (lateOf s n)).length) (if hMulti g.hdr then g.rank else 0) (cpBlame cause)
  exact ⟨c, launch⟩

/-- Settles O47: placement member by member, adds in order, completion and kill. -/
theorem gridsFromPlacementToEnd : Obligations.GridsFromPlacementToEnd := by
  unfold Obligations.GridsFromPlacementToEnd
  intro s n g hg
  refine ⟨fun pick h => ?idle, fun pick cores hgs h5 hm hc hl hp hs hpick new own => ?place, ?limit, rfl, ?ended, fun h => ?early,
    fun h hr => ?refused, fun adds h hu free perm order same => ?adds, fun h ha hl => ?waits, fun h ha hl hc => ?completes,
    fun h => ?survives, fun h => ?kill⟩
  case idle => exact congrArg Host.Outcome.next (placeAll_none h _)
  case place =>
    obtain ⟨len, nodup, cluster, fits⟩ := pickPlace_spec hpick
    obtain ⟨t, e, grid, each⟩ := gangPlacement_places hgs h5 hm hc hl hp hs hpick new own
    refine ⟨t, e, grid, len, nodup, cluster, fun m c hmc => ?_⟩
    obtain ⟨on, slots⟩ := coreFits_gangRoom (fits c (List.mem_of_getElem? hmc))
    have there := each m c hmc
    refine ⟨on, there.wg, fun i hi => ?_, there.seq⟩
    have slot := List.getElem?_eq_getElem (Nat.lt_of_lt_of_le hi slots)
    obtain ⟨age, e⟩ := there.warps i _ hi slot
    exact ⟨_, age, slot, e⟩
  case limit =>
    show execGangWaitLimit n s = _
    simp only [execGangWaitLimit, hg]
    split <;> rfl
  case ended => simp [gridEnded]
  case early =>
    constructor
    · show execDeferredAddApply n s = _
      simp only [execDeferredAddApply, hg, h, Bool.false_eq_true, if_false]
    · show execGridCompletion n s = _
      simp only [execGridCompletion, hg, h, Bool.false_and, Bool.false_eq_true, if_false]
  case refused =>
    have some_ : g.adds.any (fun a => refusedNow s a.pa 4) = true := by
      obtain ⟨a, ha, e⟩ := hr
      exact List.any_eq_true.2 ⟨a, ha, e⟩
    have b : Beside _ _ := .foldl applyAdd beside_applyAdd (sortAdds g.adds) (setGrid s n { g with adds := [] })
    have still := b.grids n
    rw [setGrid_grids, tget_tput_self, Option.map_some, Option.map_eq_some_iff] at still
    obtain ⟨x, hx, -⟩ := still
    refine ⟨_, _, ?_, rfl, (endGrid_gone hx _).gone⟩
    show execDeferredAddApply n s = _
    simp only [execDeferredAddApply, hg, h, if_true, some_]
    rfl
  case adds =>
    have sorted : sortAdds g.adds = adds := by
      obtain ⟨order1, same1⟩ := sortAdds_spec g.adds
      exact eq_of_inOrder order1 order (fun key => (same1 key).trans (same key).symm)
    have none_ : g.adds.any (fun a => refusedNow s a.pa 4) = false := by
      rw [List.any_eq_false]
      exact fun a ha => ne_true_of_eq_false (free a ha)
    have b : Beside _ _ := .foldl applyAdd beside_applyAdd adds (setGrid s n { g with adds := [] })
    obtain ⟨words, rest⟩ := applyAdds_undisturbed adds (setGrid s n { g with adds := [] })
      ⟨hu.takes, hu.stash, hu.snaps, hu.boxes⟩ (fun a ha => free a (perm.mem_iff.1 ha))
    refine ⟨adds.foldl applyAdd (setGrid s n { g with adds := [] }), ?_, ?_, words, ?_⟩
    · show execDeferredAddApply n s = _
      simp only [execDeferredAddApply, hg, h, if_true, none_, Bool.false_eq_true, if_false]
      rw [← sorted]
      rfl
    · rw [b.grids, setGrid_grids, tget_tput_self]
      rfl
    · rw [rest]
      rfl
  case waits =>
    have on : (g.adds.isEmpty && g.loads.isEmpty &&
        !s.cores.any (fun e => e.2.copies.any (fun x => serialOf x.wg == n))) = false := by
      rcases hl with hl | ⟨e, he, x, hx, hn⟩
      · simp [hl]
      · have found : s.cores.any (fun e => e.2.copies.any (fun x => serialOf x.wg == n)) = true :=
          List.any_eq_true.2 ⟨e, he, List.any_eq_true.2 ⟨x, hx, beq_iff_eq.2 hn⟩⟩
        simp only [found, Bool.not_true, Bool.and_false]
    show execGridCompletion n s = _
    simp only [execGridCompletion, hg, h, Bool.true_and, on, Bool.false_eq_true, if_false]
  case completes =>
    have off : s.cores.any (fun e => e.2.copies.any (fun x => serialOf x.wg == n)) = false := by
      rw [List.any_eq_false]
      intro e he
      rw [List.any_eq_true]
      rintro ⟨x, hx, hn⟩
      exact hc e he x hx (beq_iff_eq.1 hn)
    show execGridCompletion n s = _
    simp only [execGridCompletion, hg, h, ha, hl, List.isEmpty_nil, off, Bool.and_self, Bool.not_false, if_true]
    rfl
  case survives =>
    show execKill n s = _
    simp only [execKill, hg, h, Bool.false_eq_true, if_false]
  case kill =>
    have gone := endGrid_gone hg (cpBlame 0x75)
    refine ⟨_, ?_, rfl, gone.gone, gone.warps, gone.wgs, fun hd => ?_⟩
    · show execKill n s = _
      simp only [execKill, hg, h, if_true]
    · exact endGrid_cpBlame_record hg hd 0x75

end Sys2Proof.Machine

/-! PROOF. The capture and the debug commands (23 R337, R338, R344, R345, 29 R417): what a record does to the ring, what
each command of the capture leaves, and which warps a debug command reaches. -/

namespace Sys2Proof.Machine

/-! Records (R343, R344). -/

theorem capPasses_open {s : State} (h1 : s.capLaunch.getLsbD 32 = false) (h2 : s.capWgLo.getLsbD 63 = false)
    (serial wg type : Nat) : capPasses s serial wg type = s.capTypes.getLsbD type := by
  simp only [capPasses, h1, h2, Bool.not_false, Bool.true_or, Bool.true_and]

/-- A record whose type is filtered out leaves everything as it is. -/
theorem capRecord_filtered {s : State} {type : Nat} (h : s.capTypes.getLsbD type = false)
    (serial wg thread kind die core : Nat) (payload : List Nat) (conf : Option Nat) :
    capRecord s serial wg thread kind type die core payload conf = s := by
  have passes : capPasses s serial wg type = false := by rw [capPasses, h, Bool.and_false]
  simp only [capRecord, capRecordWith, passes, Bool.not_false, if_true]

/-- While the capture is stopped or frozen a record is dropped and counted. -/
theorem capRecord_dropped {s : State} {serial wg type : Nat} (hp : capPasses s serial wg type = true)
    (hc : s.capState = 2 ∨ s.capState = 3) (thread kind die core : Nat) (payload : List Nat) (conf : Option Nat) :
    capRecord s serial wg thread kind type die core payload conf = { s with capDropped := s.capDropped + 1 } := by
  have off : s.capState ≠ capRunning := by rcases hc with h | h <;> rw [h] <;> decide
  have on : s.capState ≠ capIdle := by rcases hc with h | h <;> rw [h] <;> decide
  simp only [capRecord, capRecordWith, hp, off, on, Bool.not_true, Bool.false_eq_true, if_false]

/-- While it runs the record's bytes enter the ring. -/
theorem capRecord_running {s : State} {serial wg type : Nat} (hp : capPasses s serial wg type = true)
    (hc : s.capState = 1) (thread kind die core : Nat) (payload : List Nat) (conf : Option Nat) :
    capRecord s serial wg thread kind type die core payload conf = capPut s (recordBytes s
      (slate serial wg thread kind type die core ((3 + payload.length + 1) / 2)) type die ((3 + payload.length + 1) / 2)
      payload conf) := by
  have on : s.capState = capRunning := hc
  simp only [capRecord, capRecordWith, hp, on, Bool.not_true, Bool.false_eq_true, if_false, if_true, List.append_nil]

@[simp] theorem length_leBytes (n x : Nat) : (leBytes n x).length = n := by simp [leBytes]

theorem getD_leBytes {n j : Nat} (h : j < n) (x : Nat) : (leBytes n x).getD j 0 = BitVec.ofNat 8 (x / 2 ^ (8 * j)) := by
  simp [leBytes, List.getD_eq_getElem?_getD, h]

/-- The record of an open context: slate, TIME and the payload's doublewords, whose odd number fills the record (R339). -/
theorem recordBytes_open (s : State) (sl type die : Nat) {payload : List Nat} (h : payload.length % 2 = 1) :
    recordBytes s sl type die ((3 + payload.length + 1) / 2) payload none =
      leBytes 16 sl ++ leBytes 8 (cycleOf s die) ++ payload.flatMap (leBytes 8) := by
  have bytes (l : List Nat) : (l.flatMap (leBytes 8)).length = 8 * l.length := by
    induction l with
    | nil => rfl
    | cons x r ih =>
      rw [List.flatMap_cons, List.length_append, ih, length_leBytes, List.length_cons]
      omega
  generalize hraw : leBytes 16 sl ++ leBytes 8 (cycleOf s die) ++ payload.flatMap (leBytes 8) = raw
  have len : raw.length = 16 * ((3 + payload.length + 1) / 2) := by
    rw [← hraw, List.length_append, List.length_append, length_leBytes, length_leBytes, bytes]
    omega
  have all : recordBytes s sl type die ((3 + payload.length + 1) / 2) payload none =
      (raw ++ List.replicate (16 * ((3 + payload.length + 1) / 2) - raw.length) 0).take (16 * ((3 + payload.length + 1) / 2)) := by
    rw [← hraw]
    rfl
  rw [all, ← len, List.take_left]

/-! The ring (R344). -/

/-- The bytes that a write handed to memory puts, each with its address. -/
def postedBytes (e : Nat × List Byte) : List (Nat × Byte) := (List.range e.2.length).map (fun j => (e.1 + j, e.2.getD j 0))

/-- The size of the ring (29 R417). -/
def ringSize (s : State) : Nat := 2 ^ max 16 (min 30 (field s.capCfg 4 0))

theorem le_ringSize (s : State) : 2 ^ 16 ≤ ringSize s := Nat.pow_le_pow_right (by decide) (Nat.le_max_left ..)

/-- In wrap mode bytes that reach the end of the ring at most enter as one write. -/
theorem capPut_whole {s : State} (hm : s.capCfg.getLsbD 8 = false) {bs : List Byte} (h : s.capOff + bs.length ≤ ringSize s) :
    capPut s bs = { s with
      capOff := (s.capOff + bs.length) % ringSize s, posted := s.posted ++ [(s.capBase.toNat + s.capOff, bs)] } := by
  have room : ¬ ringSize s - s.capOff < bs.length := by omega
  have all : bs.take (ringSize s - s.capOff) = bs := List.take_of_length_le (by omega)
  unfold ringSize at room all ⊢
  simp only [capPut, hm, Bool.false_and, Bool.false_eq_true, if_false, room, all, rawStore]

/-- Beyond the end the ring begins anew. -/
theorem capPut_wraps {s : State} (hm : s.capCfg.getLsbD 8 = false) {bs : List Byte} (h : ringSize s < s.capOff + bs.length)
    (ho : s.capOff < ringSize s) :
    capPut s bs = { s with
      capOff := (s.capOff + bs.length) % ringSize s
      posted := s.posted ++ [(s.capBase.toNat + s.capOff, bs.take (ringSize s - s.capOff)),
        (s.capBase.toNat, bs.drop (ringSize s - s.capOff))] } := by
  have room : ringSize s - s.capOff < bs.length := by omega
  unfold ringSize at room ⊢
  simp only [capPut, hm, Bool.false_and, Bool.false_eq_true, if_false, room, if_true, rawStore, List.append_assoc,
    List.singleton_append]

/-- In wrap mode every byte of a record finds its place from the ring's next offset on. -/
theorem capPut_places {s : State} (hm : s.capCfg.getLsbD 8 = false) {bs : List Byte} (hl : bs.length ≤ ringSize s)
    (ho : s.capOff < ringSize s) : ∃ new, capPut s bs = { s with
        capOff := (s.capOff + bs.length) % ringSize s, posted := s.posted ++ new } ∧
      new.flatMap postedBytes = (List.range bs.length).map (fun j =>
        (s.capBase.toNat + (s.capOff + j) % ringSize s, bs.getD j 0)) := by
  by_cases h : s.capOff + bs.length ≤ ringSize s
  · refine ⟨_, capPut_whole hm h, ?_⟩
    rw [List.flatMap_singleton]
    refine List.map_congr_left (fun j hj => ?_)
    have lt : j < bs.length := List.mem_range.1 hj
    rw [Nat.mod_eq_of_lt (by omega), Nat.add_assoc]
  · refine ⟨_, capPut_wraps hm (by omega) ho, ?_⟩
    generalize hr : ringSize s - s.capOff = room at *
    have parts : bs.length = room + (bs.length - room) := by omega
    rw [List.flatMap_cons, List.flatMap_singleton, postedBytes, postedBytes, List.length_take, List.length_drop,
      Nat.min_eq_left (by omega)]
    conv_rhs => rw [parts, List.range_add, List.map_append, List.map_map]
    congr 1
    · refine List.map_congr_left (fun j hj => ?_)
      rw [List.mem_range] at hj
      rw [Nat.mod_eq_of_lt (by omega), Nat.add_assoc, List.getD_eq_getElem?_getD, List.getD_eq_getElem?_getD,
        List.getElem?_take_of_lt hj]
    · refine List.map_congr_left (fun j hj => ?_)
      rw [List.mem_range] at hj
      have place : (s.capOff + (room + j)) % ringSize s = j := by
        rw [show s.capOff + (room + j) = j + ringSize s by omega, Nat.add_mod_right, Nat.mod_eq_of_lt (by omega)]
      rw [Function.comp_apply, place, List.getD_eq_getElem?_getD, List.getD_eq_getElem?_getD, List.getElem?_drop]

/-! The alignment pulse (R345). -/

/-- The record of a die for the pulse of a number, if it is enabled. -/
def pulseRecord (n : Nat) (s : State) (d : Nat) : State :=
  if s.dieEn.getLsbD d then capRecord s 0 0 0 7 5 d 0 [n] none else s

theorem exec_alignmentPulse (s : State) :
    exec .alignmentPulse s = .next ([0, 1, 2, 3].foldl (pulseRecord s.pulse) { s with pulse := s.pulse + 1 }) := rfl

theorem pulse_filtered {s : State} (h : s.capTypes.getLsbD 5 = false) :
    exec .alignmentPulse s = .next { s with pulse := s.pulse + 1 } := by
  have out : ({ s with pulse := s.pulse + 1 } : State).capTypes.getLsbD 5 = false := h
  refine (exec_alignmentPulse s).trans (congrArg Host.Outcome.next (List.foldl_fixed' (fun d => ?_) _))
  rw [pulseRecord, capRecord_filtered out, ite_self]

/-- With one die enabled the pulse writes one record: the slate, TIME and the number of the pulse. -/
theorem pulse_oneDie {s : State} (hd : s.dieEn = 1) :
    exec .alignmentPulse s = .next (capRecord { s with pulse := s.pulse + 1 } 0 0 0 7 5 0 0 [s.pulse] none) := by
  have r : OnlyRecords { s with pulse := s.pulse + 1 } (capRecord { s with pulse := s.pulse + 1 } 0 0 0 7 5 0 0 [s.pulse] none) :=
    onlyRecords_capRecordWith ..
  have first : pulseRecord s.pulse { s with pulse := s.pulse + 1 } 0 =
      capRecord { s with pulse := s.pulse + 1 } 0 0 0 7 5 0 0 [s.pulse] none := by
    rw [pulseRecord, if_pos (by rw [hd]; rfl)]
  rw [exec_alignmentPulse, List.foldl_cons, first]
  generalize capRecord { s with pulse := s.pulse + 1 } 0 0 0 7 5 0 0 [s.pulse] none = t at r ⊢
  have one : t.dieEn = 1 := by
    unfold OnlyRecords at r
    rw [r]
    exact hd
  have others {d : Nat} (h : (1 : BitVec 4).getLsbD d = false) : pulseRecord s.pulse t d = t := by
    rw [pulseRecord, one, h]
    rfl
  rw [List.foldl_cons, others (by decide), List.foldl_cons, others (by decide), List.foldl_cons, others (by decide),
    List.foldl_nil]

/-! Commands of the capture (R344). -/

/-- From s to t the capture has come into a state, and grids and their units are as before. -/
structure CaptureIs (s t : State) (n : Nat) : Prop where
  state : t.capState = n
  cfg : t.capCfg = s.capCfg
  grids : t.grids = s.grids
  warps : t.warps = s.warps
  wgs : t.wgs = s.wgs

theorem CaptureIs.records {s t u : State} {n : Nat} (h : CaptureIs s t n) (r : OnlyRecords t u) : CaptureIs s u n := by
  unfold OnlyRecords at r
  rw [r]
  exact ⟨h.state, h.cfg, h.grids, h.warps, h.wgs⟩

theorem onlyRecords_marker (s : State) (n : Nat) : OnlyRecords s (marker s n) := onlyRecords_capRecordWith ..

theorem captureIs_lossRecord (s : State) : CaptureIs s (lossRecord s) s.capState := by
  unfold lossRecord
  split
  · exact ⟨rfl, rfl, rfl, rfl, rfl⟩
  · have r : OnlyRecords { s with capState := capRunning } (capRecord { s with capState := capRunning } 0 0 0 7 6 0 0
        [s.capDropped] none) := onlyRecords_capRecordWith ..
    generalize capRecord { s with capState := capRunning } 0 0 0 7 6 0 0 [s.capDropped] none = s1 at r ⊢
    unfold OnlyRecords at r
    rw [r]
    exact ⟨rfl, rfl, rfl, rfl, rfl⟩

theorem captureIs_idleMarkers (s : State) : CaptureIs s (idleMarkers s) s.capState := by
  unfold idleMarkers
  split
  · exact ⟨rfl, rfl, rfl, rfl, rfl⟩
  · dsimp only
    generalize hs1 : List.foldl _ s _ = s1
    have r : OnlyRecords s s1 := by
      rw [← hs1]
      exact .foldl _ (fun s c => onlyRecords_capRecordWith ..) _ _
    unfold OnlyRecords at r
    rw [r]
    exact ⟨rfl, rfl, rfl, rfl, rfl⟩

theorem capStart_runs {s : State} (h : s.capState = 0 ∨ s.capState = 2) : CaptureIs s (capStart s) 1 := by
  have l := captureIs_lossRecord s
  have runs : s.capState = capIdle ∨ s.capState = capStopped := h
  rw [capStart, if_pos runs]
  have fresh : CaptureIs s (samplersFresh { lossRecord s with capState := capRunning }) 1 :=
    ⟨rfl, l.cfg, l.grids, l.warps, l.wgs⟩
  exact fresh.records (onlyRecords_marker ..)

theorem capStart_stays {s : State} (h0 : s.capState ≠ 0) (h2 : s.capState ≠ 2) : capStart s = s :=
  if_neg (fun h => h.elim h0 h2)

/-- A marker after the idle counts, and another state. -/
theorem captureIs_marked (s : State) (n m : Nat) : CaptureIs s { marker (idleMarkers s) n with capState := m } m := by
  have i := (captureIs_idleMarkers s).records (onlyRecords_marker (idleMarkers s) n)
  exact ⟨rfl, i.cfg, i.grids, i.warps, i.wgs⟩

theorem capStop_stops {s : State} (h : s.capState = 1) : CaptureIs s (capStop s) 2 := by
  have runs : s.capState = capRunning := h
  rw [capStop, if_pos runs]
  exact captureIs_marked s 2 2

theorem capStop_stays {s : State} (h : s.capState ≠ 1) : capStop s = s := if_neg h

theorem capFreeze_freezes {s : State} (h : s.capState = 1 ∨ s.capState = 2) : CaptureIs s (capFreeze s) 3 := by
  unfold capFreeze
  by_cases h1 : s.capState = capRunning
  · rw [if_pos h1]
    exact captureIs_marked s 3 3
  · have stopped : s.capState = capStopped := h.resolve_left h1
    rw [if_neg h1, if_pos stopped]
    exact ⟨rfl, rfl, rfl, rfl, rfl⟩

theorem capFreeze_stays {s : State} (h1 : s.capState ≠ 1) (h2 : s.capState ≠ 2) : capFreeze s = s :=
  (if_neg h1).trans (if_neg h2)

/-- RESET clears the capture and the histograms. -/
theorem capReset_clears {s : State} (h : s.capState ≠ 0) : CaptureIs s (capReset s) 0 ∧ (capReset s).capOff = 0 ∧
    (capReset s).capDropped = 0 ∧ (capReset s).samplers = [] ∧ ∀ e ∈ (capReset s).ctxs, e.2.hist = [] := by
  have l := captureIs_lossRecord s
  have busy : ¬ s.capState = capIdle := h
  rw [capReset, if_neg busy]
  refine ⟨⟨rfl, l.cfg, l.grids, l.warps, l.wgs⟩, rfl, rfl, rfl, fun e he => ?_⟩
  obtain ⟨x, -, rfl⟩ := List.mem_map.1 he
  rfl

theorem capReset_stays {s : State} (h : s.capState = 0) : capReset s = s := if_pos h

/-! Debug commands (R337, R338, 29 R417). -/

theorem tget_dbgApply (s : State) (ctx k : Nat) (f : Warp → Warp) : tget (dbgApply s ctx f).warps k =
    (tget s.warps k).map (fun w => if dbgNamed s ctx w then f w else w) :=
  tget_map s.warps (fun _ w => if dbgNamed s ctx w then f w else w) k

/-- A mask of lanes holds only those. -/
theorem mem_of_getLsbD_maskOf {ls : List Nat} {j : Nat} (h : (maskOf ls).getLsbD j = true) : j ∈ ls := by
  have bit {l : Nat} (h : (laneBit l).getLsbD j = true) : j = l := by
    rw [laneBit, BitVec.getLsbD_ofNat, Bool.and_eq_true, Nat.testBit_two_pow] at h
    exact (of_decide_eq_true h.2).symm
  have grows (ls : List Nat) (m : Mask) (h : (ls.foldl (fun m l => m ||| laneBit l) m).getLsbD j = true) :
      m.getLsbD j = true ∨ j ∈ ls := by
    induction ls generalizing m with
    | nil => exact .inl h
    | cons l r ih =>
      rcases ih _ h with h | h
      · rw [BitVec.getLsbD_or, Bool.or_eq_true] at h
        exact h.imp_right (fun e => bit e ▸ List.mem_cons_self)
      · exact .inr (List.mem_cons_of_mem _ h)
  exact (grows ls 0 h).resolve_left (by simp)

/-- A lane is among those of a condition when its thread meets it. -/
theorem getLsbD_lanesWhere_iff {w : Warp} (hs : tsorted w.threads = true) {c : Thread → Bool} {l : Nat} (hl : l < 32) :
    (lanesWhere w c).getLsbD l = true ↔ ∃ x, thr w l = some x ∧ c x = true := by
  constructor
  · intro h
    obtain ⟨e, he, rfl⟩ := List.mem_map.1 (mem_of_getLsbD_maskOf h)
    obtain ⟨he, hc⟩ := List.mem_filter.1 he
    exact ⟨e.2, tget_of_mem hs he, hc⟩
  · rintro ⟨x, hx, hc⟩
    exact getLsbD_lanesWhere hx hc hl

end Sys2Proof.Machine

/-! PROOF. Stall samples (23 R340): what a partition's sample says of the slot whose turn it is, and what its record leaves. -/

namespace Sys2Proof.Machine

/-! What a sample says of a warp. -/

/-- A warp whose group issued in the sampled clock. -/
theorem sampleOf_issued {s : State} {k : Nat} {w : Warp} {x : Issued}
    (hi : (tgetD Sampler.empty s.samplers (4 * coreOf k + k % 64 / 16)).issued = some x) (hs : x.slot = k % 16) :
    sampleOf s k w = ((0, 0, x.pc.toNat, 0), s) := by
  simp only [sampleOf, hi, hs, if_true]

theorem sampleOf_waiting {s : State} {k : Nat} {w : Warp} {y : Thread}
    (hi : ∀ x, (tgetD Sampler.empty s.samplers (4 * coreOf k + k % 64 / 16)).issued = some x → x.slot ≠ k % 16)
    (hy : thr w (sampleLane w) = some y) : sampleOf s k w =
      sampleOf.waiting s k w (sampleLane w) y.wait (wordAddr (pcOf w (sampleLane w))).toNat := by
  have wt : ((thr w (sampleLane w)).map (·.wait)).getD .none = y.wait := by rw [hy]; rfl
  unfold sampleOf
  dsimp only
  rw [wt]
  split
  · next x e => rw [if_neg (hi x e)]
  · rfl

section
variable (s : State) (k : Nat) {w : Warp} (l pc : Nat)

theorem waiting_held {wt : Wait} (h : w.held = true ∨ wt = .debug) :
    sampleOf.waiting s k w l wt pc = ((1, 0, pc, 0), s) := if_pos h

section
variable (hh : w.held = false)
include hh

/-- The token write that a header wait for a token is blamed on, if it waits for one (R93). -/
theorem waiting_header (kind arg : Nat) : sampleOf.waiting s k w l (.header kind arg) pc = ((4, kind, (pcOf w l).hdr.toNat,
    ((if kind = 2 then w.pend.find? (fun e => e.token && e.reg.toNat == arg) else none).map (·.pc.toNat)).getD 0), s) := by
  simp [sampleOf.waiting, hh]

theorem waiting_free {wt : Wait} (h : wt = .none ∨ wt = .headerOk) :
    sampleOf.waiting s k w l wt pc = sampleOf.going s k w l pc := by
  rcases h with rfl | rfl <;> simp [sampleOf.waiting, hh]

/-- A wait that is none of the header's names a condition by a free choice (log 2). -/
theorem waiting_sync {wt : Wait} (hd : wt ≠ .debug) (hk : ∀ kind arg, wt ≠ .header kind arg)
    (hf : ¬ (wt = .none ∨ wt = .headerOk)) : sampleOf.waiting s k w l wt pc = ((5, (choose s 256).1, pc, 0), (choose s 256).2) := by
  unfold sampleOf.waiting
  rw [if_neg (by simp [hh, hd])]
  split
  · next kind arg => exact absurd rfl (hk kind arg)
  · exact absurd (.inl rfl) hf
  · exact absurd (.inr rfl) hf
  · rfl

end

theorem going_waits (ha : w.act = 0) (hp : headerPending s w (pcOf w l) = none) :
    sampleOf.going s k w l pc = ((2, 0, pc, 0), s) := by
  simp only [sampleOf.going, ha, if_true, hp]

theorem going_header {e : Pend} (ha : w.act = 0) (hp : headerPending s w (pcOf w l) = some e) :
    sampleOf.going s k w l pc = ((3, 0, pc, e.pc.toNat), s) := by
  simp only [sampleOf.going, ha, if_true, hp]

theorem going_blamed {e : Pend} (ha : w.act ≠ 0) (hb : blamed w (blockers s k w) = some e) :
    sampleOf.going s k w l pc = ((3, 0, pc, e.pc.toNat), s) := by
  simp only [sampleOf.going, ha, if_false, hb]

theorem going_unblamed (ha : w.act ≠ 0) (hb : blamed w (blockers s k w) = none) : sampleOf.going s k w l pc =
    ((if copyStalls s k w then 3 else if wordStalls s k w then 6 else 7, 0, pc, 0), s) := by
  simp only [sampleOf.going, ha, if_false, hb]
  split
  · rfl
  split <;> rfl

/-- A sample takes a free choice at most. -/
theorem sampleOf_state (w : Warp) : ∃ n, (sampleOf s k w).2 = { s with choices := n } := by
  have going (l pc : Nat) : (sampleOf.going s k w l pc).2 = s := by
    unfold sampleOf.going
    split
    · split <;> rfl
    split
    · rfl
    split
    · rfl
    split <;> rfl
  have waiting (l : Nat) (wt : Wait) (pc : Nat) : ∃ n, (sampleOf.waiting s k w l wt pc).2 = { s with choices := n } := by
    unfold sampleOf.waiting
    split
    · exact ⟨_, rfl⟩
    split
    · exact ⟨_, rfl⟩
    · exact ⟨_, going ..⟩
    · exact ⟨_, going ..⟩
    · exact ⟨_, rfl⟩
  unfold sampleOf
  dsimp only
  split
  · split
    · exact ⟨_, rfl⟩
    · exact waiting ..
  · exact waiting ..

end

/-! The step of a partition's sampler. -/

/-- The sampler of a partition. -/
def samplerOf (s : State) (c part : Nat) : Sampler := tgetD Sampler.empty s.samplers (4 * c + part)

/-- The warp slot whose turn it is. -/
def sampledSlot (s : State) (c part : Nat) : Nat := 64 * c + 16 * part + (samplerOf s c part).slot

/-- The sampler once it has taken the sample of the present interval. -/
def nextSampler (s : State) (c part : Nat) : Sampler :=
  { samplerOf s c part with
    slot := ((samplerOf s c part).slot + 1) % 16
    exited := tdel (samplerOf s c part).exited (samplerOf s c part).slot
    interval := sampleInterval s (dieOf c) }

/-- The thread that the record of a warp names: that of the word issued, or the lowest of the group (R339). -/
def sampledName (s : State) (c part k : Nat) (w : Warp) : Nat :=
  match (samplerOf s c part).issued with
  | some x => if x.slot = k % 16 then x.name else sampleName w
  | none => sampleName w

/-- The last doubleword of a sample's payload (R340). -/
def sampleWord (s : State) (c part reason detail : Nat) : Nat :=
  reason + detail % 256 * 2 ^ 4 + part % 4 * 2 ^ 12 + (samplerOf s c part).slot * 2 ^ 14

theorem stallSample_skips {s : State} {c part : Nat} (h : s.capCfg.getLsbD 24 = false ∨ s.capState = 0 ∨
    (samplerOf s c part).interval = sampleInterval s (dieOf c)) : exec (.stallSample c part) s = .next s := by
  have skip : (!sampling s || (samplerOf s c part).interval == sampleInterval s (dieOf c)) = true := by
    rcases h with h | h | h
    · simp only [sampling, h, Bool.false_and, Bool.not_false, Bool.true_or]
    · have idle : (s.capState != capIdle) = false := by rw [h]; rfl
      simp only [sampling, idle, Bool.and_false, Bool.not_false, Bool.true_or]
    · rw [h, beq_self_eq_true, Bool.or_true]
  exact if_pos skip

section
variable {s : State} {c part : Nat} (hon : s.capCfg.getLsbD 24 = true) (hst : s.capState ≠ 0)
variable (hdue : (samplerOf s c part).interval ≠ sampleInterval s (dieOf c))
include hon hst hdue

theorem stallSample_due : (!sampling s || (samplerOf s c part).interval == sampleInterval s (dieOf c)) = false := by
  have busy : (s.capState != capIdle) = true := bne_iff_ne.2 hst
  simp only [sampling, hon, busy, Bool.and_self, Bool.not_true, Bool.false_or, beq_eq_false_iff_ne.2 hdue]

/-- An empty slot adds to the idle count. -/
theorem stallSample_empty (hw : tget s.warps (sampledSlot s c part) = none)
    (hx : tget (samplerOf s c part).exited (samplerOf s c part).slot = none) :
    exec (.stallSample c part) s = .next { s with
      samplers := tput s.samplers (4 * c + part) { nextSampler s c part with idle := (samplerOf s c part).idle + 1 } } := by
  have due := stallSample_due hon hst hdue
  unfold samplerOf at due hx
  unfold sampledSlot samplerOf at hw
  show execStallSample c part s = _
  simp only [execStallSample, due, Bool.false_eq_true, if_false, hw, hx]
  rfl

/-- The record of a warp that has left the slot since its last sample. -/
theorem stallSample_exited {pc : DWord} {name : TName} {kind : Nat} (hw : tget s.warps (sampledSlot s c part) = none)
    (hx : tget (samplerOf s c part).exited (samplerOf s c part).slot = some (pc, name, kind)) :
    exec (.stallSample c part) s = .next { capRecord s (serialOf name.wg) (wgNumber name.wg) name.n kind 1 (dieOf c) (c % 64)
        [pc.toNat, 0, sampleWord s c part 9 0] (confOf s name.wg) with
      samplers := tput s.samplers (4 * c + part) (nextSampler s c part) } := by
  have due := stallSample_due hon hst hdue
  have r : OnlyRecords s (capRecord s (serialOf name.wg) (wgNumber name.wg) name.n kind 1 (dieOf c) (c % 64)
    [pc.toNat, 0, sampleWord s c part 9 0] (confOf s name.wg)) := onlyRecords_capRecordWith ..
  unfold samplerOf at due hx
  unfold sampledSlot samplerOf at hw
  show execStallSample c part s = _
  simp only [execStallSample, due, Bool.false_eq_true, if_false, hw, hx]
  unfold sampleWord samplerOf at r ⊢
  generalize capRecord s (serialOf name.wg) (wgNumber name.wg) name.n kind 1 (dieOf c) (c % 64) _ (confOf s name.wg) = t at r ⊢
  unfold OnlyRecords at r
  rw [r]
  rfl

/-- The record of a warp. -/
theorem stallSample_warp {w : Warp} {reason detail pc blame : Nat} {s1 : State}
    (hw : tget s.warps (sampledSlot s c part) = some w)
    (hv : sampleOf s (sampledSlot s c part) w = ((reason, detail, pc, blame), s1)) :
    exec (.stallSample c part) s = .next { warpRecordOf s1 (sampledSlot s c part) w
        (sampledName s c part (sampledSlot s c part) w) 1 [pc, blame, sampleWord s c part reason detail] with
      samplers := tput s.samplers (4 * c + part) (nextSampler s c part) } := by
  have due := stallSample_due hon hst hdue
  obtain ⟨n, hs1⟩ := sampleOf_state s (sampledSlot s c part) w
  rw [hv] at hs1
  have r : OnlyRecords s1 (warpRecordOf s1 (sampledSlot s c part) w (sampledName s c part (sampledSlot s c part) w) 1
    [pc, blame, sampleWord s c part reason detail]) := onlyRecords_warpRecordOf ..
  unfold samplerOf at due
  unfold sampledSlot sampledName sampleWord samplerOf at *
  show execStallSample c part s = _
  simp only [execStallSample, due, Bool.false_eq_true, if_false, hw, hv]
  generalize warpRecordOf s1 _ w _ 1 _ = t at r ⊢
  unfold OnlyRecords at r
  rw [r]
  simp only at hs1
  rw [hs1]
  rfl

end

/-! What its record leaves. -/

/-- The bytes of a sample's record (R339, R340). -/
def sampleRecord (s : State) (c part : Nat) (name : TName) (kind reason detail pc blame : Nat) : List Byte :=
  leBytes 16 (slate (serialOf name.wg) (wgNumber name.wg) name.n kind 1 (c / 64) (c % 64) 3) ++
    leBytes 8 (cycleOf s (c / 64)) ++ leBytes 8 pc ++ leBytes 8 blame ++
    leBytes 8 (reason + detail % 256 * 2 ^ 4 + part * 2 ^ 12 + (samplerOf s c part).slot * 2 ^ 14)

/-- The sample writes a record that says this, and takes a free choice at most. -/
def SampleWrites (s : State) (c part : Nat) (name : TName) (kind reason detail pc blame : Nat) : Prop :=
  ∃ t, exec (.stallSample c part) s = .next t ∧ t = { s with
    choices := t.choices
    samplers := tput s.samplers (4 * c + part) (nextSampler s c part)
    capOff := (s.capOff + 48) % ringSize s
    posted := s.posted ++ [(s.capBase.toNat + s.capOff, sampleRecord s c part name kind reason detail pc blame)] }

/-- A record of three doublewords in an open context, where the ring has room for it. -/
theorem capRecord_sample {s : State} (h1 : s.capLaunch.getLsbD 32 = false) (h2 : s.capWgLo.getLsbD 63 = false)
    (ht : s.capTypes.getLsbD 1 = true) (hc : s.capState = 1) (hm : s.capCfg.getLsbD 8 = false)
    (hr : s.capOff + 48 ≤ ringSize s) (serial wg thread kind die core pc blame word : Nat) :
    capRecord s serial wg thread kind 1 die core [pc, blame, word] none = { s with
      capOff := (s.capOff + 48) % ringSize s
      posted := s.posted ++ [(s.capBase.toNat + s.capOff, leBytes 16 (slate serial wg thread kind 1 die core 3) ++
        leBytes 8 (cycleOf s die) ++ leBytes 8 pc ++ leBytes 8 blame ++ leBytes 8 word)] } := by
  have bytes : recordBytes s (slate serial wg thread kind 1 die core 3) 1 die 3 [pc, blame, word] none =
      leBytes 16 (slate serial wg thread kind 1 die core 3) ++ leBytes 8 (cycleOf s die) ++ leBytes 8 pc ++
        leBytes 8 blame ++ leBytes 8 word := by
    have := recordBytes_open s (slate serial wg thread kind 1 die core 3) 1 die (payload := [pc, blame, word]) (by simp)
    simpa [List.append_assoc] using this
  have len : (leBytes 16 (slate serial wg thread kind 1 die core 3) ++ leBytes 8 (cycleOf s die) ++ leBytes 8 pc ++
      leBytes 8 blame ++ leBytes 8 word).length = 48 := by simp
  have passes : capPasses s serial wg 1 = true := by rw [capPasses_open h1 h2, ht]
  have size : (3 + [pc, blame, word].length + 1) / 2 = 3 := by simp
  rw [capRecord_running passes hc, size, bytes, capPut_whole hm (by rw [len]; exact hr), len]

section
variable {s : State} {c part : Nat} (hon : s.capCfg.getLsbD 24 = true)
variable (hdue : (samplerOf s c part).interval ≠ sampleInterval s (dieOf c))
variable (h1 : s.capLaunch.getLsbD 32 = false) (h2 : s.capWgLo.getLsbD 63 = false)
variable (ht : s.capTypes.getLsbD 1 = true) (hc : s.capState = 1) (hm : s.capCfg.getLsbD 8 = false)
variable (hr : s.capOff + 48 ≤ ringSize s) (hp : part < 4)
include hon hdue h1 h2 ht hc hm hr hp

theorem sampleWrites_exited {pc : DWord} {name : TName} {kind : Nat} (hw : tget s.warps (sampledSlot s c part) = none)
    (hx : tget (samplerOf s c part).exited (samplerOf s c part).slot = some (pc, name, kind))
    (hn : confOf s name.wg = none) : SampleWrites s c part name kind 9 0 pc.toNat 0 := by
  have e := stallSample_exited hon (by rw [hc]; decide) hdue hw hx
  rw [hn, capRecord_sample h1 h2 ht hc hm hr] at e
  refine ⟨_, e, ?_⟩
  simp only [sampleWord, Nat.mod_eq_of_lt hp]
  rfl

theorem sampleWrites_warp {w : Warp} {reason detail pc blame : Nat} {s1 : State} (hl : (samplerOf s c part).slot < 16)
    (hw : tget s.warps (sampledSlot s c part) = some w) (hn : confOf s w.wg = none)
    (hv : sampleOf s (sampledSlot s c part) w = ((reason, detail, pc, blame), s1)) :
    SampleWrites s c part ⟨w.wg, false, sampledName s c part (sampledSlot s c part) w, false⟩ (slateKind w) reason detail
      pc blame := by
  have e := stallSample_warp hon (by rw [hc]; decide) hdue hw hv
  obtain ⟨n, hs1⟩ := sampleOf_state s (sampledSlot s c part) w
  rw [hv] at hs1
  simp only at hs1
  have core : coreOf (sampledSlot s c part) = c := by
    rw [coreOf, sampledSlot]
    omega
  have conf : confOf s1 w.wg = none := by
    rw [hs1, ← hn]
    rfl
  rw [warpRecordOf, conf, core, capRecord_sample (by rw [hs1]; exact h1) (by rw [hs1]; exact h2) (by rw [hs1]; exact ht)
    (by rw [hs1]; exact hc) (by rw [hs1]; exact hm) (by rw [hs1]; exact hr)] at e
  refine ⟨_, e, ?_⟩
  simp only [sampleWord, Nat.mod_eq_of_lt hp]
  rw [hs1]
  rfl

end

/-- While the record of a warp does not pass the filters, or is dropped, the sampler goes on all the same. -/
theorem stallSample_unwritten {s : State} {c part : Nat} (hon : s.capCfg.getLsbD 24 = true) (hst : s.capState ≠ 0)
    (hdue : (samplerOf s c part).interval ≠ sampleInterval s (dieOf c)) {w : Warp}
    (hw : tget s.warps (sampledSlot s c part) = some w) :
    (s.capTypes.getLsbD 1 = false → ∃ t, exec (.stallSample c part) s = .next t ∧
      t = { s with choices := t.choices, samplers := tput s.samplers (4 * c + part) (nextSampler s c part) }) ∧
    (s.capTypes.getLsbD 1 = true → s.capLaunch.getLsbD 32 = false → s.capWgLo.getLsbD 63 = false →
      s.capState = 2 ∨ s.capState = 3 → ∃ t, exec (.stallSample c part) s = .next t ∧
      t = { s with choices := t.choices, capDropped := s.capDropped + 1,
                   samplers := tput s.samplers (4 * c + part) (nextSampler s c part) }) := by
  obtain ⟨n, hs1⟩ := sampleOf_state s (sampledSlot s c part) w
  rcases hv : sampleOf s (sampledSlot s c part) w with ⟨⟨reason, detail, pc, blame⟩, s1⟩
  rw [hv] at hs1
  simp only at hs1
  have e := stallSample_warp hon hst hdue hw hv
  constructor
  · intro ht
    rw [warpRecordOf, capRecord_filtered (by rw [hs1]; exact ht)] at e
    exact ⟨_, e, by rw [hs1]⟩
  · intro ht h1 h2 hc
    rw [warpRecordOf, capRecord_dropped (by rw [hs1, capPasses_open (by exact h1) (by exact h2)]; exact ht)
      (by rw [hs1]; exact hc)] at e
    exact ⟨_, e, by rw [hs1]⟩

end Sys2Proof.Machine

/-! PROOF. The statement on the capture and the debug commands (23 R337 to R345), from the laws of the ring, the samples and
the commands. -/

namespace Sys2Proof.Machine

/-! The commands of the capture. -/

/-- The table of the capture's states (R344). -/
def captureNext : Nat → Fin 4 → Nat
  | 0, 0 => 1
  | 2, 0 => 1
  | 1, 1 => 2
  | 1, 2 => 3
  | 2, 2 => 3
  | _, 3 => 0
  | c, _ => c

/-- The state after a command: START, STOP, FREEZE or RESET. -/
def captureCommand (s : State) : Fin 4 → State
  | 0 => capStart s
  | 1 => capStop s
  | 2 => capFreeze s
  | 3 => capReset s

/-- A command brings the capture to a state, and does nothing where it is in that state already. -/
structure CommandTo (s t : State) (n : Nat) : Prop extends CaptureIs s t n where
  same : n = s.capState → t = s

theorem CaptureIs.commandTo {s t : State} {n m : Nat} (h : CaptureIs s t n) (hn : n ≠ s.capState) (hm : m = n) :
    CommandTo s t m := by
  subst hm
  exact ⟨h, fun e => absurd e hn⟩

theorem commandTo_of_stays {s t : State} {m : Nat} (h : t = s) (hm : m = s.capState) : CommandTo s t m := by
  subst h hm
  exact ⟨⟨rfl, rfl, rfl, rfl, rfl⟩, fun _ => rfl⟩

theorem captureCommand_to {s : State} (hlt : s.capState < 4) (cmd : Fin 4) :
    CommandTo s (captureCommand s cmd) (captureNext s.capState cmd) := by
  have states : s.capState = 0 ∨ s.capState = 1 ∨ s.capState = 2 ∨ s.capState = 3 := by omega
  match cmd with
  | 0 =>
    by_cases h : s.capState = 0 ∨ s.capState = 2
    · exact (capStart_runs h).commandTo (by omega) (by rcases h with h | h <;> rw [h] <;> rfl)
    · exact commandTo_of_stays (capStart_stays (by omega) (by omega)) (by grind [captureNext])
  | 1 =>
    by_cases h : s.capState = 1
    · exact (capStop_stops h).commandTo (by omega) (by rw [h]; rfl)
    · exact commandTo_of_stays (capStop_stays h) (by grind [captureNext])
  | 2 =>
    by_cases h : s.capState = 1 ∨ s.capState = 2
    · exact (capFreeze_freezes h).commandTo (by omega) (by rcases h with h | h <;> rw [h] <;> rfl)
    · exact commandTo_of_stays (capFreeze_stays (by omega) (by omega)) (by grind [captureNext])
  | 3 =>
    by_cases h : s.capState = 0
    · exact commandTo_of_stays (capReset_stays h) (by rw [h]; rfl)
    · exact (capReset_clears h).1.commandTo (by omega) (by rcases states with h | h | h | h <;> rw [h] <;> rfl)

/-! The pulse. -/

/-- The bytes of a pulse's record (R339, R345). -/
def pulseBytes (s : State) (n : Nat) : List Byte :=
  leBytes 16 (slate 0 0 0 7 5 0 0 2) ++ leBytes 8 (cycleOf s 0) ++ leBytes 8 n

theorem length_pulseBytes (s : State) (n : Nat) : (pulseBytes s n).length = 32 := by simp [pulseBytes]

theorem pulseBytes_time (s : State) (n : Nat) {j : Nat} (hj : j < 8) :
    (pulseBytes s n).getD (16 + j) 0 = BitVec.ofNat 8 (cycleOf s 0 / 2 ^ (8 * j)) := by
  rw [pulseBytes, List.getD_append _ _ _ _ (by simp; omega), List.getD_append_right _ _ _ _ (by simp), length_leBytes,
    Nat.add_sub_cancel_left, getD_leBytes hj]

theorem pulseBytes_number (s : State) (n : Nat) {j : Nat} (hj : j < 8) :
    (pulseBytes s n).getD (24 + j) 0 = BitVec.ofNat 8 (n / 2 ^ (8 * j)) := by
  have pre : (leBytes 16 (slate 0 0 0 7 5 0 0 2) ++ leBytes 8 (cycleOf s 0)).length = 24 := by simp
  rw [pulseBytes, List.getD_append_right _ _ _ _ (by rw [pre]; omega), pre, Nat.add_sub_cancel_left, getD_leBytes hj]

theorem capRecord_pulse {s : State} (ht : s.capTypes.getLsbD 5 = true) (hc : s.capState = 1)
    (h1 : s.capLaunch.getLsbD 32 = false) (h2 : s.capWgLo.getLsbD 63 = false) (n : Nat) :
    capRecord s 0 0 0 7 5 0 0 [n] none = capPut s (pulseBytes s n) := by
  have bytes := recordBytes_open s (slate 0 0 0 7 5 0 0 2) 5 0 (payload := [n]) (by simp)
  have size : (3 + [n].length + 1) / 2 = 2 := by simp
  have passes : capPasses s 0 0 5 = true := by rw [capPasses_open h1 h2, ht]
  rw [size, List.flatMap_singleton] at bytes
  rw [capRecord_running passes hc, size, bytes, pulseBytes]

/-- The record of a pulse, from its bytes on (R345). -/
theorem pulse_writes {s : State} (ht : s.capTypes.getLsbD 5 = true) (hc : s.capState = 1) (hd : s.dieEn = 1)
    (h1 : s.capLaunch.getLsbD 32 = false) (h2 : s.capWgLo.getLsbD 63 = false) (hm : s.capCfg.getLsbD 8 = false)
    (ho : s.capOff < ringSize s) : ∃ (t : State) (bs : List Byte), exec .alignmentPulse s = .next t ∧
      t = { s with pulse := s.pulse + 1, capOff := (s.capOff + 32) % ringSize s, posted := t.posted } ∧ bs.length = 32 ∧
      s.posted <+: t.posted ∧
      (t.posted.drop s.posted.length).flatMap postedBytes =
        (List.range 32).map (fun j => (s.capBase.toNat + (s.capOff + j) % ringSize s, bs.getD j 0)) ∧
      (∀ j < 8, bs.getD (16 + j) 0 = BitVec.ofNat 8 (cycleOf s 0 / 2 ^ (8 * j))) ∧
      (∀ j < 8, bs.getD (24 + j) 0 = BitVec.ofNat 8 (s.pulse / 2 ^ (8 * j))) := by
  have room : (pulseBytes s s.pulse).length ≤ ringSize s := by
    rw [length_pulseBytes]
    exact (by decide : 32 ≤ 2 ^ 16).trans (le_ringSize s)
  obtain ⟨new, put, places⟩ := capPut_places (s := { s with pulse := s.pulse + 1 }) (bs := pulseBytes s s.pulse) hm room ho
  have e := (pulse_oneDie hd).trans (congrArg Host.Outcome.next
    ((capRecord_pulse (s := { s with pulse := s.pulse + 1 }) ht hc h1 h2 s.pulse).trans put))
  rw [length_pulseBytes] at e places
  have rest : (s.posted ++ new).drop s.posted.length = new := List.drop_left
  exact ⟨_, pulseBytes s s.pulse, e, rfl, length_pulseBytes .., List.prefix_append _ _,
    (congrArg (List.flatMap postedBytes) rest).trans places, fun j hj => pulseBytes_time _ _ hj,
    fun j hj => pulseBytes_number _ _ hj⟩

/-! The debug commands. -/

theorem bitN_zero (x : Nat) : bitN x 0 = x.testBit 0 := by
  rw [bitN, Nat.testBit_zero, pow_zero, Nat.div_one]
  rfl

/-- The parked lanes of a warp go on, and with one of them the warp comes to a choice point. -/
theorem resumeParked_spec {w : Warp} (hs : tsorted w.threads = true) :
    resumeParked w = { w with threads := (resumeParked w).threads, act := (resumeParked w).act, cand := (resumeParked w).cand } ∧
      (∀ l < 32, thr (resumeParked w) l = (thr w l).map (fun x => if x.wait = .debug then { x with wait := .none } else x)) ∧
      ((∃ l < 32, (thr w l).map (·.wait) = some .debug) → (resumeParked w).act = 0 ∧ (resumeParked w).cand = 0) := by
  let m := lanesWhere w (fun t => t.wait == .debug)
  have on {l : Nat} (hl : l < 32) : m.getLsbD l = true ↔ ∃ x, thr w l = some x ∧ x.wait = .debug := by
    simpa using getLsbD_lanesWhere_iff hs (c := fun t => t.wait == .debug) hl
  have lane {l : Nat} (hl : l < 32) {x : Thread} (hx : thr w l = some x) : m.getLsbD l = true ↔ x.wait = .debug := by
    rw [on hl]
    constructor
    · rintro ⟨y, hy, e⟩
      rw [hx, Option.some.injEq] at hy
      exact hy ▸ e
    · exact fun e => ⟨x, hx, e⟩
  have all : resumeParked w = if m = 0 then w else choicePoint (modLanes w m (fun _ t => { t with wait := .none })) := rfl
  by_cases h0 : m = 0
  · rw [all, if_pos h0]
    refine ⟨rfl, fun l hl => ?_, ?_⟩
    · cases hx : thr w l with
      | none => rfl
      | some x =>
        have no : ¬ x.wait = .debug := by
          rw [← lane hl hx, h0]
          simp
        rw [Option.map_some, if_neg no]
    · rintro ⟨l, hl, h⟩
      obtain ⟨x, hx, e⟩ := Option.map_eq_some_iff.1 h
      have bit := (lane hl hx).2 e
      rw [h0] at bit
      simp at bit
  · rw [all, if_neg h0]
    refine ⟨rfl, fun l hl => ?_, fun _ => ⟨rfl, rfl⟩⟩
    have e : thr (choicePoint (modLanes w m (fun _ t => { t with wait := .none }))) l =
      thr (modLanes w m (fun _ t => { t with wait := .none })) l := rfl
    rw [e, thr_modLanes]
    cases hx : thr w l with
    | none => rfl
    | some x =>
      rw [Option.map_some, Option.map_some]
      by_cases hd : x.wait = .debug
      · rw [if_pos ((lane hl hx).2 hd), if_pos hd]
      · rw [if_neg (fun b => hd ((lane hl hx).1 b)), if_neg hd]

/-- RELEASE_HOLDS reaches the warps of a context that may be debugged, and their holds still to come (R338). -/
theorem releaseHolds_spec (s : State) (ctx : Nat) : ∃ t, exec (.releaseHolds ctx) s = .next t ∧
    t = { s with warps := t.warps, ctxs := t.ctxs, cores := t.cores, held := t.held } ∧
    ∀ k w, tget s.warps k = some w → ctxOfWg s w.wg = ctx → (dbgOf s w.wg).testBit 0 = true →
      tget t.warps k = some { w with held := false } ∧ ∀ h ∈ t.held, h.2.1 ≠ w.wg := by
  refine ⟨_, rfl, rfl, fun k w hw hc hd => ?_⟩
  have mine : (ctxOfWg s w.wg == ctx && bitN (dbgOf s w.wg) 0) = true := by
    rw [bitN_zero, hd, beq_iff_eq.2 hc]
    rfl
  refine ⟨?_, fun h hh e => ?_⟩
  · refine (tget_map s.warps (fun _ w => if ctxOfWg s w.wg == ctx && bitN (dbgOf s w.wg) 0 then { w with held := false } else w)
      k).trans ?_
    rw [hw, Option.map_some, if_pos mine]
  · have out : (!(ctxOfWg s h.2.1 == ctx && bitN (dbgOf s h.2.1) 0)) = true := (List.mem_filter.1 hh).2
    rw [e, mine] at out
    exact Bool.false_ne_true out

/-! The samples. -/

/-- What the record of a waiting warp says, where the sample of a partition writes it. -/
theorem sampleWrites_waiting {s : State} {c part k : Nat} {w : Warp} {y : Thread}
    (hwrites : ∀ {reason detail pc blame s1}, sampleOf s k w = ((reason, detail, pc, blame), s1) →
      SampleWrites s c part ⟨w.wg, false, sampleName w, false⟩ (slateKind w) reason detail pc blame)
    (hv : sampleOf s k w = sampleOf.waiting s k w (sampleLane w) y.wait (wordAddr (pcOf w (sampleLane w))).toNat) :
    let l := sampleLane w
    let p := pcOf w l
    let of_ (reason detail pc blame : Nat) : Prop :=
      SampleWrites s c part ⟨w.wg, false, sampleName w, false⟩ (slateKind w) reason detail pc blame
    let next (reason detail blame : Nat) : Prop := of_ reason detail (wordAddr p).toNat blame
    let free (x : Wait) : Prop := x = .none ∨ x = .headerOk
    (w.held = true ∨ y.wait = .debug → next 1 0 0) ∧
    (w.held = false →
      (∀ kind arg, y.wait = .header kind arg → ∃ blame, of_ 4 kind p.hdr.toNat blame ∧ (kind ≠ 2 → blame = 0) ∧
        (kind = 2 → (∀ e ∈ w.pend, e.token = true → e.reg.toNat = arg → ∃ e1 ∈ w.pend, e1.token = true ∧
          e1.reg.toNat = arg ∧ blame = e1.pc.toNat) ∧
          ((∀ e ∈ w.pend, e.token = true → e.reg.toNat ≠ arg) → blame = 0))) ∧
      (free y.wait → w.act = 0 → headerPending s w p = none → next 2 0 0) ∧
      (∀ e, free y.wait → w.act = 0 → headerPending s w p = some e → next 3 0 e.pc.toNat) ∧
      (∀ e, free y.wait → w.act ≠ 0 → blamed w (blockers s k w) = some e → next 3 0 e.pc.toNat) ∧
      (free y.wait → w.act ≠ 0 → blamed w (blockers s k w) = none →
        (copyStalls s k w = true → next 3 0 0) ∧
        (copyStalls s k w = false → wordStalls s k w = true → next 6 0 0) ∧
        (copyStalls s k w = false → wordStalls s k w = false → next 7 0 0)) ∧
      ((∀ kind arg, y.wait ≠ .header kind arg) → ¬ free y.wait → y.wait ≠ .debug → ∃ detail, next 5 detail 0)) := by
  intro l p of_ next free
  refine ⟨fun h => hwrites (hv.trans (waiting_held s k l _ h)), fun hh => ⟨fun kind arg hw => ?header,
    fun hf ha hp => hwrites (hv.trans ((waiting_free s k l _ hh hf).trans (going_waits s k l _ ha hp))),
    fun e hf ha hp => hwrites (hv.trans ((waiting_free s k l _ hh hf).trans (going_header s k l _ ha hp))),
    fun e hf ha hb => hwrites (hv.trans ((waiting_free s k l _ hh hf).trans (going_blamed s k l _ ha hb))),
    fun hf ha hb => ?unblamed, fun hk hf hd => ⟨_, hwrites (hv.trans (waiting_sync s k l _ hh hd hk hf))⟩⟩⟩
  case header =>
    rw [hw] at hv
    refine ⟨_, hwrites (hv.trans (waiting_header s k l _ hh kind arg)), fun h2 => by rw [if_neg h2]; rfl, fun h2 => ?_⟩
    rw [if_pos h2]
    cases hf : w.pend.find? (fun e => e.token && e.reg.toNat == arg) with
    | none =>
      have none_ := List.find?_eq_none.1 hf
      exact ⟨fun e he htok hreg => absurd (by simp [htok, hreg]) (none_ e he), fun _ => rfl⟩
    | some e1 =>
      have hit := List.find?_some hf
      have mem := List.mem_of_find?_eq_some hf
      rw [Bool.and_eq_true, beq_iff_eq] at hit
      exact ⟨fun _ _ _ _ => ⟨e1, mem, hit.1, hit.2, rfl⟩, fun no => absurd hit.2 (no e1 mem hit.1)⟩
  case unblamed =>
    have goes := hv.trans ((waiting_free s k l _ hh hf).trans (going_unblamed s k l _ ha hb))
    refine ⟨fun hc => ?_, fun hc hs => ?_, fun hc hs => ?_⟩
    · rw [if_pos hc] at goes
      exact hwrites goes
    · rw [if_neg (ne_true_of_eq_false hc), if_pos hs] at goes
      exact hwrites goes
    · rw [if_neg (ne_true_of_eq_false hc), if_neg (ne_true_of_eq_false hs)] at goes
      exact hwrites goes

/-- The record of a warp whose group has issued in the sampled clock, and of one whose group has not. -/
theorem sampleWrites_slot {s : State} {c part : Nat} {w : Warp} (hon : s.capCfg.getLsbD 24 = true)
    (hdue : (samplerOf s c part).interval ≠ sampleInterval s (dieOf c)) (h1 : s.capLaunch.getLsbD 32 = false)
    (h2 : s.capWgLo.getLsbD 63 = false) (ht : s.capTypes.getLsbD 1 = true) (hc : s.capState = 1)
    (hm : s.capCfg.getLsbD 8 = false) (hr : s.capOff + 48 ≤ ringSize s) (hp : part < 4)
    (hl : (samplerOf s c part).slot < 16) (hw : tget s.warps (sampledSlot s c part) = some w) (hn : confOf s w.wg = none) :
    (∀ x, (samplerOf s c part).issued = some x → x.slot = (samplerOf s c part).slot →
      SampleWrites s c part ⟨w.wg, false, x.name, false⟩ (slateKind w) 0 0 x.pc.toNat 0) ∧
    ((∀ x, (samplerOf s c part).issued = some x → x.slot ≠ (samplerOf s c part).slot) →
      (∀ {reason detail pc blame s1}, sampleOf s (sampledSlot s c part) w = ((reason, detail, pc, blame), s1) →
        SampleWrites s c part ⟨w.wg, false, sampleName w, false⟩ (slateKind w) reason detail pc blame) ∧
      ∀ y, thr w (sampleLane w) = some y → sampleOf s (sampledSlot s c part) w = sampleOf.waiting s (sampledSlot s c part) w
        (sampleLane w) y.wait (wordAddr (pcOf w (sampleLane w))).toNat) := by
  have key : 4 * coreOf (sampledSlot s c part) + sampledSlot s c part % 64 / 16 = 4 * c + part := by
    rw [coreOf, sampledSlot]
    omega
  have slot : sampledSlot s c part % 16 = (samplerOf s c part).slot := by
    rw [sampledSlot]
    omega
  refine ⟨fun x hi hs => ?_, fun hi => ⟨fun hv => ?_, fun y hy => ?_⟩⟩
  · have name : sampledName s c part (sampledSlot s c part) w = x.name := by rw [sampledName, hi, slot]; exact if_pos hs
    rw [← name]
    refine sampleWrites_warp hon hdue h1 h2 ht hc hm hr hp hl hw hn (sampleOf_issued ?_ (hs.trans slot.symm))
    rw [key]
    exact hi
  · have name : sampledName s c part (sampledSlot s c part) w = sampleName w := by
      rw [sampledName, slot]
      split
      · next x e => exact if_neg (hi x e)
      · rfl
    rw [← name]
    exact sampleWrites_warp hon hdue h1 h2 ht hc hm hr hp hl hw hn hv
  · refine sampleOf_waiting (fun x e => ?_) hy
    rw [key] at e
    rw [slot]
    exact hi x e

/-- Settles O49: the capture's commands, the pulse, the samples and the debug commands, each by its own law. -/
theorem debugAndCapture : Obligations.DebugAndCapture := by
  unfold Obligations.DebugAndCapture
  intro s
  refine ⟨fun cmd => ?commands, pulse_filtered, fun ht hc hd h1 h2 hm => pulse_writes ht hc hd h1 h2 hm, fun c part => ?samples,
    fun ctx => ⟨?set, ?clear, ?resume, ?release⟩⟩
  case commands =>
    intro i next hlt
    have to_ := captureCommand_to hlt cmd
    have runs : exec i s = .next (captureCommand s cmd) := by fin_cases cmd <;> rfl
    refine ⟨captureCommand s cmd, runs, to_.state, to_.cfg, to_.grids, to_.warps, to_.wgs, to_.same, fun reset busy => ?_⟩
    subst reset
    exact (capReset_clears busy).2
  case samples =>
    intro key sm k due taken
    refine ⟨stallSample_skips, fun hon hst hdue => ⟨stallSample_empty hon hst hdue, fun hw hx ht => ?filtered,
      fun w hw => (stallSample_unwritten hon hst hdue hw).1, fun w hw => (stallSample_unwritten hon hst hdue hw).2,
      fun ht h1 h2 hc hm _ hp hl hr => ⟨fun pc name kind hw hx hn => ?exited, fun w hw hn => ?warp⟩⟩⟩
    case filtered =>
      obtain ⟨⟨pc, name, kind⟩, hx⟩ := Option.ne_none_iff_exists'.1 hx
      have e := stallSample_exited hon hst hdue hw hx
      rw [capRecord_filtered ht] at e
      exact e
    case exited => exact sampleWrites_exited hon hdue h1 h2 ht hc hm hr hp hw hx hn
    case warp =>
      obtain ⟨issued, waits⟩ := sampleWrites_slot hon hdue h1 h2 ht hc hm hr hp hl hw hn
      exact ⟨issued, fun hi y hy => sampleWrites_waiting (waits hi).1 ((waits hi).2 y hy)⟩
  case set => exact ⟨_, rfl, rfl, fun k => tget_dbgApply s ctx k _⟩
  case clear => exact ⟨_, rfl, rfl, fun k => tget_dbgApply s ctx k _⟩
  case resume =>
    refine ⟨_, rfl, rfl, fun k w hw hs => ?_⟩
    have there := tget_dbgApply s ctx k resumeParked
    rw [hw, Option.map_some] at there
    refine ⟨_, there, ?_⟩
    obtain ⟨rest, threads, stands⟩ := resumeParked_spec hs
    by_cases named : dbgNamed s ctx w = true
    · simp only [named, if_true, true_and]
      exact ⟨rest, threads, stands, fun h => absurd h.symm Bool.false_ne_true⟩
    · simp only [named]
      refine ⟨by simp, fun l _ => by simp, fun h => absurd h (by simp), fun _ => by simp⟩
  case release => exact releaseHolds_spec s ctx

end Sys2Proof.Machine

/-! PROOF. Registers of warps (02 R49 to R51, R56, R57, R62, 13 R211 to R214): deposits in the registers of other warps,
granules that come and go, and the values that a block-uniform register may show. -/

namespace Sys2Proof.Machine

/-! A word that changes its warp and lets its lanes go on. -/

@[simp] theorem clearPass_arrive (w : Warp) : (clearPass w).arrive = w.arrive := by rw [clearPass_other]

@[simp] theorem clearPass_age (w : Warp) : (clearPass w).age = w.age := by rw [clearPass_other]

/-- Lanes that go on move, and of the warp nothing else changes. -/
theorem goOn_other (w w1 : Warp) : goOn w w1 = { w1 with threads := (goOn w w1).threads, act := (goOn w w1).act } := by
  unfold goOn setPC modLanes
  dsimp only
  split <;> rfl

section
variable (w w1 : Warp)
@[simp] theorem goOn_v : (goOn w w1).v = w1.v := by rw [goOn_other]
@[simp] theorem goOn_w : (goOn w w1).w = w1.w := by rw [goOn_other]
@[simp] theorem goOn_spoilt : (goOn w w1).spoilt = w1.spoilt := by rw [goOn_other]
@[simp] theorem goOn_claimed : (goOn w w1).claimed = w1.claimed := by rw [goOn_other]
@[simp] theorem goOn_sstep : (goOn w w1).sstep = w1.sstep := by rw [goOn_other]
@[simp] theorem rd_goOn (f : Fld) (l : Nat) : rd (goOn w w1) f l = rd w1 f l := by simp [rd]
end

/-- A word that keeps its threads and rolls none of them back lets the active lanes go on (R94, R95). -/
theorem goesOn_goOn {w w1 : Warp} (still : stillThere (clearPass w) w1 = w.act)
    (threads : w1.threads = (clearPass w).threads) (act : w1.act = w.act) : GoesOn w (goOn (clearPass w) w1) := by
  have moved (l : Nat) : thr (setPC w1 w.act (nextPC w)) l = (thr w l).map (fun x =>
      if w.act.getLsbD l then { x with pc := nextPC w, pass1 := false } else x) := by
    have e : thr w1 l = thr (clearPass w) l := by rw [thr, thr, threads]
    rw [setPC, thr_modLanes, e, thr_clearPass, Option.map_map]
    congr 1
    funext x
    simp only [Function.comp]
    split <;> rfl
  rw [goOn, still, nextPC_clearPass]
  by_cases last : (nextPC w).idx = 0
  · simp only [if_pos last]
    exact ⟨moved, (if_pos last).symm⟩
  · simp only [if_neg last]
    exact ⟨moved, act.trans (if_neg last).symm⟩

/-- Outside single-step mode such a word is then counted (R64). -/
theorem finishEff_next {s u : State} {k : Nat} {w w1 : Warp} (h : tget u.warps k = some w1) (hs : w1.sstep = false) :
    finishEff s k (clearPass w) (.next u) = countRetired (setWarp u k (goOn (clearPass w) w1)) w.wg := by
  have quiet : (goOn (clearPass w) w1).sstep = false := (goOn_sstep ..).trans hs
  simp only [finishEff, h]
  rw [retire_plain _ _ _ _ (tget_tput_self ..) quiet, clearPass_wg]

/-! Registers across warps (R62, R211, R212). -/

/-- What RWRITE does where every target passes its checks (R211). -/
theorem rwrite_deposits {s : State} {k : Nat} {w : Warp} {n a b : Fld} {tg : Nat → Nat × Nat} (hm : NoMember w)
    (h : Issues s k w [a, b])
    (ok : ∀ l, w.act.getLsbD l = true → rwTarget (issued s k w) w.wg n (rd w a l) = .ok (tg l)) :
    Does (.rwrite n a b) s k w (.next (rwDeposit (issued s k w) n
      ((lanesOf w.act).map (fun l => ((tg l).1, (tg l).2, rd w b l))))) := by
  have d := does_of_laneWord (i := .rwrite n a b) h (Eq.refl (execRwrite n a b s))
  have target {l : Nat} (hl : l ∈ lanesOf w.act) := ok l (mem_lanesOf.1 hl).2
  simp only [noTake, activeMember_eq_none hm, clearPass_act, clearPass_wg, rd_clearPass] at d
  rw [List.findSome?_eq_none_iff.2 (fun l hl => by rw [target hl])] at d
  have deposits : (lanesOf w.act).filterMap (fun l => match rwTarget (issued s k w) w.wg n (rd w a l) with
      | .error _ => none
      | .ok (k, t) => some (k, t, rd w b l)) = (lanesOf w.act).map (fun l => ((tg l).1, (tg l).2, rd w b l)) := by
    rw [← List.filterMap_eq_map']
    exact List.filterMap_congr (fun l hl => by rw [target hl])
  rw [← deposits]
  exact d

/-- Outside a take a deposit writes the register of its lane (R294). -/
theorem deposit_of_take_none {u : Warp} (hu : u.take = none) (n : Fld) (l : Nat) (v : Word) :
    deposit u n l v = wr u n (laneBit l) (fun _ => v) := by
  have e : (wr u n (laneBit l) (fun _ => v)).take = none := (wr_take ..).trans hu
  simp only [deposit, e]

/-- One deposit reaches one warp, whose counter rises (R62). -/
theorem rwDeposit_singleton {s : State} {j : Nat} {u : Warp} (hj : tget s.warps j = some u) (n : Fld) (l : Nat) (v : Word) :
    rwDeposit s n [(j, l, v)] =
      setWarp s j { deposit u n l v with arrive := (deposit u n l v).arrive + 1 } := by
  simp [rwDeposit, hj, setWarp, tput_tput]

theorem rwDeposit_writes {s : State} {j l : Nat} {u : Warp} {n : Fld} (v : Word) (hj : tget s.warps j = some u)
    (hu : u.take = none) (hn : n.toNat < 192) (hl : l < 32) :
    ∃ u1, tget (rwDeposit s n [(j, l, v)]).warps j = some u1 ∧ u1.arrive = u.arrive + 1 ∧ rd u1 n l = v ∧
      (∀ f m, m < 32 → (f ≠ n ∨ m ≠ l) → rd u1 f m = rd u f m) ∧
      (∀ i, i ≠ j → tget (rwDeposit s n [(j, l, v)]).warps i = tget s.warps i) := by
  rw [rwDeposit_singleton hj, deposit_of_take_none hu]
  have own {m : Nat} (hm : m < 32) :
      rd (wr u n (laneBit l) (fun _ => v)) n m = if m = l then v else rd u n m := by
    simp only [rd_wr_self _ _ _ _ _ hm, if_pos hn, getLsbD_laneBit l m hl, decide_eq_true_eq]
  refine ⟨_, tget_tput_self .., congrArg (· + 1) (by rw [wr_other]), (own hl).trans (if_pos rfl),
    fun f m hm other => ?_, fun i hi => tget_tput_ne _ _ hi.symm⟩
  show rd (wr u n (laneBit l) (fun _ => v)) f m = _
  by_cases hf : f = n
  · subst hf
    exact (own hm).trans (if_neg (other.resolve_left (not_not.2 rfl)))
  · exact rd_wr_ne _ _ _ hf hm

/-- A counter has reached a value where their difference, read as a signed word, is not negative (R152, R212). -/
theorem reached_iff (a b : Word) : reached a b = true ↔ 0 ≤ (a - b).toInt := by
  rw [reached, BitVec.msb_eq_toInt]
  simp

/-- What RWAIT does: its active lanes wait unless the counter has reached the operand (R212). -/
theorem does_rwait {s : State} {k : Nat} {w : Warp} {a : Fld} (h : Issues s k w [a]) :
    let x := rd w a (low w)
    let m : Mask := if reached w.arrive x then 0 else w.act
    Does (.rwait a) s k w (if m = 0 then .next (issued s k w)
      else waits (issued s k w) k (clearPass w) (clearPass w) m (.arrive x)) := by
  have d := does_of_laneWord (i := .rwait a) h (Eq.refl (execRwait a s))
  have same : setWarp (issued s k w) k (clearPass w) = issued s k w := setWarp_setWarp ..
  rw [low_clearPass, rd_clearPass, clearPass_arrive, waitSome, same] at d
  rw [← clearPass_act w]
  exact d

/-! Register granules (R49 to R51, R213). -/

theorem granuleMask_iff (m : Fld) : granuleMask m = true ↔ 0 < m.toNat ∧ m.toNat < 16 := by simp [granuleMask]

theorem not_granuleMask {m : Fld} (h : m = 0 ∨ 16 ≤ m.toNat) : ¬ granuleMask m = true := by
  rw [granuleMask_iff]
  rcases h with rfl | h
  · decide
  · omega

/-- A table from which keys have been dropped gives what it gave for the others. -/
theorem tget_filter_key {α : Type} (t : Tbl α) (p : Nat → Bool) (j : Nat) :
    tget (t.filter (fun e => p e.1)) j = if p j then tget t j else none := by
  induction t with
  | nil => simp
  | cons e r ih =>
    obtain ⟨i, x⟩ := e
    by_cases hp : p i = true
    · rw [List.filter_cons_of_pos (p := fun e : Nat × α => p e.1) hp]
      by_cases hi : i = j
      · subst hi
        simp [tget, hp]
      · simp [tget, hi, ih]
    · rw [List.filter_cons_of_neg (p := fun e : Nat × α => p e.1) hp, ih]
      by_cases hi : i = j
      · subst hi
        simp [hp]
      · simp [tget, hi]

/-- Granules that come or go read zero, and every other register reads as before (R49, R51). -/
theorem rd_regranule (w : Warp) (claimed g : BitVec 4) (f : Fld) {l : Nat} (hl : l < 32) :
    rd (regranule w claimed g) f l = if inGranules g f.toNat then 0 else rd w f l := by
  by_cases hf : f.toNat < 192
  · have key : (f.toNat * 32 + l) / 32 = f.toNat := by omega
    have kept := tget_filter_key w.v (fun i => !inGranules g (i / 32)) (f.toNat * 32 + l)
    rw [key] at kept
    simp only [rd, if_pos hf, regranule, zeroGranules, tgetD, kept]
    cases inGranules g f.toNat <;> rfl
  · have out : inGranules g f.toNat = false := by simp [inGranules, hf]
    simp [rd, hf, out, regranule]

/-- What CLAIM does, by its first test that holds (R51, R213). -/
theorem does_claim {s : State} {k : Nat} {w : Warp} (h : Issues s k w []) (m : Fld) :
    let g : BitVec 4 := m.extractLsb' 0 4
    let cr := coreRec s (coreOf k)
    Does (.claim m) s k w (if w.take.isSome then .abort 8
      else if !granuleMask m then .fault 7 0 (low w) 0
      else if g &&& (w.claimed ||| requested s k) ≠ 0 then .fault 0x31 0 (low w) 0
      else if cr.claims.isEmpty && decide (framesUsed (issued s k w) (coreOf k) + granules g ≤ 128) then
        .next (setWarp (issued s k w) k (regranule (clearPass w) (w.claimed ||| g) g))
      else .parked (setWarp (setCore (issued s k w) (coreOf k)
        { cr with claims := cr.claims ++ [(k * 2 ^ 32 + w.act.toNat, g)] }) k
        (beginWait (clearPass w) w.act .claim (nextPC w)))) := by
  have d := does_of_laneWord (i := .claim m) h (Eq.refl (execClaim m s))
  simp only [clearPass_take, low_clearPass, clearPass_claimed, clearPass_act, nextPC_clearPass] at d
  exact d

/-- What GIVE does, by its first test that holds (R51, R213). -/
theorem does_give {s : State} {k : Nat} {w : Warp} (h : Issues s k w []) (m : Fld) :
    let g : BitVec 4 := m.extractLsb' 0 4
    Does (.give m) s k w (if w.take.isSome then .abort 8
      else if !granuleMask m then .fault 7 0 (low w) 0
      else if g &&& ~~~w.claimed ≠ 0 then .fault 0x31 0 (low w) 0
      else if w.pend.any (fun e => inGranules g e.reg.toNat) then .stall
      else .next (grantAll (setWarp (issued s k w) k (regranule (clearPass w) (w.claimed &&& ~~~g) g)) (coreOf k))) := by
  have d := does_of_laneWord (i := .give m) h (Eq.refl (execGive m s))
  simp only [clearPass_take, low_clearPass, clearPass_claimed, clearPass_pend] at d
  exact d

/-- A claim that is granted at once: the warp holds the granules, which read zero, and goes on (R51). -/
theorem claim_grants {s : State} {k : Nat} {w : Warp} {m : Fld} {g : BitVec 4} (ht : w.take = none) (hs : w.sstep = false)
    (d : Does (.claim m) s k w (.next (setWarp (issued s k w) k (regranule (clearPass w) (w.claimed ||| g) g)))) :
    ∃ t w2, exec (.claim m) s = .next t ∧ OnlyWarp s t k w w2 ∧ GoesOn w w2 ∧ w2.claimed = w.claimed ||| g ∧
      (∀ f l, l < 32 → rd w2 f l = if inGranules g f.toNat then 0 else rd w f l) := by
  let c := regranule (clearPass w) (w.claimed ||| g) g
  have quiet : c.sstep = false := (clearPass_sstep w).trans hs
  have still : stillThere (clearPass w) c = w.act := by simp [stillThere, ht]
  rw [Does, finishEff_next (tget_tput_self ..) quiet, setWarp_setWarp, issued, setWarp_setWarp] at d
  refine ⟨_, _, d, onlyWarp_count .., goesOn_goOn still rfl (clearPass_act w), goOn_claimed .., fun f l hl => ?_⟩
  rw [rd_goOn, rd_regranule _ _ _ _ hl, rd_clearPass]

/-- A register of a granule that is not held is no operand (R50). -/
theorem heldAll_eq_false {w : Warp} {regs : List Fld}
    (h : ∃ f ∈ regs, 64 ≤ f.toNat ∧ f.toNat < 192 ∧ w.claimed.getLsbD ((f.toNat - 64) / 32) = false) :
    heldAll w regs = false := by
  obtain ⟨f, hf, low, high, out⟩ := h
  rw [heldAll, List.all_eq_false]
  exact ⟨f, hf, by simp [out]; omega⟩

/-- A word that names such a register faults with 0x30 (R50). -/
theorem laneWord_notHeld {s : State} {k : Nat} {w : Warp} {regs : List Fld} (body : State → Nat → Warp → Eff)
    (ht : s.issuer = .warp k) (hw : tget s.warps k = some w) (hp : anyPending w regs = false) (hc : abpLanes s w = 0)
    (hh : heldAll w regs = false) : laneWord s regs body =
      .next (faultLane s k w ((lowest w.act).getD 0) 0x30 0 0 (wordAddr (curPC w))) := by
  rw [laneWord_next regs body ht hw]
  simp [issueWord, hp, hc, hh]

/-! Block-uniform registers (R56, R57, R214). -/

/-- The record of a register after a write: its value, who wrote it in the phase, and what it had in the phase (R56). -/
theorem bPut_record (g : Workgroup) (n age : Nat) (v : Word) :
    ∃ olds, bPut g n age v = { g with b := tput g.b n ⟨v, olds, g.phase, age⟩ } := ⟨_, rfl⟩

theorem bOptions_of_some {g : Workgroup} {n : Nat} {b : BReg} (h : tget g.b n = some b) (reader : Option Nat) :
    bOptions g n reader = if b.phase = g.phase ∧ reader ≠ some b.writer then b.val :: b.olds else [b.val] := by
  simp only [bOptions, h]

/-- After a write its own warp sees the value, every reader does once the phase has ended, each may see it before, and no
other register is touched (R57). -/
theorem bOptions_bPut (g : Workgroup) (n age : Nat) (v : Word) : bOptions (bPut g n age v) n (some age) = [v] ∧
    (∀ reader, bOptions { bPut g n age v with phase := g.phase + 1 } n reader = [v]) ∧
    (∀ reader, v ∈ bOptions (bPut g n age v) n reader) ∧
    (∀ m reader, m ≠ n → bOptions (bPut g n age v) m reader = bOptions g m reader) := by
  obtain ⟨olds, e⟩ := bPut_record g n age v
  have own (t : Tbl BReg) (b : BReg) : tget (tput t n b) n = some b := tget_tput_self ..
  rw [e]
  refine ⟨?_, fun reader => ?_, fun reader => ?_, fun m reader hm => ?_⟩
  · rw [bOptions_of_some (own ..), if_neg (fun both => both.2 rfl)]
  · rw [bOptions_of_some (own ..), if_neg (fun both => absurd both.1 (by simp))]
  · rw [bOptions_of_some (own ..)]
    split
    · exact List.mem_cons_self
    · exact List.mem_singleton_self v
  · simp only [bOptions, tget_tput_ne _ _ hm.symm]

/-- What BMOV to a block-uniform register does (R56, R214). -/
theorem does_bmovWrite {s : State} {k : Nat} {w : Warp} {g : Workgroup} {d a : Fld} (hg : tget s.wgs w.wg = some g)
    (hm : NoMember w) (h : Issues s k w [a]) : Does (.bmovWrite d a) s k w
      (if (match tget g.b d.toNat with
          | some b => decide (b.phase = g.phase ∧ b.writer ≠ w.age)
          | none => false) then .fault 0x32 0 (low w) 0
        else .next (setWg (issued s k w) w.wg (bPut g d.toNat w.age (rd w a (low w))))) := by
  have e := does_of_laneWord (i := .bmovWrite d a) h (Eq.refl (execBmovWrite d a s))
  have own : tget (issued s k w).wgs w.wg = some g := hg
  simp only [noTake, activeMember_eq_none hm, clearPass_wg, own, clearPass_age, low_clearPass, rd_clearPass] at e
  exact e

theorem choicesTaken_other (s : State) (wg n : Nat) : choicesTaken s wg n =
    { s with choices := (choicesTaken s wg n).choices, ctxs := (choicesTaken s wg n).ctxs } := by
  unfold choicesTaken
  split <;> rfl

theorem bOptions_ne_nil (g : Workgroup) (n : Nat) (reader : Option Nat) : bOptions g n reader ≠ [] := by
  unfold bOptions
  split
  · exact List.cons_ne_nil _ _
  · split <;> exact List.cons_ne_nil _ _

/-- A read gives one of the values that its reader may see, and takes a free choice at most (R57). -/
theorem bRead_spec {s : State} {wg : Nat} {g : Workgroup} (hg : tget s.wgs wg = some g) (n : Nat) (reader : Option Nat) :
    ∃ v c x, bRead s wg n reader = (v, { s with choices := c, ctxs := x }) ∧ v ∈ bOptions g n reader := by
  have some_ := bOptions_ne_nil g n reader
  simp only [bRead, hg]
  generalize bOptions g n reader = o at some_
  split
  · obtain ⟨v, r, rfl⟩ := List.exists_cons_of_ne_nil some_
    exact ⟨v, s.choices, s.ctxs, rfl, List.mem_cons_self⟩
  · have bound : Config.choice (choiceBase s wg) % o.length < o.length := Nat.mod_lt _ (List.length_pos_iff.2 some_)
    refine ⟨_, _, _, congrArg (Prod.mk _) (choicesTaken_other s wg 1), ?_⟩
    rw [chooseFor, List.getD_eq_getElem _ _ bound]
    exact List.getElem_mem bound

/-- BMOV from a block-uniform register writes one of those values to D (R57, R214). -/
theorem bmovRead_writes {s : State} {k : Nat} {w : Warp} {g : Workgroup} {d a : Fld} (hg : tget s.wgs w.wg = some g)
    (hs : w.sstep = false) (h : Issues s k w [d]) : ∃ t w1 v, exec (.bmovRead d a) s = .next t ∧
      v ∈ bOptions g a.toNat (some w.age) ∧ tget t.warps k = some w1 ∧ GoesOn w w1 ∧ WroteReg w w1 d (fun _ => v) ∧
      t = { s with warps := t.warps, wgs := t.wgs, choices := t.choices, ctxs := t.ctxs } := by
  obtain ⟨v, c, x, read, seen⟩ := bRead_spec (s := issued s k w) hg a.toNat (some w.age)
  have e := does_of_laneWord (i := .bmovRead d a) h (Eq.refl (execBmovRead d a s))
  rw [clearPass_wg, clearPass_age, read] at e
  dsimp only at e
  have keeps : Keeps (clearPass w) (mapLanes (clearPass w) d (fun _ => v)) :=
    ⟨wr_threads .., wr_act .., by rw [mapLanes, wr_other]⟩
  have still := (stillThere_keeps keeps).trans (clearPass_act w)
  have quiet : (mapLanes (clearPass w) d (fun _ => v)).sstep = false := (wr_sstep ..).trans ((clearPass_sstep w).trans hs)
  have wrote : mapLanes (clearPass w) d (fun _ => v) = wr (clearPass w) d w.act (fun _ => v) := by
    rw [mapLanes, clearPass_act]
  have once (y : Warp) : setWarp { issued s k w with choices := c, ctxs := x } k y =
      setWarp { s with choices := c, ctxs := x } k y := setWarp_setWarp { s with choices := c, ctxs := x } k (clearPass w) y
  rw [Does, finishEff_next (tget_tput_self ..) quiet, setWarp_setWarp, once] at e
  have only := onlyWarp_count { s with choices := c, ctxs := x } k w (goOn (clearPass w) (mapLanes (clearPass w) d (fun _ => v)))
  generalize countRetired _ w.wg = t at e only
  refine ⟨t, _, v, e, seen, only.slot, goesOn_goOn still keeps.threads (keeps.act.trans (clearPass_act w)), ?_, ?_⟩
  · exact wroteReg_wr w _ d (fun _ => v) _ ((goOn_v ..).trans (congrArg Warp.v wrote))
      ((goOn_w ..).trans (congrArg Warp.w wrote)) ((goOn_spoilt ..).trans (congrArg Warp.spoilt wrote)) (fun _ _ => rfl)
  · rw [only.rest]

/-- Settles O19: each word by its first test that holds; a deposit, a grant and a read by what they leave. -/
theorem registersOfWarps : Obligations.RegistersOfWarps := by
  unfold Obligations.RegistersOfWarps
  refine ⟨fun s k w n a b d => ⟨fun tg hm h ok => rwrite_deposits hm h ok,
    fun j l v u hj hu hn hl => rwDeposit_writes v hj hu hn hl, fun h => ⟨fun hr => ?reached, fun hr ha => ?waits⟩,
    fun hs h => warpWord_writes h hs d (fun w _ => w.arrive) _ rfl (fun _ _ => clearPass_arrive w)⟩,
    fun s k w m => ⟨fun h => ⟨fun ht => ?take, fun ht hm => ?mask, fun ht hlo hhi => ?granules⟩,
      fun regs body turn slot free clear out => laneWord_notHeld body turn slot free clear (heldAll_eq_false out)⟩,
    fun s k w g d a hg => ⟨fun h hm => ⟨fun own => ?put, fun b hb hp hw => ?race⟩, bOptions_bPut g,
      fun hs h => bmovRead_writes hg hs h⟩⟩
  case reached =>
    have d := does_rwait h
    dsimp only at d
    rwa [if_pos ((reached_iff ..).2 hr), if_pos rfl] at d
  case waits =>
    have d := does_rwait h
    have no : ¬ reached w.arrive (rd w a (low w)) = true := by rw [reached_iff]; omega
    dsimp only at d
    rwa [if_neg no, if_neg ha] at d
  case take =>
    have c := does_claim h m
    have g := does_give h m
    dsimp only at c g
    rw [if_pos ht] at c g
    exact ⟨c, g⟩
  case mask =>
    have c := does_claim h m
    have g := does_give h m
    have wrong : (!granuleMask m) = true := by simpa using not_granuleMask hm
    dsimp only at c g
    rw [ht, Option.isSome_none, if_neg Bool.false_ne_true, if_pos wrong] at c g
    exact ⟨c, g⟩
  case granules =>
    have c := does_claim h m
    have g := does_give h m
    have right : ¬ (!granuleMask m) = true := by simpa using (granuleMask_iff m).2 ⟨hlo, hhi⟩
    dsimp only at c g
    rw [ht, Option.isSome_none, if_neg Bool.false_ne_true, if_neg right] at c g
    refine ⟨fun held => ?_, fun lacks => ?_, fun new => ⟨fun none_ room hs => ?_, fun full => ?_⟩, fun own idle => ?_⟩
    · rwa [if_pos held] at c
    · rwa [if_pos lacks] at g
    · rw [if_neg (not_not.2 new), if_pos (by simp [none_, room])] at c
      exact claim_grants ht hs c
    · have queued : ¬ ((coreRec s (coreOf k)).claims.isEmpty &&
          decide (framesUsed (issued s k w) (coreOf k) + granules (m.extractLsb' 0 4) ≤ 128)) = true := by
        rw [Bool.and_eq_true, List.isEmpty_iff, decide_eq_true_eq]
        exact fun both => full.elim (· both.1) (not_lt.2 both.2)
      rwa [if_neg (not_not.2 new), if_neg queued] at c
    · rw [if_neg (not_not.2 own), if_neg (ne_true_of_eq_false idle), regranule, clearPass_v, clearPass_spoilt] at g
      exact g
  case put =>
    have e := does_bmovWrite (d := d) hg hm h
    rwa [if_neg] at e
    split
    · next b hb => simpa using own b hb
    · exact Bool.false_ne_true
  case race =>
    have e := does_bmovWrite (d := d) hg hm h
    rwa [hb, if_pos (decide_eq_true ⟨hp, hw⟩)] at e

end Sys2Proof.Machine

/-! PROOF. Matrix operations (15 R226 to R230, R236 to R239, 05 R86): what a tile reads once it has been replaced, and the
tile that MMA, MMAS, MMA32 and CONV write where their checks find nothing. -/

namespace Sys2Proof.Machine

/-! Tables that are put together. -/

/-- Two tables one after the other: what the first lists goes before. -/
theorem tget_append {α : Type} (t u : Tbl α) (k : Nat) : tget (t ++ u) k = (tget t k).or (tget u k) := by
  induction t with
  | nil => simp
  | cons e r ih =>
    obtain ⟨j, v⟩ := e
    rw [List.cons_append, tget, tget, ih]
    split <;> simp

/-- A run of n values from key b on, without those that are the default. -/
theorem tget_listed {α : Type} [DecidableEq α] (d : α) (h : Nat → α) (b n k : Nat) :
    tget (((List.range n).map (fun m => (b + m, h m))).filter (fun e => e.2 != d)) k =
      if b ≤ k ∧ k < b + n ∧ h (k - b) ≠ d then some (h (k - b)) else none := by
  induction n with
  | zero => rw [if_neg (by omega)]; rfl
  | succ n ih =>
    have last : tget ([(b + n, h n)].filter (fun e => e.2 != d)) k =
        if b + n = k ∧ h n ≠ d then some (h n) else none := by
      by_cases hz : h n = d
      · simp [hz]
      · simp [tget, hz]
    rw [List.range_succ, List.map_append, List.filter_append, tget_append, ih, List.map_singleton, last]
    by_cases hk : b + n = k
    · subst hk
      simp
    · simp only [hk, false_and, if_false, Option.or_none]
      exact if_congr (and_congr_right fun _ => and_congr_left fun _ => by omega) rfl rfl

/-! Fields at the ends of a bit string. -/

theorem field_top {n : Nat} (x : BitVec n) {hi lo : Nat} (h : hi - lo + 1 + lo = n) : field x hi lo = x.toNat / 2 ^ lo := by
  have bound : x.toNat / 2 ^ lo < 2 ^ (hi - lo + 1) := by
    rw [Nat.div_lt_iff_lt_mul (Nat.two_pow_pos lo), ← Nat.pow_add, h]
    exact x.isLt
  rw [field, BitVec.extractLsb'_toNat, Nat.shiftRight_eq_div_pow, Nat.mod_eq_of_lt bound]

theorem field_bottom {n : Nat} (x : BitVec n) (hi : Nat) : field x hi 0 = x.toNat % 2 ^ (hi + 1) := by
  rw [field, BitVec.extractLsb'_toNat, Nat.shiftRight_zero, Nat.sub_zero]

/-! Tiles. -/

/-- What the accumulators list once a tile has been replaced: before its place, in it and after it. -/
theorem tgetD_setTile_acc (q : Seq) (t k : Nat) (g : Nat → Nat → Word) :
    tgetD 0 (setTile q t g).acc k =
      if t * 16384 ≤ k ∧ k < (t + 1) * 16384 then g ((k - t * 16384) / 128) ((k - t * 16384) % 128)
      else tgetD 0 q.acc k := by
  have before := tget_filter_key q.acc (fun j => decide (j < t * 16384)) k
  have after := tget_filter_key q.acc (fun j => decide ((t + 1) * 16384 ≤ j)) k
  have tile := tget_listed 0 (fun n => g (n / 128) (n % 128)) (t * 16384) 16384 k
  simp only [decide_eq_true_eq] at before after
  unfold setTile tgetD
  dsimp only [storeClean]
  rw [tget_append, tget_append, before, after, tile]
  rcases Nat.lt_or_ge k (t * 16384) with lo | lo
  · simp [lo, Nat.not_le.2 lo, show ¬ (t + 1) * 16384 ≤ k by omega]
  · rcases Nat.lt_or_ge k ((t + 1) * 16384) with hi | hi
    · have own : k < t * 16384 + 16384 := by omega
      by_cases hz : g ((k - t * 16384) / 128) ((k - t * 16384) % 128) = 0#32
      · simp [lo, hi, own, Nat.not_lt.2 lo, Nat.not_le.2 hi, hz]
      · simp [lo, hi, own, Nat.not_lt.2 lo, Nat.not_le.2 hi, hz]
    · have beyond : ¬ k < t * 16384 + 16384 := by omega
      simp [hi, beyond, Nat.not_lt.2 lo, Nat.not_lt.2 hi]

/-- A replaced tile reads its new elements, every other tile what it read. -/
theorem accAt_setTile (q : Seq) (t t1 : Nat) (g : Nat → Nat → Word) {i j : Nat} (hi : i < 128) (hj : j < 128) :
    accAt (setTile q t g) t1 i j = if t1 = t then g i j else accAt q t1 i j := by
  rw [accAt, tgetD_setTile_acc]
  by_cases e : t1 = t
  · subst e
    have row : (t1 * 16384 + i * 128 + j - t1 * 16384) / 128 = i := by omega
    have column : (t1 * 16384 + i * 128 + j - t1 * 16384) % 128 = j := by omega
    rw [if_pos (by omega), if_pos rfl, row, column]
  · rw [if_neg (by omega), if_neg e]
    rfl

/-- A tile has 128 rows and 128 columns: what replaces it counts there alone. -/
theorem setTile_congr (q : Seq) (t : Nat) {g h : Nat → Nat → Word} (e : ∀ i < 128, ∀ j < 128, g i j = h i j) :
    setTile q t g = setTile q t h := by
  have tile : (List.range 16384).map (fun n => (t * 16384 + n, g (n / 128) (n % 128))) =
      (List.range 16384).map (fun n => (t * 16384 + n, h (n / 128) (n % 128))) :=
    List.map_congr_left (fun n hn => by
      have hn := List.mem_range.1 hn
      rw [e (n / 128) (by omega) (n % 128) (by omega)])
  unfold setTile
  rw [tile]

theorem getD_map_range {α : Type} (f : Nat → α) (d : α) {i n : Nat} (h : i < n) :
    ((List.range n).map f).getD i d = f i := by
  simp [h]

/-- The elements of a tile after a matrix operation (R236). -/
theorem accAt_mmaTile (q : Seq) (t kk : Nat) (a b : Nat → Nat → FVal) (t1 : Nat) {i j : Nat} (hi : i < 128)
    (hj : j < 128) :
    accAt (mmaTile q t kk a b) t1 i j =
      if t1 = t then accumulate (accAt q t i j) ((List.range kk).map (a i)) ((List.range kk).map (fun k => b k j))
      else accAt q t1 i j := by
  unfold mmaTile
  dsimp only
  rw [accAt_setTile q t t1 _ hi hj, getD_map_range _ _ hi, getD_map_range _ _ hj]

/-! Checks that find nothing (R229). -/

/-- The record of A is well formed and names elements of LM that may be read. -/
structure RowsSound (s : State) (q : Seq) (r : BitVec 512) (ds : List (List Nat)) : Prop where
  shape : shapeBad r = false
  place : lmShapeBad r = false
  data : operandBad s q.wg r ds = none

/-- The n bytes of a panel at a weight-buffer offset and a tile of the accumulators may be read. -/
structure StoreSound (q : Seq) (t offset n : Nat) : Prop where
  range : wbBad offset n = false
  panel : wbSpoilt q offset n = false
  tile : accSpoilt q t = false

theorem StoreSound.clean {q : Seq} {t offset n : Nat} (h : StoreSound q t offset n) :
    (wbSpoilt q offset n || accSpoilt q t) = false := by
  rw [h.panel, h.tile]
  rfl

/-! The operations. -/

/-- The element of A that a convolution reads: past the last image +0, in the padding the record's value, else what LM
holds (R239). -/
def convElem (s : State) (q : Seq) (r : BitVec 512) (t koff i k : Nat) : FVal :=
  match convAt r t koff i k with
  | none => .fin false 0 0
  | some none => padValue r
  | some (some d) => elemRead s q.wg r d

section
variable {s : State} {c : Nat} {q : Seq} (ht : s.issuer = .seq c) (hq : seqOf s c = some q)
include ht hq

/-- MMA, and MMAS whose panel has no nibble that R227 refuses. -/
theorem mmaWord_tile (f : BitVec 3) (x y z w : BitVec 4) (sparse : Bool) :
    let kk := sufK f.toNat
    let r := shReg s q.wg y.toNat
    let qk := (qReg q w).toNat
    let qb := (qReg q z).toNat
    let sc := scaledOp f.toNat r
    let bf := sufB f.toNat
    RowsSound s q r ((List.range 128).flatMap (fun i => (List.range kk).map (fun k => aIdx r i (qk + k)))) →
    StoreSound q x.toNat qb (panelBytes bf kk sparse sc) → shRank r = 2 → (sufA f.toNat).contains (shFmt r) = true →
    (shTrans r = true → isTE (shFmt r) = false) → qk % 16 = 0 → (sparse && panelBad q bf kk qb) = false →
    mmaWord f x y z w sparse s = .next (seqGo (seqNumber (setSeq s c (mmaTile q x.toNat kk
      (fun i k => aElem s q.wg r (aIdx r i (qk + k))) (if sparse then sparseB q bf kk qb sc else denseB q bf kk qb sc))) c)
      c (seqNext q)) := by
  intro kk r qk qb sc bf rows store rank format trans aligned nibbles
  refine seqWord_op ht hq ?_
  have record : (shapeBad r || shRank r != 2 || !(sufA f.toNat).contains (shFmt r) || lmShapeBad r ||
      (shTrans r && isTE (shFmt r))) = false := by
    rw [rows.shape, rank, format, rows.place]
    simpa using trans
  dsimp only
  rw [if_neg (ne_true_of_eq_false record), if_neg (not_not.2 aligned), if_neg (ne_true_of_eq_false store.range), rows.data]
  dsimp only
  rw [if_neg (ne_true_of_eq_false store.clean), if_neg (ne_true_of_eq_false nibbles)]

/-- MMA32: the slices of 16 FP32 elements of A and B are added to each element of the tile (R238). -/
theorem execMma32_tile (x y z w : BitVec 4) :
    let r := shReg s q.wg y.toNat
    let qk := (qReg q w).toNat
    let qb := (qReg q z).toNat
    RowsSound s q r ((List.range 128).flatMap (fun i => (List.range 16).map (fun k => aIdx r i (qk + k)))) →
    StoreSound q x.toNat qb 8192 → shRank r = 2 → shFmt r = shFp32 → qk % 16 = 0 →
    execMma32 x y z w s = .next (seqGo (seqNumber (setSeq s c (setTile q x.toNat (fun i j =>
      accumulate32 (accAt q x.toNat i j) ((List.range 16).map (fun k => aBits s q.wg r (aIdx r i (qk + k))))
        ((List.range 16).map (fun k => wbNum q (qb + 4 * (j * 16 + k)) 4))))) c) c (seqNext q)) := by
  intro r qk qb rows store rank format aligned
  refine seqWord_op ht hq ?_
  have record : (shapeBad r || shRank r != 2 || shFmt r != shFp32 || lmShapeBad r) = false := by
    rw [rows.shape, rank, format, rows.place]
    rfl
  dsimp only
  rw [if_neg (ne_true_of_eq_false record), if_neg (not_not.2 aligned), if_neg (ne_true_of_eq_false store.range), rows.data]
  dsimp only
  rw [if_neg (ne_true_of_eq_false store.clean)]
  refine congrArg (fun u => SEff.op (setSeq s c u)) (setTile_congr q _ fun i hi j hj => ?_)
  rw [getD_map_range _ _ hi, getD_map_range _ _ hj]

/-- CONV: the pixel tile stands in the high bits of its q register, the offset along K in the low ones (R239). -/
theorem execConv_tile (f : BitVec 3) (x y z w : BitVec 4) :
    let kk := sufK f.toNat
    let r := shReg s q.wg y.toNat
    let t := (qReg q w).toNat / 2 ^ 20
    let koff := (qReg q w).toNat % 2 ^ 20
    let qb := (qReg q z).toNat
    let sc := scaledOp f.toNat r
    let bf := sufB f.toNat
    RowsSound s q r ((List.range 128).flatMap (fun i => (List.range kk).filterMap (fun k => (convAt r t koff i k).join))) →
    StoreSound q x.toNat qb (panelBytes bf kk false sc) → (shRank r = 3 ∨ shRank r = 4) →
    (sufA f.toNat).contains (shFmt r) = true → shTrans r = false → shExt r 0 % kk = 0 → koff % kk = 0 →
    koff + kk ≤ shWinX r * shWinY r * shExt r 0 →
    execConv f x y z w s = .next (seqGo (seqNumber (setSeq s c (mmaTile q x.toNat kk (convElem s q r t koff)
      (denseB q bf kk qb sc))) c) c (seqNext q)) := by
  intro kk r t koff qb sc bf rows store rank format trans channels aligned window
  refine seqWord_op ht hq ?_
  have record : (shapeBad r || !(shRank r == 3 || shRank r == 4) || !(sufA f.toNat).contains (shFmt r) || lmShapeBad r ||
      shTrans r || shExt r 0 % kk != 0) = false := by
    rw [rows.shape, format, rows.place, trans, channels]
    simpa [or_iff_not_imp_left] using rank
  have high : field (qReg q w) 31 20 = t := field_top _ (by decide)
  have low : field (qReg q w) 19 0 = koff := field_bottom _ _
  dsimp only
  rw [high, low, if_neg (ne_true_of_eq_false record), if_neg (not_or.2 ⟨not_not.2 aligned, Nat.not_lt.2 window⟩),
    if_neg (ne_true_of_eq_false store.range), rows.data]
  dsimp only
  rw [if_neg (ne_true_of_eq_false store.clean)]
  rfl

end

/-- Settles O35, from the element of a replaced tile and from the tile that each operation writes. -/
theorem matrixOperations : Obligations.MatrixOperations := by
  unfold Obligations.MatrixOperations
  refine ⟨fun s c q ht hq f x y z w => ⟨fun shape rank place aligned tile => ⟨fun format trans data =>
    ⟨fun range panel => ?mma, fun range panel nibbles => ?mmas⟩, fun format data range panel => ?mma32⟩,
    fun shape rank format place trans channels aligned window data range panel tile => ?conv⟩,
    fun q t kk a b t1 i j hi hj => accAt_mmaTile q t kk a b t1 hi hj⟩
  case mma =>
    exact mmaWord_tile ht hq f x y z w false ⟨shape, place, data⟩ ⟨range, panel, tile⟩ rank format
      trans aligned rfl
  case mmas =>
    exact mmaWord_tile ht hq f x y z w true ⟨shape, place, data⟩ ⟨range, panel, tile⟩ rank format
      trans aligned nibbles
  case mma32 =>
    exact execMma32_tile ht hq x y z w ⟨shape, place, data⟩ ⟨range, panel, tile⟩ rank format aligned
  case conv =>
    exact execConv_tile ht hq f x y z w ⟨shape, place, data⟩ ⟨range, panel, tile⟩ rank format
      trans channels aligned window

end Sys2Proof.Machine


/-! PROOF. Decoding inverts encoding (07 R100 to R109, 25 R366, 27 R387 to R389): the lemmas of the single instructions put
together, and what a packet's header and body words give back. -/

namespace Sys2Proof.Laws.RoundTrip

/-- Decoding inverts encoding for every instruction: for each constructor by the lemma of its name. -/
theorem statement_holds (i : Instr) : Statement i :=
  Instr.rec (motive := Statement)
    iadd iaddi isub imul imulhs imulhu imad imin imax umin umax iabs ineg iand ior ixor andn inot shl shr sar rotl
    shli shri sari popc clz brev bfx bfi lea add64 sub64 mulw mov movi movhi movl selp icmp fcmp pand por pxor pnot
    pmov ptov fadd faddT fsub fsubT fmul fmulT ffma fmin fmax fabs fneg frnd frcp frsq fsqrt fexp2 flog2 fsin fcos
    fclass hadd2 hmul2 hfma2 hmax2 hmin2 badd2 bmul2 bfma2 cvt tepack teunpk scalex shuf shufup shufdn shufx voteall
    voteany ballot matchLanes redux scan bra brc brx call callx ret reconv reform sleep ldl ldlT stl stlT ldg ldgT stg
    stgT ldk lda strel atom atomc atoml fatom fence barinit bara barw bars rwrite rwait rcount claim give bmovWrite
    bmovRead tlblock tlbunlk acopy bcopy gather tokclr tlwait tlread stashmap stashwb stashinv tspawn futnew futset
    futwait futget futdrop qpop qpush qroom mbxbind nmatch nunmatch keep drop tstat solicit census respond kdirins
    kdirdel kdirlook kdirmig trap getsr setsr bkpt shld shset shcopy wload mzero mma mmas mma32 conv mst mld mact
    sqbar sqwait sqloop sqend sqbra sqtl sqsetLiteral sqsetUniform sqadd spliceMovi addi subi ldc jmp cmpj spliceLoop
    xmit xmitTag recv cmb cmbf fwait fsig packetNop launch claunch feed wake indirect pred packetLoop write copy
    signalWrite signalAdd waitMemory waitTimeline snap tlset sleepExpiry asyncCopyCompletion keyEntryLanding
    censusArrivalPoint trapHandlerFormation streamOperationCompletion flagReread splicerOperationCompletion
    chunkPacketSend networkMatchFire rateLimiterInterval gateTimeout launchConditionsSatisfied pageServiceResume
    gangPlacement gangWaitLimit binAgeLimit binDraw gatherLimit waveFormation mailboxArrival deferredAddApply
    gridCompletion remoteTimeout continuityRound drainDeadline stallSample hwqRingResident parkedConditionCheck
    snapshotBackgroundCopy pendingWriteCompletion clauseIssue exit rjoin nop tend take yield sysret sqhalt spliceNop
    halt endl endloop fetchfence alignmentPulse captureStart captureStop captureFreeze captureReset waitSlotParking
    standInTakeover functionLevelReset wholeDeviceReset thermalThrottle thermalStop temperatureFall splicerStart
    splicerResume splicerAbort spcfgWrite splicerStateWindowWrite chunkDataArrival creditArrival refusalArrival
    taggedMessageArrival verdictArrival congestionNotice memoryPacketArrival censusPacketArrival censusResultArrival
    linkUp linkDown linkErrorWindow lnkerrWrite gateAckArrival gateRefusalArrival gateOpenNoticeArrival
    gateEndNoticeArrival packageLost drain urgentFreeze victimResume kill setSstep clearSstep resumeParked
    releaseHolds doorbellWrite hwqDescriptorWrite contextDescriptorWrite evcfgWrite balanceWrite registerWrite
    liveUpdate resetQueue resetEngine resetPartition resetDie spdmMeasurementRequest spdmCommitMinimum unitReady
    softError hostMemoryAccess fabricGroupReport pageServiceDeclined drainCancel malformedPacketArrival
    powerAllotmentReached i

end Sys2Proof.Laws.RoundTrip

namespace Sys2Proof.Machine

/-! Words of a packet. -/

/-- The header of a packet, from its opcode, the number of its body words and its variant (R387). -/
def headerWord (opc nw sub : Nat) : Word := BitVec.ofNat 32 (opc + nw * 2 ^ 8 + sub * 2 ^ 24)

/-- A field of a number's word, by the digit that it is. -/
theorem field_word {x hi lo v : Nat} (hx : x / 2 ^ lo % 2 ^ (hi - lo + 1) = v := by omega) (hh : hi < 32 := by decide)
    (hl : lo ≤ hi := by decide) : field (BitVec.ofNat 32 x) hi lo = v := (field_ofNat x hh hl).trans hx

/-- The two body words of a number below 2^64, low word first (R387). -/
def numberWords (n : Nat) : List Word := [BitVec.ofNat 32 n, BitVec.ofNat 32 (n / 2 ^ 32)]

theorem wpair_numberWords {n : Nat} (h : n < 2 ^ 64) :
    (wpair (BitVec.ofNat 32 n) (BitVec.ofNat 32 (n / 2 ^ 32))).toNat = n := by
  rw [wpair, BitVec.toNat_append, ← Nat.shiftLeft_add_eq_or_of_lt (BitVec.isLt _), Nat.shiftLeft_eq, BitVec.toNat_ofNat,
    BitVec.toNat_ofNat]
  omega

/-- Every number below 2^64 is that of its two body words. -/
theorem numberWords_eq {n : Nat} (h : n < 2 ^ 64) : ∃ lo hi, numberWords n = [lo, hi] ∧ (wpair lo hi).toNat = n :=
  ⟨_, _, rfl, wpair_numberWords h⟩

/-- Every doubleword is that of its two body words. -/
theorem numberWords_toNat (v : DWord) : ∃ lo hi, numberWords v.toNat = [lo, hi] ∧ wpair lo hi = v :=
  ⟨_, _, rfl, BitVec.eq_of_toNat_eq (wpair_numberWords v.isLt)⟩

/-! The header's checks (R389). -/

theorem headerWord_fields {opc nw sub : Nat} (ho : opc < 256) (hn : nw < 256) (hs : sub < 256) :
    field (headerWord opc nw sub) 7 0 = opc ∧ field (headerWord opc nw sub) 15 8 = nw ∧
      field (headerWord opc nw sub) 23 16 = 0 ∧ field (headerWord opc nw sub) 31 24 = sub :=
  ⟨field_word, field_word, field_word, field_word⟩

/-- A header without reserved bits that gives the right number of words passes to the packet's own decoding. -/
theorem decodePacket_plain {opc nw : Nat} {ws : List Word} (length : ws.length = nw) (byte : nw < 256 := by decide)
    (known : opc ≤ 0x0F := by decide) (signal : opc ≠ 0x0B := by decide) (wait : opc ≠ 0x0C := by decide) :
    decodePacket (headerWord opc nw 0) ws = decodePlain opc ws := by
  subst length
  obtain ⟨opcode, words, reserved, variant⟩ := headerWord_fields (opc := opc) (by omega) byte (show 0 < 256 by decide)
  simp only [decodePacket.eq_def, opcode, words, reserved, variant]
  rw [if_neg (by omega), if_neg (by simp)]
  split <;> simp_all

/-- Only SIGNAL and WAIT have a variant 1, and no packet has a higher one (R388, log 98). -/
theorem decodePacket_unassigned {opc nw sub : Nat} {ws : List Word} (length : ws.length = nw) (high : 2 ≤ sub)
    (byte : sub < 256) (short : nw < 256 := by decide) (known : opc ≤ 0x0F := by decide) :
    decodePacket (headerWord opc nw sub) ws = .error 4 := by
  subst length
  obtain ⟨opcode, words, reserved, variant⟩ := headerWord_fields (opc := opc) (by omega) short byte
  simp only [decodePacket.eq_def, opcode, words, reserved, variant]
  rw [if_neg (by omega), if_neg (by simp)]
  split
  case h_6 => rfl
  all_goals omega

/-- The records of a FEED stand in its body one after the other. -/
theorem feedRecs_flatten (recs : List (List Word)) (h : ∀ x ∈ recs, x.length = 8) :
    feedRecs recs.flatten recs.length = recs := by
  induction recs with
  | nil => rfl
  | cons x r ih =>
    have hx : x.length = 8 := h x (by simp)
    rw [feedRecs, List.length_cons, List.range_succ_eq_map, List.map_cons, List.map_map]
    refine congrArg₂ List.cons ?_ ((List.map_congr_left fun i _ => ?_).trans (ih fun y hy => h y (by simp [hy])))
    · simp [← hx]
    · simp only [Function.comp_apply, List.flatten_cons]
      rw [show 8 * (i + 1) = x.length + 8 * i by omega, ← List.drop_drop]
      simp

/-- What the header's checks refuse, whatever the packet. -/
theorem decodePacket_refused (h : Word) (ws : List Word) :
    (0x0F < field h 7 0 → decodePacket h ws = .error 1) ∧
    (field h 7 0 ≤ 0x0F → field h 23 16 ≠ 0 ∨ field h 15 8 ≠ ws.length → decodePacket h ws = .error 4) := by
  refine ⟨fun unlisted => ?_, fun known bad => ?_⟩ <;> simp only [decodePacket.eq_def]
  · rw [if_pos unlisted]
  · rw [if_neg (Nat.not_lt.2 known), if_pos bad]

/-! Packets of one variant (R388). -/

theorem decodePlain_write (lo hi d : Word) (r : List Word) :
    decodePlain 0x09 (lo :: hi :: d :: r) = .ok (.write (wpair lo hi).toNat (d :: r)) := by
  obtain _ | ⟨_, _ | ⟨_, _ | ⟨_, _⟩⟩⟩ := r <;> rfl

theorem decodePlain_feed (w : Word) (r : List Word) : decodePlain 0x03 (w :: r) = decodeFeed (w :: r) := by
  obtain _ | ⟨_, _ | ⟨_, _ | ⟨_, _ | ⟨_, _ | ⟨_, _⟩⟩⟩⟩⟩ := r <;> rfl

theorem decodePacket_feed {x : Word} {recs : List (List Word)} {core die queue : Nat} (few : recs.length < 32)
    (records : ∀ r ∈ recs, r.length = 8) (count : field x 15 11 = recs.length) (reserved : field x 31 16 = 0)
    (coreNo : field x 5 0 = core) (dieNo : field x 7 6 = die) (queueNo : field x 10 8 = queue) :
    decodePacket (headerWord 0x03 (1 + 8 * recs.length) 0) (x :: recs.flatten) = .ok (.feed core die queue recs) := by
  have length : recs.flatten.length = 8 * recs.length := by
    rw [List.length_flatten, List.map_congr_left records, List.map_const', List.sum_replicate, smul_eq_mul, Nat.mul_comm]
  rw [decodePacket_plain (by rw [List.length_cons, length, Nat.add_comm]) (by omega), decodePlain_feed]
  simp only [decodeFeed, count, reserved, coreNo, dieNo, queueNo, length, ne_eq, not_true_eq_false, or_self, if_false,
    feedRecs_flatten recs records]

theorem decodePacket_wake {x : Word} {core die : Nat} {all : Bool} (reserved : field x 31 9 = 0)
    (coreNo : field x 5 0 = core) (dieNo : field x 7 6 = die) (every : x.getLsbD 8 = all) :
    decodePacket (headerWord 0x04 1 0) [x] = .ok (.wake core die all) := by
  subst coreNo dieNo every
  exact (decodePacket_plain (by rfl)).trans (if_neg (not_not.2 reserved))

theorem decodePacket_loop {x : Word} {n : Nat} (number : x.toNat = n) :
    decodePacket (headerWord 0x07 1 0) [x] = .ok (.packetLoop n) := by
  subst number
  exact decodePacket_plain (by rfl)

theorem decodePacket_waitTimeline (h : Word) (v : DWord) :
    decodePacket (headerWord 0x0C 4 1) ([h, 0] ++ numberWords v.toNat) = .ok (.waitTimeline h v) := by
  obtain ⟨lo, hi, words, rfl⟩ := numberWords_toNat v
  rw [words]
  rfl

theorem decodePacket_tlset (h : Word) (v : DWord) :
    decodePacket (headerWord 0x0F 3 0) (h :: numberWords v.toNat) = .ok (.tlset h v) := by
  obtain ⟨lo, hi, words, rfl⟩ := numberWords_toNat v
  rw [words]
  exact decodePacket_plain (by rfl)

/-! Packets that begin with an address. -/

section
variable {a b : Nat} {x : Word} (ha : a < 2 ^ 64) (hb : b < 2 ^ 64)
include ha

theorem decodePacket_launch {rank : Nat} (reserved : field x 31 12 = 0) (number : field x 11 0 = rank) :
    decodePacket (headerWord 0x01 3 0) (numberWords a ++ [x]) = .ok (.launch a rank) := by
  obtain ⟨lo, hi, words, rfl⟩ := numberWords_eq ha
  subst number
  rw [words]
  exact (decodePacket_plain (by rfl)).trans (if_neg (not_not.2 reserved))

include hb in
theorem decodePacket_claunch (links : Word) {ctx rank : Nat} (reserved : field x 19 3 = 0) (context : field x 2 0 = ctx)
    (number : field x 31 20 = rank) : decodePacket (headerWord 0x02 6 0) (numberWords a ++ [links, x] ++ numberWords b) =
      .ok (.claunch a links ctx rank b) := by
  obtain ⟨lo, hi, words, rfl⟩ := numberWords_eq ha
  obtain ⟨lo', hi', words', rfl⟩ := numberWords_eq hb
  subst context number
  rw [words, words']
  exact (decodePacket_plain (by rfl)).trans (if_neg (not_not.2 reserved))

theorem decodePacket_indirect {n : Nat} (number : x.toNat = n) :
    decodePacket (headerWord 0x05 3 0) (numberWords a ++ [x]) = .ok (.indirect a n) := by
  obtain ⟨lo, hi, words, rfl⟩ := numberWords_eq ha
  subst number
  rw [words]
  exact decodePacket_plain (by rfl)

theorem decodePacket_pred (v : Word) {cond skip : Nat} (below : field x 15 3 = 0) (above : field x 31 24 = 0)
    (condition : field x 2 0 = cond) (count : field x 23 16 = skip) :
    decodePacket (headerWord 0x06 4 0) (numberWords a ++ [v, x]) = .ok (.pred a v cond skip) := by
  obtain ⟨lo, hi, words, rfl⟩ := numberWords_eq ha
  subst condition count
  rw [words]
  exact (decodePacket_plain (by rfl)).trans (if_neg (not_or.2 ⟨not_not.2 below, not_not.2 above⟩))

theorem decodePacket_write {data : List Word} (some : data ≠ []) (short : data.length < 254) :
    decodePacket (headerWord 0x09 (2 + data.length) 0) (numberWords a ++ data) = .ok (.write a data) := by
  obtain ⟨lo, hi, words, rfl⟩ := numberWords_eq ha
  rw [words, decodePacket_plain (by rw [List.length_append]; rfl) (by omega)]
  obtain ⟨d, r, rfl⟩ := List.exists_cons_of_ne_nil some
  exact decodePlain_write lo hi d r

include hb in
theorem decodePacket_copy {n : Nat} (number : x.toNat = n) :
    decodePacket (headerWord 0x0A 5 0) (numberWords a ++ numberWords b ++ [x]) = .ok (.copy a b n) := by
  obtain ⟨lo, hi, words, rfl⟩ := numberWords_eq ha
  obtain ⟨lo', hi', words', rfl⟩ := numberWords_eq hb
  subst number
  rw [words, words']
  exact decodePacket_plain (by rfl)

include hb in
theorem decodePacket_snap {n : Nat} (reserved : field x 31 16 = 0) (number : field x 15 0 = n) :
    decodePacket (headerWord 0x0E 5 0) (numberWords a ++ [x] ++ numberWords b) = .ok (.snap a n b) := by
  obtain ⟨lo, hi, words, rfl⟩ := numberWords_eq ha
  obtain ⟨lo', hi', words', rfl⟩ := numberWords_eq hb
  subst number
  rw [words, words']
  exact (decodePacket_plain (by rfl)).trans (if_neg (not_not.2 reserved))

/-- SIGNAL and WAIT on memory are packets of an address and a value (R388). -/
theorem decodePacket_addressValue (v : DWord) :
    decodePacket (headerWord 0x0B 4 0) (numberWords a ++ numberWords v.toNat) = .ok (.signalWrite a v) ∧
    decodePacket (headerWord 0x0B 4 1) (numberWords a ++ numberWords v.toNat) = .ok (.signalAdd a v) ∧
    decodePacket (headerWord 0x0C 4 0) (numberWords a ++ numberWords v.toNat) = .ok (.waitMemory a v) := by
  obtain ⟨lo, hi, words, rfl⟩ := numberWords_eq ha
  obtain ⟨lo', hi', words', rfl⟩ := numberWords_toNat v
  rw [words, words']
  exact ⟨rfl, rfl, rfl⟩

end

/-- What a WAKE's body word holds (R388). -/
theorem wakeWord_fields {core die : Nat} (hc : core < 64) (hd : die < 4) (all : Bool) :
    let x : Word := BitVec.ofNat 32 (core + die * 2 ^ 6 + (if all then 2 ^ 8 else 0))
    field x 31 9 = 0 ∧ field x 5 0 = core ∧ field x 7 6 = die ∧ x.getLsbD 8 = all := by
  have bit : (if all then 2 ^ 8 else 0) = all.toNat * 2 ^ 8 := by cases all <;> rfl
  have small : all.toNat < 2 := all.toNat_lt
  rw [bit]
  refine ⟨field_word, field_word, field_word, ?_⟩
  have digit : (core + die * 2 ^ 6 + all.toNat * 2 ^ 8) / 2 ^ 8 % 2 = all.toNat := by omega
  rw [BitVec.getLsbD_ofNat, Nat.testBit_eq_decide_div_mod_eq, digit]
  cases all <;> rfl

/-- Settles O56: every instruction's words decode to it, by the lemma of its own; a packet's header passes the checks and its
body words give back each field. -/
theorem decodeInvertsEncode : Obligations.DecodeInvertsEncode := by
  unfold Obligations.DecodeInvertsEncode
  refine ⟨Sys2Proof.Laws.RoundTrip.statement_holds, fun a b v ha hb => ⟨
    fun body short => decodePacket_plain (by rfl) short,
    fun _ hr => decodePacket_launch ha field_word field_word,
    fun links _ hc _ hr => decodePacket_claunch ha hb links field_word field_word field_word,
    fun _ few records _ hc _ hd _ hq => decodePacket_feed few records field_word field_word field_word field_word field_word,
    fun _ hc _ hd all => ?wake, fun _ hn => decodePacket_indirect ha (Nat.mod_eq_of_lt hn),
    fun x _ hc _ hs => decodePacket_pred ha x field_word field_word field_word field_word,
    fun _ hn => decodePacket_loop (Nat.mod_eq_of_lt hn), rfl, fun _ some short => decodePacket_write ha some short,
    fun _ hn => decodePacket_copy ha hb (Nat.mod_eq_of_lt hn),
    (decodePacket_addressValue ha v).1, (decodePacket_addressValue ha v).2.1, (decodePacket_addressValue ha v).2.2,
    fun h => decodePacket_waitTimeline h v, rfl, fun _ hn => decodePacket_snap ha hb field_word field_word,
    fun h => decodePacket_tlset h v,
    fun sub high byte => ⟨decodePacket_unassigned (by rfl) high byte, decodePacket_unassigned (by rfl) high byte⟩⟩,
    decodePacket_refused⟩
  case wake =>
    obtain ⟨reserved, coreNo, dieNo, every⟩ := wakeWord_fields hc hd all
    exact decodePacket_wake reserved coreNo dieNo every

/-- Settles O55: each word is a closed one, and decoding computes. -/
theorem decodedWords : Obligations.DecodedWords := by
  unfold Obligations.DecodedWords
  decide

end Sys2Proof.Machine

/-! PROOF. A step runs what the agent whose turn it is has at hand (log 3; 07 R94, R100, 21 R313, R316, 25 R362, 27 R392,
29 R413): what the arbiter plans for each kind of turn, and what a step makes of its plan. -/

namespace Sys2Proof.Machine

/-! A step and its plan. -/

section
variable {s t : State} {i : Instr}

/-- A step runs the planned instruction in the planned state. -/
theorem step_runs (h : plan s = (some i, t)) :
    (∀ u, exec i t = .next u → step s = .next (finishStep t u)) ∧
      (∀ f, exec i t = .fault f → step s = .fault f) ∧ (∀ f, exec i t = .refused f → step s = .refused f) := by
  refine ⟨fun u e => ?_, fun f e => ?_, fun f e => ?_⟩ <;> simp only [step, h, e]

/-- A step of a package whose clocks stand still passes no clock (29 R413). -/
theorem step_stopped (h : plan s = (none, t)) (stands : t.stopped = true) :
    step s = .next { t with issuer := .none } := by
  simp only [step, h, finishStep, stands, if_true]

end

section
variable {s : State}

theorem plan_turn {x : Turn} {r : List Turn} (runs : s.stopped = false) (noEvent : s.events = [])
    (noRound : s.round = []) (h : s.turns = x :: r) : plan s = planTurn { s with turns := r } false x := by
  simp only [plan, runs, noEvent, noRound, h, Bool.false_eq_true, if_false]

theorem plan_round {x : Turn} {r : List Turn} (runs : s.stopped = false) (noEvent : s.events = [])
    (h : s.round = x :: r) : plan s = planTurn { s with round := r } true x := by
  simp only [plan, runs, noEvent, h, Bool.false_eq_true, if_false]

/-- An event that has come runs as it stands; of a package whose clocks have stopped only whole-device reset does. -/
theorem plan_event {i : Instr} {r : List Instr} (h : s.events = i :: r) (event : isWord i = false)
    (takes : s.stopped = false ∨ i = .wholeDeviceReset) : plan s = (some i, { s with events := r }) := by
  cases runs : s.stopped
  · simp only [plan, runs, h, event, Bool.false_eq_true, if_false]
  · obtain rfl := takes.resolve_left (by rw [runs]; decide)
    simp only [plan, runs, planStopped, h, isRevival, if_true]

theorem isRevival_of_ne {i : Instr} (h : i ≠ .wholeDeviceReset) : isRevival i = false := by
  unfold isRevival
  split
  · exact absurd rfl h
  · rfl

/-- A package whose clocks have stopped lets every other event go. -/
theorem plan_stopped_event {i : Instr} {r : List Instr} (stopped : s.stopped = true) (h : s.events = i :: r)
    (other : i ≠ .wholeDeviceReset) : plan s = (none, { s with events := r }) := by
  simp only [plan, stopped, planStopped, h, isRevival_of_ne other, if_true, Bool.false_eq_true, if_false]

/-- A package whose clocks have stopped lets the turns of its agents go. -/
theorem plan_stopped_turn (stopped : s.stopped = true) (noEvent : s.events = [])
    (agents : ∀ i r, s.turns ≠ .ev i :: r) : plan s = (none, { s with turns := s.turns.tail }) := by
  rw [plan, if_pos stopped, planStopped]
  split
  next arrived => exact absurd (noEvent.symm.trans arrived) (List.cons_ne_nil _ _).symm
  next i r _ turns => exact absurd turns (agents i r)
  next turns => rw [turns, List.tail_cons]
  next turns => exact congrArg (Prod.mk none) (by rw [turns, List.tail_nil, ← turns])

end

/-! The turns of agents. -/

section
variable {s : State} {k : Nat} {w : Warp} {inRound : Bool}

theorem currentWord_eq {x : Word} {i : Instr} (at_ : w.code[(curPC w).idx - 1]? = some x)
    (decodes : decodeLaneWord x w.code[(curPC w).idx]? = .ok i) : currentWord w = some i := by
  simp only [currentWord, at_, decodes]

section
variable (slot : tget s.warps k = some w) (may : mayIssue s w = true) (mode : contOfWg s w.wg = inRound)
  (picked : inRound = true ∨ advances s k = true ∨ standsBack s k w = false ∧ outranked s k w = false)
include slot may mode picked

/-- A warp that has the turn issues the word at which its active lanes stand. -/
theorem warpTurn_word {i : Instr} (active : w.act ≠ 0) (word : currentWord w = some i) :
    warpTurn s k inRound = (some i, { s with issuer := .warp k }) := by
  have free : (!inRound && !advances s k && (standsBack s k w || outranked s k w)) = false := by
    rcases picked with h | h | ⟨h, h'⟩ <;> simp [*]
  have mine : (!mayIssue s w || contOfWg s w.wg != inRound) = false := by simp [may, mode]
  rw [warpTurn, slot]
  dsimp only
  rw [mine, free, if_neg Bool.false_ne_true, if_neg Bool.false_ne_true, if_pos active, word]

/-- A warp between clauses that has the turn issues its next clause; in a round its turn lasts until a
word has issued. -/
theorem warpTurn_clause (idle : w.act = 0) (ready : inRound = true → warpReady s k = true) :
    warpTurn s k inRound = (some .clauseIssue,
      { s with round := if inRound then .warp k :: s.round else s.round, issuer := .warp k }) := by
  have free : (!inRound && !advances s k && (standsBack s k w || outranked s k w)) = false := by
    rcases picked with h | h | ⟨h, h'⟩ <;> simp [*]
  have mine : (!mayIssue s w || contOfWg s w.wg != inRound) = false := by simp [may, mode]
  rw [warpTurn, slot]
  dsimp only
  rw [mine, free, if_neg Bool.false_ne_true, if_neg Bool.false_ne_true, if_neg (not_not.2 idle)]
  cases inRound with
  | false => rfl
  | true => rw [if_pos rfl, if_pos (ready rfl), if_pos rfl]

end

section
variable {c : Nat} {q : Seq} (core : seqOf s c = some q) (runs : wgRuns s q.wg = true) (held : q.held = false)
  (halted : q.halted = false) (mode : contOfWg s q.wg = inRound)
include core runs held halted mode

/-- A sequencer that has the turn issues the word at which it stands. -/
theorem seqTurn_word {x : Word} {i : Instr} (inside : q.pc.idx ≠ 0) (at_ : q.code[q.pc.idx - 1]? = some x)
    (decodes : decodeStreamWord x q.code[q.pc.idx]? = .ok i) :
    seqTurn s c inRound = (some i, { s with issuer := .seq c }) := by
  have word : streamWord q = some i := by simp only [streamWord, at_, decodes]
  have mine : (!wgRuns s q.wg || q.held || q.halted || contOfWg s q.wg != inRound) = false := by
    simp [runs, held, halted, mode]
  rw [seqTurn, core]
  dsimp only
  rw [mine, if_neg Bool.false_ne_true, if_pos inside, word]

/-- A sequencer between clauses issues its next clause. -/
theorem seqTurn_clause (between : q.pc.idx = 0) (outside : inRound = false) :
    seqTurn s c inRound = (some .clauseIssue, { s with issuer := .seq c }) := by
  subst outside
  have mine : (!wgRuns s q.wg || q.held || q.halted || contOfWg s q.wg != false) = false := by
    simp [runs, held, halted, mode]
  rw [seqTurn, core]
  dsimp only
  rw [mine, if_neg Bool.false_ne_true, if_neg (not_not.2 between), Bool.false_and, if_neg Bool.false_ne_true]

end

/-- A context that its splicer chooses issues the word that has been fetched for it. -/
theorem splicerTurn_fetched {v : Word} {i : Instr} (chosen : spChosen s (k / 8) = some k)
    (word : (splRec s k).word = some v) (decodes : decodeSplice v = .ok i) :
    splicerTurn s k = (some i, { setSpl s k (splRec s k) with issuer := .splicer k }) := by
  have at_ : spliceAt s k (splRec s k) = v := by rw [spliceAt, word, Option.getD_some]
  have fetch : spliceFetch s k = .ok i := by
    simp only [spliceFetch, at_, decodes, word, Option.isNone_some, Bool.false_and, Bool.false_eq_true, if_false]
  have taken : spliceTaken s k = setSpl s k (splRec s k) := by
    have kept : (if (splRec s k).word.isNone then s.choices + 1 else s.choices) = s.choices := by rw [word]; rfl
    simp only [spliceTaken, at_, kept]
    rw [← word]
  rw [splicerTurn, if_neg (not_not.2 chosen), fetch, taken]

/-- A context that its splicer chooses fetches its word, once. -/
theorem splicerTurn_fetches {i : Instr} (chosen : spChosen s (k / 8) = some k) (word : (splRec s k).word = none)
    (inside : (splRec s k).pc < spLimit (splRec s k))
    (decodes : decodeSplice (windowWord s k (splRec s k) (splRec s k).pc 0) = .ok i) :
    splicerTurn s k = (some i, { setSpl s k { splRec s k with
      word := some (windowWord s k (splRec s k) (splRec s k).pc 0) } with
        choices := s.choices + 1, issuer := .splicer k }) := by
  have at_ : spliceAt s k (splRec s k) = windowWord s k (splRec s k) (splRec s k).pc 0 := by
    rw [spliceAt, word, Option.getD_none]
  have fetch : spliceFetch s k = .ok i := by
    simp only [spliceFetch, at_, decodes, word, Option.isNone_none, Bool.true_and, decide_eq_true_eq,
      Nat.not_le.2 inside, if_false]
  rw [splicerTurn, if_neg (not_not.2 chosen), fetch]
  simp only [spliceTaken, at_, word, Option.isNone_none, if_true, setSpl]

end

/-- Settles O57, from the arbiter's plan for each kind of turn. -/
theorem stepRunsWhatIsDecoded : Obligations.StepRunsWhatIsDecoded := by
  unfold Obligations.StepRunsWhatIsDecoded
  intro s runs
  refine ⟨fun on noEvent noRound => ⟨
      fun k r w turn slot may mode picked => ⟨fun x i active at_ decodes => ?warpWord, fun idle => ?warpClause⟩,
      fun c r q turn core going held halted mode => ⟨fun x i inside at_ decodes => ?seqWord, fun between =>
        ?seqClause⟩,
      fun k r i turn chosen => ⟨fun v word decodes => ?fetched, fun word inside decodes => ?fetches⟩,
      fun q r i t turn packet => ?packet⟩,
    fun on noEvent => ⟨
      fun k r w turn slot may mode => ⟨fun x i active at_ decodes => ?roundWord, fun idle ready => ?roundClause⟩,
      fun c r q turn core going held halted mode x i inside at_ decodes => ?roundSeq⟩,
    fun i r arrived event takes => step_runs (plan_event arrived event takes),
    fun i r arrived stopped other => step_stopped (plan_stopped_event stopped arrived other) stopped,
    fun stopped noEvent agents => step_stopped (plan_stopped_turn stopped noEvent agents) stopped⟩
  case warpWord =>
    exact step_runs ((plan_turn on noEvent noRound turn).trans
      (warpTurn_word (s := { s with turns := r }) slot may mode (.inr picked) active (currentWord_eq at_ decodes)))
  case warpClause =>
    exact step_runs ((plan_turn on noEvent noRound turn).trans
      (warpTurn_clause (s := { s with turns := r }) slot may mode (.inr picked) idle
        (fun h => absurd h Bool.false_ne_true)))
  case seqWord =>
    exact step_runs ((plan_turn on noEvent noRound turn).trans
      (seqTurn_word (s := { s with turns := r }) core going held halted mode inside at_ decodes))
  case seqClause =>
    exact step_runs ((plan_turn on noEvent noRound turn).trans
      (seqTurn_clause (s := { s with turns := r }) core going held halted mode between rfl))
  case fetched =>
    exact step_runs ((plan_turn on noEvent noRound turn).trans
      (splicerTurn_fetched (s := { s with turns := r }) chosen word decodes))
  case fetches =>
    exact step_runs ((plan_turn on noEvent noRound turn).trans
      (splicerTurn_fetches (s := { s with turns := r }) chosen word inside decodes))
  case packet =>
    exact step_runs ((plan_turn on noEvent noRound turn).trans (by simp only [planTurn, queueTurn, packet]))
  case roundWord =>
    exact step_runs ((plan_round on noEvent turn).trans
      (warpTurn_word (s := { s with round := r }) slot may mode (.inl rfl) active (currentWord_eq at_ decodes)))
  case roundClause =>
    have plan := (plan_round on noEvent turn).trans
      (warpTurn_clause (s := { s with round := r }) slot may mode (.inl rfl) idle (fun _ => ready))
    rw [if_pos rfl] at plan
    exact step_runs (plan.trans (by rw [← turn]))
  case roundSeq =>
    exact step_runs ((plan_round on noEvent turn).trans
      (seqTurn_word (s := { s with round := r }) core going held halted mode inside at_ decodes))

end Sys2Proof.Machine

/-! PROOF. The issue of a clause (07 R92 to R99, R103). -/

namespace Sys2Proof

/-! The header's encoding (R92, R93, R103). -/

/-- The bits of a wait's argument that its kind leaves unused, or the odd register of a timeline wait. -/
theorem waitArgBad_iff (h : Header) : waitArgBad h = true ↔
    (h.waitKind = 0 ∧ h.waitArg.toNat ≠ 0) ∨ (h.waitKind = 1 ∧ 32 ≤ h.waitArg.toNat) ∨
      (2 ≤ h.waitKind ∧ 64 ≤ h.waitArg.toNat) ∨ (h.waitKind = 3 ∧ h.waitArg.toNat % 2 = 1) := by
  have zero : h.waitArg = 0#8 ↔ h.waitArg.toNat = 0 := ⟨fun e => by rw [e]; rfl, fun e => BitVec.eq_of_toNat_eq e⟩
  have odd : h.waitArg[0] = true ↔ h.waitArg.toNat % 2 = 1 := by
    rw [BitVec.getElem_eq_testBit_toNat, Nat.testBit_zero, decide_eq_true_eq]
  unfold waitArgBad
  split
  next kind => simp [kind, zero]
  next kind => simp [kind]
  next kind => simp [kind, odd]
  next not0 not1 not3 =>
    replace not0 : h.waitKind ≠ 0 := not0
    replace not1 : h.waitKind ≠ 1 := not1
    replace not3 : h.waitKind ≠ 3 := not3
    have : 2 ≤ h.waitKind := by omega
    simp [not0, not1, not3, this]

/-- What a header with the right check and some words breaks, if it raises 0x03 (R103). -/
def headerBad (h : Header) : Bool :=
  h.bit7 || h.cls == 7 || decide (6 ≤ h.waitKind) || waitArgBad h || (h.gneg && h.guard == 0) ||
    (h.cls == 6 && (decide (1 < h.waitKind) || h.guard != 0 || h.gneg))

/-- The header's faults in the order of R99. -/
theorem headerFault_order (seq : Bool) (h : Header) :
    (h.check ≠ 0xA5 → headerFault seq h = some 1) ∧
    (h.check = 0xA5 → (h.count = 0 → headerFault seq h = some 2) ∧
      (h.count ≠ 0 → (headerBad h = true → headerFault seq h = some 3) ∧
        (headerBad h = false → ((h.cls == 6) ≠ seq → headerFault seq h = some 0x0A) ∧
          ((h.cls == 6) = seq → headerFault seq h = none)))) := by
  have e : headerFault seq h = if h.check ≠ 0xA5 then some 1 else if h.count = 0 then some 2
    else if headerBad h = true then some 3 else if ((h.cls == 6) != seq) = true then some 0x0A else none := rfl
  rw [e]
  refine ⟨fun check => if_pos check, fun check => ?_⟩
  rw [if_neg (not_not.2 check)]
  refine ⟨fun count => if_pos count, fun count => ?_⟩
  rw [if_neg count]
  refine ⟨fun bad => if_pos bad, fun bad => ?_⟩
  rw [if_neg (ne_true_of_eq_false bad)]
  exact ⟨fun other => if_pos (bne_iff_ne.2 other), fun same => if_neg (by simp [same])⟩

/-- The arguments of the waits that a header without faults names are those that its kind can use. -/
theorem waitArg_lt_of_headerFault {seq : Bool} {h : Header} (ok : headerFault seq h = none) (kind : h.waitKind = 1) :
    h.waitArg.toNat < 32 := by
  by_contra big
  obtain ⟨check, rest⟩ := headerFault_order seq h
  have bad : headerBad h = true := by
    have : waitArgBad h = true := (waitArgBad_iff h).2 (.inr (.inl ⟨kind, by omega⟩))
    simp [headerBad, this]
  by_cases hc : h.check = 0xA5
  · by_cases count : h.count = 0
    · simp [(rest hc).1 count] at ok
    · simp [((rest hc).2 count).1 bad] at ok
  · simp [check hc] at ok

theorem headerBad_unpack (x : Word) :
    let guard := x.extractLsb' 20 3
    let arg := (x.extractLsb' 12 8).toNat
    let kind := (x.extractLsb' 8 4).toNat
    let cls := (x.extractLsb' 4 3).toNat
    headerBad (unpackHeader x) = true ↔ x.getLsbD 7 = true ∨ cls = 7 ∨ 6 ≤ kind ∨
      ((kind = 0 ∧ arg ≠ 0) ∨ (kind = 1 ∧ 32 ≤ arg) ∨ (2 ≤ kind ∧ 64 ≤ arg) ∨ (kind = 3 ∧ arg % 2 = 1)) ∨
      (x.getLsbD 23 = true ∧ guard = 0) ∨ (cls = 6 ∧ (1 < kind ∨ guard ≠ 0 ∨ x.getLsbD 23 = true)) := by
  intro guard arg kind cls
  have zero : guard.toNat = 0 ↔ guard = 0 := ⟨fun e => BitVec.eq_of_toNat_eq e, fun e => by rw [e]; rfl⟩
  have wait := waitArgBad_iff (unpackHeader x)
  show (x.getLsbD 7 || cls == 7 || decide (6 ≤ kind) || waitArgBad (unpackHeader x) ||
    (x.getLsbD 23 && guard.toNat == 0) || (cls == 6 && (decide (1 < kind) || guard.toNat != 0 || x.getLsbD 23))) = true ↔ _
  simp only [Bool.or_eq_true, Bool.and_eq_true, decide_eq_true_eq, beq_iff_eq, bne_iff_ne, wait, ne_eq, zero, or_assoc]
  rfl

namespace Machine

/-! The fetch of a clause (R95, R99). -/

section
variable {s : State} {wg : Nat} {seq : Bool} {pc : DWord}

theorem fetchClause_misaligned (h : pc.toNat % 4 ≠ 0) : fetchClause s wg seq pc = .error (1, pc.toNat, 0) := if_pos h

variable (aligned : pc.toNat % 4 = 0)
include aligned

theorem fetchClause_noHeader {c a : Nat} (h : fetchWord s wg pc.toNat 0 = .error (c, a)) :
    fetchClause s wg seq pc = .error (c, pc.toNat, a) := by
  simp only [fetchClause, aligned, h, ne_eq, not_true_eq_false, if_false]

variable {x : Word} (header : fetchWord s wg pc.toNat 0 = .ok x)
include header

theorem fetchClause_badHeader {c : Nat} (h : headerFault seq (unpackHeader x) = some c) :
    fetchClause s wg seq pc = .error (c, pc.toNat, 0) := by
  simp only [fetchClause, aligned, header, h, ne_eq, not_true_eq_false, if_false]

variable (good : headerFault seq (unpackHeader x) = none)
include good

theorem fetchClause_noWord {c a : Nat}
    (h : fetchWords s wg (pc.toNat + 4) 1 (unpackHeader x).count = .error (c, a)) :
    fetchClause s wg seq pc = .error (c, a, a) := by
  simp only [fetchClause, aligned, header, good, h, ne_eq, not_true_eq_false, if_false]

variable {ws : List Word} (words : fetchWords s wg (pc.toNat + 4) 1 (unpackHeader x).count = .ok ws)
include words

theorem fetchClause_badWord {i c : Nat} (h : wordsFault (unpackHeader x).cls 1 ws = some (i, c)) :
    fetchClause s wg seq pc = .error (c, pc.toNat + 4 * i, 0) := by
  simp only [fetchClause, aligned, header, good, words, h, ne_eq, not_true_eq_false, if_false]

theorem fetchClause_good (h : wordsFault (unpackHeader x).cls 1 ws = none) :
    fetchClause s wg seq pc = .ok (unpackHeader x, ws) := by
  simp only [fetchClause, aligned, header, good, words, h, ne_eq, not_true_eq_false, if_false]

end

/-- A fetched clause has a header without faults. -/
theorem headerFault_of_fetchClause {s : State} {wg : Nat} {seq : Bool} {pc : DWord} {h : Header} {ws : List Word}
    (ok : fetchClause s wg seq pc = .ok (h, ws)) : headerFault seq h = none := by
  unfold fetchClause at ok
  split at ok
  · cases ok
  split at ok
  · cases ok
  dsimp only at ok
  split at ok
  · cases ok
  next good =>
  split at ok
  · cases ok
  split at ok
  · cases ok
  · cases ok
    exact good

end Machine

/-! The words of a clause (R99). -/

/-- The number of words of an instruction of a shape: its word, and the trailing word if it has one (R100). -/
def Shape.len (sh : Shape) : Nat := if sh.trail = .none then 1 else 2

theorem wordsFault_nil (cls n : Nat) : wordsFault cls n [] = none := by unfold wordsFault; rfl

section
variable {cls n : Nat} {x : Word} {r : List Word}

/-- The fault of a clause's first word is that of the clause. -/
theorem wordsFault_of_fault (lane : cls ≠ 6) {f : Nat × Nat}
    (h : wordsFault.laneWordFault cls n x r.head? r.tail = some f) : wordsFault cls n (x :: r) = some f := by
  cases r with
  | nil => exact h
  | cons t r =>
    replace h : wordsFault.laneWordFault cls n x (some t) r = some f := h
    rw [wordsFault, if_neg lane, h]

/-- After a word without faults the words that follow it are checked. -/
theorem wordsFault_of_none (lane : cls ≠ 6) {sh : Shape} (shape : laneShape (fOp x) (fD x) = some sh)
    (h : wordsFault.laneWordFault cls n x r.head? r.tail = none) :
    wordsFault cls n (x :: r) = wordsFault cls (n + sh.len) (r.drop (sh.len - 1)) := by
  obtain ⟨c, trail, term, d, a, b, tail⟩ := sh
  cases r with
  | nil => rw [List.drop_nil, wordsFault_nil]; exact h
  | cons t r =>
    replace h : wordsFault.laneWordFault cls n x (some t) r = none := h
    rw [wordsFault, if_neg lane, h, shape]
    cases trail <;> rfl

variable (lane : cls ≠ 6)
include lane

theorem wordsFault_unlisted (shape : laneShape (fOp x) (fD x) = none) : wordsFault cls n (x :: r) = some (n, 5) :=
  wordsFault_of_fault lane (by rw [wordsFault.laneWordFault, if_neg lane, shape])

variable {sh : Shape} (shape : laneShape (fOp x) (fD x) = some sh)
include shape

theorem wordsFault_class (other : sh.cls ≠ cls) (notNop : fOp x ≠ 0x7A) : wordsFault cls n (x :: r) = some (n, 4) :=
  wordsFault_of_fault lane (by
    rw [wordsFault.laneWordFault, if_neg lane, shape]
    exact if_pos ⟨other, notNop⟩)

variable (fits : sh.cls = cls ∨ fOp x = 0x7A)
include fits

theorem wordsFault_undecoded {c : Nat} (bad : decodeLaneWord x r.head? = .bad c) :
    wordsFault cls n (x :: r) = some (n, c) :=
  wordsFault_of_fault lane (by
    rw [wordsFault.laneWordFault, if_neg lane, shape]
    simp only [bad]
    exact if_neg (fun h => fits.elim h.1 h.2))

/-- A word that decodes is at fault only if it terminates a clause that goes on. -/
theorem laneWordFault_decoded {i : Instr} (decodes : decodeLaneWord x r.head? = .ok i) :
    wordsFault.laneWordFault cls n x r.head? r.tail =
      if sh.term = true ∧ r.drop (sh.len - 1) ≠ [] then some (n, 9) else none := by
  obtain ⟨c, trail, term, d, a, b, tail⟩ := sh
  rw [wordsFault.laneWordFault, if_neg lane, shape]
  dsimp only
  rw [if_neg (fun h => fits.elim h.1 h.2), decodes]
  cases r <;> cases trail <;> simp [Shape.len]

variable {i : Instr} (decodes : decodeLaneWord x r.head? = .ok i)
include decodes

theorem wordsFault_early (term : sh.term = true) (more : r.drop (sh.len - 1) ≠ []) :
    wordsFault cls n (x :: r) = some (n, 9) :=
  wordsFault_of_fault lane ((laneWordFault_decoded lane shape fits decodes).trans (if_pos ⟨term, more⟩))

theorem wordsFault_next (last : sh.term = false ∨ r.drop (sh.len - 1) = []) :
    wordsFault cls n (x :: r) = wordsFault cls (n + sh.len) (r.drop (sh.len - 1)) :=
  wordsFault_of_none lane shape ((laneWordFault_decoded lane shape fits decodes).trans
    (if_neg (fun h => last.elim (fun e => by simp [e] at h) h.2)))

end

/-! The words of a matrix-stream clause. -/

section
variable {n : Nat} {x : Word} {r : List Word}

theorem wordsFault_stream_undecoded {c : Nat} (bad : decodeStreamWord x r.head? = .bad c) :
    wordsFault 6 n (x :: r) = some (n, c) := by
  cases r with
  | nil =>
    show wordsFault.laneWordFault 6 n x none [] = _
    rw [wordsFault.laneWordFault, if_pos rfl, show decodeStreamWord x none = .bad c from bad]
  | cons t r =>
    rw [wordsFault, if_pos rfl, show decodeStreamWord x (some t) = .bad c from bad]
    simp

variable {i : Instr} (decodes : decodeStreamWord x r.head? = .ok i)
include decodes

theorem wordsFault_stream_early (term : streamTerm (fOp x) = true) (more : r ≠ []) :
    wordsFault 6 n (x :: r) = some (n, 9) := by
  obtain ⟨t, r, rfl⟩ := List.exists_cons_of_ne_nil more
  have plain : fOp x ≠ 0x48 := by intro e; rw [e] at term; exact absurd term (by decide)
  rw [wordsFault, if_pos rfl, if_neg plain, show decodeStreamWord x (some t) = .ok i from decodes]
  exact if_pos term

theorem wordsFault_stream_next (last : streamTerm (fOp x) = false ∨ r = []) :
    let len := if fOp x = 0x48 then 2 else 1
    wordsFault 6 n (x :: r) = wordsFault 6 (n + len) (r.drop (len - 1)) := by
  intro len
  cases r with
  | nil =>
    rw [List.drop_nil, wordsFault_nil]
    show wordsFault.laneWordFault 6 n x none [] = _
    rw [wordsFault.laneWordFault, if_pos rfl, show decodeStreamWord x none = .ok i from decodes]
  | cons t r =>
    have goesOn : streamTerm (fOp x) = false := last.resolve_right (List.cons_ne_nil _ _)
    rw [wordsFault, if_pos rfl, show decodeStreamWord x (some t) = .ok i from decodes]
    by_cases literal : fOp x = 0x48
    · rw [if_pos literal, show len = 2 from if_pos literal]
      rfl
    · rw [if_neg literal, show len = 1 from if_neg literal]
      dsimp only
      rw [goesOn]
      rfl

end

end Sys2Proof

namespace Sys2Proof.Machine

/-! NOP, FENCE and SLEEP (R152, R197). -/

/-- A lane word without registers and effect retires (R64). -/
theorem laneWord_idle {s : State} {k : Nat} {w : Warp} (h : Issues s k w []) (hs : w.sstep = false) :
    ∃ t w1, laneWord s [] (fun s _ _ => .next s) = .next t ∧ Retires s t k w w1 ∧ SameRegs w w1 ∧ w1.p = w.p ∧
      w1.flags = w.flags := by
  have e : laneWord s [] (fun s _ _ => .next s) = warpWord s [] (fun w => w) := by
    rw [warpWord, laneWord_ready h, laneWord_ready h, setWarp_setWarp]
  obtain ⟨t, w1, next, retires, hv, hw, hp, hf, hm⟩ := warpWord_retires h hs (fun w => w) ⟨rfl, rfl, rfl⟩
  refine ⟨t, w1, e.trans next, retires, ⟨hm.trans (clearPass_spoilt w), fun f l _ => ?_⟩, hp.trans (clearPass_p w),
    hf.trans (clearPass_flags w)⟩
  rw [rd, rd, hv, hw, clearPass_v, clearPass_w]

theorem nop_retires {s : State} {k : Nat} {w : Warp} (h : Issues s k w []) (hs : w.sstep = false) {i : Instr}
    (hi : i = .nop ∨ ∃ sub scope, i = .fence sub scope) : ∃ t w1, exec i s = .next t ∧ Retires s t k w w1 ∧
      SameRegs w w1 ∧ w1.p = w.p ∧ w1.flags = w.flags := by
  have e : exec i s = laneWord s [] (fun s _ _ => .next s) := by
    obtain rfl | ⟨sub, scope, rfl⟩ := hi <;> rfl
  rw [e]
  exact laneWord_idle h hs

/-- Where a word that ends in a choice point leaves its warp. -/
theorem choicePoint_modLanes_other (w : Warp) (m : Mask) (f : Nat → Thread → Thread) :
    let w1 := choicePoint (modLanes (clearPass w) m f)
    w1 = { w with threads := w1.threads, act := w1.act, cand := w1.cand } := by
  intro w1
  show choicePoint (modLanes (clearPass w) m f) = _
  rw [clearPass_other]
  rfl

/-- SLEEP 0 is a choice point (R152). -/
theorem sleep_zero {s : State} {k : Nat} {w : Warp} (h : Issues s k w []) (hs : w.sstep = false) :
    ∃ t w1, exec (.sleep 0) s = .next t ∧ OnlyWarp s t k w w1 ∧ Placed w w1 (fun _ x => { x with pc := nextPC w }) ∧
      w1 = { w with threads := w1.threads, act := w1.act, cand := w1.cand } := by
  have d := does_of_laneWord h (Eq.refl (exec (.sleep 0) s))
  rw [if_pos rfl] at d
  exact ⟨_, _, d, onlyWarp_moved s _ k w ((clearPass_sstep w).trans hs), placed_setPC w,
    choicePoint_modLanes_other w _ _⟩

/-- The lanes of SLEEP n wait (R152). -/
theorem sleep_waits {s : State} {k : Nat} {w : Warp} (h : Issues s k w []) (hs : w.sstep = false) {n : Half}
    (hn : n ≠ 0) :
    ∃ t w1, exec (.sleep n) s = .next t ∧ OnlyWarp s t k w w1 ∧
      Placed w w1 (fun _ x => { x with
        wait := .sleep (wgClock s (coreOf k) w.wg + n.toNat + if contOfWg s w.wg then 1 else 0), next := nextPC w }) ∧
      w1 = { w with threads := w1.threads, act := w1.act, cand := w1.cand } := by
  have d := does_of_laneWord h (Eq.refl (exec (.sleep n) s))
  have ending : sleepEnd (issued s k w) k (clearPass w) n.toNat =
      wgClock s (coreOf k) w.wg + n.toNat + if contOfWg s w.wg then 1 else 0 := by
    rw [sleepEnd, clearPass_wg]
    rfl
  rw [if_neg hn, ending] at d
  exact ⟨_, _, d, onlyWarp_moved s _ k w ((clearPass_sstep w).trans hs), placed_beginWait w _,
    choicePoint_modLanes_other w _ _⟩

/-- Without single-stepping lanes whose wait ends only go on. -/
theorem releaseLanes_plain {s : State} {k : Nat} {w : Warp} (hw : tget s.warps k = some w) (hs : w.sstep = false)
    (m : Mask) :
    releaseLanes s k m = setWarp s k (modLanes w m (fun _ t => { t with pc := t.next, wait := .none })) := by
  have slot : tget (setWarp s k (modLanes w m (fun _ t => { t with pc := t.next, wait := .none }))).warps k =
    some (modLanes w m (fun _ t => { t with pc := t.next, wait := .none })) := tget_tput_self ..
  have plain : (modLanes w m (fun _ t => { t with pc := t.next, wait := .none })).sstep = false := hs
  simp only [releaseLanes, hw, stepTrap, slot, plain, Bool.false_eq_true, if_false]

/-- A thread as SLEEP_EXPIRY leaves it at a clock: it goes on if its SLEEP has run out (R152). -/
def wokenBy (now : Nat) (x : Thread) : Thread := match x.wait with
  | .sleep u => if u ≤ now then { x with pc := x.next, wait := .none } else x
  | _ => x

/-- The lanes whose SLEEP has run out are those that SLEEP_EXPIRY lets go on (R152). -/
theorem thr_sleepDue {s : State} {k : Nat} {w : Warp} (sorted : tsorted w.threads = true) {l : Nat} (hl : l < 32) :
    thr (modLanes w (sleepDue s k w) (fun _ t => { t with pc := t.next, wait := .none })) l =
      (thr w l).map (wokenBy (wgClock s (coreOf k) w.wg)) := by
  rw [thr_modLanes]
  cases hx : thr w l with
  | none => rfl
  | some x =>
    have due : (sleepDue s k w).getLsbD l = (match x.wait with
        | .sleep u => decide (u ≤ wgClock s (coreOf k) w.wg)
        | _ => false) := by
      rw [Bool.eq_iff_iff, sleepDue, getLsbD_lanesWhere_iff sorted hl]
      exact ⟨fun ⟨y, hy, h⟩ => Option.some.inj (hx.symm.trans hy) ▸ h, fun h => ⟨x, hx, h⟩⟩
    rw [Option.map_some, Option.map_some, due, wokenBy]
    cases x.wait <;> simp

theorem sleepExpiry_releases {s : State} {k : Nat} {w : Warp} (hs : w.sstep = false) (hw : tget s.warps k = some w)
    (sorted : tsorted w.threads = true) (runs : wgRuns s w.wg = true) :
    ∃ t w1, exec (.sleepExpiry k) s = .next t ∧ tget t.warps k = some w1 ∧
      (∀ l < 32, thr w1 l = (thr w l).map (wokenBy (wgClock s (coreOf k) w.wg))) ∧
      w1 = { w with threads := w1.threads } ∧ (∀ j, j ≠ k → tget t.warps j = tget s.warps j) ∧
      t = { s with warps := t.warps } := by
  have e : exec (.sleepExpiry k) s =
      .next (if wgRuns s w.wg ∧ sleepDue s k w ≠ 0 then releaseLanes s k (sleepDue s k w) else s) := by
    show execSleepExpiry k s = _
    simp only [execSleepExpiry, hw]
  rw [e]
  by_cases due : sleepDue s k w = 0
  · rw [if_neg (fun h => h.2 due)]
    refine ⟨s, w, rfl, hw, fun l hl => ?_, rfl, fun _ _ => rfl, rfl⟩
    have none (x : Option Thread) : x.map (fun t => if (0 : Mask).getLsbD l then
        { t with pc := t.next, wait := .none } else t) = x := by
      cases x <;> simp
    rw [← thr_sleepDue sorted hl, thr_modLanes, due, none]
  · rw [if_pos ⟨runs, due⟩, releaseLanes_plain hw hs]
    exact ⟨_, _, rfl, tget_tput_self .., fun l hl => thr_sleepDue sorted hl, rfl,
      fun j hj => tget_tput_ne _ _ hj.symm, rfl⟩

end Sys2Proof.Machine

namespace Sys2Proof.Machine

/-! A warp whose threads stand together at a clause (R94, R143). -/

/-- No lane is active and no group is current; the threads stand at one clause header and wait for nothing. -/
structure Together (w : Warp) (hdr : DWord) : Prop where
  act : w.act = 0
  cand : w.cand = 0
  held : w.held = false
  nonempty : w.threads ≠ []
  stands : ∀ e ∈ w.threads, e.1 < 32 ∧ e.2.wait = .none ∧ e.2.pc = ⟨hdr, 0⟩

/-- The warp once its threads are the current group: they have been passed over no more. -/
def gathered (w : Warp) : Warp :=
  { w with threads := w.threads.map (fun e => (e.1, { e.2 with passes := 0 })), cand := liveMask w }

section
variable (w : Warp)

theorem thr_gathered (l : Nat) : thr (gathered w) l = (thr w l).map (fun x => { x with passes := 0 }) :=
  tget_map w.threads (fun _ x => { x with passes := 0 }) l

@[simp] theorem liveMask_gathered : liveMask (gathered w) = liveMask w := by
  simp only [liveMask, gathered, List.map_map, Function.comp_def]

@[simp] theorem members_gathered : members (gathered w) = members w := by
  simp only [members, lanesWhere, gathered, List.filter_map, List.map_map, Function.comp_def]

@[simp] theorem rdP_gathered (p : Nat) : rdP (gathered w) p = rdP w p := by
  rw [rdP, rdP, liveMask_gathered]
  rfl

@[simp] theorem warpArrival_gathered (n : Nat) : warpArrival (gathered w) n = warpArrival w n := by
  simp only [warpArrival, gathered, List.foldl_map]

end

/-- A key that a table lists has a value. -/
theorem exists_tget_of_mem {α : Type} {t : Tbl α} {e : Nat × α} (he : e ∈ t) : ∃ v, tget t e.1 = some v := by
  induction t with
  | nil => cases he
  | cons a r ih =>
    by_cases same : a.1 = e.1
    · exact ⟨a.2, by rw [tget, if_pos same]⟩
    · obtain ⟨v, hv⟩ := ih ((List.mem_cons.1 he).resolve_left (fun eq => same (congrArg Prod.fst eq.symm)))
      exact ⟨v, by rw [tget, if_neg same, hv]⟩

/-- A condition that no thread satisfies gives no lane. -/
theorem lanesWhere_eq_zero {w : Warp} {c : Thread → Bool} (h : ∀ e ∈ w.threads, c e.2 = false) :
    lanesWhere w c = 0 := by
  rw [lanesWhere, List.filter_eq_nil_iff.2 (fun e he => ne_true_of_eq_false (h e he))]
  rfl

theorem modLanes_zero (w : Warp) (f : Nat → Thread → Thread) : modLanes w 0 f = w := by
  simp [modLanes]

section
variable {w : Warp} {hdr : DWord} (h : Together w hdr)
include h

theorem Together.filter_eq {c : Thread → Bool} (hc : ∀ x : Thread, x.wait = .none → x.pc = ⟨hdr, 0⟩ → c x = true) :
    w.threads.filter (fun e => c e.2) = w.threads :=
  List.filter_eq_self.2 (fun e he => hc _ (h.stands e he).2.1 (h.stands e he).2.2)

theorem Together.groupAt_eq : groupAt w ⟨hdr, 0⟩ = liveMask w := by
  rw [groupAt, lanesWhere, h.filter_eq (c := fun t => ready t && t.pc == ⟨hdr, 0⟩)
    (fun x hw hp => by simp [ready, hw, hp])]
  rfl

theorem Together.groupPCs_eq : groupPCs w = [⟨hdr, 0⟩] := by
  have same : w.threads.map (fun e => e.2.pc) = List.replicate w.threads.length ⟨hdr, 0⟩ :=
    List.map_eq_replicate_iff.2 (fun e he => (h.stands e he).2.2)
  rw [groupPCs, h.filter_eq (c := ready) (fun x hw _ => by simp [ready, hw]), same,
    List.replicate_dedup (mt List.length_eq_zero_iff.1 h.nonempty)]

/-- The one group there is, is chosen whatever its pass count. -/
theorem Together.chosenPC_eq : chosenPC w = some ⟨hdr, 0⟩ := by
  rw [chosenPC, h.groupPCs_eq]
  by_cases big : 16 ≤ groupPasses w ⟨hdr, 0⟩
  · simp [big, lowerPC]
  · simp [big, lowerPC]

theorem Together.live {e : Nat × Thread} (he : e ∈ w.threads) : (liveMask w).getLsbD e.1 = true :=
  getLsbD_maskOf_of_mem (List.mem_map_of_mem he) (h.stands e he).1

theorem Together.chooseGroup_eq : chooseGroup w = gathered w := by
  have passed : (modLanes w (BitVec.allOnes 32) (fun l t => if (liveMask w).getLsbD l then { t with passes := 0 }
      else if ready t then { t with passes := t.passes + 1 } else t)).threads = (gathered w).threads := by
    have in_all (l : Nat) (hl : l < 32) : (BitVec.allOnes 32).getLsbD l = true := by
      rw [BitVec.getLsbD_allOnes, decide_eq_true hl]
    rw [modLanes_threads]
    refine List.map_congr_left (fun e he => ?_)
    rw [h.live he, if_pos rfl, if_pos (in_all _ (h.stands e he).1)]
  simp only [chooseGroup, h.chosenPC_eq, h.groupAt_eq]
  rw [← h.act]
  exact congrArg (fun ts => { w with threads := ts, cand := liveMask w }) passed

/-- Nothing waits, so no wait ends. -/
theorem Together.sweep_eq {s : State} {k : Nat} (slot : tget s.warps k = some w) : sweep s k = setWarp s k w := by
  have none {c : Thread → Bool} (hc : ∀ x : Thread, x.wait = .none → c x = false) : lanesWhere w c = 0 :=
    lanesWhere_eq_zero (fun e he => hc _ (h.stands e he).2.1)
  have done : sweepDone s w = 0 := none (fun x hx => by rw [hx])
  have waited : sweepHeader s w = 0 := none (fun x hx => by rw [hx])
  have again : sweepRetry s k w = 0 := none (fun x hx => by rw [hx])
  simp only [sweep, slot, done, waited, again, modLanes_zero, if_true]

/-- The clause of such a warp issues for all its threads. -/
theorem Together.warpClause_eq {s : State} {k : Nat} (slot : tget s.warps k = some w) :
    warpClause s k = issueClause (setWarp s k (gathered w)) k (gathered w) := by
  have open_ : ¬ (w.act ≠ 0 ∨ w.held = true) := by simp [h.act, h.held]
  simp only [warpClause, slot]
  rw [if_neg open_]
  by_cases cont : contOfWg s w.wg = true
  · simp only [cont, if_true, slot, h.cand, h.chooseGroup_eq]
  · have slot1 : tget (setWarp s k w).warps k = some w := tget_tput_self ..
    simp only [cont, Bool.false_eq_true, if_false, h.sweep_eq slot, slot1, h.cand, if_true,
      h.chooseGroup_eq, setWarp_setWarp]

/-- The lowest lane of the group stands at the header. -/
theorem Together.lowest_pc : ∃ l, lowest (liveMask w) = some l ∧ pcOf (gathered w) l = ⟨hdr, 0⟩ := by
  obtain ⟨e, he⟩ := List.exists_mem_of_ne_nil _ h.nonempty
  have filled : liveMask w ≠ 0 := fun zero => by simpa [zero] using h.live he
  obtain ⟨l, hl⟩ := Option.isSome_iff_exists.1 ((lowest_isSome _).trans (bne_iff_ne.2 filled))
  refine ⟨l, hl, ?_⟩
  obtain ⟨e, he, rfl⟩ := List.mem_map.1 (mem_of_getLsbD_maskOf (lowest_mem hl))
  obtain ⟨x, hx⟩ := exists_tget_of_mem he
  replace hx : thr w e.1 = some x := hx
  rw [pcOf, thr_gathered, hx]
  exact (h.stands _ (tget_mem hx)).2.2

end

end Sys2Proof.Machine

namespace Sys2Proof.Machine

/-! The choices that a fetch takes. -/

/-- Between two states nothing has changed but the choices that have been taken. -/
structure OnlyChoices (s t : State) : Prop where
  rest : t = { s with choices := t.choices, ctxs := t.ctxs }
  ctxs : ∀ c, ctxRec t c = { ctxRec s c with choices := (ctxRec t c).choices }

theorem onlyChoices_choicesTaken (s : State) (wg n : Nat) : OnlyChoices s (choicesTaken s wg n) := by
  refine ⟨choicesTaken_other s wg n, fun c => ?_⟩
  unfold choicesTaken
  split
  · by_cases same : ctxOfWg s wg = c
    · subst same
      simp [ctxRec, setCtx, tgetD_tput]
    · simp [ctxRec, setCtx, tgetD_tput, same]
  · rfl

theorem onlyChoices_fetchSpent (s : State) (wg : Nat) : OnlyChoices s (fetchSpent s wg) := by
  unfold fetchSpent
  split
  · split
    · exact ⟨rfl, fun _ => rfl⟩
    · exact onlyChoices_choicesTaken ..
  · exact ⟨rfl, fun _ => rfl⟩

/-- The fetch takes its choices whatever the warps are. -/
theorem fetchSpent_setWarp (s : State) (k : Nat) (u : Warp) (wg : Nat) :
    fetchSpent (setWarp s k u) wg = setWarp (fetchSpent s wg) k u := by
  have taken : choicesTaken (setWarp s k u) wg 16 = setWarp (choicesTaken s wg 16) k u := by
    have mode : contOfWg (setWarp s k u) wg = contOfWg s wg := rfl
    unfold choicesTaken
    rw [mode]
    split <;> rfl
  have grid : gridOfWg (setWarp s k u) wg = gridOfWg s wg := rfl
  unfold fetchSpent
  rw [grid]
  split
  · split
    · rfl
    · exact taken
  · rfl

section
variable {s t : State} (h : OnlyChoices s t)
include h

theorem OnlyChoices.grids : t.grids = s.grids := by rw [h.rest]

theorem OnlyChoices.warps : t.warps = s.warps := by rw [h.rest]

theorem OnlyChoices.ctxStopped_eq : ctxStopped t = ctxStopped s := by
  funext c
  rw [ctxStopped, ctxStopped, h.ctxs]

theorem OnlyChoices.lateOf_eq (n : Nat) : lateOf t n = lateOf s n := by
  have stopped := h.ctxStopped_eq
  have all : lateAll t = lateAll s := by
    rw [h.rest] at stopped ⊢
    rw [lateAll, stopped]
    rfl
  rw [lateOf, lateOf, all]

theorem OnlyChoices.handleVal_eq : handleVal t = handleVal s := by
  have counters (c : Nat) : (ctxRec t c).tl = (ctxRec s c).tl := by rw [h.ctxs]
  funext c x
  rw [h.rest] at counters ⊢
  simp only [handleVal, tlOf, counters]
  rfl

theorem OnlyChoices.futEntry_eq : futEntry t = futEntry s := by
  have futures (c : Nat) : (ctxRec t c).futures = (ctxRec s c).futures := by rw [h.ctxs]
  funext c x
  rw [futEntry, futEntry, futures]

theorem OnlyChoices.futOk_eq : futOk t = futOk s := by
  have entries := h.futEntry_eq
  funext wg x
  rw [h.rest] at entries ⊢
  simp only [futOk, entries]
  rfl

/-- What a header wait needs and whether it is met do not depend on the choices. -/
theorem OnlyChoices.headerArg_eq (w : Warp) (x : Header) : headerArg t w x = headerArg s w x := by
  have futures := h.futOk_eq
  rw [h.rest] at futures ⊢
  unfold headerArg
  rw [futures]
  rfl

theorem OnlyChoices.headerDone_eq (w : Warp) (kind arg : Nat) : headerDone t w kind arg = headerDone s w kind arg := by
  have values := h.handleVal_eq
  have entries := h.futEntry_eq
  rw [h.rest] at values entries ⊢
  unfold headerDone
  rw [values]
  simp only [futDone, entries]
  rfl

end

/-! The end of a grid by the fault of a warp's header (R41, R99). -/

/-- The grid n of s has ended in t with a record of the cause, the word's address and the data address (R41, R333). -/
def EndsGrid (s t : State) (n cause fpc faddr : Nat) : Prop :=
  ∀ g, tget s.grids n = some g → tget t.grids n = none ∧ (∀ e ∈ t.warps, serialOf e.2.wg ≠ n) ∧
    (∀ e ∈ t.wgs, serialOf e.1 ≠ n) ∧
    (lateOf s n = [] → g.desc.getLsbD 3 = false →
      let r := (queueRec t g.queue).record
      field r 6 0 = cause % 128 ∧ field r 319 256 = faddr % 2 ^ 64 ∧ field r 383 320 = fpc % 2 ^ 64)

/-- A lane's fault ends its grid; its record stands before every access of its own warp that is late in the same
clock. -/
theorem faultLane_ends {s t : State} (same : OnlyChoices s t) (k : Nat) (u : Warp) (l cause fpc faddr : Nat) :
    EndsGrid s (faultLane (setWarp t k u) k u l cause faddr 0 (BitVec.ofNat 64 fpc)) (serialOf u.wg) cause fpc
      faddr := by
  intro g hg
  have hg1 : tget (setWarp t k u).grids (serialOf u.wg) = some g := by
    rw [← same.grids] at hg
    exact hg
  generalize hb : blameLane k u l cause faddr 0 (BitVec.ofNat 64 fpc) = b
  have gone := endGrid_gone hg1 b
  rw [faultLane, hb]
  refine ⟨gone.gone, gone.warps, gone.wgs, fun noLate hc => ?_⟩
  generalize hlate : (lateOf (setWarp t k u) (serialOf u.wg)).filter (fun x => x != b) = late
  have first : firstBlame b late = b := firstBlame_eq _ _ (fun x hx => by
    rw [← hlate] at hx
    obtain ⟨p, rfl⟩ := lateOf_setWarp ((same.lateOf_eq _).trans noLate) k u (List.mem_filter.1 hx).1
    rw [blameKey_lateBlame, ← hb]
    rfl)
  have record := (endOne_gone hg1 b late.length).2
  rw [endRecord, gridConf_eq_none hc] at record
  rw [endGrid_eq_endOne, hlate, first, record]
  obtain ⟨h1, h2, h3, -⟩ := faultRecord_fields (cycleOf (setWarp t k u) b.die) (serialOf u.wg) (g.supp + late.length)
    (if hMulti g.hdr then g.rank else 0) b
  subst hb
  exact ⟨h1, h2, h3.trans (by rw [blameLane, BitVec.toNat_ofNat, Nat.mod_mod])⟩

/-- A fault before a clause's first word ends the grid, unless it is a take's and a member raises it (R42, R99). -/
theorem clauseFault_ends (s : State) (k : Nat) (w : Warp) (m : Mask) {cause : Nat} (fpc faddr : Nat)
    (plain : takeFault cause = false ∨ members w = 0) :
    EndsGrid s (clauseFault (setWarp s k (gathered w)) k (gathered w) m cause fpc faddr) (serialOf w.wg) cause fpc
      faddr := by
  have free : ¬ (takeFault cause && decide (m &&& members (gathered w) ≠ 0)) = true := by
    rw [members_gathered]
    rcases plain with h | h <;> simp [h]
  rw [clauseFault, if_neg free]
  exact faultLane_ends ⟨rfl, fun _ => rfl⟩ k (gathered w) _ cause fpc faddr

/-! The wait of a clause header (R93). -/

/-- The fault of a wait whose barrier index or handle is wrong (R198, R180, R258). -/
def waitBad (s : State) (w : Warp) (h : Header) : Option Nat :=
  let x := rd w (BitVec.ofNat 8 (192 + h.waitArg.toNat)) 0
  if h.waitKind = 1 ∧ hNbar (hdrOf s w.wg) ≤ h.waitArg.toNat then some 0x40
  else if h.waitKind = 3 ∧ handleOk s (ctxOfWg s w.wg) x = false then some 0x1C
  else if h.waitKind = 5 ∧ futOk s w.wg x = false then some 0x43 else none

/-- The wait of a header is met (R93). -/
def WaitMet (s : State) (w : Warp) (h : Header) : Prop :=
  let a := h.waitArg.toNat
  let f : Fld := BitVec.ofNat 8 (192 + a)
  let x := rd w f 0
  let ctx := ctxOfWg s w.wg
  (h.waitKind = 1 → ∀ g ph, tget s.wgs w.wg = some g → warpArrival w a = some ph → barDone g a ph = true) ∧
    (h.waitKind = 2 → anyPending w [f] = false) ∧
    (h.waitKind = 3 → 0 ≤ (BitVec.ofNat 32 (handleVal s ctx x) - rd w (f + 1) 0).toInt) ∧
    (h.waitKind = 4 → 0 ≤ (w.arrive - x).toInt) ∧
    (h.waitKind = 5 → (futEntry s ctx x).st = 2)

section
variable {s : State} {w : Warp} {h : Header}

theorem headerArg_of_waitBad {c : Nat} (bad : waitBad s w h = some c) : headerArg s w h = .error c := by
  unfold waitBad at bad
  dsimp only at bad
  split at bad
  next b =>
    obtain rfl := Option.some.inj bad
    simp only [headerArg, b.1, if_pos b.2]
  split at bad
  next b =>
    obtain rfl := Option.some.inj bad
    simp only [headerArg, b.1, b.2, Bool.false_eq_true, if_false]
  split at bad
  next b =>
    obtain rfl := Option.some.inj bad
    simp only [headerArg, b.1, b.2, Bool.false_eq_true, if_false]
  · cases bad

/-- A wait that names what it may is met when what it has read of its argument says so. -/
theorem headerArg_of_not_waitBad (bad : waitBad s w h = none) (small : h.waitKind = 1 → h.waitArg.toNat < 32) :
    ∃ a, headerArg s w h = .ok a ∧
      (WaitMet s w h ↔ ∀ arg, a = some arg → headerDone s w h.waitKind arg = true) := by
  obtain ⟨check, gneg, guard, waitArg, waitKind, bit7, cls, count⟩ := h
  match waitKind with
  | 1 =>
    replace small : waitArg.toNat < 32 := small rfl
    have listed : ¬ hNbar (hdrOf s w.wg) ≤ waitArg.toNat := fun out => by simp [waitBad, out] at bad
    refine ⟨_, if_neg listed, ?_⟩
    simp only [WaitMet, Option.map_eq_some_iff]
    constructor
    · rintro ⟨met, -⟩ _ ⟨ph, arrived, rfl⟩
      have index : (waitArg.toNat + 32 * ph) % 32 = waitArg.toNat := by omega
      have phase : (waitArg.toNat + 32 * ph) / 32 = ph := by omega
      simp only [headerDone, index, phase]
      split
      next g hg => exact met trivial g ph hg arrived
      · rfl
    · refine fun done => ⟨fun _ g ph hg arrived => ?_, by simp, by simp, by simp, by simp⟩
      have index : (waitArg.toNat + 32 * ph) % 32 = waitArg.toNat := by omega
      have phase : (waitArg.toNat + 32 * ph) / 32 = ph := by omega
      simpa only [headerDone, index, phase, hg] using done _ ⟨ph, arrived, rfl⟩
  | 2 =>
    have register (f : Fld) : BitVec.ofNat 8 f.toNat = f := by rw [BitVec.ofNat_toNat, BitVec.setWidth_eq]
    refine ⟨_, rfl, ?_⟩
    simp only [WaitMet, headerDone, Option.some.injEq, forall_eq', register]
    simp
  | 3 =>
    have named : handleOk s (ctxOfWg s w.wg) (rd w (BitVec.ofNat 8 (192 + waitArg.toNat)) 0) = true := by
      by_contra other
      simp [waitBad, other] at bad
    refine ⟨_, if_pos named, ?_⟩
    have count (x y : Word) : BitVec.ofNat 32 ((x.toNat + 2 ^ 32 * y.toNat) / 2 ^ 32) = y := by
      rw [Nat.add_mul_div_left _ _ (by decide), Nat.div_eq_of_lt x.isLt, Nat.zero_add, BitVec.ofNat_toNat,
        BitVec.setWidth_eq]
    have handle (x y : Word) : BitVec.ofNat 32 (x.toNat + 2 ^ 32 * y.toNat) = x := by
      apply BitVec.eq_of_toNat_eq
      rw [BitVec.toNat_ofNat, Nat.add_mul_mod_self_left, Nat.mod_eq_of_lt x.isLt]
    simp only [WaitMet, headerDone, Option.some.injEq, forall_eq', count, handle, reached_iff]
    simp
  | 4 => exact ⟨_, rfl, by simp [WaitMet, headerDone, reached_iff]⟩
  | 5 =>
    have live : futOk s w.wg (rd w (BitVec.ofNat 8 (192 + waitArg.toNat)) 0) = true := by
      by_contra other
      simp [waitBad, other] at bad
    exact ⟨_, if_pos live, by simp [WaitMet, headerDone, futDone]⟩
  | 0 => exact ⟨none, rfl, by simp [WaitMet]⟩
  | n + 6 => exact ⟨none, rfl, by simp [WaitMet]⟩

end

end Sys2Proof.Machine

namespace Sys2Proof.Machine

/-! The issue of a clause for the threads of a warp that stand together (R94). -/

/-- CLAUSE_ISSUE replaces the warp in slot k by w1; nothing else changes but the choices that the fetch takes. -/
def IssuesClause (s : State) (k : Nat) (w w1 : Warp) : Prop :=
  ∃ t, exec .clauseIssue s = .next t ∧ tget t.warps k = some w1 ∧ (∀ j, j ≠ k → tget t.warps j = tget s.warps j) ∧
    t = { fetchSpent s w.wg with warps := t.warps }

theorem issuesClause_of_exec {s : State} {k : Nat} {w w1 : Warp}
    (h : exec .clauseIssue s = .next (setWarp (fetchSpent s w.wg) k w1)) : IssuesClause s k w w1 := by
  refine ⟨_, h, tget_tput_self .., fun j hj => ?_, rfl⟩
  rw [← (onlyChoices_fetchSpent s w.wg).warps]
  exact tget_tput_ne _ _ hj.symm

/-- The lanes that pass the guard (R94 step 3). -/
theorem getLsbD_guardPass_gathered (w : Warp) (h : Header) (l : Nat) : (guardPass (gathered w) h).getLsbD l =
    ((liveMask w).getLsbD l && (decide (h.guard = 0) || ((rdP w h.guard).getLsbD l != h.gneg))) := by
  have cand : (gathered w).cand = liveMask w := rfl
  rw [guardPass, rdP_gathered, cand]
  by_cases guard : h.guard = 0
  · simp [guard]
  · rw [if_neg guard, decide_eq_false guard, Bool.false_or, BitVec.getLsbD_and]
    by_cases hl : l < 32
    · cases h.gneg <;> simp [hl]
    · rw [BitVec.getLsbD_of_ge (liveMask w) l (by omega), Bool.false_and, Bool.false_and]

/-- The warp whose clause has issued: the lanes that pass the guard are active at its first word, and the others go to
the next header (R94 steps 3 to 5). -/
def entered (w : Warp) (hdr : DWord) (h : Header) (ws : List Word) : Warp :=
  { modLanes (gathered w) (liveMask w) (fun l t => { t with
      wait := .none, pc := if (guardPass (gathered w) h).getLsbD l then ⟨hdr, 1⟩ else ⟨nextHdr hdr ws.length, 0⟩ }) with
    act := guardPass (gathered w) h, code := ws }

/-- The warp whose lanes wait at the header (R93). -/
def waiting (w : Warp) (hdr : DWord) (h : Header) (arg : Nat) : Warp :=
  beginWait (gathered w) (liveMask w) (.header h.waitKind arg) ⟨hdr, 0⟩

/-! What the wait reads is as it was before the clause was fetched. -/

theorem headerArg_fetched (s : State) (k : Nat) (w : Warp) (x : Header) :
    headerArg (setWarp (fetchSpent s w.wg) k (gathered w)) (gathered w) x = headerArg s w x := by
  have arrived : headerArg (fetchSpent s w.wg) (gathered w) x = headerArg (fetchSpent s w.wg) w x := by
    simp only [headerArg, warpArrival_gathered]
    rfl
  exact arrived.trans ((onlyChoices_fetchSpent s w.wg).headerArg_eq w x)

theorem headerDone_fetched (s : State) (k : Nat) (w : Warp) (kind arg : Nat) :
    headerDone (setWarp (fetchSpent s w.wg) k (gathered w)) (gathered w) kind arg = headerDone s w kind arg :=
  (onlyChoices_fetchSpent s w.wg).headerDone_eq w kind arg

theorem clauseGuard_plain (s : State) (k : Nat) (w : Warp) (hdr : DWord) (h : Header) {ws : List Word}
    (noJoin : holdsRjoin ws = false) :
    clauseGuard s k (gathered w) hdr h ws = setWarp s k (entered w hdr h ws) := by
  simp only [clauseGuard, noJoin, Bool.false_eq_true, if_false]
  rfl

section
variable {s : State} {k : Nat} {w : Warp} {hdr : DWord} (h : Together w hdr)
include h

theorem Together.thr_modLanes_live (f : Nat → Thread → Thread) (l : Nat) :
    thr (modLanes (gathered w) (liveMask w) f) l = (thr w l).map (fun x => f l { x with passes := 0 }) := by
  rw [thr_modLanes, thr_gathered, Option.map_map]
  cases hx : thr w l with
  | none => rfl
  | some x =>
    have live : (liveMask w).getLsbD l = true := h.live (tget_mem hx)
    simp [live]

theorem Together.thr_waiting (x : Header) (arg l : Nat) : thr (waiting w hdr x arg) l = (thr w l).map (fun t => { t with
    passes := 0, wait := .header x.waitKind arg, next := ⟨hdr, 0⟩ }) :=
  h.thr_modLanes_live (fun _ t => { t with wait := .header x.waitKind arg, next := ⟨hdr, 0⟩ }) l

theorem Together.thr_entered (x : Header) (ws : List Word) (l : Nat) :
    thr (entered w hdr x ws) l = (thr w l).map (fun t => { t with
      passes := 0, wait := .none,
      pc := if (entered w hdr x ws).act.getLsbD l then ⟨hdr, 1⟩ else ⟨nextHdr hdr ws.length, 0⟩ }) :=
  h.thr_modLanes_live (fun l t => { t with
    wait := .none, pc := if (guardPass (gathered w) x).getLsbD l then ⟨hdr, 1⟩ else ⟨nextHdr hdr ws.length, 0⟩ }) l

theorem Together.waiting_other (x : Header) (arg : Nat) :
    waiting w hdr x arg = { w with threads := (waiting w hdr x arg).threads } := by
  obtain ⟨act, cand, -, -, -⟩ := h
  show { w with threads := (waiting w hdr x arg).threads, cand := 0, act := 0 } = _
  rw [act, cand]

/-- No thread of such a warp has waited for the header. -/
theorem Together.no_headerOk : ¬ lanesWhere (gathered w) (fun t => t.wait == .headerOk) &&& (gathered w).cand ≠ 0 := by
  have none : lanesWhere (gathered w) (fun t => t.wait == .headerOk) = 0 := lanesWhere_eq_zero (fun e he => by
    obtain ⟨y, hy, rfl⟩ := List.mem_map.1 he
    simp [(h.stands y hy).2.1])
  rw [none]
  exact not_not.2 BitVec.zero_and

section
variable (turn : s.issuer = .warp k) (slot : tget s.warps k = some w)
include turn slot

theorem Together.exec_clauseIssue :
    exec .clauseIssue s = .next (issueClause (setWarp s k (gathered w)) k (gathered w)) := by
  show execClauseIssue s = _
  simp only [execClauseIssue, turn, h.warpClause_eq slot]

/-- A clause whose fetch faults. -/
theorem Together.clauseIssue_error {c fpc fa : Nat}
    (bad : fetchClause (setWarp s k (gathered w)) w.wg false hdr = .error (c, fpc, fa)) : exec .clauseIssue s =
      .next (clauseFault (setWarp s k (gathered w)) k (gathered w) (liveMask w) c fpc fa) := by
  obtain ⟨l, lowest, pc⟩ := h.lowest_pc
  have cand : (gathered w).cand = liveMask w := rfl
  have wg : (gathered w).wg = w.wg := rfl
  rw [h.exec_clauseIssue turn slot, issueClause, cand, lowest]
  dsimp only
  rw [pc, wg, bad]

variable {x : Header} {ws : List Word} (good : fetchClause (setWarp s k (gathered w)) w.wg false hdr = .ok (x, ws))
include good

/-- A clause as fetched meets its wait. -/
theorem Together.clauseIssue_ok : exec .clauseIssue s =
    .next (clauseWait (setWarp (fetchSpent s w.wg) k (gathered w)) k (gathered w) hdr x ws) := by
  obtain ⟨l, lowest, pc⟩ := h.lowest_pc
  have cand : (gathered w).cand = liveMask w := rfl
  have wg : (gathered w).wg = w.wg := rfl
  rw [h.exec_clauseIssue turn slot, issueClause, cand, lowest]
  dsimp only
  rw [pc, wg, good]
  dsimp only
  rw [if_pos rfl, fetchSpent_setWarp]

/-- A wait of a register that is pending keeps the warp at the header (R67). -/
theorem Together.clauseIssue_pending (pending : anyPending w (headerRegs x) = true) :
    IssuesClause s k w (gathered w) := by
  have waits : x.waitKind ≠ 0 := fun kind => by simp [headerRegs, kind, anyPending] at pending
  have pending1 : anyPending (gathered w) (headerRegs x) = true := pending
  apply issuesClause_of_exec
  rw [h.clauseIssue_ok turn slot good, clauseWait, if_neg (not_or.2 ⟨waits, h.no_headerOk⟩), if_pos pending1]

variable (free : anyPending w (headerRegs x) = false)
include free

/-- A wait looks at what it needs first, and then whether it is met. -/
theorem Together.clauseIssue_waits (waits : x.waitKind ≠ 0) :
    let fetched := setWarp (fetchSpent s w.wg) k (gathered w)
    let enters := clauseGuard fetched k (gathered w) hdr x ws
    (∀ c, headerArg s w x = .error c → exec .clauseIssue s =
      .next (faultLane fetched k (gathered w) ((lowest (liveMask w)).getD 0) c 0 0 hdr)) ∧
    (headerArg s w x = .ok none → exec .clauseIssue s = .next enters) ∧
    (∀ arg, headerArg s w x = .ok (some arg) → exec .clauseIssue s =
      .next (if headerDone s w x.waitKind arg then enters else setWarp fetched k (waiting w hdr x arg))) := by
  have free1 : ¬ anyPending (gathered w) (headerRegs x) = true := ne_true_of_eq_false free
  have next := h.clauseIssue_ok turn slot good
  rw [clauseWait, if_neg (not_or.2 ⟨waits, h.no_headerOk⟩), if_neg free1, headerArg_fetched] at next
  refine ⟨fun c read => ?_, fun read => ?_, fun arg read => ?_⟩ <;> rw [read] at next
  · exact next
  · exact next
  · rw [← headerDone_fetched s k]
    exact next

/-- A wait whose index or handle is wrong ends the grid at the header (R198, R180, R258). -/
theorem Together.clauseIssue_wrong {c : Nat} (bad : waitBad s w x = some c) :
    ∃ t, exec .clauseIssue s = .next t ∧ EndsGrid s t (serialOf w.wg) c hdr.toNat 0 := by
  have arg := headerArg_of_waitBad bad
  have waits : x.waitKind ≠ 0 := fun kind => by simp [headerArg, kind] at arg
  refine ⟨_, (h.clauseIssue_waits turn slot good free waits).1 c arg, ?_⟩
  have pc : hdr = BitVec.ofNat 64 hdr.toNat := by rw [BitVec.ofNat_toNat, BitVec.setWidth_eq]
  have ends := faultLane_ends (onlyChoices_fetchSpent s w.wg) k (gathered w) ((lowest (liveMask w)).getD 0) c
    hdr.toNat 0
  rw [← pc] at ends
  exact ends

/-- A wait that is not met holds every lane at the header (R93). -/
theorem Together.clauseIssue_holds (bad : waitBad s w x = none) (unmet : ¬ WaitMet s w x) :
    ∃ arg, headerArg s w x = .ok (some arg) ∧ IssuesClause s k w (waiting w hdr x arg) := by
  obtain ⟨a, read, met⟩ := headerArg_of_not_waitBad bad (waitArg_lt_of_headerFault (headerFault_of_fetchClause good))
  have open_ := mt met.2 unmet
  push Not at open_
  obtain ⟨arg, rfl, notDone⟩ := open_
  have waits : x.waitKind ≠ 0 := fun kind => by simp [headerArg, kind] at read
  refine ⟨arg, read, issuesClause_of_exec ?_⟩
  rw [(h.clauseIssue_waits turn slot good free waits).2.2 arg read, if_neg notDone, setWarp_setWarp]

/-- Once the wait is met the clause is entered (R94). -/
theorem Together.clauseIssue_enters (bad : waitBad s w x = none) (met : WaitMet s w x)
    (noJoin : holdsRjoin ws = false) : IssuesClause s k w (entered w hdr x ws) := by
  have enters : clauseGuard (setWarp (fetchSpent s w.wg) k (gathered w)) k (gathered w) hdr x ws =
      setWarp (fetchSpent s w.wg) k (entered w hdr x ws) := by
    rw [clauseGuard_plain _ k w hdr x noJoin, setWarp_setWarp]
  apply issuesClause_of_exec
  by_cases none : x.waitKind = 0
  · rw [h.clauseIssue_ok turn slot good, clauseWait, if_pos (.inl none), enters]
  obtain ⟨a, read, iff⟩ := headerArg_of_not_waitBad bad (waitArg_lt_of_headerFault (headerFault_of_fetchClause good))
  obtain ⟨-, unread, readFirst⟩ := h.clauseIssue_waits turn slot good free none
  cases a with
  | none => rw [unread read, enters]
  | some arg => rw [readFirst arg read, if_pos (iff.1 met arg rfl), enters]

end

end

/-- Settles O13, from the lemmas on a warp whose threads stand together and on what a clause's fetch looks at. -/
theorem clausesAndWaits : Obligations.ClausesAndWaits := by
  unfold Obligations.ClausesAndWaits
  refine ⟨?issue, ?fetch, ?header, ?words, ?waits⟩
  case issue =>
    intro s k w hdr turn slot act cand held nonempty stands n ends
    have h : Together w hdr := ⟨act, cand, held, nonempty, stands⟩
    refine ⟨fun c fpc fa bad plain => ?error, fun x ws good => ?fetched⟩
    case error =>
      exact ⟨_, h.clauseIssue_error turn slot (bad _), clauseFault_ends s k w _ fpc fa plain⟩
    have good := good (setWarp s k (gathered w)).warps
    refine ⟨fun pending => ?pending, fun free => ⟨
      fun c bad => ?wrong, fun bad unmet => ?holds, fun bad met noJoin => ?enters⟩⟩
    case pending => exact ⟨gathered w, h.clauseIssue_pending turn slot good pending, rfl, thr_gathered w⟩
    case wrong => exact h.clauseIssue_wrong turn slot good free bad
    case holds =>
      obtain ⟨arg, read, issues⟩ := h.clauseIssue_holds turn slot good free bad unmet
      exact ⟨_, arg, issues, read, h.waiting_other x arg, h.thr_waiting x arg⟩
    case enters =>
      exact ⟨_, h.clauseIssue_enters turn slot good free bad met noJoin, rfl, rfl, getLsbD_guardPass_gathered w x,
        h.thr_entered x ws, rfl⟩
  case fetch =>
    intro s wg seq pc
    exact ⟨fetchClause_misaligned, fun aligned => ⟨fun c a => fetchClause_noHeader aligned, fun x header =>
      ⟨fun c => fetchClause_badHeader aligned header, fun good => ⟨fun c a => fetchClause_noWord aligned header good,
        fun ws words => ⟨fun i c => fetchClause_badWord aligned header good words,
          fetchClause_good aligned header good words⟩⟩⟩⟩⟩
  case header =>
    intro seq x check guard arg kind cls unused bad
    obtain ⟨checked, rest⟩ := headerFault_order seq (unpackHeader x)
    have isBad : headerBad (unpackHeader x) = true ↔ bad := headerBad_unpack x
    have none : (unpackHeader x).count = 0 ↔ x.extractLsb' 0 4 = 0 :=
      ⟨fun e => BitVec.eq_of_toNat_eq e, fun e => congrArg BitVec.toNat e⟩
    have stream : (unpackHeader x).cls = cls := rfl
    refine ⟨checked, fun hc => ⟨fun hn => (rest hc).1 (none.2 hn), fun hn => ?_⟩⟩
    obtain ⟨wrong, right⟩ := (rest hc).2 (mt none.1 hn)
    refine ⟨fun hb => wrong (isBad.2 hb), fun hb => ?_⟩
    obtain ⟨other, same⟩ := right (Bool.eq_false_iff.2 (mt isBad.1 hb))
    rw [stream] at other same
    exact ⟨fun h => other (by cases seq <;> simp [h]), fun h => same (by cases seq <;> simp [h])⟩
  case words =>
    intro cls n x r
    exact ⟨wordsFault_nil cls n, fun lane => ⟨wordsFault_unlisted lane, fun sh shape =>
      ⟨wordsFault_class lane shape, fun fits => ⟨fun c => wordsFault_undecoded lane shape fits,
        fun i decodes => ⟨wordsFault_early lane shape fits decodes, wordsFault_next lane shape fits decodes⟩⟩⟩⟩,
      fun c => wordsFault_stream_undecoded,
      fun i decodes => ⟨wordsFault_stream_early decodes, wordsFault_stream_next decodes⟩⟩
  case waits =>
    intro s k w quiet
    exact ⟨fun h => ⟨fun i => nop_retires h quiet, sleep_zero h quiet, fun m => sleep_waits h quiet⟩,
      sleepExpiry_releases quiet⟩

end Sys2Proof.Machine

/-! PROOF. The integer instructions (09 R123): the value of each function, and the form of the words that compute it. -/

namespace Sys2Proof.Machine

/-! The functions of the integer table (R123), by s() and n() of their operands. -/

theorem sub_eq_ofInt {n : Nat} (x y : BitVec n) : x - y = BitVec.ofInt n (x.toInt - y.toInt) := by
  rw [Int.sub_eq_add_neg, BitVec.ofInt_add, BitVec.ofInt_neg, BitVec.ofInt_toInt, BitVec.ofInt_toInt, BitVec.sub_eq_add_neg]

theorem mul_eq_ofNat {n : Nat} (x y : BitVec n) : x * y = BitVec.ofNat n (x.toNat * y.toNat) :=
  BitVec.eq_of_toNat_eq (by rw [BitVec.toNat_mul, BitVec.toNat_ofNat])

/-- The product of two words as signed numbers, in a doubleword. -/
theorem mulSigned_eq (x y : Word) : x.signExtend 64 * y.signExtend 64 = BitVec.ofInt 64 (x.toInt * y.toInt) := by
  rw [BitVec.ofInt_mul, BitVec.signExtend, BitVec.signExtend]

/-- The product of two words as unsigned numbers, in a doubleword. -/
theorem mulUnsigned_eq (x y : Word) : x.setWidth 64 * y.setWidth 64 = BitVec.ofNat 64 (x.toNat * y.toNat) := by
  rw [mul_eq_ofNat, BitVec.toNat_setWidth_of_le (by decide), BitVec.toNat_setWidth_of_le (by decide)]

theorem mulHighS_eq (x y : Word) : mulHighS x y = BitVec.ofInt 32 (x.toInt * y.toInt / 2 ^ 32) := by
  apply BitVec.eq_of_toNat_eq
  rw [mulHighS, mulSigned_eq, BitVec.extractLsb'_toNat, BitVec.toNat_ofInt, BitVec.toNat_ofInt, Nat.shiftRight_eq_div_pow]
  generalize x.toInt * y.toInt = z
  omega

theorem mulHighU_eq (x y : Word) : mulHighU x y = BitVec.ofNat 32 (x.toNat * y.toNat / 2 ^ 32) := by
  have bound : x.toNat * y.toNat < 2 ^ 64 := show _ < 2 ^ 32 * 2 ^ 32 from Nat.mul_lt_mul'' x.isLt y.isLt
  apply BitVec.eq_of_toNat_eq
  rw [mulHighU, mulUnsigned_eq, BitVec.extractLsb'_toNat, BitVec.toNat_ofNat, BitVec.toNat_ofNat, Nat.mod_eq_of_lt bound,
    Nat.shiftRight_eq_div_pow]

theorem mulAdd_eq (x y z : Word) : x * y + z = BitVec.ofNat 32 (x.toNat * y.toNat + z.toNat) := by
  rw [BitVec.ofNat_add, ← mul_eq_ofNat, BitVec.ofNat_toNat, BitVec.setWidth_eq]

theorem minS_eq (x y : Word) : minS x y = BitVec.ofInt 32 (min x.toInt y.toInt) := by
  unfold minS
  split
  · next h => rw [min_eq_left h, BitVec.ofInt_toInt]
  · next h => rw [min_eq_right (by omega), BitVec.ofInt_toInt]

theorem maxS_eq (x y : Word) : maxS x y = BitVec.ofInt 32 (max x.toInt y.toInt) := by
  unfold maxS
  split
  · next h => rw [max_eq_right h, BitVec.ofInt_toInt]
  · next h => rw [max_eq_left (by omega), BitVec.ofInt_toInt]

theorem minU_eq (x y : Word) : minU x y = BitVec.ofNat 32 (min x.toNat y.toNat) := by
  unfold minU
  split
  · next h => rw [min_eq_left h, BitVec.ofNat_toNat, BitVec.setWidth_eq]
  · next h => rw [min_eq_right (by omega), BitVec.ofNat_toNat, BitVec.setWidth_eq]

theorem maxU_eq (x y : Word) : maxU x y = BitVec.ofNat 32 (max x.toNat y.toNat) := by
  unfold maxU
  split
  · next h => rw [max_eq_right h, BitVec.ofNat_toNat, BitVec.setWidth_eq]
  · next h => rw [max_eq_left (by omega), BitVec.ofNat_toNat, BitVec.setWidth_eq]

theorem addImm_eq (x : Word) (imm : Fld) : x + simm8 imm = BitVec.ofInt 32 (x.toInt + imm.toInt) := by
  rw [BitVec.ofInt_add, BitVec.ofInt_toInt, simm8, BitVec.signExtend]

theorem absW_eq (x : Word) : absW x = BitVec.ofNat 32 x.toInt.natAbs := by
  unfold absW
  apply BitVec.eq_of_toNat_eq
  have lt := x.isLt
  split
  · next neg =>
    rw [BitVec.toInt_eq_toNat_cond] at neg ⊢
    rw [BitVec.toNat_neg, BitVec.toNat_ofNat]
    split at neg
    · omega
    · rw [if_neg ‹_›]; omega
  · next pos =>
    rw [BitVec.toInt_eq_toNat_cond] at pos ⊢
    rw [BitVec.toNat_ofNat]
    split at pos
    · rw [if_pos ‹_›]; omega
    · omega

theorem neg_eq_ofNat (x : Word) : -x = BitVec.ofNat 32 (2 ^ 32 - x.toNat) := BitVec.eq_of_toNat_eq (by simp)

theorem shlW_eq (x y : Word) : shlW x y = if 32 ≤ y.toNat then 0 else x <<< y.toNat := by
  unfold shlW
  split
  · next h => exact BitVec.shiftLeft_eq_zero h
  · rfl

theorem shrW_eq (x y : Word) : shrW x y = if 32 ≤ y.toNat then 0 else x >>> y.toNat := by
  unfold shrW
  split
  · next h => exact BitVec.ushiftRight_eq_zero h
  · rfl

theorem sarW_eq (x y : Word) :
    sarW x y = if 32 ≤ y.toNat then (if x.msb then BitVec.allOnes 32 else 0) else x.sshiftRight y.toNat := by
  unfold sarW
  split
  · next h => 
    rw [min_eq_right h]
    ext i hi
    rw [BitVec.getElem_sshiftRight]
    rw [dif_neg (by omega)]
    cases x.msb
    · exact (BitVec.getElem_zero hi).symm
    · exact (BitVec.getElem_allOnes i hi).symm
  · next h => rw [min_eq_left (by omega)]

theorem popcW_eq (x : Word) : popcW x = BitVec.ofNat 32 ((List.range 32).countP (fun i => x.getLsbD i)) := by
  rw [popcW, List.countP_eq_length_filter]

/-- The leading zero bits of a number of n bits are as many as the powers of two above it. -/
theorem length_leadingZeros (x n : Nat) (h : x < 2 ^ n) :
    ((List.range n).takeWhile (fun i => !x.testBit (n - 1 - i))).length =
      (List.range n).countP (fun i => decide (x < 2 ^ i)) := by
  induction n with
  | zero => rfl
  | succ n ih =>
    have shifted : (fun i => !x.testBit (n + 1 - 1 - i)) ∘ Nat.succ = fun i => !x.testBit (n - 1 - i) := by
      funext i
      simp only [Function.comp, show n + 1 - 1 - i.succ = n - 1 - i by omega]
    rw [show (List.range (n + 1)).takeWhile _ = _ by rw [List.range_succ_eq_map, List.takeWhile_cons]]
    by_cases small : x < 2 ^ n
    · have top : x.testBit n = false := Nat.testBit_lt_two_pow small
      rw [show x.testBit (n + 1 - 1 - 0) = false from top, Bool.not_false, if_pos rfl, List.length_cons,
        List.takeWhile_map, shifted, List.length_map, ih small, List.range_succ, List.countP_append]
      simp [small]
    · have top : x.testBit n = true := Nat.testBit_of_two_pow_le_and_two_pow_add_one_gt (by omega) h
      have none : (List.range (n + 1)).countP (fun i => decide (x < 2 ^ i)) = 0 := by
        refine List.countP_eq_zero.2 fun i hi => ?_
        have le : 2 ^ i ≤ 2 ^ n := Nat.pow_le_pow_right (by decide) (by have := List.mem_range.1 hi; omega)
        rw [decide_eq_true_eq]
        omega
      rw [show x.testBit (n + 1 - 1 - 0) = true from top, none]
      rfl

theorem clzW_eq (x : Word) : clzW x = BitVec.ofNat 32 ((List.range 32).countP (fun i => decide (x.toNat < 2 ^ i))) := by
  rw [clzW, ← length_leadingZeros x.toNat 32 x.isLt]
  rfl

/-! Words that write D lane by lane from their sources (R117). -/

section
variable {i : Instr} {s : State} {k : Nat} {w : Warp} {d a b : Fld} {g : Nat → Word}

theorem alu2_writes (h : Issues s k w [a, b, d]) (hs : w.sstep = false) {f : Word → Word → Word}
    (hi : exec i s = alu2 s d a b f) (hg : ∀ l, f (rd w a l) (rd w b l) = g l) : WritesLanes i s k w d g :=
  warpWord_writes h hs d (fun w l => f (rd w a l) (rd w b l)) g hi fun l _ => by
    rw [rd_clearPass, rd_clearPass, hg]

theorem alu1_writes (h : Issues s k w [a, d]) (hs : w.sstep = false) {f : Word → Word}
    (hi : exec i s = alu1 s d a f) (hg : ∀ l, f (rd w a l) = g l) : WritesLanes i s k w d g :=
  warpWord_writes h hs d (fun w l => f (rd w a l)) g hi fun l _ => by rw [rd_clearPass, hg]

end

/-- A word with a B field that its opcode does not use is refused with 0x06 where that field is not zero (R102, R103). -/
theorem decodeLaneWord_unusedB {op d a b : Fld} {sh : Shape} {i : Instr} (shape : laneShape op d = some sh)
    (single : sh.trail = .none) (unused : sh.b = false) (built : buildLane op d a b Tail.zero = some i) (hb : b ≠ 0) :
    decodeLaneWord (op ++ d ++ a ++ b) none = .bad 6 := by
  obtain ⟨f1, f2, f3, f4⟩ := Laws.RoundTrip.lane_fields op d a b
  obtain ⟨cls, trail, term, ud, ua, ub, tail⟩ := sh
  obtain rfl : trail = .none := single
  obtain rfl : ub = false := unused
  have reserved : unusedZero ⟨cls, .none, term, ud, ua, false, tail⟩ d a b Tail.zero = false := by
    rw [unusedZero, Bool.false_or, beq_eq_false_iff_ne.2 hb, Bool.and_false, Bool.false_and]
  simp only [decodeLaneWord, f1, f2, f3, f4, shape, decodeLane, built, reserved]
  rfl

theorem check67_seven {bad : Bool} (h : bad = true) : check67 false bad = some 7 := by rw [h]; rfl

/-- Settles O1: each word by the lemma on words of its form and the value of its function. -/
theorem integerInstructions : Obligations.IntegerInstructions := by
  unfold Obligations.IntegerInstructions
  intro s k w quiet d a b c
  refine ⟨fun h => ?two, fun h => ?three, fun h imm => ?one, fun imm wide => ?refused, fun op unary hb => ?reserved⟩
  case two =>
    exact ⟨alu2_writes (f := (· + ·)) h quiet rfl fun l => BitVec.add_def _ _,
      alu2_writes (f := (· - ·)) h quiet rfl fun l => sub_eq_ofInt _ _,
      alu2_writes (f := (· * ·)) h quiet rfl fun l => mul_eq_ofNat _ _,
      alu2_writes (f := mulHighS) h quiet rfl fun l => mulHighS_eq _ _,
      alu2_writes (f := mulHighU) h quiet rfl fun l => mulHighU_eq _ _,
      alu2_writes (f := minS) h quiet rfl fun l => minS_eq _ _,
      alu2_writes (f := maxS) h quiet rfl fun l => maxS_eq _ _,
      alu2_writes (f := minU) h quiet rfl fun l => minU_eq _ _,
      alu2_writes (f := maxU) h quiet rfl fun l => maxU_eq _ _,
      alu2_writes (f := (· &&& ·)) h quiet rfl fun l => rfl,
      alu2_writes (f := (· ||| ·)) h quiet rfl fun l => rfl,
      alu2_writes (f := (· ^^^ ·)) h quiet rfl fun l => rfl,
      alu2_writes (f := fun x y => x &&& ~~~y) h quiet rfl fun l => rfl,
      alu2_writes (f := shlW) h quiet rfl fun l => shlW_eq _ _,
      alu2_writes (f := shrW) h quiet rfl fun l => shrW_eq _ _,
      alu2_writes (f := sarW) h quiet rfl fun l => sarW_eq _ _,
      alu2_writes (f := rotlW) h quiet rfl fun l => rfl,
      fun aux => alu2_writes (f := fun x y => x + y <<< aux.toNat) h quiet rfl fun l => rfl⟩
  case three =>
    exact warpWord_writes h quiet d (fun w l => rd w a l * rd w b l + rd w c l) _ rfl fun l _ => by
      rw [rd_clearPass, rd_clearPass, rd_clearPass, mulAdd_eq]
  case one =>
    have amount : (imm.setWidth 32).toNat = imm.toNat := BitVec.toNat_setWidth_of_le (by decide)
    exact ⟨alu1_writes (f := (· + simm8 imm)) h quiet rfl fun l => addImm_eq _ _,
      alu1_writes (f := absW) h quiet rfl fun l => absW_eq _,
      alu1_writes (f := fun x => -x) h quiet rfl fun l => neg_eq_ofNat _,
      alu1_writes (f := fun x => ~~~x) h quiet rfl fun l => rfl,
      fun small => ⟨
        alu1_writes (f := fun x => shlW x (imm.setWidth 32)) h quiet rfl fun l => by rw [shlW, amount],
        alu1_writes (f := fun x => shrW x (imm.setWidth 32)) h quiet rfl fun l => by rw [shrW, amount],
        alu1_writes (f := fun x => sarW x (imm.setWidth 32)) h quiet rfl fun l => by rw [sarW, amount, min_eq_left (by omega)]⟩,
      alu1_writes (f := popcW) h quiet rfl fun l => popcW_eq _,
      alu1_writes (f := clzW) h quiet rfl fun l => clzW_eq _,
      alu1_writes (f := brevW) h quiet rfl fun l => rfl⟩
  case refused =>
    have beyond : above 31 imm = true := decide_eq_true (by omega)
    exact ⟨check67_seven beyond, check67_seven beyond, check67_seven beyond, check67_seven beyond⟩
  case reserved =>
    simp only [List.mem_cons, List.not_mem_nil, or_false] at unary
    rcases unary with rfl | rfl | rfl | rfl | rfl | rfl <;> exact decodeLaneWord_unusedB rfl rfl rfl rfl hb

end Sys2Proof.Machine

/-! PROOF. Bit fields (09 R124, R125). -/

namespace Sys2Proof.Machine

/-! Bit fields (R124, R125). -/

/-- A field of a bit string as a number. -/
theorem field_eq {n : Nat} (x : BitVec n) (hi lo : Nat) : field x hi lo = x.toNat / 2 ^ lo % 2 ^ (hi - lo + 1) := by
  rw [field, BitVec.extractLsb'_toNat, Nat.shiftRight_eq_div_pow]

/-- The field word of BFX is SUB above AUX. -/
theorem bfxField_toNat (sub : BitVec 4) (aux : Fld) : (sub ++ aux).toNat = sub.toNat * 256 + aux.toNat := by
  rw [BitVec.toNat_append, ← Nat.shiftLeft_add_eq_or_of_lt aux.isLt, Nat.shiftLeft_eq]

/-- A field of W bits with its sign bit set, taken with its sign. -/
theorem signedField_eq {f W : Nat} (hW : W ≤ 32) :
    BitVec.ofNat 32 (f + (2 ^ 32 - 2 ^ W)) = BitVec.ofInt 32 ((f : Int) - 2 ^ W) := by
  have le : 2 ^ W ≤ 2 ^ 32 := Nat.pow_le_pow_right (by decide) hW
  have cast : ((2 : Int) ^ W) = ((2 ^ W : Nat) : Int) := by push_cast; rfl
  apply BitVec.eq_of_toNat_eq
  rw [BitVec.toNat_ofNat, BitVec.toNat_ofInt, cast]
  generalize 2 ^ W = p at le
  omega

theorem bfxW_eq (sub : BitVec 4) (aux : Fld) (x : Word) {P W : Nat} (hP : P = aux.toNat % 32)
    (hW : W = sub.toNat % 8 * 4 + aux.toNat / 64 + 1) : bfxW sub aux x =
      if sub.getLsbD 3 = true ∧ 2 ^ (W - 1) ≤ x.toNat / 2 ^ P % 2 ^ W
      then BitVec.ofInt 32 ((x.toNat / 2 ^ P % 2 ^ W : Nat) - 2 ^ W)
      else BitVec.ofNat 32 (x.toNat / 2 ^ P % 2 ^ W) := by
  have lt := aux.isLt
  have pos : field (sub ++ aux) 4 0 = P := by rw [field_eq, bfxField_toNat]; omega
  have width : field (sub ++ aux) 10 6 + 1 = W := by rw [field_eq, bfxField_toNat]; omega
  have sign : (sub ++ aux).getLsbD 11 = sub.getLsbD 3 := by rw [BitVec.getLsbD_append, if_neg (by decide)]
  rw [bfxW]
  rw [pos, width, sign]
  simp only [Bool.and_eq_true, decide_eq_true_eq]
  rw [signedField_eq (by omega)]

/-- The mask of a field of W bits at P. -/
theorem getLsbD_fieldMask (P W i : Nat) (hi : i < 32) :
    (BitVec.ofNat 32 ((2 ^ W - 1) * 2 ^ P)).getLsbD i = decide (P ≤ i ∧ i < P + W) := by
  rw [BitVec.getLsbD_ofNat, Nat.testBit_mul_two_pow, Nat.testBit_two_pow_sub_one, decide_eq_true hi, Bool.true_and]
  rw [Bool.eq_iff_iff]
  simp only [Bool.and_eq_true, decide_eq_true_eq]
  omega

theorem getLsbD_bfiW (aux : Fld) (x y : Word) {P W i : Nat} (hP : P = aux.toNat % 32) (hW : W = 2 ^ (aux.toNat / 32))
    (hi : i < 32) :
    (bfiW aux x y).getLsbD i = if P ≤ i ∧ i < P + W then y.getLsbD (i - P) else x.getLsbD i := by
  have lt := aux.isLt
  have pos : field aux 4 0 = P := by rw [field_eq]; omega
  have width : field aux 7 5 = aux.toNat / 32 := by rw [field_eq]; omega
  rw [bfiW]
  rw [pos, width, ← hW, BitVec.getLsbD_or, BitVec.getLsbD_and, BitVec.getLsbD_and, BitVec.getLsbD_not,
    BitVec.getLsbD_shiftLeft, getLsbD_fieldMask P W i hi]
  by_cases inside : P ≤ i ∧ i < P + W
  · simp [inside, hi, Nat.not_lt.2 inside.1]
  · simp [inside, hi]

/-- Settles O2: the refusals are the two conditions of the field word, and the value is that of the word's function. -/
theorem bitFieldInstructions : Obligations.BitFieldInstructions := by
  unfold Obligations.BitFieldInstructions
  intro s k w quiet d a b sub aux
  refine ⟨fun P W hP hW => ⟨fun reserved => ?bfxReserved, fun plain wide => ?bfxWide, fun plain fits h => ?bfx⟩,
    fun P W hP hW => ⟨fun reserved => ?bfiReserved, fun plain wide => ?bfiWide, fun plain fits h => ?bfi⟩⟩
  case bfxReserved => rw [fieldFault, reserved]; rfl
  case bfxWide => rw [fieldFault, plain]; exact check67_seven (decide_eq_true (by omega))
  case bfx => exact alu1_writes (f := bfxW sub aux) h quiet rfl fun l => bfxW_eq sub aux _ hP hW
  case bfiReserved => rw [fieldFault, decide_eq_true reserved]; rfl
  case bfiWide =>
    rw [fieldFault, decide_eq_false (by omega), ← hW]
    exact check67_seven (decide_eq_true (by omega))
  case bfi =>
    exact ⟨_, alu2_writes (f := bfiW aux) h quiet rfl fun l => rfl, fun l _ i hi => getLsbD_bfiW aux _ _ hP hW hi⟩

end Sys2Proof.Machine

/-! PROOF. Wide instructions (09 R119, R126). -/

namespace Sys2Proof.Machine

/-! Register pairs (R119, R126). -/

theorem alu64_writes {i : Instr} {s : State} {k : Nat} {w : Warp} {d a b : Fld} {g : Nat → DWord}
    (h : Issues s k w (pair a ++ pair b ++ pair d)) (hs : w.sstep = false) (hd : odd d = false)
    {f : DWord → DWord → DWord} (hi : exec i s = alu64 s d a b f) (hg : ∀ l, f (rd64 w a l) (rd64 w b l) = g l) :
    WritesPair i s k w d g :=
  warpWord_writes64 h hs d hd (fun w l => f (rd64 w a l) (rd64 w b l)) g hi fun l _ => by
    rw [rd64_clearPass, rd64_clearPass, hg]

/-- The product that MULW places in the pair (R126). -/
def mulwValue (sub : BitVec 4) (x y : Word) : DWord :=
  if sub = 0 then x.setWidth 64 * y.setWidth 64 else x.signExtend 64 * y.signExtend 64

theorem mulw_writes {s : State} {k : Nat} {w : Warp} {d a b : Fld} {g : Nat → DWord}
    (h : Issues s k w ([a, b] ++ pair d)) (hs : w.sstep = false) (hd : odd d = false) (sub : BitVec 4)
    (hg : ∀ l, mulwValue sub (rd w a l) (rd w b l) = g l) : WritesPair (.mulw d a b sub) s k w d g :=
  warpWord_writes64 h hs d hd (fun w l => mulwValue sub (rd w a l) (rd w b l)) g rfl fun l _ => by
    rw [rd_clearPass, rd_clearPass, hg]

/-- Settles O3, by the lemmas on words that write a pair and the conditions on their fields. -/
theorem wideInstructions : Obligations.WideInstructions := by
  unfold Obligations.WideInstructions
  intro s k w quiet d a b
  refine ⟨fun h even => ⟨?add, ?sub⟩, fun h even => ⟨?unsigned, ?signed⟩, fun sub unassigned => ?sub6, fun oddD => ?oddD,
    fun oddAB => ?oddAB⟩
  case add => exact alu64_writes (f := (· + ·)) h quiet even rfl fun l => BitVec.add_def _ _
  case sub => exact alu64_writes (f := (· - ·)) h quiet even rfl fun l => sub_eq_ofInt _ _
  case unsigned => exact mulw_writes h quiet even 0 fun l => mulUnsigned_eq _ _
  case signed => exact mulw_writes h quiet even 1 fun l => mulSigned_eq _ _
  case sub6 => rw [fieldFault, subAbove, decide_eq_true unassigned]; rfl
  case oddD =>
    have broken : (odd d || odd a || odd b) = true := by rw [oddD, Bool.true_or, Bool.true_or]
    exact ⟨check67_seven broken, check67_seven broken, check67_seven oddD, check67_seven oddD⟩
  case oddAB =>
    have broken : (odd d || odd a || odd b) = true := by
      rw [Bool.or_assoc, Bool.or_eq_true_iff.2 oddAB, Bool.or_true]
    exact ⟨check67_seven broken, check67_seven broken⟩

end Sys2Proof.Machine

/-! PROOF. Moves, comparisons and predicate words (09 R127 to R130). -/

namespace Sys2Proof.Machine

/-! Moves, constants and selection (R127). -/

theorem movhi_eq (imm : Half) (x : Word) :
    imm ++ x.extractLsb' 0 16 = BitVec.ofNat 32 (imm.toNat * 2 ^ 16 + x.toNat % 2 ^ 16) := by
  have low : (x.extractLsb' 0 16).toNat = x.toNat % 2 ^ 16 := by rw [BitVec.extractLsb'_toNat]; rfl
  apply BitVec.eq_of_toNat_eq
  have lt := imm.isLt
  rw [BitVec.toNat_append, ← Nat.shiftLeft_add_eq_or_of_lt (BitVec.isLt _), Nat.shiftLeft_eq, low, BitVec.toNat_ofNat]
  omega

/-- A lane's predicate bit with the negation of PN: it holds where the bit differs from PN (R127, R145). -/
theorem predBit_iff (w : Warp) (pd : BitVec 3) (pn : BitVec 1) (l : Nat) :
    predBit w pd pn l = true ↔ (rdP w pd.toNat).getLsbD l = (pn == 0) := by
  rw [predBit, bne_iff_ne]
  have bit : pn = 0 ∨ pn = 1 := by
    have lt := pn.isLt
    rcases (by omega : pn.toNat = 0 ∨ pn.toNat = 1) with e | e
    · exact .inl (BitVec.eq_of_toNat_eq e)
    · exact .inr (BitVec.eq_of_toNat_eq e)
  rcases bit with rfl | rfl <;> cases (rdP w pd.toNat).getLsbD l <;> decide

@[simp] theorem predBit_clearPass (w : Warp) (pd : BitVec 3) (pn : BitVec 1) (l : Nat) :
    predBit (clearPass w) pd pn l = predBit w pd pn l := by simp only [predBit, rdP_clearPass]

/-! Comparisons and predicate words (R55, R128 to R130). -/

section
variable {i : Instr} {s : State} {k : Nat} {w : Warp} {d a b : Fld} {c : Nat → Bool}

/-- A word that sets a predicate by a condition on its sources A and B. -/
theorem compare_writes (h : Issues s k w [a, b]) (hs : w.sstep = false) {f : Word → Word → Bool}
    (hi : exec i s = warpWord s [a, b] (fun w => mapPred w d (fun l => f (rd w a l) (rd w b l))))
    (hc : ∀ l, f (rd w a l) (rd w b l) = c l) : WritesPred i s k w d.toNat c :=
  warpWord_writesPred h hs d.toNat (fun w => maskWhere w.act (fun l => f (rd w a l) (rd w b l))) c hi fun l active => by
    rw [getLsbD_maskWhere, clearPass_act, active, Bool.true_and, rd_clearPass, rd_clearPass, hc]

/-- A word that sets a predicate by a function of predicates. -/
theorem pred2_writes (h : Issues s k w []) (hs : w.sstep = false) {f : Mask → Mask → Mask}
    (hi : exec i s = pred2 s d a b f)
    (hc : ∀ l < 32, (f (rdP w a.toNat) (rdP w b.toNat)).getLsbD l = c l) : WritesPred i s k w d.toNat c :=
  warpWord_writesPred h hs d.toNat (fun w => f (rdP w a.toNat) (rdP w b.toNat)) c hi fun l active => by
    rw [rdP_clearPass, rdP_clearPass, hc l (BitVec.lt_of_getLsbD active)]

end

/-- The relations of ICMP between words by the number that TY takes them for (R128). -/
theorem icmpTrue_by {α : Type} [LinearOrder α] {ty : BitVec 3} {v : Word → α} (inj : ∀ {x y}, v x = v y ↔ x = y)
    (less : ∀ x y, icmpTrue 2 ty x y = decide (v x < v y)) :
    (∀ x y, icmpTrue 0 ty x y = decide (x = y)) ∧ (∀ x y, icmpTrue 1 ty x y = decide (x ≠ y)) ∧
    (∀ x y, icmpTrue 3 ty x y = decide (v x ≤ v y)) ∧ (∀ x y, icmpTrue 4 ty x y = decide (v x > v y)) ∧
    (∀ x y, icmpTrue 5 ty x y = decide (v x ≥ v y)) := by
  have lessOrSame (x y : Word) : icmpTrue 3 ty x y = decide (v x ≤ v y) := by
    show (icmpTrue 2 ty x y || x == y) = _
    rw [less, Bool.eq_iff_iff, Bool.or_eq_true, decide_eq_true_eq, beq_iff_eq, decide_eq_true_eq, le_iff_lt_or_eq, inj]
  refine ⟨fun x y => ?same, fun x y => ?other, lessOrSame, fun x y => ?greater, fun x y => ?notLess⟩
  case same => exact Bool.beq_eq_decide_eq x y
  case other => exact (congrArg not (Bool.beq_eq_decide_eq x y)).trans decide_not.symm
  case greater => exact (congrArg not (lessOrSame x y)).trans (by rw [← decide_not, decide_eq_decide, not_le])
  case notLess => exact (congrArg not (less x y)).trans (by rw [← decide_not, decide_eq_decide, not_lt])

/-- Settles O4: the moves by the form of each, comparisons and predicate words by the lemmas on words that set a
predicate. -/
theorem movesAndPredicates : Obligations.MovesAndPredicates := by
  unfold Obligations.MovesAndPredicates
  refine ⟨fun s k w quiet d a b => ⟨?mov, ?movi, ?movhi, ?movl, ?selp⟩,
    fun s k w quiet d a b => ⟨?compare, ?predicates, ?ptov, ?refused⟩⟩
  case mov => exact fun h => alu1_writes (f := id) h quiet rfl fun l => rfl
  case movi =>
    exact fun h imm => warpWord_writes h quiet d (fun _ _ => imm.signExtend 32) _ rfl fun l _ => rfl
  case movhi =>
    exact fun h imm => alu1_writes (f := fun x => imm ++ x.extractLsb' 0 16) h quiet rfl fun l => movhi_eq imm _
  case movl => exact fun h lit => warpWord_writes h quiet d (fun _ _ => lit) _ rfl fun l _ => rfl
  case selp =>
    intro h pd pn
    refine warpWord_writes h quiet d (fun w l => if predBit w pd pn l then rd w a l else rd w b l) _ rfl fun l _ => ?_
    simp only [predBit_clearPass, rd_clearPass, predBit_iff]
  case compare =>
    intro h sub
    have icmp {sub : BitVec 4} {ty : BitVec 3} {c : Word → Word → Bool} (hc : ∀ x y, icmpTrue sub ty x y = c x y) :
        WritesPred (.icmp d a b sub ty) s k w d.toNat (fun l => c (rd w a l) (rd w b l)) :=
      compare_writes (f := icmpTrue sub ty) h quiet rfl fun l => hc _ _
    obtain ⟨eq, ne, le, gt, ge⟩ := icmpTrue_by (ty := 0) BitVec.toInt_inj fun _ _ => rfl
    obtain ⟨eqU, neU, leU, gtU, geU⟩ := icmpTrue_by (ty := 1) BitVec.toNat_inj fun _ _ => rfl
    exact ⟨⟨icmp eq, icmp ne, icmp fun _ _ => rfl, icmp le, icmp gt, icmp ge, icmp eqU, icmp neU, icmp fun _ _ => rfl,
        icmp leU, icmp gtU, icmp geU⟩,
      compare_writes (f := fun x y => fcmpTrue sub.toNat x.toNat y.toNat) h quiet rfl fun l => rfl⟩
  case predicates =>
    exact fun h => ⟨pred2_writes (f := (· &&& ·)) h quiet rfl fun l _ => BitVec.getLsbD_and,
      pred2_writes (f := (· ||| ·)) h quiet rfl fun l _ => BitVec.getLsbD_or,
      pred2_writes (f := (· ^^^ ·)) h quiet rfl fun l _ => BitVec.getLsbD_xor,
      pred2_writes (b := a) (f := fun x _ => ~~~x) h quiet rfl fun l lane => by
        rw [BitVec.getLsbD_not, decide_eq_true lane, Bool.true_and],
      pred2_writes (b := a) (f := fun x _ => x) h quiet rfl fun l _ => rfl⟩
  case ptov =>
    intro h
    refine warpWord_writes h quiet d (fun w l => if (rdP w a.toNat).getLsbD l then 1 else 0) _ rfl fun l _ => ?_
    simp only [rdP_clearPass]
  case refused =>
    intro sub ty
    constructor
    · intro outside
      have bad : (subAbove 5 sub || decide (1 < ty.toNat)) = true := by
        rw [subAbove, Bool.or_eq_true, decide_eq_true_eq, decide_eq_true_eq]
        exact outside
      rw [fieldFault, bad]
      rfl
    · intro outside
      rw [fieldFault, subAbove, decide_eq_true outside]
      rfl

end Sys2Proof.Machine

/-! PROOF. Floating-point words (09 R65, R131, R134 to R136). -/

namespace Sys2Proof.Machine

/-! Floating-point words by their number of sources (R65, R117, R122). -/

section
variable {i : Instr} {s : State} {k : Nat} {w : Warp} {d a b c : Fld}

theorem fp1_writes (h : Issues s k w [a, d]) (hs : w.sstep = false) {f : Nat → Nat × FFlags}
    (hi : exec i s = fp1 s d a f) :
    WritesFp i s k w d (fun l => f (rd w a l).toNat) :=
  fpWord_writes (regs := [a]) d h hs (fun w l => f (rd w a l).toNat) _ hi fun l _ => by rw [rd_clearPass]

theorem fp2_writes (h : Issues s k w [a, b, d]) (hs : w.sstep = false) {f : Nat → Nat → Nat × FFlags}
    (hi : exec i s = fp2 s d a b f) : WritesFp i s k w d (fun l => f (rd w a l).toNat (rd w b l).toNat) :=
  fpWord_writes (regs := [a, b]) d h hs (fun w l => f (rd w a l).toNat (rd w b l).toNat) _ hi fun l _ => by
    rw [rd_clearPass, rd_clearPass]

theorem fp3_writes (h : Issues s k w [a, b, c, d]) (hs : w.sstep = false) {f : Nat → Nat → Nat → Nat × FFlags}
    (hi : exec i s = fpWord s [a, b, c] d (fun w l => f (rd w a l).toNat (rd w b l).toNat (rd w c l).toNat)) :
    WritesFp i s k w d (fun l => f (rd w a l).toNat (rd w b l).toNat (rd w c l).toNat) :=
  fpWord_writes (regs := [a, b, c]) d h hs (fun w l => f (rd w a l).toNat (rd w b l).toNat (rd w c l).toNat) _ hi
    fun l _ => by rw [rd_clearPass, rd_clearPass, rd_clearPass]

end

/-- Settles O5, by the lemma on words of each number of sources. -/
theorem floatingInstructions : Obligations.FloatingInstructions := by
  unfold Obligations.FloatingInstructions
  intro s k w quiet d a b c rnd
  refine ⟨fun h => ?two, fun h => ?three, fun h => ?one⟩
  case two =>
    exact ⟨fp2_writes (f := fadd fp32 0) h quiet rfl,
      fp2_writes (f := fadd fp32 rnd.toNat) h quiet rfl,
      fp2_writes (f := fsub fp32 0) h quiet rfl,
      fp2_writes (f := fsub fp32 rnd.toNat) h quiet rfl,
      fp2_writes (f := fmul fp32 0) h quiet rfl,
      fp2_writes (f := fmul fp32 rnd.toNat) h quiet rfl,
      fp2_writes (f := fun x y => halves (fun p q _ => fadd fp16 0 p q) x y 0) h quiet rfl,
      fp2_writes (f := fun x y => halves (fun p q _ => fmul fp16 0 p q) x y 0) h quiet rfl,
      fp2_writes (f := fun x y => halves (fun p q _ => fadd bf16 0 p q) x y 0) h quiet rfl,
      fp2_writes (f := fun x y => halves (fun p q _ => fmul bf16 0 p q) x y 0) h quiet rfl⟩
  case three =>
    exact ⟨fp3_writes (f := ffma fp32 rnd.toNat) h quiet rfl,
      fp3_writes (f := halves (ffma fp16 0)) h quiet rfl,
      fp3_writes (f := halves (ffma bf16 0)) h quiet rfl⟩
  case one =>
    exact ⟨fp1_writes (f := frnd rnd.toNat) h quiet rfl,
      fp1_writes (f := frcp) h quiet rfl,
      fp1_writes (f := frsq) h quiet rfl,
      fp1_writes (f := fsqrt rnd.toNat) h quiet rfl,
      fp1_writes (f := fexp2) h quiet rfl,
      fp1_writes (f := flog2) h quiet rfl,
      fp1_writes (f := fsin) h quiet rfl,
      fp1_writes (f := fcos) h quiet rfl⟩

end Sys2Proof.Machine

/-! PROOF. Floating-point words without flags, and NaN operands (05 R72, R73, R78, 09 R129, R132, R133, R135, R136). -/

namespace Sys2Proof.Machine

/-! The values of FP32 encodings (R72, R73). -/

/-- The value of an FP32 encoding by its exponent and fraction (R73). -/
theorem fdec_fp32 (x : Nat) : fdec fp32 x =
    if x / 2 ^ 23 % 2 ^ 8 = 255 then
      if x % 2 ^ 23 = 0 then .inf (x / 2 ^ 31 % 2 == 1) else .nan (decide (x % 2 ^ 23 < 2 ^ 22))
    else if x / 2 ^ 23 % 2 ^ 8 = 0 then .fin (x / 2 ^ 31 % 2 == 1) (x % 2 ^ 23) (-149)
    else .fin (x / 2 ^ 31 % 2 == 1) (2 ^ 23 + x % 2 ^ 23) ((x / 2 ^ 23 % 2 ^ 8 : Nat) - 150) := by
  have top : ((x / 2 ^ 23 % 2 ^ 8 == 255) = true) = (x / 2 ^ 23 % 2 ^ 8 = 255) := beq_iff_eq.eq
  have exponent : ((x / 2 ^ 23 % 2 ^ 8 : Nat) : Int) - 127 - 23 = (x / 2 ^ 23 % 2 ^ 8 : Nat) - 150 := by omega
  simp only [fdec, fp32, Bool.false_and, Bool.not_false, Bool.true_and, Bool.false_eq_true, if_false]
  rw [show (2 : Nat) ^ 8 - 1 = 255 from rfl, show (1 : Int) - 127 - (23 : Nat) = -149 from rfl]
  simp only [top]
  rw [← exponent]
  rfl

/-- A significand and exponent in which FP32 has a finite value: a subnormal number's or a normal one's. -/
def Fp32Finite (m : Nat) (e : Int) : Prop := (m < 2 ^ 23 ∧ e = -149) ∨ (2 ^ 23 ≤ m ∧ m < 2 ^ 24 ∧ -149 ≤ e)

/-- A finite value gives back its encoding. -/
theorem fdec_fp32_fin {x m : Nat} {neg : Bool} {e : Int} (h : fdec fp32 x = .fin neg m e) :
    Fp32Finite m e ∧ neg = (x / 2 ^ 31 % 2 == 1) ∧
      (x % 2 ^ 31 : Nat) = (if m < 2 ^ 23 then (m : Int) else (e + 150) * 2 ^ 23 + (m - 2 ^ 23)) := by
  rw [fdec_fp32] at h
  split at h
  · split at h <;> cases h
  · split at h
    · cases h
      refine ⟨.inl ⟨by omega, rfl⟩, rfl, ?_⟩
      rw [if_pos (by omega)]
      omega
    · cases h
      refine ⟨.inr ⟨by omega, by omega, by omega⟩, rfl, ?_⟩
      rw [if_neg (by omega)]
      omega

theorem fdec_fp32_inf {x : Nat} {neg : Bool} (h : fdec fp32 x = .inf neg) :
    x % 2 ^ 31 = 255 * 2 ^ 23 ∧ neg = (x / 2 ^ 31 % 2 == 1) := by
  rw [fdec_fp32] at h
  split at h
  · split at h
    · cases h
      exact ⟨by omega, rfl⟩
    · cases h
  · split at h <;> cases h

/-- One magnitude has one significand and exponent in FP32. -/
theorem Fp32Finite.unique {m n : Nat} {e g : Int} (hm : Fp32Finite m e) (hn : Fp32Finite n g) (le : e ≤ g)
    (h : m = n * 2 ^ (g - e).toNat) : m = n ∧ e = g := by
  rcases eq_or_lt_of_le le with rfl | lt
  · simpa using h
  · have two : 2 ^ 1 ≤ 2 ^ (g - e).toNat := Nat.pow_le_pow_right (by decide) (by omega)
    have double : n * 2 ≤ m := h ▸ Nat.mul_le_mul_left n two
    unfold Fp32Finite at hm hn
    omega

theorem natAbs_scaledInt (neg : Bool) (m : Nat) (e e0 : Int) :
    (scaledInt neg m e e0).natAbs = m * 2 ^ (e - e0).toNat := by
  cases neg
  · exact Int.natAbs_natCast _
  · exact (Int.natAbs_neg _).trans (Int.natAbs_natCast _)

theorem sign_eq_of_scaledInt {a b : Bool} {m : Nat} {e e0 : Int} (h : scaledInt a m e e0 = scaledInt b m e e0)
    (nonzero : m ≠ 0) : a = b := by
  have pos : 0 < m * 2 ^ (e - e0).toNat := Nat.mul_pos (Nat.pos_of_ne_zero nonzero) (Nat.two_pow_pos _)
  simp only [scaledInt] at h
  generalize m * 2 ^ (e - e0).toNat = v at h pos
  cases a <;> cases b <;> simp at h ⊢ <;> omega

/-- Finite values of FP32 that are equal have one significand and exponent. -/
theorem Fp32Finite.eq_of_scaledInt {a b : Bool} {m n : Nat} {e g : Int} (hm : Fp32Finite m e) (hn : Fp32Finite n g)
    (h : scaledInt a m e (min e g) = scaledInt b n g (min e g)) : m = n ∧ e = g := by
  have magnitude := congrArg Int.natAbs h
  rw [natAbs_scaledInt, natAbs_scaledInt] at magnitude
  rcases le_total e g with le | le
  · rw [min_eq_left le, Int.sub_self, Int.toNat_zero, Nat.pow_zero, Nat.mul_one] at magnitude
    exact hm.unique hn le magnitude
  · rw [min_eq_right le, Int.sub_self, Int.toNat_zero, Nat.pow_zero, Nat.mul_one] at magnitude
    obtain ⟨rfl, rfl⟩ := hn.unique hm le magnitude.symm
    exact ⟨rfl, rfl⟩

/-- Two encodings of numbers that compare equal are one, unless both are zeros. -/
theorem encoding_eq_of_fcompare {x y : Nat} (hx : x < 2 ^ 32) (hy : y < 2 ^ 32) (nx : (fdec fp32 x).isNan = false)
    (ny : (fdec fp32 y).isNan = false) (h : fcompare (fdec fp32 x) (fdec fp32 y) = .eq)
    (nonzero : ¬ (x % 2 ^ 31 = 0 ∧ y % 2 ^ 31 = 0)) : x = y := by
  have whole (sign : (x / 2 ^ 31 % 2 == 1) = (y / 2 ^ 31 % 2 == 1)) (magnitude : x % 2 ^ 31 = y % 2 ^ 31) : x = y := by
    rw [Bool.eq_iff_iff, beq_iff_eq, beq_iff_eq] at sign
    omega
  cases vx : fdec fp32 x with
  | nan => rw [vx] at nx; cases nx
  | inf a =>
    obtain ⟨mx, sx⟩ := fdec_fp32_inf vx
    cases vy : fdec fp32 y with
    | nan => rw [vy] at ny; cases ny
    | inf b =>
      obtain ⟨my, sy⟩ := fdec_fp32_inf vy
      have same : a = b := by
        by_contra differ
        rw [vx, vy] at h
        simp only [fcompare, if_neg differ] at h
        split at h <;> cases h
      exact whole (sx ▸ sy ▸ same) (mx.trans my.symm)
    | fin b n g =>
      rw [vx, vy] at h
      simp only [fcompare] at h
      split at h <;> cases h
  | fin a m e =>
    obtain ⟨fx, sx, mx⟩ := fdec_fp32_fin vx
    cases vy : fdec fp32 y with
    | nan => rw [vy] at ny; cases ny
    | inf b =>
      rw [vx, vy] at h
      simp only [fcompare] at h
      split at h <;> cases h
    | fin b n g =>
      obtain ⟨fy, sy, my⟩ := fdec_fp32_fin vy
      rw [vx, vy] at h
      simp only [fcompare, compare_eq_iff_eq] at h
      obtain ⟨rfl, rfl⟩ := fx.eq_of_scaledInt fy h
      have magnitude : x % 2 ^ 31 = y % 2 ^ 31 := by omega
      have nz : m ≠ 0 := by
        rintro rfl
        rw [if_pos (by decide)] at mx my
        omega
      exact whole (sx ▸ sy ▸ sign_eq_of_scaledInt h nz) magnitude

/-! Minimum and maximum (R132). -/

theorem magnitude_eq_zero_iff (x : Word) : x &&& 0x7FFFFFFF = 0 ↔ x.toNat % 2 ^ 31 = 0 := by
  rw [← BitVec.toNat_inj, BitVec.toNat_and, show (0x7FFFFFFF : Word).toNat = 2 ^ 31 - 1 from rfl,
    Nat.and_two_pow_sub_one_eq_mod]
  rfl

/-- A zero of FP32 is one of two encodings. -/
theorem zero_encodings {x : Word} (h : x &&& 0x7FFFFFFF = 0) : x = 0 ∨ x = 0x80000000 := by
  rw [magnitude_eq_zero_iff] at h
  have lt := x.isLt
  rcases (by omega : x.toNat = 0 ∨ x.toNat = 2 ^ 31) with e | e
  · exact .inl (BitVec.eq_of_toNat_eq e)
  · exact .inr (BitVec.eq_of_toNat_eq e)

/-- Two values are zeros. -/
def BothZero (v u : FVal) : Prop := ∃ a b e g, v = .fin a 0 e ∧ u = .fin b 0 g

theorem BothZero.fcompare_eq {v u : FVal} (h : BothZero v u) : fcompare v u = .eq := by
  obtain ⟨a, b, e, g, rfl, rfl⟩ := h
  simp [fcompare, scaledInt]

theorem BothZero.encodings {x y : Nat} (h : BothZero (fdec fp32 x) (fdec fp32 y)) : x % 2 ^ 31 = 0 ∧ y % 2 ^ 31 = 0 := by
  obtain ⟨a, b, e, g, hx, hy⟩ := h
  have mx := (fdec_fp32_fin hx).2.2
  have my := (fdec_fp32_fin hy).2.2
  rw [if_pos (by decide)] at mx my
  omega

section
variable {f : Fmt} {mx : Bool} {x y : Nat}

theorem fminmax_nans (hx : (fdec f x).isNan = true) (hy : (fdec f y).isNan = true) : fminmax f mx x y = fnan f := by
  simp only [fminmax, hx, hy]

theorem fminmax_nan_left (hx : (fdec f x).isNan = true) (hy : (fdec f y).isNan = false) : fminmax f mx x y = y := by
  simp only [fminmax, hx, hy]

theorem fminmax_nan_right (hx : (fdec f x).isNan = false) (hy : (fdec f y).isNan = true) : fminmax f mx x y = x := by
  simp only [fminmax, hx, hy]

/-- Of two numbers that are not both zeros FMIN and FMAX choose by their order. -/
theorem fminmax_numbers (hx : (fdec f x).isNan = false) (hy : (fdec f y).isNan = false)
    (nonzero : ¬ BothZero (fdec f x) (fdec f y)) :
    (fcompare (fdec f x) (fdec f y) = .lt → fminmax f mx x y = if mx then y else x) ∧
    (fcompare (fdec f x) (fdec f y) = .gt → fminmax f mx x y = if mx then x else y) ∧
    (fcompare (fdec f x) (fdec f y) = .eq → fminmax f mx x y = x) := by
  simp only [fminmax, hx, hy]
  split
  · next vx vy => exact absurd ⟨_, _, _, _, vx, vy⟩ nonzero
  · exact ⟨fun o => by simp only [o], fun o => by simp only [o], fun o => by simp only [o]⟩

end

/-- FMIN and FMAX of two zeros (R132). -/
theorem fminmax_zeros {x y : Word} (mx : Bool) (hx : x &&& 0x7FFFFFFF = 0) (hy : y &&& 0x7FFFFFFF = 0) :
    BitVec.ofNat 32 (fminmax fp32 mx x.toNat y.toNat) = if mx then x &&& y else x ||| y := by
  rcases zero_encodings hx with rfl | rfl <;> rcases zero_encodings hy with rfl | rfl <;> cases mx <;> rfl

/-- The two halves of a packed word (R136), where the operation of a half answers a half. -/
theorem halves_parts {f : Nat → Nat → Nat → Nat × FFlags} (hf : ∀ x y z, x < 2 ^ 16 → y < 2 ^ 16 → (f x y z).1 < 2 ^ 16)
    (x y : Word) : (halves f x.toNat y.toNat 0).1 < 2 ^ 32 ∧
      (halves f x.toNat y.toNat 0).1 % 2 ^ 16 = (f (x.toNat % 2 ^ 16) (y.toNat % 2 ^ 16) 0).1 ∧
      (halves f x.toNat y.toNat 0).1 / 2 ^ 16 = (f (x.toNat / 2 ^ 16) (y.toNat / 2 ^ 16) 0).1 := by
  have ltx := x.isLt
  have lty := y.isLt
  have low := hf (x.toNat % 2 ^ 16) (y.toNat % 2 ^ 16) 0 (by omega) (by omega)
  have high := hf (x.toNat / 2 ^ 16) (y.toNat / 2 ^ 16) 0 (by omega) (by omega)
  simp only [halves, Nat.zero_mod, Nat.zero_div]
  omega

theorem fminmax_fp16_lt (mx : Bool) {x y : Nat} (hx : x < 2 ^ 16) (hy : y < 2 ^ 16) : fminmax fp16 mx x y < 2 ^ 16 := by
  have zero (neg : Bool) : fsign fp16 neg 0 < 2 ^ 16 := by cases neg <;> decide
  unfold fminmax
  dsimp only
  split
  · decide
  · exact hy
  · exact hx
  · split
    · exact zero _
    · split
      · split <;> assumption
      · split <;> assumption
      · exact hx

/-- HMIN2 and HMAX2 on one half: no flag (R136). -/
def minmaxHalf (mx : Bool) (x y _z : Nat) : Nat × FFlags := (fminmax fp16 mx x y, 0)

/-- HMIN2 and HMAX2 as a word that holds the halves' results. -/
theorem minmaxHalves_eq (mx : Bool) (x y : Word) : halves (minmaxHalf mx) x.toNat y.toNat 0 =
    ((BitVec.ofNat 32 (halves (minmaxHalf mx) x.toNat y.toNat 0).1).toNat, 0) := by
  have lt := (halves_parts (f := minmaxHalf mx) (fun x y z => fminmax_fp16_lt mx) x y).1
  rw [BitVec.toNat_ofNat, Nat.mod_eq_of_lt lt]
  exact Prod.ext rfl BitVec.or_self

/-! Classes (R133). -/

/-- The number of the bit that FCLASS sets for a sign, an exponent and a fraction (the table of R133). -/
def classBit (neg : Bool) (e : BitVec 8) (m : BitVec 23) : Nat :=
  if e = 0xFF then (if m = 0 then (if neg then 0 else 7) else if m.toNat < 2 ^ 22 then 8 else 9)
  else if e = 0 then (if m = 0 then (if neg then 3 else 4) else if neg then 2 else 5)
  else if neg then 1 else 6

theorem fclass_eq (x : Word) :
    fclass x.toNat = 1 <<< classBit x.msb (x.extractLsb' 23 8) (x.extractLsb' 0 23) := by
  have lt := x.isLt
  have exponent (c : BitVec 8) : x.extractLsb' 23 8 = c ↔ x.toNat / 2 ^ 23 % 2 ^ 8 = c.toNat := by
    rw [← BitVec.toNat_inj, BitVec.extractLsb'_toNat, Nat.shiftRight_eq_div_pow]
  have fraction : (x.extractLsb' 0 23).toNat = x.toNat % 2 ^ 23 := by rw [BitVec.extractLsb'_toNat]; rfl
  have none : x.extractLsb' 0 23 = 0 ↔ x.toNat % 2 ^ 23 = 0 := by rw [← fraction, ← BitVec.toNat_inj]; rfl
  have sign : (x.toNat / 2 ^ 31 % 2 == 1) = x.msb := by
    rw [BitVec.msb_eq_decide, Bool.eq_iff_iff, beq_iff_eq, decide_eq_true_eq]
    omega
  have top255 := exponent 0xFF
  have bottom0 := exponent 0
  rw [show (0xFF : BitVec 8).toNat = 255 from rfl] at top255
  rw [show (0 : BitVec 8).toNat = 0 from rfl] at bottom0
  simp only [classBit, top255, bottom0, none, fraction]
  rw [fclass, fdec_fp32, sign]
  by_cases top : x.toNat / 2 ^ 23 % 2 ^ 8 = 255
  · rw [if_pos top, if_pos top]
    by_cases zero : x.toNat % 2 ^ 23 = 0
    · rw [if_pos zero, if_pos zero]; cases x.msb <;> rfl
    · rw [if_neg zero, if_neg zero]
      by_cases signalling : x.toNat % 2 ^ 23 < 2 ^ 22
      · rw [decide_eq_true signalling, if_pos signalling]; rfl
      · rw [decide_eq_false signalling, if_neg signalling]; rfl
  · rw [if_neg top, if_neg top]
    by_cases bottom : x.toNat / 2 ^ 23 % 2 ^ 8 = 0
    · rw [if_pos bottom, if_pos bottom]
      by_cases zero : x.toNat % 2 ^ 23 = 0
      · rw [if_pos zero, zero]; cases x.msb <;> rfl
      · have subnormal : x.toNat % 2 ^ 23 < 2 ^ 23 := Nat.mod_lt _ (by decide)
        simp only [if_neg zero, if_pos subnormal]
        cases x.msb <;> rfl
    · have normal : ¬ 2 ^ 23 + x.toNat % 2 ^ 23 < 2 ^ 23 := by omega
      have nonzero : ¬ 2 ^ 23 + x.toNat % 2 ^ 23 = 0 := by omega
      rw [if_neg bottom, if_neg bottom]
      simp only [if_neg nonzero, if_neg normal]
      cases x.msb <;> rfl

/-! NaN operands (R78, R122, R135). -/

theorem roundVal_nan {f : Fmt} {rnd : Rnd} {v : FVal} (h : v.isNan = true) : (roundVal f rnd v).1 = fnan f := by
  cases v with
  | nan => rfl
  | inf => cases h
  | fin => cases h

theorem fsum_nan {rnd : Rnd} {v u : FVal} (h : v.isNan = true ∨ u.isNan = true) : (fsum rnd v u).1.isNan = true := by
  cases v <;> cases u <;> simp [FVal.isNan] at h <;> rfl

theorem fprod_nan {v u : FVal} (h : v.isNan = true ∨ u.isNan = true) : (fprod v u).1.isNan = true := by
  cases v <;> cases u <;> simp [FVal.isNan] at h <;> rfl

theorem isNan_fneg (v : FVal) : (fneg v).isNan = v.isNan := by cases v <;> rfl

/-- An operation whose outcome is a NaN gives the canonical one. -/
theorem finish_nan {f : Fmt} {rnd : Rnd} {r : FVal × Bool} (h : r.1.isNan = true) : (finish f rnd r).1 = fnan f :=
  roundVal_nan h

section
variable {f : Fmt} {rnd : Rnd} {x y z : Nat}

theorem fadd_nan (h : (fdec f x).isNan = true ∨ (fdec f y).isNan = true) : (fadd f rnd x y).1 = fnan f :=
  finish_nan (fsum_nan h)

theorem fsub_nan (h : (fdec f x).isNan = true ∨ (fdec f y).isNan = true) : (fsub f rnd x y).1 = fnan f :=
  finish_nan (fsum_nan (h.imp_right (isNan_fneg _).trans))

theorem fmul_nan (h : (fdec f x).isNan = true ∨ (fdec f y).isNan = true) : (fmul f rnd x y).1 = fnan f :=
  finish_nan (fprod_nan h)

theorem ffma_nan (h : ((fdec f x).isNan = true ∨ (fdec f y).isNan = true) ∨ (fdec f z).isNan = true) :
    (ffma f rnd x y z).1 = fnan f :=
  finish_nan (r := (_, _)) (fsum_nan (h.imp_left fprod_nan))

end

/-- A word of one operand gives the canonical NaN for a NaN, with NV exactly where it is signalling (R78, R135). -/
def CanonicalOnNan (f : Nat → Nat × FFlags) : Prop :=
  ∀ x s, fdec fp32 x = .nan s → f x = (0x7FC00000, flagIf s fNV)

theorem canonicalOnNan_frnd (rnd : Rnd) : CanonicalOnNan (frnd rnd) := fun x s h => by rw [frnd, h]; rfl
theorem canonicalOnNan_frcp : CanonicalOnNan frcp := fun x s h => by rw [frcp, h]; rfl
theorem canonicalOnNan_frsq : CanonicalOnNan frsq := fun x s h => by rw [frsq, h]; rfl
theorem canonicalOnNan_fsqrt (rnd : Rnd) : CanonicalOnNan (fsqrt rnd) := fun x s h => by rw [fsqrt, h]; rfl
theorem canonicalOnNan_fexp2 : CanonicalOnNan fexp2 := fun x s h => by rw [fexp2, h]; rfl
theorem canonicalOnNan_flog2 : CanonicalOnNan flog2 := fun x s h => by rw [flog2, h]; rfl
theorem canonicalOnNan_fsin : CanonicalOnNan fsin := fun x s h => by rw [fsin, h]; rfl
theorem canonicalOnNan_fcos : CanonicalOnNan fcos := fun x s h => by rw [fcos, h]; rfl

theorem canonicalOnNan_unary (rnd : Rnd) {f : Nat → Nat × FFlags}
    (h : f ∈ [frnd rnd, frcp, frsq, fsqrt rnd, fexp2, flog2, fsin, fcos]) : CanonicalOnNan f := by
  simp only [List.mem_cons, List.not_mem_nil, or_false] at h
  rcases h with rfl | rfl | rfl | rfl | rfl | rfl | rfl | rfl
  · exact canonicalOnNan_frnd rnd
  · exact canonicalOnNan_frcp
  · exact canonicalOnNan_frsq
  · exact canonicalOnNan_fsqrt rnd
  · exact canonicalOnNan_fexp2
  · exact canonicalOnNan_flog2
  · exact canonicalOnNan_fsin
  · exact canonicalOnNan_fcos

/-- FMIN and FMAX of words (R132). -/
theorem fminmax_words (mx : Bool) (x y : Word) {g : Word} (hg : BitVec.ofNat 32 (fminmax fp32 mx x.toNat y.toNat) = g) :
    let nx := (fdec fp32 x.toNat).isNan
    let ny := (fdec fp32 y.toNat).isNan
    (nx = true → ny = true → g = 0x7FC00000) ∧ (nx = true → ny = false → g = y) ∧
    (nx = false → ny = true → g = x) ∧ (nx = false → ny = false →
      let o := fcompare (fdec fp32 x.toNat) (fdec fp32 y.toNat)
      let zeros : Prop := x &&& 0x7FFFFFFF = 0 ∧ y &&& 0x7FFFFFFF = 0
      (o = .lt → g = if mx then y else x) ∧ (o = .gt → g = if mx then x else y) ∧
      (o = .eq → ¬ zeros → x = y ∧ g = x) ∧ (zeros → g = if mx then x &&& y else x ||| y)) := by
  subst hg
  have word (z : Word) : BitVec.ofNat 32 z.toNat = z := by rw [BitVec.ofNat_toNat, BitVec.setWidth_eq]
  refine ⟨fun hx hy => ?nans, fun hx hy => ?left, fun hx hy => ?right, fun hx hy =>
    ⟨fun o => ?lt, fun o => ?gt, fun o nonzero => ?eq, fun zeros => fminmax_zeros mx zeros.1 zeros.2⟩⟩
  case nans => rw [fminmax_nans hx hy]; rfl
  case left => rw [fminmax_nan_left hx hy, word]
  case right => rw [fminmax_nan_right hx hy, word]
  case lt =>
    have nonzero : ¬ BothZero (fdec fp32 x.toNat) (fdec fp32 y.toNat) := fun z => by rw [z.fcompare_eq] at o; cases o
    rw [(fminmax_numbers hx hy nonzero).1 o]
    cases mx <;> exact word _
  case gt =>
    have nonzero : ¬ BothZero (fdec fp32 x.toNat) (fdec fp32 y.toNat) := fun z => by rw [z.fcompare_eq] at o; cases o
    rw [(fminmax_numbers hx hy nonzero).2.1 o]
    cases mx <;> exact word _
  case eq =>
    rw [magnitude_eq_zero_iff, magnitude_eq_zero_iff] at nonzero
    refine ⟨BitVec.eq_of_toNat_eq (encoding_eq_of_fcompare x.isLt y.isLt hx hy o nonzero), ?_⟩
    rw [(fminmax_numbers hx hy (mt BothZero.encodings nonzero)).2.2 o, word]

/-- Settles O6: minimum and maximum by the values of their operands, the sign words and FCLASS by their functions, a NaN
operand through the exact sum or product. -/
theorem flaglessFloating : Obligations.FlaglessFloating := by
  unfold Obligations.FlaglessFloating
  refine ⟨fun s k w quiet d a b => ⟨fun h mx => ?minmax, fun h mx => ?halves, fun h => ⟨?fabs, ?fneg, ?fclass⟩⟩,
    fun rnd x y nan => ⟨fadd_nan (.inl nan), fadd_nan (.inr nan), fsub_nan (.inl nan), fsub_nan (.inr nan),
      fmul_nan (.inl nan), fmul_nan (.inr nan), fun z => ⟨ffma_nan (.inl (.inl nan)), ffma_nan (.inl (.inr nan)),
        ffma_nan (.inr nan)⟩, fun f hf => ?unary⟩⟩
  case minmax =>
    refine ⟨fun l => BitVec.ofNat 32 (fminmax fp32 mx (rd w a l).toNat (rd w b l).toNat), ?_,
      fun l _ => fminmax_words mx _ _ rfl⟩
    have hi : exec (if mx then .fmax d a b else .fmin d a b) s = fp2q s d a b (fminmax fp32 mx) := by cases mx <;> rfl
    exact alu2_writes (f := fun x y => BitVec.ofNat 32 (fminmax fp32 mx x.toNat y.toNat)) h quiet hi fun l => rfl
  case halves =>
    have hi : exec (if mx then .hmax2 d a b else .hmin2 d a b) s =
        fp2 s d a b (fun x y => halves (minmaxHalf mx) x y 0) := by cases mx <;> rfl
    have writes := fp2_writes (f := fun x y => halves (minmaxHalf mx) x y 0) h quiet hi
    rw [funext fun l => minmaxHalves_eq mx (rd w a l) (rd w b l)] at writes
    refine ⟨_, writes, fun l _ => ?_⟩
    obtain ⟨lt, low, high⟩ := halves_parts (f := minmaxHalf mx) (fun x y z => fminmax_fp16_lt mx) (rd w a l) (rd w b l)
    rw [BitVec.toNat_ofNat, Nat.mod_eq_of_lt lt]
    exact ⟨low, high⟩
  case fabs => exact alu1_writes (f := signOp (fun x => x &&& 0x7FFFFFFF)) h quiet rfl fun l => rfl
  case fneg => exact alu1_writes (f := signOp (fun x => x ^^^ 0x80000000)) h quiet rfl fun l => rfl
  case fclass =>
    exact alu1_writes (f := fun x => BitVec.ofNat 32 (fclass x.toNat)) h quiet rfl fun l => by rw [fclass_eq]; rfl
  case unary =>
    cases v : fdec fp32 x with
    | nan s => rw [canonicalOnNan_unary rnd hf x s v]; exact ⟨rfl, rfl⟩
    | inf => rw [v] at nan; cases nan
    | fin => rw [v] at nan; cases nan

end Sys2Proof.Machine

/-! PROOF. Conversions (09 R118, R137 to R139): the parts of a register, and words whose lanes work together. -/

namespace Sys2Proof.Machine

/-! A word that writes D lane by lane and raises flags that its lanes find together (R65). -/

theorem raiseWord_writes {i : Instr} {s : State} {k : Nat} {w : Warp} {regs : List Fld} (h : Issues s k w regs)
    (hs : w.sstep = false) (d : Fld) (f : Warp → Nat → Word) (r : Warp → FFlags) (g : Nat → Word)
    (hi : exec i s = warpWord s regs (fun w => raise (mapLanes w d (f w)) (r w)))
    (hg : ∀ l, w.act.getLsbD l = true → f (clearPass w) l = g l) :
    ∃ t w1, exec i s = .next t ∧ Retires s t k w w1 ∧ WroteReg w w1 d g ∧ w1.p = w.p ∧
      w1.flags = w.flags ||| r (clearPass w) := by
  obtain ⟨t, w1, next, retires, hv, hw, hp, hf, hsp⟩ := warpWord_retires h hs (fun w => raise (mapLanes w d (f w)) (r w))
    ⟨by simp [raise, mapLanes], by simp [raise, mapLanes], by simp only [raise, mapLanes]; rw [wr_other]⟩
  refine ⟨t, w1, hi.trans next, retires, wroteReg_wr w w1 d (f (clearPass w)) g ?_ ?_ ?_ hg, ?_, ?_⟩
  · simpa [raise, mapLanes] using hv
  · simpa [raise, mapLanes] using hw
  · simpa [raise, mapLanes] using hsp
  · simpa [raise, mapLanes] using hp
  · simpa [raise, mapLanes] using hf

/-! Values of a warp that a resumption leaves (R25). -/

@[simp] theorem laneVal_clearPass (w : Warp) (a : Fld) (l : Nat) : laneVal (clearPass w) a l = laneVal w a l := by
  simp only [laneVal, clearPass_act, rd_clearPass]

@[simp] theorem teBlock_clearPass (w : Warp) (a : Fld) (c g : Nat) : teBlock (clearPass w) a c g = teBlock w a c g := by
  simp only [teBlock, laneVal_clearPass]

@[simp] theorem teImage_clearPass (w : Warp) (a : Fld) (c : Nat) : teImage (clearPass w) a c = teImage w a c := by
  simp only [teImage, teBlock_clearPass]

@[simp] theorem teGather_clearPass (w : Warp) (a : Fld) (c : Nat) : teGather (clearPass w) a c = teGather w a c := by
  simp only [teGather, clearPass_act, rd_clearPass]

@[simp] theorem scaleGroup_clearPass (w : Warp) (a : Fld) (c g : Nat) :
    scaleGroup (clearPass w) a c g = scaleGroup w a c g := by
  simp only [scaleGroup, laneVal_clearPass]

/-! The parts of a register (R118, R137). -/

/-- A number with b bits from bit p replaced: what lies above, the new part, what lies below. -/
theorem replaceBits_eq (x y p b : Nat) : x - x / 2 ^ p % 2 ^ b * 2 ^ p + y % 2 ^ b * 2 ^ p =
    2 ^ p * (2 ^ b * (x / 2 ^ p / 2 ^ b) + y % 2 ^ b) + x % 2 ^ p := by
  have split : x = 2 ^ p * (2 ^ b * (x / 2 ^ p / 2 ^ b) + x / 2 ^ p % 2 ^ b) + x % 2 ^ p := by
    rw [Nat.div_add_mod, Nat.div_add_mod]
  have whole : x = 2 ^ p * (2 ^ b * (x / 2 ^ p / 2 ^ b)) + x % 2 ^ p + x / 2 ^ p % 2 ^ b * 2 ^ p := by
    calc x = _ := split
      _ = _ := by ring
  calc x - x / 2 ^ p % 2 ^ b * 2 ^ p + y % 2 ^ b * 2 ^ p
      = 2 ^ p * (2 ^ b * (x / 2 ^ p / 2 ^ b)) + x % 2 ^ p + y % 2 ^ b * 2 ^ p := by
        rw [Nat.sub_eq_of_eq_add whole]
    _ = _ := by ring

theorem partSet_eq (c part x y : Nat) : partSet c part x y = 2 ^ (fmtBits c * part) *
    (2 ^ fmtBits c * (x / 2 ^ (fmtBits c * part) / 2 ^ fmtBits c) + y % 2 ^ fmtBits c) + x % 2 ^ (fmtBits c * part) :=
  replaceBits_eq x y (fmtBits c * part) (fmtBits c)

theorem partVal_partSet (c part x y : Nat) : partVal c part (partSet c part x y) = y % 2 ^ fmtBits c := by
  rw [partVal, partSet_eq, Nat.mul_add_div (Nat.two_pow_pos _), Nat.div_eq_of_lt (Nat.mod_lt _ (Nat.two_pow_pos _)),
    Nat.add_zero, Nat.mul_add_mod, Nat.mod_mod]

theorem testBit_partSet (c part x y i : Nat) (outside : i < fmtBits c * part ∨ fmtBits c * (part + 1) ≤ i) :
    (partSet c part x y).testBit i = x.testBit i := by
  rw [Nat.mul_succ] at outside
  rw [partSet_eq, Nat.testBit_two_pow_mul_add _ (Nat.mod_lt _ (Nat.two_pow_pos _)),
    Nat.testBit_two_pow_mul_add _ (Nat.mod_lt _ (Nat.two_pow_pos _)), Nat.testBit_div_two_pow, Nat.testBit_div_two_pow,
    Nat.testBit_mod_two_pow]
  rcases outside with below | above
  · rw [if_pos below, decide_eq_true below, Bool.true_and]
  · rw [if_neg (by omega), if_neg (by omega)]
    congr 1
    omega

/-- Settles O7: each word by the lemma on its form, and a register's parts by its bits. -/
theorem conversionInstructions : Obligations.ConversionInstructions := by
  unfold Obligations.ConversionInstructions
  intro s k w quiet d a b sub rnd aux
  refine ⟨fun h => ⟨?cvt, ?tepack, ?teunpk, ?encode⟩, fun h decodes => ?decode,
    fun c part x y _ _ => ⟨partVal_partSet c part x y, testBit_partSet c part x y⟩⟩
  case cvt =>
    exact fpWord_writes (regs := [a]) d h quiet (fun w l => cvtW sub rnd aux (rd w d l).toNat (rd w a l).toNat) _ rfl
      fun l _ => by rw [rd_clearPass, rd_clearPass]
  case tepack =>
    obtain ⟨t, w1, next, retires, wrote, hp, hf⟩ := raiseWord_writes (i := .tepack d a aux) h quiet d
      (fun w l => if l < teWords (field aux 3 0) then BitVec.ofNat 32 (teImage w a (field aux 3 0) / 2 ^ (32 * l)) else 0)
      (fun w => (teBlock w a (field aux 3 0) 0).2 ||| (teBlock w a (field aux 3 0) 1).2) _ rfl
      fun l _ => by rw [teImage_clearPass]
    refine ⟨t, w1, next, retires, wrote, hp, hf.trans ?_⟩
    rw [teBlock_clearPass, teBlock_clearPass, BitVec.or_assoc]
  case teunpk =>
    refine warpWord_writes h quiet d _ _ rfl fun l _ => ?_
    simp only [teGather_clearPass]
  case encode =>
    obtain ⟨t, w1, next, retires, wrote, hp, hf⟩ := raiseWord_writes (i := .scalex d a b 0 aux) h quiet d
      (fun w l => BitVec.ofNat 32
        ((scaleGroup w a (field aux 3 0) (l / 8)).1 * 256 + (scaleGroup w a (field aux 3 0) (l / 8)).2.1.getD (l % 8) 0))
      (fun w => orFlags ((List.range 4).map (fun g => (scaleGroup w a (field aux 3 0) g).2.2))) _ rfl
      fun l _ => by rw [scaleGroup_clearPass]
    refine ⟨t, w1, next, retires, wrote, hp, hf.trans ?_⟩
    simp only [scaleGroup_clearPass]
  case decode =>
    refine warpWord_writes h quiet d (fun w l => BitVec.ofNat 32 (roundVal fp32 0
      (scaledVal (field (rd w b l) 7 0) (elemVal (field aux 3 0) (field (rd w a l) 7 0)))).1) _ (if_neg decodes) fun l _ => ?_
    have byte (x : Word) : field x 7 0 = x.toNat % 256 := field_bottom x 7
    rw [rd_clearPass, rd_clearPass, byte, byte]

end Sys2Proof.Machine

/-! PROOF. Exchange between lanes (09 R140, R141). -/

namespace Sys2Proof.Machine

@[simp] theorem shufVal_clearPass (w : Warp) (a : Fld) (l : Nat) (j : Int) :
    shufVal (clearPass w) a l j = shufVal w a l j := by
  simp only [shufVal, clearPass_act, rd_clearPass]

/-- A shuffle from a source lane that a resumption leaves (R140). -/
theorem shufWord_writes {i : Instr} {s : State} {k : Nat} {w : Warp} {regs : List Fld} {d a : Fld}
    (h : Issues s k w (regs ++ [d])) (hs : w.sstep = false) {src : Warp → Nat → Int} {j : Nat → Int}
    (hi : exec i s = shufWord s regs d a src) (hj : ∀ l, src (clearPass w) l = j l) :
    WritesLanes i s k w d (fun l => shufVal w a l (j l)) :=
  warpWord_writes h hs d (fun w l => shufVal w a l (src w l)) _ hi fun l _ => by rw [shufVal_clearPass, hj]

/-- A word that gives every active lane of a predicate one truth. -/
theorem vote_writes {i : Instr} {s : State} {k : Nat} {w : Warp} {d : Fld} (h : Issues s k w []) (hs : w.sstep = false)
    {f : Warp → Bool} {c : Bool} (hi : exec i s = warpWord s [] (fun w => mapPred w d (fun _ => f w)))
    (hc : f (clearPass w) = c) : WritesPred i s k w d.toNat (fun _ => c) :=
  warpWord_writesPred h hs d.toNat (fun w => maskWhere w.act (fun _ => f w)) _ hi fun l active => by
    rw [getLsbD_maskWhere, clearPass_act, active, Bool.true_and, hc]

/-- A mask is empty when no lane of it is set. -/
theorem mask_eq_zero_iff (m : Mask) : m = 0 ↔ ∀ l, m.getLsbD l = false := by
  refine ⟨fun e l => by rw [e]; exact BitVec.getLsbD_zero, fun none => ?_⟩
  exact BitVec.eq_of_getLsbD_eq fun l _ => (none l).trans BitVec.getLsbD_zero.symm

/-- VOTEALL: every active lane's bit is set (R141). -/
theorem voteAll_eq (m p : Mask) : (m &&& ~~~p == 0) = (lanesOf m).all (fun j => p.getLsbD j) := by
  rw [Bool.eq_iff_iff, beq_iff_eq, mask_eq_zero_iff, List.all_eq_true]
  refine ⟨fun none l hl => ?_, fun all l => ?_⟩
  · obtain ⟨lt, active⟩ := mem_lanesOf.1 hl
    simpa [active, lt] using none l
  · cases active : m.getLsbD l
    · simp [active]
    · simp [all l (lanesOf_of_getLsbD active)]

/-- VOTEANY: some active lane's bit is set (R141). -/
theorem voteAny_eq (m p : Mask) : (m &&& p != 0) = (lanesOf m).any (fun j => p.getLsbD j) := by
  rw [Bool.eq_iff_iff, bne_iff_ne, ne_eq, mask_eq_zero_iff, List.any_eq_true, not_forall]
  refine ⟨fun ⟨l, set⟩ => ?_, fun ⟨l, hl, set⟩ => ⟨l, ?_⟩⟩
  · rw [BitVec.getLsbD_and, Bool.not_eq_false, Bool.and_eq_true] at set
    exact ⟨l, lanesOf_of_getLsbD set.1, set.2⟩
  · rw [BitVec.getLsbD_and, (mem_lanesOf.1 hl).2, set]
    decide

/-- Settles O8: shuffles by their source lanes, votes by the active lanes' bits, match lane by lane. -/
theorem laneExchange : Obligations.LaneExchange := by
  unfold Obligations.LaneExchange
  intro s k w quiet d a b n
  refine ⟨fun h => ?shuf, fun h => ⟨?up, ?down, ?xor, ?lanes⟩, fun h => ⟨?all, ?any⟩, fun h => ?ballot, fun wide => ?refused⟩
  case shuf =>
    exact shufWord_writes (regs := [a, b]) h quiet rfl fun l => by rw [rd_clearPass, field_bottom]; rfl
  case up => exact shufWord_writes (regs := [a]) h quiet rfl fun l => rfl
  case down => exact shufWord_writes (regs := [a]) h quiet rfl fun l => rfl
  case xor => exact shufWord_writes (regs := [a]) h quiet rfl fun l => rfl
  case lanes =>
    refine ⟨_, warpWord_writes h quiet d (fun w l => maskWhere w.act (fun j => rd w a j == rd w a l)) _ rfl fun l _ => rfl,
      fun l _ j => ?_⟩
    rw [getLsbD_maskWhere, clearPass_act, rd_clearPass, rd_clearPass, Bool.beq_eq_decide_eq]
  case all =>
    exact vote_writes (f := fun w => w.act &&& ~~~rdP w a.toNat == 0) h quiet rfl
      (by rw [clearPass_act, rdP_clearPass, voteAll_eq])
  case any =>
    exact vote_writes (f := fun w => w.act &&& rdP w a.toNat != 0) h quiet rfl
      (by rw [clearPass_act, rdP_clearPass, voteAny_eq])
  case ballot =>
    exact warpWord_writes h quiet d (fun w _ => w.act &&& rdP w a.toNat) _ rfl fun l _ => by
      rw [clearPass_act, rdP_clearPass]
  case refused =>
    have beyond : above 31 n = true := decide_eq_true (by omega)
    exact ⟨check67_seven beyond, check67_seven beyond, check67_seven beyond⟩

end Sys2Proof.Machine

/-! PROOF. Reductions and scans (09 R142): the folds of the model as a fold over a list of lanes. -/

namespace Sys2Proof.Machine

/-- One lane more of a fold, with the flags so far (R142). -/
def foldNext (sub : BitVec 4) (w : Warp) (a : Fld) (acc : Word × FFlags) (j : Nat) : Word × FFlags :=
  ((foldStep sub acc.1 (rd w a j)).1, acc.2 ||| (foldStep sub acc.1 (rd w a j)).2)

/-- The fold over a list of lanes in its order (R142). -/
def laneFold (sub : BitVec 4) (w : Warp) (a : Fld) : List Nat → Word × FFlags
  | [] => (0, 0)
  | m :: r => r.foldl (foldNext sub w a) (foldStart sub (rd w a m))

@[simp] theorem laneFold_clearPass (sub : BitVec 4) (w : Warp) (a : Fld) (ls : List Nat) :
    laneFold sub (clearPass w) a ls = laneFold sub w a ls := by
  have next : foldNext sub (clearPass w) a = foldNext sub w a := by
    funext acc j
    simp only [foldNext, rd_clearPass]
  cases ls with
  | nil => rfl
  | cons m r => simp only [laneFold, rd_clearPass, next]

theorem lanesOf_ascending (m : Mask) : (lanesOf m).Pairwise (· < ·) := List.pairwise_lt_range.filter _

/-- The last of the running folds is the whole fold. -/
theorem foldLanes_last (sub : BitVec 4) (w : Warp) (a : Fld) (ls : List Nat) (l : Nat) (acc : Word × FFlags) :
    (((l, acc) :: foldLanes sub w a ls acc).getLast?.map (·.2)).getD (0, 0) = ls.foldl (foldNext sub w a) acc := by
  induction ls generalizing l acc with
  | nil => rfl
  | cons j r ih =>
    rw [foldLanes, List.getLast?_cons_cons]
    exact ih j _

theorem foldAll_eq (sub : BitVec 4) (w : Warp) (a : Fld) : foldAll sub w a = laneFold sub w a (lanesOf w.act) := by
  unfold foldAll prefixes laneFold
  cases lanesOf w.act with
  | nil => rfl
  | cons m r => exact foldLanes_last sub w a r m _

/-- The running fold at a lane is the fold of the lanes up to it. -/
theorem foldLanes_find (sub : BitVec 4) (w : Warp) (a : Fld) {l m : Nat} {r : List Nat} (up : (m :: r).Pairwise (· < ·))
    (hl : l ∈ m :: r) (acc : Word × FFlags) :
    (((m, acc) :: foldLanes sub w a r acc).find? (fun e => e.1 == l)).map (·.2) =
      some ((r.filter (fun j => decide (j ≤ l))).foldl (foldNext sub w a) acc) := by
  induction r generalizing m acc with
  | nil =>
    obtain rfl := List.mem_singleton.1 hl
    rw [List.find?_cons_of_pos (by exact beq_self_eq_true l)]
    rfl
  | cons j r ih =>
    obtain ⟨above, up⟩ := List.pairwise_cons.1 up
    rcases List.mem_cons.1 hl with rfl | hr
    · have none : (j :: r).filter (fun i => decide (i ≤ l)) = [] :=
        List.filter_eq_nil_iff.2 fun i hi => by have := above i hi; simp; omega
      rw [List.find?_cons_of_pos (by exact beq_self_eq_true l), none]
      rfl
    · have differ : m ≠ l := Nat.ne_of_lt (above l hr)
      have le : j ≤ l := by
        rcases List.mem_cons.1 hr with rfl | hr
        · exact Nat.le_refl l
        · exact Nat.le_of_lt (List.rel_of_pairwise_cons up hr)
      rw [List.find?_cons_of_neg (by simpa using differ),
        List.filter_cons_of_pos (p := fun j => decide (j ≤ l)) (decide_eq_true le)]
      exact ih up hr _

theorem prefixes_find (sub : BitVec 4) (w : Warp) (a : Fld) {l : Nat} (active : w.act.getLsbD l = true) :
    (((prefixes sub w a).find? (fun e => e.1 == l)).map (·.2.1)).getD 0 =
      (laneFold sub w a ((lanesOf w.act).filter (fun j => decide (j ≤ l)))).1 := by
  have up := lanesOf_ascending w.act
  have hl := lanesOf_of_getLsbD active
  unfold prefixes
  generalize lanesOf w.act = ls at up hl
  cases ls with
  | nil => cases hl
  | cons m r =>
    have le : m ≤ l := by
      rcases List.mem_cons.1 hl with rfl | hr
      · exact Nat.le_refl l
      · exact Nat.le_of_lt (List.rel_of_pairwise_cons up hr)
    obtain ⟨e, found, value⟩ := Option.map_eq_some_iff.1 (foldLanes_find sub w a up hl (foldStart sub (rd w a m)))
    rw [List.filter_cons_of_pos (p := fun j => decide (j ≤ l)) (decide_eq_true le), laneFold, ← value]
    simp only [found]
    rfl

/-! Flags of a fold (R142). -/

theorem foldStep_flags {sub : BitVec 4} (h : sub ≠ 8) (x y : Word) : (foldStep sub x y).2 = 0 := by
  have other : sub.toNat ≠ 8 := fun e => h (BitVec.eq_of_toNat_eq e)
  unfold foldStep
  split
  case h_9 sum => exact absurd sum other
  all_goals rfl

theorem foldStart_flags {sub : BitVec 4} (h : sub ≠ 8) (x : Word) : (foldStart sub x).2 = 0 := by
  unfold foldStart
  simp only [beq_eq_false_iff_ne.2 h, Bool.false_and]
  split <;> rfl

/-- Only the FP32 sum raises flags. -/
theorem laneFold_flags {sub : BitVec 4} (h : sub ≠ 8) (w : Warp) (a : Fld) (ls : List Nat) :
    (laneFold sub w a ls).2 = 0 := by
  have keeps (r : List Nat) : ∀ acc : Word × FFlags, acc.2 = 0 → (r.foldl (foldNext sub w a) acc).2 = 0 := by
    induction r with
    | nil => exact fun acc e => e
    | cons j r ih => exact fun acc e => ih _ (by rw [foldNext, e, foldStep_flags h, BitVec.or_self])
  cases ls with
  | nil => rfl
  | cons m r => exact keeps r _ (foldStart_flags h _)

/-- The first value of a fold, by the conditions of R142. -/
theorem foldStart_eq (sub : BitVec 4) (x : Word) : foldStart sub x =
    if 8 ≤ sub.toNat ∧ (fdec fp32 x.toNat).isNan = true then
      (0x7FC00000, if sub = 8 ∧ (fdec fp32 x.toNat).isSnan = true then fNV else 0)
    else (x, 0) := by
  simp only [foldStart, flagIf, Bool.and_eq_true, decide_eq_true_eq, beq_iff_eq]

/-- Settles O9: the folds by the list of their lanes, and the steps and starts as R142 gives them. -/
theorem reductionAndScan : Obligations.ReductionAndScan := by
  unfold Obligations.ReductionAndScan
  refine ⟨fun s k w quiet d a sub h => ?_, fun d a sub => ?refused⟩
  · intro fadds step first fold
    have starts (x : Word) : first x = foldStart sub x := (foldStart_eq sub x).symm
    have steps (x y : Word) : step x y = foldStep sub x y := rfl
    have same (ls : List Nat) : fold ls = laneFold sub w a ls := by
      cases ls with
      | nil => rfl
      | cons m r => simp only [fold, starts, steps]; rfl
    simp only [same]
    refine ⟨fun _ => ?redux, fun _ => ?scan, fun plain => laneFold_flags plain w a _⟩
    case redux =>
      obtain ⟨t, w1, next, retires, wrote, hp, hf⟩ := raiseWord_writes (i := .redux d a sub) h quiet d
        (fun w _ => (foldAll sub w a).1) (fun w => (foldAll sub w a).2) _ rfl fun l _ => rfl
      rw [foldAll_eq, clearPass_act, laneFold_clearPass] at wrote hf
      exact ⟨t, w1, next, retires, wrote, hp, hf⟩
    case scan =>
      have hi : exec (.scan d a sub) s = execScan d a sub s := rfl
      obtain ⟨t, w1, next, retires, wrote, hp, hf⟩ := raiseWord_writes h quiet d _ (fun w => (foldAll sub w a).2) _ hi
        fun l active => prefixes_find sub (clearPass w) a (by rw [clearPass_act]; exact active)
      simp only [foldAll_eq, clearPass_act, laneFold_clearPass] at wrote hf
      exact ⟨t, w1, next, retires, wrote, hp, hf⟩
  case refused =>
    have rule (n : Nat) : (n < sub.toNat → check67 (subAbove n sub) false = some 6) ∧
        (sub.toNat ≤ n → check67 (subAbove n sub) false = none) := by
      refine ⟨fun outside => ?_, fun inside => ?_⟩
      · rw [subAbove, decide_eq_true outside]; rfl
      · rw [subAbove, decide_eq_false (by omega)]; rfl
    exact ⟨(rule 10).1, (rule 10).2, (rule 8).1, (rule 8).2⟩

end Sys2Proof.Machine

/-! PROOF. Branches, calls and returns (09 R144 to R146). -/

namespace Sys2Proof.Machine

/-! Targets (R144, R146). -/

theorem brTarget_eq (hdr : DWord) (off : BitVec 24) :
    brTarget hdr off = BitVec.ofInt 64 (hdr.toNat + 4 * off.toInt) := by
  have offset : off.signExtend 64 <<< 2 = BitVec.ofInt 64 (4 * off.toInt) := by
    rw [BitVec.shiftLeft_eq_mul_twoPow, BitVec.signExtend, mul_comm, BitVec.ofInt_mul]
    rfl
  rw [brTarget, offset, BitVec.ofInt_add, BitVec.ofInt_natCast, BitVec.ofNat_toNat, BitVec.setWidth_eq]

theorem regTarget_eq (hdr : DWord) (r : Word) :
    regTarget hdr r = BitVec.ofNat 64 (hdr.toNat / 2 ^ 32 * 2 ^ 32 + r.toNat) := by
  apply BitVec.eq_of_toNat_eq
  have lt := hdr.isLt
  have ltr := r.isLt
  rw [regTarget, BitVec.toNat_append, ← Nat.shiftLeft_add_eq_or_of_lt ltr, Nat.shiftLeft_eq, BitVec.extractLsb'_toNat,
    Nat.shiftRight_eq_div_pow, BitVec.toNat_ofNat]
  omega

theorem linkValue_eq (w : Warp) :
    linkValue w = BitVec.ofNat 32 ((curPC w).hdr.toNat + 4 * (w.code.length + 1)) := by
  apply BitVec.eq_of_toNat_eq
  rw [linkValue, endPC, nextHdr, BitVec.extractLsb'_toNat, BitVec.toNat_add, BitVec.toNat_ofNat, BitVec.toNat_ofNat]
  simp only [Nat.shiftRight_zero]
  omega

@[simp] theorem linkValue_clearPass (w : Warp) : linkValue (clearPass w) = linkValue w := by
  rw [linkValue, linkValue, endPC_clearPass]

/-- The first lane of a mask that satisfies a condition (R5). -/
theorem find_lanesOf {m : Mask} {p : Nat → Bool} {l : Nat} (active : m.getLsbD l = true) (hp : p l = true)
    (first : ∀ j < l, m.getLsbD j = true → p j = false) : (lanesOf m).find? p = some l := by
  rw [lanesOf, List.find?_filter, List.find?_range_eq_some]
  refine ⟨by rw [active, hp]; rfl, List.mem_range.2 (BitVec.lt_of_getLsbD active), fun j hj => ?_⟩
  cases hm : m.getLsbD j
  · rfl
  · rw [first j hj hm]; rfl

theorem find_lanesOf_none {m : Mask} {p : Nat → Bool} (none : ∀ j, m.getLsbD j = true → p j = false) :
    (lanesOf m).find? p = .none :=
  List.find?_eq_none.2 fun j hj => by rw [none j (mem_lanesOf.1 hj).2]; decide

theorem lowBits_ne_zero (x : Word) : (x.extractLsb' 0 2 != 0) = decide (x.toNat % 4 ≠ 0) := by
  rw [Bool.eq_iff_iff, bne_iff_ne, decide_eq_true_eq, ne_eq, ne_eq, ← BitVec.toNat_inj, BitVec.extractLsb'_toNat]
  rfl

@[simp] theorem badTarget_clearPass (w : Warp) (a : Fld) : badTarget (clearPass w) a = badTarget w a := by
  simp only [badTarget, clearPass_act, rd_clearPass]

theorem badTarget_eq_none {w : Warp} {a : Fld} (aligned : ∀ l, w.act.getLsbD l = true → (rd w a l).toNat % 4 = 0) :
    badTarget w a = none :=
  find_lanesOf_none fun j hj => by rw [lowBits_ne_zero, aligned j hj]; rfl

theorem badTarget_eq_some {w : Warp} {a : Fld} {m : Nat} (active : w.act.getLsbD m = true)
    (bad : (rd w a m).toNat % 4 ≠ 0) (first : ∀ l < m, w.act.getLsbD l = true → (rd w a l).toNat % 4 = 0) :
    badTarget w a = some m :=
  find_lanesOf active (by rw [lowBits_ne_zero, decide_eq_true bad])
    fun j hj hm => by rw [lowBits_ne_zero, first j hj hm]; rfl

/-! A word that ends in a branch (R143, R145). -/

/-- The warp as it stands before its lanes branch: beside threads resumed at the word, a link register may be written. -/
structure BeforeBranch (w u : Warp) : Prop where
  threads : u.threads = (clearPass w).threads
  act : u.act = w.act
  other : u = { w with threads := u.threads, v := u.v, w := u.w, spoilt := u.spoilt }

theorem beforeBranch_clearPass (w : Warp) : BeforeBranch w (clearPass w) :=
  ⟨rfl, clearPass_act w, by rw [clearPass_other]⟩

theorem beforeBranch_link (w : Warp) (d : Fld) (g : Nat → Word) : BeforeBranch w (mapLanes (clearPass w) d g) :=
  ⟨wr_threads .., (wr_act ..).trans (clearPass_act w), by rw [mapLanes, wr_other, clearPass_other]⟩

/-- A branch of every active lane places the lanes at their clauses. -/
theorem branchesTo_of_does {i : Instr} {s : State} {k : Nat} {w u : Warp} {dest : Nat → DWord} {regs : Warp → Prop}
    (hs : w.sstep = false) (before : BeforeBranch w u) (does : Does i s k w (.moved (branchTo (issued s k w) k u dest)))
    (kept : ∀ w1, w1.v = u.v → w1.w = u.w → w1.spoilt = u.spoilt → regs w1) : BranchesTo i s k w dest regs := by
  have placed := placed_modLanes w (fun l t => { t with pc := ⟨dest l, 0⟩ }) fun _ _ => rfl
  have same : thr (choicePoint (modLanes u u.act fun l t => { t with pc := ⟨dest l, 0⟩ })) =
      thr (choicePoint (modLanes (clearPass w) w.act fun l t => { t with pc := ⟨dest l, 0⟩ })) := by
    funext l
    simp only [thr, choicePoint, modLanes, before.threads, before.act]
  have quiet : u.sstep = false := by rw [before.other]; exact hs
  refine ⟨_, _, does, onlyWarp_moved s _ k w quiet, ⟨fun l => by rw [same]; exact placed.threads l, rfl, rfl⟩,
    kept _ rfl rfl rfl, ?_⟩
  rw [before.other]
  rfl

/-- Without a link register no register changes. -/
theorem sameRegs_of_clearPass {w w1 : Warp} (hv : w1.v = (clearPass w).v) (hw : w1.w = (clearPass w).w)
    (hm : w1.spoilt = (clearPass w).spoilt) : SameRegs w w1 :=
  ⟨hm.trans (clearPass_spoilt w), fun f l _ => by rw [rd, rd, hv, hw, clearPass_v, clearPass_w]⟩

section
variable {i : Instr} {s : State} {k : Nat} {w : Warp} {regs : List Fld} {dest : Nat → DWord}

/-- A branch without a link register. -/
theorem branch_places (h : Issues s k w regs) (hs : w.sstep = false) {body : State → Nat → Warp → Eff}
    (hi : exec i s = laneWord s regs body)
    (hb : body (issued s k w) k (clearPass w) = .moved (branchTo (issued s k w) k (clearPass w) dest)) :
    BranchesTo i s k w dest (SameRegs w) :=
  branchesTo_of_does hs (beforeBranch_clearPass w) (hb ▸ does_of_laneWord h hi) fun _ => sameRegs_of_clearPass

/-- A branch that leaves the address of the next clause header in a link register (R146). -/
theorem call_places (h : Issues s k w regs) (hs : w.sstep = false) {d : Fld} {body : State → Nat → Warp → Eff}
    (hi : exec i s = laneWord s regs body) (hb : body (issued s k w) k (clearPass w) = .moved
      (branchTo (issued s k w) k (mapLanes (clearPass w) d (fun _ => linkValue (clearPass w))) dest)) :
    BranchesTo i s k w dest (fun w1 => WroteReg w w1 d (fun _ => linkValue w)) :=
  branchesTo_of_does hs (beforeBranch_link w d _) (hb ▸ does_of_laneWord h hi) fun w1 hv hw hm =>
    wroteReg_wr w w1 d (fun _ => linkValue (clearPass w)) _ (by rw [hv, mapLanes, clearPass_act])
      (by rw [hw, mapLanes, clearPass_act]) (by rw [hm, mapLanes, clearPass_act]) fun _ _ => linkValue_clearPass w

end

/-- A branch to register targets, by their alignment (R144). -/
theorem branchReg_aligned {s : State} {k : Nat} {w : Warp} {a : Fld} (post : Warp → Warp)
    (aligned : badTarget w a = none) : branchReg s k (clearPass w) a post =
      .moved (branchTo s k (post (clearPass w)) (fun l => regTarget (curPC w).hdr (rd w a l))) := by
  simp only [branchReg, badTarget_clearPass, aligned, curPC_clearPass, rd_clearPass]

theorem branchReg_misaligned {s : State} {k m : Nat} {w : Warp} {a : Fld} (post : Warp → Warp)
    (bad : badTarget w a = some m) : branchReg s k (clearPass w) a post = .fault 1 0 m 0 := by
  simp only [branchReg, badTarget_clearPass, bad]

/-- Settles O10: each word by the branch that it makes, and register targets by their alignment. -/
theorem branchesAndCalls : Obligations.BranchesAndCalls := by
  unfold Obligations.BranchesAndCalls
  intro s k w quiet d a off hdr target regTo link
  have toTarget : brTarget (curPC (clearPass w)).hdr off = target := by rw [curPC_clearPass]; exact brTarget_eq hdr off
  have toReg : (fun l => regTarget hdr (rd w a l)) = regTo := funext fun l => regTarget_eq hdr _
  have linked : linkValue w = link := linkValue_eq w
  refine ⟨fun h => ⟨?bra, fun pd pn => ?brc⟩, fun h => ?call, fun aligned => ⟨fun h => ?register, fun h => ?callx⟩,
    fun m active bad first => ⟨fun h => ?badRegister, fun h => ?badCallx⟩⟩
  case bra => exact branch_places h quiet rfl (by rw [toTarget])
  case brc =>
    exact branch_places h quiet rfl (by simp only [toTarget, predBit_clearPass, predBit_iff, endPC_clearPass])
  case call =>
    rw [← linked]
    exact call_places h quiet rfl (by rw [toTarget])
  case register =>
    have goes := branchReg_aligned (s := issued s k w) (k := k) id (badTarget_eq_none aligned)
    rw [← toReg]
    exact ⟨branch_places h quiet rfl goes, branch_places h quiet rfl goes⟩
  case callx =>
    rw [← toReg, ← linked]
    exact call_places h quiet rfl (branchReg_aligned _ (badTarget_eq_none aligned))
  case badRegister =>
    have faults := branchReg_misaligned (s := issued s k w) (k := k) id (badTarget_eq_some active bad first)
    exact ⟨faults ▸ does_of_laneWord h (i := .brx a) rfl, faults ▸ does_of_laneWord h (i := .ret a) rfl⟩
  case badCallx =>
    have faults := branchReg_misaligned (s := issued s k w) (k := k)
      (fun w1 => mapLanes w1 d (fun _ => linkValue (clearPass w))) (badTarget_eq_some active bad first)
    exact faults ▸ does_of_laneWord h (i := .callx d a) rfl

end Sys2Proof.Machine

/-! PROOF. Reconvergence (09 R147 to R149): the opening of an entry, the faults of RJOIN, and what settles as
lanes arrive. -/

namespace Sys2Proof.Machine

/-! The opening of an entry (R147). -/

/-- The warp once it has opened an entry. -/
def reconOpened (w : Warp) (off : BitVec 24) : Warp :=
  { w with
    recon := ⟨w.reconNext, brTarget (curPC w).hdr off, w.act, 0⟩ :: w.recon
    reconNext := w.reconNext + 1 }

theorem does_reconv {s : State} {k : Nat} {w : Warp} (h : Issues s k w []) (off : BitVec 24) :
    Does (.reconv off) s k w (if 16 ≤ w.recon.length then .fault 0x39 0 ((lowest w.act).getD 0) 0
      else .next (setWarp (issued s k w) k (reconOpened (clearPass w) off))) := by
  have does := does_of_laneWord h (Eq.refl (exec (.reconv off) s))
  rw [clearPass_recon, clearPass_act] at does
  simpa only [reconOpened, clearPass_recon, clearPass_act] using does

theorem reconv_opens {s : State} {k : Nat} {w : Warp} (h : Issues s k w []) (hs : w.sstep = false) (off : BitVec 24)
    (room : w.recon.length < 16) : ∃ t w1, exec (.reconv off) s = .next t ∧ OnlyWarp s t k w w1 ∧ GoesOn w w1 ∧
      w1 = { w with threads := w1.threads, act := w1.act, reconNext := w.reconNext + 1,
                    recon := ⟨w.reconNext, brTarget (curPC w).hdr off, w.act, 0⟩ :: w.recon } := by
  have does := does_reconv h off
  rw [if_neg (Nat.not_le.2 room), Does, finishEff_next (w1 := reconOpened (clearPass w) off) (tget_tput_self ..)
    ((clearPass_sstep w).trans hs), setWarp_setWarp, issued, setWarp_setWarp] at does
  have still : stillThere (clearPass w) (reconOpened (clearPass w) off) = w.act :=
    (stillThere_keeps (w := clearPass w) (w1 := clearPass w) ⟨rfl, rfl, rfl⟩).trans (clearPass_act w)
  refine ⟨_, _, does, onlyWarp_count s k w _, goesOn_goOn still rfl (clearPass_act w), ?_⟩
  have opened : reconOpened (clearPass w) off = { w with
      threads := (clearPass w).threads, reconNext := w.reconNext + 1,
      recon := ⟨w.reconNext, brTarget (curPC w).hdr off, w.act, 0⟩ :: w.recon } := by
    rw [reconOpened, curPC_clearPass, clearPass_act, clearPass_recon]
    rw [clearPass_other]
  rw [goOn_other, opened]

/-! Entries that are complete (R148, R149). -/

/-- The lanes that have arrived at complete entries. -/
def joinedLanes (w : Warp) : Mask := (reconDone w).foldl (fun m r => m ||| r.arrived) (0 : Mask)

theorem getLsbD_foldl_arrived (rs : List Recon) (m : Mask) (l : Nat) :
    (rs.foldl (fun m r => m ||| r.arrived) m).getLsbD l = (m.getLsbD l || rs.any (fun r => r.arrived.getLsbD l)) := by
  induction rs generalizing m with
  | nil => rw [List.foldl_nil, List.any_nil, Bool.or_false]
  | cons r rs ih => rw [List.foldl_cons, ih, BitVec.getLsbD_or, List.any_cons, Bool.or_assoc]

theorem getLsbD_joinedLanes (w : Warp) (l : Nat) : (joinedLanes w).getLsbD l =
    w.recon.any (fun r => r.members &&& ~~~r.arrived == 0 && r.arrived.getLsbD l) := by
  rw [joinedLanes, getLsbD_foldl_arrived, show (0 : Mask).getLsbD l = false from BitVec.getLsbD_zero,
    Bool.false_or, reconDone, List.any_filter]

/-- The warp once its complete entries are gone and their arrived threads go on. -/
def reconSettled (w : Warp) : Warp :=
  modLanes { w with recon := w.recon.filter (fun r => r.members &&& ~~~r.arrived != 0) } (joinedLanes w)
    (fun _ t => { t with pc := t.next, wait := .none })

/-- Without single-stepping the entries of a warp settle so. -/
theorem reconSettle_plain {s : State} {k : Nat} {w : Warp} (hw : tget s.warps k = some w) (hs : w.sstep = false) :
    reconSettle s k = setWarp s k (reconSettled w) := by
  have joined : (reconDone w).foldl (fun m r => m ||| r.arrived) (0 : Mask) = joinedLanes w := rfl
  simp only [reconSettle, hw, joined]
  split
  · next none => rw [reconSettled, none, modLanes_zero]
  · rw [releaseLanes_plain (tget_tput_self ..) (by exact hs), setWarp_setWarp]
    rfl

/-! RJOIN (R148, R293). -/

@[simp] theorem innermost_clearPass (w : Warp) (l : Nat) : innermost (clearPass w) l = innermost w l := by
  rw [innermost, innermost, clearPass_recon]

@[simp] theorem outerEntry_clearPass (w : Warp) (l : Nat) : outerEntry (clearPass w) l = outerEntry w l := by
  simp only [outerEntry, clearPass_take, innermost_clearPass, members_clearPass]

@[simp] theorem rjoinFault_clearPass (w : Warp) (l : Nat) : rjoinFault (clearPass w) l = rjoinFault w l := by
  simp only [rjoinFault, innermost_clearPass, curPC_clearPass, outerEntry_clearPass]

@[simp] theorem rjoinArrive_clearPass (w : Warp) : rjoinArrive (clearPass w) = rjoinArrive w := by
  simp only [rjoinArrive, clearPass_recon, clearPass_act, innermost_clearPass]

theorem rjoinFault_eq_none {w : Warp} {l : Nat} {r : Recon} (inner : innermost w l = some r)
    (here : r.join = (curPC w).hdr) (own : outerEntry w l = false) : rjoinFault w l = none := by
  simp [rjoinFault, inner, here, own]

theorem rjoinFault_elsewhere {w : Warp} {l : Nat}
    (h : innermost w l = none ∨ ∃ r, innermost w l = some r ∧ r.join ≠ (curPC w).hdr) : rjoinFault w l = some 0x3A := by
  obtain none | ⟨r, inner, elsewhere⟩ := h
  · simp only [rjoinFault, none]
  · simp only [rjoinFault, inner, if_pos elsewhere]

theorem rjoinFault_outer {w : Warp} {l : Nat} {r : Recon} (inner : innermost w l = some r)
    (here : r.join = (curPC w).hdr) (outer : outerEntry w l = true) : rjoinFault w l = some 0x50 := by
  simp [rjoinFault, inner, here, outer]

/-- The warp at an RJOIN once its active lanes have arrived and wait. -/
def rjoinWaiting (w : Warp) : Warp := { beginWait (clearPass w) w.act .rjoin (nextPC w) with recon := rjoinArrive w }

theorem rjoin_faults {s : State} {k m c : Nat} {w : Warp} (h : Issues s k w []) (active : w.act.getLsbD m = true)
    (fault : rjoinFault w m = some c) (first : ∀ l < m, w.act.getLsbD l = true → rjoinFault w l = none) :
    Does .rjoin s k w (.fault c 0 m 0) := by
  have found : (lanesOf w.act).find? (fun l => (rjoinFault w l).isSome) = some m :=
    find_lanesOf active (by rw [fault]; rfl) fun l hl hm => by rw [first l hl hm]; rfl
  have does := does_of_laneWord h (Eq.refl (exec .rjoin s))
  simp only [clearPass_act, rjoinFault_clearPass, found, fault] at does
  exact does

/-- Where every active lane may arrive, the entries settle (R148). -/
theorem does_rjoin {s : State} {k : Nat} {w : Warp} (h : Issues s k w []) (hs : w.sstep = false)
    (clean : ∀ l, w.act.getLsbD l = true → rjoinFault w l = none) :
    Does .rjoin s k w (.moved (setWarp (issued s k w) k (reconSettled (rjoinWaiting w)))) := by
  have none : (lanesOf w.act).find? (fun l => (rjoinFault w l).isSome) = none :=
    find_lanesOf_none fun l hl => by rw [clean l hl]; rfl
  have quiet : (rjoinWaiting w).sstep = false := (clearPass_sstep w).trans hs
  have settles := reconSettle_plain (s := setWarp (issued s k w) k (rjoinWaiting w)) (tget_tput_self ..) quiet
  have does := does_of_laneWord h (Eq.refl (exec .rjoin s))
  simp only [clearPass_act, rjoinFault_clearPass, none, nextPC_clearPass, rjoinArrive_clearPass] at does
  rw [setWarp_setWarp] at settles
  rw [← settles]
  exact does

/-- The threads of a warp whose entries have settled. -/
theorem thr_reconSettled (w : Warp) (l : Nat) : thr (reconSettled w) l = (thr w l).map (fun x =>
    if (joinedLanes w).getLsbD l then { x with pc := x.next, wait := .none } else x) :=
  thr_modLanes _ _ _ l

theorem thr_rjoinWaiting (w : Warp) (l : Nat) : thr (rjoinWaiting w) l = (thr w l).map (fun x =>
    if w.act.getLsbD l then { x with wait := .rjoin, next := nextPC w, pass1 := false } else x) := by
  have placed := (placed_beginWait w .rjoin).threads l
  rw [clearPass_act, nextPC_clearPass] at placed
  exact placed

theorem reconSettled_rjoinWaiting_other (w : Warp) : reconSettled (rjoinWaiting w) = { w with
    threads := (reconSettled (rjoinWaiting w)).threads, act := 0, cand := 0,
    recon := (rjoinArrive w).filter (fun r => r.members &&& ~~~r.arrived != 0) } := by
  have waiting := choicePoint_modLanes_other w w.act (fun _ t => { t with wait := .rjoin, next := nextPC w })
  unfold reconSettled rjoinWaiting beginWait
  rw [waiting]
  rfl

/-- Settles O11: RECONV by its room, RJOIN by the first lane at fault, and the entries that settle where there is none. -/
theorem reconvergenceWords : Obligations.ReconvergenceWords := by
  unfold Obligations.ReconvergenceWords
  intro s k w quiet h
  refine ⟨fun off => ⟨reconv_opens h quiet off, fun full => ?overflow⟩, fun inside => ?joins, fun m active first =>
    ⟨fun elsewhere => rjoin_faults h active (rjoinFault_elsewhere elsewhere) first,
      fun r inner here outer => rjoin_faults h active (rjoinFault_outer inner here outer) first⟩⟩
  case overflow =>
    have does := does_reconv h off
    rw [if_pos full] at does
    exact does
  case joins =>
    have clean : ∀ l, w.act.getLsbD l = true → rjoinFault w l = none := fun l hl => by
      obtain ⟨r, inner, here, own⟩ := inside l hl
      exact rjoinFault_eq_none inner here own
    refine ⟨_, _, does_rjoin h quiet clean, onlyWarp_moved s _ k w ((clearPass_sstep w).trans quiet), fun l => ?_,
      reconSettled_rjoinWaiting_other w⟩
    rw [thr_reconSettled, thr_rjoinWaiting, getLsbD_joinedLanes, Option.map_map]
    rfl

end Sys2Proof.Machine

/-! PROOF. Ends of threads (01 R20, 02 R53, 09 R149 to R151, 13 R201): EXIT while other lanes stay, and REFORM. -/

namespace Sys2Proof.Machine

/-! Barriers as threads exit (R201). -/

theorem barLose_alive (g : Workgroup) (n : Nat) : (barLose g n).alive = g.alive := by
  unfold barLose
  split
  · split <;> rfl
  · split
    · dsimp only
      split <;> rfl
    · rfl

/-- A thread that exits leaves the count of its workgroup's threads. -/
theorem barExit_alive (nbar : Nat) (g : Workgroup) : (barExit nbar g).alive = g.alive - 1 := by
  have kept (ns : List Nat) : ∀ g : Workgroup, (ns.foldl barLose g).alive = g.alive := by
    induction ns with
    | nil => exact fun g => rfl
    | cons n ns ih => exact fun g => (ih _).trans (barLose_alive g n)
  exact kept _ _

theorem foldl_barExit_alive (nbar : Nat) (ls : List Nat) (g : Workgroup) :
    (ls.foldl (fun g _ => barExit nbar g) g).alive = g.alive - ls.length := by
  induction ls generalizing g with
  | nil => rfl
  | cons l ls ih =>
    rw [List.foldl_cons, ih, barExit_alive, List.length_cons]
    omega

theorem exitBars_lanes {s : State} {wg : Nat} {g : Workgroup} (hg : tget s.wgs wg = some g) (m : Mask) :
    exitBars s wg (lanesOf m).length =
      setWg s wg ((lanesOf m).foldl (fun g _ => barExit (hNbar (hdrOf s wg)) g) g) := by
  simp only [exitBars, hg, List.foldl_const, List.length_range]

/-! Lanes that cease to be live while others stay (R9, R149, R150). -/

/-- The warp without the lanes of a mask. -/
def lanesGone (w : Warp) (m : Mask) : Warp :=
  { reconLeave w m with
    threads := w.threads.filter (fun e => !m.getLsbD e.1), act := w.act &&& ~~~m, cand := w.cand &&& ~~~m
    p := w.p.map (fun e => (e.1, e.2 &&& ~~~m)) }

theorem thr_lanesGone (w : Warp) (m : Mask) (l : Nat) :
    thr (lanesGone w m) l = if m.getLsbD l then none else thr w l := by
  rw [thr, lanesGone, tget_filter_key w.threads (fun i => !m.getLsbD i)]
  cases m.getLsbD l <;> rfl

/-- Nothing settles where the list of entries is empty. -/
theorem reconSettled_of_empty {w : Warp} (h : w.recon = []) : reconSettled w = w := by
  have none : joinedLanes w = 0 := by rw [joinedLanes, reconDone, h]; rfl
  rw [reconSettled, none, modLanes_zero, h, List.filter_nil, ← h]

theorem endLanes_stays {s : State} {k : Nat} {w : Warp} (hw : tget s.warps k = some w) (hs : w.sstep = false)
    (closed : w.recon = []) (m : Mask) (pc : DWord) {l : Nat} {x : Thread} (live : thr w l = some x)
    (stays : m.getLsbD l = false) : endLanes s k m pc = setWarp s k (lanesGone w m) := by
  have left : (lanesGone w m).threads.isEmpty = false := by
    have there : thr (lanesGone w m) l = some x := by rw [thr_lanesGone, stays]; exact live
    rw [List.isEmpty_eq_false_iff]
    intro none
    rw [thr, none] at there
    cases there
  have empty : (lanesGone w m).recon = [] := by
    show w.recon.map _ = []
    rw [closed, List.map_nil]
  have settles := reconSettle_plain (s := setWarp s k (lanesGone w m)) (tget_tput_self ..) (by exact hs)
  rw [setWarp_setWarp, reconSettled_of_empty empty] at settles
  simp only [endLanes, hw]
  exact (if_neg fun gone => Bool.noConfusion (left.symm.trans gone)).trans settles

/-! EXIT (R149, R150, R201). -/

@[simp] theorem isWave_clearPass (w : Warp) : isWave (clearPass w) = isWave w := by rw [isWave, isWave, clearPass_kind]

theorem exit_wave {s : State} {k : Nat} {w : Warp} (h : Issues s k w []) (wave : isWave w = true) :
    Does .exit s k w (.fault 0x0B 0 (low w) 0) := by
  have does := does_of_laneWord h (Eq.refl (exec .exit s))
  simp only [isWave_clearPass, wave, if_true, low_clearPass] at does
  exact does

theorem exit_member {s : State} {k l : Nat} {w : Warp} (h : Issues s k w []) (plain : isWave w = false)
    (member : lowest (w.act &&& members w) = some l) : Does .exit s k w (.fault 0x51 0 l 0) := by
  have does := does_of_laneWord h (Eq.refl (exec .exit s))
  simp only [isWave_clearPass, plain, Bool.false_eq_true, if_false, clearPass_act, members_clearPass, member] at does
  exact does

theorem exit_ends {s : State} {k : Nat} {w : Warp} (h : Issues s k w []) (plain : isWave w = false) (free : NoMember w) :
    Does .exit s k w (.moved (endLanes (setWarp (exitBars (issued s k w) w.wg (lanesOf w.act).length) k
      (choicePoint (clearPass w))) k w.act (wordAddr (curPC w)))) := by
  have none : lowest (w.act &&& members w) = none := by rw [show w.act &&& members w = 0 from free]; rfl
  have does := does_of_laneWord h (Eq.refl (exec .exit s))
  simp only [isWave_clearPass, plain, Bool.false_eq_true, if_false, clearPass_act, members_clearPass, none,
    curPC_clearPass, clearPass_wg] at does
  exact does

theorem countRetired_eq {s : State} {wg : Nat} {g : Workgroup} (hg : tget s.wgs wg = some g) :
    countRetired s wg = setWg s wg { g with retired := g.retired + 1 } := by
  simp only [countRetired, hg]

/-- The warp after an EXIT at which other lanes stay. -/
def exited (w : Warp) : Warp := lanesGone (choicePoint (clearPass w)) w.act

theorem thr_exited (w : Warp) (l : Nat) : thr (exited w) l = if w.act.getLsbD l then none else thr w l := by
  have e : thr (choicePoint (clearPass w)) l = thr (clearPass w) l := rfl
  rw [exited, thr_lanesGone, e, thr_clearPass]
  cases w.act.getLsbD l
  · cases thr w l <;> rfl
  · rfl

/-- What an EXIT leaves where other lanes stay: its warp without the active lanes, and the counts of its workgroup. -/
theorem exit_leaves {s : State} {k : Nat} {w : Warp} (h : Issues s k w []) (hs : w.sstep = false)
    (plain : isWave w = false) (free : NoMember w) (closed : w.recon = []) {l : Nat} {x : Thread} (live : thr w l = some x)
    (stays : w.act.getLsbD l = false) {g : Workgroup} (hg : tget s.wgs w.wg = some g) :
    let g1 := (lanesOf w.act).foldl (fun g _ => barExit (hNbar (hdrOf s w.wg)) g) g
    exec .exit s = .next { s with
      warps := tput s.warps k (exited w), wgs := tput s.wgs w.wg { g1 with retired := g1.retired + 1 } } := by
  intro g1
  have live1 : thr (choicePoint (clearPass w)) l = some x := by
    have e : thr (choicePoint (clearPass w)) l = thr (clearPass w) l := rfl
    rw [e, thr_clearPass, live, stays]
    rfl
  have quiet : (choicePoint (clearPass w)).sstep = false := (clearPass_sstep w).trans hs
  have ends := endLanes_stays (s := setWarp (setWg (issued s k w) w.wg g1) k (choicePoint (clearPass w)))
    (tget_tput_self ..) quiet (clearPass_recon w ▸ closed) w.act (wordAddr (curPC w)) live1 stays
  have does := exit_ends h plain free
  have bars : exitBars (issued s k w) w.wg (lanesOf w.act).length = setWg (issued s k w) w.wg g1 :=
    exitBars_lanes (s := issued s k w) hg w.act
  rw [bars, ends, setWarp_setWarp, Does, finishEff_moved (w1 := exited w) (tget_tput_self ..) quiet,
    countRetired_eq (g := g1) (tget_tput_self ..)] at does
  simp only [setWg, setWarp, issued, tput_tput] at does
  exact does

/-! REFORM (R20, R53, R151). -/

@[simp] theorem filedPending_clearPass (w : Warp) (m : Mask) : filedPending (clearPass w) m = filedPending w m := by
  rw [filedPending, filedPending, clearPass_pend]

section
variable {s : State} {k : Nat} {w : Warp} {a : Fld} (h : Issues s k w [a])
include h

theorem reform_wave (wave : isWave w = true) : Does (.reform a) s k w (.fault 0x0B 0 (low w) 0) := by
  have does := does_of_laneWord h (Eq.refl (exec (.reform a) s))
  simp only [isWave_clearPass, wave, if_true, low_clearPass] at does
  exact does

theorem reform_member (plain : isWave w = false) (member : w.act &&& members w ≠ 0) :
    Does (.reform a) s k w (.abort 8) := by
  have does := does_of_laneWord h (Eq.refl (exec (.reform a) s))
  simp only [isWave_clearPass, plain, Bool.false_eq_true, if_false, clearPass_act, members_clearPass, if_pos member] at does
  exact does

variable (plain : isWave w = false) (free : NoMember w) (aligned : badTarget w a = none)
  (settled : filedPending w w.act = false)
include plain free aligned settled

/-- Where a bin or a frame is missing the active lanes wait at the word. -/
theorem reform_waits (full : fileLanes (issued s k w) (coreOf k) (clearPass w) a w.act = none) :
    Does (.reform a) s k w (.parked (setWarp (issued s k w) k (beginWait (clearPass w) w.act (.reform a) (curPC w)))) := by
  have none : w.act &&& members w = 0 := free
  have does := does_of_laneWord h (Eq.refl (exec (.reform a) s))
  simp only [isWave_clearPass, plain, Bool.false_eq_true, if_false, clearPass_act, members_clearPass,
    none, ne_eq, not_true_eq_false, badTarget_clearPass, aligned, filedPending_clearPass, settled, full,
    curPC_clearPass] at does
  exact does

theorem reform_files {bins : Tbl Bin}
    (room : fileLanes (issued s k w) (coreOf k) (clearPass w) a w.act = some bins) :
    Does (.reform a) s k w (.moved (reformLeave (issued s k w) k (clearPass w) bins)) := by
  have none : w.act &&& members w = 0 := free
  have does := does_of_laneWord h (Eq.refl (exec (.reform a) s))
  simp only [isWave_clearPass, plain, Bool.false_eq_true, if_false, clearPass_act, members_clearPass,
    none, ne_eq, not_true_eq_false, badTarget_clearPass, aligned, filedPending_clearPass, settled, room] at does
  exact does

end

/-- Settles O12: EXIT and REFORM by the first test that holds, and what an EXIT leaves where other lanes stay. -/
theorem threadEnds : Obligations.ThreadEnds := by
  unfold Obligations.ThreadEnds
  intro s k w quiet a
  refine ⟨fun h => ⟨exit_wave h, fun l plain => exit_member h plain, fun plain free closed others g hg => ?exits⟩,
    fun h => ⟨reform_wave h, reform_member h, fun plain free aligned settled => ⟨fun full => ?waits, fun bins room =>
      reform_files h plain free (badTarget_eq_none aligned) settled room⟩⟩⟩
  case exits =>
    obtain ⟨l, x, live, stays⟩ := others
    refine ⟨_, exited w, exit_leaves h quiet plain free closed live stays hg, thr_exited w, BitVec.zero_and,
      BitVec.zero_and, sameRegs_of_clearPass rfl rfl rfl, rfl, ?_⟩
    rw [tget_tput_self, Option.map_some, ← foldl_barExit_alive (hNbar (hdrOf s w.wg))]
  case waits =>
    have does := reform_waits h plain free (badTarget_eq_none aligned) settled full
    exact ⟨_, _, does, setWarp_setWarp .., placed_modLanes w _ fun _ _ => rfl⟩

end Sys2Proof.Machine

/-! PROOF. Memory in canonical form (03 R2, 08 R154): every change of a state keeps memory canonical,
so every step does. -/

namespace Sys2Proof.Machine

/-! Memory in its canonical form: the states that have it, and what a chain of changes leaves of memory. -/

/-- The memory of a state is in canonical form. -/
@[simp] abbrev Canon (s : State) : Prop := Memory.wf s.mem = true

@[simp] theorem mem_ite (c : Prop) [Decidable c] (s t : State) :
    (if c then s else t).mem = if c then s.mem else t.mem :=
  apply_ite ..

@[simp] theorem memWf_ite (c : Prop) [Decidable c] (m n : List Host.Cell) :
    Memory.wf (if c then m else n) = if c then Memory.wf m else Memory.wf n := apply_ite ..

section
variable {α β : Type}

/-- A fold of steps that leave memory alone leaves memory alone; the state is a part of what the steps carry. -/
theorem mem_foldl_of (g : β → State) {f : β → α → β} (hf : ∀ b x, (g (f b x)).mem = (g b).mem) (l : List α) (b : β) :
    (g (l.foldl f b)).mem = (g b).mem := by
  induction l generalizing b with
  | nil => rfl
  | cons x r ih => exact (ih _).trans (hf b x)

@[simp] theorem mem_foldl {f : State → α → State} (hf : ∀ s x, (f s x).mem = s.mem) (l : List α) (s : State) :
    (l.foldl f s).mem = s.mem := mem_foldl_of id hf l s

/-- A fold of steps that keep memory canonical keeps it canonical. -/
theorem canon_foldl_of (g : β → State) {f : β → α → β} (hf : ∀ {b}, Canon (g b) → ∀ x, Canon (g (f b x))) (l : List α)
    {b : β} (h : Canon (g b)) : Canon (g (l.foldl f b)) := by
  induction l generalizing b with
  | nil => exact h
  | cons x r ih => exact ih (hf h x)

theorem canon_foldl {f : State → α → State} (hf : ∀ {s}, Canon s → ∀ x, Canon (f s x)) (l : List α) {s : State}
    (h : Canon s) : Canon (l.foldl f s) := canon_foldl_of id hf l h

end

/-! The next state of an outcome. -/

@[simp] theorem stateOf_next (s t : State) : stateOf s (.next t) = t := rfl
@[simp] theorem stateOf_fault (s : State) (f) : stateOf s (.fault f) = s := rfl
@[simp] theorem stateOf_refused (s : State) (f) : stateOf s (.refused f) = s := rfl

/-! Operations that leave memory alone, in the order of the model's files. -/

section
variable {s : State}

/-! Raw. -/

@[simp] theorem rawStore_mem (a bs) : (rawStore s a bs).mem = s.mem := rfl
@[simp] theorem choose_mem (n) : (choose s n).2.mem = s.mem := rfl
@[simp] theorem noteDone_mem (ds) : (noteDone s ds).mem = s.mem := rfl
@[simp] theorem freshId_mem : (freshId s).2.mem = s.mem := rfl
@[simp] theorem chooseIn_mem (ctx n) : (chooseIn s ctx n).2.mem = s.mem := by unfold chooseIn; split <;> simp
@[simp] theorem choicesTaken_mem (wg n) : (choicesTaken s wg n).mem = s.mem := by simp [choicesTaken]
@[simp] theorem chooseFor_mem (wg n) : (chooseFor s wg n).2.mem = s.mem := by simp [chooseFor]
@[simp] theorem sendOut_mem (kind fields data) : (sendOut s kind fields data).mem = s.mem := rfl
@[simp] theorem hostEvent_mem (kind data ctx die) : (hostEvent s kind data ctx die).mem = s.mem := by simp [hostEvent]
@[simp] theorem capPut_mem (bs) : (capPut s bs).mem = s.mem := by simp [capPut]
@[simp] theorem capRecordWith_mem (serial wg thread kind type die core payload conf more) :
    (capRecordWith s serial wg thread kind type die core payload conf more).mem = s.mem := by
  simp [capRecordWith]
@[simp] theorem capRecord_mem (serial wg thread kind type die core payload conf) :
    (capRecord s serial wg thread kind type die core payload conf).mem = s.mem := by
  simp [capRecord]

/-! Warp. -/

@[simp] theorem warpRecordOf_mem (k w n type payload) : (warpRecordOf s k w n type payload).mem = s.mem := by
  simp [warpRecordOf]
@[simp] theorem warpRecord_mem (k w l type payload) : (warpRecord s k w l type payload).mem = s.mem := by
  simp [warpRecord]
@[simp] theorem holdWarp_mem (k) : (holdWarp s k).mem = s.mem := by unfold holdWarp; split <;> simp
@[simp] theorem holdSeqs_mem (scope wg) : (holdSeqs s scope wg).mem = s.mem := rfl
@[simp] theorem holdSaved_mem (scope wg) : (holdSaved s scope wg).mem = s.mem := by simp [holdSaved]
@[simp] theorem holdUnits_mem (x2) : (holdUnits s x2).mem = s.mem := by simp [holdUnits]
@[simp] theorem holdScope_mem (k w) : (holdScope s k w).mem = s.mem := by simp [holdScope]
@[simp] theorem parkLanes_mem (k m cause tag pc) : (parkLanes s k m cause tag pc).mem = s.mem := by
  unfold parkLanes; split <;> simp
@[simp] theorem stepTrap_mem (k m pc) : (stepTrap s k m pc).mem = s.mem := by unfold stepTrap; split <;> simp
@[simp] theorem releaseLanes_mem (k m) : (releaseLanes s k m).mem = s.mem := by unfold releaseLanes; split <;> simp
@[simp] theorem reconSettle_mem (k) : (reconSettle s k).mem = s.mem := by unfold reconSettle; split <;> simp
@[simp] theorem rollbackNow_mem (k m code) : (rollbackNow s k m code).mem = s.mem := by
  unfold rollbackNow; (repeat' split) <;> simp
@[simp] theorem rollback_mem (k m code) : (rollback s k m code).mem = s.mem := by unfold rollback; split <;> simp
@[simp] theorem abortTake_mem (k code) : (abortTake s k code).mem = s.mem := by unfold abortTake; split <;> simp
@[simp] theorem rollOne_mem (k r) : (rollOne s k r).mem = s.mem := by unfold rollOne; split <;> simp
@[simp] theorem conflict_mem (own line) : (conflict s own line).mem = s.mem := by simp [conflict]

/-! Capture. -/

@[simp] theorem marker_mem (n) : (marker s n).mem = s.mem := by simp [marker]
@[simp] theorem lossRecord_mem : (lossRecord s).mem = s.mem := by simp [lossRecord]
@[simp] theorem samplersFresh_mem : (samplersFresh s).mem = s.mem := rfl
@[simp] theorem idleMarkers_mem : (idleMarkers s).mem = s.mem := by simp [idleMarkers]
@[simp] theorem capStart_mem : (capStart s).mem = s.mem := by simp [capStart]
@[simp] theorem capStop_mem : (capStop s).mem = s.mem := by simp [capStop]
@[simp] theorem capFreeze_mem : (capFreeze s).mem = s.mem := by simp [capFreeze]
@[simp] theorem capReset_mem : (capReset s).mem = s.mem := by simp [capReset]
@[simp] theorem triggerAction_mem (a) : (triggerAction s a).mem = s.mem := by unfold triggerAction; split <;> simp
@[simp] theorem histAdd_mem (ctx e b) : (histAdd s ctx e b).mem = s.mem := rfl
@[simp] theorem measureOne_mem (acc : State × Bool) (d) : (measureOne acc d).1.mem = acc.1.mem := by
  unfold measureOne; dsimp only; split <;> simp
@[simp] theorem measureAll_mem (ds) : (measureAll s ds).mem = s.mem := by
  have kept := mem_foldl_of Prod.fst measureOne_mem (ds.foldl (fun l d => insertDone d l) []) (s, false)
  unfold measureAll
  split
  next e => rw [e] at kept; simpa using kept
@[simp] theorem measureOp_mem (wg handle issued) : (measureOp s wg handle issued).mem = s.mem := rfl
@[simp] theorem measureStep_mem : (measureStep s).mem = s.mem := by simp [measureStep]

/-! Mem. -/

@[simp] theorem sendFabric_mem (kind dfid slink sctx fields data) :
    (sendFabric s kind dfid slink sctx fields data).mem = s.mem :=
  rfl
@[simp] theorem lmStore_mem (wg off bs) : (lmStore s wg off bs).mem = s.mem := by unfold lmStore; split <;> simp
@[simp] theorem logBytes_mem (a old new) : (logBytes s a old new).mem = s.mem := rfl
@[simp] theorem carryPoison_mem (src dst n) : (carryPoison s src dst n).mem = s.mem := by simp [carryPoison]
@[simp] theorem setStashLine_mem (wg i j x) : (setStashLine s wg i j x).mem = s.mem := by
  unfold setStashLine; split <;> simp
@[simp] theorem dirtyLine_mem (x2) : (dirtyLine s x2).mem = s.mem := by simp [dirtyLine]
@[simp] theorem setTl_mem (ctx x3 t) : (setTl s ctx x3 t).mem = s.mem := rfl
@[simp] theorem ringDoorbells_mem (ms) : (ringDoorbells s ms).mem = s.mem := rfl
@[simp] theorem snapFinish_mem (ctx) : (snapFinish s ctx).mem = s.mem := by unfold snapFinish; split <;> simp
@[simp] theorem staleTakes_mem (p) : (staleTakes s p).mem = s.mem := rfl
@[simp] theorem conflicts_mem (own pa n) : (conflicts s own pa n).mem = s.mem := by simp [conflicts]
@[simp] theorem writeLm_mem (own wg off bs) : (writeLm s own wg off bs).mem = s.mem := by simp [writeLm]

/-! Dir. -/

@[simp] theorem sendNode_mem (kind die fields data) : (sendNode s kind die fields data).mem = s.mem := rfl
@[simp] theorem sendGate_mem (rank gfid mkey fields data) : (sendGate s rank gfid mkey fields data).mem = s.mem := by
  simp [sendGate]
@[simp] theorem countRetired_mem (wg) : (countRetired s wg).mem = s.mem := by unfold countRetired; split <;> simp
@[simp] theorem grantClaims_mem (c n) : (grantClaims s c n).mem = s.mem := by
  induction n generalizing s with
  | zero => rfl
  | succ n ih => unfold grantClaims; dsimp only; (repeat' split) <;> simp [ih]
@[simp] theorem grantAll_mem (c) : (grantAll s c).mem = s.mem := by simp [grantAll]
@[simp] theorem createTask_mem (wg pc args wid waits responder cen) :
    (createTask s wg pc args wid waits responder cen).mem = s.mem := by
  unfold createTask; (repeat' split) <;> simp
@[simp] theorem updCensus_mem (id f) : (updCensus s id f).mem = s.mem := rfl
@[simp] theorem withdraw_mem (id entry) : (withdraw s id entry).mem = s.mem := rfl
@[simp] theorem dropResponders_mem (entry) : (dropResponders s entry).mem = s.mem := rfl
@[simp] theorem entryGone_mem (e) : (entryGone s e).mem = s.mem := by
  unfold entryGone; exact mem_foldl (fun _ _ => by simp) _ _
@[simp] theorem removeEntries_mem (c p) : (removeEntries s c p).mem = s.mem := by simp [removeEntries]
@[simp] theorem startCensus_mem (wg c slot key arg op scope) :
    (startCensus s wg c slot key arg op scope).2.mem = s.mem := by
  simp [startCensus]

/-! Moves. -/

@[simp] theorem tokenDone_mem (x) : (tokenDone s x).mem = s.mem := rfl

/-! Ops. -/

@[simp] theorem seqOpDone_mem (c q n) : (seqOpDone s c q n).mem = s.mem := by
  unfold seqOpDone; exact mem_foldl (fun _ _ => by simp) _ _
@[simp] theorem seqFlightDone_mem (c q) : (seqFlightDone s c q).mem = s.mem := by simp [seqFlightDone]
@[simp] theorem releaseSeq_mem (c p) : (releaseSeq s c p).mem = s.mem := by unfold releaseSeq; split <;> simp
@[simp] theorem dropCopies_mem (c p) : (dropCopies s c p).mem = s.mem := by
  unfold dropCopies; exact mem_foldl (fun _ _ => by simp) _ _
@[simp] theorem withdrawResponders_mem (p) : (withdrawResponders s p).mem = s.mem := by
  unfold withdrawResponders; exact mem_foldl (fun _ _ => by simp) _ _
@[simp] theorem dropOnCore_mem (p c) : (dropOnCore s p c).mem = s.mem := by simp [dropOnCore]
@[simp] theorem savedFlights_mem (p) : (savedFlights s p).mem = s.mem := by
  unfold savedFlights; exact mem_foldl (fun _ _ => by split <;> simp) _ _
@[simp] theorem dropUnits_mem (p) : (dropUnits s p).mem = s.mem := by simp [dropUnits]
@[simp] theorem closeGate_mem (serial x3 deadline) : (closeGate s serial x3 deadline).mem = s.mem := rfl
@[simp] theorem sendEnd_mem (serial g cause rec) : (sendEnd s serial g cause rec).mem = s.mem := by simp [sendEnd]
@[simp] theorem keepLoads_mem (k w) : (keepLoads s k w).mem = s.mem := by unfold keepLoads; split <;> simp
@[simp] theorem enterTrap_mem (k w n handler) : (enterTrap s k w n handler).mem = s.mem := rfl
@[simp] theorem leaveTrap_mem (n v0 v1) : (leaveTrap s n v0 v1).mem = s.mem := by
  fun_cases leaveTrap s n v0 v1 <;> simp
@[simp] theorem retire_mem (k w0) : (retire s k w0).mem = s.mem := by unfold retire; simp; split <;> simp
@[simp] theorem debugTrap_mem (k w m cause tag) : (debugTrap s k w m cause tag).mem = s.mem := by
  unfold debugTrap; simp; split <;> simp

/-! Wait. -/

@[simp] theorem sweep_mem (k) : (sweep s k).mem = s.mem := by unfold sweep; split <;> simp

/-! Ctl. -/

@[simp] theorem branchTo_mem (k w dest) : (branchTo s k w dest).mem = s.mem := rfl
@[simp] theorem exitBars_mem (wg n) : (exitBars s wg n).mem = s.mem := by unfold exitBars; split <;> simp
@[simp] theorem fetchSpent_mem (wg) : (fetchSpent s wg).mem = s.mem := by unfold fetchSpent; split <;> simp

/-! MemI. -/

@[simp] theorem setTake_mem (k tk) : (setTake s k tk).mem = s.mem := by unfold setTake; split <;> simp
@[simp] theorem storePoison_mem (wg x bad) : (storePoison s wg x bad).mem = s.mem := by simp [storePoison]
@[simp] theorem loadInto_mem (k w0 d words vs fab) : (loadInto s k w0 d words vs fab).mem = s.mem := by
  unfold loadInto; simp; split <;> simp
@[simp] theorem noteStores_mem (k w fab) : (noteStores s k w fab).mem = s.mem := by unfold noteStores; split <;> simp
@[simp] theorem loadDone_mem (k wg rest e) : (loadDone s k wg rest e).mem = s.mem := by simp [loadDone]
@[simp] theorem warpArrives_mem (k w e) : (warpArrives s k w e).mem = s.mem := by simp [warpArrives]
@[simp] theorem looseArrives_mem (n g x) : (looseArrives s n g x).mem = s.mem := by simp [looseArrives]

/-! Splice. -/

@[simp] theorem spStop_mem (k cause detail off faddr) : (spStop s k cause detail off faddr).mem = s.mem := by
  simp [spStop]
@[simp] theorem returnCredit_mem (k p) : (returnCredit s k p).mem = s.mem := rfl
@[simp] theorem discardStaged_mem (k p) : (discardStaged s k p).mem = s.mem := by
  unfold discardStaged; exact mem_foldl (fun _ _ => by simp) _ _
@[simp] theorem discardTx_mem (k) : (discardTx s k).mem = s.mem := rfl
@[simp] theorem spRetire_mem (k pc boundary) : (spRetire s k pc boundary).mem = s.mem := by
  unfold spRetire; simp; split <;> simp
@[simp] theorem imemWrite_mem (l w v) : (imemWrite s l w v).mem = s.mem := rfl
@[simp] theorem spNumber_mem (k) : (spNumber s k).2.mem = s.mem := rfl
@[simp] theorem takePacket_mem (k p) : (takePacket s k p).mem = s.mem := by simp [takePacket]
@[simp] theorem spliceTaken_mem (k) : (spliceTaken s k).mem = s.mem := rfl
@[simp] theorem refuseStart_mem (k detail faddr) : (refuseStart s k detail faddr).mem = s.mem := rfl
@[simp] theorem startWith_mem (k bs) : (startWith s k bs).mem = s.mem := by simp [startWith]

/-! Sync. -/

@[simp] theorem rwDeposit_mem (n ts) : (rwDeposit s n ts).mem = s.mem := by
  unfold rwDeposit
  exact (mem_foldl (fun _ _ => by split <;> simp) _ _).trans (mem_foldl (fun _ _ => by split <;> simp) _ _)
@[simp] theorem bRead_mem (wg n age) : (bRead s wg n age).2.mem = s.mem := by
  unfold bRead; dsimp only; (repeat' split) <;> simp

/-! Async. -/

@[simp] theorem dropLine_mem (wg i j) : (dropLine s wg i j).mem = s.mem := by unfold dropLine; split <;> simp

/-! TaskI. -/

@[simp] theorem tendWithdraw_mem (w) : (tendWithdraw s w).mem = s.mem := by
  unfold tendWithdraw; exact mem_foldl (fun _ _ => by (repeat' split) <;> simp) _ _
@[simp] theorem setFut_mem (ctx i e) : (setFut s ctx i e).mem = s.mem := rfl
@[simp] theorem ldkByte_mem (wg acc e) : (ldkByte wg acc e).2.mem = acc.2.mem := by
  simp only [ldkByte, apply_ite Prod.snd]; simp
@[simp] theorem ldkBytes_mem (wg) (bs : List (Nat × Byte)) (acc) : (bs.foldl (ldkByte wg) acc).2.mem = acc.2.mem :=
  mem_foldl_of Prod.snd (ldkByte_mem wg) bs acc
@[simp] theorem resolve_mem (ctx x3 v) : (resolve s ctx x3 v).mem = s.mem := by
  unfold resolve; exact mem_foldl (fun _ _ => by split <;> simp) _ _
@[simp] theorem popInto_mem (k d l r) : (popInto s k d l r).mem = s.mem := by unfold popInto; split <;> simp
@[simp] theorem hqGoOn_mem (q rec) : (hqGoOn s q rec).mem = s.mem := by unfold hqGoOn; split <;> simp
@[simp] theorem setMatch_mem (die t) : (setMatch s die t).mem = s.mem := rfl
@[simp] theorem ringByte_mem (ctx acc e) : (ringByte ctx acc e).2.mem = acc.2.mem := by
  unfold ringByte; split <;> simp
@[simp] theorem ringBytes_mem (ctx) (bs : List (Byte × Byte)) (acc) : (bs.foldl (ringByte ctx) acc).2.mem = acc.2.mem :=
  mem_foldl_of Prod.snd (ringByte_mem ctx) bs acc
@[simp] theorem unmatch_mem (wg tag) : (unmatch s wg tag).mem = s.mem := by unfold unmatch; split <;> simp
@[simp] theorem markList_mem (c x now) : (markList s c x now).mem = s.mem := rfl
@[simp] theorem markDue_mem (c x) : (markDue c s x).mem = s.mem := by fun_cases markDue c s x <;> simp
@[simp] theorem markLists_mem (c) : (markLists s c).mem = s.mem := by simp [markLists]
@[simp] theorem markBins_mem (c) : (markBins s c).mem = s.mem := rfl

/-! Fab. -/

@[simp] theorem sendPacket_mem (k) : (sendPacket s k).mem = s.mem := by unfold sendPacket; simp; split <;> simp
@[simp] theorem stage_mem (k p total) : (stage s k p total).mem = s.mem := rfl
@[simp] theorem refusePacket_mem (k p detail) : (refusePacket s k p detail).mem = s.mem := rfl
@[simp] theorem markPoison_mem (pa n) : (markPoison s pa n).mem = s.mem := rfl
@[simp] theorem markFor_mem (wg va n) : (markFor s wg va n).mem = s.mem := by
  unfold markFor; exact mem_foldl (fun _ _ => by simp) _ _
@[simp] theorem sendVerdict_mem (die src claim) : (sendVerdict s die src claim).mem = s.mem := rfl
@[simp] theorem refuseSplicers_mem (line) : (refuseSplicers s line).mem = s.mem := by simp [refuseSplicers]
@[simp] theorem lineServed_mem (line) : (lineServed s line).mem = s.mem := by simp [lineServed]
@[simp] theorem linkEvent_mem (l) : (linkEvent s l).mem = s.mem := by simp [linkEvent]
@[simp] theorem applyWidth_mem (l) : (applyWidth s l).mem = s.mem := by simp [applyWidth]
@[simp] theorem dropLinkContext_mem (k) : (dropLinkContext s k).mem = s.mem := by simp [dropLinkContext]
@[simp] theorem censusAlone_mem (die) : (censusAlone s die).mem = s.mem := by simp [censusAlone]
@[simp] theorem resentEvent_mem (l) : (resentEvent l s).mem = s.mem := by simp [resentEvent]
@[simp] theorem beginAll_mem (serial) : (beginAll s serial).mem = s.mem := rfl
@[simp] theorem gateMiss_mem (serial rank) : (gateMiss s serial rank).mem = s.mem := by
  unfold gateMiss; split <;> simp
@[simp] theorem keepAck_mem (key rank) : (keepAck s key rank).mem = s.mem := rfl

/-! Launch. -/

@[simp] theorem reportPage_mem (serial va g) : (reportPage s serial va g).mem = s.mem := by simp [reportPage]

/-! TakeI. -/

@[simp] theorem takeRemote_mem (k w tk) : (takeRemote s k w tk).mem = s.mem := by
  unfold takeRemote; exact mem_foldl (fun _ _ => by split <;> simp) _ _

/-! Sol. -/

@[simp] theorem modEntry_mem (c id f) : (modEntry s c id f).mem = s.mem := rfl
@[simp] theorem freeSlots_mem (c xs) : (freeSlots s c xs).mem = s.mem := rfl
@[simp] theorem respondLane_mem (wd id entry v) : (respondLane wd s id entry v).mem = s.mem := by simp [respondLane]
@[simp] theorem forwardDone_mem : (forwardDone s).mem = s.mem := by
  unfold forwardDone; exact mem_foldl (fun _ _ => by simp) _ _

/-! Stream. -/

@[simp] theorem setSeq_mem (c q) : (setSeq s c q).mem = s.mem := rfl
@[simp] theorem seqGo_mem (c p) : (seqGo s c p).mem = s.mem := by unfold seqGo; split <;> simp
@[simp] theorem seqComplete_mem (c) : (seqComplete s c).mem = s.mem := by unfold seqComplete; (repeat' split) <;> simp
@[simp] theorem seqNumber_mem (c) : (seqNumber s c).mem = s.mem := by unfold seqNumber; split <;> simp
@[simp] theorem setQ_mem (c q x v) : (setQ s c q x v).mem = s.mem := rfl
@[simp] theorem setSh_mem (wg n r) : (setSh s wg n r).mem = s.mem := by unfold setSh; split <;> simp
@[simp] theorem lmWrites_mem (wg bs) : (lmWrites s wg bs).mem = s.mem := by
  unfold lmWrites; exact mem_foldl (fun _ _ => by split <;> simp) _ _

/-! Sched. -/

@[simp] theorem formWarps_mem (x2 wg c) : (formWarps s x2 wg c).mem = s.mem := by
  unfold formWarps; exact mem_foldl (fun _ _ => by simp) _ _
@[simp] theorem placeMember_mem (serial g begun m) : (placeMember serial g begun s m).mem = s.mem := by
  simp [placeMember]
@[simp] theorem nextIsSaved_mem (wg) : (nextIsSaved s wg).mem = s.mem := by unfold nextIsSaved; split <;> simp
@[simp] theorem putSaved_mem (x) : (putSaved s x).mem = s.mem := by simp [putSaved]
@[simp] theorem arriveLoads_mem (k w) : (arriveLoads s k w).mem = s.mem := by
  unfold arriveLoads; exact mem_foldl (fun _ _ => by split <;> simp) _ _
@[simp] theorem leaveQueues_mem (k w) : (leaveQueues s k w).mem = s.mem := rfl
@[simp] theorem moveQueue_mem (a b) : (moveQueue s a b).mem = s.mem := rfl
@[simp] theorem saveQueues_mem (ctx c) : (saveQueues s ctx c).mem = s.mem := by simp [saveQueues]
@[simp] theorem restoreQueues_mem (ctx from_ c) : (restoreQueues s ctx from_ c).mem = s.mem := by simp [restoreQueues]
@[simp] theorem checkTake_mem (k) : (checkTake s k).mem = s.mem := by unfold checkTake; split <;> simp
@[simp] theorem wakeRestored_mem (k) : (wakeRestored s k).mem = s.mem := by unfold wakeRestored; split <;> simp
@[simp] theorem inWarp_mem (c w) : (inWarp c s w).mem = s.mem := by unfold inWarp; split <;> simp
@[simp] theorem inBin_mem (c b) : (inBin c s b).mem = s.mem := by unfold inBin; split <;> simp
@[simp] theorem inCensus_mem (c e) : (inCensus c s e).mem = s.mem := rfl
@[simp] theorem inSeq_mem (c x) : (inSeq c s x).mem = s.mem := by unfold inSeq; split <;> simp
@[simp] theorem rereadDebug_mem (ctx) : (rereadDebug s ctx).mem = s.mem := rfl
@[simp] theorem nextWaits_mem (serial) : (nextWaits s serial).mem = s.mem := by unfold nextWaits; split <;> simp
@[simp] theorem freezeTakes_mem (p) : (freezeTakes s p).mem = s.mem := by simp [freezeTakes]
@[simp] theorem clearContext_mem (ctx) : (clearContext s ctx).mem = s.mem := rfl
@[simp] theorem sleepsInPlace_mem (ctx f) : (sleepsInPlace s ctx f).mem = s.mem := rfl
@[simp] theorem returnQueues_mem : (returnQueues s).mem = s.mem := by simp [returnQueues]
@[simp] theorem wakeAll_mem (ctx) : (wakeAll s ctx).mem = s.mem := by
  unfold wakeAll; exact mem_foldl (fun _ _ => by dsimp only; split <;> simp) _ _
@[simp] theorem execTrapHandlerFormation_mem (c) : (stateOf s (execTrapHandlerFormation c s)).mem = s.mem := by
  unfold execTrapHandlerFormation; dsimp only; split <;> simp
@[simp] theorem execBinDraw_mem (c i) : (stateOf s (execBinDraw c i s)).mem = s.mem := by
  unfold execBinDraw; dsimp only; (repeat' split) <;> simp
@[simp] theorem execWaveFormation_mem (c wg pc) : (stateOf s (execWaveFormation c wg pc s)).mem = s.mem := by
  unfold execWaveFormation; dsimp only; (repeat' split) <;> simp
theorem mem_of_next {o : Host.Outcome State Fault Refusal} {t : State}
    (e : (match o with | .next u => some u | _ => none) = some t) (h : (stateOf s o).mem = s.mem) :
    t.mem = s.mem := by
  cases o
  · cases e; exact h
  all_goals cases e
theorem formNext_mem {c t} (e : formNext s c = some t) : t.mem = s.mem := by
  unfold formNext at e
  split at e
  · cases e
  · obtain ⟨f, -, e⟩ := Option.bind_eq_some_iff.1 e
    cases f
    · exact mem_of_next e (execTrapHandlerFormation_mem c)
    · exact mem_of_next e (execBinDraw_mem c _)
    · exact mem_of_next e (execWaveFormation_mem c _ _)
@[simp] theorem formAll_mem (c n) : (formAll c n s).mem = s.mem := by
  induction n generalizing s with
  | zero => rfl
  | succ n ih =>
    unfold formAll
    split
    · rfl
    next e => rw [ih, formNext_mem e]
@[simp] theorem formBefore_mem : (formBefore s).mem = s.mem := by simp [formBefore]

/-! Sys. -/

@[simp] theorem returnAll_mem (w) : (returnAll s w).mem = s.mem := by
  unfold returnAll; exact mem_foldl (fun _ _ => by split <;> simp) _ _

/-! Dbg. -/

@[simp] theorem dbgApply_mem (ctx f) : (dbgApply s ctx f).mem = s.mem := rfl

/-! Pkt. -/

@[simp] theorem haltQueue_mem (q err addr) : (haltQueue s q err addr).mem = s.mem := rfl
@[simp] theorem wakeCore_mem (ctx c) : (wakeCore s ctx c).mem = s.mem := by
  unfold wakeCore; exact mem_foldl (fun _ _ => by split <;> simp) _ _
@[simp] theorem snapStart_mem (ctx todo) : (snapStart s ctx todo).mem = s.mem := rfl
@[simp] theorem mixQueue_mem (q pa bs) : (mixQueue s q pa bs).mem = s.mem := by
  unfold mixQueue
  dsimp only
  split
  · rfl
  split
  · rfl
  · exact mem_foldl_of Prod.snd (fun _ _ => by split <;> simp [choose]) _ _
@[simp] theorem idleQueue_mem (q x) : (idleQueue s q x).mem = s.mem := by simp [idleQueue]

/-! HostI. -/

@[simp] theorem putHostDesc_mem (q d) : (putHostDesc s q d).mem = s.mem := rfl
@[simp] theorem setWptr_mem (q v) : (setWptr s q v).mem = s.mem := by simp [setWptr]
@[simp] theorem queueDescWrite_mem (q off size v) : (queueDescWrite s q off size v).mem = s.mem := by
  simp [queueDescWrite]
@[simp] theorem contextSealed_mem (n old d) : (contextSealed s n old d).mem = s.mem := by simp [contextSealed]
@[simp] theorem capCommand_mem (v) : (capCommand s v).mem = s.mem := by unfold capCommand; split <;> simp
@[simp] theorem execSetSstep_mem (ctx) : (stateOf s (execSetSstep ctx s)).mem = s.mem := by
  simp [execSetSstep]
@[simp] theorem execClearSstep_mem (ctx) : (stateOf s (execClearSstep ctx s)).mem = s.mem := by
  simp [execClearSstep]
@[simp] theorem execResumeParked_mem (ctx) : (stateOf s (execResumeParked ctx s)).mem = s.mem := by
  simp [execResumeParked]
@[simp] theorem execReleaseHolds_mem (ctx) : (stateOf s (execReleaseHolds ctx s)).mem = s.mem := by
  simp [execReleaseHolds]
@[simp] theorem dbgCommand_mem (v) : (dbgCommand s v).mem = s.mem := by unfold dbgCommand; split <;> simp
@[simp] theorem captureWrite_mem (r off size v) : (captureWrite s r off size v).mem = s.mem := by
  fun_cases captureWrite s r off size v <;> simp
@[simp] theorem triggerWrite_mem (e off size v) : (triggerWrite s e off size v).mem = s.mem := by simp [triggerWrite]
@[simp] theorem extend_mem (i data) : (extend s i data).mem = s.mem := rfl
@[simp] theorem setReady_mem (v die) : (setReady s v die).mem = s.mem := by simp [setReady]
@[simp] theorem boots_mem (b image version) : (boots s b image version).mem = s.mem := by unfold boots; split <;> simp
@[simp] theorem spoilStore_mem (at_) : (spoilStore s at_).mem = s.mem := by unfold spoilStore; split <;> simp
@[simp] theorem spoilReg_mem (at_) : (spoilReg s at_).mem = s.mem := by unfold spoilReg; split <;> simp
@[simp] theorem execSplicerResume_mem (k) : (stateOf s (execSplicerResume k s)).mem = s.mem := by
  simp [execSplicerResume]
@[simp] theorem execSplicerAbort_mem (k) : (stateOf s (execSplicerAbort k s)).mem = s.mem := by
  unfold execSplicerAbort; dsimp only; split <;> simp
@[simp] theorem execSpcfgWrite_mem (k v) : (stateOf s (execSpcfgWrite k v s)).mem = s.mem := by
  unfold execSpcfgWrite; dsimp only; (repeat' split) <;> simp
@[simp] theorem execSplicerStateWindowWrite_mem (k off size v) :
    (stateOf s (execSplicerStateWindowWrite k off size v s)).mem = s.mem := by
  unfold execSplicerStateWindowWrite; dsimp only; split <;> simp
@[simp] theorem idleSplicers_mem (l) : (idleSplicers s l).mem = s.mem := by simp [idleSplicers]
@[simp] theorem execLinkDown_mem (l) : (stateOf s (execLinkDown l s)).mem = s.mem := by
  unfold execLinkDown; split <;> simp
@[simp] theorem retrainLinks_mem (die) : (retrainLinks s die).mem = s.mem := by simp [retrainLinks]
@[simp] theorem clockRestarts_mem : (clockRestarts s).mem = s.mem := rfl
@[simp] theorem tellGates_mem : (tellGates s).mem = s.mem := by simp [tellGates]

/-! Arbiter. -/

@[simp] theorem splicerTurn_mem (k) : (splicerTurn s k).2.mem = s.mem := by fun_cases splicerTurn s k <;> simp
@[simp] theorem applyHolds_mem : (applyHolds s).mem = s.mem := by simp [applyHolds]
@[simp] theorem going_mem (k w l pc) : (sampleOf.going s k w l pc).2.mem = s.mem := by
  unfold sampleOf.going; (repeat' split) <;> rfl
@[simp] theorem waiting_mem (k w l wt pc) : (sampleOf.waiting s k w l wt pc).2.mem = s.mem := by
  unfold sampleOf.waiting; split
  · rfl
  · split <;> simp [choose]
@[simp] theorem sampleOf_mem (k w) : (sampleOf s k w).2.mem = s.mem := by
  unfold sampleOf; dsimp only; (repeat' split) <;> simp
@[simp] theorem execStallSample_mem (c part) : (stateOf s (execStallSample c part s)).mem = s.mem := by
  unfold execStallSample; dsimp only; (repeat' split) <;> simp
@[simp] theorem takeSamples_mem : (takeSamples s).mem = s.mem := by
  unfold takeSamples
  split
  · rfl
  · exact mem_foldl (fun s c => mem_foldl (fun s p => execStallSample_mem (s := s) c p) _ _) _ _
@[simp] theorem execAlignmentPulse_mem : (stateOf s (execAlignmentPulse s)).mem = s.mem := by
  simp [execAlignmentPulse]
@[simp] theorem tick_mem (n) : (tick s n).mem = s.mem := rfl
@[simp] theorem idleTurn_mem (n) : (idleTurn s n).mem = s.mem := by simp [idleTurn]
@[simp] theorem planStopped_mem : (planStopped s).2.mem = s.mem := by unfold planStopped; split <;> simp
@[simp] theorem noteIssued_mem (x) : (noteIssued s x).mem = s.mem := by fun_cases noteIssued s x <;> simp
@[simp] theorem markCores_mem : (markCores s).mem = s.mem := by simp [markCores]

end

/-! Effects of words whose states have canonical memory. -/

@[simp] def EffCanon : Eff → Prop
  | .next s => Canon s
  | .moved s => Canon s
  | .parked s => Canon s
  | .stall => True
  | .fault _ _ _ _ => True
  | .abort _ => True

@[simp] def SEffCanon : SEff → Prop
  | .next s => Canon s
  | .op s => Canon s
  | .jump s _ => Canon s
  | .stall => True
  | .fault _ _ => True

@[simp] def SpEffCanon : SpEff → Prop
  | .go s _ _ => Canon s
  | .wait s _ => Canon s
  | .stay s => Canon s
  | .halt => True
  | .stop _ _ _ _ => True
  | .poison => True

@[simp] def PkEffCanon : PkEff → Prop
  | .done s => Canon s
  | .wait s => Canon s
  | .hold s => Canon s
  | .own s => Canon s
  | .fail _ => True

@[simp] def FetchCanon : QFetch → Prop
  | .none s => Canon s
  | .packet _ s => Canon s

/-- What a computation answers, if it answers at all, satisfies a predicate. -/
@[simp] def OkIn {ε α : Type} (P : α → Prop) : Except ε α → Prop
  | .ok x => P x
  | .error _ => True

/-! Operations that keep memory canonical, in the order of the model's files. -/

section
variable {s : State} (h : Canon s)
include h

/-! Mem. -/

@[simp] theorem canon_cellByte (a b) : Canon (cellByte s a b) := memWf_memPut a b h
@[simp] theorem canon_cellStore (a x3) : Canon (cellStore s a x3) := by fun_induction cellStore s a x3 <;> simp_all
@[simp] theorem canon_plainStore (a bs) : Canon (plainStore s a bs) := wf_plainStore a bs h
@[simp] theorem canon_writeBackLine (wg i j) : Canon (writeBackLine s wg i j) := by
  unfold writeBackLine; (repeat' split) <;> simp [h]
@[simp] theorem canon_flushStash (own line write) : Canon (flushStash s own line write) := by
  unfold flushStash; exact canon_foldl (fun h _ => by simp [h]) _ h
@[simp] theorem canon_flushRange (own pa n write) : Canon (flushRange s own pa n write) := by
  unfold flushRange; exact canon_foldl (fun h _ => by simp [h]) _ h
@[simp] theorem canon_fillLine (own x3) : Canon (fillLine s own x3) := by
  unfold fillLine; (repeat' split) <;> simp [h]
@[simp] theorem canon_tablesSeen (d ps) : Canon (tablesSeen s d ps) := by
  unfold tablesSeen
  split
  · exact h
  · exact canon_foldl (fun h _ => by split; exacts [h, canon_foldl (fun h _ => by simp [h]) _ h]) _ h
@[simp] theorem canon_snapLine (n x) : Canon (snapLine n s x) := by
  induction n generalizing s x with
  | zero => exact h
  | succ n ih =>
    have lines {t : State} (h : Canon t) (l : List _) : Canon (l.foldl (snapLine n) t) :=
      canon_foldl (fun h x => ih h x) l h
    unfold snapLine
    split
    · exact h
    split
    · exact h
    · simp only [snapFinish_mem, ringDoorbells_mem, carryPoison_mem, Canon]
      refine canon_plainStore ?_ _ _
      simp only [mem_ite, staleTakes_mem, ite_self, Canon]
      exact lines (by simp [h]) _
@[simp] theorem canon_snapBefore (pa n) : Canon (snapBefore s pa n) := by
  unfold snapBefore; exact canon_foldl (fun h _ => by simp [h]) _ h
@[simp] theorem canon_writeQuiet (who va pa bs) : Canon (writeQuiet s who va pa bs) := by
  have ready (own) : Canon (snapBefore (flushRange s own pa bs.length true) pa bs.length) := by simp [h]
  unfold writeQuiet; dsimp only; split <;> simp [ready]
@[simp] theorem canon_writeGlobal (who va pa bs) : Canon (writeGlobal s who va pa bs) := by simp [writeGlobal, h]
@[simp] theorem canon_readGlobal (who va pa n) : Canon (readGlobal s who va pa n).2 := by
  unfold readGlobal; split <;> simp [h]
@[simp] theorem canon_writePhys (pa bs) : Canon (writePhys s pa bs) := by
  unfold writePhys; exact canon_foldl (fun h _ => by simp [h]) _ h
@[simp] theorem canon_readPhys (pa n) : Canon (readPhys s pa n).2 := by simp [readPhys, h]
@[simp] theorem canon_performPosted : Canon (performPosted s) := by
  unfold performPosted; exact canon_foldl (fun h _ => by simp [h]) _ h

/-! Moves. -/

@[simp] theorem canon_readLocFor (wg own x n) : Canon (readLocFor s wg own x n).2 := by
  unfold readLocFor; split <;> simp [h]
@[simp] theorem canon_readLoc (wg x n) : Canon (readLoc s wg x n).2 := by simp [readLoc, h]
@[simp] theorem canon_writeLoc (wg own x bs) : Canon (writeLoc s wg own x bs) := by simp [writeLoc, h]
@[simp] theorem canon_moveByte (wg x b) : Canon (moveByte s wg x b) := by simp [moveByte, h]
@[simp] theorem canon_moveReads (wg ms) : Canon (moveReads s wg ms).2 := by
  induction ms generalizing s with
  | nil => exact h
  | cons m r ih => unfold moveReads; dsimp only; split <;> simp [ih, h]
@[simp] theorem canon_moveWrites (wg x3 x4) : Canon (moveWrites s wg x3 x4) := by
  fun_induction moveWrites s wg x3 x4 <;> simp_all
@[simp] theorem canon_performMoves (wg ms) : Canon (performMoves s wg ms) := by simp [performMoves, h]

/-! Ops. -/

@[simp] theorem canon_readPieces (x2) : Canon (readPieces s x2).2 := by
  induction x2 generalizing s with
  | nil => exact h
  | cons x r ih => simp [readPieces, ih, h]
@[simp] theorem canon_writePieces (x2 x3) : Canon (writePieces s x2 x3) := by
  fun_induction writePieces s x2 x3 <;> simp_all
@[simp] theorem canon_rangeSeen (ctx d va n) : Canon (rangeSeen s ctx d va n) := by
  unfold rangeSeen; simp [h]; split <;> simp [h]
@[simp] theorem canon_rangesSeen (q) : Canon (rangesSeen s q) := by simp [rangesSeen, h]
theorem canon_vRead {ctx d va n r} (e : vRead s ctx d va n = .ok r) : Canon r.2 := by
  unfold vRead at e
  split at e
  · cases e
  · cases e; simp [h]
theorem canon_vWrite {ctx d va bs t} (e : vWrite s ctx d va bs = .ok t) : Canon t := by
  unfold vWrite at e
  split at e
  · cases e
  · cases e; simp [h]
@[simp] theorem canon_writeStatus (q) : Canon (writeStatus s q) := by
  unfold writeStatus
  extract_lets x va ctx t
  have seen : Canon t := by unfold t; split <;> simp [h]
  split
  · exact seen
  split
  next e => exact canon_vWrite seen e
  · exact seen
@[simp] theorem canon_putQueue (q x) : Canon (putQueue s q x) := by simp [putQueue, h]
@[simp] theorem canon_recordOnQueue (q ctx serial die rec) : Canon (recordOnQueue s q ctx serial die rec) := by
  simp [recordOnQueue, h]
@[simp] theorem canon_finishGrid (serial rec die) : Canon (finishGrid s serial rec die) := by
  unfold finishGrid; split <;> simp [h]
@[simp] theorem canon_endOne (serial b others) : Canon (endOne s serial b others) := by
  unfold endOne; split <;> simp [h]
@[simp] theorem canon_endGrids (bs) : Canon (endGrids s bs) := by
  unfold endGrids; exact canon_foldl (fun h _ => by dsimp only; split <;> simp [h]) _ h
@[simp] theorem canon_endGrid (serial b) : Canon (endGrid s serial b) := by simp [endGrid, h]
@[simp] theorem canon_faultLane (k w l cause faddr tcode pc) : Canon (faultLane s k w l cause faddr tcode pc) := by
  simp [faultLane, h]
@[simp] theorem canon_copyFault (x cause faddr) : Canon (copyFault s x cause faddr) := by simp [copyFault, h]
@[simp] theorem canon_copyLand (c x) : Canon (copyLand s c x) := by simp [copyLand, h]
@[simp] theorem canon_copyDone (c x) : Canon (copyDone s c x) := by unfold copyDone; split <;> simp [h]
@[simp] theorem canon_finishCopies (p) : Canon (finishCopies s p) := by
  unfold finishCopies; exact canon_foldl (fun h _ => by simp [h]) _ (by simp [h])
@[simp] theorem canon_taskSpaceFault (wg responder) : Canon (taskSpaceFault s wg responder) := by
  unfold taskSpaceFault; split <;> simp [h]
@[simp] theorem canon_stashFlushAll (wg) : Canon (stashFlushAll s wg) := by
  unfold stashFlushAll
  split
  · exact h
  · exact canon_foldl (fun h _ => by split; exacts [h, canon_foldl (fun h _ => by simp [h]) _ h]) _ h
@[simp] theorem canon_gangRetire (wg) : Canon (gangRetire s wg) := by simp [gangRetire, h]
@[simp] theorem canon_wgEndCheck (wg) : Canon (wgEndCheck s wg) := by
  unfold wgEndCheck; dsimp only; (repeat' split) <;> simp [h]
@[simp] theorem canon_freeSlot (k pc name kind) : Canon (freeSlot s k pc name kind) := by
  unfold freeSlot; split <;> simp [h]
@[simp] theorem canon_endLanes (k m pc) : Canon (endLanes s k m pc) := by unfold endLanes; split <;> simp [h]
@[simp] theorem canon_finishEff (k w) {e : Eff} (he : EffCanon e) : Canon (finishEff s k w e) := by
  cases e with
  | next t => unfold finishEff; dsimp only; split <;> simpa using he
  | moved t => simpa [finishEff] using he
  | parked t => exact he
  | stall => exact h
  | fault c a l t => unfold finishEff; dsimp only; split <;> simp [h]
  | abort c => simp [finishEff, h]
@[simp] theorem canon_issueWord (k w regs) {body : State → Nat → Warp → Eff}
    (hb : ∀ {t w}, Canon t → EffCanon (body t k w)) : Canon (issueWord s k w regs body) := by
  unfold issueWord
  split
  · exact h
  split
  · simp [h]
  split
  · simp [h]
  · exact canon_finishEff (by simp [h]) _ _ (hb (by simp [h]))
theorem canon_laneWord (regs) {body : State → Nat → Warp → Eff} (hb : ∀ {t k w}, Canon t → EffCanon (body t k w)) :
    Canon (stateOf s (laneWord s regs body)) := by
  unfold laneWord
  split
  · split
    · exact h
    · exact canon_issueWord h _ _ _ hb
  · exact h
theorem canon_warpWord (regs f) : Canon (stateOf s (warpWord s regs f)) := canon_laneWord h regs fun h => by simp [h]

/-! Ctl. -/

@[simp] theorem canon_reformLeave (k w bins) : Canon (reformLeave s k w bins) := by simp [reformLeave, h]
@[simp] theorem canon_clauseFault (k w m cause fpc faddr) : Canon (clauseFault s k w m cause fpc faddr) := by
  simp [clauseFault, h]
@[simp] theorem canon_clauseGuard (k w p x5 ws) : Canon (clauseGuard s k w p x5 ws) := by
  fun_cases clauseGuard s k w p x5 ws <;> simp [h]
@[simp] theorem canon_clauseWait (k w p x5 ws) : Canon (clauseWait s k w p x5 ws) := by
  fun_cases clauseWait s k w p x5 ws <;> simp [h]
@[simp] theorem canon_issueClause (k w) : Canon (issueClause s k w) := by
  unfold issueClause; dsimp only; (repeat' split) <;> simp [h]
@[simp] theorem canon_warpClause (k) : Canon (warpClause s k) := by
  unfold warpClause; dsimp only; (repeat' split) <;> simp [h]

/-! MemI. -/

theorem canon_memberRead {k l x n watch atomic reader r} (hr : ∀ {t}, Canon t → Canon (reader t).2)
    (e : memberRead s k l x n watch atomic reader = .ok r) : Canon r.2 := by
  revert e
  fun_cases memberRead s k l x n watch atomic reader <;> intro e <;> cases e
  · exact hr h
  next t d => exact (congrArg Prod.snd d : (reader _).2 = t) ▸ hr (by simp [h])
theorem canon_memberWrite {k l x bs bad t} (e : memberWrite s k l x bs bad = .ok t) : Canon t := by
  revert e
  fun_cases memberWrite s k l x bs bad <;> intro e <;> cases e
  · exact h
  next t d _ _ _ =>
    have fresh : (freshId s).2 = t := congrArg Prod.snd d
    simp [← fresh, h]
@[simp] theorem canon_ldkRead (wg own x) : Canon (ldkRead wg own x s).2 := by
  simp [ldkRead, h]
omit h
theorem canon_readLane {k w loc n watch reader l} {acc : Got} (hr : ∀ {o x t}, Canon t → Canon (reader o x t).2)
    (h : OkIn (fun r => Canon r.1) acc) : OkIn (fun r => Canon r.1) (readLane k w loc n watch reader acc l) := by
  unfold readLane
  split
  · exact trivial
  split
  · exact h
  split
  · split
    · exact trivial
    next e => exact canon_memberRead h hr e
  · exact hr h
theorem canon_readLanes {k w loc n watch reader} (hr : ∀ {o x t}, Canon t → Canon (reader o x t).2) (ls : List Nat)
    {acc : Got}
    (h : OkIn (fun r => Canon r.1) acc) :
    OkIn (fun r => Canon r.1) (ls.foldl (readLane k w loc n watch reader) acc) :=
  List.foldlRecOn ls _ h fun _ h _ _ => canon_readLane hr h
theorem canon_storeLane {k w loc data bad l acc} (h : OkIn Canon acc) :
    OkIn Canon (storeLane k w loc data bad acc l) := by
  unfold storeLane
  split
  · exact trivial
  next t =>
  have h : Canon t := h
  split
  · exact h
  split
  · cases e : memberWrite t k l (loc l) (data l) (bad l) with
    | error c => exact trivial
    | ok u => exact canon_memberWrite h e
  · simp [OkIn, h]
theorem canon_storeLanes {k w loc data bad} (ls : List Nat) {acc} (h : OkIn Canon acc) :
    OkIn Canon (ls.foldl (storeLane k w loc data bad) acc) :=
  List.foldlRecOn ls _ h fun _ h _ _ => canon_storeLane h
theorem canon_atomLane {k w loc n op l} {acc : Got} (h : OkIn (fun r => Canon r.1) acc) :
    OkIn (fun r => Canon r.1) (atomLane k w loc n op acc l) := by
  unfold atomLane
  split
  · exact trivial
  next t vs =>
  have h : Canon t := h
  dsimp only
  split
  · exact h
  split
  · split
    · exact trivial
    next e =>
    have read := canon_memberRead h (fun h => by simp [h]) e
    split
    · exact read
    split
    · exact trivial
    next e => exact canon_memberWrite read e
  · split <;> simp [OkIn, h]
theorem canon_atomLanes {k w loc n op} (ls : List Nat) {acc : Got} (h : OkIn (fun r => Canon r.1) acc) :
    OkIn (fun r => Canon r.1) (ls.foldl (atomLane k w loc n op) acc) :=
  List.foldlRecOn ls _ h fun _ h _ _ => canon_atomLane h
@[simp] theorem canon_gotEff (k w d words fab post) {r : Got} (h : OkIn (fun r => Canon r.1) r) :
    EffCanon (gotEff k w d words fab post r) := by
  cases r with
  | error c => exact trivial
  | ok r => simpa [gotEff] using h
@[simp] theorem canon_doneEff {r} (h : OkIn Canon r) : EffCanon (doneEff r) := by cases r <;> exact h
@[simp] theorem canon_badEff (b) {go : Eff} (h : EffCanon go) : EffCanon (badEff b go) := by
  unfold badEff; split; exacts [trivial, h]
include h
theorem canon_deferAdd {wg a t} (e : deferAdd s wg a = some t) : Canon t := by
  unfold deferAdd at e
  dsimp only at e
  split at e
  · cases e
  split at e
  · cases e; simp [h]
  split at e
  · cases e; simp [h]
  · cases e
omit h
theorem canon_fatomLane {k w c ty a l acc} (h : OkIn Canon acc) : OkIn Canon (fatomLane k w c ty a acc l) := by
  unfold fatomLane
  split
  · exact trivial
  next t =>
  have h : Canon t := h
  dsimp only
  split
  · split <;> simp [OkIn, h]
  · split
    next e => exact canon_deferAdd h e
    · exact trivial
include h

/-! Splice. -/

@[simp] theorem canon_takeBack (k) : Canon (takeBack s k) := by simp [takeBack, h]
@[simp] theorem canon_spFinish (k) {e : SpEff} (he : SpEffCanon e) : Canon (spFinish s k e) := by
  cases e with
  | go t pc b => simpa [spFinish] using he
  | wait t w => simpa [spFinish] using he
  | stay t => exact he
  | halt => simp [spFinish, h]
  | stop c d o a => simp [spFinish, h]
  | poison => simp [spFinish, h]
theorem canon_spliceWord {body : State → Nat → Splicer → SpEff}
    (hb : ∀ {t k x}, Canon t → SpEffCanon (body t k x)) : Canon (stateOf s (spliceWord s body)) := by
  unfold spliceWord
  split
  · exact canon_spFinish (by simp [h]) _ (hb (by simp [h]))
  · exact h
@[simp] theorem canon_recvBytes (b o ps off bs) : Canon (recvBytes s b o ps off bs) := by
  unfold recvBytes; split <;> simp [h]
@[simp] theorem canon_performSig (k n) : Canon (performSig s k n) := by
  unfold performSig; dsimp only; split <;> simp [h]
@[simp] theorem canon_startRecord (k recAddr ps) : Canon (startRecord s k recAddr ps) := by
  unfold startRecord; dsimp only; (repeat' split) <;> simp [h]
@[simp] theorem canon_startContext (k recAddr) : Canon (startContext s k recAddr) := by simp [startContext, h]
@[simp] theorem canon_claunchStart (ctx c) : Canon (claunchStart s ctx c) := by
  unfold claunchStart; split; exacts [h, canon_foldl (fun h _ => by simp [h]) _ h]

/-! Async. -/

@[simp] theorem canon_startCopy (k w d handle ms) : Canon (startCopy s k w d handle ms) := by
  unfold startCopy; dsimp only; (repeat' split) <;> simp [h]
@[simp] theorem canon_stashUnmap (wg i) : Canon (stashUnmap s wg i) := by
  unfold stashUnmap
  split
  · exact h
  next r _ =>
  have back : Canon (r.lines.foldl (fun s l => writeBackLine s wg i l.1) s) := canon_foldl (fun h _ => by simp [h]) _ h
  dsimp only
  split <;> exact canon_foldl (fun h _ => by simp [h]) _ back

/-! TaskI. -/

@[simp] theorem canon_ringRefill (x r) : Canon (ringRefill s x r).2 := by
  simp [ringRefill, h]
@[simp] theorem canon_hqPush (k r) : Canon (hqPush s k r) := by simp [hqPush, h]
theorem canon_hqPop {k r} (e : hqPop s k = some r) : Canon r.2 := by
  unfold hqPop at e
  dsimp only at e
  split at e
  · cases e
  · split at e <;> (cases e; simp [h])
@[simp] theorem canon_hqServe (k n) : Canon (hqServe s k n) := by
  induction n generalizing s with
  | zero => exact h
  | succ n ih =>
    unfold hqServe
    dsimp only
    split
    · exact h
    split
    · split
      · exact ih (by simp [h])
      · exact h
    split
    · exact h
    next e => exact ih (by simpa using canon_hqPop (by simp [h]) e)
@[simp] theorem canon_hqServeAll (k) : Canon (hqServeAll s k) := by simp [hqServeAll, h]
omit h in
theorem canon_popLanes {k hq d} {ls : List Nat} {acc : State × Mask} (h : Canon acc.1) :
    Canon (ls.foldl (popLanes k hq d) acc).1 :=
  canon_foldl_of Prod.fst (fun h _ => by
    unfold popLanes
    split
    · exact h
    next e => simpa using canon_hqPop h e) ls h
omit h in
theorem canon_pushLanes {w hq a} {ls : List Nat} {acc : State × Mask} (h : Canon acc.1) :
    Canon (ls.foldl (pushLanes w hq a) acc).1 :=
  canon_foldl_of Prod.fst (fun h _ => by
    unfold pushLanes
    dsimp only
    split
    · simp [h]
    · exact h) ls h

/-! Fab. -/

@[simp] theorem canon_writeFor (wg va bs) : Canon (writeFor s wg va bs) := by
  unfold writeFor; exact canon_foldl (fun h _ => by simp [h]) _ h
@[simp] theorem canon_messageBytes (die e data) : Canon (messageBytes s die e data) := by simp [messageBytes, h]
@[simp] theorem canon_refuseLine (line) : Canon (refuseLine s line) := by simp [refuseLine, h]
@[simp] theorem canon_openGate (serial) : Canon (openGate s serial) := by unfold openGate; split <;> simp [h]
@[simp] theorem canon_gateCount (serial) : Canon (gateCount s serial) := by unfold gateCount; split <;> simp [h]
@[simp] theorem canon_gateAdd (serial rank) : Canon (gateAdd s serial rank) := by unfold gateAdd; split <;> simp [h]

/-! Launch. -/

@[simp] theorem canon_refuseLaunch (q ctx serial rank d x7 cause faddr) :
    Canon (refuseLaunch s q ctx serial rank d x7 cause faddr) := by
  simp [refuseLaunch, h]
@[simp] theorem canon_refuseGrid (serial cause faddr) : Canon (refuseGrid s serial cause faddr) := by
  unfold refuseGrid; split <;> simp [h]
@[simp] theorem canon_gateAck (serial) : Canon (gateAck s serial) := by unfold gateAck; split <;> simp [h]
@[simp] theorem canon_takeEarlyAcks (serial d rank) : Canon (takeEarlyAcks s serial d rank) := by
  unfold takeEarlyAcks
  split
  · exact canon_foldl (fun h _ => by simp [h]) _ (by simp [h])
  · exact h
@[simp] theorem canon_launchDone (q serial) : Canon (launchDone s q serial) := by simp [launchDone, h]
@[simp] theorem canon_leased (serial g es fixed) : Canon (leased s serial g es fixed) := by
  unfold leased; dsimp only; refine canon_launchDone ?_ _ _; split <;> simp [h]
@[simp] theorem canon_leaseSeen (g) : Canon (leaseSeen s g) := by unfold leaseSeen; simp [h]; split <;> simp [h]
@[simp] theorem canon_leaseSetup (serial) : Canon (leaseSetup s serial) := by
  unfold leaseSetup; dsimp only; (repeat' split) <;> simp [h]
@[simp] theorem canon_toLease (q serial g) : Canon (toLease s q serial g) := by simp [toLease, h]

/-! TakeI. -/

@[simp] theorem canon_takeStores (k w tk) : Canon (takeStores s k w tk) := by
  have stored : Canon (tk.store.foldl (fun s e => storePoison (if (bufLoc e.1 e.2 0).lm
      then writeLm s (some k) (bufLoc e.1 e.2 0).wg (bufLoc e.1 e.2 0).va [e.2.val]
      else writeQuiet s ⟨some w.wg, some k⟩ (bufLoc e.1 e.2 0).va (bufLoc e.1 e.2 0).pa [e.2.val]) w.wg
      (bufLoc e.1 e.2 0) (if e.2.bad then [0] else [])) s) := canon_foldl (fun h _ => by simp [h]) _ h
  unfold takeStores
  simpa using stored
theorem canon_takeAdds {wg es t} (e : takeAdds s wg es = .ok t) : Canon t := by
  induction es generalizing s with
  | nil => cases e; exact h
  | cons x r ih =>
    unfold takeAdds at e
    split at e
    · cases e
    next d => exact ih (canon_deferAdd h d) e
theorem canon_commit {k t} (e : commit s k = .ok t) : Canon t := by
  unfold commit at e
  dsimp only at e
  split at e
  · cases e; exact h
  split at e
  · cases e; exact h
  split at e
  · cases e
  next d =>
  have added := canon_takeAdds h d
  split at e <;> (cases e; simp [added])
@[simp] theorem canon_commitIf (k) : EffCanon (commitIf s k) := by
  unfold commitIf
  split
  · exact h
  split
  · split
    · exact trivial
    next e => exact canon_commit h e
  · exact h
@[simp] theorem canon_settleRolls (k) : Canon (settleRolls s k) := by
  have rolled (l) : Canon (List.foldl (fun s r => rollOne s k r) s l) := canon_foldl (fun h _ => by simp [h]) l h
  unfold settleRolls
  split
  · exact h
  dsimp only
  split
  · exact h
  split
  · exact rolled _
  split
  · exact rolled _
  split
  · simp [h]
  next e => exact canon_commit (rolled _) e

/-! Sol. -/

@[simp] theorem canon_makeResponder (c cen e) : Canon (makeResponder s c cen e) := by simp [makeResponder, h]
@[simp] theorem canon_arrivalPoint (c id) : Canon (arrivalPoint s c id) := by
  unfold arrivalPoint; split; exacts [h, canon_foldl (fun h _ => by simp [h]) _ h]
@[simp] theorem canon_land (id) : Canon (land s id) := by
  unfold land
  split
  · exact h
  dsimp only
  split
  · simp [h]
  split
  · simp [h]
  · exact canon_foldl (fun h _ => by simp [h]) _ (by simp [h])
@[simp] theorem canon_contLand (wg) : Canon (contLand s wg) := by
  unfold contLand
  split
  · exact canon_foldl (fun h _ => by simp [h]) _ h
  · exact h
@[simp] theorem canon_solicitOne (wg c slot x) : Canon (solicitOne s wg c slot x).2 := by
  unfold solicitOne
  dsimp only
  split
  · split
    · simp [h]
    · exact canon_foldl (fun h _ => by simp [h]) _ (by simp [h])
  · simp [h]
@[simp] theorem canon_solServe (k l slot x) : Canon (solServe s k l slot x) := by
  unfold solServe; dsimp only; split <;> simp [h]
omit h in
@[simp] theorem canon_solLane (k mk l) {acc : State × Mask × List SolWait} (h : Canon acc.1) :
    Canon (solLane k mk acc l).1 := by
  unfold solLane; dsimp only; split
  · simp [h]
  · exact h
@[simp] theorem canon_solServeAll (c n) : Canon (solServeAll s c n) := by
  induction n generalizing s with
  | zero => exact h
  | succ n ih => unfold solServeAll; dsimp only; (repeat' split) <;> simp [ih, h]

/-! Stream. -/

@[simp] theorem canon_seqFault (c q cause faddr fpc) : Canon (seqFault s c q cause faddr fpc) := by simp [seqFault, h]
@[simp] theorem canon_seqClause (c) : Canon (seqClause s c) := by unfold seqClause; (repeat' split) <;> simp [h]

/-! Sched. -/

@[simp] theorem canon_placeGang (serial g cores) : Canon (placeGang s serial g cores) := by simp [placeGang, h]
@[simp] theorem canon_sealUnit (wg c n) : Canon (sealUnit s wg c n) := by
  unfold sealUnit
  split
  · exact h
  split
  · exact h
  · simp only [putSaved_mem, Canon]
    exact canon_foldl (fun h _ => by split <;> simp [h]) _ (by simp [h])
@[simp] theorem canon_outWarp (k) : Canon (outWarp s k) := by unfold outWarp; split <;> simp [h]
@[simp] theorem canon_outBin (c i) : Canon (outBin s c i) := by unfold outBin; split <;> simp [h]
@[simp] theorem canon_outSeq (c) : Canon (outSeq s c) := by unfold outSeq; split <;> simp [h]
@[simp] theorem canon_outPlace (wg c) : Canon (outPlace s wg c) := by unfold outPlace; split <;> simp [h]
@[simp] theorem canon_outWg (wg) : Canon (outWg s wg) := by
  unfold outWg
  split
  · exact h
  · extract_lets s1 s2 s3 s4
    have landed : Canon s1 := canon_finishCopies h _
    have warps : Canon s2 := canon_foldl (fun h _ => canon_outWarp h _) _ landed
    have bins : Canon s3 := canon_foldl (fun h _ => canon_outBin h _ _) _ warps
    have seq : Canon s4 := by unfold s4; split <;> simp [bins]
    exact canon_outPlace seq _ _
@[simp] theorem canon_outGang (ws) : Canon (outGang s ws) := by
  unfold outGang; exact canon_foldl (fun h _ => by simp [h]) _ h
@[simp] theorem canon_answerFirst (c e) : Canon (answerFirst s c e) := by
  unfold answerFirst; exact canon_foldl (fun h _ => by simp [h]) _ h
@[simp] theorem canon_moveEntries (wg c) : Canon (moveEntries s wg c) := by
  have answered {t : State} (h : Canon t) (x es) : Canon (List.foldl (fun s e => answerFirst s x e) t es) :=
    canon_foldl (fun h _ => by simp [h]) es h
  unfold moveEntries
  exact canon_foldl (fun h _ => by dsimp only; split <;> simp [answered, h]) _ h
@[simp] theorem canon_inUnits (wg c x g) : Canon (inUnits s wg c x g) := by
  simp only [inUnits, Canon, mem_foldl fun _ _ => inWarp_mem ..]
  exact canon_moveEntries (by simp [mem_foldl fun _ _ => inCensus_mem .., h]) _ _
@[simp] theorem canon_inWg (wg c) : Canon (inWg s wg c) := by unfold inWg; split <;> simp [h]
@[simp] theorem canon_raiseLate (before) : Canon (raiseLate before s) := by simp [raiseLate, h]
@[simp] theorem canon_inGang (serial ms) : Canon (inGang s serial ms) := by
  have back : Canon (ms.foldl (fun s e => inWg s e.1 e.2) s) := canon_foldl (fun h _ => by simp [h]) ms h
  simp [inGang, back]
theorem canon_restoreGang {serial gang pick t} (e : restoreGang s serial gang pick = some t) : Canon t := by
  have placed {u t : State} (h : Canon u) {cs : Option (List Nat)} {ms : List Nat}
      (e : cs.map (fun cs => inGang u serial (ms.zip cs)) = some t) : Canon t := by
    obtain ⟨cs, -, rfl⟩ := Option.map_eq_some_iff.1 e
    simp [h]
  have either {o : Option State} {u : State} (e : o.orElse (fun _ => some u) = some t) : o = some t ∨ u = t := by
    cases o <;> simp_all
  unfold restoreGang at e
  dsimp only at e
  split at e
  next d => cases e; exact placed h d
  split at e
  · split at e
    · cases e; simp [h]
    · rcases either e with d | rfl
      · exact placed (by simp [h]) d
      · simp [h]
  · cases e
theorem canon_placeOne {pick x t} (e : placeOne s pick x = some t) : Canon t := by
  unfold placeOne at e
  split at e
  · cases e
  · exact canon_restoreGang h e
  · obtain ⟨cs, -, rfl⟩ := Option.map_eq_some_iff.1 e
    simp [h]
theorem canon_placeNext {pick t} (e : placeNext s pick = some t) : Canon t := by
  obtain ⟨x, -, e⟩ := List.exists_of_findSome?_eq_some e
  exact canon_placeOne h e
theorem canon_restoreNext {ctx pick t} (e : restoreNext s ctx pick = some t) : Canon t := by
  obtain ⟨x, -, e⟩ := List.exists_of_findSome?_eq_some e
  exact canon_placeOne h e
@[simp] theorem canon_placeAll (pick n) : Canon (placeAll pick n s) := by
  induction n generalizing s with
  | zero => exact h
  | succ n ih =>
    unfold placeAll
    split
    · exact h
    next e => exact ih (canon_placeNext h e)
@[simp] theorem canon_restoreAll (ctx pick n) : Canon (restoreAll ctx pick n s) := by
  induction n generalizing s with
  | zero => exact h
  | succ n ih =>
    unfold restoreAll
    split
    · exact h
    next e => exact ih (canon_restoreNext h e)
@[simp] theorem canon_applyAdd (a) : Canon (applyAdd s a) := by simp [applyAdd, h]
@[simp] theorem canon_saveYields (ctx) : Canon (saveYields s ctx) := by
  unfold saveYields; exact canon_foldl (fun h _ => by simp [h]) _ h
@[simp] theorem canon_drainExpires (ctx) : Canon (drainExpires s ctx) := by
  unfold drainExpires
  split
  · exact h
  split
  · exact h
  · exact canon_foldl (fun h _ => by simp [h]) _ (by simp [h])
@[simp] theorem canon_drainStep (ctx) : Canon (drainStep s ctx) := by simp [drainStep, h]
@[simp] theorem canon_claimUnit (ctx x) : Canon (claimUnit ctx s x) := by fun_cases claimUnit ctx s x <;> simp [h]
@[simp] theorem canon_prepareWarp (k n) : Canon (prepareWarp k n s) := by
  induction n generalizing s with
  | zero => exact h
  | succ n ih => unfold prepareWarp; (repeat' split) <;> simp [ih, h]
@[simp] theorem canon_roundStart (ctx) : Canon (roundStart s ctx) := by
  unfold roundStart
  exact canon_foldl (fun h _ => by simp [h]) _ (by simp [h])
@[simp] theorem canon_futStore (ctx d i bs) : Canon (futStore s ctx d i bs) := by unfold futStore; split <;> simp [h]
@[simp] theorem canon_futInit (ctx d) : Canon (futInit s ctx d) := by
  unfold futInit; exact canon_foldl (fun h _ => by simp [h]) _ h
@[simp] theorem canon_futChanged (before) : Canon (futChanged before s) := by
  unfold futChanged
  exact canon_foldl (fun h _ => canon_foldl (fun h _ => by simp [h]) _ h) _ h

/-! Pkt. -/

@[simp] theorem canon_showStatus (before q) : Canon (showStatus before s q) := by simp [showStatus, h]
@[simp] theorem canon_giveSlot (q) : Canon (giveSlot s q) := by simp [giveSlot, h]
@[simp] theorem canon_shareSlots (n) : Canon (shareSlots n s) := by
  induction n generalizing s with
  | zero => exact h
  | succ n ih => unfold shareSlots; (repeat' split) <;> simp [ih, h]
@[simp] theorem canon_takeSlot (q) : Canon (takeSlot s q) := by simp [takeSlot, h]
@[simp] theorem canon_queuePage (q va) : Canon (queuePage s q va) := by simp [queuePage, h]
@[simp] theorem canon_failQueue (q x3) : Canon (failQueue s q x3) := by unfold failQueue; split <;> simp [h]
@[simp] theorem canon_packetEff (q) {e : PkEff} (he : PkEffCanon e) : Canon (packetEff s q e) := by
  cases e with
  | fail f => simp [packetEff, h]
  | _ t =>
    have ht : Canon t := he
    simp [packetEff, ht]
@[simp] theorem canon_operandsSeen (rs) : Canon (operandsSeen s rs) := by fun_cases operandsSeen s rs <;> simp [h]
@[simp] theorem canon_launchWith (q hdr rank cl) : Canon (launchWith s q hdr rank cl) := by
  unfold launchWith; dsimp only; (repeat' split) <;> simp [h]
theorem canon_levelRead {x off n r} (e : levelRead s x off n = .ok r) : Canon r.2 := by
  unfold levelRead at e
  split at e
  · cases e
  · cases e
  · cases e; simp [h]
theorem canon_holdBytes {q n t} (e : holdBytes s q n = .ok t) : Canon t := by
  unfold holdBytes at e
  dsimp only at e
  split at e
  · cases e; exact h
  split at e
  · cases e
  next d => cases e; exact canon_levelRead h d
@[simp] theorem canon_fetchAhead (q total avail) : Canon (fetchAhead s q total avail) := by
  unfold fetchAhead
  dsimp only
  split
  · simp [h]
  next e => exact canon_holdBytes (by simp [h]) e
@[simp] theorem canon_leaveBuffer (q x) : Canon (leaveBuffer s q x) := by simp [leaveBuffer, h]
@[simp] theorem canon_wantSlot (q x) : Canon (wantSlot s q x) := by simp [wantSlot, h]

/-! HostI. -/

@[simp] theorem canon_destroyKey (ctx) : Canon (destroyKey s ctx) := by
  unfold destroyKey
  dsimp only
  split <;> exact canon_foldl (fun h _ => canon_foldl (fun h _ => memWf_memPuts _ _ h) _ h) _ h
@[simp] theorem canon_contextBegins (n old d) : Canon (contextBegins s n old d) := by simp [contextBegins, h]
@[simp] theorem canon_contextEnds (n old d) : Canon (contextEnds s n old d) := by simp [contextEnds, h]
@[simp] theorem canon_spctlWrite (k v) : Canon (spctlWrite s k v) := by unfold spctlWrite; split <;> simp [h]
@[simp] theorem canon_splicerWrite (k off size v) : Canon (splicerWrite s k off size v) := by simp [splicerWrite, h]
omit h in
@[simp] theorem execHwqDescriptorWrite_mem (k off size v) :
    (stateOf s (execHwqDescriptorWrite k off size v s)).mem = s.mem := by
  unfold execHwqDescriptorWrite; dsimp only; split <;> simp
@[simp] theorem canon_execContextDescriptorWrite (n off size v) :
    Canon (stateOf s (execContextDescriptorWrite n off size v s)) := by
  unfold execContextDescriptorWrite
  exact canon_contextEnds (by simp [h]) _ _ _
@[simp] theorem canon_windowWrite (a size v) : Canon (windowWrite s a size v) := by simp [windowWrite, h]
@[simp] theorem canon_hostWrite (pa bs) : Canon (hostWrite s pa bs) := by simp [hostWrite, h]
@[simp] theorem canon_hostRead (pa n) : Canon (hostRead s pa n).2 := by unfold hostRead; dsimp only; split <;> simp [h]
@[simp] theorem canon_hostReads (x2) : Canon (hostReads s x2).2 := by
  induction x2 generalizing s with
  | nil => exact h
  | cons x r ih => simp [hostReads, ih, h]
@[simp] theorem canon_errorEffect (cls at_ corrected) : Canon (errorEffect cls at_ corrected s) := by
  simp [errorEffect, h]
@[simp] theorem canon_execGridCompletion (n) : Canon (stateOf s (execGridCompletion n s)) := by
  unfold execGridCompletion; dsimp only; (repeat' split) <;> simp [h]
@[simp] theorem canon_resetGrid (n) : Canon (resetGrid s n) := by unfold resetGrid; split <;> simp [h]
@[simp] theorem canon_resetGrids (ns) : Canon (resetGrids s ns) := by
  unfold resetGrids; exact canon_foldl (fun h _ => by simp [h]) _ h
@[simp] theorem canon_queueReset (q) : Canon (queueReset s q) := by simp [queueReset, h]
@[simp] theorem canon_endByReset (p) : Canon (endByReset s p) := by
  unfold endByReset; exact canon_foldl (fun h _ => by simp [h]) _ h
@[simp] theorem canon_partitionReset (dies) : Canon (partitionReset s dies) := by simp [partitionReset, h]
@[simp] theorem canon_dieReset (die) : Canon (dieReset s die) := by
  unfold dieReset; dsimp only; split <;> exact memWf_filter _ (by simp [h])

end

/-! Lane words: the parts of their effects. -/

section
variable {s : State}

@[simp] theorem effCanon_ite (c : Prop) [Decidable c] (a b : Eff) :
    EffCanon (if c then a else b) ↔ if c then EffCanon a else EffCanon b := by split <;> rfl
@[simp] theorem canon_noTake (w) {go : Eff} (hg : EffCanon go) : EffCanon (noTake w go) := by
  unfold noTake; split; exacts [trivial, hg]
@[simp] theorem canon_barIndex (w n) {go : Workgroup → Eff} (hg : ∀ g, EffCanon (go g)) :
    EffCanon (barIndex s w n go) := by
  unfold barIndex; split
  · exact trivial
  split
  · exact trivial
  · exact hg _
@[simp] theorem canon_tryEff {x} (hx : OkIn Canon x) : EffCanon (tryEff x) := by
  unfold tryEff; split; exacts [trivial, hx]
@[simp] theorem canon_laneChecks (w ls bad) {go : Eff} (hg : EffCanon go) : EffCanon (laneChecks w ls bad go) := by
  unfold laneChecks
  split
  · split <;> exact trivial
  · split; exacts [trivial, hg]

/-- Lanes that act one after the other keep memory canonical if each of them does. -/
theorem canon_tryLanes {f : State → Nat → Except (Nat × Nat) State} (hf : ∀ {t l u}, Canon t → f t l = .ok u → Canon u)
    (ls : List Nat) (h : Canon s) : OkIn Canon (tryLanes ls s f) := by
  induction ls generalizing s with
  | nil => exact h
  | cons l r ih =>
    unfold tryLanes
    split
    · exact trivial
    next e => exact ih (hf h e)
theorem canon_laneActs {w ls} {f : State → Nat → Except (Nat × Nat) State}
    (hf : ∀ {t l u}, Canon t → f t l = .ok u → Canon u) (h : Canon s) : EffCanon (laneActs w ls s f) := by
  unfold laneActs
  split
  · split <;> exact trivial
  · exact canon_tryEff (canon_tryLanes hf ls h)

variable (h : Canon s)
include h

@[simp] theorem canon_branchReg (k w a post) : EffCanon (branchReg s k w a post) := by
  unfold branchReg; split; exacts [trivial, h]
@[simp] theorem canon_waitSome (k w m wt) : EffCanon (waitSome s k w m wt) := by
  unfold waitSome; split <;> exact h
@[simp] theorem canon_copyWord (k w d handle bad ms) : EffCanon (copyWord s k w d handle bad ms) := by
  unfold copyWord
  refine canon_noTake _ ?_
  split
  · exact trivial
  split
  · exact trivial
  · exact canon_startCopy h _ _ _ _ _
@[simp] theorem canon_queueWait (k hq act m w mk) : EffCanon (queueWait s k hq act m w mk) := by
  unfold queueWait
  split
  · exact trivial
  split
  · exact h
  · dsimp only; split <;> exact h
@[simp] theorem canon_trapWord (k w pass cause tag) : EffCanon (trapWord s k w pass cause tag) := by
  unfold trapWord; dsimp only; (repeat' split) <;> simp [h]

theorem canon_spawnLane {w a b fut n l t} (e : spawnLane w a b fut n s l = .ok t) : Canon t := by
  simp only [spawnLane, failIf, bind, Except.bind] at e
  repeat' split at e
  all_goals cases e
  all_goals simp [h]
theorem canon_newFut {wg r} (e : newFut s wg = some r) : Canon r.2 := by
  unfold newFut at e
  split at e
  · cases e
  split at e
  · cases e
  · cases e; exact h
theorem canon_newFuts {wg ls r} (e : newFuts s wg ls = .ok r) : Canon r.2 := by
  induction ls generalizing s r with
  | nil => cases e; exact h
  | cons l ls ih =>
    unfold newFuts at e
    split at e
    · cases e
    next d =>
    split at e
    · cases e
    next f =>
      have kept := ih (canon_newFut h d) f
      cases e; exact kept
theorem canon_bindLane {w a b l t} (e : bindLane w a b s l = .ok t) : Canon t := by
  revert e
  fun_cases bindLane w a b s l <;> intro e <;> cases e <;> exact h
theorem canon_matchLane {die w a b c l t} (e : matchLane die w a b c s l = .ok t) : Canon t := by
  unfold matchLane at e
  dsimp only at e
  repeat' split at e
  all_goals cases e
  all_goals exact h
theorem canon_insLane {c w a b once l t} (e : insLane c w a b once s l = .ok t) : Canon t := by
  unfold insLane at e
  dsimp only at e
  repeat' split at e
  all_goals cases e
  all_goals exact h
theorem canon_migLane {c w a b all l t} (e : migLane c w a b all s l = .ok t) : Canon t := by
  revert e
  fun_cases migLane c w a b all s l <;> intro e <;> cases e
  · exact h
  · refine canon_foldl (fun h _ => ?_) _ ?_ <;> exact h
end

/-! Splice words. -/

section
variable {s : State}

@[simp] theorem canon_flagGo (pa) {go : SpEff} (hg : SpEffCanon go) : SpEffCanon (flagGo s pa go) := by
  unfold flagGo; split; exacts [trivial, hg]

variable (h : Canon s)
include h

theorem canon_askLines {k x ps} {go : State → Splicer → SpEff} (hg : ∀ {t x}, Canon t → SpEffCanon (go t x)) :
    SpEffCanon (askLines s k x ps go) := by
  unfold askLines; dsimp only; split; exacts [h, hg h]
theorem canon_asked {k x} {go : State → Splicer → SpEff} (hg : ∀ {t x}, Canon t → SpEffCanon (go t x)) :
    SpEffCanon (asked s k x go) := hg h
theorem canon_withChunk {k x b i n} {go : List (Nat × Nat × Nat) → State → Splicer → SpEff}
    (hg : ∀ {ps t x}, Canon t → SpEffCanon (go ps t x)) : SpEffCanon (withChunk s k x b i n go) := by
  unfold withChunk
  dsimp only
  split
  · exact trivial
  · exact canon_askLines (canon_tablesSeen h _ _) hg
theorem canon_xmitRoom {k x route tag ps} : SpEffCanon (xmitRoom s k x route tag ps) := by
  unfold xmitRoom
  split
  · exact h
  split
  · exact trivial
  · simp [h]
theorem canon_xmitGo {b route tag k ps x} : SpEffCanon (xmitGo b route tag k ps s x) := by
  unfold xmitGo; split; exacts [canon_xmitRoom h, h]
theorem canon_xmitStart {k x b i route tag} : SpEffCanon (xmitStart s k x b i route tag) := by
  unfold xmitStart
  split
  · exact trivial
  split
  · exact trivial
  · exact canon_withChunk h fun h => canon_xmitGo h
theorem canon_xmitBody {bf ki kd ks k x} : SpEffCanon (xmitBody bf ki kd ks s k x) := by
  unfold xmitBody
  split
  · exact canon_xmitStart h
  split
  · exact canon_asked h fun h => canon_xmitGo h
  dsimp only
  split
  · exact h
  · exact trivial
  · exact canon_xmitRoom h
theorem canon_recvDone {k o ps} : SpEffCanon (recvDone s k o ps) := by
  unfold recvDone
  dsimp only
  split
  · simp [h]
  split
  · exact h
  · simp [h]
theorem canon_recvConsume {k b o src ps n} : SpEffCanon (recvConsume s k b o src ps n) := by
  induction n generalizing s with
  | zero => unfold recvConsume; split; exacts [canon_recvDone h, h]
  | succ n ih =>
    unfold recvConsume
    dsimp only
    split
    · exact canon_recvDone h
    split
    · exact h
    split
    · exact h
    split
    · exact trivial
    · exact ih (by simp [h])
theorem canon_recvGo {k x b o ps} : SpEffCanon (recvGo s k x b o ps) := by
  unfold recvGo
  dsimp only
  split
  · exact canon_recvDone h
  split
  · exact h
  · split
    · exact trivial
    split
    · exact trivial
    · exact canon_recvConsume (by simp [h])
  · exact canon_recvConsume h
theorem canon_recvBody {o k x} : SpEffCanon (recvBody o s k x) := by
  unfold recvBody
  dsimp only
  split
  · exact canon_asked h fun h => canon_recvGo h
  split
  · exact trivial
  split
  · exact trivial
  split
  · exact trivial
  · exact canon_withChunk h fun h => canon_recvGo h
theorem canon_fwaitRead {a y imm k pa x} : SpEffCanon (fwaitRead a y imm k pa s x) := by
  unfold fwaitRead; refine canon_flagGo _ ?_; dsimp only; split <;> simp [h]
theorem canon_fwaitBody {a y imm k x} : SpEffCanon (fwaitBody a y imm s k x) := by
  have seen {d ps} : Canon (tablesSeen s d ps) := canon_tablesSeen h d ps
  unfold fwaitBody
  dsimp only
  split
  · exact seen
  split
  · exact trivial
  split
  · exact canon_asked seen fun h => canon_fwaitRead h
  · exact canon_askLines seen fun h => canon_fwaitRead h
theorem canon_fsigBody {a y imm k x} : SpEffCanon (fsigBody a y imm s k x) := by
  have seen {d ps} : Canon (tablesSeen s d ps) := canon_tablesSeen h d ps
  unfold fsigBody
  dsimp only
  split
  · exact trivial
  split
  · exact canon_asked seen fun h => canon_flagGo _ (by simp [h])
  · exact canon_askLines seen fun h => canon_flagGo _ (by simp [h])
end

/-! Stream words. -/

section
variable {s : State}

@[simp] theorem canon_seqBar (q n) {go : Workgroup → SEff} (hg : ∀ g, SEffCanon (go g)) :
    SEffCanon (seqBar s q n go) := by
  unfold seqBar; split
  · exact trivial
  split
  · exact trivial
  · exact hg _

theorem canon_seqWord {body : State → Nat → Seq → SEff} (h : Canon s)
    (hb : ∀ {t c q}, Canon t → SEffCanon (body t c q)) :
    Canon (stateOf s (seqWord s body)) := by
  unfold seqWord
  split
  next c _ =>
    split
    · exact h
    next q _ =>
    have kept := hb (c := c) (q := q) h
    rw [stateOf_next]
    generalize body s c q = e at kept
    cases e with
    | stall => exact h
    | fault cause a => exact canon_seqFault h ..
    | _ t => have ht : Canon t := kept; simp [ht]
  · exact h
end

/-! Packets. -/

section
variable {s : State}

theorem canon_orFail {α : Type} {r : Except PkFail α} {go : α → PkEff} (hg : ∀ x, PkEffCanon (go x)) :
    PkEffCanon (orFail r go) := by
  unfold orFail; split; exacts [trivial, hg _]
theorem canon_inRanges {x as} {go : PkEff} (hg : PkEffCanon go) : PkEffCanon (inRanges s x as go) :=
  canon_orFail fun _ => by split; exacts [hg, trivial]
theorem canon_withPieces {x n va len} {go : List (Nat × Nat × Nat) → PkEff} (hg : ∀ ps, PkEffCanon (go ps)) :
    PkEffCanon (withPieces s x n va len go) := canon_orFail hg
theorem canon_withOperand {x n va len} {go : List (Nat × Nat × Nat) → PkEff} (hg : ∀ ps, PkEffCanon (go ps)) :
    PkEffCanon (withOperand s x n va len go) := canon_inRanges (canon_withPieces hg)

variable (h : Canon s)
include h

theorem canon_queueWord {body : State → Nat → Queue → PkEff} (hb : ∀ {t q x}, Canon t → PkEffCanon (body t q x)) :
    Canon (stateOf s (queueWord s body)) := by
  unfold queueWord
  split
  · exact canon_packetEff h _ (hb h)
  · exact h
theorem canon_queueWordAt {rs} {body : State → Nat → Queue → PkEff}
    (hb : ∀ {t q x}, Canon t → PkEffCanon (body t q x)) :
    Canon (stateOf s (queueWordAt s rs body)) := by
  unfold queueWordAt queueWord
  split
  · exact canon_packetEff (canon_operandsSeen h rs) _ (hb (canon_operandsSeen h rs))
  · exact h
end

/-! Lane words that do more than write a warp. -/

theorem okIn_map {ε : Type} {r : Except ε State} {f : State → State} (hr : OkIn Canon r)
    (hf : ∀ {t}, Canon t → Canon (f t)) : OkIn Canon (r.map f) := by
  cases r with
  | ok t => exact hf hr
  | error e => exact trivial

section
variable {s : State} (h : Canon s)
include h

theorem canon_execScalex (d a b sub aux) : Canon (stateOf s (execScalex d a b sub aux s)) := by
  unfold execScalex; dsimp only; split <;> exact canon_warpWord h _ _
theorem canon_execBrx (a) : Canon (stateOf s (execBrx a s)) := canon_laneWord h _ fun h => canon_branchReg h ..
theorem canon_execCallx (d a) : Canon (stateOf s (execCallx d a s)) := canon_laneWord h _ fun h => canon_branchReg h ..
theorem canon_execRet (a) : Canon (stateOf s (execRet a s)) := canon_laneWord h _ fun h => canon_branchReg h ..

theorem canon_lmLoad (st base off ty) : Canon (stateOf s (lmLoad st base off ty s)) :=
  canon_laneWord h _ fun h => canon_badEff _ (canon_gotEff _ _ _ _ _ _ (canon_readLanes (fun h => by simp [h]) _ h))
theorem canon_lmStoreW (st base off ty) : Canon (stateOf s (lmStoreW st base off ty s)) :=
  canon_laneWord h _ fun h => canon_badEff _ (canon_doneEff (canon_storeLanes _ h))
theorem canon_gLoad (st base off ty) : Canon (stateOf s (gLoad st base off ty s)) :=
  canon_laneWord h _ fun h => canon_badEff _ (canon_gotEff _ _ _ _ _ _ (canon_readLanes (fun h => by simp [h]) _ h))
theorem canon_gStore (st base off ty) : Canon (stateOf s (gStore st base off ty s)) :=
  canon_laneWord h _ fun h => canon_badEff _ (canon_doneEff (okIn_map (canon_storeLanes _ h) fun h => by simp [h]))
theorem canon_gAtom (regs st base off n pcie op) : Canon (stateOf s (gAtom s regs st base off n pcie op)) :=
  canon_laneWord h _ fun h => canon_badEff _ (canon_gotEff _ _ _ _ _ _ (canon_atomLanes _ h))
theorem canon_execLdk (st base off) : Canon (stateOf s (execLdk st base off s)) :=
  canon_laneWord h _ fun h => canon_badEff _ (canon_gotEff _ _ _ _ _ _
    (canon_readLanes (fun h => canon_ldkRead h ..) _ h))
theorem canon_execAtoml (st base off c sub ty) : Canon (stateOf s (execAtoml st base off c sub ty s)) :=
  canon_laneWord h _ fun h => canon_badEff _ (canon_gotEff _ _ _ _ _ _ (canon_atomLanes _ h))
theorem canon_execFatom (base off c sub ty) : Canon (stateOf s (execFatom base off c sub ty s)) :=
  canon_laneWord h _ fun {t k w} h => canon_badEff _ (by
    have added := List.foldlRecOn (motive := OkIn Canon)
      (kindOrder (fun l => gLoc t w.wg (gAddr w base off 4 l)) (lanesOf w.act))
      (fatomLane k w c ty (gAddr w base off 4)) (b := .ok t) h fun _ h _ _ => canon_fatomLane h
    split
    · exact trivial
    next e => rw [e] at added; exact added)

theorem canon_execBra (off) : Canon (stateOf s (execBra off s)) := canon_laneWord h _ fun h => h
theorem canon_execBrc (off pd pn) : Canon (stateOf s (execBrc off pd pn s)) := canon_laneWord h _ fun h => h
theorem canon_execCall (off c) : Canon (stateOf s (execCall off c s)) := canon_laneWord h _ fun h => h
theorem canon_execReconv (off) : Canon (stateOf s (execReconv off s)) :=
  canon_laneWord h _ fun h => by split <;> simp [h]
theorem canon_execRjoin : Canon (stateOf s (execRjoin s)) := canon_laneWord h _ fun h => by split <;> simp [h]
theorem canon_execExit : Canon (stateOf s (execExit s)) := canon_laneWord h _ fun h => by (repeat' split) <;> simp [h]
theorem canon_execReform (a) : Canon (stateOf s (execReform a s)) :=
  canon_laneWord h _ fun h => by (repeat' split) <;> simp [h]
theorem canon_execNop : Canon (stateOf s (execNop s)) := canon_laneWord h _ fun h => h
theorem canon_execSleep (n) : Canon (stateOf s (execSleep n s)) := canon_laneWord h _ fun h => by split <;> simp [h]
theorem canon_execFence (_sub _scope) : Canon (stateOf s (execFence _sub _scope s)) := canon_laneWord h _ fun h => h
theorem canon_execClaim (m) : Canon (stateOf s (execClaim m s)) :=
  canon_laneWord h _ fun h => by dsimp only; (repeat' split) <;> simp [h]
theorem canon_execGive (m) : Canon (stateOf s (execGive m s)) :=
  canon_laneWord h _ fun h => by dsimp only; (repeat' split) <;> simp [h]
theorem canon_execBmovRead (d a) : Canon (stateOf s (execBmovRead d a s)) := canon_laneWord h _ fun h => by simp [h]
theorem canon_execTlread (d a) : Canon (stateOf s (execTlread d a s)) :=
  canon_laneWord h _ fun h => by dsimp only; split <;> simp [h]
theorem canon_execTend : Canon (stateOf s (execTend s)) := canon_laneWord h _ fun h => by (repeat' split) <;> simp [h]
theorem canon_execFutget (d a) : Canon (stateOf s (execFutget d a s)) :=
  canon_laneWord h _ fun h => by split <;> simp [h]
theorem canon_execQroom (d q) : Canon (stateOf s (execQroom d q s)) :=
  canon_laneWord h _ fun h => by dsimp only; split <;> simp [h]
theorem canon_execTake : Canon (stateOf s (execTake s)) :=
  canon_laneWord h _ fun h => by dsimp only; (repeat' split) <;> simp [h]
theorem canon_execKdirlook (d a) : Canon (stateOf s (execKdirlook d a s)) := canon_laneWord h _ fun h => h
theorem canon_execGetsr (d n) : Canon (stateOf s (execGetsr d n s)) := canon_laneWord h _ fun h => by split <;> simp [h]
theorem canon_execSetsr (a n) : Canon (stateOf s (execSetsr a n s)) := canon_laneWord h _ fun h => by split <;> simp [h]
theorem canon_execYield : Canon (stateOf s (execYield s)) := canon_laneWord h _ fun h => by (repeat' split) <;> simp [h]
theorem canon_execSysret : Canon (stateOf s (execSysret s)) :=
  canon_laneWord h _ fun h => by (repeat' split) <;> simp [h]

theorem canon_execBarinit (a n) : Canon (stateOf s (execBarinit a n s)) :=
  canon_laneWord h _ fun h => canon_barIndex _ _ fun g => by dsimp only; split; exacts [trivial, by simp [h]]
theorem canon_execBara (n) : Canon (stateOf s (execBara n s)) :=
  canon_laneWord h _ fun h => canon_barIndex _ _ fun g => by simp [h]
theorem canon_execBarw (n) : Canon (stateOf s (execBarw n s)) :=
  canon_laneWord h _ fun h => canon_barIndex _ _ fun _ => canon_waitSome h ..
theorem canon_execBars (n) : Canon (stateOf s (execBars n s)) :=
  canon_laneWord h _ fun h => canon_barIndex _ _ fun g => canon_waitSome (by simp [h]) ..
theorem canon_execRwrite (n a b) : Canon (stateOf s (execRwrite n a b s)) :=
  canon_laneWord h _ fun h => canon_noTake _ (by split; exacts [trivial, by simp [h]])
theorem canon_execRwait (a) : Canon (stateOf s (execRwait a s)) := canon_laneWord h _ fun h => canon_waitSome h ..
theorem canon_execBmovWrite (d a) : Canon (stateOf s (execBmovWrite d a s)) :=
  canon_laneWord h _ fun h => canon_noTake _ (by dsimp only; (repeat' split) <;> simp [h])
theorem canon_execTlblock (a b) : Canon (stateOf s (execTlblock a b s)) :=
  canon_laneWord h _ fun h => by
    split
    · exact trivial
    · exact canon_noTake _ (by dsimp only; (repeat' split) <;> simp [h])
theorem canon_execTlbunlk (a) : Canon (stateOf s (execTlbunlk a s)) :=
  canon_laneWord h _ fun h => by
    split
    · exact trivial
    · exact canon_noTake _ (by split <;> simp [h])
theorem canon_execAcopy (d a b c sub ty) : Canon (stateOf s (execAcopy d a b c sub ty s)) :=
  canon_laneWord h _ fun h => canon_copyWord h ..
theorem canon_execBcopy (d a b sub) : Canon (stateOf s (execBcopy d a b sub s)) :=
  canon_laneWord h _ fun h => by dsimp only; split <;> exact canon_copyWord h ..
theorem canon_execGather (d a b c ty) : Canon (stateOf s (execGather d a b c ty s)) :=
  canon_laneWord h _ fun h => canon_copyWord h ..
theorem canon_execTlwait (a b) : Canon (stateOf s (execTlwait a b s)) :=
  canon_laneWord h _ fun h => by dsimp only; split; exacts [trivial, canon_waitSome h ..]
theorem canon_execStashmap (a b c) : Canon (stateOf s (execStashmap a b c s)) :=
  canon_laneWord h _ fun h => canon_noTake _ (by dsimp only; (repeat' split) <;> simp [h])
theorem canon_stashRange (a b) {f : State → Nat → Nat × Nat → State} (hf : ∀ {t wg x}, Canon t → Canon (f t wg x)) :
    Canon (stateOf s (stashRange a b f s)) :=
  canon_laneWord h _ fun h => canon_noTake _ (by
    dsimp only
    split
    · exact trivial
    split
    · exact trivial
    · exact canon_foldl (fun h _ => hf h) _ h)
theorem canon_execStashwb (a b) : Canon (stateOf s (execStashwb a b s)) := canon_stashRange h a b fun h => by simp [h]
theorem canon_execStashinv (a b) : Canon (stateOf s (execStashinv a b s)) := canon_stashRange h a b fun h => by simp [h]

theorem canon_execTspawn (a b sub aux) : Canon (stateOf s (execTspawn a b sub aux s)) :=
  canon_laneWord h _ fun h => canon_laneActs (fun h e => canon_spawnLane h e) h
theorem canon_execFutnew (d) : Canon (stateOf s (execFutnew d s)) :=
  canon_laneWord h _ fun h => canon_laneChecks _ _ _ (by
    split
    · exact trivial
    next e => have made := canon_newFuts h e; simpa using made)
theorem canon_execFutset (a b) : Canon (stateOf s (execFutset a b s)) :=
  canon_laneWord h _ fun h => canon_laneChecks _ _ _ (canon_foldl (fun h _ => by simp [h]) _ (by simp [h]))
theorem canon_execFutwait (a) : Canon (stateOf s (execFutwait a s)) :=
  canon_laneWord h _ fun h => by dsimp only; split; exacts [trivial, canon_waitSome h ..]
theorem canon_execFutdrop (a) : Canon (stateOf s (execFutdrop a s)) :=
  canon_laneWord h _ fun h => canon_laneChecks _ _ _ (canon_foldl (fun h _ => by simp [h]) _ h)
theorem canon_execQpop (d q) : Canon (stateOf s (execQpop d q s)) :=
  canon_laneWord h _ fun h => canon_laneChecks _ _ _
    (canon_queueWait (canon_hqServeAll (canon_popLanes (acc := (_, 0)) h) _) ..)
theorem canon_execQpush (a q) : Canon (stateOf s (execQpush a q s)) :=
  canon_laneWord h _ fun h => canon_laneChecks _ _ _ (canon_queueWait (canon_pushLanes (acc := (_, 0)) h) ..)
theorem canon_execMbxbind (a b) : Canon (stateOf s (execMbxbind a b s)) :=
  canon_laneWord h _ fun h => canon_laneActs (fun h e => canon_bindLane h e) h
theorem canon_execNmatch (a b c) : Canon (stateOf s (execNmatch a b c s)) :=
  canon_laneWord h _ fun h => canon_laneActs (fun h e => canon_matchLane h e) h
theorem canon_execNunmatch (a) : Canon (stateOf s (execNunmatch a s)) :=
  canon_laneWord h _ fun h => canon_noTake _ (canon_foldl (fun h _ => by simp [h]) _ h)
theorem canon_execKeep (scope) : Canon (stateOf s (execKeep scope s)) :=
  canon_laneWord h _ fun h => by
    split
    · exact trivial
    · dsimp only; split; exacts [by simp [h], canon_commitIf (by simp [h]) _]
theorem canon_execDrop (a sub aux) : Canon (stateOf s (execDrop a sub aux s)) :=
  canon_laneWord h _ fun h => by
    split
    · exact trivial
    · dsimp only
      generalize (if sub = 1 then _ else _ : Mask) = m
      split; exacts [h, canon_commitIf (by simp [h]) _]
theorem canon_execKdirins (a b sub) : Canon (stateOf s (execKdirins a b sub s)) :=
  canon_laneWord h _ fun h => canon_laneActs (fun h e => canon_insLane h e) h
theorem canon_execKdirdel (a) : Canon (stateOf s (execKdirdel a s)) :=
  canon_laneWord h _ fun h => canon_noTake _ (canon_foldl (fun h _ => by split <;> simp [h]) _ h)
theorem canon_execKdirmig (a b sub) : Canon (stateOf s (execKdirmig a b sub s)) :=
  canon_laneWord h _ fun {t k w} h => by
    have moved : EffCanon (laneActs w (lanesOf w.act) t (migLane (coreOf k) w a b (sub == 1))) :=
      canon_laneActs (fun h e => canon_migLane h e) h
    split
    next e => rw [e] at moved; exact canon_contLand moved _
    · exact moved
theorem canon_execSolicit (d a b sub scope) : Canon (stateOf s (execSolicit d a b sub scope s)) :=
  canon_laneWord h _ fun {t k w} h => by
    split
    · exact trivial
    have asked := canon_foldl_of (f := solLane k (solRequest w d a b sub scope)) (b := (t, 0, [])) Prod.fst
      (fun h l => canon_solLane k _ l h) (lanesFor w d) h
    dsimp only
    (repeat' split) <;> simpa using asked
theorem canon_execCensus (d a sub) : Canon (stateOf s (execCensus d a sub s)) :=
  canon_laneWord h _ fun h => canon_laneChecks _ _ _ (by dsimp only; split <;> simp [h])
theorem canon_execRespond (a sub) : Canon (stateOf s (execRespond a sub s)) :=
  canon_laneWord h _ fun h => by
    split
    · exact trivial
    · exact canon_laneChecks _ _ _ (canon_foldl (fun h _ => by split <;> simp [h]) _ (by simp [h]))
theorem canon_execTrap (n) : Canon (stateOf s (execTrap n s)) :=
  canon_laneWord h _ fun h => by
    split
    · exact canon_trapWord h ..
    · (repeat' split) <;> simp [h]
theorem canon_execBkpt (tag) : Canon (stateOf s (execBkpt tag s)) :=
  canon_laneWord h _ fun h => by split; exacts [canon_trapWord h .., h]
end

/-! Splice words and stream words. -/

section
variable {s : State} (h : Canon s)
include h

theorem canon_execSpliceNop : Canon (stateOf s (execSpliceNop s)) := canon_spliceWord h fun h => h
theorem canon_execHalt : Canon (stateOf s (execHalt s)) := canon_spliceWord h fun _ => trivial
theorem canon_execLdc (d imm) : Canon (stateOf s (execLdc d imm s)) := canon_spliceWord h fun h => by split <;> simp [h]
theorem canon_execJmp (imm) : Canon (stateOf s (execJmp imm s)) := canon_spliceWord h fun h => h
theorem canon_execCmpj (x y z imm) : Canon (stateOf s (execCmpj x y z imm s)) := canon_spliceWord h fun h => h
theorem canon_execSpliceLoop (x imm) : Canon (stateOf s (execSpliceLoop x imm s)) :=
  canon_spliceWord h fun h => by (repeat' split) <;> simp [h]
theorem canon_execEndl : Canon (stateOf s (execEndl s)) := canon_spliceWord h fun h => by (repeat' split) <;> simp [h]
theorem canon_spSet (i f) : Canon (stateOf s (spSet s i f)) := canon_spliceWord h fun h => by simp [h]
theorem canon_execSpliceMovi (x imm) : Canon (stateOf s (execSpliceMovi x imm s)) := by
  unfold execSpliceMovi; exact canon_spSet h _ _
theorem canon_execAddi (x y imm) : Canon (stateOf s (execAddi x y imm s)) := by unfold execAddi; exact canon_spSet h _ _
theorem canon_execSubi (x y imm) : Canon (stateOf s (execSubi x y imm s)) := by unfold execSubi; exact canon_spSet h _ _
theorem canon_execXmit (bf ki kd) : Canon (stateOf s (execXmit bf ki kd s)) :=
  canon_spliceWord h fun h => canon_xmitBody h
theorem canon_execXmitTag (bf ki ks kd) : Canon (stateOf s (execXmitTag bf ki ks kd s)) :=
  canon_spliceWord h fun h => canon_xmitBody h
theorem canon_execRecv (bf ki ks) : Canon (stateOf s (execRecv bf ki ks s)) :=
  canon_spliceWord h fun h => canon_recvBody h
theorem canon_execCmb (bf ki ks co) : Canon (stateOf s (execCmb bf ki ks co s)) :=
  canon_spliceWord h fun h => canon_recvBody h
theorem canon_execCmbf (bf ki ks kd co) : Canon (stateOf s (execCmbf bf ki ks kd co s)) :=
  canon_spliceWord h fun h => canon_recvBody h
theorem canon_execFwait (x y imm) : Canon (stateOf s (execFwait x y imm s)) :=
  canon_spliceWord h fun h => canon_fwaitBody h
theorem canon_execFsig (x y imm) : Canon (stateOf s (execFsig x y imm s)) :=
  canon_spliceWord h fun h => canon_fsigBody h
theorem canon_execFlagReread (k) : Canon (stateOf s (execFlagReread k s)) := by
  unfold execFlagReread
  dsimp only
  split
  next a y imm _ _ =>
    have read := canon_fwaitBody (a := a) (y := y) (imm := imm) (k := k) (x := splRec s k) h
    rw [stateOf_next]
    split
    next e => rw [e] at read; have read : Canon _ := read; simp [read]
    · exact canon_spFinish h _ read
  · exact h

theorem canon_execShld (x y) : Canon (stateOf s (execShld x y s)) :=
  canon_seqWord h fun h => by dsimp only; (repeat' split) <;> simp [h]
theorem canon_execShset (x y z sel) : Canon (stateOf s (execShset x y z sel s)) := canon_seqWord h fun h => by simp [h]
theorem canon_execShcopy (x y) : Canon (stateOf s (execShcopy x y s)) := canon_seqWord h fun h => by simp [h]
theorem canon_execMzero (x) : Canon (stateOf s (execMzero x s)) := canon_seqWord h fun h => h
theorem canon_execMma32 (x y z w) : Canon (stateOf s (execMma32 x y z w s)) :=
  canon_seqWord h fun h => by dsimp only; (repeat' split) <;> simp [h]
theorem canon_execConv (f x y z w) : Canon (stateOf s (execConv f x y z w s)) :=
  canon_seqWord h fun h => by dsimp only; (repeat' split) <;> simp [h]
theorem canon_execMst (x y t) : Canon (stateOf s (execMst x y t s)) :=
  canon_seqWord h fun h => by dsimp only; (repeat' split) <;> simp [h]
theorem canon_execMld (x y) : Canon (stateOf s (execMld x y s)) :=
  canon_seqWord h fun h => by dsimp only; (repeat' split) <;> simp [h]
theorem canon_execMact (x fn) : Canon (stateOf s (execMact x fn s)) := canon_seqWord h fun h => by split <;> simp [h]
theorem canon_execSqloop (x) : Canon (stateOf s (execSqloop x s)) := canon_seqWord h fun h => by split <;> simp [h]
theorem canon_execSqend (off) : Canon (stateOf s (execSqend off s)) :=
  canon_seqWord h fun h => by (repeat' split) <;> simp [h]
theorem canon_execSqbra (x off) : Canon (stateOf s (execSqbra x off s)) :=
  canon_seqWord h fun h => by split <;> simp [h]
theorem canon_execSqhalt : Canon (stateOf s (execSqhalt s)) := canon_seqWord h fun h => h
theorem canon_execSqtl (x y) : Canon (stateOf s (execSqtl x y s)) :=
  canon_seqWord h fun h => by dsimp only; (repeat' split) <;> simp [h]
theorem canon_execSqsetLiteral (x lit) : Canon (stateOf s (execSqsetLiteral x lit s)) := canon_seqWord h fun h => h
theorem canon_execSqsetUniform (x b) : Canon (stateOf s (execSqsetUniform x b s)) :=
  canon_seqWord h fun h => by simp [h]
theorem canon_execSqadd (x y z) : Canon (stateOf s (execSqadd x y z s)) := canon_seqWord h fun h => h
omit h in
/-- The units that WLOAD reads, byte by byte, into a table. -/
theorem canon_loadUnits {wg n base : Nat} {dest : Nat × Nat → Nat → Nat} (us : List (Nat × Nat))
    {acc : Tbl Byte × State}
    (h : Canon acc.2) :
    Canon (us.foldl (fun (x : Tbl Byte × State) u =>
      (List.range n).foldl (fun (x : Tbl Byte × State) i =>
        let (bs, s) := readLoc x.2 wg (gLoc x.2 wg (base + u.2 + i)) 1
        (tputD 0 x.1 (dest u i) (bs.headD 0), s)) x) acc).2 :=
  canon_foldl_of Prod.snd (fun h _ => canon_foldl_of Prod.snd (fun h _ => by simp [h]) _ h) us h
theorem canon_execWload (x y) : Canon (stateOf s (execWload x y s)) := canon_seqWord h fun {t c q} h => by
  dsimp only
  split
  · exact trivial
  split
  · exact trivial
  split
  · exact trivial
  split
  · exact trivial
  have loaded := canon_loadUnits (wg := q.wg) (n := unitBytes (shFmt (shReg t q.wg x.toNat)))
    (base := shBase (shReg t q.wg x.toNat)) (dest := fun u i => (qReg q y).toNat + u.1 + i)
    (imageUnits (shReg t q.wg x.toNat)) (acc := (q.wbuf, t)) h
  split <;> simpa using loaded
theorem canon_mmaWord (f x y z w sparse) : Canon (stateOf s (mmaWord f x y z w sparse s)) := canon_seqWord h fun h => by
  dsimp only; (repeat' split) <;> simp [h]
theorem canon_execSqbar (n) : Canon (stateOf s (execSqbar n s)) := canon_seqWord h fun h => canon_seqBar _ _ fun g => by
  dsimp only; (repeat' split) <;> simp [h]
theorem canon_execSqwait (n) : Canon (stateOf s (execSqwait n s)) :=
  canon_seqWord h fun h => canon_seqBar _ _ fun g => by
  dsimp only; split <;> simp [h]
end

theorem canon_of_mem {s t : State} (e : t.mem = s.mem) (h : Canon s) : Canon t := by rwa [Canon, e]

/-! Packets. -/

section
variable {s : State} (h : Canon s)
include h

theorem canon_execPacketNop (n) : Canon (stateOf s (execPacketNop n s)) := canon_queueWord h fun h => h
theorem canon_execFetchfence : Canon (stateOf s (execFetchfence s)) := canon_queueWord h fun h => h
theorem canon_execLaunch (hdr rank) : Canon (stateOf s (execLaunch hdr rank s)) := canon_queueWordAt h fun h => by
  unfold launchBody
  split
  · exact trivial
  · exact canon_withOperand fun _ => by simp [h]
theorem canon_claunchBody {tbl mask c rank hdr q x} : PkEffCanon (claunchBody tbl mask c rank hdr s q x) := by
  unfold claunchBody
  dsimp only
  split
  · exact trivial
  refine canon_inRanges ?_
  split
  · exact trivial
  split
  · split <;> simp [h]
  · exact canon_withPieces fun _ => by simp [h]
theorem canon_execClaunch (tbl mask c rank hdr) : Canon (stateOf s (execClaunch tbl mask c rank hdr s)) :=
  canon_queueWordAt h fun h => canon_claunchBody h
theorem canon_feedBody {core die hq recs q x} : PkEffCanon (feedBody core die hq recs s q x) := by
  unfold feedBody
  extract_lets c kept k x
  split
  · exact trivial
  split
  · exact trivial
  split
  · exact h
  · exact canon_hqServeAll (canon_foldl (fun h _ => by simp [h]) _ h) _
theorem canon_execFeed (core die hq recs) : Canon (stateOf s (execFeed core die hq recs s)) :=
  canon_queueWord h fun h => canon_feedBody h
theorem canon_execWake (core die all) : Canon (stateOf s (execWake core die all s)) := canon_queueWord h fun h => by
  unfold wakeBody
  exact canon_foldl (fun h _ => by simp [h]) _ h
theorem canon_execIndirect (a n) : Canon (stateOf s (execIndirect a n s)) := canon_queueWordAt h fun h => by
  unfold indirectBody
  split
  · exact trivial
  split
  · exact trivial
  · exact canon_withOperand fun _ => by simp [h]
theorem canon_execPred (a v c skip) : Canon (stateOf s (execPred a v c skip s)) := canon_queueWordAt h fun h => by
  unfold predBody
  split
  · exact trivial
  · exact canon_withOperand fun _ => by simp [h]
theorem canon_execPacketLoop (n) : Canon (stateOf s (execPacketLoop n s)) := canon_queueWord h fun h => by
  unfold loopBody; dsimp only; (repeat' split) <;> simp [h]
theorem canon_execEndloop : Canon (stateOf s (execEndloop s)) := canon_queueWord h fun h => by
  unfold endloopBody; dsimp only; (repeat' split) <;> simp [h]
theorem canon_execWrite (a ws) : Canon (stateOf s (execWrite a ws s)) := canon_queueWordAt h fun h => by
  unfold writeBody
  split
  · exact trivial
  · exact canon_withOperand fun _ => by simp [h]
theorem canon_execCopy (dst src n) : Canon (stateOf s (execCopy dst src n s)) := canon_queueWordAt h fun h => by
  unfold copyBody
  split
  · exact trivial
  · exact canon_inRanges (canon_withPieces fun _ => canon_withPieces fun _ => by simp [h])
theorem canon_execSignalWrite (a v) : Canon (stateOf s (execSignalWrite a v s)) := canon_queueWordAt h fun h => by
  unfold signalWriteBody
  split
  · exact trivial
  · exact canon_inRanges (canon_withPieces fun _ => by split <;> simp [h])
theorem canon_execSignalAdd (a v) : Canon (stateOf s (execSignalAdd a v s)) := canon_queueWordAt h fun h => by
  unfold signalAddBody
  split
  · exact trivial
  · exact canon_withOperand fun _ => by split <;> simp [h]
theorem canon_execWaitMemory (a v) : Canon (stateOf s (execWaitMemory a v s)) := canon_queueWordAt h fun h => by
  unfold waitMemoryBody
  split
  · exact trivial
  · exact canon_withOperand fun _ => by dsimp only; split <;> simp [h]
theorem canon_execWaitTimeline (hd v) : Canon (stateOf s (execWaitTimeline hd v s)) := canon_queueWord h fun h => by
  unfold waitTimelineBody; dsimp only; (repeat' split) <;> simp [h]
theorem canon_execTlset (hd v) : Canon (stateOf s (execTlset hd v s)) := canon_queueWord h fun h => by
  unfold tlsetBody; split <;> simp [h]
theorem canon_snapChecked {x rs area} : PkEffCanon (snapChecked s x rs area) := by
  have seen {d ps} : Canon (tablesSeen s d ps) := canon_tablesSeen h d ps
  unfold snapChecked
  refine canon_orFail fun _ => ?_
  split
  · exact trivial
  split
  · exact seen
  · simp [seen]
theorem canon_snapEntries {area es x} : PkEffCanon (snapEntries area es s x) := by
  unfold snapEntries
  dsimp only
  split
  · exact trivial
  split
  · exact trivial
  · exact canon_inRanges (canon_snapChecked h)
theorem canon_snapBody {tbl n area q x} : PkEffCanon (snapBody tbl n area s q x) := by
  unfold snapBody
  split
  · exact trivial
  refine canon_orFail fun _ => ?_
  split
  · exact trivial
  split
  · exact trivial
  · exact canon_snapEntries (canon_readPieces h _)
theorem canon_execSnap (tbl n area) : Canon (stateOf s (execSnap tbl n area s)) :=
  canon_queueWordAt h fun h => canon_snapBody h

/-! Instructions of the hardware and of the host. -/

theorem canon_execSleepExpiry (k) : Canon (stateOf s (execSleepExpiry k s)) := by
  unfold execSleepExpiry; split <;> simp [h]
theorem canon_execPendingWriteCompletion (k id) : Canon (stateOf s (execPendingWriteCompletion k id s)) := by
  unfold execPendingWriteCompletion; (repeat' split) <;> simp [h]
theorem canon_execRemoteTimeout (k) : Canon (stateOf s (execRemoteTimeout k s)) := by
  unfold execRemoteTimeout; split <;> simp [h]
theorem canon_execSplicerOperationCompletion (k) : Canon (stateOf s (execSplicerOperationCompletion k s)) := by
  unfold execSplicerOperationCompletion; split <;> simp [h]
theorem canon_execSplicerStart (k recAddr) : Canon (stateOf s (execSplicerStart k recAddr s)) := by
  simp [execSplicerStart, h]
theorem canon_execSplicerResume (k) : Canon (stateOf s (execSplicerResume k s)) := by simp [execSplicerResume, h]
theorem canon_execSplicerAbort (k) : Canon (stateOf s (execSplicerAbort k s)) := by
  unfold execSplicerAbort; split <;> simp [h]
theorem canon_execSpcfgWrite (k v) : Canon (stateOf s (execSpcfgWrite k v s)) := by
  unfold execSpcfgWrite; dsimp only; (repeat' split) <;> simp [h]
theorem canon_execSplicerStateWindowWrite (k off size v) :
    Canon (stateOf s (execSplicerStateWindowWrite k off size v s)) := by
  unfold execSplicerStateWindowWrite; dsimp only; split <;> simp [h]
theorem canon_execAsyncCopyCompletion (id) : Canon (stateOf s (execAsyncCopyCompletion id s)) := by
  unfold execAsyncCopyCompletion; split <;> simp [h]
theorem canon_execMailboxArrival (m) : Canon (stateOf s (execMailboxArrival m s)) := by
  unfold execMailboxArrival; dsimp only; (repeat' split) <;> simp [h]
theorem canon_execNetworkMatchFire (die id) : Canon (stateOf s (execNetworkMatchFire die id s)) := by
  unfold execNetworkMatchFire; dsimp only; (repeat' split) <;> simp [h]
theorem canon_execGatherLimit (c wg pc) : Canon (stateOf s (execGatherLimit c wg pc s)) := by simp [execGatherLimit, h]
theorem canon_execBinAgeLimit (c bin) : Canon (stateOf s (execBinAgeLimit c bin s)) := by
  unfold execBinAgeLimit; split <;> simp [h]
theorem canon_execBinDraw (c bin) : Canon (stateOf s (execBinDraw c bin s)) := by unfold execBinDraw; split <;> simp [h]
theorem canon_execWaveFormation (c wg pc) : Canon (stateOf s (execWaveFormation c wg pc s)) := by
  unfold execWaveFormation; split <;> simp [h]
theorem canon_execTrapHandlerFormation (c) : Canon (stateOf s (execTrapHandlerFormation c s)) := by
  unfold execTrapHandlerFormation; dsimp only; split <;> simp [h]
theorem canon_execChunkPacketSend (l) : Canon (stateOf s (execChunkPacketSend l s)) := by
  unfold execChunkPacketSend; split <;> simp [h]
theorem canon_execChunkDataArrival (k sfid slink sctx epoch len seq data) :
    Canon (stateOf s (execChunkDataArrival k sfid slink sctx epoch len seq data s)) := by
  unfold execChunkDataArrival; dsimp only; (repeat' split) <;> simp [h]
theorem canon_execCreditArrival (k dst epoch n) : Canon (stateOf s (execCreditArrival k dst epoch n s)) := by
  simp [execCreditArrival, h]
theorem canon_execRefusalArrival (k refusal) : Canon (stateOf s (execRefusalArrival k refusal s)) := by
  unfold execRefusalArrival; dsimp only; (repeat' split) <;> simp [h]
theorem canon_execVerdictArrival (k claim) : Canon (stateOf s (execVerdictArrival k claim s)) := by
  simp [execVerdictArrival, h]
theorem canon_execTaggedMessageArrival (die ctx tag len part sfid slink sctx) :
    Canon (stateOf s (execTaggedMessageArrival die ctx tag len part sfid slink sctx s)) := by
  unfold execTaggedMessageArrival; dsimp only; (repeat' split) <;> simp [h]
theorem canon_execMemoryPacketArrival (pa data excl refused) :
    Canon (stateOf s (execMemoryPacketArrival pa data excl refused s)) := by
  unfold execMemoryPacketArrival; (repeat' split) <;> simp [h]
theorem canon_execLinkUp (die index node self) : Canon (stateOf s (execLinkUp die index node self s)) := by
  unfold execLinkUp; dsimp only; split <;> simp [h]
theorem canon_execLinkDown (l) : Canon (stateOf s (execLinkDown l s)) := by unfold execLinkDown; split <;> simp [h]
theorem canon_execLinkErrorWindow (l resent) : Canon (stateOf s (execLinkErrorWindow l resent s)) := by
  simp [execLinkErrorWindow, h]
theorem canon_execLnkerrWrite (l) : Canon (stateOf s (execLnkerrWrite l s)) := by simp [execLnkerrWrite, h]
theorem canon_execMalformedPacketArrival (p) : Canon (stateOf s (execMalformedPacketArrival p s)) := by
  simp [execMalformedPacketArrival, h]
theorem canon_execCongestionNotice (l fid) : Canon (stateOf s (execCongestionNotice l fid s)) := h
theorem canon_execRateLimiterInterval (l fid) : Canon (stateOf s (execRateLimiterInterval l fid s)) := by
  unfold execRateLimiterInterval; dsimp only; split <;> simp [h]
theorem canon_execGateAckArrival (key rank) : Canon (stateOf s (execGateAckArrival key rank s)) := by
  unfold execGateAckArrival; split <;> simp [h]
theorem canon_execGateRefusalArrival (key rank) : Canon (stateOf s (execGateRefusalArrival key rank s)) := by
  unfold execGateRefusalArrival; dsimp only; split <;> simp [h]
theorem canon_execGateOpenNoticeArrival (key) : Canon (stateOf s (execGateOpenNoticeArrival key s)) := by
  unfold execGateOpenNoticeArrival; split <;> simp [h]
theorem canon_execGateEndNoticeArrival (key rank r) : Canon (stateOf s (execGateEndNoticeArrival key rank r s)) := by
  unfold execGateEndNoticeArrival; dsimp only; (repeat' split) <;> simp [h]
theorem canon_execGateTimeout (n) : Canon (stateOf s (execGateTimeout n s)) := by
  unfold execGateTimeout; (repeat' split) <;> simp [h]
theorem canon_execPackageLost (p) : Canon (stateOf s (execPackageLost p s)) := by
  unfold execPackageLost; split <;> simp [h]
theorem canon_execFabricGroupReport (n members) : Canon (stateOf s (execFabricGroupReport n members s)) := h
theorem canon_execLaunchConditionsSatisfied (q) : Canon (stateOf s (execLaunchConditionsSatisfied q s)) := by
  unfold execLaunchConditionsSatisfied; dsimp only; (repeat' split) <;> simp [h]
theorem canon_execPageServiceResume (n) : Canon (stateOf s (execPageServiceResume n s)) := by
  unfold execPageServiceResume; dsimp only; (repeat' split) <;> simp [h]
theorem canon_execPageServiceDeclined (serial) : Canon (stateOf s (execPageServiceDeclined serial s)) := by
  unfold execPageServiceDeclined; (repeat' split) <;> simp [h]
theorem canon_execCensusArrivalPoint (c cen) : Canon (stateOf s (execCensusArrivalPoint c cen s)) := by
  simp [execCensusArrivalPoint, h]
theorem canon_execKeyEntryLanding (id) : Canon (stateOf s (execKeyEntryLanding id s)) := by
  simp [execKeyEntryLanding, h]
theorem canon_execCensusPacketArrival (fid word key arg op fgroup) :
    Canon (stateOf s (execCensusPacketArrival fid word key arg op fgroup s)) :=
  h
theorem canon_execCensusResultArrival (word live wd) : Canon (stateOf s (execCensusResultArrival word live wd s)) := h
theorem canon_execStreamOperationCompletion (c) : Canon (stateOf s (execStreamOperationCompletion c s)) := by
  simp [execStreamOperationCompletion, h]
theorem canon_execClauseIssue : Canon (stateOf s (execClauseIssue s)) := by unfold execClauseIssue; split <;> simp [h]
theorem canon_execGangPlacement (pick) : Canon (stateOf s (execGangPlacement pick s)) := by simp [execGangPlacement, h]
theorem canon_execGangWaitLimit (serial) : Canon (stateOf s (execGangWaitLimit serial s)) := by
  unfold execGangWaitLimit; (repeat' split) <;> simp [h]
theorem canon_execKill (serial) : Canon (stateOf s (execKill serial s)) := by unfold execKill; split <;> simp [h]
theorem canon_execDrainDeadline (ctx) : Canon (stateOf s (execDrainDeadline ctx s)) := by simp [execDrainDeadline, h]
theorem canon_execDrain (ctx) : Canon (stateOf s (execDrain ctx s)) := by
  unfold execDrain; dsimp only; split <;> simp [h]
theorem canon_execDrainCancel (ctx) : Canon (stateOf s (execDrainCancel ctx s)) := by
  unfold execDrainCancel; dsimp only; split <;> simp [h]
theorem canon_execVictimResume (ctx pick) : Canon (stateOf s (execVictimResume ctx pick s)) := by
  unfold execVictimResume; split <;> simp [h]
theorem canon_execContinuityRound (ctx) : Canon (stateOf s (execContinuityRound ctx s)) := by
  unfold execContinuityRound; dsimp only; (repeat' split) <;> simp [h]
theorem canon_execStallSample (c part) : Canon (stateOf s (execStallSample c part s)) := by
  unfold execStallSample; dsimp only; (repeat' split) <;> simp [h]
theorem canon_execAlignmentPulse : Canon (stateOf s (execAlignmentPulse s)) := by simp [execAlignmentPulse, h]
theorem canon_execCaptureStart : Canon (stateOf s (execCaptureStart s)) := by simp [execCaptureStart, h]
theorem canon_execCaptureStop : Canon (stateOf s (execCaptureStop s)) := by simp [execCaptureStop, h]
theorem canon_execCaptureFreeze : Canon (stateOf s (execCaptureFreeze s)) := by simp [execCaptureFreeze, h]
theorem canon_execCaptureReset : Canon (stateOf s (execCaptureReset s)) := by simp [execCaptureReset, h]
theorem canon_execSetSstep (ctx) : Canon (stateOf s (execSetSstep ctx s)) := h
theorem canon_execClearSstep (ctx) : Canon (stateOf s (execClearSstep ctx s)) := h
theorem canon_execResumeParked (ctx) : Canon (stateOf s (execResumeParked ctx s)) := h
theorem canon_execReleaseHolds (ctx) : Canon (stateOf s (execReleaseHolds ctx s)) := h
theorem canon_execSnapshotBackgroundCopy (ctx) : Canon (stateOf s (execSnapshotBackgroundCopy ctx s)) := by
  unfold execSnapshotBackgroundCopy; (repeat' split) <;> simp [h]
theorem canon_execWaitSlotParking : Canon (stateOf s (execWaitSlotParking s)) := by
  unfold execWaitSlotParking; (repeat' split) <;> simp [h]
theorem canon_execParkedConditionCheck (q) : Canon (stateOf s (execParkedConditionCheck q s)) := by
  unfold execParkedConditionCheck; dsimp only; (repeat' split) <;> simp [h]
theorem canon_execDoorbellWrite (q off v) : Canon (stateOf s (execDoorbellWrite q off v s)) := by
  simp [execDoorbellWrite, h]
theorem canon_execHwqDescriptorWrite (k off size v) : Canon (stateOf s (execHwqDescriptorWrite k off size v s)) := by
  unfold execHwqDescriptorWrite; dsimp only; split <;> simp [h]
theorem canon_execHwqRingResident (k) : Canon (stateOf s (execHwqRingResident k s)) := by
  unfold execHwqRingResident; dsimp only; (repeat' split) <;> simp [h]
theorem canon_execEvcfgWrite (v) : Canon (stateOf s (execEvcfgWrite v s)) := by simp [execEvcfgWrite, h]
theorem canon_execBalanceWrite (v) : Canon (stateOf s (execBalanceWrite v s)) := by simp [execBalanceWrite, h]
theorem canon_execLiveUpdate (image version table) : Canon (stateOf s (execLiveUpdate image version table s)) := by
  unfold execLiveUpdate; (repeat' split) <;> simp [h]
theorem canon_execStandInTakeover : Canon (stateOf s (execStandInTakeover s)) := by
  unfold execStandInTakeover; split <;> simp [h]
theorem canon_execSpdmMeasurementRequest (nonce) : Canon (stateOf s (execSpdmMeasurementRequest nonce s)) := h
theorem canon_execSpdmCommitMinimum (v) : Canon (stateOf s (execSpdmCommitMinimum v s)) := h
theorem canon_execUnitReady (u) : Canon (stateOf s (execUnitReady u s)) := by
  unfold execUnitReady; dsimp only; split <;> simp [h]
theorem canon_execSoftError (cls site at_ corrected) : Canon (stateOf s (execSoftError cls site at_ corrected s)) := by
  simp [execSoftError, h]
theorem canon_execThermalThrottle : Canon (stateOf s (execThermalThrottle s)) := by simp [execThermalThrottle, h]
theorem canon_execTemperatureFall : Canon (stateOf s (execTemperatureFall s)) := h
theorem canon_execThermalStop : Canon (stateOf s (execThermalStop s)) := h
theorem canon_execPowerAllotmentReached (domain reached) :
    Canon (stateOf s (execPowerAllotmentReached domain reached s)) := by
  unfold execPowerAllotmentReached; dsimp only; split <;> simp [h]
theorem canon_execResetQueue (q) : Canon (stateOf s (execResetQueue q s)) := by simp [execResetQueue, h]
theorem canon_execResetEngine (x1) : Canon (stateOf s (execResetEngine x1 s)) := by
  unfold execResetEngine; split <;> simp [h]
theorem canon_execResetPartition (dies) : Canon (stateOf s (execResetPartition dies s)) := by
  simp [execResetPartition, h]
theorem canon_execResetDie (die) : Canon (stateOf s (execResetDie die s)) := by simp [execResetDie, h]
theorem canon_execDeferredAddApply (serial) : Canon (stateOf s (execDeferredAddApply serial s)) := by
  unfold execDeferredAddApply
  split
  · exact h
  next g _ =>
    have applied (l : List DAdd) : Canon (l.foldl applyAdd (setGrid s serial { g with adds := [] })) :=
      canon_foldl (fun h _ => by simp [h]) l (by simp [h])
    dsimp only
    split
    · simp [applied]
    · exact h
theorem canon_execUrgentFreeze (ctx claim) : Canon (stateOf s (execUrgentFreeze ctx claim s)) := by
  unfold execUrgentFreeze
  dsimp only
  exact canon_foldl (fun h _ => by simp [h]) _ (by simp [h])
theorem canon_execRegisterWrite (off size v) : Canon (stateOf s (execRegisterWrite off size v s)) := by
  unfold execRegisterWrite
  extract_lets r
  split
  · exact h
  split
  · exact canon_execBalanceWrite h _
  split
  · exact h
  split
  · exact canon_execEvcfgWrite h _
  split
  · simp [h]
  split
  · exact canon_execLnkerrWrite h _
  split
  · rw [stateOf_next]; exact canon_of_mem (captureWrite_mem ..) h
  · exact canon_windowWrite h ..
theorem canon_execHostMemoryAccess (pa wr data len) : Canon (stateOf s (execHostMemoryAccess pa wr data len s)) := by
  unfold execHostMemoryAccess
  extract_lets ps bad
  split
  · exact h
  split
  · exact canon_foldl (fun h _ => by simp [h]) _ h
  · simp [h]
theorem canon_execFunctionLevelReset : Canon (stateOf s (execFunctionLevelReset s)) := by
  have cleared : Canon (partitionReset (resetGrids s (s.grids.map (·.1))) 0xF) := by simp [h]
  unfold execFunctionLevelReset
  extract_lets t u
  have keys : Canon ((t.ctxs.map (·.1)).foldl destroyKey t) := canon_foldl (fun h _ => by simp [h]) _ cleared
  have ended : Canon u := canon_of_mem (clockRestarts_mem ..) keys
  clear_value u
  exact ended
theorem canon_execWholeDeviceReset : Canon (stateOf s (execWholeDeviceReset s)) := by
  unfold execWholeDeviceReset
  extract_lets t
  have stored : Canon t := by unfold t; simp [h]
  exact memWf_filter _ stored
end

/-! A queue's turn at a packet boundary. -/

section
variable {s : State} (h : Canon s)
include h

theorem canon_fetched (q) : FetchCanon (fetched s q) := by
  unfold fetched
  dsimp only
  split
  · simp [FetchCanon, h]
  split
  · exact h
  split
  · exact canon_failQueue h _ _
  split
  · exact canon_failQueue h _ _
  · exact h
theorem canon_cutShort (q x) : FetchCanon (cutShort s q x) := by
  unfold cutShort
  dsimp only
  split
  · exact h
  · exact canon_failQueue h _ _
theorem canon_fetchPacket (q x) : FetchCanon (fetchPacket s q x) := by
  unfold fetchPacket
  dsimp only
  split
  · exact canon_cutShort h _ _
  split
  · exact canon_failQueue h _ _
  next header =>
  have held := canon_holdBytes h header
  split
  · exact canon_cutShort held _ _
  split
  · exact canon_failQueue held _ _
  next whole =>
  have held := canon_holdBytes held whole
  exact canon_fetched (by split <;> simp [held]) _
theorem canon_fetchTurn (q) : FetchCanon (fetchTurn s q) := by
  unfold fetchTurn
  extract_lets x y
  split
  · exact h
  split
  · simp [FetchCanon, h]
  split
  · split <;> simp [FetchCanon, h]
  · exact canon_fetchPacket (by simp [h]) _ _
theorem canon_queueFetch (q) : FetchCanon (queueFetch s q) := by
  have turn := canon_fetchTurn h q
  unfold queueFetch
  split
  next e => rw [e] at turn; exact canon_showStatus turn _ _
  next e => rw [e] at turn; exact turn

/-! The arbiter and the end of a step. -/

@[simp] theorem canon_warpTurn (k inRound) : Canon (warpTurn s k inRound).2 := by
  fun_cases warpTurn s k inRound <;> exact h
@[simp] theorem canon_seqTurn (c inRound) : Canon (seqTurn s c inRound).2 := by
  fun_cases seqTurn s c inRound <;> exact h
@[simp] theorem canon_queueTurn (q) : Canon (queueTurn s q).2 := by
  have turn := canon_queueFetch h q
  unfold queueTurn
  split
  next e => rw [e] at turn; exact turn
  next e => rw [e] at turn; exact turn
@[simp] theorem canon_planTurn (inRound x) : Canon (planTurn s inRound x).2 := by
  fun_cases planTurn s inRound x <;> simp [h]
@[simp] theorem canon_planDefault : Canon (planDefault s).2 := by fun_cases planDefault s <;> simp [h]
theorem canon_plan : Canon (plan s).2 := by fun_cases plan s <;> simp [h]

@[simp] theorem canon_endIdle : Canon (endIdle s) := by unfold endIdle; exact canon_foldl (fun h _ => by simp [h]) _ h
end

section
variable {s : State}

@[simp] theorem bypassed_mem (before k) : (bypassed before s k).mem = s.mem := rfl
@[simp] theorem yielded_mem (k) : (yielded s k).mem = s.mem := by unfold yielded; (repeat' split) <;> simp
@[simp] theorem issueNotes_mem (before) : (issueNotes before s).mem = s.mem := by unfold issueNotes; split <;> simp

variable (h : Canon s)
include h

@[simp] theorem canon_settle : Canon (settle s) := by
  unfold settle
  extract_lets t1 t2 t3 t4 t5 t6 t7
  have c1 : Canon t1 := canon_foldl (fun h _ => by simp [h]) _ h
  have c2 : Canon t2 := by simp [t2, c1]
  have c3 : Canon t3 := canon_foldl (fun h _ => by simp [h]) _ c2
  have c4 : Canon t4 := by simp [t4, c3]
  have c5 : Canon t5 := canon_foldl (fun h _ => by simp [h]) _ c4
  have c6 : Canon t6 := by simp [t6, c5]
  have c7 : Canon t7 := by simp [t7, c6]
  simp [c7]
@[simp] theorem canon_byClock : Canon (byClock s) := by simp [byClock, h]
theorem canon_finishStep (before) : Canon (finishStep before s) := by
  have noted : Canon (issueNotes before s) := by simp [h]
  have settled := canon_futChanged (canon_settle noted) before
  unfold finishStep
  split
  · exact h
  · exact canon_performPosted (canon_byClock settled)
end

/-! Every instruction. -/

/-- Each instruction keeps memory canonical: a warp word changes no memory, and the others are taken one by one. -/
theorem canon_exec {s : State} (h : Canon s) (i : Instr) : Canon (stateOf s (exec i s)) := by
  cases i with
  | iadd | iaddi | isub | imul | imulhs | imulhu | imad | imin | imax | umin | umax | iabs | ineg | iand | ior
  | ixor | andn | inot | shl | shr | sar | rotl | shli | shri | sari | popc | clz | brev | bfx | bfi | lea | add64
  | sub64 | mulw | mov | movi | movhi | movl | selp | icmp | fcmp | pand | por | pxor | pnot | pmov | ptov | fadd
  | faddT | fsub | fsubT | fmul | fmulT | ffma | fmin | fmax | fabs | fneg | frnd | frcp | frsq | fsqrt | fexp2
  | flog2 | fsin | fcos | fclass | hadd2 | hmul2 | hfma2 | hmax2 | hmin2 | badd2 | bmul2 | bfma2 | cvt | tepack
  | teunpk | shuf | shufup | shufdn | shufx | voteall | voteany | ballot | matchLanes | redux | scan | rcount
  | tokclr | tstat =>
    exact canon_warpWord h _ _
  | ldl | ldlT =>
    exact canon_lmLoad h ..
  | stl | stlT =>
    exact canon_lmStoreW h ..
  | ldg | ldgT | lda =>
    exact canon_gLoad h ..
  | stg | stgT | strel =>
    exact canon_gStore h ..
  | atom | atomc =>
    exact canon_gAtom h ..
  | mma | mmas =>
    exact canon_mmaWord h ..
  | spliceMovi => exact canon_execSpliceMovi h ..
  | addi => exact canon_execAddi h ..
  | subi => exact canon_execSubi h ..
  | scalex => exact canon_execScalex h ..
  | bra => exact canon_execBra h ..
  | brc => exact canon_execBrc h ..
  | brx => exact canon_execBrx h ..
  | call => exact canon_execCall h ..
  | callx => exact canon_execCallx h ..
  | ret => exact canon_execRet h ..
  | reconv => exact canon_execReconv h ..
  | reform => exact canon_execReform h ..
  | sleep => exact canon_execSleep h ..
  | ldk => exact canon_execLdk h ..
  | atoml => exact canon_execAtoml h ..
  | fatom base off c sub ty => exact canon_execFatom h base off c sub ty
  | fence sub scope => exact canon_execFence h sub scope
  | barinit => exact canon_execBarinit h ..
  | bara => exact canon_execBara h ..
  | barw => exact canon_execBarw h ..
  | bars => exact canon_execBars h ..
  | rwrite => exact canon_execRwrite h ..
  | rwait => exact canon_execRwait h ..
  | claim => exact canon_execClaim h ..
  | give => exact canon_execGive h ..
  | bmovWrite => exact canon_execBmovWrite h ..
  | bmovRead => exact canon_execBmovRead h ..
  | tlblock => exact canon_execTlblock h ..
  | tlbunlk => exact canon_execTlbunlk h ..
  | acopy => exact canon_execAcopy h ..
  | bcopy => exact canon_execBcopy h ..
  | gather => exact canon_execGather h ..
  | tlwait => exact canon_execTlwait h ..
  | tlread => exact canon_execTlread h ..
  | stashmap => exact canon_execStashmap h ..
  | stashwb => exact canon_execStashwb h ..
  | stashinv => exact canon_execStashinv h ..
  | tspawn => exact canon_execTspawn h ..
  | futnew => exact canon_execFutnew h ..
  | futset => exact canon_execFutset h ..
  | futwait => exact canon_execFutwait h ..
  | futget => exact canon_execFutget h ..
  | futdrop => exact canon_execFutdrop h ..
  | qpop => exact canon_execQpop h ..
  | qpush => exact canon_execQpush h ..
  | qroom => exact canon_execQroom h ..
  | mbxbind => exact canon_execMbxbind h ..
  | nmatch => exact canon_execNmatch h ..
  | nunmatch => exact canon_execNunmatch h ..
  | keep => exact canon_execKeep h ..
  | drop => exact canon_execDrop h ..
  | solicit => exact canon_execSolicit h ..
  | census => exact canon_execCensus h ..
  | respond => exact canon_execRespond h ..
  | kdirins => exact canon_execKdirins h ..
  | kdirdel => exact canon_execKdirdel h ..
  | kdirlook => exact canon_execKdirlook h ..
  | kdirmig => exact canon_execKdirmig h ..
  | trap => exact canon_execTrap h ..
  | getsr => exact canon_execGetsr h ..
  | setsr => exact canon_execSetsr h ..
  | bkpt => exact canon_execBkpt h ..
  | shld => exact canon_execShld h ..
  | shset => exact canon_execShset h ..
  | shcopy => exact canon_execShcopy h ..
  | wload => exact canon_execWload h ..
  | mzero => exact canon_execMzero h ..
  | mma32 => exact canon_execMma32 h ..
  | conv => exact canon_execConv h ..
  | mst => exact canon_execMst h ..
  | mld => exact canon_execMld h ..
  | mact => exact canon_execMact h ..
  | sqbar => exact canon_execSqbar h ..
  | sqwait => exact canon_execSqwait h ..
  | sqloop => exact canon_execSqloop h ..
  | sqend => exact canon_execSqend h ..
  | sqbra => exact canon_execSqbra h ..
  | sqtl => exact canon_execSqtl h ..
  | sqsetLiteral => exact canon_execSqsetLiteral h ..
  | sqsetUniform => exact canon_execSqsetUniform h ..
  | sqadd => exact canon_execSqadd h ..
  | ldc => exact canon_execLdc h ..
  | jmp => exact canon_execJmp h ..
  | cmpj => exact canon_execCmpj h ..
  | spliceLoop => exact canon_execSpliceLoop h ..
  | xmit => exact canon_execXmit h ..
  | xmitTag => exact canon_execXmitTag h ..
  | recv => exact canon_execRecv h ..
  | cmb => exact canon_execCmb h ..
  | cmbf => exact canon_execCmbf h ..
  | fwait => exact canon_execFwait h ..
  | fsig => exact canon_execFsig h ..
  | packetNop => exact canon_execPacketNop h ..
  | launch => exact canon_execLaunch h ..
  | claunch => exact canon_execClaunch h ..
  | feed => exact canon_execFeed h ..
  | wake => exact canon_execWake h ..
  | indirect => exact canon_execIndirect h ..
  | pred => exact canon_execPred h ..
  | packetLoop => exact canon_execPacketLoop h ..
  | write => exact canon_execWrite h ..
  | copy => exact canon_execCopy h ..
  | signalWrite => exact canon_execSignalWrite h ..
  | signalAdd => exact canon_execSignalAdd h ..
  | waitMemory => exact canon_execWaitMemory h ..
  | waitTimeline => exact canon_execWaitTimeline h ..
  | snap => exact canon_execSnap h ..
  | tlset => exact canon_execTlset h ..
  | sleepExpiry => exact canon_execSleepExpiry h ..
  | asyncCopyCompletion => exact canon_execAsyncCopyCompletion h ..
  | keyEntryLanding => exact canon_execKeyEntryLanding h ..
  | censusArrivalPoint => exact canon_execCensusArrivalPoint h ..
  | trapHandlerFormation => exact canon_execTrapHandlerFormation h ..
  | streamOperationCompletion => exact canon_execStreamOperationCompletion h ..
  | flagReread => exact canon_execFlagReread h ..
  | splicerOperationCompletion => exact canon_execSplicerOperationCompletion h ..
  | chunkPacketSend => exact canon_execChunkPacketSend h ..
  | networkMatchFire => exact canon_execNetworkMatchFire h ..
  | rateLimiterInterval => exact canon_execRateLimiterInterval h ..
  | gateTimeout => exact canon_execGateTimeout h ..
  | launchConditionsSatisfied => exact canon_execLaunchConditionsSatisfied h ..
  | pageServiceResume => exact canon_execPageServiceResume h ..
  | gangPlacement => exact canon_execGangPlacement h ..
  | gangWaitLimit => exact canon_execGangWaitLimit h ..
  | binAgeLimit => exact canon_execBinAgeLimit h ..
  | binDraw => exact canon_execBinDraw h ..
  | gatherLimit => exact canon_execGatherLimit h ..
  | waveFormation => exact canon_execWaveFormation h ..
  | mailboxArrival => exact canon_execMailboxArrival h ..
  | deferredAddApply => exact canon_execDeferredAddApply h ..
  | gridCompletion => exact canon_execGridCompletion h ..
  | remoteTimeout => exact canon_execRemoteTimeout h ..
  | continuityRound => exact canon_execContinuityRound h ..
  | drainDeadline => exact canon_execDrainDeadline h ..
  | stallSample => exact canon_execStallSample h ..
  | hwqRingResident => exact canon_execHwqRingResident h ..
  | parkedConditionCheck => exact canon_execParkedConditionCheck h ..
  | snapshotBackgroundCopy => exact canon_execSnapshotBackgroundCopy h ..
  | pendingWriteCompletion => exact canon_execPendingWriteCompletion h ..
  | clauseIssue => exact canon_execClauseIssue h ..
  | exit => exact canon_execExit h ..
  | rjoin => exact canon_execRjoin h ..
  | nop => exact canon_execNop h ..
  | tend => exact canon_execTend h ..
  | take => exact canon_execTake h ..
  | yield => exact canon_execYield h ..
  | sysret => exact canon_execSysret h ..
  | sqhalt => exact canon_execSqhalt h ..
  | spliceNop => exact canon_execSpliceNop h ..
  | halt => exact canon_execHalt h ..
  | endl => exact canon_execEndl h ..
  | endloop => exact canon_execEndloop h ..
  | fetchfence => exact canon_execFetchfence h ..
  | alignmentPulse => exact canon_execAlignmentPulse h ..
  | captureStart => exact canon_execCaptureStart h ..
  | captureStop => exact canon_execCaptureStop h ..
  | captureFreeze => exact canon_execCaptureFreeze h ..
  | captureReset => exact canon_execCaptureReset h ..
  | waitSlotParking => exact canon_execWaitSlotParking h ..
  | standInTakeover => exact canon_execStandInTakeover h ..
  | functionLevelReset => exact canon_execFunctionLevelReset h ..
  | wholeDeviceReset => exact canon_execWholeDeviceReset h ..
  | thermalThrottle => exact canon_execThermalThrottle h ..
  | thermalStop => exact canon_execThermalStop h ..
  | temperatureFall => exact canon_execTemperatureFall h ..
  | splicerStart => exact canon_execSplicerStart h ..
  | splicerResume => exact canon_execSplicerResume h ..
  | splicerAbort => exact canon_execSplicerAbort h ..
  | spcfgWrite => exact canon_execSpcfgWrite h ..
  | splicerStateWindowWrite => exact canon_execSplicerStateWindowWrite h ..
  | chunkDataArrival => exact canon_execChunkDataArrival h ..
  | creditArrival => exact canon_execCreditArrival h ..
  | refusalArrival => exact canon_execRefusalArrival h ..
  | taggedMessageArrival => exact canon_execTaggedMessageArrival h ..
  | verdictArrival => exact canon_execVerdictArrival h ..
  | congestionNotice => exact canon_execCongestionNotice h ..
  | memoryPacketArrival => exact canon_execMemoryPacketArrival h ..
  | censusPacketArrival => exact canon_execCensusPacketArrival h ..
  | censusResultArrival => exact canon_execCensusResultArrival h ..
  | linkUp => exact canon_execLinkUp h ..
  | linkDown => exact canon_execLinkDown h ..
  | linkErrorWindow => exact canon_execLinkErrorWindow h ..
  | lnkerrWrite => exact canon_execLnkerrWrite h ..
  | gateAckArrival => exact canon_execGateAckArrival h ..
  | gateRefusalArrival => exact canon_execGateRefusalArrival h ..
  | gateOpenNoticeArrival => exact canon_execGateOpenNoticeArrival h ..
  | gateEndNoticeArrival => exact canon_execGateEndNoticeArrival h ..
  | packageLost => exact canon_execPackageLost h ..
  | drain => exact canon_execDrain h ..
  | urgentFreeze => exact canon_execUrgentFreeze h ..
  | victimResume => exact canon_execVictimResume h ..
  | kill => exact canon_execKill h ..
  | setSstep => exact canon_execSetSstep h ..
  | clearSstep => exact canon_execClearSstep h ..
  | resumeParked => exact canon_execResumeParked h ..
  | releaseHolds => exact canon_execReleaseHolds h ..
  | doorbellWrite => exact canon_execDoorbellWrite h ..
  | hwqDescriptorWrite => exact canon_execHwqDescriptorWrite h ..
  | contextDescriptorWrite => exact canon_execContextDescriptorWrite h ..
  | evcfgWrite => exact canon_execEvcfgWrite h ..
  | balanceWrite => exact canon_execBalanceWrite h ..
  | registerWrite => exact canon_execRegisterWrite h ..
  | liveUpdate => exact canon_execLiveUpdate h ..
  | resetQueue => exact canon_execResetQueue h ..
  | resetEngine => exact canon_execResetEngine h ..
  | resetPartition => exact canon_execResetPartition h ..
  | resetDie => exact canon_execResetDie h ..
  | spdmMeasurementRequest => exact canon_execSpdmMeasurementRequest h ..
  | spdmCommitMinimum => exact canon_execSpdmCommitMinimum h ..
  | unitReady => exact canon_execUnitReady h ..
  | softError => exact canon_execSoftError h ..
  | hostMemoryAccess => exact canon_execHostMemoryAccess h ..
  | fabricGroupReport => exact canon_execFabricGroupReport h ..
  | pageServiceDeclined => exact canon_execPageServiceDeclined h ..
  | drainCancel => exact canon_execDrainCancel h ..
  | malformedPacketArrival => exact canon_execMalformedPacketArrival h ..
  | powerAllotmentReached => exact canon_execPowerAllotmentReached h ..

/-- Settles O58: the arbiter's choice, the chosen instruction and the end of the step each keep memory canonical. -/
theorem stepsKeepMemoryCanonical : Obligations.StepsKeepMemoryCanonical := by
  unfold Obligations.StepsKeepMemoryCanonical
  intro s t h stepped
  have chosen : Canon (plan s).2 := canon_plan h
  unfold step at stepped
  split at stepped
  next u e =>
    rw [e] at chosen
    cases stepped
    exact canon_finishStep chosen _
  next i u e =>
    rw [e] at chosen
    have done := canon_exec chosen i
    split at stepped
    next v f =>
      rw [f] at done
      cases stepped
      exact canon_finishStep done _
    · cases stepped
    · cases stepped

end Sys2Proof.Machine

/-! PROOF. Locked translations (08 R164, 13 R210). -/

namespace Sys2Proof.Machine

section
variable {s : State} {k : Nat} {w : Warp} {x : Workgroup} {g : Grid} {a b : Fld}
variable (hx : tget s.wgs w.wg = some x) (hg : gridOfWg s w.wg = some g)
include hg

theorem compatOf_issued : compatOf (issued s k w) w.wg = g.desc.getLsbD 2 := by
  have same : gridOfWg (issued s k w) w.wg = some g := hg
  simp only [compatOf, same]

/-- Outside compatibility mode both words raise 0x17 (R210). -/
theorem tlblock_refused (h : Issues s k w (pair a ++ [b])) (plain : g.desc.getLsbD 2 = false) :
    Does (.tlblock a b) s k w (.fault 0x17 0 (low w) 0) := by
  have does := does_of_laneWord (i := .tlblock a b) h (Eq.refl (execTlblock a b s))
  rw [clearPass_wg, compatOf_issued hg, plain, low_clearPass] at does
  exact does

theorem tlbunlk_refused (h : Issues s k w (pair a)) (plain : g.desc.getLsbD 2 = false) :
    Does (.tlbunlk a) s k w (.fault 0x17 0 (low w) 0) := by
  have does := does_of_laneWord (i := .tlbunlk a) h (Eq.refl (execTlbunlk a s))
  rw [clearPass_wg, compatOf_issued hg, plain, low_clearPass] at does
  exact does

variable (compat : g.desc.getLsbD 2 = true) (free : NoMember w)
include hx compat free

/-- What TLBLOCK does in compatibility mode, by its first test that holds (R210). -/
theorem does_tlblock (h : Issues s k w (pair a ++ [b])) :
    let va := (rd64 w a (low w)).toNat
    let n := (rd w b (low w)).toNat
    Does (.tlblock a b) s k w (if 2 ^ 57 ≤ va ∨ 2 ^ 57 < va + n then .fault 0x10 va (low w) 0
      else if n = 0 then .next (issued s k w)
      else if !covered g (fun _ => true) va n then .fault 0x15 va (low w) 0
      else .next (setWg (issued s k w) w.wg { x with locked := x.locked ++
        [⟨va, n, regionPages g (va + n) 20 (16 - (x.locked.flatMap (·.pages)).length) va⟩] })) := by
  have does := does_of_laneWord (i := .tlblock a b) h (Eq.refl (execTlblock a b s))
  have grid : gridOfWg (issued s k w) w.wg = some g := hg
  have own : tget (issued s k w).wgs w.wg = some x := hx
  rw [clearPass_wg, compatOf_issued hg, compat] at does
  simp only [noTake, activeMember_eq_none free, grid, own, low_clearPass, rd_clearPass, rd64_clearPass] at does
  exact does

/-- TLBUNLK removes the regions that start at its address (R210). -/
theorem does_tlbunlk (h : Issues s k w (pair a)) : Does (.tlbunlk a) s k w (.next (setWg (issued s k w) w.wg { x with
    locked := x.locked.filter (fun r => decide (r.start ≠ (rd64 w a (low w)).toNat)) })) := by
  have does := does_of_laneWord (i := .tlbunlk a) h (Eq.refl (execTlbunlk a s))
  have own : tget (issued s k w).wgs w.wg = some x := hx
  have other (y : Nat) : (fun r : Locked => decide (r.start ≠ y)) = fun r => r.start != y := by
    funext r; exact decide_not
  rw [clearPass_wg, compatOf_issued hg, compat] at does
  simp only [noTake, activeMember_eq_none free, own, low_clearPass, rd64_clearPass] at does
  rw [other]
  exact does
end

/-- Settles O20: each word by its first test that holds. -/
theorem lockedTranslations : Obligations.LockedTranslations := by
  unfold Obligations.LockedTranslations
  intro s k w x g a b hx hg
  refine ⟨fun plain => ⟨fun h => tlblock_refused hg h plain, fun h => tlbunlk_refused hg h plain⟩,
    fun compat free => ⟨fun h start end_ => ?block, does_tlbunlk hx hg compat free⟩⟩
  case block =>
    have does := does_tlblock hx hg compat free h
    have inRange : ¬ (2 ^ 57 ≤ (rd64 w a (low w)).toNat ∨
        2 ^ 57 < (rd64 w a (low w)).toNat + (rd w b (low w)).toNat) := by
      omega
    dsimp only at does
    rw [if_neg inRange] at does
    refine ⟨fun empty => ?_, fun sized bare => ?_, fun sized leased => ?_⟩
    · rwa [if_pos empty] at does
    · rwa [if_neg sized, bare] at does
    · rwa [if_neg sized, leased] at does

end Sys2Proof.Machine

/-! PROOF. Timelines, tokens and stash regions (08 R157, R179, R180, 13 R206 to R209). -/

namespace Sys2Proof.Machine

/-! Tokens and timelines (R179, R180, R206, R207). -/

section
variable {s : State} {k : Nat} {w : Warp} {d a b : Fld}

/-- A word whose effect, once it issues, is what it makes of its warp is as good as a warp word. -/
theorem laneWord_eq_warpWord {regs : List Fld} {body : State → Nat → Warp → Eff} {f : Warp → Warp}
    (h : Issues s k w regs)
    (hb : body (issued s k w) k (clearPass w) = .next (setWarp (issued s k w) k (f (clearPass w)))) :
    laneWord s regs body = warpWord s regs f := by
  unfold warpWord
  rw [laneWord_ready h, laneWord_ready h]
  exact congrArg (fun e => Host.Outcome.next (finishEff (issued s k w) k (clearPass w) e)) hb

/-- TLREAD where each handle names a timeline (R207). -/
theorem tlread_writes (h : Issues s k w ([a] ++ pair d)) (quiet : w.sstep = false) (even : odd d = false)
    (named : ∀ l, w.act.getLsbD l = true → handleOk s (ctxOfWg s w.wg) (rd w a l) = true) :
    WritesPair (.tlread d a) s k w d (fun l => BitVec.ofNat 64 (handleVal s (ctxOfWg s w.wg) (rd w a l))) := by
  refine warpWord_writes64 h quiet d even
    (fun w l => BitVec.ofNat 64 (handleVal s (ctxOfWg s w.wg) (rd w a l))) _ (laneWord_eq_warpWord h ?_)
    fun l _ => by rw [rd_clearPass, clearPass_wg]
  have found : (lanesOf (clearPass w).act).find? (fun l =>
      !handleOk (issued s k w) (ctxOfWg (issued s k w) (clearPass w).wg) (rd (clearPass w) a l)) = none := by
    simp only [clearPass_act, clearPass_wg, rd_clearPass]
    exact find_lanesOf_none fun l hl => congrArg not (named l hl)
  dsimp only
  rw [found]
  rfl

/-- TLREAD faults at its first lane whose handle names no timeline (R207). -/
theorem tlread_faults {m : Nat} (h : Issues s k w ([a] ++ pair d)) (active : w.act.getLsbD m = true)
    (bad : handleOk s (ctxOfWg s w.wg) (rd w a m) = false)
    (first : ∀ l < m, w.act.getLsbD l = true → handleOk s (ctxOfWg s w.wg) (rd w a l) = true) :
    Does (.tlread d a) s k w (.fault 0x1C 0 m 0) := by
  have does := does_of_laneWord (i := .tlread d a) h (Eq.refl (execTlread d a s))
  have found :
      (lanesOf w.act).find? (fun l => !handleOk (issued s k w) (ctxOfWg (issued s k w) w.wg) (rd w a l)) = some m :=
    find_lanesOf active (congrArg not bad) fun l hl hm => congrArg not (first l hl hm)
  simp only [clearPass_act, clearPass_wg, rd_clearPass, found] at does
  exact does

/-- What TLWAIT does, by its first test that holds (R207). -/
theorem does_tlwait (h : Issues s k w ([a] ++ pair b)) :
    let ctx := ctxOfWg s w.wg
    let hd := rd w a (low w)
    let v := rd64 w b (low w)
    let m : Mask := if v.toNat ≤ handleVal s ctx hd then 0 else w.act
    Does (.tlwait a b) s k w (if !handleOk s ctx hd then .fault 0x1C 0 (low w) 0
      else if m = 0 then .next (issued s k w)
      else waits (issued s k w) k (clearPass w) (clearPass w) m (.timeline hd v)) := by
  have does := does_of_laneWord (i := .tlwait a b) h (Eq.refl (execTlwait a b s))
  have same : setWarp (issued s k w) k (clearPass w) = issued s k w := setWarp_setWarp ..
  simp only [low_clearPass, rd_clearPass, rd64_clearPass, clearPass_wg, waitSome, same] at does
  rw [← clearPass_act w]
  exact does
end

/-! Regions of the stash (R157, R208, R209). -/

section
variable {s : State} {k : Nat} {w : Warp} {g : Workgroup} {gr : Grid} {a b c : Fld}
variable (hg : tget s.wgs w.wg = some g) (free : NoMember w)
include hg free

/-- What a STASHMAP does whose address has its range, by its first test that holds (R208). -/
theorem does_stashmap (hgr : gridOfWg s w.wg = some gr) (h : Issues s k w ([a] ++ pair b ++ [c])) :
    let l := low w
    let lm := (rd w a l).toNat
    let va := (rd64 w b l).toNat
    let n := (rd w c l).toNat
    Does (.stashmap a b c) s k w (if 2 ^ 57 ≤ va then .fault 0x10 va l 0
      else if stashBad g (hLmSize gr.hdr) lm va n then .fault 0x1A lm l 0
      else if n = 0 then .next (stashUnmap (issued s k w) w.wg (g.stash.findIdx (fun r => r.lm == lm)))
      else if !(covered gr (·.getLsbD 120) va n && covered gr (·.getLsbD 121) va n) then .fault 0x15 va l 0
      else if copyOnLm s w.wg lm n then .stall
      else .next (setWg (issued s k w) w.wg { g with stash := g.stash ++ [⟨lm, va, n, []⟩] })) := by
  have does := does_of_laneWord (i := .stashmap a b c) h (Eq.refl (execStashmap a b c s))
  have own : tget (issued s k w).wgs w.wg = some g := hg
  have grid : gridOfWg (issued s k w) w.wg = some gr := hgr
  simp only [noTake, activeMember_eq_none free, clearPass_wg, own, grid, low_clearPass, rd_clearPass, rd64_clearPass]
    at does
  exact does

/-- What STASHWB and STASHINV do on a range of whole lines: one act on each line of the range (R209). -/
theorem does_stashRange {i : Instr} {f : State → Nat → Nat × Nat → State} (hi : exec i s = stashRange a b f s)
    (h : Issues s k w [a, b]) (ha : (rd w a (low w)).toNat % 128 = 0) (hb : (rd w b (low w)).toNat % 128 = 0) :
    Does i s k w (.next ((stashLines g (rd w a (low w)).toNat (rd w b (low w)).toNat).foldl (fun s x => f s w.wg x)
      (issued s k w))) := by
  have does := does_of_laneWord h hi
  have own : tget (issued s k w).wgs w.wg = some g := hg
  have whole : ¬ ((rd w a (low w)).toNat % 128 ≠ 0 ∨ (rd w b (low w)).toNat % 128 ≠ 0) := by omega
  simp only [noTake, activeMember_eq_none free, clearPass_wg, own, low_clearPass, rd_clearPass, if_neg whole] at does
  exact does
end

/-- A region that STASHMAP takes: whole lines, room, inside LM, and clear of the other regions (R208). -/
theorem stashBad_eq_false {g : Workgroup} {size lm va n : Nat} (hl : lm % 128 = 0) (hv : va % 128 = 0)
    (hn : n % 128 = 0) (sized : n ≠ 0) (room : g.stash.length < 4) (inLm : lm + n ≤ size)
    (clear : ∀ r ∈ g.stash, overlap r.lm r.size lm n = false ∧ overlap r.va r.size va n = false) :
    stashBad g size lm va n = false := by
  have apart : g.stash.any (fun r => overlap r.lm r.size lm n || overlap r.va r.size va n) = false :=
    List.any_eq_false.2 fun r hr => by simp [clear r hr]
  rw [stashBad, if_neg sized, apart]
  simp [hl, hv, hn]
  omega

/-- An unmapping that STASHMAP takes: a region starts at the address (R208). -/
theorem stashBad_unmap {g : Workgroup} {size lm va : Nat} (hl : lm % 128 = 0) (hv : va % 128 = 0)
    (mapped : ∃ r ∈ g.stash, r.lm = lm) : stashBad g size lm va 0 = false := by
  obtain ⟨r, hr, rfl⟩ := mapped
  have found : g.stash.any (fun x => x.lm == r.lm) = true := List.any_eq_true.2 ⟨r, hr, beq_self_eq_true _⟩
  rw [stashBad, if_pos rfl, found]
  simp [hl, hv]

/-! Lines of the stash (R157, R209). -/

theorem cellStore_mem (bs : List Byte) (s : State) (a : Nat) : (cellStore s a bs).mem = memPuts s.mem a bs := by
  induction bs generalizing s a with
  | nil => rfl
  | cons b r ih => exact ih _ _

section
variable {t : State} {wg i j : Nat} {r : Stash} {x : StashLine}
variable (region : (tget t.wgs wg).bind (fun u => u.stash[i]?) = some r) (line : tget r.lines j = some x)
include region line

/-- A dirty line goes back to its 128 bytes of memory (R157). -/
theorem memByte_writeBackLine (dirty : x.dirty = true) (y : Nat) :
    let p := stashPa t wg r j
    memByte (writeBackLine t wg i j).mem y =
      if p ≤ y ∧ y < p + 128 then (lmBytes t wg (r.lm + 128 * j + (y - p)) 1).headD 0 else memByte t.mem y := by
  obtain ⟨u, hu, hr⟩ := Option.bind_eq_some_iff.1 region
  have back : (writeBackLine t wg i j).mem =
      memPuts t.mem (stashPa t wg r j) (lmBytes t wg (r.lm + 128 * j) 128) := by
    simp only [writeBackLine, hu, hr, line, dirty, if_true]
    rw [setStashLine_mem, carryPoison_mem, cellStore_mem]
  have length : (lmBytes t wg (r.lm + 128 * j) 128).length = 128 := by simp [lmBytes, hu]
  dsimp only
  rw [back, memByte_memPuts, length]
  split
  next within =>
    have lt : y - stashPa t wg r j < 128 := by omega
    simp [lmBytes, hu, lt]
  · rfl

/-- Outside takes, STASHINV only gives a line up (R209). -/
theorem dropLine_of_takes_none (free : ∀ e ∈ t.warps, e.2.take = none) :
    dropLine t wg i j = setStashLine t wg i j none := by
  have quiet (own : Option Nat) (l : Nat) : conflict t own l = t := by
    rw [conflict, List.filter_eq_nil_iff.2 fun e he => by simp [free e he]]
    rfl
  have calm (own : Option Nat) (pa n : Nat) : conflicts t own pa n = t := by
    unfold conflicts
    exact List.foldlRecOn (motive := (· = t)) _ _ rfl fun u hu l _ => by rw [hu, quiet]
  simp only [dropLine, region, Option.bind_some, line, Option.map_some, calm, ite_self]
end

/-- Settles O22: each word by its first test that holds, and a line by what goes back or is given up. -/
theorem timelinesAndStash : Obligations.TimelinesAndStash := by
  unfold Obligations.TimelinesAndStash
  refine ⟨fun s k w d a b => ⟨fun quiet h => warpWord_writes h quiet d (fun _ _ => 0) _ rfl fun _ _ => rfl,
      fun quiet h even named => tlread_writes h quiet even named,
      fun m h active bad first => tlread_faults h active bad first, fun h => ?wait⟩,
    fun s k w g gr a b c hg hgr free => ⟨fun h inVa hl hv hn => ?map, fun h hl hm => ?range,
      fun t i j r x region line => ⟨fun dirty y => memByte_writeBackLine region line dirty y,
        dropLine_of_takes_none region line⟩⟩⟩
  case wait =>
    have does := does_tlwait h
    dsimp only at does
    refine ⟨fun bad => ?_, fun ok reached => ?_, fun ok short active => ?_⟩
    · rwa [bad] at does
    · rwa [ok, if_pos reached, if_pos rfl] at does
    · rwa [ok, if_neg (Nat.not_le.2 short), if_neg active] at does
  case map =>
    have does := does_stashmap hg free hgr h
    dsimp only at does
    rw [if_neg (Nat.not_le.2 inVa)] at does
    refine ⟨fun sized room inLm clear reads writes still => ?_, fun empty mapped => ?_⟩
    · rwa [stashBad_eq_false hl hv hn sized room inLm clear, if_neg sized, reads, writes, still] at does
    · rw [empty, stashBad_unmap hl hv mapped] at does
      exact does
  case range =>
    exact ⟨does_stashRange (f := fun s wg x => writeBackLine s wg x.1 x.2) hg free rfl h hl hm,
      does_stashRange (f := fun s wg x => dropLine s wg x.1 x.2) hg free rfl h hl hm⟩

end Sys2Proof.Machine

/-! PROOF. Deferred adds (08 R178) against poison in the stash (08 R157, 29 R408): the statement asks that the memory of
each add be sound, but not the line of the stash in which its word is seen. -/

namespace Sys2Proof.Machine

/-- A task spill area of one page, and a stash region over the addresses of the test warp's adds whose only line is
filled and holds a byte beyond repair. -/
def poisonedLine : State :=
  { tSpill with
    wgs := [(probeWg, { probeWorkgroup with alive := 2, stash := [⟨0, 0x2000, 128, [(0, ⟨true, false⟩)]⟩] })]
    poison := [lmPlace probeWg 0] }

theorem poisonedLine_access : ∀ l, tW.act.getLsbD l = true →
    MayAccess poisonedLine tW.wg needRW 4 (gAddr tW 4 0 4 l) ∧
      (gridXlate poisonedLine tW.wg (gAddr tW 4 0 4 l)).2 ≠ 2 :=
  test_act ⟨by constructor <;> decide +kernel, by decide +kernel⟩ ⟨by constructor <;> decide +kernel, by decide +kernel⟩

/-- The check of the poison looks at the line, so the word faults and its grid ends with the warp. -/
theorem fatom_poisonedLine :
    (tget (stateOf poisonedLine (exec (.fatom 4 0 1 0 0) poisonedLine)).warps 0).isNone = true := by decide +kernel

/-- Refutes O17: where a line of the stash holds poison over sound memory, FATOM ends its grid with 0x1F and joins no
add, though each of its lanes may access its word as the statement asks. -/
theorem not_deferredAddsAndPendingWrites : ¬ Obligations.DeferredAddsAndPendingWrites := by
  unfold Obligations.DeferredAddsAndPendingWrites
  intro h
  obtain ⟨fatom, -⟩ := h
  have issues : Issues poisonedLine 0 tW (pair 4 ++ [1]) := ⟨rfl, rfl, rfl, rfl, by decide +kernel⟩
  obtain ⟨t, w1, ran, slot, -⟩ := fatom poisonedLine 0 tW rfl test_noMember (by decide) 4 0 1 0 0 _ rfl
    poisonedLine_access (by decide +kernel) issues
  have gone := fatom_poisonedLine
  rw [ran, stateOf_next, slot] at gone
  cases gone

end Sys2Proof.Machine

/-! PROOF. The conditions under which FATOM completes (08 R178): they ask no more of the stash than the statement on
deferred adds does, and fail with it. -/

namespace Sys2Proof.Machine

/-- Refutes O60: in the state of the poisoned stash line FATOM meets the conditions and its grid ends instead, so that no
warp is left which could go on. -/
theorem not_formsComplete : ¬ Obligations.FormsComplete := by
  unfold Obligations.FormsComplete
  intro h
  obtain ⟨lanes, -⟩ := h
  obtain ⟨-, -, -, fatom, -⟩ := lanes poisonedLine 0 tW rfl test_noMember (by decide) (by decide +kernel) 0 0 4 1 0 0 0
  have issues : Issues poisonedLine 0 tW (pair 4 ++ [1]) := ⟨rfl, rfl, rfl, rfl, by decide +kernel⟩
  obtain ⟨t, -, ⟨ran, w1, slot, -⟩, -⟩ := fatom _ rfl issues poisonedLine_access (by decide +kernel)
  have gone := fatom_poisonedLine
  rw [ran, stateOf_next, slot] at gone
  cases gone

end Sys2Proof.Machine

/-! PROOF. Named barriers (13 R198 to R201): what an arrival leaves of a barrier, and the four words by their first test that
holds. -/

namespace Sys2Proof.Machine

/-! One arrival (R198, R200). -/

section
variable {g : Workgroup} {n : Nat}

/-- An arrival below the count only counts. -/
theorem barArrive_short (short : (barOf g n).arrived + 1 < (barOf g n).count) :
    barArrive g n = { g with bars := tput g.bars n { barOf g n with arrived := (barOf g n).arrived + 1 } } :=
  if_neg (Nat.not_le.2 short)

/-- An arrival that reaches the count completes the phase. -/
theorem barArrive_full (full : (barOf g n).count ≤ (barOf g n).arrived + 1) :
    barArrive g n = { g with
      bars := tput g.bars n { barOf g n with arrived := 0, phase := (barOf g n).phase + 1, initBy := none }
      phase := g.phase + 1 } :=
  if_pos full

theorem barOf_put (g : Workgroup) (n : Nat) (b : Barrier) (ph : Nat) :
    barOf { g with bars := tput g.bars n b, phase := ph } n = b := by simp [barOf]

/-- An arrival changes its own barrier, and beside it the workgroup's phase at most. -/
theorem barArrive_other (g : Workgroup) (n : Nat) :
    barArrive g n = { g with bars := (barArrive g n).bars, phase := (barArrive g n).phase } ∧
      ∀ m, m ≠ n → barOf (barArrive g n) m = barOf g m := by
  have apart (b : Barrier) {m : Nat} (h : m ≠ n) : tget (tput g.bars n b) m = tget g.bars m := tget_tput_ne _ _ h.symm
  rcases Nat.lt_or_ge ((barOf g n).arrived + 1) (barOf g n).count with short | full
  · rw [barArrive_short short]
    exact ⟨rfl, fun m h => by simp only [barOf, apart _ h]⟩
  · rw [barArrive_full full]
    exact ⟨rfl, fun m h => by simp only [barOf, apart _ h]⟩
end

/-- What changes no PC and no mask of a warp leaves the PC after its current word. -/
theorem nextPC_modLanes (w : Warp) (m : Mask) {f : Nat → Thread → Thread} (keep : ∀ l t, (f l t).pc = t.pc) :
    nextPC (modLanes w m f) = nextPC w := by
  have pc (l : Nat) : pcOf (modLanes w m f) l = pcOf w l := by
    rw [pcOf, pcOf, thr_modLanes]
    cases thr w l with
    | none => rfl
    | some x =>
      simp only [Option.map_some, Option.getD_some]
      split
      · exact keep l x
      · rfl
  have act : (modLanes w m f).act = w.act := rfl
  have code : (modLanes w m f).code = w.code := rfl
  have cur : curPC (modLanes w m f) = curPC w := by simp only [curPC, act, pc]
  simp only [nextPC, endPC, cur, code]

/-- The arrivals of the active lanes change the phases that those record, and no PC and no mask of the warp. -/
theorem arriveAll_stands (g : Workgroup) (w : Warp) (n : Nat) :
    (arriveAll g w n).2.act = w.act ∧ nextPC (arriveAll g w n).2 = nextPC w := by
  unfold arriveAll
  generalize lanesOf w.act = ls
  induction ls generalizing g w with
  | nil => exact ⟨rfl, rfl⟩
  | cons l r ih =>
    obtain ⟨act, next⟩ := ih (barArrive g n)
      (modLanes w (laneBit l) (fun _ t => { t with barArr := tput t.barArr n (barOf g n).phase }))
    exact ⟨act, next.trans (nextPC_modLanes _ _ fun _ _ => rfl)⟩

/-! The words. -/

section
variable {s : State} {k : Nat} {w : Warp} {g : Workgroup} {n : Fld}

/-- A barrier word acts on its workgroup where the index is below NBAR, and raises 0x40 elsewhere (R198). -/
theorem does_barrierWord {i : Instr} {regs : List Fld} {go : State → Nat → Warp → Workgroup → Eff}
    (hg : tget s.wgs w.wg = some g) (h : Issues s k w regs)
    (hi : exec i s = laneWord s regs (fun s k w => barIndex s w n (go s k w))) :
    (n.toNat < hNbar (hdrOf s w.wg) → Does i s k w (go (issued s k w) k (clearPass w) g)) ∧
      (hNbar (hdrOf s w.wg) ≤ n.toNat → Does i s k w (.fault 0x40 0 (low w) 0)) := by
  have does := does_of_laneWord h hi
  have own : tget (issued s k w).wgs w.wg = some g := hg
  have header : hdrOf (issued s k w) w.wg = hdrOf s w.wg := rfl
  simp only [barIndex, clearPass_wg, own, low_clearPass, header] at does
  exact ⟨fun below => by rwa [if_neg (Nat.not_le.2 below)] at does, fun above => by rwa [if_pos above] at does⟩

/-- BARINIT is misused by a count out of range, by arrivals, or by another warp's BARINIT before it (R199). -/
theorem barInitBad_iff (b : Barrier) (age : Nat) (v : Word) : barInitBad b age v = true ↔
    v.toNat = 0 ∨ 1025 < v.toNat ∨ b.arrived ≠ 0 ∨ ∃ x, b.initBy = some x ∧ x ≠ age := by
  cases h : b.initBy <;> simp [barInitBad, h, or_assoc]

/-- Some lanes wait where the word has left its warp's mask and PCs. -/
theorem waitSome_waits {u w1 : Warp} {m : Mask} (stands : u.act = w1.act ∧ nextPC u = nextPC w1) (some_ : m ≠ 0)
    (wt : Wait) : waitSome s k u m wt = waits s k w1 u m wt := by
  rw [waitSome, if_neg some_, stands.1, stands.2, waits]
end

/-- Settles O18: an arrival by whether it reaches the count, each word by its first test that holds. -/
theorem barrierWords : Obligations.BarrierWords := by
  unfold Obligations.BarrierWords
  refine ⟨fun g n => ⟨fun short => ?short, fun full => ?full, (barArrive_other g n).2, (barArrive_other g n).1⟩,
    fun s k w g a n hg => ⟨fun below => ⟨fun h => ?init, fun h => ?words⟩,
      fun above => ⟨fun h => ?initAbove, fun h => ?above⟩⟩⟩
  case short =>
    rw [barArrive_short short]
    exact ⟨barOf_put g n _ g.phase, rfl⟩
  case full =>
    rw [barArrive_full full]
    exact ⟨barOf_put .., rfl, by rw [barDone, barOf_put]; exact decide_eq_true (Nat.lt_succ_self _)⟩
  case init =>
    have does := (does_barrierWord (i := .barinit a n) hg h rfl).1 below
    have age : (clearPass w).age = w.age := clearPass_age w
    simp only [low_clearPass, rd_clearPass, clearPass_wg, age] at does
    refine ⟨fun ⟨low_, high, none_, own⟩ => ?_, fun bad => ?_⟩
    · rwa [if_neg] at does
      rw [barInitBad_iff]
      rintro (h | h | h | ⟨x, hx, ne⟩)
      · omega
      · omega
      · exact h none_
      · rcases own with own | own <;> rw [own] at hx <;> simp_all
    · rwa [if_pos ((barInitBad_iff ..).2 bad)] at does
  case words =>
    have arrives := (does_barrierWord (i := .bara n) hg h rfl).1 below
    have wait := (does_barrierWord (i := .barw n) hg h rfl).1 below
    have both := (does_barrierWord (i := .bars n) hg h rfl).1 below
    have same : setWarp (issued s k w) k (clearPass w) = issued s k w := setWarp_setWarp ..
    have stands := arriveAll_stands g (clearPass w) n.toNat
    simp only [clearPass_wg] at arrives both
    refine ⟨arrives, fun none_ => ?_, fun some_ => ?_, fun none_ => ?_, fun some_ => ?_⟩
    · rwa [waitSome, if_pos none_, same] at wait
    · rwa [waitSome_waits ⟨rfl, rfl⟩ some_] at wait
    · rwa [waitSome, if_pos none_] at both
    · rwa [waitSome_waits stands some_] at both
  case initAbove => exact (does_barrierWord (i := .barinit a n) hg h rfl).2 above
  case above =>
    exact ⟨(does_barrierWord (i := .bara n) hg h rfl).2 above, (does_barrierWord (i := .barw n) hg h rfl).2 above,
      (does_barrierWord (i := .bars n) hg h rfl).2 above⟩

end Sys2Proof.Machine

/-! PROOF. Accesses of lane code with nothing between them and memory (13 R185 to R187, log 8): the checks find nothing, and
each lane reads and stores the bytes of its place. -/

namespace Sys2Proof.Machine

/-! Nothing stands between an access and memory. -/

section
variable {s : State} {w : Warp}

theorem PlainMemory.undisturbed (h : PlainMemory s w) : Undisturbed s := ⟨h.takes, h.stash, h.snaps, h.boxes⟩

theorem PlainMemory.noMember (h : PlainMemory s w) : NoMember w := by
  simp [NoMember, h.members]

end

/-- A place with bytes stored: in LM or in memory. -/
def locStore (s : State) (x : Loc) (bs : List Byte) : State := if x.lm then lmStore s x.wg x.va bs else plainStore s x.pa bs

/-- The bytes at a place: of LM or of memory. -/
def locBytes (s : State) (x : Loc) (n : Nat) : List Byte := if x.lm then lmBytes s x.wg x.va n else memBytes s.mem x.pa n

/-- A store to LM changes the bytes of a workgroup's LM and poison, and nothing else. -/
theorem lmStore_rest (s : State) (wg off : Nat) (bs : List Byte) :
    lmStore s wg off bs = { s with wgs := (lmStore s wg off bs).wgs, poison := (lmStore s wg off bs).poison } := by
  unfold lmStore
  split <;> rfl

/-- What a store to LM leaves of each workgroup. -/
theorem tget_lmStore (s : State) (wg off : Nat) (bs : List Byte) (j : Nat) :
    tget (lmStore s wg off bs).wgs j = (tget s.wgs j).map (fun g => if j = wg then
      { g with lm := (List.range bs.length).foldl (fun m i => tputD 0 m (off + i) (bs.getD i 0)) g.lm } else g) := by
  unfold lmStore
  split
  · next none_ =>
    by_cases own : j = wg
    · subst own; rw [none_]; rfl
    · simp [own]
  · next g hg =>
    rw [setWg_wgs, tget_tput]
    by_cases own : j = wg
    · subst own; simp [hg]
    · simp [own, Ne.symm own]

namespace Undisturbed

variable {s : State} (h : Undisturbed s)
include h

theorem setWarp (k : Nat) {w : Warp} (free : w.take = none) : Undisturbed (setWarp s k w) :=
  ⟨fun e he => (mem_tput he).elim (fun own => own ▸ free) (h.takes e), h.stash, h.snaps, h.boxes⟩

theorem lmStore (wg off : Nat) (bs : List Byte) : Undisturbed (lmStore s wg off bs) := by
  have takes : (Machine.lmStore s wg off bs).warps = s.warps := by rw [lmStore_rest]
  have snaps : (Machine.lmStore s wg off bs).ctxs = s.ctxs := by rw [lmStore_rest]
  have boxes : (Machine.lmStore s wg off bs).mailboxes = s.mailboxes := by rw [lmStore_rest]
  refine ⟨takes ▸ h.takes, ?_, snaps ▸ h.snaps, boxes ▸ h.boxes⟩
  unfold Machine.lmStore
  split
  · exact h.stash
  · next g hg =>
    have same := h.stash _ (tget_mem hg)
    exact fun e he => (mem_tput he).elim (fun own => own ▸ same) (h.stash e)

theorem locStore (x : Loc) (bs : List Byte) : Undisturbed (locStore s x bs) := by
  unfold Machine.locStore
  split
  · exact h.lmStore ..
  · exact h.plainStore ..

theorem ownStash (who : Who) (va : Nat) : ownStash s who va = none := by
  cases hw : who.wg <;> simp [Machine.ownStash, hw, stashAt_none s h.stash]

/-- A write goes to memory alone, whoever makes it. -/
theorem writeQuiet_any (who : Who) (va pa : Nat) (bs : List Byte) :
    Machine.writeQuiet s who va pa bs = Machine.plainStore s pa bs := by
  have calm : conflicts s who.own pa bs.length = s := by
    unfold conflicts
    exact List.foldlRecOn (motive := (· = s)) _ _ rfl fun t ht l _ => by rw [ht, h.conflict]
  simp only [Machine.writeQuiet, h.ownStash, flushRange_none s h.stash, h.snapBefore, calm]

theorem writeLoc (wg : Nat) (own : Option Nat) (x : Loc) (bs : List Byte) :
    writeLoc s wg own x bs = Machine.locStore s x bs := by
  have quiet : doorbells s x.pa bs.length = [] := by rw [doorbells, h.boxes]; rfl
  unfold Machine.writeLoc Machine.locStore
  split
  · rw [writeLm, h.conflict]
  · rw [writeGlobal, h.writeQuiet_any, quiet, ringDoorbells, List.map_nil, List.append_nil]

theorem readLocFor (wg : Nat) (own : Option Nat) (x : Loc) (n : Nat) :
    readLocFor s wg own x n = (locBytes s x n, s) := by
  unfold Machine.readLocFor locBytes
  split
  · rfl
  · simp only [readGlobal, h.ownStash, flushRange_none s h.stash]

theorem dataPoisoned (wg va pa n : Nat) : dataPoisoned s wg va pa n = poisoned s pa n := by
  have seen (a : Nat) : seenPlace s a = a := by simp [seenPlace, stashHolders_none s h.stash]
  simp only [Machine.dataPoisoned, stashAt_none s h.stash, seenPoisoned, seen, poisoned]
  rw [Bool.eq_iff_iff]
  simp only [Bool.and_eq_true, Bool.not_eq_true', List.isEmpty_eq_false_iff, List.any_eq_true, List.mem_range,
    List.contains_iff_mem, decide_eq_true_eq]
  constructor
  · rintro ⟨-, i, hi, hp⟩
    exact ⟨pa + i, hp, by omega, by omega⟩
  · rintro ⟨p, hp, low, high⟩
    exact ⟨List.ne_nil_of_mem hp, p - pa, by omega, by rwa [Nat.add_sub_cancel' low]⟩

theorem remoteAt (wg va pa : Nat) : remoteAt s wg va pa = isFabric pa := by
  simp [Machine.remoteAt, stashAt_none s h.stash]

end Undisturbed

/-! Checks that find nothing (R187). -/

theorem firstBad_none {ls : List Nat} {addr : Nat → Nat} {c : Nat → Option Nat} (sound : ∀ l ∈ ls, c l = none) :
    firstBad ls addr c = none :=
  List.findSome?_eq_none_iff.2 fun l hl => by rw [sound l hl]; rfl

theorem globalBad_none {s : State} (h : Undisturbed s) {wg size : Nat} {n : Need} {addr : Nat → Nat}
    {extra : Nat → Bool} {ls : List Nat} (may : ∀ l ∈ ls, MayAccess s wg n size (addr l) ∧ extra l = false) :
    globalBad s wg n size addr extra ls = none := by
  have all (c : Nat → Option Nat) (hc : ∀ l, MayAccess s wg n size (addr l) → extra l = false → c l = none) :
      firstBad ls addr c = none := firstBad_none fun l hl => hc l (may l hl).1 (may l hl).2
  unfold globalBad
  rw [all, all, all, all, all, all]
  · rfl
  · intro l m _
    rw [h.dataPoisoned]
    cases hr : n.r
    · rfl
    · rw [m.sound hr]; rfl
  · intro l _ e; rw [e]; rfl
  · intro l m _; rw [m.phys]; rfl
  · exact fun l m _ => m.lease
  · intro l m _; rw [m.aligned]; rfl
  · intro l m _; rw [decide_eq_false (Nat.not_le.2 m.range)]; rfl

/-- An LM access that may be made finds nothing in the checks of LM either. -/
theorem lmBad_none {s : State} {wg size : Nat} {addr : Nat → Word} {tg o : Nat → Nat} {ls : List Nat}
    (may : ∀ l ∈ ls, MayReach s wg size (addr l) (tg l) (o l)) :
    lmBad s wg size addr ls = none ∧ lmPoison s wg size addr ls = none := by
  unfold lmBad lmPoison
  refine ⟨?_, firstBad_none fun l hl => ?_⟩
  · dsimp only
    rw [firstBad_none, firstBad_none]
    · rfl
    · intro l hl
      rw [(may l hl).target]
      dsimp only
      rw [(may l hl).plain]
      rfl
    · intro l hl
      rw [(may l hl).aligned]
      rfl
  · rw [(may l hl).target]
    dsimp only
    rw [(may l hl).sound]
    rfl

theorem lLoc_eq {s : State} {wg size t off : Nat} {a : Word} (h : MayReach s wg size a t off) :
    lLoc s wg a size = ⟨true, t, off, lmPlace t off, 0⟩ := by
  simp only [lLoc, h.target]

theorem lLoc_place {s : State} {wg size t off : Nat} {a : Word} (h : MayReach s wg size a t off) :
    (lLoc s wg a size).lm = true ∧ (lLoc s wg a size).wg = t ∧ (lLoc s wg a size).va = off := by
  rw [lLoc_eq h]
  exact ⟨rfl, rfl, rfl⟩

/-! Accesses that go to fabric memory (R157). -/

/-- The accesses of some lanes that go to fabric memory, with their addresses. -/
def fabricLines (loc : Nat → Loc) (ls : List Nat) : Tbl (Nat × Nat) :=
  (ls.filter (fun l => isFabric (loc l).pa)).map (fun l => (l, (loc l).va, (loc l).pa))

section
variable {loc : Nat → Loc} {ls : List Nat}

theorem toFabric_eq {s : State} (h : Undisturbed s) (wg : Nat) (out : ∀ l, (loc l).lm = false) :
    toFabric s wg loc ls = fabricLines loc ls := by
  simp only [toFabric, fabricLines, out, h.remoteAt, Bool.not_false, Bool.true_and]

theorem fabricLines_nil (near : ∀ l ∈ ls, isFabric (loc l).pa = false) : fabricLines loc ls = [] := by
  rw [fabricLines, List.filter_eq_nil_iff.2 fun l hl => by rw [near l hl]; decide, List.map_nil]

theorem fabricLines_ne_nil {l : Nat} (mem : l ∈ ls) (far : isFabric (loc l).pa = true) : fabricLines loc ls ≠ [] :=
  fun none_ => List.filter_eq_nil_iff.1 (List.map_eq_nil_iff.1 none_) l mem far

end

/-! The lanes in the order of the kinds of their accesses (R169). -/

theorem mem_kindOrder {loc : Nat → Loc} {ls : List Nat} {l : Nat} : l ∈ kindOrder loc ls ↔ l ∈ ls := by
  have kinds : (loc l).ord = 1 ∨ (loc l).ord = 0 ∨ 2 ≤ (loc l).ord := by omega
  simp only [kindOrder, List.mem_append, List.mem_filter, beq_iff_eq, decide_eq_true_eq]
  tauto

/-! What the meaning of a word reads of its warp is as before the resumption of lanes (R25). -/

section
variable (w : Warp)

@[simp] theorem gAddr_clearPass (base off : Fld) (size : Nat) :
    gAddr (clearPass w) base off size = gAddr w base off size := by
  funext l; simp only [gAddr, rd64_clearPass]

@[simp] theorem lAddr_clearPass (base off : Fld) (size : Nat) :
    lAddr (clearPass w) base off size = lAddr w base off size := by
  funext l; simp only [lAddr, rd_clearPass]

@[simp] theorem regBytes_clearPass (f : Fld) (n : Nat) : regBytes (clearPass w) f n = regBytes w f n := by
  funext l; simp only [regBytes, rd_clearPass]

@[simp] theorem regSpoilt_clearPass (f : Fld) (n : Nat) : regSpoilt (clearPass w) f n = regSpoilt w f n := by
  funext l; simp only [regSpoilt, spoiltAt, clearPass_spoilt]

@[simp] theorem rdSize_clearPass (f : Fld) (n l : Nat) : rdSize (clearPass w) f n l = rdSize w f n l := by
  simp only [rdSize, rd_clearPass, rd64_clearPass]

end

theorem PlainMemory.issued {s : State} {w : Warp} (h : PlainMemory s w) (k : Nat) :
    Undisturbed (issued s k w) ∧ Machine.members (clearPass w) = 0 :=
  ⟨h.undisturbed.setWarp k ((clearPass_take w).trans h.own), (members_clearPass w).trans h.members⟩

theorem MayAccess.issued {s : State} {wg size va : Nat} {n : Need} (h : MayAccess s wg n size va) (k : Nat) (w : Warp) :
    MayAccess (issued s k w) wg n size va := ⟨h.range, h.aligned, h.lease, h.phys, h.sound⟩

theorem MayReach.issued {s : State} {wg size t off : Nat} {a : Word} (h : MayReach s wg size a t off) (k : Nat) (w : Warp) :
    MayReach (issued s k w) wg size a t off := ⟨h.aligned, h.target, h.there, h.plain, h.sound⟩

/-! Tables of the lanes' values. -/

/-- The values of some lanes. -/
def laneTable (ls : List Nat) (v : Nat → Nat) : Tbl Nat := ls.foldl (fun t l => tput t l (v l)) []

theorem tget_foldl_tput {α : Type} (v : Nat → α) (ls : List Nat) (t : Tbl α) (l : Nat) :
    tget (ls.foldl (fun t l => tput t l (v l)) t) l = if l ∈ ls then some (v l) else tget t l := by
  induction ls generalizing t with
  | nil => simp
  | cons m r ih =>
    rw [List.foldl_cons, ih, tget_tput]
    by_cases hr : l ∈ r
    · simp [hr]
    · by_cases hm : m = l
      · simp [hm]
      · simp [hr, hm, Ne.symm hm]

theorem tget_laneTable (ls : List Nat) (v : Nat → Nat) (l : Nat) :
    tget (laneTable ls v) l = if l ∈ ls then some (v l) else none := tget_foldl_tput v ls [] l

theorem mem_keys_iff {α : Type} {t : Tbl α} {l : Nat} : l ∈ t.map (·.1) ↔ (tget t l).isSome = true := by
  rw [Option.isSome_iff_exists, List.mem_map]
  constructor
  · rintro ⟨e, he, rfl⟩
    exact exists_tget_of_mem he
  · rintro ⟨v, hv⟩
    exact ⟨_, tget_mem hv, rfl⟩

/-- The mask of the lanes that a table lists. -/
theorem maskOf_keys {α : Type} {t : Tbl α} {m : Mask} (keys : ∀ l, (tget t l).isSome = true ↔ m.getLsbD l = true) :
    maskOf (t.map (·.1)) = m := by
  have lane {l : Nat} (h : l ∈ t.map (·.1)) : m.getLsbD l = true := (keys l).1 (mem_keys_iff.1 h)
  refine BitVec.eq_of_getLsbD_eq fun l hl => ?_
  rw [getLsbD_maskOf _ _ fun j hj => BitVec.lt_of_getLsbD (lane hj), Bool.eq_iff_iff, decide_eq_true_eq, mem_keys_iff, keys]

/-! Loads, lane after lane. -/

section
variable {w : Warp} (free : members w = 0) (k : Nat) (loc : Nat → Loc) (n : Nat)
include free

theorem outNow_free (s : State) (l : Nat) : outNow s k w l = false := by
  simp [outNow, free]

/-- Lanes read one after the other: where no read changes the state, each gets what its reader gives. -/
theorem foldl_readLane (watch : Bool) {reader : Option Nat → Loc → State → List Byte × State} {s : State}
    {v : Nat → List Byte} (reads : ∀ l, reader none (loc l) s = (v l, s)) (ls : List Nat) (vs : Tbl Nat) :
    ls.foldl (readLane k w loc n watch reader) (.ok (s, vs)) =
      .ok (s, ls.foldl (fun t l => tput t l (leNat (v l))) vs) := by
  induction ls generalizing vs with
  | nil => rfl
  | cons l r ih =>
    have one : readLane k w loc n watch reader (.ok (s, vs)) l = .ok (s, tput vs l (leNat (v l))) := by
      simp [readLane, outNow_free free, free, reads]
    rw [List.foldl_cons, one, ih]
    rfl

/-- One lane's store: its bytes at its place, and the marks of those that are beyond repair. -/
def laneStore (wg : Nat) (loc : Nat → Loc) (data : Nat → List Byte) (bad : Nat → List Nat) (s : State) (l : Nat) : State :=
  storePoison (locStore s (loc l) (data l)) wg (loc l) (bad l)

omit free in
theorem storePoison_rest (s : State) (wg : Nat) (x : Loc) (bad : List Nat) :
    storePoison s wg x bad = { s with poison := (storePoison s wg x bad).poison } := by
  unfold storePoison
  split <;> rfl

omit free in
theorem Undisturbed.laneStore {s : State} (h : Undisturbed s) (wg : Nat) (data : Nat → List Byte) (bad : Nat → List Nat)
    (l : Nat) : Undisturbed (laneStore wg loc data bad s l) := by
  have stored := h.locStore (loc l) (data l)
  rw [Machine.laneStore, storePoison_rest]
  exact ⟨stored.takes, stored.stash, stored.snaps, stored.boxes⟩

/-- Lanes store one after the other. -/
theorem foldl_storeLane (data : Nat → List Byte) (bad : Nat → List Nat) (ls : List Nat) {s : State} (h : Undisturbed s) :
    ls.foldl (storeLane k w loc data bad) (.ok s) = .ok (ls.foldl (laneStore w.wg loc data bad) s) := by
  induction ls generalizing s with
  | nil => rfl
  | cons l r ih =>
    have one : storeLane k w loc data bad (.ok s) l = .ok (laneStore w.wg loc data bad s l) := by
      simp [storeLane, outNow_free free, free, h.writeLoc, laneStore]
    rw [List.foldl_cons, one, ih (h.laneStore loc _ data bad l)]
    rfl

/-- One lane's atomic: what its place held, and what the operation makes of it. -/
def laneAtomic (loc : Nat → Loc) (n : Nat) (op : Nat → Nat → Option Nat) (x : State × Tbl Nat) (l : Nat) :
    State × Tbl Nat :=
  let old := leNat (locBytes x.1 (loc l) n)
  ((op l old).elim x.1 (fun v => locStore x.1 (loc l) (leBytes n v)), tput x.2 l old)

/-- Lanes perform their atomics one after the other. -/
theorem foldl_atomLane (op : Nat → Nat → Option Nat) (ls : List Nat) {s : State} (h : Undisturbed s) (vs : Tbl Nat) :
    ls.foldl (atomLane k w loc n op) (.ok (s, vs)) = .ok (ls.foldl (laneAtomic loc n op) (s, vs)) := by
  induction ls generalizing s vs with
  | nil => rfl
  | cons l r ih =>
    have one : atomLane k w loc n op (.ok (s, vs)) l = .ok (laneAtomic loc n op (s, vs) l) := by
      cases hv : op l (leNat (locBytes s (loc l) n)) <;>
        simp [atomLane, outNow_free free, free, readLoc, h.readLocFor, h.writeLoc, laneAtomic, hv]
    have next : Undisturbed (laneAtomic loc n op (s, vs) l).1 := by
      cases hv : op l (leNat (locBytes s (loc l) n)) <;> simp only [laneAtomic, hv, Option.elim]
      · exact h
      · exact h.locStore ..
    rw [List.foldl_cons, one, List.foldl_cons, ih next]

end

end Sys2Proof.Machine

/-! PROOF. How a word of memory ends: its values in a group of registers, at once or as writes still outstanding (03 R67), and
what has changed of memory (13 R185, R191, 29 R408). -/

namespace Sys2Proof.Machine

/-! A group of registers (R119). -/

/-- The registers of a group of n from D written for the lanes of a mask, word by word. -/
def writeGroup (w : Warp) (d : Fld) (n : Nat) (m : Mask) (g : Nat → Nat → Word) : Warp :=
  (List.range n).foldl (fun w i => wr w (d + BitVec.ofNat 8 i) m (g i)) w

theorem writeGroup_succ (w : Warp) (d : Fld) (n : Nat) (m : Mask) (g : Nat → Nat → Word) :
    writeGroup w d (n + 1) m g = wr (writeGroup w d n m g) (d + BitVec.ofNat 8 n) m (g n) := by
  rw [writeGroup, List.range_succ, List.foldl_append]
  rfl

theorem groupReg_ne {d : Fld} {i j : Nat} (hi : i < 256) (hj : j < 256) (h : i ≠ j) :
    d + BitVec.ofNat 8 i ≠ d + BitVec.ofNat 8 j := by
  intro e
  have same := congrArg BitVec.toNat ((BitVec.add_right_inj d).1 e)
  simp only [BitVec.toNat_ofNat] at same
  omega

theorem keeps_writeGroup (w : Warp) (d : Fld) (n : Nat) (m : Mask) (g : Nat → Nat → Word) :
    Keeps w (writeGroup w d n m g) := by
  induction n with
  | zero => exact ⟨rfl, rfl, rfl⟩
  | succ n ih =>
    rw [writeGroup_succ]
    refine ⟨(wr_threads ..).trans ih.threads, (wr_act ..).trans ih.act, ?_⟩
    rw [wr_other, ih.other]

@[simp] theorem writeGroup_p (w : Warp) (d : Fld) (n : Nat) (m : Mask) (g : Nat → Nat → Word) :
    (writeGroup w d n m g).p = w.p := by
  induction n with
  | zero => rfl
  | succ n ih => rw [writeGroup_succ, wr_p, ih]

@[simp] theorem writeGroup_flags (w : Warp) (d : Fld) (n : Nat) (m : Mask) (g : Nat → Nat → Word) :
    (writeGroup w d n m g).flags = w.flags := by
  induction n with
  | zero => rfl
  | succ n ih => rw [writeGroup_succ, wr_flags, ih]

section
variable (w : Warp) (d : Fld) (m : Mask) (g : Nat → Nat → Word) {l : Nat} (hl : l < 32)
include hl

/-- Registers outside the group keep their values. -/
theorem rd_writeGroup_ne {n : Nat} {f : Fld} (out : ∀ i < n, f ≠ d + BitVec.ofNat 8 i) :
    rd (writeGroup w d n m g) f l = rd w f l := by
  induction n with
  | zero => rfl
  | succ n ih =>
    rw [writeGroup_succ, rd_wr_ne _ _ _ (out n (Nat.lt_succ_self n)) hl, ih fun i hi => out i (Nat.lt_succ_of_lt hi)]

/-- A register of the group holds its word. -/
theorem rd_writeGroup_self {n i : Nat} (hn : n ≤ 256) (hi : i < n) :
    rd (writeGroup w d n m g) (d + BitVec.ofNat 8 i) l =
      if (d + BitVec.ofNat 8 i).toNat < 192 then (if m.getLsbD l then g i l else rd w (d + BitVec.ofNat 8 i) l)
      else (lowest m).elim (rd w (d + BitVec.ofNat 8 i) l) (g i) := by
  induction n with
  | zero => omega
  | succ n ih =>
    rw [writeGroup_succ]
    by_cases last : i = n
    · subst last
      rw [rd_wr_self _ _ _ _ _ hl,
        rd_writeGroup_ne w d m g hl fun j hj => groupReg_ne (by omega) (by omega) (by omega)]
      cases lowest m <;> rfl
    · rw [rd_wr_ne _ _ _ (groupReg_ne (by omega) (by omega) last) hl, ih (by omega) (by omega)]

/-- The marks of register words beyond repair after a write of a group (29 R408). -/
theorem spoiltAt_writeGroup (n : Nat) (f : Fld) : spoiltAt (writeGroup w d n m g) f l = (spoiltAt w f l &&
    !(List.range n).any (fun i => f == d + BitVec.ofNat 8 i &&
      (if (d + BitVec.ofNat 8 i).toNat < 192 then m.getLsbD l else (lowest m).isSome))) := by
  induction n with
  | zero => simp [writeGroup]
  | succ n ih =>
    rw [writeGroup_succ, spoiltAt_wr _ _ _ _ _ hl, ih, List.range_succ, List.any_append, Bool.not_or, Bool.and_assoc]
    simp
end

/-- What a write of a group for the active lanes says of each register. -/
theorem wroteGroup_writeGroup {w w1 : Warp} {d : Fld} {n : Nat} {f g : Nat → Nat → Word} (hn : n ≤ 256)
    (hv : w1.v = (writeGroup (clearPass w) d n w.act f).v) (hw : w1.w = (writeGroup (clearPass w) d n w.act f).w)
    (hs : w1.spoilt = (writeGroup (clearPass w) d n w.act f).spoilt)
    (hg : ∀ i < n, ∀ l, w.act.getLsbD l = true → f i l = g i l) : WroteGroup w w1 d n g := by
  have hr (x : Fld) (l : Nat) : rd w1 x l = rd (writeGroup (clearPass w) d n w.act f) x l := by simp only [rd, hv, hw]
  refine ⟨fun i hi l hl => ?_, fun x l out hl => ?_, fun x l hl => ?_⟩
  · rw [hr, rd_writeGroup_self _ _ _ _ hl hn hi, rd_clearPass]
    split
    · split
      · next active => exact hg i hi l active
      · rfl
    · cases hm : lowest w.act with
      | none => rfl
      | some j => exact hg i hi j (lowest_mem hm)
  · rw [hr, rd_writeGroup_ne _ _ _ _ hl out, rd_clearPass]
  · have marks : spoiltAt w1 x l = spoiltAt (writeGroup (clearPass w) d n w.act f) x l := by simp only [spoiltAt, hs]
    rw [marks, spoiltAt_writeGroup _ _ _ _ hl]
    simp only [wrote, spoiltAt, clearPass_spoilt, lowest_isSome]

/-- A word that does no more than write a group of registers of its warp. -/
theorem groupWord_writes {i : Instr} {s : State} {k : Nat} {w : Warp} {regs : List Fld} {d : Fld} {n : Nat}
    {body : State → Nat → Warp → Eff} {f g : Nat → Nat → Word} (h : Issues s k w regs) (quiet : w.sstep = false)
    (hn : n ≤ 256) (hi : exec i s = laneWord s regs body)
    (hb : body (issued s k w) k (clearPass w) = .next (setWarp (issued s k w) k (writeGroup (clearPass w) d n w.act f)))
    (hg : ∀ i < n, ∀ l, w.act.getLsbD l = true → f i l = g i l) : WritesGroup i s k w d n g := by
  obtain ⟨t, w1, ran, retires, hv, hw, hp, hf, hs⟩ :=
    warpWord_retires h quiet (fun u => writeGroup u d n w.act f) (keeps_writeGroup ..)
  refine ⟨t, w1, hi.trans ((laneWord_eq_warpWord h hb).trans ran), retires, wroteGroup_writeGroup hn hv hw hs hg, ?_, ?_⟩
  · rw [hp, writeGroup_p, clearPass_p]
  · rw [hf, writeGroup_flags, clearPass_flags]

/-! The values of a load (R67, R182). -/

/-- A warp with the values of a load in the registers from D, for the lanes that have one. -/
def loadGroup (w : Warp) (d : Fld) (words : Nat) (vs : Tbl Nat) : Warp :=
  writeGroup w d words (maskOf (vs.map (·.1))) (fun i l => wordOf (tgetD 0 vs l) i)

/-- What a load leaves of its warp and of the state: its values in their registers where no access goes to fabric memory or
the grid is in continuity mode (21 R316), else writes that are outstanding. -/
structure Loaded (s : State) (w : Warp) (wg : Nat) (d : Fld) (words : Nat) (vs : Tbl Nat) (fab : Tbl (Nat × Nat))
    (t : State) (w1 : Warp) : Prop where
  rest : t = { s with done := t.done, fresh := t.fresh }
  still : fab = [] → t = s
  other : w1 = { w with v := w1.v, w := w1.w, spoilt := w1.spoilt, pend := w1.pend }
  now : fab = [] ∨ contOfWg s wg = true →
    w1 = loadGroup w d words vs
  later : fab ≠ [] → contOfWg s wg = false → w1.v = w.v ∧ w1.w = w.w ∧ w1.spoilt = w.spoilt ∧
    ∀ j < words, anyPending w1 [d + BitVec.ofNat 8 j] = true

theorem writeGroup_other (w : Warp) (d : Fld) (n : Nat) (m : Mask) (g : Nat → Nat → Word) : writeGroup w d n m g =
    { w with v := (writeGroup w d n m g).v, w := (writeGroup w d n m g).w, spoilt := (writeGroup w d n m g).spoilt } := by
  induction n with
  | zero => rfl
  | succ n ih => rw [writeGroup_succ, wr_other, ih]

theorem loadGroup_other (w : Warp) (d : Fld) (words : Nat) (vs : Tbl Nat) : loadGroup w d words vs =
    { w with v := (loadGroup w d words vs).v, w := (loadGroup w d words vs).w
             spoilt := (loadGroup w d words vs).spoilt, pend := (loadGroup w d words vs).pend } := by
  have group := writeGroup_other w d words (maskOf (vs.map (·.1))) (fun i l => wordOf (tgetD 0 vs l) i)
  change loadGroup w d words vs = _ at group
  generalize loadGroup w d words vs = u at group ⊢
  rw [group]

theorem loadInto_spec {s : State} {k : Nat} {w w0 : Warp} (slot : tget s.warps k = some w) (d : Fld) (words : Nat)
    (vs : Tbl Nat) (fab : Tbl (Nat × Nat)) :
    ∃ t w1, loadInto s k w0 d words vs fab = setWarp t k w1 ∧ Loaded s w w0.wg d words vs fab t w1 := by
  by_cases none_ : fab = []
  · subst none_
    refine ⟨s, loadGroup w d words vs, ?_, rfl, fun _ => rfl,
      loadGroup_other .., fun _ => rfl, fun some_ => absurd rfl some_⟩
    simp only [loadInto, List.isEmpty_nil, Bool.not_true, Bool.and_false, Bool.false_eq_true, if_false, ite_self, slot]
    rfl
  · have filled : fab.isEmpty = false := List.isEmpty_eq_false_iff.2 none_
    cases cont : contOfWg s w0.wg
    · let e : List Pend := loadPends s k w0 d words (maskOf (vs.map (·.1)))
        (fun i l => BitVec.ofNat 32 (tgetD 0 vs l / 2 ^ (32 * i))) fab
      refine ⟨{ s with fresh := s.fresh + words }, { w with pend := w.pend ++ e }, ?_, rfl,
        fun no => absurd no none_, rfl, fun now => ?_, fun _ _ => ⟨rfl, rfl, rfl, fun j hj => ?_⟩⟩
      · simp only [loadInto, cont, filled, Bool.false_and, Bool.false_eq_true, if_false, slot, Bool.not_false, if_true]
        rfl
      · exact absurd (now.resolve_left none_) (by rw [cont]; decide)
      · rw [anyPending, List.any_cons, Bool.or_eq_true, List.any_eq_true]
        exact .inl ⟨_, List.mem_append_right _ (List.mem_map.2 ⟨j, List.mem_range.2 hj, rfl⟩), beq_self_eq_true _⟩
    · refine ⟨{ s with done := s.done ++ [remoteReq s k w0.wg (cycleOf s (dieOf (coreOf k)))] },
        loadGroup w d words vs, ?_, rfl,
        fun no => absurd no none_, loadGroup_other .., fun _ => rfl, fun _ no => absurd (cont.symm.trans no) (by decide)⟩
      simp only [loadInto, cont, filled, Bool.not_false, Bool.and_self, if_true, noteDone, slot, List.isEmpty_nil,
        Bool.not_true, Bool.false_eq_true, if_false]
      rfl

/-! Bytes of memory, with what records them. -/

/-- Bytes of memory have changed, with what records them, and nothing else: the values that LDK may return (R191) and the
marks of data beyond repair (29 R408). -/
structure OnlyBytes (s t : State) : Prop where
  grids : ∀ n, (tget t.grids n).map (fun g => { g with ldk := [] }) = (tget s.grids n).map (fun g => { g with ldk := [] })
  rest : t = { s with mem := t.mem, grids := t.grids, poison := t.poison }

namespace OnlyBytes

variable {s t u : State}

theorem refl (s : State) : OnlyBytes s s := ⟨fun _ => rfl, rfl⟩

theorem trans (h : OnlyBytes s t) (j : OnlyBytes t u) : OnlyBytes s u :=
  ⟨fun n => (j.grids n).trans (h.grids n), by rw [j.rest, h.rest]⟩

theorem foldl {α : Type} {f : State → α → State} (h : ∀ s a, OnlyBytes s (f s a)) (l : List α) (s : State) :
    OnlyBytes s (l.foldl f s) := by
  induction l generalizing s with
  | nil => exact refl s
  | cons a r ih => exact (h s a).trans (ih _)

theorem plainStore (s : State) (a : Nat) (bs : List Byte) : OnlyBytes s (plainStore s a bs) :=
  ⟨plainStore_grids bs s a, plainStore_rest bs s a⟩

/-- The continuity mode of a grid stays. -/
theorem cont (h : OnlyBytes s t) (wg : Nat) : contOfWg t wg = contOfWg s wg := by
  have same := congrArg (fun g => (g.map (fun x : Grid => x.desc.getLsbD 1)).getD false) (h.grids (serialOf wg))
  simp only [Option.map_map] at same
  exact same

theorem warps (h : OnlyBytes s t) : t.warps = s.warps := by rw [h.rest]
theorem wgs (h : OnlyBytes s t) : t.wgs = s.wgs := by rw [h.rest]

end OnlyBytes

/-! A word that goes on in the state that its effect gives. -/

section
variable {i : Instr} {s u : State} {k : Nat} {w u1 : Warp}

/-- A word whose effect leaves the threads of its warp retires with its lanes at the next word (R64, R95). -/
theorem retires_of_does (does : Does i s k w (.next u)) (slot : tget u.warps k = some u1) (quiet : u1.sstep = false)
    (free : NoMember w) (threads : u1.threads = (clearPass w).threads) (act : u1.act = w.act) :
    exec i s = .next (countRetired (setWarp u k (goOn (clearPass w) u1)) w.wg) ∧ GoesOn w (goOn (clearPass w) u1) := by
  have still : stillThere (clearPass w) u1 = w.act := by
    rw [stillThere_noMember, clearPass_act]
    rwa [NoMember, clearPass_act, members_clearPass]
  rw [Does, finishEff_next slot quiet] at does
  exact ⟨does, goesOn_goOn still threads act⟩

/-- Such a word that has changed bytes of memory. -/
theorem onlyMemory_retired (bytes : OnlyBytes (issued s k w) u) (w1 : Warp) :
    OnlyMemory s (countRetired (setWarp u k w1) w.wg) k w w1 := by
  have only := onlyWarp_count u k w w1
  generalize countRetired (setWarp u k w1) w.wg = t at only
  have grids : t.grids = u.grids := by rw [only.rest]
  refine ⟨only.slot, fun j hj => ?_, fun j hj => ?_, fun g hg => ?_, fun n => ?_, ?_⟩
  · rw [only.warps j hj, bytes.warps]
    exact tget_tput_ne _ _ hj.symm
  · rw [only.wgs j hj, bytes.wgs]
    rfl
  · exact only.count g (by rw [bytes.wgs]; exact hg)
  · rw [grids]
    exact bytes.grids n
  · rw [only.rest, bytes.rest]
    rfl
end

/-- Without single-stepping a word that keeps the registers of its warp leaves them as they were before its issue. -/
theorem sameRegs_goOn {w u1 : Warp} (hv : u1.v = w.v) (hw : u1.w = w.w) (hs : u1.spoilt = w.spoilt) (w0 : Warp) :
    SameRegs w (goOn w0 u1) :=
  ⟨(goOn_spoilt ..).trans hs, fun f l _ => by rw [rd_goOn, rd, rd, hv, hw]⟩

end Sys2Proof.Machine

/-! PROOF. Loads (13 R185, R186, R190 to R192): each lane's bytes, in the registers that its type needs. -/

namespace Sys2Proof.Machine

/-! Sizes and extensions (R186). -/

theorem tyWords_le (ty : BitVec 3) : tyWords ty ≤ 256 := by revert ty; decide

/-- The sign extension of a value of b bits. -/
theorem toNat_signExtend_ofNat {b x : Nat} (hx : x < 2 ^ b) (h32 : b ≤ 32) :
    ((BitVec.ofNat b x).signExtend 32).toNat = if x < 2 ^ (b - 1) then x else 2 ^ 32 - 2 ^ b + x := by
  have small : x % 2 ^ b = x := Nat.mod_eq_of_lt hx
  have wide : 2 ^ b ≤ 2 ^ 32 := Nat.pow_le_pow_right (by decide) h32
  rw [BitVec.toNat_signExtend, BitVec.msb_eq_decide, BitVec.toNat_setWidth, BitVec.toNat_ofNat, small,
    Nat.mod_eq_of_lt (by omega)]
  by_cases low : x < 2 ^ (b - 1)
  · rw [if_pos low, decide_eq_false (Nat.not_le.2 low)]
    rfl
  · rw [if_neg low, decide_eq_true (Nat.not_lt.1 low), if_pos rfl, Nat.add_comm]

/-! Lanes that read. -/

/-- The registers of a word whose lanes have read without a change of the state. -/
theorem gotEff_read {s : State} {k : Nat} {w : Warp} (slot : tget s.warps k = some w) (free : members w = 0) (d : Fld)
    (words : Nat) (post : Nat → Nat) {loc : Nat → Loc} {n : Nat} {watch : Bool}
    {reader : Option Nat → Loc → State → List Byte × State} {v : Nat → List Byte}
    (reads : ∀ l, reader none (loc l) s = (v l, s)) {ls : List Nat} (lanes : ∀ l, l ∈ ls ↔ w.act.getLsbD l = true) :
    ∃ f, gotEff k w d words [] post (ls.foldl (readLane k w loc n watch reader) (.ok (s, []))) =
        .next (setWarp s k (writeGroup w d words w.act f)) ∧
      ∀ i l, w.act.getLsbD l = true → f i l = wordOf (post (leNat (v l))) i := by
  have values (l : Nat) : tget ((laneTable ls (fun l => leNat (v l))).map (fun e => (e.1, post e.2))) l =
      if l ∈ ls then some (post (leNat (v l))) else none := by
    rw [tget_map (laneTable ls fun l => leNat (v l)) (fun _ x => post x), tget_laneTable]
    split <;> rfl
  have keys : maskOf (((laneTable ls (fun l => leNat (v l))).map (fun e => (e.1, post e.2))).map (·.1)) = w.act :=
    maskOf_keys fun l => by rw [values, ← lanes l]; split <;> simp_all
  obtain ⟨t, w1, loaded, spec⟩ := loadInto_spec (w0 := w) slot d words
    ((laneTable ls (fun l => leNat (v l))).map (fun e => (e.1, post e.2))) []
  refine ⟨fun i l => wordOf (tgetD 0 ((laneTable ls fun l => leNat (v l)).map (fun e => (e.1, post e.2))) l) i,
    ?_, fun i l active => ?_⟩
  · have read : ls.foldl (readLane k w loc n watch reader) (.ok (s, [])) = .ok (s, laneTable ls fun l => leNat (v l)) :=
      foldl_readLane free k loc n watch reads ls []
    rw [read]
    show Eff.next (loadInto s k w d words _ []) = _
    rw [loaded, spec.still rfl, spec.now (.inl rfl), loadGroup, keys]
  · simp only [tgetD, values, if_pos ((lanes l).2 active), Option.getD_some]

section
variable {s : State} {k : Nat} {w : Warp} {d base off : Fld} {i : Instr}

/-- A word whose checks find nothing and whose lanes read without a change of the state writes what they have read. -/
theorem load_writes {regs : List Fld} (h : Issues s k w regs) (quiet : w.sstep = false) (plain : PlainMemory s w)
    {words : Nat} (few : words ≤ 256) {post : Nat → Nat} {loc : Nat → Loc} {n : Nat} {watch : Bool}
    {reader : Option Nat → Loc → State → List Byte × State} {v : Nat → List Byte}
    (reads : ∀ l, reader none (loc l) (issued s k w) = (v l, issued s k w)) {ls : List Nat}
    (lanes : ∀ l, l ∈ ls ↔ w.act.getLsbD l = true) {body : State → Nat → Warp → Eff}
    (hi : exec i s = laneWord s regs body)
    (hb : body (issued s k w) k (clearPass w) = gotEff k (clearPass w) d words [] post
      (ls.foldl (readLane k (clearPass w) loc n watch reader) (.ok (issued s k w, [])))) :
    WritesGroup i s k w d words (fun j l => wordOf (post (leNat (v l))) j) := by
  rw [← clearPass_act w] at lanes
  obtain ⟨f, ends, values⟩ := gotEff_read (tget_tput_self ..) (plain.issued k).2 d words post reads lanes
  rw [ends, clearPass_act] at hb
  exact groupWord_writes h quiet few hi hb fun i _ l active => values i l (by rwa [clearPass_act])

/-- Reads through the constant path of what nothing has written since the launch (R191). -/
theorem ldkRead_fresh {t : State} (h : Undisturbed t) {wg : Nat} (fresh : ∀ g, gridOfWg t wg = some g → g.ldk = [])
    (own : Option Nat) (x : Loc) : ldkRead wg own x t = (memBytes t.mem x.pa 4, t) := by
  have byte (bs : List Byte) (e : Nat × Byte) : ldkByte wg (bs, t) e = (bs ++ [e.2], t) := by
    cases hg : gridOfWg t wg with
    | none => simp [ldkByte, hg]
    | some g => simp [ldkByte, hg, fresh g hg]
  have read : readGlobal t ⟨some wg, own⟩ x.va x.pa 4 = (memBytes t.mem x.pa 4, t) :=
    h.readLocFor wg own { x with lm := false } 4
  simp only [ldkRead, read]
  simp [List.range_succ, byte, memBytes]

variable (quiet : w.sstep = false) (plain : PlainMemory s w)
include quiet plain

/-- A load from global memory (R190, R192). -/
theorem gLoad_writes {u : BitVec 3} (hi : exec i s = gLoad d base off u s)
    (h : Issues s k w (pair base ++ regGroup d (tyWords u)))
    (may : ∀ l, w.act.getLsbD l = true → MayAccess s w.wg needR (tySize u) (gAddr w base off (tySize u) l) ∧
      isFabric (gridXlate s w.wg (gAddr w base off (tySize u) l)).1 = false) :
    WritesGroup i s k w d (tyWords u) (fun j l =>
      wordOf (tyExt u (memNat s.mem (gridXlate s w.wg (gAddr w base off (tySize u) l)).1 (tySize u))) j) := by
  obtain ⟨free, -⟩ := plain.issued k
  refine load_writes h quiet plain (tyWords_le u) (watch := true) (n := tySize u)
    (reader := fun own x t => readLocFor t w.wg own x (tySize u))
    (loc := fun l => gLoc s w.wg (gAddr w base off (tySize u) l))
    (ls := kindOrder (fun l => gLoc s w.wg (gAddr w base off (tySize u) l)) (lanesOf w.act)) (fun l => free.readLocFor ..)
    (fun l => mem_kindOrder.trans (mem_lanesOf.trans ⟨And.right, fun a => ⟨BitVec.lt_of_getLsbD a, a⟩⟩)) hi ?_
  have sound := globalBad_none free (wg := w.wg) (n := needR) (size := tySize u) (ls := lanesOf w.act)
    (addr := gAddr w base off (tySize u)) (extra := fun _ => false)
    fun l hl => ⟨(may l (mem_lanesOf.1 hl).2).1.issued k w, rfl⟩
  have near := (toFabric_eq free w.wg (loc := fun l => gLoc s w.wg (gAddr w base off (tySize u) l)) fun _ => rfl).trans
    (fabricLines_nil fun l hl => (may l (mem_lanesOf.1 hl).2).2)
  have place (va : Nat) : gLoc (issued s k w) w.wg va = gLoc s w.wg va := rfl
  simp only [clearPass_wg, clearPass_act, gAddr_clearPass, place, sound, near]
  rfl

/-- LDK where nothing has been written since the launch (R191). -/
theorem ldk_writes (h : Issues s k w (pair base ++ [d])) (fresh : ∀ g, gridOfWg s w.wg = some g → g.ldk = [])
    (may : ∀ l, w.act.getLsbD l = true → MayAccess s w.wg needR 4 (gAddr w base off 4 l) ∧
      isFabric (gridXlate s w.wg (gAddr w base off 4 l)).1 = false) :
    WritesGroup (.ldk d base off) s k w d 1 (fun j l =>
      wordOf (memNat s.mem (gridXlate s w.wg (gAddr w base off 4 l)).1 4) j) := by
  obtain ⟨free, -⟩ := plain.issued k
  refine load_writes h quiet plain (by decide) (watch := false) (reader := ldkRead w.wg) (n := 4) (post := id)
    (loc := fun l => gLoc s w.wg (gAddr w base off 4 l))
    (ls := kindOrder (fun l => gLoc s w.wg (gAddr w base off 4 l)) (lanesOf w.act)) (fun l => ldkRead_fresh free fresh ..)
    (fun l => mem_kindOrder.trans (mem_lanesOf.trans ⟨And.right, fun a => ⟨BitVec.lt_of_getLsbD a, a⟩⟩)) rfl ?_
  have sound := globalBad_none free (wg := w.wg) (n := needR) (size := 4) (ls := lanesOf w.act)
    (addr := gAddr w base off 4) (extra := fun _ => false) fun l hl => ⟨(may l (mem_lanesOf.1 hl).2).1.issued k w, rfl⟩
  have near := (toFabric_eq free w.wg (loc := fun l => gLoc s w.wg (gAddr w base off 4 l)) fun _ => rfl).trans
    (fabricLines_nil fun l hl => (may l (mem_lanesOf.1 hl).2).2)
  have place (va : Nat) : gLoc (issued s k w) w.wg va = gLoc s w.wg va := rfl
  simp only [clearPass_wg, clearPass_act, gAddr_clearPass, place, sound, near]
  rfl

/-- A load from LM. -/
theorem lmLoad_writes {u : BitVec 3} {tg o : Nat → Nat} (hi : exec i s = lmLoad d base off u s)
    (h : Issues s k w (base :: regGroup d (tyWords u)))
    (may : ∀ l, w.act.getLsbD l = true → MayReach s w.wg (tySize u) (lAddr w base off (tySize u) l) (tg l) (o l)) :
    WritesGroup i s k w d (tyWords u) (fun j l =>
      wordOf (tyExt u (leNat (locBytes s (lLoc s w.wg (lAddr w base off (tySize u) l) (tySize u)) (tySize u)))) j) := by
  obtain ⟨free, -⟩ := plain.issued k
  refine load_writes h quiet plain (tyWords_le u) (watch := true) (n := tySize u)
    (reader := fun own x t => readLocFor t w.wg own x (tySize u))
    (loc := fun l => lLoc s w.wg (lAddr w base off (tySize u) l) (tySize u)) (fun l => free.readLocFor ..)
    (fun l => mem_lanesOf.trans ⟨And.right, fun a => ⟨BitVec.lt_of_getLsbD a, a⟩⟩) hi ?_
  obtain ⟨sound, clean⟩ := lmBad_none fun l hl => (may l (mem_lanesOf.1 hl).2).issued k w
  have place (a : Word) : lLoc (issued s k w) w.wg a (tySize u) = lLoc s w.wg a (tySize u) := rfl
  simp only [clearPass_wg, clearPass_act, lAddr_clearPass, place, sound, clean]
  rfl
end

/-- Settles O14: every load by what its lanes read, which no check stops and which changes nothing but registers. -/
theorem loads : Obligations.Loads := by
  unfold Obligations.Loads
  refine ⟨fun s k w quiet plain d base off ty => ⟨fun i u form may issues => ?global,
    fun i u tg o form may issues => ?lm⟩, fun x => ?extended⟩
  case global =>
    obtain ⟨rfl, rfl⟩ | ⟨hint, rfl, rfl⟩ | ⟨scope, rfl, rfl⟩ | ⟨rfl, rfl, fresh⟩ := form
    · exact gLoad_writes quiet plain rfl (by simpa using issues) may
    · exact gLoad_writes quiet plain rfl (by simpa using issues) may
    · exact gLoad_writes quiet plain rfl (by simpa using issues) may
    · exact ldk_writes quiet plain (by simpa using issues) fresh may
  case lm =>
    have e : exec i s = lmLoad d base off u s := by obtain ⟨rfl, rfl⟩ | ⟨rfl, rfl⟩ := form <;> rfl
    obtain ⟨t, w1, ran, retires, wrote, p, flags⟩ := lmLoad_writes quiet plain e issues may
    have place {l : Nat} (active : w.act.getLsbD l = true) := lLoc_eq (may l active)
    refine ⟨t, w1, ran, retires, ⟨fun j hj l hl => ?_, wrote.kept, wrote.marks⟩, p, flags⟩
    rw [wrote.dest j hj l hl]
    split
    · split
      · next active => rw [place active]; rfl
      · rfl
    · cases lowest_ : lowest w.act with
      | none => rfl
      | some m => dsimp only; rw [place (lowest_mem lowest_)]; rfl
  case extended =>
    exact ⟨fun h => ⟨rfl, rfl, rfl, toNat_signExtend_ofNat h (by decide)⟩,
      fun h => ⟨rfl, rfl, rfl, toNat_signExtend_ofNat h (by decide)⟩, rfl, rfl, rfl, rfl, rfl, rfl⟩

end Sys2Proof.Machine

/-! PROOF. Stores (13 R185, R186, R192, 29 R408): what a run of lanes leaves at a place is the byte of the last of them that
touches it. -/

namespace Sys2Proof.Machine

/-! The bytes of registers (R2, R119). -/

/-- Byte i of a run of blocks of four bytes. -/
theorem getD_flatMap_four {f : Nat → List Byte} (four : ∀ j, (f j).length = 4) {m i : Nat} (hi : i < 4 * m) :
    ((List.range m).flatMap f).getD i 0 = (f (i / 4)).getD (i % 4) 0 := by
  induction m with
  | zero => omega
  | succ m ih =>
    have before : ((List.range m).flatMap f).length = 4 * m := by simp [List.length_flatMap, four, Nat.mul_comm]
    rw [List.range_succ, List.flatMap_append]
    by_cases low : i < 4 * m
    · rw [List.getD_append _ _ _ _ (by omega), ih low]
    · have block : i / 4 = m := by omega
      have inside : i - 4 * m = i % 4 := by omega
      rw [List.getD_append_right _ _ _ _ (by omega), before, block, inside]
      simp

theorem length_regBytes (w : Warp) (f : Fld) (n l : Nat) : (regBytes w f n l).length = n := by
  simp [regBytes, List.length_flatMap]
  omega

theorem getD_regBytes (w : Warp) (f : Fld) {n i : Nat} (l : Nat) (hi : i < n) :
    (regBytes w f n l).getD i 0 = storedByte w f l i := by
  have taken (bs : List Byte) : (bs.take n).getD i 0 = bs.getD i 0 := by
    simp [List.getD_eq_getElem?_getD, hi]
  rw [regBytes, taken, getD_flatMap_four (fun j => length_leBytes ..) (by omega),
    getD_leBytes (Nat.mod_lt _ (by decide)), storedByte]

theorem mem_regSpoilt {w : Warp} {f : Fld} {n l i : Nat} :
    i ∈ regSpoilt w f n l ↔ i < n ∧ spoiltAt w (f + BitVec.ofNat 8 (i / 4)) l = true := by
  unfold regSpoilt
  split
  · next none_ => simp [spoiltAt, List.isEmpty_iff.1 none_]
  · simp

/-! The last lane at a place. -/

theorem lastAt_append_singleton (ls : List Nat) (l : Nat) (place : Nat → Nat) (n a : Nat) :
    lastAt (ls ++ [l]) place n a = if place l ≤ a ∧ a < place l + n then some l else lastAt ls place n a := by
  simp only [lastAt, List.reverse_append, List.reverse_singleton, List.singleton_append, List.find?_cons]
  by_cases here : place l ≤ a ∧ a < place l + n
  · simp [here]
  · rw [if_neg here]
    split
    · next yes => simp at yes; exact absurd yes here
    · rfl

theorem lastAt_touches {ls : List Nat} {place : Nat → Nat} {n a l : Nat} (h : lastAt ls place n a = some l) :
    place l ≤ a ∧ a < place l + n := by
  simpa using List.find?_some h

/-! Stores to memory, lane after lane. -/

theorem poison_plainStore_iff (bs : List Byte) : ∀ (s : State) (a p : Nat),
    p ∈ (plainStore s a bs).poison ↔ p ∈ s.poison ∧ ¬ (a ≤ p ∧ p < a + bs.length) := by
  induction bs with
  | nil => intro s a p; simp [plainStore]
  | cons b r ih =>
    intro s a p
    rw [plainStore, ih]
    simp only [plainByte, cellByte, List.mem_filter, bne_iff_ne, List.length_cons, and_assoc]
    refine and_congr_right fun _ => ?_
    omega

section
variable {s : State} {loc : Nat → Loc} {data : Nat → List Byte} {bad : Nat → List Nat} {n : Nat} (wg : Nat)

theorem Undisturbed.foldl_laneStore (h : Undisturbed s) (ls : List Nat) :
    Undisturbed (ls.foldl (Machine.laneStore wg loc data bad) s) :=
  List.foldlRecOn (motive := Undisturbed) _ _ h fun _ hx l _ => hx.laneStore loc wg data bad l

/-- One lane's marks: those of its bytes that come from words beyond repair, and elsewhere those from before. -/
theorem mem_poison_laneStore (h : Undisturbed s) {l : Nat} (out : (loc l).lm = false)
    (within : ∀ i ∈ bad l, i < (data l).length) (a : Nat) : a ∈ (laneStore wg loc data bad s l).poison ↔
      if (loc l).pa ≤ a ∧ a < (loc l).pa + (data l).length then a - (loc l).pa ∈ bad l else a ∈ s.poison := by
  have stash (wg va : Nat) : stashAt (plainStore s (loc l).pa (data l)) wg va = none :=
    stashAt_none _ (h.plainStore ..).stash ..
  have marked : a ∈ (bad l).map (fun i => (loc l).pa + i) ↔ (loc l).pa ≤ a ∧ a - (loc l).pa ∈ bad l := by
    rw [List.mem_map]
    refine ⟨?_, fun ⟨low, mem⟩ => ⟨_, mem, by omega⟩⟩
    rintro ⟨i, hi, rfl⟩
    exact ⟨by omega, by rwa [Nat.add_sub_cancel_left]⟩
  have union : a ∈ (laneStore wg loc data bad s l).poison ↔
      a ∈ (plainStore s (loc l).pa (data l)).poison ∨ a ∈ (bad l).map (fun i => (loc l).pa + i) := by
    simp only [laneStore, locStore, out, Bool.false_eq_true, if_false, storePoison, stash]
    split
    · next none_ => simp [List.isEmpty_iff.1 none_]
    · simp only [List.mem_append, List.mem_filter, Bool.not_eq_true', ← Bool.not_eq_true, List.contains_iff_mem]
      tauto
  rw [union, marked, poison_plainStore_iff]
  split
  · next inside => simp [inside]
  · next outside =>
    refine ⟨fun h => h.elim And.left fun ⟨low, mem⟩ => absurd ⟨low, ?_⟩ outside, fun h => .inl ⟨h, outside⟩⟩
    have := within _ mem
    omega

/-- What the stores of some lanes leave in memory, of it and of its marks. -/
theorem foldl_laneStore_memory (h : Undisturbed s) (out : ∀ l, (loc l).lm = false) (size : ∀ l, (data l).length = n)
    (within : ∀ l, ∀ i ∈ bad l, i < n) (ls : List Nat) (a : Nat) :
    memByte (ls.foldl (laneStore wg loc data bad) s).mem a =
        (lastAt ls (fun l => (loc l).pa) n a).elim (memByte s.mem a) (fun l => (data l).getD (a - (loc l).pa) 0) ∧
      (a ∈ (ls.foldl (laneStore wg loc data bad) s).poison ↔
        (lastAt ls (fun l => (loc l).pa) n a).elim (a ∈ s.poison) (fun l => a - (loc l).pa ∈ bad l)) := by
  induction ls using List.reverseRecOn with
  | nil => exact ⟨rfl, Iff.rfl⟩
  | append_singleton ls l ih =>
    obtain ⟨bytes, marks⟩ := ih
    have before := h.foldl_laneStore (loc := loc) (data := data) (bad := bad) wg ls
    rw [List.foldl_append, List.foldl_cons, List.foldl_nil]
    generalize ls.foldl (laneStore wg loc data bad) s = u at bytes marks before
    have mem : (laneStore wg loc data bad u l).mem = memPuts u.mem (loc l).pa (data l) := by
      rw [laneStore, storePoison_rest, locStore, out]
      exact plainStore_mem ..
    rw [mem, memByte_memPuts, mem_poison_laneStore wg before (out l) (by rw [size]; exact within l), size,
      lastAt_append_singleton]
    split
    · exact ⟨rfl, Iff.rfl⟩
    · exact ⟨bytes, marks⟩

theorem onlyBytes_laneStore (out : ∀ l, (loc l).lm = false) (s : State) (l : Nat) :
    OnlyBytes s (laneStore wg loc data bad s l) := by
  have stored := OnlyBytes.plainStore s (loc l).pa (data l)
  have plain : locStore s (loc l) (data l) = plainStore s (loc l).pa (data l) := by rw [locStore, out]; rfl
  rw [laneStore, storePoison_rest, plain]
  generalize plainStore s (loc l).pa (data l) = t at stored
  exact ⟨stored.grids, by rw [stored.rest]⟩
end

/-! The record of stores to fabric memory (25 R349). -/

theorem noteStores_rest (s : State) (k : Nat) (w : Warp) (fab : Tbl (Nat × Nat)) : noteStores s k w fab =
    { s with grids := (noteStores s k w fab).grids, fresh := (noteStores s k w fab).fresh } := by
  unfold noteStores
  split
  · rfl
  · split <;> rfl

theorem noteStores_nil (s : State) (k : Nat) (w : Warp) : noteStores s k w [] = s := by
  unfold noteStores
  split <;> rfl

theorem noteStores_loads {s : State} {k : Nat} {w : Warp} {fab : Tbl (Nat × Nat)} {g : Grid}
    (grid : gridOfWg s w.wg = some g) (some_ : fab ≠ []) (plain : contOfWg s w.wg = false) :
    tget (noteStores s k w fab).grids (serialOf w.wg) =
      some { g with loads := g.loads ++ [⟨w.wg, k, w.kind, true, storePend s k w fab⟩] } := by
  have filled : fab.isEmpty = false := List.isEmpty_eq_false_iff.2 some_
  simp only [noteStores, grid, filled, plain, Bool.or_self, Bool.false_eq_true, if_false, setGrid, tget_tput_self]

/-- What a change of bytes leaves of a grid. -/
theorem OnlyBytes.grid {s t : State} (h : OnlyBytes s t) {n : Nat} {g : Grid} (hg : tget s.grids n = some g) :
    ∃ g1, tget t.grids n = some g1 ∧ g1 = { g with ldk := g1.ldk } := by
  have same := h.grids n
  rw [hg] at same
  cases there : tget t.grids n with
  | none => rw [there] at same; cases same
  | some g1 =>
    rw [there] at same
    refine ⟨g1, rfl, ?_⟩
    have e := congrArg (fun x : Grid => { x with ldk := g1.ldk }) (Option.some.inj same)
    exact e

/-! The stores. -/

section
variable {s : State} {k : Nat} {w : Warp} {d base off : Fld} {i : Instr}

/-- A store to global memory whose checks find nothing: its lanes store one after the other (R187, R192). -/
theorem does_gStore {u : BitVec 3} {loc : Nat → Loc} (plain : PlainMemory s w) (hi : exec i s = gStore d base off u s)
    (h : Issues s k w (pair base ++ regGroup d (tyWords u)))
    (place : loc = fun l => gLoc s w.wg (gAddr w base off (tySize u) l))
    (may : ∀ l, w.act.getLsbD l = true → MayAccess s w.wg needW (tySize u) (gAddr w base off (tySize u) l)) :
    Does i s k w (.next (noteStores ((kindOrder loc (lanesOf w.act)).foldl
      (laneStore w.wg loc (regBytes w d (tySize u)) (regSpoilt w d (tySize u))) (issued s k w)) k (clearPass w)
      (fabricLines loc (lanesOf w.act)))) := by
  obtain ⟨free, members⟩ := plain.issued k
  have does := does_of_laneWord h hi
  have sound := globalBad_none free (wg := w.wg) (n := needW) (size := tySize u) (ls := lanesOf w.act)
    (addr := gAddr w base off (tySize u)) (extra := fun _ => false)
    fun l hl => ⟨(may l (mem_lanesOf.1 hl).2).issued k w, rfl⟩
  have lanes := foldl_storeLane members k loc (regBytes w d (tySize u)) (regSpoilt w d (tySize u))
    (kindOrder loc (lanesOf w.act)) free
  have fabric := toFabric_eq free w.wg (ls := lanesOf w.act) (loc := loc) fun l => by rw [place]; rfl
  have whole : (lanesOf w.act).filter (fun l => !(Machine.members (clearPass w)).getLsbD l) = lanesOf w.act := by
    simp [members]
  have same : (fun l => gLoc (issued s k w) w.wg (gAddr w base off (tySize u) l)) = loc := place.symm
  rw [clearPass_wg] at lanes
  simp only [clearPass_wg, clearPass_act, gAddr_clearPass, regBytes_clearPass, regSpoilt_clearPass, sound, whole, same,
    fabric, lanes] at does
  exact does
end

/-! Stores to LM, lane after lane. -/

/-- The bytes that a store leaves in LM, of its workgroup and of every other. -/
theorem lmStore_bytes {s : State} (wg off : Nat) (bs : List Byte) {j : Nat} {g : Workgroup} (hg : tget s.wgs j = some g) :
    ∃ g1, tget (lmStore s wg off bs).wgs j = some g1 ∧ g1 = { g with lm := g1.lm } ∧
      ∀ x, tgetD 0 g1.lm x =
        if wg = j ∧ off ≤ x ∧ x < off + bs.length then bs.getD (x - off) 0 else tgetD 0 g.lm x := by
  rw [tget_lmStore, hg, Option.map_some]
  by_cases own : j = wg
  · refine ⟨_, rfl, by rw [if_pos own], fun x => ?_⟩
    rw [if_pos own]
    by_cases low : off ≤ x
    · obtain ⟨i, rfl⟩ := Nat.exists_eq_add_of_le low
      have put := tgetD_foldl_tputD 0 (fun i => bs.getD i 0) (off + ·) (fun _ _ e => Nat.add_left_cancel e)
        (List.range bs.length) g.lm i
      rw [put]
      simp [own]
    · have put := tgetD_foldl_tputD_ne 0 (fun i => bs.getD i 0) (off + ·) x (List.range bs.length) g.lm
        (fun i _ => by omega)
      rw [put, if_neg fun h => low h.2.1]
  · exact ⟨g, by rw [if_neg own], rfl, fun x => by rw [if_neg fun h => own h.1.symm]⟩

section
variable {s : State} {loc : Nat → Loc} {data : Nat → List Byte} {bad : Nat → List Nat} {n : Nat} (wg : Nat)

/-- Lanes that store to LM change LM and marks alone. -/
theorem foldl_laneStore_lm_rest (ls : List Nat) (here : ∀ l ∈ ls, (loc l).lm = true) (s : State) :
    ls.foldl (laneStore wg loc data bad) s = { s with
      wgs := (ls.foldl (laneStore wg loc data bad) s).wgs, poison := (ls.foldl (laneStore wg loc data bad) s).poison } := by
  induction ls generalizing s with
  | nil => rfl
  | cons l r ih =>
    have one : laneStore wg loc data bad s l = { s with
        wgs := (laneStore wg loc data bad s l).wgs, poison := (laneStore wg loc data bad s l).poison } := by
      have stored := lmStore_rest s (loc l).wg (loc l).va (data l)
      have inLm : locStore s (loc l) (data l) = lmStore s (loc l).wg (loc l).va (data l) := if_pos (here l (.head _))
      rw [laneStore, storePoison_rest, inLm]
      generalize lmStore s (loc l).wg (loc l).va (data l) = t at stored
      rw [stored]
    have rest := ih (fun l hl => here l (.tail _ hl)) (laneStore wg loc data bad s l)
    rw [List.foldl_cons]
    generalize laneStore wg loc data bad s l = t at one rest
    generalize r.foldl (laneStore wg loc data bad) t = u at rest
    rw [rest, one]

/-- What the stores of some lanes leave in the LM of a workgroup. -/
theorem foldl_laneStore_lm {tg o : Nat → Nat} (size : ∀ l, (data l).length = n) (ls : List Nat)
    (here : ∀ l ∈ ls, (loc l).lm = true ∧ (loc l).wg = tg l ∧ (loc l).va = o l) {j : Nat} {g : Workgroup}
    (hg : tget s.wgs j = some g) :
    ∃ g1, tget (ls.foldl (laneStore wg loc data bad) s).wgs j = some g1 ∧ g1 = { g with lm := g1.lm } ∧
      ∀ x, tgetD 0 g1.lm x = (lastAt (ls.filter (fun l => tg l == j)) o n x).elim (tgetD 0 g.lm x)
        (fun l => (data l).getD (x - o l) 0) := by
  induction ls using List.reverseRecOn with
  | nil => exact ⟨g, hg, rfl, fun _ => rfl⟩
  | append_singleton ls l ih =>
    obtain ⟨g1, hg1, e1, bytes1⟩ := ih fun l hl => here l (List.mem_append_left _ hl)
    obtain ⟨lm, target, off⟩ := here l (List.mem_append_right _ (.head _))
    obtain ⟨g2, hg2, e2, bytes2⟩ := lmStore_bytes (tg l) (o l) (data l) hg1
    refine ⟨g2, ?_, by rw [e2, e1], fun x => ?_⟩
    · rw [List.foldl_append, List.foldl_cons, List.foldl_nil, laneStore, storePoison_rest, locStore, lm, target, off]
      exact hg2
    · rw [bytes2, size, List.filter_append]
      by_cases own : tg l = j
      · have kept : [l].filter (fun l => tg l == j) = [l] := by simp [own]
        rw [kept, lastAt_append_singleton]
        by_cases inside : o l ≤ x ∧ x < o l + n
        · rw [if_pos ⟨own, inside⟩, if_pos inside]; rfl
        · rw [if_neg fun h => inside h.2, if_neg inside, bytes1]
      · have gone : [l].filter (fun l => tg l == j) = [] := by simp [own]
        rw [gone, List.append_nil, if_neg fun h => own h.1, bytes1]
end

section
variable {s : State} {k : Nat} {w : Warp} {d base off : Fld} {i : Instr}

/-- A store to LM whose checks find nothing: its lanes store one after the other in ascending order (R187). -/
theorem does_lmStoreW {u : BitVec 3} {tg o : Nat → Nat} (plain : PlainMemory s w)
    (hi : exec i s = lmStoreW d base off u s)
    (h : Issues s k w (base :: regGroup d (tyWords u)))
    (may : ∀ l, w.act.getLsbD l = true → MayReach s w.wg (tySize u) (lAddr w base off (tySize u) l) (tg l) (o l)) :
    Does i s k w (.next ((lanesOf w.act).foldl (laneStore w.wg
      (fun l => lLoc s w.wg (lAddr w base off (tySize u) l) (tySize u))
      (regBytes w d (tySize u)) (regSpoilt w d (tySize u))) (issued s k w))) := by
  obtain ⟨free, members⟩ := plain.issued k
  have does := does_of_laneWord h hi
  have sound := (lmBad_none fun l hl => (may l (mem_lanesOf.1 hl).2).issued k w).1
  have place (a : Word) : lLoc (issued s k w) w.wg a (tySize u) = lLoc s w.wg a (tySize u) := rfl
  have lanes := foldl_storeLane members k (fun l => lLoc s w.wg (lAddr w base off (tySize u) l) (tySize u))
    (regBytes w d (tySize u)) (regSpoilt w d (tySize u)) (lanesOf w.act) free
  rw [clearPass_wg] at lanes
  simp only [clearPass_wg, clearPass_act, lAddr_clearPass, regBytes_clearPass, regSpoilt_clearPass, place, sound, lanes]
    at does
  exact does

/-- A store to global memory (R192, R408). -/
theorem gStore_stores {u : BitVec 3} {loc : Nat → Loc} (quiet : w.sstep = false) (plain : PlainMemory s w)
    (hi : exec i s = gStore d base off u s) (h : Issues s k w (pair base ++ regGroup d (tyWords u)))
    (place : loc = fun l => gLoc s w.wg (gAddr w base off (tySize u) l))
    (may : ∀ l, w.act.getLsbD l = true → MayAccess s w.wg needW (tySize u) (gAddr w base off (tySize u) l)) :
    ∃ u0 t w1, exec i s = .next t ∧ OnlyBytes (issued s k w) u0 ∧
      t = countRetired (setWarp (noteStores u0 k (clearPass w) (fabricLines loc (lanesOf w.act))) k w1) w.wg ∧
      GoesOn w w1 ∧ SameRegs w w1 ∧ w1.p = w.p ∧ w1.flags = w.flags ∧ ∀ a,
        memByte u0.mem a = (lastAt (kindOrder loc (lanesOf w.act)) (fun l => (loc l).pa) (tySize u) a).elim
          (memByte s.mem a) (fun l => storedByte w d l (a - (loc l).pa)) ∧
        (a ∈ u0.poison ↔ (lastAt (kindOrder loc (lanesOf w.act)) (fun l => (loc l).pa) (tySize u) a).elim
          (a ∈ s.poison) (fun l => spoiltAt w (d + BitVec.ofNat 8 ((a - (loc l).pa) / 4)) l = true)) := by
  have does := does_gStore plain hi h place may
  have out (l : Nat) : (loc l).lm = false := by rw [place]; rfl
  have stores (a : Nat) := foldl_laneStore_memory w.wg (bad := regSpoilt w d (tySize u)) (plain.issued k).1 out
    (fun l => length_regBytes w d (tySize u) l) (fun _ _ hi => (mem_regSpoilt.1 hi).1) (kindOrder loc (lanesOf w.act)) a
  have bytes : OnlyBytes (issued s k w) ((kindOrder loc (lanesOf w.act)).foldl
      (laneStore w.wg loc (regBytes w d (tySize u)) (regSpoilt w d (tySize u))) (issued s k w)) :=
    OnlyBytes.foldl (onlyBytes_laneStore w.wg out) _ _
  generalize (kindOrder loc (lanesOf w.act)).foldl
    (laneStore w.wg loc (regBytes w d (tySize u)) (regSpoilt w d (tySize u))) (issued s k w) = u0 at does stores bytes
  have slot : tget (noteStores u0 k (clearPass w) (fabricLines loc (lanesOf w.act))).warps k = some (clearPass w) := by
    rw [noteStores_rest, bytes.warps]
    exact tget_tput_self ..
  obtain ⟨ran, goes⟩ := retires_of_does does slot ((clearPass_sstep w).trans quiet) plain.noMember rfl (clearPass_act w)
  refine ⟨u0, _, _, ran, bytes, rfl, goes, sameRegs_goOn (clearPass_v w) (clearPass_w w) (clearPass_spoilt w) _, ?_, ?_,
    fun a => ?_⟩
  · rw [goOn_other]; exact clearPass_p w
  · rw [goOn_other]; exact clearPass_flags w
  · rw [(stores a).1, (stores a).2]
    cases touched : lastAt (kindOrder loc (lanesOf w.act)) (fun l => (loc l).pa) (tySize u) a with
    | none => exact ⟨rfl, Iff.rfl⟩
    | some l =>
      have within := lastAt_touches touched
      exact ⟨getD_regBytes w d l (by omega), mem_regSpoilt.trans (and_iff_right (by omega))⟩
end

/-- Settles O15: a store to memory by the last lane at each place, with the record of what goes to fabric memory; a store
to LM the same in each workgroup's LM. -/
theorem stores : Obligations.Stores := by
  unfold Obligations.Stores
  refine fun s k w quiet plain d base off ty => ⟨?global, fun i u tg o form may issues => ?lm⟩
  case global =>
    intro i u form loc may issues
    have e : exec i s = gStore d base off u s := by
      obtain ⟨rfl, rfl⟩ | ⟨hint, rfl, rfl⟩ | ⟨scope, rfl, rfl⟩ := form <;> rfl
    obtain ⟨u0, t, w1, ran, bytes, ht, goes, regs, p, flags, held⟩ :=
      gStore_stores quiet plain e issues (loc := loc) rfl may
    have only := onlyWarp_count (noteStores u0 k (clearPass w) (fabricLines loc (lanesOf w.act))) k w w1
    rw [← ht] at only
    have noted := noteStores_rest u0 k (clearPass w) (fabricLines loc (lanesOf w.act))
    refine ⟨t, w1, ran, only.slot, goes, regs, p, flags, fun a => ?_, fun a => ?_, ?_, fun near => ?_,
      fun g grid cont fabric => ?_⟩
    · rw [only.mem, noted, (held a).1]
      cases lastAt (kindOrder loc (lanesOf w.act)) (fun l => (loc l).pa) (tySize u) a <;> rfl
    · rw [only.rest, noted, (held a).2]
      cases lastAt (kindOrder loc (lanesOf w.act)) (fun l => (loc l).pa) (tySize u) a <;> rfl
    · rw [only.rest, noted, bytes.rest]
      rfl
    · rw [fabricLines_nil fun l hl => near l (mem_lanesOf.1 hl).2, noteStores_nil] at ht
      exact ht ▸ onlyMemory_retired bytes w1
    · obtain ⟨l, active, far⟩ := fabric
      have some_ := fabricLines_ne_nil (lanesOf_of_getLsbD active) far
      obtain ⟨g0, hg0, e0⟩ := bytes.grid (n := serialOf w.wg) grid
      have own : gridOfWg u0 (clearPass w).wg = some g0 := by rw [clearPass_wg]; exact hg0
      have cont0 : contOfWg u0 (clearPass w).wg = false := by rw [clearPass_wg, bytes.cont]; exact cont
      have loads := noteStores_loads (k := k) own some_ cont0
      have grids : t.grids = (noteStores u0 k (clearPass w) (fabricLines loc (lanesOf w.act))).grids := by rw [only.rest]
      have before : g0.loads = g.loads := by rw [e0]
      rw [clearPass_wg, ← grids, before] at loads
      exact ⟨_, _, loads, rfl, rfl, rfl, rfl⟩
  case lm =>
    have e : exec i s = lmStoreW d base off u s := by obtain ⟨rfl, rfl⟩ | ⟨rfl, rfl⟩ := form <;> rfl
    have does := does_lmStoreW plain e issues may
    have here (l : Nat) (hl : l ∈ lanesOf w.act) := lLoc_place (may l (mem_lanesOf.1 hl).2)
    have rest := foldl_laneStore_lm_rest (loc := fun l => lLoc s w.wg (lAddr w base off (tySize u) l) (tySize u))
      (data := regBytes w d (tySize u)) (bad := regSpoilt w d (tySize u)) w.wg (lanesOf w.act)
      (fun l hl => (here l hl).1) (issued s k w)
    have lm (j : Nat) (g : Workgroup) (hg : tget s.wgs j = some g) := foldl_laneStore_lm (s := issued s k w)
      (bad := regSpoilt w d (tySize u)) w.wg (length_regBytes w d (tySize u)) (lanesOf w.act) here hg
    generalize (lanesOf w.act).foldl (laneStore w.wg _ _ _) (issued s k w) = u0 at does rest lm
    have slot : tget u0.warps k = some (clearPass w) := by rw [rest]; exact tget_tput_self ..
    obtain ⟨ran, goes⟩ := retires_of_does does slot ((clearPass_sstep w).trans quiet) plain.noMember rfl (clearPass_act w)
    have only := onlyWarp_count u0 k w (goOn (clearPass w) (clearPass w))
    refine ⟨_, _, ran, only.slot, fun j hj => ?_, goes,
      sameRegs_goOn (clearPass_v w) (clearPass_w w) (clearPass_spoilt w) _, ?_, ?_, ?_, fun j g hg => ?_⟩
    · rw [only.warps j hj, rest]; exact tget_tput_ne _ _ hj.symm
    · rw [goOn_other]; exact clearPass_p w
    · rw [goOn_other]; exact clearPass_flags w
    · rw [only.rest, rest]; rfl
    · obtain ⟨g1, hg1, e1, bytes⟩ := lm j g hg
      have byte (x : Nat) : tgetD 0 g1.lm x =
          match lastAt ((lanesOf w.act).filter (fun l => tg l == j)) o (tySize u) x with
          | some l => storedByte w d l (x - o l)
          | none => tgetD 0 g.lm x := by
        rw [bytes]
        cases touched : lastAt ((lanesOf w.act).filter (fun l => tg l == j)) o (tySize u) x with
        | none => rfl
        | some l => have within := lastAt_touches touched; exact getD_regBytes w d l (by omega)
      by_cases own : j = w.wg
      · subst own
        exact ⟨_, only.count g1 hg1, by rw [e1, if_pos rfl], byte⟩
      · exact ⟨g1, (only.wgs j own).trans hg1, by rw [e1, if_neg own]; rfl, byte⟩

end Sys2Proof.Machine

/-! PROOF. Atomics (13 R193 to R195): lane after lane, each on what the lanes before it have left. -/

namespace Sys2Proof.Machine

/-! Atomics on memory. -/

/-- One lane's atomic on memory: what its place held, and what the operation makes of it. -/
def memAtomic (loc : Nat → Loc) (n : Nat) (op : Nat → Nat → Option Nat) (x : List Host.Cell × Tbl Nat) (l : Nat) :
    List Host.Cell × Tbl Nat :=
  let old := memNat x.1 (loc l).pa n
  ((op l old).elim x.1 (fun v => memPuts x.1 (loc l).pa (leBytes n v)), tput x.2 l old)

/-- Each lane that has performed its atomic has a value. -/
theorem tget_foldl_laneAtomic (loc : Nat → Loc) (n : Nat) (op : Nat → Nat → Option Nat) (ls : List Nat)
    (x : State × Tbl Nat) (l : Nat) : (tget (ls.foldl (laneAtomic loc n op) x).2 l).isSome = true ↔
      l ∈ ls ∨ (tget x.2 l).isSome = true := by
  induction ls generalizing x with
  | nil => simp
  | cons m r ih =>
    rw [List.foldl_cons, ih, laneAtomic, tget_tput, List.mem_cons]
    by_cases own : m = l
    · simp [own]
    · rw [if_neg own]
      have apart : l ≠ m := Ne.symm own
      tauto

section
variable {loc : Nat → Loc} (out : ∀ l, (loc l).lm = false) (n : Nat) (op : Nat → Nat → Option Nat)
include out

theorem locBytes_mem (s : State) (l : Nat) : locBytes s (loc l) n = memBytes s.mem (loc l).pa n := by
  rw [locBytes, out]
  rfl

theorem locStore_mem (s : State) (l : Nat) (bs : List Byte) : locStore s (loc l) bs = plainStore s (loc l).pa bs := by
  rw [locStore, out]
  rfl

/-- One atomic on memory: what it returns and leaves there, and that it changes nothing else. -/
theorem laneAtomic_mem (x : State × Tbl Nat) (l : Nat) :
    ((laneAtomic loc n op x l).1.mem, (laneAtomic loc n op x l).2) = memAtomic loc n op (x.1.mem, x.2) l ∧
      OnlyBytes x.1 (laneAtomic loc n op x l).1 ∧ ∀ a, a < (loc l).pa ∨ (loc l).pa + n ≤ a →
        memByte (laneAtomic loc n op x l).1.mem a = memByte x.1.mem a := by
  simp only [laneAtomic, memAtomic, locBytes_mem out, locStore_mem out, memNat]
  cases op l (leNat (memBytes x.1.mem (loc l).pa n)) with
  | none => exact ⟨rfl, OnlyBytes.refl _, fun _ _ => rfl⟩
  | some v =>
    simp only [Option.elim, plainStore_mem]
    refine ⟨trivial, OnlyBytes.plainStore .., fun a apart => ?_⟩
    rw [memByte_memPuts, length_leBytes, if_neg (by omega)]

/-- The atomics of some lanes on memory. -/
theorem foldl_laneAtomic_mem (ls : List Nat) (x : State × Tbl Nat) :
    ((ls.foldl (laneAtomic loc n op) x).1.mem, (ls.foldl (laneAtomic loc n op) x).2) =
        ls.foldl (memAtomic loc n op) (x.1.mem, x.2) ∧
      OnlyBytes x.1 (ls.foldl (laneAtomic loc n op) x).1 ∧
      ∀ a, (∀ l ∈ ls, a < (loc l).pa ∨ (loc l).pa + n ≤ a) →
        memByte (ls.foldl (laneAtomic loc n op) x).1.mem a = memByte x.1.mem a := by
  induction ls generalizing x with
  | nil => exact ⟨rfl, OnlyBytes.refl _, fun _ _ => rfl⟩
  | cons l r ih =>
    obtain ⟨one, bytes, kept⟩ := laneAtomic_mem out n op x l
    obtain ⟨all, more, rest⟩ := ih (laneAtomic loc n op x l)
    refine ⟨all.trans (by rw [one]; rfl), bytes.trans more, fun a apart => ?_⟩
    exact (rest a fun m hm => apart m (.tail _ hm)).trans (kept a (apart l (.head _)))
end

section
variable {s : State} {k : Nat} {w : Warp} {d base off : Fld} {i : Instr}

/-- How a word ends that returns values to registers (R67, R182): the state and the warp are those that the load leaves. -/
theorem loadInto_retires {u : State} {words : Nat} {vs : Tbl Nat} {fab : Tbl (Nat × Nat)} (quiet : w.sstep = false)
    (free : NoMember w) (slot : tget u.warps k = some (clearPass w))
    (does : Does i s k w (.next (loadInto u k (clearPass w) d words vs fab))) :
    ∃ t w1, Loaded u (clearPass w) w.wg d words vs fab t w1 ∧
      exec i s = .next (countRetired (setWarp t k (goOn (clearPass w) w1)) w.wg) ∧ GoesOn w (goOn (clearPass w) w1) ∧
      (goOn (clearPass w) w1).p = w.p ∧ (goOn (clearPass w) w1).flags = w.flags := by
  obtain ⟨t, w1, e, loaded⟩ := loadInto_spec (w0 := clearPass w) slot d words vs fab
  rw [e] at does
  have sstep : w1.sstep = false := by rw [loaded.other]; exact (clearPass_sstep w).trans quiet
  have threads : w1.threads = (clearPass w).threads := by rw [loaded.other]
  have act : w1.act = w.act := by rw [loaded.other]; exact clearPass_act w
  obtain ⟨ran, goes⟩ := retires_of_does does (tget_tput_self ..) sstep free threads act
  rw [setWarp_setWarp] at ran
  rw [clearPass_wg] at loaded
  refine ⟨t, w1, loaded, ran, goes, ?_, ?_⟩
  · rw [goOn_other, loaded.other]; exact clearPass_p w
  · rw [goOn_other, loaded.other]; exact clearPass_flags w

/-- Values that a word returns at once stand in its registers. -/
theorem Loaded.wrote {u t : State} {w1 : Warp} {words : Nat} {vs : Tbl Nat} {fab : Tbl (Nat × Nat)}
    (h : Loaded u (clearPass w) w.wg d words vs fab t w1) (few : words ≤ 256) (now : fab = [] ∨ contOfWg u w.wg = true)
    (keys : ∀ l, (tget vs l).isSome = true ↔ w.act.getLsbD l = true) :
    WroteGroup w (goOn (clearPass w) w1) d words (fun j l => wordOf (tgetD 0 vs l) j) := by
  have e := h.now now
  rw [loadGroup, maskOf_keys keys] at e
  refine wroteGroup_writeGroup (f := fun j l => wordOf (tgetD 0 vs l) j) few ?_ ?_ ?_ fun _ _ _ _ => rfl
  · rw [goOn_v, e]
  · rw [goOn_w, e]
  · rw [goOn_spoilt, e]

/-- An atomic in global memory whose checks find nothing: its lanes perform it one after the other (R187, R193). -/
theorem does_gAtom {n : Nat} {pcie : Bool} {regs : List Fld} {op : Warp → Nat → Nat → Option Nat} {loc : Nat → Loc}
    (plain : PlainMemory s w) (hi : exec i s = gAtom s regs d base off n pcie op)
    (h : Issues s k w (pair base ++ regGroup d (n / 4) ++ regs)) (same : op (clearPass w) = op w)
    (place : loc = fun l => gLoc s w.wg (gAddr w base off n l))
    (may : ∀ l, w.act.getLsbD l = true → MayAccess s w.wg needRW n (gAddr w base off n l) ∧ (loc l).ord ≠ 2 ∧
      ((loc l).ord = 1 → isHost (loc l).pa = true → pcie = true)) :
    Does i s k w (.next (loadInto ((kindOrder loc (lanesOf w.act)).foldl (laneAtomic loc n (op w)) (issued s k w, [])).1 k
      (clearPass w) d (n / 4) ((kindOrder loc (lanesOf w.act)).foldl (laneAtomic loc n (op w)) (issued s k w, [])).2
      (fabricLines loc (lanesOf w.act)))) := by
  obtain ⟨free, members⟩ := plain.issued k
  have does := does_of_laneWord h hi
  have able (l : Nat) (active : w.act.getLsbD l = true) :
      ((loc l).ord == 2 || ((loc l).ord == 1 && isHost (loc l).pa && !pcie)) = false := by
    obtain ⟨-, no, host⟩ := may l active
    have two : ((loc l).ord == 2) = false := beq_eq_false_iff_ne.2 no
    rw [two, Bool.false_or]
    cases one : (loc l).ord == 1
    · rfl
    · cases there : isHost (loc l).pa
      · rfl
      · rw [host (beq_iff_eq.1 one) there]; rfl
  have sound := globalBad_none free (wg := w.wg) (n := needRW) (size := n) (ls := lanesOf w.act)
    (addr := gAddr w base off n) (extra := fun l => (loc l).ord == 2 || ((loc l).ord == 1 && isHost (loc l).pa && !pcie))
    fun l hl => ⟨(may l (mem_lanesOf.1 hl).2).1.issued k w, able l (mem_lanesOf.1 hl).2⟩
  have lanes := foldl_atomLane members k loc n (op w) (kindOrder loc (lanesOf w.act)) free []
  have fabric := toFabric_eq free w.wg (ls := lanesOf w.act) (loc := loc) fun l => by rw [place]; rfl
  have own : (fun l => gLoc (issued s k w) w.wg (gAddr w base off n l)) = loc := place.symm
  have at_ (l : Nat) : gLoc (issued s k w) w.wg (gAddr w base off n l) = loc l := congrFun own l
  simp only [clearPass_wg, clearPass_act, gAddr_clearPass, at_, sound, fabric, lanes, same] at does
  simp only [badEff, gotEff, id, List.map_id'] at does
  exact does
end

/-! Atomics on LM. -/

/-- What stands in LM does not depend on the warps. -/
theorem lmStore_warps (s : State) (ws : Tbl Warp) (wg off : Nat) (bs : List Byte) :
    lmStore { s with warps := ws } wg off bs = { lmStore s wg off bs with warps := ws } := by
  unfold lmStore
  cases tget s.wgs wg <;> rfl

/-- One lane's atomic in LM, at an offset of a workgroup's LM. -/
def lmAtomic (tg o : Nat → Nat) (n : Nat) (op : Nat → Nat → Nat) (x : State × Tbl Nat) (l : Nat) :
    State × Tbl Nat :=
  let old := leNat (lmBytes x.1 (tg l) (o l) n)
  (lmStore x.1 (tg l) (o l) (leBytes n (op l old)), tput x.2 l old)

theorem foldl_laneAtomic_lm {loc : Nat → Loc} {tg o : Nat → Nat} (n : Nat) (op : Nat → Nat → Nat) (ws : Tbl Warp)
    (ls : List Nat) (here : ∀ l ∈ ls, (loc l).lm = true ∧ (loc l).wg = tg l ∧ (loc l).va = o l) (x : State × Tbl Nat) :
    ls.foldl (laneAtomic loc n (fun l old => some (op l old))) ({ x.1 with warps := ws }, x.2) =
      ({ (ls.foldl (lmAtomic tg o n op) x).1 with warps := ws }, (ls.foldl (lmAtomic tg o n op) x).2) := by
  induction ls generalizing x with
  | nil => rfl
  | cons l r ih =>
    obtain ⟨lm, target, off⟩ := here l (.head _)
    have one : laneAtomic loc n (fun l old => some (op l old)) ({ x.1 with warps := ws }, x.2) l =
        ({ (lmAtomic tg o n op x l).1 with warps := ws }, (lmAtomic tg o n op x l).2) := by
      simp only [laneAtomic, locBytes, locStore, lm, target, off, if_true, Option.elim, lmStore_warps]
      rfl
    rw [List.foldl_cons, one, ih (fun m hm => here m (.tail _ hm)), List.foldl_cons]

/-- Lanes that perform atomics in LM change LM and marks alone. -/
theorem foldl_lmAtomic_rest (tg o : Nat → Nat) (n : Nat) (op : Nat → Nat → Nat) (ls : List Nat) (x : State × Tbl Nat) :
    (ls.foldl (lmAtomic tg o n op) x).1 = { x.1 with
      wgs := (ls.foldl (lmAtomic tg o n op) x).1.wgs, poison := (ls.foldl (lmAtomic tg o n op) x).1.poison } := by
  induction ls generalizing x with
  | nil => rfl
  | cons l r ih =>
    have one := lmStore_rest x.1 (tg l) (o l) (leBytes n (op l (leNat (lmBytes x.1 (tg l) (o l) n))))
    have rest := ih (lmAtomic tg o n op x l)
    change (lmAtomic tg o n op x l).1 = _ at one
    rw [List.foldl_cons]
    generalize lmAtomic tg o n op x l = y at one rest
    generalize (r.foldl (lmAtomic tg o n op) y).1 = u at rest
    rw [rest, one]

/-- RETIRED is no part of LM. -/
theorem lm_countRetired (s : State) (wg j : Nat) :
    (tget (countRetired s wg).wgs j).map (·.lm) = (tget s.wgs j).map (·.lm) := by
  cases hg : tget s.wgs wg with
  | none => simp only [countRetired, hg]
  | some g =>
    rw [countRetired_eq hg, setWg_wgs, tget_tput]
    by_cases own : wg = j
    · subst own; simp [hg]
    · simp [own]

/-! The operations (R193). -/

/-- The order of signed values is that of the values moved by half the range. -/
theorem signed_lt {b : Nat} (width : b = 32 ∨ b = 64) {x y : Nat} (hx : x < 2 ^ b) (hy : y < 2 ^ b) :
    (x + 2 ^ (b - 1)) % 2 ^ b < (y + 2 ^ (b - 1)) % 2 ^ b ↔ (BitVec.ofNat b x).toInt < (BitVec.ofNat b y).toInt := by
  simp only [BitVec.toInt_eq_toNat_cond, BitVec.toNat_ofNat, Nat.mod_eq_of_lt hx, Nat.mod_eq_of_lt hy]
  rcases width with rfl | rfl <;> simp only [Nat.reducePow, Nat.reduceSub] at * <;> omega

/-- The operations of the atomics on values of b bits. -/
theorem atomOp_spec {b old v : Nat} (width : b = 32 ∨ b = 64) (ho : old < 2 ^ b) (hv : v < 2 ^ b) (sg : Bool) :
    let x : BitVec b := BitVec.ofNat b old
    let y : BitVec b := BitVec.ofNat b v
    atomOp 0 sg b old v = (x + y).toNat ∧ atomOp 1 sg b old v = (x &&& y).toNat ∧
    atomOp 2 sg b old v = (x ||| y).toNat ∧ atomOp 3 sg b old v = (x ^^^ y).toNat ∧
    atomOp 4 false b old v = min old v ∧ atomOp 5 false b old v = max old v ∧
    (BitVec.ofNat b (atomOp 4 true b old v)).toInt = min x.toInt y.toInt ∧
    (BitVec.ofNat b (atomOp 5 true b old v)).toInt = max x.toInt y.toInt ∧
    atomOp 6 sg b old v = v ∧
    atomOp 7 sg b old v = (if v ≤ old then 0 else old + 1) ∧
    atomOp 8 sg b old v = (if old = 0 ∨ v < old then v else old - 1) := by
  intro x y
  have hx : x.toNat = old := (BitVec.toNat_ofNat ..).trans (Nat.mod_eq_of_lt ho)
  have hy : y.toNat = v := (BitVec.toNat_ofNat ..).trans (Nat.mod_eq_of_lt hv)
  have below := signed_lt width hv ho
  have above := signed_lt width ho hv
  refine ⟨?_, ?_, ?_, ?_, ?_, ?_, ?_, ?_, rfl, rfl, rfl⟩
  · rw [BitVec.toNat_add, hx, hy]; rfl
  · rw [BitVec.toNat_and, hx, hy]; rfl
  · rw [BitVec.toNat_or, hx, hy]; rfl
  · rw [BitVec.toNat_xor, hx, hy]; rfl
  · show (if v < old then v else old) = _
    split <;> omega
  · show (if old < v then v else old) = _
    split <;> omega
  · show (BitVec.ofNat b (if (v + 2 ^ (b - 1)) % 2 ^ b < (old + 2 ^ (b - 1)) % 2 ^ b then v else old)).toInt = _
    split
    · next less => exact (min_eq_right (below.1 less).le).symm
    · next more => exact (min_eq_left (not_lt.1 (mt below.2 more))).symm
  · show (BitVec.ofNat b (if (old + 2 ^ (b - 1)) % 2 ^ b < (v + 2 ^ (b - 1)) % 2 ^ b then v else old)).toInt = _
    split
    · next less => exact (max_eq_right (above.1 less).le).symm
    · next more => exact (max_eq_left (not_lt.1 (mt above.2 more))).symm

section
variable {s : State} {k : Nat} {w : Warp} {d base off : Fld} {i : Instr}

/-- An atomic in global memory (R178, R193, R195): its values in registers, or outstanding where a lane's place is in fabric
memory and the grid is not in continuity mode. -/
theorem gAtom_performs {n : Nat} {pcie : Bool} {regs : List Fld} {op : Warp → Nat → Nat → Option Nat}
    {loc : Nat → Loc} (quiet : w.sstep = false) (plain : PlainMemory s w) (few : n / 4 ≤ 256)
    (hi : exec i s = gAtom s regs d base off n pcie op)
    (h : Issues s k w (pair base ++ regGroup d (n / 4) ++ regs)) (same : op (clearPass w) = op w)
    (place : loc = fun l => gLoc s w.wg (gAddr w base off n l))
    (may : ∀ l, w.act.getLsbD l = true → MayAccess s w.wg needRW n (gAddr w base off n l) ∧ (loc l).ord ≠ 2 ∧
      ((loc l).ord = 1 → isHost (loc l).pa = true → pcie = true)) :
    let run := (kindOrder loc (lanesOf w.act)).foldl (memAtomic loc n (op w)) (s.mem, [])
    let remote : Prop := ∃ l, w.act.getLsbD l = true ∧ isFabric (loc l).pa = true
    ∃ t w1, exec i s = .next t ∧ tget t.warps k = some w1 ∧ GoesOn w w1 ∧ t.mem = run.1 ∧ w1.p = w.p ∧
      w1.flags = w.flags ∧
      (∀ a, (∀ l, w.act.getLsbD l = true → a < (loc l).pa ∨ (loc l).pa + n ≤ a) → memByte t.mem a = memByte s.mem a) ∧
      (¬ remote → OnlyMemory s t k w w1) ∧
      (¬ remote ∨ contOfWg s w.wg = true → WroteGroup w w1 d (n / 4) (fun j l => wordOf (tgetD 0 run.2 l) j)) ∧
      (remote → contOfWg s w.wg = false →
        SameRegs w w1 ∧ ∀ j < n / 4, anyPending w1 [d + BitVec.ofNat 8 j] = true) := by
  intro run remote
  have does := does_gAtom plain hi h same place may
  have out (l : Nat) : (loc l).lm = false := by rw [place]; rfl
  obtain ⟨both, bytes, kept⟩ := foldl_laneAtomic_mem out n (op w) (kindOrder loc (lanesOf w.act)) (issued s k w, [])
  have keys (l : Nat) := tget_foldl_laneAtomic loc n (op w) (kindOrder loc (lanesOf w.act)) (issued s k w, []) l
  generalize (kindOrder loc (lanesOf w.act)).foldl (laneAtomic loc n (op w)) (issued s k w, []) = x
    at does both bytes kept keys
  obtain ⟨u, vs⟩ := x
  have lanes (l : Nat) : (tget vs l).isSome = true ↔ w.act.getLsbD l = true := by
    rw [keys, mem_kindOrder]
    exact ⟨fun a => a.elim (fun a => (mem_lanesOf.1 a).2) (fun no => by cases no), fun a => .inl (lanesOf_of_getLsbD a)⟩
  have slot : tget u.warps k = some (clearPass w) := by rw [bytes.warps]; exact tget_tput_self ..
  obtain ⟨t, w1, loaded, ran, goes, p, flags⟩ := loadInto_retires quiet plain.noMember slot does
  have only := onlyWarp_count t k w (goOn (clearPass w) w1)
  have memory : t.mem = run.1 := by rw [loaded.rest]; exact congrArg Prod.fst both
  have values : vs = run.2 := congrArg Prod.snd both
  have near (no : ¬ remote) : fabricLines loc (lanesOf w.act) = [] :=
    fabricLines_nil fun l hl => Bool.eq_false_iff.2 fun far => no ⟨l, (mem_lanesOf.1 hl).2, far⟩
  have cont : contOfWg u w.wg = contOfWg s w.wg := bytes.cont w.wg
  refine ⟨_, _, ran, only.slot, goes, ?_, p, flags, fun a apart => ?_, fun no => ?_, fun now => ?_, fun far later => ?_⟩
  · rw [only.rest]; exact memory
  · rw [only.mem, loaded.rest]
    exact kept a fun l hl => apart l (mem_lanesOf.1 (mem_kindOrder.1 hl)).2
  · rw [loaded.still (near no)]
    exact onlyMemory_retired bytes _
  · rw [← values]
    exact loaded.wrote few (now.imp near cont.trans) lanes
  · obtain ⟨l, active, fabric⟩ := far
    obtain ⟨hv, hw, hs, pending⟩ := loaded.later (fabricLines_ne_nil (lanesOf_of_getLsbD active) fabric) (cont.trans later)
    refine ⟨sameRegs_goOn (hv.trans (clearPass_v w)) (hw.trans (clearPass_w w)) (hs.trans (clearPass_spoilt w)) _,
      fun j hj => ?_⟩
    rw [goOn_other]
    exact pending j hj

/-- An atomic in LM whose checks find nothing: its lanes perform it in ascending order (R187, R195). -/
theorem does_atoml {c : Fld} {sub : BitVec 4} {ty : BitVec 3} {tg o : Nat → Nat} (plain : PlainMemory s w)
    (h : Issues s k w (base :: regGroup d (atomSize ty / 4) ++ regGroup c (atomSize ty / 4)))
    (may : ∀ l, w.act.getLsbD l = true → MayReach s w.wg (atomSize ty) (lAddr w base off (atomSize ty) l) (tg l) (o l)) :
    let op (l old : Nat) := atomOp sub (atomSigned ty) (8 * atomSize ty) old (rdSize w c (atomSize ty) l)
    let run := (lanesOf w.act).foldl (lmAtomic tg o (atomSize ty) op) (s, [])
    ∃ u, Does (.atoml d base off c sub ty) s k w (.next (loadInto u k (clearPass w) d (atomSize ty / 4) run.2 [])) ∧
      u.warps = (issued s k w).warps ∧ u.wgs = run.1.wgs ∧
      u = { s with warps := u.warps, wgs := u.wgs, poison := u.poison } ∧
      ∀ l, (tget run.2 l).isSome = true ↔ w.act.getLsbD l = true := by
  intro op run
  obtain ⟨free, members⟩ := plain.issued k
  have does := does_of_laneWord (i := .atoml d base off c sub ty) h rfl
  obtain ⟨sound, clean⟩ := lmBad_none fun l hl => (may l (mem_lanesOf.1 hl).2).issued k w
  have place (a : Word) : lLoc (issued s k w) w.wg a (atomSize ty) = lLoc s w.wg a (atomSize ty) := rfl
  have here (l : Nat) (hl : l ∈ lanesOf w.act) := lLoc_place (may l (mem_lanesOf.1 hl).2)
  have lanes := foldl_atomLane members k (fun l => lLoc s w.wg (lAddr w base off (atomSize ty) l) (atomSize ty))
    (atomSize ty) (fun l old => some (op l old)) (lanesOf w.act) free []
  have keys (l : Nat) := tget_foldl_laneAtomic (fun l => lLoc s w.wg (lAddr w base off (atomSize ty) l) (atomSize ty))
    (atomSize ty) (fun l old => some (op l old)) (lanesOf w.act) (issued s k w, []) l
  have inLm : (lanesOf w.act).foldl (laneAtomic (fun l => lLoc s w.wg (lAddr w base off (atomSize ty) l) (atomSize ty))
      (atomSize ty) (fun l old => some (op l old))) (issued s k w, []) =
      ({ run.1 with warps := (issued s k w).warps }, run.2) :=
    foldl_laneAtomic_lm (atomSize ty) op (issued s k w).warps (lanesOf w.act) here (s, [])
  rw [inLm] at lanes keys
  simp only [clearPass_wg, clearPass_act, lAddr_clearPass, rdSize_clearPass, place, sound, clean, lanes, op] at does
  simp only [orBad, badEff, gotEff, id, List.map_id'] at does
  have rest := foldl_lmAtomic_rest tg o (atomSize ty) op (lanesOf w.act) (s, [])
  change run.1 = _ at rest
  refine ⟨_, does, rfl, rfl, by rw [rest], fun l => (keys l).trans ⟨fun a => ?_, fun a => .inl (lanesOf_of_getLsbD a)⟩⟩
  exact a.elim (fun a => (mem_lanesOf.1 a).2) (fun no => by cases no)

end

/-- Settles O16: the lanes' atomics in their order, on memory and on LM, and the operations one by one. -/
theorem atomics : Obligations.Atomics := by
  unfold Obligations.Atomics
  refine ⟨fun s k w quiet plain d base off c aux sub scope ty => ?global,
    fun s k w quiet plain d base off c sub ty tg o => ?lm, fun b old v width ho hv sg => atomOp_spec width ho hv sg⟩
  case global =>
    intro n loc run i op regs form may remote issues
    have few : n / 4 ≤ 256 := by show atomSize ty / 4 ≤ 256; unfold atomSize; split <;> decide
    have runs : run op = (kindOrder loc (lanesOf w.act)).foldl (memAtomic loc n op) (s.mem, []) := by
      show List.foldl _ _ _ = _
      congr 1
      funext x l
      simp only [memAtomic]
      cases op l (memNat x.1 (loc l).pa n) <;> rfl
    rw [runs]
    obtain ⟨rfl, rfl, rfl⟩ | ⟨rfl, rfl, rfl⟩ := form
    · refine gAtom_performs quiet plain few (pcie := sub == 0 || sub == 6) (loc := loc)
        (op := fun w l old => some (atomOp sub (atomSigned ty) (8 * n) old (rdSize w c n l))) rfl issues
        (by simp only [rdSize_clearPass]) rfl fun l active => ?_
      obtain ⟨access, no, host⟩ := may l active
      refine ⟨access, no, fun one there => ?_⟩
      rcases host one there with rfl | rfl | other
      · rfl
      · rfl
      · cases other
    · refine gAtom_performs (i := .atomc d base off c scope ty aux) quiet plain few (pcie := true) (loc := loc)
        (op := fun w l old => if old = rdSize w c n l then some (rdSize w aux n l) else none) rfl issues
        (by simp only [rdSize_clearPass]) rfl fun l active => ?_
      obtain ⟨access, no, -⟩ := may l active
      exact ⟨access, no, fun _ _ => rfl⟩
  case lm =>
    intro n run may issues
    have few : n / 4 ≤ 256 := by show atomSize ty / 4 ≤ 256; unfold atomSize; split <;> decide
    obtain ⟨u, does, warps, wgs, rest, keys⟩ := does_atoml plain issues may
    have slot : tget u.warps k = some (clearPass w) := by rw [warps]; exact tget_tput_self ..
    obtain ⟨t, w1, loaded, ran, goes, p, flags⟩ := loadInto_retires quiet plain.noMember slot does
    have only := onlyWarp_count t k w (goOn (clearPass w) w1)
    have lms (j : Nat) := lm_countRetired (setWarp t k (goOn (clearPass w) w1)) w.wg j
    rw [loaded.still rfl] at ran only lms
    refine ⟨_, _, ran, only.slot, goes, loaded.wrote few (.inl rfl) keys, p, flags, fun j => ?_, ?_⟩
    · exact (lms j).trans (by rw [setWarp_wgs, wgs]; rfl)
    · rw [only.rest, rest]

end Sys2Proof.Machine

/-! PROOF. Asynchronous copies (13 R181, R202 to R205): a copy word that its checks let start takes the next number of its
counter, and nothing moves before the completion. -/

namespace Sys2Proof.Machine

/-! The start of a copy (R202). -/

/-- The copy that a word starts. -/
def startedCopy (s : State) (k : Nat) (w : Warp) (d : Fld) (handle : Nat) (ms : List Move) : Copy :=
  ⟨s.fresh, w.wg, k, d, s.fresh, handle, (tlOf s (ctxOfWg s w.wg) handle).issued + 1, ms, cycleOf s (dieOf (coreOf k)),
    wordAddr (curPC w)⟩

/-- Its warp, in which the token is pending. -/
def copyPending (s : State) (k : Nat) (w : Warp) (d : Fld) : Warp :=
  { w with pend := w.pend ++ [⟨s.fresh, d, w.act, [], wordAddr (curPC w), cycleOf s (dieOf (coreOf k)), false, true, [], 0,
      s.fresh, []⟩] }

section
variable {s : State} {k : Nat} {w : Warp} {d : Fld} {handle : Nat} {ms : List Move}

theorem anyPending_copyPending (s : State) (k : Nat) (w : Warp) (d : Fld) :
    anyPending (copyPending s k w d) [d] = true := by
  simp [anyPending, copyPending]

/-- Outside continuity mode a copy only starts. -/
theorem startCopy_eq (cont : contOfWg s w.wg = false) : startCopy s k w d handle ms =
    { s with
      ctxs := (setTl s (ctxOfWg s w.wg) handle { tlOf s (ctxOfWg s w.wg) handle with
        issued := (tlOf s (ctxOfWg s w.wg) handle).issued + 1 }).ctxs
      fresh := s.fresh + 1
      warps := tput s.warps k (copyPending s k w d)
      cores := tput s.cores (coreOf k) { coreRec s (coreOf k) with
        copies := (coreRec s (coreOf k)).copies ++ [startedCopy s k w d handle ms] } } := by
  show (if contOfWg s w.wg = true then _ else _) = _
  rw [cont]
  rfl

theorem tlOf_setTl (s : State) (ctx h : Nat) (t : Tl) : tlOf (setTl s ctx h t) ctx h = t := by
  simp [tlOf, setTl, setCtx, ctxRec, tgetD]

/-- What the start of a copy outside continuity mode leaves of each part of the state. -/
theorem startCopy_spec (cont : contOfWg s w.wg = false) :
    tlOf (startCopy s k w d handle ms) (ctxOfWg s w.wg) handle =
        { tlOf s (ctxOfWg s w.wg) handle with issued := (tlOf s (ctxOfWg s w.wg) handle).issued + 1 } ∧
      tget (startCopy s k w d handle ms).warps k = some (copyPending s k w d) ∧
      (coreRec (startCopy s k w d handle ms) (coreOf k)).copies =
        (coreRec s (coreOf k)).copies ++ [startedCopy s k w d handle ms] ∧
      startCopy s k w d handle ms = { s with
        warps := (startCopy s k w d handle ms).warps, cores := (startCopy s k w d handle ms).cores
        ctxs := (startCopy s k w d handle ms).ctxs, fresh := (startCopy s k w d handle ms).fresh } := by
  rw [startCopy_eq cont]
  refine ⟨tlOf_setTl .., tget_tput_self .., ?_, rfl⟩
  simp [coreRec, tgetD]

/-! A copy word that its checks let start. -/

/-- The word starts a copy with these moves; outside continuity mode it retires with the token pending, and no byte has
moved. -/
def StartsCopy (i : Instr) (s : State) (k : Nat) (w : Warp) (d : Fld) (handle : Nat) (ms : List Move) : Prop :=
  Does i s k w (.next (startCopy (issued s k w) k (clearPass w) d handle ms)) ∧
    (w.sstep = false → contOfWg s w.wg = false → ∃ t w2 x, exec i s = .next t ∧ tget t.warps k = some w2 ∧
      GoesOn w w2 ∧ SameRegs w w2 ∧ w2.p = w.p ∧ w2.flags = w.flags ∧ anyPending w2 [d] = true ∧
      (coreRec t (coreOf k)).copies = (coreRec s (coreOf k)).copies ++ [x] ∧
      x.moves = ms ∧ x.handle = handle ∧ x.token = d ∧ x.n = (tlOf s (ctxOfWg s w.wg) handle).issued + 1 ∧
      (∀ a, memByte t.mem a = memByte s.mem a) ∧
      t = { s with warps := t.warps, wgs := t.wgs, cores := t.cores, ctxs := t.ctxs, fresh := t.fresh })

/-- A copy word outside a take, where the core has room and no check finds anything, starts its copy. -/
theorem copyWord_starts {i : Instr} {bad : Option (Nat × Nat × Nat)} {moves : Unit → List Move} (free : NoMember w)
    (room : (coreRec s (coreOf k)).copies.length < 512)
    (does : Does i s k w (copyWord (issued s k w) k (clearPass w) d handle bad moves)) (sound : bad = none)
    (same : moves () = ms) : StartsCopy i s k w d handle ms := by
  have notFull : copiesFull (issued s k w) k = false := decide_eq_false (Nat.not_le.2 room)
  have starts : Does i s k w (.next (startCopy (issued s k w) k (clearPass w) d handle ms)) := by
    simpa only [copyWord, noTake, activeMember_eq_none free, notFull, Bool.false_eq_true, if_false, sound, same] using does
  refine ⟨starts, fun quiet cont => ?_⟩
  have cont1 : contOfWg (issued s k w) (clearPass w).wg = false := by rw [clearPass_wg]; exact cont
  obtain ⟨-, slot, copies, rest⟩ := startCopy_spec (k := k) (d := d) (handle := handle) (ms := ms) cont1
  obtain ⟨ran, goes⟩ := retires_of_does starts slot ((clearPass_sstep w).trans quiet) free rfl (clearPass_act w)
  have only := onlyWarp_count (startCopy (issued s k w) k (clearPass w) d handle ms) k w
    (goOn (clearPass w) (copyPending (issued s k w) k (clearPass w) d))
  refine ⟨_, _, startedCopy (issued s k w) k (clearPass w) d handle ms, ran, only.slot, goes,
    sameRegs_goOn (u1 := copyPending (issued s k w) k (clearPass w) d) (clearPass_v w) (clearPass_w w)
      (clearPass_spoilt w) _,
    ?_, ?_, ?_, ?_, rfl, rfl, rfl, ?_, fun a => ?_, ?_⟩
  · rw [goOn_other]; exact clearPass_p w
  · rw [goOn_other]; exact clearPass_flags w
  · have pending := anyPending_copyPending (issued s k w) k (clearPass w) d
    rw [goOn_other]
    exact pending
  · rw [only.rest]
    exact copies
  · simp only [startedCopy, clearPass_wg]
    rfl
  · rw [only.mem, rest]
    rfl
  · rw [only.rest, rest]
    rfl
end

/-! Checks that find nothing (R187, R202). -/

theorem addrBad_none {g : Bool} {a : Nat} (h : g = true → a < 2 ^ 57) : addrBad g a = none := by
  cases g
  · rfl
  · exact if_neg (by simpa using h rfl)

theorem alignBad_none {a n : Nat} (h : a % n = 0) : alignBad a n = none := if_neg (not_not.2 h)

theorem firstSome_none {l : List (Option (Nat × Nat))} : firstSome l = none ↔ ∀ x ∈ l, x = none := by
  simp [firstSome, List.findSome?_eq_none_iff]

/-- Checks of a copy's form that find nothing leave those of its sides. -/
theorem sidesBad_form {s : State} {wg : Nat} {dst src : Side} {dsegs ssegs : Segs} {form : List (Option (Nat × Nat))}
    (h : ∀ x ∈ form, x = none) (sound : sidesBad s wg dst src dsegs ssegs [] = none) :
    sidesBad s wg dst src dsegs ssegs form = none := by
  rw [sidesBad, firstSome_none] at sound ⊢
  simp only [List.mem_append] at sound ⊢
  rintro x ((hx | hx) | hx)
  · exact sound x (.inl (.inl hx))
  · exact h x hx
  · exact sound x (.inr hx)

theorem extract_low_two (sub : BitVec 4) (j : Nat) (hj : j < 4) :
    (sub.extractLsb' 0 2 == BitVec.ofNat 2 j) = (sub.toNat % 4 == j) := by
  rw [Bool.eq_iff_iff, beq_iff_eq, beq_iff_eq, ← BitVec.toNat_inj, BitVec.extractLsb'_toNat, BitVec.toNat_ofNat]
  simp only [Nat.shiftRight_zero, Nat.reducePow]
  omega

/-! ACOPY (R203). -/

@[simp] theorem acopyOps_clearPass (w : Warp) (a b c : Fld) (sub : BitVec 4) (ty : BitVec 3) :
    acopyOps (clearPass w) a b c sub ty = acopyOps w a b c sub ty := by
  simp only [acopyOps, low_clearPass, rd_clearPass, rd64_clearPass]

theorem acopyOps_run {w : Warp} {a b c : Fld} {sub : BitVec 4} {ty : BitVec 3} (run : sub.getLsbD 2 = false) :
    acopyOps w a b c sub ty =
      let n := (rd w c (low w)).toNat
      ⟨sub.toNat % 4 == 1, sub.toNat % 4 == 0,
        if sub.toNat % 4 == 1 then (rd64 w a (low w)).toNat else (rd w a (low w)).toNat,
        if sub.toNat % 4 == 0 then (rd64 w b (low w)).toNat else (rd w b (low w)).toNat, 16,
        decide (n % 16 ≠ 0 ∨ n < 16 ∨ 1048576 < n), [(0, n)], [(0, n)], [(0, 0, n)]⟩ := by
  have one := extract_low_two sub 1 (by decide)
  have zero := extract_low_two sub 0 (by decide)
  simp only [acopyOps, run, Bool.false_eq_true, if_false]
  rw [show (1 : BitVec 2) = BitVec.ofNat 2 1 from rfl, show (0 : BitVec 2) = BitVec.ofNat 2 0 from rfl, one, zero]

theorem acopyOps_rows {w : Warp} {a b c : Fld} {sub : BitVec 4} {ty : BitVec 3} (rows : sub.getLsbD 2 = true) :
    acopyOps w a b c sub ty =
      let x := (rd w c (low w)).toNat
      let e := 2 ^ ty.toNat
      let pitch := (rd w (c + 1) (low w)).toNat
      let nr := x % 256 + 1
      let nc := x / 256 % 256 + 1
      ⟨sub.toNat % 4 == 1, sub.toNat % 4 == 0,
        if sub.toNat % 4 == 1 then (rd64 w a (low w)).toNat else (rd w a (low w)).toNat,
        if sub.toNat % 4 == 0 then (rd64 w b (low w)).toNat else (rd w b (low w)).toNat, e,
        decide (x / 2 ^ 16 ≠ 0 ∨ pitch % e ≠ 0 ∨ pitch < nc * e), [(0, nr * nc * e)],
        (List.range nr).map (fun r => (r * pitch, nc * e)),
        (List.range nr).flatMap (fun r => (List.range nc).map (fun q => ((q * nr + r) * e, r * pitch + q * e, e)))⟩ := by
  have one := extract_low_two sub 1 (by decide)
  have zero := extract_low_two sub 0 (by decide)
  have x := (rd w c (low w)).isLt
  have high : field (rd w c (low w)) 31 16 = (rd w c (low w)).toNat / 2 ^ 16 := by rw [field_eq]; omega
  have rowsF : field (rd w c (low w)) 7 0 = (rd w c (low w)).toNat % 256 := by rw [field_eq]; omega
  have colsF : field (rd w c (low w)) 15 8 = (rd w c (low w)).toNat / 256 % 256 := by rw [field_eq]; omega
  simp only [acopyOps, rows, if_true, high, rowsF, colsF]
  rw [show (1 : BitVec 2) = BitVec.ofNat 2 1 from rfl, show (0 : BitVec 2) = BitVec.ofNat 2 0 from rfl, one, zero]

section
variable {s : State} {k : Nat} {w : Warp} {d a b c : Fld} {sub : BitVec 4} {ty : BitVec 3} (free : NoMember w)
  (room : (coreRec s (coreOf k)).copies.length < 512)
include free room

/-- An ACOPY whose operands pass its checks starts the moves of its runs. -/
theorem acopy_starts {o : AcopyOps} {ms : List Move} (ops : acopyOps w a b c sub ty = o)
    (h : Issues s k w ([d] ++ (if sub.toNat % 4 == 1 then pair a else [a]) ++
      (if sub.toNat % 4 == 0 then pair b else [b]) ++ (if sub.getLsbD 2 then pair c else [c])))
    (range : (o.dstG = true → o.dst < 2 ^ 57) ∧ (o.srcG = true → o.src < 2 ^ 57))
    (aligned : o.dst % o.align = 0 ∧ o.src % o.align = 0) (fits : o.limitBad = false)
    (sides : sidesBad (issued s k w) w.wg ⟨!o.dstG, o.dst⟩ ⟨!o.srcG, o.src⟩ o.dsegs o.ssegs [] = none)
    (same : sideMoves (issued s k w) w.wg ⟨!o.dstG, o.dst⟩ ⟨!o.srcG, o.src⟩ o.runs = ms) :
    StartsCopy (.acopy d a b c sub ty) s k w d (queueHandle k) ms := by
  rw [← extract_low_two sub 1 (by decide), ← extract_low_two sub 0 (by decide)] at h
  have does := does_of_laneWord (i := .acopy d a b c sub ty) h rfl
  simp only [acopyOps_clearPass, ops, clearPass_wg] at does
  refine copyWord_starts free room does ?_ same
  have forms : ∀ x ∈ [alignBad o.dst o.align, alignBad o.src o.align], x = none := by
    simp [alignBad_none aligned.1, alignBad_none aligned.2]
  rw [addrBad_none range.1, addrBad_none range.2, fits, sidesBad_form forms sides]
  rfl

/-- A side of an ACOPY: an address in global memory, or one of LM. -/
def acopySide (w : Warp) (global : Bool) (f : Fld) : Side :=
  ⟨!global, if global then (rd64 w f (low w)).toNat else (rd w f (low w)).toNat⟩

/-- A run of bytes (R203). -/
theorem acopy_run_starts (run : sub.getLsbD 2 = false) {dst src : Side}
    (hd : dst = acopySide w (sub.toNat % 4 == 1) a) (hs : src = acopySide w (sub.toNat % 4 == 0) b)
    (h : Issues s k w ([d] ++ (if sub.toNat % 4 == 1 then pair a else [a]) ++
      (if sub.toNat % 4 == 0 then pair b else [b]) ++ [c]))
    (range : ((sub.toNat % 4 == 1) = true → dst.at_ < 2 ^ 57) ∧ ((sub.toNat % 4 == 0) = true → src.at_ < 2 ^ 57)) {n : Nat}
    (hn : n = (rd w c (low w)).toNat) (whole : n % 16 = 0) (least : 16 ≤ n) (most : n ≤ 1048576)
    (aligned : dst.at_ % 16 = 0 ∧ src.at_ % 16 = 0)
    (sides : sidesBad (issued s k w) w.wg dst src [(0, n)] [(0, n)] [] = none) :
    StartsCopy (.acopy d a b c sub ty) s k w d (queueHandle k) ((List.range n).map (fun i =>
      ⟨sideLoc (issued s k w) w.wg dst i, some (sideLoc (issued s k w) w.wg src i), 0⟩)) := by
  subst hd hs hn
  refine acopy_starts free room (acopyOps_run run) (by simpa only [run, Bool.false_eq_true, if_false] using h) range aligned
    (decide_eq_false (by omega)) sides ?_
  simp only [sideMoves, acopySide, List.flatMap_cons, List.flatMap_nil, List.append_nil, Nat.zero_add]

/-- Rows at a pitch to columns in turn (R203). -/
theorem acopy_rows_starts (rows : sub.getLsbD 2 = true) {dst src : Side}
    (hd : dst = acopySide w (sub.toNat % 4 == 1) a) (hs : src = acopySide w (sub.toNat % 4 == 0) b)
    (h : Issues s k w ([d] ++ (if sub.toNat % 4 == 1 then pair a else [a]) ++
      (if sub.toNat % 4 == 0 then pair b else [b]) ++ pair c))
    (range : ((sub.toNat % 4 == 1) = true → dst.at_ < 2 ^ 57) ∧ ((sub.toNat % 4 == 0) = true → src.at_ < 2 ^ 57))
    {e nr nc pitch : Nat} (he : e = 2 ^ ty.toNat) (hr : nr = (rd w c (low w)).toNat % 256 + 1)
    (hc : nc = (rd w c (low w)).toNat / 256 % 256 + 1) (hp : pitch = (rd w (c + 1) (low w)).toNat)
    (high : (rd w c (low w)).toNat < 2 ^ 16) (whole : pitch % e = 0) (wide : nc * e ≤ pitch)
    (aligned : dst.at_ % e = 0 ∧ src.at_ % e = 0)
    (sides : sidesBad (issued s k w) w.wg dst src [(0, nr * nc * e)]
      ((List.range nr).map (fun r => (r * pitch, nc * e))) [] = none) :
    StartsCopy (.acopy d a b c sub ty) s k w d (queueHandle k) ((List.range nr).flatMap (fun r =>
      (List.range nc).flatMap (fun q => (List.range e).map (fun i =>
        ⟨sideLoc (issued s k w) w.wg dst ((q * nr + r) * e + i),
          some (sideLoc (issued s k w) w.wg src (r * pitch + q * e + i)), 0⟩)))) := by
  subst hd hs he hr hc hp
  refine acopy_starts free room (acopyOps_rows rows) (by simpa only [rows, if_true] using h) range aligned
    (decide_eq_false ?_) sides ?_
  · have none_ : (rd w c (low w)).toNat / 2 ^ 16 = 0 := Nat.div_eq_of_lt high
    rintro (no | no | no)
    · exact no none_
    · exact no whole
    · omega
  · simp only [sideMoves, acopySide, List.flatMap_assoc, List.flatMap_map]

/-! BCOPY (R204). -/

/-- A whole tensor. -/
theorem bcopy_bulk_starts {r : BitVec 512} {n : Nat} {us : List (Nat × Nat)} {im ten : Side}
    (hr : r = shReg s w.wg a.toNat) (hn : n = unitBytes (shFmt r)) (hu : us = bulkUnits r)
    (hi : im = ⟨false, (rd64 w b (low w)).toNat⟩) (ht : ten = ⟨false, shBase r⟩)
    (h : Issues s k w ([d] ++ pair b)) (shape : shapeBad r = false) (scale : shScale r = 0) (bulk : sub.getLsbD 1 = true)
    (plain : shTrans r = false) (range : im.at_ < 2 ^ 57) :
    (sub.getLsbD 0 = false →
      sidesBad (issued s k w) w.wg im ten [(0, us.length * n)] (us.map (fun u => (u.2, n))) [] = none →
      StartsCopy (.bcopy d a b sub) s k w d (bulkHandle k)
        (sideMoves (issued s k w) w.wg im ten (us.map (fun u => (u.1, u.2, n))))) ∧
    (sub.getLsbD 0 = true →
      sidesBad (issued s k w) w.wg ten im (us.map (fun u => (u.2, n))) [(0, us.length * n)] [] = none →
      StartsCopy (.bcopy d a b sub) s k w d (bulkHandle k)
        (sideMoves (issued s k w) w.wg ten im (us.map (fun u => (u.2, u.1, n))))) := by
  subst hn hu hi ht
  have does := does_of_laneWord (i := .bcopy d a b sub) h rfl
  have reg : shReg (issued s k w) w.wg a.toNat = r := hr.symm
  simp only [bulk, clearPass_wg, low_clearPass, rd64_clearPass, reg, if_true, shape, scale, plain, bne_self_eq_false,
    Bool.false_and, Bool.or_self, Bool.false_eq_true, if_false, addrBad_none fun _ => range] at does
  refine ⟨fun dir sides => ?_, fun dir sides => ?_⟩
  · simp only [dir, Bool.false_eq_true, if_false, sides] at does
    exact copyWord_starts free room does rfl rfl
  · simp only [dir, if_true, sides] at does
    exact copyWord_starts free room does rfl rfl

/-- A tile of a tensor. -/
theorem bcopy_tile_starts {r : BitVec 512} {n o : Nat} {us : List (Nat × Nat × Bool)} {lm ten : Side}
    (hr : r = shReg s w.wg a.toNat) (hn : n = unitBytes (shFmt r)) (ho : o = (rd w (b + 1) (low w)).toNat)
    (hu : us = tileUnits r (o % 2 ^ 16) (o / 2 ^ 16)) (hl : lm = ⟨true, (rd w b (low w)).toNat⟩)
    (ht : ten = ⟨false, shBase r⟩) (h : Issues s k w ([d] ++ pair b)) (shape : shapeBad r = false) (scale : shScale r = 0)
    (tile : sub.getLsbD 1 = false) (plain : shTrans r = true → isTE (shFmt r) = false)
    (whole : isTE (shFmt r) = true → o % 16 = 0) :
    (sub.getLsbD 0 = false →
      sidesBad (issued s k w) w.wg lm ten [(0, us.length * n)] ((us.filter (·.2.2)).map (fun u => (u.2.1, n))) [] = none →
      StartsCopy (.bcopy d a b sub) s k w d (queueHandle k) (tileMoves (issued s k w) w.wg false lm ten n us)) ∧
    (sub.getLsbD 0 = true →
      sidesBad (issued s k w) w.wg ten lm ((us.filter (·.2.2)).map (fun u => (u.2.1, n))) [(0, us.length * n)] [] = none →
      StartsCopy (.bcopy d a b sub) s k w d (queueHandle k) (tileMoves (issued s k w) w.wg true lm ten n us)) := by
  have does := does_of_laneWord (i := .bcopy d a b sub) h rfl
  have reg : shReg (issued s k w) w.wg a.toNat = r := hr.symm
  have bound := (rd w (b + 1) (low w)).isLt
  have first : field (rd w (b + 1) (low w)) 15 0 = o % 2 ^ 16 := by rw [field_eq, ho]; omega
  have second : field (rd w (b + 1) (low w)) 31 16 = o / 2 ^ 16 := by rw [field_eq, ho]; omega
  have fits : (shTrans r && isTE (shFmt r)) = false := by
    cases trans : shTrans r
    · rfl
    · exact plain trans
  have step : ¬ (isTE (shFmt r) = true ∧ o % 2 ^ 16 % 16 ≠ 0) := fun ⟨te, no⟩ => no (by have := whole te; omega)
  subst hn hu hl ht
  simp only [tile, clearPass_wg, low_clearPass, rd_clearPass, reg, shape, scale, bne_self_eq_false, Bool.false_or,
    Bool.or_self, Bool.false_eq_true, if_false, first, second, fits, if_neg step] at does
  have forms : ∀ x ∈ [(none : Option (Nat × Nat))], x = none := by simp
  refine ⟨fun dir sides => ?_, fun dir sides => ?_⟩
  · simp only [dir, Bool.false_eq_true, if_false, sidesBad_form forms sides] at does
    exact copyWord_starts free room does rfl rfl
  · simp only [dir, if_true, sidesBad_form forms sides] at does
    exact copyWord_starts free room does rfl rfl

/-! GATHER (R205). -/

omit free room in
theorem laneFinding_none {ls : List Nat} {c : Nat → Option (Nat × Nat)} (sound : ∀ x ∈ ls, c x = none) :
    ls.findSome? (fun x => (c x).map (fun b => (b.1, b.2, x))) = none :=
  List.findSome?_eq_none_iff.2 fun x hx => by rw [sound x hx]; rfl

omit free room in
/-- The checks of ranges find nothing where they find nothing in any of them. -/
theorem sideLmBad_each {wg : Nat} {x : Side} {segs : Segs} (sound : sideLmBad s wg x segs = none) {g : Nat × Nat}
    (mem : g ∈ segs) : sideLmBad s wg x [g] = none := by
  unfold sideLmBad at sound ⊢
  split
  · next inLm =>
    rw [if_pos inLm, List.findSome?_eq_none_iff] at sound
    exact List.findSome?_eq_none_iff.2 fun y hy => sound y (List.mem_singleton.1 hy ▸ mem)
  · rfl

omit free room in
theorem sideGlobalBad_each {wg : Nat} {need : Need} {ps : List (Nat × Nat)} (sound : sideGlobalBad s wg need ps = none)
    {p : Nat × Nat} (mem : p ∈ ps) : pieceLeaseBad s wg need [p] = none ∧ piecePhysBad s wg [p] = none := by
  rw [sideGlobalBad, firstSome_none] at sound
  have lease : pieceLeaseBad s wg need ps = none := sound _ (by simp)
  have phys : piecePhysBad s wg ps = none := sound _ (by simp)
  rw [pieceLeaseBad, List.findSome?_eq_none_iff] at lease
  rw [piecePhysBad, Option.map_eq_none_iff, List.find?_eq_none] at phys
  refine ⟨List.findSome?_eq_none_iff.2 fun y hy => lease y (List.mem_singleton.1 hy ▸ mem), ?_⟩
  rw [piecePhysBad, Option.map_eq_none_iff]
  exact List.find?_eq_none.2 fun y hy => phys y (List.mem_singleton.1 hy ▸ mem)

theorem gather_starts {n stride : Nat} {lm : Side} (hn : n = 4 * 2 ^ ty.toNat) (hl : lm = ⟨true, (rd w a (low w)).toNat⟩)
    (hs : stride = (rd w c (low w)).toNat) (h : Issues s k w ([d, a] ++ pair b ++ [c]))
    (able : ∀ x, w.act.getLsbD x = true → (rd64 w b x).toNat < 2 ^ 57 ∧ (rd64 w b x).toNat % n = 0)
    (aligned : lm.at_ % 4 = 0) (whole : stride % 4 = 0)
    (inLm : sideLmBad (issued s k w) w.wg lm ((lanesOf w.act).map (fun x => (x * stride, n))) = none)
    (inMem : sideGlobalBad (issued s k w) w.wg needR ((lanesOf w.act).map (fun x => ((rd64 w b x).toNat, n))) = none) :
    StartsCopy (.gather d a b c ty) s k w d (queueHandle k) ((lanesOf w.act).flatMap (fun y => (List.range n).map (fun i =>
      ⟨sideLoc (issued s k w) w.wg lm (y * stride + i), some (gLoc (issued s k w) w.wg ((rd64 w b y).toNat + i)), 0⟩))) := by
  have does := does_of_laneWord (i := .gather d a b c ty) h rfl
  subst hn hl hs
  simp only [clearPass_wg, clearPass_act, low_clearPass, rd_clearPass, rd64_clearPass] at does
  refine copyWord_starts free room does ?_ rfl
  have range : ∀ x ∈ lanesOf w.act, addrBad true (rd64 w b x).toNat = none :=
    fun x hx => addrBad_none fun _ => (able x (mem_lanesOf.1 hx).2).1
  have units : ∀ x ∈ lanesOf w.act, alignBad (rd64 w b x).toNat (4 * 2 ^ ty.toNat) = none :=
    fun x hx => alignBad_none (able x (mem_lanesOf.1 hx).2).2
  have lms : ∀ x ∈ lanesOf w.act, sideLmBad (issued s k w) w.wg ⟨true, (rd w a (low w)).toNat⟩
      [(x * (rd w c (low w)).toNat, 4 * 2 ^ ty.toNat)] = none :=
    fun x hx => sideLmBad_each inLm (List.mem_map_of_mem hx)
  have global (x : Nat) (hx : x ∈ lanesOf w.act) := sideGlobalBad_each inMem (List.mem_map_of_mem hx)
  rw [laneFinding_none range, laneFinding_none units, laneFinding_none lms, laneFinding_none fun x hx => (global x hx).1,
    laneFinding_none fun x hx => (global x hx).2, alignBad_none aligned, if_neg (not_not.2 whole)]
  rfl
end

/-! The completion of a copy (R181, R203). -/

/-- The byte that a move writes. -/
def moveValue (s : State) (m : Move) : Byte :=
  m.src.elim m.fill (fun l => if l.lm then (lmBytes s l.wg l.va 1).headD 0 else memByte s.mem l.pa)

/-- Every source is read, and nothing has changed. -/
theorem moveReads_eq {s : State} (h : Undisturbed s) (wg : Nat) (ms : List Move) :
    moveReads s wg ms = (ms.map (moveValue s), s) := by
  induction ms with
  | nil => rfl
  | cons m r ih =>
    cases src : m.src with
    | none => simp only [moveReads, src, ih, List.map_cons, moveValue, Option.elim]
    | some l =>
      have read : (locBytes s l 1).headD 0 = if l.lm then (lmBytes s l.wg l.va 1).headD 0 else memByte s.mem l.pa := by
        unfold locBytes
        split <;> rfl
      simp only [moveReads, src, readLoc, h.readLocFor, ih, List.map_cons, moveValue, Option.elim, read]

/-- Bytes written to memory one after the other: the last of them at a place stands there. -/
theorem moveWrites_spec (wg : Nat) (value : Move → Byte) (ms : List Move) (out : ∀ m ∈ ms, m.dst.lm = false) {s : State}
    (h : Undisturbed s) :
    OnlyBytes s (moveWrites s wg ms (ms.map value)) ∧ ∀ a, memByte (moveWrites s wg ms (ms.map value)).mem a =
      (ms.reverse.find? (fun m => m.dst.pa == a)).elim (memByte s.mem a) value := by
  induction ms generalizing s with
  | nil => exact ⟨OnlyBytes.refl s, fun _ => rfl⟩
  | cons m r ih =>
    have one : moveByte s wg m.dst (value m) = plainStore s m.dst.pa [value m] := by
      rw [moveByte, out m (.head _), if_neg (by decide), h.writeQuiet_any]
    obtain ⟨bytes, mem⟩ := ih (fun x hx => out x (.tail _ hx)) (h.plainStore m.dst.pa [value m])
    rw [List.map_cons, moveWrites, one]
    refine ⟨(OnlyBytes.plainStore ..).trans bytes, fun a => ?_⟩
    rw [mem, plainStore_mem, memByte_memPuts, List.reverse_cons, List.find?_append]
    cases r.reverse.find? (fun m => m.dst.pa == a) with
    | some x => rfl
    | none =>
      by_cases here : m.dst.pa = a
      · simp [here]
      · have apart : ¬ (m.dst.pa ≤ a ∧ a < m.dst.pa + [value m].length) := by simp only [List.length_singleton]; omega
        rw [if_neg apart]
        simp [here]

/-- A copy that writes memory alone moves its bytes and changes nothing else. -/
theorem performMoves_spec {s : State} (h : Undisturbed s) (wg : Nat) {ms : List Move} (out : ∀ m ∈ ms, m.dst.lm = false) :
    OnlyBytes s (performMoves s wg ms) ∧ ∀ a, memByte (performMoves s wg ms).mem a =
      (ms.reverse.find? (fun m => m.dst.pa == a)).elim (memByte s.mem a) (moveValue s) := by
  obtain ⟨bytes, mem⟩ := moveWrites_spec wg (moveValue s) ms out h
  have quiet : performMoves s wg ms = moveWrites s wg ms (ms.map (moveValue s)) := by
    have boxes : (moveWrites s wg ms (ms.map (moveValue s))).mailboxes = [] := by rw [bytes.rest]; exact h.boxes
    have none_ : ms.flatMap (fun m => if m.dst.lm then [] else
        doorbells (moveWrites s wg ms (ms.map (moveValue s))) m.dst.pa 1) = [] :=
      List.flatMap_eq_nil_iff.2 fun m _ => by rw [doorbells, boxes]; exact ite_self _
    simp only [performMoves, moveReads_eq h, none_, List.dedup_nil, ringDoorbells, List.map_nil, List.append_nil]
  rw [quiet]
  exact ⟨bytes, mem⟩

/-- A warp whose token has been written. -/
def tokenWritten (w : Warp) (x : Copy) : Warp :=
  { w with pend := w.pend.filter (fun p => p.id != x.pendId), w := tputD 0 w.w (x.token.toNat - 192) (BitVec.ofNat 32 x.n) }

/-- An entry of a table after a change of entries that keeps their keys. -/
theorem tget_map_entries {α : Type} {t : Tbl α} {g : Nat × α → Nat × α} (keys : ∀ e, (g e).1 = e.1) {j : Nat} {v : α}
    (hv : tget t j = some v) : tget (t.map g) j = some (g (j, v)).2 := by
  have shape : t.map g = t.map (fun e => (e.1, (g (e.1, e.2)).2)) :=
    List.map_congr_left fun e _ => Prod.ext (keys e) rfl
  rw [shape, tget_map t (fun i x => (g (i, x)).2), hv]
  rfl

/-- The token of a copy is written in the warp that waits for it (R202). -/
theorem tget_tokenDone {s : State} {k : Nat} {w : Warp} {x : Copy} (slot : tget s.warps k = some w) (own : w.take = none)
    (pending : w.pend.any (fun p => p.id == x.pendId) = true) :
    tget (tokenDone s x).warps k = some (tokenWritten w x) := by
  rw [tokenDone, tget_map_entries (fun e => by split <;> rfl) slot, if_pos pending]
  simp only [own, tokenWritten]

/-- The token register holds the number, and no other register has changed. -/
theorem rd_tokenWritten (w : Warp) (x : Copy) {f : Fld} (l : Nat) (high : 192 ≤ x.token.toNat) :
    rd (tokenWritten w x) f l = if f = x.token then BitVec.ofNat 32 x.n else rd w f l := by
  unfold rd
  by_cases scalar : f.toNat < 192
  · have other : f ≠ x.token := fun e => by rw [e] at scalar; omega
    rw [if_pos scalar, if_pos scalar, if_neg other]
    rfl
  · rw [if_neg scalar, if_neg scalar, tokenWritten, tgetD_tputD]
    have same : x.token.toNat - 192 = f.toNat - 192 ↔ f = x.token := by
      rw [← BitVec.toNat_inj]
      omega
    simp only [same]

/-- Settles O21: the five starts, and the parts of a completion. -/
theorem copies : Obligations.Copies := by
  unfold Obligations.Copies
  refine ⟨?starts, ?start, ?event, ?moves, ?token⟩
  case starts =>
    intro s k w d a b c sub ty free room s1 w1 l starts toG fromG dst src inRange regsA regsB
    refine ⟨?run, ?rows, ?bcopy, ?gather⟩
    case run =>
      intro run issues range n whole least most alignedD alignedS sides
      exact acopy_run_starts free room run rfl rfl issues range rfl whole least most ⟨alignedD, alignedS⟩ sides
    case rows =>
      intro rows issues range e nr nc pitch high whole wide alignedD alignedS sides
      exact acopy_rows_starts free room rows rfl rfl issues range rfl rfl rfl rfl high whole wide ⟨alignedD, alignedS⟩ sides
    case bcopy =>
      intro issues r n ten shape scale
      refine ⟨?_, ?_⟩
      · intro bulk plain im us range
        exact bcopy_bulk_starts free room rfl rfl rfl rfl rfl issues shape scale bulk plain range
      · intro tile plain lm o us whole
        exact bcopy_tile_starts free room rfl rfl rfl rfl rfl rfl issues shape scale tile plain whole
    case gather =>
      intro issues n lm stride able aligned whole inLm inMem
      exact gather_starts free room rfl rfl rfl issues able aligned whole inLm inMem
  case start =>
    intro s k w d handle ms cont ctx t
    obtain ⟨timeline, slot, copies, rest⟩ := startCopy_spec (k := k) (d := d) (handle := handle) (ms := ms) cont
    refine ⟨timeline, fun a => ?_, ?_, ⟨_, slot, anyPending_copyPending s k w d, rfl, fun _ _ _ => rfl⟩,
      _, copies, rfl, rfl, rfl, rfl⟩
    · show memByte (startCopy s k w d handle ms).mem a = _
      rw [rest]
    · show (startCopy s k w d handle ms).wgs = _
      rw [rest]
  case event =>
    intro s c id x found
    have ends : exec (.asyncCopyCompletion id) s = .next (copyDone s c x) := by
      show execAsyncCopyCompletion id s = _
      rw [execAsyncCopyCompletion, found]
    refine ⟨fun sound => ?_, fun cause a bad => ?_⟩
    · rw [ends, copyDone, sound]
    · rw [ends, copyDone, bad]
  case moves =>
    intro s w wg ms plain out t val
    obtain ⟨bytes, mem⟩ := performMoves_spec plain.undisturbed wg out
    refine ⟨bytes.wgs, fun a => (mem a).trans ?_⟩
    cases ms.reverse.find? (fun m => m.dst.pa == a) with
    | none => rfl
    | some m =>
      show moveValue s m = val m
      simp only [moveValue, val]
      cases m.src <;> rfl
  case token =>
    intro s k w x slot own pending
    refine ⟨_, tget_tokenDone slot own pending, rfl, fun high l => ?_, fun f l other high => ?_⟩
    · rw [rd_tokenWritten w x l high, if_pos rfl]
    · rw [rd_tokenWritten w x l high, if_neg other]

end Sys2Proof.Machine

/-! PROOF. The sequencer's own words and the issue of its clauses (07 R109, 15 R217 to R221, R243 to R247): each word by its
first test that holds, and what a fetch leaves for the test of its clause's wait. -/

namespace Sys2Proof.Machine

/-! The sequencer of a core. -/

@[simp] theorem seqOf_setSeq (s : State) (c : Nat) (q : Seq) : seqOf (setSeq s c q) c = some q := by
  rw [seqOf, setSeq, coreRec_setCore_self]

/-- A sequencer that goes on stands at the PC given, before the wait of a clause where that is a header. -/
theorem seqOf_seqGo {s : State} {c : Nat} {q : Seq} (hq : seqOf s c = some q) (p : PC) :
    seqOf (seqGo s c p) c = some { q with pc := p, waitDone := if p.idx = 0 then false else q.waitDone } := by
  simp only [seqGo, hq, seqOf_setSeq]

/-! Branches, block-uniform registers and barriers. -/

/-- The target of a stream branch is that of a lane branch by the same offset (R144, R244). -/
theorem seqTarget_eq (q : Seq) (off : BitVec 20) :
    seqTarget q off = BitVec.ofInt 64 (q.pc.hdr.toNat + 4 * off.toInt) := by
  have same : (off.signExtend 24).toInt = off.toInt := BitVec.toInt_signExtend_of_le (by decide)
  have wide : (off.signExtend 24).signExtend 64 = off.signExtend 64 := congrArg (BitVec.ofInt 64) same
  rw [seqTarget, ← wide, ← same]
  exact brTarget_eq ..

/-- A read of a block-uniform register gives a value that its reader may see, also where there is no workgroup to ask. -/
theorem bRead_seen (s : State) (wg n : Nat) (reader : Option Nat) :
    ∃ v t, bRead s wg n reader = (v, t) ∧ ∀ g, tget s.wgs wg = some g → v ∈ bOptions g n reader := by
  cases hg : tget s.wgs wg with
  | none => exact ⟨_, _, rfl, nofun⟩
  | some g =>
    obtain ⟨v, _, _, read, seen⟩ := bRead_spec hg n reader
    exact ⟨v, _, read, fun _ e => Option.some.inj e ▸ seen⟩

theorem seqBar_outside {s : State} {q : Seq} {n : Fld} {g : Workgroup} (hg : tget s.wgs q.wg = some g)
    (out : hNbar (hdrOf s q.wg) ≤ n.toNat) (go : Workgroup → SEff) : seqBar s q n go = .fault 0x40 0 := by
  rw [seqBar, hg]
  exact if_pos out

theorem seqBar_inside {s : State} {q : Seq} {n : Fld} {g : Workgroup} (hg : tget s.wgs q.wg = some g)
    (listed : n.toNat < hNbar (hdrOf s q.wg)) (go : Workgroup → SEff) : seqBar s q n go = go g := by
  rw [seqBar, hg]
  exact if_neg (Nat.not_le.2 listed)

/-! The words. -/

section
variable {s : State} {c : Nat} {q : Seq} (ht : s.issuer = .seq c) (hq : seqOf s c = some q)
include ht hq

theorem sqsetUniform_writes (x : BitVec 4) (b : Fld) : ∃ v t, exec (.sqsetUniform x b) s = .next t ∧
    (∀ g, tget s.wgs q.wg = some g → v ∈ bOptions g b.toNat none) ∧
    (seqOf t c).map (fun u => (u.q, u.pc)) = some (tputD 0 q.q x.toNat v, seqNext q) := by
  obtain ⟨v, t, read, seen⟩ := bRead_seen s q.wg b.toNat none
  refine ⟨v, _, show execSqsetUniform x b s = _ from seqWord_next ht hq (t := setQ t c q x v) ?_, seen, ?_⟩
  · simp only [read]
  · rw [setQ, seqOf_seqGo (seqOf_setSeq ..)]
    rfl

end

/-! The issue of a clause (R217). -/

theorem OnlyChoices.hdrOf_eq {s t : State} (h : OnlyChoices s t) (wg : Nat) : hdrOf t wg = hdrOf s wg := by
  rw [hdrOf, hdrOf, gridOfWg, gridOfWg, h.grids]

theorem OnlyChoices.seqWaitOver_eq {s t : State} (h : OnlyChoices s t) (q : Seq) (x : Header) :
    seqWaitOver t q x = seqWaitOver s q x := by
  rw [h.rest]
  rfl

/-- A sequencer that stands at a header and may fetch there. -/
structure AtClause (q : Seq) : Prop where
  runs : q.halted = false
  free : q.held = false
  header : q.pc.idx = 0

section
variable {s : State} {c : Nat} {q : Seq}

theorem AtClause.fetches (h : AtClause q) : (q.halted || q.held || decide (q.pc.idx ≠ 0)) = false := by
  rw [h.runs, h.free, h.header]
  rfl

variable (ht : s.issuer = .seq c) (hq : seqOf s c = some q) (stands : AtClause q)
include ht hq stands

/-- What the sequencer does with a clause that it has fetched, by the first test that holds. -/
theorem clauseIssue_fetched {h : Header} {ws : List Word} (fetched : fetchClause s q.wg true q.pc.hdr = .ok (h, ws)) :
    exec .clauseIssue s = .next (if h.waitKind = 1 ∧ hNbar (hdrOf s q.wg) ≤ h.waitArg.toNat then
        seqFault (fetchSpent s q.wg) c q 0x40 0 q.pc.hdr.toNat
      else if seqWaitOver s q h then
        setSeq (fetchSpent s q.wg) c { q with code := ws, waitDone := true, pc := ⟨q.pc.hdr, 1⟩ }
      else fetchSpent s q.wg) := by
  have same := onlyChoices_fetchSpent s q.wg
  show execClauseIssue s = _
  simp only [execClauseIssue, ht, seqClause, hq, stands.fetches, Bool.false_eq_true, if_false, fetched,
    same.hdrOf_eq, same.seqWaitOver_eq]

theorem clauseIssue_unfetched {cause fpc fa : Nat}
    (bad : fetchClause s q.wg true q.pc.hdr = .error (cause, fpc, fa)) :
    exec .clauseIssue s = .next (seqFault s c q cause fa fpc) := by
  show execClauseIssue s = _
  simp only [execClauseIssue, ht, seqClause, hq, stands.fetches, Bool.false_eq_true, if_false, bad]

end

/-- A wait of kind 1 is over where the barrier has passed the phase of the recorded arrival (R217). -/
theorem seqWaitOver_arrived {s : State} {q : Seq} {h : Header} {g : Workgroup} {ph : Nat} (kind : h.waitKind = 1)
    (hg : tget s.wgs q.wg = some g) (arrived : tget q.arrRec h.waitArg.toNat = some ph) :
    seqWaitOver s q h = decide (ph < (barOf g h.waitArg.toNat).phase) := by
  simp only [seqWaitOver, kind, hg, arrived, barDone]
  rfl

/-- Settles O33: each word by its first test that holds, and a clause by what its fetch and its wait give. -/
theorem sequencerWords : Obligations.SequencerWords := by
  unfold Obligations.SequencerWords
  intro s c q ht hq x y z n b off lit done fault target
  have aim : seqTarget q off = target := seqTarget_eq q off
  refine ⟨?literal, ?add, sqsetUniform_writes ht hq x b, ?halt, ?bra, ?branches, ?loop, ?unlooped, ?sqend, ?unopened,
    ?unnamed, ?sqtl, ?barrier, ?clause, ?unfetched⟩
  case literal => exact show execSqsetLiteral x lit s = _ from seqWord_next ht hq rfl
  case add =>
    have sum : qReg q y + qReg q z = BitVec.ofNat 32 ((qReg q y).toNat + (qReg q z).toNat) := by
      rw [BitVec.ofNat_add, BitVec.ofNat_toNat, BitVec.ofNat_toNat, BitVec.setWidth_eq, BitVec.setWidth_eq]
    exact show execSqadd x y z s = _ from seqWord_next ht hq (by rw [sum]; rfl)
  case halt => exact show execSqhalt s = _ from seqWord_next ht hq rfl
  case bra => exact fun zero => show execSqbra x off s = _ from seqWord_next ht hq (if_pos zero)
  case branches =>
    exact fun more => show execSqbra x off s = _ from seqWord_jump ht hq ((if_neg more).trans (by rw [aim]))
  case loop =>
    exact fun more room => show execSqloop x s = _ from seqWord_next ht hq (if_neg (not_or.2 ⟨more, Nat.not_le.2 room⟩))
  case unlooped => exact fun bad => show execSqloop x s = _ from seqWord_fault ht hq (if_pos bad)
  case sqend =>
    intro head m r loop
    refine ⟨fun other => ?_, fun own more => ?_, fun own last => ?_⟩ <;> show execSqend off s = _
    · exact seqWord_fault ht hq (by rw [loop]; exact if_pos (aim ▸ other))
    · exact seqWord_jump ht hq (by rw [loop]; exact (if_neg (not_not.2 (aim.trans own))).trans (if_pos more))
    · refine seqWord_next ht hq ?_
      rw [loop]
      exact (if_neg (not_not.2 (aim.trans own))).trans (if_neg (Nat.not_lt.2 last))
  case unopened => exact fun none_ => show execSqend off s = _ from seqWord_fault ht hq (by rw [none_])
  case unnamed => exact fun bad => show execSqtl x y s = _ from seqWord_fault ht hq (if_pos (congrArg not bad))
  case sqtl =>
    intro ok d
    have named : ¬ (!handleOk s (ctxOfWg s q.wg) (qReg q x)) = true := ne_true_of_eq_false (congrArg not ok)
    refine ⟨fun met => ?_, fun short => ?_⟩ <;> show execSqtl x y s = _
    · exact seqWord_next ht hq ((if_neg named).trans (if_pos ((reached_iff ..).2 met)))
    · exact seqWord_stall ht hq ((if_neg named).trans (if_neg ((reached_iff ..).not.2 (Int.not_le.2 short))))
  case barrier =>
    intro g hg
    refine ⟨fun out => ⟨?_, ?_⟩, fun listed => ⟨?sqbar, ?deflt, ?arrives, fun ahead => ?_, fun behind => ?_⟩⟩
    · exact show execSqbar n s = _ from seqWord_fault ht hq (seqBar_outside hg out _)
    · exact show execSqwait n s = _ from seqWord_fault ht hq (seqBar_outside hg out _)
    case sqbar =>
      exact fun busy => show execSqbar n s = _ from seqWord_stall ht hq ((seqBar_inside hg listed _).trans
        (if_pos (by simpa using busy)))
    case deflt =>
      exact fun idle unset => show execSqbar n s = _ from seqWord_next ht hq ((seqBar_inside hg listed _).trans
        ((if_neg (by simp [idle])).trans (if_pos unset)))
    case arrives =>
      exact fun idle set => show execSqbar n s = _ from seqWord_next ht hq ((seqBar_inside hg listed _).trans
        ((if_neg (by simp [idle])).trans (if_neg (ne_true_of_eq_false set))))
    · exact show execSqwait n s = _ from seqWord_next ht hq ((seqBar_inside hg listed _).trans (if_pos ahead))
    · exact show execSqwait n s = _ from seqWord_stall ht hq ((seqBar_inside hg listed _).trans
        (if_neg (Int.not_lt.2 behind)))
  case unfetched =>
    exact fun cause fpc fa runs free header bad => clauseIssue_unfetched ht hq ⟨runs, free, header⟩ bad
  case clause =>
    intro h ws runs free header fetched
    have issue := clauseIssue_fetched ht hq ⟨runs, free, header⟩ fetched
    refine ⟨fun other => ?_, fun kind out => ?_, fun g ph kind listed hg arrived late => ?_,
      fun g ph kind listed hg arrived past => ?_⟩
    · rwa [if_neg fun bad => other bad.1, seqWaitOver, bne_iff_ne.2 other, Bool.true_or, if_pos rfl] at issue
    · rwa [if_pos ⟨kind, out⟩] at issue
    · rwa [if_neg fun bad => Nat.not_le.2 listed bad.2, seqWaitOver_arrived kind hg arrived,
        if_neg (by simpa using late)] at issue
    · rwa [if_neg fun bad => Nat.not_le.2 listed bad.2, seqWaitOver_arrived kind hg arrived,
        if_pos (decide_eq_true past)] at issue

end Sys2Proof.Machine

/-! PROOF. The shape words (15 R231 to R233): where the fields of a record stand, and what SHSET leaves of it. -/

namespace Sys2Proof.Machine

/-! Fields of a shape record (R232). -/

/-- Every selector of R232 names bits of the record. -/
theorem shField_bounds {n hi lo : Nat} (h : shField n = some (hi, lo)) : lo ≤ hi ∧ hi < 512 := by
  unfold shField at h
  split at h
  case h_17 =>
    split at h
    · cases h; omega
    split at h
    · cases h; omega
    · cases h
  all_goals cases h; omega

/-- SHSET replaces the bits of its field and no others. -/
theorem getLsbD_shSet {n hi lo : Nat} (named : shField n = some (hi, lo)) (plain : n ≠ 0x80) (r : BitVec 512) (v : Nat)
    {i : Nat} (hi512 : i < 512) :
    (shSet r n v).getLsbD i =
      if lo ≤ i ∧ i ≤ hi then (v % 2 ^ (hi - lo + 1)).testBit (i - lo) else r.getLsbD i := by
  obtain ⟨ordered, -⟩ := shField_bounds named
  rw [shSet, if_neg plain, named, getLsbD_setField _ _ _ ordered, decide_eq_true hi512, Bool.true_and]
  refine if_ctx_congr Iff.rfl (fun inside => ?_) fun _ => rfl
  rw [Nat.testBit_mod_two_pow, decide_eq_true (by omega), Bool.true_and]

/-- Selector 0x80 adds to the base, within its 57 bits. -/
theorem shBase_shSet_add (r : BitVec 512) (v : Nat) : shBase (shSet r 0x80 v) = (shBase r + v) % 2 ^ 57 := by
  rw [shSet, if_pos rfl, shBase, field_setField_self _ _ (by decide) (by decide), Nat.mod_mod]

theorem getLsbD_shSet_add (r : BitVec 512) (v : Nat) {i : Nat} (above : 57 ≤ i) :
    (shSet r 0x80 v).getLsbD i = r.getLsbD i := by
  rw [shSet, if_pos rfl, getLsbD_setField _ _ _ (by decide), if_neg (by omega)]
  by_cases inside : i < 512
  · rw [decide_eq_true inside, Bool.true_and]
  · rw [decide_eq_false inside, Bool.false_and, BitVec.getLsbD_of_ge _ _ (Nat.le_of_not_lt inside)]

/-! The shape registers of a workgroup. -/

section
variable {s : State} {wg : Nat} {g : Workgroup} (hg : tget s.wgs wg = some g)
include hg

theorem setSh_eq (n : Nat) (r : BitVec 512) : setSh s wg n r = setWg s wg { g with sh := tputD 0 g.sh n r } := by
  rw [setSh, hg]

theorem shReg_eq (n : Nat) : shReg s wg n = tgetD 0 g.sh n := by
  rw [shReg, hg]

end

/-- A range of LM that R155 and R157 let a workgroup read. -/
theorem lmRangeBad_none {s : State} {wg a n t off : Nat} (place : lmAt s wg a n = some (t, off))
    (clear : stashAlias s t off n = false) : lmRangeBad s wg a n = none := by
  rw [lmRangeBad, place]
  exact if_neg (ne_true_of_eq_false clear)

theorem lmSpoilt_eq {s : State} {wg a n t off : Nat} (place : lmAt s wg a n = some (t, off)) :
    lmSpoilt s wg a n = poisoned s (lmPlace t off) n := by
  rw [lmSpoilt, place]

/-- Settles O34, from the laws of the record's fields and the checks of the range that SHLD reads. -/
theorem shapeWords : Obligations.ShapeWords := by
  unfold Obligations.ShapeWords
  intro s c q g ht hq hg x y z sel op put a
  refine ⟨show execShcopy x y s = _ from seqWord_op ht hq ?copy, show execShset x y z sel s = _ from seqWord_op ht hq ?set,
    fun t off aligned place clear sound => show execShld x y s = _ from seqWord_op ht hq ?load,
    fun odd => show execShld x y s = _ from seqWord_fault ht hq (if_pos odd),
    fun r n v hi lo named plain i hi512 => getLsbD_shSet named plain r v hi512,
    fun r v => ⟨shBase_shSet_add r v, fun i above => getLsbD_shSet_add r v above⟩⟩
  case copy => rw [setSh_eq hg, shReg_eq hg]
  case set =>
    dsimp only
    rw [setSh_eq hg, shReg_eq hg]
  case load =>
    dsimp only
    rw [if_neg (not_not.2 aligned), lmRangeBad_none place clear, place]
    dsimp only
    rw [lmSpoilt_eq place, if_neg (ne_true_of_eq_false sound), setSh_eq hg]
    rfl

end Sys2Proof.Machine

/-! PROOF. Tiles and the completion of a stream's operations (15 R222, R225, R234, R240 to R242, 08 R179, R180): the functions
of MACT, the bytes of MST, the bytes that WLOAD brings, and what an operation leaves of its counter as it is numbered and as
it completes. -/

namespace Sys2Proof.Machine

/-! The functions of MACT (R242). -/

section
variable {fn : Fld} {v : Word}

theorem mactFn_nan (nan : (fdec fp32 v.toNat).isNan = true) : mactFn fn v = 0x7FC00000 := if_pos nan

theorem mactFn_scaled (number : (fdec fp32 v.toNat).isNan = false) (scaled : fn.getLsbD 7 = true) :
    mactFn fn v = BitVec.ofNat 32 (roundVal fp32 0 (scaleBy (fn.extractLsb' 0 7).toInt (fdec fp32 v.toNat))).1 :=
  (if_neg (ne_true_of_eq_false number)).trans (if_pos scaled)

/-- An infinity is rounded to its own encoding (R76). -/
theorem roundVal_fp32_inf {neg : Bool} (infinite : fdec fp32 v.toNat = .inf neg) :
    BitVec.ofNat 32 (roundVal fp32 0 (.inf neg)).1 = v := by
  obtain ⟨magnitude, sign⟩ := fdec_fp32_inf infinite
  have bound := v.isLt
  apply BitVec.eq_of_toNat_eq
  rw [BitVec.toNat_ofNat]
  cases neg with
  | false =>
    have plus : v.toNat / 2 ^ 31 % 2 ≠ 1 := by simpa using sign.symm
    show 255 * 2 ^ 23 % 2 ^ 32 = v.toNat
    omega
  | true =>
    have minus : v.toNat / 2 ^ 31 % 2 = 1 := by simpa using sign.symm
    show (2 ^ 31 + 255 * 2 ^ 23) % 2 ^ 32 = v.toNat
    omega

end

/-! The bytes of MST (R240). -/

theorem mem_littleEndian {p a n x : Nat} {v : Byte} :
    (p, v) ∈ (List.range n).map (fun i => (a + i, BitVec.ofNat 8 (x / 2 ^ (8 * i)))) ↔
      ∃ i < n, p = a + i ∧ v = BitVec.ofNat 8 (x / 2 ^ (8 * i)) := by
  simp only [List.mem_map, List.mem_range, Prod.mk.injEq, eq_comm]

/-- The FP32 encoding that MST stores at column d0 and row d1 of its record. -/
def tileBits (q : Seq) (t : Nat) (tr : Bool) (d0 d1 : Nat) : Nat := (if tr then accAt q t d0 d1 else accAt q t d1 d0).toNat

section
variable {q : Seq} {r : BitVec 512} {t : Nat} {tr : Bool} {p : Nat} {v : Byte}

theorem mem_mstBytes_elements (plain : isTE (shFmt r) = false) (unscaled : shScale r = 0) :
    (p, v) ∈ mstBytes q r t tr ↔ ∃ d0 < min (shExt r 0) 128, ∃ d1 < min (shExt r 1) 128, ∃ i < unitBytes (shFmt r),
      p = unitAddr r [d0, d1] + i ∧ v = BitVec.ofNat 8 ((if shFmt r = shFp32 then tileBits q t tr d0 d1
        else (convertTo (shFmt r) 0 (fdec fp32 (tileBits q t tr d0 d1))).1) / 2 ^ (8 * i)) := by
  simp only [mstBytes, plain, unscaled, Bool.false_eq_true, if_false, ne_eq, not_true_eq_false, List.mem_flatMap,
    List.mem_range, mem_littleEndian, tileBits]
  exact ⟨fun ⟨d1, h1, d0, h0, h⟩ => ⟨d0, h0, d1, h1, h⟩, fun ⟨d0, h0, d1, h1, h⟩ => ⟨d1, h1, d0, h0, h⟩⟩

theorem mem_mstBytes_scaled (plain : isTE (shFmt r) = false) (scaled : shScale r ≠ 0) :
    (p, v) ∈ mstBytes q r t tr ↔ ∃ g < min (shExt r 0) 128 / 8, ∃ d1 < min (shExt r 1) 128,
      let sc := chooseScale (shFmt r) ((List.range 8).map (fun i => fdec fp32 (tileBits q t tr (8 * g + i) d1)))
      (p = scaleAddr r [8 * g, d1] ∧ v = BitVec.ofNat 8 sc.1) ∨
        ∃ i < 8, p = unitAddr r [8 * g + i, d1] ∧ v = BitVec.ofNat 8 (sc.2.1.getD i 0) := by
  have byte (a x : Nat) : (p, v) ∈ (List.range 1).map (fun i => (a + i, BitVec.ofNat 8 (x / 2 ^ (8 * i)))) ↔
      p = a ∧ v = BitVec.ofNat 8 x := by
    simp
  simp only [mstBytes, plain, scaled, Bool.false_eq_true, if_false, ne_eq, not_false_eq_true, if_true, List.mem_flatMap,
    List.mem_range, List.mem_append, byte, tileBits]
  exact ⟨fun ⟨d1, h1, g, hg, h⟩ => ⟨g, hg, d1, h1, h⟩, fun ⟨g, hg, d1, h1, h⟩ => ⟨d1, h1, g, hg, h⟩⟩

theorem mem_mstBytes_blocks (block : isTE (shFmt r) = true) :
    (p, v) ∈ mstBytes q r t tr ↔ ∃ g < min (shExt r 0) 128 / 16, ∃ d1 < min (shExt r 1) 128, ∃ i < unitBytes (shFmt r),
      p = unitAddr r [16 * g, d1] + i ∧ v = BitVec.ofNat 8 ((tePack (teM (shFmt r))
        ((List.range 16).map (fun j => fdec fp32 (tileBits q t tr (16 * g + j) d1)))).1 / 2 ^ (8 * i)) := by
  simp only [mstBytes, block, if_true, List.mem_flatMap, List.mem_range, mem_littleEndian, tileBits]
  exact ⟨fun ⟨d1, h1, g, hg, h⟩ => ⟨g, hg, d1, h1, h⟩, fun ⟨g, hg, d1, h1, h⟩ => ⟨d1, h1, g, hg, h⟩⟩

end

/-! Bytes of global memory where no stash region is mapped (R157). -/

section
variable {s : State} (hs : ∀ e ∈ s.wgs, e.2.stash = [])
include hs

theorem dataPoisoned_unstashed (wg va pa n : Nat) : dataPoisoned s wg va pa n = poisoned s pa n :=
  Undisturbed.dataPoisoned (s := { s with warps := [], ctxs := [], mailboxes := [] }) ⟨nofun, hs, nofun, rfl⟩ wg va pa n

theorem readLoc_unstashed (wg va : Nat) :
    readLoc s wg (gLoc s wg va) 1 = ([memByte s.mem (gridXlate s wg va).1], s) := by
  simp [readLoc, readLocFor, gLoc, readGlobal, ownStash, stashAt_none s hs, flushRange_none s hs, memBytes]

/-- The weight buffer takes each byte of each unit of an image, and reading them changes nothing (R234). -/
theorem foldl_readUnits (wg base off n : Nat) (us : List (Nat × Nat)) (b : Tbl Byte) :
    us.foldl (fun (x : Tbl Byte × State) u => (List.range n).foldl (fun (x : Tbl Byte × State) i =>
        let (bs, s) := readLoc x.2 wg (gLoc x.2 wg (base + u.2 + i)) 1
        (tputD 0 x.1 (off + u.1 + i) (bs.headD 0), s)) x) (b, s) =
      ((us.flatMap (fun e => (List.range n).map (fun i => (e.1 + i, e.2 + i)))).foldl (fun b e =>
        tputD 0 b (off + e.1) (memByte s.mem (gridXlate s wg (base + e.2)).1)) b, s) := by
  rw [List.foldl_flatMap]
  refine List.foldl_hom (fun b => (b, s)) fun b u => ?_
  rw [List.foldl_map]
  refine List.foldl_hom (fun b => (b, s)) fun b i => ?_
  rw [readLoc_unstashed hs]
  simp only [List.headD_cons, Nat.add_assoc]

end

/-! Timeline counters (R179). -/

theorem tlOf_setTl_ne (s : State) (ctx : Nat) {h j : Nat} (t : Tl) (other : h ≠ j) :
    tlOf (setTl s ctx h t) ctx j = tlOf s ctx j := by
  simp [tlOf, setTl, setCtx, ctxRec, tgetD, tget_tput_ne _ _ other]

/-- Every counter of a list takes the completion of an operation, as often as the list names it. -/
theorem tlOf_foldl_complete (ctx n j : Nat) (homes : List Nat) (s : State) :
    tlOf (homes.foldl (fun s h => setTl s ctx h (tlComplete (tlOf s ctx h) n)) s) ctx j =
      (fun t => tlComplete t n)^[homes.count j] (tlOf s ctx j) := by
  induction homes generalizing s with
  | nil => rfl
  | cons h r ih =>
    rw [List.foldl_cons, ih]
    by_cases own : h = j
    · rw [own, tlOf_setTl, List.count_cons_self]
      rfl
    · rw [tlOf_setTl_ne _ _ _ own, List.count_cons_of_ne own]

/-- The next operation completes: the count is its number. -/
theorem tlComplete_next {t : Tl} (none_ : t.done = []) : (tlComplete t (t.value + 1)).value = t.value + 1 := by
  simp [tlComplete, none_, List.range_succ]

/-- A later operation completes: it is remembered above the count. -/
theorem tlComplete_ahead {t : Tl} {n : Nat} (none_ : t.done = []) (ahead : t.value + 1 < n) :
    (tlComplete t n).value = t.value ∧ (tlComplete t n).done = [n] := by
  have other : t.value + 1 ≠ n := by omega
  have above : t.value < n := by omega
  simp [tlComplete, none_, List.range_succ, other, above]

/-! Operations of a sequencer (R222). -/

/-- The sequencer whose operation has been given the next number. -/
def numbered (s : State) (c : Nat) (q : Seq) : Seq :=
  { q with flight := q.flight ++ [((tlOf s (ctxOfWg s q.wg) (seqHandle c)).issued + 1, cycleOf s (dieOf c))] }

section
variable {s : State} {c : Nat} {q : Seq}

/-- A completion changes counters, and nothing of a sequencer. -/
theorem seqOf_seqOpDone (s : State) (c : Nat) (q : Seq) (n : Nat) : seqOf (seqOpDone s c q n) c = seqOf s c :=
  List.foldlRecOn (motive := fun t => seqOf t c = seqOf s c) _ _ rfl fun _ ht _ _ => ht

variable (hq : seqOf s c = some q)
include hq

theorem seqComplete_eq {n clock : Nat} {r : List (Nat × Nat)} (oldest : q.flight = (n, clock) :: r) :
    seqComplete s c = seqOpDone (setSeq (measureOp s q.wg (seqHandle c) clock) c
      { q with flight := r, homes := if r.isEmpty then [] else q.homes }) c q n := by
  simp only [seqComplete, hq, oldest]

theorem seqOf_seqComplete {n clock : Nat} {r : List (Nat × Nat)} (oldest : q.flight = (n, clock) :: r) :
    seqOf (seqComplete s c) c = some { q with flight := r, homes := if r.isEmpty then [] else q.homes } := by
  rw [seqComplete_eq hq oldest, seqOf_seqOpDone, seqOf_setSeq]

/-- A counter of the sequencer's context takes the completion as often as it is one of those that the operation completes
on. -/
theorem tlOf_seqComplete {n clock : Nat} {r : List (Nat × Nat)} (oldest : q.flight = (n, clock) :: r) (j : Nat) :
    tlOf (seqComplete s c) (ctxOfWg s q.wg) j =
      (fun t => tlComplete t n)^[(seqHandle c :: q.homes).count j] (tlOf s (ctxOfWg s q.wg) j) := by
  rw [seqComplete_eq hq oldest]
  exact tlOf_foldl_complete ..

theorem seqNumber_eq : seqNumber s c =
    let ctx := ctxOfWg s q.wg
    let t := tlOf s ctx (seqHandle c)
    let u := setSeq (setTl s ctx (seqHandle c) { t with issued := t.issued + 1 }) c (numbered s c q)
    if contOfWg s q.wg then seqComplete u c else u := by
  simp only [seqNumber, hq]
  rfl

/-- An operation changes nothing of its sequencer but the record of what is in flight. -/
theorem seqOf_seqNumber : ∃ f h, seqOf (seqNumber s c) c = some { q with flight := f, homes := h } := by
  rw [seqNumber_eq hq]
  dsimp only
  split
  · obtain ⟨⟨n, clock⟩, r, flight⟩ : ∃ x r, (numbered s c q).flight = x :: r :=
      List.exists_cons_of_ne_nil (by simp [numbered])
    exact ⟨_, _, seqOf_seqComplete (seqOf_setSeq ..) flight⟩
  · exact ⟨_, _, seqOf_setSeq ..⟩

end

/-! WLOAD (R234). -/

/-- The weight buffer once the bytes of an image have come from memory. -/
def loadedUnits (s : State) (q : Seq) (r : BitVec 512) (off : Nat) : Tbl Byte :=
  ((imageUnits r).flatMap (fun e => (List.range (unitBytes (shFmt r))).map (fun i => (e.1 + i, e.2 + i)))).foldl
    (fun b e => tputD 0 b (off + e.1) (memByte s.mem (gridXlate s q.wg (shBase r + e.2)).1)) q.wbuf

section
variable {s : State} {c : Nat} {q : Seq} (ht : s.issuer = .seq c) (hq : seqOf s c = some q)
include ht hq

/-- WLOAD where its checks find nothing. -/
theorem wload_fills (x y : BitVec 4) :
    let r := shReg s q.wg x.toNat
    let n := unitBytes (shFmt r)
    let off := (qReg q y).toNat
    let us := imageUnits r
    shapeBad r = false → shScale r = 0 → (shTrans r = true → isTE (shFmt r) = false) → wbBad off (us.length * n) = false →
    sideGlobalBad s q.wg needR (sidePieces ⟨false, shBase r⟩ (us.map (fun u => (u.2, n)))) = none →
    (∀ u ∈ us, poisoned s (gridXlate s q.wg (shBase r + u.2)).1 n = false) → (∀ e ∈ s.wgs, e.2.stash = []) →
    exec (.wload x y) s = .next (seqGo (seqNumber (setSeq s c
      { storeClean q off (us.length * n) with wbuf := loadedUnits s q r off }) c) c (seqNext q)) := by
  intro r n off us shape unscaled trans range pieces sound unstashed
  have record : (shapeBad r || shScale r != 0 || (shTrans r && isTE (shFmt r))) = false := by
    rw [shape, unscaled]
    simpa using trans
  have clean : us.find? (fun u => dataPoisoned s q.wg (shBase r + u.2) (gridXlate s q.wg (shBase r + u.2)).1 n) = none :=
    List.find?_eq_none.2 fun u hu => by simpa [dataPoisoned_unstashed unstashed] using sound u hu
  refine show execWload x y s = _ from seqWord_op ht hq ?_
  dsimp only
  rw [if_neg (ne_true_of_eq_false record), if_neg (ne_true_of_eq_false range), pieces]
  dsimp only
  rw [clean]
  dsimp only
  rw [foldl_readUnits unstashed]
  dsimp only
  rw [hq]
  rfl

end

/-- Settles O36: each word where its checks find nothing, the functions of MACT, the bytes of MST by the record's format, and
the numbering and completion of operations. -/
theorem tilesAndCompletion : Obligations.TilesAndCompletion := by
  unfold Obligations.TilesAndCompletion
  refine ⟨⟨?words, fun q t t1 i j g hi hj => accAt_setTile q t t1 g hi hj, fun fn v nan => mactFn_nan nan,
    fun v number => ⟨?positive, ?magnitude, ?negation⟩, fun fn v scaled => ⟨?finite, ?infinite⟩, ?bytes⟩, ?operations⟩
  case words =>
    intro s c q ht hq x y fn op
    refine ⟨show execMzero x s = _ from seqWord_op ht hq rfl,
      fun sound => show execMact x fn s = _ from seqWord_op ht hq (if_neg (ne_true_of_eq_false sound)),
      fun spoilt => show execMact x fn s = _ from seqWord_fault ht hq (if_pos spoilt), ?mld, ?mst, ?wload⟩
    case mld =>
      intro r idx shape rank place trans data
      refine show execMld x y s = _ from seqWord_op ht hq ?_
      have record : (shapeBad r || shRank r != 2 || lmShapeBad r || (shTrans r && isTE (shFmt r))) = false := by
        rw [shape, rank, place]
        simpa using trans
      dsimp only
      rw [if_neg (ne_true_of_eq_false record), data]
    case mst =>
      intro r shape rank place trans sound data
      refine show execMst x y fn s = _ from seqWord_op ht hq ?_
      have record : (shapeBad r || shRank r != 2 || shTrans r || lmShapeBad r) = false := by
        rw [shape, rank, trans, place]
        rfl
      dsimp only
      rw [if_neg (ne_true_of_eq_false record), data]
      exact if_neg (ne_true_of_eq_false sound)
    case wload =>
      intro r n off us shape unscaled trans range pieces sound unstashed
      obtain ⟨f, h, seq⟩ := seqOf_seqNumber (seqOf_setSeq s c
        { storeClean q off (us.length * n) with wbuf := loadedUnits s q r off })
      exact ⟨_, wload_fills ht hq x y shape unscaled trans range pieces sound unstashed, fun a => by simp,
        _, seqOf_seqGo seq _, rfl, rfl, rfl⟩
  case positive => exact if_neg (ne_true_of_eq_false number)
  case magnitude => exact if_neg (ne_true_of_eq_false number)
  case negation => exact if_neg (ne_true_of_eq_false number)
  case finite =>
    intro neg m e value
    rw [mactFn_scaled (by rw [value]; rfl) scaled, value]
    rfl
  case infinite =>
    intro neg value
    rw [mactFn_scaled (by rw [value]; rfl) scaled, value]
    exact roundVal_fp32_inf value
  case bytes =>
    exact fun q r t tr p v => ⟨mem_mstBytes_elements, mem_mstBytes_scaled, mem_mstBytes_blocks⟩
  case operations =>
    intro s c q hq ctx h
    refine ⟨?completes, ?numbers, fun t n none_ => ⟨?next, fun ahead => tlComplete_ahead none_ ahead⟩⟩
    case completes =>
      intro n clock r oldest
      refine ⟨_, rfl, seqOf_seqComplete hq oldest, fun away => ?own, fun j home other distinct => ?home, fun a => by simp⟩
      case own =>
        rw [tlOf_seqComplete hq oldest, List.count_cons_self, List.count_eq_zero_of_not_mem away]
        rfl
      case home =>
        rw [tlOf_seqComplete hq oldest, List.count_cons_of_ne other.symm, List.count_eq_one_of_mem distinct home]
        rfl
    case numbers =>
      intro cont
      rw [seqNumber_eq hq]
      dsimp only
      rw [if_neg (ne_true_of_eq_false cont)]
      exact ⟨_, seqOf_setSeq .., by simp [numbered, ctx, h], tlOf_setTl ..⟩
    case next =>
      rintro rfl
      exact tlComplete_next none_

end Sys2Proof.Machine

/-! PROOF. Words whose lanes act one after another, and tasks (17 R251 to R253, R258, R260 to R262). -/

namespace Sys2Proof.Machine

/-! Lanes that act one after another (R258). -/

section
variable {i : Instr} {s : State} {k : Nat} {w : Warp} {regs : List Fld}
  {f : Nat → Warp → State → Nat → Except (Nat × Nat) State}

/-- Outside a take such a word does what its lanes do, or raises the first failure with no effect. -/
theorem does_laneActs (free : NoMember w) (h : Issues s k w regs)
    (hi : exec i s = laneWord s regs (fun s k w => laneActs w (lanesOf w.act) s (f k w))) :
    (∀ t, tryLanes (lanesOf w.act) (issued s k w) (f k (clearPass w)) = .ok t → Does i s k w (.next t)) ∧
      (∀ c x l, tryLanes (lanesOf w.act) (issued s k w) (f k (clearPass w)) = .error (c, x, l) →
        Does i s k w (.fault c x l 0)) := by
  have does := does_of_laneWord h hi
  simp only [laneActs, activeMember_eq_none free, clearPass_act] at does
  exact ⟨fun t acts => by rwa [acts] at does, fun c x l fails => by rwa [fails] at does⟩

end

theorem tryLanes_cons_ok {s t : State} {l : Nat} {f : State → Nat → Except (Nat × Nat) State} (h : f s l = .ok t)
    (r : List Nat) : tryLanes (l :: r) s f = tryLanes r t f := by
  rw [tryLanes, h]

/-- Numbering the elements of a list goes on after its first. -/
theorem zip_range_cons {α : Type} (a : α) (l : List α) : (List.range (a :: l).length).zip (a :: l) =
    (0, a) :: ((List.range l.length).zip l).map (fun e => (e.1 + 1, e.2)) := by
  rw [List.length_cons, List.range_succ_eq_map, List.zip_cons_cons, List.zip_map_left]
  rfl

/-- The low bits of an aligned address are zero. -/
theorem lowBits_eq_zero {x : Word} (aligned : x.toNat % 4 = 0) : x.extractLsb' 0 2 = 0 := by
  have none_ := lowBits_ne_zero x
  rw [decide_eq_false (not_not.2 aligned)] at none_
  exact bne_eq_false_iff_eq.1 none_

theorem wid_clearPass (w : Warp) (l : Nat) : (thr (clearPass w) l).map (·.wid) = (thr w l).map (·.wid) := by
  rw [thr_clearPass, Option.map_map]
  congr 1
  funext x
  simp only [Function.comp]
  split <;> rfl

/-! Tasks (R252, R253, R261). -/

/-- A task of a workgroup on a core joins that core's list, under the next task serial; memory, warps, grids and clocks stay. -/
theorem createTask_resident {s : State} {wg c : Nat} {g : Workgroup} (hg : tget s.wgs wg = some g) (hc : g.core = some c)
    (pc : DWord) (args : List Word) (wid : DWord) (waits : Option Word) (responder : Bool) (cen : Option (Nat × Nat)) :
    let t := createTask s wg pc args wid waits responder cen
    t = { s with wgs := t.wgs, cores := t.cores } ∧
      tget t.wgs wg = some { g with nextSerial := (g.nextSerial + 1) % 2 ^ 32 } ∧ wgClock t c wg = wgClock s c wg ∧
      (coreRec t c).tasks = (coreRec s c).tasks ++
        [⟨wg, g.nextSerial, pc, args, wid, waits, wgClock s c wg, responder, cen, none, false⟩] := by
  have clock : readyClock s wg = wgClock s c wg := by rw [readyClock, hg, Option.bind_some, hc]
  simp only [createTask, hg, hc, clock]
  refine ⟨rfl, tget_tput_self .., ?_, by rw [coreRec_setCore_self]; rfl⟩
  simp only [wgClock, contOfWg, gridOfWg, retiredOf, setCore_grids, setWg_grids, setCore_wgs, setWg_wgs, tget_tput_self, hg,
    cycleOf_setCore, cycleOf_setWg, Option.map_some]

theorem taskRoom_onChip {s : State} {wg c : Nat} {g : Workgroup} (hg : tget s.wgs wg = some g) (hc : g.core = some c)
    (grid : (gridOfWg s wg).isSome = true) (room : (coreRec s c).tasks.length < 1024) : taskRoom s wg = true := by
  obtain ⟨x, hx⟩ := Option.isSome_iff_exists.1 grid
  simp only [taskRoom, hg, hx, hc, decide_eq_true room, Bool.true_or]

/-- The arguments of a task: registers from B upwards, and zeros after them (R261). -/
def taskArgs (w : Warp) (b : Fld) (n l : Nat) : List Word :=
  (List.range 8).map (fun i => if i < n then rd w (b + BitVec.ofNat 8 i) l else 0)

/-- A lane whose target is aligned creates its task where there is room (R261). -/
theorem spawnLane_creates {s : State} {w : Warp} {a : Fld} {l : Nat} (b : Fld) (n : Nat) (room : taskRoom s w.wg = true)
    (aligned : (rd w a l).toNat % 4 = 0) :
    spawnLane w a b false n s l = .ok (createTask s w.wg (regTarget (curPC w).hdr (rd w a l)) (taskArgs w b n l)
      (((thr w l).map (·.wid)).getD 0) none false none) := by
  rw [spawnLane, lowBits_eq_zero aligned, room]
  rfl

/-- The task of a lane, by its place among the lanes that act (R252, R261). -/
def spawned (w : Warp) (a b : Fld) (n serial clock : Nat) (e : Nat × Nat) : Task :=
  ⟨w.wg, (serial + e.1) % 2 ^ 32, regTarget (curPC w).hdr (rd w a e.2), taskArgs w b n e.2,
    ((thr w e.2).map (·.wid)).getD 0, none, clock, false, none, none, false⟩

theorem spawnLanes_create {w : Warp} {a b : Fld} {n c : Nat} (ls : List Nat) : ∀ {s : State} {g : Workgroup},
    tget s.wgs w.wg = some g → g.core = some c → (gridOfWg s w.wg).isSome = true → g.nextSerial < 2 ^ 32 →
    (coreRec s c).tasks.length + ls.length ≤ 1024 → (∀ l ∈ ls, (rd w a l).toNat % 4 = 0) →
    ∃ t, tryLanes ls s (spawnLane w a b false n) = .ok t ∧ t = { s with wgs := t.wgs, cores := t.cores } ∧
      (coreRec t c).tasks = (coreRec s c).tasks ++
        ((List.range ls.length).zip ls).map (spawned w a b n g.nextSerial (wgClock s c w.wg)) := by
  induction ls with
  | nil => exact fun _ _ _ _ _ _ => ⟨_, rfl, rfl, (List.append_nil _).symm⟩
  | cons l r ih =>
    intro s g hg hc grid serial room aligned
    rw [List.length_cons] at room
    have creates := spawnLane_creates b n (taskRoom_onChip hg hc grid (by omega)) (aligned l List.mem_cons_self)
    obtain ⟨rest, own, clock, tasks⟩ := createTask_resident hg hc (regTarget (curPC w).hdr (rd w a l)) (taskArgs w b n l)
      (((thr w l).map (·.wid)).getD 0) none false none
    generalize createTask s w.wg _ _ _ _ _ _ = u at creates rest own clock tasks
    have same : (gridOfWg u w.wg).isSome = true := by rw [rest]; exact grid
    obtain ⟨t, acts, restR, tasksR⟩ := ih own hc same (Nat.mod_lt _ (by decide))
      (by rw [tasks, List.length_append, List.length_singleton]; omega) (fun m hm => aligned m (List.mem_cons_of_mem _ hm))
    have first : spawned w a b n g.nextSerial (wgClock s c w.wg) (0, l) = ⟨w.wg, g.nextSerial,
        regTarget (curPC w).hdr (rd w a l), taskArgs w b n l, ((thr w l).map (·.wid)).getD 0, none, wgClock s c w.wg, false,
        none, none, false⟩ := by
      rw [spawned, Nat.add_zero, Nat.mod_eq_of_lt serial]
    have later (e : Nat × Nat) : spawned w a b n ((g.nextSerial + 1) % 2 ^ 32) (wgClock s c w.wg) e =
        spawned w a b n g.nextSerial (wgClock s c w.wg) (e.1 + 1, e.2) := by
      simp only [spawned, Nat.mod_add_mod, Nat.add_assoc, Nat.add_comm 1]
    refine ⟨t, (tryLanes_cons_ok creates r).trans acts, by rw [restR, rest], ?_⟩
    rw [tasksR, tasks, clock, zip_range_cons, List.map_cons, List.map_map, first, List.append_assoc]
    exact congrArg (fun x => _ ++ (_ :: x)) (List.map_congr_left fun e _ => later e)

/-- What TSPAWN of tasks that wait for no future leaves, where every target is aligned and the core's list has room (R261). -/
theorem tspawn_creates {s : State} {k c : Nat} {w : Warp} {g : Workgroup} {a b aux : Fld} (free : NoMember w)
    (h : Issues s k w (a :: regGroup b (aux.toNat % 16))) (hg : tget s.wgs w.wg = some g) (hc : g.core = some c)
    (grid : (gridOfWg s w.wg).isSome = true) (quiet : w.sstep = false) (serial : g.nextSerial < 2 ^ 32)
    (room : (coreRec s c).tasks.length + 32 ≤ 1024)
    (aligned : ∀ l, w.act.getLsbD l = true → (rd w a l).toNat % 4 = 0) :
    ∃ t, exec (.tspawn a b 0 aux) s = .next t ∧ (∀ x, memByte t.mem x = memByte s.mem x) ∧
      (coreRec t c).tasks = (coreRec s c).tasks ++ ((List.range (lanesOf w.act).length).zip (lanesOf w.act)).map
        (spawned (clearPass w) a b (aux.toNat % 16) g.nextSerial (wgClock s c w.wg)) := by
  have few : (lanesOf w.act).length ≤ 32 := (List.length_filter_le ..).trans_eq List.length_range
  obtain ⟨t, acts, rest, tasks⟩ := spawnLanes_create (s := issued s k w) (w := clearPass w) (a := a) (b := b)
    (n := aux.toNat % 16) (c := c) (lanesOf w.act) (by rw [clearPass_wg]; exact hg) hc (by rw [clearPass_wg]; exact grid)
    serial ((Nat.add_le_add_left few _).trans room) (fun l hl => by rw [rd_clearPass]; exact aligned l (mem_lanesOf.1 hl).2)
  have does := (does_laneActs (i := .tspawn a b 0 aux)
    (f := fun _ w => spawnLane w a b ((0 : BitVec 4) == 1) (aux.toNat % 16)) free h rfl).1 t acts
  have slot : tget t.warps k = some (clearPass w) := by rw [rest]; exact tget_tput_self ..
  rw [Does, finishEff_next slot ((clearPass_sstep w).trans quiet)] at does
  have same := (onlyWarp_count t k w (goOn (clearPass w) (clearPass w))).rest
  have mem := (onlyWarp_count t k w (goOn (clearPass w) (clearPass w))).mem
  generalize countRetired _ w.wg = u at does same mem
  refine ⟨u, does, fun x => (mem x).trans (by rw [rest]; rfl), ?_⟩
  have cores : coreRec u c = coreRec t c := by rw [same]; rfl
  rw [clearPass_wg] at tasks
  rw [cores]
  exact tasks

/-- What TEND does, by its first test that holds (R262). -/
theorem does_tend {s : State} {k : Nat} {w : Warp} (h : Issues s k w []) : Does .tend s k w
    (if !(w.kind == .task || w.kind == .responder) then .fault 0x0B 0 (low w) 0
      else match lowest (w.act &&& members w) with
        | some l => .fault 0x51 0 l 0
        | none => .moved (endLanes (setWarp (tendWithdraw (issued s k w) (clearPass w)) k (choicePoint (clearPass w))) k
            w.act (wordAddr (curPC w)))) := by
  have does := does_of_laneWord (i := .tend) h (Eq.refl (execTend s))
  rwa [clearPass_kind, low_clearPass, activeMember_clearPass, clearPass_act, curPC_clearPass] at does

/-- Settles O23: TSPAWN by the lanes that act in turn, each with its own task; TEND by its first test that holds. -/
theorem taskWords : Obligations.TaskWords := by
  unfold Obligations.TaskWords
  intro s k w a b aux sub
  refine ⟨fun free h => ⟨?acts, ?fails, fun g c hg hc grid quiet serial room aligned => ?creates⟩, fun h => ⟨?other, ?ends⟩⟩
  case acts =>
    exact (does_laneActs (i := .tspawn a b sub aux) (f := fun _ w => spawnLane w a b (sub == 1) (aux.toNat % 16)) free h
      rfl).1
  case fails =>
    exact (does_laneActs (i := .tspawn a b sub aux) (f := fun _ w => spawnLane w a b (sub == 1) (aux.toNat % 16)) free h
      rfl).2
  case creates =>
    obtain ⟨t, runs, mem, tasks⟩ := tspawn_creates free h hg hc grid quiet serial room aligned
    refine ⟨t, runs, mem, tasks.trans (congrArg _ (List.map_congr_left fun e _ => ?_))⟩
    simp only [spawned, taskArgs, clearPass_wg, curPC_clearPass, rd_clearPass, wid_clearPass]
  case other =>
    intro task responder
    have does := does_tend h
    rwa [if_pos (by simp [task, responder])] at does
  case ends =>
    intro kind
    have does := does_tend h
    rw [if_neg (by rcases kind with kind | kind <;> simp [kind])] at does
    refine ⟨fun l first => by rwa [first] at does, fun free => ?_⟩
    have none_ := activeMember_eq_none free
    rw [activeMember_clearPass, activeMember] at none_
    rwa [none_] at does

end Sys2Proof.Machine

/-! PROOF. The allocation of futures (17 R263, R266): the lowest free entry of a table, and the handles that FUTNEW gives. -/

namespace Sys2Proof.Machine

/-! Entries in use. -/

/-- The numbers of the entries of a future table that are not FREE. -/
def usedFuts (t : Tbl Fut) : List Nat := (t.filter (fun e => e.2.st != 0)).map (·.1)

theorem mem_usedFuts {t : Tbl Fut} (sorted : tsorted t = true) {i : Nat} :
    i ∈ usedFuts t ↔ (tgetD Fut.empty t i).st ≠ 0 := by
  have free : Fut.empty.st = 0 := rfl
  simp only [usedFuts, List.mem_map, List.mem_filter, bne_iff_ne]
  constructor
  · rintro ⟨e, ⟨he, used⟩, rfl⟩
    rwa [tgetD, tget_of_mem sorted he]
  · intro used
    cases hi : tget t i with
    | none => simp [tgetD, hi, free] at used
    | some e => exact ⟨(i, e), ⟨tget_mem hi, by simpa [tgetD, hi] using used⟩, rfl⟩

theorem nodup_usedFuts {t : Tbl Fut} (sorted : tsorted t = true) : (usedFuts t).Nodup := by
  have rising := (tsorted_iff _).1 (tsorted_filter (fun e => e.2.st != 0) sorted)
  exact List.pairwise_map.2 (rising.imp Nat.ne_of_lt)

/-- An entry that comes into use is one more. -/
theorem length_usedFuts_tput {t : Tbl Fut} (sorted : tsorted t = true) {i : Nat} (free : (tgetD Fut.empty t i).st = 0)
    {e : Fut} (used : e.st ≠ 0) : (usedFuts (tput t i e)).length = (usedFuts t).length + 1 := by
  have new : i ∉ usedFuts t := fun h => (mem_usedFuts sorted).1 h free
  have same : (usedFuts (tput t i e)).Perm (i :: usedFuts t) := by
    refine (List.perm_ext_iff_of_nodup (nodup_usedFuts (tsorted_tput i e sorted))
      (List.nodup_cons.2 ⟨new, nodup_usedFuts sorted⟩)).2 fun j => ?_
    rw [mem_usedFuts (tsorted_tput i e sorted), List.mem_cons, mem_usedFuts sorted, tgetD_tput]
    by_cases own : i = j
    · simp [own, used]
    · simp [own, Ne.symm own]
  rw [same.length_eq, List.length_cons]

/-! The lowest free entry (R266). -/

/-- The lowest number that a list lacks is at most the length of the list. -/
theorem le_length_of_forall_mem {busy : List Nat} {i : Nat} (used : ∀ j < i, j ∈ busy) : i ≤ busy.length := by
  have some_ := (List.subperm_of_subset List.nodup_range fun j hj => used j (List.mem_range.1 hj)).length_le
  rwa [List.length_range] at some_

section
variable {s : State} {wg : Nat} {g : Grid} (hg : gridOfWg s wg = some g)
  (sorted : tsorted (ctxRec s g.ctx).futures = true)
include hg sorted

/-- FUTNEW takes the lowest FREE entry. -/
theorem newFut_lowest {i : Nat} (bound : i < futSize g.desc)
    (used : ∀ j < i, (tgetD Fut.empty (ctxRec s g.ctx).futures j).st ≠ 0)
    (free : (tgetD Fut.empty (ctxRec s g.ctx).futures i).st = 0) :
    newFut s wg = some (futHandle (tgetD Fut.empty (ctxRec s g.ctx).futures i) i,
      setFut s g.ctx i { tgetD Fut.empty (ctxRec s g.ctx).futures i with st := 1, val := 0 }) := by
  have low (j : Nat) (hj : j < i) : j ∈ usedFuts (ctxRec s g.ctx).futures := (mem_usedFuts sorted).2 (used j hj)
  have own : i ∉ usedFuts (ctxRec s g.ctx).futures := fun h => (mem_usedFuts sorted).1 h free
  have found : freeFut s g.ctx (futSize g.desc) = some i := by
    rw [freeFut]
    refine List.find?_range_eq_some.2 ⟨?_, List.mem_range.2 (lt_min bound ?_), fun j hj => ?_⟩
    · show (!(usedFuts (ctxRec s g.ctx).futures).contains i) = true
      simpa using own
    · exact Nat.lt_succ_of_le (le_length_of_forall_mem low)
    · show (!!(usedFuts (ctxRec s g.ctx).futures).contains j) = true
      simpa using low j hj
  rw [newFut, hg]
  dsimp only
  rw [found]

/-- There is a FREE entry where not every one is in use. -/
theorem newFut_takes (room : (usedFuts (ctxRec s g.ctx).futures).length < futSize g.desc) :
    ∃ i < futSize g.desc, (tgetD Fut.empty (ctxRec s g.ctx).futures i).st = 0 ∧
      newFut s wg = some (futHandle (tgetD Fut.empty (ctxRec s g.ctx).futures i) i,
        setFut s g.ctx i { tgetD Fut.empty (ctxRec s g.ctx).futures i with st := 1, val := 0 }) := by
  let free (i : Nat) : Prop := (tgetD Fut.empty (ctxRec s g.ctx).futures i).st = 0
  have some_ : ∃ i, free i := by
    by_contra none_
    exact Nat.not_succ_le_self _ (le_length_of_forall_mem
      fun j (_ : j < (usedFuts (ctxRec s g.ctx).futures).length + 1) => (mem_usedFuts sorted).2 fun h => none_ ⟨j, h⟩)
  classical
  have used (j : Nat) (hj : j < Nat.find some_) : ¬ free j := Nat.find_min some_ hj
  have bound : Nat.find some_ < futSize g.desc :=
    (le_length_of_forall_mem fun j hj => (mem_usedFuts sorted).2 (used j hj)).trans_lt room
  exact ⟨_, bound, Nat.find_spec some_, newFut_lowest hg sorted bound used (Nat.find_spec some_)⟩

end

/-! Handles (R263, R266). -/

/-- The fields of the handle of an entry. -/
theorem futHandle_fields {e : Fut} {i : Nat} (gen : e.gen < 4096) (bound : i < 2 ^ 20) :
    futIx (futHandle e i) = i ∧ field (futHandle e i) 31 20 = e.gen := by
  rw [futIx, futHandle, field_ofNat _ (by decide) (by decide), field_ofNat _ (by decide) (by decide)]
  omega

@[simp] theorem ctxRec_setFut (s : State) (ctx i : Nat) (e : Fut) : ctxRec (setFut s ctx i e) ctx =
    { ctxRec s ctx with futures := tput (ctxRec s ctx).futures i e } := by
  rw [setFut, ctxRec_setCtx, if_pos rfl]

theorem setFut_rest (s : State) (ctx i : Nat) (e : Fut) : setFut s ctx i e = { s with ctxs := (setFut s ctx i e).ctxs } := rfl

/-- A lane's handle in a list of handles names an entry that has been allocated, and is not stale. -/
def Allocated (s : State) (ctx : Nat) (h : Word) : Prop := (futEntry s ctx h).st = 1 ∧ (futEntry s ctx h).gen = field h 31 20

/-- Allocation for some lanes: every lane has a handle of its own entry, and entries in use stay as they are (R266). -/
theorem newFuts_allocate {wg : Nat} {g : Grid} (size : futSize g.desc ≤ 2 ^ 20) (ls : List Nat) : ∀ {s : State},
    gridOfWg s wg = some g → tsorted (ctxRec s g.ctx).futures = true →
    (∀ i, (tgetD Fut.empty (ctxRec s g.ctx).futures i).gen < 4096) →
    (usedFuts (ctxRec s g.ctx).futures).length + ls.length ≤ futSize g.desc →
    ∃ hs t, newFuts s wg ls = .ok (hs, t) ∧ t = { s with ctxs := t.ctxs } ∧
      (∀ l ∈ ls, Allocated t g.ctx (tgetD 0 hs l)) ∧
      ∀ i, (tgetD Fut.empty (ctxRec s g.ctx).futures i).st ≠ 0 →
        tgetD Fut.empty (ctxRec t g.ctx).futures i = tgetD Fut.empty (ctxRec s g.ctx).futures i := by
  induction ls with
  | nil => exact fun _ _ _ _ => ⟨_, _, rfl, rfl, fun _ h => absurd h List.not_mem_nil, fun _ _ => rfl⟩
  | cons l r ih =>
    intro s hg sorted gens room
    rw [List.length_cons] at room
    obtain ⟨i, bound, free, new⟩ := newFut_takes hg sorted (by omega)
    let e : Fut := { tgetD Fut.empty (ctxRec s g.ctx).futures i with st := 1, val := 0 }
    have after (j : Nat) : tgetD Fut.empty (ctxRec (setFut s g.ctx i e) g.ctx).futures j =
        if i = j then e else tgetD Fut.empty (ctxRec s g.ctx).futures j := by rw [ctxRec_setFut, tgetD_tput]
    obtain ⟨hs, t, rest, only, own, kept⟩ := ih (s := setFut s g.ctx i e) hg
      (by rw [ctxRec_setFut]; exact tsorted_tput _ _ sorted)
      (fun j => by
        rw [after]
        split
        · exact gens i
        · exact gens j)
      (by
        rw [ctxRec_setFut]
        have more := length_usedFuts_tput sorted free (e := e) Nat.one_ne_zero
        simp only at more ⊢
        omega)
    refine ⟨_, t, by rw [newFuts, new]; dsimp only; rw [rest], by rw [only, setFut_rest], fun j hj => ?_, fun j used => ?_⟩
    · by_cases first : l = j
      · have mine : tgetD 0 ((l, futHandle (tgetD Fut.empty (ctxRec s g.ctx).futures i) i) :: hs) j =
            futHandle (tgetD Fut.empty (ctxRec s g.ctx).futures i) i := by rw [tgetD, tget, if_pos first]; rfl
        obtain ⟨index, gen⟩ := futHandle_fields (gens i) (bound.trans_le size)
        have entry : tgetD Fut.empty (ctxRec t g.ctx).futures i = e :=
          (kept i (by rw [after, if_pos rfl]; exact Nat.one_ne_zero)).trans (by rw [after, if_pos rfl])
        rw [mine, Allocated, futEntry, index, entry, gen]
        exact ⟨rfl, rfl⟩
      · have other : tgetD 0 ((l, futHandle (tgetD Fut.empty (ctxRec s g.ctx).futures i) i) :: hs) j = tgetD 0 hs j := by
          rw [tgetD, tget, if_neg first, tgetD]
        rw [other]
        exact own j ((List.mem_cons.1 hj).resolve_left (Ne.symm first))
    · have apart : i ≠ j := fun same => used (same ▸ free)
      rw [kept j (by rwa [after, if_neg apart]), after, if_neg apart]

end Sys2Proof.Machine

/-! PROOF. The words on futures (17 R258, R264 to R268): each by its first test that holds, and the resolution of a future. -/

namespace Sys2Proof.Machine

/-! FUTNEW (R266). -/

theorem lanesFor_clearPass (w : Warp) (f : Fld) :
    lanesFor (clearPass w) f = if f.toNat < 192 then lanesOf w.act else [low w] := by
  rw [lanesFor, clearPass_act, low_clearPass]

section
variable {s : State} {k : Nat} {w : Warp} {d a b : Fld}

/-- What FUTNEW does outside a take. -/
theorem does_futnew (free : NoMember w) (h : Issues s k w [d]) : Does (.futnew d) s k w
    (match newFuts (issued s k w) w.wg (if d.toNat < 192 then lanesOf w.act else [low w]) with
      | .error l => .fault 0x45 0 l 0
      | .ok (hs, t) => .next (setWarp t k (mapLanes (clearPass w) d (fun l => tgetD 0 hs l)))) := by
  have does := does_of_laneWord (i := .futnew d) h (Eq.refl (execFutnew d s))
  simp only [laneChecks, activeMember_eq_none free, clearPass_wg, lanesFor_clearPass, futFull] at does
  generalize newFuts (issued s k w) w.wg _ = x at does ⊢
  cases x <;> exact does

/-- FUTNEW where the table has an entry for each lane (R266). -/
theorem futnew_allocates {g : Grid} (free : NoMember w) (h : Issues s k w [d]) (hg : gridOfWg s w.wg = some g)
    (quiet : w.sstep = false) (sorted : tsorted (ctxRec s g.ctx).futures = true)
    (room : ((ctxRec s g.ctx).futures.filter (fun e => e.2.st != 0)).length +
      (if d.toNat < 192 then lanesOf w.act else [low w]).length ≤ futSize g.desc)
    (gens : ∀ e ∈ (ctxRec s g.ctx).futures, e.2.gen < 4096) (size : futSize g.desc ≤ 2 ^ 20)
    (some_ : w.act = 0 → d.toNat < 192) :
    ∃ t w2, exec (.futnew d) s = .next t ∧ tget t.warps k = some w2 ∧ GoesOn w w2 ∧
      (∀ l ∈ (if d.toNat < 192 then lanesOf w.act else [low w]), Allocated t g.ctx (rd w2 d l)) ∧
      (∀ f l, f ≠ d → l < 32 → rd w2 f l = rd w f l) ∧ t = { s with warps := t.warps, wgs := t.wgs, ctxs := t.ctxs } := by
  have gen (i : Nat) : (tgetD Fut.empty (ctxRec s g.ctx).futures i).gen < 4096 := by
    cases hi : tget (ctxRec s g.ctx).futures i with
    | none => rw [tgetD, hi]; decide
    | some e => rw [tgetD, hi]; exact gens _ (tget_mem hi)
  obtain ⟨hs, u, new, only, own, -⟩ := newFuts_allocate (s := issued s k w) size
    (if d.toNat < 192 then lanesOf w.act else [low w]) hg sorted gen (by rw [usedFuts, List.length_map]; exact room)
  have does := does_futnew free h
  rw [new] at does
  dsimp only at does
  obtain ⟨runs, goesOn⟩ := retires_of_does does (tget_tput_self ..) ((wr_sstep ..).trans ((clearPass_sstep w).trans quiet)) free
    (wr_threads ..) ((wr_act ..).trans (clearPass_act w))
  have slot := (onlyWarp_count (setWarp u k (mapLanes (clearPass w) d (fun l => tgetD 0 hs l))) k w
    (goOn (clearPass w) (mapLanes (clearPass w) d (fun l => tgetD 0 hs l)))).slot
  have rest := (onlyWarp_count (setWarp u k (mapLanes (clearPass w) d (fun l => tgetD 0 hs l))) k w
    (goOn (clearPass w) (mapLanes (clearPass w) d (fun l => tgetD 0 hs l)))).rest
  generalize countRetired _ w.wg = t at runs slot rest
  have ctxs : t.ctxs = u.ctxs := by rw [rest]; rfl
  refine ⟨t, _, runs, slot, goesOn, fun l hl => ?_, fun f l other hl => ?_, ?_⟩
  · have value : rd (goOn (clearPass w) (mapLanes (clearPass w) d (fun l => tgetD 0 hs l))) d l = tgetD 0 hs l := by
      rw [rd_goOn, mapLanes, clearPass_act]
      by_cases vector : d.toNat < 192
      · rw [if_pos vector] at hl
        obtain ⟨small, active⟩ := mem_lanesOf.1 hl
        rw [rd_wr_self _ _ _ _ _ small, if_pos vector, if_pos active]
      · rw [if_neg vector, List.mem_singleton] at hl
        obtain ⟨m, hm⟩ := Option.isSome_iff_exists.1 ((lowest_isSome w.act).trans (bne_iff_ne.2 fun none_ => vector (some_ none_)))
        have low_ : l = m := by rw [hl, low, hm]; rfl
        rw [rd_wr_self _ _ _ _ _ (low_ ▸ BitVec.lt_of_getLsbD (lowest_mem hm)), if_neg vector, hm, low_]
    have mine := own l hl
    rw [value]
    rwa [Allocated, futEntry, ctxRec, ← ctxs] at mine
  · rw [rd_goOn, mapLanes, rd_wr_ne _ _ _ other hl, rd_clearPass]
  · rw [rest, only]
    rfl

/-! FUTWAIT and FUTGET (R268). -/

/-- What FUTWAIT does where no handle is stale. -/
theorem does_futwait (h : Issues s k w [a])
    (ok : ∀ l ∈ (if a.toNat < 192 then lanesOf w.act else [low w]), futOk s w.wg (rd w a l) = true) :
    let hs := ((if a.toNat < 192 then lanesOf w.act else [low w]).map (rd w a)).filter
      (fun h => (futEntry s (ctxOfWg s w.wg) h).st != 2)
    Does (.futwait a) s k w
      (waitSome (issued s k w) k (clearPass w) (if hs.isEmpty then 0 else w.act) (.futures hs)) := by
  have does := does_of_laneWord (i := .futwait a) h (Eq.refl (execFutwait a s))
  have regs : rd (clearPass w) a = rd w a := funext fun l => rd_clearPass w a l
  have sound : (if a.toNat < 192 then lanesOf w.act else [low w]).find?
      (fun l => !futOk (issued s k w) w.wg (rd w a l)) = none :=
    List.find?_eq_none.2 fun l hl => by
      rw [Bool.not_eq_true, Bool.not_eq_false']
      exact ok l hl
  simp only [lanesFor_clearPass, clearPass_wg, regs, sound, clearPass_act] at does
  exact does

/-- The first finding of the active lanes is that of the first of them that has one. -/
theorem findSome_lanesOf {α : Type} {m : Mask} {p : Nat → Option α} {l : Nat} {x : α} (active : m.getLsbD l = true)
    (hp : p l = some x) (first : ∀ j < l, m.getLsbD j = true → p j = none) : (lanesOf m).findSome? p = some x := by
  have found := find_lanesOf (p := fun j => (p j).isSome) active (by rw [hp]; rfl) fun j hj hm => by rw [first j hj hm]; rfl
  obtain ⟨-, before, after, split, none_⟩ := List.find?_eq_some_iff_append.1 found
  exact List.findSome?_eq_some_iff.2 ⟨before, l, after, split, hp, fun j hj => by simpa using none_ j hj⟩

/-- What FUTGET finds of a lane (R268). -/
def futgetBad (s : State) (w : Warp) (a : Fld) (l : Nat) : Option (Nat × Nat) :=
  if !futOk s w.wg (rd w a l) then some (0x43, l)
  else if (futEntry s (ctxOfWg s w.wg) (rd w a l)).st != 2 then some (0x44, l) else none

theorem futgetBad_eq_none {l : Nat} (ok : futOk s w.wg (rd w a l) = true)
    (done : (futEntry s (ctxOfWg s w.wg) (rd w a l)).st = 2) : futgetBad s w a l = none := by
  rw [futgetBad, ok, done]
  rfl

/-- What FUTGET does, by what it finds first. -/
theorem does_futget (h : Issues s k w [a, d]) : Does (.futget d a) s k w
    (match (lanesOf w.act).findSome? (futgetBad s w a) with
      | some (c, l) => .fault c 0 l 0
      | none => .next (setWarp (issued s k w) k (mapLanes (clearPass w) d
          (fun l => (futEntry s (ctxOfWg s w.wg) (rd w a l)).val)))) := by
  have does := does_of_laneWord (i := .futget d a) h (Eq.refl (execFutget d a s))
  have entries (l : Nat) : futEntry (issued s k w) (ctxOfWg (issued s k w) w.wg) (rd w a l) =
      futEntry s (ctxOfWg s w.wg) (rd w a l) := rfl
  simp only [clearPass_act, clearPass_wg, rd_clearPass, entries] at does
  exact does

/-- A word that writes D for its active lanes, and nothing else but what every word does (R117). -/
theorem writesLanes_of_does {i : Instr} {regs : List Fld} {f : Nat → Word} (h : Issues s k w regs) (quiet : w.sstep = false)
    (does : Does i s k w (.next (setWarp (issued s k w) k (mapLanes (clearPass w) d f)))) : WritesLanes i s k w d f :=
  warpWord_writes h quiet d (fun _ => f) f (does.trans
    (laneWord_ready h fun s k w => .next (setWarp s k (mapLanes w d f))).symm) fun _ _ => rfl

/-! FUTSET and FUTDROP (R264, R265, R267). -/

/-- What FUTSET does outside a take. -/
theorem does_futset (free : NoMember w) (h : Issues s k w [a, b]) :
    let ls := if a.toNat < 192 then lanesOf w.act else [low w]
    Does (.futset a b) s k w (match futBad (issued s k w) (clearPass w) a (fun e _ => e.st != 1) ls with
      | some (c, x, l) => .fault c x l 0
      | none => .next (ls.foldl (fun t l => resolve t (ctxOfWg s w.wg) (rd w a l) (rd w b l)) (issued s k w))) := by
  have does := does_of_laneWord (i := .futset a b) h (Eq.refl (execFutset a b s))
  have same : setWarp (issued s k w) k (clearPass w) = issued s k w := setWarp_setWarp ..
  simp only [laneChecks, activeMember_eq_none free, lanesFor_clearPass, clearPass_wg, rd_clearPass, same] at does
  exact does

/-- What FUTDROP does outside a take. -/
theorem does_futdrop (free : NoMember w) (h : Issues s k w [a]) :
    let ls := if a.toNat < 192 then lanesOf w.act else [low w]
    let ctx := ctxOfWg s w.wg
    Does (.futdrop a) s k w (match futBad (issued s k w) (clearPass w) a (fun _ h => futWaited (issued s k w) ctx h) ls with
      | some (c, x, l) => .fault c x l 0
      | none => .next (ls.foldl (fun s l =>
          let e := futEntry s ctx (rd w a l)
          setFut s ctx (futIx (rd w a l)) { e with st := 0, gen := if e.gen = 4095 then 1 else e.gen + 1 })
            (issued s k w))) := by
  have does := does_of_laneWord (i := .futdrop a) h (Eq.refl (execFutdrop a s))
  simp only [laneChecks, activeMember_eq_none free, lanesFor_clearPass, clearPass_wg, rd_clearPass] at does
  exact does

end

/-! The resolution of a future (R256, R265, R267). -/

/-- A table whose values have all been changed in a way that leaves the default, as records read it. -/
theorem tgetD_map {α : Type} {d : α} {f : α → α} (same : f d = d) (t : Tbl α) (j : Nat) :
    tgetD d (t.map (fun e => (e.1, f e.2))) j = f (tgetD d t j) := by
  rw [tgetD, tget_map t (fun _ => f), tgetD]
  cases tget t j with
  | none => exact same.symm
  | some x => rfl

/-- The tasks of a core that wait on a future are ready with its value. -/
def readyCore (s : State) (ctx : Nat) (h v : Word) (x : Core) : Core := { x with tasks := x.tasks.map (readyTask s h v ctx) }

/-- The same for what a context keeps of its saved workgroups. -/
def readySaved (s : State) (ctx : Nat) (h v : Word) (x : Ctx) : Ctx := { x with saved := x.saved.map (fun g => { g with
  tasks := g.tasks.map (readyTask s h v ctx), warps := g.warps.map (readyWarp s h ctx) }) }

/-- The entry of a future is resolved, and every task and every thread that waits on it takes its value: what `resolve` does
before the warps whose waits are over go on. -/
def resolved (s : State) (ctx : Nat) (h v : Word) : State :=
  { s with
    cores := s.cores.map (fun e => (e.1, readyCore s ctx h v e.2))
    warps := s.warps.map (fun e => (e.1, readyWarp s h ctx e.2))
    ctxs := (setFut s ctx (futIx h) { futEntry s ctx h with st := 2, val := v }).ctxs.map
      (fun e => (e.1, readySaved s ctx h v e.2)) }

/-- Where no lane's FUTWAIT ends with it, that is all. -/
theorem resolve_eq_resolved {s : State} {ctx : Nat} {h v : Word}
    (none_ : ∀ e ∈ s.warps, futLanes (readyWarp s h ctx e.2) = 0) : resolve s ctx h v = resolved s ctx h v := by
  refine List.foldlRecOn (motive := (· = resolved s ctx h v)) ((resolved s ctx h v).warps.map (·.1)) _ rfl fun t ht k _ => ?_
  subst ht
  cases hk : tget (resolved s ctx h v).warps k with
  | none => rfl
  | some w =>
    obtain ⟨e, he, same⟩ := List.mem_map.1 (tget_mem hk)
    have own : readyWarp s h ctx e.2 = w := congrArg Prod.snd same
    have waiting : futLanes w = 0 := own ▸ none_ e he
    exact if_pos waiting

theorem resolved_entry (s : State) (ctx : Nat) (h v : Word) :
    futEntry (resolved s ctx h v) ctx h = { futEntry s ctx h with st := 2, val := v } := by
  have futures : ctxRec (resolved s ctx h v) ctx =
      readySaved s ctx h v (ctxRec (setFut s ctx (futIx h) { futEntry s ctx h with st := 2, val := v }) ctx) :=
    tgetD_map (by rfl) _ ctx
  rw [futEntry, futures, ctxRec_setFut, readySaved, tgetD_tput, if_pos rfl]

theorem resolved_tasks (s : State) (ctx : Nat) (h v : Word) (c : Nat) :
    (coreRec (resolved s ctx h v) c).tasks = (coreRec s c).tasks.map (readyTask s h v ctx) :=
  congrArg Core.tasks (tgetD_map (f := readyCore s ctx h v) (by rfl) s.cores c)

theorem readyTask_eq (s : State) (h v : Word) (ctx : Nat) (x : Task) : readyTask s h v ctx x =
    if x.waits = some h ∧ ctxOfWg s x.wg = ctx then
      { x with waits := none, args := v :: x.args.drop 1, readyAt := readyClock s x.wg } else x := by
  simp only [readyTask, Bool.and_eq_true, beq_iff_eq]

end Sys2Proof.Machine

/-! PROOF. The future table as it lies in memory (17 R263; log 9), and the statement on futures. -/

namespace Sys2Proof.Machine

/-! The bytes of an entry (R263). -/

theorem futBytes_fields {e : Fut} (waiting : Bool) (i now : Nat) (gen : e.gen < 2 ^ 12) (st : e.st < 4) :
    let x : BitVec 128 := BitVec.ofNat 128 (leNat (futBytes (e, waiting) i now))
    x.extractLsb' 0 32 = e.val ∧ field x 43 32 = e.gen ∧ field x 45 44 = e.st ∧ field x 63 46 = 0 ∧
      (field x 127 64 = 0 ↔ waiting = false) := by
  obtain ⟨head, value, bound, none_⟩ : ∃ head, (if waiting then Config.waiterHead i now % (2 ^ 64 - 1) + 1 else 0) = head ∧
      head < 2 ^ 64 ∧ (head = 0 ↔ waiting = false) := by
    refine ⟨_, rfl, ?_, ?_⟩ <;> cases waiting <;> simp
    omega
  have val := e.val.isLt
  have number : leNat (futBytes (e, waiting) i now) =
      e.val.toNat + e.gen * 2 ^ 32 + e.st * 2 ^ 44 + head * 2 ^ 64 := by
    rw [futBytes, value, Nat.mod_eq_of_lt gen, Nat.mod_eq_of_lt st, leNat_leBytes]
    omega
  intro x
  have digit {hi lo : Nat} (hh : hi < 128) (hl : lo ≤ hi) : field x hi lo =
      (e.val.toNat + e.gen * 2 ^ 32 + e.st * 2 ^ 44 + head * 2 ^ 64) / 2 ^ lo % 2 ^ (hi - lo + 1) := by
    rw [field_ofNat _ hh hl, number]
  have low : x.extractLsb' 0 32 = e.val := by
    apply BitVec.eq_of_toNat_eq
    have e0 := digit (hi := 31) (lo := 0) (by decide) (by decide)
    rw [field] at e0
    rw [e0]
    omega
  rw [digit (by decide) (by decide), digit (by decide) (by decide), digit (by decide) (by decide),
    digit (by decide) (by decide), ← none_]
  refine ⟨low, ?_, ?_, ?_, ?_⟩ <;> omega

/-! Writing entries to the table (R263, 27 R384). -/

theorem tablesSeen_none {s : State} (hs : ∀ e ∈ s.wgs, e.2.stash = []) (d : BitVec 1024) (ps : List (Nat × Nat)) :
    tablesSeen s d ps = s := by
  rw [tablesSeen, anyStash_none hs]
  rfl

/-- A store of bytes that nobody else's unit meets. -/
theorem storedAt_plainStore (s : State) (pa : Nat) (bs : List Byte) :
    StoredAt s (plainStore s pa bs) bs.length (pa + ·) (fun i => bs.getD i 0) := by
  have byte (a : Nat) : memByte (plainStore s pa bs).mem a =
      if pa ≤ a ∧ a < pa + bs.length then bs.getD (a - pa) 0 else memByte s.mem a := by
    rw [plainStore_mem, memByte_memPuts]
  refine ⟨fun i hi => ?_, fun a apart => ?_, plainStore_grids bs s pa, fun a => mem_poison_plainStore bs s pa a⟩
  · rw [byte, if_pos ⟨Nat.le_add_right .., Nat.add_lt_add_left hi _⟩, Nat.add_sub_cancel_left]
  · rw [byte, if_neg fun inside => apart (a - pa) (by omega) (by omega)]

theorem futStore_stored {s : State} {ctx i pa x : Nat} {d : BitVec 1024} {bs : List Byte} (free : Undisturbed s)
    (at_ : ctxXlate s ctx d needRW (field d 383 320 + 16 * i) 16 = .ok (pa, x)) :
    futStore s ctx d i bs = plainStore s pa bs := by
  rw [futStore, at_]
  exact (congrArg (fun t => writePhys t pa bs) (tablesSeen_none free.stash ..)).trans (free.writePhys pa bs)

theorem futStore_unmapped {s : State} {ctx i : Nat} {d : BitVec 1024} {bs : List Byte} {x : XErr}
    (none_ : ctxXlate s ctx d needRW (field d 383 320 + 16 * i) 16 = .error x) : futStore s ctx d i bs = s := by
  rw [futStore, none_]

/-! The entries that a step has changed (R263; log 9). -/

/-- The entries of a context that look otherwise than before, among those listed now or before. -/
def changedFuts (before s : State) (e : Nat × Ctx) : List Nat :=
  (((e.2.futures ++ (ctxRec before e.1).futures).map (·.1)).dedup).filter (fun i => futView before e.1 i != futView s e.1 i)

/-- The changed entries of a context written where they lie. -/
def storeChanged (before s t : State) (e : Nat × Ctx) : State :=
  (changedFuts before s e).foldl (fun t i =>
    futStore t e.1 (descOf s e.1) i (futBytes (futView s e.1 i) i (cycleOf s 0))) t

theorem futChanged_eq (before s : State) : futChanged before s = s.ctxs.foldl (storeChanged before s) s := rfl

theorem storeChanged_none {before s : State} {e : Nat × Ctx} (same : ∀ i, futView before e.1 i = futView s e.1 i)
    (t : State) : storeChanged before s t e = t := by
  have none_ : changedFuts before s e = [] := List.filter_eq_nil_iff.2 fun i _ => by rw [same]; simp
  rw [storeChanged, none_]
  rfl

/-- Where one entry alone has changed it alone is written. -/
theorem storeChanged_one {before s : State} {ctx i : Nat} {x : Ctx}
    (only : ∀ j, futView before ctx j ≠ futView s ctx j → j = i) (changed : futView before ctx i ≠ futView s ctx i)
    (listed : i ∈ (x.futures ++ (ctxRec before ctx).futures).map (·.1)) (t : State) :
    storeChanged before s t (ctx, x) =
      futStore t ctx (descOf s ctx) i (futBytes (futView s ctx i) i (cycleOf s 0)) := by
  have one : changedFuts before s (ctx, x) = [i] := by
    have mem (j : Nat) : j ∈ changedFuts before s (ctx, x) ↔ j ∈ [i] := by
      rw [changedFuts, List.mem_filter, List.mem_dedup, bne_iff_ne, List.mem_singleton]
      exact ⟨fun h => only j h.2, fun h => h ▸ ⟨listed, changed⟩⟩
    exact List.perm_singleton.1 ((List.perm_ext_iff_of_nodup ((List.nodup_dedup _).filter _) (List.nodup_singleton i)).2 mem)
  rw [storeChanged, one]
  rfl

theorem futChanged_none {before s : State} (same : ∀ ctx i, futView before ctx i = futView s ctx i) :
    futChanged before s = s := by
  rw [futChanged_eq]
  exact List.foldlRecOn (motive := (· = s)) _ _ rfl fun t ht e _ => (storeChanged_none (same e.1) t).trans ht

theorem futChanged_one {before s : State} {ctx i : Nat} (sorted : tsorted s.ctxs = true)
    (only : ∀ c j, futView before c j ≠ futView s c j → c = ctx ∧ j = i) (changed : futView before ctx i ≠ futView s ctx i)
    (there : (tget s.ctxs ctx).isSome = true)
    (listed : i ∈ (ctxRec s ctx).futures.map (·.1) ∨ i ∈ (ctxRec before ctx).futures.map (·.1)) :
    futChanged before s = futStore s ctx (descOf s ctx) i (futBytes (futView s ctx i) i (cycleOf s 0)) := by
  obtain ⟨x, hx⟩ := Option.isSome_iff_exists.1 there
  have rec_ : ctxRec s ctx = x := by rw [ctxRec, tgetD, hx]; rfl
  obtain ⟨as, bs, split⟩ := List.append_of_mem (tget_mem hx)
  have apart : ∀ e ∈ as ++ bs, e.1 ≠ ctx := by
    have rising := (tsorted_iff _).1 sorted
    rw [split, List.pairwise_append, List.pairwise_cons] at rising
    obtain ⟨-, ⟨above, -⟩, below⟩ := rising
    intro e he
    rcases List.mem_append.1 he with he | he
    · exact Nat.ne_of_lt (below e he _ List.mem_cons_self)
    · exact Nat.ne_of_gt (above e he)
  have calm (es : List (Nat × Ctx)) (sub : ∀ e ∈ es, e.1 ≠ ctx) (t : State) : es.foldl (storeChanged before s) t = t :=
    List.foldlRecOn (motive := (· = t)) _ _ rfl fun u hu e he =>
      (storeChanged_none (fun j => by_contra fun ne => sub e he (only _ j ne).1) u).trans hu
  rw [futChanged_eq, split, List.foldl_append, List.foldl_cons, calm as fun e he => apart e (List.mem_append_left _ he),
    calm bs fun e he => apart e (List.mem_append_right _ he)]
  refine storeChanged_one (fun j ne => (only ctx j ne).2) changed ?_ s
  rw [List.map_append, List.mem_append]
  rwa [rec_] at listed

/-- Settles O24: each word by its first test that holds, allocation by the lowest free entry, resolution by what it leaves of
the entry and of those that wait, and the table in memory entry by entry. -/
theorem futures : Obligations.Futures := by
  unfold Obligations.Futures
  refine ⟨fun s k w d a => ⟨fun free h => ⟨fun hs s2 new => ?allocates, fun l full => ?full,
      fun g hg quiet sorted room gens size some_ => ?handles⟩,
      fun g hg i bound used free sorted => newFut_lowest hg sorted bound used free,
      fun h => ⟨fun ok done => ?done, fun ok open_ active => ?waits⟩,
      fun quiet h ok => ?get, fun m h active first => ⟨fun stale => ?stale, fun ok open_ => ?unresolved⟩⟩,
    fun s k w free a b => ⟨fun h sound => ?set, fun c x l h bad => ?setBad, fun h sound => ?drop, fun c x l h bad => ?dropBad,
      fun h v none_ => ?resolve⟩,
    fun e waiting i now gen st => ⟨length_leBytes .., futBytes_fields waiting i now gen st⟩,
    fun s ctx i d bs length => ⟨fun pa x free at_ => ?stored, fun x unmapped => futStore_unmapped unmapped⟩,
    fun before s => ⟨futChanged_none, fun ctx i sorted only changed there listed =>
      futChanged_one sorted only changed there listed⟩⟩
  case allocates =>
    have does := does_futnew free h
    rwa [new] at does
  case full =>
    have does := does_futnew free h
    rwa [full] at does
  case handles =>
    have ctx : ctxOfWg s w.wg = g.ctx := by rw [ctxOfWg, hg]; rfl
    rw [ctx]
    exact futnew_allocates free h hg quiet sorted room gens size some_
  case done =>
    have does := does_futwait h ok
    have ended : (((if a.toNat < 192 then lanesOf w.act else [low w]).map (rd w a)).filter
        (fun h => (futEntry s (ctxOfWg s w.wg) h).st != 2)) = [] := by
      rw [List.filter_eq_nil_iff, List.forall_mem_map]
      exact fun l hl => by rw [done l hl]; decide
    dsimp only at does
    rw [ended] at does
    have same : setWarp (issued s k w) k (clearPass w) = issued s k w := setWarp_setWarp ..
    rwa [waitSome, if_pos (show (if ([] : List Word).isEmpty then 0 else w.act) = 0 from rfl), same] at does
  case waits =>
    have does := does_futwait h ok
    have some_ : (((if a.toNat < 192 then lanesOf w.act else [low w]).map (rd w a)).filter
        (fun h => (futEntry s (ctxOfWg s w.wg) h).st != 2)).isEmpty = false := by
      obtain ⟨l, hl, ne⟩ := open_
      rw [List.isEmpty_eq_false_iff]
      exact List.ne_nil_of_mem (List.mem_filter.2 ⟨List.mem_map_of_mem hl, bne_iff_ne.2 ne⟩)
    dsimp only at does
    rwa [some_, if_neg Bool.false_ne_true, waitSome_waits ⟨rfl, rfl⟩ active] at does
  case get =>
    have does := does_futget h
    rw [List.findSome?_eq_none_iff.2 fun l hl => ?_] at does
    · exact writesLanes_of_does h quiet does
    · obtain ⟨own, done⟩ := ok l (mem_lanesOf.1 hl).2
      exact futgetBad_eq_none own done
  case stale =>
    have does := does_futget h
    have bad : futgetBad s w a m = some (0x43, m) := by rw [futgetBad, if_pos (by simpa using stale)]
    rwa [findSome_lanesOf active bad fun l hl hm => futgetBad_eq_none (first l hl hm).1 (first l hl hm).2] at does
  case unresolved =>
    have does := does_futget h
    have bad : futgetBad s w a m = some (0x44, m) := by
      rw [futgetBad, if_neg (by simpa using ok), if_pos (bne_iff_ne.2 open_)]
    rwa [findSome_lanesOf active bad fun l hl hm => futgetBad_eq_none (first l hl hm).1 (first l hl hm).2] at does
  case set =>
    have does := does_futset free h
    dsimp only at does
    rwa [sound] at does
  case setBad =>
    have does := does_futset free h
    dsimp only at does
    rwa [bad] at does
  case drop =>
    have does := does_futdrop free h
    dsimp only at does
    rwa [sound] at does
  case dropBad =>
    have does := does_futdrop free h
    dsimp only at does
    rwa [bad] at does
  case resolve =>
    rw [resolve_eq_resolved none_]
    refine ⟨resolved_entry .., rfl, fun c => (resolved_tasks ..).trans (List.map_congr_left fun x _ => readyTask_eq ..)⟩
  case stored =>
    have bytes := storedAt_plainStore s pa bs
    rw [length] at bytes
    rwa [futStore_stored free at_]

end Sys2Proof.Machine

/-! PROOF. Words on hardware queues (17 R269 to R272): each by its first test that holds, and what the lanes that are all
served leave of the queue and of their registers. -/

namespace Sys2Proof.Machine

/-! The words (R258, R271, R272). -/

section
variable {s : State} {k : Nat} {w : Warp} {d q : Fld}

/-- The check of a queue word finds a queue that is not enabled for its context at the lowest active lane (R258). -/
theorem hqBad_eq {hq : Nat} (bad : hqOk s w hq = false) (some_ : w.act ≠ 0) :
    hqBad s w hq (lanesOf w.act) = some (0x46, 0, low w) := by
  obtain ⟨m, hm⟩ := Option.isSome_iff_exists.1 ((lowest_isSome w.act).trans (bne_iff_ne.2 some_))
  have low_ : low w = m := by rw [low, hm]; rfl
  rw [lowest] at hm
  rw [hqBad, bad, if_neg Bool.false_ne_true, hm, low_]
  rfl

theorem hqOk_issued (hq : Nat) : hqOk (issued s k w) (clearPass w) hq = hqOk s w hq := by
  simp only [hqOk, clearPass_wg]
  rfl

/-- A queue word that a take forbids faults where the queue is not enabled for its context, and goes on elsewhere. -/
theorem does_queueWord {i : Instr} {regs : List Fld} {go : State → Nat → Warp → Eff} (free : NoMember w)
    (h : Issues s k w regs) (hi : exec i s = laneWord s regs (fun s k w =>
      laneChecks w (lanesOf w.act) (hqBad s w (hqKey k q)) (go s k w))) :
    (hqOk s w (hqKey k q) = false → w.act ≠ 0 → Does i s k w (.fault 0x46 0 (low w) 0)) ∧
      (hqOk s w (hqKey k q) = true → Does i s k w (go (issued s k w) k (clearPass w))) := by
  have does := does_of_laneWord h hi
  rw [laneChecks, activeMember_eq_none free] at does
  refine ⟨fun bad some_ => ?_, fun ok => ?_⟩
  · rwa [hqBad_eq ((hqOk_issued _).trans bad) (by rwa [clearPass_act]), low_clearPass] at does
  · have sound : hqBad (issued s k w) (clearPass w) (hqKey k q) (lanesOf (clearPass w).act) = none :=
      if_pos ((hqOk_issued _).trans ok)
    rwa [sound] at does

theorem does_qpop (free : NoMember w) (h : Issues s k w (regGroup d 8)) :
    (hqOk s w (hqKey k q) = false → w.act ≠ 0 → Does (.qpop d q) s k w (.fault 0x46 0 (low w) 0)) ∧
      (hqOk s w (hqKey k q) = true →
        let r := (lanesOf w.act).foldl (popLanes k (hqKey k q) d) (issued s k w, (0 : Mask))
        Does (.qpop d q) s k w (queueWait (hqServeAll r.1 (hqKey k q)) k (hqKey k q) w.act (w.act &&& ~~~r.2) (clearPass w)
          (fun l => ⟨nameOf (clearPass w) l, none, d⟩))) := by
  have does := does_queueWord (i := .qpop d q) free h (Eq.refl (execQpop d q s))
  rwa [clearPass_act] at does

theorem does_qpush (free : NoMember w) (h : Issues s k w (regGroup d 8)) :
    (hqOk s w (hqKey k q) = false → w.act ≠ 0 → Does (.qpush d q) s k w (.fault 0x46 0 (low w) 0)) ∧
      (hqOk s w (hqKey k q) = true →
        let r := (lanesOf w.act).foldl (pushLanes (clearPass w) (hqKey k q) d) (issued s k w, (0 : Mask))
        Does (.qpush d q) s k w (queueWait r.1 k (hqKey k q) w.act (w.act &&& ~~~r.2) (clearPass w)
          (fun l => ⟨nameOf (clearPass w) l, some (pushRec (clearPass w) d l), d⟩))) := by
  have does := does_queueWord (i := .qpush d q) free h (Eq.refl (execQpush d q s))
  rwa [clearPass_act] at does

theorem does_qroom (h : Issues s k w [d]) : Does (.qroom d q) s k w
    (if !hqOk s w (hqKey k q) then .fault 0x46 0 (low w) 0
      else .next (setWarp (issued s k w) k (mapLanes (clearPass w) d
        (fun _ => BitVec.ofNat 32 (hqCap (hwqRec s (hqKey k q)) - (hwqRec s (hqKey k q)).recs.length))))) := by
  have does := does_of_laneWord (i := .qroom d q) h (Eq.refl (execQroom d q s))
  simp only [hqOk_issued, low_clearPass] at does
  exact does

end

/-- A word that leaves its own warp retires with its lanes at the next word, and beside that warp and its count the state is
what the effect gives (R64, R95). -/
theorem retires_beside {i : Instr} {s u : State} {k : Nat} {w : Warp} (does : Does i s k w (.next u))
    (slot : tget u.warps k = some (clearPass w)) (quiet : w.sstep = false) (free : NoMember w) :
    ∃ t w1, exec i s = .next t ∧ tget t.warps k = some w1 ∧ GoesOn w w1 ∧ SameRegs w w1 ∧
      t = { u with warps := t.warps, wgs := t.wgs } := by
  obtain ⟨runs, goesOn⟩ := retires_of_does does slot ((clearPass_sstep w).trans quiet) free rfl (clearPass_act w)
  have only := onlyWarp_count u k w (goOn (clearPass w) (clearPass w))
  exact ⟨_, _, runs, only.slot, goesOn, sameRegs_goOn (clearPass_v w) (clearPass_w w) (clearPass_spoilt w) _, only.rest⟩

/-! Lanes that are all served. -/

/-- The mask of the lanes of a mask is the mask. -/
theorem foldl_laneBit_lanesOf (m : Mask) : (lanesOf m).foldl (fun n l => n ||| laneBit l) 0 = m :=
  BitVec.eq_of_getLsbD_eq fun j hj => by
    have own := getLsbD_maskOf (lanesOf m) j fun l hl => (mem_lanesOf.1 hl).1
    rw [maskOf] at own
    rw [own, Bool.eq_iff_iff, decide_eq_true_eq, mem_lanesOf]
    exact ⟨fun h => h.2, fun h => ⟨hj, h⟩⟩

/-- With no lane left to wait the word goes on. -/
theorem queueWait_served {s : State} {k hq : Nat} {act got : Mask} {w0 u : Warp} {mk : Nat → QWait}
    (slot : tget s.warps k = some u) (all : got = act) : queueWait s k hq act (act &&& ~~~got) w0 mk = .next s := by
  rw [queueWait, slot, all]
  exact if_pos (BitVec.and_not_self act)

theorem hqServeAll_none {s : State} {hq : Nat} (none_ : (hwqRec s hq).waiters = []) : hqServeAll s hq = s := by
  rw [hqServeAll, none_]
  rfl

/-! Pops (R270, R271). -/

/-- A pop of a queue whose records all lie on the chip. -/
theorem hqPop_onChip {s : State} {hq : Nat} {r : Nat × List Word} {rest : List (Nat × List Word)}
    (recs : (hwqRec s hq).recs = r :: rest) (few : rest.length < 32) :
    hqPop s hq = some (r.2, setHwq s hq { hwqRec s hq with
      recs := rest, desc := setField (hwqRec s hq).desc 255 192 (hqPopped (hwqRec s hq).desc + 1) }) := by
  have none_ : rest[31]? = none := List.getElem?_eq_none (by omega)
  simp only [hqPop, recs, none_]

theorem popRegs_eq (w : Warp) (d : Fld) (l : Nat) (r : List Word) :
    popRegs w d l r = writeGroup w d 8 (laneBit l) (fun i _ => r.getD i 0) := rfl

section
variable {d : Fld} (vector : d.toNat + 8 ≤ 192)
include vector

theorem group8_toNat {j : Nat} (hj : j < 8) : (d + BitVec.ofNat 8 j).toNat = d.toNat + j := by
  rw [BitVec.toNat_add, BitVec.toNat_ofNat]
  omega

/-- A lane's group takes its record, word by word. -/
theorem rd_popRegs_self (w : Warp) (r : List Word) {l j : Nat} (hl : l < 32) (hj : j < 8) :
    rd (popRegs w d l r) (d + BitVec.ofNat 8 j) l = r.getD j 0 := by
  have low_ : (d + BitVec.ofNat 8 j).toNat < 192 := by rw [group8_toNat vector hj]; omega
  rw [popRegs_eq, rd_writeGroup_self _ _ _ _ hl (by decide) hj, if_pos low_, getLsbD_laneBit l l hl, decide_eq_true rfl,
    if_pos rfl]

/-- The other lanes keep their registers. -/
theorem rd_popRegs_ne (w : Warp) (r : List Word) (f : Fld) {l m : Nat} (hl : l < 32) (hm : m < 32) (h : m ≠ l) :
    rd (popRegs w d l r) f m = rd w f m := by
  rw [popRegs_eq]
  by_cases own : ∃ i < 8, f = d + BitVec.ofNat 8 i
  · obtain ⟨i, hi, rfl⟩ := own
    have low_ : (d + BitVec.ofNat 8 i).toNat < 192 := by rw [group8_toNat vector hi]; omega
    rw [rd_writeGroup_self _ _ _ _ hm (by decide) hi, if_pos low_, getLsbD_laneBit l m hl, decide_eq_false h,
      if_neg Bool.false_ne_true]
  · exact rd_writeGroup_ne _ _ _ _ hm fun i hi same => own ⟨i, hi, same⟩

end

/-- What pops for some lanes leave: the lanes' groups hold the oldest records in turn, and the queue has lost them. -/
structure Popped (s t : State) (k hq : Nat) (d : Fld) (ls : List Nat) (u v : Warp) : Prop where
  slot : tget t.warps k = some v
  keeps : Keeps u v
  regs : ∀ (i l : Nat) (r : Nat × List Word), ls[i]? = some l → (hwqRec s hq).recs[i]? = some r →
    ∀ j < 8, rd v (d + BitVec.ofNat 8 j) l = r.2.getD j 0
  others : ∀ f m, m < 32 → m ∉ ls → rd v f m = rd u f m
  recs : (hwqRec t hq).recs = (hwqRec s hq).recs.drop ls.length
  waiters : (hwqRec t hq).waiters = (hwqRec s hq).waiters
  rest : t = { s with warps := t.warps, hwqs := t.hwqs }

theorem foldl_popLanes {k hq : Nat} {d : Fld} (vector : d.toNat + 8 ≤ 192) (ls : List Nat) : ∀ {s : State} {u : Warp} (m : Mask),
    tget s.warps k = some u → (hwqRec s hq).recs.length ≤ 32 → ls.length ≤ (hwqRec s hq).recs.length → ls.Nodup →
    (∀ l ∈ ls, l < 32) → ∃ t v, ls.foldl (popLanes k hq d) (s, m) = (t, ls.foldl (fun n l => n ||| laneBit l) m) ∧
      Popped s t k hq d ls u v := by
  induction ls with
  | nil =>
    intro s u m slot _ _ _ _
    exact ⟨s, u, rfl, slot, ⟨rfl, rfl, rfl⟩, fun i l r hl => by simp at hl, fun _ _ _ _ => rfl, rfl, rfl, rfl⟩
  | cons l ls ih =>
    intro s u m slot few room nodup lanes
    obtain ⟨new, nodup⟩ := List.nodup_cons.1 nodup
    have hl := lanes l List.mem_cons_self
    match recs : (hwqRec s hq).recs with
    | [] => simp [recs] at room
    | r :: rest =>
      rw [recs, List.length_cons] at few room
      have pop := hqPop_onChip recs (by omega)
      generalize after : { hwqRec s hq with
        recs := rest, desc := setField (hwqRec s hq).desc 255 192 (hqPopped (hwqRec s hq).desc + 1) } = x at pop
      have xrecs : x.recs = rest := by rw [← after]
      have first : popLanes k hq d (s, m) l =
          (setWarp (setHwq s hq x) k (popRegs u d l r.2), m ||| laneBit l) := by
        have slot' : tget (setHwq s hq x).warps k = some u := slot
        simp only [popLanes, pop, popInto, slot']
      have now : hwqRec (setWarp (setHwq s hq x) k (popRegs u d l r.2)) hq = x := by
        rw [hwqRec_setWarp, hwqRec_setHwq_self]
      obtain ⟨t, v, runs, popped⟩ := ih (s := setWarp (setHwq s hq x) k (popRegs u d l r.2)) (m ||| laneBit l)
        (tget_tput_self ..) (by rw [now, xrecs]; omega) (by rw [now, xrecs]; exact Nat.le_of_succ_le_succ room) nodup
        (fun j hj => lanes j (List.mem_cons_of_mem _ hj))
      obtain ⟨slotT, keeps, regs, others, recsT, waiters, restT⟩ := popped
      rw [now, xrecs] at regs recsT
      rw [now] at waiters
      have own := keeps_writeGroup u d 8 (laneBit l) (fun i _ => r.2.getD i 0)
      refine ⟨t, v, by rw [List.foldl_cons, first, runs, List.foldl_cons], slotT,
        ⟨keeps.threads.trans own.threads, keeps.act.trans own.act, keeps.other.trans (by rw [popRegs_eq, own.other])⟩,
        fun i j y hj hy a ha => ?_, fun f j hj out => ?_, by rw [recsT, recs]; rfl, by rw [waiters, ← after],
        by rw [restT]; rfl⟩
      · cases i with
        | zero =>
          rw [recs, List.getElem?_cons_zero] at hy
          rw [List.getElem?_cons_zero] at hj
          cases hj
          cases hy
          rw [others _ _ hl new, rd_popRegs_self vector u _ hl ha]
        | succ i =>
          rw [recs, List.getElem?_cons_succ] at hy
          exact regs i j y (by rwa [List.getElem?_cons_succ] at hj) hy a ha
      · rw [others f j hj fun later => out (List.mem_cons_of_mem _ later),
          rd_popRegs_ne vector u _ f hl hj fun same => out (same ▸ List.mem_cons_self)]

/-! Pushes (R270, R272). -/

/-- A push into a queue whose records all lie on the chip. -/
theorem hqPush_onChip {s : State} {hq : Nat} (r : List Word) (few : (hwqRec s hq).recs.length < 32) :
    hqPush s hq r = setHwq s hq { hwqRec s hq with
      recs := (hwqRec s hq).recs ++ [(hqPushed (hwqRec s hq).desc, r)]
      desc := setField (hwqRec s hq).desc 191 128 (hqPushed (hwqRec s hq).desc + 1) } := by
  rw [hqPush, if_pos few]

/-- What pushes of some lanes leave of a queue on which nobody waits: their records after the others, and PUSHED. -/
structure Pushed (w : Warp) (s t : State) (hq : Nat) (d : Fld) (ls : List Nat) : Prop where
  recs : (hwqRec t hq).recs.map (·.2) = (hwqRec s hq).recs.map (·.2) ++ ls.map (pushRec w d)
  pushed : hqPushed (hwqRec t hq).desc = (hqPushed (hwqRec s hq).desc + ls.length) % 2 ^ 64
  rest : t = { s with hwqs := t.hwqs }

theorem foldl_pushLanes {w : Warp} {hq : Nat} {d : Fld} (ls : List Nat) : ∀ {s : State} (m : Mask),
    (hwqRec s hq).waiters = [] → (hwqRec s hq).recs.length + ls.length ≤ 32 →
    ∃ t, ls.foldl (pushLanes w hq d) (s, m) = (t, ls.foldl (fun n l => n ||| laneBit l) m) ∧ Pushed w s t hq d ls := by
  induction ls with
  | nil =>
    intro s m _ _
    exact ⟨s, rfl, (List.append_nil _).symm, (Nat.mod_eq_of_lt (field_lt (hwqRec s hq).desc 191 128)).symm, rfl⟩
  | cons l ls ih =>
    intro s m none_ room
    rw [List.length_cons] at room
    have few : (hwqRec s hq).recs.length < 32 := by omega
    have push := hqPush_onChip (pushRec w d l) few
    generalize after : { hwqRec s hq with
      recs := (hwqRec s hq).recs ++ [(hqPushed (hwqRec s hq).desc, pushRec w d l)]
      desc := setField (hwqRec s hq).desc 191 128 (hqPushed (hwqRec s hq).desc + 1) } = x at push
    have waiters : x.waiters = [] := by rw [← after]; exact none_
    have recs : x.recs = (hwqRec s hq).recs ++ [(hqPushed (hwqRec s hq).desc, pushRec w d l)] := by rw [← after]
    have pushed : hqPushed x.desc = (hqPushed (hwqRec s hq).desc + 1) % 2 ^ 64 := by
      rw [← after]
      exact field_setField_self _ _ (by decide) (by decide)
    have served : hqServeAll (setHwq s hq x) hq = setHwq s hq x := hqServeAll_none (by rw [hwqRec_setHwq_self, waiters])
    have first : pushLanes w hq d (s, m) l = (setHwq s hq x, m ||| laneBit l) := by
      rw [pushLanes, push, served]
      exact if_pos ⟨few.trans_le (Nat.le_add_right ..), by rw [none_]; exact Bool.false_ne_true⟩
    obtain ⟨t, runs, recsT, pushedT, restT⟩ := ih (s := setHwq s hq x) (m ||| laneBit l)
      (by rw [hwqRec_setHwq_self, waiters])
      (by rw [hwqRec_setHwq_self, recs, List.length_append, List.length_singleton]; omega)
    rw [hwqRec_setHwq_self] at recsT pushedT
    refine ⟨t, by rw [List.foldl_cons, first, runs, List.foldl_cons], ?_, ?_, by rw [restT]; rfl⟩
    · rw [recsT, recs, List.map_append, List.append_assoc]
      rfl
    · rw [pushedT, pushed, List.length_cons, Nat.mod_add_mod, Nat.add_assoc, Nat.add_comm 1]

/-! The statement. -/

section
variable {s : State} {k : Nat} {w : Warp} {d q : Fld} (ok : hqOk s w (hqKey k q) = true) (free : NoMember w)
  (h : Issues s k w (regGroup d 8)) (quiet : w.sstep = false) (none_ : (hwqRec s (hqKey k q)).waiters = [])
include ok free h quiet none_

/-- QPOP where the queue has a record for each lane, and all of them on the chip (R270, R271). -/
theorem qpop_delivers (few : (hwqRec s (hqKey k q)).recs.length ≤ 32)
    (room : (lanesOf w.act).length ≤ (hwqRec s (hqKey k q)).recs.length) (vector : d.toNat + 8 ≤ 192) :
    ∃ t w1, exec (.qpop d q) s = .next t ∧ tget t.warps k = some w1 ∧ GoesOn w w1 ∧
      (∀ (i l : Nat) (r : Nat × List Word), (lanesOf w.act)[i]? = some l → (hwqRec s (hqKey k q)).recs[i]? = some r →
        ∀ j < 8, rd w1 (d + BitVec.ofNat 8 j) l = r.2.getD j 0) ∧
      (hwqRec t (hqKey k q)).recs = (hwqRec s (hqKey k q)).recs.drop (lanesOf w.act).length ∧
      (∀ a, memByte t.mem a = memByte s.mem a) := by
  obtain ⟨u, v, runs, popped⟩ := foldl_popLanes (s := issued s k w) vector (lanesOf w.act) 0 (tget_tput_self ..) few room
    (List.nodup_range.filter _) fun l hl => (mem_lanesOf.1 hl).1
  obtain ⟨slot, keeps, regs, -, recs, waiters, rest⟩ := popped
  have does := (does_qpop (q := q) free h).2 ok
  dsimp only at does
  rw [runs, hqServeAll_none (waiters.trans none_), queueWait_served slot (foldl_laneBit_lanesOf w.act)] at does
  have still : v.sstep = false := by rw [keeps.other]; exact (clearPass_sstep w).trans quiet
  obtain ⟨next, goesOn⟩ := retires_of_does does slot still free keeps.threads (keeps.act.trans (clearPass_act w))
  have only := onlyWarp_count u k w (goOn (clearPass w) v)
  generalize countRetired _ w.wg = t at next only
  have queues : t.hwqs = u.hwqs := by rw [only.rest]
  refine ⟨t, _, next, only.slot, goesOn, fun i l r hl hr j hj => ?_, ?_, fun a => (only.mem a).trans (by rw [rest]; rfl)⟩
  · rw [rd_goOn]
    exact regs i l r hl hr j hj
  · rw [hwqRec, queues]
    exact recs

/-- QPUSH where the chip has room for every lane's record (R270, R272). -/
theorem qpush_appends (room : (hwqRec s (hqKey k q)).recs.length + (lanesOf w.act).length ≤ 32) :
    ∃ t w1, exec (.qpush d q) s = .next t ∧ tget t.warps k = some w1 ∧ GoesOn w w1 ∧ SameRegs w w1 ∧
      (hwqRec t (hqKey k q)).recs.map (·.2) = (hwqRec s (hqKey k q)).recs.map (·.2) ++
        (lanesOf w.act).map (pushRec (clearPass w) d) ∧
      hqPushed (hwqRec t (hqKey k q)).desc =
        (hqPushed (hwqRec s (hqKey k q)).desc + (lanesOf w.act).length) % 2 ^ 64 ∧
      (∀ a, memByte t.mem a = memByte s.mem a) := by
  obtain ⟨u, runs, recs, pushed, rest⟩ := foldl_pushLanes (w := clearPass w) (d := d) (s := issued s k w) (lanesOf w.act) 0
    none_ room
  have does := (does_qpush (q := q) free h).2 ok
  have slot : tget u.warps k = some (clearPass w) := by rw [rest]; exact tget_tput_self ..
  dsimp only at does
  rw [runs, queueWait_served slot (foldl_laneBit_lanesOf w.act)] at does
  obtain ⟨t, w1, next, own, goesOn, same, only⟩ := retires_beside does slot quiet free
  have queues : hwqRec t (hqKey k q) = hwqRec u (hqKey k q) := by rw [only]; rfl
  exact ⟨t, w1, next, own, goesOn, same, queues ▸ recs, queues ▸ pushed, fun a => by rw [only, rest]; rfl⟩

end

/-- Settles O25: each word by its first test that holds; pops and pushes lane after lane on the queue's own records. -/
theorem hardwareQueueWords : Obligations.HardwareQueueWords := by
  unfold Obligations.HardwareQueueWords
  intro s k w d q
  refine ⟨fun bad => ⟨fun free some_ h => ⟨(does_qpop free h).1 bad some_, (does_qpush free h).1 bad some_⟩, fun h => ?off⟩,
    fun ok => ⟨fun quiet h => ?room, fun free h => ⟨(does_qpop free h).2 ok, (does_qpush free h).2 ok,
      fun quiet none_ few room vector => qpop_delivers ok free h quiet none_ few room vector,
      fun quiet none_ room => ?pushes⟩⟩⟩
  case off =>
    have does := does_qroom (q := q) h
    rwa [if_pos (by rw [hqKey, bad]; rfl)] at does
  case room =>
    have does := does_qroom (q := q) h
    rw [if_neg (by rw [hqKey, ok]; exact Bool.false_ne_true)] at does
    exact writesLanes_of_does h quiet does
  case pushes =>
    obtain ⟨t, w1, runs, slot, goesOn, same, recs, pushed, mem⟩ := qpush_appends ok free h quiet none_ room
    refine ⟨t, w1, runs, slot, goesOn, same, recs.trans (congrArg _ (List.map_congr_left fun l _ => ?_)), pushed, mem⟩
    simp only [pushRec, rd_clearPass]

end Sys2Proof.Machine

/-! PROOF. Mailboxes (17 R273, R274): what bindings that all pass their checks leave, and what an arrival does. -/

namespace Sys2Proof.Machine

/-! Tables to which a key of each element of a list is put, or from which it is taken. -/

section
variable {α : Type} {key : Nat → Nat} {v : Nat → α}

theorem tget_foldl_tput_apart {m : Nat} (ls : List Nat) : ∀ {t : Tbl α}, (∀ l ∈ ls, m ≠ key l) →
    tget (ls.foldl (fun t l => tput t (key l) (v l)) t) m = tget t m := by
  induction ls with
  | nil => exact fun _ => rfl
  | cons l ls ih =>
    intro t apart
    rw [List.foldl_cons, ih fun j hj => apart j (List.mem_cons_of_mem _ hj),
      tget_tput_ne _ _ (apart l List.mem_cons_self).symm]

theorem tget_foldl_tput_own (ls : List Nat) : ∀ {t : Tbl α}, (∀ l ∈ ls, ∀ j ∈ ls, key l = key j → l = j) →
    ∀ l ∈ ls, tget (ls.foldl (fun t l => tput t (key l) (v l)) t) (key l) = some (v l) := by
  induction ls with
  | nil => exact fun _ l hl => absurd hl List.not_mem_nil
  | cons i ls ih =>
    intro t inj l hl
    rw [List.foldl_cons]
    by_cases later : l ∈ ls
    · exact ih (fun a ha b hb => inj a (List.mem_cons_of_mem _ ha) b (List.mem_cons_of_mem _ hb)) l later
    · obtain rfl := (List.mem_cons.1 hl).resolve_right later
      rw [tget_foldl_tput_apart ls fun j hj same =>
        later ((inj l List.mem_cons_self j (List.mem_cons_of_mem _ hj) same) ▸ hj), tget_tput_self]

theorem tget_foldl_tdel {m : Nat} (ls : List Nat) : ∀ {t : Tbl α},
    tget (ls.foldl (fun t l => tdel t (key l)) t) m = if ∃ l ∈ ls, key l = m then none else tget t m := by
  induction ls with
  | nil => exact (if_neg (by simp)).symm
  | cons l ls ih =>
    intro t
    rw [List.foldl_cons, ih, tget_tdel]
    by_cases own : key l = m <;> by_cases later : ∃ l ∈ ls, key l = m <;> simp_all

end

/-! Bindings (R273). -/

theorem mbxKey_inj {ctx n m : Nat} (same : mbxKey ctx n = mbxKey ctx m) : n = m := Nat.add_left_cancel same

/-- The binding that MBXBIND makes for a lane. -/
def bindingOf (s : State) (w : Warp) (a b : Fld) (ctx l : Nat) : Mailbox :=
  ⟨w.wg, ctx, (rd w a l).toNat, rd64 w b l, (gridXlate s w.wg (rd64 w b l).toNat).1,
    regTarget (curPC w).hdr (rd w (b + 2) l), rd w (b + 3) l, 0, ((thr w l).map (·.wid)).getD 0⟩

section
variable {s : State} {w : Warp} {a b : Fld} {g : Grid} (hg : gridOfWg s w.wg = some g)
include hg

/-- A lane that binds a free mailbox to a doorbell of its own. -/
theorem bindLane_binds {l : Nat} (range : (rd w a l).toNat < field g.desc 540 528) (some_ : rd w (b + 2) l ≠ 0)
    (aligned : (rd w (b + 2) l).toNat % 4 = 0) (sound : memCheck s w.wg (rd64 w b l).toNat 8 needR 8 = .ok ())
    (free : tget s.mailboxes (mbxKey g.ctx (rd w a l).toNat) = none)
    (alone : ∀ m ∈ s.mailboxes, m.2.pa ≠ (gridXlate s w.wg (rd64 w b l).toNat).1) :
    bindLane w a b s l = .ok { s with
      mailboxes := tput s.mailboxes (mbxKey g.ctx (rd w a l).toNat) (bindingOf s w a b g.ctx l) } := by
  have one : s.mailboxes.any (fun m => m.2.pa == (gridXlate s w.wg (rd64 w b l).toNat).1) = false :=
    List.any_eq_false.2 fun m hm => by simpa using alone m hm
  have taken : ¬ ((tget s.mailboxes (mbxKey g.ctx (rd w a l).toNat)).isSome ||
      s.mailboxes.any (fun m => m.2.pa == (gridXlate s w.wg (rd64 w b l).toNat).1)) = true := by
    rw [free, one]
    exact Bool.false_ne_true
  rw [bindLane, hg]
  dsimp only
  rw [if_neg (Nat.not_le.2 range), if_neg some_, if_neg (not_not.2 (lowBits_eq_zero aligned)), sound]
  dsimp only
  rw [if_neg taken, BitVec.ofNat_toNat, BitVec.setWidth_eq]
  rfl

/-- A lane that removes a binding. -/
theorem bindLane_unbinds {l : Nat} (range : (rd w a l).toNat < field g.desc 540 528) (none_ : rd w (b + 2) l = 0)
    (bound : (tget s.mailboxes (mbxKey g.ctx (rd w a l).toNat)).isSome = true) :
    bindLane w a b s l = .ok { s with mailboxes := tdel s.mailboxes (mbxKey g.ctx (rd w a l).toNat) } := by
  have there : ¬ (tget s.mailboxes (mbxKey g.ctx (rd w a l).toNat)).isNone = true := by
    rw [Option.isNone_iff_eq_none]
    exact Option.isSome_iff_ne_none.1 bound
  rw [bindLane, hg]
  dsimp only
  rw [if_neg (Nat.not_le.2 range), if_pos none_, if_neg there]

end

/-- The lanes whose bindings all pass their checks, among themselves too. -/
theorem bindLanes_bind {w : Warp} {a b : Fld} {g : Grid} (ls : List Nat) : ∀ {s : State}, gridOfWg s w.wg = some g →
    ls.Nodup → (∀ l ∈ ls, ∀ j ∈ ls, l ≠ j → (rd w a l).toNat ≠ (rd w a j).toNat ∧
      (gridXlate s w.wg (rd64 w b l).toNat).1 ≠ (gridXlate s w.wg (rd64 w b j).toNat).1) →
    (∀ l ∈ ls, (rd w a l).toNat < field g.desc 540 528 ∧ rd w (b + 2) l ≠ 0 ∧ (rd w (b + 2) l).toNat % 4 = 0 ∧
      memCheck s w.wg (rd64 w b l).toNat 8 needR 8 = .ok () ∧ tget s.mailboxes (mbxKey g.ctx (rd w a l).toNat) = none ∧
      ∀ m ∈ s.mailboxes, m.2.pa ≠ (gridXlate s w.wg (rd64 w b l).toNat).1) →
    tryLanes ls s (bindLane w a b) = .ok { s with
      mailboxes := ls.foldl (fun t l => tput t (mbxKey g.ctx (rd w a l).toNat) (bindingOf s w a b g.ctx l)) s.mailboxes } := by
  induction ls with
  | nil => exact fun _ _ _ _ => rfl
  | cons l ls ih =>
    intro s hg nodup apart sound
    obtain ⟨new, nodup⟩ := List.nodup_cons.1 nodup
    obtain ⟨range, some_, aligned, checked, free, alone⟩ := sound l List.mem_cons_self
    rw [tryLanes_cons_ok (bindLane_binds hg range some_ aligned checked free alone)]
    refine ih (s := { s with mailboxes := _ }) hg nodup
      (fun i hi j hj => apart i (List.mem_cons_of_mem _ hi) j (List.mem_cons_of_mem _ hj)) fun j hj => ?_
    obtain ⟨number, place⟩ := apart l List.mem_cons_self j (List.mem_cons_of_mem _ hj) fun same => new (same ▸ hj)
    obtain ⟨range, some_, aligned, checked, free, alone⟩ := sound j (List.mem_cons_of_mem _ hj)
    refine ⟨range, some_, aligned, checked, (tget_tput_ne _ _ ?_).trans free, fun m hm => ?_⟩
    · exact fun same => number (mbxKey_inj same)
    · rcases mem_tput hm with rfl | old
      · exact place
      · exact alone m old

theorem bindLanes_unbind {w : Warp} {a b : Fld} {g : Grid} (ls : List Nat) : ∀ {s : State}, gridOfWg s w.wg = some g →
    ls.Nodup → (∀ l ∈ ls, ∀ j ∈ ls, l ≠ j → (rd w a l).toNat ≠ (rd w a j).toNat) →
    (∀ l ∈ ls, (rd w a l).toNat < field g.desc 540 528 ∧ rd w (b + 2) l = 0 ∧
      (tget s.mailboxes (mbxKey g.ctx (rd w a l).toNat)).isSome = true) →
    tryLanes ls s (bindLane w a b) = .ok { s with
      mailboxes := ls.foldl (fun t l => tdel t (mbxKey g.ctx (rd w a l).toNat)) s.mailboxes } := by
  induction ls with
  | nil => exact fun _ _ _ _ => rfl
  | cons l ls ih =>
    intro s hg nodup apart sound
    obtain ⟨new, nodup⟩ := List.nodup_cons.1 nodup
    obtain ⟨range, none_, bound⟩ := sound l List.mem_cons_self
    rw [tryLanes_cons_ok (bindLane_unbinds hg range none_ bound)]
    refine ih (s := { s with mailboxes := _ }) hg nodup
      (fun i hi j hj => apart i (List.mem_cons_of_mem _ hi) j (List.mem_cons_of_mem _ hj)) fun j hj => ?_
    have number := apart l List.mem_cons_self j (List.mem_cons_of_mem _ hj) fun same => new (same ▸ hj)
    obtain ⟨range, none_, bound⟩ := sound j (List.mem_cons_of_mem _ hj)
    refine ⟨range, none_, ?_⟩
    rw [tget_tdel, if_neg fun same => number (mbxKey_inj same)]
    exact bound

/-! MBXBIND of all its lanes. -/

/-- The word has retired, and has changed bindings alone, which are now these. -/
def BindsAs (i : Instr) (s : State) (k : Nat) (w : Warp) (boxes : Tbl Mailbox) : Prop :=
  ∃ t w1, exec i s = .next t ∧ tget t.warps k = some w1 ∧ GoesOn w w1 ∧ SameRegs w w1 ∧
    t = { s with warps := t.warps, wgs := t.wgs, mailboxes := t.mailboxes } ∧ t.mailboxes = boxes

section
variable {s : State} {k : Nat} {w : Warp} {a b : Fld} {g : Grid} (quiet : w.sstep = false) (free : NoMember w)
  (h : Issues s k w (a :: regGroup b 4))
include quiet free h

/-- A word whose lanes all act on mailboxes. -/
theorem mbxbind_retires {boxes : Tbl Mailbox}
    (acts : tryLanes (lanesOf w.act) (issued s k w) (bindLane (clearPass w) a b) =
      .ok { issued s k w with mailboxes := boxes }) :
    BindsAs (.mbxbind a b) s k w boxes := by
  have does := (does_laneActs (i := .mbxbind a b) (f := fun _ w => bindLane w a b) free h rfl).1 _ acts
  obtain ⟨t, w1, runs, slot, goesOn, same, rest⟩ := retires_beside does (tget_tput_self ..) quiet free
  exact ⟨t, w1, runs, slot, goesOn, same, by rw [rest]; rfl, by rw [rest]⟩

variable (hg : gridOfWg s w.wg = some g)
  (apart : ∀ l j, w.act.getLsbD l = true → w.act.getLsbD j = true → l ≠ j → (rd w a l).toNat ≠ (rd w a j).toNat)
include hg apart

theorem mbxbind_binds (sound : ∀ l, w.act.getLsbD l = true → (rd w a l).toNat < field g.desc 540 528 ∧ rd w (b + 2) l ≠ 0 ∧
      (rd w (b + 2) l).toNat % 4 = 0 ∧ memCheck s w.wg (rd64 w b l).toNat 8 needR 8 = .ok () ∧
      tget s.mailboxes (mbxKey g.ctx (rd w a l).toNat) = none ∧
      ∀ m ∈ s.mailboxes, m.2.pa ≠ (gridXlate s w.wg (rd64 w b l).toNat).1)
    (places : ∀ l j, w.act.getLsbD l = true → w.act.getLsbD j = true → l ≠ j →
      (gridXlate s w.wg (rd64 w b l).toNat).1 ≠ (gridXlate s w.wg (rd64 w b j).toNat).1) :
    BindsAs (.mbxbind a b) s k w ((lanesOf w.act).foldl
      (fun t l => tput t (mbxKey g.ctx (rd w a l).toNat) (bindingOf s w a b g.ctx l)) s.mailboxes) := by
  have acts := bindLanes_bind (s := issued s k w) (w := clearPass w) (a := a) (b := b) (g := g) (lanesOf w.act)
    (by rw [clearPass_wg]; exact hg) (List.nodup_range.filter _)
    (by
      simp only [rd_clearPass, rd64_clearPass, clearPass_wg]
      exact fun l hl j hj ne => ⟨apart l j (mem_lanesOf.1 hl).2 (mem_lanesOf.1 hj).2 ne,
        places l j (mem_lanesOf.1 hl).2 (mem_lanesOf.1 hj).2 ne⟩)
    (by
      simp only [rd_clearPass, rd64_clearPass, clearPass_wg]
      exact fun l hl => sound l (mem_lanesOf.1 hl).2)
  have binding (l : Nat) : bindingOf (issued s k w) (clearPass w) a b g.ctx l = bindingOf s w a b g.ctx l := by
    simp only [bindingOf, rd_clearPass, rd64_clearPass, clearPass_wg, curPC_clearPass, wid_clearPass]
    rfl
  simp only [rd_clearPass, binding] at acts
  exact mbxbind_retires quiet free h acts

theorem mbxbind_unbinds (sound : ∀ l, w.act.getLsbD l = true → (rd w a l).toNat < field g.desc 540 528 ∧
      rd w (b + 2) l = 0 ∧ (tget s.mailboxes (mbxKey g.ctx (rd w a l).toNat)).isSome = true) :
    BindsAs (.mbxbind a b) s k w ((lanesOf w.act).foldl
      (fun t l => tdel t (mbxKey g.ctx (rd w a l).toNat)) s.mailboxes) := by
  have acts := bindLanes_unbind (s := issued s k w) (w := clearPass w) (a := a) (b := b) (g := g) (lanesOf w.act)
    (by rw [clearPass_wg]; exact hg) (List.nodup_range.filter _)
    (by
      simp only [rd_clearPass]
      exact fun l hl j hj ne => apart l j (mem_lanesOf.1 hl).2 (mem_lanesOf.1 hj).2 ne)
    (by
      simp only [rd_clearPass]
      exact fun l hl => sound l (mem_lanesOf.1 hl).2)
  simp only [rd_clearPass] at acts
  exact mbxbind_retires quiet free h acts

end

/-! Arrivals (R274). -/

theorem leNat_append (xs ys : List Byte) : leNat (xs ++ ys) = leNat xs + 256 ^ xs.length * leNat ys := by
  induction xs with
  | nil => simp [leNat]
  | cons b r ih =>
    rw [List.cons_append, leNat, ih, leNat, List.length_cons, Nat.pow_succ]
    ring

theorem leNat_lt (bs : List Byte) : leNat bs < 256 ^ bs.length := by
  induction bs with
  | nil => exact Nat.one_pos
  | cons b r ih =>
    have hb : b.toNat < 256 := b.isLt
    rw [leNat, List.length_cons, Nat.pow_succ]
    omega

/-- The words of a doorbell, low word first. -/
theorem doorbell_words (mem : List Host.Cell) (a : Nat) :
    let d : DWord := BitVec.ofNat 64 (leNat (memBytes mem a 8))
    d.extractLsb' 0 32 = BitVec.ofNat 32 (memNat mem a 4) ∧ d.extractLsb' 32 32 = BitVec.ofNat 32 (memNat mem (a + 4) 4) := by
  have split : memBytes mem a 8 = memBytes mem a 4 ++ memBytes mem (a + 4) 4 := by
    simp only [memBytes, show List.range 8 = List.range 4 ++ (List.range 4).map (4 + ·) from rfl, List.map_append, List.map_map]
    simp [Function.comp_def, Nat.add_assoc]
  have value : leNat (memBytes mem a 8) = memNat mem a 4 + 256 ^ 4 * memNat mem (a + 4) 4 := by
    rw [split, leNat_append, memBytes, List.length_map, List.length_range]
    rfl
  have low : memNat mem a 4 < 256 ^ 4 := by
    have bound := leNat_lt (memBytes mem a 4)
    rwa [memBytes, List.length_map, List.length_range] at bound
  rw [value]
  constructor <;> apply BitVec.eq_of_toNat_eq <;>
    simp only [BitVec.extractLsb'_toNat, BitVec.toNat_ofNat, Nat.shiftRight_eq_div_pow] <;> omega

theorem readPhys_unstashed {s : State} (hs : ∀ e ∈ s.wgs, e.2.stash = []) (pa n : Nat) :
    readPhys s pa n = (memBytes s.mem pa n, s) := by
  rw [readPhys, flushRange_none s hs]

/-- What an arrival at a bound mailbox does (R256, R274). -/
theorem mailboxArrival_counts {s : State} {m : Nat} {x : Mailbox} (bound : tget s.mailboxes m = some x)
    (hs : ∀ e ∈ s.wgs, e.2.stash = []) :
    let t := { s with mailboxes := tput s.mailboxes m { x with count := x.count + 1 } }
    exec (.mailboxArrival m) s = .next (if taskRoom t x.wg then createTask t x.wg x.pc
      [BitVec.ofNat 32 (memNat s.mem x.pa 4), BitVec.ofNat 32 (memNat s.mem (x.pa + 4) 4), x.arg, BitVec.ofNat 32 x.number,
        x.count + 1, 0, 0, 0] x.wid none false none else taskSpaceFault t x.wg false) := by
  intro t
  have read : readPhys t x.pa 8 = (memBytes s.mem x.pa 8, t) := readPhys_unstashed (s := t) hs x.pa 8
  obtain ⟨low, high⟩ := doorbell_words s.mem x.pa
  show execMailboxArrival m s = _
  rw [execMailboxArrival, bound]
  dsimp only
  rw [show readPhys { s with mailboxes := _ } x.pa 8 = _ from read]
  dsimp only
  rw [low, high]
  split <;> rfl

end Sys2Proof.Machine

/-! PROOF. Network matches (17 R275 to R277), and the statement on mailboxes and match entries. -/

namespace Sys2Proof.Machine

/-! NMATCH (R275). -/

/-- The match entry that NMATCH makes for a lane, with its number. -/
def matchOf (w : Warp) (a b c : Fld) (ctx id l : Nat) : MatchE :=
  ⟨id, w.wg, ctx, rd w a l, rd64 w b l, regTarget (curPC w).hdr (rd w (b + 2) l), (rd w (b + 3) l).toNat, rd w c l,
    ((thr w l).map (·.wid)).getD 0, false, 0, 0, false⟩

theorem matchTable_setMatch (s : State) (d : Nat) (t : List MatchE) (j : Nat) :
    matchTable (setMatch s d t) j = if d = j then t else matchTable s j := tgetD_tput ..

/-- The live entries of a die's matching table. -/
def liveMatches (s : State) (die : Nat) : Nat := ((matchTable s die).filter (fun e => !e.dead)).length

/-- A lane whose operands pass their checks inserts its entry where the table has room. -/
theorem matchLane_inserts {s : State} {die l : Nat} {w : Warp} {a b : Fld} (c : Fld) (some_ : rd w (b + 2) l ≠ 0)
    (aligned : (rd w (b + 2) l).toNat % 4 = 0) (low : 1 ≤ (rd w (b + 3) l).toNat) (high : (rd w (b + 3) l).toNat ≤ 16777216)
    (sound : memCheck s w.wg (rd64 w b l).toNat 64 needW (rd w (b + 3) l).toNat = .ok ()) (room : liveMatches s die < 1024) :
    matchLane die w a b c s l = .ok (setMatch { s with fresh := s.fresh + 1 } die
      (matchTable s die ++ [matchOf w a b c (ctxOfWg s w.wg) s.fresh l])) := by
  rw [matchLane]
  dsimp only
  rw [if_neg (not_or.2 ⟨some_, not_not.2 (lowBits_eq_zero aligned)⟩), if_neg (by omega), sound]
  dsimp only
  rw [if_neg (show ¬ 1024 ≤ ((matchTable s die).filter (fun e => !e.dead)).length from Nat.not_le.2 room),
    BitVec.ofNat_toNat, BitVec.setWidth_eq]
  rfl

theorem matchLanes_insert {die : Nat} {w : Warp} {a b c : Fld} (ls : List Nat) : ∀ {s : State},
    (∀ l ∈ ls, rd w (b + 2) l ≠ 0 ∧ (rd w (b + 2) l).toNat % 4 = 0 ∧ 1 ≤ (rd w (b + 3) l).toNat ∧
      (rd w (b + 3) l).toNat ≤ 16777216 ∧
      memCheck s w.wg (rd64 w b l).toNat 64 needW (rd w (b + 3) l).toNat = .ok ()) →
    liveMatches s die + ls.length ≤ 1024 →
    ∃ t, tryLanes ls s (matchLane die w a b c) = .ok t ∧ t = { s with netMatch := t.netMatch, fresh := t.fresh } ∧
      (∀ d, d ≠ die → matchTable t d = matchTable s d) ∧ matchTable t die = matchTable s die ++
        ((List.range ls.length).zip ls).map (fun e => matchOf w a b c (ctxOfWg s w.wg) (s.fresh + e.1) e.2) := by
  induction ls with
  | nil => exact fun _ _ => ⟨_, rfl, rfl, fun _ _ => rfl, (List.append_nil _).symm⟩
  | cons l ls ih =>
    intro s sound room
    rw [List.length_cons] at room
    obtain ⟨some_, aligned, low, high, checked⟩ := sound l List.mem_cons_self
    have inserts := matchLane_inserts (a := a) c some_ aligned low high checked (show liveMatches s die < 1024 by omega)
    let new := matchOf w a b c (ctxOfWg s w.wg) s.fresh l
    let u := setMatch { s with fresh := s.fresh + 1 } die (matchTable s die ++ [new])
    have table (d : Nat) : matchTable u d = if die = d then matchTable s die ++ [new] else matchTable s d :=
      matchTable_setMatch ..
    have more : liveMatches u die = liveMatches s die + 1 := by
      have one : [new].filter (fun e => !e.dead) = [new] := rfl
      rw [liveMatches, table, if_pos rfl, List.filter_append, List.length_append, one]
      rfl
    obtain ⟨t, acts, rest, others, own⟩ := ih (s := u) (fun j hj => sound j (List.mem_cons_of_mem _ hj)) (by omega)
    refine ⟨t, (tryLanes_cons_ok inserts ls).trans acts, by rw [rest]; rfl, fun d hd => ?_, ?_⟩
    · rw [others d hd, table, if_neg hd.symm]
    · have later (e : Nat × Nat) : matchOf w a b c (ctxOfWg u w.wg) (u.fresh + e.1) e.2 =
          matchOf w a b c (ctxOfWg s w.wg) (s.fresh + (e.1 + 1)) e.2 := by
        have number : u.fresh + e.1 = s.fresh + (e.1 + 1) := by rw [Nat.add_comm e.1 1, ← Nat.add_assoc]; rfl
        rw [number]
        rfl
      rw [own, table, if_pos rfl, zip_range_cons, List.map_cons, List.map_map, List.append_assoc]
      exact congrArg (fun x => _ ++ (_ :: x)) (List.map_congr_left fun e _ => later e)

/-- NMATCH where every lane's entry passes its checks and finds room (R275). -/
theorem nmatch_inserts {s : State} {k : Nat} {w : Warp} {a b c : Fld} (quiet : w.sstep = false) (free : NoMember w)
    (h : Issues s k w (a :: regGroup b 4 ++ [c]))
    (sound : ∀ l, w.act.getLsbD l = true → rd w (b + 2) l ≠ 0 ∧ (rd w (b + 2) l).toNat % 4 = 0 ∧
      1 ≤ (rd w (b + 3) l).toNat ∧ (rd w (b + 3) l).toNat ≤ 16777216 ∧
      memCheck s w.wg (rd64 w b l).toNat 64 needW (rd w (b + 3) l).toNat = .ok ())
    (room : liveMatches s (dieOf (coreOf k)) + (lanesOf w.act).length ≤ 1024) :
    ∃ t w1, exec (.nmatch a b c) s = .next t ∧ tget t.warps k = some w1 ∧ GoesOn w w1 ∧ SameRegs w w1 ∧
      t = { s with warps := t.warps, wgs := t.wgs, netMatch := t.netMatch, fresh := t.fresh } ∧
      (∀ d, d ≠ dieOf (coreOf k) → matchTable t d = matchTable s d) ∧
      matchTable t (dieOf (coreOf k)) = matchTable s (dieOf (coreOf k)) ++
        ((List.range (lanesOf w.act).length).zip (lanesOf w.act)).map
          (fun e => matchOf w a b c (ctxOfWg s w.wg) (s.fresh + e.1) e.2) := by
  obtain ⟨u, acts, only, others, own⟩ := matchLanes_insert (s := issued s k w) (die := dieOf (coreOf k)) (w := clearPass w)
    (a := a) (b := b) (c := c) (lanesOf w.act)
    (by
      simp only [rd_clearPass, rd64_clearPass, clearPass_wg]
      exact fun l hl => sound l (mem_lanesOf.1 hl).2) room
  have entry (id l : Nat) : matchOf (clearPass w) a b c (ctxOfWg (issued s k w) (clearPass w).wg) id l =
      matchOf w a b c (ctxOfWg s w.wg) id l := by
    simp only [matchOf, rd_clearPass, rd64_clearPass, clearPass_wg, curPC_clearPass, wid_clearPass]
    rfl
  simp only [entry] at own
  have does := (does_laneActs (i := .nmatch a b c) (f := fun k w => matchLane (dieOf (coreOf k)) w a b c) free h rfl).1 u acts
  obtain ⟨t, w1, runs, slot, goesOn, same, rest⟩ := retires_beside does (by rw [only]; exact tget_tput_self ..) quiet free
  have table (d : Nat) : matchTable t d = matchTable u d := by rw [rest]; rfl
  exact ⟨t, w1, runs, slot, goesOn, same, by rw [rest, only]; rfl, fun d hd => (table d).trans (others d hd),
    (table _).trans own⟩

/-! NUNMATCH (R277). -/

/-- The matching tables without the oldest unclaimed entry of a workgroup with a tag. -/
def withoutOldest (wg : Nat) (tag : Word) (t : Tbl (List MatchE)) : Tbl (List MatchE) :=
  match t.flatMap (fun d => (d.2.filter (fun e => e.wg == wg && e.tag == tag && !e.claimed)).map (·.id)) with
  | [] => t
  | x :: r => t.map (fun d => (d.1, d.2.filter (fun e => e.id != r.foldl min x)))

theorem unmatch_eq (s : State) (wg : Nat) (tag : Word) :
    unmatch s wg tag = { s with netMatch := withoutOldest wg tag s.netMatch } := by
  rw [unmatch, withoutOldest, show s.netMatch.flatMap _ = matchesOf s wg tag from rfl]
  cases matchesOf s wg tag <;> rfl

theorem foldl_unmatch (wg : Nat) (tag : Nat → Word) (ls : List Nat) : ∀ s : State,
    ls.foldl (fun s l => unmatch s wg (tag l)) s =
      { s with netMatch := ls.foldl (fun t l => withoutOldest wg (tag l) t) s.netMatch } := by
  induction ls with
  | nil => exact fun _ => rfl
  | cons l ls ih => exact fun s => by rw [List.foldl_cons, unmatch_eq, ih]; rfl

/-- The least of some numbers. -/
theorem foldl_min_eq {x m : Nat} {r : List Nat} (mem : m ∈ x :: r) (least : ∀ y ∈ x :: r, m ≤ y) : r.foldl min x = m := by
  have found : (x :: r).min? = some m := List.min?_eq_some_iff.2 ⟨mem, least⟩
  rw [List.min?_cons'] at found
  exact Option.some.inj found

theorem unmatch_oldest {s : State} {wg m : Nat} {tag : Word} (mem : m ∈ matchesOf s wg tag)
    (oldest : ∀ x ∈ matchesOf s wg tag, m ≤ x) :
    unmatch s wg tag = { s with netMatch := s.netMatch.map (fun d => (d.1, d.2.filter (fun e => e.id != m))) } := by
  rw [unmatch]
  match list : matchesOf s wg tag with
  | [] => rw [list] at mem; exact absurd mem List.not_mem_nil
  | x :: r =>
    rw [list] at mem oldest
    dsimp only
    rw [foldl_min_eq mem oldest]

/-- NUNMATCH outside a take, lane after lane. -/
theorem nunmatch_removes {s : State} {k : Nat} {w : Warp} {a : Fld} (quiet : w.sstep = false) (free : NoMember w)
    (h : Issues s k w [a]) : ∃ t w1, exec (.nunmatch a) s = .next t ∧ tget t.warps k = some w1 ∧ GoesOn w w1 ∧
      SameRegs w w1 ∧ t = { s with warps := t.warps, wgs := t.wgs, netMatch := t.netMatch } ∧
      t.netMatch = ((lanesOf w.act).foldl (fun s l => unmatch s w.wg (rd w a l)) s).netMatch := by
  have does := does_of_laneWord (i := .nunmatch a) h (Eq.refl (execNunmatch a s))
  simp only [noTake, activeMember_eq_none free, clearPass_act, clearPass_wg, rd_clearPass] at does
  rw [foldl_unmatch] at does
  obtain ⟨t, w1, runs, slot, goesOn, same, rest⟩ := retires_beside does (tget_tput_self ..) quiet free
  exact ⟨t, w1, runs, slot, goesOn, same, by rw [rest]; rfl, by rw [foldl_unmatch, rest]; rfl⟩

/-! Messages that have wholly come (R276). -/

theorem networkMatchFire_creates {s : State} {die : Nat} {e : MatchE}
    (found : (matchTable s die).find? (fun x => x.id == e.id && x.claimed && !x.dead && x.got == x.len) = some e) :
    let t := setMatch s die ((matchTable s die).filter (fun x => x.id != e.id))
    exec (.networkMatchFire die e.id) s = .next (if taskRoom t e.wg then createTask t e.wg e.pc
      [e.buf.extractLsb' 0 32, e.buf.extractLsb' 32 32, BitVec.ofNat 32 e.len, e.tag, e.arg, 0, 0, 0] e.wid none false none
      else taskSpaceFault t e.wg false) := by
  show execNetworkMatchFire die e.id s = _
  rw [execNetworkMatchFire, found]
  dsimp only
  split <;> rfl

/-- Settles O26: bindings and match entries lane by lane, NUNMATCH by the oldest entry, arrivals and messages by whether the
handler task finds room. -/
theorem mailboxesAndMatches : Obligations.MailboxesAndMatches := by
  unfold Obligations.MailboxesAndMatches
  intro s k w a b c
  refine ⟨fun free h => ?binds, fun free h => ?matches_, fun g hg quiet free h apart => ⟨fun sound places => ?bound,
      fun sound => ?unbound⟩, fun quiet free h sound room => nmatch_inserts quiet free h sound room,
    fun quiet free h => nunmatch_removes quiet free h,
    fun tag => ⟨fun none_ => by rw [unmatch, none_], fun m mem oldest => unmatch_oldest mem oldest⟩,
    fun g l hg range some_ aligned sound new alone => ?binding, fun m x bound hs => ⟨fun room => ?arrives, fun full => ?noRoom⟩,
    fun e found => ⟨fun room => ?fires, fun full => ?noSpace⟩⟩
  case binds => exact does_laneActs (i := .mbxbind a b) (f := fun _ w => bindLane w a b) free h rfl
  case matches_ =>
    exact does_laneActs (i := .nmatch a b c) (f := fun k w => matchLane (dieOf (coreOf k)) w a b c) free h rfl
  case bound =>
    obtain ⟨t, w2, runs, slot, goesOn, same, rest, boxes⟩ := mbxbind_binds quiet free h hg apart sound places
    refine ⟨t, w2, ⟨runs, slot, goesOn, same, rest, fun m other => ?_⟩, fun l hl => ?_⟩
    · rw [boxes, tget_foldl_tput_apart _ fun l hl => other l (mem_lanesOf.1 hl).2]
    · rw [boxes, tget_foldl_tput_own (key := fun l => mbxKey g.ctx (rd w a l).toNat) _ (fun i hi j hj same => ?_) l
        (lanesOf_of_getLsbD hl)]
      · rfl
      · by_contra ne
        exact apart i j (mem_lanesOf.1 hi).2 (mem_lanesOf.1 hj).2 ne (mbxKey_inj same)
  case unbound =>
    obtain ⟨t, w2, runs, slot, goesOn, same, rest, boxes⟩ := mbxbind_unbinds quiet free h hg apart sound
    refine ⟨t, w2, ⟨runs, slot, goesOn, same, rest, fun m other => ?_⟩, fun l hl => ?_⟩
    · rw [boxes, tget_foldl_tdel, if_neg fun ⟨l, hl, own⟩ => other l (mem_lanesOf.1 hl).2 own.symm]
    · rw [boxes, tget_foldl_tdel (key := fun l => mbxKey g.ctx (rd w a l).toNat),
        if_pos ⟨l, lanesOf_of_getLsbD hl, rfl⟩]
  case binding =>
    have binds := bindLane_binds hg range some_ aligned sound new alone
    have doorbell : BitVec.ofNat 64 (rd64 w b l).toNat = rd64 w b l := by rw [BitVec.ofNat_toNat, BitVec.setWidth_eq]
    intro box
    dsimp only [box]
    rw [doorbell]
    exact binds
  case arrives =>
    have counts := mailboxArrival_counts bound hs
    dsimp only at counts room
    rwa [if_pos room] at counts
  case noRoom =>
    have counts := mailboxArrival_counts bound hs
    dsimp only at counts full
    rwa [if_neg (ne_true_of_eq_false full)] at counts
  case fires =>
    have creates := networkMatchFire_creates found
    dsimp only at creates room
    rwa [if_pos room] at creates
  case noSpace =>
    have creates := networkMatchFire_creates found
    dsimp only at creates full
    rwa [if_neg (ne_true_of_eq_false full)] at creates

end Sys2Proof.Machine

/-! PROOF. A context that the host creates while a snapshot of it still runs (11 R179, R184, 17 R263): the snapshot's last
line lies where the new future table is written, so that it is copied, and the snapshot's counter advances, after the
counters have been set to 0. Such a state arises when VALID is cleared while the snapshot runs, for that does not end it. -/

namespace Sys2Proof.Machine

/-- A context that is not valid, of whose snapshot the line at address 0 is still to be copied, to address 4096; its
descriptor gives a heap of 8 KiB at address 0 and a future table of one entry at address 0. -/
def snapshotLeft : State :=
  { State.reset with
    ctxs := [(1, { Ctx.empty with snap := some ⟨[(0, 4096)]⟩ })]
    ctxDesc := [(1, ctxDescReset ||| BitVec.ofNat 1024 (8192 * 2 ^ 128))] }

/-- The write of VALID: the initialisation of the table completes the snapshot, on the counter of the snapshot engine. -/
theorem snapshotLeft_counts :
    (ctxRec (stateOf snapshotLeft (exec (.contextDescriptorWrite 1 0 8 1) snapshotLeft)) 1).tl =
      [(snapHandle, ⟨0, [], 1⟩)] := by
  decide +kernel

/-- Refutes O50: after VALID has been set on `snapshotLeft`, a timeline counter of the context is 1. -/
theorem not_hostRegisters : ¬ Obligations.HostRegisters := by
  unfold Obligations.HostRegisters
  intro h
  obtain ⟨-, -, windows, -⟩ := h snapshotLeft
  obtain ⟨t, runs, -, -, -, -, -, made⟩ := (windows 1 1 (by decide)).1 (by decide +kernel)
  obtain ⟨-, -, -, cleared, -⟩ := made (by decide +kernel) rfl
  have counts := snapshotLeft_counts
  rw [runs] at counts
  exact absurd (cleared.symm.trans counts) (by decide)

end Sys2Proof.Machine

/-! PROOF. The wait slots of the command processor (27 R396): the queue that has held a slot longest, the queue that takes the
next free one, and what parking and its checks leave. -/

namespace Sys2Proof.Machine

/-! The earliest of some times. -/

/-- Of the earliest entry so far and a further one the earlier; the choice that `longestHolder` and `slotWanted` make. -/
def earlierOf (b : Option (Nat × Nat)) (e : Nat × Nat) : Option (Nat × Nat) :=
  match b with
  | none => some e
  | some x => if e.2 < x.2 then some e else some x

theorem longestHolder_eq (s : State) : longestHolder s =
    (((s.queues.filterMap (fun e => e.2.slot.map (fun t => (e.1, t)))).filter
      (fun e => decide (e.2 + 64 * usClocks ≤ cycleOf s 0))).foldl earlierOf none).map (·.1) := rfl

theorem slotWanted_eq (s : State) : slotWanted s =
    ((s.queues.filterMap (fun e => e.2.wants.map (fun t => (e.1, t)))).foldl earlierOf none).map (·.1) := rfl

theorem foldl_earlierOf_some {e : Nat × Nat} (l : List (Nat × Nat)) : ∀ x : Nat × Nat, e ∈ x :: l →
    (∀ y ∈ x :: l, y ≠ e → e.2 < y.2) → l.foldl earlierOf (some x) = some e := by
  induction l with
  | nil =>
    intro x there _
    rw [List.mem_singleton.1 there]
    rfl
  | cons a l ih =>
    intro x there first
    have hx := first x (by simp)
    have ha := first a (by simp)
    have rest (y : Nat × Nat) (hy : y ∈ l) : y ≠ e → e.2 < y.2 := first y (by simp [hy])
    rw [List.foldl_cons]
    by_cases less : a.2 < x.2
    · have stays : x ≠ e := by
        rintro rfl
        by_cases same : a = x
        · exact absurd less (by simp [same])
        · exact absurd (ha same) (by omega)
      rw [earlierOf, if_pos less]
      exact ih a (by simpa [Ne.symm stays] using there) (by simpa using ⟨ha, fun y z hy => rest (y, z) hy⟩)
    · have kept : e ∈ x :: l := by
        rcases List.mem_cons.1 there with rfl | there
        · simp
        rcases List.mem_cons.1 there with rfl | there
        · by_cases same : x = e
          · simp [same]
          · exact absurd (hx same) less
        · simp [there]
      rw [earlierOf, if_neg less]
      exact ih x kept (by simpa using ⟨hx, fun y z hy => rest (y, z) hy⟩)

/-- An entry that is earlier than every other one of a list is found. -/
theorem foldl_earlierOf {e : Nat × Nat} {l : List (Nat × Nat)} (there : e ∈ l) (first : ∀ y ∈ l, y ≠ e → e.2 < y.2) :
    l.foldl earlierOf none = some e := by
  obtain ⟨x, l, rfl⟩ := List.exists_cons_of_ne_nil (List.ne_nil_of_mem there)
  exact foldl_earlierOf_some l x there first

/-! Parking (R396). -/

/-- The only queue that has held a slot since a clock, long enough, is the longest holder where all others are later. -/
theorem longestHolder_eq_some {s : State} {q since : Nat} (held : (queueRec s q).slot = some since)
    (there : tget s.queues q = some (queueRec s q)) (sorted : tsorted s.queues = true)
    (long : since + 64 * usClocks ≤ cycleOf s 0)
    (first : ∀ e ∈ s.queues, ∀ u, e.2.slot = some u → e.1 ≠ q → since < u) : longestHolder s = some q := by
  rw [longestHolder_eq, foldl_earlierOf (e := (q, since))]
  · rfl
  · refine List.mem_filter.2 ⟨List.mem_filterMap.2 ⟨_, tget_mem there, by simp [held]⟩, by simpa using long⟩
  · intro y hy other
    obtain ⟨⟨p, x⟩, mem, at_⟩ := List.mem_filterMap.1 (List.mem_filter.1 hy).1
    obtain ⟨u, slot, rfl⟩ := Option.map_eq_some_iff.1 at_
    refine first _ mem u slot fun same => other ?_
    obtain rfl : p = q := same
    have own := tget_of_mem sorted mem
    rw [there, Option.some.injEq] at own
    subst own
    rw [held, Option.some.injEq] at slot
    rw [slot]

theorem waitSlotParking_parks {s : State} {q : Nat} (full : 16 ≤ slotsHeld s) (longest : longestHolder s = some q)
    (waits : conditionHolds s q = false) : exec .waitSlotParking s = .next (putQueue s q { queueRec s q with
      slot := none, st := 3, parks := (queueRec s q).parks + 1, parkedAt := cycleOf s 0 }) := by
  show execWaitSlotParking s = _
  rw [execWaitSlotParking, if_neg (by omega), longest]
  dsimp only
  rw [if_neg (ne_true_of_eq_false waits)]

/-! Free slots (R396). -/

/-- A queue whose state is not that of an idle one is listed. -/
theorem tget_queues_of_st {s : State} {q : Nat} (h : (queueRec s q).st ≠ 0) : tget s.queues q = some (queueRec s q) := by
  cases found : tget s.queues q with
  | none => exact absurd (by rw [queueRec, tgetD, found]; rfl) h
  | some x => rw [queueRec, tgetD, found, Option.getD_some]

/-- A table whose value at a key changes has as many entries of a sort as before, where the two values are of one sort. -/
theorem length_filter_tput {α : Type} {p : Nat × α → Bool} {k : Nat} {u v : α} (same : p (k, v) = p (k, u)) {t : Tbl α}
    (sorted : tsorted t = true) (there : tget t k = some u) : ((tput t k v).filter p).length = (t.filter p).length := by
  rw [tsorted_iff] at sorted
  induction t with
  | nil => simp [tget] at there
  | cons e r ih =>
    obtain ⟨j, x⟩ := e
    obtain ⟨low, rest⟩ := List.pairwise_cons.1 sorted
    by_cases here : j = k
    · subst here
      obtain rfl : x = u := by simpa [tget] using there
      simp [tput, List.filter_cons, same]
      split <;> rfl
    · have later : tget r k = some u := by simpa [tget, here] using there
      have above : ¬ k < j := fun less => by
        have := low _ (tget_mem later)
        omega
      simp only [tput, above, here, if_false, List.filter_cons]
      split
      · simp [ih rest later]
      · exact ih rest later

theorem slotsHeld_setQueue {s : State} {q : Nat} {x : Queue} (sorted : tsorted s.queues = true)
    (there : tget s.queues q = some (queueRec s q)) (same : x.slot = (queueRec s q).slot) :
    slotsHeld (setQueue s q x) = slotsHeld s :=
  length_filter_tput (p := fun e : Nat × Queue => e.2.slot.isSome) (u := queueRec s q) (v := x) (by simp [same]) sorted
    there

theorem shareSlots_full {s : State} (full : 16 ≤ slotsHeld s) (fuel : Nat) : shareSlots fuel s = s := by
  cases fuel with
  | zero => rfl
  | succ fuel => rw [shareSlots, if_pos full]

theorem shareSlots_unwanted {s : State} (none_ : ∀ e ∈ s.queues, e.2.wants = none) (fuel : Nat) : shareSlots fuel s = s := by
  have wanted : slotWanted s = none := by
    have no : s.queues.filterMap (fun e => e.2.wants.map (fun t => (e.1, t))) = [] :=
      List.filterMap_eq_nil_iff.2 fun e he => by rw [none_ e he]; rfl
    rw [slotWanted_eq, no]
    rfl
  cases fuel with
  | zero => rfl
  | succ fuel => rw [shareSlots, wanted, ite_self]

theorem shareSlots_wanted {s : State} {q : Nat} (room : slotsHeld s < 16) (wanted : slotWanted s = some q) (fuel : Nat) :
    shareSlots (fuel + 1) s = shareSlots fuel (giveSlot s q) := by
  rw [shareSlots, if_neg (by omega), wanted]

/-- The one queue that wants a slot is the one that gets the next. -/
theorem slotWanted_setQueue {s : State} {q t : Nat} {x : Queue} (wants : x.wants = some t)
    (none_ : ∀ e ∈ s.queues, e.2.wants = none) : slotWanted (setQueue s q x) = some q := by
  rw [slotWanted_eq, foldl_earlierOf (e := (q, t))]
  · rfl
  · exact List.mem_filterMap.2 ⟨(q, x), tget_mem (tget_tput_self ..), by simp [wants]⟩
  · intro y hy other
    obtain ⟨e, mem, at_⟩ := List.mem_filterMap.1 hy
    rcases mem_tput mem with rfl | mem
    · exact absurd (by simpa [wants] using at_.symm) other
    · simp [none_ e mem] at at_

/-- QSTAT tells a parked queue from one that waits (R386). -/
theorem statusBytes_st_ne {x y : Queue} (hx : x.st = 3) (hy : y.st = 2) (err : x.err = y.err) (parks : x.parks = y.parks) :
    statusBytes x ≠ statusBytes y := by
  intro same
  have bytes (z : Queue) : ((statusBytes z).drop 64).take 8 = leBytes 8 (qstat z) := by
    simp [statusBytes, length_leBytes]
  have nums := congrArg leNat ((bytes x).symm.trans ((congrArg (fun l => (l.drop 64).take 8) same).trans (bytes y)))
  have small (z : Queue) : qstat z < 256 ^ 8 := by
    rw [qstat]
    omega
  rw [leNat_leBytes _ _ (small x), leNat_leBytes _ _ (small y), qstat, qstat, hx, hy, err, parks] at nums
  omega

/-- A parked queue that wants a slot gets it at once where one is free and no other queue wants it. -/
theorem wantSlot_free {s : State} {q : Nat} (parked : (queueRec s q).st = 3) (room : slotsHeld s < 16)
    (sorted : tsorted s.queues = true) (none_ : ∀ e ∈ s.queues, e.2.wants = none) :
    wantSlot s q (queueRec s q) = putQueue s q { queueRec s q with st := 2, slot := some (cycleOf s 0) } := by
  have there : tget s.queues q = some (queueRec s q) := tget_queues_of_st (by omega)
  have wants : (queueRec s q).wants = none := none_ _ (tget_mem there)
  let x : Queue := { queueRec s q with wants := some (cycleOf s 0) }
  let s1 := setQueue s q x
  let y : Queue := { queueRec s q with st := 2, slot := some (cycleOf s 0) }
  have rec1 : queueRec s1 q = x := queueRec_setQueue_self ..
  have given : giveSlot s1 q = putQueue s q y := by
    have self : ({ queueRec s1 q with slot := some (cycleOf s1 0), wants := none, st := 2 } : Queue) = y := by
      rw [rec1]
      show ({ queueRec s q with slot := some (cycleOf s 0), wants := none, st := 2 } : Queue) = y
      rw [← wants]
    have rec2 : queueRec (setQueue s1 q y) q = y := queueRec_setQueue_self ..
    rw [giveSlot, self, showStatus, if_neg (by rw [rec1, rec2]; exact statusBytes_st_ne parked rfl rfl rfl), putQueue,
      setQueue_setQueue]
  have after : ∀ e ∈ (putQueue s q y).queues, e.2.wants = none := by
    rw [putQueue, (beside_writeStatus ..).queues]
    intro e he
    rcases mem_tput he with rfl | he
    · exact wants
    · exact none_ e he
  calc wantSlot s q (queueRec s q)
    _ = shareSlots (63 + 1) s1 := rfl
    _ = shareSlots 63 (giveSlot s1 q) :=
      shareSlots_wanted (lt_of_eq_of_lt (slotsHeld_setQueue (x := x) sorted there rfl) room)
        (slotWanted_setQueue (x := x) rfl none_) 63
    _ = putQueue s q y := by rw [given, shareSlots_unwanted after]

/-- With all slots held a queue that wants one waits for the next that becomes free. -/
theorem wantSlot_full {s : State} {q : Nat} (parked : (queueRec s q).st = 3) (full : 16 ≤ slotsHeld s)
    (sorted : tsorted s.queues = true) :
    wantSlot s q (queueRec s q) = setQueue s q { queueRec s q with wants := some (cycleOf s 0) } :=
  have kept := slotsHeld_setQueue (x := { queueRec s q with wants := some (cycleOf s 0) }) sorted
    (tget_queues_of_st (by omega)) rfl
  shareSlots_full (le_of_le_of_eq full kept.symm) 64

/-- The check of a parked queue 64 µs after the last one. -/
theorem parkedConditionCheck_due {s : State} {q : Nat} (parked : (queueRec s q).st = 3) (wants : (queueRec s q).wants = none)
    (due : (queueRec s q).parkedAt + 64 * usClocks ≤ cycleOf s 0) : exec (.parkedConditionCheck q) s =
      .next (if conditionHolds s q then wantSlot s q (queueRec s q)
        else setQueue s q { queueRec s q with parkedAt := cycleOf s 0 }) := by
  show execParkedConditionCheck q s = _
  rw [execParkedConditionCheck]
  dsimp only
  rw [if_neg (by simp [parked, wants]; omega), apply_ite Host.Outcome.next]

end Sys2Proof.Machine

/-! PROOF. Pages that launches, queues and rings wait for (11 R166, 17 R269, 21 R311, 27 R389, R390). -/

namespace Sys2Proof.Machine

/-! Lease set-up with no stash region mapped (R165, R166). -/

section
variable {s : State} {n : Nat} {g : Grid} (hg : tget s.grids n = some g) (stage : g.stage = 4)
  (quiet : ∀ e ∈ s.wgs, e.2.stash = [])

theorem leaseSeen_none {s : State} (quiet : ∀ e ∈ s.wgs, e.2.stash = []) (g : Grid) : leaseSeen s g = s := by
  rw [leaseSeen, anyStash_none quiet]
  rfl

include hg stage quiet

theorem leaseSetup_leased {es : List (BitVec 128)} {fixed : List (Nat × DWord)}
    (read : readLeases s g.ctx g.desc g.hdr = .ok es) (walk : walkLeases s g.desc es [] = .ok fixed) :
    leaseSetup s n = leased s n g es fixed := by
  simp only [leaseSetup, hg, stage, ne_eq, not_true_eq_false, if_false, leaseSeen_none quiet, Option.getD_some, read, walk]

theorem leaseSetup_page {a : Nat} (read : readLeases s g.ctx g.desc g.hdr = .error (.page a)) :
    leaseSetup s n = reportPage s n a g := by
  simp only [leaseSetup, hg, stage, ne_eq, not_true_eq_false, if_false, leaseSeen_none quiet, Option.getD_some, read]

end

/-- A grid on one package whose queue no longer holds the launch: nothing but the grid and its page's report changes. -/
theorem leased_elsewhere {s : State} {n : Nat} {g : Grid} (es : List (BitVec 128)) (fixed : List (Nat × DWord))
    (one : hMulti g.hdr = false) (past : (queueRec s g.queue).launching ≠ some n) :
    leased s n g es fixed = { setGrid s n (leasedGrid s g es fixed) with
      pageFaults := s.pageFaults.filter (fun f => f.1 != 64 + n) } := by
  let u : State := { setGrid s n (leasedGrid s g es fixed) with
    pageFaults := s.pageFaults.filter (fun f => f.1 != 64 + n) }
  have early : takeEarlyAcks u n g.hdr g.rank = u := by
    rw [takeEarlyAcks, if_neg (fun e => Bool.false_ne_true (one.symm.trans e.1))]
  have acked : gateAck u n = u := by
    have there : tget u.grids n = some (leasedGrid s g es fixed) := tget_tput_self ..
    simp only [gateAck, there]
    rw [if_pos (.inl one)]
  have all : leased s n g es fixed = launchDone (if (g.nextGang == g.lastGang) = true then gateAck
      (takeEarlyAcks u n g.hdr g.rank) n else takeEarlyAcks u n g.hdr g.rank) g.queue n := rfl
  rw [all, early, acked, ite_self]
  exact if_neg past

/-! Pages (R166, R311). -/

/-- The report of a page stands where its grid waits for it. -/
theorem reportPage_waits (s : State) (n a : Nat) (g : Grid) :
    tget (reportPage s n a g).grids n = some { g with page := some a } ∧ (64 + n, a) ∈ (reportPage s n a g).pageFaults := by
  unfold reportPage
  dsimp only
  rw [hostEvent_rest]
  exact ⟨tget_tput_self .., by simp⟩

/-- The page of a waiter is no longer awaited. -/
def pageServed (s : State) (key : Nat) : State := { s with pageFaults := s.pageFaults.filter (fun f => f.1 != key) }

/-- A launch walks again when its page has been served. -/
theorem pageServiceResume_launch {s : State} {n va : Nat} {g : Grid} (hg : tget s.grids n = some g) (page : g.page = some va) :
    exec (.pageServiceResume (64 + n)) s =
      .next (leaseSetup (pageServed s (64 + n)) n) := by
  show execPageServiceResume (64 + n) s = _
  simp [execPageServiceResume, hg, page, pageServed]

/-- A launch whose page is declined is refused, with the address on its queue (R44, R311). -/
theorem pageServiceDeclined_refuses {s : State} {n va : Nat} {g : Grid} (hg : tget s.grids n = some g)
    (page : g.page = some va) (open_ : g.desc.getLsbD 3 = false) :
    ∃ t, exec (.pageServiceDeclined n) s = .next t ∧ tget t.grids n = none ∧
      field (queueRec t g.queue).record 6 0 = 0x22 ∧ field (queueRec t g.queue).record 319 256 = va % 2 ^ 64 := by
  have runs : exec (.pageServiceDeclined n) s =
      .next (refuseLaunch s g.queue g.ctx n g.rank g.desc g.hdr 0x22 va) := by
    show execPageServiceDeclined n s = _
    simp only [execPageServiceDeclined, hg, page, refuseGrid]
  rw [runs, refuseLaunch_open _ _ _ _ _ open_]
  generalize refusalTold s n g.rank g.hdr = u
  dsimp only
  obtain ⟨cause, faddr, -⟩ := faultRecord_fields (cycleOf u 0) n 0 (if hMulti g.hdr then g.rank else 0)
    { cpBlame 0x22 with faddr := va }
  generalize faultRecord none _ n 0 _ _ = r at cause faddr
  obtain ⟨x, rec, beside⟩ := recordOnQueue_beside { u with
    grids := tdel u.grids n, pageFaults := u.pageFaults.filter (fun f => f.1 != 64 + n) } g.queue g.ctx n 0 r
  generalize recordOnQueue _ g.queue g.ctx n 0 r = t at beside
  have onQueue : (queueRec t g.queue).record = r := by
    rw [queueRec, beside.queues, ← rec]
    exact congrArg Queue.record (queueRec_setQueue_self ..)
  refine ⟨t, rfl, by simpa [tget_tdel] using beside.grids n, ?_, ?_⟩
  · rw [onQueue, cause]
    rfl
  · rw [onQueue, faddr]

/-! Rings of hardware queues (R269). -/

/-- A hardware queue as its enable leaves it: empty, with the lanes that wait on it. -/
def enabledHwq (s : State) (k : Nat) (d : BitVec 256) (ps : List Nat) : Hwq :=
  ⟨setField (setField d 255 192 0) 191 128 0, [], (hwqRec s k).waiters, none, ps⟩

/-- A resident ring enables its queue, and the lanes that wait on it are served. -/
theorem hwqRingResident_enables {s : State} {k : Nat} {d : BitVec 256} {ps : List Nat}
    (enabling : (hwqRec s k).enabling = some d) (walk : ringWalk s d (ringPages d) = .ok ps) :
    exec (.hwqRingResident k) s = .next (hqServeAll (setHwq
      (tablesSeen { s with pageFaults := s.pageFaults.filter (fun f => f.1 != hwqPageKey k) } (descOf s (hqCtx d))
        ((ringPages d).map (ringPart d))) k (enabledHwq s k d ps)) k) := by
  show execHwqRingResident k s = _
  simp only [execHwqRingResident, enabling, walk]
  rfl

theorem enabledHwq_fields (s : State) (k : Nat) (d : BitVec 256) (ps : List Nat) :
    let y := enabledHwq s k d ps
    hqEn y.desc = hqEn d ∧ hqCtx y.desc = hqCtx d ∧ hqPushed y.desc = 0 ∧ hqPopped y.desc = 0 := by
  dsimp only [enabledHwq]
  refine ⟨?_, ?_, ?_, ?_⟩
  · rw [hqEn, getLsbD_setField _ _ _ (by decide), getLsbD_setField _ _ _ (by decide)]
    rfl
  · rw [hqCtx, field_setField_ne _ _ (by decide) (by decide) (by decide),
      field_setField_ne _ _ (by decide) (by decide) (by decide)]
    rfl
  · rw [hqPushed, field_setField_self _ _ (by decide) (by decide)]
    rfl
  · rw [hqPopped, field_setField_ne _ _ (by decide) (by decide) (by decide),
      field_setField_self _ _ (by decide) (by decide)]
    rfl

end Sys2Proof.Machine

/-! PROOF. The background copy of a snapshot (11 R184, 19 R289; log 103), and what queues wait for. -/

namespace Sys2Proof.Machine

/-! Poison that goes with data (R408). -/

theorem mem_carryPoison {s : State} {src dst n x : Nat} : x ∈ (carryPoison s src dst n).poison ↔
    x ∈ s.poison ∨ (dst ≤ x ∧ x < dst + n ∧ x - dst + src ∈ s.poison) := by
  unfold carryPoison
  split
  case isTrue =>
    have carried : (∃ y, (y ∈ s.poison ∧ src ≤ y ∧ y < src + n) ∧ y - src + dst = x) ↔
        dst ≤ x ∧ x < dst + n ∧ x - dst + src ∈ s.poison := by
      constructor
      · rintro ⟨y, ⟨mem, low, high⟩, rfl⟩
        refine ⟨by omega, by omega, ?_⟩
        rwa [show y - src + dst - dst + src = y by omega]
      · rintro ⟨low, high, mem⟩
        exact ⟨_, ⟨mem, by omega, by omega⟩, by omega⟩
    simp only [List.mem_append, List.mem_filter, List.mem_map, Bool.and_eq_true, decide_eq_true_eq, carried,
      Bool.not_eq_true', List.contains_eq_mem, decide_eq_false_iff_not]
    tauto
  case isFalse clean =>
    refine ⟨.inl, fun h => h.resolve_right fun ⟨low, high, mem⟩ => clean ?_⟩
    exact List.any_eq_true.2 ⟨_, mem, by simp; omega⟩

/-! The copy of one line (R184). -/

/-- A warp after a line of a snapshot has been copied to an area: a take that has read the area is stale where its bytes
have changed (log 103). -/
def copySeen (s : State) (p a : Nat) (w : Warp) : Warp :=
  { w with take := w.take.map (fun tk =>
      if memBytes s.mem p 128 ≠ memBytes s.mem a 128 ∧ tk.readSet.any (fun n => (linesOf a 128).contains n) = true then
        { tk with stale := true } else tk) }

/-- A context's snapshot goes on with the lines left. -/
def snapLeft (s : State) (ctx : Nat) (r : List (Nat × Nat)) : State := setCtx s ctx { ctxRec s ctx with snap := some ⟨r⟩ }

/-- Takes, bytes and poison after a line has been copied. -/
def lineCopied (s : State) (p a : Nat) : State :=
  let s1 := { s with warps := s.warps.map (fun e => (e.1, copySeen s p a e.2)) }
  carryPoison (plainStore s1 a (memBytes s.mem p 128)) p a 128

/-- What a copied line leaves as it was. -/
theorem lineCopied_rest (s : State) (p a : Nat) :
    let t := lineCopied s p a
    t = { s with mem := t.mem, grids := t.grids, poison := t.poison
                 warps := s.warps.map (fun e => (e.1, copySeen s p a e.2)) } := by
  dsimp only [lineCopied]
  have rest := plainStore_rest (memBytes s.mem p 128) { s with warps := s.warps.map (fun e => (e.1, copySeen s p a e.2)) } a
  generalize plainStore _ a (memBytes s.mem p 128) = u at rest
  rw [rest]
  unfold carryPoison
  split <;> rfl

theorem exists_lineCopied_eq (s : State) (p a : Nat) : ∃ m g po, lineCopied s p a =
    { s with mem := m, grids := g, poison := po, warps := s.warps.map (fun e => (e.1, copySeen s p a e.2)) } :=
  ⟨_, _, _, lineCopied_rest ..⟩

theorem lineCopied_mem (s : State) (p a : Nat) : (lineCopied s p a).mem = memPuts s.mem a (memBytes s.mem p 128) := by
  rw [lineCopied, carryPoison_mem, plainStore_mem]

theorem memByte_lineCopied (s : State) (p a : Nat) :
    (∀ j < 128, memByte (lineCopied s p a).mem (a + j) = memByte s.mem (p + j)) ∧
      ∀ x, x < a ∨ a + 128 ≤ x → memByte (lineCopied s p a).mem x = memByte s.mem x := by
  have length : (memBytes s.mem p 128).length = 128 := by simp [memBytes]
  rw [lineCopied_mem]
  refine ⟨fun j hj => ?_, fun x out => ?_⟩
  · rw [memByte_memPuts, length, if_pos (by omega), Nat.add_sub_cancel_left]
    simp [memBytes, hj]
  · rw [memByte_memPuts, length, if_neg (by omega)]

theorem mem_poison_lineCopied {s : State} {p a : Nat} (apart : p + 128 ≤ a ∨ a + 128 ≤ p) :
    (∀ j < 128, (a + j ∈ (lineCopied s p a).poison ↔ p + j ∈ s.poison)) ∧
      ∀ x, x < a ∨ a + 128 ≤ x → (x ∈ (lineCopied s p a).poison ↔ x ∈ s.poison) := by
  have length : (memBytes s.mem p 128).length = 128 := by simp [memBytes]
  refine ⟨fun j hj => ?_, fun x out => ?_⟩
  · rw [lineCopied, mem_carryPoison, poison_plainStore_iff, poison_plainStore_iff, length,
      show a + j - a + p = p + j by omega]
    have inside : a ≤ a + j ∧ a + j < a + 128 := by omega
    have beyond : ¬ (a ≤ p + j ∧ p + j < a + 128) := by omega
    simp [inside.2, beyond]
  · rw [lineCopied, mem_carryPoison, poison_plainStore_iff, length]
    have beyond : ¬ (a ≤ x ∧ x < a + 128) := by omega
    simp only [beyond, not_false_iff, and_true, ← and_assoc, false_and, or_false]

theorem staleTakes_copySeen (s : State) (p a : Nat) :
    (if memBytes s.mem p 128 = memBytes s.mem a 128 then s else staleTakes s (fun n => (linesOf a 128).contains n)) =
      { s with warps := s.warps.map (fun e => (e.1, copySeen s p a e.2)) } := by
  split
  case isTrue same =>
    have kept (w : Warp) : copySeen s p a w = w := by simp [copySeen, same]
    simp [kept]
  case isFalse differ => simp [staleTakes, copySeen, differ]

/-- No snapshot of a state has a line still to copy from a range. -/
theorem snapHits_none {s : State} {a n : Nat}
    (apart : ∀ e ∈ s.ctxs, ∀ sn, e.2.snap = some sn → ∀ y ∈ sn.todo, y.1 + 128 ≤ a ∨ a + n ≤ y.1) : snapHits s a n = [] := by
  rw [snapHits, List.flatMap_eq_nil_iff]
  intro e he
  split
  · rfl
  · next sn found =>
    rw [List.map_eq_nil_iff, List.filter_eq_nil_iff]
    intro y hy
    have := apart e he sn found y hy
    simp
    omega

section
variable {s : State} {ctx p a : Nat} {r : List (Nat × Nat)} (quiet : ∀ e ∈ s.wgs, e.2.stash = []) (boxes : s.mailboxes = [])
  (snap : (ctxRec s ctx).snap = some ⟨(p, a) :: r⟩) (once : (p, a) ∉ r)
  (apart : ∀ e ∈ s.ctxs, ∀ sn, e.2.snap = some sn → ∀ y ∈ sn.todo, y.1 + 128 ≤ a ∨ a + 128 ≤ y.1)

include snap apart in
/-- The line and its place in the area are apart. -/
theorem snapshot_apart : p + 128 ≤ a ∨ a + 128 ≤ p := by
  cases found : tget s.ctxs ctx with
  | none =>
    rw [ctxRec, tgetD, found] at snap
    cases snap
  | some x =>
    rw [ctxRec, tgetD, found, Option.getD_some] at snap
    exact apart _ (tget_mem found) _ snap (p, a) (by simp)

include quiet boxes snap once apart

/-- The engine copies the first line left; where no line is left the snapshot is complete. -/
theorem snapshotBackgroundCopy_copies :
    exec (.snapshotBackgroundCopy ctx) s = .next (snapFinish (lineCopied (snapLeft s ctx r) p a) ctx) := by
  have left : ((p, a) :: r).filter (· != (p, a)) = r := by
    rw [List.filter_cons_of_neg (by simp), List.filter_eq_self]
    intro y hy
    simp only [bne_iff_ne, ne_eq]
    rintro rfl
    exact once hy
  have hits : snapHits (snapLeft s ctx r) a 128 = [] := snapHits_none fun e he sn found y hy => by
    rcases mem_tput he with rfl | he
    · obtain rfl : sn = ⟨r⟩ := (Option.some.inj found).symm
      cases listed : tget s.ctxs ctx with
      | none =>
        rw [ctxRec, tgetD, listed] at snap
        cases snap
      | some x =>
        rw [ctxRec, tgetD, listed, Option.getD_some] at snap
        exact apart _ (tget_mem listed) _ snap y (List.mem_cons_of_mem _ hy)
    · exact apart e he sn found y hy
  have none_ : doorbells (lineCopied (snapLeft s ctx r) p a) a 128 = [] := by
    rw [lineCopied_rest]
    show (List.filter _ s.mailboxes).map _ = []
    rw [boxes]
    rfl
  have rung (t : State) : ringDoorbells t [] = t := by simp [ringDoorbells]
  have stale := staleTakes_copySeen (snapLeft s ctx r) p a
  show execSnapshotBackgroundCopy ctx s = _
  simp only [execSnapshotBackgroundCopy, snap]
  rw [snapLine]
  simp only [snap, List.contains_cons, BEq.rfl, Bool.true_or, Bool.not_true, Bool.false_eq_true, if_false, left]
  rw [← snapLeft, flushRange_none (snapLeft s ctx r) quiet, flushRange_none (snapLeft s ctx r) quiet, hits, List.foldl_nil,
    stale]
  refine congrArg Host.Outcome.next ?_
  show snapFinish (ringDoorbells (lineCopied (snapLeft s ctx r) p a) (doorbells (lineCopied (snapLeft s ctx r) p a) a 128))
    ctx = _
  rw [none_, rung]

end

/-! The end of a snapshot (R184). -/

theorem snapFinish_rest (s : State) (ctx : Nat) : snapFinish s ctx = { s with ctxs := (snapFinish s ctx).ctxs } := by
  unfold snapFinish
  split <;> rfl

theorem snapFinish_more {s : State} {ctx : Nat} {y : Nat × Nat} {r : List (Nat × Nat)}
    (snap : (ctxRec s ctx).snap = some ⟨y :: r⟩) : snapFinish s ctx = s := by
  simp only [snapFinish, snap]

theorem snapFinish_done {s : State} {ctx : Nat} (snap : (ctxRec s ctx).snap = some ⟨[]⟩) :
    (ctxRec (snapFinish s ctx) ctx).snap = none ∧ tlOf (snapFinish s ctx) ctx snapHandle =
      tlComplete (tlOf s ctx snapHandle) ((tlOf s ctx snapHandle).value + 1) := by
  have ended : tlOf (setCtx s ctx { ctxRec s ctx with snap := none }) ctx snapHandle = tlOf s ctx snapHandle := by
    rw [tlOf, ctxRec_setCtx_self, tlOf]
  simp only [snapFinish, snap]
  rw [tlOf_setTl, ended]
  exact ⟨by rw [setTl, ctxRec_setCtx_self, ctxRec_setCtx_self], rfl⟩

theorem ctxRec_lineCopied (s : State) (p a n : Nat) : ctxRec (lineCopied s p a) n = ctxRec s n := by
  obtain ⟨m, g, po, copied⟩ := exists_lineCopied_eq s p a
  rw [copied]
  rfl

/-- The snapshot after a copy: the lines left, or its completion on the counter of the snapshot engine. -/
theorem snapFinish_copied (s : State) (ctx p a : Nat) (r : List (Nat × Nat)) :
    let t := snapFinish (lineCopied (snapLeft s ctx r) p a) ctx
    (ctxRec t ctx).snap = (if r = [] then none else some ⟨r⟩) ∧
      (r = [] → tlOf t ctx snapHandle = tlComplete (tlOf s ctx snapHandle) ((tlOf s ctx snapHandle).value + 1)) := by
  have record : ctxRec (lineCopied (snapLeft s ctx r) p a) ctx = { ctxRec s ctx with snap := some ⟨r⟩ } := by
    rw [ctxRec_lineCopied, snapLeft, ctxRec_setCtx_self]
  cases r with
  | nil =>
    obtain ⟨ended, counts⟩ := snapFinish_done (congrArg Ctx.snap record)
    have counter : tlOf (lineCopied (snapLeft s ctx []) p a) ctx snapHandle = tlOf s ctx snapHandle := by
      rw [tlOf, record, tlOf]
    rw [counter] at counts
    exact ⟨ended, fun _ => counts⟩
  | cons y r =>
    dsimp only
    rw [snapFinish_more (congrArg Ctx.snap record), record]
    exact ⟨(if_neg (List.cons_ne_nil _ _)).symm, fun h => absurd h (List.cons_ne_nil _ _)⟩

/-- Settles O46: conditions, pages, wait slots, rings and the background copy, form by form. -/
theorem waitsOfQueues : Obligations.WaitsOfQueues := by
  unfold Obligations.WaitsOfQueues
  intro s
  refine ⟨fun q n g launching hg => ?conditions, fun n va low page => ?queuePage,
    fun n g va hg page stage => ⟨fun es fixed quiet read walk one past => ?leased_, fun a quiet read => ?again,
      fun _ open_ => pageServiceDeclined_refuses hg page open_⟩,
    fun room => if_pos room, fun q since full waits held there sorted long first =>
      waitSlotParking_parks full (longestHolder_eq_some held there sorted long first) waits,
    fun q parked wants due => ?check, fun k d ps enabling walk => ⟨enabledHwq s k d ps, rfl, rfl, rfl, rfl, ?ring⟩,
    fun ctx p a r quiet boxes snap once apart => ?copy⟩
  case conditions =>
    have runs : exec (.launchConditionsSatisfied q) s = .next
        (if g.stage = 3 ∧ condsHold s g.ctx g.conds = true ∧ (queueRec s q).st ≠ 3 then writeStatus (toLease s q n g) q
          else s) := by
      show execLaunchConditionsSatisfied q s = _
      simp only [execLaunchConditionsSatisfied, launching, hg]
    rw [runs]
    refine ⟨fun stage holds st => ?_, fun waits => ?_⟩
    · rw [if_pos ⟨stage, holds, st⟩, toLease]
    · rw [if_neg]
      rintro ⟨stage, holds, -⟩
      rcases waits with other | fails
      · exact other stage
      · exact Bool.false_ne_true (fails.symm.trans holds)
  case queuePage =>
    have runs : exec (.pageServiceResume n) s = execPageServiceResume n s := rfl
    rw [runs, execPageServiceResume]
    dsimp only
    rw [if_pos low]
    have same : queueRec { s with pageFaults := s.pageFaults.filter (fun f => f.1 != n) } n = queueRec s n := rfl
    rw [same, page]
    exact ⟨fun st => by rw [st]; rfl, fun st => by rw [if_neg st]; rfl⟩
  case leased_ =>
    rw [pageServiceResume_launch hg page]
    have runs := (leaseSetup_leased (s := pageServed s (64 + n)) hg stage quiet read walk).trans
      (leased_elsewhere _ _ one past)
    rw [runs]
    refine ⟨_, rfl, (tget_tput_self ..).trans ?_, fun e he => ?_⟩
    · simp only [leasedGrid, beq_iff_eq]
      rfl
    · simpa using (List.mem_filter.1 he).2
  case again =>
    rw [pageServiceResume_launch hg page]
    rw [leaseSetup_page (s := pageServed s (64 + n)) hg stage quiet read]
    exact ⟨_, rfl, reportPage_waits ..⟩
  case check =>
    rw [parkedConditionCheck_due parked wants due]
    refine ⟨fun holds room sorted none_ => ?_, fun holds full sorted => ?_, fun fails => ?_⟩
    · rw [holds, if_pos rfl, wantSlot_free parked room sorted none_]
    · rw [holds, if_pos rfl, wantSlot_full parked full sorted]
    · rw [fails, if_neg Bool.false_ne_true]
  case ring =>
    obtain ⟨en, ctx, pushed, popped⟩ := enabledHwq_fields s k d ps
    refine ⟨en, ctx, pushed, popped, hwqRingResident_enables enabling walk, fun none_ => ?_, fun quiet => ?_⟩
    · rw [hwqRingResident_enables enabling walk, hqServeAll_none]
      rw [hwqRec_setHwq_self]
      exact none_
    · rw [tablesSeen_none]
      exact quiet
  case copy =>
    refine ⟨_, snapshotBackgroundCopy_copies quiet boxes snap once apart, ?_⟩
    obtain ⟨left, counter⟩ := snapFinish_copied s ctx p a r
    have lines := snapshot_apart snap apart
    obtain ⟨inBytes, outBytes⟩ := memByte_lineCopied (snapLeft s ctx r) p a
    obtain ⟨inPoison, outPoison⟩ := mem_poison_lineCopied (s := snapLeft s ctx r) lines
    obtain ⟨c, finished⟩ : ∃ c, snapFinish (lineCopied (snapLeft s ctx r) p a) ctx =
        { lineCopied (snapLeft s ctx r) p a with ctxs := c } := ⟨_, snapFinish_rest ..⟩
    obtain ⟨m, g, po, copied⟩ := exists_lineCopied_eq (snapLeft s ctx r) p a
    rw [finished] at left counter ⊢
    rw [copied] at left counter inBytes outBytes inPoison outPoison ⊢
    refine ⟨fun j hj => ⟨inBytes j hj, inPoison j hj⟩, fun x hx => ⟨outBytes x hx, outPoison x hx⟩, left, counter,
      fun k w hw => ?_, rfl⟩
    exact (tget_map s.warps (fun _ => copySeen s p a) k).trans (congrArg (Option.map (copySeen s p a)) hw)

end Sys2Proof.Machine
